-- ==== Sys2Proof/Word.lean ====
section
/-! DEFINITION. The words of the ZX12: bytes, 32-bit lane words, 64-bit uniform words (R52, R63, R69). -/

namespace Sys2Proof

abbrev Byte := BitVec 8
abbrev Word := BitVec 32
abbrev DWord := BitVec 64

end Sys2Proof
end

