-- ==== Sys2Proof/Config.lean ====
section
/-! DEFINITION. What an implementation fixes and the free values: constants without a body, of which nothing can be proved.
Each is applied to the operands it depends on, or to the counter `State.nfree`, which every draw advances. -/

namespace Sys2Proof.Config

/-- Which of several possible things happens next (R50, R157 leave it to timing): an index, taken modulo their number. -/
opaque pick : Nat → Nat

/-- Whether a lane group that can issue is ready in a cycle (R156, R157): its registers, pipes and collector entries are timing. -/
opaque ready : Nat → Nat → Bool

/-- The 20-bit comparator draws of WHITE mode (R199, R206), which come from a physical source. -/
opaque white : Nat → BitVec 32

/-- The outcome of a monitor probe (R206). -/
opaque probe : Nat → Bool

/-- Where a bad word of a core stands in a region of the dump to which the spec gives no layout (R471). -/
opaque dumpPlace : Nat → Nat

/-- What the device writes where the spec gives an image no layout (the spill slots of R149, parts of the dump of R471). -/
opaque image : Nat → List Byte

/-- Whether a word that comes from outside, or a word of a spilled image, carries poison (R422). -/
opaque bearsPoison : Nat → Bool

/-- What a line stored under one key reads as under another (R118): stored key, key of the request, line address, bytes. -/
opaque recrypt : Nat → Nat → Nat → List Byte → List Byte

/-- The signature of a quote (R466): index of the one-time key, message. -/
opaque sign : Nat → List Byte → List Byte

/-- The fused security versions and the device serial of a quote (R466). -/
opaque fused : List Byte

/-- Whether a read that R64 lets return the value before or the value after a write sees the next value. -/
opaque seesNew : Nat → Bool

/-- The result of a special function (R102) whose rounding the model's enclosure does not decide: operation, operand. -/
opaque special : Nat → Nat → BitVec 32

end Sys2Proof.Config
end

