-- ==== Sys2Proof/Machine/Float.lean ====
section
/-! DEFINITION. Wide floating point (R80 to R84): exact dyadic values, one rounding, flags; the correctly rounded
reciprocal and roots; compares and classes. -/

namespace Sys2Proof.Machine

/-- A wide format: exponent and mantissa bits (R80). -/
structure Fmt where
  eb : Nat
  mb : Nat
  deriving DecidableEq, Repr

def f32 : Fmt := ⟨8, 23⟩
def bf16 : Fmt := ⟨8, 7⟩
def f16 : Fmt := ⟨5, 10⟩

def Fmt.bias (f : Fmt) : Nat := 2 ^ (f.eb - 1) - 1
def Fmt.width (f : Fmt) : Nat := 1 + f.eb + f.mb
/-- The encoding of +infinity. -/
def Fmt.inf (f : Fmt) : Nat := (2 ^ f.eb - 1) * 2 ^ f.mb
/-- The canonical NaN (R82). -/
def Fmt.nan (f : Fmt) : Nat := f.inf + 2 ^ (f.mb - 1)
def Fmt.sign (f : Fmt) (neg : Bool) : Nat := if neg then 2 ^ (f.eb + f.mb) else 0

/-- A number: a NaN (signalling or not), an infinity, or (-1)^neg · m · 2^e exactly. -/
inductive Num where
  | nan (sig : Bool)
  | inf (neg : Bool)
  | fin (neg : Bool) (m : Nat) (e : Int)
  deriving DecidableEq, Repr

def Num.isNan : Num → Bool
  | .nan _ => true
  | _ => false
def Num.isSig : Num → Bool
  | .nan b => b
  | _ => false
def Num.isZero : Num → Bool
  | .fin _ m _ => m == 0
  | _ => false
def Num.neg : Num → Num
  | .nan b => .nan b
  | .inf s => .inf (!s)
  | .fin s m e => .fin (!s) m e

/-- The value of an encoding (R80, R82). -/
def Fmt.num (f : Fmt) (x : Nat) : Num :=
  let m := x % 2 ^ f.mb
  let e := (x / 2 ^ f.mb) % 2 ^ f.eb
  let s := x / 2 ^ (f.eb + f.mb) % 2 == 1
  if e = 2 ^ f.eb - 1 then (if m = 0 then .inf s else .nan (m < 2 ^ (f.mb - 1)))
  else if e = 0 then .fin s m (1 - (f.bias : Int) - f.mb)
  else .fin s (2 ^ f.mb + m) ((e : Int) - f.bias - f.mb)

/-! ## Flags (R75, R83) -/

abbrev FFlags := BitVec 5
def fNv : FFlags := 1
def fDz : FFlags := 2
def fOf : FFlags := 4
def fUf : FFlags := 8
def fNx : FFlags := 16

/-! ## Rounding -/

inductive Rnd where
  | rne | rz | sat
  deriving DecidableEq, Repr

/-- m / 2^sh rounded in a mode (`sat` rounds as `rne`), and whether bits were lost. -/
def roundShift (r : Rnd) (m sh : Nat) : Nat × Bool :=
  let q := m >>> sh
  let t := m % 2 ^ sh
  let up := r ≠ .rz && (2 * t > 2 ^ sh || (2 * t = 2 ^ sh && q % 2 = 1 && sh ≠ 0))
  (if up then q + 1 else q, t ≠ 0)

/-- A magnitude m·2^e on a grid of `mb` mantissa bits whose least exponent field stands for 2^(1-bias): the encoding
without sign as if its exponent field had no upper limit, whether it is inexact, whether it is tiny after rounding
(R81, R97 step 1). On a grid without mantissa bits a tie goes to the larger magnitude (log entry 70). -/
def gridRound (mb : Nat) (bias : Int) (r : Rnd) (m : Nat) (e : Int) : Nat × Bool × Bool :=
  if m = 0 then (0, false, false) else
  let top := e + Nat.log2 m
  let q := max (top - mb) (1 - bias - mb)
  let (n, nx) := if q ≤ e then (m <<< (e - q).toNat, false) else roundShift r m (q - e).toNat
  let qu := top - mb
  let nu := if qu ≤ e then m <<< (e - qu).toNat else (roundShift r m (qu - e).toNat).1
  let tiny := decide (qu + Nat.log2 nu < 1 - bias)
  ((q + mb + bias - 1).toNat * 2 ^ mb + n, nx, tiny)

/-- A finite value rounded once to a wide format (R81, R83, R97). -/
def Fmt.round (f : Fmt) (r : Rnd) (neg : Bool) (m : Nat) (e : Int) : Nat × FFlags :=
  let (n, nx, tiny) := gridRound f.mb f.bias r m e
  if f.inf ≤ n then
    (f.sign neg + (if r = .rne then f.inf else f.inf - 1), fOf ||| fNx)
  else (f.sign neg + n, (if nx then fNx else 0) ||| (if nx && tiny then fUf else 0))

/-- A number in a wide format, rounded to nearest even. -/
def Fmt.ofNum (f : Fmt) : Num → Nat × FFlags
  | .nan s => (f.nan, if s then fNv else 0)
  | .inf s => (f.sign s + f.inf, 0)
  | .fin s m e => f.round .rne s m e

/-! ## Arithmetic (R81, R82, R84, R288, R290) -/

/-- m·2^e as an integer multiple of 2^e₀, e₀ ≤ e. -/
def scaleTo (neg : Bool) (m : Nat) (e e0 : Int) : Int :=
  let x : Int := (m <<< (e - e0).toNat : Nat)
  if neg then -x else x

/-- The exact sum of two finite values; an exact zero is -0 only where both are negative. -/
def addFin (s : Bool) (m : Nat) (e : Int) (s' : Bool) (m' : Nat) (e' : Int) : Num :=
  let e0 := min e e'
  let x := scaleTo s m e e0 + scaleTo s' m' e' e0
  if x = 0 then .fin (s && s') 0 e0 else .fin (x < 0) x.natAbs e0

/-- The exact sum of two numbers, and whether the operation is invalid. -/
def Num.add : Num → Num → Num × Bool
  | .nan a, .nan b => (.nan false, a || b)
  | .nan a, _ => (.nan false, a)
  | _, .nan b => (.nan false, b)
  | .inf a, .inf b => if a = b then (.inf a, false) else (.nan false, true)
  | .inf a, .fin .. => (.inf a, false)
  | .fin .., .inf b => (.inf b, false)
  | .fin s m e, .fin s' m' e' => (addFin s m e s' m' e', false)

/-- The exact product of two numbers, and whether the operation is invalid. -/
def Num.mul : Num → Num → Num × Bool
  | .nan a, .nan b => (.nan false, a || b)
  | .nan a, _ => (.nan false, a)
  | _, .nan b => (.nan false, b)
  | .inf a, .inf b => (.inf (a != b), false)
  | .inf a, .fin s m _ => if m = 0 then (.nan false, true) else (.inf (a != s), false)
  | .fin s m _, .inf b => if m = 0 then (.nan false, true) else (.inf (s != b), false)
  | .fin s m e, .fin s' m' e' => (.fin (s != s') (m * m') (e + e'), false)

/-- The fused multiply-add, exactly; 0 × infinity is invalid even where the addend is a quiet NaN (R290). -/
def Num.fma (a b d : Num) : Num × Bool :=
  let (p, i) := a.mul b
  let (r, j) := p.add d
  (r, i || j)

def nvIf (b : Bool) : FFlags := if b then fNv else 0

/-- A binary operation on encodings of a format. -/
def Fmt.op2 (f : Fmt) (g : Num → Num → Num × Bool) (a b : Nat) : Nat × FFlags :=
  let (r, i) := g (f.num a) (f.num b)
  let (x, fl) := f.ofNum r
  (x, fl ||| nvIf i)

def Fmt.fadd (f : Fmt) (a b : Nat) : Nat × FFlags := f.op2 Num.add a b
def Fmt.fsub (f : Fmt) (a b : Nat) : Nat × FFlags := f.op2 (fun x y => x.add y.neg) a b
def Fmt.fmul (f : Fmt) (a b : Nat) : Nat × FFlags := f.op2 Num.mul a b
def Fmt.ffma (f : Fmt) (neg : Bool) (a b d : Nat) : Nat × FFlags :=
  let x := f.num a
  let (r, i) := (if neg then x.neg else x).fma (f.num b) (f.num d)
  let (x, fl) := f.ofNum r
  (x, fl ||| nvIf i)

/-- Whether a < b for finite or infinite values, -0 below +0 if `zero`. -/
def Num.lt (zero : Bool) : Num → Num → Bool
  | .nan _, _ => false
  | _, .nan _ => false
  | .inf a, .inf b => a && !b
  | .inf a, .fin .. => a
  | .fin .., .inf b => !b
  | .fin s m e, .fin s' m' e' =>
    let e0 := min e e'
    let x := scaleTo s m e e0
    let y := scaleTo s' m' e' e0
    decide (x < y) || (zero && m == 0 && m' == 0 && s && !s')

/-- minimumNumber and maximumNumber (R84). -/
def Fmt.fminmax (f : Fmt) (isMax : Bool) (a b : Nat) : Nat × FFlags :=
  let x := f.num a
  let y := f.num b
  let fl := nvIf (x.isSig || y.isSig)
  if x.isNan && y.isNan then (f.nan, fl)
  else if x.isNan then (b, fl)
  else if y.isNan then (a, fl)
  else if (if isMax then x.lt true y else y.lt true x) then (b, fl) else (a, fl)

/-- The ten conditions of `fcmp` (R291): the eight codes of R271. Answers the bit and whether nv is set. -/
def fcmpHolds (c : Nat) (a b : Nat) : Bool × Bool :=
  let x := f32.num a
  let y := f32.num b
  let un := x.isNan || y.isNan
  let sg := x.isSig || y.isSig
  let lt := x.lt false y
  let gt := y.lt false x
  match c with
  | 0 => (!un && !lt && !gt, sg)
  | 1 => (un || lt || gt, sg)
  | 2 => (!un && lt, un)
  | 3 => (!un && !gt, un)
  | 4 => (!un && gt, un)
  | 5 => (!un && !lt, un)
  | 6 => (un, sg)
  | _ => (!un, sg)

/-- The class bit of an encoding (R289). -/
def Fmt.fclass (f : Fmt) (a : Nat) : Nat :=
  match f.num a with
  | .nan s => if s then 2 ^ 8 else 2 ^ 9
  | .inf s => if s then 2 ^ 0 else 2 ^ 7
  | .fin s m _ =>
    if m = 0 then (if s then 2 ^ 3 else 2 ^ 4)
    else if m < 2 ^ f.mb then (if s then 2 ^ 2 else 2 ^ 5)
    else (if s then 2 ^ 1 else 2 ^ 6)

/-! ## Reciprocal and roots, correctly rounded: a quotient with a sticky last bit (R102) -/

/-- The integer square root, bit by bit from bit `k - 1`. -/
def isqrtFrom (n : Nat) : Nat → Nat → Nat
  | 0, r => r
  | k + 1, r => let t := r + 2 ^ k; isqrtFrom n k (if t * t ≤ n then t else r)

def isqrt (n : Nat) : Nat := isqrtFrom n (Nat.log2 n / 2 + 1) 0

/-- The flags of R104 for a finite result of a special function: overflow, subnormal or zero and inexact, inexact. -/
def Fmt.spFlags (f : Fmt) (x : Nat) (exact : Bool) : FFlags :=
  let a := x % 2 ^ (f.eb + f.mb)
  (if f.inf ≤ a then fOf else 0) ||| (if !exact && a < 2 ^ f.mb then fUf else 0) ||| (if exact then 0 else fNx)

/-- 1/x for a finite x ≠ 0. -/
def Fmt.rcpFin (f : Fmt) (s : Bool) (m : Nat) (e : Int) : Nat × FFlags :=
  let k := Nat.log2 m + 64
  let q := 2 ^ k / m
  let ex := 2 ^ k % m = 0
  let (x, fl) := f.round .rne s (2 * q + (if ex then 0 else 1)) (-(k : Int) - e - 1)
  (x, f.spFlags x (fl = 0))

/-- The mantissa and exponent with an even exponent. -/
def evenExp (m : Nat) (e : Int) : Nat × Int := if e % 2 = 0 then (m, e) else (2 * m, e - 1)

/-- 1/√x for a finite x > 0. -/
def Fmt.rsqrtFin (f : Fmt) (m : Nat) (e : Int) : Nat × FFlags :=
  let (m, e) := evenExp m e
  let k := Nat.log2 m + 64
  let r := isqrt (2 ^ (2 * k) / m)
  let ex := r * r * m = 2 ^ (2 * k)
  let (x, fl) := f.round .rne false (2 * r + (if ex then 0 else 1)) (-(k : Int) - e / 2 - 1)
  (x, f.spFlags x (fl = 0))

/-- √x for a finite x > 0, with the flags of IEEE 754-2019. -/
def Fmt.sqrtFin (f : Fmt) (m : Nat) (e : Int) : Nat × FFlags :=
  let (m, e) := evenExp m e
  let r := isqrt (m * 2 ^ 128)
  let ex := r * r = m * 2 ^ 128
  f.round .rne false (2 * r + (if ex then 0 else 1)) (e / 2 - 64 - 1)

end Sys2Proof.Machine
end

