-- ==== Sys2Proof/Syntax.lean ====
section
/-! DEFINITION. The instructions and events of spec/opcode_table.json: one constructor per row. The 211 rows with an
encoding carry the fields of their 32-bit word but the chain bit K, which belongs to the packet (R253). The 151 rows
without one are the device's own steps and the outside world's (spec/95_what_each_step_holds.md); they carry what
names the step: cores are x + 24·y (0 to 191), lines are physical addresses, the rest are the model's own numbers. -/

set_option Elab.async false

namespace Sys2Proof

/-- Who writes a register, and in which space (R12, R240, R467): the manager window through the host port, the same
window by the Slate controller, a function's page by its driver, the same page by the partition manager. -/
inductive RegSpace where
  | window
  | slate
  | page (vf : Nat)
  | pageManager (vf : Nat)
  deriving DecidableEq, Repr

/-- The stored word that changes its bits by itself (SOFT_ERROR; R421, R441, R188, R411). -/
inductive ErrSite where
  /-- Uncorrectable error of word `lane` of register `reg` of a lane group. -/
  | register (lg reg lane : Nat)
  /-- Uncorrectable error of the word at a physical address in a core's L1 or stash. -/
  | l1 (core pa : Nat)
  /-- Uncorrectable error of the word at a physical address in its home slice. -/
  | l2 (pa : Nat)
  /-- Uncorrectable error of the word at a physical address in its memory-side cache, of a line that its home slice does not hold. -/
  | msc (pa : Nat)
  /-- Bits of 8 bytes of a slot (rows 0 to 8191, side-area from 8192, record from 8704): one bit is corrected. -/
  | operand (core slot byte : Nat) (flip : BitVec 64)
  /-- Bits of a stored accumulator cell of the active bank. -/
  | cell (core tile i j : Nat) (flip : BitVec 32)
  /-- Bits of a held row or column sum of the active bank. -/
  | sum (core tile : Nat) (isRow : Bool) (idx : Nat) (flip : BitVec 40)
  /-- Uncorrectable error in a bulkhead's control state. -/
  | control (bh : Nat)
  /-- Uncorrectable error in a die's commons. -/
  | commons (die : Nat)
  /-- Uncorrectable error of the matching-store words of a meeting fragment (R451). -/
  | matching (frag word : Nat)
  /-- Uncorrectable error of a partition's fence word (R320). -/
  | fence (part : Nat)
  /-- An error that the code of a storage level corrects (R421): 0 register files and staging buffer, 1 L1, 2 stash, 3 memory-side
  cache, 4 L2; with the die. -/
  | corrected (level die : Nat)
  /-- A permit of a channel of a link is lost (R215, R452). -/
  | permit (link chan : Nat)
  /-- The sender of a channel of a link holds a permit too many (R215, R452). -/
  | surplus (link chan : Nat)
  deriving DecidableEq, Repr

/-- What a peer package's access does (R246): loads or stores 8 bytes, or performs an atomic on 4 or, where `wide`, 8 bytes; `fn` counts
the operations of R313: add, fadd, and, or, xor, unsigned and signed min, unsigned and signed max, exch, cas. -/
inductive RemoteOp where
  | load
  | store (value : BitVec 64)
  | atomic (fn : Nat) (wide : Bool) (value cmp : BitVec 64)
  deriving DecidableEq, Repr

/-- A wrong group sum of a product in flight (R187): half (0 leader, 1 follower), group, row, column, and by how much
the sum the cell formed exceeds the exact one, in units of 2^-600 (any real arithmetic error is a multiple). -/
structure WrongSum where
  half : Nat
  group : Nat
  row : Nat
  col : Nat
  delta : Int
  deriving DecidableEq, Repr

/-- One constructor per row of spec/opcode_table.json. -/
inductive Instr where
  /-- `add`, R285. Adds two 32-bit sources modulo 2^32 in each active lane. -/
  | add (d : BitVec 6) (n : BitVec 1) (a b : BitVec 8)
  /-- `sub`, R285. Subtracts source b from source a modulo 2^32 in each active lane. -/
  | sub (d : BitVec 6) (n : BitVec 1) (a b : BitVec 8)
  /-- `addc`, R285. Writes the carry out of the unsigned 32-bit sum of a and b as 0 or 1. -/
  | addc (d : BitVec 6) (n : BitVec 1) (a b : BitVec 8)
  /-- `subb`, R285. Writes 1 if unsigned a is below unsigned b, otherwise 0. -/
  | subb (d : BitVec 6) (n : BitVec 1) (a b : BitVec 8)
  /-- `mullo`, R285. Writes the low 32 bits of the product of a and b. -/
  | mullo (d : BitVec 6) (n : BitVec 1) (a b : BitVec 8)
  /-- `mulhi`, R285. Writes the high 32 bits of the unsigned product of a and b. -/
  | mulhi (d : BitVec 6) (n : BitVec 1) (a b : BitVec 8)
  /-- `and`, R285. Bitwise AND of two sources. -/
  | and (d : BitVec 6) (n : BitVec 1) (a b : BitVec 8)
  /-- `or`, R285. Bitwise OR of two sources. -/
  | or (d : BitVec 6) (n : BitVec 1) (a b : BitVec 8)
  /-- `xor`, R285. Bitwise exclusive OR of two sources. -/
  | xor (d : BitVec 6) (n : BitVec 1) (a b : BitVec 8)
  /-- `andn`, R285. Bitwise AND of a with the complement of b. -/
  | andn (d : BitVec 6) (n : BitVec 1) (a b : BitVec 8)
  /-- `shl`, R285. Shifts a left by b, giving 0 for shifts of 32 or more. -/
  | shl (d : BitVec 6) (n : BitVec 1) (a b : BitVec 8)
  /-- `shr`, R285. Logical right shift of a by b, giving 0 for shifts of 32 or more. -/
  | shr (d : BitVec 6) (n : BitVec 1) (a b : BitVec 8)
  /-- `sar`, R285. Arithmetic right shift of a by b, filling with the sign for large shifts. -/
  | sar (d : BitVec 6) (n : BitVec 1) (a b : BitVec 8)
  /-- `rotl`, R285. Rotates a left by b modulo 32. -/
  | rotl (d : BitVec 6) (n : BitVec 1) (a b : BitVec 8)
  /-- `min`, R285. Signed minimum of two sources. -/
  | min (d : BitVec 6) (n : BitVec 1) (a b : BitVec 8)
  /-- `max`, R285. Signed maximum of two sources. -/
  | max (d : BitVec 6) (n : BitVec 1) (a b : BitVec 8)
  /-- `addi`, R286. Adds a sign-extended 8-bit immediate to source a. -/
  | addi (d : BitVec 6) (n : BitVec 1) (a i : BitVec 8)
  /-- `andi`, R286. Bitwise AND of a with a sign-extended immediate. -/
  | andi (d : BitVec 6) (n : BitVec 1) (a i : BitVec 8)
  /-- `ori`, R286. Bitwise OR of a with a sign-extended immediate. -/
  | ori (d : BitVec 6) (n : BitVec 1) (a i : BitVec 8)
  /-- `xori`, R286. Bitwise exclusive OR of a with a sign-extended immediate. -/
  | xori (d : BitVec 6) (n : BitVec 1) (a i : BitVec 8)
  /-- `shli`, R286. Shifts a left by an immediate 0 to 31. -/
  | shli (d : BitVec 6) (n : BitVec 1) (a : BitVec 8) (i : BitVec 5)
  /-- `shri`, R286. Logical right shift of a by an immediate. -/
  | shri (d : BitVec 6) (n : BitVec 1) (a : BitVec 8) (i : BitVec 5)
  /-- `sari`, R286. Arithmetic right shift of a by an immediate. -/
  | sari (d : BitVec 6) (n : BitVec 1) (a : BitVec 8) (i : BitVec 5)
  /-- `muli`, R286. Multiplies a by a sign-extended immediate modulo 2^32. -/
  | muli (d : BitVec 6) (n : BitVec 1) (a i : BitVec 8)
  /-- `clz`, R286. Counts the leading zero bits of a. -/
  | clz (d : BitVec 6) (n : BitVec 1) (a : BitVec 8)
  /-- `ctz`, R286. Counts the trailing zero bits of a. -/
  | ctz (d : BitVec 6) (n : BitVec 1) (a : BitVec 8)
  /-- `popc`, R286. Counts the set bits of a. -/
  | popc (d : BitVec 6) (n : BitVec 1) (a : BitVec 8)
  /-- `brev`, R286. Reverses the bit order of a. -/
  | brev (d : BitVec 6) (n : BitVec 1) (a : BitVec 8)
  /-- `bfe`, R286. Extracts a zero-filled bit field of 1 to 8 bits from a. -/
  | bfe (d : BitVec 6) (n : BitVec 1) (a : BitVec 8) (w : BitVec 3) (p : BitVec 5)
  /-- `bfi`, R287. Inserts the low bits of a into a field of the destination. -/
  | bfi (d : BitVec 6) (n : BitVec 1) (a : BitVec 8) (w : BitVec 3) (p : BitVec 5)
  /-- `fadd.f32`, R288. FP32 addition rounded to nearest even. -/
  | faddF32 (d : BitVec 6) (n : BitVec 1) (a b : BitVec 8)
  /-- `fsub.f32`, R288. FP32 subtraction. -/
  | fsubF32 (d : BitVec 6) (n : BitVec 1) (a b : BitVec 8)
  /-- `fmul.f32`, R288. FP32 multiplication. -/
  | fmulF32 (d : BitVec 6) (n : BitVec 1) (a b : BitVec 8)
  /-- `fmin.f32`, R288. FP32 minimumNumber. -/
  | fminF32 (d : BitVec 6) (n : BitVec 1) (a b : BitVec 8)
  /-- `fmax.f32`, R288. FP32 maximumNumber. -/
  | fmaxF32 (d : BitVec 6) (n : BitVec 1) (a b : BitVec 8)
  /-- `fadd.bf16x2`, R288. Packed BF16 addition, each half rounded alone. -/
  | faddBf16x2 (d : BitVec 6) (n : BitVec 1) (a b : BitVec 8)
  /-- `fsub.bf16x2`, R288. Packed BF16 subtraction. -/
  | fsubBf16x2 (d : BitVec 6) (n : BitVec 1) (a b : BitVec 8)
  /-- `fmul.bf16x2`, R288. Packed BF16 multiplication. -/
  | fmulBf16x2 (d : BitVec 6) (n : BitVec 1) (a b : BitVec 8)
  /-- `fmin.bf16x2`, R288. Packed BF16 minimumNumber. -/
  | fminBf16x2 (d : BitVec 6) (n : BitVec 1) (a b : BitVec 8)
  /-- `fmax.bf16x2`, R288. Packed BF16 maximumNumber. -/
  | fmaxBf16x2 (d : BitVec 6) (n : BitVec 1) (a b : BitVec 8)
  /-- `fadd.f16x2`, R288. Packed FP16 addition. -/
  | faddF16x2 (d : BitVec 6) (n : BitVec 1) (a b : BitVec 8)
  /-- `fsub.f16x2`, R288. Packed FP16 subtraction. -/
  | fsubF16x2 (d : BitVec 6) (n : BitVec 1) (a b : BitVec 8)
  /-- `fmul.f16x2`, R288. Packed FP16 multiplication. -/
  | fmulF16x2 (d : BitVec 6) (n : BitVec 1) (a b : BitVec 8)
  /-- `fmin.f16x2`, R288. Packed FP16 minimumNumber. -/
  | fminF16x2 (d : BitVec 6) (n : BitVec 1) (a b : BitVec 8)
  /-- `fmax.f16x2`, R288. Packed FP16 maximumNumber. -/
  | fmaxF16x2 (d : BitVec 6) (n : BitVec 1) (a b : BitVec 8)
  /-- `frcp`, R289. Correctly rounded reciprocal of source a. -/
  | frcp (d : BitVec 6) (n : BitVec 1) (a : BitVec 8) (t : BitVec 2)
  /-- `frsqrt`, R289. Correctly rounded reciprocal square root. -/
  | frsqrt (d : BitVec 6) (n : BitVec 1) (a : BitVec 8) (t : BitVec 2)
  /-- `fsqrt`, R289. Correctly rounded square root. -/
  | fsqrt (d : BitVec 6) (n : BitVec 1) (a : BitVec 8) (t : BitVec 2)
  /-- `fexp2`, R289. Correctly rounded 2 to the power a. -/
  | fexp2 (d : BitVec 6) (n : BitVec 1) (a : BitVec 8) (t : BitVec 2)
  /-- `flog2`, R289. Correctly rounded base-2 logarithm. -/
  | flog2 (d : BitVec 6) (n : BitVec 1) (a : BitVec 8) (t : BitVec 2)
  /-- `fsin`, R289. Correctly rounded sin(pi*a). -/
  | fsin (d : BitVec 6) (n : BitVec 1) (a : BitVec 8) (t : BitVec 2)
  /-- `fcos`, R289. Correctly rounded cos(pi*a). -/
  | fcos (d : BitVec 6) (n : BitVec 1) (a : BitVec 8) (t : BitVec 2)
  /-- `fclass`, R289. Writes the class mask of each element without raising flags. -/
  | fclass (d : BitVec 6) (n : BitVec 1) (a : BitVec 8) (t : BitVec 2)
  /-- `ffma.f32`, R290. FP32 fused multiply-add into the destination, optionally negating the product. -/
  | ffmaF32 (d : BitVec 6) (n : BitVec 1) (a b : BitVec 8) (g : BitVec 1)
  /-- `ffma.bf16x2`, R290. Packed BF16 fused multiply-add. -/
  | ffmaBf16x2 (d : BitVec 6) (n : BitVec 1) (a b : BitVec 8) (g : BitVec 1)
  /-- `ffma.f16x2`, R290. Packed FP16 fused multiply-add. -/
  | ffmaF16x2 (d : BitVec 6) (n : BitVec 1) (a b : BitVec 8) (g : BitVec 1)
  /-- `imad.lo`, R290. Integer multiply-add, low 32 bits, optionally subtracting the product. -/
  | imadLo (d : BitVec 6) (n : BitVec 1) (a b : BitVec 8) (g : BitVec 1)
  /-- `imad.hi`, R290. Integer multiply-add, high 32 bits, unsigned or signed by the neg bit. -/
  | imadHi (d : BitVec 6) (n : BitVec 1) (a b : BitVec 8) (g : BitVec 1)
  /-- `icmp`, R291. Integer compare writing active lanes' bits of a predicate. -/
  | icmp (c q : BitVec 3) (a b : BitVec 8)
  /-- `fcmp`, R291. FP32 compare writing active lanes' bits of a predicate. -/
  | fcmp (c q : BitVec 3) (a b : BitVec 8)
  /-- `sel`, R292. Selects a or b per lane by a predicate named in the function code. -/
  | sel (q : BitVec 3) (d : BitVec 6) (n : BitVec 1) (a b : BitVec 8)
  /-- `pand`, R292. ANDs two predicates into all 32 bits of a third. -/
  | pand (d a b : BitVec 3)
  /-- `por`, R292. ORs two predicates. -/
  | por (d a b : BitVec 3)
  /-- `pxor`, R292. Exclusive-ORs two predicates. -/
  | pxor (d a b : BitVec 3)
  /-- `pnot`, R292. Complements a predicate. -/
  | pnot (d a : BitVec 3)
  /-- `ptest`, R292. Tests a predicate under em and writes all ones or all zeros. -/
  | ptest (m d a : BitVec 3)
  /-- `mov`, R293. Copies any source operand into the destination. -/
  | mov (d : BitVec 6) (n : BitVec 1) (a : BitVec 8)
  /-- `li`, R293. Loads a sign-extended 16-bit immediate. -/
  | li (d : BitVec 6) (n : BitVec 1) (i : BitVec 16)
  /-- `cvt`, R294. Converts between integer, wide and narrow formats as the selector names. -/
  | cvt (d : BitVec 6) (n : BitVec 1) (a s : BitVec 8)
  /-- `shfl`, R295. Reads source a from another lane chosen by index, xor, up or down. -/
  | shfl (d : BitVec 6) (n : BitVec 1) (a : BitVec 8) (r : BitVec 1) (m : BitVec 2) (l : BitVec 5)
  /-- `vote.any`, R296. Writes to active lanes whether any active lane's predicate bit is set. -/
  | voteAny (d q : BitVec 3)
  /-- `vote.all`, R296. Writes to active lanes whether every active lane's predicate bit is set. -/
  | voteAll (d q : BitVec 3)
  /-- `vote.ballot`, R296. Writes the predicate masked by em into a register. -/
  | voteBallot (d : BitVec 6) (n : BitVec 1) (q : BitVec 3)
  /-- `edge`, R298. Sets the edge mode from the next packet. -/
  | edge (m : BitVec 2)
  /-- `idx.set`, R298. Sets the per-lane offset of an index register. -/
  | idxSet (x : BitVec 2) (a : BitVec 8)
  /-- `idx.add`, R298. Adds to the per-lane offset of an index register modulo 256. -/
  | idxAdd (x : BitVec 2) (a : BitVec 8)
  /-- `rgn.pf`, R298. Stages the registers named by a k mask into the lane group's staging slot. -/
  | rgnPf (m : BitVec 5)
  /-- `rgrow`, R53. Requests a larger register allocation, blocking visibly until registers are free. -/
  | rgrow (c : BitVec 3)
  /-- `rshrink`, R54. Reduces the register allocation after pending loads to freed registers land. -/
  | rshrink (c : BitVec 3)
  /-- `rdsp`, R299. Reads a lane-group value such as em, fm or the allocation. -/
  | rdsp (d : BitVec 6) (n : BitVec 1) (s : BitVec 5)
  /-- `ld.x`, R300. Reads a register through an index register. -/
  | ldX (d : BitVec 6) (n : BitVec 1) (x : BitVec 2)
  /-- `st.x`, R300. Writes a register through an index register. -/
  | stX (x : BitVec 2) (a : BitVec 8)
  /-- `lih`, R293. Replaces bits 31 to 11 of v0-v31 with a 21-bit immediate. -/
  | lih (d : BitVec 5) (i : BitVec 21)
  /-- `ld.b8.z`, R305. Loads a byte, zero-extended. -/
  | ldB8Z (c : BitVec 4) (d : BitVec 6) (g : BitVec 3) (a : BitVec 6) (i : BitVec 5)
  /-- `ld.b8.s`, R305. Loads a byte, sign-extended. -/
  | ldB8S (c : BitVec 4) (d : BitVec 6) (g : BitVec 3) (a : BitVec 6) (i : BitVec 5)
  /-- `ld.b16.z`, R305. Loads 2 bytes, zero-extended. -/
  | ldB16Z (c : BitVec 4) (d : BitVec 6) (g : BitVec 3) (a : BitVec 6) (i : BitVec 5)
  /-- `ld.b16.s`, R305. Loads 2 bytes, sign-extended. -/
  | ldB16S (c : BitVec 4) (d : BitVec 6) (g : BitVec 3) (a : BitVec 6) (i : BitVec 5)
  /-- `ld.b32`, R305. Loads 4 bytes per active lane as a split-phase access. -/
  | ldB32 (c : BitVec 4) (d : BitVec 6) (g : BitVec 3) (a : BitVec 6) (i : BitVec 5)
  /-- `ld.b64`, R305. Loads 8 bytes into a register pair. -/
  | ldB64 (c : BitVec 4) (d : BitVec 6) (g : BitVec 3) (a : BitVec 6) (i : BitVec 5)
  /-- `ld.b128`, R305. Loads 16 bytes into a register quad. -/
  | ldB128 (c : BitVec 4) (d : BitVec 6) (g : BitVec 3) (a : BitVec 6) (i : BitVec 5)
  /-- `ld.acq`, R306. Acquire load performed at the home slice, holding later accesses. -/
  | ldAcq (c : BitVec 4) (d : BitVec 6) (g : BitVec 3) (a : BitVec 6) (s : BitVec 1)
  /-- `kld`, R307. Loads 8 bytes into an owned k register from the lowest active lane's address. -/
  | kld (c : BitVec 4) (d : BitVec 5) (g : BitVec 3) (a : BitVec 6)
  /-- `st.b8`, R308. Stores one byte per active lane. -/
  | stB8 (c : BitVec 4) (d : BitVec 6) (g : BitVec 3) (a : BitVec 6) (i : BitVec 5)
  /-- `st.b16`, R308. Stores 2 bytes per active lane. -/
  | stB16 (c : BitVec 4) (d : BitVec 6) (g : BitVec 3) (a : BitVec 6) (i : BitVec 5)
  /-- `st.b32`, R308. Stores 4 bytes per active lane and registers them at the home slice. -/
  | stB32 (c : BitVec 4) (d : BitVec 6) (g : BitVec 3) (a : BitVec 6) (i : BitVec 5)
  /-- `st.b64`, R308. Stores 8 bytes from a register pair. -/
  | stB64 (c : BitVec 4) (d : BitVec 6) (g : BitVec 3) (a : BitVec 6) (i : BitVec 5)
  /-- `st.b128`, R308. Stores 16 bytes from a register quad. -/
  | stB128 (c : BitVec 4) (d : BitVec 6) (g : BitVec 3) (a : BitVec 6) (i : BitVec 5)
  /-- `st.rel`, R309. Release store held until every earlier access is performed. -/
  | stRel (c : BitVec 4) (d : BitVec 6) (g : BitVec 3) (a : BitVec 6) (s : BitVec 1)
  /-- `kst`, R309. Stores a 64-bit k register from the lowest active lane's address. -/
  | kst (c : BitVec 4) (d : BitVec 5) (g : BitVec 3) (a : BitVec 6)
  /-- `stash.map`, R310. Maps, remaps or unmaps a stash entry of the workgroup. -/
  | stashMap (c : BitVec 4) (p : BitVec 3) (e : BitVec 2) (g : BitVec 3) (a : BitVec 6)
  /-- `stash.wb`, R311. Publishes owned words of the stash lines holding the lanes' addresses. -/
  | stashWb (c : BitVec 4) (g : BitVec 3) (a : BitVec 6)
  /-- `stash.wb.e`, R311. Publishes owned words of every line of one stash entry. -/
  | stashWbE (c : BitVec 4) (e : BitVec 2)
  /-- `stash.inv`, R311. Publishes and then drops the stash lines holding the lanes' addresses. -/
  | stashInv (c : BitVec 4) (g : BitVec 3) (a : BitVec 6)
  /-- `stash.inv.e`, R311. Publishes and drops every line of one stash entry. -/
  | stashInvE (c : BitVec 4) (e : BitVec 2)
  /-- `stash.stg`, R312. Writes the staged-mode status word into a register. -/
  | stashStg (c : BitVec 4) (d : BitVec 6)
  /-- `atom.add`, R313. Atomic integer add per active lane, returning the old value. -/
  | atomAdd (c : BitVec 4) (d : BitVec 6) (g : BitVec 3) (a : BitVec 6) (w f : BitVec 1) (o : BitVec 2)
  /-- `atom.fadd.f32`, R313. Atomic FP32 add without flags. -/
  | atomFaddF32 (c : BitVec 4) (d : BitVec 6) (g : BitVec 3) (a : BitVec 6) (f : BitVec 1) (o : BitVec 2)
  /-- `atom.and`, R313. Atomic bitwise AND. -/
  | atomAnd (c : BitVec 4) (d : BitVec 6) (g : BitVec 3) (a : BitVec 6) (w f : BitVec 1) (o : BitVec 2)
  /-- `atom.or`, R313. Atomic bitwise OR. -/
  | atomOr (c : BitVec 4) (d : BitVec 6) (g : BitVec 3) (a : BitVec 6) (w f : BitVec 1) (o : BitVec 2)
  /-- `atom.xor`, R313. Atomic bitwise exclusive OR. -/
  | atomXor (c : BitVec 4) (d : BitVec 6) (g : BitVec 3) (a : BitVec 6) (w f : BitVec 1) (o : BitVec 2)
  /-- `atom.min`, R313. Atomic signed or unsigned minimum. -/
  | atomMin (c : BitVec 4) (d : BitVec 6) (g : BitVec 3) (a : BitVec 6) (s w f : BitVec 1) (o : BitVec 2)
  /-- `atom.max`, R313. Atomic signed or unsigned maximum. -/
  | atomMax (c : BitVec 4) (d : BitVec 6) (g : BitVec 3) (a : BitVec 6) (s w f : BitVec 1) (o : BitVec 2)
  /-- `atom.exch`, R313. Atomic exchange. -/
  | atomExch (c : BitVec 4) (d : BitVec 6) (g : BitVec 3) (a : BitVec 6) (w f : BitVec 1) (o : BitVec 2)
  /-- `atom.cas`, R313. Atomic compare-and-swap on bit patterns. -/
  | atomCas (c : BitVec 4) (d : BitVec 6) (g : BitVec 3) (a : BitVec 6) (w f : BitVec 1) (o : BitVec 2)
  /-- `bra`, R325. Branches to a packet offset from the branch's packet. -/
  | bra (o : BitVec 20)
  /-- `bra.k`, R325. Branches if a k register is non-zero. -/
  | braK (n : BitVec 4) (o : BitVec 20)
  /-- `brd`, R326. Splits the current path by a predicate, recording the taken lanes in the path table. -/
  | brd (v : BitVec 1) (q : BitVec 3) (o : BitVec 20)
  /-- `call`, R325. Writes the return packet into lk and branches. -/
  | call (o : BitVec 20)
  /-- `jinit`, R327. Sets a rejoin register's expected mask from a predicate or em. -/
  | jinit (j : BitVec 2) (s : BitVec 4)
  /-- `jwait`, R327. Arrives at a rejoin register, completing the join or parking the path. -/
  | jwait (j : BitVec 2)
  /-- `jarr`, R327. Withdraws the current lanes from a rejoin register. -/
  | jarr (j : BitVec 2)
  /-- `ret`, R325. Returns to lk, or ends the path when em is zero. -/
  | ret
  /-- `exit`, R329. Ends the lanes of em and takes the next path or ends the lane group. -/
  | exit
  /-- `em.rd`, R329. Copies em into a predicate. -/
  | emRd (q : BitVec 3)
  /-- `em.wr`, R329. Sets em from a predicate, without ended lanes, from the next packet. -/
  | emWr (q : BitVec 3)
  /-- `bar.wg`, R317. Arrives at a workgroup barrier as a release. -/
  | barWg (b : BitVec 2)
  /-- `bar.span`, R318. Arrives at the span barrier of the given aligned shape. -/
  | barSpan (h w : BitVec 3)
  /-- `bar.step`, R318. Arrives at the launch's step barrier, optionally flagging a resize. -/
  | barStep (r : BitVec 1)
  /-- `fence.acq`, R320. Holds later accesses until earlier loads and atomics are performed and raises pts. -/
  | fenceAcq
  /-- `fence.rel`, R320. Waits for earlier accesses so that later stores act as releases. -/
  | fenceRel
  /-- `fence.ar`, R320. Full fence ordered through an atomic on the partition's fence word. -/
  | fenceAr
  /-- `waitc`, R321. Waits until an arrival counter reaches a threshold or reports the oldest failure on it. -/
  | waitc (c : BitVec 4) (a i : BitVec 8)
  /-- `waitm`, R322. Blocks visibly until a memory word reaches a threshold, read as an acquire. -/
  | waitm (d : BitVec 5) (a i : BitVec 8)
  /-- `cset`, R323. Sets an arrival counter. -/
  | cset (c : BitVec 4) (a i : BitVec 8)
  /-- `cadd`, R323. Adds to an arrival counter. -/
  | cadd (c : BitVec 4) (a i : BitVec 8)
  /-- `elect`, R324. Takes part in the workgroup election. -/
  | elect (q : BitVec 3)
  /-- `kmov`, R331. Copies a uniform operand into an owned k register. -/
  | kmov (d : BitVec 5) (a : BitVec 8)
  /-- `kmov`, R331. Copies lk into an owned k register. -/
  | kmovFromLk (d : BitVec 5)
  /-- `kmov`, R331. Writes lk from a uniform operand. -/
  | kmovToLk (a : BitVec 8)
  /-- `kadd`, R331. 64-bit uniform add. -/
  | kadd (d : BitVec 5) (a b : BitVec 8)
  /-- `ksub`, R331. 64-bit uniform subtract. -/
  | ksub (d : BitVec 5) (a b : BitVec 8)
  /-- `kand`, R331. 64-bit uniform AND. -/
  | kand (d : BitVec 5) (a b : BitVec 8)
  /-- `kor`, R331. 64-bit uniform OR. -/
  | kor (d : BitVec 5) (a b : BitVec 8)
  /-- `kxor`, R331. 64-bit uniform exclusive OR. -/
  | kxor (d : BitVec 5) (a b : BitVec 8)
  /-- `kshl`, R331. 64-bit uniform left shift. -/
  | kshl (d : BitVec 5) (a b : BitVec 8)
  /-- `kshr`, R331. 64-bit uniform logical right shift. -/
  | kshr (d : BitVec 5) (a b : BitVec 8)
  /-- `kcmp.eq`, R331. Uniform equality compare writing 1 or 0. -/
  | kcmpEq (d : BitVec 5) (a b : BitVec 8)
  /-- `kcmp.lt.s`, R331. Uniform signed less-than compare. -/
  | kcmpLtS (d : BitVec 5) (a b : BitVec 8)
  /-- `kcmp.lt.z`, R331. Uniform unsigned less-than compare. -/
  | kcmpLtZ (d : BitVec 5) (a b : BitVec 8)
  /-- `kbr`, R332. Branches to the packet index held in a uniform operand. -/
  | kbr (a : BitVec 8)
  /-- `kclaim`, R333. Tries to claim ownership of a k register. -/
  | kclaim (d : BitVec 5) (p : BitVec 3)
  /-- `krel`, R333. Releases ownership of a k register, publishing earlier writes. -/
  | krel (d : BitVec 5)
  /-- `kfromv`, R334. Builds a k register from two 32-bit sources of the lowest active lane. -/
  | kfromv (d : BitVec 5) (a b : BitVec 8)
  /-- `mx.claim`, R341. Claims an operand slot or accumulator tile, optionally with the pair flag. -/
  | mxClaim (p : BitVec 3) (y w : BitVec 1) (s : BitVec 5)
  /-- `mx.rel`, R341. Queues the release of a claimed slot or tile. -/
  | mxRel (y : BitVec 1) (s : BitVec 5)
  /-- `mx.rec`, R342. Writes a slot's reservation record from a k register. -/
  | mxRec (s r : BitVec 5)
  /-- `mx.ld`, R343. Queues a load of 64 rows from memory into a claimed slot. -/
  | mxLd (m : BitVec 6) (s : BitVec 5) (g : BitVec 3) (c : BitVec 4)
  /-- `mx.ld.s`, R343. Queues a load of the 512-byte scale side-area of a slot. -/
  | mxLdS (m : BitVec 6) (s : BitVec 5) (g : BitVec 3) (c : BitVec 4)
  /-- `mx.ldb`, R344. Arms a claimed slot to receive a broadcast-bus transfer. -/
  | mxLdb (w : BitVec 1) (x s : BitVec 5) (c h : BitVec 4)
  /-- `mx.mma`, R345. Queues a single matrix product into a tile. -/
  | mxMma (u v : BitVec 5) (c t : BitVec 4)
  /-- `mx.pmma`, R346. Queues a paired product using the east follower's array. -/
  | mxPmma (u v : BitVec 5) (c t : BitVec 4)
  /-- `mx.zero`, R347. Queues setting a tile fresh and clearing its poison and sums. -/
  | mxZero (c t : BitVec 4)
  /-- `mx.drain`, R348. Queues a checked, scaled and converted drain of a tile to memory. -/
  | mxDrain (m : BitVec 6) (w : BitVec 5) (g : BitVec 3) (c t : BitVec 4)
  /-- `mx.chk`, R349. Queues the storage check of a tile and returns its outcome word. -/
  | mxChk (d : BitVec 6) (c t : BitVec 4)
  /-- `sa.cfg`, R353. Takes or reconfigures the core's sampling array. -/
  | saCfg (o r : BitVec 5) (p : BitVec 3) (c : BitVec 4)
  /-- `sa.key`, R354. Writes the GREY-noise key in queue order. -/
  | saKey (r : BitVec 5) (c : BitVec 4)
  /-- `sa.ldc`, R355. Loads edge words of a node range from memory. -/
  | saLdc (m : BitVec 6) (g : BitVec 3) (c : BitVec 4)
  /-- `sa.ldh`, R355. Loads biases and colours of a node range. -/
  | saLdh (m : BitVec 6) (g : BitVec 3) (c : BitVec 4)
  /-- `sa.clmp`, R356. Clamps a node range to states read from a state image. -/
  | saClmp (m : BitVec 6) (g : BitVec 3) (c : BitVec 4)
  /-- `sa.uncl`, R356. Clears the clamp bits of a node range. -/
  | saUncl (m : BitVec 6) (c : BitVec 4)
  /-- `sa.ghost`, R357. Binds or unbinds a ghost slot to a source node. -/
  | saGhost (m : BitVec 6) (p : BitVec 3) (c : BitVec 4)
  /-- `sa.swp`, R358. Queues k sweeps, optionally counted, with an optional completion counter. -/
  | saSwp (m : BitVec 6) (q : BitVec 5) (c : BitVec 4) (w : BitVec 1)
  /-- `sa.rdc`, R359. Writes the count image of a range to memory. -/
  | saRdc (m : BitVec 6) (q : BitVec 5) (g : BitVec 3) (c : BitVec 4) (w : BitVec 1)
  /-- `sa.rds`, R359. Writes the state image of a range to memory. -/
  | saRds (m : BitVec 6) (q : BitVec 5) (g : BitVec 3) (c : BitVec 4) (w : BitVec 1)
  /-- `sa.clr`, R356. Sets every count to 0 and clears csat. -/
  | saClr (c : BitVec 4)
  /-- `sa.mon`, R360. Returns the bias monitor word, bypassing the queue. -/
  | saMon (d : BitVec 6) (c : BitVec 4)
  /-- `sa.mon.w`, R360. Writes the monitor threshold in queue order and returns the monitor word. -/
  | saMonW (d t : BitVec 6) (c : BitVec 4)
  /-- `sa.stat`, R360. Returns the array status word, bypassing the queue. -/
  | saStat (d : BitVec 6) (c : BitVec 4)
  /-- `tc.ld`, R368. Copies a tensor box into a dense buffer, zero-filling out-of-bounds elements. -/
  | tcLd (r o t : BitVec 5) (c : BitVec 4) (q : BitVec 1)
  /-- `tc.st`, R368. Copies a dense buffer into a tensor box, skipping out-of-bounds elements. -/
  | tcSt (r o t : BitVec 5) (c : BitVec 4) (q : BitVec 1)
  /-- `tc.mcast`, R369. Tensor load whose line reads merge across member cores. -/
  | tcMcast (r o t : BitVec 5) (c : BitVec 4) (q : BitVec 1)
  /-- `bus.a`, R370. Sends an 8,704-byte slot block on the row broadcast bus. -/
  | busA (r o t : BitVec 5) (c : BitVec 4) (q : BitVec 1)
  /-- `bus.b`, R370. Sends a slot block on the column broadcast bus. -/
  | busB (r o t : BitVec 5) (c : BitVec 4) (q : BitVec 1)
  /-- `rv.send`, R372. Sends an operand tile as fragments to the tag's meeting router. -/
  | rvSend (r o t : BitVec 5) (c : BitVec 4)
  /-- `rv.talloc`, R371. Allocates the lowest free meeting tag of the partition. -/
  | rvTalloc (r : BitVec 5) (p : BitVec 3)
  /-- `rv.tfree`, R371. Frees a meeting tag. -/
  | rvTfree (r : BitVec 5)
  /-- `rv.stat`, R371. Returns the state of a meeting tag. -/
  | rvStat (r d : BitVec 5)
  /-- `am.send`, R373. Sends an active message to a destination core's handler. -/
  | amSend (r v : BitVec 5) (p : BitVec 3) (c : BitVec 4)
  /-- `am.reg`, R374. Binds or unbinds a registered handler index. -/
  | amReg (r : BitVec 5) (p : BitVec 3)
  /-- `pipe.bind`, R375. Binds a named pipe in the partition's pipe table. -/
  | pipeBind (r : BitVec 5)
  /-- `pipe.push`, R376. Appends one element to a pipe as a release, blocking while full. -/
  | pipePush (r v : BitVec 5)
  /-- `pipe.pop`, R376. Removes the oldest element or reports end-of-stream, blocking while empty. -/
  | pipePop (r d : BitVec 5) (e : BitVec 3)
  /-- `pipe.eos`, R376. Lowers a pipe's remaining producer count by 1. -/
  | pipeEos (r : BitVec 5)
  /-- `task.spawn`, R377. Adds a range-task record to the pool as a release. -/
  | taskSpawn (r g : BitVec 5) (p : BitVec 3)
  /-- `task.spawn.l`, R378. Submits a launch packet to the program launch buffer. -/
  | taskSpawnL (r u : BitVec 5) (p : BitVec 3)
  /-- `task.next`, R379. Hands the next chunk of the claimed task record. -/
  | taskNext (d : BitVec 5)
  /-- `task.done`, R379. Returns the remainder to the pool and releases the claim. -/
  | taskDone
  /-- `node.commit`, R380. Commits the workgroup's staged words as one release. -/
  | nodeCommit (c : BitVec 4)
  /-- `nop`, R382. Has no effect. -/
  | nop
  /-- `trap`, R384. Enters the supervisor handler as a software entry, or stops the lane group. -/
  | trap (i : BitVec 8)
  /-- `sysret`, R417. Leaves the supervisor handler and replays or resumes at cr.resume. -/
  | sysret
  /-- `cr.rd`, R383. Reads a control register. -/
  | crRd (d : BitVec 6) (i : BitVec 8)
  /-- `cr.wr`, R383. Writes a control register from the next packet. -/
  | crWr (a : BitVec 6) (i : BitVec 8)
  /-- `park`, R147. Blocks the handler's lane group visibly and posts a page-request record. -/
  | park
  /-- `pool.pop`, R144. Installs a pool frame at the pending first-touch entry. -/
  | poolPop (d : BitVec 6)
  /-- `pool.give`, R386. Adds contiguous frames to a page pool. -/
  | poolGive (d : BitVec 6) (n : BitVec 5)
  /-- `xlat.probe`, R387. Translates an address without faulting and returns a probe word. -/
  | xlatProbe (d : BitVec 6) (a : BitVec 8) (n : BitVec 5)
  /-- `tlb.inv`, R388. Removes first-stage translations of the function and waits for R142's conditions. -/
  | tlbInv (n : BitVec 5) (i : BitVec 8)
  /-- `bkpt`, R382. Stops the lane group for the debugger when breakpoints are enabled. -/
  | bkpt (i : BitVec 8)
  /-- `yield`, R382. Makes the lane group not ready until other ready lane groups issue once. -/
  | yield
  /-- `time`, R382. Writes device time into a register pair. -/
  | time (d : BitVec 6)
  /-- `FETCH_LINE_ARRIVE`, R263. A fetched line arrives and is checked for header and CRC before its packets issue. -/
  | fetchLineArrive (lg : Nat)
  /-- `LAUNCH_DOORBELL`, R241. The driver writes a launch queue's tail. -/
  | launchDoorbell (vf q tail : Nat)
  /-- `LAUNCH_QUEUE_READ`, R241. The device reads the head launch packet and hands it to the distributor. -/
  | launchQueueRead (vf q : Nat)
  /-- `WORKGROUP_PLACE`, R35. The distributor places a workgroup or a whole co-resident launch on cores with room. -/
  | workgroupPlace (launch : Nat)
  /-- `WORKGROUP_START`, R32. After the kinit image is read, the workgroup's lane groups start. -/
  | workgroupStart (wg : Nat)
  /-- `LAUNCH_COMPLETE`, R33. A launch whose work and commands have all ended adds 1 to its completion counter. -/
  | launchComplete (launch : Nat)
  /-- `GROUP_WAIT_TIMEOUT`, R154. A waiting co-resident launch passes the group timeout and blocks later launches. -/
  | groupWaitTimeout (launch : Nat)
  /-- `RESIZE_REQUEST`, R41. A write to RSZ posts a resize request for an elastic launch. -/
  | resizeRequest (vf : Nat) (value : BitVec 64)
  /-- `WG_BARRIER_COMPLETE`, R317. A workgroup barrier completes when every live lane group has arrived. -/
  | wgBarrierComplete (wg b : Nat)
  /-- `SPAN_BARRIER_COMPLETE`, R38. A span barrier completes when every member has arrived. -/
  | spanBarrierComplete (launch ox oy lw lh : Nat)
  /-- `STEP_BARRIER_COMPLETE`, R39. A step barrier completes after every launch-wide condition holds. -/
  | stepBarrierComplete (launch : Nat)
  /-- `LANE_GROUP_WAKE`, R159. A visibly blocked lane group becomes ready after its condition holds. -/
  | laneGroupWake (lg : Nat)
  /-- `LANE_GROUP_AGED`, R157. A lane group ready for 32 cycles without issue becomes aged. -/
  | laneGroupAged (lg : Nat)
  /-- `YIELD_EXPIRY`, R382. A yielding lane group becomes ready again after 32 cycles. -/
  | yieldExpiry (lg : Nat)
  /-- `REGISTER_GROW_GRANT`, R53. Freed registers are granted to the oldest fitting rgrow waiter. -/
  | registerGrowGrant (core sc : Nat)
  /-- `GROWTH_DEADLOCK`, R162. After 1024 deadlocked cycles the youngest workgroup is swapped out or rgrow raises bound. -/
  | growthDeadlock (core sc : Nat)
  /-- `TASK_CLAIM`, R43. A core with room takes an unclaimed task record and starts a lane group. -/
  | taskClaim (part core : Nat)
  /-- `AM_ARRIVE`, R230. An active message enters a destination core's inbound queue. -/
  | amArrive (msg : Nat)
  /-- `HANDLER_START`, R48. A reserved slot frees and a queued message starts its handler lane group. -/
  | handlerStart (core : Nat)
  /-- `PTS_TICK`, R109. Every 256 cycles a core's program timestamp rises by 1. -/
  | ptsTick (core : Nat)
  /-- `LOAD_REQUEST`, R110. A load or lease renewal reaches its home slice and is answered. -/
  | loadRequest (acc line : Nat)
  /-- `WRITE_REGISTRATION`, R112. A store's registration reaches the home slice, takes ownership and a timestamp. -/
  | writeRegistration (acc line : Nat)
  /-- `FORCED_PUBLISH_REQUEST`, R113. An owning core receives a request to publish its owned words of a line. -/
  | forcedPublishRequest (agent line : Nat)
  /-- `PUBLISH_ARRIVE`, R113. Published words reach the home slice and end ownership. -/
  | publishArrive (agent line : Nat) (cells : List (Nat × BitVec 8)) (own pois : BitVec 32)
  /-- `L1_EVICTION`, R113. A line evicted from L1 publishes its owned words. -/
  | l1Eviction (core line : Nat)
  /-- `NEAR_ATOMIC`, R119. An atomic is performed at the line's home slice. -/
  | nearAtomic (acc lane : Nat)
  /-- `FAR_ATOMIC`, R119. A far atomic is performed at the home die's memory-side cache. -/
  | farAtomic (acc lane : Nat)
  /-- `ACCESS_REPLY`, R122. A reply lands at the core, writes destinations, raises pts and adds to the counter. -/
  | accessReply (acc line : Nat)
  /-- `MEMORY_READ_COMPLETE`, R421. An HBM4 or CXL read completes and its code is checked. -/
  | memoryReadComplete (line : Nat) (outcome : BitVec 2)
  /-- `ENGINE_TAKE_OWNERSHIP`, R131. An engine command, after earlier accesses, owns its destination lines and reads its source. -/
  | engineTakeOwnership (cmd : Nat)
  /-- `ENGINE_FINISH`, R133. An engine releases its lines and updates its completion counter as a release. -/
  | engineFinish (cmd : Nat)
  /-- `TLB_WALK_DONE`, R140. A table walk completes and fills the TLBs or reports a fault. -/
  | tlbWalkDone (core vf va : Nat)
  /-- `TLBI_VA_RANGE`, R141. A host VA-range invalidation removes matching first-stage results. -/
  | tlbiVaRange (vmid asid : BitVec 16) (va pages : Nat)
  /-- `TLBI_ASID`, R141. A host address-space invalidation removes a function's first-stage results. -/
  | tlbiAsid (vmid asid : BitVec 16)
  /-- `TLBI_IPA_RANGE`, R141. A host IPA-range invalidation removes results built on matching leaves. -/
  | tlbiIpaRange (vmid : BitVec 16) (ipa pages : Nat)
  /-- `TLBI_VMID`, R141. A host partition invalidation removes every result of the partition. -/
  | tlbiVmid (vmid : BitVec 16)
  /-- `TLBI_ALL`, R141. A host invalidation removes every cached translation. -/
  | tlbiAll
  /-- `HOST_TLB_SYNC`, R142. A host synchronisation message arrives. -/
  | hostTlbSync (id : Nat)
  /-- `TLB_SYNC_ANSWER`, R142. The device answers a synchronisation once earlier invalidations are complete. -/
  | tlbSyncAnswer (id : Nat)
  /-- `PAGE_REQUEST_WRITE`, R147. A page-request record is written once the queue has room. -/
  | pageRequestWrite (rq : Nat)
  /-- `PAGE_REQUEST_DONE`, R147. A write to PRD completes a request and wakes its lane group or command. -/
  | pageRequestDone (vf : Nat) (rqid : BitVec 32)
  /-- `PARK_TIMEOUT`, R148. A lane group parked longer than tmo triggers a swap-out. -/
  | parkTimeout (lg : Nat)
  /-- `SWAP_OUT_DONE`, R149. The spill finishes and the core's resources are freed. -/
  | swapOutDone (wg : Nat)
  /-- `READMIT`, R151. An eligible swapped-out workgroup is placed and its state restored. -/
  | readmit (wg : Nat)
  /-- `S2R_RESUME`, R431. An S2R write with abort 0 resumes everything parked on a granule. -/
  | s2rResume (part ipa : Nat)
  /-- `S2R_ABORT`, R431. An S2R write with abort 1 stops everything parked on a granule. -/
  | s2rAbort (part ipa : Nat)
  /-- `GOVERNOR_WINDOW`, R171. A new 256-cycle governor window admits stalled matrix issues round-robin. -/
  | governorWindow (bh : Nat)
  /-- `PREEMPT_SWAP_DONE`, R165. The 96-cycle bank swap ends and the incoming context issues. -/
  | preemptSwapDone (core : Nat)
  /-- `SWAP_BACK`, R167. The last urgent workgroup ends and the core swaps back. -/
  | swapBack (core : Nat)
  /-- `SHADOW_WRITEOUT_DONE`, R167. The background write-out of a shadow bank ends and the bank is clean. -/
  | shadowWriteoutDone (core : Nat)
  /-- `SLOT_EVICTION_DONE`, R168. An operand slot held by a pre-empted context is spilled and the claim proceeds. -/
  | slotEvictionDone (core slot : Nat)
  /-- `ARRAY_EVICTION_DONE`, R168. A pre-empted array context is spilled and the sampling instruction proceeds. -/
  | arrayEvictionDone (core : Nat)
  /-- `CONTEXT_RESTORE_DONE`, R170. Evicted slots, arrays or workgroup state are restored before the owner issues. -/
  | contextRestoreDone (core wg : Nat)
  /-- `MX_COMMAND_START`, R338. A queued matrix command starts and is rechecked against actual state. -/
  | mxCommandStart (cmd : Nat)
  /-- `MX_LD_DONE`, R179. All rows or scale bytes of an mx.ld are in the slot. -/
  | mxLdDone (cmd : Nat)
  /-- `BUS_TRANSFER_START`, R184. A bus send starts once every masked receiver has a matching armed mx.ldb. -/
  | busTransferStart (cmd : Nat)
  /-- `BUS_TRANSFER_DONE`, R184. A bus transfer fills every receiver's slot and record. -/
  | busTransferDone (cmd : Nat)
  /-- `MX_MMA_DONE`, R187. A product finishes its checks and its result is in the tile. -/
  | mxMmaDone (cmd : Nat) (errs : List WrongSum)
  /-- `MX_PMMA_DONE`, R182. Both halves of a paired product hold the result. -/
  | mxPmmaDone (cmd : Nat) (errs : List WrongSum)
  /-- `MX_DRAIN_DONE`, R186. Every store of a drain is performed and the tile is cleared if requested. -/
  | mxDrainDone (cmd : Nat)
  /-- `MX_CHK_DONE`, R349. A tile check completes and writes its outcome word. -/
  | mxChkDone (cmd : Nat)
  /-- `MX_REL_EFFECT`, R174. A release takes effect after queued commands naming the resource complete. -/
  | mxRelEffect (cmd : Nat)
  /-- `SA_COMMAND_START`, R205. The next queued sampling command starts after earlier sweeps complete. -/
  | saCommandStart (cmd : Nat)
  /-- `SA_LOAD_DONE`, R355. An image load command has read and written its whole range. -/
  | saLoadDone (cmd : Nat)
  /-- `SA_READ_DONE`, R359. A state or count image write is performed and its counters update. -/
  | saReadDone (cmd : Nat)
  /-- `SWEEP_BEGIN`, R201. A sweep begins once every ghost slot it reads qualifies. -/
  | sweepBegin (core : Nat)
  /-- `SWEEP_END`, R198. A sweep ends: sw advances, counts update and ghost updates are queued. -/
  | sweepEnd (core : Nat)
  /-- `GHOST_SUBSCRIBE`, R200. A subscription reaches the source array, which records it and sends the current state. -/
  | ghostSubscribe (cmd : Nat)
  /-- `GHOST_UNSUBSCRIBE`, R200. An unbind reaches the source array, which removes the export entry. -/
  | ghostUnsubscribe (cmd : Nat)
  /-- `GHOST_ANSWER`, R357. The source's answer reaches the destination and completes the sa.ghost. -/
  | ghostAnswer (cmd : Nat) (ok : Bool)
  /-- `GHOST_UPDATE_ARRIVE`, R202. A stamped ghost update is written into its slot or ring. -/
  | ghostUpdateArrive (core : Nat)
  /-- `MONITOR_WINDOW_CLOSE`, R206. After 65,536 probes the bias window closes and is judged. -/
  | monitorWindowClose (core : Nat)
  /-- `CHAIN_TIMEOUT`, R447. A stall passes the chain timeout and the sweep command ends with stale. -/
  | chainTimeout (core : Nat)
  /-- `STOP_NOTICE`, R445. A stop notice pauses an array of the same chain and is forwarded once. -/
  | stopNotice (core : Nat) (chain : BitVec 16)
  /-- `PERMIT_AUDIT`, R215. Every 65,536 cycles a link is paused and its permits are audited and repaired. -/
  | permitAudit (link chan : Nat)
  /-- `MCAST_REQUEST`, R217. A multicast line request opens, joins or misses a merge entry at the slice. -/
  | mcastRequest (cmd line : Nat)
  /-- `MERGE_WINDOW_EXPIRY`, R217. A merge entry closes 64 cycles after opening. -/
  | mergeWindowExpiry (die slice entry : Nat)
  /-- `MERGE_SET_EXPIRY`, R219. A closed entry's joined set is forgotten after 1,024 cycles. -/
  | mergeSetExpiry (die slice entry : Nat)
  /-- `MCAST_REPLY_ARRIVE`, R218. A merged or late reply delivers the line to a member core. -/
  | mcastReplyArrive (cmd line : Nat)
  /-- `FRAGMENT_ARRIVE`, R223. A meeting fragment reaches its router and matches, waits or is deflected. -/
  | fragmentArrive (cmd f : Nat)
  /-- `OVERFLOW_FRAGMENT_ARRIVE`, R225. A deflected fragment reaches the overflow slice and matches or waits. -/
  | overflowFragmentArrive (frag : Nat)
  /-- `FRAGMENT_COMBINE_DONE`, R227. A combined or orphan fragment is written at the destination's home slice. -/
  | fragmentCombineDone (frag : Nat)
  /-- `ORPHAN_TIMEOUT`, R226. An unmatched fragment is delivered alone and its key retired. -/
  | orphanTimeout (frag : Nat)
  /-- `LINK_FLIT_SEND`, R436. A module sends a data flit packing stored packets at its flit slot. -/
  | linkFlitSend (edge dir mod : Nat)
  /-- `LINK_FLIT_RECEIVE`, R236. A receiver accepts, discards or naks an arriving link flit. -/
  | linkFlitReceive (edge dir mod : Nat) (good : Bool)
  /-- `LINK_NAK_RECEIVE`, R236. A sender receives a nak and resends from the named number. -/
  | linkNakReceive (edge dir mod : Nat)
  /-- `LINK_IDLE_TIMER`, R236. After 16 idle cycles the receiver sends an idle acknowledgement flit. -/
  | linkIdleTimer (edge dir mod : Nat)
  /-- `NAK_REPEAT_TIMER`, R436. After 64 cycles without the expected flit the receiver repeats its nak. -/
  | nakRepeatTimer (edge dir mod : Nat)
  /-- `LINK_LOCK_LOSS`, R237. A module loses lock and starts retraining. -/
  | linkLockLoss (edge mod : Nat)
  /-- `LINK_RETRAIN_DONE`, R237. A retrain ends at full or half width and replay resumes. -/
  | linkRetrainDone (edge mod : Nat) (lanes : BitVec 2)
  /-- `RETRAIN_TIMEOUT`, R437. A module fails to train within its retrain time and goes down. -/
  | retrainTimeout (edge mod : Nat) (sideband : Bool)
  /-- `PORT_LOST`, R435. A host or peer port down past the link bound is lost. -/
  | portLost (port : Nat)
  /-- `CXL_PORT_LOST`, R433. A lost CXL port fences its range and completes outstanding requests with poison. -/
  | cxlPortLost (port : Nat)
  /-- `SLICE_TIMEOUT`, R405. A slice wait past 20 µs completes with poison and the deferred flag. -/
  | sliceTimeout (acc line : Nat)
  /-- `HOST_ACCESS`, R239. A control-node load or store to device memory arrives on the host port. -/
  | hostAccess (vf pa : Nat) (write : Bool) (value : BitVec 64)
  /-- `HOST_SNOOP`, R239. A host snoop forces a publish of device-owned host lines. -/
  | hostSnoop (line : Nat)
  /-- `REMOTE_ACCESS`, R246. A peer package's access arrives, is admitted and performed at the home slice. -/
  | remoteAccess (spkg spart pa : Nat) (op : RemoteOp) (pts : Nat)
  /-- `STREAM_SEGMENT`, R243. A stream segment arrives and is admitted, written, dropped or late. -/
  | streamSegment (vf s frame off : Nat) (data : List (BitVec 8))
  /-- `FRAME_DEADLINE`, R244. A frame's deadline expires and it closes with loss. -/
  | frameDeadline (vf s frame : Nat)
  /-- `DESCRIPTOR_PUSH`, R244. A closed frame's descriptor is pushed into its pipe when there is room. -/
  | descriptorPush (vf s : Nat)
  /-- `STREAM_ENABLE`, R242. A write setting SQC en enables a stream queue after checks. -/
  | streamEnable (vf s : Nat) (value : BitVec 64)
  /-- `STREAM_EOS`, R244. A write of eos lets frames close, sends pipe.eos and clears en. -/
  | streamEos (vf s : Nat)
  /-- `DBI_WINDOW`, R249. After 4,096 bursts a channel picks the lower-toggle code. -/
  | dbiWindow (chan inversion lowToggle : Nat)
  /-- `FAULTED_LAUNCH_END`, R406. A faulted launch is ended, released and its counter given 1 + 2^32. -/
  | faultedLaunchEnd (launch : Nat)
  /-- `FAULTED_LAUNCH_TIMEOUT`, R406. A faulted launch with no issue for the group timeout is ended. -/
  | faultedLaunchTimeout (launch : Nat)
  /-- `NODE_DISCARD`, R412. A restartable launch is discarded and its packet re-queued. -/
  | nodeDiscard (launch : Nat)
  /-- `PIPE_DEADLOCK`, R453. A gang blocked on pipes for the group timeout raises pipe. -/
  | pipeDeadlock (launch : Nat)
  /-- `GATE_DRAIN_TIMEOUT`, R23. Crossings pending at a closing gate fail with gate at the group timeout. -/
  | gateDrainTimeout (bh : Nat)
  /-- `SWEEPER_READ`, R425. An idle cycle lets a sweeper read and scrub one line. -/
  | sweeperRead (unit line : Nat) (outcome : BitVec 2)
  /-- `L2_CODE_CHANGE`, R426. A write of ECS str changes the L2 code and starts re-encoding. -/
  | l2CodeChange (die : Nat) (str : Bool)
  /-- `REENCODE_DONE`, R426. The sweepers finish re-encoding and reenc clears. -/
  | reencodeDone (die : Nat)
  /-- `RETIRE_FRAME`, R428. A write to RTA retires a frame into the retired table. -/
  | retireFrame (frame : Nat)
  /-- `BULKHEAD_FATAL_ERROR`, R411. An uncorrectable control-state error fences the bulkhead for dump and reset. -/
  | bulkheadFatalError (bh : Nat)
  /-- `STATE_DUMP_DONE`, R471. The dump of a fenced bulkhead ends and the bulkhead is reset. -/
  | stateDumpDone (bh : Nat)
  /-- `BULKHEAD_POWER_ON`, R469. A write of pwr 1 starts powering the bulkhead. -/
  | bulkheadPowerOn (bh : Nat)
  /-- `BULKHEAD_RAIL_GOOD`, R469. The rail becomes good and the bulkhead enters in reset. -/
  | bulkheadRailGood (bh : Nat)
  /-- `BULKHEAD_RAIL_TIMEOUT`, R469. The rail is not good within 100 µs and a record is written. -/
  | bulkheadRailTimeout (bh : Nat)
  /-- `BULKHEAD_CLOCK_ENABLE`, R13. A write of clk 1 enables the bulkhead PLL. -/
  | bulkheadClockEnable (bh : Nat)
  /-- `PLL_LOCK`, R469. The bulkhead PLL locks. -/
  | pllLock (bh : Nat)
  /-- `PLL_LOCK_TIMEOUT`, R469. The PLL has not locked within 50 µs and a record is written. -/
  | pllLockTimeout (bh : Nat)
  /-- `BULKHEAD_RESET_RELEASE`, R469. A write of rst 0 starts clearing and trimming the bulkhead. -/
  | bulkheadResetRelease (bh : Nat)
  /-- `BULKHEAD_INIT_DONE`, R469. After 2^18 cycles the bulkhead enters running. -/
  | bulkheadInitDone (bh : Nat)
  /-- `BULKHEAD_RESET_ASSERT`, R411. A write of rst 1 drains the bulkhead and ends or discards its launches. -/
  | bulkheadResetAssert (bh : Nat)
  /-- `BULKHEAD_GATE_CLOSE`, R13. A write of gate 1 drains the bulkhead toward fenced. -/
  | bulkheadGateClose (bh : Nat)
  /-- `BULKHEAD_GATE_OPEN`, R13. A write of gate 0 returns a fenced bulkhead to running. -/
  | bulkheadGateOpen (bh : Nat)
  /-- `BULKHEAD_POWER_OFF`, R469. A write of pwr 0 drains the bulkhead and turns it off. -/
  | bulkheadPowerOff (bh : Nat)
  /-- `BULKHEAD_DRAIN_DONE`, R13. Pending crossings end and the bulkhead becomes fenced or in reset. -/
  | bulkheadDrainDone (bh : Nat)
  /-- `PARTITION_ENABLE`, R14. A write setting en enables a partition or is refused. -/
  | partitionEnable (part : Nat) (value : BitVec 64)
  /-- `PARTITION_TEARDOWN`, R17. A write clearing en starts tearing the partition down. -/
  | partitionTeardown (part : Nat)
  /-- `TEARDOWN_DONE`, R17. Every teardown step completes and the partition number is free. -/
  | teardownDone (part : Nat)
  /-- `WINDOW_ENABLE`, R20. A write setting en enables a window or is refused. -/
  | windowEnable (win : Nat) (word0 word1 : BitVec 64)
  /-- `WINDOW_DISABLE`, R22. A write clearing en stops admitting operations under a window. -/
  | windowDisable (win : Nat)
  /-- `WINDOW_DRAIN_DONE`, R22. The window's admitted operations end and en reads 0. -/
  | windowDrainDone (win : Nat)
  /-- `HOME_MAP_WRITE`, R19. A write to HMW sets a home-map word and may advance HMX. -/
  | homeMapWrite (value : BitVec 64)
  /-- `HOME_MAP_READ_INC`, R19. A read of HMW with inc set advances the selected word. -/
  | homeMapReadInc
  /-- `VF_ENABLE`, R24. A write setting VFM en enables a function if its partition is enabled. -/
  | vfEnable (vf : Nat) (value : BitVec 32)
  /-- `KEY_TABLE_WRITE`, R468. A key-table write assigns a key, destroying material when en or vf changes. -/
  | keyTableWrite (key : Nat) (value : BitVec 64)
  /-- `KEY_LOAD`, R468. The Slate wrapped-key command loads key material. -/
  | keyLoad (key : Nat)
  /-- `CXL_RANGE_ENABLE`, R434. Re-enabling CXM on an active link clears fenced. -/
  | cxlRangeEnable (port : Nat) (value : BitVec 64)
  /-- `TRIM_START`, R469. A write of TRM go starts retrimming a bulkhead's arrays. -/
  | trimStart (bh : Nat)
  /-- `TRIM_DONE`, R469. A trim completes and clears the WHITE lock-out. -/
  | trimDone (bh : Nat)
  /-- `DEBUG_RESUME`, R382. A write of DBR go resumes a lane group stopped at bkpt. -/
  | debugResume (value : BitVec 64)
  /-- `PACKAGE_RESET`, R465. Package reset starts the boot from the Slate boot ROM. -/
  | packageReset
  /-- `BOOT_STAGE`, R465. A boot stage checks, measures and runs the next image or halts. -/
  | bootStage (good : Bool) (hash : List (BitVec 8))
  /-- `BOOT_IMAGE_REPLACE`, R465. A halted boot accepts a replacement image. -/
  | bootImageReplace
  /-- `ATTEST_QUOTE`, R466. A quote request is signed with a fresh one-time key or refused. -/
  | attestQuote (nonce : BitVec 256)
  /-- `REGISTER_WRITE`, R4. A write to a register that has no row of its own updates its writable fields. -/
  | registerWrite (space : RegSpace) (off : Nat) (value : BitVec 64)
  /-- `SOFT_ERROR`, R421. A stored word in a register file, cache, operand memory, tile or control state changes its bits by itself. -/
  | softError (site : ErrSite)
  /-- `LINK_ACK_TIMEOUT`, R405. A link's 2 µs bound on the acknowledgement of a flit or the return of a permit runs out, starting replay and retrain. -/
  | linkAckTimeout (edge mod : Nat)
  /-- `CXL_LINK_STATE_CHANGE`, R432. A CXL port's link leaves or returns to the active state, changing CXS link and starting or cancelling the 2 µs loss bound. -/
  | cxlLinkStateChange (port : Nat) (active : Bool)
  /-- `HOST_PORT_RETURN`, R435. A lost host port comes back, so the Slate controller releases the held manager ring and host traffic resumes. -/
  | hostPortReturn
  deriving DecidableEq, Repr

end Sys2Proof
end

