-- ==== Sys2Proof/WellFormed.lean ====
section
/-! DEFINITION. Which instructions are well-formed: the limits on fields that the tables of R264 to R276 and the rows of
the reference chapters set and that the word alone shows. A decoded word that is not well-formed raises `illegal`. For an
event: the numbers it names exist (a host access by function 1024 is the partition manager's). -/

namespace Sys2Proof

/-- With n = 1 the destination is a latch and d[5:2] must be 0 (R61). -/
abbrev latchOk (n : BitVec 1) (d : BitVec 6) : Bool := n == 0 || d.toNat < 4
/-- A uniform source: special 8-11 or 32-63 (R330). -/
abbrev uniOk (a : BitVec 8) : Bool := (0x48 ≤ a.toNat && a.toNat ≤ 0x4B) || (0x60 ≤ a.toNat && a.toNat ≤ 0x7F)
/-- A threshold: a = 0, or a names a `k` register and imm is 0 (R316). -/
abbrev thrOk (a i : BitVec 8) : Bool := a == 0 || (0x60 ≤ a.toNat && a.toNat ≤ 0x7F && i == 0)
/-- The type of a unary floating-point word is not 3 (R270). -/
abbrev typeOk (t : BitVec 2) : Bool := t != 3
/-- The register limits of a width of `2^k` registers (R303). -/
abbrev pairOk (d : BitVec 6) : Bool := d.toNat ≤ 62
abbrev quadOk (d : BitVec 6) : Bool := d.toNat ≤ 60
abbrev runOk (r : BitVec 5) (n : Nat) : Bool := r.toNat + n ≤ 32

/-- The selector of `cvt` (R294). -/
def cvtOk (s : BitVec 8) : Bool :=
  let op := (s.extractLsb' 0 4).toNat
  let rnd := s.extractLsb' 4 2
  let hi := s.extractLsb' 6 2
  if op ≤ 3 then rnd != 3 && hi == 0
  else if op ≤ 5 then rnd != 3 && hi.toNat < 2
  else if op ≤ 7 then rnd == 0 && hi.toNat < 2
  else if op ≤ 9 then rnd != 3
  else if op ≤ 13 then true
  else if op = 14 then rnd != 3 && hi == 0
  else false

/-- The control registers of R72: `some true` moves one value per lane, `some false` is uniform. -/
def crKind (n : BitVec 8) : Option Bool :=
  match n.toNat with
  | 0x00 | 0x01 | 0x02 | 0x03 | 0x04 => some false
  | 0x05 | 0x06 | 0x07 | 0x08 => some true
  | 0x09 | 0x0A | 0x0B | 0x0C | 0x10 | 0x11 | 0x12 | 0x13 | 0x18 | 0x20 | 0x21 => some false
  | _ => none

/-- The control registers whose Mode is "any" or "sup" (R72). -/
def crWritable (n : BitVec 8) : Bool :=
  n.toNat ≤ 8 || n == 0x0A || n == 0x0C || n == 0x13 || n == 0x18 || n == 0x21

/-- Well-formedness (R61, R282, R283, R266, R303, R315, R330, R340, R351, R364, R381). -/
def wellFormed (i : Instr) : Bool :=
  match i with
  | .add d n _ _ => latchOk n d
  | .sub d n _ _ => latchOk n d
  | .addc d n _ _ => latchOk n d
  | .subb d n _ _ => latchOk n d
  | .mullo d n _ _ => latchOk n d
  | .mulhi d n _ _ => latchOk n d
  | .and d n _ _ => latchOk n d
  | .or d n _ _ => latchOk n d
  | .xor d n _ _ => latchOk n d
  | .andn d n _ _ => latchOk n d
  | .shl d n _ _ => latchOk n d
  | .shr d n _ _ => latchOk n d
  | .sar d n _ _ => latchOk n d
  | .rotl d n _ _ => latchOk n d
  | .min d n _ _ => latchOk n d
  | .max d n _ _ => latchOk n d
  | .addi d n _ _ => latchOk n d
  | .andi d n _ _ => latchOk n d
  | .ori d n _ _ => latchOk n d
  | .xori d n _ _ => latchOk n d
  | .shli d n _ _ => latchOk n d
  | .shri d n _ _ => latchOk n d
  | .sari d n _ _ => latchOk n d
  | .muli d n _ _ => latchOk n d
  | .clz d n _ => latchOk n d
  | .ctz d n _ => latchOk n d
  | .popc d n _ => latchOk n d
  | .brev d n _ => latchOk n d
  | .bfe d n _ _ _ => latchOk n d
  | .bfi d n _ _ _ => latchOk n d
  | .faddF32 d n _ _ => latchOk n d
  | .fsubF32 d n _ _ => latchOk n d
  | .fmulF32 d n _ _ => latchOk n d
  | .fminF32 d n _ _ => latchOk n d
  | .fmaxF32 d n _ _ => latchOk n d
  | .faddBf16x2 d n _ _ => latchOk n d
  | .fsubBf16x2 d n _ _ => latchOk n d
  | .fmulBf16x2 d n _ _ => latchOk n d
  | .fminBf16x2 d n _ _ => latchOk n d
  | .fmaxBf16x2 d n _ _ => latchOk n d
  | .faddF16x2 d n _ _ => latchOk n d
  | .fsubF16x2 d n _ _ => latchOk n d
  | .fmulF16x2 d n _ _ => latchOk n d
  | .fminF16x2 d n _ _ => latchOk n d
  | .fmaxF16x2 d n _ _ => latchOk n d
  | .frcp d n _ t => latchOk n d && typeOk t
  | .frsqrt d n _ t => latchOk n d && typeOk t
  | .fsqrt d n _ t => latchOk n d && typeOk t
  | .fexp2 d n _ t => latchOk n d && typeOk t
  | .flog2 d n _ t => latchOk n d && typeOk t
  | .fsin d n _ t => latchOk n d && typeOk t
  | .fcos d n _ t => latchOk n d && typeOk t
  | .fclass d n _ t => latchOk n d && typeOk t
  | .ffmaF32 d n _ _ _ => latchOk n d
  | .ffmaBf16x2 d n _ _ _ => latchOk n d
  | .ffmaF16x2 d n _ _ _ => latchOk n d
  | .imadLo d n _ _ _ => latchOk n d
  | .imadHi d n _ _ _ => latchOk n d
  | .icmp _ _ _ _ => true
  | .fcmp _ _ _ _ => true
  | .sel _ d n _ _ => latchOk n d
  | .pand _ _ _ => true
  | .por _ _ _ => true
  | .pxor _ _ _ => true
  | .pnot _ _ => true
  | .ptest m _ _ => m.toNat ≤ 2
  | .mov d n _ => latchOk n d
  | .li d n _ => latchOk n d
  | .cvt d n _ s => latchOk n d && cvtOk s
  | .shfl d n _ _ _ _ => latchOk n d
  | .voteAny _ _ => true
  | .voteAll _ _ => true
  | .voteBallot d n _ => latchOk n d
  | .edge m => m != 3
  | .idxSet _ _ => true
  | .idxAdd _ _ => true
  | .rgnPf _ => true
  | .rgrow c => c != 7
  | .rshrink c => c != 7
  | .rdsp d n s => latchOk n d && (s.toNat ≤ 4 || (8 ≤ s.toNat && s.toNat ≤ 15))
  | .ldX d n _ => latchOk n d
  | .stX _ _ => true
  | .lih _ _ => true
  | .ldB8Z _ _ _ _ _ => true
  | .ldB8S _ _ _ _ _ => true
  | .ldB16Z _ _ _ _ _ => true
  | .ldB16S _ _ _ _ _ => true
  | .ldB32 _ _ _ _ _ => true
  | .ldB64 _ d _ _ _ => pairOk d
  | .ldB128 _ d _ _ _ => quadOk d
  | .ldAcq _ d _ _ s => (s == 0 || pairOk d)
  | .kld _ _ _ _ => true
  | .stB8 _ _ _ _ _ => true
  | .stB16 _ _ _ _ _ => true
  | .stB32 _ _ _ _ _ => true
  | .stB64 _ d _ _ _ => pairOk d
  | .stB128 _ d _ _ _ => quadOk d
  | .stRel _ d _ _ s => (s == 0 || pairOk d)
  | .kst _ _ _ _ => true
  | .stashMap _ _ _ _ _ => true
  | .stashWb _ _ _ => true
  | .stashWbE _ _ => true
  | .stashInv _ _ _ => true
  | .stashInvE _ _ => true
  | .stashStg _ _ => true
  | .atomAdd _ d _ _ w _ _ => (w == 0 || pairOk d)
  | .atomFaddF32 _ _ _ _ _ _ => true
  | .atomAnd _ d _ _ w _ _ => (w == 0 || pairOk d)
  | .atomOr _ d _ _ w _ _ => (w == 0 || pairOk d)
  | .atomXor _ d _ _ w _ _ => (w == 0 || pairOk d)
  | .atomMin _ d _ _ _ w _ _ => (w == 0 || pairOk d)
  | .atomMax _ d _ _ _ w _ _ => (w == 0 || pairOk d)
  | .atomExch _ d _ _ w _ _ => (w == 0 || pairOk d)
  | .atomCas _ d _ _ w _ _ => (if w == 0 then pairOk d else quadOk d)
  | .bra _ => true
  | .braK _ _ => true
  | .brd _ _ _ => true
  | .call _ => true
  | .jinit _ s => s.toNat ≤ 8
  | .jwait _ => true
  | .jarr _ => true
  | .ret => true
  | .exit => true
  | .emRd _ => true
  | .emWr _ => true
  | .barWg _ => true
  | .barSpan h w => w.toNat ≤ 4 && h.toNat ≤ 3
  | .barStep _ => true
  | .fenceAcq => true
  | .fenceRel => true
  | .fenceAr => true
  | .waitc _ a i => thrOk a i
  | .waitm _ a i => thrOk a i
  | .cset _ a i => thrOk a i
  | .cadd _ a i => thrOk a i
  | .elect _ => true
  | .kmov _ a => uniOk a
  | .kmovFromLk _ => true
  | .kmovToLk a => uniOk a
  | .kadd _ a b => uniOk a && uniOk b
  | .ksub _ a b => uniOk a && uniOk b
  | .kand _ a b => uniOk a && uniOk b
  | .kor _ a b => uniOk a && uniOk b
  | .kxor _ a b => uniOk a && uniOk b
  | .kshl _ a b => uniOk a && uniOk b
  | .kshr _ a b => uniOk a && uniOk b
  | .kcmpEq _ a b => uniOk a && uniOk b
  | .kcmpLtS _ a b => uniOk a && uniOk b
  | .kcmpLtZ _ a b => uniOk a && uniOk b
  | .kbr a => uniOk a
  | .kclaim _ _ => true
  | .krel _ => true
  | .kfromv _ _ _ => true
  | .mxClaim _ y _ s => (y == 0 || s.toNat < 16)
  | .mxRel y s => (y == 0 || s.toNat < 16)
  | .mxRec _ _ => true
  | .mxLd m _ _ _ => pairOk m
  | .mxLdS _ _ _ _ => true
  | .mxLdb _ _ _ _ _ => true
  | .mxMma _ _ _ _ => true
  | .mxPmma _ _ _ _ => true
  | .mxZero _ _ => true
  | .mxDrain m _ _ _ _ => pairOk m
  | .mxChk _ _ _ => true
  | .saCfg _ _ _ _ => true
  | .saKey _ _ => true
  | .saLdc m _ _ => pairOk m
  | .saLdh m _ _ => pairOk m
  | .saClmp m _ _ => pairOk m
  | .saUncl _ _ => true
  | .saGhost _ _ _ => true
  | .saSwp _ q _ w => (w == 1 || q == 0)
  | .saRdc m q _ _ w => pairOk m && (w == 1 || q == 0)
  | .saRds m q _ _ w => pairOk m && (w == 1 || q == 0)
  | .saClr _ => true
  | .saMon d _ => pairOk d
  | .saMonW d _ _ => pairOk d
  | .saStat d _ => pairOk d
  | .tcLd r o t _ q => runOk r 4 && runOk o 2 && (q == 1 || t == 0)
  | .tcSt r o t _ q => runOk r 4 && runOk o 2 && (q == 1 || t == 0)
  | .tcMcast r o t _ q => runOk r 4 && runOk o 3 && (q == 1 || t == 0)
  | .busA _ o t _ q => runOk o 2 && (q == 1 || t == 0)
  | .busB _ o t _ q => runOk o 2 && (q == 1 || t == 0)
  | .rvSend _ o _ _ => runOk o 2
  | .rvTalloc _ _ => true
  | .rvTfree _ => true
  | .rvStat _ _ => true
  | .amSend _ _ _ _ => true
  | .amReg _ _ => true
  | .pipeBind r => runOk r 2
  | .pipePush _ _ => true
  | .pipePop _ _ _ => true
  | .pipeEos _ => true
  | .taskSpawn r g _ => runOk r 2 && runOk g 2
  | .taskSpawnL _ _ _ => true
  | .taskNext d => runOk d 2
  | .taskDone => true
  | .nodeCommit _ => true
  | .nop => true
  | .trap _ => true
  | .sysret => true
  | .crRd d i => (match crKind i with | none => false | some p => p || pairOk d)
  | .crWr a i => crWritable i && (match crKind i with | none => false | some p => p || pairOk a)
  | .park => true
  | .poolPop _ => true
  | .poolGive _ _ => true
  | .xlatProbe d _ _ => pairOk d
  | .tlbInv _ _ => true
  | .bkpt _ => true
  | .yield => true
  | .time d => pairOk d
  | .fetchLineArrive _ => true
  | .launchDoorbell vf q _ => vf < 1024 && q < 8
  | .launchQueueRead vf q => vf < 1024 && q < 8
  | .workgroupPlace _ => true
  | .workgroupStart _ => true
  | .launchComplete _ => true
  | .groupWaitTimeout _ => true
  | .resizeRequest vf _ => vf < 1024
  | .wgBarrierComplete _ b => b < 4
  | .spanBarrierComplete _ _ _ _ _ => true
  | .stepBarrierComplete _ => true
  | .laneGroupWake _ => true
  | .laneGroupAged _ => true
  | .yieldExpiry _ => true
  | .registerGrowGrant core sc => core < 192 && sc < 4
  | .growthDeadlock core sc => core < 192 && sc < 4
  | .taskClaim part core => part < 12 && core < 192
  | .amArrive _ => true
  | .handlerStart core => core < 192
  | .ptsTick core => core < 192
  | .loadRequest _ line => line % 128 == 0
  | .writeRegistration _ line => line % 128 == 0
  | .forcedPublishRequest _ line => line % 128 == 0
  | .publishArrive _ line _ _ _ => line % 128 == 0
  | .l1Eviction core line => core < 192 && line % 128 == 0
  | .nearAtomic _ lane => lane < 32
  | .farAtomic _ lane => lane < 32
  | .accessReply _ line => line % 128 == 0
  | .memoryReadComplete line _ => line % 128 == 0
  | .engineTakeOwnership _ => true
  | .engineFinish _ => true
  | .tlbWalkDone core vf _ => core < 192 && vf < 1024
  | .tlbiVaRange _ _ _ _ => true
  | .tlbiAsid _ _ => true
  | .tlbiIpaRange _ _ _ => true
  | .tlbiVmid _ => true
  | .tlbiAll => true
  | .hostTlbSync _ => true
  | .tlbSyncAnswer _ => true
  | .pageRequestWrite _ => true
  | .pageRequestDone vf _ => vf < 1024
  | .parkTimeout _ => true
  | .swapOutDone _ => true
  | .readmit _ => true
  | .s2rResume part _ => part < 12
  | .s2rAbort part _ => part < 12
  | .governorWindow bh => bh < 12
  | .preemptSwapDone core => core < 192
  | .swapBack core => core < 192
  | .shadowWriteoutDone core => core < 192
  | .slotEvictionDone core slot => core < 192 && slot < 32
  | .arrayEvictionDone core => core < 192
  | .contextRestoreDone core _ => core < 192
  | .mxCommandStart _ => true
  | .mxLdDone _ => true
  | .busTransferStart _ => true
  | .busTransferDone _ => true
  | .mxMmaDone _ _ => true
  | .mxPmmaDone _ _ => true
  | .mxDrainDone _ => true
  | .mxChkDone _ => true
  | .mxRelEffect _ => true
  | .saCommandStart _ => true
  | .saLoadDone _ => true
  | .saReadDone _ => true
  | .sweepBegin core => core < 192
  | .sweepEnd core => core < 192
  | .ghostSubscribe _ => true
  | .ghostUnsubscribe _ => true
  | .ghostAnswer _ _ => true
  | .ghostUpdateArrive core => core < 192
  | .monitorWindowClose core => core < 192
  | .chainTimeout core => core < 192
  | .stopNotice core _ => core < 192
  | .permitAudit _ _ => true
  | .mcastRequest _ line => line % 128 == 0
  | .mergeWindowExpiry die slice _ => die < 4 && slice < 16
  | .mergeSetExpiry die slice _ => die < 4 && slice < 16
  | .mcastReplyArrive _ line => line % 128 == 0
  | .fragmentArrive _ _ => true
  | .overflowFragmentArrive _ => true
  | .fragmentCombineDone _ => true
  | .orphanTimeout _ => true
  | .linkFlitSend edge dir mod => edge < 4 && dir < 2 && mod < 4
  | .linkFlitReceive edge dir mod _ => edge < 4 && dir < 2 && mod < 4
  | .linkNakReceive edge dir mod => edge < 4 && dir < 2 && mod < 4
  | .linkIdleTimer edge dir mod => edge < 4 && dir < 2 && mod < 4
  | .nakRepeatTimer edge dir mod => edge < 4 && dir < 2 && mod < 4
  | .linkLockLoss edge mod => edge < 4 && mod < 4
  | .linkRetrainDone edge mod _ => edge < 4 && mod < 4
  | .retrainTimeout edge mod _ => edge < 4 && mod < 4
  | .portLost port => port < 9
  | .cxlPortLost port => port < 4
  | .sliceTimeout _ line => line % 128 == 0
  | .hostAccess vf _ _ _ => vf ≤ 1024
  | .hostSnoop line => line % 128 == 0
  | .remoteAccess spkg spart _ op _ => spkg < 16 && spart < 12 && (match op with | .atomic fn _ _ _ => fn < 11 | _ => true)
  | .streamSegment vf s _ off data => vf < 1024 && s < 8 && off % 64 == 0 && data.length % 64 == 0 && data.length ≤ 4096
  | .frameDeadline vf s _ => vf < 1024 && s < 8
  | .descriptorPush vf s => vf < 1024 && s < 8
  | .streamEnable vf s _ => vf < 1024 && s < 8
  | .streamEos vf s => vf < 1024 && s < 8
  | .dbiWindow _ _ _ => true
  | .faultedLaunchEnd _ => true
  | .faultedLaunchTimeout _ => true
  | .nodeDiscard _ => true
  | .pipeDeadlock _ => true
  | .gateDrainTimeout bh => bh < 12
  | .sweeperRead _ line _ => line % 128 == 0
  | .l2CodeChange die _ => die < 4
  | .reencodeDone die => die < 4
  | .retireFrame _ => true
  | .bulkheadFatalError bh => bh < 12
  | .stateDumpDone bh => bh < 12
  | .bulkheadPowerOn bh => bh < 12
  | .bulkheadRailGood bh => bh < 12
  | .bulkheadRailTimeout bh => bh < 12
  | .bulkheadClockEnable bh => bh < 12
  | .pllLock bh => bh < 12
  | .pllLockTimeout bh => bh < 12
  | .bulkheadResetRelease bh => bh < 12
  | .bulkheadInitDone bh => bh < 12
  | .bulkheadResetAssert bh => bh < 12
  | .bulkheadGateClose bh => bh < 12
  | .bulkheadGateOpen bh => bh < 12
  | .bulkheadPowerOff bh => bh < 12
  | .bulkheadDrainDone bh => bh < 12
  | .partitionEnable part _ => part < 12
  | .partitionTeardown part => part < 12
  | .teardownDone part => part < 12
  | .windowEnable win _ _ => win < 32
  | .windowDisable win => win < 32
  | .windowDrainDone win => win < 32
  | .homeMapWrite _ => true
  | .homeMapReadInc => true
  | .vfEnable vf _ => vf < 1024
  | .keyTableWrite key _ => key < 8192
  | .keyLoad key => key < 8192
  | .cxlRangeEnable port _ => port < 4
  | .trimStart bh => bh < 12
  | .trimDone bh => bh < 12
  | .debugResume _ => true
  | .packageReset => true
  | .bootStage _ _ => true
  | .bootImageReplace => true
  | .attestQuote _ => true
  | .registerWrite _ _ _ => true
  | .softError _ => true
  | .linkAckTimeout edge mod => edge < 4 && mod < 4
  | .cxlLinkStateChange port _ => port < 4
  | .hostPortReturn => true

end Sys2Proof
end

