-- ==== Sys2Proof/Decode.lean ====
section
/-! DEFINITION. Decoding of the 32-bit instruction words by the tables of R269 to R276, total on any word: `none` is a
word the tables do not assign, which raises `illegal` (R277). After it the encoder, from the same tables; then the fetch
line of R261, its CRC-32C, and the packets of R253. -/

namespace Sys2Proof

/-- The field of `n` bits whose lowest bit is `lo` (R2). -/
abbrev fld (w : BitVec 32) (lo n : Nat) : BitVec n := w.extractLsb' lo n

/-- Does a word match a row of the table: its bits under `mask` are `pat`. -/
abbrev matches' (w mask pat : BitVec 32) : Bool := w &&& mask == pat

/-- Major 0 (R269): the rows of the table, the narrowest mask first. -/
def decodeMajor0 (w : BitVec 32) : Option Instr :=
  if matches' w 0x7F800000#32 0x00000000#32 then some (.add (fld w 17 6) (fld w 16 1) (fld w 8 8) (fld w 0 8)) else
  if matches' w 0x7F800000#32 0x00800000#32 then some (.sub (fld w 17 6) (fld w 16 1) (fld w 8 8) (fld w 0 8)) else
  if matches' w 0x7F800000#32 0x01000000#32 then some (.addc (fld w 17 6) (fld w 16 1) (fld w 8 8) (fld w 0 8)) else
  if matches' w 0x7F800000#32 0x01800000#32 then some (.subb (fld w 17 6) (fld w 16 1) (fld w 8 8) (fld w 0 8)) else
  if matches' w 0x7F800000#32 0x02000000#32 then some (.mullo (fld w 17 6) (fld w 16 1) (fld w 8 8) (fld w 0 8)) else
  if matches' w 0x7F800000#32 0x02800000#32 then some (.mulhi (fld w 17 6) (fld w 16 1) (fld w 8 8) (fld w 0 8)) else
  if matches' w 0x7F800000#32 0x03000000#32 then some (.and (fld w 17 6) (fld w 16 1) (fld w 8 8) (fld w 0 8)) else
  if matches' w 0x7F800000#32 0x03800000#32 then some (.or (fld w 17 6) (fld w 16 1) (fld w 8 8) (fld w 0 8)) else
  if matches' w 0x7F800000#32 0x04000000#32 then some (.xor (fld w 17 6) (fld w 16 1) (fld w 8 8) (fld w 0 8)) else
  if matches' w 0x7F800000#32 0x04800000#32 then some (.andn (fld w 17 6) (fld w 16 1) (fld w 8 8) (fld w 0 8)) else
  if matches' w 0x7F800000#32 0x05000000#32 then some (.shl (fld w 17 6) (fld w 16 1) (fld w 8 8) (fld w 0 8)) else
  if matches' w 0x7F800000#32 0x05800000#32 then some (.shr (fld w 17 6) (fld w 16 1) (fld w 8 8) (fld w 0 8)) else
  if matches' w 0x7F800000#32 0x06000000#32 then some (.sar (fld w 17 6) (fld w 16 1) (fld w 8 8) (fld w 0 8)) else
  if matches' w 0x7F800000#32 0x06800000#32 then some (.rotl (fld w 17 6) (fld w 16 1) (fld w 8 8) (fld w 0 8)) else
  if matches' w 0x7F800000#32 0x07000000#32 then some (.min (fld w 17 6) (fld w 16 1) (fld w 8 8) (fld w 0 8)) else
  if matches' w 0x7F800000#32 0x07800000#32 then some (.max (fld w 17 6) (fld w 16 1) (fld w 8 8) (fld w 0 8)) else
  none

/-- Major 1 (R269): the rows of the table, the narrowest mask first. -/
def decodeMajor1 (w : BitVec 32) : Option Instr :=
  if matches' w 0x7F8000FF#32 0x0C000000#32 then some (.clz (fld w 17 6) (fld w 16 1) (fld w 8 8)) else
  if matches' w 0x7F8000FF#32 0x0C800000#32 then some (.ctz (fld w 17 6) (fld w 16 1) (fld w 8 8)) else
  if matches' w 0x7F8000FF#32 0x0D000000#32 then some (.popc (fld w 17 6) (fld w 16 1) (fld w 8 8)) else
  if matches' w 0x7F8000FF#32 0x0D800000#32 then some (.brev (fld w 17 6) (fld w 16 1) (fld w 8 8)) else
  if matches' w 0x7F8000E0#32 0x0A000000#32 then some (.shli (fld w 17 6) (fld w 16 1) (fld w 8 8) (fld w 0 5)) else
  if matches' w 0x7F8000E0#32 0x0A800000#32 then some (.shri (fld w 17 6) (fld w 16 1) (fld w 8 8) (fld w 0 5)) else
  if matches' w 0x7F8000E0#32 0x0B000000#32 then some (.sari (fld w 17 6) (fld w 16 1) (fld w 8 8) (fld w 0 5)) else
  if matches' w 0x7F800000#32 0x08000000#32 then some (.addi (fld w 17 6) (fld w 16 1) (fld w 8 8) (fld w 0 8)) else
  if matches' w 0x7F800000#32 0x08800000#32 then some (.andi (fld w 17 6) (fld w 16 1) (fld w 8 8) (fld w 0 8)) else
  if matches' w 0x7F800000#32 0x09000000#32 then some (.ori (fld w 17 6) (fld w 16 1) (fld w 8 8) (fld w 0 8)) else
  if matches' w 0x7F800000#32 0x09800000#32 then some (.xori (fld w 17 6) (fld w 16 1) (fld w 8 8) (fld w 0 8)) else
  if matches' w 0x7F800000#32 0x0B800000#32 then some (.muli (fld w 17 6) (fld w 16 1) (fld w 8 8) (fld w 0 8)) else
  if matches' w 0x7F800000#32 0x0E000000#32 then some (.bfe (fld w 17 6) (fld w 16 1) (fld w 8 8) (fld w 5 3) (fld w 0 5)) else
  if matches' w 0x7F800000#32 0x0E800000#32 then some (.bfi (fld w 17 6) (fld w 16 1) (fld w 8 8) (fld w 5 3) (fld w 0 5)) else
  none

/-- Major 2 (R269): the rows of the table, the narrowest mask first. -/
def decodeMajor2 (w : BitVec 32) : Option Instr :=
  if matches' w 0x7F8000E7#32 0x17800000#32 then some (.frcp (fld w 17 6) (fld w 16 1) (fld w 8 8) (fld w 3 2)) else
  if matches' w 0x7F8000E7#32 0x17800001#32 then some (.frsqrt (fld w 17 6) (fld w 16 1) (fld w 8 8) (fld w 3 2)) else
  if matches' w 0x7F8000E7#32 0x17800002#32 then some (.fsqrt (fld w 17 6) (fld w 16 1) (fld w 8 8) (fld w 3 2)) else
  if matches' w 0x7F8000E7#32 0x17800003#32 then some (.fexp2 (fld w 17 6) (fld w 16 1) (fld w 8 8) (fld w 3 2)) else
  if matches' w 0x7F8000E7#32 0x17800004#32 then some (.flog2 (fld w 17 6) (fld w 16 1) (fld w 8 8) (fld w 3 2)) else
  if matches' w 0x7F8000E7#32 0x17800005#32 then some (.fsin (fld w 17 6) (fld w 16 1) (fld w 8 8) (fld w 3 2)) else
  if matches' w 0x7F8000E7#32 0x17800006#32 then some (.fcos (fld w 17 6) (fld w 16 1) (fld w 8 8) (fld w 3 2)) else
  if matches' w 0x7F8000E7#32 0x17800007#32 then some (.fclass (fld w 17 6) (fld w 16 1) (fld w 8 8) (fld w 3 2)) else
  if matches' w 0x7F800000#32 0x10000000#32 then some (.faddF32 (fld w 17 6) (fld w 16 1) (fld w 8 8) (fld w 0 8)) else
  if matches' w 0x7F800000#32 0x10800000#32 then some (.fsubF32 (fld w 17 6) (fld w 16 1) (fld w 8 8) (fld w 0 8)) else
  if matches' w 0x7F800000#32 0x11000000#32 then some (.fmulF32 (fld w 17 6) (fld w 16 1) (fld w 8 8) (fld w 0 8)) else
  if matches' w 0x7F800000#32 0x11800000#32 then some (.fminF32 (fld w 17 6) (fld w 16 1) (fld w 8 8) (fld w 0 8)) else
  if matches' w 0x7F800000#32 0x12000000#32 then some (.fmaxF32 (fld w 17 6) (fld w 16 1) (fld w 8 8) (fld w 0 8)) else
  if matches' w 0x7F800000#32 0x12800000#32 then some (.faddBf16x2 (fld w 17 6) (fld w 16 1) (fld w 8 8) (fld w 0 8)) else
  if matches' w 0x7F800000#32 0x13000000#32 then some (.fsubBf16x2 (fld w 17 6) (fld w 16 1) (fld w 8 8) (fld w 0 8)) else
  if matches' w 0x7F800000#32 0x13800000#32 then some (.fmulBf16x2 (fld w 17 6) (fld w 16 1) (fld w 8 8) (fld w 0 8)) else
  if matches' w 0x7F800000#32 0x14000000#32 then some (.fminBf16x2 (fld w 17 6) (fld w 16 1) (fld w 8 8) (fld w 0 8)) else
  if matches' w 0x7F800000#32 0x14800000#32 then some (.fmaxBf16x2 (fld w 17 6) (fld w 16 1) (fld w 8 8) (fld w 0 8)) else
  if matches' w 0x7F800000#32 0x15000000#32 then some (.faddF16x2 (fld w 17 6) (fld w 16 1) (fld w 8 8) (fld w 0 8)) else
  if matches' w 0x7F800000#32 0x15800000#32 then some (.fsubF16x2 (fld w 17 6) (fld w 16 1) (fld w 8 8) (fld w 0 8)) else
  if matches' w 0x7F800000#32 0x16000000#32 then some (.fmulF16x2 (fld w 17 6) (fld w 16 1) (fld w 8 8) (fld w 0 8)) else
  if matches' w 0x7F800000#32 0x16800000#32 then some (.fminF16x2 (fld w 17 6) (fld w 16 1) (fld w 8 8) (fld w 0 8)) else
  if matches' w 0x7F800000#32 0x17000000#32 then some (.fmaxF16x2 (fld w 17 6) (fld w 16 1) (fld w 8 8) (fld w 0 8)) else
  none

/-- Major 3 (R269): the rows of the table, the narrowest mask first. -/
def decodeMajor3 (w : BitVec 32) : Option Instr :=
  if matches' w 0x7F000000#32 0x18000000#32 then some (.ffmaF32 (fld w 18 6) (fld w 17 1) (fld w 9 8) (fld w 1 8) (fld w 0 1)) else
  if matches' w 0x7F000000#32 0x19000000#32 then some (.ffmaBf16x2 (fld w 18 6) (fld w 17 1) (fld w 9 8) (fld w 1 8) (fld w 0 1)) else
  if matches' w 0x7F000000#32 0x1A000000#32 then some (.ffmaF16x2 (fld w 18 6) (fld w 17 1) (fld w 9 8) (fld w 1 8) (fld w 0 1)) else
  if matches' w 0x7F000000#32 0x1B000000#32 then some (.imadLo (fld w 18 6) (fld w 17 1) (fld w 9 8) (fld w 1 8) (fld w 0 1)) else
  if matches' w 0x7F000000#32 0x1C000000#32 then some (.imadHi (fld w 18 6) (fld w 17 1) (fld w 9 8) (fld w 1 8) (fld w 0 1)) else
  none

/-- Major 4 (R269): the rows of the table, the narrowest mask first. -/
def decodeMajor4 (w : BitVec 32) : Option Instr :=
  if matches' w 0x7FF1F8FF#32 0x26800000#32 then some (.pnot (fld w 17 3) (fld w 8 3)) else
  if matches' w 0x7FF1F8F8#32 0x25000000#32 then some (.pand (fld w 17 3) (fld w 8 3) (fld w 0 3)) else
  if matches' w 0x7FF1F8F8#32 0x25800000#32 then some (.por (fld w 17 3) (fld w 8 3) (fld w 0 3)) else
  if matches' w 0x7FF1F8F8#32 0x26000000#32 then some (.pxor (fld w 17 3) (fld w 8 3) (fld w 0 3)) else
  if matches' w 0x7F81F8FF#32 0x27000000#32 then some (.ptest (fld w 20 3) (fld w 17 3) (fld w 8 3)) else
  if matches' w 0x7F810000#32 0x20000000#32 then some (.icmp (fld w 20 3) (fld w 17 3) (fld w 8 8) (fld w 0 8)) else
  if matches' w 0x7F810000#32 0x20800000#32 then some (.fcmp (fld w 20 3) (fld w 17 3) (fld w 8 8) (fld w 0 8)) else
  if matches' w 0x78000000#32 0x20000000#32 && 2 ≤ (fld w 23 4).toNat && (fld w 23 4).toNat ≤ 9 then some (.sel (fld w 23 3 - 2) (fld w 17 6) (fld w 16 1) (fld w 8 8) (fld w 0 8)) else
  none

/-- Major 5 (R269): the rows of the table, the narrowest mask first. -/
def decodeMajor5 (w : BitVec 32) : Option Instr :=
  if matches' w 0x7FFFFFFC#32 0x2A800000#32 then some (.edge (fld w 0 2)) else
  if matches' w 0x7FFFFFF8#32 0x2A800080#32 then some (.rgrow (fld w 0 3)) else
  if matches' w 0x7FFFFFF8#32 0x2A8000A0#32 then some (.rshrink (fld w 0 3)) else
  if matches' w 0x7FFFFFE0#32 0x2A800060#32 then some (.rgnPf (fld w 0 5)) else
  if matches' w 0x7FF1FFF8#32 0x2A000000#32 then some (.voteAny (fld w 17 3) (fld w 0 3)) else
  if matches' w 0x7FF1FFF8#32 0x2A000008#32 then some (.voteAll (fld w 17 3) (fld w 0 3)) else
  if matches' w 0x7F80FFFC#32 0x2B000000#32 then some (.ldX (fld w 17 6) (fld w 16 1) (fld w 0 2)) else
  if matches' w 0x7F80FFF8#32 0x2A000010#32 then some (.voteBallot (fld w 17 6) (fld w 16 1) (fld w 0 3)) else
  if matches' w 0x7FF900FF#32 0x2A800020#32 then some (.idxSet (fld w 17 2) (fld w 8 8)) else
  if matches' w 0x7FF900FF#32 0x2A800040#32 then some (.idxAdd (fld w 17 2) (fld w 8 8)) else
  if matches' w 0x7FF900FF#32 0x2B800000#32 then some (.stX (fld w 17 2) (fld w 8 8)) else
  if matches' w 0x7F80FFE0#32 0x2A8000C0#32 then some (.rdsp (fld w 17 6) (fld w 16 1) (fld w 0 5)) else
  if matches' w 0x7F8000FF#32 0x28000000#32 then some (.mov (fld w 17 6) (fld w 16 1) (fld w 8 8)) else
  if matches' w 0x7F800000#32 0x28800000#32 then some (.li (fld w 17 6) (fld w 16 1) (fld w 0 16)) else
  if matches' w 0x7F800000#32 0x29000000#32 then some (.cvt (fld w 17 6) (fld w 16 1) (fld w 8 8) (fld w 0 8)) else
  if matches' w 0x7F800000#32 0x29800000#32 then some (.shfl (fld w 17 6) (fld w 16 1) (fld w 8 8) (fld w 7 1) (fld w 5 2) (fld w 0 5)) else
  if matches' w 0x7C000000#32 0x2C000000#32 then some (.lih (fld w 21 5) (fld w 0 21)) else
  none

/-- Major 6 (R269): the rows of the table, the narrowest mask first. -/
def decodeMajor6 (w : BitVec 32) : Option Instr :=
  if matches' w 0x7F08001F#32 0x3700000B#32 then some (.kld (fld w 20 4) (fld w 14 5) (fld w 11 3) (fld w 5 6)) else
  if matches' w 0x7F00001E#32 0x37000002#32 then some (.ldAcq (fld w 20 4) (fld w 14 6) (fld w 11 3) (fld w 5 6) (fld w 0 1)) else
  if matches' w 0x7F000000#32 0x30000000#32 then some (.ldB8Z (fld w 20 4) (fld w 14 6) (fld w 11 3) (fld w 5 6) (fld w 0 5)) else
  if matches' w 0x7F000000#32 0x31000000#32 then some (.ldB8S (fld w 20 4) (fld w 14 6) (fld w 11 3) (fld w 5 6) (fld w 0 5)) else
  if matches' w 0x7F000000#32 0x32000000#32 then some (.ldB16Z (fld w 20 4) (fld w 14 6) (fld w 11 3) (fld w 5 6) (fld w 0 5)) else
  if matches' w 0x7F000000#32 0x33000000#32 then some (.ldB16S (fld w 20 4) (fld w 14 6) (fld w 11 3) (fld w 5 6) (fld w 0 5)) else
  if matches' w 0x7F000000#32 0x34000000#32 then some (.ldB32 (fld w 20 4) (fld w 14 6) (fld w 11 3) (fld w 5 6) (fld w 0 5)) else
  if matches' w 0x7F000000#32 0x35000000#32 then some (.ldB64 (fld w 20 4) (fld w 14 6) (fld w 11 3) (fld w 5 6) (fld w 0 5)) else
  if matches' w 0x7F000000#32 0x36000000#32 then some (.ldB128 (fld w 20 4) (fld w 14 6) (fld w 11 3) (fld w 5 6) (fld w 0 5)) else
  none

/-- Major 7 (R269): the rows of the table, the narrowest mask first. -/
def decodeMajor7 (w : BitVec 32) : Option Instr :=
  if matches' w 0x7F0F3FFF#32 0x3E080008#32 then some (.stashWbE (fld w 20 4) (fld w 14 2)) else
  if matches' w 0x7F0F3FFF#32 0x3E080010#32 then some (.stashInvE (fld w 20 4) (fld w 14 2)) else
  if matches' w 0x7F003FFF#32 0x3E000018#32 then some (.stashStg (fld w 20 4) (fld w 14 6)) else
  if matches' w 0x7F0FC01F#32 0x3E000008#32 then some (.stashWb (fld w 20 4) (fld w 11 3) (fld w 5 6)) else
  if matches' w 0x7F0FC01F#32 0x3E000010#32 then some (.stashInv (fld w 20 4) (fld w 11 3) (fld w 5 6)) else
  if matches' w 0x7F08001F#32 0x3D00000B#32 then some (.kst (fld w 20 4) (fld w 14 5) (fld w 11 3) (fld w 5 6)) else
  if matches' w 0x7F08001F#32 0x3E000000#32 then some (.stashMap (fld w 20 4) (fld w 16 3) (fld w 14 2) (fld w 11 3) (fld w 5 6)) else
  if matches' w 0x7F00001E#32 0x3D000002#32 then some (.stRel (fld w 20 4) (fld w 14 6) (fld w 11 3) (fld w 5 6) (fld w 0 1)) else
  if matches' w 0x7F000000#32 0x38000000#32 then some (.stB8 (fld w 20 4) (fld w 14 6) (fld w 11 3) (fld w 5 6) (fld w 0 5)) else
  if matches' w 0x7F000000#32 0x39000000#32 then some (.stB16 (fld w 20 4) (fld w 14 6) (fld w 11 3) (fld w 5 6) (fld w 0 5)) else
  if matches' w 0x7F000000#32 0x3A000000#32 then some (.stB32 (fld w 20 4) (fld w 14 6) (fld w 11 3) (fld w 5 6) (fld w 0 5)) else
  if matches' w 0x7F000000#32 0x3B000000#32 then some (.stB64 (fld w 20 4) (fld w 14 6) (fld w 11 3) (fld w 5 6) (fld w 0 5)) else
  if matches' w 0x7F000000#32 0x3C000000#32 then some (.stB128 (fld w 20 4) (fld w 14 6) (fld w 11 3) (fld w 5 6) (fld w 0 5)) else
  none

/-- Major 8 (R269): the rows of the table, the narrowest mask first. -/
def decodeMajor8 (w : BitVec 32) : Option Instr :=
  if matches' w 0x7F000018#32 0x40000010#32 then some (.atomFaddF32 (fld w 20 4) (fld w 14 6) (fld w 11 3) (fld w 5 6) (fld w 2 1) (fld w 0 2)) else
  if matches' w 0x7F000010#32 0x40000000#32 then some (.atomAdd (fld w 20 4) (fld w 14 6) (fld w 11 3) (fld w 5 6) (fld w 3 1) (fld w 2 1) (fld w 0 2)) else
  if matches' w 0x7F000010#32 0x41000000#32 then some (.atomAnd (fld w 20 4) (fld w 14 6) (fld w 11 3) (fld w 5 6) (fld w 3 1) (fld w 2 1) (fld w 0 2)) else
  if matches' w 0x7F000010#32 0x42000000#32 then some (.atomOr (fld w 20 4) (fld w 14 6) (fld w 11 3) (fld w 5 6) (fld w 3 1) (fld w 2 1) (fld w 0 2)) else
  if matches' w 0x7F000010#32 0x43000000#32 then some (.atomXor (fld w 20 4) (fld w 14 6) (fld w 11 3) (fld w 5 6) (fld w 3 1) (fld w 2 1) (fld w 0 2)) else
  if matches' w 0x7F000010#32 0x46000000#32 then some (.atomExch (fld w 20 4) (fld w 14 6) (fld w 11 3) (fld w 5 6) (fld w 3 1) (fld w 2 1) (fld w 0 2)) else
  if matches' w 0x7F000010#32 0x47000000#32 then some (.atomCas (fld w 20 4) (fld w 14 6) (fld w 11 3) (fld w 5 6) (fld w 3 1) (fld w 2 1) (fld w 0 2)) else
  if matches' w 0x7F000000#32 0x44000000#32 then some (.atomMin (fld w 20 4) (fld w 14 6) (fld w 11 3) (fld w 5 6) (fld w 4 1) (fld w 3 1) (fld w 2 1) (fld w 0 2)) else
  if matches' w 0x7F000000#32 0x45000000#32 then some (.atomMax (fld w 20 4) (fld w 14 6) (fld w 11 3) (fld w 5 6) (fld w 4 1) (fld w 3 1) (fld w 2 1) (fld w 0 2)) else
  none

/-- Major 9 (R269): the rows of the table, the narrowest mask first. -/
def decodeMajor9 (w : BitVec 32) : Option Instr :=
  if matches' w 0x7FFFFFFF#32 0x4D000000#32 then some .ret else
  if matches' w 0x7FFFFFFF#32 0x4D100000#32 then some .exit else
  if matches' w 0x7FCFFFFF#32 0x4C400000#32 then some (.jwait (fld w 20 2)) else
  if matches' w 0x7FCFFFFF#32 0x4C800000#32 then some (.jarr (fld w 20 2)) else
  if matches' w 0x7F8FFFFF#32 0x4E000000#32 then some (.emRd (fld w 20 3)) else
  if matches' w 0x7F8FFFFF#32 0x4E800000#32 then some (.emWr (fld w 20 3)) else
  if matches' w 0x7FCFFFF0#32 0x4C000000#32 then some (.jinit (fld w 20 2) (fld w 0 4)) else
  if matches' w 0x7FF00000#32 0x48000000#32 then some (.bra (fld w 0 20)) else
  if matches' w 0x7FF00000#32 0x4B000000#32 then some (.call (fld w 0 20)) else
  if matches' w 0x7F000000#32 0x49000000#32 then some (.braK (fld w 20 4) (fld w 0 20)) else
  if matches' w 0x7F000000#32 0x4A000000#32 then some (.brd (fld w 23 1) (fld w 20 3) (fld w 0 20)) else
  none

/-- Major 10 (R269): the rows of the table, the narrowest mask first. -/
def decodeMajor10 (w : BitVec 32) : Option Instr :=
  if matches' w 0x7FFFFFFF#32 0x51800000#32 then some .fenceAcq else
  if matches' w 0x7FFFFFFF#32 0x52000000#32 then some .fenceRel else
  if matches' w 0x7FFFFFFF#32 0x52800000#32 then some .fenceAr else
  if matches' w 0x7FFFFFFE#32 0x51000000#32 then some (.barStep (fld w 0 1)) else
  if matches' w 0x7FFFFFFC#32 0x50000000#32 then some (.barWg (fld w 0 2)) else
  if matches' w 0x7FF1FFFF#32 0x55000000#32 then some (.elect (fld w 17 3)) else
  if matches' w 0x7FFFFFC0#32 0x50800000#32 then some (.barSpan (fld w 3 3) (fld w 0 3)) else
  if matches' w 0x7FE10000#32 0x53000000#32 then some (.waitc (fld w 17 4) (fld w 8 8) (fld w 0 8)) else
  if matches' w 0x7FE10000#32 0x54000000#32 then some (.cset (fld w 17 4) (fld w 8 8) (fld w 0 8)) else
  if matches' w 0x7FE10000#32 0x54800000#32 then some (.cadd (fld w 17 4) (fld w 8 8) (fld w 0 8)) else
  if matches' w 0x7FC10000#32 0x53800000#32 then some (.waitm (fld w 17 5) (fld w 8 8) (fld w 0 8)) else
  none

/-- Major 11 (R269): the rows of the table, the narrowest mask first. -/
def decodeMajor11 (w : BitVec 32) : Option Instr :=
  if matches' w 0x7FC1FFFF#32 0x58010000#32 then some (.kmovFromLk (fld w 17 5)) else
  if matches' w 0x7FC1FFFF#32 0x5E800000#32 then some (.krel (fld w 17 5)) else
  if matches' w 0x7FFF00FF#32 0x58410000#32 then some (.kmovToLk (fld w 8 8)) else
  if matches' w 0x7FFF00FF#32 0x5D800000#32 then some (.kbr (fld w 8 8)) else
  if matches' w 0x7FC1FFF8#32 0x5E000000#32 then some (.kclaim (fld w 17 5) (fld w 0 3)) else
  if matches' w 0x7FC100FF#32 0x58000000#32 then some (.kmov (fld w 17 5) (fld w 8 8)) else
  if matches' w 0x7FC10000#32 0x58800000#32 then some (.kadd (fld w 17 5) (fld w 8 8) (fld w 0 8)) else
  if matches' w 0x7FC10000#32 0x59000000#32 then some (.ksub (fld w 17 5) (fld w 8 8) (fld w 0 8)) else
  if matches' w 0x7FC10000#32 0x59800000#32 then some (.kand (fld w 17 5) (fld w 8 8) (fld w 0 8)) else
  if matches' w 0x7FC10000#32 0x5A000000#32 then some (.kor (fld w 17 5) (fld w 8 8) (fld w 0 8)) else
  if matches' w 0x7FC10000#32 0x5A800000#32 then some (.kxor (fld w 17 5) (fld w 8 8) (fld w 0 8)) else
  if matches' w 0x7FC10000#32 0x5B000000#32 then some (.kshl (fld w 17 5) (fld w 8 8) (fld w 0 8)) else
  if matches' w 0x7FC10000#32 0x5B800000#32 then some (.kshr (fld w 17 5) (fld w 8 8) (fld w 0 8)) else
  if matches' w 0x7FC10000#32 0x5C000000#32 then some (.kcmpEq (fld w 17 5) (fld w 8 8) (fld w 0 8)) else
  if matches' w 0x7FC10000#32 0x5C800000#32 then some (.kcmpLtS (fld w 17 5) (fld w 8 8) (fld w 0 8)) else
  if matches' w 0x7FC10000#32 0x5D000000#32 then some (.kcmpLtZ (fld w 17 5) (fld w 8 8) (fld w 0 8)) else
  if matches' w 0x7FC10000#32 0x5F000000#32 then some (.kfromv (fld w 17 5) (fld w 8 8) (fld w 0 8)) else
  none

/-- Major 12 (R269): the rows of the table, the narrowest mask first. -/
def decodeMajor12 (w : BitVec 32) : Option Instr :=
  if matches' w 0x7FFF60FF#32 0x60800000#32 then some (.mxRel (fld w 15 1) (fld w 8 5)) else
  if matches' w 0x7FFFFF00#32 0x63800000#32 then some (.mxZero (fld w 4 4) (fld w 0 4)) else
  if matches' w 0x7FF120FF#32 0x60000000#32 then some (.mxClaim (fld w 17 3) (fld w 15 1) (fld w 14 1) (fld w 8 5)) else
  if matches' w 0x7FFF07E0#32 0x61000000#32 then some (.mxRec (fld w 11 5) (fld w 0 5)) else
  if matches' w 0x7F81FF00#32 0x64800000#32 then some (.mxChk (fld w 17 6) (fld w 4 4) (fld w 0 4)) else
  if matches' w 0x7F81000F#32 0x61800000#32 then some (.mxLd (fld w 17 6) (fld w 11 5) (fld w 8 3) (fld w 4 4)) else
  if matches' w 0x7F81000F#32 0x61800001#32 then some (.mxLdS (fld w 17 6) (fld w 11 5) (fld w 8 3) (fld w 4 4)) else
  if matches' w 0x7FC10700#32 0x62800000#32 then some (.mxMma (fld w 17 5) (fld w 11 5) (fld w 4 4) (fld w 0 4)) else
  if matches' w 0x7FC10700#32 0x63000000#32 then some (.mxPmma (fld w 17 5) (fld w 11 5) (fld w 4 4) (fld w 0 4)) else
  if matches' w 0x7F810700#32 0x62000000#32 then some (.mxLdb (fld w 22 1) (fld w 17 5) (fld w 11 5) (fld w 4 4) (fld w 0 4)) else
  if matches' w 0x7F810000#32 0x64000000#32 then some (.mxDrain (fld w 17 6) (fld w 11 5) (fld w 8 3) (fld w 4 4) (fld w 0 4)) else
  none

/-- Major 13 (R269): the rows of the table, the narrowest mask first. -/
def decodeMajor13 (w : BitVec 32) : Option Instr :=
  if matches' w 0x7FFFFF0F#32 0x6D000000#32 then some (.saClr (fld w 4 4)) else
  if matches' w 0x7FFF070F#32 0x68800000#32 then some (.saKey (fld w 11 5) (fld w 4 4)) else
  if matches' w 0x7F81FF0F#32 0x6A800000#32 then some (.saUncl (fld w 17 6) (fld w 4 4)) else
  if matches' w 0x7F81FF0F#32 0x6D800000#32 then some (.saMon (fld w 17 6) (fld w 4 4)) else
  if matches' w 0x7F81FF0F#32 0x6E000000#32 then some (.saStat (fld w 17 6) (fld w 4 4)) else
  if matches' w 0x7F81F80F#32 0x69000000#32 then some (.saLdc (fld w 17 6) (fld w 8 3) (fld w 4 4)) else
  if matches' w 0x7F81F80F#32 0x69800000#32 then some (.saLdh (fld w 17 6) (fld w 8 3) (fld w 4 4)) else
  if matches' w 0x7F81F80F#32 0x6A000000#32 then some (.saClmp (fld w 17 6) (fld w 8 3) (fld w 4 4)) else
  if matches' w 0x7F81F80F#32 0x6B000000#32 then some (.saGhost (fld w 17 6) (fld w 8 3) (fld w 4 4)) else
  if matches' w 0x7F81070E#32 0x6B800000#32 then some (.saSwp (fld w 17 6) (fld w 11 5) (fld w 4 4) (fld w 0 1)) else
  if matches' w 0x7F81C00F#32 0x6D800001#32 then some (.saMonW (fld w 17 6) (fld w 8 6) (fld w 4 4)) else
  if matches' w 0x7FC1000F#32 0x68000000#32 then some (.saCfg (fld w 17 5) (fld w 11 5) (fld w 8 3) (fld w 4 4)) else
  if matches' w 0x7F81000E#32 0x6C000000#32 then some (.saRdc (fld w 17 6) (fld w 11 5) (fld w 8 3) (fld w 4 4) (fld w 0 1)) else
  if matches' w 0x7F81000E#32 0x6C800000#32 then some (.saRds (fld w 17 6) (fld w 11 5) (fld w 8 3) (fld w 4 4) (fld w 0 1)) else
  none

/-- Major 14 (R269): the rows of the table, the narrowest mask first. -/
def decodeMajor14 (w : BitVec 32) : Option Instr :=
  if matches' w 0x7FFFFFFF#32 0x77000001#32 then some .taskDone else
  if matches' w 0x7FFFFF0F#32 0x77800000#32 then some (.nodeCommit (fld w 4 4)) else
  if matches' w 0x7F83FFFF#32 0x73000001#32 then some (.rvTfree (fld w 18 5)) else
  if matches' w 0x7F83FFFF#32 0x74800000#32 then some (.pipeBind (fld w 18 5)) else
  if matches' w 0x7F83FFFF#32 0x76000000#32 then some (.pipeEos (fld w 18 5)) else
  if matches' w 0x7F83FFFF#32 0x77000000#32 then some (.taskNext (fld w 18 5)) else
  if matches' w 0x7F831FFF#32 0x73000000#32 then some (.rvTalloc (fld w 18 5) (fld w 13 3)) else
  if matches' w 0x7F831FFF#32 0x74000000#32 then some (.amReg (fld w 18 5) (fld w 13 3)) else
  if matches' w 0x7F801FFF#32 0x73000002#32 then some (.rvStat (fld w 18 5) (fld w 13 5)) else
  if matches' w 0x7F801FFF#32 0x75000000#32 then some (.pipePush (fld w 18 5) (fld w 13 5)) else
  if matches' w 0x7F801FF8#32 0x75800000#32 then some (.pipePop (fld w 18 5) (fld w 13 5) (fld w 0 3)) else
  if matches' w 0x7F801FF8#32 0x76800000#32 then some (.taskSpawn (fld w 18 5) (fld w 13 5) (fld w 0 3)) else
  if matches' w 0x7F801FF8#32 0x76800008#32 then some (.taskSpawnL (fld w 18 5) (fld w 13 5) (fld w 0 3)) else
  if matches' w 0x7F80180F#32 0x73800000#32 then some (.amSend (fld w 18 5) (fld w 13 5) (fld w 8 3) (fld w 4 4)) else
  if matches' w 0x7F80000F#32 0x72800000#32 then some (.rvSend (fld w 18 5) (fld w 13 5) (fld w 8 5) (fld w 4 4)) else
  if matches' w 0x7F800007#32 0x70000000#32 then some (.tcLd (fld w 18 5) (fld w 13 5) (fld w 8 5) (fld w 4 4) (fld w 3 1)) else
  if matches' w 0x7F800007#32 0x70800000#32 then some (.tcSt (fld w 18 5) (fld w 13 5) (fld w 8 5) (fld w 4 4) (fld w 3 1)) else
  if matches' w 0x7F800007#32 0x71000000#32 then some (.tcMcast (fld w 18 5) (fld w 13 5) (fld w 8 5) (fld w 4 4) (fld w 3 1)) else
  if matches' w 0x7F800007#32 0x71800000#32 then some (.busA (fld w 18 5) (fld w 13 5) (fld w 8 5) (fld w 4 4) (fld w 3 1)) else
  if matches' w 0x7F800007#32 0x72000000#32 then some (.busB (fld w 18 5) (fld w 13 5) (fld w 8 5) (fld w 4 4) (fld w 3 1)) else
  none

/-- Major 15 (R269): the rows of the table, the narrowest mask first. -/
def decodeMajor15 (w : BitVec 32) : Option Instr :=
  if matches' w 0x7FFFFFFF#32 0x78000000#32 then some .nop else
  if matches' w 0x7FFFFFFF#32 0x79000000#32 then some .sysret else
  if matches' w 0x7FFFFFFF#32 0x7A800000#32 then some .park else
  if matches' w 0x7FFFFFFF#32 0x7D800000#32 then some .yield else
  if matches' w 0x7F81FFFF#32 0x7B000000#32 then some (.poolPop (fld w 17 6)) else
  if matches' w 0x7F81FFFF#32 0x7E000000#32 then some (.time (fld w 17 6)) else
  if matches' w 0x7FFFFF00#32 0x78800000#32 then some (.trap (fld w 0 8)) else
  if matches' w 0x7FFFFF00#32 0x7D000000#32 then some (.bkpt (fld w 0 8)) else
  if matches' w 0x7F81E0FF#32 0x7B806000#32 then some (.poolGive (fld w 17 6) (fld w 8 5)) else
  if matches' w 0x7FFFE000#32 0x7C806000#32 then some (.tlbInv (fld w 8 5) (fld w 0 8)) else
  if matches' w 0x7F81FF00#32 0x79800000#32 then some (.crRd (fld w 17 6) (fld w 0 8)) else
  if matches' w 0x7FFFC000#32 0x7A000000#32 then some (.crWr (fld w 8 6) (fld w 0 8)) else
  if matches' w 0x7F8100E0#32 0x7C000000#32 then some (.xlatProbe (fld w 17 6) (fld w 8 8) (fld w 0 5)) else
  none

/-- The instruction of a word, whatever its chain bit (bit 31, R252). The major is bits [30:27]. -/
def decodeWord (w : BitVec 32) : Option Instr :=
  match (fld w 27 4).toNat with
  | 0 => decodeMajor0 w
  | 1 => decodeMajor1 w
  | 2 => decodeMajor2 w
  | 3 => decodeMajor3 w
  | 4 => decodeMajor4 w
  | 5 => decodeMajor5 w
  | 6 => decodeMajor6 w
  | 7 => decodeMajor7 w
  | 8 => decodeMajor8 w
  | 9 => decodeMajor9 w
  | 10 => decodeMajor10 w
  | 11 => decodeMajor11 w
  | 12 => decodeMajor12 w
  | 13 => decodeMajor13 w
  | 14 => decodeMajor14 w
  | _ => decodeMajor15 w

/-- A field `x` placed with its lowest bit at `lo`. -/
abbrev put {n : Nat} (x : BitVec n) (lo : Nat) : BitVec 32 := (x.setWidth 32) <<< lo

/-- The word of an instruction with its chain bit 0, by the tables of R265 to R276. An event has no encoding. -/
def encode (i : Instr) : Option (BitVec 32) :=
  match i with
  | .add d n a b => some (0x00000000#32 ||| put d 17 ||| put n 16 ||| put a 8 ||| put b 0)
  | .sub d n a b => some (0x00800000#32 ||| put d 17 ||| put n 16 ||| put a 8 ||| put b 0)
  | .addc d n a b => some (0x01000000#32 ||| put d 17 ||| put n 16 ||| put a 8 ||| put b 0)
  | .subb d n a b => some (0x01800000#32 ||| put d 17 ||| put n 16 ||| put a 8 ||| put b 0)
  | .mullo d n a b => some (0x02000000#32 ||| put d 17 ||| put n 16 ||| put a 8 ||| put b 0)
  | .mulhi d n a b => some (0x02800000#32 ||| put d 17 ||| put n 16 ||| put a 8 ||| put b 0)
  | .and d n a b => some (0x03000000#32 ||| put d 17 ||| put n 16 ||| put a 8 ||| put b 0)
  | .or d n a b => some (0x03800000#32 ||| put d 17 ||| put n 16 ||| put a 8 ||| put b 0)
  | .xor d n a b => some (0x04000000#32 ||| put d 17 ||| put n 16 ||| put a 8 ||| put b 0)
  | .andn d n a b => some (0x04800000#32 ||| put d 17 ||| put n 16 ||| put a 8 ||| put b 0)
  | .shl d n a b => some (0x05000000#32 ||| put d 17 ||| put n 16 ||| put a 8 ||| put b 0)
  | .shr d n a b => some (0x05800000#32 ||| put d 17 ||| put n 16 ||| put a 8 ||| put b 0)
  | .sar d n a b => some (0x06000000#32 ||| put d 17 ||| put n 16 ||| put a 8 ||| put b 0)
  | .rotl d n a b => some (0x06800000#32 ||| put d 17 ||| put n 16 ||| put a 8 ||| put b 0)
  | .min d n a b => some (0x07000000#32 ||| put d 17 ||| put n 16 ||| put a 8 ||| put b 0)
  | .max d n a b => some (0x07800000#32 ||| put d 17 ||| put n 16 ||| put a 8 ||| put b 0)
  | .addi d n a i => some (0x08000000#32 ||| put d 17 ||| put n 16 ||| put a 8 ||| put i 0)
  | .andi d n a i => some (0x08800000#32 ||| put d 17 ||| put n 16 ||| put a 8 ||| put i 0)
  | .ori d n a i => some (0x09000000#32 ||| put d 17 ||| put n 16 ||| put a 8 ||| put i 0)
  | .xori d n a i => some (0x09800000#32 ||| put d 17 ||| put n 16 ||| put a 8 ||| put i 0)
  | .shli d n a i => some (0x0A000000#32 ||| put d 17 ||| put n 16 ||| put a 8 ||| put i 0)
  | .shri d n a i => some (0x0A800000#32 ||| put d 17 ||| put n 16 ||| put a 8 ||| put i 0)
  | .sari d n a i => some (0x0B000000#32 ||| put d 17 ||| put n 16 ||| put a 8 ||| put i 0)
  | .muli d n a i => some (0x0B800000#32 ||| put d 17 ||| put n 16 ||| put a 8 ||| put i 0)
  | .clz d n a => some (0x0C000000#32 ||| put d 17 ||| put n 16 ||| put a 8)
  | .ctz d n a => some (0x0C800000#32 ||| put d 17 ||| put n 16 ||| put a 8)
  | .popc d n a => some (0x0D000000#32 ||| put d 17 ||| put n 16 ||| put a 8)
  | .brev d n a => some (0x0D800000#32 ||| put d 17 ||| put n 16 ||| put a 8)
  | .bfe d n a w p => some (0x0E000000#32 ||| put d 17 ||| put n 16 ||| put a 8 ||| put w 5 ||| put p 0)
  | .bfi d n a w p => some (0x0E800000#32 ||| put d 17 ||| put n 16 ||| put a 8 ||| put w 5 ||| put p 0)
  | .faddF32 d n a b => some (0x10000000#32 ||| put d 17 ||| put n 16 ||| put a 8 ||| put b 0)
  | .fsubF32 d n a b => some (0x10800000#32 ||| put d 17 ||| put n 16 ||| put a 8 ||| put b 0)
  | .fmulF32 d n a b => some (0x11000000#32 ||| put d 17 ||| put n 16 ||| put a 8 ||| put b 0)
  | .fminF32 d n a b => some (0x11800000#32 ||| put d 17 ||| put n 16 ||| put a 8 ||| put b 0)
  | .fmaxF32 d n a b => some (0x12000000#32 ||| put d 17 ||| put n 16 ||| put a 8 ||| put b 0)
  | .faddBf16x2 d n a b => some (0x12800000#32 ||| put d 17 ||| put n 16 ||| put a 8 ||| put b 0)
  | .fsubBf16x2 d n a b => some (0x13000000#32 ||| put d 17 ||| put n 16 ||| put a 8 ||| put b 0)
  | .fmulBf16x2 d n a b => some (0x13800000#32 ||| put d 17 ||| put n 16 ||| put a 8 ||| put b 0)
  | .fminBf16x2 d n a b => some (0x14000000#32 ||| put d 17 ||| put n 16 ||| put a 8 ||| put b 0)
  | .fmaxBf16x2 d n a b => some (0x14800000#32 ||| put d 17 ||| put n 16 ||| put a 8 ||| put b 0)
  | .faddF16x2 d n a b => some (0x15000000#32 ||| put d 17 ||| put n 16 ||| put a 8 ||| put b 0)
  | .fsubF16x2 d n a b => some (0x15800000#32 ||| put d 17 ||| put n 16 ||| put a 8 ||| put b 0)
  | .fmulF16x2 d n a b => some (0x16000000#32 ||| put d 17 ||| put n 16 ||| put a 8 ||| put b 0)
  | .fminF16x2 d n a b => some (0x16800000#32 ||| put d 17 ||| put n 16 ||| put a 8 ||| put b 0)
  | .fmaxF16x2 d n a b => some (0x17000000#32 ||| put d 17 ||| put n 16 ||| put a 8 ||| put b 0)
  | .frcp d n a t => some (0x17800000#32 ||| put d 17 ||| put n 16 ||| put a 8 ||| put t 3)
  | .frsqrt d n a t => some (0x17800001#32 ||| put d 17 ||| put n 16 ||| put a 8 ||| put t 3)
  | .fsqrt d n a t => some (0x17800002#32 ||| put d 17 ||| put n 16 ||| put a 8 ||| put t 3)
  | .fexp2 d n a t => some (0x17800003#32 ||| put d 17 ||| put n 16 ||| put a 8 ||| put t 3)
  | .flog2 d n a t => some (0x17800004#32 ||| put d 17 ||| put n 16 ||| put a 8 ||| put t 3)
  | .fsin d n a t => some (0x17800005#32 ||| put d 17 ||| put n 16 ||| put a 8 ||| put t 3)
  | .fcos d n a t => some (0x17800006#32 ||| put d 17 ||| put n 16 ||| put a 8 ||| put t 3)
  | .fclass d n a t => some (0x17800007#32 ||| put d 17 ||| put n 16 ||| put a 8 ||| put t 3)
  | .ffmaF32 d n a b g => some (0x18000000#32 ||| put d 18 ||| put n 17 ||| put a 9 ||| put b 1 ||| put g 0)
  | .ffmaBf16x2 d n a b g => some (0x19000000#32 ||| put d 18 ||| put n 17 ||| put a 9 ||| put b 1 ||| put g 0)
  | .ffmaF16x2 d n a b g => some (0x1A000000#32 ||| put d 18 ||| put n 17 ||| put a 9 ||| put b 1 ||| put g 0)
  | .imadLo d n a b g => some (0x1B000000#32 ||| put d 18 ||| put n 17 ||| put a 9 ||| put b 1 ||| put g 0)
  | .imadHi d n a b g => some (0x1C000000#32 ||| put d 18 ||| put n 17 ||| put a 9 ||| put b 1 ||| put g 0)
  | .icmp c q a b => some (0x20000000#32 ||| put c 20 ||| put q 17 ||| put a 8 ||| put b 0)
  | .fcmp c q a b => some (0x20800000#32 ||| put c 20 ||| put q 17 ||| put a 8 ||| put b 0)
  | .sel q d n a b => some (0x20000000#32 ||| put (q.setWidth 4 + 2) 23 ||| put d 17 ||| put n 16 ||| put a 8 ||| put b 0)
  | .pand d a b => some (0x25000000#32 ||| put d 17 ||| put a 8 ||| put b 0)
  | .por d a b => some (0x25800000#32 ||| put d 17 ||| put a 8 ||| put b 0)
  | .pxor d a b => some (0x26000000#32 ||| put d 17 ||| put a 8 ||| put b 0)
  | .pnot d a => some (0x26800000#32 ||| put d 17 ||| put a 8)
  | .ptest m d a => some (0x27000000#32 ||| put m 20 ||| put d 17 ||| put a 8)
  | .mov d n a => some (0x28000000#32 ||| put d 17 ||| put n 16 ||| put a 8)
  | .li d n i => some (0x28800000#32 ||| put d 17 ||| put n 16 ||| put i 0)
  | .cvt d n a s => some (0x29000000#32 ||| put d 17 ||| put n 16 ||| put a 8 ||| put s 0)
  | .shfl d n a r m l => some (0x29800000#32 ||| put d 17 ||| put n 16 ||| put a 8 ||| put r 7 ||| put m 5 ||| put l 0)
  | .voteAny d q => some (0x2A000000#32 ||| put d 17 ||| put q 0)
  | .voteAll d q => some (0x2A000008#32 ||| put d 17 ||| put q 0)
  | .voteBallot d n q => some (0x2A000010#32 ||| put d 17 ||| put n 16 ||| put q 0)
  | .edge m => some (0x2A800000#32 ||| put m 0)
  | .idxSet x a => some (0x2A800020#32 ||| put x 17 ||| put a 8)
  | .idxAdd x a => some (0x2A800040#32 ||| put x 17 ||| put a 8)
  | .rgnPf m => some (0x2A800060#32 ||| put m 0)
  | .rgrow c => some (0x2A800080#32 ||| put c 0)
  | .rshrink c => some (0x2A8000A0#32 ||| put c 0)
  | .rdsp d n s => some (0x2A8000C0#32 ||| put d 17 ||| put n 16 ||| put s 0)
  | .ldX d n x => some (0x2B000000#32 ||| put d 17 ||| put n 16 ||| put x 0)
  | .stX x a => some (0x2B800000#32 ||| put x 17 ||| put a 8)
  | .lih d i => some (0x2C000000#32 ||| put d 21 ||| put i 0)
  | .ldB8Z c d g a i => some (0x30000000#32 ||| put c 20 ||| put d 14 ||| put g 11 ||| put a 5 ||| put i 0)
  | .ldB8S c d g a i => some (0x31000000#32 ||| put c 20 ||| put d 14 ||| put g 11 ||| put a 5 ||| put i 0)
  | .ldB16Z c d g a i => some (0x32000000#32 ||| put c 20 ||| put d 14 ||| put g 11 ||| put a 5 ||| put i 0)
  | .ldB16S c d g a i => some (0x33000000#32 ||| put c 20 ||| put d 14 ||| put g 11 ||| put a 5 ||| put i 0)
  | .ldB32 c d g a i => some (0x34000000#32 ||| put c 20 ||| put d 14 ||| put g 11 ||| put a 5 ||| put i 0)
  | .ldB64 c d g a i => some (0x35000000#32 ||| put c 20 ||| put d 14 ||| put g 11 ||| put a 5 ||| put i 0)
  | .ldB128 c d g a i => some (0x36000000#32 ||| put c 20 ||| put d 14 ||| put g 11 ||| put a 5 ||| put i 0)
  | .ldAcq c d g a s => some (0x37000002#32 ||| put c 20 ||| put d 14 ||| put g 11 ||| put a 5 ||| put s 0)
  | .kld c d g a => some (0x3700000B#32 ||| put c 20 ||| put d 14 ||| put g 11 ||| put a 5)
  | .stB8 c d g a i => some (0x38000000#32 ||| put c 20 ||| put d 14 ||| put g 11 ||| put a 5 ||| put i 0)
  | .stB16 c d g a i => some (0x39000000#32 ||| put c 20 ||| put d 14 ||| put g 11 ||| put a 5 ||| put i 0)
  | .stB32 c d g a i => some (0x3A000000#32 ||| put c 20 ||| put d 14 ||| put g 11 ||| put a 5 ||| put i 0)
  | .stB64 c d g a i => some (0x3B000000#32 ||| put c 20 ||| put d 14 ||| put g 11 ||| put a 5 ||| put i 0)
  | .stB128 c d g a i => some (0x3C000000#32 ||| put c 20 ||| put d 14 ||| put g 11 ||| put a 5 ||| put i 0)
  | .stRel c d g a s => some (0x3D000002#32 ||| put c 20 ||| put d 14 ||| put g 11 ||| put a 5 ||| put s 0)
  | .kst c d g a => some (0x3D00000B#32 ||| put c 20 ||| put d 14 ||| put g 11 ||| put a 5)
  | .stashMap c p e g a => some (0x3E000000#32 ||| put c 20 ||| put p 16 ||| put e 14 ||| put g 11 ||| put a 5)
  | .stashWb c g a => some (0x3E000008#32 ||| put c 20 ||| put g 11 ||| put a 5)
  | .stashWbE c e => some (0x3E080008#32 ||| put c 20 ||| put e 14)
  | .stashInv c g a => some (0x3E000010#32 ||| put c 20 ||| put g 11 ||| put a 5)
  | .stashInvE c e => some (0x3E080010#32 ||| put c 20 ||| put e 14)
  | .stashStg c d => some (0x3E000018#32 ||| put c 20 ||| put d 14)
  | .atomAdd c d g a w f o => some (0x40000000#32 ||| put c 20 ||| put d 14 ||| put g 11 ||| put a 5 ||| put w 3 ||| put f 2 ||| put o 0)
  | .atomFaddF32 c d g a f o => some (0x40000010#32 ||| put c 20 ||| put d 14 ||| put g 11 ||| put a 5 ||| put f 2 ||| put o 0)
  | .atomAnd c d g a w f o => some (0x41000000#32 ||| put c 20 ||| put d 14 ||| put g 11 ||| put a 5 ||| put w 3 ||| put f 2 ||| put o 0)
  | .atomOr c d g a w f o => some (0x42000000#32 ||| put c 20 ||| put d 14 ||| put g 11 ||| put a 5 ||| put w 3 ||| put f 2 ||| put o 0)
  | .atomXor c d g a w f o => some (0x43000000#32 ||| put c 20 ||| put d 14 ||| put g 11 ||| put a 5 ||| put w 3 ||| put f 2 ||| put o 0)
  | .atomMin c d g a s w f o => some (0x44000000#32 ||| put c 20 ||| put d 14 ||| put g 11 ||| put a 5 ||| put s 4 ||| put w 3 ||| put f 2 ||| put o 0)
  | .atomMax c d g a s w f o => some (0x45000000#32 ||| put c 20 ||| put d 14 ||| put g 11 ||| put a 5 ||| put s 4 ||| put w 3 ||| put f 2 ||| put o 0)
  | .atomExch c d g a w f o => some (0x46000000#32 ||| put c 20 ||| put d 14 ||| put g 11 ||| put a 5 ||| put w 3 ||| put f 2 ||| put o 0)
  | .atomCas c d g a w f o => some (0x47000000#32 ||| put c 20 ||| put d 14 ||| put g 11 ||| put a 5 ||| put w 3 ||| put f 2 ||| put o 0)
  | .bra o => some (0x48000000#32 ||| put o 0)
  | .braK n o => some (0x49000000#32 ||| put n 20 ||| put o 0)
  | .brd v q o => some (0x4A000000#32 ||| put v 23 ||| put q 20 ||| put o 0)
  | .call o => some (0x4B000000#32 ||| put o 0)
  | .jinit j s => some (0x4C000000#32 ||| put j 20 ||| put s 0)
  | .jwait j => some (0x4C400000#32 ||| put j 20)
  | .jarr j => some (0x4C800000#32 ||| put j 20)
  | .ret => some (0x4D000000#32)
  | .exit => some (0x4D100000#32)
  | .emRd q => some (0x4E000000#32 ||| put q 20)
  | .emWr q => some (0x4E800000#32 ||| put q 20)
  | .barWg b => some (0x50000000#32 ||| put b 0)
  | .barSpan h w => some (0x50800000#32 ||| put h 3 ||| put w 0)
  | .barStep r => some (0x51000000#32 ||| put r 0)
  | .fenceAcq => some (0x51800000#32)
  | .fenceRel => some (0x52000000#32)
  | .fenceAr => some (0x52800000#32)
  | .waitc c a i => some (0x53000000#32 ||| put c 17 ||| put a 8 ||| put i 0)
  | .waitm d a i => some (0x53800000#32 ||| put d 17 ||| put a 8 ||| put i 0)
  | .cset c a i => some (0x54000000#32 ||| put c 17 ||| put a 8 ||| put i 0)
  | .cadd c a i => some (0x54800000#32 ||| put c 17 ||| put a 8 ||| put i 0)
  | .elect q => some (0x55000000#32 ||| put q 17)
  | .kmov d a => some (0x58000000#32 ||| put d 17 ||| put a 8)
  | .kmovFromLk d => some (0x58010000#32 ||| put d 17)
  | .kmovToLk a => some (0x58410000#32 ||| put a 8)
  | .kadd d a b => some (0x58800000#32 ||| put d 17 ||| put a 8 ||| put b 0)
  | .ksub d a b => some (0x59000000#32 ||| put d 17 ||| put a 8 ||| put b 0)
  | .kand d a b => some (0x59800000#32 ||| put d 17 ||| put a 8 ||| put b 0)
  | .kor d a b => some (0x5A000000#32 ||| put d 17 ||| put a 8 ||| put b 0)
  | .kxor d a b => some (0x5A800000#32 ||| put d 17 ||| put a 8 ||| put b 0)
  | .kshl d a b => some (0x5B000000#32 ||| put d 17 ||| put a 8 ||| put b 0)
  | .kshr d a b => some (0x5B800000#32 ||| put d 17 ||| put a 8 ||| put b 0)
  | .kcmpEq d a b => some (0x5C000000#32 ||| put d 17 ||| put a 8 ||| put b 0)
  | .kcmpLtS d a b => some (0x5C800000#32 ||| put d 17 ||| put a 8 ||| put b 0)
  | .kcmpLtZ d a b => some (0x5D000000#32 ||| put d 17 ||| put a 8 ||| put b 0)
  | .kbr a => some (0x5D800000#32 ||| put a 8)
  | .kclaim d p => some (0x5E000000#32 ||| put d 17 ||| put p 0)
  | .krel d => some (0x5E800000#32 ||| put d 17)
  | .kfromv d a b => some (0x5F000000#32 ||| put d 17 ||| put a 8 ||| put b 0)
  | .mxClaim p y w s => some (0x60000000#32 ||| put p 17 ||| put y 15 ||| put w 14 ||| put s 8)
  | .mxRel y s => some (0x60800000#32 ||| put y 15 ||| put s 8)
  | .mxRec s r => some (0x61000000#32 ||| put s 11 ||| put r 0)
  | .mxLd m s g c => some (0x61800000#32 ||| put m 17 ||| put s 11 ||| put g 8 ||| put c 4)
  | .mxLdS m s g c => some (0x61800001#32 ||| put m 17 ||| put s 11 ||| put g 8 ||| put c 4)
  | .mxLdb w x s c h => some (0x62000000#32 ||| put w 22 ||| put x 17 ||| put s 11 ||| put c 4 ||| put h 0)
  | .mxMma u v c t => some (0x62800000#32 ||| put u 17 ||| put v 11 ||| put c 4 ||| put t 0)
  | .mxPmma u v c t => some (0x63000000#32 ||| put u 17 ||| put v 11 ||| put c 4 ||| put t 0)
  | .mxZero c t => some (0x63800000#32 ||| put c 4 ||| put t 0)
  | .mxDrain m w g c t => some (0x64000000#32 ||| put m 17 ||| put w 11 ||| put g 8 ||| put c 4 ||| put t 0)
  | .mxChk d c t => some (0x64800000#32 ||| put d 17 ||| put c 4 ||| put t 0)
  | .saCfg o r p c => some (0x68000000#32 ||| put o 17 ||| put r 11 ||| put p 8 ||| put c 4)
  | .saKey r c => some (0x68800000#32 ||| put r 11 ||| put c 4)
  | .saLdc m g c => some (0x69000000#32 ||| put m 17 ||| put g 8 ||| put c 4)
  | .saLdh m g c => some (0x69800000#32 ||| put m 17 ||| put g 8 ||| put c 4)
  | .saClmp m g c => some (0x6A000000#32 ||| put m 17 ||| put g 8 ||| put c 4)
  | .saUncl m c => some (0x6A800000#32 ||| put m 17 ||| put c 4)
  | .saGhost m p c => some (0x6B000000#32 ||| put m 17 ||| put p 8 ||| put c 4)
  | .saSwp m q c w => some (0x6B800000#32 ||| put m 17 ||| put q 11 ||| put c 4 ||| put w 0)
  | .saRdc m q g c w => some (0x6C000000#32 ||| put m 17 ||| put q 11 ||| put g 8 ||| put c 4 ||| put w 0)
  | .saRds m q g c w => some (0x6C800000#32 ||| put m 17 ||| put q 11 ||| put g 8 ||| put c 4 ||| put w 0)
  | .saClr c => some (0x6D000000#32 ||| put c 4)
  | .saMon d c => some (0x6D800000#32 ||| put d 17 ||| put c 4)
  | .saMonW d t c => some (0x6D800001#32 ||| put d 17 ||| put t 8 ||| put c 4)
  | .saStat d c => some (0x6E000000#32 ||| put d 17 ||| put c 4)
  | .tcLd r o t c q => some (0x70000000#32 ||| put r 18 ||| put o 13 ||| put t 8 ||| put c 4 ||| put q 3)
  | .tcSt r o t c q => some (0x70800000#32 ||| put r 18 ||| put o 13 ||| put t 8 ||| put c 4 ||| put q 3)
  | .tcMcast r o t c q => some (0x71000000#32 ||| put r 18 ||| put o 13 ||| put t 8 ||| put c 4 ||| put q 3)
  | .busA r o t c q => some (0x71800000#32 ||| put r 18 ||| put o 13 ||| put t 8 ||| put c 4 ||| put q 3)
  | .busB r o t c q => some (0x72000000#32 ||| put r 18 ||| put o 13 ||| put t 8 ||| put c 4 ||| put q 3)
  | .rvSend r o t c => some (0x72800000#32 ||| put r 18 ||| put o 13 ||| put t 8 ||| put c 4)
  | .rvTalloc r p => some (0x73000000#32 ||| put r 18 ||| put p 13)
  | .rvTfree r => some (0x73000001#32 ||| put r 18)
  | .rvStat r d => some (0x73000002#32 ||| put r 18 ||| put d 13)
  | .amSend r v p c => some (0x73800000#32 ||| put r 18 ||| put v 13 ||| put p 8 ||| put c 4)
  | .amReg r p => some (0x74000000#32 ||| put r 18 ||| put p 13)
  | .pipeBind r => some (0x74800000#32 ||| put r 18)
  | .pipePush r v => some (0x75000000#32 ||| put r 18 ||| put v 13)
  | .pipePop r d e => some (0x75800000#32 ||| put r 18 ||| put d 13 ||| put e 0)
  | .pipeEos r => some (0x76000000#32 ||| put r 18)
  | .taskSpawn r g p => some (0x76800000#32 ||| put r 18 ||| put g 13 ||| put p 0)
  | .taskSpawnL r u p => some (0x76800008#32 ||| put r 18 ||| put u 13 ||| put p 0)
  | .taskNext d => some (0x77000000#32 ||| put d 18)
  | .taskDone => some (0x77000001#32)
  | .nodeCommit c => some (0x77800000#32 ||| put c 4)
  | .nop => some (0x78000000#32)
  | .trap i => some (0x78800000#32 ||| put i 0)
  | .sysret => some (0x79000000#32)
  | .crRd d i => some (0x79800000#32 ||| put d 17 ||| put i 0)
  | .crWr a i => some (0x7A000000#32 ||| put a 8 ||| put i 0)
  | .park => some (0x7A800000#32)
  | .poolPop d => some (0x7B000000#32 ||| put d 17)
  | .poolGive d n => some (0x7B806000#32 ||| put d 17 ||| put n 8)
  | .xlatProbe d a n => some (0x7C000000#32 ||| put d 17 ||| put a 8 ||| put n 0)
  | .tlbInv n i => some (0x7C806000#32 ||| put n 8 ||| put i 0)
  | .bkpt i => some (0x7D000000#32 ||| put i 0)
  | .yield => some (0x7D800000#32)
  | .time d => some (0x7E000000#32 ||| put d 17)
  | .fetchLineArrive _ => none
  | .launchDoorbell _ _ _ => none
  | .launchQueueRead _ _ => none
  | .workgroupPlace _ => none
  | .workgroupStart _ => none
  | .launchComplete _ => none
  | .groupWaitTimeout _ => none
  | .resizeRequest _ _ => none
  | .wgBarrierComplete _ _ => none
  | .spanBarrierComplete _ _ _ _ _ => none
  | .stepBarrierComplete _ => none
  | .laneGroupWake _ => none
  | .laneGroupAged _ => none
  | .yieldExpiry _ => none
  | .registerGrowGrant _ _ => none
  | .growthDeadlock _ _ => none
  | .taskClaim _ _ => none
  | .amArrive _ => none
  | .handlerStart _ => none
  | .ptsTick _ => none
  | .loadRequest _ _ => none
  | .writeRegistration _ _ => none
  | .forcedPublishRequest _ _ => none
  | .publishArrive _ _ _ _ _ => none
  | .l1Eviction _ _ => none
  | .nearAtomic _ _ => none
  | .farAtomic _ _ => none
  | .accessReply _ _ => none
  | .memoryReadComplete _ _ => none
  | .engineTakeOwnership _ => none
  | .engineFinish _ => none
  | .tlbWalkDone _ _ _ => none
  | .tlbiVaRange _ _ _ _ => none
  | .tlbiAsid _ _ => none
  | .tlbiIpaRange _ _ _ => none
  | .tlbiVmid _ => none
  | .tlbiAll => none
  | .hostTlbSync _ => none
  | .tlbSyncAnswer _ => none
  | .pageRequestWrite _ => none
  | .pageRequestDone _ _ => none
  | .parkTimeout _ => none
  | .swapOutDone _ => none
  | .readmit _ => none
  | .s2rResume _ _ => none
  | .s2rAbort _ _ => none
  | .governorWindow _ => none
  | .preemptSwapDone _ => none
  | .swapBack _ => none
  | .shadowWriteoutDone _ => none
  | .slotEvictionDone _ _ => none
  | .arrayEvictionDone _ => none
  | .contextRestoreDone _ _ => none
  | .mxCommandStart _ => none
  | .mxLdDone _ => none
  | .busTransferStart _ => none
  | .busTransferDone _ => none
  | .mxMmaDone _ _ => none
  | .mxPmmaDone _ _ => none
  | .mxDrainDone _ => none
  | .mxChkDone _ => none
  | .mxRelEffect _ => none
  | .saCommandStart _ => none
  | .saLoadDone _ => none
  | .saReadDone _ => none
  | .sweepBegin _ => none
  | .sweepEnd _ => none
  | .ghostSubscribe _ => none
  | .ghostUnsubscribe _ => none
  | .ghostAnswer _ _ => none
  | .ghostUpdateArrive _ => none
  | .monitorWindowClose _ => none
  | .chainTimeout _ => none
  | .stopNotice _ _ => none
  | .permitAudit _ _ => none
  | .mcastRequest _ _ => none
  | .mergeWindowExpiry _ _ _ => none
  | .mergeSetExpiry _ _ _ => none
  | .mcastReplyArrive _ _ => none
  | .fragmentArrive _ _ => none
  | .overflowFragmentArrive _ => none
  | .fragmentCombineDone _ => none
  | .orphanTimeout _ => none
  | .linkFlitSend _ _ _ => none
  | .linkFlitReceive _ _ _ _ => none
  | .linkNakReceive _ _ _ => none
  | .linkIdleTimer _ _ _ => none
  | .nakRepeatTimer _ _ _ => none
  | .linkLockLoss _ _ => none
  | .linkRetrainDone _ _ _ => none
  | .retrainTimeout _ _ _ => none
  | .portLost _ => none
  | .cxlPortLost _ => none
  | .sliceTimeout _ _ => none
  | .hostAccess _ _ _ _ => none
  | .hostSnoop _ => none
  | .remoteAccess _ _ _ _ _ => none
  | .streamSegment _ _ _ _ _ => none
  | .frameDeadline _ _ _ => none
  | .descriptorPush _ _ => none
  | .streamEnable _ _ _ => none
  | .streamEos _ _ => none
  | .dbiWindow _ _ _ => none
  | .faultedLaunchEnd _ => none
  | .faultedLaunchTimeout _ => none
  | .nodeDiscard _ => none
  | .pipeDeadlock _ => none
  | .gateDrainTimeout _ => none
  | .sweeperRead _ _ _ => none
  | .l2CodeChange _ _ => none
  | .reencodeDone _ => none
  | .retireFrame _ => none
  | .bulkheadFatalError _ => none
  | .stateDumpDone _ => none
  | .bulkheadPowerOn _ => none
  | .bulkheadRailGood _ => none
  | .bulkheadRailTimeout _ => none
  | .bulkheadClockEnable _ => none
  | .pllLock _ => none
  | .pllLockTimeout _ => none
  | .bulkheadResetRelease _ => none
  | .bulkheadInitDone _ => none
  | .bulkheadResetAssert _ => none
  | .bulkheadGateClose _ => none
  | .bulkheadGateOpen _ => none
  | .bulkheadPowerOff _ => none
  | .bulkheadDrainDone _ => none
  | .partitionEnable _ _ => none
  | .partitionTeardown _ => none
  | .teardownDone _ => none
  | .windowEnable _ _ _ => none
  | .windowDisable _ => none
  | .windowDrainDone _ => none
  | .homeMapWrite _ => none
  | .homeMapReadInc => none
  | .vfEnable _ _ => none
  | .keyTableWrite _ _ => none
  | .keyLoad _ => none
  | .cxlRangeEnable _ _ => none
  | .trimStart _ => none
  | .trimDone _ => none
  | .debugResume _ => none
  | .packageReset => none
  | .bootStage _ _ => none
  | .bootImageReplace => none
  | .attestQuote _ => none
  | .registerWrite _ _ _ => none
  | .softError _ => none
  | .linkAckTimeout _ _ => none
  | .cxlLinkStateChange _ _ => none
  | .hostPortReturn => none

/-- The word with its chain bit set as `k` says (R252). -/
def withChain (k : Bool) (w : BitVec 32) : BitVec 32 := if k then w ||| 0x80000000#32 else w

/-- The instruction the decoder reads from an instruction of `nbits` bits `w` (one 32-bit word; a longer one is no
instruction of the ZX12). -/
def decodeTableWord (nbits w : Nat) : Option Instr :=
  if nbits ≤ 32 ∧ w < 2 ^ 32 then decodeWord (BitVec.ofNat 32 w) else none

/-! Fetch lines and packets (R253, R261 to R263). -/

/-- The 32-bit little-endian word at the head of a byte list; missing bytes read as 0 (R3). -/
def leWord (bs : List Byte) : BitVec 32 :=
  (bs.getD 0 0).setWidth 32 ||| ((bs.getD 1 0).setWidth 32 <<< 8) |||
    ((bs.getD 2 0).setWidth 32 <<< 16) ||| ((bs.getD 3 0).setWidth 32 <<< 24)

/-- The four bytes of a word, lowest address first (R3). -/
def wordBytes (w : BitVec 32) : List Byte :=
  [w.extractLsb' 0 8, w.extractLsb' 8 8, w.extractLsb' 16 8, w.extractLsb' 24 8]

/-- Eight shifts of the reflected CRC-32C register (polynomial 0x1EDC6F41, reflected 0x82F63B78). -/
def crcShift : Nat → Nat → Nat
  | 0, c => c
  | k + 1, c => crcShift k (if c % 2 = 1 then (c / 2) ^^^ 0x82F63B78 else c / 2)

/-- CRC-32C of a byte list from register `c`. -/
def crcRun (c : Nat) : List Byte → Nat
  | [] => c
  | b :: bs => crcRun (crcShift 8 (c ^^^ b.toNat)) bs

/-- CRC-32C (R261, R235): register all ones at the start, complemented at the end. -/
def crc32c (bs : List Byte) : BitVec 32 := BitVec.ofNat 32 (crcRun 0xFFFFFFFF bs ^^^ 0xFFFFFFFF)

/-- The fields of a fetch line's header and its ten packets of three words (R261). -/
structure FetchLine where
  valid : BitVec 10
  tgt : BitVec 10
  rsvd : BitVec 12
  crc : BitVec 32
  body : List Byte
  deriving DecidableEq, Repr

/-- A line read as 128 bytes. -/
def FetchLine.ofBytes (bs : List Byte) : FetchLine :=
  let h := leWord bs
  { valid := h.extractLsb' 0 10, tgt := h.extractLsb' 10 10, rsvd := h.extractLsb' 20 12,
    crc := leWord (bs.drop 4), body := bs.drop 8 }

/-- The header rules of R263: reserved bits zero, some packet valid, no target bit on an invalid packet. -/
def FetchLine.headerOk (l : FetchLine) : Bool :=
  l.rsvd == 0 && l.valid != 0 && l.tgt &&& ~~~l.valid == 0

/-- The CRC rule of R263. -/
def FetchLine.crcOk (l : FetchLine) : Bool := crc32c (l.body.take 120) == l.crc

/-- The word in slot `j` of packet `s` (byte 8 + 12·s + 4·j of the line). -/
def FetchLine.word (l : FetchLine) (s j : Nat) : BitVec 32 := leWord (l.body.drop (12 * s + 4 * j))

/-- A valid packet at slot `s` of a line. -/
def FetchLine.isValid (l : FetchLine) (s : Nat) : Bool := l.valid.getLsbD s

/-- A packet marked as a branch target at slot `s`. -/
def FetchLine.isTarget (l : FetchLine) (s : Nat) : Bool := l.tgt.getLsbD s

/-- The first valid packet of the line at slot `s` or later, if any. -/
def FetchLine.nextValid (l : FetchLine) (s : Nat) : Option Nat :=
  (List.range 10).find? fun t => s ≤ t && l.isValid t

/-- A packet of three words (R253). -/
structure Packet where
  w0 : BitVec 32
  w1 : BitVec 32
  w2 : BitVec 32
  deriving DecidableEq, Repr

def FetchLine.packet (l : FetchLine) (s : Nat) : Packet :=
  { w0 := l.word s 0, w1 := l.word s 1, w2 := l.word s 2 }

/-- The hold bit (R253, R256). -/
def Packet.hold (p : Packet) : Bool := p.w2.getLsbD 31

/-- The member words, in slot order (R253). -/
def Packet.members (p : Packet) : List (BitVec 32) :=
  if p.w0.getLsbD 31 then (if p.w1.getLsbD 31 then [p.w0, p.w1, p.w2] else [p.w0, p.w1]) else [p.w0]

/-- The slots that are not members hold the fill word (R253). The lowest slot that breaks this, if any. -/
def Packet.badFill (p : Packet) : Option Nat :=
  let f1 := p.w1 == 0x78000000#32
  let f2 := p.w2 == 0x78000000#32 || p.w2 == 0xF8000000#32
  if p.w0.getLsbD 31 then (if p.w1.getLsbD 31 then none else if f2 then none else some 2)
  else if !f1 then some 1 else if !f2 then some 2 else none

/-- A line whose packet 0 holds one word and the fill words, valid and marked as a target, with its CRC. -/
def lineOfWord (w : BitVec 32) : List Byte :=
  let body := wordBytes w ++ wordBytes 0x78000000#32 ++ wordBytes 0x78000000#32 ++ List.replicate 108 0
  wordBytes 0x00000401#32 ++ wordBytes (crc32c body) ++ body

end Sys2Proof
end

