-- ==== Sys2Proof/Machine/Tab.lean ====
section
/-! DEFINITION. Tables: lists of (key, value) pairs with strictly rising keys, the one form in which State holds
memories, register files and sparse collections. `getD`/`setD` read and write a table whose unlisted keys hold a
default: writing the default removes the entry, so that equal tables are equal lists. -/

namespace Sys2Proof.Machine

/-- A table keyed by natural numbers. `Host.Cell` lists are tables of bytes. -/
abbrev Tab (α : Type) := List (Nat × α)

variable {α : Type}

/-- The value at key `k`, if listed. -/
def Tab.find (t : Tab α) (k : Nat) : Option α :=
  match t with
  | [] => none
  | (j, x) :: r => if j = k then some x else Tab.find r k

/-- The table with `x` at key `k`. -/
def Tab.put (t : Tab α) (k : Nat) (x : α) : Tab α :=
  match t with
  | [] => [(k, x)]
  | (j, y) :: r =>
    if k < j then (k, x) :: (j, y) :: r
    else if k = j then (k, x) :: r
    else (j, y) :: Tab.put r k x

/-- The table without key `k`. -/
def Tab.del (t : Tab α) (k : Nat) : Tab α :=
  match t with
  | [] => []
  | (j, y) :: r => if j = k then Tab.del r k else (j, y) :: Tab.del r k

/-- The value at `k` of a table whose unlisted keys hold `d`. -/
def Tab.getD (t : Tab α) (d : α) (k : Nat) : α := (t.find k).getD d

/-- Writes `x` at `k`, keeping the default unlisted. -/
def Tab.setD [DecidableEq α] (t : Tab α) (d : α) (k : Nat) (x : α) : Tab α :=
  if x = d then t.del k else t.put k x

/-- Changes the entry at `k`, if listed. -/
def Tab.modify (t : Tab α) (k : Nat) (f : α → α) : Tab α :=
  match t.find k with
  | none => t
  | some x => t.put k (f x)

/-- The keys listed. -/
def Tab.keys (t : Tab α) : List Nat := t.map Prod.fst

/-- The values listed. -/
def Tab.vals (t : Tab α) : List α := t.map Prod.snd

/-- The least key above every listed key: an unused name. -/
def Tab.fresh (t : Tab α) : Nat := t.foldl (fun m p => max m (p.1 + 1)) 0

/-- Keys strictly rising from above `lo`. -/
def Tab.sortedFrom (lo : Nat) : Tab α → Bool
  | [] => true
  | (j, _) :: r => lo ≤ j && Tab.sortedFrom (j + 1) r

/-- The canonical form: keys strictly rising and no entry equal to the default. -/
def Tab.wf [DecidableEq α] (d : α) (t : Tab α) : Bool :=
  Tab.sortedFrom 0 t && t.all fun p => p.2 ≠ d

/-- Inserts `x` into a list ordered by `le`, before the entries it does not follow. -/
def insertBy {β : Type} (le : β → β → Bool) (x : β) : List β → List β
  | [] => [x]
  | y :: r => if le x y then x :: y :: r else y :: insertBy le x r

end Sys2Proof.Machine

/-- The entries in the order of `le`, equal ones in the order they had (structural, so that the kernel evaluates it). -/
def List.sortBy {β : Type} (l : List β) (le : β → β → Bool) : List β :=
  l.foldr (Sys2Proof.Machine.insertBy le) []

/-- A list of numbers in rising order. -/
def List.sortNat (l : List Nat) : List Nat := l.sortBy fun a b => a ≤ b
end

