-- ==== Sys2Proof/Machine/State.lean ====
section
/-! DEFINITION. The state of the package as plain data: everything spec/ gives the machine (INVENTORY.md, State), the
stops of a step, and the state right after package reset. -/

set_option Elab.async false

namespace Sys2Proof.Machine

/-! ## Causes and what waits on what -/

/-- The cause codes of R6. -/
inductive Cause where
  | none | illegal | chain | target | latch | bound | kown
  | xlatFt | xlatNr | xlatPerm | xlatS2 | align
  | poison | deferred | slot | fmt | tag | orphan | stale | bias | permit | pipe | link | gate
  deriving DecidableEq, Repr

/-- What a visibly blocked lane group waits for (R50). `at_`: the physical address and key of a `waitm`, none once an invalidation has
removed its translation (R142). -/
inductive Block where
  | barWg (b : Nat)
  | barSpan (ox oy lw lh : Nat)
  | barStep
  | waitm (va : Nat) (at_ : Option (Nat × Nat)) (t : Word) (idx first : DWord) (slot : Nat)
  | pipePush (name : Nat) (data : List Byte) (first : DWord) (slot : Nat)
  | pipePop (name : Nat) (first : DWord) (slot : Nat)
  | rgrow (n : Nat) (first : DWord) (slot : Nat)
  deriving DecidableEq, Repr

/-- What the pipe table has given a blocked lane group (R376): its push is done; an element; an element that held a poisoned word;
end-of-stream. -/
inductive Grant where
  | pushed | element (bs : List Byte) | poisoned | eos
  deriving DecidableEq, Repr

/-- Where a lane group stands. `held` is an instruction that a rule of R123, R321 or a full queue keeps from issuing:
the lane group tries again after the next event. -/
inductive Status where
  | ready
  | held (epoch : Nat)
  | blocked (b : Block) (met : Bool)
  | parkedPage (rq : Nat)
  | parkedS2 (ipa : Nat)
  | bkpt
  | yielding (others : List Nat)
  | stopped (c : Cause)
  | ended
  deriving DecidableEq, Repr

/-- The pending entry of a first touch (R143): address of the table word, its level, its pool, and the address met. -/
structure Pending where
  entry : Nat
  lvl : Nat
  pool : Nat
  va : Nat
  deriving DecidableEq, Repr

/-- A rejoin register (R65, R327). -/
structure Rejoin where
  expected : Word := 0
  arrived : Word := 0
  resume : DWord := 0
  deriving DecidableEq, Repr

/-- An index register's base and limit (R74). -/
structure IdxReg where
  base : BitVec 8 := 0
  limit : BitVec 9 := 0
  deriving DecidableEq, Repr

/-- A replay to make (R145, R417 rule 1): the slot that runs again, in which lanes, and where the lane group goes on
(`none`: at the packet's sequential successor);
the access it continues (R146), if the word is an access; the packet's other words that have still to execute. -/
structure Replay where
  slot : Nat
  lanes : Word
  next : Option DWord
  acc : Option Nat
  later : List Nat := []
  deriving DecidableEq, Repr

/-- A failure on an arrival counter that no `waitc` has reported (R338, R424): its issue number, counter, cause,
the failed packet, lanes and address; `seq` orders the reports; `posted` marks a command's; the failed word's slot and whether its
packet was not the first of its run (R77). -/
structure Fail where
  seq : Nat
  ctr : Nat
  cause : Cause
  fpc : DWord
  fm : Word
  va : DWord
  posted : Bool := false
  slot : Nat := 0
  inRun : Bool := false
  deriving DecidableEq, Repr

/-- The hold run in progress (R256): its first packet, how many of its packets have issued, the registers that its
packets wrote with a latency above 4 cycles (R259; v registers 0-255, predicates from 256, k registers from 264). -/
structure Run where
  first : DWord
  count : Nat
  slow : List Nat
  deriving DecidableEq, Repr

/-! ## What is in flight -/

/-- The virtual channels of R212, in its order. -/
inductive Chan where
  | req | pub | meet | am | ghost | rsp | snp | mc
  deriving DecidableEq, Repr

/-- An agent that sends or takes packets (R209, R210): a core, a slice of a die, a meeting router of a die, or a die's ports and base
die. -/
inductive Port where
  | core (c : Nat) | slice (die sl : Nat) | router (die r : Nat) | unit (die : Nat)
  deriving DecidableEq, Repr

/-- A ghost update (R200, R202): its destination's slot and holder, its source's core, node and holder, its stamp and state. -/
structure GhostUpd where
  slot : Nat
  src : Nat
  node : Nat
  stamp : Nat
  val : Bool
  owner : Nat
  holder : Nat := 0
  deriving DecidableEq, Repr

/-- The device's own messages and steps under way. Each stands for the event of the opcode table of the same name (`Ev.run`); `mcastFan`
is a multicast reply to several members of a bulkhead while it crosses a die edge, and a `mcastReplyArrive` for each of them once it is on
their mesh (R218); `mcastAlone` is the `mcastReplyArrive` of an individual reply (R217, R219); `ghostUpdate` is an update that has still to reach
its core's inbox, and a `ghostUpdateArrive` there; `crossing` is a packet with which a command reaches a line of another die (R234), and
`writeBack` a line on its way to a CXL port of another die (R251): neither is an event of its own. -/
inductive Ev where
  | workgroupStart (wg : Nat) | nodeDiscard (launch : Nat)
  | loadRequest (acc line : Nat) | writeRegistration (acc line : Nat)
  | forcedPublishRequest (agent line : Nat)
  | publishArrive (agent line : Nat) (cells : List (Nat × Byte)) (own pois : Word)
  | nearAtomic (acc lane : Nat) | farAtomic (acc lane : Nat) | accessReply (acc line : Nat)
  | memoryReadComplete (line : Nat)
  | engineTakeOwnership (cmd : Nat) | engineFinish (cmd : Nat)
  | slotEvictionDone (core slot : Nat) | arrayEvictionDone (core : Nat)
  | mxLdDone (cmd : Nat) | busTransferDone (cmd : Nat)
  | mxMmaDone (cmd : Nat) | mxPmmaDone (cmd : Nat) | mxDrainDone (cmd : Nat) | mxChkDone (cmd : Nat)
  | mxRelEffect (cmd : Nat)
  | saLoadDone (cmd : Nat) | saReadDone (cmd : Nat) | sweepEnd (core : Nat)
  | ghostSubscribe (cmd : Nat) | ghostUnsubscribe (cmd : Nat) | ghostAnswer (cmd : Nat) (ok : Bool)
  | ghostUpdateArrive (core : Nat) | monitorWindowClose (core : Nat) | stopNotice (core : Nat) (chain : BitVec 16) (src : Nat)
  | amArrive (msg : Nat)
  | mcastRequest (cmd line : Nat) | mcastReplyArrive (cmd line : Nat) | mcastFan (cmds : List Nat) (line : Nat)
  | mcastAlone (cmd line : Nat) | ghostUpdate (core : Nat) (u : GhostUpd)
  | fragmentArrive (cmd f : Nat) | overflowFragmentArrive (frag : Nat) | fragmentCombineDone (frag : Nat)
  | crossing (cmd line : Nat) | writeBack (line : Nat)
  deriving DecidableEq, Repr

/-! ## Lane groups and workgroups -/

/-- A lane group (R28, R52 to R78). Per-lane tables are keyed 32·register + lane. `kv` lists, for a `k` register that
another lane group has written, the older values that this one may still read (R64), oldest first. `sc`: its sub-core (R28, R49).
`fence`: the issue number of a `fence.acq` that waits for earlier loads (R320). `counting`: it waits in a `waitc`, which has issued
(R50, R157). `grown`: the allocation that its blocked `rgrow` has been given and still has to take (R53). `refusals`: the gate records of
its refused accesses and commands, by issue number, that no `waitc` has reported yet (R408, R409). -/
structure Lg where
  wg : Nat
  lgn : Nat
  sc : Nat := 0
  alloc : Nat
  v : Tab Word := []
  bad : List Nat := []
  l : Tab Word := []
  lOk : BitVec 4 := 0
  x : Tab IdxReg := []
  xo : Tab (BitVec 8) := []
  q : Tab Word := []
  kv : Tab (List DWord) := []
  em : Word := 0xFFFFFFFF
  fm : Word := 0
  ended : Word := 0
  j : Tab Rejoin := []
  path : List (Word × DWord) := []
  c : Tab Word := []
  pc : DWord
  lk : DWord := 0
  edge : BitVec 2 := 0
  fflags : BitVec 5 := 0
  hnd : Bool := false
  sup : Bool := false
  tcause : BitVec 11 := 0
  tva : DWord := 0
  fpc : DWord := 0
  resume : DWord := 0
  savedEm : Word := 0
  pend : Option Pending := none
  pendKind : Nat := 0
  enteredAt : Nat := 0
  replayNext : Option DWord := none
  replayAcc : Option Nat := none
  replayLater : List Nat := []
  replay : Option Replay := none
  run : Option Run := none
  status : Status := .ready
  aged : Bool := false
  waited : Nat := 0
  task : Option Nat := none
  grant : Option Grant := none
  fails : List Fail := []
  refusals : List (Nat × List Nat) := []
  boundWts : Nat := 0
  fence : Option Nat := none
  fetched : Option (Nat × List Byte) := none
  staged : List Nat := []
  stagedAt : Nat := 0
  parkAt : Nat := 0
  landing : Bool := false
  resuming : Bool := false
  counting : Bool := false
  grown : Option Nat := none
  deriving DecidableEq, Repr

/-- A workgroup barrier record (R317). -/
structure Bar where
  arrived : List Nat := []
  gen : Word := 0
  pts : Nat := 0
  deriving DecidableEq, Repr

/-- A stash map entry (R114). -/
structure MapEnt where
  base : Nat
  segs : Nat
  deriving DecidableEq, Repr

/-- Where a workgroup stands: waiting for its kinit image, resident, swapping out (R149), swapped out, being restored on its new
core (R152), ended. -/
inductive WgSt where
  | starting | resident | leaving | absent | restoring | ended
  deriving DecidableEq, Repr

/-- What a workgroup runs for (R28, R48, R377). -/
inductive WgKind where
  | grid | handler (msg : Nat) | task (trec : Nat)
  deriving DecidableEq, Repr

/-- A line held by an L1 or by a workgroup's stash (R107 to R112, R115): whether it holds a read lease and the wts and
rts it was granted, its bytes by offset, the words the core owns, the words marked poisoned; for a stash line, the virtual
line addresses under which the workgroup reached it. -/
structure CLine where
  leased : Bool := false
  wts : Nat := 0
  rts : Nat := 0
  bytes : Tab Byte := []
  own : Word := 0
  pois : Word := 0
  vas : List Nat := []
  deriving DecidableEq, Repr

/-- A workgroup (R28, R63, R114, R317, R324). `kown` gives the owner of each `k` register by lane-group number, 32 for none;
unlisted registers are lane group 0's (R32).
`stagedKids`: the key of each staged line (R118). `ousted`: its clean context was discarded from a shadow bank (R167). `added`: a resize added it (R42). -/
structure Wg where
  launch : Nat
  gx : Nat := 0
  gy : Nat := 0
  gz : Nat := 0
  kind : WgKind := .grid
  core : Nat
  home : Nat
  slot : Nat := 0
  nlg : Nat := 1
  dslot : Nat := 0
  entry : Nat := 0
  st : WgSt := .starting
  bank : Nat := 0
  k : Tab DWord := []
  kown : Tab Nat := []
  bars : Tab Bar := []
  elect : Bool := true
  maps : Tab MapEnt := []
  stash : Tab CLine := []
  staged : List Host.Cell := []
  stagedPois : List Nat := []
  stagedKids : Tab Nat := []
  placedAt : Nat := 0
  pts : Nat := 0
  eligible : Bool := false
  eligAt : Nat := 0
  ousted : Bool := false
  added : Bool := false
  spill : Option Nat := none
  deriving DecidableEq, Repr

/-! ## Launches -/

inductive LaunchSt where
  | gang | waiting | running | ended
  deriving DecidableEq, Repr

/-- A span or step barrier of a launch (R37, R38): who has arrived and the largest pts of an arrival (R130). -/
structure LBar where
  arrived : List Nat := []
  pts : Nat := 0
  flag : Bool := false
  deriving DecidableEq, Repr

/-- A launch: its packet's eight words (R30), where it came from, and how far it has run (R31 to R45, R406, R412). `stepPts`: the largest
timestamp of what a superstep's end awaits besides the arrivals (R39, R134). `gangN`: which complete gang it belongs to (R45); `halted`: its
stopped lane groups at its end as faulted (R408); `counterLate`: its counter update waits for an engine's line (R132). -/
structure Launch where
  words : List DWord
  vf : Nat
  part : Nat
  queue : Nat
  lnum : Nat
  urgent : Bool := false
  st : LaunchSt := .waiting
  rx : Nat := 0
  ry : Nat := 0
  w : Nat := 1
  h : Nat := 1
  dies : Nat := 1
  gen : Nat := 0
  next : Nat := 0
  reserved : Bool := false
  parkCnt : BitVec 6 := 63
  parkTmo : BitVec 16 := 50
  rst : Bool := false
  tries : Nat := 0
  resize : Option Nat := none
  faulted : Bool := false
  faultCause : Cause := .none
  discard : Option Cause := none
  late : Bool := false
  spans : Tab LBar := []
  step : LBar := {}
  pts : Nat := 0
  stepPts : Nat := 0
  gangN : Nat := 0
  halted : Nat := 0
  counterPending : Option (Bool × Nat) := none
  counterLate : Bool := false
  arrival : Nat := 0
  since : Nat := 0
  startAt : Nat := 0
  lastIssue : Nat := 0
  deriving DecidableEq, Repr

/-! ## Accesses and commands in flight -/

/-- The operations of R313. -/
inductive AtomOp where
  | add | fadd | and | or | xor | minZ | minS | maxZ | maxS | exch | cas
  deriving DecidableEq, Repr

/-- The kinds of access (R122). -/
inductive AKind where
  | load | acq | kload | store | rel | kstore
  | atomic (op : AtomOp) (far : Bool)
  deriving DecidableEq, Repr

/-- One lane's part of an access: its bytes to write (an atomic's new value) or read, an atomic's compare value, the
agent that serves it (the core, or 192 + workgroup for its stash). `st`: 0 sent, 1 answered, 2 performed; `sentAt`: since when it waits.
A `.b128` access has two parts a lane, one for each 8-byte half (R106): `off` is the first register of the half, counted from `d`.
`ord`: its place in the order of issue. `pts`, `hv`: the program timestamp and the expired copy's wts that its request carries (R110).
`held` (R112): 0 no; 1 a store of fewer than 4 bytes that obtains its word; 2 a store behind such a one; 3 its word has been obtained. -/
structure LanePart where
  lane : Nat
  va : Nat
  pa : Nat
  kid : Nat
  agent : Nat
  data : List Byte := []
  cmp : List Byte := []
  st : Nat := 0
  err : Cause := .none
  wts : Nat := 0
  sentAt : Nat := 0
  off : Nat := 0
  ord : Nat := 0
  pts : Nat := 0
  hv : Option Nat := none
  held : Nat := 0
  deriving DecidableEq, Repr

/-- An outstanding access (R122, R123): its lane group and core, the counter it names, and its lanes. `open` while
faulted lanes are still to be replayed (R146). -/
structure Access where
  lg : Nat
  wg : Nat
  core : Nat
  bank : Nat
  vf : Nat
  part : Nat
  kind : AKind
  ctr : Nat
  d : Nat
  size : Nat
  sext : Bool := false
  acqr : Bool := false
  relr : Bool := false
  fpc : DWord
  seq : Nat
  lanes : List LanePart
  opn : Bool := false
  slot : Nat := 0
  inRun : Bool := false
  deriving DecidableEq, Repr

/-- What a command does (majors 12 to 14). Addresses are virtual; `gran` of the command holds what issue translated. -/
inductive CmdBody where
  | mxRel (tile : Bool) (n : Nat)
  | mxPair (tile : Bool) (n : Nat) (pair : Bool)
  | mxRec (slot : Nat) (word : DWord)
  | mxLd (slot : Nat) (base stride : Nat) (side : Bool)
  | mxLdb (slot : Nat) (col : Bool) (sender chan : Nat) (filledBy : Option Nat)
  | mxMma (t a b : Nat)
  | mxPmma (t a b : Nat)
  | mxZero (t : Nat)
  | mxDrain (t base stride : Nat) (word : DWord)
  | mxChk (d t : Nat)
  | saCfg (cfg ord : DWord) (take : Bool)
  | saKey (key : DWord)
  | saLdc (base first cnt : Nat)
  | saLdh (base first cnt : Nat)
  | saClmp (base first cnt : Nat)
  | saUncl (first cnt : Nat)
  | saGhost (word : Word) (p : Nat)
  | saSwp (left : Nat) (count : Bool)
  | saRdc (base first cnt : Nat)
  | saRds (base first cnt : Nat)
  | saClr
  | saMonW (thr d : Nat)
  | tcLd (sh : List DWord) (org : DWord) (buf : Nat)
  | tcSt (sh : List DWord) (org : DWord) (buf : Nat)
  | tcMcast (sh : List DWord) (org : DWord) (buf : Nat) (mem : DWord)
  | bus (col : Bool) (src : Nat) (word : DWord) (mask chan : Nat)
  | rvSend (word : DWord) (src dst : Nat)
  | amSend (msg : Nat)
  | commit
  deriving DecidableEq, Repr

/-- How far a command is: waiting in its queue, running, waiting for a page, completed (kept until its lane group and
counters no longer need it). -/
inductive CmdSt where
  | queued | running | waitPage (rq : Nat) | done
  deriving DecidableEq, Repr

/-- A command handed to an engine (R338, R365). `leg`, `out`, `lostLn`: how far its packets to other dies have come, how many are on their
way, the lines that none reached (R234, R437). -/
structure Cmd where
  lg : Nat
  wg : Nat
  core : Nat
  bank : Nat
  vf : Nat
  part : Nat
  launch : Nat
  ctr : Option Nat
  lane : Nat
  em : Word
  fpc : DWord
  seq : Nat
  q : Option Nat := none
  gran : Tab (Nat × Nat) := []
  st : CmdSt := .queued
  body : CmdBody
  got : Tab Byte := []
  gotPois : List Nat := []
  owned : List Nat := []
  pts : Nat := 0
  left : Nat := 0
  slot : Nat := 0
  inRun : Bool := false
  leg : Nat := 0
  out : Nat := 0
  lostLn : List Nat := []
  deriving DecidableEq, Repr

/-! ## Core units -/

/-- An operand slot (R173, R175): rows, side-area, record, claim, pair flag, poisoned 4-byte words (rows 0 to 2047,
side-area 2048 to 2175, record 2176 and 2177); `errs`: the bits of each 8 bytes that have changed by themselves and not been read since (R441). -/
structure Slot where
  rows : Tab Byte := []
  side : Tab Byte := []
  record : DWord := 0xC00000000#64
  pois : List Nat := []
  errs : Tab (BitVec 64) := []
  claim : Option Nat := none
  pair : Bool := false
  deriving DecidableEq, Repr

/-- An accumulator tile (R177, R188). `mode`: 0 fresh, 1 float, 2 integer. -/
structure Tile where
  cells : Tab Word := []
  mode : Nat := 0
  rows : Tab (BitVec 40) := []
  cols : Tab (BitVec 40) := []
  pois : Bool := false
  claim : Option Nat := none
  pair : Bool := false
  deriving DecidableEq, Repr

/-- A ghost slot (R191, R200, R202): its source (core, node) and the source's holder, the value it holds, its stamp, and its ring
of eight. -/
structure Ghost where
  src : Option (Nat × Nat) := none
  owner : Nat := 0
  val : Bool := false
  stamp : Option Nat := none
  ring : List (Nat × Bool) := []
  deriving DecidableEq, Repr

/-- An entry of an export table (R200): destination core and slot, the exported node, the destination's holder, the updates held
back (R202), and the chain of a stop notice that goes behind them (R444). `stale`: its subscriber has had no answer and has left its slot
unbound (R357). -/
structure Export where
  core : Nat
  slot : Nat
  node : Nat
  owner : Nat
  queue : List (Nat × Bool) := []
  notice : Option (BitVec 16) := none
  stale : Bool := false
  deriving DecidableEq, Repr

/-- An array context (R191, R194 to R207). `st` is the status field of R207; `stalled`: the
cycles of its stall that count for the chain timeout, as far as the time `stallAt` (R168, R201). -/
structure Arr where
  holder : Option Nat := none
  st : Nat := 0
  m : List Nat := []
  h : Tab (BitVec 16) := []
  col : Tab (BitVec 3) := []
  clamp : List Nat := []
  cnt : Tab (BitVec 16) := []
  edges : Tab Word := []
  ghosts : Tab Ghost := []
  exports : List Export := []
  key : DWord := 0
  cfg : DWord := 0
  ord : DWord := 0
  sw : Nat := 0
  csat : Bool := false
  stale : Bool := false
  gslot : Nat := 0
  swp : Option Nat := none
  noticed : Bool := false
  pos : Nat := 0
  stallAt : Nat := 0
  stalled : Nat := 0
  biasDue : Bool := false
  deriving DecidableEq, Repr

/-- The bias monitor of a physical array (R206, R207). -/
structure Mon where
  thr : BitVec 16 := 1024
  wins : BitVec 16 := 0
  wlane : Nat := 0
  wcnt : Nat := 0
  biased : Bool := false
  probes : Nat := 0
  counts : Tab Nat := []
  lockout : Bool := false
  deriving DecidableEq, Repr

/-- A cached translation (R139, R140): tag, page size in bits, first address of the page, its IPA and PA, permissions
(bit 0 rd, 1 wr, 2 ex) of each stage, key identifier, page size in bits of the second-stage leaf. -/
structure TlbEnt where
  part : Nat
  vf : Nat
  bits : Nat
  va : Nat
  ipa : Nat
  pa : Nat
  perm : Nat
  perm2 : Nat
  kid : Nat
  bits2 : Nat
  deriving DecidableEq, Repr

/-- An active message (R230, R373). -/
structure Msg where
  src : Nat
  dst : Nat
  launch : Nat
  reg : Bool
  hidx : Nat
  data : List Byte
  len : Nat
  cmd : Nat
  pts : Nat
  entry : Nat := 0
  owner : Nat := 0
  deriving DecidableEq, Repr

/-- A core (R26): what is neither a lane group's nor a workgroup's. Tiles are keyed 16·bank + tile. By sub-core: `last`, the lane group
that issued last (R157); `grow`, since when the growth of registers is stuck and the registers free then (R162); `spawnAt`, when a packet
with `task.spawn` issued last (R163). -/
structure Core where
  pts : Nat := 0
  ticks : Nat := 0
  l1 : Tab CLine := []
  tlb : List TlbEnt := []
  slots : Tab Slot := []
  tiles : Tab Tile := []
  mxq : List Nat := []
  slaved : Option Nat := none
  mxchk : DWord := 0
  arr : Arr := {}
  mon : Mon := {}
  saq : List Nat := []
  inq : List Nat := []
  ghin : List GhostUpd := []
  tcq : List Nat := []
  act : Nat := 0
  swapping : Bool := false
  shadowClean : Bool := false
  evSlots : Tab Slot := []
  evTiles : Tab Tile := []
  evArr : Tab Arr := []
  last : Tab Nat := []
  grow : Tab (Nat × Nat) := []
  spawnAt : Tab Nat := []
  deriving DecidableEq, Repr

/-! ## Directory, partitions, fabric, links -/

/-- What a home slice and its memory-side cache keep of a line (R107, R110 to R113, R118, R132, R426). `orig`: the key and the bytes
under which its stored ciphertext was written, while the line is held as another key decrypts it. -/
structure Dir where
  wts : Nat := 0
  rts : Nat := 0
  own : Tab Nat := []
  lock : Option Nat := none
  inL2 : Bool := false
  dirty : Bool := false
  strong : Bool := false
  inMsc : Bool := false
  mscDirty : Bool := false
  kid : Nat := 0
  orig : Option (Nat × List Byte) := none
  deriving DecidableEq, Repr

/-- A task record (R43, R377). -/
structure Task where
  launch : Nat
  cur : Nat
  hi : Nat
  g : Nat
  entry : Nat
  pts : Nat
  holder : Option Nat := none
  deriving DecidableEq, Repr

/-- A pipe (R375): name, ring, descriptor, function, oldest element and number of elements, producers left, for each element its
timestamp and the stream queue and frame whose descriptor it is, the launches that bound it, that push it and that pop it (R453), when it was
last used. -/
structure Pipe where
  name : Nat
  ring : Nat
  desc : DWord
  vf : Nat
  head : Nat := 0
  len : Nat := 0
  left : Nat
  pts : List Nat := []
  frames : List (Option (Nat × Nat)) := []
  users : List Nat := []
  pushers : List Nat := []
  poppers : List Nat := []
  last : Nat := 0
  deriving DecidableEq, Repr

/-- A page pool (R386): frame size code, and the frames, next to pop first. -/
structure Pool where
  size : Nat
  frames : List Nat
  deriving DecidableEq, Repr

/-- A meeting tag's allocation (R228). -/
structure TagEnt where
  launch : Nat
  freed : Bool := false
  deriving DecidableEq, Repr

/-- What the device holds for a partition. -/
structure Part where
  tasks : Tab Task := []
  depth : Bool := false
  tags : Tab TagEnt := []
  retired : List (Nat × Nat) := []
  pipes : Tab Pipe := []
  pools : Tab Pool := []
  handlers : Tab (Nat × Nat) := []
  plb : List Nat := []
  fenceN : Nat := 0
  fencePois : Bool := false
  rr : Nat := 0
  rrq : Tab Nat := []
  teardown : Option Nat := none
  deriving DecidableEq, Repr

/-- A multicast merge entry of a slice (R217, R219): the key, who joined, whether it is closed. -/
structure Merge where
  part : Nat
  line : Nat
  mem : DWord
  joined : List (Nat × Nat)
  closed : Bool := false
  opened : Nat := 0
  deriving DecidableEq, Repr

/-- Where a meeting fragment is: on its way to the router, in its store (pooled reserve or shared), held for want of overflow
room, on its way to the overflow slice or in it, matched or orphaned and to be written. -/
inductive FragPlace where
  | sent | store (shared : Bool) | heldBack | moving | overflow | combined | orphan (c : Cause)
  deriving DecidableEq, Repr

/-- A meeting fragment (R222 to R226): the owner of its tag, its sender's partition and function, tag, fragment number, tile size,
operation, type, data, poisoned words, destination addresses with their keys, completion counter with its key, the sender's
command and launch, orphan timeout in cycles, router, where and since when it waits, fragments that it stands for, pts; `ord`: its
place in the order of arrival (R225); `also`: the launches of the fragments that met in it (R39); `wins`: the windows under which its results were
admitted when it was sent (R22). -/
structure Frag where
  owner : Nat
  sender : Nat
  vf : Nat
  tag : Nat
  f : Nat
  nf : Nat
  op : Nat
  ty : Nat
  data : List Byte
  pois : List Nat
  dst : List (Nat × Nat)
  ctr : Nat × Nat
  cmd : Nat
  launch : Nat
  oto : Nat
  die : Nat
  router : Nat
  place : FragPlace
  deflected : Bool := false
  since : Nat := 0
  cnt : Nat := 1
  pts : Nat := 0
  ord : Nat := 0
  also : List Nat := []
  wins : List Nat := []
  deriving DecidableEq, Repr

/-- The fragments of one meeting still to be written (R227, R449), kept under the number of a send: once a fragment of two sends has
met, one of them (`up`) stands for both; `sends`: how many it stands for. -/
structure Tally where
  owner : Nat
  vf : Nat
  tag : Nat
  ctr : Nat × Nat
  need : Nat
  cause : Cause := .none
  up : Option Nat := none
  sends : Nat := 1
  pts : Nat := 0
  also : List Nat := []
  wins : List Nat := []
  deriving DecidableEq, Repr

/-- A packet on a die link: the event it causes on arrival, its bytes and those left to send, its channel, source and destination
agents, its module (R234). -/
structure LPacket where
  ev : Ev
  size : Nat
  left : Nat
  ch : Chan
  src : Port
  dst : Port
  mod_ : Nat
  deriving DecidableEq, Repr

/-- A link that a packet's flits take on a die (R210, R218): the place in the packet's list of the link before it (none: the source), how
many flits have left its receive buffer, the events of the members that the packet reaches behind it. -/
structure Hop where
  link : Nat
  after : Option Nat
  left : Nat := 0
  exits : List Ev := []
  deriving DecidableEq, Repr

/-- A packet of a header flit and data flits in the meshes and commons of a die (R208, R210, R213): its channel and agents, its flits and
those that have left its source, its links, and the packet that goes on over a die edge behind them. -/
structure NetPacket where
  ch : Chan
  src : Port
  dst : Port
  flits : Nat
  left : Nat := 0
  hops : List Hop
  onward : Option LPacket := none
  deriving DecidableEq, Repr

/-- A link flit: sequence number (of a nak, the number it names), the number of the last flit accepted of the other direction, the bytes
carried, the packets that end in it (R235, R236); `kind` 0 data, 1 idle, 2 nak; `pst`: the byte of the payload at which its first packet
starts, 255 for none; `at_`: when it was last sent. -/
structure Flit where
  seq : Nat
  ack : Nat := 0
  bytes : Nat
  whole : List LPacket
  kind : Nat := 0
  pst : Nat := 255
  at_ : Nat := 0
  deriving DecidableEq, Repr

/-- One direction of a module (R236, R436): packets stored at the sender, the next sequence number, the replay buffer, the flits on
their way, among them naks of the other direction, the receiver's expected number, the number that naks have named and how often, whether
the receiver waits for a resend, when it last sent a nak and when the sender last sent a flit, the counts of `DLS` (R438). -/
structure LinkDir where
  stored : List LPacket := []
  next : Nat := 0
  replay : List Flit := []
  flight : List Flit := []
  expect : Nat := 0
  nakFor : Option Nat := none
  nakCount : Nat := 0
  waiting : Bool := false
  nakAt : Nat := 0
  sentAt : Nat := 0
  crc : BitVec 16 := 0
  nak : BitVec 16 := 0
  deriving DecidableEq, Repr

/-- A module of a die edge (R232, R237, R438). `st` is the field of R438; `half`: the lanes to which it fell back, 1 the lower and 2 the
upper, 0 none. -/
structure Link where
  st : Nat := 0
  half : Nat := 0
  rtr : BitVec 8 := 0
  recent : List Nat := []
  trainAt : Nat := 0
  subst : Option Nat := none
  deriving DecidableEq, Repr

/-- A link's channel (R213, R215): the permits that the sender holds, and the receive buffer, the packet of each flit, oldest first. -/
structure Permit where
  held : Nat
  buf : List Nat := []
  deriving DecidableEq, Repr

/-- A governor's window (R171, R172): units used, issues stalled, the stalled issues (lane group, cost) in order, those admitted
and not yet issued, the core served last, the window's budget and its number. -/
structure Gov where
  used : Nat := 0
  stalls : Word := 0
  waiting : List (Nat × Nat) := []
  admitted : List Nat := []
  lastCore : Nat := 0
  budget : Nat := 256
  window : Nat := 0
  deriving DecidableEq, Repr

/-- Who waits for a page request or on a second-stage fault (R32, R147, R431, R474). -/
inductive Waiter where
  | lg (g : Nat) | cmd (c : Nat) | start (w : Nat) | counter (l : Nat) | queue (vf q : Nat) | request (rq : Nat)
  deriving DecidableEq, Repr

/-- A page request (R147). -/
structure PageReq where
  vf : Nat
  part : Nat
  va : Nat
  kind : Nat
  pool : Nat
  lvl : Nat
  time : Nat
  by_ : Waiter
  written : Bool := false
  deriving DecidableEq, Repr

/-- A frame of a stream queue (R243): when it opened, the 64-byte units written, the largest timestamp of a write. -/
structure Frame where
  topen : Nat
  units : List Nat := []
  pts : Nat := 0
  deriving DecidableEq, Repr

/-- A closed frame's descriptor waiting for its pipe (R244). -/
structure StreamDesc where
  frame : Nat
  loss : Bool
  topen : Nat
  tclose : Nat
  bytes : Nat
  pts : Nat := 0
  deriving DecidableEq, Repr

/-- A unit of a frame that waits for an engine's line (R132): frame, address, key, bytes. -/
structure HeldUnit where
  frame : Nat
  pa : Nat
  kid : Nat
  data : List Byte
  deriving DecidableEq, Repr

/-- A stream queue's frames (R242 to R244). `undone`: closed frames whose descriptor has not been popped; `held`: units that wait for a
line, in the order of their segments; `eos`: the end of the stream waits for its frames. -/
structure Stream where
  frames : Tab Frame := []
  held : List HeldUnit := []
  ready : List StreamDesc := []
  undone : List Nat := []
  closed : List Nat := []
  eos : Bool := false
  deriving DecidableEq, Repr

/-- The boot (R465, R466). -/
structure Boot where
  stage : Nat := 0
  halted : Bool := false
  m0 : List Byte := List.replicate 48 0
  m1 : List Byte := List.replicate 48 0
  m2 : List Byte := List.replicate 48 0
  quotes : Nat := 0
  lastQuote : Option (List Byte) := none
  refused : Bool := false
  deriving DecidableEq, Repr

/-- An invalidation that a synchronisation or a `tlb.inv` waits for: the accesses and commands that used a removed
translation, the fragments and meetings whose destinations and counters it gave (R142, R388). -/
structure Inv where
  accs : List Nat
  cmds : List Nat
  frags : List Nat := []
  tallies : List Nat := []
  deriving DecidableEq, Repr

/-! ## The packet being executed -/

/-- How a word has fared: nothing special; a trap taken, with the cause's rank (R7), the slot and whether the packet's
other words commit; held back from issuing. -/
inductive Fate where
  | runs | trapped (rank slot : Nat) (others : Bool) | heldBack
  deriving DecidableEq, Repr

/-- The packet in execution (R70, R260): its index and sequential successor, the slot of the word, the first packet of its
run, the lane group, the `k` registers and their owners as they stood before it (none outside a packet), the slots still to execute when a
replay ends, the least number that an access or command of this packet can have (none outside a packet). `stall`: something that it
does reached a line that an engine owns, and waits there (R132). -/
structure PacketCtx where
  idx : DWord := 0
  succ : DWord := 0
  slot : Nat := 0
  first : DWord := 0
  before : Option (Lg × Tab DWord) := none
  owners : Option (Tab Nat) := none
  crs : Option (DWord × DWord) := none
  later : List Nat := []
  fate : Fate := .runs
  since : Option Nat := none
  stall : Bool := false
  deriving DecidableEq, Repr

/-! ## The machine -/

/-- The whole package and what the outside world has still to do (`agenda`). `hostGot`: what the manager's last read of `HMW` gave
(R19). See INVENTORY.md, State. -/
structure State where
  now : Nat := 0
  cur : Nat := 0
  pk : PacketCtx := {}
  nfree : Nat := 0
  nseq : Nat := 0
  epoch : Nat := 0
  agenda : List (Nat × Instr) := []
  pending : List Ev := []
  mem : List Host.Cell := []
  poison : Tab Bool := []
  dir : Tab Dir := []
  retired : List Nat := []
  suspect : List Nat := []
  corrected : Tab Nat := []
  frameCe : Tab Nat := []
  win : Tab DWord := []
  winDrain : Tab Nat := []
  hmap : Tab (BitVec 4) := []
  vfr : Tab DWord := []
  cores : Tab Core := []
  dtlb : Tab (List TlbEnt) := []
  oldTlb : List TlbEnt := []
  lgs : Tab Lg := []
  wgs : Tab Wg := []
  launches : Tab Launch := []
  parts : Tab Part := []
  accs : Tab Access := []
  cmds : Tab Cmd := []
  msgs : Tab Msg := []
  merges : Tab Merge := []
  frags : Tab Frag := []
  tallies : Tab Tally := []
  presence : Tab Nat := []
  packs : Tab NetPacket := []
  wbacks : List Nat := []
  links : Tab Link := []
  ldirs : Tab LinkDir := []
  edgesDown : List Nat := []
  ports : Tab Bool := []
  heldRecs : List (List DWord) := []
  lateRecs : List (Nat × List Nat) := []
  permits : Tab Permit := []
  govs : Tab Gov := []
  preqs : Tab PageReq := []
  s2w : List (Nat × Nat × Waiter) := []
  invs : Tab Inv := []
  syncs : Tab (List Nat) := []
  streams : Tab Stream := []
  boot : Boot := {}
  dumps : List Nat := []
  bhSince : Tab Nat := []
  cxlDownAt : Tab Nat := []
  bhWait : Tab DWord := []
  lqt : Tab (List (Nat × Nat × Nat)) := []
  hostPts : Nat := 0
  dbi : List Nat := []
  hostGot : Option DWord := none
  deriving DecidableEq, Repr

/-- Why a step stops. -/
inductive Fault where
  /-- Raised by a lane-group instruction when no lane group, workgroup or launch is at its turn: `step` never runs one
  so; only a state that no run reaches has it. Safe: the machine stops where the hardware has no instruction. -/
  | noLaneGroup
  deriving DecidableEq, Repr

/-- Why a step has no meaning. -/
inductive Refusal where
  /-- Raised by `exec` alone, for an instruction that has no meaning yet. Safe. -/
  | notModelled (mnemonic : String)
  deriving DecidableEq, Repr

/-- The package right after reset: every field at the reset value of its rule; tables list nothing, so each register
reads as its reset value (`Ops.winReset` and the defaults above; INVENTORY.md names each). -/
def State.reset : State := {}

end Sys2Proof.Machine
end

