-- ==== Sys2Proof/Machine/Mem.lean ====
section
/-! DEFINITION. Bit fields, the register windows, the geometry of the package, and memory as the home slices hold it:
bytes, poison, ownership, publishing, write timestamps. -/

namespace Sys2Proof.Machine

/-! ## Bit fields and bytes -/

/-- Bits [lo+n-1:lo] of a word, as a number. -/
def bits (w : BitVec m) (lo n : Nat) : Nat := (w.toNat >>> lo) % 2 ^ n

/-- Whether bit `i` is set. -/
def bit (w : BitVec m) (i : Nat) : Bool := w.getLsbD i

/-- The word with bits [lo+n-1:lo] replaced by `v`. -/
def setBits (w : BitVec m) (lo n v : Nat) : BitVec m :=
  BitVec.ofNat m (w.toNat - bits w lo n * 2 ^ lo + (v % 2 ^ n) * 2 ^ lo)

/-- A flag as a bit. -/
def b2n (b : Bool) : Nat := if b then 1 else 0

/-- The number whose little-endian bytes are given (R3). -/
def leNat : List Byte → Nat
  | [] => 0
  | b :: r => b.toNat + 256 * leNat r

/-- The `n` little-endian bytes of a number (R3). -/
def natLe : Nat → Nat → List Byte
  | 0, _ => []
  | n + 1, v => BitVec.ofNat 8 v :: natLe n (v / 256)

/-- The lanes of a mask, ascending. -/
def lanesOf (m : Word) : List Nat := (List.range 32).filter fun i => m.getLsbD i

/-- The mask of a list of lanes. -/
def maskOf (ls : List Nat) : Word := ls.foldl (fun m i => m ||| (1#32 <<< i)) 0

/-- Ceiling division. -/
def ceilDiv (a b : Nat) : Nat := (a + b - 1) / b

/-! ## Geometry (R4, R8, R9, R35) -/

def coreX (c : Nat) : Nat := c % 24
def coreY (c : Nat) : Nat := c / 24
def coreAt (x y : Nat) : Nat := x + 24 * y
/-- The die of a core (R4). -/
def dieOf (c : Nat) : Nat := coreX c / 12 + 2 * (coreY c / 4)
/-- The global bulkhead of a core (R4). -/
def bhOf (c : Nat) : Nat := 3 * dieOf c + (coreX c % 12) / 4
/-- The die of a bulkhead. -/
def dieOfBh (g : Nat) : Nat := g / 3
/-- The lower corner of a bulkhead (R9). -/
def bhX (g : Nat) : Nat := 12 * (dieOfBh g % 2) + 4 * (g % 3)
def bhY (g : Nat) : Nat := 4 * (dieOfBh g / 2)
/-- The attach core of slice `s` of die `d` (R35). -/
def attach (d s : Nat) : Nat := coreAt (12 * (d % 2) + (3 * (s % 8) + 1) / 2) (4 * (d / 2) + 3 * (s / 8))
/-- Manhattan distance of two cores. -/
def dist (a b : Nat) : Nat :=
  (coreX a - coreX b) + (coreX b - coreX a) + (coreY a - coreY b) + (coreY b - coreY a)
/-- The cores of a bulkhead in the order 4·ly + lx. -/
def bhCores (g : Nat) : List Nat := (List.range 16).map fun i => coreAt (bhX g + i % 4) (bhY g + i / 4)
/-- The bulkheads of a mask, ascending. -/
def bhsOf (m : Nat) : List Nat := (List.range 12).filter fun g => m.testBit g
/-- The cores of a rectangle, row by row. -/
def rectCores (x y w h : Nat) : List Nat :=
  (List.range h).flatMap fun j => (List.range w).map fun i => coreAt (x + i) (y + j)
/-- The dies that a list of cores touches, ascending. -/
def diesOf (cs : List Nat) : List Nat := (List.range 4).filter fun d => cs.any fun c => dieOf c == d

/-! ## Registers of the manager window (R12, R135, R407, R427, R467, R468) and of the functions' pages (R240) -/

def oPART (n : Nat) : Nat := 8 * n
def oBHC (g : Nat) : Nat := 0x100 + 8 * g
def oWIN (w : Nat) : Nat := 0x200 + 16 * w
/-- `VFM_f` is 32 bits wide (R12); it is held under its own offset. -/
def oVFM (f : Nat) : Nat := 0x1000 + 4 * f
def oCXM (c : Nat) : Nat := 0x2000 + 8 * c
def oCXS (c : Nat) : Nat := 0x2020 + 8 * c
def oHMX : Nat := 0x3000
def oS2C (n : Nat) : Nat := 0x10000 + 8 * n
def oMRB : Nat := 0x20000
def oFAQB : Nat := 0x20010
def oFAQT : Nat := 0x20018
def oFAQH : Nat := 0x20020
def oCET : Nat := 0x20028
def oTRB (f : Nat) : Nat := 0x21000 + 8 * f
def oKEY (i : Nat) : Nat := 0x30000 + 8 * i
def oMXB (g : Nat) : Nat := 0x50000 + 8 * g
def oECS (d : Nat) : Nat := 0x50100 + 8 * d
/-- `FST` has two 64-bit words for each slice. -/
def oFST (d s : Nat) : Nat := 0x50400 + 16 * (16 * d + s)
def oDOM : Nat := 0x50800
def oPRT : Nat := 0x50808
def oPAD (i : Nat) : Nat := 0x50D00 + 8 * i
def oRTA : Nat := 0x50A00
def oBKE (w : Nat) : Nat := 0x50A40 + 8 * w
def oDBR : Nat := 0x50AC0
def oTRM (g : Nat) : Nat := 0x50B00 + 8 * g
def oDMB : Nat := 0x50C00
def oOMS (c : Nat) : Nat := 0x51000 + 8 * c

/-- The reset value of a register of the manager window: the Reset columns of R13, R14, R24, R171 and R427. -/
def winReset (off : Nat) : DWord :=
  if off < 0x60 then 0x140000#64
  else if 0x100 ≤ off ∧ off < 0x160 then 0xF000C#64
  else if 0x1000 ≤ off ∧ off < 0x2000 then 0xF#64
  else if off = 0x20028 then 16#64
  else if 0x50000 ≤ off ∧ off < 0x50060 then 256#64
  else 0#64

def State.win' (s : State) (off : Nat) : DWord := Tab.getD s.win (winReset off) off
def State.setWin (s : State) (off : Nat) (w : DWord) : State :=
  { s with win := Tab.setD s.win (winReset off) off w }
def State.winBits (s : State) (off lo n : Nat) : Nat := bits (s.win' off) lo n
def State.setWinBits (s : State) (off lo n v : Nat) : State := s.setWin off (setBits (s.win' off) lo n v)

/-- A register of a function's page. -/
def State.vr (s : State) (vf off : Nat) : DWord := Tab.getD s.vfr 0 (4096 * vf + off)
def State.setVr (s : State) (vf off : Nat) (w : DWord) : State :=
  { s with vfr := Tab.setD s.vfr 0 (4096 * vf + off) w }
def State.vrBits (s : State) (vf off lo n : Nat) : Nat := bits (s.vr vf off) lo n
def State.setVrBits (s : State) (vf off lo n v : Nat) : State := s.setVr vf off (setBits (s.vr vf off) lo n v)

/-- `BHC_g`.st (R13). -/
def State.bhSt (s : State) (g : Nat) : Nat := s.winBits (oBHC g) 4 3
/-- The partition that holds a core's bulkhead, or 0xF. -/
def State.partOf (s : State) (c : Nat) : Nat := s.winBits (oBHC (bhOf c)) 16 4
/-- Whether a partition is enabled. -/
def State.partEn (s : State) (n : Nat) : Bool := n < 12 && s.winBits (oPART n) 12 1 == 1
def State.partMask (s : State) (n : Nat) : Nat := s.winBits (oPART n) 0 12
/-- The partition rectangle (R15): lower corner, width, height. -/
def State.partRect (s : State) (n : Nat) : Nat × Nat × Nat × Nat :=
  let gs := bhsOf (s.partMask n)
  let x0 := gs.foldl (fun m g => min m (bhX g)) 24
  let y0 := gs.foldl (fun m g => min m (bhY g)) 8
  let x1 := gs.foldl (fun m g => max m (bhX g + 4)) 0
  let y1 := gs.foldl (fun m g => max m (bhY g + 4)) 0
  (x0, y0, x1 - x0, y1 - y0)
/-- The dies of a partition (R34). -/
def State.partDies (s : State) (n : Nat) : List Nat :=
  (List.range 4).filter fun d => (bhsOf (s.partMask n)).any fun g => dieOfBh g == d
def State.vfPart (s : State) (vf : Nat) : Nat := s.winBits (oVFM vf) 0 4
def State.vfEn (s : State) (vf : Nat) : Bool := s.winBits (oVFM vf) 4 1 == 1

/-- Size of a queue whose qsz field is given: 2^(qsz+4), with 12 to 15 treated as 11. -/
def qSize (q : Nat) : Nat := 2 ^ (min q 11 + 4)

/-- Whether the host reaches the device: the boot has ended (R465) and the host port is not lost (R435). -/
def State.hostUp (s : State) : Bool := s.boot.stage == 3 && !(Tab.getD s.ports false 8)

/-- Device time in ns (R242): two cycles each. -/
def State.time (s : State) : Nat := s.now / 2

/-! ## Physical addresses (R108, R245, R251) -/

inductive PaKind where
  | hbm (die : Nat) | cxl (port : Nat) | host | peer (p : Nat) | none
  deriving DecidableEq, Repr

def dieBytes : Nat := 0x1800000000

/-- The PA with the package's own window replaced by the local address it aliases (R245). -/
def State.canonPa (s : State) (pa : Nat) : Nat :=
  let w := 0x800000000000 + s.winBits oDOM 0 4 * 0x80000000000
  if w ≤ pa ∧ pa < w + 0x6000000000 then pa - w else pa

/-- Size in bytes of a CXL range (R250), 0 while disabled. -/
def State.cxlSize (s : State) (c : Nat) : Nat :=
  if s.winBits (oCXM c) 0 1 = 1 then min (s.winBits (oCXM c) 4 15) 16384 * 2 ^ 30 else 0

def State.paKind (s : State) (pa : Nat) : PaKind :=
  if pa < 0x6000000000 then .hbm (pa / dieBytes)
  else if 0x100000000000 ≤ pa ∧ pa < 0x500000000000 then
    let c := pa / 0x100000000000 - 1
    if pa % 0x100000000000 < s.cxlSize c then .cxl c else .none
  else if 0x500000000000 ≤ pa ∧ pa < 0x800000000000 then .host
  else if 0x800000000000 ≤ pa ∧ pa < 0x1000000000000 then
    if (pa - 0x800000000000) % 0x80000000000 < 0x6000000000 then .peer ((pa - 0x800000000000) / 0x80000000000) else .none
  else .none

/-- The home die of a line (R108, R251); host lines attach to die 0 (R239), a peer's to the die of its port (R246). -/
def State.homeDie (s : State) (pa : Nat) : Nat :=
  match s.paKind pa with
  | .hbm d => d
  | .cxl c => s.winBits (oCXM c) 1 2
  | .peer p => s.winBits oPRT (3 * p) 3 / 2
  | .host => 0
  | .none => 0

/-- The home slice of a line (R108). -/
def homeSlice (pa : Nat) : Nat :=
  ((pa >>> 7) % 16) ^^^ ((pa >>> 11) % 16) ^^^ ((pa >>> 15) % 16) ^^^ ((pa >>> 19) % 16)

/-- The HBM4 stack of a line and its pseudo-channel, 0 to 63 (R247); a channel is a pair of pseudo-channels. -/
def hbmStack (pa : Nat) : Nat :=
  let o := pa % dieBytes
  2 * (pa / dieBytes) + ((o >>> 8) % 2 ^^^ (o >>> 20) % 2)
def hbmPch (pa : Nat) : Nat :=
  let o := pa % dieBytes
  (o >>> 9) % 64 ^^^ (o >>> 21) % 64
/-- The number of a line's channel in the package: 32 channels a stack. -/
def hbmChannel (pa : Nat) : Nat := 32 * hbmStack pa + hbmPch pa / 2

/-- The key of a 2 MiB region in the home map (R18, R19), if the address lies in a map. -/
def State.region (s : State) (pa : Nat) : Option Nat :=
  match s.paKind pa with
  | .hbm _ => some (pa / 0x200000)
  | .cxl c => some (0x40000 + c * 0x800000 + (pa % 0x100000000000) / 0x200000)
  | _ => none

/-- The partition that owns an address's region, or 0xF. -/
def State.homeOwner (s : State) (r : Nat) : Nat := (Tab.getD s.hmap 0xF r).toNat

/-- Whether window `w` admits an operation of `kind` by `guest` on `owner` at unit `u` (R20, R21); a window that
drains admits nothing more (R22). -/
def State.winAdmits (s : State) (w kind guest owner u : Nat) (write : Bool) : Bool :=
  let a := s.win' (oWIN w)
  let b := s.win' (oWIN w + 8)
  bit a 12 && bits a 8 2 == kind && bits a 0 4 == owner && bits a 4 4 == guest
    && (if write then bit a 11 else bit a 10) && decide (bits b 0 32 ≤ u ∧ u < bits b 32 32) && (s.winDrain.find w).isNone

/-- Whether some window admits it. -/
def State.admitted (s : State) (kind guest owner u : Nat) (write : Bool) : Bool :=
  (List.range 32).any fun w => s.winAdmits w kind guest owner u write

/-- The home-map check of R18 for an access by partition `part`. An address window's bounds (R20) count 2 MiB regions of physical address
(log entry 70). -/
def State.mapOk (s : State) (part pa : Nat) (write : Bool) : Bool :=
  match s.region pa with
  | none => true
  | some r =>
    let o := s.homeOwner r
    o == part || (o != 0xF && s.admitted 0 part o (pa / 0x200000) write)

/-- Whether key `kid` serves function `vf` (R25, R468): assigned, loaded and of that function. -/
def State.keyOk (s : State) (kid vf : Nat) : Bool :=
  let k := s.win' (oKEY kid)
  kid != 0 && bit k 10 && bit k 11 && bits k 0 10 == vf

/-- Whether a translated access may go on: the range exists, and in device memory the key serves the function. -/
def State.paOk (s : State) (pa kid vf : Nat) : Bool :=
  match s.paKind pa with
  | .none => false
  | .hbm _ => s.keyOk kid vf
  | .cxl _ => s.keyOk kid vf
  | _ => true

/-- Whether a lost port fences the address (R433). -/
def State.fenced (s : State) (pa : Nat) : Bool :=
  match s.paKind pa with
  | .cxl c => s.winBits (oCXS c) 2 1 == 1
  | _ => false

/-- The peer port to a package, by the route table (R246, R467). -/
def State.peerPort (s : State) (p : Nat) : Nat := s.winBits oPRT (3 * p) 3

/-- Whether the port behind an address is lost (R433, R435). -/
def State.portLost (s : State) (pa : Nat) : Bool :=
  s.fenced pa ||
    (match s.paKind pa with
     | .host => Tab.getD s.ports false 8
     | .peer p => Tab.getD s.ports false (s.peerPort p)
     | _ => false)

/-! ## Lane groups, workgroups, cores -/

def State.setLg (s : State) (g : Nat) (x : Lg) : State := { s with lgs := s.lgs.put g x }
def State.modLg (s : State) (g : Nat) (f : Lg → Lg) : State := { s with lgs := s.lgs.modify g f }
def State.modWg (s : State) (w : Nat) (f : Wg → Wg) : State := { s with wgs := s.wgs.modify w f }
def State.modLaunch (s : State) (l : Nat) (f : Launch → Launch) : State := { s with launches := s.launches.modify l f }
def State.core (s : State) (c : Nat) : Core := Tab.getD s.cores {} c
def State.modCore (s : State) (c : Nat) (f : Core → Core) : State := { s with cores := s.cores.setD {} c (f (s.core c)) }
def State.part (s : State) (n : Nat) : Part := Tab.getD s.parts {} n
def State.modPart (s : State) (n : Nat) (f : Part → Part) : State := { s with parts := s.parts.setD {} n (f (s.part n)) }
def State.modAcc (s : State) (a : Nat) (f : Access → Access) : State := { s with accs := s.accs.modify a f }
def State.modCmd (s : State) (c : Nat) (f : Cmd → Cmd) : State := { s with cmds := s.cmds.modify c f }
/-- Queues an event. -/
def State.post (s : State) (e : Ev) : State := { s with pending := s.pending ++ [e] }
/-- Queues an event unless it is queued already. -/
def State.postOnce (s : State) (e : Ev) : State := if s.pending.contains e then s else s.post e
/-- A fresh free value's index (log entry 4). -/
def State.draw (s : State) : Nat × State := (s.nfree, { s with nfree := s.nfree + 1 })

/-- Raises a core's program timestamp (R109). -/
def State.raisePts (s : State) (c t : Nat) : State := s.modCore c fun k => { k with pts := max k.pts t }

/-! ## Copies held by agents: a core's L1, a workgroup's stash (agent 192 + workgroup) -/

def State.copies (s : State) (a : Nat) : Tab CLine :=
  if a < 192 then (s.core a).l1 else ((s.wgs.find (a - 192)).map (·.stash)).getD []
def State.setCopies (s : State) (a : Nat) (t : Tab CLine) : State :=
  if a < 192 then s.modCore a fun k => { k with l1 := t } else s.modWg (a - 192) fun w => { w with stash := t }
def State.copy (s : State) (a ln : Nat) : CLine := Tab.getD (s.copies a) {} ln
def State.setCopy (s : State) (a ln : Nat) (c : CLine) : State := s.setCopies a ((s.copies a).setD {} ln c)
/-- The core of an agent. -/
def State.agentCore (s : State) (a : Nat) : Nat :=
  if a < 192 then a else ((s.wgs.find (a - 192)).map (·.core)).getD 0

/-- The bytes of a copy's word `w` (0 to 31). -/
def CLine.word (c : CLine) (w : Nat) : List Byte := (List.range 4).map fun i => Tab.getD c.bytes 0 (4 * w + i)

/-- Writes bytes into a table of bytes from `off`. -/
def putTab : Tab Byte → Nat → List Byte → Tab Byte
  | t, _, [] => t
  | t, off, b :: r => putTab (t.setD 0 off b) (off + 1) r

def CLine.putBytes (c : CLine) (off : Nat) (bs : List Byte) : CLine := { c with bytes := putTab c.bytes off bs }

/-! ## Memory as the home slices hold it -/

/-- What an address that nothing has written reads as (log entry 6). -/
def unwritten : Byte := 0

def State.byteAt (s : State) (a : Nat) : Byte := Tab.getD s.mem unwritten a

def memWrite : List Host.Cell → Nat → List Byte → List Host.Cell
  | m, _, [] => m
  | m, a, b :: r => memWrite (Tab.setD m unwritten a b) (a + 1) r

/-- The memory holds its canonical form. -/
def Memory.wf (m : List Host.Cell) : Bool := Tab.wf unwritten m

def State.bytesAt (s : State) (a n : Nat) : List Byte := (List.range n).map fun i => s.byteAt (a + i)
def State.writeBytes (s : State) (a : Nat) (bs : List Byte) : State := { s with mem := memWrite s.mem a bs }

def State.dirOf (s : State) (ln : Nat) : Dir := Tab.getD s.dir {} ln
def State.setDir (s : State) (ln : Nat) (d : Dir) : State := { s with dir := s.dir.setD {} ln d }

/-- Whether a request reaches a retired frame (R428): the frame is retired and no cache holds the line. -/
def State.retiredAt (s : State) (a : Nat) : Bool :=
  s.retired.contains (a / 65536) && !(s.dirOf (a / 128)).inL2 && !(s.dirOf (a / 128)).inMsc

/-- Whether the 4-byte word at `4·w` is poisoned (R422, R428). -/
def State.poisAt (s : State) (w : Nat) : Bool := Tab.getD s.poison false w || s.retiredAt (4 * w)
def State.setPois (s : State) (w : Nat) (b : Bool) : State := { s with poison := s.poison.setD false w b }

/-- The words that `n` bytes at `a` touch. -/
def wordsOf (a n : Nat) : List Nat := if n = 0 then [] else (List.range ((a + n - 1) / 4 - a / 4 + 1)).map (a / 4 + ·)

/-- Whether any word of `n` bytes at `a` is poisoned. -/
def State.anyPois (s : State) (a n : Nat) : Bool := (wordsOf a n).any s.poisAt

/-- A write at the home: bytes stored, words that it covers whole no longer poisoned (R423); dropped in a retired frame. -/
def State.homeWrite (s : State) (a : Nat) (bs : List Byte) : State :=
  if s.retiredAt a then s else
  let s := s.writeBytes a bs
  (wordsOf a bs.length).foldl (fun s w =>
    if a ≤ 4 * w ∧ 4 * w + 4 ≤ a + bs.length then s.setPois w false else s) s

/-- A write of words with their poison, as publishing, copies and engines make it (R422). -/
def State.homeWriteP (s : State) (a : Nat) (bs : List Byte) (pois : List Nat) : State :=
  if s.retiredAt a then s else
  let s := s.homeWrite a bs
  pois.foldl (fun s w => s.setPois w true) s

/-- The owner of a word. -/
def State.ownerOf (s : State) (w : Nat) : Option Nat := Tab.find (s.dirOf (w / 32)).own (w % 32)

/-- The agents that own words of a line. -/
def State.owners (s : State) (ln : Nat) : List Nat := (s.dirOf ln).own.vals.eraseDups

/-! ## The caches below the cores (R1, R107) -/

/-- Lines of an L2 slice (4 MiB) and of a die's memory-side cache (192 MiB). -/
def l2Lines : Nat := 32768
def mscLines : Nat := 1572864

/-- Whether a line lies in device memory or a CXL range: host lines and a peer's are held in no cache of the package below the cores
(R239, R246). -/
def State.ownMemory (s : State) (ln : Nat) : Bool :=
  match s.paKind (128 * ln) with | .hbm _ => true | .cxl _ => true | _ => false

/-- One of the lines given, by a free choice (log entry 18). -/
def State.victim (s : State) (held : Tab Dir) : State × Option (Nat × Dir) :=
  let (n, s) := s.draw
  (s, held[Config.pick n % held.length]?)

/-- What a line of a retired frame brings in from the base die: every word poisoned (R428). -/
def State.fill (s : State) (ln : Nat) : State :=
  if s.retiredAt (128 * ln) then (List.range 32).foldl (fun s i => s.setPois (32 * ln + i) true) s else s

/-- Whether the slices of a die take the stronger code now (R426). -/
def State.strongNow (s : State) (die : Nat) : Bool := bit (s.win' (oECS die)) 0

/-- The memory-side cache of a line's home die takes the line; a full one gives another line of its die up, and writes a dirty one back. -/
def State.keepMsc (s : State) (ln : Nat) (dirty : Bool) : State :=
  if !s.ownMemory ln then s else
  let s := if dirty then s else s.fill ln
  let d := s.dirOf ln
  let s := s.setDir ln { d with inMsc := true, mscDirty := d.mscDirty || dirty }
  let held := s.dir.filter fun p => p.2.inMsc && p.1 != ln && s.homeDie (128 * p.1) == s.homeDie (128 * ln)
  if held.length < mscLines then s else
  match s.victim held with
  | (s, some (v, x)) =>
    let s := if x.mscDirty then { s with wbacks := s.wbacks ++ [v] } else s
    s.setDir v { x with inMsc := false, mscDirty := false }
  | (s, none) => s

/-- A line's home slice takes the line into L2; a full slice gives another of its lines up, a dirty one to the memory-side cache. -/
def State.keepL2 (s : State) (ln : Nat) (dirty : Bool) : State :=
  if !s.ownMemory ln then s else
  let s := s.fill ln
  let d := s.dirOf ln
  let s := s.setDir ln { d with
    inL2 := true, dirty := d.dirty || dirty
    strong := if d.inL2 && !dirty then d.strong else s.strongNow (s.homeDie (128 * ln)) }
  let held := s.dir.filter fun p => p.2.inL2 && p.1 != ln && s.homeDie (128 * p.1) == s.homeDie (128 * ln) &&
    homeSlice (128 * p.1) == homeSlice (128 * ln)
  if held.length < l2Lines then s else
  match s.victim held with
  | (s, some (v, x)) =>
    let s := s.setDir v { x with inL2 := false, dirty := false }
    if x.dirty then s.keepMsc v true else s
  | (s, none) => s

/-- L2 gives a line up to the memory-side cache, which holds the newer value from now on (R119, R474). -/
def State.farLine (s : State) (ln : Nat) : State :=
  (s.setDir ln { s.dirOf ln with inL2 := false, dirty := false }).keepMsc ln true

/-! ## Messages on their way -/

/-- The position of a channel in the table of R212. -/
def Chan.pos : Chan → Nat
  | .req => 0 | .pub => 1 | .meet => 2 | .am => 3 | .ghost => 4 | .rsp => 5 | .snp => 6 | .mc => 7

/-- The permits that a link's channel is configured with. -/
def permitTotal (chan : Nat) : Nat := if chan = 2 ∨ chan = 7 then 8 else 4

def State.permit (s : State) (link chan : Nat) : Permit := Tab.getD s.permits ⟨permitTotal chan, []⟩ (8 * link + chan)
def State.setPermit (s : State) (link chan : Nat) (p : Permit) : State :=
  { s with permits := s.permits.setD ⟨permitTotal chan, []⟩ (8 * link + chan) p }

/-- The messages that a packet still carries. -/
def NetPacket.evs (p : NetPacket) : List Ev :=
  ((p.hops.filter fun h => h.left != p.flits).flatMap (·.exits)) ++ (p.onward.map (·.ev)).toList

/-- Takes a packet out of the fabric: its flits leave the receive buffers, whose permits return. -/
def State.dropPacket (s : State) (id : Nat) : State :=
  match s.packs.find id with
  | none => s
  | some p =>
    let s := (p.hops.map (·.link)).eraseDups.foldl (fun (s : State) l =>
      let x := s.permit l p.ch.pos
      s.setPermit l p.ch.pos ⟨x.held + x.buf.countP (· == id), x.buf.filter (· != id)⟩) s
    { s with packs := s.packs.del id }

/-- The flits of a direction that its receiver has not accepted. -/
def LinkDir.unaccepted (x : LinkDir) : List Flit := x.replay.filter fun f => decide ((f.seq + 4096 - x.expect) % 4096 < 2048)

/-- Every message that is on its way: at its agent, in the packets of a die, stored at an adapter, or in flits between dies. -/
def State.messages (s : State) : List Ev :=
  s.pending ++ s.packs.vals.flatMap NetPacket.evs ++ s.ldirs.flatMap fun x =>
    x.2.stored.map (·.ev) ++ x.2.unaccepted.flatMap fun f => f.whole.map (·.ev)

/-- Takes a message that is on its way out of the fabric: the packet of a die with its flits; on a die link its bytes go on and cause
nothing. -/
def State.recall (s : State) (e : Ev) : State :=
  if s.pending.contains e then { s with pending := s.pending.erase e }
  else
    match s.packs.find? fun p => p.2.evs.contains e with
    | some p => s.dropPacket p.1
    | none =>
      let dead := fun (p : LPacket) => if p.ev = e then { p with ev := .mcastFan [] 0 } else p
      let flit := fun (f : Flit) => { f with whole := f.whole.map dead }
      { s with ldirs := s.ldirs.map fun x =>
        (x.1, { x.2 with stored := x.2.stored.map dead, replay := x.2.replay.map flit, flight := x.2.flight.map flit }) }

/-- Whether a message is anywhere on its way. -/
def State.onWay (s : State) (p : Ev → Bool) : Bool := s.messages.any p

/-! ## Publishing (R113) -/

/-- The words of a line that agent `a` publishes, as offsets: those that its copy and the home slice say it owns. -/
def State.pubMask (s : State) (a ln : Nat) : Word :=
  let c := s.copy a ln
  maskOf ((List.range 32).filter fun i => bit c.own i && s.ownerOf (32 * ln + i) == some a)

/-- The bytes of the words of `m` in a copy, as (offset, byte) cells. -/
def CLine.cells (c : CLine) (m : Word) : List (Nat × Byte) :=
  (lanesOf m).flatMap fun i => (List.range 4).map fun j => (4 * i + j, Tab.getD c.bytes 0 (4 * i + j))

/-- The slice takes published words (R113): their bytes and poison, and ends their ownership. The write timestamp stays. Words of a
fenced range are discarded (R433). -/
def State.takePublish (s : State) (a ln : Nat) (cells : List (Nat × Byte)) (own pois : Word) : State :=
  let ws := (lanesOf own).filter fun i => s.ownerOf (32 * ln + i) == some a
  let s := if s.fenced (128 * ln) then s else ws.foldl (fun s i =>
    let bs := (List.range 4).map fun j => ((cells.find? (·.1 == 4 * i + j)).map (·.2)).getD 0
    s.homeWriteP (128 * ln + 4 * i) bs (if bit pois i then [32 * ln + i] else [])) s
  let d := s.dirOf ln
  let s := s.setDir ln { d with own := d.own.filter fun p => !(ws.contains p.1) }
  if s.fenced (128 * ln) then s else s.keepL2 ln true

/-- The agent's side of a publish (R113): ownership ends in its copy. -/
def State.givePublish (s : State) (a ln : Nat) : State :=
  let c := s.copy a ln
  let pub := s.pubMask a ln
  s.setCopy a ln { c with own := c.own &&& ~~~pub, pois := c.pois &&& ~~~pub }

/-- Forces agent `a` to publish its owned words of a line at once. -/
def State.publishFrom (s : State) (ln a : Nat) : State :=
  let c := s.copy a ln
  let pub := s.pubMask a ln
  (s.givePublish a ln).takePublish a ln (c.cells pub) pub c.pois

/-- The publishes of a line that are on their way reach its home slice. -/
def State.landPublishes (s : State) (ln : Nat) : State :=
  s.messages.foldl (fun s e => match e with
    | .publishArrive a m cells own pois => if m = ln then s.takePublish a ln cells own pois else s
    | _ => s) s

/-- Whether an owner stands behind closed station ports (R209): its bulkhead does not run, and no forced publish reaches it. -/
def State.shut (s : State) (a : Nat) : Bool := s.bhSt (bhOf (s.agentCore a)) != 3

/-- The words of a silent owner are released and poisoned (R405). -/
def State.loseWords (s : State) (ln a : Nat) : State :=
  let d := s.dirOf ln
  let s := s.setDir ln { d with own := d.own.filter fun p => p.2 != a }
  let s := (d.own.filter fun p => p.2 == a).foldl (fun (s : State) p => s.setPois (32 * ln + p.1) true) s
  s.setCopy a ln { s.copy a ln with own := 0, pois := 0 }

/-- Every owner of a line's words publishes them, each publish having reached the home slice (R113); one behind closed ports has been silent
for its bound (R405). -/
def State.publishAll (s : State) (ln : Nat) : State :=
  let s := s.landPublishes ln
  (s.owners ln).foldl (fun s a => if s.shut a then s.loseWords ln a else s.publishFrom ln a) s

/-- Whether an owner of a line's words stands behind ports that have closed less than the slice bound ago: a forced publish waits for it
(R209, R405; log entry 71). -/
def State.ownerShut (s : State) (ln : Nat) : Bool :=
  (s.owners ln).any fun a => s.shut a && decide (s.now < (s.bhSince.find (bhOf (s.agentCore a))).getD 0 + 40000)

/-- Whether a command is still in a queue or running. -/
def Cmd.live (c : Cmd) : Bool := c.st != .done

/-- Whether a line waits: an engine owns it (R132), or an owner behind closed ports has still to answer. -/
def State.locked (s : State) (ln : Nat) : Bool := (s.dirOf ln).lock.isSome || s.ownerShut ln

/-- What is under way waits at a home slice for an engine's line: its effect is taken back, and it is tried again (R132). -/
def State.stalled (s : State) : State := { s with pk := { s.pk with stall := true } }

/-- Forces a publish of a line's owned words by every owner: what a walker or the device's own reads and writes do at the home
slice, each served only after the publish has reached it (R113, R138), and after an engine that owns the line has written it (R132). -/
def State.publishLine (s : State) (ln : Nat) : State := if s.locked ln then s.stalled else s.publishAll ln

/-- The lines that `n` bytes at `a` touch. -/
def linesOf (a n : Nat) : List Nat := if n = 0 then [] else (List.range ((a + n - 1) / 128 - a / 128 + 1)).map (a / 128 + ·)

def State.publishRange (s : State) (a n : Nat) : State := (linesOf a n).foldl State.publishLine s

/-- Whether a cache below holds the line, so that no memory read is needed; host and peer lines have none. -/
def State.present (s : State) (ln : Nat) : Bool := (s.dirOf ln).inL2 || (s.dirOf ln).inMsc || !s.ownMemory ln

/-- What ciphertext written under one key with these bytes reads as under another key: the bytes themselves under its own. -/
def decrypted (ln : Nat) (o : Nat × List Byte) (kid : Nat) : List Byte :=
  if kid = o.1 then o.2 else (Config.recrypt o.1 kid (128 * ln) o.2).take 128

/-- The key and bytes under which a line's ciphertext stands once the line is written back (R118): the line's own, or where nothing has
been written since another key began to read it, those before. -/
def Dir.cipher (d : Dir) (ln : Nat) (now : List Byte) : Nat × List Byte :=
  match d.orig with
  | some o => if decrypted ln o d.kid = now then o else (d.kid, now)
  | none => (d.kid, now)

/-- Makes the line readable under a request's key (R118): a line held under another key is written back under its own
and read again; one that no key has been named for takes the first. -/
def State.asKey (s : State) (ln kid : Nat) : State :=
  let d := s.dirOf ln
  if !s.ownMemory ln || d.kid = kid then s
  else if d.kid = 0 && d.orig.isNone then s.setDir ln { d with kid := kid }
  else
    let o := d.cipher ln (s.bytesAt (128 * ln) 128)
    ({ s with wbacks := s.wbacks ++ [ln] }.writeBytes (128 * ln) (decrypted ln o kid)).setDir ln { d with kid := kid, orig := if kid = o.1 then none else some o }

/-- A device agent reaches lines under a key: owned words are published, and each line stands under that key (R113, R118). -/
def State.keyRange (s : State) (a n kid : Nat) : State := (linesOf a n).foldl (fun s ln => (s.publishLine ln).asKey ln kid) s

/-- The write timestamp of a write at the home slice (R111). -/
def State.stamp (s : State) (ln pts : Nat) : Nat × State :=
  let d := s.dirOf ln
  let ts := max d.rts pts + 1
  (ts, s.setDir ln { d with wts := ts, rts := ts })

/-- A coherent read by a device agent at the home slices: the bytes and whether any word is poisoned. -/
def State.devRead (s : State) (a n : Nat) : State × List Byte × Bool :=
  let s := s.publishRange a n
  (s, s.bytesAt a n, s.anyPois a n)

/-- A coherent write by a device agent: publishes, writes, stamps each line; `pts` of the writer. Answers the last ts. -/
def State.devWrite (s : State) (a : Nat) (bs : List Byte) (pts : Nat := 0) : Nat × State :=
  let s := s.publishRange a bs.length
  let s := s.homeWrite a bs
  (linesOf a bs.length).foldl (fun (p : Nat × State) ln => let (t, s) := p.2.stamp ln pts; (max p.1 t, s.keepL2 ln true)) (pts, s)

end Sys2Proof.Machine
end

