-- ==== Sys2Proof/Machine/Xlate.lean ====
section
/-! DEFINITION. Cause codes and their ranking (R6, R7), two-stage translation (R136 to R141), fault records and rings
(R407 to R409, R427). -/

namespace Sys2Proof.Machine

/-! ## Causes -/

/-- The value of a cause code (R6). -/
def Cause.code : Cause → Nat
  | .none => 0 | .illegal => 0x01 | .chain => 0x02 | .target => 0x03 | .latch => 0x04 | .bound => 0x05 | .kown => 0x06
  | .xlatFt => 0x10 | .xlatNr => 0x11 | .xlatPerm => 0x12 | .xlatS2 => 0x13 | .align => 0x14
  | .poison => 0x20 | .deferred => 0x21 | .slot => 0x30 | .fmt => 0x31 | .tag => 0x32 | .orphan => 0x33
  | .stale => 0x38 | .bias => 0x39 | .permit => 0x40 | .pipe => 0x41 | .link => 0x48 | .gate => 0x49

/-- The rank of a cause (R7); `none` ranks last. Rank 5 is a register read whose word fails its code, rank 6 an `illegal`
found from an operand value, which ranks after it. -/
def Cause.rank : Cause → Nat
  | .illegal => 1 | .chain => 2 | .target => 3 | .latch => 4 | .bound => 7 | .kown => 8 | .slot => 9 | .fmt => 10
  | .tag => 11 | .pipe => 12 | .bias => 13 | .stale => 14 | .align => 15 | .xlatFt => 16 | .xlatNr => 17
  | .xlatPerm => 18 | .xlatS2 => 19 | .gate => 20 | .poison => 21 | .deferred => 22 | .orphan => 23 | .permit => 24
  | .link => 25 | .none => 100

/-- The higher-ranked of two causes. -/
def Cause.better (a b : Cause) : Cause := if b.rank < a.rank then b else a

/-- The highest-ranked of a list of causes, `none` if it is empty. -/
def bestCause (cs : List Cause) : Cause := cs.foldl Cause.better .none

/-! ## Table entries (R137, R138) -/

def peV (e : DWord) : Bool := bit e 0
def peTbl (e : DWord) : Bool := bit e 1
/-- rd, wr and ex as bits 0, 1 and 2. -/
def pePerm (e : DWord) : Nat := bits e 2 3
def peFt (e : DWord) : Bool := bit e 5
def pePool (e : DWord) : Nat := bits e 8 4
def peAddr (e : DWord) : Nat := bits e 8 40 * 256
def peKid (e : DWord) : Nat := bits e 51 13

/-- One level of a table: its number, the lowest index bit and the number of entries (R136). -/
structure Level where
  n : Nat
  sh : Nat
  cnt : Nat

def levels2 : List Level := [⟨1, 39, 512⟩, ⟨2, 30, 512⟩, ⟨3, 21, 512⟩, ⟨4, 16, 32⟩]
def levels1 : List Level := ⟨0, 48, 512⟩ :: levels2

/-- Whether a valid entry is malformed (R138): `second` for the second stage. -/
def peBad (l : Level) (second : Bool) (e : DWord) : Bool :=
  bits e 6 2 != 0 || bits e 48 3 != 0 || (!peTbl e && l.n < 2) || (peTbl e && l.n == 4)
    || peAddr e % (if peTbl e then (if l.n = 3 then 256 else 4096) else 2 ^ l.sh) != 0
    || (!(second && !peTbl e) && peKid e != 0)

/-- The walker's read of a table word at its home slice, forcing a publish (R138); none where it is poisoned, lies in no range, or the
port that reaches it is lost. `kid`: the key under which it is read (R118). -/
def State.tableWord (s : State) (pa : Nat) (kid : Nat := 0) : State × Option DWord :=
  let pa := s.canonPa pa
  if s.paKind pa = .none || s.portLost pa then (s, none) else
  let (s, bs, p) := (s.keyRange pa 8 kid).devRead pa 8
  (s, if p then none else some (BitVec.ofNat 64 (leNat bs)))

/-- A leaf of the second stage: page size in bits, page address, permissions, key. -/
structure Leaf where
  bits : Nat
  pa : Nat
  perm : Nat
  kid : Nat

/-- Goes on with the word that a table read gave, or without one. -/
def onWord {α : Type} (r : State × Option DWord) (bad : State → α) (k : State → DWord → α) : α :=
  match r with
  | (s, none) => bad s
  | (s, some e) => k s e

/-- The second-stage walk through the levels given; none is a second-stage fault. -/
def walkS2 (ipa : Nat) : List Level → Nat → State → State × Option Leaf
  | [], _, s => (s, none)
  | l :: r, table, s =>
    onWord (s.tableWord (table + 8 * ((ipa >>> l.sh) % l.cnt))) (fun s => (s, none)) fun s e =>
      if !peV e || peBad l true e then (s, none)
      else if peTbl e then walkS2 ipa r (peAddr e) s
      else (s, some ⟨l.sh, peAddr e, pePerm e, peKid e⟩)

/-- Whether the second stage of a partition is enabled (R135). -/
def State.s2En (s : State) (part : Nat) : Bool := bit (s.win' (oS2C part)) 0

/-- The second stage of partition `part` at an IPA (R135, R136). -/
def State.stage2 (s : State) (part ipa : Nat) : State × Option Leaf :=
  let c := s.win' (oS2C part)
  if s.s2En part && ipa < 2 ^ 48 then walkS2 ipa levels2 (bits c 12 36 * 4096) s else (s, none)

/-- An IPA translated for an access of function `vf` that needs the permissions `need` (R139, R25): its address with its key, or the cause (R430,
R433). -/
def State.ipaCause (s : State) (part vf ipa need : Nat) : State × (Nat × Nat) × Cause :=
  match s.stage2 part ipa with
  | (s, none) => (s, (0, 0), .xlatS2)
  | (s, some l) =>
    let pa := s.canonPa (l.pa + ipa % 2 ^ l.bits)
    (s, (pa, l.kid), if s.fenced pa then .xlatNr else if need &&& l.perm = need && s.paOk pa l.kid vf then .none else .xlatS2)

/-- An IPA translated for an access of function `vf` that needs the permissions `need`, if the second stage allows it. -/
def State.ipaAddr (s : State) (part vf ipa need : Nat) : State × Option (Nat × Nat) :=
  match s.ipaCause part vf ipa need with
  | (s, at_, .none) => (s, some at_)
  | (s, _, _) => (s, none)

/-- What a translation answers: a cached or walked result; a first-touch entry; a cause; a second-stage fault at an IPA,
that of a first-stage table word or not. -/
inductive XRes where
  | ok (e : TlbEnt)
  | ft (p : Pending)
  | bad (c : Cause)
  | s2 (ipa : Nat) (table : Bool)
  deriving DecidableEq, Repr

/-- The first-stage walk (R136 to R139, R143) for an access that needs `need`: a leaf that refuses it is met before the second stage of
its page. -/
def walkS1 (part vf va need : Nat) : List Level → Nat → State → State × XRes
  | [], _, s => (s, .bad .xlatPerm)
  | l :: r, table, s =>
    let ipa := table + 8 * ((va >>> l.sh) % l.cnt)
    let q := s.ipaCause part vf ipa 1
    if q.2.2 = .xlatNr then (q.1, .bad .xlatNr)
    else if q.2.2 = .xlatS2 then (q.1, .s2 ipa true)
    else onWord (q.1.tableWord q.2.1.1 q.2.1.2) (fun s => (s, .bad .xlatPerm)) fun s e =>
      if !peV e then
        if !peFt e then (s, .bad .xlatNr)
        else if l.n < 2 then (s, .bad .xlatPerm)
        else (s, .ft ⟨q.2.1.1, l.n, pePool e, va⟩)
      else if peBad l false e then (s, .bad .xlatPerm)
      else if peTbl e then walkS1 part vf va need r (peAddr e) s
      else if need &&& pePerm e ≠ need then (s, .bad .xlatPerm)
      else
        let ipa := peAddr e + va % 2 ^ l.sh
        match s.stage2 part ipa with
        | (s, none) => (s, .s2 ipa false)
        | (s, some f) =>
          let b := min l.sh f.bits
          (s, .ok { part := part, vf := vf, bits := b, va := va / 2 ^ b * 2 ^ b, ipa := ipa / 2 ^ b * 2 ^ b,
                    pa := s.canonPa ((f.pa + ipa % 2 ^ f.bits) / 2 ^ b * 2 ^ b), perm := pePerm e, perm2 := f.perm,
                    kid := f.kid, bits2 := f.bits })

/-- A whole walk for function `vf` of partition `part` (R135). -/
def State.walk (s : State) (part vf va need : Nat) : State × XRes :=
  let c := s.vr vf 0
  if !bit c 0 then (s, .bad .xlatPerm)
  else walkS1 part vf va need levels1 (bits c 12 36 * 4096) s

/-- What a translation allows an access that needs `need` (R135, R139, R25, R430, R433), by the ranks of R7: a fenced page, the
permissions of the first stage, those of the second, which serves only while it is enabled. -/
def State.judge (s : State) (e : TlbEnt) (va need : Nat) : XRes :=
  let off := va % 2 ^ e.bits
  if s.fenced (e.pa + off) then .bad .xlatNr
  else if need &&& e.perm ≠ need then .bad .xlatPerm
  else if need &&& e.perm2 ≠ need || !s.s2En e.part then .s2 (e.ipa + off) false
  else if !s.paOk (e.pa + off) e.kid e.vf then .s2 (e.ipa + off) false
  else .ok e

def tlbHit (part vf va : Nat) (e : TlbEnt) : Bool := e.part == part && e.vf == vf && e.va == va / 2 ^ e.bits * 2 ^ e.bits

/-- The set of the die TLB to which an entry belongs: its page's number among 1024 sets (log entry 15). -/
def TlbEnt.set (e : TlbEnt) : Nat := e.va / 2 ^ e.bits % 1024

/-- An entry joins the die TLB (8192 entries, 8 ways a set); in a full set the oldest entry gives way. -/
def joinTlb (e : TlbEnt) (es : List TlbEnt) : List TlbEnt :=
  let es := es.erase e
  let mine := es.filter fun x => x.set == e.set
  e :: (match mine.drop 7 with | [] => es | x :: _ => es.erase x)

/-- Whether a physical address lies in the page of a translation. -/
def TlbEnt.holdsPa (e : TlbEnt) (pa : Nat) : Bool := decide (e.pa ≤ pa ∧ pa < e.pa + 2 ^ e.bits)

/-- Whether anything in flight may have been translated by an entry: a lane of an access, a granule of a command, a fragment's
destination, a meeting's counter (R142). -/
def State.entUsed (s : State) (e : TlbEnt) : Bool :=
  (s.accs.any fun p => p.2.lanes.any fun q => decide (q.st < 2) && tlbHit p.2.part p.2.vf q.va e) ||
  (s.cmds.any fun p => p.2.live && p.2.gran.any fun g => tlbHit p.2.part p.2.vf (g.1 * 65536) e) ||
  (s.frags.any fun p => p.2.dst.any fun d => e.holdsPa d.1) || s.tallies.any fun p => e.holdsPa p.2.ctr.1

/-- Keeps the entries that have left their buffer while something translated by them is in flight: an invalidation that matches one
waits for it too (R142, R429). -/
def State.keepOld (s : State) (es : List TlbEnt) : State :=
  { s with oldTlb := (es ++ s.oldTlb).eraseDups.filter s.entUsed }

/-- Fills the L1 TLB of a core (128 entries, fully associative) and the die TLB; the oldest entry gives way (R140). -/
def State.fillTlb (s : State) (core : Nat) (e : TlbEnt) : State :=
  let old := Tab.getD s.dtlb [] (dieOf core)
  let new := joinTlb e old
  let s := s.keepOld (((s.core core).tlb.erase e).drop 127 ++ old.filter fun x => !new.contains x)
  let s := s.modCore core fun k => { k with tlb := (e :: k.tlb.erase e).take 128 }
  { s with dtlb := s.dtlb.setD [] (dieOf core) new }

/-- Looks a virtual address up for a core: L1 TLB, die TLB, walk (R140). -/
def State.xlate (s : State) (core part vf va need : Nat) : State × XRes :=
  match (s.core core).tlb.find? (tlbHit part vf va) with
  | some e => (s, s.judge e va need)
  | none =>
    match (Tab.getD s.dtlb [] (dieOf core)).find? (tlbHit part vf va) with
    | some e => (s.fillTlb core e, s.judge e va need)
    | none =>
      match s.walk part vf va need with
      | (s, .ok e) => (s.fillTlb core e, s.judge e va need)
      | r => r

/-- The physical address of `va` under a translation. -/
def TlbEnt.addr (e : TlbEnt) (va : Nat) : Nat := e.pa + va % 2 ^ e.bits

/-! ## Records (R408) -/

/-- Word 0 of a fault record. -/
def recHead (c : Cause) (src part vf : Nat) (core wgs lgn bh : Nat) : Nat :=
  c.code + src * 2 ^ 8 + (part % 16) * 2 ^ 12 + (vf % 1024) * 2 ^ 16 + coreX core * 2 ^ 26 + coreY core * 2 ^ 31
    + (wgs % 16) * 2 ^ 34 + (lgn % 32) * 2 ^ 38 + (bh % 16) * 2 ^ 43

/-- The 32 bytes of a record of four words. -/
def recBytes (ws : List Nat) : List Byte := (ws.take 4).flatMap fun w => natLe 8 (w % 2 ^ 64)

/-- Writes 32 bytes into a ring whose addresses `tr` translates, then its tail as a release of them (R407); answers the address that
could not be reached. -/
def State.ringPut (s : State) (tr : State → Nat → State × Option (Nat × Nat)) (base size : Nat) (bs : List Byte) :
    State × Option Nat :=
  match tr s base with
  | (s, none) => (s, some base)
  | (s, some (h, hk)) =>
    let (s, hd, _) := (s.keyRange h 24 hk).devRead h 24
    let tail := leNat (hd.take 8)
    let head := leNat ((hd.drop 8).take 8)
    let lost := leNat (hd.drop 16)
    let drop := fun (s : State) => (s.devWrite (h + 16) (natLe 8 ((lost + 1) % 2 ^ 64))).2
    if (tail + 2 ^ 64 - head) % 2 ^ 64 = size then (drop s, none)
    else
      let ra := base + 32 + 32 * (tail % size)
      match tr s ra with
      | (s, none) => (drop s, some ra)
      | (s, some (r, rk)) =>
        let (t, s) := (s.keyRange r bs.length rk).devWrite r bs
        ((s.devWrite h (natLe 8 ((tail + 1) % 2 ^ 64)) t).2, none)

/-- A record's writes; where they wait for an engine's line, the record waits and its agent goes on (R132, log entry 67). `ring`: 0
for the manager ring, 1 + vf for a function's. Records that wait keep their order. -/
def State.orLate (s : State) (ring : Nat) (ws : List Nat) (put : State → State) : State :=
  let late : State := { s with lateRecs := s.lateRecs ++ [(ring, ws)] }
  if s.lateRecs.any fun p => p.1 == ring then late else
  let t := put s
  if t.pk.stall && !s.pk.stall then late else t

/-- Writes a record to the manager ring. -/
def State.mgrPut (s : State) (ws : List Nat) : State :=
  let r := s.win' oMRB
  if bits r 12 36 = 0 then s
  else (s.ringPut (fun s a => (s, some (s.canonPa a, 0))) (bits r 12 36 * 4096) (qSize (bits r 0 4)) (recBytes ws)).1

/-- Writes a record to the manager ring (R407); while the host port is lost it is held (R435). -/
def State.mgrRec (s : State) (ws : List Nat) : State :=
  if Tab.getD s.ports false 8 then { s with heldRecs := s.heldRecs ++ [ws.map (BitVec.ofNat 64)] }
  else s.orLate 0 ws fun s => s.mgrPut ws

/-- A src 8 record (R430): IPA, VA, whether a table word, whether an engine or the device itself asked. -/
def State.s2Rec (s : State) (part vf core wgs lgn ipa va : Nat) (table engine : Bool) : State :=
  s.mgrRec [recHead .xlatS2 8 part vf core wgs lgn (bhOf core),
    va % 2 ^ 57 + b2n table * 2 ^ 62 + b2n engine * 2 ^ 63, ipa, s.time]

/-- Writes a record to the tenant ring of a function (R407). -/
def State.tenantPut (s : State) (vf : Nat) (ws : List Nat) : State :=
  let r := s.win' (oTRB vf)
  if bits r 12 36 = 0 then s
  else
    let part := s.vfPart vf
    match s.ringPut (fun s a => s.ipaAddr part vf a 3) (bits r 12 36 * 4096) (qSize (bits r 0 4)) (recBytes ws) with
    | (s, none) => s
    | (s, some ipa) => s.s2Rec part vf 0 0 0 ipa 0 false true

/-- A record for the tenant ring of a function. -/
def State.tenantRec (s : State) (vf : Nat) (ws : List Nat) : State := s.orLate (1 + vf) ws fun s => s.tenantPut vf ws

/-- The records that wait are written, those of each ring in order, as soon as no engine owns a line that they write. -/
def State.flushRecs (s : State) : State :=
  s.lateRecs.foldl (fun (a : State) p =>
    if (a.lateRecs.find? fun q => q.1 == p.1) ≠ some p then a else
    let t := (if p.1 = 0 then a.mgrPut p.2 else a.tenantPut (p.1 - 1) p.2)
    if t.pk.stall then a else { t with lateRecs := t.lateRecs.erase p }) s

/-- Writes an entry into the fault-address queue and advances its tail, or counts it as lost (R427). -/
def State.faqPut (s : State) (frame kind : Nat) : State :=
  let size := qSize (bits (s.win' oFAQB) 0 4)
  let t := s.winBits oFAQT 0 32
  if bits (s.win' oFAQB) 12 36 = 0 || (t + 2 ^ 32 - s.winBits oFAQH 0 32) % 2 ^ 32 ≥ size then
    s.setWinBits oFAQT 32 32 (s.winBits oFAQT 32 32 + 1)
  else
    (s.devWrite (s.canonPa (bits (s.win' oFAQB) 12 36 * 4096 + 16 * (t % size)))
      (natLe 8 (frame * 65536 + kind * 2 ^ 48) ++ natLe 8 s.time)).2.setWinBits oFAQT 0 32 (t + 1)

/-- Puts a frame into the fault-address queue, at most once until it is retired (R427). -/
def State.suspectFrame (s : State) (frame kind : Nat) : State :=
  if s.suspect.contains frame then s else { s with suspect := frame :: s.suspect }.faqPut frame kind

end Sys2Proof.Machine
end

