-- ==== Sys2Proof/Machine/Ops.lean ====
section
/-! DEFINITION. The named operations over registers and control state that the meanings share: the context of a word,
reads as they stood before the packet (R70), writes, arrival counters, taking an exception (R413 to R416), stopping
(R404), parking (R147, R430), holding back. -/

namespace Sys2Proof.Machine

abbrev Out := Host.Outcome State Fault Refusal

/-! ## Launch packet fields (R30) -/

def Launch.w0 (l : Launch) (i : Nat) : DWord := (l.words[i]?).getD 0
def Launch.entry (l : Launch) : Nat := bits (l.w0 0) 0 57
def Launch.lgm1 (l : Launch) : Nat := bits (l.w0 1) 16 5
def Launch.rgc (l : Launch) : Nat := bits (l.w0 1) 21 3
def Launch.aff (l : Launch) : Nat := bits (l.w0 1) 24 2
def Launch.cor (l : Launch) : Bool := bit (l.w0 1) 26
def Launch.rsb (l : Launch) : Bool := bit (l.w0 1) 27
def Launch.elas (l : Launch) : Bool := bit (l.w0 1) 28
def Launch.dmin (l : Launch) : Nat := bits (l.w0 1) 29 3
def Launch.dmax (l : Launch) : Nat := bits (l.w0 1) 32 3
def Launch.gang (l : Launch) : Bool := bit (l.w0 1) 35
def Launch.gmem (l : Launch) : Nat := bits (l.w0 1) 36 3
def Launch.gcm1 (l : Launch) : Nat := bits (l.w0 1) 39 3
def Launch.hcnt (l : Launch) : Nat := bits (l.w0 1) 48 8
def Launch.gxn (l : Launch) : Nat := bits (l.w0 2) 0 16
def Launch.gyn (l : Launch) : Nat := bits (l.w0 2) 16 16
def Launch.gzn (l : Launch) : Nat := bits (l.w0 2) 32 16
def Launch.gid (l : Launch) : Nat := bits (l.w0 2) 48 16
def Launch.htab (l : Launch) : Nat := bits (l.w0 3) 0 57
def Launch.svh (l : Launch) : Nat := bits (l.w0 4) 0 57
def Launch.reent (l : Launch) : Nat := bits (l.w0 5) 0 57
def Launch.kinit (l : Launch) : Nat := bits (l.w0 6) 0 57
def Launch.ctr (l : Launch) : Nat := bits (l.w0 7) 0 57
/-- A node: a restartable launch that is still restartable (R412). -/
def Launch.node (l : Launch) : Bool := l.rsb && l.rst
/-- The stashes of its workgroups run in staged mode (R116). -/
def Launch.staged (l : Launch) : Bool := l.rsb
def Launch.rect (l : Launch) : List Nat := rectCores l.rx l.ry l.w l.h
def Launch.inRect (l : Launch) (c : Nat) : Bool :=
  decide (l.rx ≤ coreX c ∧ coreX c < l.rx + l.w ∧ l.ry ≤ coreY c ∧ coreY c < l.ry + l.h)

/-- The first packet index of a line (R69, R262). -/
def linePacket (va : Nat) : DWord := BitVec.ofNat 64 (va / 128 * 10)

/-! ## The context of a word -/

/-- What a word reads: its lane group, workgroup and launch, and the lane group and `k` registers as they stood before the
packet (R70). -/
structure Ctx where
  g : Nat
  lg : Lg
  wg : Wg
  la : Launch
  sn : Lg
  k : Tab DWord
  ow : Tab Nat

def State.ctx? (s : State) : Option Ctx :=
  match s.lgs.find s.cur with
  | none => none
  | some lg =>
    match s.wgs.find lg.wg with
    | none => none
    | some wg =>
      match s.launches.find wg.launch with
      | none => none
      | some la =>
        match s.pk.before with
        | none => some ⟨s.cur, lg, wg, la, lg, wg.k, s.pk.owners.getD wg.kown⟩
        | some (sn, k) => some ⟨s.cur, lg, wg, la, sn, k, s.pk.owners.getD wg.kown⟩

def Ctx.em (c : Ctx) : Word := c.sn.em
def Ctx.v (c : Ctx) (r lane : Nat) : Word := Tab.getD c.sn.v 0 (32 * r + lane)
def Ctx.q (c : Ctx) (n : Nat) : Word := Tab.getD c.sn.q 0 n
/-- A `k` register as this lane group sees it (R64). -/
def Ctx.kr (c : Ctx) (n : Nat) : DWord :=
  match Tab.find c.sn.kv n with
  | some (x :: _) => x
  | _ => Tab.getD c.k 0 n
def Ctx.cnt (c : Ctx) (n : Nat) : Word := Tab.getD c.lg.c 0 n
/-- The active lanes, ascending. -/
def Ctx.lanes (c : Ctx) : List Nat := lanesOf c.em
/-- The executing lane of a command (R363): the lowest active lane, or lane 0. -/
def Ctx.exLane (c : Ctx) : Nat := (c.lanes.head?).getD 0
/-- The mask of the executing lane. -/
def Ctx.exMask (c : Ctx) : Word := 1#32 <<< c.exLane
/-- The lanes that `fm` names when a word of a major raises `illegal` for its fields (R413): the executing lane for major 14
(R363) and for the commands of majors 12 and 13, which have none without an active lane (R178, R338); else `em`. -/
def Ctx.illegalLanes (c : Ctx) (w : Word) : Word :=
  match bits w 27 4 with
  | 14 => c.exMask
  | 13 => c.exMask &&& c.em
  | 12 => c.exMask &&& c.em
  | _ => c.em
/-- The owner of `kN` before the packet (R63, R70): a lane-group number, 32 for none. -/
def Ctx.owner (c : Ctx) (n : Nat) : Nat := Tab.getD c.ow 0 n
/-- Whether the lane group owned `kN` before the packet. -/
def Ctx.owns (c : Ctx) (n : Nat) : Bool := c.owner n == c.lg.lgn
def Ctx.core (c : Ctx) : Nat := c.wg.core
def Ctx.bank (c : Ctx) : Nat := c.wg.bank
def Ctx.vf (c : Ctx) : Nat := c.la.vf
def Ctx.part (c : Ctx) : Nat := c.la.part
def Ctx.handler (c : Ctx) : Bool := c.lg.hnd


/-! ## Writes -/

/-- Writes lanes of a register, and makes their codes good. -/
def Lg.wrV (lg : Lg) (em : Word) (r : Nat) (f : Nat → Word) : Lg :=
  { lg with
    v := (lanesOf em).foldl (fun t i => t.setD 0 (32 * r + i) (f i)) lg.v
    bad := lg.bad.filter fun x => !(x / 32 == r && em.getLsbD (x % 32)) }

/-- Writes a latch: the results of active lanes, zero elsewhere (R61). -/
def Lg.wrL (lg : Lg) (em : Word) (j : Nat) (f : Nat → Word) : Lg :=
  { lg with
    l := (List.range 32).foldl (fun t i => t.setD 0 (32 * j + i) (if em.getLsbD i then f i else 0)) lg.l
    lOk := lg.lOk ||| (1#4 <<< j) }

/-- Writes a 32-bit result to `v[d]`, or with n = 1 to a latch (R61). -/
def Lg.wrRes (lg : Lg) (em : Word) (n : BitVec 1) (d : Nat) (f : Nat → Word) : Lg :=
  if n = 1 then lg.wrL em d f else lg.wrV em d f

/-- Writes the bits of active lanes of a predicate (R65). -/
def Lg.wrQ (lg : Lg) (em : Word) (n : Nat) (w : Word) : Lg :=
  { lg with q := lg.q.setD 0 n ((Tab.getD lg.q 0 n &&& ~~~em) ||| (w &&& em)) }

/-- Writes all 32 bits of a predicate. -/
def Lg.setQ (lg : Lg) (n : Nat) (w : Word) : Lg := { lg with q := lg.q.setD 0 n w }

/-- The mask of an outcome (R364): all ones or zero. -/
def allQ (b : Bool) : Word := if b then 0xFFFFFFFF else 0

/-- Writes 64-bit values into the pair `v[d]`:`v[d+1]` of the active lanes. -/
def Lg.wrPair (lg : Lg) (em : Word) (d : Nat) (f : Nat → DWord) : Lg :=
  (lg.wrV em d fun i => (f i).truncate 32).wrV em (d + 1) fun i => (f i >>> 32).truncate 32

/-- Writes a `k` register of a workgroup by its lane group number `by_`: the other lane groups may read the old value until
the writer's next barrier (R64). -/
def State.wrK (s : State) (w n by_ : Nat) (x : DWord) : State :=
  match s.wgs.find w with
  | none => s
  | some wg =>
    let old := Tab.getD wg.k 0 n
    let s := { s with lgs := s.lgs.map fun (p : Nat × Lg) =>
      (p.1, if p.2.wg = w ∧ p.2.lgn ≠ by_ ∧ old ≠ x then
            { p.2 with kv := p.2.kv.put n (((p.2.kv.find n).getD []) ++ [old]) } else p.2) }
    s.modWg w fun g => { g with k := g.k.setD 0 n x }

/-- Makes the writes of a `k` register visible to every lane group (R64). -/
def State.showK (s : State) (w n : Nat) : State :=
  { s with lgs := s.lgs.map fun (p : Nat × Lg) => (p.1, if p.2.wg = w then { p.2 with kv := p.2.kv.del n } else p.2) }

/-- Adds to an arrival counter (R68). -/
def State.addCtr (s : State) (g n : Nat) (x : Word) : State :=
  s.modLg g fun l => { l with c := l.c.setD 0 n (Tab.getD l.c 0 n + x) }

/-! ## Lane groups of a workgroup and a launch -/

def State.lgsOf (s : State) (w : Nat) : List (Nat × Lg) := s.lgs.filter fun p => p.2.wg == w
def State.wgsOf (s : State) (l : Nat) : List (Nat × Wg) := s.wgs.filter fun p => p.2.launch == l
def State.wgOf (s : State) (g : Nat) : Nat := ((s.lgs.find g).map (·.wg)).getD 0

/-- Whether a lane group stands inside a hold run that goes on (R157, R256): one that waits in the `waitc` of its last packet has
issued it. -/
def Lg.inRun (l : Lg) : Bool :=
  l.run.isSome && !l.counting && (match l.status with | .ready => true | .held _ => true | _ => false)

/-- Word 0 of a record about a lane group. -/
def Ctx.recHead (c : Ctx) (cause : Cause) (src : Nat) : Nat :=
  Sys2Proof.Machine.recHead cause src c.part c.vf c.core c.wg.slot c.lg.lgn (bhOf c.core)

/-- Word 0 of a record about a launch. -/
def Launch.recHead (l : Launch) (cause : Cause) (src : Nat) : Nat :=
  Sys2Proof.Machine.recHead cause src l.part l.vf 0 0 0 0

/-- Word 1 of a record about a launch: the head value and the queue (R408). -/
def Launch.recWhere (l : Launch) : Nat := l.lnum % 2 ^ 32 + l.queue * 2 ^ 32

/-- A gate refusal's src 7 record (R409, R410): always to the manager ring; to the tenant's unless a `waitc` reports it. -/
def State.gateRec (s : State) (part vf core wgs lgn : Nat) (fpc info : Nat) (tenant : Bool) : State :=
  let r := [recHead .gate 7 part vf core wgs lgn (bhOf core), fpc, info, s.time]
  let s := s.mgrRec r
  if tenant then s.tenantRec vf r else s

/-- The src 7 record of a refused access or command, `seq` its issue number (R408 to R410): the manager's at once, the tenant's kept
while a `waitc` of the lane group may still report the refusal. -/
def State.lateGate (s : State) (part vf core wg lg seq fpc info : Nat) : State :=
  let r := [recHead .gate 7 part vf core (((s.wgs.find wg).map (·.slot)).getD 0) (((s.lgs.find lg).map (·.lgn)).getD 0) (bhOf core),
            fpc, info, s.time]
  let s := s.mgrRec r
  if ((s.lgs.find lg).map fun l => l.status != .ended).getD false then
    s.modLg lg fun l => { l with refusals := l.refusals ++ [(seq, r)] }
  else s.tenantRec vf r

/-! ## Page requests and second-stage waits (R147, R430) -/

/-- Posts a page request; answers its identifier. -/
def State.pageReq (s : State) (vf part va kind pool lvl : Nat) (w : Waiter) : Nat × State :=
  let id := s.preqs.fresh
  (id, { s with preqs := s.preqs.put id ⟨vf, part, va, kind, pool, lvl, s.time, w, false⟩ })

/-- Records a second-stage fault met by an agent that waits for an `S2R` write. -/
def State.s2Wait (s : State) (part ipa : Nat) (w : Waiter) : State := { s with s2w := s.s2w ++ [(part, ipa / 65536, w)] }

/-! ## Becoming ready (R50, R151) -/

/-- Whether a workgroup is off its core. -/
def State.absent (s : State) (w : Nat) : Bool := ((s.wgs.find w).map fun g => g.st == .absent).getD false

/-- A lane group becomes ready; a swapped-out workgroup becomes eligible with it (R151), but for one whose context was discarded
from a shadow bank (R167). -/
def State.makeReady (s : State) (g : Nat) : State :=
  match s.lgs.find g with
  | none => s
  | some l =>
    let s := s.modLg g fun l => { l with status := .ready, parkAt := s.now, aged := false }
    if s.absent l.wg then
      ({ s with nseq := s.nseq + 1 }).modWg l.wg fun w =>
        if w.eligible || w.ousted then w else { w with eligible := true, eligAt := s.nseq }
    else s

/-! ## Stops and traps -/

/-- What a trap records (R413 to R416): `rank` is the cause's place in R7, `replaying` whether the word replays, `commits`
whether the packet's other words commit although it does not (R454). -/
structure Trap where
  cause : Cause
  rank : Nat
  slot : Nat
  run : Bool
  fm : Word
  tva : DWord := 0
  fpc : DWord
  resume : DWord
  pend : Option Pending := none
  replaying : Bool := false
  commits : Bool := false
  ipa : Nat := 0
  table : Bool := false
  acc : Option Nat := none

/-- Marks a launch faulted (R406), keeping the first cause. -/
def State.faultLaunch (s : State) (l : Nat) (c : Cause) : State :=
  s.modLaunch l fun x => { x with faulted := true, faultCause := if x.faulted then x.faultCause else c }

/-- Begins the discard of a node (R412): its lane groups stop at the next packet boundary. -/
def State.discardNode (s : State) (l : Nat) (c : Cause) : State :=
  (s.modLaunch l fun x => { x with discard := some c }).postOnce (.nodeDiscard l)

/-- Stops a lane group (R404): it never issues again, its launch is faulted, a src 0 record is written. -/
def State.stopLg (s : State) (g : Nat) (cause : Cause) : State :=
  match s.lgs.find g with
  | none => s
  | some lg =>
    match s.wgs.find lg.wg with
    | none => s
    | some wg =>
      match s.launches.find wg.launch with
      | none => s
      | some la =>
        let s := s.modLg g fun l => { l with status := .stopped cause }
        let s := s.faultLaunch wg.launch cause
        s.tenantRec la.vf [recHead cause 0 la.part la.vf wg.core wg.slot lg.lgn (bhOf wg.core), lg.fpc.toNat,
          lg.tva.toNat, s.time]

/-- The value of `cr.tcause` (R77). -/
def tcauseOf (c : Cause) (slot : Nat) (run : Bool) : BitVec 11 := BitVec.ofNat 11 (c.code + (slot % 4) * 256 + b2n run * 1024)

/-- The trap record of R413: what `cr.tcause`, `cr.fpc`, `cr.resume`, `fm` and `cr.tva` become. -/
def Lg.record (lg : Lg) (t : Trap) : Lg :=
  { lg with tcause := tcauseOf t.cause t.slot t.run, fpc := t.fpc, resume := t.resume, fm := t.fm,
            tva := t.tva &&& 0x1FFFFFFFFFFFFFF#64, pend := if t.cause = .xlatFt then t.pend else none, run := none, lOk := 0 }

/-- The supervisor entry (R143, R416): the status saved, `em` := `fm`, sup := 1, the lane group at svh. -/
def Lg.enterHandler (lg : Lg) (svh : Nat) (next : Option DWord) (acc : Option Nat) (later : List Nat)
    (at_ : Nat) : Lg :=
  { lg with savedEm := lg.em, em := if lg.fm = 0 then 1 else lg.fm, sup := true, pc := linePacket svh, landing := true,
            replayNext := next, replayAcc := acc, replayLater := later, replay := none, enteredAt := at_ }

/-- A first-touch entry that no handler takes (R143, R415): a page request, and the lane group parks and replays. -/
def State.parkFirstTouch (s : State) (c : Ctx) (t : Trap) (kind : Nat) : State :=
  let p := t.pend.getD ⟨0, 4, 0, t.tva.toNat⟩
  let (rq, s) := s.pageReq c.vf c.part p.va kind p.pool p.lvl (.lg c.g)
  s.modLg c.g fun l => { l with
    status := .parkedPage rq, parkAt := s.now, pc := t.fpc, run := none
    replay := if t.replaying then some ⟨t.slot, t.fm, some l.pc, t.acc, s.pk.later⟩ else none }

/-- A second-stage fault (R430): the lane group parks; a src 8 record; its trap registers stay. -/
def State.parkSecondStage (s : State) (c : Ctx) (t : Trap) : State :=
  let s := s.s2Rec c.part c.vf c.core c.wg.slot c.lg.lgn t.ipa t.tva.toNat t.table false
  let s := s.s2Wait c.part t.ipa (.lg c.g)
  s.modLg c.g fun l => { l with
    status := .parkedS2 t.ipa, parkAt := s.now, pc := t.fpc, run := none
    fm := t.fm
    replay := if t.replaying then some ⟨t.slot, t.fm, some l.pc, t.acc, s.pk.later⟩ else none }

/-- TAKING AN EXCEPTION: a cause raised by a lane group ends in a second-stage park (R430), the discard of a node (R424), a
page request (R143), a stop (R404, R415) or a fault entry (R416). `kind` is the page request's kind. -/
def State.takeTrap (s : State) (c : Ctx) (t : Trap) (kind : Nat := 0) : State :=
  let s := { s with pk := { s.pk with fate := .trapped t.rank t.slot (t.replaying || t.commits) } }
  if t.cause = .xlatS2 then s.parkSecondStage c t
  else if c.la.node && (t.cause = .poison || t.cause = .deferred) then
    (s.modLg c.g fun l => { l.record t with pc := t.fpc }).discardNode c.wg.launch t.cause
  else if c.la.svh = 0 || c.lg.sup then
    if t.cause = .xlatFt then s.parkFirstTouch c t kind
    else (s.modLg c.g fun l => { l.record t with pc := t.fpc }).stopLg c.g t.cause
  else
    let own := t.fpc = s.pk.idx ∧ s.pk.before.isSome
    s.modLg c.g fun l => { (l.record t).enterHandler c.la.svh (if own then some l.pc else none) t.acc
      (if own then s.pk.later else []) s.nseq with pendKind := kind }

/-- A restarting trap of the word in execution (R260, R413): the run restarts at its first packet. -/
def State.restartTrap (s : State) (cause : Cause) (rank : Nat) (fm : Word) (tva : DWord := 0) : Trap :=
  { cause := cause, rank := rank, slot := s.pk.slot, run := s.pk.first ≠ s.pk.idx, fm := fm, tva := tva,
    fpc := s.pk.idx, resume := s.pk.first }

/-- Raises a restarting cause. -/
def State.raiseR (s : State) (c : Ctx) (cause : Cause) (fm : Word) (tva : DWord := 0) : State :=
  s.takeTrap c (s.restartTrap cause cause.rank fm tva)

/-- Raises a restarting cause with `fm` := `em`. -/
def State.raise (s : State) (c : Ctx) (cause : Cause) : State := s.raiseR c cause c.em

/-- Whether the packet in execution lies inside a hold run, not at its first packet (R77). -/
def State.midRun (s : State) : Bool := s.pk.first ≠ s.pk.idx

/-- Raises a reporting cause (R413) for the failed access, command or word in slot `slot` of the packet at `fpc`. -/
def State.raiseReport (s : State) (c : Ctx) (cause : Cause) (fm : Word) (tva fpc resume : DWord)
    (slot : Nat := s.pk.slot) (run : Bool := s.midRun) : State :=
  s.takeTrap c { cause := cause, rank := cause.rank, slot := slot, run := run, fm := fm, tva := tva,
                 fpc := fpc, resume := resume, commits := true }

/-- The word cannot issue yet (R123, R131, R156, R321, R366): its packet is tried again after the next event. -/
def State.holdBack (s : State) (c : Ctx) : State :=
  ({ s with pk := { s.pk with fate := .heldBack } }).modLg c.g fun _ =>
    { c.sn with status := .held s.epoch, pc := s.pk.idx, aged := false, parkAt := s.now }

/-- A visible block of a word that has not executed: the lane group stands before its packet, and takes its turn. -/
def State.blockBack (s : State) (c : Ctx) (b : Block) : State :=
  ({ s with nseq := s.nseq + 1, pk := { s.pk with fate := .heldBack } }).modLg c.g fun _ =>
    { c.sn with status := .blocked b false, pc := s.pk.idx, waited := s.nseq, parkAt := s.now }

/-! ## Words -/

/-- Runs a word for the current lane group: no lane group is `noLaneGroup`; a word that is not well-formed raises
`illegal` (R277); otherwise its effect. -/
def word (i : Instr) (s : State) (f : Ctx → State → State) : Out :=
  match s.ctx? with
  | none => .fault .noLaneGroup
  | some c => .next (if wellFormed i then f c s else s.raiseR c .illegal (c.illegalLanes ((encode i).getD 0)))

/-- A word that reaches memory, translation or fetch: where it meets a line that an engine owns, it waits for the engine (R132). -/
def memWord (i : Instr) (s : State) (f : Ctx → State → State) : Out :=
  word i s fun c s =>
    let t := f c s
    if t.pk.stall && !s.pk.stall then s.holdBack c else t

/-- Changes the current lane group. -/
def State.up (s : State) (c : Ctx) (f : Lg → Lg) : State := s.modLg c.g f

/-- A message in flight is performed: it leaves `pending`; without it, nothing happens. -/
def fire (e : Ev) (s : State) (f : State → State) : Out :=
  .next (if s.pending.contains e then f { s with pending := s.pending.erase e } else s)

/-- An event that its condition enables; otherwise nothing happens. -/
def event (cond : Bool) (s : State) (f : State → State) : Out := .next (if cond then f s else s)

/-- What a step of the device does, unless it meets a line that an engine owns: then it waits, and nothing happens (R132). -/
def State.unlessStalled (s : State) (f : State → State) : State :=
  let t := f s
  if t.pk.stall && !s.pk.stall then s else t

/-- A message in flight that reaches memory, and an event that does. -/
def memFire (e : Ev) (s : State) (f : State → State) : Out :=
  .next (s.unlessStalled fun s => if s.pending.contains e then f { s with pending := s.pending.erase e } else s)
def memEvent (cond : Bool) (s : State) (f : State → State) : Out := .next (if cond then s.unlessStalled f else s)

/-! ## Failures on arrival counters (R321, R338, R424) -/

/-- Notes a failure on a counter for the next `waitc`. -/
def State.noteFail (s : State) (g : Nat) (f : Fail) : State :=
  s.modLg g fun l => { l with fails := l.fails ++ [f] }

/-- The lane group after a `waitc` has reported a failure: a gate refusal so reported leaves no record in the tenant's ring (R409). -/
def Lg.reported (l : Lg) (f : Fail) : Lg :=
  { l with fails := l.fails.erase f
           refusals := if f.cause = .gate then l.refusals.filter fun r => r.1 != f.seq else l.refusals }

/-- Writes a lane group's gate records that no `waitc` has reported to the tenant's ring (R408). -/
def State.flushRefusals (s : State) (vf g : Nat) : State :=
  let rs := ((s.lgs.find g).map (·.refusals)).getD []
  (rs.foldl (fun s r => s.tenantRec vf r.2) s).modLg g fun l => { l with refusals := [] }

/-- Whether some lane of an access is still to be performed; lanes that wait for their replay stand later in program order
(R419). -/
def Access.busy (x : Access) : Bool := x.lanes.any fun p => p.st < 2

/-- Whether a command is an access of R123: `mx.ld`, `mx.drain` and the sampling image commands. -/
def CmdBody.isAccess : CmdBody → Bool
  | .mxLd .. | .mxDrain .. | .saLdc .. | .saLdh .. | .saClmp .. | .saRdc .. | .saRds .. => true
  | _ => false

/-- Whether an access or command stands before the packet in execution in program order: those that words of one packet issue
are not ordered among themselves. -/
def State.earlier (s : State) (seq : Nat) : Bool := decide (seq < s.pk.since.getD s.nseq)

def Access.writes (x : Access) : Bool :=
  match x.kind with | .load => false | .acq => false | .kload => false | _ => true

def Access.isAtomic (x : Access) : Bool := match x.kind with | .atomic _ _ => true | _ => false

/-- Whether every earlier access of the lane group has been performed (R123). -/
def State.quiet (s : State) (g : Nat) : Bool :=
  !(s.accs.any fun p => p.2.lg == g && p.2.busy && s.earlier p.2.seq) &&
    !(s.cmds.any fun p => p.2.lg == g && p.2.body.isAccess && p.2.st != .done && s.earlier p.2.seq)

/-- Whether a command reads memory as loads of its lane group. -/
def CmdBody.reads : CmdBody → Bool
  | .mxLd .. | .saLdc .. | .saLdh .. | .saClmp .. => true
  | _ => false

/-- Whether loads and atomics of a lane group before `seq` are outstanding (R320). -/
def State.loadsOut (s : State) (g seq : Nat) : Bool :=
  (s.accs.any fun p => p.2.lg == g && p.2.busy && (!p.2.writes || p.2.isAtomic) && decide (p.2.seq < seq)) ||
    s.cmds.any fun p => p.2.lg == g && p.2.body.reads && p.2.st != .done && decide (p.2.seq < seq)

/-- Whether an acquire of the lane group holds its later memory, atomic, engine and fabric words (R123): an access that acquires, or
a `fence.acq` that waits for earlier loads. -/
def State.acquiring (s : State) (g : Nat) : Bool :=
  (s.accs.any fun p => p.2.lg == g && p.2.acqr && p.2.busy && s.earlier p.2.seq) ||
    (((s.lgs.find g).bind (·.fence)).map s.earlier).getD false

/-- A word of major 14 that no other rule holds: it waits while an acquire of its lane group is under way (R123, R306). -/
def State.afterAcquire (s : State) (c : Ctx) (k : State → State) : State := if s.acquiring c.g then s.holdBack c else k s

/-- The `fence.acq` of a lane group is performed once the loads before it are: its core's timestamp rises (R320, R130). -/
def State.closeFence (s : State) (g : Nat) : State :=
  match s.lgs.find g with
  | none => s
  | some l =>
    match l.fence with
    | none => s
    | some q =>
      if s.loadsOut g q then s else
      let s := s.modLg g fun l => { l with fence := none }
      match s.wgs.find l.wg with
      | none => s
      | some w => s.raisePts w.core l.boundWts

/-! ## Writes at physical addresses on behalf of a core or engine -/

/-- An atomic add at a home slice with release semantics on behalf of the device (R33, R227, R133): the counter at `pa`. -/
def State.addAt (s : State) (pa x pts : Nat) : Nat × State :=
  let (s, bs, _) := s.devRead pa 8
  s.devWrite pa (natLe 8 ((leNat bs + x) % 2 ^ 64)) pts

/-- The packets' sequential successor is the next valid packet of its line, else packet 0 of the next (R262). -/
def succIn (l : FetchLine) (idx : DWord) : DWord :=
  let p := idx.toNat % 10
  match (List.range 10).find? fun j => p < j && l.isValid j with
  | some j => BitVec.ofNat 64 (idx.toNat / 10 * 10 + j)
  | none => BitVec.ofNat 64 ((idx.toNat / 10 + 1) * 10)

/-! ## The packet begins -/

/-- `cr.parkth` (R148) and `cr.mxchk` (R189) as they stand now: the control registers outside the lane group that a packet can both
read and write. -/
def State.crsNow (s : State) (c : Ctx) : DWord × DWord :=
  (BitVec.ofNat 64 (c.la.parkCnt.toNat + c.la.parkTmo.toNat * 2 ^ 16), (s.core c.core).mxchk)

/-- Keeps what the packet's words read as it stood before the packet (R70, R383): the lane group `sn`, the `k` registers and their
owners, the control registers; and its sequential successor. -/
def State.openPacket (s : State) (c : Ctx) (sn : Lg) (succ : DWord) : State :=
  { s with pk := { s.pk with
    succ := succ, before := some (sn, c.k), owners := some c.wg.kown, crs := some (s.crsNow c) } }

end Sys2Proof.Machine
end

