-- ==== Sys2Proof/Machine/Fabric.lean ====
section
/-! DEFINITION. The fabric: die edges (R8, R467), routes between dies (R233, R437), modules (R234), the packets stored at an adapter,
gates (R16), ways on a die (R209, R210), packets and their flits (R208), permits (R213), arrivals. A message that has reached its agent
waits in `State.pending`. -/

namespace Sys2Proof.Machine

/-- The dies that edge `e` joins (R467). -/
def edgeDies (e : Nat) : Nat × Nat :=
  match e with
  | 0 => (0, 1) | 1 => (0, 2) | 2 => (1, 3) | _ => (2, 3)

/-- The edge between two dies, if they are linked. -/
def edgeOf (a b : Nat) : Option Nat := (List.range 4).find? fun e => edgeDies e = (min a b, max a b)

/-- The neighbour along x and the neighbour along y of a die (R8). -/
def dieX (d : Nat) : Nat := d ^^^ 1
def dieY (d : Nat) : Nat := d ^^^ 2

/-- Whether the edge between two linked dies is up. -/
def State.edgeUp (s : State) (a b : Nat) : Bool := ((edgeOf a b).map fun e => !s.edgesDown.contains e).getD false

/-- The next die on the way from `a` to `b`: X first (R233), or the other way round a down edge (R437). -/
def State.nextDie (s : State) (a b : Nat) : Nat :=
  if a ^^^ b = 3 then (if s.edgeUp a (dieX a) && s.edgeUp (dieX a) b then dieX a else dieY a)
  else if s.edgeUp a b then b
  else if b = dieX a then dieY a else dieX a

/-- Whether no way of up edges joins two dies (R437). -/
def State.cutOff (s : State) (a b : Nat) : Bool :=
  a != b && !(s.edgeUp a b) && !((s.edgeUp a (dieX a)) && (s.edgeUp (dieX a) b || (s.edgeUp (dieX a) (a ^^^ 3) && s.edgeUp (a ^^^ 3) b)))
    && !((s.edgeUp a (dieY a)) && (s.edgeUp (dieY a) b || (s.edgeUp (dieY a) (a ^^^ 3) && s.edgeUp (a ^^^ 3) b)))

/-- The direction of an edge whose receiver lies on `die`: 0 the lower-numbered, 1 the higher-numbered. -/
def edgeDir (e die : Nat) : Nat := if (edgeDies e).1 = die then 0 else 1

def dirKey (e d m : Nat) : Nat := 8 * e + 2 * m + d
def State.ldir (s : State) (e d m : Nat) : LinkDir := Tab.getD s.ldirs {} (dirKey e d m)
def State.setLdir (s : State) (e d m : Nat) (x : LinkDir) : State := { s with ldirs := s.ldirs.setD {} (dirKey e d m) x }
def State.link (s : State) (e m : Nat) : Link := Tab.getD s.links {} (4 * e + m)
def State.setLink (s : State) (e m : Nat) (x : Link) : State := { s with links := s.links.setD {} (4 * e + m) x }

/-- The module that carries a packet on an edge: the packet's own, or the one that replaces it there (R234, R437). -/
def State.moduleOn (s : State) (e m : Nat) : Nat := ((s.link e m).subst).getD m

/-- Whether a bulkhead lets traffic of a partition pass: its own, running, its gate open (R16). -/
def State.gateOpen (s : State) (part bh : Nat) : Bool :=
  s.winBits (oBHC bh) 16 4 == part && s.partEn part && s.bhSt bh == 3 && s.winBits (oBHC bh) 3 1 == 0

/-- Whether the fabric gates let a packet pass between cores of one partition (R16). -/
def State.passes (s : State) (part a b : Nat) : Bool := bhOf a == bhOf b || (s.gateOpen part (bhOf a) && s.gateOpen part (bhOf b))

/-- The nearest of the cores given to a core, ties to the lower y, then the lower x (R35). -/
def nearest (a : Nat) (cs : List Nat) : Option Nat :=
  cs.foldl (fun m c => match m with
    | none => some c
    | some b => if dist c a * 1024 + c < dist b a * 1024 + b then some c else some b) none

/-! ## Ways through the fabric (R209, R210) -/

/-- The slices of a die whose stations a bulkhead holds. -/
def stationsOf (g : Nat) : List Nat := (List.range 16).filter fun i => bhOf (attach (dieOfBh g) i) == g

/-- The station of a core's bulkhead nearest to the core: its slice. -/
def stationOf (core : Nat) : Nat :=
  let g := bhOf core
  let at_ := (nearest core ((stationsOf g).map (attach (dieOfBh g)))).getD core
  ((stationsOf g).find? fun i => attach (dieOfBh g) i == at_).getD 0

/-- The links of the way X first, then Y, from one core to another on a mesh (0 request, 1 reply), by their numbers (R473). -/
def meshLinks (a b msh : Nat) : List Nat :=
  let link := fun x y dir => 0x1000 + 8 * coreAt x y + 4 * msh + dir
  let (ax, ay, bx, by_) := (coreX a, coreY a, coreX b, coreY b)
  (if ax ≤ bx then (List.range (bx - ax)).map fun i => link (ax + i) ay 0 else (List.range (ax - bx)).map fun i => link (ax - i) ay 2) ++
  (if ay ≤ by_ then (List.range (by_ - ay)).map fun i => link bx (ay + i) 1 else (List.range (ay - by_)).map fun i => link bx (ay - i) 3)

/-- The link between the station of a slice and its die's commons. -/
def stationLink (die slice : Nat) : Nat := 0x100 + 16 * die + slice

/-- Whether packets between two cores stay on the mesh: in one bulkhead, or in adjacent ones of one die whose gates pass the
partition's packets (R210). -/
def State.onMesh (s : State) (part a b : Nat) : Bool :=
  bhOf a == bhOf b || (dieOf a == dieOf b && (bhOf a + 1 == bhOf b || bhOf b + 1 == bhOf a) && s.passes part a b)

/-- The link between a slice's station and its die's commons towards the station: R473 numbers both directions alike. -/
def inward (link : Nat) : Nat := 0x2000 + link

/-- The number of R473 of a link. -/
def linkName (link : Nat) : Nat := link % 0x2000

/-- Whether a link is one of the meshes. -/
def meshLink (link : Nat) : Bool := decide (0x1000 ≤ linkName link)

/-- The coordinate of an agent (R234). -/
def Port.at_ : Port → Nat
  | .core c => c
  | .slice d i => attach d i
  | .router d _ => attach d 0
  | .unit d => attach d 0

def Port.die (p : Port) : Nat := dieOf p.at_

/-- The mesh of a channel: 0 request, 1 reply. -/
def Chan.mesh (ch : Chan) : Nat := if ch.pos < 5 then 0 else 1

/-- The links from an agent out to the commons of its die (R210). -/
def Port.outway (p : Port) (msh : Nat) : List Nat :=
  match p with
  | .core c => meshLinks c (attach (dieOf c) (stationOf c)) msh ++ [stationLink (dieOf c) (stationOf c)]
  | .slice d i => [stationLink d i]
  | _ => []

/-- The links from the commons of a die to an agent on it (R210). -/
def Port.inway (p : Port) (msh : Nat) : List Nat :=
  match p with
  | .core c => inward (stationLink (dieOf c) (stationOf c)) :: meshLinks (attach (dieOf c) (stationOf c)) c msh
  | .slice d i => [inward (stationLink d i)]
  | _ => []

/-- The links of the way between two agents of a die: on the mesh alone between cores as `onMesh` says and between a core and a slice whose
station its bulkhead holds, else through the commons (R210). -/
def State.way (s : State) (a b : Port) (msh : Nat) : List Nat :=
  let far := a.outway msh ++ b.inway msh
  match a, b with
  | .core x, .core y => if s.onMesh (s.partOf x) x y then meshLinks x y msh else far
  | .core x, .slice d i => if bhOf (attach d i) = bhOf x then meshLinks x (attach d i) msh else far
  | .slice d i, .core y => if bhOf (attach d i) = bhOf y then meshLinks (attach d i) y msh else far
  | _, _ => far

/-! ## Permits (R213) -/

/-- The oldest flit of a link's receive buffer leaves it: the receiver returns its permit. -/
def State.freeFlit (s : State) (link : Nat) (ch : Chan) : State :=
  let p := s.permit link ch.pos
  s.setPermit link ch.pos ⟨p.held + 1, p.buf.tail⟩

/-- A flit of a packet takes a permit and crosses a link. -/
def State.crossFlit (s : State) (link : Nat) (ch : Chan) (id : Nat) : State :=
  let p := s.permit link ch.pos
  s.setPermit link ch.pos ⟨p.held - 1, p.buf ++ [id]⟩

/-! ## Packets (R208, R210, R218) -/

/-- The flits of a packet: its header, and its data in flits of 16 bytes on the request mesh and of 64 on the reply mesh; the header stands
for 16 of its bytes. -/
def flitsOf (ch : Chan) (bytes : Nat) : Nat := 1 + ceilDiv (bytes - 16) (if ch.mesh = 0 then 16 else 64)

/-- Adds a way, from a place on, to the links of a packet, which share what ways have in common (R218): the place where it ends. -/
def addWay : List Nat → Option Nat → List Hop → Option Nat × List Hop
  | [], a, hs => (a, hs)
  | l :: r, a, hs =>
    match hs.findIdx? fun h => h.link == l && h.after == a with
    | some i => addWay r (some i) hs
    | none => addWay r (some hs.length) (hs ++ [{ link := l, after := a }])

/-- The links of a packet that takes each of the ways given, and causes an event at the end of each. -/
def treeOf (ws : List (List Nat × Ev)) : List Hop :=
  ws.foldl (fun hs w =>
    match addWay w.1 none hs with
    | (some i, hs) => hs.mapIdx fun j h => if j = i then { h with exits := h.exits ++ [w.2] } else h
    | (none, hs) => hs) []

/-- How many flits have left a place: the source, or the receive buffer of a link. -/
def NetPacket.leftAt (p : NetPacket) : Option Nat → Nat
  | none => p.left
  | some i => ((p.hops[i]?).map (·.left)).getD 0

/-- The links that flits take next from a place: one copy on each (R218). -/
def NetPacket.nexts (p : NetPacket) (a : Option Nat) : List Nat := (p.hops.filter fun h => h.after == a).map (·.link)

/-- A flit has left a place. -/
def NetPacket.advance (p : NetPacket) : Option Nat → NetPacket
  | none => { p with left := p.left + 1 }
  | some i => { p with hops := p.hops.mapIdx fun j h => if j = i then { h with left := h.left + 1 } else h }

/-- Whether some flits of a packet have crossed a link and others have not. -/
def NetPacket.crossing (p : NetPacket) (link : Nat) : Bool :=
  p.hops.any fun h => h.link == link && decide (0 < p.leftAt h.after ∧ p.leftAt h.after < p.flits)

/-- Whether every flit has left every place. -/
def NetPacket.done (p : NetPacket) : Bool := p.left == p.flits && p.hops.all fun h => h.left == p.flits

/-- Whether a place lies on a core's side of the stations, so that a flit on it needs its bulkhead. -/
def NetPacket.inside (p : NetPacket) : Option Nat → Bool
  | none => (match p.src with | .core _ => true | _ => false)
  | some i => ((p.hops[i]?).map fun h => meshLink h.link).getD false

/-- Whether bulkheads let the flits of a packet go from a place over links, or to its end: the ports between a station and the routers of a
bulkhead are open while that bulkhead runs (R209), its meshes work while it runs or drains. -/
def State.portsLet (s : State) (p : NetPacket) (a : Option Nat) : Bool :=
  let outs := (p.nexts a).map meshLink
  let outs := if outs.isEmpty then [match p.dst with | .core _ => p.onward.isNone | _ => false] else outs
  let now := p.inside a
  let core := match p.src, p.dst with
    | .core x, .core y => if now then x else y
    | .core x, _ => x
    | _, .core y => y
    | _, _ => 0
  (outs.all fun o => o == now || s.bhSt (bhOf core) == 3) &&
    (p.nexts a).all (fun l => !meshLink l ||
      (let c := linkName l % 0x1000 / 8
       let d := match linkName l % 4 with | 0 => c + 1 | 1 => c + 24 | 2 => c - 1 | _ => c - 24
       [c, d].all fun x => s.bhSt (bhOf x) == 3 || s.bhSt (bhOf x) == 4)) &&
    (!now || (let st := s.bhSt (bhOf core); st == 3 || st == 4))

/-- Whether a link can take a flit of a packet: its sender holds a permit of the channel, and no other packet is crossing it (log entry 71). -/
def State.linkTakes (s : State) (id : Nat) (ch : Chan) (link : Nat) : Bool :=
  decide (0 < (s.permit link ch.pos).held) && !(s.packs.any fun q => q.1 != id && q.2.ch == ch && q.2.crossing link)

/-- Whether an earlier packet of the source must leave it first: of the same channel on one of the same links, or to the same agent on
another way (R212). -/
def State.behind (s : State) (id : Nat) (p : NetPacket) : Bool :=
  s.packs.any fun q => decide (q.1 < id) && q.2.ch == p.ch && q.2.src == p.src &&
    ((decide (q.2.left < q.2.flits) && (q.2.nexts none).any (p.nexts none).contains) ||
      (q.2.dst == p.dst && q.2.hops.map (·.link) != p.hops.map (·.link)))

/-- Whether an agent takes the flits of a message from its last link: an inbound queue with a free entry, a ghost inbox with room (R214), a
router that does not hold fragments back (R225). -/
def State.takes (s : State) (e : Ev) : Bool :=
  match e with
  | .amArrive m =>
    ((s.msgs.find m).map fun x => decide ((s.core x.dst).inq.length + (s.pending.countP fun e => match e with
      | .amArrive j => ((s.msgs.find j).map fun y => y.dst == x.dst).getD false
      | _ => false) < 32)).getD true
  | .ghostUpdate c _ => decide ((s.core c).ghin.length < 256)
  | .fragmentArrive cmd f =>
    !(s.frags.any fun p => p.2.cmd == cmd && p.2.f == f && p.2.place == .sent && s.frags.any fun q =>
      q.2.place == .heldBack && q.2.die == p.2.die && q.2.router == p.2.router)
  | _ => true

/-- Whether a flit of a packet can leave a place now: it is at the head there, every link that it takes next can take it, and so can the
agents that it reaches. -/
def State.flitReady (s : State) (id : Nat) (p : NetPacket) (a : Option Nat) : Bool :=
  decide (p.leftAt a < p.flits) && s.portsLet p a && (p.nexts a).all (s.linkTakes id p.ch) &&
    match a with
    | none => !s.behind id p
    | some i =>
      match p.hops[i]? with
      | none => false
      | some h => (s.permit h.link p.ch.pos).buf.head? == some id && h.exits.all s.takes

/-! ## Sending and arriving -/

/-- Puts an update into a list behind the updates of its source with lower stamps. -/
def insertUpd (u : GhostUpd) : List GhostUpd → List GhostUpd
  | [] => [u]
  | v :: r => if v.holder = u.holder ∧ v.owner = u.owner ∧ u.stamp < v.stamp then u :: v :: r else v :: insertUpd u r

/-- A message has reached its agent: the event that it causes is under way. A crossing of a command has been made (`State.cross`), a
write-back is with its port. -/
def State.deliver (s : State) (e : Ev) : State :=
  match e with
  | .mcastFan cs ln => cs.foldl (fun s c => s.post (.mcastReplyArrive c ln)) s
  | .ghostUpdate c u => (s.modCore c fun k => { k with ghin := insertUpd u k.ghin }).post (.ghostUpdateArrive c)
  | .crossing c _ => s.modCmd c fun x => { x with out := x.out - 1 }
  | .writeBack _ => s
  | e => s.post e

/-- Stores a packet at the adapter of its next edge (R234). -/
def State.hop (s : State) (die : Nat) (p : LPacket) : State :=
  let nd := s.nextDie die p.dst.die
  match edgeOf die nd with
  | none => s.deliver p.ev
  | some e =>
    let d := edgeDir e nd
    let m := s.moduleOn e p.mod_
    let x := s.ldir e d m
    s.setLdir e d m { x with stored := x.stored ++ [p] }

/-- The ways of a message on its die, each with its event: of a multicast reply to members of a bulkhead, from its exit station to each
(R218). -/
def State.waysTo (s : State) (e : Ev) (way : List Nat) (exit : Port) : List (List Nat × Ev) :=
  match e with
  | .mcastFan cs ln => cs.filterMap fun c => (s.cmds.find c).map fun k => (way ++ meshLinks exit.at_ k.core 1, .mcastReplyArrive c ln)
  | e => [(way, e)]

/-- Puts a packet at its source: what reaches an agent over no link is there at once. -/
def State.inject (s : State) (ch : Chan) (src dst : Port) (bytes : Nat) (ws : List (List Nat × Ev)) (onward : Option LPacket) : State :=
  let s := (ws.filter fun w => w.1.isEmpty).foldl (fun s w => s.deliver w.2) s
  let hs := treeOf ws
  if hs.isEmpty then s
  else { s with nseq := s.nseq + 1
                packs := s.packs.put s.nseq { ch := ch, src := src, dst := dst, flits := flitsOf ch bytes, hops := hs, onward := onward } }

/-- Sends a message from one agent to another: over its die's links, and from there over a die edge to another die. -/
def State.send (s : State) (e : Ev) (a b : Port) (ch : Chan) (bytes : Nat) : State :=
  if a.die = b.die then
    match e, a with
    | .mcastFan _ _, .slice d i =>
      -- a reply leaves at the slice's own station where that is its exit, else over the commons (R218)
      let way := if b.at_ = a.at_ then [] else [stationLink d i, inward (stationLink b.die (stationOf b.at_))]
      s.inject ch a b bytes (s.waysTo e way b) none
    | _, _ => s.inject ch a b bytes [(s.way a b ch.mesh, e)] none
  else
    let p : LPacket := ⟨e, bytes, bytes, ch, a, b, (a.at_ + b.at_ + ch.pos) % 4⟩
    match a.outway ch.mesh with
    | [] => s.hop a.die p
    | w => { s with nseq := s.nseq + 1
                    packs := s.packs.put s.nseq { ch := ch, src := a, dst := b, flits := flitsOf ch bytes, hops := (addWay w none []).2, onward := some p } }

/-- A packet that has crossed its last die edge goes on to its agent. -/
def State.enterDie (s : State) (p : LPacket) : State :=
  let way := match p.ev with
    | .mcastFan _ _ => [inward (stationLink p.dst.die (stationOf p.dst.at_))]
    | _ => p.dst.inway p.ch.mesh
  s.inject p.ch p.src p.dst p.size (s.waysTo p.ev way p.dst) none

/-- A flit of a packet leaves a place (R208, R213): it crosses the links that it takes next, one copy on each; with its last flit there, what
it carries to that place arrives. -/
def State.moveFlit (s : State) (id : Nat) (a : Option Nat) : State :=
  match s.packs.find id with
  | none => s
  | some p =>
    let s := match a.bind fun i => p.hops[i]? with
      | some h => s.freeFlit h.link p.ch
      | none => s
    let s := (p.nexts a).foldl (fun s l => s.crossFlit l p.ch id) s
    let q := p.advance a
    let s := { s with packs := if q.done then s.packs.del id else s.packs.put id q }
    if q.leftAt a ≠ q.flits then s else
    let s := (match a.bind fun i => p.hops[i]? with | some h => h.exits | none => []).foldl (fun (s : State) e => s.deliver e) s
    if (p.nexts a).isEmpty then (match p.onward with | some x => s.hop p.src.die x | none => s) else s

/-- Whether the header of a message can leave its source now (R231): no link is on its way, or the first link takes it. -/
def State.canSend (s : State) (e : Ev) (a b : Port) (ch : Chan) : Bool :=
  let way := if a.die = b.die then s.way a b ch.mesh else a.outway ch.mesh
  if way.isEmpty then s.takes e
  else
    let p : NetPacket := { ch := ch, src := a, dst := b, flits := 1, hops := treeOf [(way, e)] }
    s.flitReady s.nseq p none

/-- Sends a message whose header can leave: its first flit takes the permit of the first link at once. -/
def State.sendNow (s : State) (e : Ev) (a b : Port) (ch : Chan) (bytes : Nat) : State :=
  let id := s.nseq
  let s := s.send e a b ch bytes
  if (s.packs.find id).isSome then s.moveFlit id none else s

/-- The agent that is the home of a line: its slice, or for a host or peer line a port of its die. -/
def State.homePort (s : State) (pa : Nat) : Port :=
  match s.paKind pa with
  | .hbm _ => .slice (s.homeDie pa) (homeSlice pa)
  | .cxl _ => .slice (s.homeDie pa) (homeSlice pa)
  | _ => .unit (s.homeDie pa)

/-- The coordinate of the home of a line (R234). -/
def State.sliceAt (s : State) (pa : Nat) : Nat := (s.homePort pa).at_

/-- The lines that a memory-side cache has written back to a CXL port of another die cross the die links (R251). -/
def State.flushBacks (s : State) : State :=
  s.wbacks.foldl (fun s ln => match s.paKind (128 * ln) with
    | .cxl c => if (s.homePort (128 * ln)).die = c then s else s.send (.writeBack ln) (s.homePort (128 * ln)) (.unit c) .pub 144
    | _ => s) { s with wbacks := [] }

/-! ## Crossings of commands (R234, R251) -/

/-- The lines of pieces, by their addresses, whose homes stand on another die than a core. -/
def State.farLines (s : State) (core : Nat) (lns : List Nat) : List Nat :=
  lns.filter fun ln => (s.homePort (128 * ln)).die != dieOf core

/-- The lines, held by no cache below the cores, whose CXL port stands on another die than their home. -/
def State.portLines (s : State) (lns : List Nat) : List Nat :=
  lns.filter fun ln => !(s.dirOf ln).inL2 && !(s.dirOf ln).inMsc && (match s.paKind (128 * ln) with
    | .cxl c => (s.homePort (128 * ln)).die != c
    | _ => false)

/-- The packets of one leg of a command's way to lines, from agent to agent. -/
def State.cross (s : State) (id leg : Nat) (lns : List Nat) (a b : Nat → Port) (ch : Chan) (bytes : Nat) : State :=
  lns.foldl (fun s ln => s.send (.crossing id ln) (a ln) (b ln) ch bytes)
    (s.modCmd id fun x => { x with leg := leg, out := lns.length })

/-- What a command that reaches lines on other dies does before it acts: from leg `base` on its requests cross, then what the homes read
from a port on another die, then the answers. None once all have crossed. -/
def State.roundTrip (s : State) (id : Nat) (c : Cmd) (lns : List Nat) (base : Nat) (store : Bool) : Option State :=
  let far := s.farLines c.core lns
  let home := fun ln => s.homePort (128 * ln)
  let port := fun ln => match s.paKind (128 * ln) with | .cxl k => Port.unit k | _ => home ln
  let core := fun (_ : Nat) => Port.core c.core
  if c.out ≠ 0 then some s
  else if c.leg ≤ base ∧ !far.isEmpty then some (s.cross id (base + 1) far core home (if store then .pub else .req) (if store then 144 else 24))
  else if c.leg ≤ base + 1 ∧ !store ∧ !(s.portLines lns).isEmpty then some (s.cross id (base + 2) (s.portLines lns) port home .rsp 144)
  else if c.leg ≤ base + 2 ∧ !far.isEmpty then some (s.cross id (base + 3) far home core .rsp (if store then 16 else 144))
  else none

end Sys2Proof.Machine
end

