-- ==== Sys2Proof/Machine/Operands.lean ====
section
/-! DEFINITION. Source operands in every form (R55, R56, R59 to R62, R267, R268), their checks (R7, R421), uniform
operands (R330), and the shapes of words of majors 0 to 5 (R281). -/

namespace Sys2Proof.Machine

/-- A cause that a check finds, with its rank (R7) and the lanes that fail. -/
structure Finding where
  rank : Nat
  cause : Cause
  fm : Word

/-- The best-ranked finding; lanes of findings of that rank are joined (R7, R414). -/
def bestFinding : List Finding → Option Finding
  | [] => none
  | f :: r =>
    match bestFinding r with
    | none => some f
    | some g => if g.rank < f.rank then some g else if f.rank = g.rank then some { f with fm := f.fm ||| g.fm } else some f

/-- Raises the best of the findings as a restarting cause, or goes on. -/
def State.checked (s : State) (c : Ctx) (fs : List Finding) (k : State → State) : State :=
  match bestFinding fs with
  | none => k s
  | some f => s.takeTrap c (s.restartTrap f.cause f.rank f.fm)

/-- The finding for some lanes, none where the mask is empty. -/
def lanesFail (rank : Nat) (cause : Cause) (m : Word) : List Finding := if m = 0 then [] else [⟨rank, cause, m⟩]

/-- A cause found without lanes: `fm` is `em`. -/
def Ctx.finding (c : Ctx) (b : Bool) (cause : Cause) : List Finding := if b then [⟨cause.rank, cause, c.em⟩] else []

/-- An `illegal` found from an operand's value or the machine's state (R7). -/
def Ctx.illegalIf (c : Ctx) (b : Bool) : List Finding := if b then [⟨6, .illegal, c.em⟩] else []

/-! ## Neighbours and indexed registers -/

/-- The lane that `.l` names in lane `i` (R59): none reads 0. -/
def leftLane (edge : BitVec 2) (i : Nat) : Option Nat :=
  if i ≠ 0 then some (i - 1) else if edge = 1 then some 0 else if edge = 2 then some 31 else none

/-- The lane that `.r` names. -/
def rightLane (edge : BitVec 2) (i : Nat) : Option Nat :=
  if i ≠ 31 then some (i + 1) else if edge = 1 then some 31 else if edge = 2 then some 0 else none

def Ctx.idx (c : Ctx) (x : Nat) : IdxReg := Tab.getD c.sn.x {} x
def Ctx.idxOff (c : Ctx) (x lane : Nat) : Nat := (Tab.getD c.sn.xo 0 (32 * x + lane)).toNat
/-- The register that xN reaches in a lane. -/
def Ctx.idxReg (c : Ctx) (x lane : Nat) : Nat := (c.idx x).base.toNat + c.idxOff x lane
/-- Whether an access through xN is valid in a lane (R55). -/
def Ctx.idxOk (c : Ctx) (x lane : Nat) : Bool :=
  decide (c.idxOff x lane < (c.idx x).limit.toNat ∧ c.idxReg x lane < c.sn.alloc)

/-! ## Values -/

/-- The floating constants of specials 12 to 15 for a packing: 0 FP32, 1 BF16, 2 FP16 (R267, R268). -/
def fpConst (pk n : Nat) : Word :=
  match pk, n with
  | 0, 12 => 0x3F000000 | 0, 13 => 0x3F800000 | 0, 14 => 0x40000000 | 0, _ => 0xBF800000
  | 1, 12 => 0x3F003F00 | 1, 13 => 0x3F803F80 | 1, 14 => 0x40004000 | 1, _ => 0xBF80BF80
  | _, 12 => 0x38003800 | _, 13 => 0x3C003C00 | _, 14 => 0x40004000 | _, _ => 0xBC00BC00

/-- The lane values, specials 16 to 31 (R267): grid values read 0 and the count 1 in handler and task lane groups. -/
def Ctx.laneValue (c : Ctx) (n lane : Nat) : Word :=
  let grid := c.wg.kind == .grid
  let x : Nat :=
    match n with
    | 16 => lane
    | 17 => c.lg.lgn
    | 18 => c.wg.slot
    | 19 => c.lg.sc
    | 20 => coreX c.core
    | 21 => coreY c.core
    | 22 => dieOf c.core
    | 23 => bhOf c.core
    | 31 => if grid then c.wg.nlg else 1
    | _ =>
      if !grid then 0 else
      match n with
      | 24 => c.wg.gx
      | 25 => c.wg.gy
      | 26 => c.wg.gz
      | 27 => c.la.gxn
      | 28 => c.la.gyn
      | 29 => c.la.gzn
      | _ => c.wg.gx + c.la.gxn * (c.wg.gy + c.la.gyn * c.wg.gz)
  BitVec.ofNat 32 x

/-- A special operand in a lane (R267). -/
def Ctx.special (c : Ctx) (pk n lane : Nat) : Word :=
  if n < 4 then Tab.getD c.sn.l 0 (32 * n + lane)
  else if n < 8 then c.v (c.idxReg (n - 4) lane) lane
  else if n < 12 then (match n with | 8 => 0 | 9 => 1 | 10 => 2 | _ => 0xFFFFFFFF)
  else if n < 16 then fpConst pk n
  else if n < 32 then c.laneValue n lane
  else (c.kr (n - 32)).truncate 32

/-- A source operand in a lane (R267); `pk` chooses the packing of the constants. -/
def Ctx.src (c : Ctx) (pk : Nat) (a : BitVec 8) (lane : Nat) : Word :=
  let n := a.toNat % 64
  match a.toNat / 64 with
  | 0 => c.v n lane
  | 1 => c.special pk n lane
  | 2 => (match leftLane c.sn.edge lane with | none => 0 | some j => c.v n j)
  | _ => (match rightLane c.sn.edge lane with | none => 0 | some j => c.v n j)

/-! ## Checks -/

/-- The register and lane whose word a source reads in a lane, if it reads one. -/
def Ctx.reads (c : Ctx) (a : BitVec 8) (lane : Nat) : Option (Nat × Nat) :=
  let n := a.toNat % 64
  match a.toNat / 64 with
  | 0 => some (n, lane)
  | 1 => if 4 ≤ n ∧ n < 8 ∧ c.idxOk (n - 4) lane then some (c.idxReg (n - 4) lane, lane) else none
  | 2 => (leftLane c.sn.edge lane).map (n, ·)
  | _ => (rightLane c.sn.edge lane).map (n, ·)

/-- Whether a register's stored word fails its code (R421). -/
def Ctx.badWord (c : Ctx) (p : Nat × Nat) : Bool := c.sn.bad.contains (32 * p.1 + p.2)

/-- The checks of a source, read by lane `i` as lane `at_ i` sees it, for the lanes of `m` (R55, R62, R421). -/
def Ctx.srcAt (c : Ctx) (m : Word) (at_ : Nat → Nat) (a : BitVec 8) : List Finding :=
  let n := a.toNat % 64
  let special := a.toNat / 64 == 1
  (if special && n < 4 && !c.sn.lOk.getLsbD n then [⟨Cause.rank .latch, .latch, c.em⟩] else [])
    ++ (if special && 4 ≤ n && n < 8 then
          lanesFail (Cause.rank .bound) .bound (maskOf ((lanesOf m).filter fun i => !c.idxOk (n - 4) (at_ i))) else [])
    ++ (if c.sn.bad.isEmpty then [] else
          lanesFail 5 .poison (maskOf ((lanesOf m).filter fun i => ((c.reads a (at_ i)).map c.badWord).getD false)))

/-- The checks of a source in the active lanes. -/
def Ctx.srcF (c : Ctx) (a : BitVec 8) : List Finding := c.srcAt c.em id a

/-- The check of a directly named register in the lanes of `m` (R421). -/
def Ctx.regF (c : Ctx) (m : Word) (r : Nat) : List Finding :=
  if c.sn.bad.isEmpty then [] else
  lanesFail 5 .poison (maskOf ((lanesOf m).filter fun i => c.badWord (r, i)))

/-- The old destination or, with n = 1, the latch that a word reads (R266, R287). -/
def Ctx.dst (c : Ctx) (n : BitVec 1) (d lane : Nat) : Word :=
  if n = 1 then Tab.getD c.sn.l 0 (32 * d + lane) else c.v d lane

/-- The checks of that read. -/
def Ctx.dstF (c : Ctx) (n : BitVec 1) (d : Nat) : List Finding :=
  if n = 1 then (if c.sn.lOk.getLsbD d then [] else [⟨Cause.rank .latch, .latch, c.em⟩]) else c.regF c.em d

/-! ## Uniform operands (R330) -/

/-- A uniform source, 64 bits. -/
def Ctx.uni (c : Ctx) (a : BitVec 8) : DWord :=
  let n := a.toNat % 64
  if 32 ≤ n then c.kr (n - 32) else (match n with | 8 => 0 | 9 => 1 | 10 => 2 | _ => 0xFFFFFFFFFFFFFFFF)

/-- The threshold of majors 10's words (R316). -/
def Ctx.threshold (c : Ctx) (a i : BitVec 8) : Word :=
  if a = 0 then i.setWidth 32 else (c.kr (a.toNat % 32)).truncate 32

/-! ## Words of majors 0 to 5 (R281) -/

/-- A word that computes a lane result after its checks. -/
def laneWord (i : Instr) (s : State) (n : BitVec 1) (d : Nat) (chk : Ctx → List Finding) (f : Ctx → Nat → Word) : Out :=
  word i s fun c s => s.checked c (chk c) fun s => s.up c fun l => l.wrRes c.em n d (f c)

/-- A binary word. -/
def binWord (i : Instr) (s : State) (n : BitVec 1) (d : BitVec 6) (a b : BitVec 8) (f : Word → Word → Word) : Out :=
  laneWord i s n d.toNat (fun c => c.srcF a ++ c.srcF b) fun c j => f (c.src 0 a j) (c.src 0 b j)

/-- A unary word. -/
def unWord (i : Instr) (s : State) (n : BitVec 1) (d : BitVec 6) (a : BitVec 8) (f : Word → Word) : Out :=
  laneWord i s n d.toNat (fun c => c.srcF a) fun c j => f (c.src 0 a j)

end Sys2Proof.Machine
end

