-- ==== Sys2Proof/Machine/Access.lean ====
section
/-! DEFINITION. Accesses of lane groups (R105, R106, R110 to R123, R146, R302, R419): issue, the request at the home slice,
the reply, staged mode and its commit. -/

namespace Sys2Proof.Machine

/-! ## The stash (R114, R116) -/

/-- The map entry of a workgroup that covers an address. -/
def Wg.entryOf (w : Wg) (va : Nat) : Option Nat :=
  (w.maps.find? fun p => decide (p.2.base ≤ va ∧ va < p.2.base + 4096 * p.2.segs)).map (·.1)

def Wg.mapped (w : Wg) (va : Nat) : Bool := (w.entryOf va).isSome

/-- The lines that hold staged words of a workgroup. -/
def Wg.stagedLines (w : Wg) : List Nat := (w.staged.map fun p => p.1 / 128).eraseDups

/-- Staged lines outside the mapped ranges: taken from the core's free segments. -/
def Wg.looseLines (w : Wg) : List Nat :=
  w.stagedLines.filter fun ln => !((w.stash.find ln).map fun c => c.vas.any fun v => w.mapped (128 * v)).getD false

/-- The workgroups whose stash lies on a core. -/
def State.stashWgs (s : State) (core : Nat) : List Wg :=
  s.wgs.vals.filter fun w => w.core == core && w.st != .absent && w.st != .ended

def State.usedSegs (s : State) (core : Nat) : Nat :=
  (s.stashWgs core).foldl (fun n w => w.maps.foldl (fun n p => n + p.2.segs) n) 0

def State.looseCount (s : State) (core : Nat) : Nat := (s.stashWgs core).foldl (fun n w => n + w.looseLines.length) 0

/-- Free stash lines and free segments of a core. -/
def State.freeLines (s : State) (core : Nat) : Nat := 8192 - 32 * s.usedSegs core - s.looseCount core
def State.freeSegs (s : State) (core : Nat) : Nat := 256 - s.usedSegs core - ceilDiv (s.looseCount core) 32

/-- The agent that serves a workgroup's access at an address: its stash or the core's L1. -/
def Wg.agent (w : Wg) (id va : Nat) : Nat := if w.mapped va then 192 + id else w.core

/-- Drops a copy after publishing its owned words. -/
def State.dropCopy (s : State) (a ln : Nat) : State :=
  let s := s.publishFrom ln a
  s.setCopies a ((s.copies a).del ln)

/-! ## Lines at the home slice -/

/-- How the home slice refuses an access by a partition (R18, R433, R435). -/
def State.sliceErr (s : State) (part pa : Nat) (write : Bool) : Cause :=
  if !s.mapOk part pa write then .gate else if s.portLost pa then .deferred else .none

/-- How an access of a core is refused: by the home slice, or because no way of up edges leads there (R437). -/
def State.reachErr (s : State) (core part pa : Nat) (write : Bool) : Cause :=
  let e := s.sliceErr part pa write
  if e = .none && s.cutOff (dieOf core) (s.homePort pa).die then .deferred else e

/-- Whether an owner has been asked to publish a line, or its publish is on its way. -/
def State.asked (s : State) (a ln : Nat) : Bool :=
  s.onWay fun e => match e with
    | .forcedPublishRequest b m => b == a && m == ln
    | .publishArrive b m _ _ _ => b == a && m == ln
    | _ => false

/-- Whether a memory read of a line is under way. -/
def State.reading (s : State) (ln : Nat) : Bool := s.onWay fun e => e == .memoryReadComplete ln

/-- Asks owners to publish (R113), on the SNP channel. -/
def State.ask (s : State) (ln : Nat) (as : List Nat) : State :=
  as.foldl (fun s a => if s.asked a ln then s else
    s.send (.forcedPublishRequest a ln) (s.homePort (128 * ln)) (.core (s.agentCore a)) .snp 16) s

/-- Whether the queue of a line's pseudo-channel has room for a read (R247, R248). -/
def State.memRoom (s : State) (ln : Nat) : Bool :=
  match s.paKind (128 * ln) with
  | .hbm _ => decide ((s.messages.countP fun e => match e with
      | .memoryReadComplete m => hbmStack (128 * m) == hbmStack (128 * ln) && hbmPch (128 * m) == hbmPch (128 * ln)
      | _ => false) < 32)
  | _ => true

/-- Asks memory for a line; what a CXL port answers crosses the die links to a home on another die (R251). -/
def State.askMemory (s : State) (ln : Nat) : State :=
  match s.paKind (128 * ln) with
  | .cxl c => s.send (.memoryReadComplete ln) (.unit c) (s.homePort (128 * ln)) .rsp 144
  | _ => s.post (.memoryReadComplete ln)

/-- Whether a request that needs the words of `owners` published, and the line's data with `data`, can be served or can at
least ask for what it lacks; a line that an engine owns is recalled and waits (R132). -/
def State.canServe (s : State) (ln : Nat) (owners : List Nat) (data : Bool) : Bool :=
  if s.locked ln then false
  else if !owners.isEmpty then owners.any fun a => !s.asked a ln
  else !data || s.present ln || (!s.reading ln && s.memRoom ln)

/-- Asks for what a request lacks; true once nothing is lacking. -/
def State.serve (s : State) (ln : Nat) (owners : List Nat) (data : Bool) : State × Bool :=
  if s.locked ln then (s, false)
  else if !owners.isEmpty then (s.ask ln owners, false)
  else if data && !s.present ln then (if s.reading ln || !s.memRoom ln then s else s.askMemory ln, false)
  else (s, true)

/-! ## The memory that commands of majors 12 and 13 reach (R343, R348, R352) -/

/-- The pieces, none crossing a line, of `n` bytes at a virtual address; addresses wrap at 2^64. -/
def pieces (va n : Nat) : List (Nat × Nat) :=
  (linesOf va n).map fun ln =>
    let lo := max va (128 * ln)
    (lo % 2 ^ 64, min (va + n) (128 * ln + 128) - lo)

/-- Bytes of an element of an output format of `mx.drain` (R186). -/
def ofmtSize (o : Nat) : Nat := match o with | 0 => 4 | 1 => 2 | 2 => 2 | 3 => 4 | _ => 1

/-- The rows of a command: 64 of `n` bytes, `stride` apart. -/
def rowPieces (base stride n : Nat) : List (Nat × Nat) := (List.range 64).flatMap fun r => pieces ((base + r * stride) % 2 ^ 64) n

/-- The pieces of memory that an access command reads or writes, in order. -/
def CmdBody.segs : CmdBody → List (Nat × Nat)
  | .mxLd _ base stride side => if side then pieces base 512 else rowPieces base stride 128
  | .mxDrain _ base stride w => rowPieces base stride (64 * ofmtSize (bits w 32 3))
  | .saLdc base _ cnt => pieces base (128 * cnt)
  | .saLdh base _ cnt => pieces base (4 * cnt)
  | .saClmp base _ cnt => pieces base (cnt / 8)
  | .saRdc base _ cnt => pieces base (2 * cnt)
  | .saRds base _ cnt => pieces base (cnt / 8)
  | _ => []

/-- Whether an access command writes memory. -/
def CmdBody.stores : CmdBody → Bool
  | .mxDrain .. | .saRdc .. | .saRds .. => true
  | _ => false

/-- The physical address and key under which a command translated an address at issue. -/
def Cmd.pa (c : Cmd) (va : Nat) : Option (Nat × Nat) := (c.gran.find (va / 65536)).map fun p => (p.1 + va % 65536, p.2)

/-- The lines that an access command reaches. -/
def Cmd.lines (c : Cmd) : List Nat := (c.body.segs.filterMap fun p => (c.pa p.1).map fun q => q.1 / 128).eraseDups

/-- Whether an earlier access command of the lane group stands before parts of an access (R123, R350). -/
def State.cmdsInWay (s : State) (x : Access) (ps : List LanePart) : Bool :=
  s.cmds.any fun (j, y) => y.lg == x.lg && y.body.isAccess && y.st != .done &&
    (let ls := y.lines; ps.any fun p => decide (j < p.ord) && ls.contains (p.pa / 128))

/-! ## Parts of an access -/

/-- A part by its lane and half (R106). -/
def LanePart.same (p q : LanePart) : Bool := p.lane == q.lane && p.off == q.off

/-- Parts that touch a common 4-byte word. -/
def LanePart.meets (p q : LanePart) (n m : Nat) : Bool :=
  decide (p.pa / 4 ≤ (q.pa + m - 1) / 4 ∧ q.pa / 4 ≤ (p.pa + n - 1) / 4)

/-- The parts of an access at a line that are in state `st`. -/
def Access.at (x : Access) (ln st : Nat) : List LanePart := x.lanes.filter fun p => p.pa / 128 == ln && p.st == st

/-- The parts of an access that its request at a line's home slice stands for: not those of stores held at the core (R112). -/
def Access.sent (x : Access) (ln : Nat) : List LanePart := (x.at ln 0).filter fun p => p.held == 0

/-- The parts that a load request at a line asks for: those of a load, and those of a store that obtains its words (R112). -/
def Access.wants (x : Access) (ln : Nat) : List LanePart := (x.at ln 0).filter fun p => p.held == (if x.writes then 1 else 0)

/-- Whether part `q` was sent before part `p`. -/
def LanePart.sentBefore (q p : LanePart) : Bool := decide (q.sentAt < p.sentAt ∨ (q.sentAt = p.sentAt ∧ q.ord < p.ord))

/-- Whether a part of an access is still to be performed (R122), as far as a later access to the same word is concerned: a
load is performed once its value is bound; what raises the program timestamp (R111, R130), once its reply has landed. -/
def Access.unperformed (x : Access) (p : LanePart) : Bool :=
  if x.kind == .load || x.kind == .kload then p.st == 0 else decide (p.st < 2)

/-- Whether the parts `ps` of access `x` must follow an earlier access of the lane group to the same words (R123). -/
def State.mustFollow (s : State) (x : Access) (ps : List LanePart) : Bool :=
  (s.accs.any fun (_, y) => y.lg == x.lg &&
    y.lanes.any fun q => y.unperformed q && ps.any fun p => decide (q.ord < p.ord) && p.meets q x.size y.size)
  || s.cmdsInWay x ps

/-- Whether a publish of a line by the agent of one of the parts is on its way. -/
def State.publishing (s : State) (ps : List LanePart) (ln : Nat) : Bool :=
  s.onWay fun e => match e with
    | .publishArrive b m _ _ _ => m == ln && ps.any fun p => p.agent == b
    | _ => false

/-- Whether a registration that the core sent to the same slice before the parts `ps` of access `x` is on its way (R112, R212). -/
def State.storesAhead (s : State) (x : Access) (ps : List LanePart) (ln : Nat) : Bool :=
  s.accs.any fun (_, y) => y.core == x.core && y.writes && !y.isAtomic &&
    y.lanes.any fun q => q.st == 0 && q.held == 0 && s.sliceAt q.pa == s.sliceAt (128 * ln) && ps.all q.sentBefore

/-- The words of a part, as offsets in its line. -/
def LanePart.offs (p : LanePart) (n : Nat) : List Nat := (wordsOf p.pa n).map (· % 32)

/-- The bytes of a part in a copy. -/
def CLine.part (c : CLine) (p : LanePart) (n : Nat) : List Byte :=
  (List.range n).map fun i => Tab.getD c.bytes 0 (p.pa % 128 + i)

/-- Marks a line of a stash as reached under a virtual address. -/
def CLine.via (c : CLine) (agent va : Nat) : CLine :=
  if agent < 192 || c.vas.contains (va / 128) then c else { c with vas := (va / 128) :: c.vas }

/-- Writes a store's bytes into a copy: the words become owned and are poisoned no longer where the store covers them. -/
def CLine.merge (c : CLine) (p : LanePart) : CLine :=
  let c := c.putBytes (p.pa % 128) p.data
  let m := maskOf (p.offs p.data.length)
  { c with own := c.own ||| m, pois := if p.data.length < 4 then c.pois else c.pois &&& ~~~m }

/-- Room for one more line in an L1 of 1024 lines (128 KiB, R107): a full one gives a line up, by a free choice, its owned words published
first (log entry 18). -/
def State.roomL1 (s : State) (a ln : Nat) : State :=
  let held := s.copies a
  if 192 ≤ a || held.length < 1024 || (held.find ln).isSome then s
  else
    let (n, s) := s.draw
    match held[Config.pick n % held.length]? with
    | some v => s.dropCopy a v.1
    | none => s

/-- A copy granted at the home slice (R110, R112): the lease, and the line's words that the agent does not own. -/
def State.grant (s : State) (a ln va : Nat) : State :=
  let s := s.roomL1 a ln
  let d := s.dirOf ln
  let c := s.copy a ln
  let fresh := (List.range 32).filter fun i => !bit c.own i
  let c := fresh.foldl (fun (c : CLine) i => c.putBytes (4 * i) (s.bytesAt (128 * ln + 4 * i) 4)) c
  let pm := maskOf (fresh.filter fun i => s.poisAt (32 * ln + i))
  s.setCopy a ln ({ c with leased := true, wts := d.wts, rts := d.rts, pois := (c.pois &&& c.own) ||| pm }.via a va)

/-- An agent becomes the owner of words of a line, given as offsets (R112): the copy of a former owner is discarded. -/
def State.takeWords (s : State) (agent ln : Nat) (offs : List Nat) : State :=
  offs.foldl (fun s i =>
    let old := s.ownerOf (32 * ln + i)
    let s := match old with
      | some a =>
        if a = agent then s
        else
          let c := s.copy a ln
          let m := ~~~(1#32 <<< i)
          s.setCopy a ln { c with own := c.own &&& m, pois := c.pois &&& m, leased := false }
      | none => s
    let d := s.dirOf ln
    s.setDir ln { d with own := d.own.put i agent }) s

/-- An agent obtains the line of words that its copy cannot serve (R110): another owner's words are published, the lease is raised and
the line granted. -/
def State.obtain (s : State) (agent ln va kid : Nat) (offs : List Nat) : State :=
  let c := s.copy agent ln
  let pts := (s.core (s.agentCore agent)).pts
  if offs.all fun o => bit c.own o || (c.leased && decide (pts ≤ c.rts)) then s
  else if s.locked ln then s.stalled
  else
    let s := s.landPublishes ln
    let s := ((s.owners ln).filter fun a => a != agent).foldl (fun s a => s.publishFrom ln a) s
    let s := s.asKey ln kid
    let d := s.dirOf ln
    ((s.setDir ln { d with rts := max d.rts (max (d.wts + 16) (pts + 16)) }).keepL2 ln false).grant agent ln va

/-! ## Counters -/

/-- Counts an access whose every lane has been performed (R122, R146), noting its failure (R424). A counter of 16 stands
for an access that never adds (R146). -/
def State.finishAccess (s : State) (id : Nat) : State :=
  match s.accs.find id with
  | none => s
  | some x =>
    if x.opn || x.busy then s else
    let s := { s with accs := s.accs.del id }
    let s := if x.ctr < 16 then s.addCtr x.lg x.ctr 1 else s
    let bad := x.lanes.filter fun p => p.err != .none
    let c := bestCause (bad.map (·.err))
    if c = .none then s else
    let low := (bad.filter fun p => p.err == c).sortBy fun p q => decide (p.lane ≤ q.lane)
    s.noteFail x.lg ⟨x.seq, x.ctr, c, x.fpc, maskOf (bad.map (·.lane)), BitVec.ofNat 64 ((low.head?.map (·.va)).getD 0), false, x.slot,
      x.inRun⟩

/-! ## Translation of lanes (R105, R140) -/

/-- What translating a lane's address gives. -/
inductive LaneRes where
  | ok (pa kid : Nat)
  | fail (c : Cause) (pend : Option Pending) (ipa : Nat) (table : Bool)
  deriving DecidableEq, Repr

structure LaneAddr where
  lane : Nat
  va : Nat
  res : LaneRes

/-- What a translation gives for an address. -/
def XRes.lane (va : Nat) : XRes → LaneRes
  | .ok e => .ok (e.addr va) e.kid
  | .ft p => .fail .xlatFt (some p) 0 false
  | .bad k => .fail k none 0 false
  | .s2 ipa t => .fail .xlatS2 none ipa t

/-- The address check of R105, for an address that must be a multiple of `align`. -/
def addrCause (align va : Nat) : Cause := if va % align ≠ 0 then .align else if 2 ^ 57 ≤ va then .xlatPerm else .none

/-- The address check of R105 and the translation. -/
def State.laneXlate (s : State) (c : Ctx) (align need lane va : Nat) : State × LaneAddr :=
  if addrCause align va ≠ .none then (s, ⟨lane, va, .fail (addrCause align va) none 0 false⟩)
  else
    let (s, r) := s.xlate c.core c.part c.vf va need
    (s, ⟨lane, va, r.lane va⟩)

/-- What looking up a granule gave at `v0`, for another address of the granule. -/
def State.sameGranule (s : State) (v0 va need : Nat) : XRes → XRes
  | .ok e => s.judge e va need
  | .ft p => .ft { p with va := va }
  | .s2 ipa t => .s2 (if t then ipa else ipa - v0 % 65536 + va % 65536) t
  | .bad k => .bad k

/-- The translations of the lanes: each granule is looked up once, at the lowest lane that touches it (R140). `seen` holds the granules
looked up, with the address at which each was. -/
def State.xlateLanes (s : State) (c : Ctx) (align need : Nat) (seen : Tab (Nat × XRes)) : List (Nat × Nat) → State × List LaneAddr
  | [] => (s, [])
  | (lane, va) :: r =>
    if addrCause align va ≠ .none then
      let (s, as) := s.xlateLanes c align need seen r
      (s, ⟨lane, va, .fail (addrCause align va) none 0 false⟩ :: as)
    else
      match seen.find (va / 65536) with
      | some (v0, x) =>
        let a : LaneAddr := ⟨lane, va, (s.sameGranule v0 va need x).lane va⟩
        let (s, as) := s.xlateLanes c align need seen r
        (s, a :: as)
      | none =>
        let (s, x) := s.xlate c.core c.part c.vf va need
        let (s, as) := s.xlateLanes c align need (seen.put (va / 65536) (va, x)) r
        (s, ⟨lane, va, x.lane va⟩ :: as)

def LaneAddr.cause (a : LaneAddr) : Cause := match a.res with | .ok _ _ => .none | .fail c _ _ _ => c

/-- The replaying trap of a word (R413, R414), if a lane failed. -/
def State.replayTrap (s : State) (as : List LaneAddr) (acc : Option Nat) : Option Trap :=
  let bad := as.filter fun a => a.cause != .none
  let c := bestCause (bad.map LaneAddr.cause)
  match bad.find? fun a => a.cause == c with
  | none => none
  | some a =>
    let (p, ipa, t) := match a.res with | .ok _ _ => (none, 0, false) | .fail _ p ipa t => (p, ipa, t)
    some { cause := c, rank := c.rank, slot := s.pk.slot, run := s.pk.first ≠ s.pk.idx, fm := maskOf (bad.map (·.lane)),
           tva := BitVec.ofNat 64 a.va, fpc := s.pk.idx, resume := s.pk.idx, pend := p, replaying := true, ipa := ipa,
           table := t, acc := acc }

/-! ## Issue (R302) -/

/-- What a word of majors 6 to 8 asks for. -/
structure Req where
  kind : AKind
  ctr : Nat
  d : Nat
  size : Nat
  sext : Bool := false
  acqr : Bool := false
  relr : Bool := false
  need : Nat
  lanes : List Nat
  addr : Nat → Nat
  data : Nat → List Byte := fun _ => []
  cmp : Nat → List Byte := fun _ => []

/-- The replay in progress of the word in execution. -/
def State.replaying (s : State) (c : Ctx) : Option Replay := c.lg.replay.filter fun r => r.slot == s.pk.slot

/-- A workgroup's own staged bytes over the bytes read (R116). -/
def overlay (staged : List Host.Cell) (pa : Nat) (bs : List Byte) : List Byte :=
  (List.range bs.length).map fun i => ((Tab.find staged (pa + i)).getD (bs.getD i 0))

/-- Lists bytes, zero bytes included. -/
def listBytes : List Host.Cell → Nat → List Byte → List Host.Cell
  | t, _, [] => t
  | t, a, b :: r => listBytes (Tab.put t a b) (a + 1) r

/-- The bytes that stores have written into an agent's copy of a line and whose registrations are on their way (R112), by address: of
two stores to one byte the one issued later. -/
def State.stored (s : State) (agent ln : Nat) : List Host.Cell :=
  let qs := s.accs.flatMap fun (_, y) => if y.writes && !y.isAtomic then (y.sent ln).filter fun q => q.agent == agent else []
  (qs.sortBy fun a b => decide (a.ord < b.ord ∨ (a.ord = b.ord ∧ a.lane ≤ b.lane))).foldl (fun t q => listBytes t q.pa q.data) []

/-- The bytes of a load of a workgroup: over those of a copy or the home, what stores of the core wrote into the copy and the
workgroup's own staged words (R112, R116). -/
def State.loaded (s : State) (w agent pa : Nat) (bs : List Byte) : List Byte :=
  overlay (((s.wgs.find w).map (·.staged)).getD []) pa (overlay (s.stored agent (pa / 128)) pa bs)

/-- Binds a load from copies: staged bytes, owned words, leased copies (R110, R116). -/
def State.bindLocal (s : State) (x : Access) (p : LanePart) : Option LanePart :=
  let staged := ((s.wgs.find x.wg).map (·.staged)).getD []
  let c := s.copy p.agent (p.pa / 128)
  let covered := (List.range x.size).all fun i => (Tab.find staged (p.pa + i)).isSome
  let ok := (p.offs x.size).all fun o => bit c.own o || (c.leased && decide ((s.core x.core).pts ≤ c.rts))
  let po := ((s.wgs.find x.wg).map (·.stagedPois)).getD []
  if covered then some { p with data := overlay staged p.pa (c.part p x.size), st := 1
                                err := if (wordsOf p.pa x.size).any po.contains then .poison else .none }
  else if ok then
    some { p with data := s.loaded x.wg p.agent p.pa (c.part p x.size), st := 1, wts := c.wts
                  err := if (p.offs x.size).any (bit c.pois) then .poison else .none }
  else none

/-- Whether a staged store of fewer than 4 bytes meets a poisoned word: its own staged one, or the one at home under it (R423). -/
def State.narrowBad (s : State) (w : Nat) (p : LanePart) : Bool :=
  match s.wgs.find w with
  | none => false
  | some g => decide (p.data.length < 4) && (g.stagedPois.contains (p.pa / 4) ||
      (s.poisAt (p.pa / 4) && !((List.range 4).all fun j => (Tab.find g.staged (p.pa / 4 * 4 + j)).isSome)))

/-- Stages a store (R116): its bytes join the workgroup's staged words; words that it covers are poisoned no longer (R423). -/
def State.stageStore (s : State) (w : Nat) (p : LanePart) : State :=
  let bad := s.narrowBad w p
  s.modWg w fun g => { g with
    staged := listBytes g.staged p.pa p.data
    stagedKids := g.stagedKids.put (p.pa / 128) p.kid
    stagedPois := if p.data.length < 4 then (if bad && !g.stagedPois.contains (p.pa / 4) then (p.pa / 4) :: g.stagedPois else g.stagedPois) else g.stagedPois.filter fun w => !(wordsOf p.pa p.data.length).contains w
    stash := if g.mapped p.va then g.stash.setD {} (p.pa / 128) ((Tab.getD g.stash {} (p.pa / 128)).via 192 p.va)
             else g.stash }

/-- The parts of a core's stores that are not yet registered, with their sizes. -/
def State.unregistered (s : State) (core : Nat) : List (LanePart × Nat) :=
  s.accs.flatMap fun (_, y) => if y.core = core ∧ y.writes ∧ !y.isAtomic then (y.lanes.filter fun q => q.st == 0).map fun q => (q, y.size) else []

/-- How a store's part stands at its core (R112): behind a store that obtains one of its words, itself to obtain its word, or neither.
A word is at hand if the core owns it or has written it by a store whose registration is on its way (log entry 19). -/
def State.heldFor (s : State) (x : Access) (p : LanePart) : Nat :=
  let qs := (s.unregistered x.core).filter fun q => p.meets q.1 x.size q.2
  if qs.any fun q => q.1.held != 0 then 2
  else if x.size < 4 && !((p.offs x.size).all (bit (s.copy p.agent (p.pa / 128)).own)) && !(qs.any fun q => q.1.agent == p.agent) then 1
  else 0

/-- Adds a lane's part to access `id`: binds it where it stands, or leaves it to its home slice. `last` says that no
higher-numbered lane of the instruction writes the same bytes (R106, R419). -/
def State.addPart (s : State) (id : Nat) (staged last : Bool) (p : LanePart) : State :=
  match s.accs.find id with
  | none => s
  | some x =>
    let keep := fun (s : State) (p : LanePart) =>
      s.modAcc id fun y => { y with lanes := (y.lanes.filter fun q => !q.same p) ++ [p] }
    let bound := fun (s : State) => if s.mustFollow x [p] then p else (s.bindLocal x p).getD p
    match x.kind with
    | .load => keep s (bound s)
    | .kload => keep s (bound s)
    | .acq => keep s p
    | .atomic _ _ => keep (if 192 ≤ p.agent then s.dropCopy p.agent (p.pa / 128) else s) p
    | _ =>
      if !last then keep s { p with data := [], st := 1 }
      else if staged && x.kind ≠ .rel then
        keep (s.stageStore x.wg p) { p with st := 1, err := if s.narrowBad x.wg p then .poison else .none }
      else keep s { p with held := s.heldFor x p }

/-- Sends one request of access `id` to the home slice of a line. -/
def State.request (s : State) (id core ln : Nat) (reg : Bool) : State :=
  s.send (if reg then .writeRegistration id ln else .loadRequest id ln) (.core core) (s.homePort (128 * ln)) .req (if reg then 32 else 16)

/-- Sends the requests of an access' unanswered parts, one for each line or for each lane of an atomic, and the replies of
the parts bound where they stand. -/
def State.sendParts (s : State) (id : Nat) (x : Access) (ps : List LanePart) : State :=
  let lines := (ps.map fun p => p.pa / 128).eraseDups
  let s := lines.foldl (fun s ln => if ps.any (fun p => p.pa / 128 == ln && p.st == 1) then s.postOnce (.accessReply id ln)
    else s) s
  let any := fun (ln held : Nat) => ps.any fun p => p.pa / 128 == ln && p.st == 0 && p.held == held
  match x.kind with
  | .atomic _ far => ps.foldl (fun s p =>
      s.send (if far then .farAtomic id p.lane else .nearAtomic id p.lane) (.core x.core) (s.homePort p.pa) .req 32) s
  | _ => lines.foldl (fun s ln =>
      let s := if any ln 0 then s.request id x.core ln x.writes else s
      if any ln 1 then s.request id x.core ln false else s) s

/-- The stores of a core that R112 held and whose words are now at hand send their registrations, in the order of issue. -/
def State.unhold (s : State) (core : Nat) : State :=
  let obt := (s.unregistered core).filter fun q => q.1.held == 1
  let free := fun (y : Access) (q : LanePart) =>
    q.st == 0 && (q.held == 3 || (q.held == 2 && !(obt.any fun r => r.1.meets q r.2 y.size)))
  s.accs.foldl (fun s (id, y) =>
    if y.core ≠ core then s else
    let fs := y.lanes.filter (free y)
    let go := fun (q : LanePart) => if free y q then { q with held := 0, sentAt := s.now } else q
    let s := if fs.isEmpty then s else s.modAcc id fun z => { z with lanes := z.lanes.map go }
    ((fs.map fun q => q.pa / 128).eraseDups).foldl (fun s ln => s.request id core ln true) s) s

/-- The parts of a lane: one, or for 16 bytes its two halves (R106). -/
def Req.parts (r : Req) (p : LanePart) : List LanePart :=
  if r.size = 16 then [{ p with data := p.data.take 8 }, { p with pa := p.pa + 8, va := p.va + 8, data := p.data.drop 8, off := 2 }]
  else [p]

/-- Issues an access after its checks: the lanes without a cause go to the memory system, the others trap (R146, R302). -/
def State.issueReq (s : State) (c : Ctx) (r : Req) : State :=
  if s.acquiring c.g || (r.relr && !s.quiet c.g) then s.holdBack c
  else if r.lanes.isEmpty then s.addCtr c.g r.ctr 1
  else
    let (s, as) := s.xlateLanes c r.size r.need [] (r.lanes.map fun i => (i, r.addr i))
    let old := ((s.replaying c).bind (·.acc)).filter fun a => (s.accs.find a).isSome
    let ord := s.nseq
    let id := old.getD ord
    let bad := as.any fun a => a.cause != .none
    let new : Access :=
      { lg := c.g, wg := c.lg.wg, core := c.core, bank := c.bank, vf := c.vf, part := c.part, kind := r.kind, ctr := r.ctr,
        d := r.d, size := min r.size 8, sext := r.sext, acqr := r.acqr, relr := r.relr, fpc := s.pk.idx, slot := s.pk.slot, inRun := s.midRun, seq := id, lanes := [],
        opn := bad }
    let s : State := { s with nseq := ord + 1, accs := match old with
      | some a => s.accs.modify a fun x => { x with opn := bad }
      | none => s.accs.put id new }
    let ps := as.flatMap fun a =>
      match a.res with
      | .ok pa kid =>
        let agent := c.wg.agent c.lg.wg a.va
        let k := s.copy agent (pa / 128)
        r.parts { lane := a.lane, va := a.va, pa := pa, kid := kid, agent := agent, data := r.data a.lane, cmp := r.cmp a.lane
                  sentAt := s.now, ord := ord, pts := (s.core c.core).pts, hv := if k.leased then some k.wts else none }
      | _ => []
    let before := ((s.accs.find id).map (·.lanes)).getD []
    let s := ps.foldl (fun s p =>
      s.addPart id c.la.staged (!((before ++ ps).any fun q => decide (p.lane < q.lane) && q.pa == p.pa)) p) s
    let s := match s.accs.find id with
      | none => s
      | some x => s.sendParts id x (x.lanes.filter fun p => ps.any p.same)
    match s.replayTrap as (some id) with
    | none => s.finishAccess id
    | some t => s.takeTrap c t (if r.need &&& 2 = 0 then 0 else 1)

/-! ## Commits (R116, R117) -/

/-- Whether an engine owns a line that a commit writes. -/
def State.commitWaits (s : State) (w : Nat) : Bool :=
  match s.wgs.find w with
  | none => false
  | some g => g.stagedLines.any s.locked

/-- Writes one line's staged words at its home slice, with the write timestamp of the commit. -/
def State.commitLine (s : State) (g : Wg) (ts ln : Nat) : State :=
  let cells := g.staged.filter fun p => p.1 / 128 == ln
  let s := match g.stagedKids.find ln with
    | some k => s.asKey ln k
    | none => s
  let s := if s.retiredAt (128 * ln) then s else cells.foldl (fun s p => s.writeBytes p.1 [p.2]) s
  let s := (List.range 32).foldl (fun s i =>
    if (List.range 4).all fun j => (Tab.find cells (128 * ln + 4 * i + j)).isSome then s.setPois (32 * ln + i) false
    else s) s
  let s := (g.stagedPois.filter fun w => w / 32 == ln).foldl (fun s w => s.setPois w true) s
  (s.setDir ln { s.dirOf ln with wts := ts, rts := ts }).keepL2 ln true

/-- Registers and publishes every staged word of a workgroup as one release (R116): one write timestamp, above every lease on its
lines, so that a reader that acquires one of its words has passed the leases on all of them (R125). -/
def State.commitStaged (s : State) (w : Nat) : State :=
  match s.wgs.find w with
  | none => s
  | some g =>
    match s.launches.find g.launch with
    | none => s
    | some la =>
      let bad := fun (s : State) ln => s.sliceErr la.part (128 * ln) true != .none
      let s := (g.stagedLines.filter fun ln => bad s ln && !s.mapOk la.part (128 * ln) true).foldl (fun s ln =>
        s.gateRec la.part la.vf g.core g.slot 0 0 (128 * ln) true) s
      let lines := g.stagedLines.filter fun ln => !bad s ln
      let s := lines.foldl State.publishLine s
      let ts := lines.foldl (fun m ln => max m (s.dirOf ln).rts) (s.core g.core).pts + 1
      let s := lines.foldl (fun s ln => s.commitLine g ts ln) s
      let s := if lines.isEmpty then s else s.raisePts g.core ts
      s.modWg w fun g => { g with staged := [], stagedPois := [], stagedKids := [] }

/-- A forced commit point (R117): the workgroup commits, and a node is restartable no longer. -/
def State.forcedCommit (s : State) (w : Nat) : State :=
  match s.wgs.find w with
  | none => s
  | some g =>
    match s.launches.find g.launch with
    | none => s
    | some la =>
      if !la.rsb then s else
      let s := s.commitStaged w
      if !la.rst then s else
      (s.modLaunch g.launch fun l => { l with rst := false }).tenantRec la.vf
        [la.recHead .none 5, la.recWhere, 0, s.time]

/-- Runs `k` after a forced commit, which waits while an engine owns a line it writes. -/
def State.afterCommit (s : State) (c : Ctx) (k : State → State) : State :=
  if !c.la.staged then k s
  else if s.commitWaits c.lg.wg then s.holdBack c
  else k (s.forcedCommit c.lg.wg)

/-! ## Addresses and data of FM words (R105, R303) -/

/-- The virtual address of a lane. -/
def Ctx.addr (c : Ctx) (kb a scaled lane : Nat) : Nat :=
  ((c.kr kb) + (c.v a lane).signExtend 64 + BitVec.ofNat 64 scaled).toNat

/-- The bytes of `n` registers from `d` in a lane. -/
def Ctx.regBytes (c : Ctx) (d n lane : Nat) : List Byte := (List.range n).flatMap fun r => natLe 4 (c.v (d + r) lane).toNat

end Sys2Proof.Machine
end

