-- ==== Sys2Proof/Machine/Load.lean ====
section
/-! DEFINITION. Loads: major 6 (R303 to R307). -/

namespace Sys2Proof.Machine

/-- An ordinary or acquire load (R305, R306): `acq` performs it at the home slice and holds later accesses. -/
def loadReq (x : Ctx) (acq : Bool) (c : BitVec 4) (d : BitVec 6) (g : BitVec 3) (a : BitVec 6) (scaled size : Nat)
    (sext : Bool) : Req :=
  { kind := if acq then .acq else .load, ctr := c.toNat, d := d.toNat, size := size, sext := sext, acqr := acq, need := 1,
    lanes := x.lanes, addr := x.addr g.toNat a.toNat scaled }

def loadWordI (i : Instr) (s : State) (acq : Bool) (c : BitVec 4) (d : BitVec 6) (g : BitVec 3) (a : BitVec 6)
    (scaled size : Nat) (sext : Bool) : Out :=
  memWord i s fun x s => s.checked x (x.regF x.em a.toNat) fun s =>
    s.issueReq x (loadReq x acq c d g a scaled size sext)

def execLdB8Z (c : BitVec 4) (d : BitVec 6) (g : BitVec 3) (a : BitVec 6) (i : BitVec 5) (s : State) : Out :=
  loadWordI (.ldB8Z c d g a i) s false c d g a i.toNat 1 false
def execLdB8S (c : BitVec 4) (d : BitVec 6) (g : BitVec 3) (a : BitVec 6) (i : BitVec 5) (s : State) : Out :=
  loadWordI (.ldB8S c d g a i) s false c d g a i.toNat 1 true
def execLdB16Z (c : BitVec 4) (d : BitVec 6) (g : BitVec 3) (a : BitVec 6) (i : BitVec 5) (s : State) : Out :=
  loadWordI (.ldB16Z c d g a i) s false c d g a (2 * i.toNat) 2 false
def execLdB16S (c : BitVec 4) (d : BitVec 6) (g : BitVec 3) (a : BitVec 6) (i : BitVec 5) (s : State) : Out :=
  loadWordI (.ldB16S c d g a i) s false c d g a (2 * i.toNat) 2 true
def execLdB32 (c : BitVec 4) (d : BitVec 6) (g : BitVec 3) (a : BitVec 6) (i : BitVec 5) (s : State) : Out :=
  loadWordI (.ldB32 c d g a i) s false c d g a (4 * i.toNat) 4 false
def execLdB64 (c : BitVec 4) (d : BitVec 6) (g : BitVec 3) (a : BitVec 6) (i : BitVec 5) (s : State) : Out :=
  loadWordI (.ldB64 c d g a i) s false c d g a (8 * i.toNat) 8 false
def execLdB128 (c : BitVec 4) (d : BitVec 6) (g : BitVec 3) (a : BitVec 6) (i : BitVec 5) (s : State) : Out :=
  loadWordI (.ldB128 c d g a i) s false c d g a (16 * i.toNat) 16 false
def execLdAcq (c : BitVec 4) (d : BitVec 6) (g : BitVec 3) (a : BitVec 6) (z : BitVec 1) (s : State) : Out :=
  loadWordI (.ldAcq c d g a z) s true c d g a 0 (if z = 0 then 4 else 8) false

/-- The executing lane of a word that executes once, none with `em` = 0 (R307, R309). -/
def Ctx.once (c : Ctx) : List Nat := c.lanes.take 1

/-- `kld` (R307): the issuing lane group must own the register; one access, in the lowest active lane. -/
def execKld (c : BitVec 4) (d : BitVec 5) (g : BitVec 3) (a : BitVec 6) (s : State) : Out :=
  memWord (.kld c d g a) s fun x s =>
    s.checked x (x.regF (maskOf x.once) a.toNat ++
        (if x.em ≠ 0 && !x.owns d.toNat then [⟨Cause.rank .kown, .kown, maskOf x.once⟩] else [])) fun s =>
      s.issueReq x { kind := .kload, ctr := c.toNat, d := d.toNat, size := 8, need := 1, lanes := x.once,
                     addr := x.addr g.toNat a.toNat 0 }

end Sys2Proof.Machine
end

