-- ==== Sys2Proof/Machine/Store.lean ====
section
/-! DEFINITION. Stores and stash instructions: major 7 (R308 to R312, R114 to R117). -/

namespace Sys2Proof.Machine

/-- Whether staging the stores of the lanes at `vas` finds a free stash line for each new line outside the mapped ranges. -/
def Ctx.stageFits (c : Ctx) (s : State) (pas : List (Nat × Nat)) : Bool :=
  let new := (pas.filter fun p => !c.wg.mapped p.1 && !(c.wg.stagedLines.contains (p.2 / 128))).map fun p => p.2 / 128
  decide (new.eraseDups.length ≤ s.freeLines c.core)

/-- Whether the lanes' stores in staged mode must wait for earlier loads of the workgroup to the same words (R123). -/
def State.loadsInWay (s : State) (c : Ctx) (size : Nat) (pas : List (Nat × Nat)) : Bool :=
  s.accs.any fun (_, y) => y.wg == c.lg.wg && !y.writes && y.lanes.any fun q => q.st == 0 &&
    pas.any fun p => decide (p.2 / 4 ≤ (q.pa + y.size - 1) / 4 ∧ q.pa / 4 ≤ (p.2 + size - 1) / 4)

/-- Issues a store: in staged mode it waits for loads in its way, and a store that finds no free stash line reaches a forced
commit point first (R116, R117). -/
def State.issueStore (s : State) (c : Ctx) (r : Req) : State :=
  if !c.la.staged || r.lanes.isEmpty || s.acquiring c.g then s.issueReq c r
  else if r.relr then (if s.quiet c.g then s.afterCommit c fun s => s.issueReq c r else s.holdBack c)
  else
    let (s, as) := s.xlateLanes c r.size r.need [] (r.lanes.map fun i => (i, r.addr i))
    let pas := as.filterMap fun a => match a.res with | .ok pa _ => some (a.va, pa) | _ => none
    if s.loadsInWay c r.size pas then s.holdBack c
    else if c.stageFits s pas then s.issueReq c r
    else s.afterCommit c fun s => s.issueReq c r

/-- A store of `n` registers' bytes, the low `size` of them (R308, R309). -/
def storeWord (i : Instr) (s : State) (rel : Bool) (c : BitVec 4) (d : BitVec 6) (g : BitVec 3) (a : BitVec 6)
    (scaled size : Nat) : Out :=
  memWord i s fun x s =>
    let n := ceilDiv size 4
    s.checked x (x.regF x.em a.toNat ++ (List.range n).flatMap fun r => x.regF x.em (d.toNat + r)) fun s =>
      s.issueStore x { kind := if rel then .rel else .store, ctr := c.toNat, d := d.toNat, size := size, relr := rel, need := 2,
                       lanes := x.lanes, addr := x.addr g.toNat a.toNat scaled,
                       data := fun j => (x.regBytes d.toNat n j).take size }

def execStB8 (c : BitVec 4) (d : BitVec 6) (g : BitVec 3) (a : BitVec 6) (i : BitVec 5) (s : State) : Out :=
  storeWord (.stB8 c d g a i) s false c d g a i.toNat 1
def execStB16 (c : BitVec 4) (d : BitVec 6) (g : BitVec 3) (a : BitVec 6) (i : BitVec 5) (s : State) : Out :=
  storeWord (.stB16 c d g a i) s false c d g a (2 * i.toNat) 2
def execStB32 (c : BitVec 4) (d : BitVec 6) (g : BitVec 3) (a : BitVec 6) (i : BitVec 5) (s : State) : Out :=
  storeWord (.stB32 c d g a i) s false c d g a (4 * i.toNat) 4
def execStB64 (c : BitVec 4) (d : BitVec 6) (g : BitVec 3) (a : BitVec 6) (i : BitVec 5) (s : State) : Out :=
  storeWord (.stB64 c d g a i) s false c d g a (8 * i.toNat) 8
def execStB128 (c : BitVec 4) (d : BitVec 6) (g : BitVec 3) (a : BitVec 6) (i : BitVec 5) (s : State) : Out :=
  storeWord (.stB128 c d g a i) s false c d g a (16 * i.toNat) 16
def execStRel (c : BitVec 4) (d : BitVec 6) (g : BitVec 3) (a : BitVec 6) (z : BitVec 1) (s : State) : Out :=
  storeWord (.stRel c d g a z) s true c d g a 0 (if z = 0 then 4 else 8)

/-- `kst` (R309): an ordinary 8-byte store of a `k` register, in the lowest active lane. -/
def execKst (c : BitVec 4) (d : BitVec 5) (g : BitVec 3) (a : BitVec 6) (s : State) : Out :=
  memWord (.kst c d g a) s fun x s => s.checked x (x.regF (maskOf x.once) a.toNat) fun s =>
    s.issueStore x { kind := .kstore, ctr := c.toNat, d := d.toNat, size := 8, need := 2, lanes := x.once,
                     addr := x.addr g.toNat a.toNat 0, data := fun _ => natLe 8 (x.kr d.toNat).toNat }

/-! ## Stash instructions -/

/-- A stash instruction: held until every earlier access is performed; with `em` = 0 only its counter adds 1; else its
action, and the counter. -/
def stashWord (i : Instr) (s : State) (c : BitVec 4) (chk : Ctx → List Finding) (f : Ctx → State → State) : Out :=
  memWord i s fun x s => s.checked x (if x.em = 0 then [] else chk x) fun s =>
    if s.acquiring x.g || !s.quiet x.g then s.holdBack x
    else if x.em = 0 then s.addCtr x.g c.toNat 1
    else f x s

/-- The stash lines of a workgroup that it reached in the range [lo, hi) of virtual line numbers. -/
def Wg.linesIn (w : Wg) (lo hi : Nat) : List Nat :=
  (w.stash.filter fun p => p.2.vas.any fun v => decide (lo ≤ v ∧ v < hi)).map (·.1)

/-- The lines of an entry. -/
def Wg.entryLines (w : Wg) (e : Nat) : List Nat :=
  match w.maps.find e with
  | none => []
  | some m => w.linesIn (m.base / 128) (m.base / 128 + 32 * m.segs)

/-- Drops a stash line after publishing it; a line of staged words stays (R116, R311). -/
def State.invLine (s : State) (w ln : Nat) : State :=
  match s.wgs.find w with
  | none => s
  | some g =>
    let vas := (s.copy (192 + w) ln).vas
    let s := s.dropCopy (192 + w) ln
    if g.stagedLines.contains ln then s.setCopy (192 + w) ln { vas := vas } else s

/-- Unmaps an entry (R114): its owned words are published, its lines dropped, its segments freed. -/
def State.unmap (s : State) (w e : Nat) : State :=
  match s.wgs.find w with
  | none => s
  | some g => ((g.entryLines e).foldl (fun s ln => s.dropCopy (192 + w) ln) s).modWg w fun g => { g with maps := g.maps.del e }

/-- Whether accesses of the workgroup to an entry's range are outstanding, those of its commands among them (R123, R310). -/
def State.entryBusy (s : State) (w : Nat) (g : Wg) (e : Nat) : Bool :=
  (s.accs.any fun (_, x) => x.wg == w && x.lanes.any fun p => decide (p.st < 2) && g.entryOf p.va == some e) ||
    s.cmds.any fun (_, x) => x.wg == w && x.body.isAccess && x.st != .done && x.body.segs.any fun p => g.entryOf p.1 == some e

/-- Whether a map of entry `e` takes effect (R114). -/
def State.mapFits (s : State) (w : Wg) (e base n : Nat) : Bool :=
  let own := ((w.maps.find e).map (·.segs)).getD 0
  decide (n ≤ s.freeSegs w.core + own) &&
    !(w.maps.any fun p => p.1 != e && decide (p.2.base < base + 4096 * n ∧ base < p.2.base + 4096 * p.2.segs))

/-- `stash.map` (R310, R114). -/
def execStashMap (c : BitVec 4) (p : BitVec 3) (e : BitVec 2) (g : BitVec 3) (a : BitVec 6) (s : State) : Out :=
  stashWord (.stashMap c p e g a) s c
    (fun x =>
      let va := x.addr g.toNat a.toNat 0 x.exLane
      let m := maskOf x.once
      x.regF m a.toNat ++ (if 256 < va % 512 || va / 512 % 8 ≠ 0 then [⟨6, .illegal, m⟩] else []))
    fun x s =>
      let va := x.addr g.toNat a.toNat 0 x.exLane
      let w := x.lg.wg
      if 2 ^ 57 ≤ va then
        match s.replayTrap [⟨x.exLane, va, .fail .xlatPerm none 0 false⟩] none with
        | none => s
        | some t => s.takeTrap x t
      else
        let n := va % 512
        let base := va / 4096 * 4096
        let en := e.toNat
        let fits := s.mapFits x.wg en base n
        if (n = 0 || fits) && s.entryBusy w x.wg en then s.holdBack x
        else
          let s := if n = 0 then s.unmap w en
            else if fits then (s.unmap w en).modWg w fun y => { y with maps := y.maps.put en ⟨base, n⟩ }
            else s
          (s.up x fun l => l.setQ p.toNat (allQ (n = 0 || fits))).addCtr x.g c.toNat 1

/-- The stash lines that the lanes' addresses select (R311). -/
def Ctx.stashLines (x : Ctx) (g : BitVec 3) (a : BitVec 6) : List Nat :=
  (x.lanes.flatMap fun i =>
    let va := x.addr g.toNat a.toNat 0 i
    if x.wg.mapped va then x.wg.linesIn (va / 128) (va / 128 + 1) else []).eraseDups

/-- Acts on the lines that the lanes' addresses select, then the counter adds 1; a lane whose address passes bit 56 raises its cause
instead, and replays (R105, R146). -/
def State.onStashLines (s : State) (x : Ctx) (g : BitVec 3) (a : BitVec 6) (ctr : Nat) (f : State → Nat → State) : State :=
  let s := (x.stashLines g a).foldl f s
  let high := (x.lanes.map fun i => (i, x.addr g.toNat a.toNat 0 i)).filter fun p => decide (2 ^ 57 ≤ p.2)
  match s.replayTrap (high.map fun p => ⟨p.1, p.2, .fail .xlatPerm none 0 false⟩) none with
  | none => s.addCtr x.g ctr 1
  | some t => s.takeTrap x t

def execStashWb (c : BitVec 4) (g : BitVec 3) (a : BitVec 6) (s : State) : Out :=
  stashWord (.stashWb c g a) s c (fun x => x.regF x.em a.toNat) fun x s =>
    s.onStashLines x g a c.toNat fun s ln => s.publishFrom ln (192 + x.lg.wg)

def execStashWbE (c : BitVec 4) (e : BitVec 2) (s : State) : Out :=
  stashWord (.stashWbE c e) s c (fun _ => []) fun x s =>
    ((x.wg.entryLines e.toNat).foldl (fun s ln => s.publishFrom ln (192 + x.lg.wg)) s).addCtr x.g c.toNat 1

def execStashInv (c : BitVec 4) (g : BitVec 3) (a : BitVec 6) (s : State) : Out :=
  stashWord (.stashInv c g a) s c (fun x => x.regF x.em a.toNat) fun x s =>
    s.onStashLines x g a c.toNat fun s ln => s.invLine x.lg.wg ln

def execStashInvE (c : BitVec 4) (e : BitVec 2) (s : State) : Out :=
  stashWord (.stashInvE c e) s c (fun _ => []) fun x s =>
    ((x.wg.entryLines e.toNat).foldl (fun s ln => s.invLine x.lg.wg ln) s).addCtr x.g c.toNat 1

/-- The value of `stash.stg` (R312). -/
def Ctx.stgWord (x : Ctx) (s : State) : Word :=
  BitVec.ofNat 32 (if x.la.staged then x.wg.stagedLines.length % 16384 else 0)
    ||| BitVec.ofNat 32 (s.freeLines x.core % 16384 * 65536)
    ||| BitVec.ofNat 32 (b2n (x.la.staged && x.la.rst) * 2 ^ 31)

def execStashStg (c : BitVec 4) (d : BitVec 6) (s : State) : Out :=
  stashWord (.stashStg c d) s c (fun _ => []) fun x s =>
    (s.up x fun l => l.wrV x.em d.toNat fun _ => x.stgWord s).addCtr x.g c.toNat 1

end Sys2Proof.Machine
end

