-- ==== Sys2Proof/Machine/Life.lean ====
section
/-! DEFINITION. How lane groups, workgroups and claims end (R29, R116, R174, R194, R338, R379, R406). -/

namespace Sys2Proof.Machine

/-- A number that no lane group, workgroup, launch, access or command has had. -/
def State.newId (s : State) : Nat × State := (s.nseq, { s with nseq := s.nseq + 1 })

/-- Watermarks of the task pool (R163): depth-first above 768 records, breadth-first again at 512. -/
def Part.water (p : Part) : Part :=
  { p with depth := if 768 < p.tasks.length then true else if p.tasks.length ≤ 512 then false else p.depth }

/-- Returns a lane group's claimed record to the pool (R379): a remainder as an unclaimed record. -/
def State.taskDone (s : State) (part : Nat) (g : Nat) : State :=
  match (s.lgs.find g).bind (·.task) with
  | none => s
  | some t =>
    let s := s.modLg g fun l => { l with task := none }
    s.modPart part fun p =>
      match p.tasks.find t with
      | none => p
      | some r =>
        Part.water { p with tasks := if r.cur < r.hi then p.tasks.put t { r with holder := none } else p.tasks.del t }

/-- Reports the posted causes of a lane group that no `waitc` reported (R338, R406): src 1 records and a faulted launch. -/
def State.reportUnread (s : State) (g : Nat) : State :=
  match s.lgs.find g with
  | none => s
  | some lg =>
    match s.wgs.find lg.wg with
    | none => s
    | some wg =>
      match s.launches.find wg.launch with
      | none => s
      | some la =>
        let s := (lg.fails.filter (·.posted)).foldl (fun s f =>
          (s.faultLaunch wg.launch f.cause).tenantRec la.vf
            [recHead f.cause 1 la.part la.vf wg.core wg.slot lg.lgn (bhOf wg.core), f.fpc.toNat, f.va.toNat, s.time]) s
        (s.flushRefusals la.vf g).modLg g fun l => { l with fails := [] }

/-- What a superstep of a launch awaits has raised a timestamp: its barrier departs above it (R39, R134). -/
def State.raiseStep (s : State) (l t : Nat) : State := s.modLaunch l fun x => { x with stepPts := max x.stepPts t }

/-- The end of a lane group raises what its launch's superstep awaits, and for a handler that of the launch of the message's sender, whose
superstep awaits it too (R39). -/
def State.raiseSteps (s : State) (w : Wg) (t : Nat) : State :=
  let s := s.raiseStep w.launch t
  match w.kind with
  | .handler m => ((s.msgs.find m).map fun x => s.raiseStep x.launch t).getD s
  | _ => s

/-- Whether the bus transfer that an `mx.ldb` has matched is under way (R184). -/
def State.filling (s : State) (f : Option Nat) : Bool := ((f.bind s.cmds.find).map fun c => c.st == .running).getD false

/-- Withdraws a workgroup's ghost subscriptions at their sources (R194, R196, R200). -/
def State.withdrawSubs (s : State) (wg : Nat) : State :=
  { s with cores := s.cores.map fun (p : Nat × Core) =>
    (p.1, { p.2 with arr := { p.2.arr with exports := p.2.arr.exports.filter fun e => e.owner != wg }
                     evArr := p.2.evArr.map fun q => (q.1, { q.2 with exports := q.2.exports.filter fun e => e.owner != wg }) }) }

/-- The instructions of the matrix queue (R179), and those of an array's queue (R205). -/
def CmdBody.isMx : CmdBody → Bool
  | .mxRel .. | .mxPair .. | .mxRec .. | .mxLd .. | .mxLdb .. | .mxMma .. | .mxPmma .. | .mxZero .. | .mxDrain .. | .mxChk .. => true
  | _ => false
def CmdBody.isSa : CmdBody → Bool
  | .saCfg .. | .saKey .. | .saLdc .. | .saLdh .. | .saClmp .. | .saUncl .. | .saGhost .. | .saSwp .. | .saRdc .. | .saRds .. | .saClr
  | .saMonW .. => true
  | _ => false

/-- Releases what ended workgroups hold of a core's slots and tiles once their queued matrix instructions have completed (R174), and of its
array once their sampling commands have (R194). -/
def State.reap (s : State) (core : Nat) : State :=
  let ended : (CmdBody → Bool) → Option Nat → Bool := fun f o => match o with
    | none => false
    | some w => ((s.wgs.find w).map fun g => g.st == .ended).getD true && !(s.cmds.any fun p => p.2.wg == w && p.2.live && f p.2.body)
  let gone := ended CmdBody.isMx
  let left := ended CmdBody.isSa
  let s := match (s.core core).arr.holder with
    | some w => if left (some w) then s.withdrawSubs w else s
    | none => s
  let s := (((s.core core).evArr.filter fun p => left p.2.holder)).foldl (fun s p => s.withdrawSubs p.1) s
  s.modCore core fun k =>
    { k with
      slots := k.slots.map fun p => (p.1, if gone p.2.claim then { p.2 with claim := none, pair := false } else p.2)
      evSlots := k.evSlots.filter fun p => !gone p.2.claim
      tiles := k.tiles.map fun p => (p.1, if gone p.2.claim then { p.2 with claim := none, pair := false } else p.2)
      arr := if left k.arr.holder then { k.arr with holder := none, st := 0, exports := [] } else k.arr
      evTiles := k.evTiles.filter fun p => !gone p.2.claim
      evArr := k.evArr.filter fun p => !left p.2.holder }

/-- Moves what a workgroup claims of its core to its spill slot (R149, R168): operand slots, tiles, the array context. What stands in
an operand slot or tile stays there, unclaimed. -/
def State.evictWg (s : State) (w : Nat) : State :=
  match s.wgs.find w with
  | none => s
  | some g =>
    s.modCore g.core fun k =>
      let mine := k.slots.filter fun p => p.2.claim == some w
      let tiles := k.tiles.filter fun p => p.2.claim == some w && p.1 / 16 == g.bank
      let k := if k.arr.holder = some w then { k with evArr := k.evArr.put w k.arr, arr := {} } else k
      { k with
        slots := k.slots.map fun p => (p.1, if p.2.claim = some w then { p.2 with claim := none, pair := false } else p.2)
        tiles := k.tiles.map fun p =>
          (p.1, if p.2.claim = some w ∧ p.1 / 16 = g.bank then { p.2 with claim := none, pair := false } else p.2)
        evSlots := mine.foldl (fun t p => t.put (32 * w + p.1) p.2) k.evSlots
        evTiles := tiles.foldl (fun t p => t.put (16 * w + p.1 % 16) p.2) k.evTiles }

/-- The product at the head of a leader's queue reserves the follower's array: no product that reaches the follower's queue later
starts there (R346). -/
def State.mxHead (s : State) (core : Nat) : State :=
  match (s.core core).mxq with
  | [] => s
  | id :: _ =>
    match s.cmds.find id with
    | none => s
    | some c =>
      match c.body with
      | .mxPmma _ _ _ =>
        if (s.core (core + 1)).slaved = none then
          (s.modCmd id fun x => { x with left := s.nseq }).modCore (core + 1) fun k => { k with slaved := some id }
        else s
      | _ => s

/-- Marks a command complete without its effect or with it: the counter adds 1; a cause is posted (R338). -/
def State.endCmd (s : State) (id : Nat) (cause : Cause := .none) (va : DWord := 0) : State :=
  match s.cmds.find id with
  | none => s
  | some c =>
    if c.st = .done then s else
    let s := { s with cmds := s.cmds.del id }
    let s := s.modCore c.core fun k =>
      { k with mxq := k.mxq.erase id, saq := k.saq.erase id, tcq := k.tcq.erase id }
    let s := if (s.core (c.core + 1)).slaved = some id then s.modCore (c.core + 1) fun k => { k with slaved := none } else s
    let s := s.mxHead c.core
    let s := match c.ctr with
      | none => s
      | some n => s.addCtr c.lg n 1
    let s := if cause = .none then s else s.noteFail c.lg ⟨c.seq, c.ctr.getD 16, cause, c.fpc, 1#32 <<< c.lane, va, true, c.slot, c.inRun⟩
    let s := s.raiseStep c.launch (max c.pts (s.core c.core).pts)
    let ended := ((s.lgs.find c.lg).map fun l => l.status == .ended).getD true
    ((if ended then s.reportUnread c.lg else s).reap c.core).closeFence c.lg

/-- The workgroup's matrix loads still armed for a bus transfer are withdrawn at its end, and a bus send that has not started
is cancelled (R344, R370). -/
def State.withdraw (s : State) (w : Nat) : State :=
  s.cmds.foldl (fun s p =>
    if p.2.wg ≠ w then s else
    match p.2.body with
    | .mxLdb _ _ _ _ none => s.endCmd p.1
    | .bus _ _ _ _ _ => if p.2.st = .running then s else s.endCmd p.1 .slot
    | _ => s) s

/-- Unmaps every stash entry of a workgroup and gives its stash up (R114). -/
def State.leaveStash (s : State) (w : Nat) : State :=
  match s.wgs.find w with
  | none => s
  | some g =>
    let s := (g.maps.map (·.1)).foldl (fun s e => s.unmap w e) s
    let s := (((s.wgs.find w).map fun g => g.stash.map (·.1)).getD []).foldl (fun s ln => s.dropCopy (192 + w) ln) s
    s.modWg w fun g => { g with maps := [], stash := [] }

/-- What leaves a core with a workgroup that is spilled (R149, R167): its stash publishes its owned words, its staged words and map
entries stay with it, its claims are evicted, latches and staging slots are lost (R78). -/
def State.spillWg (s : State) (w : Nat) : State :=
  match s.wgs.find w with
  | none => s
  | some g =>
    let s := (g.stash.map (·.1)).foldl (fun s ln => s.dropCopy (192 + w) ln) s
    let kept := g.stash.filter fun p => g.stagedLines.contains p.1
    let s := kept.foldl (fun s p => s.setCopy (192 + w) p.1 { vas := p.2.vas }) s
    let s := { s with lgs := s.lgs.map fun (p : Nat × Lg) =>
      (p.1, if p.2.wg = w then { p.2 with lOk := if p.2.run.isSome then p.2.lOk else 0, staged := [], stagedAt := 0, fetched := none, aged := false } else p.2) }
    (s.evictWg w).modWg w fun x => { x with st := .absent, eligible := false, pts := (s.core g.core).pts }

/-- The end of a workgroup (R29): its staged words are committed (R116), its stash and claims released. -/
def State.endWg (s : State) (w : Nat) : State :=
  match s.wgs.find w with
  | none => s
  | some g =>
    let staged := ((s.launches.find g.launch).map (·.staged)).getD false
    let s := if staged then s.commitStaged w else s
    let s := s.leaveStash w
    let s := s.modWg w fun g => { g with st := .ended }
    (s.withdraw w).reap g.core

/-- Whether every lane group of a workgroup has ended. -/
def State.wgOver (s : State) (w : Nat) : Bool := (s.lgsOf w).all fun p => p.2.status == .ended

/-- The end of a lane group (R29, R328); what it awaits of its workgroup's end, the commit of staged words, has raised the core's timestamp
(R39, R116, R134). -/
def State.endLg (s : State) (g : Nat) : State :=
  match s.lgs.find g with
  | none => s
  | some lg =>
    let part := (((s.wgs.find lg.wg).bind fun w => s.launches.find w.launch).map (·.part)).getD 15
    let s := s.taskDone part g
    let s := s.reportUnread g
    let s := s.modLg g fun l => { l with status := .ended, em := 0, staged := [], stagedAt := 0, run := none, replay := none }
    let s := if s.wgOver lg.wg then s.endWg lg.wg else s
    match s.wgs.find lg.wg with
    | some w => s.raiseSteps w (s.core w.core).pts
    | none => s

end Sys2Proof.Machine
end

