-- ==== Sys2Proof/Machine/EvMem.lean ====
section
/-! DEFINITION. The events of the memory system (R109 to R123, R405, R421 to R428): requests at the home slices, replies,
publishes, evictions, memory reads, sweepers. -/

namespace Sys2Proof.Machine

/-- Answers parts of an access: they are bound, and the reply is on its way to the core. -/
def State.answer (s : State) (id ln : Nat) (x : Access) (ps : List LanePart) (bytes : Nat) : State :=
  let s := s.modAcc id fun y => { y with lanes := y.lanes.map fun q => (ps.find? q.same).getD q }
  s.send (.accessReply id ln) (s.homePort (128 * ln)) (.core x.core) .rsp bytes

/-- Refuses the parts `ps` of an access at its home slice; a gate refusal writes its src 7 record (R410). -/
def State.refuse (s : State) (id ln : Nat) (x : Access) (ps : List LanePart) (e : Cause) : State :=
  let s := if e = .gate then
      s.lateGate x.part x.vf x.core x.wg x.lg x.seq x.fpc.toNat (((ps.head?).map (·.pa)).getD 0)
    else s
  s.answer id ln x (ps.map fun p => { p with st := 1, err := e }) 16

/-- The owners whose words a load of agent `a` needs published: every other owner (R110), or for an acquire every owner. -/
def State.loadOwners (s : State) (x : Access) (ln : Nat) (ps : List LanePart) : List Nat :=
  (s.owners ln).filter fun a => x.kind == .acq || !(ps.all fun p => p.agent == a)

/-- Whether a load request at its home slice has something to do: what the core sent there before it comes first (R112, R212). -/
def State.canLoad (s : State) (id ln : Nat) : Bool :=
  match s.accs.find id with
  | none => true
  | some x =>
    let ps := x.wants ln
    ps.isEmpty || (!s.mustFollow x ps && !s.publishing ps ln && !s.storesAhead x ps ln &&
      (s.sliceErr x.part (128 * ln) false != .none || s.canServe ln (s.loadOwners x ln ps) true))

/-- What a load's part reads: its own agent's owned words, else the home slice; and whether a word is poisoned. -/
def State.readPart (s : State) (p : LanePart) (n ln : Nat) : List Byte × Bool :=
  let c := s.copy p.agent ln
  let mine := fun i => bit c.own i && s.ownerOf (32 * ln + i) == some p.agent
  let bs := (List.range n).map fun i =>
    let o := p.pa % 128 + i
    if mine (o / 4) then Tab.getD c.bytes 0 o else s.byteAt (p.pa + i)
  (bs, (p.offs n).any fun i => if mine i then bit c.pois i else s.poisAt (32 * ln + i))

/-- The parts of a request that its home slice serves now: the two 8-byte halves of a `.b128` access one after the other, in an order
that is a free choice (R106). -/
def State.half (s : State) (ps : List LanePart) : State × List LanePart :=
  if ps.all (·.off == 0) || ps.all (·.off == 2) then (s, ps) else
  let (n, s) := s.draw
  let o := if Config.pick n % 2 = 0 then 0 else 2
  (s, ps.filter fun p => p.off == o)

/-- Whether a request says that the copy its agent still holds is the line as the slice has it: the reply then only renews the lease
(R110 step 3). -/
def State.renews (s : State) (p : LanePart) (ln : Nat) : Bool :=
  let c := s.copy p.agent ln
  c.leased && p.hv == some c.wts && c.wts == (s.dirOf ln).wts

/-- What a load's part takes at its home slice, which then holds its lease: the line, or its own copy renewed. -/
def State.takeLoad (s : State) (x : Access) (ln : Nat) (p : LanePart) : LanePart :=
  let c := s.copy p.agent ln
  let (bs, po) := if x.kind != .acq && s.renews p ln then (c.part p x.size, (p.offs x.size).any (bit c.pois)) else s.readPart p x.size ln
  let po := po || (wordsOf p.pa x.size).any (((s.wgs.find x.wg).map (·.stagedPois)).getD []).contains
  { p with st := 1, data := s.loaded x.wg p.agent p.pa bs, wts := (s.dirOf ln).wts, err := if po then .poison else .none }

/-- The lease that a part's agent holds from now on. -/
def State.lease (s : State) (p : LanePart) (ln : Nat) : State :=
  if s.renews p ln then s.setCopy p.agent ln { s.copy p.agent ln with rts := (s.dirOf ln).rts } else s.grant p.agent ln p.va

/-- LOAD_REQUEST (R110, R112, R306): the home slice answers a load, an acquire load, or a store that obtains the value of a word. -/
def execLoadRequest (acc line : Nat) (s : State) : Out :=
  let e := Ev.loadRequest acc (line / 128)
  let ln := line / 128
  .next <| if !(s.pending.contains e && s.canLoad acc ln) then s else
    let s0 := { s with pending := s.pending.erase e }
    match s.accs.find acc with
    | none => s0
    | some x =>
      let ps := x.wants ln
      if ps.isEmpty then s0 else
      let err := s.sliceErr x.part line false
      if err ≠ .none then s0.refuse acc ln x ps err else
      match s0.serve ln (s0.loadOwners x ln ps) true with
      | (s1, false) => s1.post e
      | (s1, true) =>
        let (s1, now) := s1.half ps
        let s1 := if now.length < ps.length then s1.post e else s1
        let s1 := s1.asKey ln ((ps.head?.map (·.kid)).getD 0)
        let d := s1.dirOf ln
        let pts := now.foldl (fun m p => max m p.pts) 0
        let s1 := if x.kind = .acq then s1 else s1.setDir ln { d with rts := max d.rts (max (d.wts + 16) (pts + 16)) }
        let s1 := s1.keepL2 ln false
        let got := now.map fun p => if x.writes then { p with held := 3 } else s1.takeLoad x ln p
        let bytes := if x.kind != .acq && now.all fun p => s1.renews p ln then 16 else 144
        let s1 := if x.kind = .acq then s1 else now.foldl (fun s p => s.lease p ln) s1
        s1.answer acc ln x got bytes

/-- Foreign owners that a registration must have published: those of a word that a store of fewer than 4 bytes reads. -/
def State.storeOwners (s : State) (x : Access) (ln : Nat) (ps : List LanePart) : List Nat :=
  if 4 ≤ x.size then [] else (s.owners ln).filter fun a => !(ps.all fun p => p.agent == a)

def State.canRegister (s : State) (id ln : Nat) : Bool :=
  match s.accs.find id with
  | none => true
  | some x =>
    let ps := x.sent ln
    ps.isEmpty || (!s.mustFollow x ps && !s.storesAhead x ps ln && !s.publishing ps ln &&
      (s.sliceErr x.part (128 * ln) true != .none || s.canServe ln (s.storeOwners x ln ps) (decide (x.size < 4))))

/-- WRITE_REGISTRATION (R112): the home slice records the ownership of a store's words and assigns the write timestamp. -/
def execWriteRegistration (acc line : Nat) (s : State) : Out :=
  let ln := line / 128
  let e := Ev.writeRegistration acc ln
  .next <| if !(s.pending.contains e && s.canRegister acc ln) then s else
    let s0 := { s with pending := s.pending.erase e }
    match s.accs.find acc with
    | none => s0
    | some x =>
      let ps := x.sent ln
      if ps.isEmpty then s0 else
      let err := s.sliceErr x.part line true
      if err ≠ .none then s0.refuse acc ln x ps err else
      match s0.serve ln (s0.storeOwners x ln ps) (decide (x.size < 4)) with
      | (s1, false) => s1.post e
      | (s1, true) =>
        let (s1, now) := s1.half ps
        let s1 := if now.length < ps.length then s1.post e else s1
        let s1 := s1.asKey ln ((ps.head?.map (·.kid)).getD 0)
        let (ts, s1) := s1.stamp ln (s1.core x.core).pts
        let step := fun (a : State × List LanePart) (p : LanePart) =>
          let s := a.1.roomL1 p.agent ln
          let i := p.pa / 4 % 32
          let c := s.copy p.agent ln
          let mine := bit c.own i && s.ownerOf (32 * ln + i) == some p.agent
          let po := x.size < 4 && (if mine then bit c.pois i else s.poisAt (32 * ln + i))
          let c := if x.size < 4 && !mine then c.putBytes (4 * i) (s.bytesAt (128 * ln + 4 * i) 4) else c
          let c := (c.merge p).via p.agent p.va
          let c := if po then { c with pois := c.pois ||| (1#32 <<< i) } else c
          ((s.setCopy p.agent ln c).takeWords p.agent ln (p.offs x.size),
            a.2 ++ [{ p with st := 1, wts := ts, err := if po then Cause.poison else Cause.none }])
        let (s1, got) := (now.sortBy fun a b => a.lane ≤ b.lane).foldl step (s1, [])
        s1.answer acc ln x got 16

/-- FORCED_PUBLISH_REQUEST (R113): an agent sends its owned words of a line. -/
def execForcedPublishRequest (agent line : Nat) (s : State) : Out :=
  let ln := line / 128
  fire (.forcedPublishRequest agent ln) s fun s =>
    let c := s.copy agent ln
    let pub := s.pubMask agent ln
    (s.givePublish agent ln).send (.publishArrive agent ln (c.cells pub) pub c.pois) (.core (s.agentCore agent))
      (s.homePort line) .pub 144

/-- PUBLISH_ARRIVE (R113): published words reach the home slice. -/
def execPublishArrive (agent line : Nat) (cells : List (Nat × BitVec 8)) (own pois : BitVec 32) (s : State) : Out :=
  fire (.publishArrive agent (line / 128) cells own pois) s fun s => s.takePublish agent (line / 128) cells own pois

/-- L1_EVICTION (R113): a line leaves the L1; its owned words are published. -/
def execL1Eviction (core line : Nat) (s : State) : Out :=
  let ln := line / 128
  event ((Tab.find (s.copies core) ln).isSome && core < 192) s fun s => s.dropCopy core ln

/-- The new value of an atomic (R313): `n` bytes. -/
def AtomOp.new (op : AtomOp) (n old v cmp : Nat) : Nat :=
  let w := 8 * n
  match op with
  | .add => (old + v) % 2 ^ w
  | .fadd => (f32.fadd old v).1
  | .and => old &&& v
  | .or => old ||| v
  | .xor => old ^^^ v
  | .minZ => min old v
  | .maxZ => max old v
  | .minS => if (BitVec.ofNat w v).slt (BitVec.ofNat w old) then v else old
  | .maxS => if (BitVec.ofNat w old).slt (BitVec.ofNat w v) then v else old
  | .exch => v
  | .cas => if old = cmp then v else old

/-- Whether lanes of the atomic at the line that come before a part are still to be performed: lower-numbered ones (R106), and
those that were sent before it when it is a replay (R146). -/
def Access.lowerLanes (x : Access) (p : LanePart) : Bool :=
  x.lanes.any fun q => q.st == 0 && q.pa / 128 == p.pa / 128 &&
    decide (q.ord < p.ord ∨ (q.ord = p.ord ∧ q.lane < p.lane))

/-- Whether an atomic at its home slice has something to do: earlier accesses to its words, lower lanes and what its core sent there
before it come first. -/
def State.canAtomic (s : State) (id lane : Nat) : Bool :=
  match s.accs.find id with
  | none => true
  | some x =>
    match x.lanes.find? fun p => p.lane == lane && p.st == 0 with
    | none => true
    | some p =>
      !s.mustFollow x [p] && !x.lowerLanes p && !s.storesAhead x [p] (p.pa / 128) &&
        (s.sliceErr x.part p.pa true != .none || s.canServe (p.pa / 128) (s.owners (p.pa / 128)) true)

/-- An atomic at its point of execution (R119, R120): every owner publishes, the location is read and written, the write
takes its timestamp; `far` says that the memory-side cache performs it, L2 giving the line up. -/
def State.atomic (s : State) (e : Ev) (id lane : Nat) (far : Bool) : State :=
  if !(s.pending.contains e && s.canAtomic id lane) then s else
  let s0 := { s with pending := s.pending.erase e }
  match s.accs.find id with
  | none => s0
  | some x =>
    match x.lanes.find? fun p => p.lane == lane && p.st == 0 with
    | none => s0
    | some p =>
      let ln := p.pa / 128
      let err := s.sliceErr x.part p.pa true
      if err ≠ .none then s0.refuse id ln x [p] err else
      match s0.serve ln (s0.owners ln) true with
      | (s1, false) => s1.post e
      | (s1, true) =>
        let s1 := s1.asKey ln p.kid
        let (ts, s1) := s1.stamp ln (s1.core x.core).pts
        let s1 := if far then s1.farLine ln else s1.keepL2 ln true
        if s1.anyPois p.pa x.size then s1.answer id ln x [{ p with st := 1, wts := ts, err := .poison }] 16
        else
          let old := leNat (s1.bytesAt p.pa x.size)
          let op := match x.kind with | .atomic op _ => op | _ => .exch
          let s1 := s1.writeBytes p.pa (natLe x.size (op.new x.size old (leNat p.data) (leNat p.cmp)))
          s1.answer id ln x [{ p with st := 1, wts := ts, data := natLe x.size old }] 32

/-- NEAR_ATOMIC (R119): an atomic is performed at its home slice. -/
def execNearAtomic (acc lane : Nat) (s : State) : Out := .next (s.atomic (.nearAtomic acc lane) acc lane false)

/-- FAR_ATOMIC (R119): a far atomic is performed at the memory-side cache. -/
def execFarAtomic (acc lane : Nat) (s : State) : Out := .next (s.atomic (.farAtomic acc lane) acc lane true)

/-! ## Landing (R71, R122, R304) -/

/-- The 32-bit value of a load of fewer than 4 bytes, or of its word `r`. -/
def loadWord (n : Nat) (sext : Bool) (bs : List Byte) (r : Nat) : Word :=
  let v := leNat ((bs.drop (4 * r)).take (min n 4))
  if sext then (BitVec.ofNat (8 * min n 4) v).signExtend 32 else BitVec.ofNat 32 v

/-- Writes a performed lane's destination. -/
def State.landLane (s : State) (x : Access) (p : LanePart) : State :=
  if p.err ≠ .none then s else
  let reg := fun (s : State) =>
    s.modLg x.lg fun l => (List.range (max 1 (x.size / 4))).foldl
      (fun l r => l.wrV (1#32 <<< p.lane) (x.d + p.off + r) fun _ => loadWord x.size x.sext p.data r) l
  match x.kind with
  | .load => reg s
  | .acq => reg s
  | .atomic _ _ => reg s
  | .kload => s.wrK x.wg x.d (((s.lgs.find x.lg).map (·.lgn)).getD 0) (BitVec.ofNat 64 (leNat p.data))
  | _ => s

/-- The parts of the lanes of `ps` that have come whole and without an error: a lane with a poisoned half is not written (R423). -/
def Access.whole (x : Access) (ps : List LanePart) : List LanePart :=
  x.lanes.filter fun p => ps.any (fun q => q.lane == p.lane) &&
    (x.lanes.filter fun q => q.lane == p.lane).all fun q => decide (0 < q.st) && q.err == .none

/-- ACCESS_REPLY (R122): a reply lands: destinations, the core's timestamp (R111, R130), the counter once every lane is
performed. -/
def execAccessReply (acc line : Nat) (s : State) : Out :=
  let ln := line / 128
  fire (.accessReply acc ln) s fun s =>
    match s.accs.find acc with
    | none => s
    | some x =>
      let ps := x.at ln 1
      let s := (x.whole ps).foldl (fun s p => s.landLane x p) s
      let top := ps.foldl (fun m p => max m p.wts) 0
      let s := if x.kind = .load || x.kind = .kload then s else s.raisePts x.core top
      let s := match s.wgs.find x.wg with
        | some w => if x.writes then s.raiseSteps w top else s
        | none => s
      let s := if x.writes && !x.isAtomic then s else s.modLg x.lg fun l => { l with boundWts := max l.boundWts top }
      let s := s.modAcc acc fun y => { y with lanes := y.lanes.map fun q =>
        if q.pa / 128 = ln ∧ q.st = 1 then { q with st := 2 } else q }
      ((s.finishAccess acc).closeFence x.lg).unhold x.core

/-! ## Memory reads and codes (R421 to R428) -/

/-- Counts a corrected error of a frame; at the threshold the frame is suspect (R427). -/
def State.frameError (s : State) (frame : Nat) : State :=
  let n := Tab.getD s.frameCe 0 frame + 1
  let s := { s with frameCe := s.frameCe.setD 0 frame n }
  if max 1 (s.winBits oCET 0 16) ≤ n then s.suspectFrame frame 0 else s

/-- The words of the 64-byte block `b` (0 or 1) of a line. -/
def blockWords (ln b : Nat) : List Nat := (List.range 16).map fun i => 32 * ln + 16 * b + i

/-- MEMORY_READ_COMPLETE (R421, R427): a line arrives from memory into the memory-side cache and L2. `outcome`: 0 clean, 1
corrected, 2 the first, 3 the second 64-byte block uncorrectable or returned with poison. -/
def execMemoryReadComplete (line : Nat) (outcome : BitVec 2) (s : State) : Out :=
  let ln := line / 128
  fire (.memoryReadComplete ln) s fun s =>
    let s := (s.keepMsc ln false).keepL2 ln false
    let cxl := match s.paKind line with | .cxl c => some c | _ => none
    if outcome = 0 then s
    else if outcome = 1 then (if cxl.isSome then s else s.frameError (line / 65536))
    else
      let s := (blockWords ln (outcome.toNat - 2)).foldl (fun s w => s.setPois w true) s
      match cxl with
      | some c => (s.setWinBits (oCXS c) 32 16 (s.winBits (oCXS c) 32 16 + 1)).suspectFrame (line / 65536) 3
      | none => s.suspectFrame (line / 65536) 1

/-- PTS_TICK (R109): a core's program timestamp rises by 1 every 256 cycles. -/
def execPtsTick (core : Nat) (s : State) : Out :=
  event (core < 192 && decide ((s.core core).ticks < s.now / 256)) s fun s =>
    s.modCore core fun k => { k with ticks := k.ticks + 1, pts := k.pts + 1 }

/-- The stash copy of a workgroup on a core that holds a line. -/
def State.stashHolders (s : State) (core ln : Nat) : List Nat :=
  (s.wgs.filter fun p => p.2.core == core && p.2.st != .absent && (p.2.stash.find ln).isSome).map fun p => 192 + p.1

/-- An uncorrectable error in a copy's word: a sole copy is poisoned, a clean one dropped (R421). -/
def State.copyError (s : State) (a ln i : Nat) : State :=
  let c := s.copy a ln
  let staged := ((s.wgs.find (a - 192)).map (·.staged)).getD []
  if 192 ≤ a && ((List.range 4).any fun j => (Tab.find staged (128 * ln + 4 * i + j)).isSome) then
    s.modWg (a - 192) fun g => { g with stagedPois := (32 * ln + i) :: g.stagedPois }
  else if bit c.own i then s.setCopy a ln { c with pois := c.pois ||| (1#32 <<< i) }
  else s.setCopy a ln { c with leased := false }

/-- Counts a corrected error of an L2 slice of a die (R426). -/
def State.countL2 (s : State) (die : Nat) : State := s.setWinBits (oECS die) 16 16 (s.winBits (oECS die) 16 16 + 1)

/-- Counts a corrected error of another level (R421); no register shows this count. -/
def State.countCorrected (s : State) (level : Nat) : State :=
  { s with corrected := s.corrected.setD 0 level (Tab.getD s.corrected 0 level + 1) }

/-- Whether a request names a line at its home slice or in a stash (R425). -/
def State.sliceAsked (s : State) (ln : Nat) : Bool :=
  let lane := fun (a lane : Nat) => ((s.accs.find a).map fun x => x.lanes.any fun p => p.lane == lane && p.pa / 128 == ln).getD false
  s.pending.any fun e => match e with
    | .loadRequest _ l | .writeRegistration _ l | .mcastRequest _ l | .forcedPublishRequest _ l => l == ln
    | .publishArrive _ l _ _ _ => l == ln
    | .nearAtomic a i | .farAtomic a i => lane a i
    | _ => false

/-- An uncorrectable error in an L2 or memory-side line's word: a clean line is refilled, a dirty word is poisoned. -/
def State.sliceError (s : State) (w : Nat) : State :=
  let d := s.dirOf (w / 32)
  let die := s.homeDie (4 * w)
  let s := s.setWinBits (oECS die) 32 16 (s.winBits (oECS die) 32 16 + 1)
  if d.dirty then s.setPois w true else s.setDir (w / 32) { d with inL2 := false }

/-- SWEEPER_READ (R425): a sweeper reads one line. Units 0 to 63 are the slices (16·die + slice), 64 + core the stashes.
`outcome`: 0 clean, 1 corrected, 2 or 3 an uncorrectable error in word 0 of the line's first or second block. What a slice's sweeper
finds uncorrectable makes the line's frame suspect (R427, log entry 72). -/
def execSweeperRead (unit line : Nat) (outcome : BitVec 2) (s : State) : Out :=
  let ln := line / 128
  let word := 16 * (outcome.toNat - 2)
  event (!s.sliceAsked ln && if unit < 64 then (s.dirOf ln).inL2 && s.homeDie line == unit / 16 && homeSlice line == unit % 16
         else !(s.stashHolders (unit - 64) ln).isEmpty) s fun s =>
    if unit < 64 then
      let s := if (s.dirOf ln).strong = s.strongNow (unit / 16) then s
        else s.setDir ln { s.dirOf ln with strong := s.strongNow (unit / 16) }
      if outcome = 0 then s
      else if outcome = 1 then s.countL2 (unit / 16)
      else
        let t := s.sliceError (32 * ln + word)
        match s.paKind line with
        | .hbm _ | .cxl _ => t.suspectFrame (line / 65536) 2
        | _ => t
    else if outcome = 0 then s
    else if outcome = 1 then s.countCorrected 2
    else (s.stashHolders (unit - 64) ln).foldl (fun s a => s.copyError a ln word) s

/-- Whether a part of an access is at its home slice and waits there (R405). -/
def State.sliceWaits (s : State) (acc ln : Nat) : List LanePart :=
  match s.accs.find acc with
  | none => []
  | some x => (x.at ln 0).filter fun p => s.pending.any fun e =>
      match e with
      | .loadRequest a m => a == acc && m == ln && p.held == (if x.writes then 1 else 0)
      | .writeRegistration a m => a == acc && m == ln && p.held == 0
      | .nearAtomic a l => a == acc && l == p.lane
      | .farAtomic a l => a == acc && l == p.lane
      | _ => false

/-- A src 9 record (R408, R473). -/
def State.linkRec (s : State) (c : Cause) (link : Nat) : State := s.mgrRec [recHead c 9 15 0 0 0 0 0, 0, link, s.time]

/-- What a line of a lost expander reads as once its dirty data are discarded: bytes that the device no longer knows. -/
def State.forget (s : State) (ln : Nat) : State :=
  let (k, s) := s.draw
  let bs := (Config.image k).take 128
  s.writeBytes (128 * ln) (bs ++ (s.bytesAt (128 * ln) 128).drop bs.length)

/-- An expander's port is lost (R432, R433): its range is fenced, what the device held of its lines is discarded. -/
def State.cxlLost (s : State) (port : Nat) : State :=
  let mine := fun ln => s.paKind (128 * ln) == .cxl port
  let s := (s.setWinBits (oCXS port) 2 1 1).setWinBits (oCXS port) 16 16 (s.winBits (oCXS port) 16 16 + 1)
  let s := { s with cxlDownAt := s.cxlDownAt.del port, pending := s.pending.filter fun e => match e with
    | .memoryReadComplete ln => !mine ln
    | _ => true }
  let ls := s.dir.filter fun p => mine p.1
  let s := ls.foldl (fun (s : State) p =>
    let s := if p.2.dirty || p.2.mscDirty then s.forget p.1 else s
    s.setDir p.1 { p.2 with inL2 := false, dirty := false, inMsc := false, mscDirty := false }) s
  s.linkRec .link (48 + port)

/-- SLICE_TIMEOUT (R405): a wait at a slice passes 20 µs: the request completes with poison and the deferred flag, the
silent owners' words are released and poisoned, and a src 15 record is written. An expander that has not answered makes its port lost
(R432). -/
def execSliceTimeout (acc line : Nat) (s : State) : Out :=
  let ln := line / 128
  let ps := s.sliceWaits acc ln
  event (!ps.isEmpty && ((s.dirOf ln).lock.isSome || !(s.owners ln).isEmpty || !s.present ln)) s fun s =>
    match s.accs.find acc with
    | none => s
    | some x =>
      let gone := fun e : Ev => match e with
        | .loadRequest a m => a == acc && m == ln
        | .writeRegistration a m => a == acc && m == ln
        | .nearAtomic a l => a == acc && ps.any fun p => p.lane == l
        | .farAtomic a l => a == acc && ps.any fun p => p.lane == l
        | _ => false
      let s := { s with pending := s.pending.filter fun e => !gone e }
      let silent := (s.owners ln).filter fun a => s.asked a ln
      let s := (List.range 32).foldl (fun (s : State) i =>
        match s.ownerOf (32 * ln + i) with
        | some a =>
          if silent.contains a then
            let d := s.dirOf ln
            (s.setDir ln { d with own := d.own.del i }).setPois (32 * ln + i) true
          else s
        | none => s) s
      let s := s.mgrRec [recHead .deferred 15 x.part x.vf x.core (((s.wgs.find x.wg).map (·.slot)).getD 0)
        (((s.lgs.find x.lg).map (·.lgn)).getD 0) (bhOf x.core), 0, line, s.time]
      let s := match s.paKind line with
        | .cxl c => if s.owners ln = [] && (s.dirOf ln).lock.isNone && s.winBits (oCXS c) 2 1 == 0 then s.cxlLost c else s
        | _ => s
      s.answer acc ln x (ps.map fun p => { p with st := 1, err := .deferred }) 16

end Sys2Proof.Machine
end

