-- ==== Sys2Proof/Machine/Cmd.lean ====
section
/-! DEFINITION. What the commands of majors 12 to 14 share (R121, R133, R178, R336 to R339, R423): the command record, issue-time
translation, queues, memory read and written for a lane group, completion counters. -/

namespace Sys2Proof.Machine

/-! ## Issue -/

/-- A command of the word in execution; its number is its issue number. -/
def Ctx.cmd (c : Ctx) (s : State) (ctr : Option Nat) (body : CmdBody) : Cmd :=
  { lg := c.g, wg := c.lg.wg, core := c.core, bank := c.bank, vf := c.vf, part := c.part, launch := c.wg.launch, ctr := ctr,
    lane := c.exLane, em := c.em, fpc := s.pk.idx, slot := s.pk.slot, inRun := s.midRun, seq := s.nseq, body := body, pts := (s.core c.core).pts }

/-- A cause found at issue in the executing lane (R338). -/
def Ctx.exF (c : Ctx) (b : Bool) (k : Cause) : List Finding := if b then [⟨k.rank, k, c.exMask⟩] else []

/-- An `illegal` found at issue from an operand or the machine's state. -/
def Ctx.exIll (c : Ctx) (b : Bool) : List Finding := if b then [⟨6, .illegal, c.exMask⟩] else []

/-- The code check of registers that the executing lane reads. -/
def Ctx.exReg (c : Ctx) (rs : List Nat) : List Finding := rs.flatMap fun r => c.regF c.exMask r

/-- The granules of pieces, ascending, each with its lowest address. -/
def granules (ps : List (Nat × Nat)) : Tab Nat :=
  ps.foldl (fun t p => t.put (p.1 / 65536) (match t.find (p.1 / 65536) with | none => p.1 | some a => min a p.1)) []

/-- Translates granules for the executing lane; each answer stands for its granule's lowest address (R339). -/
def State.xlateGrans (s : State) (c : Ctx) (need : Nat) : Tab Nat → State × Tab (Nat × Nat) × List LaneAddr
  | [] => (s, [], [])
  | (g, va) :: r =>
    let (s, a) := s.laneXlate c 1 need c.exLane va
    let (s, t, as) := s.xlateGrans c need r
    match a.res with
    | .ok pa kid => (s, t.put g (pa - va % 65536, kid), a :: as)
    | _ => (s, t, a :: as)

/-- Translates the granules of a command and goes on with their addresses, or traps (R339, R413). `kind` is the page request's. -/
def State.withGrans (s : State) (c : Ctx) (need kind : Nat) (ps : List (Nat × Nat))
    (k : Tab (Nat × Nat) → State → State) : State :=
  let (s, t, as) := s.xlateGrans c need (granules ps)
  match s.replayTrap as none with
  | some x => s.takeTrap c x kind
  | none => k t s

/-- The trap of an address that breaks the alignment of a command that translates at the instruction (R413, R414). -/
def State.alignTrap (s : State) (c : Ctx) (va : Nat) : State :=
  match s.replayTrap [⟨c.exLane, va, .fail .align none 0 false⟩] none with
  | some x => s.takeTrap c x
  | none => s

/-- Adds a command to `cmds` under its issue number. -/
def State.putCmd (s : State) (x : Cmd) : State := { s with nseq := s.nseq + 1, cmds := s.cmds.put x.seq x }

/-! ## Memory on behalf of a lane group (R121) -/

/-- Whether an access command must still wait: for earlier accesses and access commands of its lane group to bytes of the same
lines (R123), or while an engine owns one of its lines (R132). -/
def State.cmdBlocked (s : State) (id : Nat) (c : Cmd) : Bool :=
  let ls := c.lines
  ls.any s.locked ||
  (s.accs.any fun (_, y) => y.lg == c.lg &&
    y.lanes.any fun q => decide (q.st < 2 ∧ q.ord < id) && ls.contains (q.pa / 128)) ||
  s.cmds.any fun (j, y) => decide (j < id) && y.lg == c.lg && y.body.isAccess && y.live &&
    (y.lines.any ls.contains)

/-- What reading pieces gives: the bytes by offset, the offsets of bytes of poisoned words, the causes met and where. -/
structure Got where
  bytes : Tab Byte := []
  pois : List Nat := []
  errs : List (Cause × Nat) := []

/-- The cause to post of those met, and its first address (R7, R416). -/
def worst (es : List (Cause × Nat)) : Cause × Nat :=
  let k := bestCause (es.map (·.1))
  (k, ((es.find? fun p => p.1 == k).map (·.2)).getD 0)

/-- The src 7 record of a command's refusal (R410). -/
def State.cmdGate (s : State) (c : Cmd) (info : Nat) : State :=
  s.lateGate c.part c.vf c.core c.wg c.lg c.seq c.fpc.toNat info

/-- The agent that serves an access of a command's workgroup at an address (R114, R121). -/
def State.cmdAgent (s : State) (c : Cmd) (va : Nat) : Nat :=
  match s.wgs.find c.wg with
  | none => c.core
  | some w => w.agent c.wg va

/-- How an access of a command to an address fails: its line lies where no packet of it arrived, or the home slice refuses it (R424, R437). -/
def State.cmdErr (s : State) (c : Cmd) (pa : Nat) (write : Bool) : Cause :=
  let e := s.reachErr c.core c.part pa write
  if e = .none && c.lostLn.contains (pa / 128) then .deferred else e

/-- Reads one piece, at an offset of the result, as a load of the command's lane group (R121): from the copy that serves the lane
group, once its lease holds. -/
def State.readPiece (c : Cmd) (a : State × Got) (off va n : Nat) : State × Got :=
  let (s, g) := a
  match c.pa va with
  | none => (s, { g with errs := g.errs ++ [(.xlatPerm, va)] })
  | some (pa, kid) =>
    let e := s.cmdErr c pa false
    if e ≠ .none then (if e = .gate then s.cmdGate c pa else s, { g with errs := g.errs ++ [(e, va)] })
    else
      let agent := s.cmdAgent c va
      let ln := pa / 128
      let s := s.obtain agent ln va kid ((wordsOf pa n).map (· % 32))
      let k := s.copy agent ln
      let s := s.modLg c.lg fun l => { l with boundWts := max l.boundWts k.wts }
      let w := s.wgs.find c.wg
      let staged := (w.map (·.staged)).getD []
      let spois := (w.map (·.stagedPois)).getD []
      let bs := s.loaded c.wg agent pa ((List.range n).map fun i => Tab.getD k.bytes 0 (pa % 128 + i))
      let bad := fun i => (bit k.pois ((pa + i) / 4 % 32) && (Tab.find staged (pa + i)).isNone) || spois.contains ((pa + i) / 4)
      let po := (List.range n).filter bad
      (s, { bytes := putTab g.bytes off bs, pois := g.pois ++ po.map (off + ·)
            errs := match po with | [] => g.errs | o :: _ => g.errs ++ [(.deferred, va + o)] })

/-- Reads pieces one after another into consecutive offsets from `off`. -/
def State.readPieces (c : Cmd) (off : Nat) : List (Nat × Nat) → State × Got → State × Got
  | [], a => a
  | (va, n) :: r, a => State.readPieces c (off + n) r (State.readPiece c a off va n)

/-- Reads everything that an access command reads. -/
def State.cmdRead (s : State) (c : Cmd) : State × Got := State.readPieces c 0 c.body.segs (s, {})

/-- Writes bytes of one line as stores of an agent (R112): they go into its copy, words that they cover in part being obtained first;
the home slice makes the agent their owner, and the core's timestamp rises with the write timestamp. `po` poisons the words. -/
def State.storeBytes (s : State) (agent va pa kid : Nat) (bs : List Byte) (po : Bool) : State :=
  let ln := pa / 128
  let ws := wordsOf pa bs.length
  let whole := fun w => decide (pa ≤ 4 * w ∧ 4 * w + 4 ≤ pa + bs.length)
  let s := s.obtain agent ln va kid ((ws.filter fun w => !whole w).map (· % 32))
  let s := ((if s.locked ln then s.stalled else s.landPublishes ln).asKey ln kid).roomL1 agent ln
  let core := s.agentCore agent
  let (t, s) := s.stamp ln (s.core core).pts
  let c := s.copy agent ln
  let m := maskOf (ws.map (· % 32))
  let mw := maskOf ((ws.filter whole).map (· % 32))
  let c := { (c.putBytes (pa % 128) bs).via agent va with
    own := c.own ||| m, pois := if po then c.pois ||| m else c.pois &&& ~~~mw }
  ((s.setCopy agent ln c).takeWords agent ln (ws.map (· % 32))).raisePts core t

/-- Writes one piece as stores of the command's lane group (R121): staged in staged mode; `po` poisons the words it touches (R443).
Answers the cause of a refusal. -/
def State.writePiece (s : State) (c : Cmd) (staged : Bool) (va : Nat) (bs : List Byte) (po : Bool) : State × Cause :=
  match c.pa va with
  | none => (s, .xlatPerm)
  | some (pa, kid) =>
    if staged then
      let s := s.stageStore c.wg { lane := c.lane, va := va, pa := pa, kid := kid, agent := c.core, data := bs }
      (if po then s.modWg c.wg fun w => { w with stagedPois := wordsOf pa bs.length ++ w.stagedPois } else s, .none)
    else
      let e := s.cmdErr c pa true
      if e ≠ .none then (if e = .gate then s.cmdGate c pa else s, e)
      else (s.storeBytes (s.cmdAgent c va) va pa kid bs po, .none)

/-- Writes the bytes of an access command over its pieces, in order (R348: the last write of a byte remains). -/
def State.writePieces (c : Cmd) (staged po : Bool) : List (Nat × Nat) → List Byte →
    State × List (Cause × Nat) → State × List (Cause × Nat)
  | [], _, a => a
  | (va, n) :: r, bs, (s, es) =>
    let (s, e) := s.writePiece c staged va (bs.take n) po
    State.writePieces c staged po r (bs.drop n) (s, if e = .none then es else es ++ [(e, va)])

/-- The workgroup's staged mode (R116). -/
def State.stagedCmd (s : State) (c : Cmd) : Bool := ((s.launches.find c.launch).map (·.staged)).getD false

/-- The lines that staging a command's stores takes from the core's free segments. -/
def State.cmdNew (s : State) (c : Cmd) : Nat :=
  match s.wgs.find c.wg with
  | none => 0
  | some w => ((c.body.segs.filter fun p => !w.mapped p.1).filterMap fun p => (c.pa p.1).map fun q => q.1 / 128).eraseDups.countP
      fun ln => !w.stagedLines.contains ln

/-- Whether a command's stores must wait for a commit that an engine's lines hold back. -/
def State.cmdCommitWaits (s : State) (c : Cmd) : Bool :=
  s.stagedCmd c && decide (s.freeLines c.core < s.cmdNew c) && s.commitWaits c.wg

/-- Writes everything that an access command writes; without room for its staged lines it reaches a forced commit point (R117). -/
def State.cmdWrite (s : State) (c : Cmd) (bs : List Byte) (po : Bool) : State × List (Cause × Nat) :=
  let staged := s.stagedCmd c
  let s := if staged && s.freeLines c.core < s.cmdNew c then s.forcedCommit c.wg else s
  State.writePieces c staged po c.body.segs bs (s, [])

/-- What an access command does, while its event is under way, before it reaches lines on other dies (R234). -/
def State.farFirst (s : State) (id : Nat) (c : Cmd) (e : Ev) (store : Bool) : Option State :=
  if s.pending.contains e then s.roundTrip id c c.lines 0 store else none

/-! ## Completion counters (R133, R205) -/

/-- Adds 1 to a command's completion counter, with release semantics; answers the cause of a refusal. -/
def State.completeQ (s : State) (c : Cmd) : State × Cause :=
  match c.q with
  | none => (s, .none)
  | some va =>
    match c.pa va with
    | none => (s, .xlatPerm)
    | some (pa, kid) =>
      let e := s.cmdErr c pa true
      if e ≠ .none then (if e = .gate then s.cmdGate c pa else s, e)
      else
        let s := s.publishLine (pa / 128)
        if s.anyPois pa 8 then (s, .deferred)
        else
          let s := s.asKey (pa / 128) kid
          let (t, s) := s.addAt pa 1 (max c.pts (s.core c.core).pts)
          (s.raiseStep c.launch t, .none)

/-- Ends a command: its completion counter if it has no cause, then its arrival counter and the cause. -/
def State.finishCmd (s : State) (id : Nat) (c : Cmd) (cause : Cause) (va : Nat := 0) : State :=
  if cause ≠ .none then s.endCmd id cause (BitVec.ofNat 64 va)
  else
    let (s, e) := s.completeQ c
    s.endCmd id e (BitVec.ofNat 64 (if e = .none then va else c.q.getD va))

/-- Whether another engine owns the line of a command's completion counter (R132). -/
def State.counterLocked (s : State) (c : Cmd) : Bool := ((c.q.bind c.pa).map fun p => s.locked (p.1 / 128)).getD false

end Sys2Proof.Machine
end

