-- ==== Sys2Proof/Machine/Launch.lean ====
section
/-! DEFINITION. Launches: taking and checking a packet (R30, R31, R41, R45, R241), room and placement (R34 to R36, R40, R49, R164),
the distributor's order (R153, R154), completion counters (R33, R474), ends (R33, R406, R412). -/

namespace Sys2Proof.Machine

/-! ## Reading on behalf of the device -/

/-- A translation for an agent without a core (R135 to R139). -/
def State.devXlate (s : State) (part vf va need : Nat) : State × XRes :=
  if 2 ^ 57 ≤ va then (s, .bad .xlatPerm) else
  match s.walk part vf va need with
  | (s, .ok e) => (s, s.judge e va need)
  | r => r

/-- What a read for a launch gives: bytes, or why there are none. -/
inductive DevRes where
  | bytes (bs : List Byte)
  | fail (c : Cause)
  | touch (p : Pending)
  | s2 (ipa va : Nat) (table : Bool)
  deriving DecidableEq, Repr

/-- Reads bytes at a virtual address as loads for a function (R32, R139, R18), piece by piece. -/
def State.readFor (part vf : Nat) : List (Nat × Nat) → State × List Byte → State × DevRes
  | [], (s, bs) => (s, .bytes bs)
  | (va, n) :: r, (s, bs) =>
    match s.devXlate part vf va 1 with
    | (s, .ft p) => (s, .touch p)
    | (s, .bad c) => (s, .fail c)
    | (s, .s2 ipa t) => (s, .s2 ipa va t)
    | (s, .ok e) =>
      let pa := e.addr va
      if s.sliceErr part pa false ≠ .none then (s, .fail (s.sliceErr part pa false)) else
      let s := (s.publishLine (pa / 128)).asKey (pa / 128) e.kid
      if s.anyPois pa n then (s, .fail .poison) else State.readFor part vf r (s, bs ++ s.bytesAt pa n)

/-! ## Fields -/

/-- The orphan timeout, in cycles (R30). -/
def Launch.oto (l : Launch) : Nat := 2000 * (if bits (l.w0 1) 56 8 = 0 then 100 else bits (l.w0 1) 56 8)
def Launch.alloc (l : Launch) : Nat := 64 + 32 * l.rgc
def Launch.nlg (l : Launch) : Nat := l.lgm1 + 1
/-- Workgroups of the grid, on each die of an elastic launch (R40). -/
def Launch.grid (l : Launch) : Nat := l.gxn * l.gyn * l.gzn
def Launch.total (l : Launch) : Nat := if l.elas then l.grid * l.dies else l.grid

/-- The launch on the `n` lowest-numbered dies of its partition (R40). -/
def Launch.onDies (l : Launch) (ds : List Nat) : Launch :=
  let cs := ds.flatMap fun d => bhCores (3 * d) ++ bhCores (3 * d + 2)
  let x0 := cs.foldl (fun m c => min m (coreX c)) 24
  let y0 := cs.foldl (fun m c => min m (coreY c)) 8
  let x1 := cs.foldl (fun m c => max m (coreX c)) 0
  let y1 := cs.foldl (fun m c => max m (coreY c)) 0
  { l with dies := ds.length, rx := x0, ry := y0, w := x1 + 1 - x0, h := y1 + 1 - y0 }

/-! ## Room (R28, R35, R49) -/

/-- Whether a workgroup takes room on its core. -/
def Wg.here (w : Wg) : Bool := match w.st with | .absent => false | .ended => false | _ => true

def Wg.isHandler (w : Wg) : Bool := match w.kind with | .handler _ => true | _ => false

/-- The workgroups in a bank of a core. -/
def State.bankWgs (s : State) (core bank : Nat) : Tab Wg :=
  s.wgs.filter fun p => p.2.here && p.2.core == core && p.2.bank == bank

/-- The launches that hold a handler reservation on a core (R49). -/
def State.reservers (s : State) (core : Nat) : List (Nat × Launch) := s.launches.filter fun p => p.2.reserved && p.2.inRect core

/-- The registers that a lane group holds: its allocation, or the larger one that its `rgrow` has been given (R53). -/
def Lg.regs (l : Lg) : Nat := max l.alloc (l.grown.getD 0)

/-- Whether a workgroup is a handler in a slot that its launch reserves on its core (R49). -/
def State.inReserve (s : State) (w : Wg) : Bool :=
  w.isHandler && ((s.launches.find w.launch).map fun l => l.reserved && l.inRect w.core).getD false

/-- The lane groups that stand in a bank of a core. -/
def State.allLgs (s : State) (core bank : Nat) : List (Nat × Lg) :=
  s.lgs.filter fun p => p.2.status != .ended &&
    ((s.wgs.find p.2.wg).map fun w => w.here && w.core == core && w.bank == bank).getD false

/-- The lane groups that use a bank's registers outside the handler reservations of the core. -/
def State.bankLgs (s : State) (core bank : Nat) : List (Nat × Lg) :=
  (s.allLgs core bank).filter fun p => !(((s.wgs.find p.2.wg).map s.inReserve).getD false)

/-- Registers of a sub-core that no lane group and no reservation holds (R53, R54). -/
def State.freeRegs (s : State) (core bank sc : Nat) : Nat :=
  1024 - 64 * (s.reservers core).length -
    ((s.bankLgs core bank).filter fun p => p.2.sc == sc).foldl (fun n p => n + p.2.regs) 0

/-- Whether a bulkhead runs and belongs to a partition. -/
def State.coreRuns (s : State) (part core : Nat) : Bool := s.bhSt (bhOf core) == 3 && s.partOf core == part

/-- Whether a bank of a core has room for lane groups, given by sub-core and allocation (R28, R35); `extra` tells that the launch adds a
reservation of its own. A handler in a reserved slot takes no place of a workgroup (R49, R50; log entry 70). -/
def State.hasRoom (s : State) (core bank : Nat) (extra : Bool) (new : List (Nat × Nat)) : Bool :=
  let res := (s.reservers core).length + b2n extra
  let ls := s.bankLgs core bank
  decide (((s.bankWgs core bank).filter fun p => !s.inReserve p.2).length < 16) && (List.range 4).all fun sc =>
    let mine := new.filter fun p => p.1 == sc
    let old := ls.filter fun p => p.2.sc == sc
    decide (old.length + mine.length + res ≤ 16 ∧
      old.foldl (fun n p => n + p.2.regs) 0 + mine.foldl (fun n p => n + p.2) 0 + 64 * res ≤ 1024)

/-- The lane groups of a workgroup of a launch, by sub-core and allocation (R28). -/
def Launch.needs (l : Launch) : List (Nat × Nat) := (List.range l.nlg).map fun j => (j % 4, l.alloc)

/-! ## Targets (R34, R40) -/

/-- A number's 16 low bits at even positions. -/
def spread (n : Nat) : Nat := (List.range 16).foldl (fun m i => m + (n / 2 ^ i % 2) * 4 ^ i) 0

/-- The target index of a workgroup among `n` slices. -/
def Launch.target (l : Launch) (gx gy gz n : Nat) : Nat :=
  (match l.aff with
   | 0 => gx + l.gxn * (gy + l.gyn * gz)
   | 1 => spread gx + 2 * spread gy + gz
   | _ =>
     let h := gx ^^^ (gy <<< 5) ^^^ (gz <<< 10)
     let h := h ^^^ (h >>> 16)
     let h := h ^^^ (h >>> 8)
     h ^^^ (h >>> 4)) % n

/-- Grid coordinates and die slot of the `i`-th workgroup. -/
def Launch.coords (l : Launch) (i : Nat) : Nat × Nat × Nat × Nat :=
  let j := i % l.grid
  (j % l.gxn, j / l.gxn % l.gyn, j / (l.gxn * l.gyn), i / l.grid)

/-- The cores on which the `i`-th workgroup may be placed, and its target's attach point (R34, R35, R40; log entry 20). -/
def Launch.goal (l : Launch) (i : Nat) : List Nat × Nat :=
  let (gx, gy, gz, d) := l.coords i
  let dl := diesOf l.rect
  let t := l.target gx gy gz (16 * dl.length)
  (l.rect.filter fun c => !l.elas || dieOf c == dl.getD d 0, attach (dl.getD (t / 16) 0) (t % 16))

/-- The die slot of a core in an elastic launch (R40); 0 in any other (R76). -/
def Launch.dieSlot (l : Launch) (core : Nat) : Nat := if l.elas then (diesOf l.rect).idxOf (dieOf core) else 0

/-! ## Placement -/

/-- The bank in which new work of a core is placed: the one that is or becomes active. -/
def Core.target (k : Core) : Nat := if k.swapping then 1 - k.act else k.act

/-- Whether a queue of a function is urgent (R155). -/
def State.urgentQ (s : State) (vf q : Nat) : Bool := decide (q < 2 ^ s.winBits (oVFM vf) 5 2) && bit (s.vr vf 0x30) q

/-- Whether a bank of a core holds urgent work. -/
def State.urgentIn (s : State) (core bank : Nat) : Bool :=
  (s.bankWgs core bank).any fun p => ((s.launches.find p.2.launch).map (·.urgent)).getD false

/-- Whether a core is pre-empted: its shadow bank holds a context that waits for the core. -/
def State.preempted (s : State) (core : Nat) : Bool := !(s.bankWgs core (1 - (s.core core).target)).isEmpty

/-- Whether a core leads or follows a paired operation that has not retired (R169). -/
def State.paired (s : State) (core : Nat) : Bool :=
  s.cmds.any fun p => p.2.live && (p.2.core == core || p.2.core + 1 == core) &&
    (match p.2.body with | .mxPmma _ _ _ => true | _ => false)

/-- Whether a core may be pre-empted now (R164, R169). -/
def State.canPreempt (s : State) (core : Nat) : Bool :=
  let k := s.core core
  !k.swapping && !s.urgentIn core k.act && (!s.preempted core || k.shadowClean) &&
    !((s.bankWgs core k.act).any fun p => p.2.st == .leaving || p.2.st == .restoring) && !s.paired core

/-- Begins a pre-emption (R165): a clean shadow context is discarded from the core; its workgroups live on in their spill slots. -/
def State.preempt (s : State) (core : Nat) : State :=
  let old := s.bankWgs core (1 - (s.core core).act)
  let s := old.foldl (fun s p => (s.spillWg p.1).modWg p.1 fun w => { w with ousted := true }) s
  s.modCore core fun k => { k with swapping := true, shadowClean := false }

/-- The lowest workgroup slot that is free in a bank; 15 where handlers in reserved slots stand beside 16 workgroups (log entry 70). -/
def State.freeSlot (s : State) (core bank : Nat) : Nat :=
  let used := (s.bankWgs core bank).map fun p => p.2.slot
  ((List.range 16).find? fun n => !used.contains n).getD 15

/-- The sub-core on which a handler of a launch can stand on a core (R28, R49): on a core of the rectangle of a launch that holds its
reservation, one whose reserved slot no handler of the launch takes, and where a slot and 64 registers are free in fact (log entry 70); on any
other core, or once the launch has completed, one with room. -/
def State.handlerSub (s : State) (core launch : Nat) : Option Nat :=
  let b := (s.core core).target
  match s.launches.find launch with
  | none => none
  | some la =>
    if la.reserved && la.inRect core then
      (List.range 4).find? fun sc =>
        let here := (s.allLgs core b).filter fun p => p.2.sc == sc
        !(s.lgs.any fun p => p.2.status != .ended && p.2.sc == sc && ((s.wgs.find p.2.wg).map fun w =>
            w.here && w.core == core && w.isHandler && w.launch == launch).getD false) &&
          decide (here.length < 16 ∧ here.foldl (fun n p => n + p.2.regs) 0 + 64 ≤ 1024)
    else (List.range 4).find? fun sc => s.hasRoom core b false [(sc, 64)]

/-- Adds a workgroup with its lane groups, still to be started; its number is the issue number. Lane group j stands on sub-core
j mod 4 (R28), a handler on the sub-core that `handlerSub` gives (R49). -/
def State.addWg (s : State) (w : Wg) (alloc : Nat) (entry : Nat) : State :=
  let id := s.nseq
  let w := { w with slot := s.freeSlot w.core w.bank, placedAt := id, entry := entry
                    dslot := ((s.launches.find w.launch).map fun (l : Launch) => l.dieSlot w.core).getD 0 }
  let sub := if w.isHandler then (s.handlerSub w.core w.launch).getD 0 else 0
  let lgs := (List.range w.nlg).foldl (fun t j => t.put (id + 1 + j)
    { wg := id, lgn := j, sc := (sub + j) % 4, alloc := alloc, pc := linePacket entry, hnd := w.isHandler, landing := true, waited := id, parkAt := s.now }) s.lgs
  ({ s with nseq := id + 1 + w.nlg, wgs := s.wgs.put id w, lgs := lgs }).post (.workgroupStart id)

/-- Places the `i`-th workgroup of a launch, `fresh` telling that it is one that a resize adds; none where no core has room. -/
def State.placeOne (s : State) (l : Nat) (fresh : Bool) (i : Nat) : Option State :=
  match s.launches.find l with
  | none => none
  | some la =>
    let (gx, gy, gz, _) := la.coords i
    let (cs, a) := la.goal i
    let cs := cs.filter (s.coreRuns la.part)
    let extra := la.hcnt ≠ 0 && !la.reserved
    let put := fun (s : State) core =>
      s.addWg { launch := l, gx := gx, gy := gy, gz := gz, core := core, home := core, nlg := la.nlg, added := fresh
                bank := (s.core core).target } la.alloc (if fresh then la.reent else la.entry)
    match nearest a (cs.filter fun c => (la.urgent || !s.preempted c) && s.hasRoom c (s.core c).target extra la.needs) with
    | some c => some (put s c)
    | none =>
      if !la.urgent then none else
      match nearest a (cs.filter fun c => s.canPreempt c && (s.preempt c).hasRoom c ((s.preempt c).core c).target extra la.needs) with
      | some c => some (put (s.preempt c) c)
      | none => none

/-- Places `n` workgroups from the `i`-th on, all or none. -/
def State.placeMany (l : Nat) (fresh : Bool) : Nat → Nat → State → Option State
  | 0, _, s => some s
  | n + 1, i, s =>
    match s.placeOne l fresh i with
    | none => none
    | some s => State.placeMany l fresh n (i + 1) s

/-- Marks a launch started: from its first workgroup on it holds its handler reservation (R49), also on a core of its rectangle that has no
room for it then (log entry 70). -/
def State.started (s : State) (l placed : Nat) : State :=
  let at_ := s.nseq
  ({ s with nseq := at_ + 1 }).modLaunch l fun x =>
    { x with st := .running, next := placed, reserved := x.hcnt ≠ 0, startAt := at_, lastIssue := s.now }

/-- The members of a launch's complete gang, in gmem order; a launch outside a gang alone (R45). -/
def State.gangOf (s : State) (l : Nat) : List Nat :=
  match s.launches.find l with
  | none => []
  | some la =>
    if !la.gang then [l] else
    ((s.launches.filter fun p => p.2.gang && p.2.vf == la.vf && p.2.gid == la.gid && p.2.gangN == la.gangN &&
      p.2.st == .waiting).sortBy fun a b => a.2.gmem ≤ b.2.gmem).map (·.1)

/-- Starts one co-resident launch on its whole rectangle, an elastic one on the most dies that hold it (R36, R40). -/
def State.startWhole (s : State) (l : Nat) : Option State :=
  match s.launches.find l with
  | none => none
  | some la =>
    if !la.elas then (State.placeMany l false la.total 0 s).map fun t => t.started l la.total
    else
      let tries := [4, 2, 1].filterMap fun n =>
        if la.dmin ≤ n ∧ n ≤ la.dmax then
          let lb := la.onDies ((s.partDies la.part).take n)
          (State.placeMany l false lb.total 0 (s.modLaunch l fun _ => lb)).map fun t => t.started l lb.total
        else none
      tries.head?

/-- Starts launches one after another, all or none. -/
def State.startAll : List Nat → State → Option State
  | [], s => some s
  | l :: r, s => (match s.startWhole l with | none => none | some s => State.startAll r s)

/-- Starts a waiting launch, if it can be started now: its first workgroup, or a co-resident launch or gang whole. -/
def State.tryStart (s : State) (l : Nat) : Option State :=
  match s.launches.find l with
  | none => none
  | some la =>
    if la.cor then State.startAll (s.gangOf l) s
    else (s.placeOne l false 0).map fun t => t.started l 1

/-- Places the next workgroup of a launch that has started (R36). -/
def State.tryNext (s : State) (l : Nat) : Option State :=
  match s.launches.find l with
  | none => none
  | some la => (s.placeOne l false la.next).map fun t => t.modLaunch l fun x => { x with next := x.next + 1 }

/-! ## Re-admission (R151) -/

/-- The lane groups of a workgroup that have not ended, by sub-core and registers; a waiter of `rgrow` counts what it asks for
(R162). -/
def State.allocsOf (s : State) (w : Nat) : List (Nat × Nat) :=
  (s.lgsOf w).filterMap fun p =>
    if p.2.status = .ended then none else
    some (p.2.sc, match p.2.status with | .blocked (.rgrow n _ _) _ => max n p.2.regs | _ => p.2.regs)

/-- The core on which a swapped-out workgroup is re-admitted now, if one has room for it, its map entries and its staged words. -/
def State.readmitCore (s : State) (w : Nat) : Option Nat :=
  match s.wgs.find w with
  | none => none
  | some g =>
    match s.launches.find g.launch with
    | none => none
    | some la =>
      if g.st ≠ .absent then none else
      let segs := g.maps.foldl (fun n p => n + p.2.segs) 0 + ceilDiv g.looseLines.length 32
      nearest g.home (la.rect.filter fun c => s.coreRuns la.part c && !(s.core c).swapping && (la.urgent || !s.preempted c) &&
        s.hasRoom c (s.core c).act false (s.allocsOf w) && decide (segs ≤ s.freeSegs c))

/-! ## The order of the distributor (R153, R154) -/

def oLQB (q : Nat) : Nat := 0x100 + 32 * q

/-- The tail write that first covered the packet at a head value: its place in the order of arrivals, and the timestamp of the host's
stores before it. -/
def State.tailOf (s : State) (vf q head : Nat) : Option (Nat × Nat) :=
  ((Tab.getD s.lqt [] (8 * vf + q)).find? fun t =>
    decide (0 < (t.1 + 2 ^ 32 - head) % 2 ^ 32 ∧ (t.1 + 2 ^ 32 - head) % 2 ^ 32 < 2 ^ 31)).map (·.2)

/-- The arrival of the packet at a head value: the tail write that first covered it (R154). -/
def State.arrivalOf (s : State) (vf q head : Nat) : Nat := ((s.tailOf vf q head).map (·.1)).getD s.nseq

/-- What an acquire of the tail write covers: the timestamp of every store of the host before it (R241). -/
def State.tailPts (s : State) (vf q head : Nat) : Nat := ((s.tailOf vf q head).map (·.2)).getD 0

/-- What a partition's distributor does next. -/
inductive Work where
  | readmit (w : Nat) | place (l : Nat) | claim (core : Nat)
  deriving DecidableEq, Repr

/-- Whether a launch has workgroups to place. -/
def Launch.unplaced (l : Launch) : Bool := l.st == .running && decide (l.next < l.total) && !l.faulted && l.discard.isNone

/-- Whether a launch is at the head of its queue (R36): those that reached it earlier have started, and no packet that reached it
earlier is still in the ring. -/
def State.atHead (s : State) (l : Nat) : Bool :=
  match s.launches.find l with
  | none => false
  | some la =>
    let head := s.vrBits la.vf (oLQB la.queue + 16) 0 32
    !(s.launches.any fun p => p.2.vf == la.vf && p.2.queue == la.queue &&
      (p.2.st == .waiting || p.2.st == .gang) && p.1 != l &&
      !(la.gang && p.2.gang && p.2.gid == la.gid && p.2.gangN == la.gangN && p.2.st == .waiting) &&
      (decide (p.2.arrival < la.arrival) || (p.2.arrival == la.arrival && decide (p.1 < l)))) &&
    !(head != s.vrBits la.vf (oLQB la.queue + 8) 0 32 && decide (s.arrivalOf la.vf la.queue head < la.arrival))

/-- Whether a new launch can start now. -/
def State.canStart (s : State) (l : Nat) : Bool :=
  ((s.launches.find l).map fun la => la.st == .waiting).getD false && (s.gangOf l).all s.atHead && (s.tryStart l).isSome

/-- The launches of a partition that wait beyond the group timeout: the earliest arrival (R154). A gang that lacks members holds nothing back
(log entry 70). -/
def State.lateAt (s : State) (part : Nat) : Option Nat :=
  ((s.launches.filter fun p => p.2.part == part && p.2.late && p.2.st == .waiting).map (·.2.arrival)).min?

/-- The records of a partition's pool that a core may take, in the order of R43: unclaimed ones, the oldest first or in depth-first
order the youngest; then claimed ones with at least two grains left, to be split. -/
def Part.takeable (p : Part) : List (Nat × Task) :=
  let free := p.tasks.filter fun t => t.2.holder.isNone
  (if p.depth then free.reverse else free) ++
    (if p.tasks.length < 1024 then p.tasks.filter fun t => t.2.holder.isSome && decide (2 ≤ ceilDiv (t.2.hi - t.2.cur) t.2.g) else [])

/-- The core that takes a task next, and the record: a core with room for one lane group of the record's launch, where no placement
of that launch waits. Of several cores with room the first of the rectangle takes it, row by row; while a launch waits beyond the group
timeout, a launch that started after that one's arrival takes none (R154; log entry 70). -/
def State.claimNext (s : State) (part : Nat) : Option (Nat × Nat) :=
  (s.part part).takeable.findSome? fun t =>
    match s.launches.find t.2.launch with
    | none => none
    | some la =>
      if la.st ≠ .running || la.unplaced || la.faulted || la.discard.isSome ||
          ((s.lateAt part).map fun a => decide (a < la.startAt)).getD false then none
      else (la.rect.find? fun c => s.coreRuns part c && (la.urgent || !s.preempted c) &&
        s.hasRoom c (s.core c).target false [(0, la.alloc)]).map fun c => (c, t.1)

/-- The enabled functions of a partition with their queues, from after the one served last (class 5). -/
def State.queuesFrom (s : State) (part : Nat) : List (Nat × Nat) :=
  let p := s.part part
  let vfs := (s.launches.filterMap fun x => if x.2.part = part ∧ x.2.st = .waiting ∧ s.vfEn x.2.vf = true then some x.2.vf else none).eraseDups.sortNat
  let vfs := (vfs.filter fun f => decide (p.rr ≤ f)) ++ vfs.filter fun f => decide (f < p.rr)
  vfs.flatMap fun f =>
    let q0 := Tab.getD p.rrq 0 f
    (List.range 8).map fun i => (f, (q0 + i) % 8)

/-- What the distributor of a partition does next: the classes of R153 in order, an eligible workgroup of an urgent launch before that
launch's unplaced ones (R151). -/
def State.work (s : State) (part : Nat) : Option Work :=
  let absent := (s.wgs.filter fun p => p.2.eligible && p.2.st == .absent &&
    ((s.launches.find p.2.launch).map fun l => l.part == part).getD false).sortBy fun a b => a.2.eligAt ≤ b.2.eligAt
  let cor := fun (p : Nat × Wg) => ((s.launches.find p.2.launch).map (·.cor)).getD false
  let back := fun (ps : List (Nat × Wg)) => (ps.find? fun p => (s.readmitCore p.1).isSome).map fun p => Work.readmit p.1
  let mine := s.launches.filter fun p => p.2.part == part
  let urgent := (mine.filter fun p => p.2.urgent && (p.2.st == .waiting || p.2.unplaced)).sortBy fun a b => a.2.arrival ≤ b.2.arrival
  let own := fun (l : Nat) => back (absent.filter fun p => !cor p && p.2.launch == l)
  let going := (mine.filter fun p => !p.2.urgent && p.2.unplaced).sortBy fun a b => a.2.startAt ≤ b.2.startAt
  let able := fun (p : Nat × Launch) => if p.2.st = .waiting then s.canStart p.1 else (s.tryNext p.1).isSome
  let fits := fun (l : Nat × Launch) => ((s.lateAt part).map fun a => decide (l.2.arrival ≤ a)).getD true
  (back (absent.filter cor))
    <|> (urgent.findSome? fun p => own p.1 <|> if able p then some (Work.place p.1) else none)
    <|> (back (absent.filter fun p => !cor p))
    <|> ((going.find? able).map fun p => Work.place p.1)
    <|> ((s.claimNext part).map fun p => Work.claim p.1)
    <|> ((s.queuesFrom part).findSome? fun fq =>
          (mine.find? fun p => p.2.vf == fq.1 && p.2.queue == fq.2 && p.2.st == .waiting && !p.2.urgent && fits p && s.canStart p.1).map
            fun p => Work.place p.1)

/-! ## Taking a launch (R31, R45, R241, R378) -/

/-- A machine on whose cores nothing stands but the launches given: where R31 and R45 judge whether work can be placed at all. -/
def State.emptied (s : State) (ls : Tab Launch) : State :=
  { s with wgs := [], lgs := [], launches := ls, cores := []
           win := (List.range 12).foldl (fun t g => t.put (oBHC g) (setBits (s.win' (oBHC g)) 4 3 3)) s.win }

/-- Whether the packet of a launch is refused (R31, R135). -/
def State.badLaunch (s : State) (id : Nat) (l : Launch) : Bool :=
  let (px, py, pw, ph) := s.partRect l.part
  let dies := s.partDies l.part
  let inside := decide (px ≤ l.rx ∧ l.rx + l.w ≤ px + pw ∧ py ≤ l.ry ∧ l.ry + l.h ≤ py + ph)
  let one := fun n => n == 1 || n == 2 || n == 4
  !bit (s.vr l.vf 0) 0 || bits (l.w0 0) 57 7 != 0 || bits (l.w0 1) 42 6 != 0 ||
  ([3, 4, 5, 6, 7].any fun i => bits (l.w0 i) 57 7 != 0) ||
  l.rgc == 7 || l.aff == 3 || l.grid == 0 || l.entry % 128 != 0 || l.svh % 128 != 0 || (l.elas && l.reent % 128 != 0) ||
  l.kinit % 8 != 0 || l.ctr % 8 != 0 || (l.hcnt != 0 && l.htab % 8 != 0) ||
  (l.elas && (!one l.dmin || !one l.dmax || !l.cor || decide (l.dmax < l.dmin) || decide (dies.length < l.dmax) ||
    s.partMask l.part != dies.foldl (fun m d => m + 7 * 8 ^ d) 0)) ||
  (!l.elas && (decide (23 < bits (l.w0 1) 0 5) || !inside)) ||
  (l.gang && (!l.cor || l.gcm1 == 0)) ||
  decide ((if l.hcnt = 0 then 1024 else 960) < ceilDiv l.nlg 4 * l.alloc) ||
  (l.cor && (let t := s.emptied [(id, { l with st := .waiting, urgent := false })]
    if l.elas then (State.placeMany id false (l.grid * l.dmin) 0
      (t.modLaunch id fun x => x.onDies (dies.take l.dmin))).isNone
    else (State.placeMany id false l.total 0 t).isNone))

/-- The record of a rejected launch (R31, R408). -/
def State.rejectRec (s : State) (l : Launch) (c : Cause) : State := s.tenantRec l.vf [l.recHead c 2, l.recWhere, 0, s.time]

/-- Once every member of a gang is there, it waits for its placement, or is rejected (R45). A clash of gcm1 or gmem rejects the members that
are there, at the first clash; a later member of that gid begins another gang (log entry 70). A rejected member that a program launched gives up
its place in the launch buffer (R378). -/
def State.joinGang (s : State) (id : Nat) : State :=
  match s.launches.find id with
  | none => s
  | some l =>
    let ms := s.launches.filter fun p => p.2.gang && p.2.vf == l.vf && p.2.gid == l.gid && p.2.st == .gang
    let clash := ms.any fun p => p.2.gcm1 != l.gcm1 || (p.1 != id && p.2.gmem == l.gmem)
    let ids := (ms.sortBy fun a b => a.2.gmem ≤ b.2.gmem).map (·.1)
    let refuse := fun (s : State) =>
      let s := ms.foldl (fun s p => s.rejectRec p.2 .pipe) s
      { s with launches := s.launches.filter fun p => !ids.contains p.1 }.modPart l.part fun x =>
        { x with plb := x.plb.filter fun i => !ids.contains i }
    if clash then refuse s
    else if ms.length ≤ l.gcm1 then s
    else if (State.startAll ids (s.emptied (ms.map fun p => (p.1, { p.2 with st := LaunchSt.waiting, urgent := false })))).isNone then refuse s
    else
      let n := s.nseq
      ids.foldl (fun s i => s.modLaunch i fun x => { x with st := .waiting, gangN := n }) { s with nseq := n + 1 }

/-- A launch's core rectangle and dies as its packet gives them. -/
def Launch.atPacket (l : Launch) : Launch :=
  let w1 := l.words.getD 1 0
  let l := { l with rx := bits w1 0 5, ry := bits w1 5 3, w := bits w1 8 5 + 1, h := bits w1 13 3 + 1 }
  { l with dies := (diesOf l.rect).length }

/-- The distributor takes a launch: it is checked (R31), and waits. Its urgency (R155) is taken and its group wait (R154) begins with
this read (log entry 70). -/
def State.takeLaunch (s : State) (words : List DWord) (vf queue lnum arrival pts : Nat) : State :=
  let id := s.nseq
  let l : Launch :=
    { words := words, vf := vf, part := s.vfPart vf, queue := queue, lnum := lnum, urgent := s.urgentQ vf queue
      rst := bit (words.getD 1 0) 27, arrival := arrival, since := s.now, pts := pts }
  let l := l.atPacket
  let s := { s with nseq := id + 1 }
  if s.badLaunch id l then s.rejectRec l .illegal
  else if l.gang then ({ s with launches := s.launches.put id { l with st := .gang } }).joinGang id
  else { s with launches := s.launches.put id l }

/-! ## Completion counters (R33, R474) -/

/-- The record of a dropped update. -/
def State.dropCtr (s : State) (id : Nat) (l : Launch) (c : Cause) : State :=
  s.tenantRec l.vf [l.recHead c 3, l.recWhere, if l.faulted then ((s.launches.find id).map (·.halted)).getD 0 else 0, s.time]

/-- Updates a launch's completion counter, as an atomic for the launch, or waits. -/
def State.tryCtr (s : State) (id : Nat) : State :=
  match s.launches.find id with
  | none => s
  | some l =>
    match l.counterPending with
    | none => s
    | some (_, add) =>
      let done := fun (s : State) => s.modLaunch id fun x => { x with counterPending := none }
      if l.ctr = 0 then done s else
      match s.devXlate l.part l.vf l.ctr 3 with
      | (s, .ft p) => (s.pageReq l.vf l.part p.va 3 p.pool p.lvl (.counter id)).2
      | (s, .s2 ipa t) => (s.s2Rec l.part l.vf 0 0 0 ipa l.ctr t true).s2Wait l.part ipa (.counter id)
      | (s, .bad c) => (done s).dropCtr id l c
      | (s, .ok e) =>
        let pa := e.addr l.ctr
        let k := s.sliceErr l.part pa true
        if k = .gate then ((done s).gateRec l.part l.vf 0 0 0 0 pa true).dropCtr id l k
        else if k ≠ .none then (done s).dropCtr id l k
        else
          let s := s.publishLine (pa / 128)
          if s.anyPois pa 8 then (done s).dropCtr id l .poison else
          let s := s.asKey (pa / 128) e.kid
          let pts := (s.wgsOf id).foldl (fun m p => max m (s.core p.2.core).pts) l.pts
          let (_, s) := s.addAt pa add pts
          done (s.farLine (pa / 128))

/-- Updates a launch's completion counter; where it meets a line that an engine owns, the update waits (R132). -/
def State.updateCtr (s : State) (id : Nat) : State :=
  let t := s.tryCtr id
  if t.pk.stall && !s.pk.stall then s.modLaunch id fun x => { x with counterLate := true } else t

/-- The counter updates that waited for an engine's line are tried again. -/
def State.flushCtrs (s : State) : State :=
  s.launches.foldl (fun s p => if p.2.counterLate then (s.modLaunch p.1 fun x => { x with counterLate := false }).updateCtr p.1 else s) s

/-! ## Ends -/

/-- The pipes that nothing uses any more are freed (R375): no launch that bound them and no enabled stream queue. -/
def State.freePipes (s : State) (part : Nat) : State :=
  let named := fun (n : Nat) => s.vfr.any fun p => let o := p.1 % 4096
    decide (0x200 ≤ o ∧ o < 0x300) && o % 32 == 8 && bit p.2 56 && bits p.2 40 16 == n && s.vfPart (p.1 / 4096) == part
  s.modPart part fun p => { p with pipes := p.pipes.filter fun q => !(q.2.users.isEmpty && !named q.2.name) }

/-- What a launch gives up at its end: reservation, handler bindings, pipes, records, requests of its lane groups. -/
def State.closeLaunch (s : State) (id : Nat) : State :=
  match s.launches.find id with
  | none => s
  | some l =>
    let s := s.modLaunch id fun x => { x with st := .ended, reserved := false }
    let s := s.modPart l.part fun p => Part.water { p with
      handlers := p.handlers.filter fun h => h.2.1 != id
      pipes := p.pipes.map fun q => (q.1, { q.2 with users := q.2.users.filter (· != id) })
      plb := p.plb.filter (· != id)
      tasks := p.tasks.filter fun t => t.2.launch != id }
    s.freePipes l.part

/-- Whether fragments with a tag are somewhere (R228). -/
def State.tagBusy (s : State) (part tag : Nat) : Bool := s.frags.any fun p => p.2.owner == part && p.2.tag == tag

/-- Frees a tag (R228): at once, or when its last fragment is delivered; its retirement ends then. -/
def State.freeTag (s : State) (part tag : Nat) : State :=
  if s.tagBusy part tag then
    s.modPart part fun p => { p with tags := p.tags.modify tag fun t => { t with freed := true } }
  else s.modPart part fun p => { p with tags := p.tags.del tag, retired := p.retired.filter fun r => r.1 != tag }

/-- Discards the workgroups of a launch: lane groups, staged words, stash, claims; the words owned on the cores on which it can have stored,
those of workgroups that have ended among them, are published (R406, R412). -/
def State.dropWgs (s : State) (id : Nat) : State :=
  let ws := (s.wgsOf id).filter fun p => p.2.st != .ended
  let s := (s.lgs.filter fun p => ws.any fun w => w.1 == p.2.wg).foldl (fun (s : State) p =>
    s.flushRefusals (((s.launches.find id).map (·.vf)).getD 0) p.1) s
  let s := { s with lgs := s.lgs.map fun (p : Nat × Lg) =>
    (p.1, if ws.any fun w => w.1 == p.2.wg then { p.2 with status := .ended, em := 0, task := none, replay := none, run := none } else p.2) }
  let cs := ((s.wgsOf id).map fun p => p.2.core) ++ ((s.launches.find id).map (·.rect)).getD []
  let s := cs.eraseDups.foldl (fun s c =>
    ((s.core c).l1.filter fun q => q.2.own != 0).foldl (fun s q => s.publishFrom q.1 c) s) s
  ws.foldl (fun s p =>
    let s := s.modWg p.1 fun w => { w with staged := [], stagedPois := [], stagedKids := [] }
    let s := (s.leaveStash p.1).modWg p.1 fun w => { w with st := .ended, eligible := false }
    (s.withdraw p.1).reap p.2.core) s

/-- Frees the tags that a launch has allocated and not freed (R406). -/
def State.freeTags (s : State) (id part : Nat) : State :=
  ((s.part part).tags.filter fun t => t.2.launch == id && !t.2.freed).foldl (fun s t => s.freeTag part t.1) s

/-- Ends a launch as faulted with a cause (R406), which is that of its end also where an earlier one had faulted it (R17, R411, R412). -/
def State.endFaulted (s : State) (id : Nat) (cause : Cause) : State :=
  match s.launches.find id with
  | none => s
  | some l =>
    let n := (s.lgs.filter fun p => ((s.wgs.find p.2.wg).map fun w => w.launch == id).getD false &&
      (match p.2.status with | .stopped _ => true | _ => false)).length
    let s := (((s.faultLaunch id cause).dropWgs id).closeLaunch id).modLaunch id fun x => { x with halted := n, faultCause := cause }
    let s := s.freeTags id l.part
    let s := s.tenantRec l.vf [l.recHead cause 3, l.recWhere, n, s.time]
    (s.modLaunch id fun x => { x with discard := none, counterPending := some (true, 1 + 2 ^ 32) }).updateCtr id

/-- Discards a node, its resources released as those of a faulted launch, and puts its packet back, or ends it at its fourth discard
(R412). Nothing that the discarded run still has under way reports to the launch again: its lane groups are gone. -/
def State.requeue (s : State) (id : Nat) (cause : Cause) : State :=
  match s.launches.find id with
  | none => s
  | some l =>
    if 3 ≤ l.tries then s.endFaulted id cause else
    let ws := (s.wgsOf id).map (·.1)
    let s := ((s.dropWgs id).closeLaunch id).freeTags id l.part
    let s := { s with lgs := s.lgs.filter fun p => !ws.contains p.2.wg }
    let s := s.modLaunch id fun x => { x.atPacket with
      st := .waiting, next := 0, faulted := false, faultCause := .none, discard := none, tries := x.tries + 1
      spans := [], step := {}, since := s.now, late := false, gen := 0, resize := none, parkCnt := 63, parkTmo := 50 }
    s.tenantRec l.vf [l.recHead cause 4, l.recWhere, l.tries + 1, s.time]

end Sys2Proof.Machine
end

