-- ==== Sys2Proof/Machine/EvLaunch.lean ====
section
/-! DEFINITION. The events of launches (R31 to R36, R41, R43, R48, R154, R241, R406, R412). -/

namespace Sys2Proof.Machine

/-- The group timeout of a partition, in cycles (R14, R405). -/
def State.gto (s : State) (part : Nat) : Nat := 20000 * s.winBits (oPART part) 16 8

/-- Whether a function's queue exists (R24, R240). -/
def State.queueOn (s : State) (vf q : Nat) : Bool := vf < 1024 && decide (q < 2 ^ s.winBits (oVFM vf) 5 2) && decide (q < 8)

/-- A write of `LQT_q` (R241); one that would overfill the ring is ignored. -/
def State.writeLqt (s : State) (vf q tail : Nat) : State :=
  let head := s.vrBits vf (oLQB q + 16) 0 32
  if qSize (s.vrBits vf (oLQB q) 0 4) < (tail % 2 ^ 32 + 2 ^ 32 - head) % 2 ^ 32 then s else
  let k := 8 * vf + q
  let s := s.setVrBits vf (oLQB q + 8) 0 32 tail
  { s with nseq := s.nseq + 1, lqt := s.lqt.put k (Tab.getD s.lqt [] k ++ [(tail % 2 ^ 32, s.nseq, s.hostPts)]) }

/-- LAUNCH_DOORBELL (R241): the driver writes a queue's tail. -/
def execLaunchDoorbell (vf q tail : Nat) (s : State) : Out :=
  event (s.queueOn vf q && s.hostUp) s fun s => s.writeLqt vf q tail

/-- Whether the device can read the head packet of a queue: the function and its partition are enabled, the partition is not torn
down (R17), and the queue does not wait on a second-stage fault. -/
def State.canReadQueue (s : State) (vf q : Nat) : Bool :=
  s.queueOn vf q && s.vfEn vf && s.partEn (s.vfPart vf) && (s.part (s.vfPart vf)).teardown.isNone &&
    s.vrBits vf (oLQB q + 16) 0 32 != s.vrBits vf (oLQB q + 8) 0 32 &&
    !(s.s2w.any fun w => w.2.2 == .queue vf q)

/-- The queue's head moves past a packet. -/
def State.pastHead (s : State) (vf q : Nat) : State :=
  let head := (s.vrBits vf (oLQB q + 16) 0 32 + 1) % 2 ^ 32
  let s := s.setVrBits vf (oLQB q + 16) 0 32 head
  let k := 8 * vf + q
  { s with lqt := s.lqt.put k ((Tab.getD s.lqt [] k).filter fun t =>
      decide (0 < (t.1 + 2 ^ 32 - head) % 2 ^ 32 ∧ (t.1 + 2 ^ 32 - head) % 2 ^ 32 < 2 ^ 31)) }

/-- LAUNCH_QUEUE_READ (R241): the device reads the head packet, as an acquire of the tail write, and hands it to the distributor. -/
def execLaunchQueueRead (vf q : Nat) (s : State) : Out :=
  memEvent (s.canReadQueue vf q) s fun s =>
    let part := s.vfPart vf
    let head := s.vrBits vf (oLQB q + 16) 0 32
    let ipa := s.vrBits vf (oLQB q) 12 36 * 4096 + 64 * (head % qSize (s.vrBits vf (oLQB q) 0 4))
    match s.ipaAddr part vf ipa 1 with
    | (s, none) => (s.s2Rec part vf 0 0 0 ipa 0 false true).s2Wait part ipa (.queue vf q)
    | (s, some (pa, kid)) =>
      let (s, bs, bad) := (s.keyRange pa 64 kid).devRead pa 64
      let words := (List.range 8).map fun i => BitVec.ofNat 64 (leNat ((bs.drop (8 * i)).take 8))
      let arr := s.arrivalOf vf q head
      let hp := s.tailPts vf q head
      let s := s.pastHead vf q
      if bad then s.tenantRec vf [recHead .poison 2 part vf 0 0 0 0, head + q * 2 ^ 32, 0, s.time]
      else s.takeLaunch words vf q head arr (max (s.dirOf (pa / 128)).wts hp)

/-- WORKGROUP_PLACE (R35, R36, R40, R45, R153): the distributor places the work that its order names. -/
def execWorkgroupPlace (launch : Nat) (s : State) : Out :=
  match s.launches.find launch with
  | none => .next s
  | some l =>
    memEvent (s.work l.part == some (.place launch)) s fun s =>
      if l.st = .waiting then
        match s.tryStart launch with
        | none => s
        | some t =>
          let t := t.modPart l.part fun p => { p with plb := p.plb.filter fun i => !(s.gangOf launch).contains i }
          if l.urgent then t
          else t.modPart l.part fun p => { p with rr := l.vf + 1, rrq := p.rrq.put l.vf (l.queue + 1) }
      else (s.tryNext launch).getD s

/-! ## Starts (R32, R48, R377) -/

/-- A start that fails (R32): the workgroup never starts, and its launch is faulted; a node is discarded. -/
def State.failStart (s : State) (w : Nat) (c : Cause) : State :=
  match s.wgs.find w with
  | none => s
  | some g =>
    match s.launches.find g.launch with
    | none => s
    | some la =>
      if la.node && (c = .poison || c = .deferred) then s.discardNode g.launch c
      else
        let s := { s with lgs := s.lgs.map fun (p : Nat × Lg) =>
          (p.1, if p.2.wg = w then { p.2 with status := .ended, em := 0, task := none } else p.2) }
        (s.modWg w fun g => { g with st := .ended }).faultLaunch g.launch c

/-- What a start reads, waits on or fails for. -/
def State.startRead (s : State) (w va n : Nat) (la : Launch) (k : List Byte → State → State) : State :=
  match State.readFor la.part la.vf (pieces va n) (s, []) with
  | (s, .bytes bs) => k bs s
  | (s, .fail c) =>
    let s := if c = .gate then s.gateRec la.part la.vf 0 0 0 0 va true else s
    s.failStart w c
  | (s, .touch p) => (s.pageReq la.vf la.part p.va 0 p.pool p.lvl (.start w)).2
  | (s, .s2 ipa va t) => (s.s2Rec la.part la.vf 0 0 0 ipa va t true).s2Wait la.part ipa (.start w)

/-- The lane groups of a workgroup start at a line, with `k` registers from the image (R32). -/
def State.goLive (s : State) (w : Nat) (entry : Nat) (img : List Byte) (pts : Nat) : State :=
  let k := (List.range 32).foldl (fun (t : Tab DWord) i =>
    t.setD 0 i (BitVec.ofNat 64 (leNat ((img.drop (8 * i)).take 8)))) []
  let s := s.modWg w fun g => { g with k := k, entry := entry, st := .resident }
  let s := { s with lgs := s.lgs.map fun (p : Nat × Lg) =>
    (p.1, if p.2.wg = w then { p.2 with pc := linePacket entry, fpc := 0 } else p.2) }
  s.raisePts (((s.wgs.find w).map (·.core)).getD 0) pts

/-- `v0` and `v1` of a handler lane group (R48). -/
def Lg.payload (l : Lg) (m : Msg) : Lg :=
  (l.wrV 0xFFFFFFFF 0 fun i => BitVec.ofNat 32 (leNat ((m.data.drop (4 * i)).take 4))).wrV 0xFFFFFFFF 1 fun _ =>
    BitVec.ofNat 32 (coreX m.src + coreY m.src * 2 ^ 8 + m.len * 2 ^ 16)

/-- WORKGROUP_START (R32, R48, R377): the `k` image is read, for a handler its table entry before, and the lane groups start. -/
def execWorkgroupStart (wg : Nat) (s : State) : Out :=
  memFire (.workgroupStart wg) s fun s =>
    match s.wgs.find wg with
    | none => s
    | some g =>
      match s.launches.find g.launch with
      | none => s
      | some la =>
        if g.st ≠ .starting then s else
        let img := fun (k : List Byte → State → State) (s : State) =>
          if la.kinit = 0 then k [] s else s.startRead wg la.kinit 256 la k
        match g.kind with
        | .grid => img (fun bs s => s.goLive wg g.entry bs la.pts) s
        | .task t => img (fun bs s => s.goLive wg g.entry bs
            (((Tab.find (s.part la.part).tasks t).map (·.pts)).getD la.pts)) s
        | .handler m =>
          match s.msgs.find m with
          | none => s
          | some m =>
            s.startRead wg (la.htab + 8 * m.entry) 8 la fun bs s =>
              let e := leNat bs
              if e / 2 ^ 57 ≠ 0 || e % 128 ≠ 0 then s.failStart wg .illegal
              else img (fun bs s => { s.goLive wg e bs m.pts with
                lgs := s.lgs.map fun (p : Nat × Lg) =>
                  (p.1, if p.2.wg = wg then { p.2 with pc := linePacket e }.payload m else p.2) }) s

/-! ## Completion and timeouts -/

/-- Whether a launch has completed (R33): its counter's release covers its stores, so these have been performed. -/
def State.launchOver (s : State) (id : Nat) : Bool :=
  match s.launches.find id with
  | none => false
  | some l =>
    l.st == .running && !l.faulted && l.discard.isNone && decide (l.total ≤ l.next) &&
      (s.wgsOf id).all (fun p => p.2.st == .ended) &&
      !((s.part l.part).tasks.any fun t => t.2.launch == id) &&
      !(s.cmds.any fun c => c.2.launch == id && c.2.live) &&
      !(s.accs.any fun p => p.2.busy && ((s.wgs.find p.2.wg).map fun w => w.launch == id).getD false)

/-- LAUNCH_COMPLETE (R33): the launch ends, and its completion counter adds 1. -/
def execLaunchComplete (launch : Nat) (s : State) : Out :=
  memEvent (s.launchOver launch) s fun s =>
    ((s.closeLaunch launch).modLaunch launch fun x => { x with counterPending := some (false, 1) }).updateCtr launch

/-- GROUP_WAIT_TIMEOUT (R154): a waiting co-resident launch holds later work back. -/
def execGroupWaitTimeout (launch : Nat) (s : State) : Out :=
  match s.launches.find launch with
  | none => .next s
  | some l =>
    event ((l.st == .waiting || l.st == .gang) && l.cor && !l.late && decide (l.since + s.gto l.part < s.now)) s fun s =>
      s.modLaunch launch fun x => { x with late := true }

/-- A write of `RSZ` (R41, R241). -/
def State.writeRsz (s : State) (vf : Nat) (value : DWord) : State :=
  let lnum := bits value 0 32
  let q := bits value 32 3
  let n := bits value 35 3
  match s.launches.find? fun p => p.2.vf == vf && p.2.st == .running && p.2.elas && p.2.queue == q && p.2.lnum % 2 ^ 32 == lnum with
  | some (id, l) =>
    if (n == 1 || n == 2 || n == 4) && decide (l.dmin ≤ n ∧ n ≤ l.dmax) then
      s.modLaunch id fun x => { x with resize := some n }
    else s.rejectRec l .illegal
  | none => s.tenantRec vf [recHead .illegal 2 (s.vfPart vf) vf 0 0 0 0, lnum + q * 2 ^ 32, 0, s.time]

/-- RESIZE_REQUEST (R41, R241): a write to `RSZ`. -/
def execResizeRequest (vf : Nat) (value : BitVec 64) (s : State) : Out :=
  event (decide (vf < 1024) && s.hostUp) s fun s => s.writeRsz vf value

/-- Whether every lane group of a launch has ended or is stopped. -/
def State.allStopped (s : State) (id : Nat) : Bool :=
  s.lgs.all fun p => !(((s.wgs.find p.2.wg).map fun w => w.launch == id).getD false) ||
    (match p.2.status with | .ended => true | .stopped _ => true | _ => false)

/-- Whether a faulted launch is ended (R406). -/
def Launch.ending (l : Launch) : Bool := l.st == .running && l.faulted && l.discard.isNone

/-- FAULTED_LAUNCH_END (R406). -/
def execFaultedLaunchEnd (launch : Nat) (s : State) : Out :=
  match s.launches.find launch with
  | none => .next s
  | some l => memEvent (l.ending && s.allStopped launch) s fun s => s.endFaulted launch l.faultCause

/-- FAULTED_LAUNCH_TIMEOUT (R406): no lane group of a faulted launch has issued for the group timeout. -/
def execFaultedLaunchTimeout (launch : Nat) (s : State) : Out :=
  match s.launches.find launch with
  | none => .next s
  | some l =>
    memEvent (l.ending && decide (l.lastIssue + s.gto l.part < s.now)) s fun s => s.endFaulted launch l.faultCause

/-- Whether a lane group of a launch is inside a hold run. -/
def State.inRun (s : State) (id : Nat) : Bool :=
  s.lgs.any fun p => ((s.wgs.find p.2.wg).map fun w => w.launch == id).getD false && p.2.inRun

/-- NODE_DISCARD (R412): a node is discarded and its packet put back. -/
def execNodeDiscard (launch : Nat) (s : State) : Out :=
  match s.launches.find launch with
  | none => fire (.nodeDiscard launch) s id
  | some l =>
    if s.inRun launch then .next s
    else memFire (.nodeDiscard launch) s fun s =>
      match l.discard with
      | none => s
      | some c => s.requeue launch c

/-! ## Tasks (R43) -/

/-- TASK_CLAIM (R43): a core takes the next record of the pool, or half of a claimed one, and starts a lane group for it. -/
def execTaskClaim (part core : Nat) (s : State) : Out :=
  event (s.work part == some (.claim core)) s fun s =>
    match s.claimNext part with
    | none => s
    | some (c, r) =>
      match (s.part part).tasks.find r with
      | none => s
      | some t =>
        match s.launches.find t.launch with
        | none => s
        | some la =>
          let lg := s.nseq + 1
          let m := t.cur + t.g * ceilDiv (ceilDiv (t.hi - t.cur) t.g) 2
          let r' := if t.holder.isNone then r else (s.part part).tasks.fresh
          let put := fun (ts : Tab Task) =>
            if t.holder.isNone then ts.put r { t with holder := some lg }
            else (ts.put r { t with hi := m }).put r' { t with cur := m, holder := some lg }
          let s := s.modPart part fun p => Part.water { p with tasks := put p.tasks }
          let s := s.addWg { launch := t.launch, kind := .task r', core := c, home := c, nlg := 1, bank := (s.core c).target }
            la.alloc t.entry
          s.modLg lg fun l => { l with task := some r' }

end Sys2Proof.Machine
end

