-- ==== Sys2Proof/Machine/Narrow.lean ====
section
/-! DEFINITION. Narrow formats: descriptors (R85, R86), decoding (R87), conversions between all formats (R97 to R100),
and the group sums of matrix products (R92, R94, R95). -/

namespace Sys2Proof.Machine

/-- A format descriptor's fields (R85). -/
structure Desc where
  w : Nat
  s : Nat
  e : Nat
  rsv : Nat
  bias : Int
  cls : Nat
  sat : Bool
  deriving DecidableEq, Repr

def Desc.of (x : Nat) : Desc :=
  let b := (x >>> 12) % 256
  { w := x % 16, s := (x >>> 4) % 2, e := (x >>> 5) % 16, rsv := (x >>> 9) % 8 + (x >>> 23) % 512,
    bias := if b < 128 then b else (b : Int) - 256, cls := (x >>> 20) % 4, sat := (x >>> 22) % 2 = 1 }

/-- Mantissa width. -/
def Desc.m (d : Desc) : Nat := d.w - d.s - d.e

/-- The rules of R86. For e = 0, s = 1 and w - s - bias = 128 the formula holds though the least element is no FP32 number; the model goes by the
formula (log entry 70). -/
def Desc.valid (d : Desc) : Bool :=
  2 ≤ d.w && d.w ≤ 8 && d.s + d.e ≤ d.w && d.rsv == 0 && d.cls != 3 && (d.e != 0 || d.cls == 0)
    && (d.cls != 2 || (2 ≤ d.e && 1 ≤ d.m))
    && (if d.e = 0 then decide (((d.w - d.s : Nat) : Int) - d.bias ≤ 128)
        else decide (((2 ^ d.e - (if d.cls = 2 then 2 else 1) : Nat) : Int) - d.bias ≤ 127))

/-- A two's-complement reading of `w` bits. -/
def sextNat (w x : Nat) : Int := if 2 ^ (w - 1) ≤ x % 2 ^ w then ((x % 2 ^ w : Nat) : Int) - (2 ^ w : Nat) else (x % 2 ^ w : Nat)

/-- The value of an element (R87). -/
def Desc.num (d : Desc) (x : Nat) : Num :=
  if d.e = 0 then
    let n : Int := if d.s = 1 then sextNat d.w x else ((x % 2 ^ d.w : Nat) : Int)
    .fin (n < 0) n.natAbs (-d.bias)
  else
    let neg := d.s = 1 && (x >>> (d.w - 1)) % 2 = 1
    let m := x % 2 ^ d.m
    let e := (x >>> d.m) % 2 ^ d.e
    let top := 2 ^ d.e - 1
    if d.cls = 2 && e = top then (if m = 0 then .inf neg else .nan false)
    else if d.cls = 1 && e = top && m = 2 ^ d.m - 1 then .nan false
    else if e = 0 then .fin neg m (1 - d.bias - d.m)
    else .fin neg (2 ^ d.m + m) ((e : Int) - d.bias - d.m)

/-- The encoding of the largest finite magnitude, e ≥ 1. -/
def Desc.maxEnc (d : Desc) : Nat :=
  if d.cls = 2 then (2 ^ d.e - 1) * 2 ^ d.m - 1 else if d.cls = 1 then 2 ^ (d.e + d.m) - 2 else 2 ^ (d.e + d.m) - 1

/-- The canonical NaN of a narrow format (R98). -/
def Desc.nan (d : Desc) : Nat := 2 ^ (d.w - d.s) - 1
def Desc.sign (d : Desc) (neg : Bool) : Nat := if neg && d.s = 1 then 2 ^ (d.w - 1) else 0

/-- A value m·2^e rounded to an integer in a mode, and whether bits were lost. -/
def roundInt (r : Rnd) (neg : Bool) (m : Nat) (e : Int) : Int × Bool :=
  let (n, nx) := if 0 ≤ e then (m <<< e.toNat, false) else roundShift r m (-e).toNat
  (if neg then -(n : Int) else n, nx)

/-- An integer target of `w` bits, signed or not (R99): the value clamped, with its flags. -/
def toInt (w : Nat) (signed : Bool) (r : Rnd) : Num → Int × FFlags
  | .nan _ => (0, fNv)
  | .inf s =>
    (if s then (if signed then -(2 ^ (w - 1) : Nat) else 0) else ((2 ^ (if signed then w - 1 else w) : Nat) : Int) - 1, fNv)
  | .fin s m e =>
    let lo : Int := if signed then -(2 ^ (w - 1) : Nat) else 0
    let hi : Int := ((2 ^ (if signed then w - 1 else w) : Nat) : Int) - 1
    let (n, nx) := roundInt r s m e
    if n < lo then (lo, fNv) else if hi < n then (hi, fNv) else (n, if nx then fNx else 0)

/-- The low `w` bits of an integer. -/
def wrapInt (w : Nat) (n : Int) : Nat := (n % (2 ^ w : Nat)).toNat

/-- A conversion into a narrow format (R97 to R99). -/
def Desc.conv (d : Desc) (r : Rnd) (x : Num) : Nat × FFlags :=
  if d.e = 0 then
    let y := match x with
      | .fin s m e => .fin s m (e + d.bias)
      | y => y
    let (n, fl) := toInt d.w (d.s = 1) r y
    (wrapInt d.w n, fl)
  else
    let satr := r = .sat || d.sat
    match x with
    | .nan sg => if d.cls = 0 then (0, fNv) else (d.nan, nvIf sg)
    | .inf neg =>
      if neg && d.s = 0 then (0, fNv)
      else if d.cls = 0 then (d.sign neg + d.maxEnc, fNv)
      else if satr then (d.sign neg + d.maxEnc, 0)
      else if d.cls = 1 then (d.nan, fNv)
      else (d.sign neg + (2 ^ d.e - 1) * 2 ^ d.m, 0)
    | .fin neg m e =>
      if m = 0 then (d.sign neg, 0) else
      let (n, nx, tiny) := gridRound d.m d.bias r m e
      if neg && d.s = 0 then (0, fNx ||| (if n = 0 then fUf else fNv))
      else if d.maxEnc < n then
        let big := d.sign neg + d.maxEnc
        (if satr || r = .rz || d.cls = 0 then big
          else if d.cls = 1 then d.nan else d.sign neg + (2 ^ d.e - 1) * 2 ^ d.m, fOf ||| fNx)
      else (d.sign neg + n, (if nx then fNx else 0) ||| (if nx && tiny then fUf else 0))

/-- A conversion into a wide format in a mode (R97, R98). -/
def Fmt.conv (f : Fmt) (r : Rnd) : Num → Nat × FFlags
  | .nan s => (f.nan, nvIf s)
  | .inf s => (f.sign s + (if r = .sat then f.inf - 1 else f.inf), 0)
  | .fin s m e => f.round r s m e

/-- An integer as a number. -/
def Num.ofInt (n : Int) : Num := .fin (n < 0) n.natAbs 0

/-- `cvt.rint` (R294): an integral FP32 value in a mode. -/
def rintF32 (r : Rnd) (a : Nat) : Nat × FFlags :=
  match f32.num a with
  | .nan s => (f32.nan, nvIf s)
  | .inf _ => (a, 0)
  | .fin s m e =>
    if m = 0 then (a, 0) else
    let (n, nx) := roundInt (if r = .rz then .rz else .rne) false m e
    ((f32.round .rne s n.natAbs 0).1, if nx then fNx else 0)

/-! ## Matrix products (R92, R94, R95) -/

/-- One term of a group: the elements and the sum of their block scales, or none for a zero block (R92). -/
def termOf (a b : Num) (xa xb : Int) : Num :=
  if xa = -128 || xb = -128 then .fin false 0 0
  else match (a.mul b).1 with
    | .fin s m e => .fin s m (e + xa + xb)
    | y => y

/-- The exact sum of a group; an exact zero is +0 (R94). -/
def groupSum (ps : List Num) : Num :=
  match ps.foldl (fun (s p : Num) => (s.add p).1) (Num.fin false 0 0) with
  | .fin s m e => if m = 0 then .fin false 0 0 else .fin s m e
  | y => y

/-- The accumulation of a group in floating mode: two roundings (R94). -/
def accFloat (acc : Nat) (ps : List Num) : Nat := (f32.fadd acc (f32.ofNum (groupSum ps)).1).1

/-- The integer value of an exact sum of integers. -/
def Num.toInt : Num → Int
  | .fin s m e => let n : Int := (m <<< e.toNat : Nat); if s then -n else n
  | _ => 0

/-- The accumulation of a group in integer mode (R95). -/
def accInt (acc : Nat) (ps : List Num) : Nat := wrapInt 32 ((acc : Int) + (groupSum ps).toInt)

/-- Elements in a row of width `w` (R90). -/
def kel (w : Nat) : Nat := 1024 / w

theorem narrow_examples :
    (Desc.of 0x107098).conv .rne (f32.num 0x43960000) = (0x79, fNx) ∧
    (Desc.of 0x107098).conv .rne (f32.num 0x43E80000) = (0x7E, fNx) ∧
    (Desc.of 0x107098).conv .rne (f32.num 0x43EB0000) = (0x7F, fOf ||| fNx) ∧
    (Desc.of 0x507098).conv .rne (f32.num 0x43EB0000) = (0x7E, fOf ||| fNx) ∧
    (Desc.of 0x107098).conv .rz (f32.num 0x43EB0000) = (0x7E, fNx) := by decide +kernel

end Sys2Proof.Machine
end

