-- ==== Sys2Proof/Machine/Matrix.lean ====
section
/-! DEFINITION. Matrix instructions at issue: major 12 (R173 to R179, R336 to R349, R171). -/

namespace Sys2Proof.Machine

/-! ## Slots, tiles and their claims -/

def tileKey (bank t : Nat) : Nat := 16 * bank + t
def State.slot (s : State) (core n : Nat) : Slot := Tab.getD (s.core core).slots {} n
def State.setSlot (s : State) (core n : Nat) (x : Slot) : State := s.modCore core fun k => { k with slots := k.slots.setD {} n x }
def State.tile (s : State) (core bank t : Nat) : Tile := Tab.getD (s.core core).tiles {} (tileKey bank t)
def State.setTile (s : State) (core bank t : Nat) (x : Tile) : State :=
  s.modCore core fun k => { k with tiles := k.tiles.setD {} (tileKey bank t) x }

/-- The queued commands of a workgroup, in queue order. -/
def State.mxCmds (s : State) (core wg : Nat) : List (Nat × Cmd) :=
  (s.core core).mxq.filterMap fun id => ((s.cmds.find id).filter fun c => c.wg == wg).map (id, ·)

/-- The queued release of a resource, if any (R341). -/
def State.relOf (s : State) (core wg : Nat) (tile : Bool) (n : Nat) : Option Nat :=
  ((s.mxCmds core wg).find? fun p => p.2.body == .mxRel tile n).map (·.1)

/-- Who claims a resource. -/
def State.claimOf (s : State) (core bank : Nat) (tile : Bool) (n : Nat) : Option Nat :=
  if tile then (s.tile core bank n).claim else (s.slot core n).claim

def State.setClaim (s : State) (core bank : Nat) (tile : Bool) (n : Nat) (o : Option Nat) (pair : Bool) : State :=
  if tile then s.setTile core bank n { s.tile core bank n with claim := o, pair := pair }
  else s.setSlot core n { s.slot core n with claim := o, pair := pair }

/-- Whether the workgroup will hold a resource once its earlier commands have taken effect (R338, R341). -/
def Ctx.holds (c : Ctx) (s : State) (tile : Bool) (n : Nat) : Bool :=
  s.claimOf c.core c.bank tile n == some c.lg.wg && (s.relOf c.core c.lg.wg tile n).isNone

/-! ## Reservation records and modes (R175 to R177) -/

def recKind (w : DWord) : Nat := bits w 34 2
def recDesc (w : DWord) : Desc := Desc.of (bits w 0 32)
/-- The block length L (R93). -/
def recL (w : DWord) : Nat := 16 * 2 ^ bits w 32 2
def recSofs (w : DWord) : Nat := bits w 36 9
/-- The width of a record's elements: 16 for BF16 and FP16. -/
def recW (w : DWord) : Nat := if recKind w = 0 then (recDesc w).w else 16
/-- Elements of a row. -/
def recKel (w : DWord) : Nat := kel (recW w)
/-- Blocks of a row. -/
def recNb (w : DWord) : Nat := ceilDiv (recKel w) (recL w)

/-- The cause of writing a record (R176, R342). -/
def recCause (w : DWord) : Cause :=
  if recKind w = 3 || bits w 45 19 ≠ 0 then .illegal
  else if recKind w = 0 && (!(recDesc w).valid || bits w 32 2 == 3 || decide (512 < recSofs w + 64 * recNb w)) then .fmt
  else .none

/-- Whether two records may be multiplied (R91, R176). -/
def recPair (a b : DWord) : Bool :=
  recKind a != 3 && recKind b != 3 && (recKind a == 0) == (recKind b == 0) && recW a == recW b

/-- Whether a product of two records runs in integer mode (R95). -/
def recInt (a b : DWord) : Bool :=
  let z := fun w => recKind w == 0 && (recDesc w).e == 0 && (recDesc w).bias == 0
  z a && z b

/-- The mode that a product gives a fresh tile (R177): 1 float, 2 integer. -/
def recMode (a b : DWord) : Nat := if recInt a b then 2 else 1

/-! ## The state predicted at issue (R338) -/

/-- Records and modes as they will stand; none where a pending transfer supplies them. -/
structure Forecast where
  recs : Tab (Option DWord) := []
  modes : Tab (Option Nat) := []

def Forecast.rec_ (f : Forecast) (s : State) (core n : Nat) : Option DWord :=
  match f.recs.find n with
  | some r => r
  | none => some (s.slot core n).record

def Forecast.mode (f : Forecast) (s : State) (core bank t : Nat) : Option Nat :=
  match f.modes.find t with
  | some m => m
  | none => some (s.tile core bank t).mode

/-- The effect of one queued command on the forecast. -/
def Forecast.step (s : State) (core bank : Nat) (f : Forecast) (b : CmdBody) : Forecast :=
  let product := fun (t x y : Nat) =>
    match f.mode s core bank t with
    | some 0 => { f with modes := f.modes.put t (match f.rec_ s core x, f.rec_ s core y with
        | some a, some b => some (recMode a b)
        | _, _ => none) }
    | _ => f
  match b with
  | .mxRec n w => { f with recs := f.recs.put n (some w) }
  | .mxLdb n _ _ _ _ => { f with recs := f.recs.put n none }
  | .mxZero t => { f with modes := f.modes.put t (some 0) }
  | .mxMma t x y => product t x y
  | .mxPmma t x y => product t x y
  | .mxDrain t _ _ w => if bit w 37 then { f with modes := f.modes.put t (some 0) } else f
  | _ => f

def Ctx.forecast (c : Ctx) (s : State) : Forecast :=
  (s.mxCmds c.core c.lg.wg).foldl (fun f p => f.step s c.core c.bank p.2.body) {}

/-- Whether a product's records and tile mode conflict (R91, R177); what is unknown is checked at the start. -/
def fmtBad (a b : Option DWord) (mode : Option Nat) : Bool :=
  let kind3 := fun r : Option DWord => (r.map fun w => recKind w == 3).getD false
  match a, b with
  | some x, some y => !recPair x y || (match mode with | some m => m != 0 && m != recMode x y | none => false)
  | x, y => kind3 x || kind3 y

/-! ## Issue -/

/-- A matrix instruction: not ready while the queue is full (R179); with `em` = 0 only its counter adds 1 (R178). -/
def mxWord (i : Instr) (s : State) (ctr : Option (BitVec 4)) (chk : Ctx → State → List Finding)
    (k : Ctx → State → State) : Out :=
  memWord i s fun c s =>
    if 8 ≤ (s.core c.core).mxq.length then s.holdBack c
    else if c.em = 0 then (match ctr with | none => s | some n => s.addCtr c.g n.toNat 1)
    else s.checked c (chk c s) fun s => k c s

/-- Puts a command into the matrix queue. -/
def State.mxQueue (s : State) (c : Ctx) (ctr : Option (BitVec 4)) (body : CmdBody) (gran : Tab (Nat × Nat) := []) : State :=
  let x := { c.cmd s (ctr.map (·.toNat)) body with gran := gran }
  ((s.putCmd x).modCore c.core fun k => { k with mxq := k.mxq ++ [x.seq] }).mxHead c.core

/-- `mx.claim` (R174, R341): decided at issue; a slot of a pre-empted context is evicted first (R168). -/
def execMxClaim (p : BitVec 3) (y w : BitVec 1) (n : BitVec 5) (s : State) : Out :=
  mxWord (.mxClaim p y w n) s none (fun _ _ => []) fun c s =>
    let tile := y = 1
    let set := fun (s : State) (b : Bool) => s.up c fun l => l.setQ p.toNat (allQ b)
    match s.claimOf c.core c.bank tile n.toNat with
    | none => set (s.setClaim c.core c.bank tile n.toNat (some c.lg.wg) (w = 1)) true
    | some o =>
      if o = c.lg.wg then
        let s := match s.relOf c.core o tile n.toNat with
          | some r => s.endCmd r
          | none => s
        set (s.mxQueue c none (.mxPair tile n.toNat (w = 1))) true
      else if !tile && (((s.wgs.find o).map fun g => g.bank != c.bank).getD false) then
        (s.postOnce (.slotEvictionDone c.core n.toNat)).holdBack c
      else set s false

/-- Withdraws the armed transfers of a workgroup on a slot that have no match (R344). -/
def State.withdrawLdb (s : State) (core wg n : Nat) : State :=
  (s.mxCmds core wg).foldl (fun s p =>
    match p.2.body with
    | .mxLdb m _ _ _ none => if m = n then s.endCmd p.1 else s
    | _ => s) s

/-- `mx.rel` (R341). -/
def execMxRel (y : BitVec 1) (n : BitVec 5) (s : State) : Out :=
  mxWord (.mxRel y n) s none (fun c s => c.exF (!c.holds s (y = 1) n.toNat) .slot) fun c s =>
    let s := if y = 1 then s else s.withdrawLdb c.core c.lg.wg n.toNat
    s.mxQueue c none (.mxRel (y = 1) n.toNat)

/-- `mx.rec` (R342). -/
def execMxRec (n r : BitVec 5) (s : State) : Out :=
  mxWord (.mxRec n r) s none
    (fun c s =>
      let k := recCause (c.kr r.toNat)
      c.exIll (k == .illegal) ++ c.exF (!c.holds s false n.toNat) .slot ++ c.exF (k == .fmt) .fmt)
    fun c s => s.mxQueue c none (.mxRec n.toNat (c.kr r.toNat))

/-- The base of a command that reaches memory (R337). -/
def Ctx.base (c : Ctx) (m : BitVec 6) (g : BitVec 3) : Nat := c.addr g.toNat m.toNat 0 c.exLane

/-- Queues a matrix command that reaches memory: held by an acquire (R350), aligned, translated (R339). -/
def State.mxMemory (s : State) (c : Ctx) (ctr : BitVec 4) (need kind base stride : Nat) (body : CmdBody) : State :=
  if s.acquiring c.g then s.holdBack c
  else if base % 64 ≠ 0 || stride % 64 ≠ 0 then s.alignTrap c base
  else s.withGrans c need kind body.segs fun t s => s.mxQueue c (some ctr) body t

/-- `mx.ld` (R343). -/
def execMxLd (m : BitVec 6) (n : BitVec 5) (g : BitVec 3) (ctr : BitVec 4) (s : State) : Out :=
  mxWord (.mxLd m n g ctr) s (some ctr)
    (fun c s => c.exReg [m.toNat, m.toNat + 1] ++ c.exF (!c.holds s false n.toNat) .slot) fun c s =>
      let stride := (c.v (m.toNat + 1) c.exLane).toNat
      s.mxMemory c ctr 1 0 (c.base m g) stride (.mxLd n.toNat (c.base m g) stride false)

/-- `mx.ld.s` (R343). -/
def execMxLdS (m : BitVec 6) (n : BitVec 5) (g : BitVec 3) (ctr : BitVec 4) (s : State) : Out :=
  mxWord (.mxLdS m n g ctr) s (some ctr)
    (fun c s => c.exReg [m.toNat] ++ c.exF (!c.holds s false n.toNat) .slot) fun c s =>
      s.mxMemory c ctr 1 0 (c.base m g) 0 (.mxLd n.toNat (c.base m g) 0 true)

/-- Whether a sender named by `mx.ldb` is refused (R344). -/
def ldbBad (core : Nat) (col : Bool) (x : Nat) : Bool :=
  if col then decide (7 < x) || x / 4 != coreY core / 4 || x == coreY core
  else x / 12 != coreX core / 12 || x == coreX core

/-- `mx.ldb` (R344). -/
def execMxLdb (w : BitVec 1) (x n : BitVec 5) (ctr h : BitVec 4) (s : State) : Out :=
  mxWord (.mxLdb w x n ctr h) s (some ctr)
    (fun c s => c.exIll (ldbBad c.core (w = 1) x.toNat) ++ c.exF (!c.holds s false n.toNat) .slot) fun c s =>
      s.mxQueue c (some ctr) (.mxLdb n.toNat (w = 1) x.toNat h.toNat none)

/-! ## Products and the governor (R156, R171) -/

/-- The next stalled issue after a core, round-robin over the bulkhead's cores: the oldest of its core. -/
def Gov.nextIssue (s : State) (g : Gov) (cores : List Nat) : Option (Nat × Nat) :=
  let order := (cores.dropWhile fun c => c != g.lastCore).drop 1 ++ cores.takeWhile (fun c => c != g.lastCore) ++ [g.lastCore]
  order.findSome? fun c => g.waiting.find? fun p => ((s.wgs.find (s.wgOf p.1)).map fun w => w.core == c).getD false

/-- Admits stalled issues while units last. -/
def Gov.letThrough (s : State) (cores : List Nat) : Nat → Gov → Gov
  | 0, g => g
  | n + 1, g =>
    match g.nextIssue s cores with
    | none => g
    | some (l, cost) =>
      if g.used = 0 || g.used + cost ≤ g.budget then
        Gov.letThrough s cores n { g with
          used := g.used + cost, waiting := g.waiting.erase (l, cost), admitted := g.admitted ++ [l]
          lastCore := ((s.wgs.find (s.wgOf l)).map (·.core)).getD g.lastCore }
      else g

/-- Whether a stalled lane group still stands at its issue. -/
def State.stalledStill (s : State) (g : Nat) : Bool :=
  ((s.lgs.find g).map fun l => match l.status with | .held _ => true | .ready => true | _ => false).getD false

/-- The governor of a bulkhead in the window of 256 cycles that has begun by now (R171): its budget is the current B, nothing is charged
but the stalled issues that it admits first. -/
def State.gov (s : State) (bh : Nat) : Gov :=
  let g := Tab.getD s.govs {} bh
  if s.now / 256 ≤ g.window then g else
  let live := g.waiting.filter fun p => s.stalledStill p.1
  let b := s.winBits (oMXB bh) 0 9
  let g := { g with used := 0, budget := if b = 0 then 1 else min b 256, window := s.now / 256, waiting := live
                    admitted := g.admitted.filter s.stalledStill }
  g.letThrough s (bhCores bh) live.length

/-- Admits a product of some units, or stalls it until a window admits it. -/
def State.govern (s : State) (c : Ctx) (cost : Nat) : State × Bool :=
  let bh := bhOf c.core
  let g := s.gov bh
  let set := fun (x : Gov) => { s with govs := s.govs.setD {} bh x }
  if g.admitted.contains c.g then (set { g with admitted := g.admitted.erase c.g }, true)
  else if g.used = 0 || g.used + cost ≤ g.budget then
    (set { g with used := g.used + cost, lastCore := c.core, waiting := g.waiting.filter fun p => p.1 != c.g }, true)
  else if g.waiting.any fun p => p.1 == c.g then (set g, false)
  else (set { g with stalls := g.stalls + 1, waiting := g.waiting ++ [(c.g, cost)] }, false)

/-- The checks of a product's own operands (R345, R346). -/
def Ctx.productF (c : Ctx) (s : State) (a b t : Nat) : List Finding :=
  let f := c.forecast s
  c.exF (!(c.holds s false a && c.holds s false b && c.holds s true t)) .slot ++
    c.exF (fmtBad (f.rec_ s c.core a) (f.rec_ s c.core b) (f.mode s c.core c.bank t)) .fmt

/-- Queues a product once the governor admits it. -/
def State.product (s : State) (c : Ctx) (ctr : BitVec 4) (cost : Nat) (body : CmdBody) : State :=
  match s.govern c cost with
  | (s, false) => s.holdBack c
  | (s, true) => s.mxQueue c (some ctr) body

/-- `mx.mma` (R345): `u` names slot B, `v` slot A. -/
def execMxMma (u v : BitVec 5) (ctr t : BitVec 4) (s : State) : Out :=
  mxWord (.mxMma u v ctr t) s (some ctr) (fun c s => c.productF s v.toNat u.toNat t.toNat) fun c s =>
    s.product c ctr 1 (.mxMma t.toNat v.toNat u.toNat)

/-- `mx.pmma` (R346). -/
def execMxPmma (u v : BitVec 5) (ctr t : BitVec 4) (s : State) : Out :=
  mxWord (.mxPmma u v ctr t) s (some ctr)
    (fun c s => c.exIll (coreX c.core % 4 == 3) ++ c.productF s v.toNat u.toNat t.toNat) fun c s =>
      s.product c ctr 2 (.mxPmma t.toNat v.toNat u.toNat)

/-- `mx.zero` (R347). -/
def execMxZero (ctr t : BitVec 4) (s : State) : Out :=
  mxWord (.mxZero ctr t) s (some ctr) (fun c s => c.exF (!c.holds s true t.toNat) .slot) fun c s =>
    s.mxQueue c (some ctr) (.mxZero t.toNat)

/-- `mx.drain` (R348, R185). -/
def execMxDrain (m : BitVec 6) (w : BitVec 5) (g : BitVec 3) (ctr t : BitVec 4) (s : State) : Out :=
  mxWord (.mxDrain m w g ctr t) s (some ctr)
    (fun c s =>
      let x := c.kr w.toNat
      c.exReg [m.toNat, m.toNat + 1] ++ c.exIll (bits x 38 26 != 0) ++ c.exF (!c.holds s true t.toNat) .slot ++
        c.exF (decide (5 < bits x 32 3) || bits x 35 2 == 3) .fmt) fun c s =>
      let stride := (c.v (m.toNat + 1) c.exLane).toNat
      s.mxMemory c ctr 2 1 (c.base m g) stride (.mxDrain t.toNat (c.base m g) stride (c.kr w.toNat))

/-- `mx.chk` (R349). -/
def execMxChk (d : BitVec 6) (ctr t : BitVec 4) (s : State) : Out :=
  mxWord (.mxChk d ctr t) s (some ctr) (fun c s => c.exF (!c.holds s true t.toNat) .slot) fun c s =>
    s.mxQueue c (some ctr) (.mxChk d.toNat t.toNat)

end Sys2Proof.Machine
end

