-- ==== Sys2Proof/Machine/EvMatrix.lean ====
section
/-! DEFINITION. The events of the matrix engines and broadcast buses (R171, R174, R179 to R189, R344 to R349, R441 to R443). -/

namespace Sys2Proof.Machine

/-! ## Starts (R179, R338, R346) -/

/-- The slots and tiles that a command names: whether a tile, its number, whether the command writes it. -/
def CmdBody.uses : CmdBody → List (Bool × Nat × Bool)
  | .mxRel t n => [(t, n, true)]
  | .mxPair t n _ => [(t, n, true)]
  | .mxRec n _ => [(false, n, true)]
  | .mxLd n _ _ _ => [(false, n, true)]
  | .mxLdb n _ _ _ _ => [(false, n, true)]
  | .mxMma t a b => [(true, t, true), (false, a, false), (false, b, false)]
  | .mxPmma t a b => [(true, t, true), (false, a, false), (false, b, false)]
  | .mxZero t => [(true, t, true)]
  | .mxDrain t _ _ _ => [(true, t, true)]
  | .mxChk _ t => [(true, t, true)]
  | _ => []

def usesMeet (a b : List (Bool × Nat × Bool)) : Bool :=
  a.any fun x => b.any fun y => x.1 == y.1 && x.2.1 == y.2.1 && (x.2.2 || y.2.2)

def CmdBody.isProduct : CmdBody → Bool
  | .mxMma .. | .mxPmma .. => true
  | _ => false

/-- What a paired product uses on its follower. -/
def CmdBody.followerUses : CmdBody → List (Bool × Nat × Bool)
  | .mxPmma t _ b => [(true, t, true), (false, b, true)]
  | _ => []

/-- The commands ahead of `id` in a queue. -/
def aheadOf (q : List Nat) (id : Nat) : List Nat := q.takeWhile fun j => j != id

/-- Whether the paired product that holds a core's array holds back command `id` of that core (R182, R346). -/
def State.slavedBack (s : State) (id : Nat) (c : Cmd) : Bool :=
  match (s.core c.core).slaved with
  | none => false
  | some p =>
    match s.cmds.find p with
    | none => false
    | some l =>
      if l.st = .running then c.body.isProduct || usesMeet l.body.followerUses c.body.uses
      else c.body.isProduct && decide (l.left ≤ id)

/-- Whether a follower can take a paired product: its array is idle and nothing running there touches what it uses. -/
def State.followerFree (s : State) (id : Nat) (c : Cmd) : Bool :=
  match c.body with
  | .mxPmma _ _ _ =>
    let f := s.core (c.core + 1)
    (f.slaved == none || f.slaved == some id) && !f.swapping &&
      !(f.mxq.any fun j => ((s.cmds.find j).map fun x => x.st == .running &&
        (x.body.isProduct || usesMeet c.body.followerUses x.body.uses)).getD false)
  | _ => true

/-- Whether two `mx.ldb` of one workgroup take transfers of the same sender, channel and bus: they do in issue order (R179). -/
def CmdBody.sameBus : CmdBody → CmdBody → Bool
  | .mxLdb _ q y h _, .mxLdb _ q' y' h' _ => q == q' && y == y' && h == h'
  | _, _ => false

/-- Whether a queued command can start: its core runs (R13), and nothing ahead of it that it must follow is unfinished. An `mx.ldb`
follows one ahead of it of the same sender until that one is armed. -/
def State.canMx (s : State) (id : Nat) (c : Cmd) : Bool :=
  let q := (s.core c.core).mxq
  let ahead := (aheadOf q id).filterMap fun j => s.cmds.find j
  c.st == .queued && q.contains id && s.bhSt (bhOf c.core) == 3 &&
    !(ahead.any fun x => (x.wg == c.wg && (usesMeet x.body.uses c.body.uses || (x.st == .queued && x.body.sameBus c.body))) ||
      (x.body.isProduct && c.body.isProduct)) &&
    !(s.slavedBack id c) && s.followerFree id c

/-- Whether the workgroup of a matrix instruction claims what it names; a load that waits for a bus transfer arms a slot that is evicted
meanwhile (R168, R184). -/
def State.claimed (s : State) (c : Cmd) : Bool :=
  c.body.uses.all fun u => s.claimOf c.core c.bank u.1 u.2.1 == some c.wg ||
    (match c.body with | .mxLdb n _ _ _ _ => ((s.core c.core).evSlots.find (32 * c.wg + n)).isSome | _ => false)

/-- Whether a resource of a follower, in its active bank, accepts a paired operation of a launch (R182). -/
def State.pairs (s : State) (core b launch : Nat) (tile : Bool) (n : Nat) : Bool :=
  let flag := if tile then (s.tile core b n).pair else (s.slot core n).pair
  flag && ((s.claimOf core b tile n).map fun w => ((s.wgs.find w).map fun g => g.launch == launch).getD false).getD false

/-- The bank in which a core holds a tile that accepts paired operations of a launch (R182): the active one, or the shadow bank, whose claims
stand while they are not evicted. -/
def State.pairBank (s : State) (core launch t : Nat) : Option Nat :=
  [(s.core core).act, 1 - (s.core core).act].find? fun b => s.pairs core b launch true t

/-- The cause found when a command starts (R338, R345, R346). -/
def State.startCause (s : State) (c : Cmd) : Cause :=
  if !s.claimed c then .slot else
  let r := fun n => some (s.slot c.core n).record
  match c.body with
  | .mxMma t a b => if fmtBad (r a) (r b) (some (s.tile c.core c.bank t).mode) then .fmt else .none
  | .mxPmma t a b =>
    let f := c.core + 1
    if !(s.pairs f 0 c.launch false b && (s.pairBank f c.launch t).isSome) then .slot
    else if fmtBad (r a) (r b) (some (s.tile c.core c.bank t).mode) ||
        fmtBad (r a) (some (s.slot f b).record) (some (s.tile f ((s.pairBank f c.launch t).getD 0) t).mode) then .fmt
    else .none
  | _ => .none

/-- The event that ends a started command, if one does. -/
def CmdBody.doneEv (id : Nat) : CmdBody → Option Ev
  | .mxRel _ _ => some (.mxRelEffect id)
  | .mxLd .. => some (.mxLdDone id)
  | .mxMma .. => some (.mxMmaDone id)
  | .mxPmma .. => some (.mxPmmaDone id)
  | .mxDrain .. => some (.mxDrainDone id)
  | .mxChk .. => some (.mxChkDone id)
  | _ => none

/-- MX_COMMAND_START (R338): a queued command starts and is checked again; `mx.rec`, a pair flag and `mx.zero` take effect, an
`mx.ldb` is armed. -/
def execMxCommandStart (cmd : Nat) (s : State) : Out :=
  match s.cmds.find cmd with
  | none => .next s
  | some c =>
    event (s.canMx cmd c) s fun s =>
      let e := s.startCause c
      if e ≠ .none then s.endCmd cmd e else
      let s := s.modCmd cmd fun x => { x with st := .running }
      match c.body with
      | .mxRec n w =>
        (s.setSlot c.core n { s.slot c.core n with
          record := w, pois := (s.slot c.core n).pois.filter fun p => decide (p < 2176)
          errs := (s.slot c.core n).errs.del 1088 }).endCmd cmd
      | .mxPair t n p => (s.setClaim c.core c.bank t n (some c.wg) p).endCmd cmd
      | .mxZero t => (s.setTile c.core c.bank t { claim := some c.wg, pair := (s.tile c.core c.bank t).pair }).endCmd cmd
      | .mxPmma t _ _ => ((s.modCore (c.core + 1) fun k => { k with slaved := some cmd }).modCmd cmd fun x =>
          { x with owned := [(s.pairBank (c.core + 1) c.launch t).getD 0] }).post (.mxPmmaDone cmd)
      | b => (match b.doneEv cmd with | some e => s.post e | none => s)

/-- MX_REL_EFFECT (R174): the resource is unclaimed; its contents stay. -/
def execMxRelEffect (cmd : Nat) (s : State) : Out :=
  fire (.mxRelEffect cmd) s fun s =>
    match s.cmds.find cmd with
    | some c => (match c.body with
      | .mxRel t n => (s.setClaim c.core c.bank t n none false).endCmd cmd
      | _ => s)
    | none => s

/-! ## Loads of slots -/

/-- The bytes of a table in [lo, lo + n), from 0. -/
def Tab.window (t : Tab Byte) (lo n : Nat) : Tab Byte :=
  (t.filter fun p => decide (lo ≤ p.1 ∧ p.1 < lo + n)).map fun p => (p.1 - lo, p.2)

/-- The 4-byte words of poisoned bytes. -/
def poisonWords (ps : List Nat) : List Nat := (ps.map (· / 4)).eraseDups

/-- Writes the bytes that were read of [0, n) into a table of bytes. -/
def overTab (old new : Tab Byte) (read : Nat → Bool) : Tab Byte :=
  new.foldl (fun t p => t.put p.1 p.2) (old.filter fun p => !read p.1)

/-- The pieces of a list with their offsets. -/
def offsets : Nat → List (Nat × Nat) → List (Nat × Nat × Nat)
  | _, [] => []
  | o, (va, n) :: r => (o, va, n) :: offsets (o + n) r

/-- Whether an offset lies in a piece that was refused. -/
def Got.refused (g : Got) (segs : List (Nat × Nat)) (o : Nat) : Bool :=
  (offsets 0 segs).any fun p => decide (p.1 ≤ o ∧ o < p.1 + p.2.2) && g.errs.any fun e => e.1 != .deferred && e.2 == p.2.1

/-- A slot with the rows or the side-area read by an `mx.ld` (R343, R423). -/
def Slot.load (x : Slot) (side : Bool) (segs : List (Nat × Nat)) (g : Got) : Slot :=
  let lo := if side then 2048 else 0
  let some_ := g.errs.any fun e => e.1 != .deferred
  let read := fun o => !(some_ && g.refused segs o)
  let pois := (x.pois.filter fun p => if side then !(decide (2048 ≤ p ∧ p < 2176) && read (4 * (p - 2048)))
      else !(decide (p < 2048) && read (4 * p))) ++ (poisonWords g.pois).map (lo + ·)
  let bytes := g.bytes.filter fun p => p.2 ≠ 0
  let x := { x with errs := x.errs.filter fun p => if side then !(decide (1024 ≤ p.1 ∧ p.1 < 1088) && read (8 * (p.1 - 1024)))
    else !(decide (p.1 < 1024) && read (8 * p.1)) }
  if side then { x with side := overTab x.side bytes read, pois := pois.sortNat }
  else { x with rows := overTab x.rows bytes read, pois := pois.sortNat }

/-- MX_LD_DONE (R179, R343): every row or scale byte is in the slot. -/
def execMxLdDone (cmd : Nat) (s : State) : Out :=
  match s.cmds.find cmd with
  | none => fire (.mxLdDone cmd) s id
  | some c =>
    if s.cmdBlocked cmd c then .next s else
    match s.farFirst cmd c (.mxLdDone cmd) false with
    | some t => .next t
    | none =>
    fire (.mxLdDone cmd) s fun s =>
      match c.body with
      | .mxLd n _ _ side =>
        let (s, g) := s.cmdRead c
        let s := s.setSlot c.core n ((s.slot c.core n).load side c.body.segs g)
        let (e, va) := worst g.errs
        s.endCmd cmd e (BitVec.ofNat 64 va)
      | _ => s

/-! ## Broadcast buses (R183, R184, R370) -/

/-- The receivers of a send: the cores of its mask along the sender's row or column of its die. -/
def busCores (core : Nat) (col : Bool) (mask : Nat) : List Nat :=
  if col then ((List.range 4).filter fun i => mask.testBit i).map fun i => coreAt (coreX core) (4 * (coreY core / 4) + i)
  else ((List.range 12).filter fun i => mask.testBit i).map fun i => coreAt (12 * (coreX core / 12) + i) (coreY core)

/-- Whether every bulkhead that the bus segment between two cores crosses lets it pass (R183). -/
def State.busOpen (s : State) (part a b : Nat) : Bool :=
  bhOf a == bhOf b || (rectCores (min (coreX a) (coreX b)) (min (coreY a) (coreY b))
    ((coreX a - coreX b) + (coreX b - coreX a) + 1) ((coreY a - coreY b) + (coreY b - coreY a) + 1)).all fun c =>
      s.gateOpen part (bhOf c)

/-- The oldest `mx.ldb` of a core that is armed for a sender's channel (R184): in the order of the queue, so that an older one which can be
armed is armed first. -/
def State.armed (s : State) (core : Nat) (col : Bool) (sender chan : Nat) : Option Nat :=
  ((s.core core).mxq.find? fun j =>
    match s.cmds.find j with
    | some x => (x.st == .running || s.canMx j x) && (match x.body with
      | .mxLdb _ q y h f => q == col && y == sender && h == chan && f.isNone
      | _ => false)
    | none => false).filter fun j => ((s.cmds.find j).map fun x => x.st == .running).getD false

/-- Records a send's match on a receiver (R184, R344): the `mx.ldb` keeps the send's number, the send the receiver. -/
def State.matchAt (s : State) (id r : Nat) (col : Bool) (sender chan : Nat) : State :=
  match s.armed r col sender chan with
  | none => s
  | some j =>
    (s.modCmd j fun x => { x with body := match x.body with
      | .mxLdb n q y h _ => .mxLdb n q y h (some id)
      | b => b }).modCmd id fun x => { x with owned := x.owned ++ [r] }

/-- The sends whose source has been read take their matches, the oldest send first (R184). -/
def State.matchSends (s : State) : State :=
  s.cmds.foldl (fun s p =>
    match p.2.body with
    | .bus col _ _ mask chan =>
      if p.2.st = .queued ∧ p.2.left = 1 then
        ((busCores p.2.core col mask).filter fun r => !p.2.owned.contains r).foldl (fun s r =>
          s.matchAt p.1 r col (if col then coreY p.2.core else coreX p.2.core) chan) s
      else s
    | _ => s) s

/-- Puts the armed receivers of a transfer that will not take place back to waiting. -/
def State.disarm (s : State) (id : Nat) : State :=
  { s with cmds := s.cmds.map fun (p : Nat × Cmd) =>
    (p.1, match p.2.body with
      | .mxLdb n c y h (some j) => if j = id then { p.2 with body := .mxLdb n c y h none } else p.2
      | _ => p.2) }

/-- The number of matches that a send's receivers keep. -/
def State.matches_ (s : State) (id : Nat) : Nat :=
  s.cmds.countP fun p => match p.2.body with | .mxLdb _ _ _ _ f => f == some id | _ => false

/-- A match lasts as long as its send, and a send that has lost one of its receivers' starts over; an `mx.ldb` left without one after its workgroup's end is withdrawn (R344). -/
def State.dropMatches (s : State) : State :=
  s.cmds.foldl (fun s p =>
    match p.2.body with
    | .mxLdb n q y h (some j) =>
      if (s.cmds.find j).isSome then s
      else if ((s.wgs.find p.2.wg).map fun g => g.st == .ended).getD true then s.endCmd p.1
      else s.modCmd p.1 fun x => { x with body := .mxLdb n q y h none }
    | .bus _ _ _ _ _ =>
      if p.2.st = .queued ∧ s.matches_ p.1 ≠ p.2.owned.length then (s.disarm p.1).modCmd p.1 fun x => { x with owned := [] } else s
    | _ => s) s

/-- Whether every slot that a send has matched stands in its receiver (R344). -/
def State.slotsBack (s : State) (id : Nat) : Bool :=
  s.cmds.all fun p => match p.2.body with
    | .mxLdb n _ _ _ (some j) => j != id || (s.slot p.2.core n).claim == some p.2.wg
    | _ => true

/-- Whether a bus send whose source has been read can start, or is refused: every masked receiver has a match, and no slot of a match
is evicted (R184, R344). -/
def State.canBus (s : State) (id : Nat) (c : Cmd) : Bool :=
  match c.body with
  | .bus col _ _ mask _ =>
    let rs := busCores c.core col mask
    c.st == .queued && c.left == 1 && s.bhSt (bhOf c.core) == 3 &&
      ((rs.any fun r => !s.busOpen c.part c.core r) || (rs.all c.owned.contains && s.slotsBack id))
  | _ => false

/-- BUS_TRANSFER_START (R184): every masked receiver has a match. -/
def execBusTransferStart (cmd : Nat) (s : State) : Out :=
  match s.cmds.find cmd with
  | none => .next s
  | some c =>
    event (s.canBus cmd c) s fun s =>
      match c.body with
      | .bus col _ _ mask _ =>
        if (busCores c.core col mask).any fun r => !s.busOpen c.part c.core r then (s.cmdGate c mask).endCmd cmd .gate
        else (s.modCmd cmd fun x => { x with st := .running }).post (.busTransferDone cmd)
      | _ => s

/-- A slot filled by a transfer: rows, side-area and record (R184). -/
def Slot.fill (x : Slot) (got : Tab Byte) (pois : List Nat) (word : DWord) : Slot :=
  { x with rows := (Tab.window got 0 8192).filter fun p => p.2 ≠ 0
           side := (Tab.window got 8192 512).filter fun p => p.2 ≠ 0
           record := word, pois := (poisonWords pois).sortNat, errs := [] }

/-- Fills the slots of a transfer's receivers; their counters add 1. -/
def State.fillSlots (s : State) (cmd : Nat) (c : Cmd) (word : DWord) : State :=
  s.cmds.foldl (fun s p =>
    match p.2.body with
    | .mxLdb n _ _ _ (some j) =>
      if j = cmd then
        (s.setSlot p.2.core n ((s.slot p.2.core n).fill c.got c.gotPois word)).endCmd p.1
      else s
    | _ => s) s

/-- BUS_TRANSFER_DONE (R184): every receiver's slot and record are written and its counter adds 1; then the sender's completion
counter is updated and its arrival counter adds 1. -/
def execBusTransferDone (cmd : Nat) (s : State) : Out :=
  if ((s.cmds.find cmd).map s.counterLocked).getD false then .next s else
  fire (.busTransferDone cmd) s fun s =>
    match s.cmds.find cmd with
    | none => s
    | some c =>
      match c.body with
      | .bus _ _ word _ _ =>
        (s.fillSlots cmd c word).finishCmd cmd c (if c.gotPois.isEmpty then .none else .deferred)
      | _ => s

/-! ## Products (R180, R187, R441) -/

/-- Reads a slot (R441): of the bits that have changed since each 8 bytes were last read, one is corrected, more poison both words; both are
counted in the core's `OMS`. -/
def State.readSlot (s : State) (core n : Nat) : State :=
  let count := fun (s : State) lo => s.setWinBits (oOMS core) lo 16 (s.winBits (oOMS core) lo 16 + 1)
  (s.slot core n).errs.foldl (fun (s : State) p =>
    let x := { s.slot core n with errs := (s.slot core n).errs.del p.1 }
    if ((List.range 64).filter fun i => bit p.2 i).length ≤ 1 then (count s 0).setSlot core n x
    else (count s 16).setSlot core n
      { x with pois := ((x.pois.filter fun w => w != 2 * p.1 && w != 2 * p.1 + 1) ++ [2 * p.1, 2 * p.1 + 1]).sortNat }) s

/-- The bytes of a row as a number. -/
def Slot.row (x : Slot) (r : Nat) : Nat :=
  x.rows.foldl (fun n p => if p.1 / 128 = r then n + p.2.toNat * 256 ^ (p.1 % 128) else n) 0

/-- The block scale of a row (R176). -/
def Slot.scale (x : Slot) (r b : Nat) : Int :=
  (Tab.getD x.side 0 (recSofs x.record + recNb x.record * r + b)).toInt

/-- An element of a row (R87, R90). -/
def recElem (w : DWord) (row k : Nat) : Num :=
  let e := (row >>> (recW w * k)) % 2 ^ recW w
  if recKind w = 0 then (recDesc w).num e else if recKind w = 1 then bf16.num e else f16.num e

/-- A row's elements with their block scales, by summation groups of 16 (R94). -/
def Slot.groups (x : Slot) (r : Nat) : List (List (Num × Int)) :=
  let row := x.row r
  let n := recKel x.record
  (List.range (ceilDiv n 16)).map fun g =>
    (List.range (min 16 (n - 16 * g))).map fun i =>
      let k := 16 * g + i
      (recElem x.record row k, if recKind x.record = 0 then x.scale r (k / recL x.record) else 0)

/-- Whether a product that reads the slot meets poison (R441): a row, a scale byte that it uses, the record. -/
def Slot.poisoned (x : Slot) : Bool :=
  x.pois.any fun p => decide (p < 2048) || decide (2176 ≤ p) ||
    (recKind x.record == 0 && decide (recSofs x.record < 4 * (p - 2048) + 4 ∧
      4 * (p - 2048) < recSofs x.record + 64 * recNb x.record))

/-- Whether a group holds a NaN or an infinity outside zero blocks (R187). -/
def groupBad (g : List (Num × Int)) : Bool :=
  g.any fun p => p.2 != -128 && (match p.1 with | .fin .. => false | _ => true)

/-- Whether every term of a group lies in a zero block. -/
def groupZero (g : List (Num × Int)) : Bool := g.all fun p => p.2 == -128

/-- The outcome of the product check of one group (R187). -/
inductive GroupCheck where
  | fine
  | fixed (row col : Nat)
  | wrong (row col : Nat)
  deriving DecidableEq, Repr

/-- What is wrong in a group: (row, column, excess) of its cells. -/
abbrev Wrongs := List (Nat × Nat × Int)

def Wrongs.rowSum (ws : Wrongs) (i : Nat) : Int := ((ws.filter fun w => w.1 == i).map fun w => w.2.2).sum
def Wrongs.colSum (ws : Wrongs) (j : Nat) : Int := ((ws.filter fun w => w.2.1 == j).map fun w => w.2.2).sum

/-- Checks one group: `as` and `bs` hold the group of each row of A and column of B. Answers the outcome and what stays wrong. -/
def checkGroup (as bs : List (List (Num × Int))) (ws : Wrongs) : GroupCheck × Wrongs :=
  if ws.isEmpty then (.fine, ws) else
  let badA := as.any groupBad
  let badB := bs.any groupBad
  let rowOk := fun i => let g := as.getD i []; groupZero g || (!groupBad g && !badB)
  let colOk := fun j => let g := bs.getD j []; groupZero g || (!groupBad g && !badA)
  let rows := (List.range 64).filter fun i => rowOk i && ws.rowSum i != 0
  let cols := (List.range 64).filter fun j => colOk j && ws.colSum j != 0
  match rows, cols with
  | [], [] => (.fine, ws)
  | [i], [j] => (.fixed i j, (i, j, -(ws.rowSum i)) :: ws)
  | _, _ => (.wrong (rows.headD 0) (cols.headD 0), ws)

/-- One group added into a cell, with what the cell's sum exceeds the exact one by in units of 2^-600 (R94, R95). -/
def accGroup (int : Bool) (acc : Nat) (a b : List (Num × Int)) (excess : Int) : Nat :=
  let ps := List.zipWith (fun x y => termOf x.1 y.1 (if int && x.2 != -128 then 0 else x.2) (if int && y.2 != -128 then 0 else y.2)) a b
  if int then wrapInt 32 ((accInt acc ps : Int) + excess / 2 ^ 600)
  else accFloat acc (if excess = 0 then ps else ps ++ [.fin (excess < 0) excess.natAbs (-600)])

/-- The product of two slots into cells: groups in ascending order. -/
def cellProduct (int : Bool) (a b : List (List (Num × Int))) (wrong : Nat → Int) (acc : Nat) : Nat :=
  ((List.zip a b).foldl (fun (p : Nat × Nat) (x : List (Num × Int) × List (Num × Int)) =>
    (p.1 + 1, accGroup int p.2 x.1 x.2 (wrong p.1))) (0, acc)).2

/-- A tile's sums computed from its cells (R188): rows or columns. -/
def cellSums (cells : Tab Word) (isRow : Bool) : Tab (BitVec 40) :=
  ((List.range 64).map fun i =>
    (i, BitVec.ofNat 40 (cells.foldl (fun n p => if (if isRow then p.1 / 64 else p.1 % 64) = i then n + p.2.toNat else n) 0))).filter
      fun p => p.2 ≠ 0

/-- A tile holding new cells, its sums following them. -/
def Tile.write (x : Tile) (cells : Tab Word) (mode : Nat) : Tile :=
  { x with cells := cells, mode := mode, rows := cellSums cells true, cols := cellSums cells false }

/-- The outcome of a half: its checks in group order, and the tile with the result. -/
structure Half where
  checks : List GroupCheck
  tile : Tile

/-- One half of a product (R180, R187). -/
def halfProduct (a b : Slot) (t : Tile) (errs : List WrongSum) : Half :=
  let as := (List.range 64).map a.groups
  let bs := (List.range 64).map b.groups
  let n := ceilDiv (recKel a.record) 16
  let res := (List.range n).map fun g =>
    checkGroup (as.map fun r => r.getD g []) (bs.map fun r => r.getD g [])
      ((errs.filter fun e => e.group == g).map fun e => (e.row, e.col, e.delta))
  let int := recInt a.record b.record
  let cells := as.zipIdx.flatMap fun (ra, i) => bs.zipIdx.filterMap fun (rb, j) =>
    let v := cellProduct int ra rb (fun g => (((res.getD g (.fine, [])).2.filter fun w => w.1 == i && w.2.1 == j).map
      fun w => w.2.2).sum) (Tab.getD t.cells 0 (64 * i + j)).toNat
    if v = 0 then none else some (64 * i + j, BitVec.ofNat 32 v)
  { checks := res.map (·.1), tile := t.write cells (recMode a.record b.record) }

/-- Records a checksum event (R189). -/
def State.mxEvent (s : State) (core kind tile row col : Nat) : State :=
  s.modCore core fun k =>
    let w := if kind = 3 then setBits k.mxchk 16 8 (bits k.mxchk 16 8 + 1) else setBits k.mxchk 0 16 (bits k.mxchk 0 16 + 1)
    { k with mxchk := setBits (setBits (setBits (setBits w 24 4 tile) 28 2 kind) 30 6 row) 36 6 col }

/-- The src 12 record of an unlocated mismatch (R443). -/
def State.mismatchRec (s : State) (c : Cmd) (core info : Nat) : State :=
  s.tenantRec c.vf [recHead .slot 12 c.part c.vf core (((s.wgs.find c.wg).map (·.slot)).getD 0)
    (((s.lgs.find c.lg).map (·.lgn)).getD 0) (bhOf core), c.fpc.toNat, info, s.time]

/-- Records the checks of a half; true if a group is wrong beyond repair: the tile is then marked poisoned (R443). -/
def State.judgeHalf (s : State) (c : Cmd) (core bank t flag : Nat) (h : Half) : State × Bool :=
  h.checks.foldl (fun (a : State × Bool) k =>
    match k with
    | .fine => a
    | .fixed i j => if a.2 then a else (a.1.mxEvent core 1 t i j, false)
    | .wrong i j =>
      if a.2 then a else
      (((a.1.mxEvent core 3 t i j).mismatchRec c core (t + flag)).setTile core bank t
        { a.1.tile core bank t with pois := true }, true)) (s, false)

/-- A product that meets poison (R441): its tile is marked, the event counted. -/
def State.poisonHalf (s : State) (core bank t : Nat) : State :=
  (s.setTile core bank t { s.tile core bank t with pois := true }).mxEvent core 3 t 0 0

/-- MX_MMA_DONE (R187): a product ends; a posted cause leaves cells and mode unchanged (R177). `errs` are the group sums that came
out wrong. -/
def execMxMmaDone (cmd : Nat) (errs : List WrongSum) (s : State) : Out :=
  fire (.mxMmaDone cmd) s fun s =>
    match s.cmds.find cmd with
    | none => s
    | some c =>
      match c.body with
      | .mxMma t a b =>
        let s := (s.readSlot c.core a).readSlot c.core b
        let x := s.slot c.core a
        let y := s.slot c.core b
        if x.poisoned || y.poisoned then (s.poisonHalf c.core c.bank t).endCmd cmd .slot else
        let h := halfProduct x y (s.tile c.core c.bank t) (errs.filter fun e => e.half == 0)
        match s.judgeHalf c c.core c.bank t 0 h with
        | (s, true) => s.endCmd cmd .slot
        | (s, false) => (s.setTile c.core c.bank t h.tile).endCmd cmd
      | _ => s

/-- MX_PMMA_DONE (R182, R190, R443): both halves end, the follower's in the bank in which the product began; a mismatch poisons the tile of its half and cancels both. -/
def execMxPmmaDone (cmd : Nat) (errs : List WrongSum) (s : State) : Out :=
  fire (.mxPmmaDone cmd) s fun s =>
    match s.cmds.find cmd with
    | none => s
    | some c =>
      match c.body with
      | .mxPmma t a b =>
        let f := c.core + 1
        let fb := c.owned.headD 0
        let s := ((s.readSlot c.core a).readSlot c.core b).readSlot f b
        let x := s.slot c.core a
        let y := s.slot c.core b
        let z := s.slot f b
        if x.poisoned || y.poisoned || z.poisoned then
          let s := if x.poisoned || y.poisoned then s.poisonHalf c.core c.bank t else s
          let s := if x.poisoned || z.poisoned then s.poisonHalf f fb t else s
          s.endCmd cmd .slot
        else
          let h := halfProduct x y (s.tile c.core c.bank t) (errs.filter fun e => e.half == 0)
          let g := halfProduct x z (s.tile f fb t) (errs.filter fun e => e.half == 1)
          let (s, e) := s.judgeHalf c c.core c.bank t 0 h
          let (s, e') := s.judgeHalf c f fb t 512 g
          if e || e' then s.endCmd cmd .slot
          else ((s.setTile c.core c.bank t h.tile).setTile f fb t g.tile).endCmd cmd
      | _ => s

/-! ## The storage check, drains and checks (R186, R188, R348, R349) -/

/-- The outcome of the storage check: 0 none, 1 a sum rewritten, 2 a cell corrected, 3 unlocated; the row and column of R189; the
tile after it. -/
structure Storage where
  out : Nat
  row : Nat
  col : Nat
  tile : Tile

def Tile.check (x : Tile) : Storage :=
  let rs := cellSums x.cells true
  let cs := cellSums x.cells false
  let dr := fun i => Tab.getD x.rows 0 i - Tab.getD rs 0 i
  let dc := fun j => Tab.getD x.cols 0 j - Tab.getD cs 0 j
  let rows := (List.range 64).filter fun i => dr i != 0
  let cols := (List.range 64).filter fun j => dc j != 0
  match rows, cols with
  | [], [] => ⟨0, 0, 0, x⟩
  | [i], [] => ⟨1, i, 0, { x with rows := rs }⟩
  | [], [j] => ⟨1, 0, j, { x with cols := cs }⟩
  | [i], [j] =>
    if dr i = dc j then
      ⟨2, i, j, { x with cells := x.cells.setD 0 (64 * i + j) (Tab.getD x.cells 0 (64 * i + j) + (dr i).truncate 32) }⟩
    else ⟨3, i, j, { x with pois := true }⟩
  | _, _ => ⟨3, rows.headD 0, cols.headD 0, { x with pois := true }⟩

/-- Runs the storage check of a command's tile and records it. -/
def State.checkTile (s : State) (c : Cmd) (t : Nat) : State × Storage :=
  let r := (s.tile c.core c.bank t).check
  let s := s.setTile c.core c.bank t r.tile
  (if r.out = 0 then s
   else if r.out = 3 then (s.mxEvent c.core 3 t r.row r.col).mismatchRec c c.core t
   else s.mxEvent c.core 2 t r.row r.col, r)

/-- The rounding mode of a drain word. -/
def drainRnd (n : Nat) : Rnd := if n = 0 then .rne else if n = 1 then .rz else .sat

/-- The output of a cell (R186). -/
def drainCell (mode : Nat) (w : DWord) (v : Word) : Nat :=
  let o := bits w 32 3
  let r := drainRnd (bits w 35 2)
  if mode = 2 && o = 3 && bits w 0 32 = 0x3F800000 then v.toNat else
  let x := if mode = 2 then Num.ofInt v.toInt else f32.num v.toNat
  let y := f32.num (f32.ofNum (x.mul (f32.num (bits w 0 32))).1).1
  match o with
  | 0 => (f32.conv r y).1
  | 1 => (bf16.conv r y).1
  | 2 => (f16.conv r y).1
  | 3 => wrapInt 32 (toInt 32 true r y).1
  | 4 => ((Desc.of 0x107098).conv r y).1
  | _ => ((Desc.of 0x20F0B8).conv r y).1

/-- The bytes that a drain writes, row by row. -/
def Tile.drain (x : Tile) (w : DWord) : List Byte :=
  (List.range 4096).flatMap fun k => natLe (ofmtSize (bits w 32 3)) (drainCell x.mode w (Tab.getD x.cells 0 k))

/-- MX_DRAIN_DONE (R186, R348, R443): the storage check, the stores in ascending rows, the tile fresh if clr. -/
def execMxDrainDone (cmd : Nat) (s : State) : Out :=
  match s.cmds.find cmd with
  | none => fire (.mxDrainDone cmd) s id
  | some c =>
    if s.cmdBlocked cmd c || s.cmdCommitWaits c then .next s else
    match s.farFirst cmd c (.mxDrainDone cmd) true with
    | some t => .next t
    | none =>
    fire (.mxDrainDone cmd) s fun s =>
      match c.body with
      | .mxDrain t _ _ w =>
        let (s, r) := s.checkTile c t
        let (s, es) := s.cmdWrite c (r.tile.drain w) r.tile.pois
        let s := if bit w 37 then s.setTile c.core c.bank t { claim := r.tile.claim, pair := r.tile.pair } else s
        let (e, va) := worst (if r.tile.pois then (.slot, 0) :: es else es)
        s.endCmd cmd e (BitVec.ofNat 64 va)
      | _ => s

/-- MX_CHK_DONE (R349): the storage check's outcome word. -/
def execMxChkDone (cmd : Nat) (s : State) : Out :=
  fire (.mxChkDone cmd) s fun s =>
    match s.cmds.find cmd with
    | none => s
    | some c =>
      match c.body with
      | .mxChk d t =>
        let (s, r) := s.checkTile c t
        let v := r.out + r.tile.mode * 4 + b2n r.tile.pois * 16 + r.row * 32 + r.col * 2048
        (s.modLg c.lg fun l => l.wrV c.em d fun _ => BitVec.ofNat 32 v).endCmd cmd (if r.out = 3 then .slot else .none)
      | _ => s

/-! ## The governor (R171) -/

/-- GOVERNOR_WINDOW (R171): a new window of 256 cycles. -/
def execGovernorWindow (bh : Nat) (s : State) : Out :=
  event (bh < 12 && decide ((Tab.getD s.govs {} bh).window < s.now / 256)) s fun s => { s with govs := s.govs.setD {} bh (s.gov bh) }

end Sys2Proof.Machine
end

