-- ==== Sys2Proof/Machine/FabricCmd.lean ====
section
/-! DEFINITION. Major 14: tensor copies, bus sends, meetings, active messages, pipes, tasks, program launches, commits (R363 to R380,
R228 to R231, R43 to R49). -/

namespace Sys2Proof.Machine

/-! ## Tensor shapes (R367, R368) -/

def shBase (sh : List DWord) : Nat := bits (sh.getD 0 0) 0 57
def shE (sh : List DWord) : Nat := 2 ^ bits (sh.getD 0 0) 57 3
def shN0 (sh : List DWord) : Nat := bits (sh.getD 1 0) 0 32
def shN1 (sh : List DWord) : Nat := bits (sh.getD 1 0) 32 32
def shStride (sh : List DWord) : Nat := bits (sh.getD 2 0) 0 40
def shBw (sh : List DWord) : Nat := bits (sh.getD 3 0) 0 16
def shBh (sh : List DWord) : Nat := bits (sh.getD 3 0) 16 16
/-- The bytes of the dense buffer. -/
def shTotal (sh : List DWord) : Nat := shBw sh * shBh sh * shE sh

/-- The in-bounds part of each box row: tensor address, in 64-bit arithmetic, offset in the buffer, bytes. Rows without one are left out. -/
def tcRows (sh : List DWord) (org : DWord) : List (Nat × Nat × Nat) :=
  let x0 := (org.truncate 32 : Word).toInt
  let y0 := ((org >>> 32).truncate 32 : Word).toInt
  let lo := max x0 0
  let hi := min (x0 + shBw sh) (shN0 sh)
  if hi ≤ lo then [] else
  (List.range (shBh sh)).filterMap fun (r : Nat) =>
    let y : Int := y0 + r
    if 0 ≤ y ∧ y < shN1 sh then
      some ((shBase sh + y.toNat * shStride sh + lo.toNat * shE sh) % 2 ^ 64, (r * shBw sh + (lo - x0).toNat) * shE sh,
        (hi - lo).toNat * shE sh)
    else none

/-- Pieces of rows, each at its tensor address. -/
def tensorPieces (rows : List (Nat × Nat × Nat)) : List (Nat × Nat) := rows.flatMap fun p => pieces p.1 p.2.2

/-- Pieces of rows, each at its place in the buffer. -/
def bufferPieces (buf : Nat) (rows : List (Nat × Nat × Nat)) : List (Nat × Nat) :=
  rows.flatMap fun p => pieces ((buf + p.2.1) % 2 ^ 64) p.2.2

/-- The memory that an engine command reads, in order. -/
def CmdBody.srcs : CmdBody → List (Nat × Nat)
  | .tcLd sh org _ => tensorPieces (tcRows sh org)
  | .tcMcast sh org _ _ => tensorPieces (tcRows sh org)
  | .tcSt sh org buf => bufferPieces buf (tcRows sh org)
  | .bus _ src _ _ _ => pieces src 8704
  | .rvSend w src _ => pieces src (512 * (bits w 24 4 + 1))
  | _ => []

/-- The memory that an engine command writes, in order. -/
def CmdBody.dsts : CmdBody → List (Nat × Nat)
  | .tcLd sh _ buf => pieces buf (shTotal sh)
  | .tcMcast sh _ buf _ => pieces buf (shTotal sh)
  | .tcSt sh org _ => tensorPieces (tcRows sh org)
  | .rvSend w _ dst => pieces dst (512 * (bits w 24 4 + 1))
  | _ => []

/-- Whether two ranges of bytes overlap, addresses taken modulo 2^64. -/
def rangesMeet (a n b m : Nat) : Bool :=
  decide ((b + 2 ^ 64 - a % 2 ^ 64) % 2 ^ 64 < n ∨ (a + 2 ^ 64 - b % 2 ^ 64) % 2 ^ 64 < m)

/-- Whether the bytes read and the bytes written overlap (R368): the tensor part runs from the first to the last in-bounds byte. -/
def tcOverlap (store : Bool) (sh : List DWord) (org : DWord) (buf : Nat) : Bool :=
  let rows := tcRows sh org
  match rows.head?, rows.getLast? with
  | some a, some b =>
    let n := (rows.length - 1) * shStride sh + b.2.2
    if store then rows.any fun p => rangesMeet a.1 n (buf + p.2.1) p.2.2
    else rangesMeet a.1 n buf (shTotal sh)
  | _, _ => false

/-- Whether a shape record is invalid (R367, R368). -/
def badShape (sh : List DWord) : Bool :=
  bits (sh.getD 0 0) 60 4 != 0 || decide (3 < bits (sh.getD 0 0) 57 3) || shN0 sh == 0 || shN1 sh == 0 || shBw sh == 0 ||
    shBh sh == 0 || bits (sh.getD 2 0) 40 24 != 0 || bits (sh.getD 3 0) 32 32 != 0 || shStride sh % shE sh != 0 ||
    decide (2 ^ 20 < shTotal sh)

/-- The members of a member word (R216). -/
def members (w : DWord) : List Nat :=
  (bhsOf (bits w 0 12)).flatMap fun g => (List.range 16).filterMap fun i => if bit w (12 + i) then (bhCores g)[i]? else none

/-- Whether a member word is refused (R216). -/
def State.badMembers (s : State) (c : Ctx) (w : DWord) : Bool :=
  bits w 28 36 != 0 || (bhsOf (bits w 0 12)).any (fun g => !(s.partMask c.part).testBit g) || !(members w).contains c.core

/-! ## Engine commands (R365, R366) -/

/-- Issues an engine command after its checks: held until earlier accesses are performed and the queue has room; a forced commit. -/
def State.engine (s : State) (c : Ctx) (fs : List Finding) (ctr : Nat) (q : Option Nat) (body : CmdBody) (tc : Bool) : State :=
  s.checked c (fs ++ c.exF ((q.map fun a => a % 8 != 0).getD false) .align) fun s =>
    if !s.quiet c.g || s.acquiring c.g || (tc && decide (16 ≤ (s.core c.core).tcq.length)) then s.holdBack c
    else s.afterCommit c fun s =>
      let id := s.nseq
      let s := s.putCmd { c.cmd s (some ctr) body with q := q }
      let s := if tc then s.modCore c.core fun k => { k with tcq := k.tcq ++ [id] } else s
      s.post (.engineTakeOwnership id)

/-- The completion counter that a word names. -/
def Ctx.quad (c : Ctx) (t : BitVec 5) (q : BitVec 1) : Option Nat := if q = 1 then some (c.kr t.toNat).toNat else none

/-- The shape record at a run of registers. -/
def Ctx.shapeRun (c : Ctx) (r : BitVec 5) : List DWord := (List.range 4).map fun i => c.kr (r.toNat + i)

/-- The checks of a tensor copy (R368). -/
def Ctx.tcF (c : Ctx) (store : Bool) (sh : List DWord) (org : DWord) (buf : Nat) : List Finding :=
  c.exIll (badShape sh || tcOverlap store sh org buf) ++ c.exF (shBase sh % shE sh != 0 || buf % shE sh != 0) .align

def execTcLd (r o t : BitVec 5) (c : BitVec 4) (q : BitVec 1) (s : State) : Out :=
  word (.tcLd r o t c q) s fun x s =>
    let sh := x.shapeRun r
    let org := x.kr o.toNat
    let buf := (x.kr (o.toNat + 1)).toNat
    s.engine x (x.tcF false sh org buf) c.toNat (x.quad t q) (.tcLd sh org buf) true

def execTcSt (r o t : BitVec 5) (c : BitVec 4) (q : BitVec 1) (s : State) : Out :=
  word (.tcSt r o t c q) s fun x s =>
    let sh := x.shapeRun r
    let org := x.kr o.toNat
    let buf := (x.kr (o.toNat + 1)).toNat
    s.engine x (x.tcF true sh org buf) c.toNat (x.quad t q) (.tcSt sh org buf) true

def execTcMcast (r o t : BitVec 5) (c : BitVec 4) (q : BitVec 1) (s : State) : Out :=
  word (.tcMcast r o t c q) s fun x s =>
    let sh := x.shapeRun r
    let org := x.kr o.toNat
    let buf := (x.kr (o.toNat + 1)).toNat
    let mem := x.kr (o.toNat + 2)
    s.engine x (x.tcF false sh org buf ++ x.exIll (s.badMembers x mem)) c.toNat (x.quad t q) (.tcMcast sh org buf mem) true

/-- The checks of a reservation record at issue (R176): `illegal` or `fmt`. -/
def Ctx.recordF (c : Ctx) (w : DWord) : List Finding :=
  match recCause w with
  | .none => []
  | .illegal => c.exIll true
  | k => c.exF true k

/-- A bus send (R370): the receivers of its mask lie in the launch rectangle (R183). -/
def State.busSend (s : State) (x : Ctx) (col : Bool) (r o t : BitVec 5) (c : BitVec 4) (q : BitVec 1) : State :=
  let src := (x.kr r.toNat).toNat
  let rec_ := x.kr o.toNat
  let sw := x.kr (o.toNat + 1)
  let mask := bits sw 0 12
  let bad := bits sw 16 48 != 0 || mask == 0 || (col && bits sw 4 8 != 0) ||
    (busCores x.core col mask).any fun d => d == x.core || !x.la.inRect d
  s.engine x (x.exIll bad ++ x.recordF rec_ ++ x.exF (src % 128 != 0) .align) c.toNat (x.quad t q)
    (.bus col src rec_ mask (bits sw 12 4)) true

def execBusA (r o t : BitVec 5) (c : BitVec 4) (q : BitVec 1) (s : State) : Out :=
  word (.busA r o t c q) s fun x s => s.busSend x false r o t c q

def execBusB (r o t : BitVec 5) (c : BitVec 4) (q : BitVec 1) (s : State) : Out :=
  word (.busB r o t c q) s fun x s => s.busSend x true r o t c q

/-! ## Meeting tags (R228, R229, R371, R372) -/

/-- The partition on whose tags a partition acts with a tag: that of the lowest window that admits it, else its own where the tag is
allocated. -/
def State.tagOwner (s : State) (part tag : Nat) (write : Bool) : Option Nat :=
  match (List.range 32).find? fun w => s.winAdmits w 1 part (s.winBits (oWIN w) 0 4) tag write with
  | some w => some (s.winBits (oWIN w) 0 4)
  | none => if ((Tab.find (s.part part).tags tag).map fun t => !t.freed).getD false then some part else none

/-- `rv.send` (R372): a tag that R228 refuses is posted at once. -/
def execRvSend (r o t : BitVec 5) (c : BitVec 4) (s : State) : Out :=
  word (.rvSend r o t c) s fun x s =>
    let w := x.kr r.toNat
    let src := (x.kr o.toNat).toNat
    let dst := (x.kr (o.toNat + 1)).toNat
    s.engine x (x.exIll (bits w 32 32 != 0 || bits w 28 2 == 3 || bits w 30 2 == 3) ++
      x.exF (src % 128 != 0 || dst % 128 != 0) .align) c.toNat (some (x.kr t.toNat).toNat) (.rvSend w src dst) false

/-- The lowest number that is no key of a table. -/
def Tab.gap {α : Type} : Nat → Tab α → Nat
  | n, [] => n
  | n, (j, _) :: t => if j = n then Tab.gap (n + 1) t else n

def execRvTalloc (r : BitVec 5) (p : BitVec 3) (s : State) : Out :=
  word (.rvTalloc r p) s fun c s => s.checked c (c.exF (!c.owns r.toNat) .kown) fun s => s.afterAcquire c fun s =>
    let tags := (s.part c.part).tags
    if 4096 ≤ (tags.filter fun t => !t.2.freed).length then s.up c fun l => l.setQ p.toNat 0
    else
      let t := Tab.gap 0 tags
      let s := s.modPart c.part fun q => { q with tags := q.tags.put t ⟨c.wg.launch, false⟩ }
      (s.wrK c.lg.wg r.toNat c.lg.lgn (BitVec.ofNat 64 t)).up c fun l => l.setQ p.toNat 0xFFFFFFFF

def execRvTfree (r : BitVec 5) (s : State) : Out :=
  word (.rvTfree r) s fun c s =>
    let w := c.kr r.toNat
    let own := s.tagOwner c.part (bits w 0 24) true
    s.checked c (c.exIll (bits w 24 40 != 0) ++ c.exF own.isNone .tag) fun s => s.afterAcquire c fun s =>
      s.freeTag (own.getD 0) (bits w 0 24)

/-- Whether a router or slice has accepted a fragment that it has not delivered (R228). -/
def FragPlace.accepted : FragPlace → Bool
  | .sent => false
  | .heldBack => false
  | .moving => false
  | _ => true

/-- The state of a tag in a partition's pool (R371). -/
def State.tagState (s : State) (part tag : Nat) : Nat :=
  if s.frags.any fun p => p.2.owner == part && p.2.tag == tag && p.2.place.accepted then 2
  else if !(((Tab.find (s.part part).tags tag).map fun t => !t.freed).getD false) then 0
  else if (s.part part).retired.any fun r => r.1 == tag then 3 else 1

def execRvStat (r d : BitVec 5) (s : State) : Out :=
  word (.rvStat r d) s fun c s => s.checked c (c.exF (!c.owns d.toNat) .kown) fun s => s.afterAcquire c fun s =>
    let w := c.kr r.toNat
    let own := ((s.tagOwner c.part (bits w 0 24) true) <|> (s.tagOwner c.part (bits w 0 24) false)).getD c.part
    s.wrK c.lg.wg d.toNat c.lg.lgn (BitVec.ofNat 64 (if bits w 24 40 ≠ 0 then 0 else s.tagState own (bits w 0 24)))

/-! ## Active messages (R47, R230, R231, R373, R374) -/

/-- The first `len` bytes of a register, four to a lane. -/
def Ctx.payload (c : Ctx) (v len : Nat) : List Byte :=
  ((List.range (ceilDiv len 4)).flatMap fun i => natLe 4 (c.v v i).toNat).take len

/-- The code check of the lanes that hold `len` bytes of a register. -/
def Ctx.payloadF (c : Ctx) (v len : Nat) : List Finding := c.regF (maskOf (List.range (ceilDiv len 4))) v

/-- Where a message leads: the launch that owns the handler and its table entry, or the cause that refuses it (R230): an index that names no
bound entry before a gate (R7). -/
def State.handlerOf (s : State) (c : Ctx) (dst : Nat) (reg : Bool) (hidx : Nat) : (Nat × Nat) × Cause :=
  let own := s.partOf dst
  if reg && own ≠ 0xF && (Tab.find (s.part own).handlers hidx).isNone then ((0, 0), .illegal)
  else if own ≠ c.part && !(reg && own ≠ 0xF && s.admitted 2 c.part own hidx true) then ((0, 0), .gate)
  else if own = c.part && !s.passes c.part c.core dst then ((0, 0), .gate)
  else if !reg then ((c.wg.launch, hidx), .none)
  else match Tab.find (s.part own).handlers hidx with
    | some h => (h, .none)
    | none => ((0, 0), .illegal)

/-- `am.send` (R373): where the first link cannot take the message's header a handler does not send, and any other lane group waits (R231); a
message that is refused needs no permit, and sets q[P] as a sent one does (log entry 70). -/
def execAmSend (r v : BitVec 5) (p : BitVec 3) (c : BitVec 4) (s : State) : Out :=
  word (.amSend r v p c) s fun x s =>
    let w := x.kr r.toNat
    let len := bits w 21 8
    let dst := coreAt (bits w 0 5) (bits w 5 3)
    let reg := bit w 8
    let hidx := bits w 9 12
    s.checked x (x.exIll (bits w 29 35 != 0 || decide (23 < bits w 0 5) || decide (128 < len) ||
        (!reg && (decide (x.la.hcnt ≤ hidx) || !x.la.inRect dst))) ++ x.payloadF v.toNat (min len 128)) fun s =>
      if !s.quiet x.g || s.acquiring x.g then s.holdBack x
      else s.afterCommit x fun s =>
        let ((own, entry), e) := s.handlerOf x dst reg hidx
        let id := s.nseq
        let m : Msg := { src := x.core, dst := dst, launch := x.wg.launch, reg := reg, hidx := hidx, len := len, cmd := id
                         data := x.payload v.toNat len, pts := (s.core x.core).pts, entry := entry, owner := own }
        let sent := fun (s : State) => { s with msgs := s.msgs.put id m }
        if e = .none && !(sent s).canSend (.amArrive id) (.core x.core) (.core dst) .am then
          if x.handler then (s.addCtr x.g c.toNat 1).up x fun l => l.setQ p.toNat 0 else s.holdBack x
        else
          let s := s.up x fun l => l.setQ p.toNat 0xFFFFFFFF
          let cmd := x.cmd s (some c.toNat) (.amSend id)
          let s := s.putCmd cmd
          if e ≠ .none then (if e = .gate then s.cmdGate cmd hidx else s).endCmd id e
          else (sent s).sendNow (.amArrive id) (.core x.core) (.core dst) .am (16 + len)

/-- `am.reg` (R374). -/
def execAmReg (r : BitVec 5) (p : BitVec 3) (s : State) : Out :=
  word (.amReg r p) s fun c s =>
    let w := c.kr r.toNat
    let i := bits w 0 12
    let e := bits w 12 8
    s.checked c (c.exIll (bits w 21 43 != 0 || decide (c.la.hcnt ≤ e))) fun s => s.afterAcquire c fun s =>
      let old := Tab.find (s.part c.part).handlers i
      let ok := if bit w 20 then (old.map fun h => h.1 == c.wg.launch).getD false
        else (old.map fun h => h == (c.wg.launch, e)).getD true
      let s := if !ok then s
        else if bit w 20 then s.modPart c.part fun q => { q with handlers := q.handlers.del i }
        else s.modPart c.part fun q => { q with handlers := q.handlers.put i (c.wg.launch, e) }
      s.up c fun l => l.setQ p.toNat (allQ ok)

/-! ## Pipes (R46, R375, R376, R454) -/

def peEsz (d : DWord) : Nat := 4 * 2 ^ bits d 16 3
def peCap (d : DWord) : Nat := bits d 32 16
def pePcnt (d : DWord) : Nat := bits d 48 16
def Pipe.size (p : Pipe) : Nat := peEsz p.desc
def Pipe.full (p : Pipe) : Bool := decide (peCap p.desc ≤ p.len)
/-- The address of the element at place `i` of a ring. -/
def Pipe.at (p : Pipe) (i : Nat) : Nat := p.ring + i % peCap p.desc * p.size

/-- The pipe of a name in a partition, with its entry's number. -/
def State.pipe (s : State) (part name : Nat) : Option (Nat × Pipe) := (s.part part).pipes.find? fun p => p.2.name == name

def State.setPipe (s : State) (part n : Nat) (p : Pipe) : State :=
  s.modPart part fun q => { q with pipes := q.pipes.put n p }

/-- `pipe.bind` (R375): a name bound otherwise and a full table come before what its ring's translation finds (R7). -/
def execPipeBind (r : BitVec 5) (s : State) : Out :=
  memWord (.pipeBind r) s fun c s =>
    let ring := (c.kr r.toNat).toNat
    let d := c.kr (r.toNat + 1)
    let taken := match s.pipe c.part (bits d 0 16) with
      | some (_, p) => !(p.ring = ring && p.desc = d && p.vf = c.vf)
      | none => decide (64 ≤ (s.part c.part).pipes.length)
    s.checked c (c.exIll (decide (5 < bits d 16 3) || bits d 19 13 != 0 || peCap d == 0 || pePcnt d == 0 || ring % 128 != 0) ++
        c.exF taken .pipe) fun s => s.afterAcquire c fun s =>
      s.withGrans c 3 3 (pieces ring (peCap d * peEsz d)) fun g s =>
        let errs := (g.vals.map fun p => (p.1, s.sliceErr c.part p.1 true)).filter fun p => p.2 != .none
        match errs.find? fun p => p.2 == bestCause (errs.map (·.2)) with
        | some (pa, e) =>
          (if e = .gate then s.gateRec c.part c.vf c.core c.wg.slot c.lg.lgn s.pk.idx.toNat pa true else s).raiseR c e c.exMask
        | none =>
          let ps := (s.part c.part).pipes
          match s.pipe c.part (bits d 0 16) with
          | some (n, p) => s.setPipe c.part n { p with users := (c.wg.launch :: p.users).eraseDups }
          | none =>
            s.setPipe c.part (Tab.gap 0 ps)
              { name := bits d 0 16, ring := ring, desc := d, vf := c.vf, left := pePcnt d, users := [c.wg.launch], last := s.now }

/-- Reaching a place of a ring as an engine of the partition: the address and key, or the trap (R375), a restarting cause at the instruction
whose `cr.tva` is 0 (R413, R416). A first-touch entry raises `xlat.ft` there and enters the handler, as for the instruction's own accesses (log
entry 70). -/
def State.ringAt (s : State) (c : Ctx) (p : Pipe) (i need : Nat) : State × Option (Nat × Nat) × Option Trap :=
  let va := p.at i
  let trap := fun (s : State) (k : Cause) (f : Trap → Trap) =>
    f (s.restartTrap k k.rank c.exMask (if k = .xlatS2 then BitVec.ofNat 64 va else 0))
  match s.xlate c.core c.part p.vf va need with
  | (s, .ft q) => (s, none, some (trap s .xlatFt fun t => { t with pend := some q }))
  | (s, .bad k) => (s, none, some (trap s k id))
  | (s, .s2 ipa t) => (s, none, some (trap s .xlatS2 fun x => { x with ipa := ipa, table := t }))
  | (s, .ok e) =>
    let pa := e.addr va
    let k := s.reachErr c.core c.part pa (need = 3)
    if k = .none then (s, some (pa, e.kid), none)
    else
      let s := if k = .gate then s.gateRec c.part c.vf c.core c.wg.slot c.lg.lgn s.pk.idx.toNat pa true else s
      (s, none, some (trap s k id))

/-- Appends an element whose bytes go to an address. -/
def State.pushAt (s : State) (part n : Nat) (p : Pipe) (at_ : Nat × Nat) (data : List Byte) (pts : Nat)
    (frame : Option (Nat × Nat) := none) : State :=
  let s := (s.publishLine (at_.1 / 128)).asKey (at_.1 / 128) at_.2
  let (t, s) := s.devWrite at_.1 data pts
  s.setPipe part n { p with len := p.len + 1, pts := p.pts ++ [max t pts], frames := p.frames ++ [frame], last := s.now }

/-- Removes the oldest element, whose bytes lie at an address: what it gives, and its timestamp. -/
def State.popAt (s : State) (part n : Nat) (p : Pipe) (at_ : Nat × Nat) : State × Grant × Nat :=
  let s := s.publishLine (at_.1 / 128)
  let (s, bs, bad) := (s.asKey (at_.1 / 128) at_.2).devRead at_.1 p.size
  let s := s.setPipe part n { p with head := (p.head + 1) % peCap p.desc, len := p.len - 1, pts := p.pts.tail, frames := p.frames.tail, last := s.now }
  let s := match p.frames.headD none with
    | some (k, f) => { s with streams := s.streams.modify k fun q => { q with undone := q.undone.erase f } }
    | none => s
  (s, if bad then .poisoned else .element bs, p.pts.headD 0)

/-- The lane groups of a partition that are blocked on a pipe in one direction, in order. -/
def State.pipeWaiters (s : State) (part name : Nat) (push : Bool) : List (Nat × Lg) :=
  (s.lgs.filter fun p =>
    (match p.2.status with
     | .blocked (.pipePush n _ _ _) _ => push && n == name
     | .blocked (.pipePop n _ _) _ => !push && n == name
     | _ => false) &&
    (((s.wgs.find p.2.wg).bind fun w => s.launches.find w.launch).map fun l => l.part == part).getD false).sortBy
      fun a b => a.2.waited ≤ b.2.waited

/-- A pipe that a launch has pushed, or popped (R453). -/
def Pipe.pushedBy (p : Pipe) (l : Nat) : Pipe := { p with pushers := if p.pushers.contains l then p.pushers else l :: p.pushers }
def Pipe.poppedBy (p : Pipe) (l : Nat) : Pipe := { p with poppers := if p.poppers.contains l then p.poppers else l :: p.poppers }

/-- `pipe.push` (R376). -/
def execPipePush (r v : BitVec 5) (s : State) : Out :=
  memWord (.pipePush r v) s fun c s =>
    let name := bits (c.kr r.toNat) 0 16
    match c.lg.grant with
    | some _ => s.up c fun l => { l with grant := none }
    | none =>
      let p := s.pipe c.part name
      s.checked c (c.exF ((p.map fun p => p.2.left == 0).getD true) .pipe ++
          c.payloadF v.toNat ((p.map fun p => p.2.size).getD 0)) fun s =>
        if !s.quiet c.g || s.acquiring c.g then s.holdBack c
        else s.afterCommit c fun s =>
          match p with
          | none => s
          | some (n, p) =>
            let p := p.pushedBy c.wg.launch
            match s.ringAt c p (p.head + p.len) 3 with
            | (s, _, some t) => s.takeTrap c t 3
            | (s, none, none) => s
            | (s, some a, none) =>
              let data := c.payload v.toNat p.size
              if p.full || !(s.pipeWaiters c.part name true).isEmpty then
                (s.setPipe c.part n p).blockBack c (.pipePush name data s.pk.first s.pk.slot)
              else s.pushAt c.part n p a data (s.core c.core).pts

/-- Ends a `pipe.pop` with what it got (R376, R454). -/
def State.popEnd (s : State) (c : Ctx) (d e : Nat) (g : Grant) (pts : Nat) (name : DWord) : State :=
  let s := s.raisePts c.core pts
  match g with
  | .pushed => s
  | .eos => s.up c fun l => l.setQ e 0xFFFFFFFF
  | .element bs => s.up c fun l => (l.wrV c.em d fun i =>
      if 4 * i < bs.length then BitVec.ofNat 32 (leNat ((bs.drop (4 * i)).take 4)) else 0).setQ e 0
  | .poisoned =>
    if c.la.node then (s.up c fun l => { l with fpc := s.pk.idx }).discardNode c.wg.launch .poison
    else s.raiseReport c .poison c.em name s.pk.idx s.pk.succ

/-- `pipe.pop` (R376). -/
def execPipePop (r d : BitVec 5) (e : BitVec 3) (s : State) : Out :=
  memWord (.pipePop r d e) s fun c s =>
    let name := bits (c.kr r.toNat) 0 16
    match c.lg.grant with
    | some g => (s.up c fun l => { l with grant := none }).popEnd { c with lg := { c.lg with grant := none } } d.toNat e.toNat g 0 (BitVec.ofNat 64 name)
    | none =>
      s.checked c (c.exF (s.pipe c.part name).isNone .pipe) fun s =>
        if s.acquiring c.g then s.holdBack c else
        match s.pipe c.part name with
        | none => s
        | some (n, p) =>
          let p := p.poppedBy c.wg.launch
          if !(s.pipeWaiters c.part name false).isEmpty || (p.len == 0 && p.left != 0) then
            (s.setPipe c.part n p).blockBack c (.pipePop name s.pk.first s.pk.slot)
          else if p.len = 0 then s.popEnd c d.toNat e.toNat .eos 0 0
          else
            match s.ringAt c p p.head 1 with
            | (s, _, some t) => s.takeTrap c t 3
            | (s, none, none) => s
            | (s, some a, none) =>
              let (s, g, t) := s.popAt c.part n p a
              s.popEnd c d.toNat e.toNat g t (BitVec.ofNat 64 name)

/-- `pipe.eos` (R376). -/
def execPipeEos (r : BitVec 5) (s : State) : Out :=
  word (.pipeEos r) s fun c s =>
    let p := s.pipe c.part (bits (c.kr r.toNat) 0 16)
    s.checked c (c.exF ((p.map fun p => p.2.left == 0).getD true) .pipe) fun s => s.afterAcquire c fun s =>
      match p with
      | none => s
      | some (n, p) => s.setPipe c.part n { p with left := p.left - 1, last := s.now }

/-! ## Tasks and program launches (R43, R44, R377 to R379) -/

/-- `task.spawn` (R377). -/
def execTaskSpawn (r g : BitVec 5) (p : BitVec 3) (s : State) : Out :=
  word (.taskSpawn r g p) s fun c s =>
    let lo := (c.kr r.toNat).toNat
    let hi := (c.kr (r.toNat + 1)).toNat
    let gr := c.kr g.toNat
    let entry := (c.kr (g.toNat + 1)).toNat
    s.checked c (c.exIll (bits gr 0 32 == 0 || bits gr 32 32 != 0 || entry % 128 != 0)) fun s =>
      if !s.quiet c.g || s.acquiring c.g then s.holdBack c
      else s.afterCommit c fun s =>
        let ok := decide (hi ≤ lo) || decide ((s.part c.part).tasks.length < 1024)
        let s := if lo < hi && ok then s.modPart c.part fun q =>
            Part.water { q with tasks := q.tasks.put (s.nseq) ⟨c.wg.launch, lo, hi, bits gr 0 32, entry, (s.core c.core).pts, none⟩ }
          else s
        ({ s with nseq := s.nseq + 1 }).up c fun l => l.setQ p.toNat (allQ ok)

/-- `task.spawn.l` (R378): the packet is read as loads of the lane group, and the distributor takes the launch at the queue's tail.
Its launch number (R41) is the queue's LQH (log entry 70). -/
def execTaskSpawnL (r u : BitVec 5) (p : BitVec 3) (s : State) : Out :=
  memWord (.taskSpawnL r u p) s fun c s =>
    let va := (c.kr r.toNat).toNat
    let q := (c.kr u.toNat).toNat
    s.checked c (c.exIll (decide (8 ≤ q) || decide (2 ^ s.winBits (oVFM c.vf) 5 2 ≤ q))) fun s =>
      if va % 64 ≠ 0 then s.alignTrap c va
      else if !s.quiet c.g || s.acquiring c.g then s.holdBack c
      else s.withGrans c 1 0 (pieces va 64) fun g s => s.afterCommit c fun s =>
        let (s, got) := State.readPieces { c.cmd s none .commit with gran := g } 0 (pieces va 64) (s, {})
        match worst got.errs with
        | (.none, _) =>
          if 64 ≤ (s.part c.part).plb.length then s.up c fun l => l.setQ p.toNat 0
          else
            let id := s.nseq
            let words := (List.range 8).map fun i => BitVec.ofNat 64 (leNat ((List.range 8).map fun j => Tab.getD got.bytes 0 (8 * i + j)))
            let s := s.takeLaunch words c.vf q (s.vrBits c.vf (0x110 + 32 * q) 0 32) id (s.core c.core).pts
            let s := if (s.launches.find id).isSome then s.modPart c.part fun x => { x with plb := x.plb ++ [id] } else s
            s.up c fun l => l.setQ p.toNat 0xFFFFFFFF
        | (k, _) => s.raiseR c (if k = .deferred && !got.pois.isEmpty then .poison else k) c.exMask

/-- `task.next` (R44, R379). -/
def execTaskNext (d : BitVec 5) (s : State) : Out :=
  word (.taskNext d) s fun c s =>
    s.checked c (c.exIll c.lg.task.isNone ++ c.exF (!c.owns d.toNat || !c.owns (d.toNat + 1)) .kown) fun s => s.afterAcquire c fun s =>
      match c.lg.task with
      | none => s
      | some t =>
        match (s.part c.part).tasks.find t with
        | none => s
        | some r =>
          let b := min (r.cur + r.g) r.hi
          let s := s.modPart c.part fun q => { q with tasks := q.tasks.put t { r with cur := b } }
          (s.wrK c.lg.wg d.toNat c.lg.lgn (BitVec.ofNat 64 r.cur)).wrK c.lg.wg (d.toNat + 1) c.lg.lgn (BitVec.ofNat 64 b)

/-- `task.done` (R379). -/
def execTaskDone (s : State) : Out :=
  word .taskDone s fun c s => s.checked c (c.exIll c.lg.task.isNone) fun s => s.afterAcquire c fun s => s.taskDone c.part c.g

/-! ## Node commit (R116, R380) -/

/-- `node.commit` (R380). -/
def execNodeCommit (c : BitVec 4) (s : State) : Out :=
  word (.nodeCommit c) s fun x s =>
    if !s.quiet x.g || s.acquiring x.g then s.holdBack x
    else if x.la.staged && s.commitWaits x.lg.wg then s.holdBack x
    else (if x.la.staged then s.commitStaged x.lg.wg else s).addCtr x.g c.toNat 1

end Sys2Proof.Machine
end

