-- ==== Sys2Proof/Machine/EvFabric.lean ====
section
/-! DEFINITION. The events of engines, multicast merging, meetings, messages, pipes and permits (R131 to R133, R215 to R227, R230,
R448 to R453). -/

namespace Sys2Proof.Machine

/-! ## Engines (R131 to R133, R366) -/

/-- The lines of pieces under a command's translation. -/
def Cmd.linesOf (c : Cmd) (ps : List (Nat × Nat)) : List Nat := (ps.filterMap fun p => (c.pa p.1).map fun q => q.1 / 128).eraseDups

/-- The lines an engine asks for when it takes a transfer: those it writes, and those it reads but for a multicast, whose lines its
requests ask for (R132, R217). -/
def Cmd.asksFor (c : Cmd) : List Nat := c.linesOf ((match c.body with | .tcMcast .. => [] | b => b.srcs) ++ c.body.dsts)

/-- Whether a command has translated its granules. -/
def Cmd.translated (c : Cmd) : Bool := !c.gran.isEmpty || (c.body.srcs.isEmpty && c.body.dsts.isEmpty && c.q.isNone)

/-- Whether an engine command takes ownership of lines: a tensor copy or a bus send (R366). -/
def CmdBody.owner : CmdBody → Bool
  | .tcLd .. | .tcSt .. | .tcMcast .. | .bus .. => true
  | _ => false

/-- Whether a command may take ownership now: the engine commands that its core issued before it are translated and none of them still
writes what it reads or writes (R366); no line that it touches is owned by an engine (R132). -/
def State.canOwn (s : State) (id : Nat) (c : Cmd) : Bool :=
  let before := (s.cmds.filter fun p => decide (p.1 < id) && p.2.core == c.core && p.2.live && p.2.body.owner).map (·.2)
  if !c.translated then before.all Cmd.translated
  else
    let mine := c.linesOf (c.body.srcs ++ c.body.dsts)
    !(before.any fun b => b.live && (b.linesOf b.body.dsts).any mine.contains) && !(mine.any s.locked)

/-- Translates the granules of an engine command: sources with rd, destinations with wr, its counter with both (R366). A tag that R228
refuses is found with them, and comes first (R7). -/
def State.xlateCmd (s : State) (c : Cmd) : State × Tab (Nat × Nat) × List (Cause × Nat × Option Pending × Nat × Bool) :=
  let want := (granules c.body.srcs).map (fun p => (p.2, 1)) ++ (granules c.body.dsts).map (fun p => (p.2, 2)) ++
    (match c.q with | some q => [(q, 3)] | none => [])
  want.foldl (fun (s, t, es) (va, need) =>
    let r := if 2 ^ 57 ≤ va then (s, XRes.bad .xlatPerm) else s.xlate c.core c.part c.vf va need
    match r with
    | (s, .ok e) =>
      let pa := e.addr va
      let k := s.sliceErr c.part pa (need ≠ 1)
      let far := need == 2 && (match c.body with | .rvSend _ _ _ => true | _ => false)
      if k = .gate && !far then (s.cmdGate c pa, t, es ++ [(.gate, va, none, 0, false)])
      else if k = .deferred && need ≠ 1 then (s, t, es ++ [(.deferred, va, none, 0, false)])
      else (s, t.put (va / 65536) (pa - va % 65536, e.kid), es)
    | (s, .ft p) => (s, t, es ++ [(.xlatFt, va, some p, 0, false)])
    | (s, .bad k) => (s, t, es ++ [(k, va, none, 0, false)])
    | (s, .s2 ipa tb) => (s, t, es ++ [(.xlatS2, va, none, ipa, tb)])) (s, [], match c.body with
      | .rvSend w _ _ => if (s.tagOwner c.part (bits w 0 24) true).isNone then [(.tag, 0, none, 0, false)] else []
      | _ => [])

/-- Reads pieces at the home slices (R131), among them lines that the engine itself owns: bytes by offset, offsets of poisoned bytes. -/
def State.engineRead (c : Cmd) (off : Nat) : List (Nat × Nat) → State × Tab Byte × List Nat → State × Tab Byte × List Nat
  | [], a => a
  | (va, n) :: r, (s, t, po) =>
    match c.pa va with
    | none => State.engineRead c (off + n) r (s, t, po)
    | some (pa, kid) =>
      let lost := s.cmdErr c pa false == .deferred
      let s := (s.publishAll (pa / 128)).asKey (pa / 128) kid
      State.engineRead c (off + n) r
        (s, putTab t off (s.bytesAt pa n), po ++ ((List.range n).filter fun i => lost || s.poisAt ((pa + i) / 4)).map (off + ·))

/-- Releases the lines that a command owns (R133). -/
def State.unlock (s : State) (id : Nat) : State :=
  { s with dir := (s.dir.map fun p => (p.1, if p.2.lock = some id then { p.2 with lock := none } else p.2)).filter fun p => p.2 ≠ {} }

/-- The router of a tag in a partition and its overflow slice (R221). -/
def State.meetingPlace (s : State) (part tag : Nat) : Nat × Nat × Nat :=
  let h := (tag ^^^ (tag >>> 8) ^^^ (tag >>> 16)) % 256
  let dl := s.partDies part
  let i := h % (8 * dl.length)
  (dl.getD (i / 8) 0, i % 8, (h >>> 3) % 16)

/-- The presence count of a fragment's key (R225). -/
def Frag.countKey (x : Frag) : Nat :=
  let h := (x.tag ^^^ (x.tag >>> 8) ^^^ (x.tag >>> 16)) % 256
  256 * (8 * x.die + x.router) + (h + x.f) % 256

/-- The destination of fragment `f`: one address, or two where it crosses a granule (R222). -/
def Cmd.fragDst (c : Cmd) (dst f : Nat) : List (Nat × Nat) :=
  let a := dst + 512 * f
  let n := 65536 - a % 65536
  ([a % 2 ^ 64] ++ if n < 512 then [(a + n) % 2 ^ 64] else []).filterMap c.pa

/-- The tag windows that admit results of an owner's tag to their guests now (R20, R22). -/
def State.resultWins (s : State) (owner tag : Nat) : List Nat :=
  (List.range 32).filter fun w => s.winAdmits w 1 (bits (s.win' (oWIN w)) 4 4) owner tag false

/-- Sends the fragments of a tile (R222). -/
def State.sendTile (s : State) (id : Nat) (c : Cmd) (w : DWord) (dst owner : Nat) (data : Tab Byte) (pois : List Nat) : State :=
  let nf := bits w 24 4 + 1
  let tag := bits w 0 24
  let (die, router, _) := s.meetingPlace owner tag
  let ctr := ((c.q.bind c.pa).getD (0, 0))
  let oto := ((s.launches.find c.launch).map Launch.oto).getD 200000
  let pts := max c.pts (s.core c.core).pts
  let y : Tally := { owner := owner, vf := c.vf, tag := tag, ctr := ctr, need := nf, also := [c.launch], wins := s.resultWins owner tag }
  let s := { s with tallies := s.tallies.put id y }
  let s := s.modCmd id fun x => { x with st := .running, left := nf }
  (List.range nf).foldl (fun s f =>
    let bs := (List.range 512).map fun i => Tab.getD data 0 (512 * f + i)
    let po := ((pois.filter fun o => o / 512 == f).map fun o => o % 512 / 4).eraseDups
    let x : Frag := { owner := owner, sender := c.part, vf := c.vf, tag := tag, f := f, nf := nf, op := bits w 28 2, ty := bits w 30 2
                      data := bs, pois := po, dst := c.fragDst dst f, ctr := ctr, cmd := id, launch := c.launch, oto := oto, die := die
                      router := router, place := .sent, pts := pts, wins := s.resultWins owner tag }
    let s := { s with nseq := s.nseq + 1, frags := s.frags.put s.nseq x }
    s.send (.fragmentArrive id f) (.core c.core) (.router die router) .meet 528) s

/-- The multicast requests of a command, one for each line of its source (R217). -/
def State.sendMcast (s : State) (id : Nat) (c : Cmd) : State :=
  let ls := c.linesOf c.body.srcs
  let s := s.modCmd id fun x => { x with left := ls.length }
  if ls.isEmpty then s.post (.engineFinish id)
  else ls.foldl (fun s ln => s.send (.mcastRequest id ln) (.core c.core) (s.homePort (128 * ln)) .req 24) s

/-- What an engine command does once translated (R131): it owns its destination lines, then reads its source. -/
def State.engineGo (s : State) (id : Nat) (c : Cmd) : State :=
  let own := fun (s : State) =>
    let ls := c.linesOf c.body.dsts
    (ls.foldl (fun s ln =>
      let s := s.publishAll ln
      s.setDir ln { s.dirOf ln with lock := some id }) s).modCmd id fun x => { x with st := .running }
  let (s', t, po) := State.engineRead c 0 c.body.srcs (s, [], [])
  match c.body with
  | .tcMcast _ _ _ _ => (own s).sendMcast id c
  | .bus _ _ _ _ _ => s'.modCmd id fun x => { x with got := t, gotPois := po, left := 1 }
  | .rvSend w _ dst =>
    match s.tagOwner c.part (bits w 0 24) true with
    | none => s.endCmd id .tag
    | some owner => (s'.modCmd id fun x => { x with gotPois := po }).sendTile id c w dst owner t po
  | _ =>
    let s := own s
    let (s, t, po) := State.engineRead c 0 c.body.srcs (s, [], [])
    (s.modCmd id fun x => { x with got := t, gotPois := po }).post (.engineFinish id)

/-- ENGINE_TAKE_OWNERSHIP (R131, R366): the granules are translated; then, when nothing stands in the way and its packets have crossed to
lines of other dies (R234), the lines are owned and the source is read. -/
def execEngineTakeOwnership (cmd : Nat) (s : State) : Out :=
  match s.cmds.find cmd with
  | none => fire (.engineTakeOwnership cmd) s id
  | some c =>
    if c.st ≠ .queued || !s.canOwn cmd c || !s.pending.contains (.engineTakeOwnership cmd) then .next s
    else if c.translated then
      match s.roundTrip cmd c c.asksFor 0 false with
      | some t => .next t
      | none => fire (.engineTakeOwnership cmd) s fun s => s.engineGo cmd c
    else
      memEvent true s fun s =>
        let (s, t, es) := s.xlateCmd c
        let k := bestCause (es.map (·.1))
        match es.find? fun e => e.1 == k with
        | none => s.modCmd cmd fun x => { x with gran := t }
        | some (.xlatFt, va, p, _, _) =>
          let p := p.getD ⟨0, 4, 0, 0⟩
          let counter := c.q == some va && !((granules (c.body.srcs ++ c.body.dsts)).any fun g => g.2 == va)
          let (rq, s) := s.pageReq c.vf c.part p.va (if counter then 1 else 3) p.pool p.lvl (.cmd cmd)
          s.modCmd cmd fun x => { x with st := .waitPage rq }
        | some (k, va, _, ipa, tb) =>
          let s := if k = .xlatS2 then s.s2Rec c.part c.vf c.core (((s.wgs.find c.wg).map (·.slot)).getD 0)
              (((s.lgs.find c.lg).map (·.lgn)).getD 0) ipa va tb true else s
          { s with pending := s.pending.erase (.engineTakeOwnership cmd) }.endCmd cmd k (BitVec.ofNat 64 va)

/-- Whether a line of an engine's destination cannot be written: its range is fenced, its peer port lost, no packet reached it (R433, R435,
R437). -/
def State.dstLost (s : State) (c : Cmd) (ln : Nat) : Bool := s.cmdErr c (128 * ln) true == .deferred

/-- Writes pieces as an engine: bytes from an offset on with their poison (R131, R422); a write that cannot arrive is discarded. -/
def State.engineWrite (c : Cmd) (got : Tab Byte) (pois : List Nat) (pts : Nat) (s : State) (off va n : Nat) : State :=
  match c.pa va with
  | none => s
  | some (pa, kid) =>
    let ln := pa / 128
    if s.dstLost c ln then s else
    let s := s.asKey ln kid
    let bs := (List.range n).map fun i => Tab.getD got 0 (off + i)
    let po := ((List.range n).filter fun i => pois.contains (off + i)).map fun i => (pa + i) / 4
    let s := s.homeWriteP pa bs po.eraseDups
    let (t, s) := s.stamp ln pts
    (s.keepL2 ln true).raisePts c.core t

/-- The writes of a copy: for each piece its offset in what was read, address and length, in the order of R368. -/
def CmdBody.copies : CmdBody → List (Nat × Nat × Nat)
  | .tcSt sh org _ => offsets 0 (tensorPieces (tcRows sh org))
  | _ => []

/-- What a tensor load writes into its buffer: the rows read at their places, zero elsewhere (R368). -/
def tcImage (sh : List DWord) (org : DWord) (got : Tab Byte) (pois : List Nat) : Tab Byte × List Nat :=
  ((tcRows sh org).foldl (fun (a : Nat × Tab Byte × List Nat) p =>
    let (o, t, po) := a
    (o + p.2.2, putTab t p.2.1 ((List.range p.2.2).map fun i => Tab.getD got 0 (o + i)),
      po ++ (pois.filter fun x => decide (o ≤ x ∧ x < o + p.2.2)).map fun x => x - o + p.2.1)) (0, [], [])).2

/-- Writes what an engine command has read, and releases its lines (R133, R368). -/
def State.engineEnd (s : State) (cmd : Nat) (c : Cmd) : State :=
  let pts := max c.pts (s.core c.core).pts
  let load := fun (s : State) (sh : List DWord) (org : DWord) (buf : Nat) =>
    let (t, po) := tcImage sh org c.got c.gotPois
    (offsets 0 (pieces buf (shTotal sh))).foldl (fun (s : State) (p : Nat × Nat × Nat) => State.engineWrite c t po pts s p.1 p.2.1 p.2.2) s
  let s := match c.body with
    | .tcLd sh org buf => load s sh org buf
    | .tcMcast sh org buf _ => load s sh org buf
    | b => b.copies.foldl (fun (s : State) (p : Nat × Nat × Nat) => State.engineWrite c c.got c.gotPois pts s p.1 p.2.1 p.2.2) s
  s.unlock cmd

/-- ENGINE_FINISH (R133): the bytes are written, across the die links where their homes stand on other dies (R234), and the lines released;
then the counters are updated, once no other engine owns the
completion counter's line. -/
def execEngineFinish (cmd : Nat) (s : State) : Out :=
  match s.cmds.find cmd with
  | none => fire (.engineFinish cmd) s fun s => s.unlock cmd
  | some c =>
    event (s.pending.contains (.engineFinish cmd)) s fun s =>
      let ls := c.linesOf c.body.dsts
      match (if c.left = 2 then none else s.roundTrip cmd c ls 3 true) with
      | some t => t
      | none =>
        let s := if c.left = 2 then s else (s.engineEnd cmd c).modCmd cmd fun x => { x with left := 2 }
        if s.counterLocked c then s
        else { s with pending := s.pending.erase (.engineFinish cmd) }.finishCmd cmd c
          (if c.gotPois.isEmpty && !(ls.any (s.dstLost c)) then .none else .deferred)

/-! ## Merged reads (R216 to R220) -/

/-- The merge table key of an entry of a slice. -/
def mergeKey (die slice entry : Nat) : Nat := 64 * entry + 16 * die + slice

/-- Adds to a count of a slice's fabric statistics (R219): 0 merged, 1 served, 2 late, 3 unmerged. -/
def State.countFst (s : State) (die slice i n : Nat) : State :=
  let off := oFST die slice + 8 * (i / 2)
  s.setWinBits off (32 * (i % 2)) 32 (s.winBits off (32 * (i % 2)) 32 + n)

/-- Gives a command the bytes of a source line as its slice reads them now, with a lease as for a load (R110): the pieces of its source
in that line. -/
def State.giveLine (s : State) (id ln : Nat) : State :=
  match s.cmds.find id with
  | none => s
  | some c =>
    let s := s.publishAll ln
    let d := s.dirOf ln
    let s := (s.setDir ln { d with rts := max d.rts (max (d.wts + 16) (c.pts + 16)) }).keepL2 ln false
    (offsets 0 c.body.srcs).foldl (fun s p =>
      match c.pa p.2.1 with
      | some (pa, kid) =>
        if pa / 128 ≠ ln then s else
        let s := s.asKey ln kid
        let lost := s.sliceErr c.part pa false == .deferred
        let po := ((List.range p.2.2).filter fun i => lost || s.poisAt ((pa + i) / 4)).map (p.1 + ·)
        s.modCmd id fun x => { x with got := putTab x.got p.1 (s.bytesAt pa p.2.2), gotPois := x.gotPois ++ po }
      | none => s) s

/-- Where a multicast reply to members of a bulkhead leaves the commons (R218): the slice's own station if the bulkhead holds it, else
the bulkhead's station nearest to its lowest-numbered joined member. -/
def replyExit (sliceCore g : Nat) (joined : List Nat) : Nat :=
  if bhOf sliceCore = g then sliceCore
  else ((bhCores g).find? joined.contains).elim sliceCore fun c => attach (dieOfBh g) (stationOf c)

/-- Closes a merge entry (R217): the line is read once and sent to the members that joined, in one packet for each bulkhead (R218). -/
def State.closeMerge (s : State) (k : Nat) : State :=
  match s.merges.find k with
  | none => s
  | some m =>
    let s := m.joined.foldl (fun s j => s.giveLine j.2 m.line) s
    let home := s.homePort (128 * m.line)
    let s := ((m.joined.map fun j => bhOf j.1).eraseDups).foldl (fun s g =>
      let mine := m.joined.filter fun j => bhOf j.1 == g
      s.send (.mcastFan (mine.map (·.2)) m.line) home (.core (replyExit home.at_ g (mine.map (·.1)))) .mc 144) s
    let s := (s.countFst (k % 64 / 16) (k % 16) 0 1).countFst (k % 64 / 16) (k % 16) 1 ((m.joined.map (·.1)).eraseDups.length)
    { s with merges := s.merges.put k { m with closed := true, opened := s.now } }

/-- A reply to one command alone (R217, R219). -/
def State.aloneReply (s : State) (id ln core : Nat) : State :=
  (s.giveLine id ln).send (.mcastAlone id ln) (s.homePort (128 * ln)) (.core core) .rsp 144

/-- Whether a multicast request can be served: no other engine owns the line. -/
def State.canMcast (s : State) (id ln : Nat) : Bool :=
  !s.ownerShut ln && match (s.dirOf ln).lock with
    | none => true
    | some j => j == id

/-- MCAST_REQUEST (R217, R219): a request opens or joins an entry, is late, or is served alone. An open entry of its key takes it though a kept
set of that key lacks its core, and one kept set that lacks it makes it late though another names it (log entry 70). -/
def execMcastRequest (cmd line : Nat) (s : State) : Out :=
  let ln := line / 128
  if !s.canMcast cmd ln then .next s else
  fire (.mcastRequest cmd ln) s fun s =>
    match s.cmds.find cmd with
    | none => s
    | some c =>
      match c.body with
      | .tcMcast _ _ _ mem =>
        let die := s.homeDie line
        let sl := homeSlice line
        let here := s.merges.filter fun p => p.1 % 64 == 16 * die + sl
        let same := here.filter fun p => p.2.part == c.part && p.2.line == ln && p.2.mem == mem
        match same.find? fun p => !p.2.closed with
        | some (k, m) =>
          let j := (m.joined.map (·.1)) ++ [c.core]
          let s := { s with merges := s.merges.put k { m with joined := m.joined ++ [(c.core, cmd)] } }
          if (members mem).all j.contains then s.closeMerge k else s
        | none =>
          if same.any fun p => p.2.closed && !(p.2.joined.any fun j => j.1 == c.core) then
            (s.countFst die sl 2 1).aloneReply cmd ln c.core
          else if 32 ≤ (here.filter fun p => !p.2.closed).length then (s.countFst die sl 3 1).aloneReply cmd ln c.core
          else
            let n := ((List.range (here.length + 1)).find? fun n => !(here.any fun p => p.1 / 64 == n)).getD 0
            let k := mergeKey die sl n
            let m : Merge := { part := c.part, line := ln, mem := mem, joined := [(c.core, cmd)], opened := s.now }
            let s := { s with merges := s.merges.put k m }
            if (members mem).all [c.core].contains then s.closeMerge k else s
      | _ => s

/-- Whether an entry's line can be read: no engine owns it but one of a command that joined. -/
def State.canClose (s : State) (m : Merge) : Bool :=
  !s.ownerShut m.line && match (s.dirOf m.line).lock with
    | none => true
    | some j => m.joined.any fun p => p.2 == j

/-- MERGE_WINDOW_EXPIRY (R217): 64 cycles after it opened, an entry closes. -/
def execMergeWindowExpiry (die slice entry : Nat) (s : State) : Out :=
  let k := mergeKey die slice entry
  match s.merges.find k with
  | none => .next s
  | some m => event (decide (die < 4 ∧ slice < 16) && !m.closed && decide (m.opened + 64 ≤ s.now) && s.canClose m) s fun s =>
      s.closeMerge k

/-- MERGE_SET_EXPIRY (R219): 1,024 cycles after an entry closed, its set is forgotten. -/
def execMergeSetExpiry (die slice entry : Nat) (s : State) : Out :=
  let k := mergeKey die slice entry
  match s.merges.find k with
  | none => .next s
  | some m =>
    event (decide (die < 4 ∧ slice < 16) && m.closed && decide (m.opened + 1024 ≤ s.now)) s fun s =>
      { s with merges := s.merges.del k }

/-- MCAST_REPLY_ARRIVE (R218): a line reaches a member; with its last one the command can finish. -/
def execMcastReplyArrive (cmd line : Nat) (s : State) : Out :=
  fire (.mcastReplyArrive cmd (line / 128)) s fun s =>
    let s := s.modCmd cmd fun x => { x with left := x.left - 1 }
    if ((s.cmds.find cmd).map fun c => c.left == 0).getD false then s.post (.engineFinish cmd) else s

/-! ## Meetings (R222 to R227, R448 to R451) -/

/-- The tally that stands for a send. -/
def State.tallyOf (s : State) : Nat → Nat → Nat
  | 0, k => k
  | n + 1, k => (match (s.tallies.find k).bind (·.up) with | some j => s.tallyOf n j | none => k)

def State.tallyRoot (s : State) (k : Nat) : Nat := s.tallyOf s.tallies.length k

/-- A fragment is accepted: the send's counter adds 1 with the last one (R222). -/
def State.accept (s : State) (cmd : Nat) : State :=
  match s.cmds.find cmd with
  | none => s
  | some c =>
    if c.left ≤ 1 then s.endCmd cmd (if c.gotPois.isEmpty then .none else .deferred)
    else s.modCmd cmd fun x => { x with left := x.left - 1 }

def State.setFrag (s : State) (k : Nat) (x : Frag) : State := { s with frags := s.frags.put k x }

/-- A deflected fragment no longer counts once it is matched or an orphan (R225). -/
def State.unpresent (s : State) (x : Frag) : State :=
  if x.deflected then { s with presence := s.presence.setD 0 x.countKey (Tab.getD s.presence 0 x.countKey - 1) } else s

/-- A combined or orphan fragment goes to its destination's home slice (R227), over die links where that is on another die (R234). -/
def State.sendDone (s : State) (k : Nat) (x : Frag) : State :=
  s.send (.fragmentCombineDone k) (.router x.die x.router) (s.homePort ((x.dst.head?.map (·.1)).getD 0)) .req 528

/-- A fragment becomes an orphan (R226): its key is retired, and it is to be written unchanged. -/
def State.makeOrphan (s : State) (k : Nat) (x : Frag) (c : Cause) : State :=
  let s := (s.unpresent x).setFrag k { x with place := .orphan c, deflected := false }
  let s := s.modPart x.owner fun p => { p with retired := if p.retired.contains (x.tag, x.f) then p.retired else (x.tag, x.f) :: p.retired }
  s.sendDone k x

/-- One element of a combination (R224). -/
def combineElem (op ty a b : Nat) : Nat :=
  let float := fun (f : Fmt) => if op = 0 then (f.fadd a b).1 else (f.fminmax (op = 1) a b).1
  if ty = 0 then float f32
  else if ty = 1 then float bf16
  else if op = 0 then (a + b) % 2 ^ 32
  else if (op = 1) = (BitVec.ofNat 32 a).slt (BitVec.ofNat 32 b) then b else a

/-- The combination of two fragments' bytes. -/
def combineBytes (op ty : Nat) (a b : List Byte) : List Byte :=
  let n := if ty = 1 then 2 else 4
  (List.range (512 / n)).flatMap fun i =>
    natLe n (combineElem op ty (leNat ((a.drop (n * i)).take n)) (leNat ((b.drop (n * i)).take n)))

/-- Two fragments of one key meet (R222, R223): they combine, or where they disagree both become orphans. Destinations and counters
agree by their addresses; guest and owner name them under keys of their own (R229). -/
def State.meet (s : State) (ka : Nat) (a : Frag) (kb : Nat) (b : Frag) : State :=
  if a.nf ≠ b.nf || a.op ≠ b.op || a.ty ≠ b.ty || a.dst.map (·.1) ≠ b.dst.map (·.1) || a.ctr.1 ≠ b.ctr.1 then
    (s.makeOrphan ka a .tag).makeOrphan kb b .tag
  else
    let s := (s.unpresent a).unpresent b
    let ra := s.tallyRoot a.cmd
    let rb := s.tallyRoot b.cmd
    let s := if ra = rb then s else
      match s.tallies.find ra, s.tallies.find rb with
      | some x, some y =>
        let x := { x with need := x.need + y.need, sends := x.sends + y.sends, pts := max x.pts y.pts, also := (x.also ++ y.also).eraseDups,
                            wins := (x.wins ++ y.wins).eraseDups, cause := if x.cause = .none then y.cause else x.cause }
        { s with tallies := (s.tallies.put ra x).put rb { y with up := some ra } }
      | _, _ => s
    let x := { a with data := combineBytes a.op a.ty a.data b.data, pois := (a.pois ++ b.pois).eraseDups, place := .combined,
                      deflected := false, cnt := 2, pts := max a.pts b.pts, also := b.launch :: (a.also ++ b.also),
                      wins := (a.wins ++ b.wins).eraseDups }
    ({ s with frags := (s.frags.del kb).put ka x }).sendDone ka x

/-- Fragments of a partition that hold entries of a router's die (R223): pooled reserves, or shared entries. -/
def State.storeUse (s : State) (die router part : Nat) (shared : Bool) : Nat :=
  s.frags.countP fun p => p.2.die == die && p.2.router == router && p.2.sender == part && p.2.place == .store shared

/-- A free entry for a fragment: of its partition's reserves on the die, or shared. -/
def State.takeStore (s : State) (x : Frag) : Option Bool :=
  let held := (bhsOf (s.partMask x.sender)).countP fun g => dieOfBh g == x.die
  if s.storeUse x.die x.router x.sender false < 16 * held then some false
  else if (s.frags.countP fun p => p.2.die == x.die && p.2.router == x.router && p.2.place == .store true) < 16 &&
      s.storeUse x.die x.router x.sender true < 8 then some true
  else none

/-- Fragments in or on their way to the overflow slice of a tag (R225). -/
def State.overflowUse (s : State) (die sl : Nat) : Nat :=
  s.frags.countP fun p => (p.2.place == .overflow || p.2.place == .moving) && p.2.die == die && (s.meetingPlace p.2.owner p.2.tag).2.2 == sl

/-- Sends a deflected fragment on, if the overflow slice has room; else the router holds it. -/
def State.deflect (s : State) (k : Nat) (x : Frag) : State :=
  let (die, _, sl) := s.meetingPlace x.owner x.tag
  if s.overflowUse die sl < 256 then (s.setFrag k { x with place := .moving }).post (.overflowFragmentArrive k)
  else s.setFrag k { x with place := .heldBack }

/-- A place in an overflow slice has become free: the fragments that its die's routers hold move on, in the order of their arrival
(R225). -/
def State.releaseHeld (s : State) : State :=
  ((s.frags.filter fun p => p.2.place == .heldBack).sortBy fun a b => decide (a.2.ord ≤ b.2.ord)).foldl (fun s p => match s.frags.find p.1 with
    | some x => if x.place = .heldBack then s.deflect p.1 x else s
    | none => s) s

/-- Whether a router takes no fragment: it holds deflected ones for want of overflow room, and gives no permit of its channel (R225). -/
def State.meetShut (s : State) (die router : Nat) : Bool :=
  s.frags.any fun p => p.2.place == .heldBack && p.2.die == die && p.2.router == router

/-- A fragment on its way to its router. -/
def State.sentFrag (s : State) (cmd f : Nat) : Option (Nat × Frag) :=
  s.frags.find? fun p => p.2.cmd == cmd && p.2.f == f && p.2.place == .sent

/-- FRAGMENT_ARRIVE (R223): a fragment reaches its router. -/
def execFragmentArrive (cmd f : Nat) (s : State) : Out :=
  if ((s.sentFrag cmd f).map fun p => s.meetShut p.2.die p.2.router).getD false then .next s else
  fire (.fragmentArrive cmd f) s fun s =>
    match s.sentFrag cmd f with
    | none => s
    | some (k, x) =>
      let x := { x with ord := s.nseq }
      let s := { s with nseq := s.nseq + 1 }
      if (s.part x.owner).retired.contains (x.tag, x.f) then (s.makeOrphan k x .orphan).accept cmd
      else
        match s.frags.find? fun p => p.2.owner == x.owner && p.2.tag == x.tag && p.2.f == x.f &&
            (match p.2.place with | .store _ => true | _ => false) with
        | some (j, y) => (s.meet j y k x).accept cmd
        | none =>
          match (if Tab.getD s.presence 0 x.countKey = 0 then s.takeStore x else none) with
          | some sh => (s.setFrag k { x with place := .store sh, since := s.now }).accept cmd
          | none =>
            let s := { s with presence := s.presence.setD 0 x.countKey (Tab.getD s.presence 0 x.countKey + 1) }
            s.deflect k { x with deflected := true }

/-- OVERFLOW_FRAGMENT_ARRIVE (R225): a deflected fragment reaches the overflow slice, where it meets the earliest of its key. -/
def execOverflowFragmentArrive (frag : Nat) (s : State) : Out :=
  fire (.overflowFragmentArrive frag) s fun s =>
    match s.frags.find frag with
    | none => s
    | some x =>
      if (s.part x.owner).retired.contains (x.tag, x.f) then ((s.makeOrphan frag x .orphan).accept x.cmd).releaseHeld
      else
        match (s.frags.filter fun p => p.2.owner == x.owner && p.2.tag == x.tag && p.2.f == x.f && p.2.place == .overflow).sortBy
            (fun a b => decide (a.2.ord ≤ b.2.ord)) with
        | (j, y) :: _ => ((s.meet j y frag x).accept x.cmd).releaseHeld
        | [] => (({ s with nseq := s.nseq + 1 }).setFrag frag { x with place := .overflow, since := s.now, ord := s.nseq }).accept x.cmd

/-- Whether the result of a tag's meeting may be written at an address (R18, R229): the owner's region, one that an address window
admits, or the guest's of a tag window that admits the result now, or admitted it when it was sent and has not drained (R22). -/
def State.resultOk (s : State) (owner tag pa : Nat) (wins : List Nat) : Bool :=
  s.mapOk owner pa true ||
    (match s.region pa with
     | none => true
     | some r => (wins ++ s.resultWins owner tag).any fun w => s.winBits (oWIN w) 12 1 == 1 && s.winBits (oWIN w) 4 4 == s.homeOwner r)

/-- Writes a fragment's bytes at its destination, as an engine does; answers whether a part was refused (R227, R449), and the largest
write timestamp. -/
def State.writeFrag (s : State) (x : Frag) : State × Bool × Nat :=
  let n := match x.dst with | [_, _] => 65536 - (((x.dst.head?).getD (0, 0)).1) % 65536 | _ => 512
  let (s, bad, ts, _) := x.dst.foldl (fun (a : State × Bool × Nat × Nat) d =>
    let (s, bad, ts, off) := a
    let len := if off = 0 then n else 512 - n
    if !s.resultOk x.owner x.tag d.1 x.wins then (s.gateRec x.owner x.vf 0 0 0 0 x.tag true, true, ts, off + len)
    else if s.portLost d.1 then (s, bad, ts, off + len)
    else
      let s := (linesOf d.1 len).foldl (fun s ln => (s.publishLine ln).asKey ln d.2) s
      let po := (x.pois.filter fun w => decide (off ≤ 4 * w ∧ 4 * w < off + len)).map fun w => (d.1 + 4 * w - off) / 4
      let s := s.homeWriteP d.1 ((x.data.drop off).take len) po
      let (s, ts) := (linesOf d.1 len).foldl (fun (a : State × Nat) ln =>
        let (t, s) := a.1.stamp ln x.pts
        (s.keepL2 ln true, max a.2 t)) (s, ts)
      (s, bad, ts, off + len)) (s, false, x.pts, 0)
  (s, bad, ts)

/-- The completion counter of a meeting is updated once all its fragments are written (R227); an orphan tile is recorded, and where a meeting
was refused each of the two tiles (R449). -/
def State.closeTally (s : State) (k : Nat) (t : Tally) : State :=
  let c := t.cause
  let n := if c = .tag then t.sends else 1
  let s := { s with tallies := s.tallies.filter fun p => p.1 != k && s.tallyRoot p.1 != k }
  let pa := t.ctr.1
  let s := if !s.resultOk t.owner t.tag pa t.wins then s.gateRec t.owner t.vf 0 0 0 0 t.tag true
    else if s.portLost pa then s
    else
      let s := s.publishLine (pa / 128)
      if s.anyPois pa 8 then s
      else
        let (ts, s) := (s.asKey (pa / 128) t.ctr.2).addAt pa (if c = .none then 1 else n * (1 + 2 ^ 32)) t.pts
        t.also.foldl (fun s l => s.raiseStep l ts) s
  if c = .none then s
  else (List.range n).foldl (fun (s : State) _ => s.tenantRec t.vf [recHead c 6 t.owner t.vf 0 0 0 0, 0, t.tag, s.time]) s

/-- Whether the lines that a fragment writes are free of engines (R132). -/
def State.canDeliver (s : State) (x : Frag) : Bool :=
  !(x.dst.any fun d => (linesOf d.1 512).any s.locked) && !s.locked (x.ctr.1 / 128)

/-- FRAGMENT_COMBINE_DONE (R227): a combined or orphan fragment is written. -/
def execFragmentCombineDone (frag : Nat) (s : State) : Out :=
  match s.frags.find frag with
  | none => fire (.fragmentCombineDone frag) s id
  | some x =>
    if !s.canDeliver x then .next s else
    fire (.fragmentCombineDone frag) s fun s =>
      let (s, bad, ts) := s.writeFrag x
      let s := { s with frags := s.frags.del frag }
      let s := if ((Tab.find (s.part x.owner).tags x.tag).map (·.freed)).getD false && !s.tagBusy x.owner x.tag then
        s.freeTag x.owner x.tag else s
      let root := s.tallyRoot x.cmd
      match s.tallies.find root with
      | none => s
      | some t =>
        let e := if bad then Cause.gate else match x.place with | .orphan c => c | _ => .none
        let t := { t with need := t.need - x.cnt, pts := max t.pts ts, cause := if t.cause = .none || e = .tag then e else t.cause }
        if t.need = 0 then s.closeTally root t else { s with tallies := s.tallies.put root t }

/-- ORPHAN_TIMEOUT (R226): a fragment has waited for its partner beyond the orphan timeout. -/
def execOrphanTimeout (frag : Nat) (s : State) : Out :=
  match s.frags.find frag with
  | none => .next s
  | some x =>
    event ((match x.place with | .store _ => true | .overflow => true | _ => false) && decide (x.since + x.oto ≤ s.now)) s fun s =>
      (s.makeOrphan frag x .orphan).releaseHeld

/-! ## Active messages (R48, R49, R230) -/

/-- Whether a message can enter its destination's queue: it has room, and no earlier message of the sender's core stands before. -/
def State.canArrive (s : State) (id : Nat) (m : Msg) : Bool :=
  decide ((s.core m.dst).inq.length < 32) &&
    !(s.onWay fun e => match e with
      | .amArrive j => decide (j < id) && ((s.msgs.find j).map fun x => x.src == m.src && x.dst == m.dst).getD false
      | _ => false)

/-- AM_ARRIVE (R230): a message enters the inbound queue. -/
def execAmArrive (msg : Nat) (s : State) : Out :=
  match s.msgs.find msg with
  | none => fire (.amArrive msg) s id
  | some m =>
    if !s.canArrive msg m then .next s else
    fire (.amArrive msg) s fun s => (s.modCore m.dst fun k => { k with inq := k.inq ++ [msg] }).endCmd m.cmd

/-- Whether a message's handler can start on its core: a sub-core has its owning launch's reserved slot free (R49), or room where the launch
reserves none there: on a core off its rectangle, at which a registered handler's message may come (R230), or once it has completed (log entry
70); not during its partition's teardown (R17). -/
def State.handlerRoom (s : State) (core : Nat) (m : Msg) : Bool :=
  match s.launches.find m.owner with
  | none => false
  | some la =>
    s.bhSt (bhOf core) == 3 && (la.urgent || !s.preempted core) && (s.handlerSub core m.owner).isSome &&
      (la.reserved || (la.st == .ended && (s.part la.part).teardown.isNone))

/-- Whether an earlier message of a core has a handler on this core that is still to start. -/
def State.handlerStarting (s : State) (core src : Nat) : Bool :=
  s.wgs.any fun w => w.2.core == core && w.2.st == .starting && (match w.2.kind with
    | .handler j => ((s.msgs.find j).map fun x => x.src == src).getD false
    | _ => false)

/-- The message whose handler starts next: the first that has room, no earlier one from the same core standing before it or still to
start (R47, R49). -/
def State.nextMsg (s : State) (core : Nat) : Option Nat :=
  let q := (s.core core).inq
  q.find? fun id =>
    match s.msgs.find id with
    | none => true
    | some m => s.handlerRoom core m && !s.handlerStarting core m.src && !((q.takeWhile fun j => j != id).any fun j =>
        ((s.msgs.find j).map fun x => x.src == m.src).getD false)

/-- HANDLER_START (R48): a queued message starts its handler lane group. -/
def execHandlerStart (core : Nat) (s : State) : Out :=
  match s.nextMsg core with
  | none => .next s
  | some id =>
    let s := s.modCore core fun k => { k with inq := k.inq.erase id }
    match s.msgs.find id with
    | none => .next s
    | some m =>
      .next (s.addWg { launch := m.owner, kind := .handler id, core := core, home := core, nlg := 1, bank := (s.core core).target } 64 0)

/-! ## Pipes and permits -/

/-- The lane groups of a launch, or of its gang. -/
def State.gangLgs (s : State) (launch : Nat) : List (Nat × Lg) :=
  match s.launches.find launch with
  | none => []
  | some la =>
    let ls := if la.gang then (s.launches.filter fun p => p.2.gang && p.2.vf == la.vf && p.2.gid == la.gid && p.2.gangN == la.gangN && p.2.st == .running).map (·.1)
      else [launch]
    s.lgs.filter fun p => ((s.wgs.find p.2.wg).map fun w => ls.contains w.launch).getD false

/-- The pipe that a lane group is blocked on. -/
def Lg.pipeName (l : Lg) : Option (Nat × DWord × Nat) :=
  match l.status with
  | .blocked (.pipePush n _ f k) _ => some (n, f, k)
  | .blocked (.pipePop n f k) _ => some (n, f, k)
  | _ => none

/-- Whether a gang, or a launch that pops a pipe that it pushes, is deadlocked on pipes (R453): the pipes that it uses are those that it has
bound, pushed or popped. -/
def State.deadlocked (s : State) (launch : Nat) : Bool :=
  match s.launches.find launch with
  | none => false
  | some la =>
    let ls := (s.gangLgs launch).filter fun p => match p.2.status with | .ended => false | .stopped _ => false | _ => true
    let names := (ls.filterMap fun p => p.2.pipeName.map (·.1)).eraseDups
    let us := launch :: (s.gangLgs launch).filterMap fun g => (s.wgs.find g.2.wg).map (·.launch)
    let pipes := (s.part la.part).pipes.vals
    la.cor && la.st == .running && !names.isEmpty &&
      (la.gang || pipes.any fun p => p.pushers.contains launch && p.poppers.contains launch) &&
      ls.all (fun p => p.2.pipeName.isSome || (match p.2.status with
        | .blocked (.barWg _) _ => true
        | .blocked (.barSpan _ _ _ _) _ => true
        | .blocked .barStep _ => true
        | _ => false)) &&
      (pipes.filter fun p => (p.users ++ p.pushers ++ p.poppers).any us.contains).all fun p =>
        decide (p.last + 20000 * s.winBits (oPART la.part) 16 8 < s.now) &&
          !(s.vfr.any fun r => let o := r.1 % 4096
            decide (0x200 ≤ o ∧ o < 0x300) && o % 32 == 8 && bit r.2 56 && bits r.2 40 16 == p.name && s.vfPart (r.1 / 4096) == la.part)

/-- PIPE_DEADLOCK (R453): every lane group blocked on a pipe raises `pipe`, and one src 13 record is written. -/
def execPipeDeadlock (launch : Nat) (s : State) : Out :=
  event (s.deadlocked launch) s fun s =>
    match s.launches.find launch with
    | none => s
    | some la =>
      let gs := (s.gangLgs launch).filter fun p => p.2.pipeName.isSome
      let name := ((gs.head?.bind fun p => p.2.pipeName).map (·.1)).getD 0
      let s := s.tenantRec la.vf [la.recHead .pipe 13, la.recWhere, if la.gang then la.gid else name, s.time]
      gs.foldl (fun s p =>
        match p.2.pipeName with
        | none => s
        | some (n, first, slot) =>
          let s := { s.makeReady p.1 with cur := p.1, pk := { idx := p.2.pc, first := first, slot := slot } }
          match s.ctx? with
          | none => s
          | some c => s.raiseR c .pipe c.exMask (BitVec.ofNat 64 n)) s

/-- PERMIT_AUDIT (R215, R452): the permits of a link's channel are compared with the configured total and repaired. -/
def execPermitAudit (link chan : Nat) (s : State) : Out :=
  let p := s.permit link chan
  event (decide (chan < 8) && p.held + p.buf.length != permitTotal chan) s fun s =>
    (s.setPermit link chan { p with held := permitTotal chan - p.buf.length }).mgrRec
      [recHead .permit 10 15 0 0 0 0 0, 0, linkName link, s.time]

end Sys2Proof.Machine
end

