-- ==== Sys2Proof/Machine/Special.lean ====
section
/-! DEFINITION. The special functions of R102 to R104: fixed-point enclosures of the exact
value, 320 fraction bits wide; where both ends round to one encoding, that is the correctly rounded result, and otherwise
the result is the free value `Config.special` (log entry 7). -/

namespace Sys2Proof.Machine

/-- Fraction bits of the fixed-point numbers. -/
def fxP : Nat := 320
/-- π and ln 2, rounded down to 320 fraction bits. -/
def fxPi : Nat := 0x3243f6a8885a308d313198a2e03707344a4093822299f31d0082efa98ec4e6c89452821e638d01377
def fxLn2 : Nat := 0xb17217f7d1cf79abc9e3b39803f2f6af40f343267298b62d8a0d175b8baafa2be7b876206debac98
/-- A bound, in units of the last fraction bit, on the error of the sums below. -/
def fxErr : Nat := 2 ^ 32

def fxMul (a b : Nat) : Nat := (a * b) >>> fxP

/-- Σ t·z^j/((k+1)…(k+j)) for at most `n` terms, from the term `t` of index `k`. -/
def fxExpSum (z : Nat) : Nat → Nat → Nat → Nat
  | 0, _, _ => 0
  | n + 1, k, t => t + fxExpSum z n (k + 1) (fxMul t z / (k + 1))

/-- e^z for 0 ≤ z < 1. -/
def fxExp (z : Nat) : Nat := fxExpSum z 100 0 (2 ^ fxP)

/-- t - t·w/((k+1)(k+2)) + …, alternating, for w = z². -/
def fxAltSum (w : Nat) : Nat → Nat → Nat → Nat
  | 0, _, _ => 0
  | n + 1, k, t => t - fxAltSum w n (k + 2) (fxMul t w / ((k + 1) * (k + 2)))

/-- sin z and cos z for 0 ≤ z ≤ π/4. -/
def fxSin (z : Nat) : Nat := fxAltSum (fxMul z z) 50 1 z
def fxCos (z : Nat) : Nat := fxAltSum (fxMul z z) 50 0 (2 ^ fxP)

/-- Σ z^(2j+1)/(2j+1). -/
def fxAtanhSum (w : Nat) : Nat → Nat → Nat → Nat
  | 0, _, _ => 0
  | n + 1, k, t => t / k + fxAtanhSum w n (k + 2) (fxMul t w)

/-- log₂ of m/2^(log₂ m), in [0, 1): 2·atanh((x-1)/(x+1))/ln 2. -/
def fxLog2 (m : Nat) : Nat :=
  let u := 2 ^ Nat.log2 m
  let z := ((m - u) <<< fxP) / (m + u)
  ((2 * fxAtanhSum (fxMul z z) 110 1 z) <<< fxP) / fxLn2

/-- The correctly rounded value between `lo` and `hi` (units of 2^-320, times 2^k), inexact; free where the enclosure
straddles a rounding boundary. -/
def Fmt.enclosed (f : Fmt) (op arg : Nat) (s : Bool) (lo hi : Nat) (k : Int) : Nat :=
  let a := (f.round .rne s (2 * lo + 1) (k - fxP - 1)).1
  let b := (f.round .rne s (2 * hi + 1) (k - fxP - 1)).1
  if a = b then a else (Config.special op arg).toNat % 2 ^ f.width

/-- An inexact result with the flags of R104. -/
def Fmt.spRes (f : Fmt) (x : Nat) : Nat × FFlags := (x, f.spFlags x false)

/-- ⌊m·2^e⌋ and the fraction in 320 bits, for a non-negative value of at least 2^-320. -/
def fxSplit (m : Nat) (e : Int) : Nat × Nat :=
  if e < 0 then
    let d := (-e).toNat
    (m >>> d, ((m % 2 ^ d) <<< fxP) >>> d)
  else (m <<< e.toNat, 0)

/-- 2^x for a finite x (R102, R104). -/
def Fmt.exp2Fin (f : Fmt) (arg : Nat) (s : Bool) (m : Nat) (e : Int) : Nat × FFlags :=
  if 12 < e + Nat.log2 m then
    if s then f.spRes 0 else f.spRes f.inf
  else
    let (i, fr) := fxSplit m e
    if fr = 0 then
      let (x, fl) := f.round .rne false 1 (if s then -(i : Int) else i)
      (x, f.spFlags x (fl = 0 || fl = fUf))
    else
      let n : Int := if s then -(i : Int) - 1 else i
      let fr := if s then 2 ^ fxP - fr else fr
      let y := fxExp (fxMul fr fxLn2)
      f.spRes (f.enclosed 3 arg false (y - fxErr) (y + fxErr) n)

/-- log₂ x for a finite x > 0. -/
def Fmt.log2Fin (f : Fmt) (arg m : Nat) (e : Int) : Nat × FFlags :=
  let n : Int := e + Nat.log2 m
  if m = 2 ^ Nat.log2 m then
    (f.round .rne (n < 0) n.natAbs 0)
  else
    let y := fxLog2 m
    let v : Int := n * (2 ^ fxP : Nat) + y
    f.spRes (f.enclosed 4 arg (v < 0) (v.natAbs - fxErr) (v.natAbs + fxErr) 0)

/-- The magnitude of sin(π·y) for y in [0, 1/2] given in 320 fraction bits. -/
def fxSinHalf (y : Nat) : Nat :=
  if 4 * y ≤ 2 ^ fxP then fxSin (fxMul y fxPi) else fxCos (fxMul (2 ^ (fxP - 1) - y) fxPi)

/-- sin(π·x) or cos(π·x) for a finite x (R102, R104). -/
def Fmt.sinFin (f : Fmt) (cos : Bool) (op arg : Nat) (s : Bool) (m : Nat) (e : Int) : Nat × FFlags :=
  let (i, fr) := fxSplit m e
  let half := 2 ^ (fxP - 1)
  -- in half-turns: position in [0, 2) of |x|, shifted by 1/2 for the cosine
  let h := (i % 2) * 2 + (if half ≤ fr then 1 else 0)
  let q := (h + if cos then 1 else 0) % 4
  let y := fr % half
  let neg := (2 ≤ q) != (s && !cos)
  let y := if q % 2 = 0 then y else half - y
  if y = 0 then (0, 0)
  else if y = half then (f.sign neg + f.bias * 2 ^ f.mb, 0)
  else
    let v := fxSinHalf y
    f.spRes (f.enclosed op arg neg (v - fxErr) (v + fxErr) 0)

/-- A special function on an encoding (R102, R103): operation numbers of R270. -/
def Fmt.special (f : Fmt) (op a : Nat) : Nat × FFlags :=
  match f.num a with
  | .nan s => (f.nan, nvIf s)
  | .inf s =>
    match op with
    | 0 => (f.sign s, 0)
    | 1 => if s then (f.nan, fNv) else (0, 0)
    | 2 => if s then (f.nan, fNv) else (f.inf, 0)
    | 3 => if s then (0, 0) else (f.inf, 0)
    | 4 => if s then (f.nan, fNv) else (f.inf, 0)
    | _ => (f.nan, fNv)
  | .fin s m e =>
    if m = 0 then
      match op with
      | 0 => (f.sign s + f.inf, fDz)
      | 1 => (f.sign s + f.inf, fDz)
      | 2 => (f.sign s, 0)
      | 3 => (f.bias * 2 ^ f.mb, 0)
      | 4 => (f.sign true + f.inf, fDz)
      | 5 => (0, 0)
      | _ => (f.bias * 2 ^ f.mb, 0)
    else
      match op with
      | 0 => f.rcpFin s m e
      | 1 => if s then (f.nan, fNv) else f.rsqrtFin m e
      | 2 => if s then (f.nan, fNv) else f.sqrtFin m e
      | 3 => f.exp2Fin a s m e
      | 4 => if s then (f.nan, fNv) else f.log2Fin a m e
      | 5 => f.sinFin false 5 a s m e
      | _ => f.sinFin true 6 a s m e

end Sys2Proof.Machine
end

