-- ==== Sys2Proof/Machine/Flags.lean ====
section
/-! DEFINITION. Floating-point flags (R75, R83): words that raise them in their active lanes, scalar and packed forms. -/

namespace Sys2Proof.Machine

/-- ORs flags into `cr.fflags` (R70, R75). -/
def Lg.raiseF (l : Lg) (fl : FFlags) : Lg := { l with fflags := l.fflags ||| fl }

/-- The flags of a lane computation joined over the active lanes. -/
def joinFlags (em : Word) (f : Nat → Word × FFlags) : FFlags := (lanesOf em).foldl (fun a i => a ||| (f i).2) 0

/-- A word that computes a lane result with flags after its checks. -/
def fpWord (i : Instr) (s : State) (n : BitVec 1) (d : Nat) (chk : Ctx → List Finding) (f : Ctx → Nat → Word × FFlags) :
    Out :=
  word i s fun c s => s.checked c (chk c) fun s => s.up c fun l =>
    (l.wrRes c.em n d fun j => (f c j).1).raiseF (joinFlags c.em (f c))

/-- A scalar result. -/
def res32 (r : Nat × FFlags) : Word × FFlags := (BitVec.ofNat 32 r.1, r.2)

/-- A packed operation: both halves alone, flags joined (R81, R288). -/
def packed (f : Nat → Nat → Nat × FFlags) (a b : Word) : Word × FFlags :=
  let lo := f (a.toNat % 65536) (b.toNat % 65536)
  let hi := f (a.toNat / 65536) (b.toNat / 65536)
  (BitVec.ofNat 32 (lo.1 % 65536 + hi.1 % 65536 * 65536), lo.2 ||| hi.2)

/-- A packed operation of three operands. -/
def packed3 (f : Nat → Nat → Nat → Nat × FFlags) (a b d : Word) : Word × FFlags :=
  let lo := f (a.toNat % 65536) (b.toNat % 65536) (d.toNat % 65536)
  let hi := f (a.toNat / 65536) (b.toNat / 65536) (d.toNat / 65536)
  (BitVec.ofNat 32 (lo.1 % 65536 + hi.1 % 65536 * 65536), lo.2 ||| hi.2)

/-- A binary FP32 word (R288). -/
def fp32Word (i : Instr) (s : State) (n : BitVec 1) (d : BitVec 6) (a b : BitVec 8) (f : Nat → Nat → Nat × FFlags) : Out :=
  fpWord i s n d.toNat (fun c => c.srcF a ++ c.srcF b) fun c j => res32 (f (c.src 0 a j).toNat (c.src 0 b j).toNat)

/-- A binary packed word: `pk` 1 for BF16, 2 for FP16. -/
def fpPkWord (i : Instr) (s : State) (pk : Nat) (n : BitVec 1) (d : BitVec 6) (a b : BitVec 8)
    (f : Nat → Nat → Nat × FFlags) : Out :=
  fpWord i s n d.toNat (fun c => c.srcF a ++ c.srcF b) fun c j => packed f (c.src pk a j) (c.src pk b j)

/-- A unary word in the type of R270. -/
def fpUnWord (i : Instr) (s : State) (t : BitVec 2) (n : BitVec 1) (d : BitVec 6) (a : BitVec 8)
    (f : Fmt → Nat → Nat × FFlags) : Out :=
  fpWord i s n d.toNat (fun c => c.srcF a) fun c j =>
    let x := c.src t.toNat a j
    if t = 0 then res32 (f f32 x.toNat) else packed (fun a _ => f (if t = 1 then bf16 else f16) a) x 0

end Sys2Proof.Machine
end

