-- ==== Sys2Proof/Machine/Lane.lean ====
section
/-! DEFINITION. Moves, constants, conversions, lane exchange, votes and lane control: major 5 (R293 to R300). -/

namespace Sys2Proof.Machine

def execMov (d : BitVec 6) (n : BitVec 1) (a : BitVec 8) (s : State) : Out := unWord (.mov d n a) s n d a id
def execLi (d : BitVec 6) (n : BitVec 1) (i : BitVec 16) (s : State) : Out :=
  laneWord (.li d n i) s n d.toNat (fun _ => []) fun _ _ => i.signExtend 32
def execLih (d : BitVec 5) (i : BitVec 21) (s : State) : Out :=
  laneWord (.lih d i) s 0 d.toNat (fun c => c.regF c.em d.toNat) fun c j =>
    (i.setWidth 32 <<< 11) ||| (c.v d.toNat j &&& 0x7FF)

/-! ## Conversions (R294) -/

/-- The rounding mode of a selector's bits. -/
def rndOf (x : Nat) : Rnd := if x = 1 then .rz else if x = 2 then .sat else .rne

/-- Replaces half `h` of a word. -/
def putHalf (d : Word) (h : Nat) (x : Nat) : Word :=
  BitVec.ofNat 32 (if h = 0 then d.toNat / 65536 * 65536 + x % 65536 else d.toNat % 65536 + x % 65536 * 65536)

def half (a : Word) (h : Nat) : Nat := if h = 0 then a.toNat % 65536 else a.toNat / 65536

/-- A conversion between integer types (R99): T is 0 s8, 1 s16, 2 z8, 3 z16. -/
def cvtInt (t : Nat) (r : Rnd) (x : Int) : Word :=
  let w := if t % 2 = 0 then 8 else 16
  let signed := t < 2
  let lo : Int := if signed then -(2 ^ (w - 1) : Nat) else 0
  let hi : Int := ((2 ^ (if signed then w - 1 else w) : Nat) : Int) - 1
  let y : Int := if r = .sat then max lo (min hi x) else x
  BitVec.ofInt 32 (if signed then sextNat w (wrapInt w y) else (wrapInt w y : Int))

/-- The result and flags of `cvt` on source `a` and old destination `d`; `k` is the descriptor. -/
def cvtRes (sel : BitVec 8) (k : Nat) (a d : Word) : Word × FFlags :=
  let r := rndOf (bits sel 4 2)
  let h := bits sel 6 1
  let x := f32.num a.toNat
  let int := fun (p : Int × FFlags) => (BitVec.ofInt 32 p.1, p.2)
  match bits sel 0 4 with
  | 0 => int (toInt 32 true r x)
  | 1 => int (toInt 32 false r x)
  | 2 => res32 (f32.conv r (Num.ofInt a.toInt))
  | 3 => res32 (f32.conv r (Num.ofInt a.toNat))
  | 4 => let p := bf16.conv r x; (putHalf d h p.1, p.2)
  | 5 => let p := f16.conv r x; (putHalf d h p.1, p.2)
  | 6 => res32 (f32.ofNum (bf16.num (half a h)))
  | 7 => res32 (f32.ofNum (f16.num (half a h)))
  | 8 => (cvtInt (bits sel 6 2) r a.toInt, 0)
  | 9 => (cvtInt (bits sel 6 2) r a.toNat, 0)
  | 10 => res32 ((Desc.of k).conv .rne x)
  | 11 => res32 ((Desc.of k).conv .rz x)
  | 12 => res32 ((Desc.of k).conv .sat x)
  | 13 => (BitVec.ofNat 32 (f32.ofNum ((Desc.of k).num a.toNat)).1, 0)
  | _ => res32 (rintF32 r a.toNat)

/-- Whether a selector reads its old destination, or takes a descriptor. -/
def cvtReadsD (sel : BitVec 8) : Bool := bits sel 0 4 == 4 || bits sel 0 4 == 5
def cvtDesc (sel : BitVec 8) : Bool := decide (10 ≤ bits sel 0 4 ∧ bits sel 0 4 ≤ 13)

def execCvt (d : BitVec 6) (n : BitVec 1) (a sel : BitVec 8) (s : State) : Out :=
  fpWord (.cvt d n a sel) s n d.toNat
    (fun c => (if cvtReadsD sel then c.dstF n d.toNat else []) ++ c.srcF a ++
      c.finding (cvtDesc sel && !(Desc.of ((c.kr (bits sel 4 4)).toNat % 2 ^ 32)).valid) .fmt)
    fun c j => cvtRes sel ((c.kr (bits sel 4 4)).toNat % 2 ^ 32) (c.src 0 a j) (c.dst n d.toNat j)

/-! ## Exchange and votes (R295, R296) -/

/-- The source lane of a `shfl`. -/
def shflLane (m : BitVec 2) (l lane : Nat) : Nat :=
  match m.toNat with
  | 0 => l
  | 1 => lane ^^^ l
  | 2 => if l ≤ lane then lane - l else lane
  | _ => if lane + l ≤ 31 then lane + l else lane

/-- The lane operand in a lane: immediate, or from `v[l]`. -/
def shflOp (c : Ctx) (r : BitVec 1) (l : BitVec 5) (lane : Nat) : Nat :=
  if r = 1 then (c.v l.toNat lane).toNat % 32 else l.toNat

def execShfl (d : BitVec 6) (n : BitVec 1) (a : BitVec 8) (r : BitVec 1) (m : BitVec 2) (l : BitVec 5) (s : State) : Out :=
  laneWord (.shfl d n a r m l) s n d.toNat
    (fun c => (if r = 1 then c.regF c.em l.toNat else []) ++ c.srcAt c.em (fun j => shflLane m (shflOp c r l j) j) a)
    fun c j => c.src 0 a (shflLane m (shflOp c r l j) j)

def execVoteAny (d q : BitVec 3) (s : State) : Out :=
  word (.voteAny d q) s fun c s => s.up c fun l => l.wrQ c.em d.toNat (allQ (c.q q.toNat &&& c.em != 0))
def execVoteAll (d q : BitVec 3) (s : State) : Out :=
  word (.voteAll d q) s fun c s => s.up c fun l => l.wrQ c.em d.toNat (allQ (c.q q.toNat &&& c.em == c.em))
def execVoteBallot (d : BitVec 6) (n : BitVec 1) (q : BitVec 3) (s : State) : Out :=
  laneWord (.voteBallot d n q) s n d.toNat (fun _ => []) fun c _ => c.q q.toNat &&& c.em

/-! ## Lane control (R298, R299) -/

def execEdge (m : BitVec 2) (s : State) : Out := word (.edge m) s fun c s => s.up c fun l => { l with edge := m }

/-- Writes index offsets in the active lanes. -/
def Lg.wrOff (l : Lg) (em : Word) (x : Nat) (f : Nat → BitVec 8) : Lg :=
  { l with xo := (lanesOf em).foldl (fun t j => t.setD 0 (32 * x + j) (f j)) l.xo }

def execIdxSet (x : BitVec 2) (a : BitVec 8) (s : State) : Out :=
  word (.idxSet x a) s fun c s => s.checked c (c.srcF a) fun s => s.up c fun l =>
    l.wrOff c.em x.toNat fun j => (c.src 0 a j).truncate 8
def execIdxAdd (x : BitVec 2) (a : BitVec 8) (s : State) : Out :=
  word (.idxAdd x a) s fun c s => s.checked c (c.srcF a) fun s => s.up c fun l =>
    l.wrOff c.em x.toNat fun j => BitVec.ofNat 8 (c.idxOff x.toNat j) + (c.src 0 a j).truncate 8

/-- The lane groups of a sub-core that hold a staging slot, oldest `rgn.pf` first; one that leaves its core holds it until it has
left (R58). -/
def State.stagers (s : State) (core bank sc : Nat) : List (Nat × Lg) :=
  (s.lgs.filter fun p => p.2.stagedAt ≠ 0 && p.2.sc == sc &&
    ((s.wgs.find p.2.wg).map fun w => w.core == core && w.bank == bank && (w.st == .resident || w.st == .leaving)).getD false).sortBy
      fun a b => a.2.stagedAt ≤ b.2.stagedAt

/-- Stages registers (R57, R58): takes a slot of the sub-core, the oldest holder losing its own where none is free; a zero
mask stages nothing. -/
def State.stage (s : State) (c : Ctx) (m : DWord) : State :=
  let hs := s.stagers c.core c.wg.bank c.lg.sc
  let s :=
    if c.lg.stagedAt ≠ 0 || hs.length < 4 then s
    else match hs with
      | [] => s
      | (g, _) :: _ => s.modLg g fun l => { l with staged := [], stagedAt := 0 }
  let s := { s with nseq := s.nseq + 1 }
  s.up c fun l => { l with staged := (List.range 64).filter (bit m), stagedAt := s.nseq }

def execRgnPf (m : BitVec 5) (s : State) : Out :=
  word (.rgnPf m) s fun c s =>
    let rs := (List.range 64).filter (bit (c.kr m.toNat))
    s.checked c (c.illegalIf (32 < rs.length) ++ (rs.filter (· < c.lg.alloc)).flatMap (c.regF c.em)) fun s => s.stage c (c.kr m.toNat)

/-- Takes a larger allocation (R53): the new registers read as zero in every lane. -/
def Lg.grow (l : Lg) (n : Nat) : Lg :=
  { l with alloc := n, grown := none, v := l.v.filter (fun p => p.1 < 32 * l.alloc), bad := l.bad.filter (· < 32 * l.alloc) }

/-- Grows the allocation (R53): nothing at or below the current one, else a visible block until registers are free; the packet runs
once they are the lane group's, and its words read the allocation as it was before (R70). -/
def execRgrow (x : BitVec 3) (s : State) : Out :=
  word (.rgrow x) s fun c s => s.checked c (c.illegalIf c.handler) fun s =>
    let n := 64 + 32 * x.toNat
    if n ≤ c.lg.alloc then s
    else if c.lg.grown = some n then s.up c fun l => l.grow n
    else s.blockBack c (.rgrow n s.pk.first s.pk.slot)

/-- The registers at or above an allocation are lost (R54). -/
def Lg.shrink (l : Lg) (n : Nat) : Lg :=
  { l with alloc := n, v := l.v.filter (fun p => p.1 < 32 * n), bad := l.bad.filter (· < 32 * n),
           staged := l.staged.filter (· < n) }

/-- Shrinks the allocation. No load names a register at or above 64, so none holds the word back (R54, R303). -/
def execRshrink (x : BitVec 3) (s : State) : Out :=
  word (.rshrink x) s fun c s => s.up c fun l =>
    if l.alloc ≤ 64 + 32 * x.toNat then l else l.shrink (64 + 32 * x.toNat)

/-- The values of R299. -/
def rdspValue (c : Ctx) (s : State) (n : Nat) : Word :=
  match n with
  | 0 => c.em
  | 1 => c.sn.fm
  | 2 => BitVec.ofNat 32 c.sn.alloc
  | 3 => BitVec.ofNat 32 c.sn.path.length
  | 4 => BitVec.ofNat 32 ((s.lgsOf c.lg.wg).filter fun p => p.2.status != .ended).length
  | _ => c.q (n - 8)

def execRdsp (d : BitVec 6) (n : BitVec 1) (x : BitVec 5) (s : State) : Out :=
  laneWord (.rdsp d n x) s n d.toNat (fun _ => []) fun c _ => rdspValue c s x.toNat

/-! ## Indexed moves (R300) -/

/-- The lanes whose access through xN fails (R55). -/
def Ctx.idxF (c : Ctx) (x : Nat) : List Finding :=
  lanesFail (Cause.rank .bound) .bound (maskOf (c.lanes.filter fun j => !c.idxOk x j))

def execLdX (d : BitVec 6) (n : BitVec 1) (x : BitVec 2) (s : State) : Out :=
  laneWord (.ldX d n x) s n d.toNat
    (fun c => c.idxF x.toNat ++
      lanesFail 5 .poison (maskOf (c.lanes.filter fun j => c.idxOk x.toNat j && c.badWord (c.idxReg x.toNat j, j))))
    fun c j => c.v (c.idxReg x.toNat j) j

def execStX (x : BitVec 2) (a : BitVec 8) (s : State) : Out :=
  word (.stX x a) s fun c s => s.checked c (c.idxF x.toNat ++ c.srcF a) fun s => s.up c fun l =>
    { l with
      v := c.lanes.foldl (fun t j => t.setD 0 (32 * c.idxReg x.toNat j + j) (c.src 0 a j)) l.v
      bad := l.bad.filter fun w => !(c.em.getLsbD (w % 32) && w / 32 == c.idxReg x.toNat (w % 32)) }

end Sys2Proof.Machine
end

