-- ==== Sys2Proof/Machine/Fetch.lean ====
section
/-! DEFINITION. Instruction fetch (R261 to R264, R421): the fetch line of a packet, its checks, landings. -/

namespace Sys2Proof.Machine

/-- What fetching a line gives. -/
inductive FetchRes where
  | line (l : FetchLine)
  | raise (c : Cause) (tva : DWord)
  /-- the header fails its checks: `illegal` (R263) -/
  | bad (l : FetchLine)
  | park (p : Pending)
  | s2 (ipa : Nat) (table : Bool)
  deriving DecidableEq, Repr

/-- The virtual address of the line that holds a packet (R262). -/
def lineVa (idx : DWord) : Nat := idx.toNat / 10 * 128

/-- The checks of a line's bytes (R263). -/
def checkLine (bs : List Byte) (poisoned : Bool) : FetchRes :=
  let l := FetchLine.ofBytes bs
  if !l.headerOk then .bad l
  else if poisoned || !l.crcOk then .raise .poison 0
  else .line l

/-- Fetches the line at `va` for a lane group: from its fetched line, or at the home slice through both stages with ex
(R139, R263). The fetched line is kept. -/
def State.fetchLine (s : State) (c : Ctx) (va : Nat) : State × FetchRes :=
  match (s.lgs.find c.g).bind (·.fetched) with
  | some (a, bs) => if a = va then (s, checkLine bs false) else go s
  | none => go s
where
  go (s : State) : State × FetchRes :=
    let tva := BitVec.ofNat 64 va
    if 2 ^ 57 ≤ va then (s, .raise .xlatPerm tva) else
    match s.xlate c.core c.part c.vf va 4 with
    | (s, .ft p) => (s, .park p)
    | (s, .bad k) => (s, .raise k tva)
    | (s, .s2 ipa t) => (s, .s2 ipa t)
    | (s, .ok e) =>
      let pa := e.addr va
      let k := s.reachErr c.core c.part pa false
      if k ≠ .none then (s, .raise k 0) else
      let (s, _, _) := s.devRead pa 128
      let s := s.asKey (pa / 128) e.kid
      let bs := s.bytesAt pa 128
      match checkLine bs (s.anyPois pa 128) with
      | .line l => (s.modLg c.g fun g => { g with fetched := some (va, bs) }, .line l)
      | r => (s, r)

/-- A park on a fetch (R143, R430), at which the lane group stands as `at_` says. -/
def State.parkFetch (s : State) (c : Ctx) (va : Nat) (r : FetchRes) (at_ : Lg → Lg) : State :=
  let stay := fun (l : Lg) (st : Status) => { at_ l with status := st, parkAt := s.now }
  match r with
  | .park p =>
    let (rq, s) := s.pageReq c.vf c.part va 2 p.pool p.lvl (.lg c.g)
    s.modLg c.g fun l => stay l (.parkedPage rq)
  | .s2 ipa t =>
    let s := s.s2Rec c.part c.vf c.core c.wg.slot c.lg.lgn ipa va t false
    (s.s2Wait c.part ipa (.lg c.g)).modLg c.g fun l => stay l (.parkedS2 ipa)
  | _ => s

/-- A park on the line of a packet, on the lines of its run (log entry 68) or on a branch's landing (R264): none of the packet's effects stays,
and the lane group stands at it, its run open with its latches, and executes it when the park ends. -/
def State.parkAtPacket (s : State) (c : Ctx) (va : Nat) (r : FetchRes) : State :=
  (({ s with pk := { s.pk with fate := .heldBack } }).modLg c.g fun _ => c.sn).parkFetch c va r fun l => { l with pc := s.pk.idx }

/-- Whether a line's packet may be landed on (R264). -/
def mayLand (l : FetchLine) (idx : DWord) : Bool := l.isValid (idx.toNat % 10) && l.isTarget (idx.toNat % 10)

/-- Checks the landings of a branch (R264), then goes on. A park holds the whole packet back to the branch. -/
def State.landing (s : State) (c : Ctx) : List DWord → (State → State) → State
  | [], k => k s
  | i :: r, k =>
    match s.fetchLine c (lineVa i) with
    | (s, .line l) => if mayLand l i then s.landing c r k else s.raise c .target
    | (s, .raise x tva) => s.raiseR c x c.em tva
    | (s, .bad _) => s.raise c .illegal
    | (s, f) => s.parkAtPacket c (lineVa i) f

/-- FETCH_LINE_ARRIVE (R263): the line of a lane group's next packet arrives ahead of its issue; a line that fails its checks
is met when the packet is about to issue. -/
def execFetchLineArrive (lg : Nat) (s : State) : Out :=
  match ({ s with cur := lg, pk := { s.pk with before := none } }).ctx? with
  | none => .next s
  | some c =>
    memEvent (c.lg.status == .ready && c.wg.st == .resident && !((c.lg.fetched.map (·.1)) == some (lineVa c.lg.pc))) s fun s =>
      (s.fetchLine c (lineVa c.lg.pc)).1

end Sys2Proof.Machine
end

