-- ==== Sys2Proof/Machine/Sync.lean ====
section
/-! DEFINITION. Synchronisation: major 10 (R315 to R324, R37, R38, R68, R129, R130). -/

namespace Sys2Proof.Machine

/-! ## Barriers -/

/-- Whether a barrier would hold back paths of its own lane group (R319). -/
def Lg.pathsOpen (l : Lg) : Bool := !l.path.isEmpty || l.j.any fun p => p.2.arrived != 0

/-- An arrival: held, as a release is, until every earlier access is performed (R123). -/
def State.arrive (s : State) (c : Ctx) (k : State → State) : State :=
  if s.quiet c.g && !s.acquiring c.g then k s else s.holdBack c

def execBarWg (b : BitVec 2) (s : State) : Out :=
  word (.barWg b) s fun c s => s.checked c (c.illegalIf c.lg.pathsOpen) fun s => s.arrive c fun s =>
    let r := Tab.getD c.wg.bars {} b.toNat
    let r' : Bar := { r with arrived := c.lg.lgn :: r.arrived, pts := max r.pts (s.core c.core).pts }
    let s := s.modWg c.lg.wg fun w => { w with bars := w.bars.put b.toNat r' }
    s.up c fun l => { l with status := .blocked (.barWg b.toNat) false }

/-- The key of a span barrier. -/
def spanKey (ox oy lw lh : Nat) : Nat := ((ox * 8 + oy) * 8 + lw) * 8 + lh

/-- The lower corner, in the launch rectangle, of the aligned span that holds a core (R37). -/
def spanAt (la : Launch) (core lw lh : Nat) : Nat × Nat :=
  ((coreX core - la.rx) / 2 ^ lw * 2 ^ lw, (coreY core - la.ry) / 2 ^ lh * 2 ^ lh)

def LBar.arrive (b : LBar) (g pts : Nat) (flag : Bool) : LBar :=
  { b with arrived := g :: b.arrived, pts := max b.pts pts, flag := b.flag || flag }

def execBarSpan (h w : BitVec 3) (s : State) : Out :=
  word (.barSpan h w) s fun c s =>
    let lw := w.toNat
    let lh := h.toNat
    let (ox, oy) := spanAt c.la c.wg.home lw lh
    s.checked c (c.illegalIf (c.lg.pathsOpen || !c.la.cor || c.handler || c.la.w < ox + 2 ^ lw || c.la.h < oy + 2 ^ lh))
      fun s => s.arrive c fun s =>
        let key := spanKey ox oy lw lh
        let s := s.modLaunch c.wg.launch fun l => { l with
          spans := l.spans.put key ((Tab.getD l.spans {} key).arrive c.g (s.core c.core).pts false) }
        s.up c fun l => { l with status := .blocked (.barSpan ox oy lw lh) false }

def execBarStep (r : BitVec 1) (s : State) : Out :=
  word (.barStep r) s fun c s =>
    s.checked c (c.illegalIf (c.lg.pathsOpen || !c.la.cor || c.handler)) fun s => s.arrive c fun s =>
      let s := s.modLaunch c.wg.launch fun l => { l with step := l.step.arrive c.g (s.core c.core).pts (r = 1) }
      s.up c fun l => { l with status := .blocked .barStep false }

/-! ## Fences -/

/-- `fence.acq` (R320): it is performed once the lane group's earlier loads and atomics are; what it holds waits for it, and nothing
else does (R123). -/
def execFenceAcq (s : State) : Out :=
  word .fenceAcq s fun c s =>
    let q := s.pk.since.getD s.nseq
    if s.loadsOut c.g q then s.up c fun l => { l with fence := some q } else s.raisePts c.core c.lg.boundWts

def execFenceRel (s : State) : Out :=
  memWord .fenceRel s fun c s => if s.quiet c.g then s.afterCommit c fun s => s else s.holdBack c

/-- `fence.ar` (R320, R129): between its two parts, an atomic on the partition's fence word, whose timestamp is kept. -/
def execFenceAr (s : State) : Out :=
  memWord .fenceAr s fun c s =>
    if !s.quiet c.g || s.acquiring c.g then s.holdBack c
    else s.afterCommit c fun s =>
      let p := s.part c.part
      let die := ((s.partDies c.part).head?).getD 0
      if s.cutOff (dieOf c.core) die then s.raiseReport c .deferred c.em 0 s.pk.idx s.pk.idx
      else if p.fencePois then s.raiseReport c .poison c.em 0 s.pk.idx s.pk.idx
      else
        let ts := max p.fenceN (max (s.core c.core).pts c.lg.boundWts) + 1
        (s.modPart c.part fun p => { p with fenceN := ts }).raisePts c.core ts

/-! ## Waits -/

/-- The condition of a wait (R68, R322). -/
def reached (x t : Word) : Bool := decide ((x - t).toNat < 2 ^ 31)

/-- The sequence numbers of what a lane group has outstanding on a counter, replays of faulted lanes included (R321). -/
def State.onCounter (s : State) (g n : Nat) : List Nat :=
  (s.accs.filterMap fun p => if p.2.lg = g ∧ p.2.ctr = n then some p.2.seq else none) ++
    s.cmds.filterMap fun p => if p.2.lg = g ∧ p.2.ctr = some n ∧ p.2.live then some p.2.seq else none

/-- The oldest unreported failure on a counter. -/
def Lg.oldestFail (l : Lg) (n : Nat) : Option Fail :=
  (l.fails.filter fun f => f.ctr == n).foldl (fun m f => match m with
    | none => some f
    | some x => if f.seq < x.seq then some f else some x) none

/-- Waits in a `waitc`: its packet has issued, and is tried again after the next event (R50, R157). -/
def State.waitCount (s : State) (c : Ctx) : State := (s.holdBack c).modLg c.g fun l => { l with counting := true }

/-- `waitc` (R321, R338): the oldest failure once everything before it is done; else the counter's condition. -/
def execWaitc (n : BitVec 4) (a i : BitVec 8) (s : State) : Out :=
  word (.waitc n a i) s fun c s =>
    let out := s.onCounter c.g n.toNat
    match c.lg.oldestFail n.toNat with
    | some f =>
      if out.any fun q => decide (q < f.seq) then s.waitCount c
      else (s.up c fun l => l.reported f).raiseReport { c with lg := c.lg.reported f } f.cause f.fm f.va f.fpc s.pk.idx f.slot f.inRun
    | none =>
      if reached (c.cnt n.toNat) (c.threshold a i) then s
      else s.checked c (c.illegalIf out.isEmpty) fun s => s.waitCount c

/-- The read of a `waitm` at the home slice (R322), as an `ld.acq` of its workgroup reads (R116, R118): its refusal, or the word with
its line's write timestamp. -/
def State.watch (s : State) (w part pa kid : Nat) : State × Cause × Word × Nat :=
  let e := s.reachErr (((s.wgs.find w).map (·.core)).getD 0) part pa false
  if e ≠ .none then (s, e, 0, 0)
  else
    let s := (s.publishLine (pa / 128)).asKey (pa / 128) kid
    let g := s.wgs.find w
    let pois := s.anyPois pa 8 || (wordsOf pa 8).any ((g.map (·.stagedPois)).getD []).contains
    let bs := overlay ((g.map (·.staged)).getD []) pa (s.bytesAt pa 8)
    if pois then (s, .poison, 0, 0) else (s, .none, BitVec.ofNat 32 (leNat (bs.take 4)), (s.dirOf (pa / 128)).wts)

/-- Ends a `waitm` that raises a cause itself, as a reporting cause (R322, R410). -/
def State.waitmFails (s : State) (c : Ctx) (e : Cause) (pa va : Nat) : State :=
  let s := if e = .gate then s.gateRec c.part c.vf c.core c.wg.slot c.lg.lgn s.pk.idx.toNat pa true else s
  s.raiseReport c e (1#32 <<< c.exLane) (BitVec.ofNat 64 va) s.pk.idx s.pk.idx

/-- Whether a store of a core to the line of an address is still to be performed: what the core sent first comes first (R212). -/
def State.storeOut (s : State) (core pa : Nat) : Bool :=
  s.accs.any fun p => p.2.core == core && p.2.writes && p.2.lanes.any fun q => q.st < 2 && q.pa / 128 == pa / 128

/-- `waitm` (R322): the word at an address in a `k` register, read once as an acquire; else a visible block. -/
def execWaitm (d : BitVec 5) (a i : BitVec 8) (s : State) : Out :=
  memWord (.waitm d a i) s fun c s =>
    if s.acquiring c.g then s.holdBack c else
    let va := (c.kr d.toNat).toNat
    let t := c.threshold a i
    match s.laneXlate c 8 1 c.exLane va with
    | (s, x) =>
      match x.res with
      | .fail _ _ _ _ => (match s.replayTrap [x] none with | none => s | some t => s.takeTrap c t)
      | .ok pa kid =>
        let block := fun (s : State) => s.up c fun l =>
          { l with status := .blocked (.waitm va (some (pa, kid)) t s.pk.idx s.pk.first s.pk.slot) false }
        if s.storeOut c.core pa then s.holdBack c
        else if s.locked (pa / 128) then block s
        else
          let (s, e, w, wts) := s.watch c.lg.wg c.part pa kid
          if e ≠ .none then s.waitmFails c e pa va
          else if reached w t then
            (s.raisePts c.core wts).up c fun l => { l with boundWts := max l.boundWts wts }
          else block s

/-! ## Counters and elections -/

def execCset (n : BitVec 4) (a i : BitVec 8) (s : State) : Out :=
  word (.cset n a i) s fun c s => s.up c fun l => { l with c := l.c.setD 0 n.toNat (c.threshold a i) }

def execCadd (n : BitVec 4) (a i : BitVec 8) (s : State) : Out :=
  word (.cadd n a i) s fun c s => s.addCtr c.g n.toNat (c.threshold a i)

/-- `elect` (R324). -/
def execElect (q : BitVec 3) (s : State) : Out :=
  word (.elect q) s fun c s =>
    let wins := c.wg.elect && c.em != 0
    (if wins then s.modWg c.lg.wg fun w => { w with elect := false } else s).up c fun l =>
      l.setQ q.toNat (if wins then 1#32 <<< c.exLane else 0)

end Sys2Proof.Machine
end

