-- ==== Sys2Proof/Machine/EvSched.lean ====
section
/-! DEFINITION. The events of scheduling: barriers, wakes, ageing, register growth (R37 to R42, R53, R130, R157 to R162, R317 to
R322, R376, R382). -/

namespace Sys2Proof.Machine

/-! ## Ready again -/

/-- Raises the timestamp under which a workgroup runs: its core's, or the one kept for its re-admission (R152). -/
def State.raiseWg (s : State) (w t : Nat) : State :=
  match s.wgs.find w with
  | none => s
  | some g => if g.st = .absent then s.modWg w fun x => { x with pts := max x.pts t } else s.raisePts g.core t

/-- The timestamp under which a workgroup runs. -/
def State.wgPts (s : State) (w : Nat) : Nat :=
  match s.wgs.find w with
  | none => 0
  | some g => if g.st = .absent then g.pts else (s.core g.core).pts

/-- Notes that a barrier's lane groups may depart: an acquire of every arrival (R130). -/
def State.depart (s : State) (gs : List Nat) (pts : Nat) : State :=
  gs.foldl (fun s g =>
    match s.lgs.find g with
    | none => s
    | some l =>
      (s.raiseWg l.wg pts).modLg g fun x => { x with status := match x.status with
        | .blocked b _ => .blocked b true
        | t => t }) s

/-! ## Barriers -/

/-- The lane groups of workgroups that have not ended. -/
def State.living (s : State) (ws : List Nat) : List Nat :=
  (s.lgs.filter fun p => ws.contains p.2.wg && p.2.status != .ended).map (·.1)

/-- Whether a workgroup barrier is complete; that of an absent workgroup cannot be (R150, R317). -/
def State.barFull (s : State) (w b : Nat) : Bool :=
  match s.wgs.find w with
  | none => false
  | some g =>
    let r := Tab.getD g.bars {} b
    g.st == .resident && !r.arrived.isEmpty &&
      (s.lgsOf w).all fun p => p.2.status == .ended || r.arrived.contains p.2.lgn

/-- WG_BARRIER_COMPLETE (R317, R64, R324). -/
def execWgBarrierComplete (wg b : Nat) (s : State) : Out :=
  match s.wgs.find wg with
  | none => .next s
  | some g =>
    event (s.barFull wg b) s fun s =>
      let r := Tab.getD g.bars {} b
      let s := s.modWg wg fun x => { x with
        bars := x.bars.put b { gen := r.gen + 1 }, elect := if b = 0 then true else x.elect }
      let gs := ((s.lgsOf wg).filter fun p => p.2.status == .blocked (.barWg b) false).map (·.1)
      let s := { s with lgs := s.lgs.map fun (p : Nat × Lg) => (p.1, if p.2.wg = wg then { p.2 with kv := [] } else p.2) }
      s.depart gs r.pts

/-- The workgroups of a launch that count at its barriers (R29, R37, R38). -/
def State.barWgs (s : State) (l : Nat) : List (Nat × Wg) := (s.wgsOf l).filter fun p => p.2.st != .ended

/-- Whether a span barrier is complete (R38). -/
def State.spanFull (s : State) (l ox oy lw lh : Nat) : Bool :=
  match s.launches.find l with
  | none => false
  | some la =>
    let b := Tab.getD la.spans {} (spanKey ox oy lw lh)
    let ws := ((s.barWgs l).filter fun p => spanAt la p.2.home lw lh == (ox, oy)).map (·.1)
    !b.arrived.isEmpty && (s.living ws).all b.arrived.contains

/-- SPAN_BARRIER_COMPLETE (R38). -/
def execSpanBarrierComplete (launch ox oy lw lh : Nat) (s : State) : Out :=
  match s.launches.find launch with
  | none => .next s
  | some la =>
    event (s.spanFull launch ox oy lw lh) s fun s =>
      let k := spanKey ox oy lw lh
      let b := Tab.getD la.spans {} k
      (s.modLaunch launch fun l => { l with spans := l.spans.del k }).depart b.arrived b.pts

/-- Whether everything that a superstep's end awaits has happened (R39): engine commands, meeting operands, handlers. -/
def State.stepQuiet (s : State) (l : Nat) : Bool :=
  !(s.cmds.any fun p => p.2.launch == l && p.2.live && (match p.2.body with
    | .tcLd .. | .tcSt .. | .tcMcast .. | .bus .. | .rvSend .. | .amSend _ => true
    | b => b.isAccess)) &&
  !(s.frags.any fun p => p.2.launch == l && (match p.2.place with
    | .combined => false
    | .orphan _ => false
    | _ => true)) &&
  !(s.accs.any fun p => p.2.busy && ((s.wgs.find p.2.wg).map fun w => w.launch == l).getD false) &&
  !(s.msgs.any fun m => m.2.launch == l &&
    (s.onWay (· == .amArrive m.1) || (s.core m.2.dst).inq.contains m.1 ||
      s.wgs.any fun w => w.2.kind == .handler m.1 && w.2.st != .ended))

/-- Whether a step barrier is complete (R38, R39). -/
def State.stepFull (s : State) (l : Nat) : Bool :=
  match s.launches.find l with
  | none => false
  | some la =>
    !la.step.arrived.isEmpty && (s.living ((s.barWgs l).map (·.1))).all la.step.arrived.contains && s.stepQuiet l

/-- Discards a workgroup of a withdrawn die (R42): its stash lines are written back, the staged words by their commit, whose timestamp
the departure covers (R39); its claimed record returns to the pool. -/
def State.leaveDie (s : State) (w : Nat) : State :=
  match s.wgs.find w with
  | none => s
  | some g =>
    let la := s.launches.find g.launch
    let part := (la.map (·.part)).getD 15
    let s := (s.lgsOf w).foldl (fun s p => s.taskDone part p.1) s
    let s := if (la.map (·.staged)).getD false then s.commitStaged w else s
    let s := s.raiseStep g.launch (s.core g.core).pts
    let s := (s.leaveStash w).modWg w fun x => { x with st := .ended, eligible := false, staged := [], stagedPois := [], stagedKids := [] }
    let s := { s with lgs := s.lgs.map fun (p : Nat × Lg) =>
      (p.1, if p.2.wg = w then { p.2 with status := .ended, em := 0, run := none, replay := none } else p.2) }
    (s.withdraw w).reap g.core

/-- A resize at a step (R41, R42): a growth that does not fit changes nothing. A workgroup stands on the die of its home core, also
while it is re-admitted on another (log entry 70). -/
def State.resize (s : State) (l : Nat) (n : Nat) : State :=
  match s.launches.find l with
  | none => s
  | some la =>
    let lb := la.onDies ((s.partDies la.part).take n)
    let lb := { lb with gen := (la.gen + 1) % 256, resize := none }
    let lb := { lb with next := lb.total }
    if n < la.dies then
      let gone := ((s.barWgs l).filter fun p => !(lb.inRect p.2.home)).map (·.1)
      (gone.foldl (fun s w => s.leaveDie w) s).modLaunch l fun x => { lb with next := lb.total, stepPts := x.stepPts }
    else
      match State.placeMany l true (lb.total - la.total) la.total (s.modLaunch l fun _ => lb) with
      | some t => t
      | none => s

/-- STEP_BARRIER_COMPLETE (R38, R39, R41, R42): a departure acquires the arrivals and everything else that the step awaits (R134). -/
def execStepBarrierComplete (launch : Nat) (s : State) : Out :=
  match s.launches.find launch with
  | none => .next s
  | some la =>
    memEvent (s.stepFull launch) s fun s =>
      let b := la.step
      let s := s.modLaunch launch fun l => { l with step := {} }
      let s := match la.resize with
        | some n => if b.flag && la.elas && n != la.dies then s.resize launch n else s
        | none => s
      s.depart b.arrived (max b.pts (((s.launches.find launch).map (·.stepPts)).getD la.stepPts))

/-! ## Wakes (R51, R159) -/

/-- The machine with a blocked lane group at its turn, at the word it is blocked in. -/
def State.atTurn (s : State) (g : Nat) (idx first : DWord) (slot : Nat) : State :=
  { s with cur := g, pk := { idx := idx, first := first, slot := slot } }

/-- A workgroup off its core becomes eligible, once (R151). -/
def State.becomeEligible (s : State) (w : Nat) : Option State :=
  if ((s.wgs.find w).map fun g => g.eligible || g.ousted).getD true then none
  else some (({ s with nseq := s.nseq + 1 }).modWg w fun g => { g with eligible := true, eligAt := s.nseq })

/-- The words of its packet that a lane group has still to execute. -/
def Lg.stillToRun (l : Lg) : List Nat := match l.replay with | some r => r.slot :: r.later | none => []

/-- Wakes a `waitm` (R322): its read raises a cause, or reaches the threshold; none while it goes on waiting. -/
def State.wakeWait (s : State) (g : Nat) (l : Lg) (va pa kid : Nat) (t : Word) (idx first : DWord) (slot : Nat) : Option State :=
  let part := (((s.wgs.find l.wg).bind fun w => s.launches.find w.launch).map (·.part)).getD 15
  match s.watch l.wg part pa kid with
  | (s, e, w, wts) =>
    if e ≠ .none then
      if s.absent l.wg then s.becomeEligible l.wg
      else
        let s := (s.makeReady g).atTurn g idx first slot
        s.ctx?.map fun c => (s.waitmFails c e pa va).modLg g fun x =>
          if x.sup && !l.sup then { x with replayNext := some ((l.replay.bind (·.next)).getD l.pc), replayLater := l.stillToRun } else x
    else if reached w t then some (((s.makeReady g).raiseWg l.wg wts).modLg g fun x => { x with boundWts := max x.boundWts wts })
    else none

/-- A `waitm` whose translation an invalidation has removed translates its address again (R142): on its core, or from the tables while
its workgroup is absent, which becomes eligible only where the wait ends in a cause (R151). -/
def State.watchAgain (s : State) (g : Nat) (l : Lg) (va : Nat) (t : Word) (idx first : DWord) (slot : Nat) : Option State :=
  if s.absent l.wg then
    let la := (s.wgs.find l.wg).bind fun w => s.launches.find w.launch
    let (part, vf) := (((la.map (·.part)).getD 15), ((la.map (·.vf)).getD 0))
    match s.walk part vf va 1 with
    | (s, .ok e) => match s.judge e va 1 with
      | .ok e => some (s.modLg g fun l => { l with status := .blocked (.waitm va (some (e.addr va, e.kid)) t idx first slot) false })
      | _ => s.becomeEligible l.wg
    | (s, _) => s.becomeEligible l.wg
  else
  let s := s.atTurn g idx first slot
  s.ctx?.map fun c =>
    let (s, x) := s.laneXlate c 8 1 c.exLane va
    match x.res with
    | .ok pa kid => s.modLg g fun l => { l with status := .blocked (.waitm va (some (pa, kid)) t idx first slot) false }
    | .fail _ _ _ _ => match s.replayTrap [x] none with
      | none => s
      | some t => (s.makeReady g).takeTrap c t

/-- Wakes the first lane group that waits to push, once there is room or the pipe's producers have ended. -/
def State.wakePush (s : State) (g : Nat) (l : Lg) (name : Nat) (data : List Byte) (first : DWord) (slot : Nat) : Option State :=
  let t := s.atTurn g l.pc first slot
  match t.ctx? with
  | none => none
  | some c =>
    match s.pipe c.part name with
    | none => some (s.makeReady g)
    | some (n, p) =>
      if ((s.pipeWaiters c.part name true).head?.map (·.1)) ≠ some g then none
      else if p.left = 0 then some (s.makeReady g)
      else if p.full then none
      else
        match t.ringAt c p (p.head + p.len) 3 with
        | (t, some a, none) =>
          let t := t.pushAt c.part n p a data (s.wgPts l.wg)
          some ((t.modLg g fun x => { x with grant := some .pushed }).makeReady g)
        | _ => some (s.makeReady g)

/-- Wakes the first lane group that waits to pop, once there is an element or end-of-stream. -/
def State.wakePop (s : State) (g : Nat) (l : Lg) (name : Nat) (first : DWord) (slot : Nat) : Option State :=
  let t := s.atTurn g l.pc first slot
  match t.ctx? with
  | none => none
  | some c =>
    match s.pipe c.part name with
    | none => some (s.makeReady g)
    | some (n, p) =>
      if ((s.pipeWaiters c.part name false).head?.map (·.1)) ≠ some g then none
      else if p.len = 0 then
        if p.left = 0 then some ((s.modLg g fun x => { x with grant := some .eos }).makeReady g) else none
      else
        match t.ringAt c p p.head 1 with
        | (t, some a, none) =>
          let (t, r, ts) := t.popAt c.part n p a
          some (((t.modLg g fun x => { x with grant := some r }).makeReady g).raiseWg l.wg ts)
        | _ => some (s.makeReady g)

/-- What waking a blocked lane group does, if its condition holds. A resizing step's lane groups wait for the added workgroups'
starts (R42). -/
def State.wake (s : State) (g : Nat) : Option State :=
  match s.lgs.find g with
  | none => none
  | some l =>
    match l.status with
    | .blocked .barStep true =>
      let la := ((s.wgs.find l.wg).map (·.launch)).getD 0
      if (s.barWgs la).any fun p => p.2.added && p.2.st == .starting then none else some (s.makeReady g)
    | .blocked _ true => some (s.makeReady g)
    | .blocked (.waitm va (some (pa, kid)) t idx first slot) false => s.wakeWait g l va pa kid t idx first slot
    | .blocked (.waitm va none t idx first slot) false => s.watchAgain g l va t idx first slot
    | .blocked (.pipePush n data first slot) false => s.wakePush g l n data first slot
    | .blocked (.pipePop n first slot) false => s.wakePop g l n first slot
    | _ => none

/-- What a wake does now: none also where it meets a line that an engine owns, which it waits for (R132). -/
def State.wakes (s : State) (g : Nat) : Option State := (s.wake g).filter fun t => !t.pk.stall || s.pk.stall

/-- LANE_GROUP_WAKE (R50, R51, R159). -/
def execLaneGroupWake (lg : Nat) (s : State) : Out := .next ((s.wakes lg).getD s)

/-! ## Ageing and yielding -/

/-- Whether a workgroup stands in the active bank of a core that runs; one that is leaving finishes the run it is in (R149). -/
def State.inPlay (s : State) (w : Nat) : Bool :=
  match s.wgs.find w with
  | none => false
  | some g => (g.st == .resident || g.st == .leaving) && g.bank == (s.core g.core).act && s.bhSt (bhOf g.core) == 3

/-- Whether a lane group becomes aged (R157): it has been ready for 32 cycles in a row without issuing. -/
def State.canAge (s : State) (g : Nat) : Bool :=
  match s.lgs.find g with
  | none => false
  | some l => l.status == .ready && !l.aged && s.inPlay l.wg && decide (l.parkAt + 32 ≤ s.now) &&
      (List.range 32).all fun i => Config.ready (s.now - i) g

/-- LANE_GROUP_AGED (R157). -/
def execLaneGroupAged (lg : Nat) (s : State) : Out :=
  event (s.canAge lg) s fun s => s.modLg lg fun l => { l with aged := true }

/-- Whether a yielding lane group is ready again (R382): every other has issued once, or 32 cycles have passed. -/
def State.canUnyield (s : State) (g : Nat) : Bool :=
  match (s.lgs.find g) with
  | none => false
  | some l =>
    match l.status with
    | .yielding os =>
      decide (l.parkAt + 32 ≤ s.now) || os.isEmpty
    | _ => false

/-- YIELD_EXPIRY (R382). -/
def execYieldExpiry (lg : Nat) (s : State) : Out :=
  event (s.canUnyield lg) s fun s => s.makeReady lg

/-! ## Register growth (R53, R162) -/

/-- What an `rgrow` waits for. -/
def Lg.growTo (l : Lg) : Option Nat := match l.status with | .blocked (.rgrow n _ _) false => some n | _ => none

/-- The waiters of a sub-core in the order in which their `rgrow` issued, with their targets. -/
def State.growers (s : State) (core sc : Nat) : List (Nat × Lg × Nat) :=
  ((s.lgs.filterMap fun p => if p.2.sc = sc ∧ ((s.wgs.find p.2.wg).map fun w =>
      w.core == core && w.st == .resident && w.bank == (s.core core).act).getD false
    then p.2.growTo.map fun n => (p.1, p.2, n) else none).sortBy fun a b => a.2.1.waited ≤ b.2.1.waited)

/-- Whether the oldest waiter fits. -/
def State.canGrow (s : State) (core sc : Nat) : Bool :=
  match s.growers core sc with
  | [] => false
  | (_, l, n) :: _ => decide (n - l.regs ≤ s.freeRegs core (s.core core).act sc)

/-- REGISTER_GROW_GRANT (R53): the registers are the oldest waiter's, which takes them when its `rgrow` runs. -/
def execRegisterGrowGrant (core sc : Nat) (s : State) : Out :=
  event (s.canGrow core sc) s fun s =>
    match s.growers core sc with
    | [] => s
    | (g, _, n) :: _ => s.modLg g fun l => { l with grown := some n, status := .blocked (.rgrow n 0 0) true }

/-- Whether growth stands still on a sub-core (R162): its oldest waiter does not fit, and every lane group of it but handlers waits. -/
def State.growStands (s : State) (core sc : Nat) : Bool :=
  let gs := s.growers core sc
  !gs.isEmpty && !s.canGrow core sc &&
    (s.lgs.filter fun p => p.2.sc == sc && p.2.status != .ended && ((s.wgs.find p.2.wg).map fun w =>
      w.core == core && w.here && w.bank == (s.core core).act && !w.isHandler).getD false).all fun p => gs.any fun q => q.1 == p.1

/-- Keeps since when growth has stood still on a sub-core with no register freed: the time, and the registers free (R162). -/
def State.watchGrowth (s : State) (core sc : Nat) : State :=
  let k := s.core core
  if !s.growStands core sc then (if (k.grow.find sc).isNone then s else s.modCore core fun k => { k with grow := k.grow.del sc })
  else
    let free := s.freeRegs core k.act sc
    match k.grow.find sc with
    | some (t, f) => if f = free then s else
        s.modCore core fun k => { k with grow := k.grow.put sc (if f < free then s.now else t, free) }
    | none => s.modCore core fun k => { k with grow := k.grow.put sc (s.now, free) }

/-- Every sub-core on which a lane group waits to grow, or was seen to. -/
def State.watchGrowths (s : State) : State :=
  let cs := ((s.lgs.filterMap fun p => p.2.growTo.bind fun _ => (s.wgs.find p.2.wg).map (·.core)) ++
    (s.cores.filter fun p => !p.2.grow.isEmpty).map (·.1)).eraseDups
  cs.foldl (fun s c => (List.range 4).foldl (fun s sc => s.watchGrowth c sc) s) s

/-- Whether a sub-core is deadlocked in growth (R162): its growth has stood still for 1024 cycles. -/
def State.growStuck (s : State) (core sc : Nat) : Bool :=
  s.growStands core sc && ((((s.core core).grow.find sc).map fun p => decide (p.1 + 1024 ≤ s.now)).getD false)

/-- A swapped-out workgroup that waits to grow becomes eligible when a core can hold what it asks for (R162). -/
def State.growEligible (s : State) : State :=
  (s.lgs.filterMap fun p => p.2.growTo.bind fun _ => if s.absent p.2.wg then some p.2.wg else none).eraseDups.foldl (fun s w =>
    if (s.readmitCore w).isSome then (s.becomeEligible w).getD s else s) s

/-- The lowest free spill slot of a function (R135, R149). -/
def State.freeSpill (s : State) (vf : Nat) : Option Nat :=
  let used := s.wgs.filterMap fun p => if ((s.launches.find p.2.launch).map (·.vf)) = some vf then p.2.spill else none
  (List.range (s.vrBits vf 8 0 12)).find? fun n => !used.contains n

/-- The function of a workgroup. -/
def State.wgVf (s : State) (w : Nat) : Nat := (((s.wgs.find w).bind fun g => s.launches.find g.launch).map (·.vf)).getD 0

/-- Whether a swap-out of a workgroup can begin (R149, R169): it is resident, a spill slot is free, its core swaps no bank. -/
def State.canSwapOut (s : State) (w : Nat) : Bool :=
  match s.wgs.find w with
  | none => false
  | some g => g.st == .resident && g.bank == (s.core g.core).act && !(s.core g.core).swapping && (s.freeSpill (s.wgVf w)).isSome

/-- SWAP_OUT (R149 step 1): the workgroup issues nothing more, and its slot is taken. -/
def State.beginSwapOut (s : State) (w : Nat) : State :=
  s.modWg w fun g => { g with st := .leaving, spill := s.freeSpill (s.wgVf w) }

/-- The workgroup that a growth deadlock swaps out, or none where its oldest waiter raises `bound`. -/
def State.growVictim (s : State) (core sc : Nat) : Option Nat :=
  let gs := s.growers core sc
  let ws := (gs.map fun p => p.2.1.wg).eraseDups
  let sum := gs.foldl (fun n p => n + p.2.2) 0
  if ws.length = 1 ∧ 1024 - 64 * (s.reservers core).length < sum then none
  else (ws.foldl (fun m w =>
    let at_ := ((s.wgs.find w).map (·.placedAt)).getD 0
    match m with
    | none => some (w, at_)
    | some (v, b) => if b < at_ then some (w, at_) else some (v, b)) none).map (·.1)

/-- Whether a growth deadlock is resolved now. -/
def State.canUnstick (s : State) (core sc : Nat) : Bool :=
  s.growStuck core sc && (match s.growVictim core sc with | none => true | some w => s.canSwapOut w)

/-- GROWTH_DEADLOCK (R162): the youngest waiting workgroup is swapped out, or the oldest waiter raises `bound`. -/
def execGrowthDeadlock (core sc : Nat) (s : State) : Out :=
  event (s.canUnstick core sc) s fun s =>
    match s.growVictim core sc with
    | some w => s.beginSwapOut w
    | none =>
      match s.growers core sc with
      | (g, l, _) :: _ =>
        (match l.status with
         | .blocked (.rgrow _ first slot) _ =>
           let s := (s.makeReady g).atTurn g l.pc first slot
           (match s.ctx? with
            | some c => s.raise c .bound
            | none => s)
         | _ => s)
      | [] => s

end Sys2Proof.Machine
end

