-- ==== Sys2Proof/Machine/Sampling.lean ====
section
/-! DEFINITION. Sampling instructions at issue: major 13 (R191 to R207, R351 to R361, R446). -/

namespace Sys2Proof.Machine

/-! ## The array and its queue -/

def State.arr (s : State) (core : Nat) : Arr := (s.core core).arr
def State.modArr (s : State) (core : Nat) (f : Arr → Arr) : State := s.modCore core fun k => { k with arr := f k.arr }

/-- The context bank of a workgroup. -/
def State.bankOf (s : State) (w : Nat) : Nat := ((s.wgs.find w).map (·.bank)).getD 0

/-- A workgroup's commands in the array's queue, in order. -/
def State.saCmds (s : State) (core wg : Nat) : List (Nat × Cmd) :=
  (s.core core).saq.filterMap fun id => ((s.cmds.find id).filter fun c => c.wg == wg).map (id, ·)

def CmdBody.isTake : CmdBody → Bool
  | .saCfg _ _ t => t
  | _ => false

/-- Whether a workgroup holds the array, or will once its queued take has run (R353). -/
def State.holdsArr (s : State) (core wg : Nat) : Bool :=
  (s.arr core).holder == some wg || (s.saCmds core wg).any fun p => p.2.body.isTake

/-- Whether another workgroup of the context holds the array or has a take queued (R194). -/
def State.arrTaken (s : State) (core wg bank : Nat) : Bool :=
  (((s.arr core).holder.map fun o => o != wg && s.bankOf o == bank).getD false) ||
    ((s.core core).evArr.any fun p => p.1 != wg && ((s.wgs.find p.1).map fun g => g.st != .absent && g.st != .ended && g.core == core && g.bank == bank).getD false) ||
    (s.core core).saq.any fun id =>
      ((s.cmds.find id).map fun c => c.wg != wg && c.bank == bank && c.body.isTake).getD false

/-- Whether the array holds a pre-empted context (R168). -/
def State.arrForeign (s : State) (core bank : Nat) : Bool :=
  ((s.arr core).holder.map fun o => s.bankOf o != bank).getD false

/-- Whether the array's queue of 8 is full for a context (R205): the commands of a pre-empted context take no entry of the other's (log entry
70). -/
def State.saFull (s : State) (core bank : Nat) : Bool :=
  decide (8 ≤ (s.core core).saq.countP fun id => ((s.cmds.find id).map fun c => c.bank == bank).getD false)

/-- A sampling instruction: not ready while the queue is full, unless it bypasses it; with `em` = 0 only its counter adds 1
(R205); `illegal` without the array (R194), which a pre-empted context leaves first (R168). -/
def saWord (i : Instr) (s : State) (ctr : BitVec 4) (queued needs : Bool) (chk : Ctx → State → List Finding)
    (k : Ctx → State → State) : Out :=
  memWord i s fun c s =>
    if queued && s.saFull c.core c.bank then s.holdBack c
    else if c.em = 0 then s.addCtr c.g ctr.toNat 1
    else if needs && s.arrForeign c.core c.bank then (s.postOnce (.arrayEvictionDone c.core)).holdBack c
    else s.checked c (c.exIll (needs && !s.holdsArr c.core c.lg.wg) ++ chk c s) fun s => k c s

/-- Puts a command into the array's queue. -/
def State.saQueue (s : State) (c : Ctx) (ctr : BitVec 4) (body : CmdBody) (gran : Tab (Nat × Nat) := []) (q : Option Nat := none) :
    State :=
  let x := { c.cmd s (some ctr.toNat) body with gran := gran, q := q }
  (s.putCmd x).modCore c.core fun k => { k with saq := k.saq ++ [x.seq] }

/-! ## Configuration words (R195) -/

def cfgChain (w : DWord) : BitVec 16 := w.truncate 16
def cfgGrey (w : DWord) : Bool := bit w 16
def cfgLock (w : DWord) : Bool := bit w 17
def cfgLim (w : DWord) : Nat := bits w 18 3
def cfgCslot (w : DWord) : Nat := bits w 21 8
def cfgBeta (w : DWord) : Nat := bits w 32 16
/-- The chain timeout in cycles: units of 10 µs, 0 selects 1 ms. -/
def cfgTimeout (w : DWord) : Nat := if bits w 48 8 = 0 then 2000000 else 20000 * bits w 48 8
def cfgBad (cfg ord : DWord) : Bool :=
  bits cfg 29 3 != 0 || bits cfg 56 8 != 0 || bits ord 27 37 != 0 || decide (192 ≤ cfgCslot cfg)
/-- The colours of the order, by position. -/
def orderOf (w : DWord) : List Nat := (List.range (bits w 0 3 + 1)).map fun p => bits w (3 * p + 3) 3

/-- `sa.cfg` (R353, R446): the take is decided at issue. -/
def execSaCfg (o r : BitVec 5) (p : BitVec 3) (ctr : BitVec 4) (s : State) : Out :=
  saWord (.saCfg o r p ctr) s ctr true false
    (fun c s =>
      let cfg := c.kr r.toNat
      c.exIll (cfgBad cfg (c.kr o.toNat)) ++
        c.exF (!s.arrTaken c.core c.lg.wg c.bank && !cfgGrey cfg && (s.core c.core).mon.lockout) .bias) fun c s =>
      let set := fun (s : State) (b : Bool) => s.up c fun l => l.setQ p.toNat (allQ b)
      if s.arrTaken c.core c.lg.wg c.bank then (set s false).addCtr c.g ctr.toNat 1
      else
        let s := if s.arrForeign c.core c.bank then s.postOnce (.arrayEvictionDone c.core) else s
        set (s.saQueue c ctr (.saCfg (c.kr r.toNat) (c.kr o.toNat) (!s.holdsArr c.core c.lg.wg))) true

/-- `sa.key` (R354). -/
def execSaKey (r : BitVec 5) (ctr : BitVec 4) (s : State) : Out :=
  saWord (.saKey r ctr) s ctr true true (fun _ _ => []) fun c s => s.saQueue c ctr (.saKey (c.kr r.toNat))

/-! ## Ranges and images (R352) -/

def rangeFirst (w : Word) : Nat := bits w 0 11
def rangeCnt (w : Word) : Nat := bits w 16 12
/-- Whether a range word is refused; `by32` for the commands on whole words of 32 nodes. -/
def rangeBad (w : Word) (by32 : Bool) : Bool :=
  bits w 11 5 != 0 || bits w 28 4 != 0 || rangeCnt w == 0 || decide (2048 < rangeFirst w + rangeCnt w) ||
    (by32 && (rangeFirst w % 32 != 0 || rangeCnt w % 32 != 0))

/-- Translates the image of a command and its completion counter, and goes on (R339). -/
def State.withImage (s : State) (c : Ctx) (need : Nat) (ps : List (Nat × Nat)) (q : Option Nat)
    (k : Tab (Nat × Nat) → State → State) : State :=
  let (s, t, as) := s.xlateGrans c need (granules ps)
  let (s, u, bs) := s.xlateGrans c 3 (match q with | none => [] | some a => [(a / 65536, a)])
  match s.replayTrap (as ++ bs) none with
  | some x => s.takeTrap c x (if need = 1 then 0 else 1)
  | none => k (u.foldl (fun t p => t.put p.1 p.2) t) s

/-- A command on an image (R352): held by an acquire (R350), aligned, translated, queued. -/
def saImage (i : Instr) (s : State) (m : BitVec 6) (g : BitVec 3) (ctr : BitVec 4) (q : Option (BitVec 5)) (need align : Nat)
    (by32 : Bool) (body : Nat → Nat → Nat → CmdBody) : Out :=
  saWord i s ctr true true
    (fun c _ => c.exReg [m.toNat, m.toNat + 1] ++ c.exIll (rangeBad (c.v (m.toNat + 1) c.exLane) by32)) fun c s =>
      let base := c.addr g.toNat m.toNat 0 c.exLane
      let w := c.v (m.toNat + 1) c.exLane
      let b := body base (rangeFirst w) (rangeCnt w)
      let qa := q.map fun r => (c.kr r.toNat).toNat
      if s.acquiring c.g then s.holdBack c
      else if base % align ≠ 0 then s.alignTrap c base
      else if qa.getD 0 % 8 ≠ 0 then s.alignTrap c (qa.getD 0)
      else s.withImage c need b.segs qa fun t s => s.saQueue c ctr b t qa

def execSaLdc (m : BitVec 6) (g : BitVec 3) (c : BitVec 4) (s : State) : Out :=
  saImage (.saLdc m g c) s m g c none 1 128 false fun b f n => .saLdc b f n
def execSaLdh (m : BitVec 6) (g : BitVec 3) (c : BitVec 4) (s : State) : Out :=
  saImage (.saLdh m g c) s m g c none 1 4 false fun b f n => .saLdh b f n
def execSaClmp (m : BitVec 6) (g : BitVec 3) (c : BitVec 4) (s : State) : Out :=
  saImage (.saClmp m g c) s m g c none 1 4 true fun b f n => .saClmp b f n
def execSaRdc (m : BitVec 6) (q : BitVec 5) (g : BitVec 3) (c : BitVec 4) (w : BitVec 1) (s : State) : Out :=
  saImage (.saRdc m q g c w) s m g c (if w = 1 then some q else none) 2 2 false fun b f n => .saRdc b f n
def execSaRds (m : BitVec 6) (q : BitVec 5) (g : BitVec 3) (c : BitVec 4) (w : BitVec 1) (s : State) : Out :=
  saImage (.saRds m q g c w) s m g c (if w = 1 then some q else none) 2 4 true fun b f n => .saRds b f n

/-- `sa.uncl` (R356). -/
def execSaUncl (m : BitVec 6) (ctr : BitVec 4) (s : State) : Out :=
  saWord (.saUncl m ctr) s ctr true true
    (fun c _ => c.exReg [m.toNat] ++ c.exIll (rangeBad (c.v m.toNat c.exLane) true)) fun c s =>
      let w := c.v m.toNat c.exLane
      s.saQueue c ctr (.saUncl (rangeFirst w) (rangeCnt w))

/-! ## Ghosts, sweeps, reads of the array -/

def ghostCore (w : Word) : Nat := coreAt (bits w 16 5) (bits w 21 3)
def ghostUnb (w : Word) : Bool := bit w 11
/-- Whether a ghost word is refused (R357). -/
def ghostBad (w : Word) : Bool :=
  bits w 12 4 != 0 || decide (23 < bits w 16 5) || (ghostUnb w && (bits w 0 11 != 0 || bits w 16 8 != 0))

/-- `sa.ghost` (R357, R410): a source outside the partition, or behind a closed gate (R16), raises `gate`. -/
def execSaGhost (m : BitVec 6) (p : BitVec 3) (ctr : BitVec 4) (s : State) : Out :=
  saWord (.saGhost m p ctr) s ctr true true
    (fun c _ => c.exReg [m.toNat] ++ c.exIll (ghostBad (c.v m.toNat c.exLane))) fun c s =>
      let w := c.v m.toNat c.exLane
      let bad := !ghostUnb w && (s.partOf (ghostCore w) != c.part || !s.passes c.part c.core (ghostCore w))
      let s := if bad then
          s.gateRec c.part c.vf c.core c.wg.slot c.lg.lgn s.pk.idx.toNat w.toNat true else s
      s.checked c (c.exF bad .gate) fun s => s.saQueue c ctr (.saGhost w p.toNat)

/-- `sa.swp` (R358). -/
def execSaSwp (m : BitVec 6) (q : BitVec 5) (ctr : BitVec 4) (w : BitVec 1) (s : State) : Out :=
  saWord (.saSwp m q ctr w) s ctr true true
    (fun c _ => let x := c.v m.toNat c.exLane
      c.exReg [m.toNat] ++ c.exIll (bits x 0 16 == 0 || bits x 17 15 != 0)) fun c s =>
      let x := c.v m.toNat c.exLane
      let b := CmdBody.saSwp (bits x 0 16) (bit x 16)
      let qa := if w = 1 then some (c.kr q.toNat).toNat else none
      if qa.getD 0 % 8 ≠ 0 then s.alignTrap c (qa.getD 0)
      else s.withImage c 2 [] qa fun t s => s.saQueue c ctr b t qa

/-- `sa.clr` (R356). -/
def execSaClr (ctr : BitVec 4) (s : State) : Out :=
  saWord (.saClr ctr) s ctr true true (fun _ _ => []) fun c s => s.saQueue c ctr .saClr

/-- The monitor word (R207). -/
def Mon.word (m : Mon) : DWord :=
  BitVec.ofNat 64 (m.thr.toNat + m.wins.toNat * 2 ^ 16 + m.wlane % 256 * 2 ^ 32 + m.wcnt % 2 ^ 17 * 2 ^ 40 + b2n m.biased * 2 ^ 57)

/-- The status word (R207). -/
def Core.saStatus (k : Core) : DWord :=
  let a := k.arr
  BitVec.ofNat 64 (a.sw % 2 ^ 32 + a.st % 8 * 2 ^ 32 + b2n (cfgGrey a.cfg) * 2 ^ 35 + b2n (cfgLock a.cfg) * 2 ^ 36
    + cfgLim a.cfg * 2 ^ 37 + b2n k.mon.biased * 2 ^ 40 + b2n a.csat * 2 ^ 41 + b2n a.stale * 2 ^ 42 + a.gslot % 256 * 2 ^ 43)

/-- A word that bypasses the queue and writes a pair (R360). -/
def saRead (i : Instr) (s : State) (d : BitVec 6) (ctr : BitVec 4) (f : Core → DWord) : Out :=
  saWord i s ctr false true (fun _ _ => []) fun c s =>
    (s.up c fun l => l.wrPair c.em d.toNat fun _ => f (s.core c.core)).addCtr c.g ctr.toNat 1

def execSaMon (d : BitVec 6) (ctr : BitVec 4) (s : State) : Out := saRead (.saMon d ctr) s d ctr fun k => k.mon.word
def execSaStat (d : BitVec 6) (ctr : BitVec 4) (s : State) : Out := saRead (.saStat d ctr) s d ctr fun k => k.saStatus

/-- `sa.mon.w` (R360). -/
def execSaMonW (d t : BitVec 6) (ctr : BitVec 4) (s : State) : Out :=
  saWord (.saMonW d t ctr) s ctr true true
    (fun c _ => c.exReg [t.toNat] ++ c.exIll (bits (c.v t.toNat c.exLane) 16 16 != 0)) fun c s =>
      s.saQueue c ctr (.saMonW (bits (c.v t.toNat c.exLane) 0 16) d.toNat)

end Sys2Proof.Machine
end

