-- ==== Sys2Proof/Machine/Stream.lean ====
section
/-! DEFINITION. Stream ingress queues (R242 to R244): frames, closes, descriptors, the end of a stream. -/

namespace Sys2Proof.Machine

def oSQB (q : Nat) : Nat := 0x200 + 32 * q
def oSQC (q : Nat) : Nat := 0x208 + 32 * q
def oSQS (q : Nat) : Nat := 0x210 + 32 * q
def oSQL (q : Nat) : Nat := 0x218 + 32 * q

/-- A stream queue's frames are kept under 8·vf + s. -/
def State.stream (s : State) (vf q : Nat) : Stream := Tab.getD s.streams {} (8 * vf + q)
def State.setStream (s : State) (vf q : Nat) (x : Stream) : State := { s with streams := s.streams.setD {} (8 * vf + q) x }

/-- Frame slots, frame size in 64-byte units, deadline in ns, pipe name. -/
def State.sqSlots (s : State) (vf q : Nat) : Nat := 2 ^ s.vrBits vf (oSQB q) 0 4
def State.sqUnits (s : State) (vf q : Nat) : Nat := s.vrBits vf (oSQC q) 0 24
def State.sqDeadline (s : State) (vf q : Nat) : Nat := 1000 * (if s.vrBits vf (oSQC q) 24 16 = 0 then 1000 else s.vrBits vf (oSQC q) 24 16)
def State.sqPipe (s : State) (vf q : Nat) : Option (Nat × Pipe) := s.pipe (s.vfPart vf) (s.vrBits vf (oSQC q) 40 16)
def State.sqOn (s : State) (vf q : Nat) : Bool := s.vrBits vf (oSQC q) 56 1 == 1 && s.vfEn vf && s.partEn (s.vfPart vf)

/-- The virtual address of a unit of a frame. -/
def State.unitVa (s : State) (vf q frame u : Nat) : Nat :=
  (s.vrBits vf (oSQB q) 12 45 * 4096 + frame % s.sqSlots vf q * (ceilDiv (64 * s.sqUnits vf q) 4096 * 4096) + 64 * u) % 2 ^ 57

/-- Adds to a count of a register of the queue. -/
def State.countSq (s : State) (vf off lo : Nat) : State := s.setVrBits vf off lo 32 (s.vrBits vf off lo 32 + 1)

/-- Translates units of a frame for writing: physical addresses with keys, none where one cannot be written. -/
def State.unitAddrs (s : State) (vf q frame : Nat) : List Nat → State × List (Nat × Option (Nat × Nat))
  | [] => (s, [])
  | u :: r =>
    let part := s.vfPart vf
    let va := s.unitVa vf q frame u
    let (s, a) := match s.devXlate part vf va 2 with
      | (s, .ok e) =>
        let pa := e.addr va
        let k := s.sliceErr part pa true
        if k = .none then (s, some (pa, e.kid))
        else (if k = .gate then s.gateRec part vf 0 0 0 0 pa true else s, none)
      | (s, .s2 ipa t) => (s.s2Rec part vf 0 0 0 ipa va t true, none)
      | (s, _) => (s, none)
    let (s, as) := State.unitAddrs s vf q frame r
    (s, (u, a) :: as)

/-- Writes a unit; answers the timestamp of the write. -/
def State.writeUnit (s : State) (pa kid : Nat) (bs : List Byte) (pts : Nat) : Nat × State :=
  ((s.publishLine (pa / 128)).asKey (pa / 128) kid).devWrite pa bs pts

/-- Writes units of a frame in their order, one that meets a line which an engine owns after it (R132, R243); answers the largest
timestamp of a write. -/
def State.putUnits (s : State) (vf q frame pts : Nat) (us : List HeldUnit) : State × Nat :=
  us.foldl (fun (p : State × Nat) u =>
    let x := p.1.stream vf q
    if p.1.locked (u.pa / 128) || x.held.any (·.pa == u.pa) then (p.1.setStream vf q { x with held := x.held ++ [{ u with frame := frame }] }, p.2)
    else
      let (t, s) := p.1.writeUnit u.pa u.kid u.data p.2
      (s, max t p.2)) (s, pts)

/-- The units that waited for a line are written as soon as they can be, each raising the timestamp of its frame or its descriptor. -/
def State.flushUnits (s : State) : State :=
  s.streams.foldl (fun s p =>
    let x := Tab.getD s.streams {} p.1
    if x.held.isEmpty then s else
    let s := s.setStream (p.1 / 8) (p.1 % 8) { x with held := [] }
    x.held.foldl (fun s u =>
      let (s, t) := s.putUnits (p.1 / 8) (p.1 % 8) u.frame 0 [u]
      let y := s.stream (p.1 / 8) (p.1 % 8)
      s.setStream (p.1 / 8) (p.1 % 8) { y with
        frames := y.frames.modify u.frame fun f => { f with pts := max f.pts t }
        ready := y.ready.map fun d => if d.frame = u.frame then { d with pts := max d.pts t } else d }) s) s

/-- Closes a frame, with loss at its deadline: its descriptor joins the order of closes (R244). -/
def State.closeFrame (s : State) (vf q frame : Nat) (loss : Bool) (units pts : Nat) : State :=
  let x := s.stream vf q
  let f := Tab.getD x.frames { topen := s.time } frame
  let tc := if loss then f.topen + s.sqDeadline vf q else s.time
  let d : StreamDesc := { frame := frame, loss := loss, topen := f.topen, tclose := tc, bytes := 64 * units, pts := pts }
  let s := s.setStream vf q { x with
    frames := x.frames.del frame, closed := frame :: x.closed, undone := frame :: x.undone, ready := x.ready ++ [d] }
  let s := s.countSq vf (oSQS q) 0
  if loss then s.countSq vf (oSQS q) 32 else s

/-- The end of a stream (R244): once every frame has closed and its descriptor is pushed, the pipe loses a producer and the queue is
disabled. -/
def State.finishStream (s : State) (vf q : Nat) : State :=
  let x := s.stream vf q
  if !x.eos || !x.frames.isEmpty || !x.ready.isEmpty then s else
  let s := match s.sqPipe vf q with
    | some (n, p) => s.setPipe (s.vfPart vf) n { p with left := p.left - 1, last := s.now }
    | none => s
  ((s.setVrBits vf (oSQC q) 56 1 0).setStream vf q { x with eos := false }).freePipes (s.vfPart vf)

/-- A descriptor that can never be pushed is dropped: its frame counts as popped. -/
def State.dropDesc (s : State) (vf q : Nat) : State :=
  let x := s.stream vf q
  match x.ready with
  | [] => s
  | d :: r => (s.setStream vf q { x with ready := r, undone := x.undone.erase d.frame }).finishStream vf q

/-- The 32 bytes of a descriptor (R244). -/
def StreamDesc.image (d : StreamDesc) : List Byte :=
  natLe 8 (d.frame % 2 ^ 32 + b2n d.loss * 2 ^ 32) ++ natLe 8 d.topen ++ natLe 8 d.tclose ++ natLe 8 (d.bytes % 2 ^ 32)

/-- A write of `SQC` (R242): en stays 0 unless the slots, the frame size and the pipe allow it; eos ends the stream. -/
def State.writeSqc (s : State) (vf q : Nat) (v : DWord) : State :=
  let was := s.vrBits vf (oSQC q) 56 1
  let s := s.setVr vf (oSQC q) (v &&& 0x00FFFFFFFFFFFFFF#64)
  let n := s.vrBits vf (oSQB q) 0 4
  let ok := decide (1 ≤ n ∧ n ≤ 10) && s.sqUnits vf q != 0 && ((s.sqPipe vf q).map fun p => p.2.size == 32).getD false
  let s := if bit v 56 && ok then s.setVrBits vf (oSQC q) 56 1 1 else s.freePipes (s.vfPart vf)
  if bit v 57 && (was == 1 || s.vrBits vf (oSQC q) 56 1 == 1) then
    (s.setStream vf q { s.stream vf q with eos := true }).finishStream vf q
  else s

end Sys2Proof.Machine
end

