-- ==== Sys2Proof/Machine/System.lean ====
section
/-! DEFINITION. System instructions: major 15 (R381 to R388, R72 to R77, R143 to R147, R417). -/

namespace Sys2Proof.Machine

def execNop (s : State) : Out := word .nop s fun _ s => s

/-- The trap record of `trap` and `bkpt` (R382, R384): cause 0x00 at this word, its code as the address. -/
def Lg.codeRecord (l : Lg) (s : State) (i : BitVec 8) : Lg :=
  { l with tcause := tcauseOf .none s.pk.slot (s.pk.first ≠ s.pk.idx), fpc := s.pk.idx, tva := i.setWidth 64 }

/-- `trap` (R384): a software entry, or the lane group stops. -/
def execTrap (i : BitVec 8) (s : State) : Out :=
  word (.trap i) s fun c s =>
    if c.la.svh = 0 || c.lg.sup then (s.up c fun l => l.codeRecord s i).stopLg c.g .none
    else s.up c fun l => { l.codeRecord s i with
      savedEm := c.em, fm := 0, resume := s.pk.succ, sup := true, pend := none, enteredAt := s.nseq,
      pc := linePacket c.la.svh, landing := true, replay := none, replayAcc := none, replayLater := [] }

/-- Whether an access that the handler has issued is still to be performed (R145). -/
def State.handlerBusy (s : State) (c : Ctx) : Bool :=
  (s.accs.any fun p => p.2.lg == c.g && p.2.busy && decide (c.lg.enteredAt ≤ p.2.seq)) ||
    s.cmds.any fun p => p.2.lg == c.g && p.2.body.isAccess && p.2.live && decide (c.lg.enteredAt ≤ p.2.seq)

/-- An access whose replay never comes adds nothing to its counter any more (R146). -/
def State.abandon (s : State) (a : Option Nat) : State :=
  match a with
  | none => s
  | some id => (s.modAcc id fun x => { x with ctr := 16, opn := false }).finishAccess id

/-- RETURNING FROM AN EXCEPTION, `sysret` (R145, R417): by rule 1 the faulting word alone runs again in the lanes of `fm`,
with whatever of its packet has still to run; by rule 2 the packet at `cr.resume` runs in full. -/
def execSysret (s : State) : Out :=
  word .sysret s fun c s => s.checked c (c.illegalIf (!c.lg.sup)) fun s =>
    if s.handlerBusy c then s.holdBack c
    else if c.lg.fm ≠ 0 && c.lg.resume = c.lg.fpc then
      s.up c fun l => { l with
        sup := false, em := l.savedEm, fm := 0, pc := l.resume, run := none, resuming := true
        replay := some ⟨bits l.tcause 8 2, l.fm, l.replayNext, l.replayAcc, l.replayLater⟩
        replayAcc := none, replayLater := [] }
    else
      (s.abandon c.lg.replayAcc).up c fun l => { l with
        sup := false, em := l.savedEm, fm := 0, pc := l.resume, run := none, resuming := true
        replay := none, replayAcc := none, replayLater := [] }

/-! ## Control registers (R72 to R77, R148, R172, R189, R383) -/

/-- `cr.shape` (R76). -/
def Ctx.shape (c : Ctx) : Nat :=
  c.la.dies + c.la.rx * 2 ^ 3 + c.la.ry * 2 ^ 8 + (c.la.w - 1) * 2 ^ 11 + (c.la.h - 1) * 2 ^ 16 + c.wg.dslot % 8 * 2 ^ 19
    + c.la.gen % 256 * 2 ^ 24

/-- The allocation code of a number of registers (R52). -/
def rgcOf (alloc : Nat) : Nat := (alloc - 64) / 32

/-- `cr.lgs` (R73). -/
def Ctx.lgs (c : Ctx) : Nat :=
  rgcOf c.sn.alloc + c.sn.edge.toNat * 2 ^ 3 + c.lg.lgn * 2 ^ 5 + c.wg.slot * 2 ^ 10 + b2n c.lg.hnd * 2 ^ 14
    + b2n c.sn.sup * 2 ^ 15 + c.sn.path.length * 2 ^ 16

/-- `cr.kown`: the `k` registers that the lane group owns. -/
def Ctx.kowned (c : Ctx) : Nat := ((List.range 32).map fun n => b2n (c.owns n) * 2 ^ n).sum

/-- The units of a governor's window: 0 is 1, and above 256 is 256 (R171). -/
def budgetOf (n : Nat) : Nat := if n = 0 then 1 else min n 256

/-- `cr.mxgov` (R172), in the window that has begun by now. -/
def State.mxgov (s : State) (bh : Nat) : Nat :=
  let g := s.gov bh
  g.stalls.toNat + g.budget % 512 * 2 ^ 32 + g.used % 512 * 2 ^ 41

/-- A uniform control register. -/
def Ctx.crUniform (c : Ctx) (s : State) (n : Nat) : DWord :=
  match n with
  | 0x00 => BitVec.ofNat 64 c.lgs
  | 0x09 => BitVec.ofNat 64 c.kowned
  | 0x0A => c.sn.fm.setWidth 64
  | 0x0B => BitVec.ofNat 64 c.shape
  | 0x0C => c.sn.fflags.setWidth 64
  | 0x10 => c.sn.tcause.setWidth 64
  | 0x11 => c.sn.tva
  | 0x12 => c.sn.fpc
  | 0x13 => c.sn.resume
  | 0x18 => (s.pk.crs.getD (s.crsNow c)).1
  | 0x20 => BitVec.ofNat 64 (s.mxgov (bhOf c.core))
  | 0x21 => (s.pk.crs.getD (s.crsNow c)).2
  | _ => BitVec.ofNat 64 ((c.idx (n - 1)).base.toNat + (c.idx (n - 1)).limit.toNat * 2 ^ 8)

/-- `cr.rd` (R383). -/
def execCrRd (d : BitVec 6) (i : BitVec 8) (s : State) : Out :=
  word (.crRd d i) s fun c s =>
    if 5 ≤ i.toNat ∧ i.toNat ≤ 8 then
      s.up c fun l => l.wrV c.em d.toNat fun j => BitVec.ofNat 32 (c.idxOff (i.toNat - 5) j)
    else s.up c fun l => l.wrPair c.em d.toNat fun _ => c.crUniform s i.toNat

/-- Whether the number is that of a register writable inside the supervisor handler only (R72). -/
def crSup (n : Nat) : Bool := n == 0x0A || n == 0x13 || n == 0x18

/-- Writes a uniform control register: its writable fields. -/
def State.crPut (s : State) (c : Ctx) (n : Nat) (x : DWord) : State :=
  match n with
  | 0x00 => s.up c fun l => { l with edge := BitVec.ofNat 2 (bits x 3 2) }
  | 0x0A => s.up c fun l => { l with fm := x.truncate 32 }
  | 0x0C => s.up c fun l => { l with fflags := x.truncate 5 }
  | 0x13 => s.up c fun l => { l with resume := x }
  | 0x18 => s.modLaunch c.wg.launch fun l =>
      { l with parkCnt := BitVec.ofNat 6 (bits x 0 6), parkTmo := BitVec.ofNat 16 (bits x 16 16) }
  | 0x21 => s.modCore c.core fun k => { k with mxchk := setBits k.mxchk 0 24 (bits x 0 24) }
  | _ => s.up c fun l => { l with x := l.x.setD {} (n - 1) ⟨BitVec.ofNat 8 (bits x 0 8), BitVec.ofNat 9 (bits x 8 9)⟩ }

/-- Whether a write is refused for a field of the value (R73, R74). -/
def crBad (n : Nat) (x : DWord) : Bool :=
  (n == 0 && bits x 3 2 == 3) || (decide (1 ≤ n ∧ n ≤ 4) && decide (256 < bits x 8 9))

/-- `cr.wr` (R383). -/
def execCrWr (a : BitVec 6) (i : BitVec 8) (s : State) : Out :=
  word (.crWr a i) s fun c s =>
    let n := i.toNat
    if 5 ≤ n ∧ n ≤ 8 then
      s.checked c (c.regF c.em a.toNat) fun s => s.up c fun l => { l with
        xo := c.lanes.foldl (fun t j => t.setD 0 (32 * (n - 5) + j) ((c.v a.toNat j).truncate 8)) l.xo }
    else
      s.checked c (c.illegalIf (crSup n && !c.sn.sup)) fun s =>
        if c.em = 0 then s else
        let m := 1#32 <<< c.exLane
        let x := (c.v a.toNat c.exLane).setWidth 64 ||| ((c.v (a.toNat + 1) c.exLane).setWidth 64 <<< 32)
        s.checked c (c.regF m a.toNat ++ c.regF m (a.toNat + 1) ++ c.illegalIf (crBad n x)) fun s => s.crPut c n x

/-! ## First touch and page pools -/

/-- `park` (R147, R385). -/
def execPark (s : State) : Out :=
  word .park s fun c s =>
    s.checked c (c.illegalIf (!c.lg.sup || c.lg.pend.isNone || c.handler)) fun s =>
      match c.lg.pend with
      | none => s
      | some p =>
        let (rq, s) := s.pageReq c.vf c.part c.lg.tva.toNat c.lg.pendKind p.pool p.lvl (.lg c.g)
        s.up c fun l => { l with status := .parkedPage rq, parkAt := s.now }

/-- The page size code of a level (R136). -/
def sizeOfLevel (l : Nat) : Nat := 4 - l

/-- Pops a frame for a pending entry (R144): the outcome. -/
def State.popFrame (s : State) (c : Ctx) (p : Pending) : State × Nat :=
  let (s, bs, bad) := s.devRead p.entry 8
  let e : DWord := BitVec.ofNat 64 (leNat bs)
  let pool := Tab.find (s.part c.part).pools (pePool e)
  if bad then (s, 3)
  else if peV e then (s, 1)
  else if !peFt e || (pool.map fun q => q.size != sizeOfLevel p.lvl).getD false then (s, 3)
  else
    match pool with
    | none => (s, 2)
    | some q =>
      match q.frames with
      | [] => (s, 2)
      | f :: r =>
        let s := s.modPart c.part fun t => { t with pools := t.pools.put (pePool e) { q with frames := r } }
        let (ts, s) := s.devWrite p.entry (natLe 8 (1 + pePerm e * 4 + f)) (s.core c.core).pts
        (s.raisePts c.core ts, 0)

/-- `pool.pop` (R144, R385). -/
def execPoolPop (d : BitVec 6) (s : State) : Out :=
  memWord (.poolPop d) s fun c s =>
    s.checked c (c.illegalIf (!c.lg.sup || c.lg.pend.isNone)) fun s =>
      match c.lg.pend with
      | none => s
      | some p =>
        let (s, out) := s.popFrame c p
        s.up c fun l => l.wrV c.em d.toNat fun _ => BitVec.ofNat 32 out

/-- The bits of a frame of a size code. -/
def frameBits (n : Nat) : Nat := if n = 0 then 16 else if n = 1 then 21 else 30

/-- `pool.give` (R386): the number of frames added. -/
def execPoolGive (d : BitVec 6) (n : BitVec 5) (s : State) : Out :=
  word (.poolGive d n) s fun c s =>
    let w := c.kr n.toNat
    let size := bits w 4 2
    let ipa := bits w 16 32 * 65536
    let old := Tab.find (s.part c.part).pools (bits w 0 4)
    let rst := bit w 6
    s.checked c (c.illegalIf (size == 3 || bits w 48 16 != 0 || ipa % 2 ^ frameBits size != 0 ||
        (!rst && (old.map fun q => q.size != size).getD false))) fun s =>
      let have_ := if rst then [] else (old.map (·.frames)).getD []
      let add := min (bits w 7 9 + 1) (4096 - have_.length)
      let new := (List.range add).foldl (fun fs i => (ipa + i * 2 ^ frameBits size) :: fs) have_
      (s.modPart c.part fun t => { t with pools := t.pools.put (bits w 0 4) ⟨size, new⟩ }).up c fun l =>
        l.wrV c.em d.toNat fun _ => BitVec.ofNat 32 add

/-! ## Probes and invalidation -/

/-- A translation that installs nothing (R387). -/
def State.probe (s : State) (c : Ctx) (va : Nat) : State × XRes :=
  match (s.core c.core).tlb.find? (tlbHit c.part c.vf va) with
  | some e => (s, s.judge e va 0)
  | none =>
    match (Tab.getD s.dtlb [] (dieOf c.core)).find? (tlbHit c.part c.vf va) with
    | some e => (s, s.judge e va 0)
    | none =>
      match s.walk c.part c.vf va 0 with
      | (s, .ok e) => (s, s.judge e va 0)
      | r => r

/-- The probe word and the second result of `xlat.probe` (R387). -/
def probeWord (va : Nat) (r : XRes) : Nat × Nat :=
  if 2 ^ 57 ≤ va then (3 * 2 ^ 5, 0) else
  match r with
  | .ok e => ((e.perm &&& e.perm2) + (if e.bits = 16 then 0 else if e.bits = 21 then 1 else 2) * 2 ^ 3,
      (e.ipa + va % 2 ^ e.bits) / 65536)
  | .ft p => (1 * 2 ^ 5 + p.pool * 2 ^ 8, 0)
  | .bad k => ((if k = .xlatNr then 2 else 3) * 2 ^ 5, 0)
  | .s2 _ _ => (4 * 2 ^ 5, 0)

def State.probeLanes (s : State) (c : Ctx) (k : DWord) (a : BitVec 8) : List Nat → State × Tab DWord
  | [] => (s, [])
  | i :: r =>
    let va := (k + (c.src 0 a i).signExtend 64).toNat
    let (s, x) := s.probe c va
    let (s, t) := s.probeLanes c k a r
    let (lo, hi) := probeWord va x
    (s, t.put i (BitVec.ofNat 64 (lo + hi * 2 ^ 32)))

def execXlatProbe (d : BitVec 6) (a : BitVec 8) (n : BitVec 5) (s : State) : Out :=
  memWord (.xlatProbe d a n) s fun c s => s.checked c (c.srcF a) fun s =>
    let (s, t) := s.probeLanes c (c.kr n.toNat) a c.lanes
    s.up c fun l => l.wrPair c.em d.toNat fun i => Tab.getD t 0 i

/-- Removes cached translations (R141) and answers those removed. -/
def State.dropTlb (s : State) (f : TlbEnt → Bool) : State × List TlbEnt :=
  let gone := s.cores.vals.flatMap (fun k => k.tlb.filter f) ++ s.dtlb.vals.flatMap (·.filter f) ++ s.oldTlb.filter f
  ({ s.keepOld gone with
    cores := (s.cores.map fun p => (p.1, { p.2 with tlb := p.2.tlb.filter fun e => !f e })).filter fun p => p.2 ≠ {}
    dtlb := (s.dtlb.map fun p => (p.1, p.2.filter fun e => !f e)).filter fun p => !p.2.isEmpty }, gone)

/-- Whether an address lies in the page of one of the entries. -/
def inPages (es : List TlbEnt) (part vf va : Nat) : Bool := es.any fun e => tlbHit part vf va e

/-- Whether a lane's part is covered by an invalidation: its function's address satisfies `f` or lies in a removed page. -/
def covered (es : List TlbEnt) (f : Nat → Nat → Nat → Bool) (part vf va : Nat) : Bool :=
  f part vf va || inPages es part vf va

/-- What is in flight that was translated under what an invalidation removes (R142): accesses, commands, fragments on their way to their
destinations, meetings with their counters. -/
def State.under (s : State) (es : List TlbEnt) (f : Nat → Nat → Nat → Bool) : Inv :=
  { accs := (s.accs.filter fun (_, x) => x.lanes.any fun p => decide (p.st < 2) && covered es f x.part x.vf p.va).map (·.1)
    cmds := (s.cmds.filter fun (_, x) => x.live && x.gran.any fun g => covered es f x.part x.vf (g.1 * 65536)).map (·.1)
    frags := (s.frags.filter fun (_, x) => x.dst.any fun d => es.any fun e => e.holdsPa d.1).map (·.1)
    tallies := (s.tallies.filter fun (_, x) => es.any fun e => e.holdsPa x.ctr.1).map (·.1) }

/-- The `waitm`s that wait under a removed translation translate their address again (R142). -/
def State.rewatch (s : State) (es : List TlbEnt) (f : Nat → Nat → Nat → Bool) : State :=
  { s with lgs := s.lgs.map fun (p : Nat × Lg) => (p.1,
      match p.2.status with
      | .blocked (.waitm va (some _) t i j k) false =>
        (match (s.wgs.find p.2.wg).bind fun w => s.launches.find w.launch with
         | some la => if covered es f la.part la.vf va then { p.2 with status := .blocked (.waitm va none t i j k) false } else p.2
         | none => p.2)
      | _ => p.2) }

/-- Whether everything that an invalidation waits for has been performed. -/
def State.invDone (s : State) (i : Inv) : Bool :=
  !(i.accs.any fun a => ((s.accs.find a).map Access.busy).getD false) &&
    !(i.cmds.any fun a => ((s.cmds.find a).map Cmd.live).getD false) &&
    !(i.frags.any fun a => (s.frags.find a).isSome) && !(i.tallies.any fun a => (s.tallies.find a).isSome)

/-- `tlb.inv` (R388): held until what was translated under the removed entries is performed. -/
def execTlbInv (n : BitVec 5) (i : BitVec 8) (s : State) : Out :=
  word (.tlbInv n i) s fun c s =>
    let k := (c.kr n.toNat).toNat
    let cnt := i.toNat * 65536
    s.checked c (c.illegalIf (i ≠ 0 && (k % 65536 != 0 || decide (2 ^ 57 ≤ k)))) fun s =>
      match s.invs.find c.g with
      | some v => if s.invDone v then { s with invs := s.invs.del c.g } else s.holdBack c
      | none =>
        let mine := fun p f => p == c.part && f == c.vf
        let (s, gone) := s.dropTlb fun e => mine e.part e.vf && (i == 0 || decide (e.va < k + cnt ∧ k < e.va + 2 ^ e.bits))
        let at_ := fun p f va => mine p f && (i == 0 || decide (k ≤ va ∧ va < k + cnt))
        let v := s.under gone at_
        let s := s.rewatch gone at_
        if s.invDone v then s else ({ s with invs := s.invs.put c.g v }).holdBack c

/-! ## Debugger, yield, time -/

/-- `bkpt` (R382, R467). -/
def execBkpt (i : BitVec 8) (s : State) : Out :=
  word (.bkpt i) s fun c s =>
    if bit (s.win' (oBKE (c.vf / 64))) (c.vf % 64) then
      s.up c fun l => { l.codeRecord s i with resume := s.pk.succ, status := .bkpt }
    else s

/-- The ready lane groups of a sub-core, but `g`. -/
def State.readyOn (s : State) (core sc g : Nat) : List Nat :=
  (s.lgs.filter fun p => p.1 != g && p.2.sc == sc && p.2.status == .ready &&
    ((s.wgs.find p.2.wg).map fun w => w.core == core && w.st == .resident && w.bank == (s.core core).act).getD false).map (·.1)

/-- `yield` (R382): not ready until each other ready lane group of its sub-core has issued once, or 32 cycles later. -/
def execYield (s : State) : Out :=
  word .yield s fun c s =>
    match s.readyOn c.core c.lg.sc c.g with
    | [] => s
    | gs => s.up c fun l => { l with status := .yielding gs, parkAt := s.now }

def execTime (d : BitVec 6) (s : State) : Out :=
  word (.time d) s fun c s => s.up c fun l => l.wrPair c.em d.toNat fun _ => BitVec.ofNat 64 s.time

end Sys2Proof.Machine
end

