-- ==== Sys2Proof/Machine/EvXlat.lean ====
section
/-! DEFINITION. The events of translation and parking: walks, invalidations, page requests, second-stage answers, swap-outs and
re-admissions (R140 to R142, R147 to R152, R430, R431). -/

namespace Sys2Proof.Machine

/-! ## Walks and invalidations (R140 to R142) -/

/-- Whether a lane group of a function stands on a core. -/
def State.servesOn (s : State) (core vf : Nat) : Bool :=
  s.wgs.any fun p => p.2.here && p.2.core == core && ((s.launches.find p.2.launch).map fun l => l.vf == vf).getD false

/-- TLB_WALK_DONE (R140): a walk for a core ends ahead of the access it serves; what it finds is cached, a fault is met by the access. -/
def execTlbWalkDone (core vf va : Nat) (s : State) : Out :=
  memEvent (decide (core < 192 ∧ va < 2 ^ 57) && s.servesOn core vf) s fun s => (s.xlate core (s.vfPart vf) vf va 0).1

/-- Whether a message's identifier names an enabled partition. -/
def State.vmidIs (s : State) (vmid : BitVec 16) (part : Nat) : Bool :=
  s.partEn part && s.winBits (oS2C part) 48 16 == vmid.toNat

/-- Whether a message's identifiers name an enabled function of an enabled partition. -/
def State.asidIs (s : State) (vmid asid : BitVec 16) (part vf : Nat) : Bool :=
  s.vmidIs vmid part && s.vfEn vf && s.vfPart vf == part && s.vrBits vf 0 48 16 == asid.toNat

/-- Removes cached results and keeps what was translated under them for the synchronisations to come (R142). -/
def State.invalidate (s : State) (f : TlbEnt → Bool) (at_ : Nat → Nat → Nat → Bool) : State :=
  let (s, gone) := s.dropTlb f
  let s := s.rewatch gone at_
  { s with nseq := s.nseq + 1, invs := s.invs.put s.nseq (s.under gone at_) }

/-- TLBI_VA_RANGE (R141). -/
def execTlbiVaRange (vmid asid : BitVec 16) (va pages : Nat) (s : State) : Out :=
  event s.hostUp s fun s =>
    let lo := va / 4096 * 4096
    let hi := lo + 4096 * pages
    s.invalidate (fun e => s.asidIs vmid asid e.part e.vf && decide (e.va < hi ∧ lo < e.va + 2 ^ e.bits))
      fun p f a => s.asidIs vmid asid p f && decide (lo ≤ a ∧ a < hi)

/-- TLBI_ASID (R141). -/
def execTlbiAsid (vmid asid : BitVec 16) (s : State) : Out :=
  event s.hostUp s fun s => s.invalidate (fun e => s.asidIs vmid asid e.part e.vf) fun p f _ => s.asidIs vmid asid p f

/-- TLBI_IPA_RANGE (R141): results whose second-stage leaf overlaps the range. -/
def execTlbiIpaRange (vmid : BitVec 16) (ipa pages : Nat) (s : State) : Out :=
  event s.hostUp s fun s =>
    let lo := ipa / 4096 * 4096
    let hi := lo + 4096 * pages
    let leaf := fun (e : TlbEnt) => e.ipa / 2 ^ e.bits2 * 2 ^ e.bits2
    s.invalidate (fun e => s.vmidIs vmid e.part && decide (leaf e < hi ∧ lo < leaf e + 2 ^ e.bits2)) fun _ _ _ => false

/-- TLBI_VMID (R141). -/
def execTlbiVmid (vmid : BitVec 16) (s : State) : Out :=
  event s.hostUp s fun s => s.invalidate (fun e => s.vmidIs vmid e.part) fun p _ _ => s.vmidIs vmid p

/-- TLBI_ALL (R141). -/
def execTlbiAll (s : State) : Out :=
  event s.hostUp s fun s => s.invalidate (fun _ => true) fun _ _ _ => true

/-- The host invalidations under way; those of `tlb.inv` stand under their lane groups' numbers. -/
def State.hostInvs (s : State) : List Nat := s.invs.keys.filter fun k => (s.lgs.find k).isNone

/-- HOST_TLB_SYNC (R142): a synchronisation waits for every invalidation received before it. -/
def execHostTlbSync (id : Nat) (s : State) : Out :=
  event (s.hostUp && (s.syncs.find id).isNone) s fun s => { s with syncs := s.syncs.put id s.hostInvs }

/-- Whether a synchronisation can be answered. -/
def State.canAnswer (s : State) (id : Nat) : Bool :=
  match s.syncs.find id with
  | none => false
  | some is => is.all fun i => ((s.invs.find i).map s.invDone).getD true

/-- TLB_SYNC_ANSWER (R142). -/
def execTlbSyncAnswer (id : Nat) (s : State) : Out :=
  event (s.canAnswer id) s fun s =>
    let done := (s.syncs.find id).getD []
    let s := { s with syncs := s.syncs.del id }
    { s with invs := s.invs.filter fun p => !(done.contains p.1) }

/-! ## Page requests (R147) -/

/-- Whether a request's record can be written: not yet written, its queue has room, no second-stage fault holds it. -/
def State.canRequest (s : State) (rq : Nat) : Bool :=
  match s.preqs.find rq with
  | none => false
  | some p =>
    !p.written && !(s.s2w.any fun w => w.2.2 == .request rq) &&
      decide ((s.vrBits p.vf 0x18 0 32 + 2 ^ 32 - s.vrBits p.vf 0x20 0 32) % 2 ^ 32 < qSize (s.vrBits p.vf 0x10 0 4))

/-- The words of a page-request record. -/
def PageReq.words (p : PageReq) (rq : Nat) : List Nat :=
  [p.va % 2 ^ 57, p.vf + p.part * 2 ^ 10 + p.kind * 2 ^ 14 + p.pool * 2 ^ 16 + p.lvl * 2 ^ 20 + rq % 2 ^ 32 * 2 ^ 32, p.time, 0]

/-- PAGE_REQUEST_WRITE (R147). -/
def execPageRequestWrite (rq : Nat) (s : State) : Out :=
  memEvent (s.canRequest rq) s fun s =>
    match s.preqs.find rq with
    | none => s
    | some p =>
      let tail := s.vrBits p.vf 0x18 0 32
      let ipa := s.vrBits p.vf 0x10 12 36 * 4096 + 32 * (tail % qSize (s.vrBits p.vf 0x10 0 4))
      match s.ipaAddr p.part p.vf ipa 2 with
      | (s, none) => (s.s2Rec p.part p.vf 0 0 0 ipa 0 false true).s2Wait p.part ipa (.request rq)
      | (s, some (pa, kid)) =>
        let s := ((s.keyRange pa 32 kid).devWrite pa (recBytes (p.words rq))).2
        let s := s.setVrBits p.vf 0x18 0 32 (tail + 1)
        { s with preqs := s.preqs.modify rq fun q => { q with written := true } }

/-- A waiter goes on (R147, R431). -/
def State.resume (s : State) (w : Waiter) (rq : Option Nat) : State :=
  match w with
  | .lg g =>
    match s.lgs.find g with
    | none => s
    | some l =>
      match l.status, rq with
      | .parkedPage r, some q => if r = q then s.makeReady g else s
      | .parkedS2 _, none => s.makeReady g
      | _, _ => s
  | .cmd c => s.modCmd c fun x => { x with st := match x.st with | .waitPage _ => .queued | t => t }
  | .start w => if ((s.wgs.find w).map fun g => g.st == .starting).getD false then s.postOnce (.workgroupStart w) else s
  | .counter l => s.updateCtr l
  | .queue _ _ => s
  | .request _ => s

/-- A write of `PRD` (R147). One that names a request whose record still waits to be written is ignored (log entry 70). -/
def State.writePrd (s : State) (vf : Nat) (rqid : BitVec 32) : State :=
  match s.preqs.find? fun p => p.2.vf == vf && p.1 % 2 ^ 32 == rqid.toNat && p.2.written with
  | none => s
  | some (rq, p) => { s with preqs := s.preqs.del rq }.resume p.by_ (some rq)

/-- PAGE_REQUEST_DONE (R147): the driver writes `PRD`. -/
def execPageRequestDone (vf : Nat) (rqid : BitVec 32) (s : State) : Out := event s.hostUp s fun s => s.writePrd vf rqid

/-! ## Second-stage answers (R431) -/

/-- Takes the waiters on a granule, in the order of their parking. -/
def State.takeS2 (s : State) (part ipa : Nat) : List Waiter × State :=
  let mine := fun (w : Nat × Nat × Waiter) => w.1 == part && w.2.1 == ipa / 65536
  ((s.s2w.filter mine).map (·.2.2), { s with s2w := s.s2w.filter fun w => !mine w })

/-- A waiter is turned away (R32, R147, R241, R431, R474). -/
def State.abort (s : State) (w : Waiter) : State :=
  match w with
  | .lg g => if ((s.lgs.find g).map fun l => match l.status with
      | .parkedS2 _ => true
      | .parkedPage _ => true
      | _ => false).getD false then s.stopLg g .xlatS2 else s
  | .cmd c => { s with pending := s.pending.erase (.engineTakeOwnership c) }.endCmd c .xlatS2
  | .start w => if ((s.wgs.find w).map fun g => g.st == .starting).getD false then s.failStart w .xlatS2 else s
  | .counter l =>
    match s.launches.find l with
    | none => s
    | some la => (s.modLaunch l fun x => { x with counterPending := none }).dropCtr l la .xlatS2
  | .queue vf q =>
    if 8 ≤ q then s.dropDesc vf (q - 8) else
    let head := s.vrBits vf (oLQB q + 16) 0 32
    (s.pastHead vf q).tenantRec vf [recHead .xlatS2 2 (s.vfPart vf) vf 0 0 0 0, head + q * 2 ^ 32, 0, s.time]
  | .request _ => s

/-- A dropped request's waiter is turned away with it. -/
def State.abortRequest (s : State) (w : Waiter) : State :=
  match w with
  | .request rq =>
    match s.preqs.find rq with
    | none => s
    | some p => { s with preqs := s.preqs.del rq }.abort p.by_
  | w => s.abort w

/-- A write of `S2R` (R431). -/
def State.writeS2r (s : State) (part ipa : Nat) (abort : Bool) : State :=
  let (ws, s) := s.takeS2 part ipa
  ws.foldl (fun s w => if abort then s.abortRequest w else s.resume w none) s

/-- S2R_RESUME (R431): a write with abort 0. -/
def execS2rResume (part ipa : Nat) (s : State) : Out := event s.hostUp s fun s => s.writeS2r part ipa false

/-- S2R_ABORT (R431): a write with abort 1. -/
def execS2rAbort (part ipa : Nat) (s : State) : Out := event s.hostUp s fun s => s.writeS2r part ipa true

/-! ## Swap-out and re-admission (R148 to R152) -/

/-- Whether a lane group is parked (R148, R430). -/
def Lg.parked (l : Lg) : Bool := match l.status with | .parkedPage _ => true | .parkedS2 _ => true | _ => false

/-- Whether the parked lane groups of a workgroup pass its launch's threshold (R148). -/
def State.overParked (s : State) (w : Nat) : Bool :=
  let cnt := (((s.wgs.find w).bind fun g => s.launches.find g.launch).map (·.parkCnt.toNat)).getD 63
  decide (cnt < 32 ∧ cnt < ((s.lgsOf w).filter fun p => p.2.parked).length)

/-- Begins the swap-outs that R148's count asks for. -/
def State.beginSwaps (s : State) : State :=
  s.wgs.foldl (fun s p => if s.overParked p.1 && s.canSwapOut p.1 then s.beginSwapOut p.1 else s) s

/-- Whether a parked lane group has waited longer than its launch allows (R148). -/
def State.canTimeout (s : State) (g : Nat) : Bool :=
  match s.lgs.find g with
  | none => false
  | some l =>
    let tmo := (((s.wgs.find l.wg).bind fun w => s.launches.find w.launch).map (·.parkTmo.toNat)).getD 0
    l.parked && tmo != 0 && decide (l.parkAt + 2000 * tmo < s.now) && s.canSwapOut l.wg

/-- PARK_TIMEOUT (R148). -/
def execParkTimeout (lg : Nat) (s : State) : Out :=
  event (s.canTimeout lg) s fun s => s.beginSwapOut (s.wgOf lg)

/-- Whether a command leaves its workgroup free to be spilled (R149): it is complete, an engine's own, a transfer that waits for its
sender, or a sampling command at a sweep boundary that reaches no memory. -/
def State.spillable (s : State) (c : Cmd) : Bool :=
  !c.live || (match c.body with
    | .mxLdb _ _ _ _ f => !s.filling f
    | .tcLd .. | .tcSt .. | .tcMcast .. | .bus .. | .rvSend .. | .amSend _ => true
    | .saCfg .. | .saKey _ | .saUncl .. | .saGhost .. | .saSwp .. | .saClr | .saMonW .. =>
      (s.core c.core).arr.st != 2 || (s.core c.core).arr.holder != some c.wg
    | _ => false)

/-- Whether a workgroup has nothing under way that its spilling awaits: no hold run, access or command (R149). -/
def State.settled (s : State) (w : Nat) : Bool :=
  !(s.lgs.any fun p => p.2.wg == w && p.2.inRun) &&
    !(s.accs.any fun p => p.2.wg == w && p.2.busy) && s.cmds.all fun p => p.2.wg != w || s.spillable p.2

/-- The image of a workgroup in its spill slot: bytes to which the spec gives no layout (log entry 30). Each granule is written through
the second stage; one that cannot be writes its src 8 record. -/
def State.writeSpill (s : State) (w : Nat) : State :=
  match s.wgs.find w with
  | none => s
  | some g =>
    match s.launches.find g.launch, g.spill with
    | some la, some n =>
      let base := s.vrBits la.vf 8 22 26 * 0x400000 + n * 0x400000
      let holds := !g.stagedPois.isEmpty || g.stash.any fun p => p.2.pois != 0
      (List.range 64).foldl (fun (s : State) i =>
        let (k, s) := s.draw
        match s.ipaAddr la.part la.vf (base + 65536 * i) 2 with
        | (s, none) => s.s2Rec la.part la.vf g.core g.slot 0 (base + 65536 * i) 0 false true
        | (s, some (pa, kid)) =>
          let s := ((s.keyRange pa 65536 kid).devWrite pa ((Config.image k).take 65536)).2
          if holds then ((wordsOf pa 65536).filter Config.bearsPoison).foldl (fun s w => s.setPois w true) s else s) s
    | _, _ => s

/-! ## The spill engine (R168, R170) -/

/-- Gives a workgroup a spill slot, if it has none and one is free. -/
def State.takeSpill (s : State) (w : Nat) : State :=
  s.modWg w fun g => { g with spill := g.spill <|> s.freeSpill (s.wgVf w) }

def State.hasSpill (s : State) (w : Nat) : Bool := ((s.wgs.find w).map fun g => g.spill.isSome).getD false

/-- The holder of a resource, where it is a context of the core's other bank. -/
def State.foreign (s : State) (core : Nat) (h : Option Nat) : Option Nat :=
  h.filter fun w => ((s.wgs.find w).map fun g => g.bank != (s.core core).act).getD false

/-- Whether a command under way names an operand slot; an armed transfer that has not started waits for its slot to be back. -/
def State.slotBusy (s : State) (core n : Nat) : Bool :=
  let names := fun (us : List (Bool × Nat × Bool)) => us.any fun u => u.1 == false && u.2.1 == n
  s.cmds.any fun p =>
    (p.2.core == core && p.2.live && names p.2.body.uses && (match p.2.body with | .mxLdb _ _ _ _ f => s.filling f | _ => true)) ||
    (p.2.core + 1 == core && p.2.st == .running && names p.2.body.followerUses)

def State.canEvictSlot (s : State) (core n : Nat) : Bool :=
  match s.foreign core (s.slot core n).claim with
  | none => true
  | some w => (s.takeSpill w).hasSpill w && !s.slotBusy core n

/-- Whether the array's context can be evicted: its sweep and its running image command have ended (R166, R168). -/
def State.canEvictArr (s : State) (core : Nat) : Bool :=
  match s.foreign core (s.core core).arr.holder with
  | none => true
  | some w => (s.takeSpill w).hasSpill w && (s.core core).arr.st != 2 &&
      !(s.cmds.any fun p => p.2.wg == w && p.2.st == .running && (match p.2.body with
        | .saLdc .. | .saLdh .. | .saClmp .. | .saRdc .. | .saRds .. => true
        | _ => false))

/-- Whether a core's spill engine can serve an on-demand eviction now, its first work (R170). -/
def State.evicting (s : State) (core : Nat) : Bool :=
  s.pending.any fun e => match e with
    | .slotEvictionDone c n => c == core && s.canEvictSlot core n
    | .arrayEvictionDone c => c == core && s.canEvictArr core
    | _ => false

/-- The evicted resources of a workgroup on its core. -/
def Core.evictedOf (k : Core) (w : Nat) : Tab Slot × Tab Tile × Option Arr :=
  (k.evSlots.filter fun p => p.1 / 32 == w, k.evTiles.filter fun p => p.1 / 16 == w, k.evArr.find w)

/-- Whether a holder of another bank gives a resource up to a restore (R168): nothing under way names it. -/
def State.yields (s : State) (bank : Nat) (h : Option Nat) : Bool :=
  match h with
  | none => true
  | some w => ((s.wgs.find w).map fun g => g.bank != bank).getD true && s.settled w

/-- Whether a workgroup's evicted resources can be restored; an ended workgroup's array is, for its queued commands (R194). -/
def State.restorable (s : State) (core w : Nat) : Bool :=
  match s.wgs.find w with
  | none => false
  | some g =>
    let k := s.core core
    let (ss, ts, a) := k.evictedOf w
    if g.st = .ended then g.core == core && a.isSome && k.arr.holder.isNone && !(s.pending.contains (.arrayEvictionDone core))
    else
      g.core == core && g.bank == k.act && !k.swapping &&
        (g.st == .restoring || (g.st == .resident && (!ss.isEmpty || !ts.isEmpty || a.isSome))) &&
        ss.all (fun p => s.yields g.bank (Tab.getD k.slots {} (p.1 % 32)).claim) &&
        ts.all (fun p => (Tab.getD k.tiles {} (16 * g.bank + p.1 % 16)).claim.isNone) &&
        (a.isNone || (s.yields g.bank k.arr.holder && k.arr.st != 2))

/-- Whether a restore is served now: evictions come first (R170). -/
def State.canRestore (s : State) (core w : Nat) : Bool := s.restorable core w && !s.evicting core

/-- Whether a core's spill engine can serve a restore now. -/
def State.restoring (s : State) (core : Nat) : Bool := s.wgs.any fun p => s.restorable core p.1

/-- Whether a lane group of a swapped-out workgroup would be ready (R151). -/
def Lg.wouldRun (l : Lg) : Bool :=
  match l.status with
  | .ready | .held _ | .yielding _ => true
  | .blocked _ true => true
  | _ => false

/-- Whether a paired product that runs from the west uses a slot or tile that a workgroup claims of a core: it completes into the workgroup's
context first (R182, R190). -/
def State.slavedTo (s : State) (core w : Nat) : Bool :=
  s.cmds.any fun p => p.2.core + 1 == core && p.2.st == .running && p.2.body.followerUses.any fun u =>
    s.claimOf core (p.2.owned.headD 0) u.1 u.2.1 == some w

/-- Whether a workgroup's swap-out can end: evictions and restores on its core come first (R170). -/
def State.canLeave (s : State) (w : Nat) : Bool :=
  match s.wgs.find w with
  | none => false
  | some g => g.st == .leaving && s.settled w && !s.evicting g.core && !s.restoring g.core && !s.slavedTo g.core w

/-- SWAP_OUT_DONE (R149 steps 2 to 5). -/
def execSwapOutDone (wg : Nat) (s : State) : Out :=
  memEvent (s.canLeave wg) s fun s =>
    let s := (s.writeSpill wg).spillWg wg
    if (s.lgsOf wg).any fun p => p.2.wouldRun then
      ({ s with nseq := s.nseq + 1 }).modWg wg fun w => { w with eligible := true, eligAt := s.nseq }
    else s

/-- A workgroup's commands move with it to its new core and bank. -/
def State.moveCmds (s : State) (w core bank : Nat) : State :=
  let mine := s.cmds.filter fun p => p.2.wg == w && p.2.live && (match p.2.body with
    | .tcLd .. | .tcSt .. | .tcMcast .. | .bus .. | .rvSend .. | .amSend _ => false
    | _ => true)
  mine.foldl (fun s p =>
    let mx := (s.core p.2.core).mxq.contains p.1
    let sa := (s.core p.2.core).saq.contains p.1
    let s := s.modCore p.2.core fun k => { k with mxq := k.mxq.erase p.1, saq := k.saq.erase p.1 }
    let s := s.modCore core fun k => { k with
      mxq := if mx then k.mxq ++ [p.1] else k.mxq, saq := if sa then k.saq ++ [p.1] else k.saq }
    s.modCmd p.1 fun c => { c with core := core, bank := bank }) s

/-- The accesses of a workgroup that wait for a replay go with it to the core that takes it back (R420). -/
def State.moveAccs (s : State) (w core bank : Nat) : State :=
  { s with accs := s.accs.map fun p => (p.1, if p.2.wg ≠ w then p.2 else { p.2 with core := core, bank := bank }) }

/-- READMIT (R151, R162): an eligible workgroup is placed on a core; its waiters of `rgrow` get what they asked for. -/
def execReadmit (wg : Nat) (s : State) : Out :=
  let part := (((s.wgs.find wg).bind fun w => s.launches.find w.launch).map (·.part)).getD 15
  event (s.work part == some (.readmit wg)) s fun s =>
    match s.readmitCore wg, s.wgs.find wg with
    | some c, some g =>
      let old := g.core
      let bank := (s.core c).act
      let slot := s.freeSlot c bank
      let ev := s.core old
      let s := if old = c then s else
        let s := s.modCore old fun k => { k with
          evSlots := k.evSlots.filter fun p => p.1 / 32 != wg, evTiles := k.evTiles.filter fun p => p.1 / 16 != wg
          evArr := k.evArr.del wg }
        s.modCore c fun k => { k with
          evSlots := (ev.evSlots.filter fun p => p.1 / 32 == wg).foldl (fun t p => t.put p.1 p.2) k.evSlots
          evTiles := (ev.evTiles.filter fun p => p.1 / 16 == wg).foldl (fun t p => t.put p.1 p.2) k.evTiles
          evArr := match ev.evArr.find wg with | some a => k.evArr.put wg a | none => k.evArr }
      let s := ((s.moveCmds wg c bank).moveAccs wg c bank).modWg wg fun w => { w with
        core := c, bank := bank, slot := slot, st := .restoring, eligible := false, ousted := false, placedAt := s.nseq }
      let s := { s with nseq := s.nseq + 1 }
      { s with lgs := s.lgs.map fun (p : Nat × Lg) => (p.1, if p.2.wg ≠ wg then p.2 else
          match p.2.status with
          | .blocked (.rgrow n _ _) _ => { p.2 with grown := some n, status := .ready, parkAt := s.now }
          | .blocked _ true => { p.2 with status := .ready, parkAt := s.now }
          | .held _ => { p.2 with status := .ready, parkAt := s.now }
          | .yielding _ => { p.2 with status := .ready, parkAt := s.now }
          | _ => p.2) }
    | _, _ => s

/-! ## Restoring (R152, R168, R170) -/

/-- Puts an evicted slot back, evicting what a shadow context holds there. -/
def Core.putSlot (k : Core) (w n : Nat) (x : Slot) : Core :=
  let y := Tab.getD k.slots {} n
  let k := match y.claim with
    | some o => { k with evSlots := k.evSlots.put (32 * o + n) y }
    | none => k
  { k with slots := k.slots.put n x, evSlots := k.evSlots.del (32 * w + n) }

/-- Puts an evicted array context back, evicting a shadow context's. The chain timeout of a stall goes on from there: the model does not
count the time in which the array itself was evicted, of which the spec says nothing (log entry 70). -/
def Core.putArr (k : Core) (w : Nat) (a : Arr) (now : Nat) : Core :=
  let k := match k.arr.holder with
    | some o => { k with evArr := k.evArr.put o k.arr }
    | none => k
  { k with arr := { a with stallAt := now }, evArr := k.evArr.del w }

/-- CONTEXT_RESTORE_DONE (R152, R168, R170): evicted slots, tiles and the array are back; a re-admitted workgroup is resident. -/
def execContextRestoreDone (core wg : Nat) (s : State) : Out :=
  event (s.canRestore core wg) s fun s =>
    match s.wgs.find wg with
    | none => s
    | some g =>
      let (ss, ts, a) := (s.core core).evictedOf wg
      let s := s.modCore core fun k =>
        let k := ss.foldl (fun k p => k.putSlot wg (p.1 % 32) p.2) k
        let k := ts.foldl (fun k p => { k with
          tiles := k.tiles.put (16 * g.bank + p.1 % 16) p.2, evTiles := k.evTiles.del p.1 }) k
        match a with
        | some a => k.putArr wg a s.now
        | none => k
      if g.st = .ended then s.reap core
      else (s.raisePts core g.pts).modWg wg fun w => { w with st := .resident, spill := none }

end Sys2Proof.Machine
end

