-- ==== Sys2Proof/Machine/EvHost.lean ====
section
/-! DEFINITION. What the host and peer packages do to memory and streams (R239, R242 to R246, R249). -/

namespace Sys2Proof.Machine

/-! ## Accesses from outside -/

/-- Whether an access from outside can be performed at a line now: it lies in the device's memory, no engine owns it, and
its home can be reached from the host port's die 0 (R239, R437); a peer's is judged alike (log entry 71). -/
def State.canReach (s : State) (pa : Nat) : Bool :=
  (match s.paKind pa with | .hbm _ => true | .cxl _ => !s.fenced pa | _ => false) && !s.locked (pa / 128) &&
    !s.cutOff 0 (s.homePort pa).die

/-- A write of bytes of one line from outside at the home slice, with the timestamp that its request carries (R111). -/
def State.writeWord (s : State) (pa : Nat) (bs : List Byte) (pts : Nat := 0) : State :=
  (s.devWrite pa bs pts).2

/-- A write from outside whose words may bring poison with them (R422, R429). -/
def State.writeOuter (s : State) (pa : Nat) (bs : List Byte) (pts : Nat := 0) : State :=
  let (k, s) := s.draw
  let s := s.writeWord pa bs pts
  if Config.bearsPoison k then (wordsOf pa bs.length).foldl (fun s w => s.setPois w true) s else s

/-- A store of the host: its timestamp is kept for the doorbells that follow (R241). -/
def State.hostWrite (s : State) (pa : Nat) (bs : List Byte) : State :=
  let s := s.writeOuter pa bs
  { s with hostPts := max s.hostPts (s.dirOf (pa / 128)).wts }

/-- HOST_ACCESS (R239): once no engine owns the line (R132), a load or store of 8 bytes by the control node. Functions 1024 and above stand for the partition manager,
whose accesses are not checked (R18). -/
def execHostAccess (vf pa : Nat) (write : Bool) (value : BitVec 64) (s : State) : Out :=
  let pa := s.canonPa (pa / 8 * 8)
  let part := s.vfPart vf
  event (s.hostUp && s.canReach pa) s fun s =>
    if vf < 1024 ∧ !(s.vfEn vf && s.partEn part && s.mapOk part pa write) then s.gateRec part vf 0 0 0 0 pa true
    else if write then s.hostWrite pa (natLe 8 value.toNat)
    else s.publishLine (pa / 128)

/-- HOST_SNOOP (R239): the owners of a host line publish it. -/
def execHostSnoop (line : Nat) (s : State) : Out :=
  event (s.hostUp && s.paKind line == .host && !s.locked (line / 128)) s fun s => s.publishLine (line / 128)

/-- The local partition that the admission table gives a remote one (R246, R467): the lowest entry that matches. -/
def State.admission (s : State) (spkg spart : Nat) : Option Nat :=
  ((List.range 64).find? fun i =>
    let w := s.win' (oPAD i)
    bit w 12 && bits w 0 4 == spkg && bits w 4 4 == spart).map fun i => s.winBits (oPAD i) 8 4

/-- The operations of R313 by their numbers. -/
def atomOps : List AtomOp := [.add, .fadd, .and, .or, .xor, .minZ, .minS, .maxZ, .maxS, .exch, .cas]

/-- A peer's access performed at the home slice (R110, R111, R119, R246). -/
def State.remote (s : State) (pa : Nat) (op : RemoteOp) (pts : Nat) : State :=
  let ln := pa / 128
  match op with
  | .load =>
    let s := s.publishLine ln
    let d := s.dirOf ln
    (s.setDir ln { d with rts := max d.rts (max (d.wts + 16) (pts + 16)) }).keepL2 ln false
  | .store value => s.writeOuter pa (natLe 8 value.toNat) pts
  | .atomic fn wide value cmp =>
    let n := if wide then 8 else 4
    let (s, bs, bad) := s.devRead pa n
    let new := (atomOps.getD fn .add).new n (leNat bs) (value.toNat % 2 ^ (8 * n)) (cmp.toNat % 2 ^ (8 * n))
    if bad then (s.stamp ln pts).2.keepL2 ln true else s.writeWord pa (natLe n new) pts

/-- Whether an operation of a peer writes. -/
def remoteWrites : RemoteOp → Bool
  | .load => false
  | _ => true

/-- The address that a peer's access reaches: 8-byte accesses and the 4-byte atomics are aligned. -/
def State.remoteAt (s : State) (pa : Nat) (op : RemoteOp) : Nat :=
  let n := match op with | .atomic _ false _ _ => 4 | _ => 8
  s.canonPa (pa / n * n)

/-- REMOTE_ACCESS (R246): a peer's access, with the timestamp that it carries, is admitted and performed once no engine owns the line
(R132). -/
def execRemoteAccess (spkg spart pa : Nat) (op : RemoteOp) (pts : Nat) (s : State) : Out :=
  let pa := s.remoteAt pa op
  event (s.winBits oDOM 4 1 == 1 && decide (spkg < 16 ∧ spart < 16) && (match s.paKind pa with | .hbm _ => true | _ => false) &&
      s.canReach pa) s fun s =>
    match s.admission spkg spart with
    | none => s.gateRec 15 0 0 0 0 0 pa false
    | some part =>
      if !(s.partEn part && s.mapOk part pa (remoteWrites op)) then s.gateRec part 0 0 0 0 0 pa false
      else s.remote pa op pts

/-! ## Stream segments (R243, R244) -/

/-- Whether a segment's shape is a segment's. -/
def State.canSegment (s : State) (vf q frame off : Nat) (len : Nat) : Bool :=
  s.hostUp && decide (vf < 1024 ∧ q < 8 ∧ frame < 2 ^ 32 ∧ off % 64 = 0 ∧ len % 64 = 0 ∧ 0 < len ∧ len ≤ 4096)

/-- Whether a frame's deadline has passed (R244). -/
def State.expired (s : State) (vf q : Nat) (f : Frame) : Bool := decide (f.topen + s.sqDeadline vf q ≤ s.time)

/-- Whether a frame that is not open may be opened (R243). -/
def State.canOpen (s : State) (vf q frame : Nat) : Bool :=
  let x := s.stream vf q
  !x.eos && x.closed.all (fun f => decide (f < frame)) && !(x.undone.any fun f => decide (f + s.sqSlots vf q ≤ frame + 1))

/-- What a queue does with a segment (R243): 0 it drops it, 1 it is late, 2 it is admitted. -/
def State.segmentFate (s : State) (vf q frame off len : Nat) : Nat :=
  let x := s.stream vf q
  if !s.sqOn vf q || 64 * s.sqUnits vf q < off + len then 0
  else if x.closed.contains frame || ((x.frames.find frame).map (s.expired vf q)).getD false then 1
  else if (x.frames.find frame).isNone && !s.canOpen vf q frame then 0
  else 2

/-- Whether an admitted segment waits: its translation reads a table line that an engine owns (R132). -/
def State.segmentWaits (s : State) (vf q frame off len : Nat) : Bool :=
  s.canSegment vf q frame off len && s.segmentFate vf q frame off len == 2 && !s.pk.stall &&
    (s.unitAddrs vf q frame ((List.range (len / 64)).map (off / 64 + ·))).1.pk.stall

/-- An admitted segment opens its frame on its arrival, and stamps it (R243). -/
def State.openFrame (s : State) (vf q frame : Nat) : State :=
  let x := s.stream vf q
  if (x.frames.find frame).isSome then s
  else s.setStream vf q { x with frames := x.frames.put frame { topen := s.time } }

/-- STREAM_SEGMENT (R243): a segment is admitted when it arrives; units of it that meet a line which an engine owns are written after the
engine, in the order of their segments (R132). -/
def execStreamSegment (vf q frame off : Nat) (data : List (BitVec 8)) (s : State) : Out :=
  event (s.canSegment vf q frame off data.length) s fun s =>
    let drop := fun (s : State) => s.countSq vf (oSQL q) 32
    match s.segmentFate vf q frame off data.length with
    | 0 => drop s
    | 1 => s.countSq vf (oSQL q) 0
    | _ =>
      if s.segmentWaits vf q frame off data.length then s.openFrame vf q frame else
      let us := (List.range (data.length / 64)).map (off / 64 + ·)
      match s.unitAddrs vf q frame us with
      | (s, as) =>
        if as.any fun p => p.2.isNone then drop s else
        let s := s.openFrame vf q frame
        let f := ((s.stream vf q).frames.find frame).getD { topen := s.time }
        let (s, pts) := s.putUnits vf q frame f.pts (as.filterMap fun a =>
          a.2.map fun p => ⟨frame, p.1, p.2, (data.drop (64 * (a.1 - off / 64))).take 64⟩)
        let units := f.units ++ us.filter fun u => !(f.units.contains u)
        let s := s.setStream vf q { s.stream vf q with frames := (s.stream vf q).frames.put frame { f with units := units, pts := pts } }
        if units.length = s.sqUnits vf q then s.closeFrame vf q frame false units.length pts else s

/-- Whether a frame closes with loss now (R244): its deadline has passed, no frame of its queue has an earlier one. -/
def State.canExpire (s : State) (vf q frame : Nat) : Bool :=
  match (s.stream vf q).frames.find frame with
  | none => false
  | some f =>
    decide (q < 8) && s.expired vf q f && !((s.stream vf q).frames.any fun p => decide (p.2.topen < f.topen))

/-- The first frame of a queue, if any, that closes with loss now. -/
def State.overdue (s : State) : Option (Nat × Nat × Nat) :=
  s.streams.findSome? fun p => (p.2.frames.find? fun f => s.canExpire (p.1 / 8) (p.1 % 8) f.1).map fun f => (p.1 / 8, p.1 % 8, f.1)

/-- FRAME_DEADLINE (R244): a frame closes with loss at its deadline, its missing units written with zero, as a segment's are. -/
def execFrameDeadline (vf q frame : Nat) (s : State) : Out :=
  match (s.stream vf q).frames.find frame with
  | none => .next s
  | some f =>
    event (s.canExpire vf q frame) s fun s =>
      match s.unitAddrs vf q frame ((List.range (s.sqUnits vf q)).filter fun u => !(f.units.contains u)) with
      | (s, as) =>
        let (s, pts) := s.putUnits vf q frame f.pts (as.filterMap fun a => a.2.map fun p => ⟨frame, p.1, p.2, List.replicate 64 0⟩)
        s.closeFrame vf q frame true f.units.length pts

/-- Where the descriptor at the head of a queue's order goes, once its frame's bytes are written and its pipe has room: the pipe and the element's address. -/
def State.descAt (s : State) (vf q : Nat) : Option (StreamDesc × Nat × Pipe × Nat) :=
  match (s.stream vf q).ready.head?, s.sqPipe vf q with
  | some d, some (n, p) =>
    let w := Waiter.queue vf (8 + q)
    if (s.stream vf q).held.any (·.frame == d.frame) || p.full || p.left == 0 || p.size != 32 || (s.preqs.any fun r => r.2.by_ == w) || s.s2w.any fun x => x.2.2 == w then none
    else some (d, n, p, p.at (p.head + p.len))
  | _, _ => none

/-- Whether a queue's next descriptor can be pushed, or can ask for its page. -/
def State.canDescribe (s : State) (vf q : Nat) : Bool :=
  match s.descAt vf q with
  | none => false
  | some (_, _, p, va) =>
    match s.devXlate (s.vfPart vf) p.vf va 3 with
    | (s, .ok e) => s.sliceErr (s.vfPart vf) (e.addr va) true == .none && !s.locked (e.addr va / 128)
    | (_, .bad _) => false
    | _ => true

/-- DESCRIPTOR_PUSH (R244, R46): the descriptors of a queue are pushed in the order in which its frames closed. -/
def execDescriptorPush (vf q : Nat) (s : State) : Out :=
  match s.descAt vf q with
  | none => .next s
  | some (d, n, p, va) =>
    memEvent (s.canDescribe vf q) s fun s =>
      let part := s.vfPart vf
      match s.devXlate part p.vf va 3 with
      | (s, .ft t) => (s.pageReq p.vf part va 3 t.pool t.lvl (.queue vf (8 + q))).2
      | (s, .s2 ipa t) => (s.s2Rec part p.vf 0 0 0 ipa va t true).s2Wait part ipa (.queue vf (8 + q))
      | (s, .bad _) => s
      | (s, .ok e) =>
        let s := s.pushAt part n p (e.addr va, e.kid) d.image d.pts (some (8 * vf + q, d.frame))
        let x := s.stream vf q
        (s.setStream vf q { x with ready := x.ready.tail }).finishStream vf q

/-- STREAM_ENABLE (R242): a write of `SQC` that sets en. -/
def execStreamEnable (vf q : Nat) (value : BitVec 64) (s : State) : Out :=
  event (s.hostUp && decide (vf < 1024 ∧ q < 8) && bit value 56) s fun s => s.writeSqc vf q value

/-- STREAM_EOS (R244): a write of `SQC` that keeps its fields and writes eos. -/
def execStreamEos (vf q : Nat) (s : State) : Out :=
  event (s.hostUp && decide (vf < 1024 ∧ q < 8)) s fun s => s.writeSqc vf q (s.vr vf (oSQC q) ||| 0x0200000000000000#64)

/-! ## HBM4 data coding (R249) -/

/-- DBI_WINDOW (R249): a channel, numbered as `hbmChannel` places lines in channels (R247), uses the code with fewer toggles next; `dbi`
lists the channels that use the low-toggle code. -/
def execDbiWindow (chan inversion lowToggle : Nat) (s : State) : Out :=
  event (decide (chan < 256)) s fun s =>
    if lowToggle < inversion then { s with dbi := ((s.dbi.filter fun c => c != chan) ++ [chan]).sortNat }
    else if inversion < lowToggle then { s with dbi := s.dbi.filter fun c => c != chan }
    else s

end Sys2Proof.Machine
end

