-- ==== Sys2Proof/Machine/EvSampling.lean ====
section
/-! DEFINITION. The sampling arrays at work (R101, R197 to R207, R355 to R359, R444 to R447). -/

namespace Sys2Proof.Machine

/-! ## The decision (R101, R197, R199) -/

/-- 2^96 · e^(n/256) by its series, each term rounded down. -/
def expSeries (n : Nat) : Nat → Nat → Nat → Nat → Nat
  | 0, _, _, acc => acc
  | fuel + 1, i, t, acc => let u := t * n / (256 * i); expSeries n fuel (i + 1) u (acc + u)

/-- The sigmoid table T (R101). -/
def sigmoid (q : Int) : Nat :=
  let one := 2 ^ 96
  let e := expSeries q.natAbs 80 1 one one
  let t := (65536 * e * 2 + (one + e)) / (2 * (one + e))
  if q < 0 then 65536 - t else t

def rotl32 (x : Word) (n : Nat) : Word := x.rotateLeft n

/-- The keyed counter function G (R199). -/
def greyDraw (key : DWord) (chain : BitVec 16) (node s p : Nat) : Nat :=
  let rcs : List Word := [0x9E3779B9, 0x3C6EF372, 0xDAA66D2B, 0x78DDE6E4, 0x1715609D, 0xB54CDA56]
  let a : Word := BitVec.ofNat 32 s
  let b : Word := BitVec.ofNat 32 (node ||| (p <<< 24))
  let c : Word := key.truncate 32
  let d : Word := (key >>> 32).truncate 32 ^^^ chain.setWidth 32
  let (a, _, c, _) := rcs.foldl (fun (x : Word × Word × Word × Word) rc =>
    let (a, b, c, d) := x
    let a := a + b + rc
    let d := rotl32 (d ^^^ a) 16
    let c := c + d
    let b := rotl32 (b ^^^ c) 12
    let a := a + b
    let d := rotl32 (d ^^^ a) 8
    let c := c + d
    (a, rotl32 (b ^^^ c) 7, c, d)) (a, b, c, d)
  ((a ^^^ c) >>> 16).toNat

/-- The probability index of an input (R197). -/
def decideQ (beta : Nat) (i : Int) : Int := min (max (((beta : Int) * i) / 256) (-2048)) 2047

/-- Edge fields (R192). -/
def edgeCpl (w : Word) : Int := (w.truncate 8 : BitVec 8).toInt
def edgeSrc (w : Word) : Nat := bits w 8 11
def edgeGhost (w : Word) : Bool := bit w 19

def spin (b : Bool) : Int := if b then 1 else -1

/-- What a ghost slot shows to sweep `sw` (R200 to R202): unbound slots read -1. -/
def Arr.gval (a : Arr) (g : Nat) : Bool :=
  let x := Tab.getD a.ghosts {} g
  if x.src.isNone then false
  else if cfgLock a.cfg then
    ((x.ring.find? fun p => p.1 == a.sw - cfgLim a.cfg).map (·.2)).getD false
  else x.val

/-- The inputs of nodes from their edges, nodes rising. -/
def Arr.inputs (a : Arr) (mask : Nat) : Tab Int :=
  (a.edges.foldl (fun (acc : List (Nat × Int)) e =>
    let n := e.1 / 32
    let m := if edgeGhost e.2 then a.gval (edgeSrc e.2 % 256) else mask.testBit (edgeSrc e.2)
    let x := edgeCpl e.2 * spin m
    match acc with
    | (k, y) :: r => if k = n then (k, y + x) :: r else (n, x) :: acc
    | [] => [(n, x)]) []).reverse

/-- The states as a mask. -/
def Arr.mask (a : Arr) : Nat := a.m.foldl (fun m n => m ||| 2 ^ n) 0

/-- Updates the class of position `p` (R197, R198); `draw` numbers the free draws from `n0`. Answers the draws used. -/
def Arr.class_ (a : Arr) (p n0 : Nat) : Arr × Nat :=
  let ord := orderOf a.ord
  let colour := ord.getD p 0
  let nodes := (List.range 2048).filter fun n => (Tab.getD a.col 0 n).toNat == colour && !a.clamp.contains n
  let mask := a.mask
  let ins := a.inputs mask
  let up := nodes.zipIdx.filterMap fun (n, i) =>
    let q := decideQ (cfgBeta a.cfg) ((Tab.getD a.h 0 n).toInt + Tab.getD ins 0 n)
    let u := if cfgGrey a.cfg then greyDraw a.key (cfgChain a.cfg) (2048 * cfgCslot a.cfg + n) a.sw p
      else (Config.white (n0 + i)).toNat % 65536
    if u < sigmoid q then some n else none
  ({ a with m := (a.m.filter fun n => !nodes.contains n).merge up, pos := p + 1 },
    if cfgGrey a.cfg then 0 else nodes.length)

/-- Updates classes until position `k`. -/
def State.classesTo (s : State) (core : Nat) : Nat → Nat → State
  | 0, _ => s
  | fuel + 1, k =>
    let a := s.arr core
    if k ≤ a.pos then s else
    let (a, n) := a.class_ a.pos s.nfree
    State.classesTo ({ s with nfree := s.nfree + n }.modArr core fun _ => a) core fuel k

/-! ## Ghost updates (R200 to R202) -/

/-- The array context of a workgroup: its core, and whether it is evicted. -/
def State.arrOf (s : State) (wg : Nat) : Option (Nat × Bool) :=
  match s.cores.find? fun p => p.2.arr.holder == some wg with
  | some p => some (p.1, false)
  | none => (s.cores.find? fun p => (p.2.evArr.find wg).isSome).map fun p => (p.1, true)

/-- The completed sweeps of a workgroup's array. -/
def State.swOf (s : State) (wg : Nat) : Nat :=
  match s.arrOf wg with
  | some (c, false) => (s.arr c).sw
  | some (c, true) => ((Tab.find (s.core c).evArr wg).map (·.sw)).getD 0
  | none => 0

/-- The array context of a workgroup, and a change of it, resident or evicted. -/
def State.arrOfWg (s : State) (wg : Nat) : Arr :=
  match s.arrOf wg with
  | some (c, false) => s.arr c
  | some (c, true) => (Tab.find (s.core c).evArr wg).getD {}
  | none => {}
def State.modArrOf (s : State) (wg : Nat) (f : Arr → Arr) : State :=
  match s.arrOf wg with
  | some (c, false) => s.modArr c f
  | some (c, true) => s.modCore c fun k => { k with evArr := k.evArr.modify wg f }
  | none => s

/-- The src 7 record of ghost traffic of an array that a gate refuses (R16, R410). -/
def State.ghostRefused (s : State) (core : Nat) (holder : Option Nat) (info : Nat) : State :=
  match holder.bind s.wgs.find with
  | none => s
  | some w =>
    match s.launches.find w.launch with
    | none => s
    | some l => s.gateRec l.part l.vf core w.slot 0 0 info true

/-- Sends the updates that an export may send, its oldest first: the destination has come far enough (R202), the first link of
the way has a permit (R205, R213). A closed gate refuses an update (R16). -/
def State.flushQueue (s : State) (core : Nat) (a : Arr) (e : Export) : List (Nat × Bool) → State × List (Nat × Bool)
  | [] => (s, [])
  | q :: r =>
    let dst := ((s.arrOf e.owner).map (·.1)).getD e.core
    if cfgLock a.cfg && !decide (q.1 + cfgLim a.cfg ≤ s.swOf e.owner + 7) then (s, q :: r)
    else if !s.passes (s.partOf core) core dst then (s.ghostRefused core a.holder e.node).flushQueue core a e r
    else
      let u : GhostUpd := ⟨e.slot, core, e.node, q.1, q.2, e.owner, a.holder.getD 0⟩
      if !s.canSend (.ghostUpdate dst u) (.core core) (.core dst) .ghost then (s, q :: r)
      else (s.sendNow (.ghostUpdate dst u) (.core core) (.core dst) .ghost 32).flushQueue core a e r

/-- The core at which an export's destination stands. -/
def State.exportCore (s : State) (e : Export) : Nat := ((s.arrOf e.owner).map (·.1)).getD e.core

/-- Sends a stop notice of an array to a core (R444), which a closed gate refuses (R16). -/
def State.sendNotice (s : State) (core : Nat) (a : Arr) (chain : BitVec 16) (c : Nat) : State :=
  if s.passes (s.partOf core) core c then s.send (.stopNotice c chain core) (.core core) (.core c) .ghost 16
  else s.ghostRefused core a.holder 0

/-- Sends the stop notices of an array whose destinations have no update held back any more (R444). -/
def State.flushNotices (s : State) (core : Nat) : State :=
  let a := s.arr core
  let free := fun (c : Nat) => a.exports.all fun e => s.exportCore e != c || e.queue.isEmpty
  ((a.exports.filterMap fun e => e.notice.map fun ch => (s.exportCore e, ch)).eraseDups.filter fun p => free p.1).foldl (fun (s : State) p =>
    let s := s.modArr core fun x => { x with exports := x.exports.map fun e => if s.exportCore e = p.1 then { e with notice := none } else e }
    s.sendNotice core a p.2 p.1) s

def State.flushExport (s : State) (core : Nat) (a : Arr) (e : Export) : State × Export :=
  let (s, q) := s.flushQueue core a e e.queue
  (s, { e with queue := q })

def State.flushExports (s : State) (core : Nat) (a : Arr) : List Export → State × List Export
  | [] => (s, [])
  | e :: r =>
    let (s, e) := s.flushExport core a e
    let (s, r) := s.flushExports core a r
    (s, e :: r)

/-- Sends every update and every stop notice that may go, from every array that is not evicted. -/
def State.flushGhosts (s : State) : State :=
  (s.cores.filter fun p => p.2.arr.exports.any fun e => !e.queue.isEmpty || e.notice.isSome).foldl (fun s p =>
    let a := s.arr p.1
    let (s, es) := s.flushExports p.1 a a.exports
    (s.modArr p.1 fun a => { a with exports := es }).flushNotices p.1) s

/-- Queues the current state of each exported node, stamped (R198, R200). -/
def Arr.exportAll (a : Arr) (stamp : Nat) : Arr :=
  { a with exports := a.exports.map fun e => { e with queue := e.queue ++ [(stamp, a.m.contains e.node)] } }

/-! ## Sweeps -/

/-- The bound ghost slots that a sweep reads (R201). -/
def Arr.reads (a : Arr) : List Nat :=
  let ord := orderOf a.ord
  let gs := a.edges.filterMap fun e =>
    if edgeGhost e.2 && edgeCpl e.2 != 0 && ord.contains (Tab.getD a.col 0 (e.1 / 32)).toNat && !a.clamp.contains (e.1 / 32)
    then some (edgeSrc e.2 % 256) else none
  gs.eraseDups.filter fun g => (Tab.getD a.ghosts {} g).src.isSome

/-- Whether a slot lets sweep `sw` begin (R201, R202). -/
def Arr.slotOk (a : Arr) (g : Nat) : Bool :=
  let x := Tab.getD a.ghosts {} g
  if cfgLock a.cfg then x.ring.any fun p => p.1 == a.sw - cfgLim a.cfg
  else (x.stamp.map fun t => decide (a.sw ≤ t + cfgLim a.cfg)).getD false

/-- The lowest slot that holds the sweep back. -/
def Arr.stalls (a : Arr) : Option Nat := (a.reads.sortNat).find? fun g => !a.slotOk g

/-- Notes whether a running `sa.swp` stalls (R201); gslot names the lowest slot that held it back when the stall began (R207, R458). -/
def State.judgeStall (s : State) (core : Nat) : State :=
  s.modArr core fun a =>
    if a.swp.isNone || !(a.st == 1 || a.st == 3) then a else
    match a.stalls with
    | none => a
    | some g => if a.st = 3 then a else { a with st := 3, gslot := g, stallAt := s.now, stalled := 0 }

/-- Whether the chain timeout of a stalled array is suspended: the source of a slot that holds its sweep back is evicted (R168, R201). -/
def State.suspended (s : State) (a : Arr) : Bool :=
  a.reads.any fun g => !a.slotOk g && ((s.arrOf (Tab.getD a.ghosts {} g).owner).map (·.2)).getD false

/-- The cycles of a stall that count for its chain timeout, as far as now. -/
def State.stallTime (s : State) (a : Arr) : Nat := if s.suspended a then a.stalled else a.stalled + (s.now - a.stallAt)

/-- Counts the stalls of the resident arrays up to now; `settle` does so before whatever changes what they wait for. -/
def State.clockStalls (s : State) : State :=
  { s with cores := s.cores.map fun (p : Nat × Core) =>
    (p.1, if p.2.arr.st = 3 then { p.2 with arr := { p.2.arr with stalled := s.stallTime p.2.arr, stallAt := s.now } } else p.2) }

/-- Whether the next sweep of an array can begin. -/
def Arr.canSweep (a : Arr) : Bool := a.swp.isSome && (a.st == 1 || a.st == 3) && a.stalls.isNone

/-- Whether a core's array pauses at its sweep boundary for its eviction (R168) or for its workgroup's swap-out, which no access command
behind the sweep awaits (R149, R205). -/
def State.pauses (s : State) (core : Nat) : Bool :=
  s.pending.contains (.arrayEvictionDone core) ||
    (match (s.arr core).holder with
     | none => false
     | some w => ((s.wgs.find w).map fun g => g.st == .leaving).getD false &&
        !(s.cmds.any fun p => p.2.wg == w && p.2.live && p.2.body.isAccess))

/-- Whether the next sweep of a core's array begins now: its core runs (R13), and nothing asks it to pause. -/
def State.canSweep (s : State) (core : Nat) : Bool :=
  (s.arr core).canSweep && s.bhSt (bhOf core) == 3 && !s.pauses core

/-- The probes of a sweep (R206): lane i takes the free outcome n0 + i. -/
def Mon.probe (m : Mon) (n0 : Nat) : Mon :=
  { m with probes := m.probes + 1
           counts := (List.range 256).map fun i => (i, Tab.getD m.counts 0 i + b2n (Config.probe (n0 + i))) }

/-- SWEEP_BEGIN (R201). -/
def execSweepBegin (core : Nat) (s : State) : Out :=
  event (s.canSweep core) s fun s =>
    let n := s.nfree
    let s := { s with nfree := n + 256 }.modCore core fun k =>
      { k with arr := { k.arr with st := 2, pos := 0 }, mon := k.mon.probe n }
    let s := if 65536 ≤ (s.core core).mon.probes then s.postOnce (.monitorWindowClose core) else s
    s.post (.sweepEnd core)

/-- MONITOR_WINDOW_CLOSE (R206, R207): the window is judged; a biased window in WHITE mode acts at the sweep's end (R444).
Of lanes that tie for the largest distance `wlane` is the lowest (log entry 70). -/
def execMonitorWindowClose (core : Nat) (s : State) : Out :=
  fire (.monitorWindowClose core) s fun s =>
    s.modCore core fun k =>
      let m := k.mon
      let dev := fun i => (((Tab.getD m.counts 0 i : Nat) : Int) - 32768).natAbs
      let lane := (List.range 256).foldl (fun b i => if dev b < dev i then i else b) 0
      let biased := decide (m.thr.toNat < dev lane)
      { k with
        mon := { m with wins := m.wins + 1, wlane := lane, wcnt := Tab.getD m.counts 0 lane, biased := biased, probes := 0
                        counts := [] }
        arr := if biased && !cfgGrey k.arr.cfg && k.arr.holder.isSome then { k.arr with biasDue := true } else k.arr }

/-- Sends stop notices to an array's subscribers and sources (R444): a destination for which updates are still held back gets its notice
behind them (`State.flushNotices`). -/
def State.notify (s : State) (core : Nat) (a : Arr) : State :=
  let late := (a.exports.filter fun e => !e.queue.isEmpty).map s.exportCore
  let s := match a.holder with
    | some w => s.modArrOf w fun x => { x with exports := x.exports.map fun e => if late.contains (s.exportCore e) then { e with notice := some (cfgChain a.cfg) } else e }
    | none => s
  let srcs := a.ghosts.filterMap fun g => g.2.src.map fun p => ((s.arrOf g.2.owner).map (·.1)).getD p.1
  ((a.exports.map s.exportCore ++ srcs).eraseDups.filter fun c => !late.contains c).foldl (fun s c => s.sendNotice core a (cfgChain a.cfg) c) s

/-- Ends a running `sa.swp` with a cause. -/
def State.endSwp (s : State) (core : Nat) (cause : Cause) : State :=
  match (s.arr core).swp with
  | none => s
  | some id => (s.modArr core fun a => { a with swp := none }).endCmd id cause

/-- The src 11 record of an array (R444, R447). -/
def State.arrayRec (s : State) (core : Nat) (cause : Cause) : State :=
  let a := s.arr core
  match (a.holder.bind s.wgs.find) with
  | none => s
  | some w =>
    match s.launches.find w.launch with
    | none => s
    | some l => s.tenantRec l.vf [recHead cause 11 l.part l.vf core w.slot 0 (bhOf core), 0, (cfgChain a.cfg).toNat, s.time]

/-- A counted sweep's counts (R204). -/
def Arr.count (a : Arr) : Arr :=
  let cnt := a.m.foldl (fun t n => let x := Tab.getD t 0 n; if x = 0xFFFF#16 then t else t.put n (x + 1)) a.cnt
  { a with cnt := cnt, csat := a.csat || a.m.any fun n => Tab.getD a.cnt 0 n == 0xFFFF#16 }

/-- SWEEP_END (R198, R444, R445): the remaining classes, then sw, counts and updates; the command goes on or ends. -/
def execSweepEnd (core : Nat) (s : State) : Out :=
  if s.pending.contains (.monitorWindowClose core) then .next s else
  fire (.sweepEnd core) s fun s =>
    let a := s.arr core
    match a.swp.bind s.cmds.find, a.swp with
    | some c, some id =>
      match c.body with
      | .saSwp left cnt =>
        let s := s.classesTo core 8 (orderOf a.ord).length
        let s := s.modArr core fun a =>
          let a := { a with sw := (a.sw + 1) % 2 ^ 32, st := 1 }
          let a := if cnt then a.count else a
          a.exportAll a.sw
        let s := s.flushGhosts
        let a := s.arr core
        if a.biasDue then
          let s := s.modCore core fun k =>
            { k with arr := { k.arr with st := 5, biasDue := false, noticed := true }, mon := { k.mon with lockout := true } }
          (((s.arrayRec core .bias).notify core a).endSwp core .bias)
        else if a.noticed then
          ((s.modArr core fun a => { a with st := 4 }).notify core a).endSwp core .bias
        else if left ≤ 1 then (s.modArr core fun a => { a with swp := none }).finishCmd id c .none
        else (s.modCmd id fun x => { x with body := .saSwp (left - 1) cnt }).judgeStall core
      | _ => s
    | _, _ => s

/-- Whether an array's stall has lasted for the chain timeout. -/
def State.stallOver (s : State) (a : Arr) : Bool :=
  a.st == 3 && a.swp.isSome && a.stalls.isSome && !s.suspended a && decide (cfgTimeout a.cfg ≤ s.stallTime a)

/-- CHAIN_TIMEOUT (R447): a stall passes the chain timeout, which is suspended while a source that it waits for is evicted (R168). -/
def execChainTimeout (core : Nat) (s : State) : Out :=
  event (s.stallOver (s.arr core)) s fun s =>
    let s := s.arrayRec core .stale
    (s.modArr core fun a => { a with stale := true, st := 1 }).endSwp core .stale

/-! ## Queue commands -/

/-- The array as a take leaves it (R194). -/
def takenArr (wg : Nat) (cfg ord : DWord) : Arr := { holder := some wg, st := 1, cfg := cfg, ord := ord }

/-- Whether the next command of a workgroup can start on its running core (R205, R13): a take waits for the array, others for their
context; none starts in a context about to be evicted (R168). -/
def State.canSa (s : State) (id : Nat) (c : Cmd) : Bool :=
  c.st == .queued && (((s.saCmds c.core c.wg).head?).map (·.1)) == some id && s.bhSt (bhOf c.core) == 3 &&
    (if c.body.isTake then (s.arr c.core).holder.isNone
     else (s.arr c.core).holder == some c.wg && !(s.pending.contains (.arrayEvictionDone c.core)))

/-- Whether the next command of a workgroup has no array to act on, as the take that its issue counted on has failed (R338). -/
def State.lostSa (s : State) (id : Nat) (c : Cmd) : Bool :=
  c.st == .queued && (((s.saCmds c.core c.wg).head?).map (·.1)) == some id && s.bhSt (bhOf c.core) == 3 &&
    !c.body.isTake && (s.arrOf c.wg).isNone

/-- Completes an unbind of the slot in the array. -/
def Arr.unbind (a : Arr) (g : Nat) : Arr := { a with ghosts := a.ghosts.del g }

def CmdBody.ghostWord : CmdBody → Word
  | .saGhost w _ => w
  | _ => 0
def CmdBody.ghostPred : CmdBody → Nat
  | .saGhost _ p => p
  | _ => 0

/-- A subscription, unbind or answer that is lost on its way (R357): the command completes with the deferred flag. An entry that the source
has for the slot stays there, until the next subscription or unbind for it, or the holder's end or reconfiguration. -/
def State.ghostLost (s : State) (cmd : Nat) (cause : Cause := .deferred) : State :=
  match s.cmds.find cmd with
  | none => s
  | some c =>
    let g := bits c.body.ghostWord 24 8
    let s := s.modArrOf (c.owned.headD 0) fun a => { a with
      exports := a.exports.map fun e => if e.owner = c.wg ∧ e.slot = g then { e with stale := true } else e }
    ((s.modArrOf c.wg fun a => a.unbind g).modLg c.lg fun l => l.setQ c.body.ghostPred 0).endCmd cmd cause

/-- Sends a message of a `sa.ghost` between its destination's core and a source's; a closed gate refuses it, and the command fails with
`gate` (R16, R410). -/
def State.ghostSend (s : State) (id : Nat) (e : Ev) (a b : Nat) : State :=
  match s.cmds.find id with
  | none => s
  | some c =>
    if s.passes c.part a b then s.send e (.core a) (.core b) (match e with | .ghostAnswer _ _ => .rsp | _ => .ghost) 16 else (s.cmdGate c c.body.ghostWord.toNat).ghostLost id .gate

/-- The core of the source from which a `sa.ghost` unbinds its slot: where the array of the holder that the command keeps stands. -/
def State.oldSource (s : State) (c : Cmd) : Nat := ((s.arrOf (c.owned.headD 0)).map (·.1)).getD (ghostCore c.body.ghostWord)

/-- Starts a `sa.ghost` (R200, R357): a slot that is bound is first unbound, and the source's answer to that awaited. The command keeps
the number of the old source's holder. -/
def State.startGhost (s : State) (id : Nat) (c : Cmd) (w : Word) (p : Nat) : State :=
  let g := bits w 24 8
  let x := Tab.getD (s.arr c.core).ghosts {} g
  let s := s.modCmd id fun y => { y with st := .running, owned := [x.owner] }
  match x.src with
  | some q =>
    let s := if ghostUnb w then s else s.modArr c.core fun a => a.unbind g
    s.ghostSend id (.ghostUnsubscribe id) c.core (((s.arrOf x.owner).map (·.1)).getD q.1)
  | none =>
    if ghostUnb w then (s.modLg c.lg fun l => l.setQ p 0xFFFFFFFF).endCmd id
    else s.ghostSend id (.ghostSubscribe id) c.core (ghostCore w)

/-- SA_COMMAND_START (R205). What has changed since the issue is judged again and posted (R338): a WHITE configuration of an array that
was fenced meanwhile (R446), a command whose take has failed (R194). -/
def execSaCommandStart (cmd : Nat) (s : State) : Out :=
  match s.cmds.find cmd with
  | none => .next s
  | some c =>
    event (s.canSa cmd c || s.lostSa cmd c) s fun s =>
      if !s.canSa cmd c then s.endCmd cmd .illegal else
      let barred := fun (cfg : DWord) => !cfgGrey cfg && (s.core c.core).mon.lockout
      let set := fun (f : Arr → Arr) => (s.modArr c.core f).endCmd cmd
      let run := s.modCmd cmd fun x => { x with st := .running }
      match c.body with
      | .saCfg cfg ord true => if barred cfg then s.endCmd cmd .bias else (s.modCore c.core fun k => { k with arr := takenArr c.wg cfg ord }).endCmd cmd
      | .saCfg cfg ord false =>
        if barred cfg then s.endCmd cmd .bias else
        let s := s.withdrawSubs c.wg
        let s := s.modArr c.core fun a =>
          let a := { a with cfg := cfg, ord := ord, sw := 0, cnt := [], clamp := [], ghosts := [], csat := false, stale := false
                            noticed := false, biasDue := false
                            st := 1 }
          { a with exports := (a.exports.filter fun e => !e.stale).map fun e => { e with queue := e.queue ++ [(0, a.m.contains e.node)] } }
        (s.flushGhosts).endCmd cmd
      | .saKey k => set fun a => { a with key := k }
      | .saUncl f n => set fun a => { a with clamp := a.clamp.filter fun i => !(decide (f ≤ i ∧ i < f + n)) }
      | .saClr => set fun a => { a with cnt := [], csat := false }
      | .saMonW thr d =>
        let s := s.modCore c.core fun k => { k with mon := { k.mon with thr := if thr = 0 then 1024 else BitVec.ofNat 16 thr } }
        (s.modLg c.lg fun l => l.wrPair c.em d fun _ => (s.core c.core).mon.word).endCmd cmd
      | .saGhost w p => s.startGhost cmd c w p
      | .saSwp _ _ =>
        if (s.arr c.core).st = 4 || (s.arr c.core).st = 5 then s.endCmd cmd .bias
        else (run.modArr c.core fun a => { a with swp := some cmd }).judgeStall c.core
      | .saLdc .. => run.post (.saLoadDone cmd)
      | .saLdh .. => run.post (.saLoadDone cmd)
      | .saClmp .. => run.post (.saLoadDone cmd)
      | .saRdc .. => run.post (.saReadDone cmd)
      | .saRds .. => run.post (.saReadDone cmd)
      | _ => s

/-! ## Images (R192, R193, R355, R356, R359) -/

/-- Word `i` of a table of bytes. -/
def wordIn (t : Tab Byte) (i : Nat) : Nat := leNat ((List.range 4).map fun j => Tab.getD t 0 (4 * i + j))

/-- The words of a table of bytes, `n` of them, in one pass. -/
def wordsIn (t : Tab Byte) (n : Nat) : Tab Word :=
  let acc := t.foldl (fun (acc : List (Nat × Nat)) p =>
    let i := p.1 / 4
    let x := p.2.toNat * 256 ^ (p.1 % 4)
    match acc with
    | (k, y) :: r => if k = i then (k, y + x) :: r else (i, x) :: acc
    | [] => [(i, x)]) []
  (acc.reverse.filter fun p => decide (p.1 < n) && p.2 != 0).map fun p => (p.1, BitVec.ofNat 32 p.2)

/-- Replaces the entries of keys in [lo, hi) of a table whose unlisted keys hold the default. -/
def replaceIn {α : Type} (t new : Tab α) (lo hi : Nat) : Tab α :=
  (t.filter fun p => decide (p.1 < lo)) ++ new ++ (t.filter fun p => decide (hi ≤ p.1))

/-- A word that breaks R192. -/
def edgeBad (w : Word) : Bool := bits w 20 12 != 0 || (edgeGhost w && bits w 16 3 != 0)

/-- Whether an image that an `sa.ldc` or `sa.ldh` has read is malformed, its poisoned words aside. -/
def imageBad (b : CmdBody) (ws : Tab Word) : Bool :=
  match b with
  | .saLdc .. => ws.any fun p => edgeBad p.2
  | .saLdh .. => ws.any fun p => bits p.2 19 13 != 0
  | _ => false

/-- The array with an image in it. -/
def Arr.image (a : Arr) (b : CmdBody) (ws : Tab Word) : Arr :=
  match b with
  | .saLdc _ f n => { a with edges := replaceIn a.edges (ws.map fun p => (32 * f + p.1, p.2)) (32 * f) (32 * (f + n)) }
  | .saLdh _ f n =>
    { a with
      h := replaceIn a.h ((ws.map fun p => (f + p.1, (p.2.truncate 16 : BitVec 16))).filter fun p => p.2 ≠ 0) f (f + n)
      col := replaceIn a.col ((ws.map fun p => (f + p.1, BitVec.ofNat 3 (bits p.2 16 3))).filter fun p => p.2 ≠ 0) f (f + n) }
  | .saClmp _ f n =>
    let up := (List.range n).filterMap fun i => if bit (Tab.getD ws 0 (i / 32)) (i % 32) then some (f + i) else none
    { a with
      m := (a.m.filter fun i => decide (i < f)) ++ up ++ a.m.filter fun i => decide (f + n ≤ i)
      clamp := (a.clamp.filter fun i => decide (i < f)) ++ (List.range n).map (f + ·) ++ a.clamp.filter fun i => decide (f + n ≤ i) }
  | _ => a

/-- SA_LOAD_DONE (R355, R356): the whole image, or nothing where a word is malformed, poisoned or refused. -/
def execSaLoadDone (cmd : Nat) (s : State) : Out :=
  match s.cmds.find cmd with
  | none => fire (.saLoadDone cmd) s id
  | some c =>
    if s.cmdBlocked cmd c then .next s else
    match s.farFirst cmd c (.saLoadDone cmd) false with
    | some t => .next t
    | none =>
    fire (.saLoadDone cmd) s fun s =>
      let (s, g) := s.cmdRead c
      let ws := wordsIn g.bytes (131072 / 2)
      let po := poisonWs g.pois
      let es := if imageBad c.body (ws.filter fun p => !po.contains p.1) then g.errs ++ [(.illegal, 0)] else g.errs
      let (e, va) := worst es
      if e ≠ .none then s.endCmd cmd e (BitVec.ofNat 64 va)
      else (s.modArrOf c.wg fun a => a.image c.body ws).endCmd cmd
where
  /-- The words of poisoned bytes. -/
  poisonWs (ps : List Nat) : List Nat := (ps.map (· / 4)).eraseDups

/-- The bytes of the image that a command writes (R193). -/
def Arr.bytes (a : Arr) : CmdBody → List Byte
  | .saRdc _ f n => (List.range n).flatMap fun i => natLe 2 (Tab.getD a.cnt 0 (f + i)).toNat
  | .saRds _ f n =>
    let m := a.mask
    (List.range (n / 8)).map fun i => BitVec.ofNat 8 ((m >>> (f + 8 * i)) % 256)
  | _ => []

/-- SA_READ_DONE (R359): the image is written; the completion counter, a release that covers the image (in staged mode behind a forced
commit, R117), then the arrival counter. -/
def execSaReadDone (cmd : Nat) (s : State) : Out :=
  match s.cmds.find cmd with
  | none => fire (.saReadDone cmd) s id
  | some c =>
    if s.cmdBlocked cmd c || s.cmdCommitWaits c || (c.q.isSome && s.stagedCmd c && s.commitWaits c.wg) then .next s else
    match s.farFirst cmd c (.saReadDone cmd) true with
    | some t => .next t
    | none =>
    fire (.saReadDone cmd) s fun s =>
      let (s, es) := s.cmdWrite c ((s.arrOfWg c.wg).bytes c.body) false
      let (e, va) := worst es
      let s := if c.q.isSome && e = .none then s.forcedCommit c.wg else s
      s.finishCmd cmd c e va

/-! ## Subscriptions (R200, R357) -/

/-- Removes the export of a destination slot. -/
def Arr.dropExport (a : Arr) (owner slot : Nat) : Arr :=
  { a with exports := a.exports.filter fun e => !(e.owner == owner && e.slot == slot) }

/-- The holder of the array context of a chain on a source core (R200): of the resident one, or of one that is evicted from the array
while its workgroup stands on the core. -/
def State.sourceOn (s : State) (src : Nat) (chain : BitVec 16) : Option Nat :=
  let k := s.core src
  if k.arr.holder.isSome && cfgChain k.arr.cfg == chain then k.arr.holder
  else (k.evArr.find? fun p => cfgChain p.2.cfg == chain &&
    ((s.wgs.find p.1).map fun g => g.core == src && g.st != .absent).getD false).map (·.1)

/-- GHOST_SUBSCRIBE (R200): the source records the subscription and sends the node's state, or refuses. The command keeps the source's
holder. -/
def execGhostSubscribe (cmd : Nat) (s : State) : Out :=
  fire (.ghostSubscribe cmd) s fun s =>
    match s.cmds.find cmd with
    | none => s
    | some c =>
      let w := c.body.ghostWord
      let src := ghostCore w
      let slot := bits w 24 8
      let node := bits w 0 11
      let dst := ((s.arrOf c.wg).map (·.1)).getD c.core
      match s.sourceOn src (cfgChain (s.arrOfWg c.wg).cfg) with
      | none => s.ghostSend cmd (.ghostAnswer cmd false) src dst
      | some h =>
        let s := s.modArrOf h fun a => a.dropExport c.wg slot
        let a := s.arrOfWg h
        if s.partOf src == c.part && decide (a.exports.length < 256) then
          let s := s.modArrOf h fun a => { a with exports := a.exports ++ [
            { core := dst, slot := slot, node := node, owner := c.wg, queue := [(a.sw, a.m.contains node)] }] }
          (s.modCmd cmd fun x => { x with owned := [h] }).ghostSend cmd (.ghostAnswer cmd true) src dst
        else s.ghostSend cmd (.ghostAnswer cmd false) src dst

/-- GHOST_UNSUBSCRIBE (R200): the source removes the entry; then an unbind is answered, and a bind subscribes at its new source. -/
def execGhostUnsubscribe (cmd : Nat) (s : State) : Out :=
  fire (.ghostUnsubscribe cmd) s fun s =>
    match s.cmds.find cmd with
    | none => s
    | some c =>
      let w := c.body.ghostWord
      let old := c.owned.headD 0
      let s := s.modArrOf old fun a => a.dropExport c.wg (bits w 24 8)
      let dst := ((s.arrOf c.wg).map (·.1)).getD c.core
      if ghostUnb w then s.ghostSend cmd (.ghostAnswer cmd true) (((s.arrOf old).map (·.1)).getD dst) dst
      else s.ghostSend cmd (.ghostSubscribe cmd) dst (ghostCore w)

/-- GHOST_ANSWER (R357): the slot is bound or unbound, the predicate written, the counter adds 1. -/
def execGhostAnswer (cmd : Nat) (ok : Bool) (s : State) : Out :=
  fire (.ghostAnswer cmd ok) s fun s =>
    match s.cmds.find cmd with
    | none => s
    | some c =>
      let w := c.body.ghostWord
      let g := bits w 24 8
      let s := s.modArrOf c.wg fun a =>
        if ok && !ghostUnb w then
          { a with ghosts := a.ghosts.put g { src := some (ghostCore w, bits w 0 11), owner := c.owned.headD 0 } }
        else a.unbind g
      (s.modLg c.lg fun l => l.setQ c.body.ghostPred (allQ ok)).endCmd cmd

/-- Whether an update can be taken from a core's inbox: by the array that it is for, where it stands on the core and is not evicted, its
binding has its answer, and no earlier update of its source waits in the inbox of a core that the array has left or is on its way from there;
to be forwarded, where the array stands elsewhere and the first link of the way has a permit (R203, R205, R213). -/
def State.ghostReady (s : State) (core : Nat) (u : GhostUpd) : Bool :=
  match s.arrOf u.owner with
  | none => true
  | some (c, evicted) =>
    if c != core then !s.passes (s.partOf core) core c || s.canSend (.ghostUpdate c u) (.core core) (.core c) .ghost else (!evicted &&
      !(s.cmds.any fun p => p.2.wg == u.owner && p.2.st == .running && (match p.2.body with
        | .saGhost w _ => bits w 24 8 == u.slot
        | _ => false)) &&
      !(s.cores.any fun p => p.1 != core && p.2.ghin.any fun v => v.holder == u.holder && v.owner == u.owner) &&
      !(s.onWay fun e => match e with
        | .ghostUpdate _ v => v.holder == u.holder && v.owner == u.owner && decide (v.stamp < u.stamp)
        | _ => false))

/-- The updates that may be written next: the first of each source (R200). -/
def State.ghostNext (s : State) (core : Nat) : List GhostUpd :=
  (((s.core core).ghin.map fun u => (u.holder, u.owner)).eraseDups.filterMap fun k =>
    (s.core core).ghin.find? fun u => (u.holder, u.owner) == k).filter fun u => s.ghostReady core u

/-- A stop notice from core `src` arrives (R445): an array of the chain pauses at its next sweep boundary and forwards the notice once.
It comes after the updates that its sender had sent to the same destination (R444). -/
def State.stopNotice (core : Nat) (chain : BitVec 16) (src : Nat) (s : State) : Out :=
  if (s.ghostNext core).any fun u => u.src == src then .next s else
  fire (.stopNotice core chain src) s fun s =>
    let hit := fun (a : Arr) => a.holder.isSome && cfgChain a.cfg == chain && !a.noticed && a.st != 4 && a.st != 5
    let ev := (s.core core).evArr
    let s := s.modCore core fun k => { k with
      evArr := k.evArr.map fun p => (p.1, if hit p.2 then { p.2 with noticed := true, st := 4 } else p.2) }
    let s := (ev.filter fun p => hit p.2).foldl (fun (s : State) p =>
      let s := s.notify core p.2
      match p.2.swp with
      | some id => (s.modCore core fun k => { k with evArr := k.evArr.modify p.1 fun a => { a with swp := none } }).endCmd id .bias
      | none => s) s
    let a := s.arr core
    if !hit a then s
    else if a.st = 2 then s.modArr core fun a => { a with noticed := true }
    else ((s.modArr core fun a => { a with noticed := true, st := 4 }).notify core a).endSwp core .bias

/-- STOP_NOTICE (R445): the first notice of the chain that is on its way to the core and need not wait for its sender's updates. -/
def execStopNotice (core : Nat) (chain : BitVec 16) (s : State) : Out :=
  match (s.pending.filterMap fun e => match e with
      | .stopNotice c ch src => if c = core ∧ ch = chain ∧ !((s.ghostNext core).any fun u => u.src == src) then some src else none
      | _ => none).head? with
  | some src => s.stopNotice core chain src
  | none => .next s

/-- Writes an update of the slot's source into its slot (R200, R202). -/
def Arr.takeUpd (a : Arr) (u : GhostUpd) : Arr :=
  let x := Tab.getD a.ghosts {} u.slot
  if (x.src.map (·.2)) = some u.node && x.owner = u.holder && a.holder = some u.owner then
    { a with ghosts := a.ghosts.put u.slot { x with
      val := u.val, stamp := some u.stamp
      ring := if cfgLock a.cfg then (x.ring.filter fun p => p.1 % 8 != u.stamp % 8) ++ [(u.stamp, u.val)] else x.ring } }
  else a

/-- GHOST_UPDATE_ARRIVE (R201, R202): an update is written into its slot, in a free-running sweep between any two classes; one for an
array that has moved to another core follows it there (R203), if the gates pass it (R16). -/
def execGhostUpdateArrive (core : Nat) (s : State) : Out :=
  let us := s.ghostNext core
  if us.isEmpty then .next s else
  fire (.ghostUpdateArrive core) s fun s =>
    let (i, s) := if us.length = 1 then (0, s) else let (n, s) := s.draw; (Config.pick n % us.length, s)
    match us[i]? with
    | none => s
    | some u =>
      let s := s.modCore core fun k => { k with ghin := k.ghin.erase u }
      let at_ := ((s.arrOf u.owner).map (·.1)).getD core
      if at_ ≠ core then
        if s.passes (s.partOf core) core at_ then s.sendNow (.ghostUpdate at_ u) (.core core) (.core at_) .ghost 32
        else s.ghostRefused core (some u.holder) u.node
      else
      let a := s.arr core
      let n := (orderOf a.ord).length
      let s := if a.st = 2 && a.pos < n then
          let (d, s) := s.draw
          s.classesTo core 8 (a.pos + Config.pick d % (n - a.pos + 1))
        else s
      (s.modArr core fun a => a.takeUpd u).judgeStall core

theorem sigmoid_examples : sigmoid (-2048) = 22 ∧ sigmoid (-256) = 17625 ∧ sigmoid 0 = 32768 ∧ sigmoid 1 = 32832 ∧
    sigmoid 256 = 47911 ∧ sigmoid 2047 = 65514 := by decide +kernel

end Sys2Proof.Machine
end

