-- ==== Sys2Proof/Machine/EvLink.lean ====
section
/-! DEFINITION. The events of die links and ports: flits, replay, retrains, down modules and edges, lost ports (R232 to R238, R405,
R432 to R438, R473). -/

namespace Sys2Proof.Machine

/-! ## Records and packets that cannot arrive -/

/-- The parts of an access at a line complete with poison and the deferred flag (R424, R437), or with `gate`. -/
def State.losePartsIf (s : State) (acc ln : Nat) (f : LanePart → Bool) (c : Cause) : State :=
  match s.accs.find acc with
  | none => s
  | some x =>
    let ps := x.lanes.filter fun p => p.pa / 128 == ln && decide (p.st < 2) && f p
    let mark := fun (q : LanePart) => if ps.any (fun p => p.lane == q.lane) then { q with st := 1, err := c } else q
    (s.modAcc acc fun y => { y with lanes := y.lanes.map mark }).postOnce (.accessReply acc ln)

def State.loseParts (s : State) (acc ln : Nat) (f : LanePart → Bool) : State := s.losePartsIf acc ln f .deferred

/-- A multicast line that cannot reach its member arrives poisoned. -/
def State.loseLine (s : State) (cmd ln : Nat) : State :=
  match s.cmds.find cmd with
  | none => s
  | some c =>
    let os := (offsets 0 c.body.srcs).flatMap fun p => match c.pa p.2.1 with
      | some q => if q.1 / 128 = ln then (List.range p.2.2).map (p.1 + ·) else []
      | none => []
    (s.modCmd cmd fun x => { x with gotPois := x.gotPois ++ os }).post (.mcastReplyArrive cmd ln)

/-- Poisons a fragment whole. -/
def State.poisonFrag (s : State) (f : Nat) : State :=
  { s with frags := s.frags.modify f fun x => { x with pois := List.range (ceilDiv x.data.length 4) } }

/-- What a packet on a down edge comes to (R437): its request or reply completes with poison and the deferred flag. -/
def State.lose (s : State) (e : Ev) : State :=
  match e with
  | .loadRequest a ln => s.loseParts a ln fun p => p.st == 0
  | .writeRegistration a ln => s.loseParts a ln fun p => p.st == 0
  | .nearAtomic a i => ((s.accs.find a).bind fun x => x.lanes.find? fun p => p.lane == i).elim s fun p =>
      s.loseParts a (p.pa / 128) fun q => q.lane == i
  | .farAtomic a i => ((s.accs.find a).bind fun x => x.lanes.find? fun p => p.lane == i).elim s fun p =>
      s.loseParts a (p.pa / 128) fun q => q.lane == i
  | .accessReply a ln => s.loseParts a ln fun p => p.st == 1
  | .publishArrive a ln cells own _ => s.takePublish a ln cells own own
  | .mcastRequest c ln => s.loseLine c ln
  | .mcastReplyArrive c ln => s.loseLine c ln
  | .mcastAlone c ln => s.loseLine c ln
  | .mcastFan cs ln => cs.foldl (fun s c => s.loseLine c ln) s
  | .fragmentArrive c f =>
    let k := s.frags.find? fun p => p.2.cmd == c && p.2.f == f && p.2.place == .sent
    match k with
    | some (i, _) => { s with frags := s.frags.del i }.endCmd c .deferred
    | none => s.endCmd c .deferred
  | .overflowFragmentArrive f =>
    match (s.poisonFrag f).frags.find f with
    | some x => (s.poisonFrag f).makeOrphan f x .deferred
    | none => s
  | .fragmentCombineDone f => (s.poisonFrag f).post (.fragmentCombineDone f)
  | .ghostSubscribe c => s.ghostLost c
  | .ghostUnsubscribe c => s.ghostLost c
  | .ghostAnswer c _ => s.ghostLost c
  | .crossing c ln => s.modCmd c fun x => { x with out := x.out - 1, lostLn := ln :: x.lostLn }
  | .writeBack ln => (List.range 32).foldl (fun (s : State) i => s.setPois (32 * ln + i) true) s
  | .amArrive m =>
    match s.msgs.find m with
    | some x => { s with msgs := s.msgs.del m }.endCmd x.cmd .deferred
    | none => s
  | _ => s

/-! ## Flits (R234 to R236, R436) -/

/-- Bytes of packets that a link flit carries. -/
def flitRoom : Nat := 244

/-- The first 8 bytes of a flit (R235). -/
def Flit.head (f : Flit) : Nat := f.seq % 4096 + f.ack % 4096 * 2 ^ 12 + f.kind % 4 * 2 ^ 24 + f.pst % 256 * 2 ^ 32

/-- The 256 bytes of a flit with the bytes of its packets, to which the spec gives no layout: head, payload filled up with zeros, CRC. -/
def Flit.image (f : Flit) (payload : List Byte) : List Byte :=
  let b := natLe 8 f.head ++ (payload.take f.bytes ++ List.replicate flitRoom 0).take flitRoom
  b ++ natLe 4 (crc32c b).toNat

/-- Whether 256 bytes that arrive pass their CRC: what `good` tells of a flit that LINK_FLIT_RECEIVE takes. -/
def flitGood (b : List Byte) : Bool := leNat (b.drop 252) == (crc32c (b.take 252)).toNat

/-- Where the first packet of a flit starts in its payload, 255 where none does: after the rest of one begun earlier. -/
def firstStart : List LPacket → Nat
  | [] => 255
  | p :: r => if p.left = p.size then 0 else if p.left < flitRoom ∧ !r.isEmpty then p.left else 255

/-- Fills a flit from the stored packets: the packets that end in it, those left, the bytes carried. -/
def pack : Nat → List LPacket → List LPacket × List LPacket × Nat
  | _, [] => ([], [], 0)
  | room, p :: r =>
    if room = 0 then ([], p :: r, 0)
    else if p.left ≤ room then
      let (ws, ls, n) := pack (room - p.left) r
      ({ p with left := 0 } :: ws, ls, p.left + n)
    else ([], { p with left := p.left - room } :: r, room)

/-- Whether a sequence number comes before another, modulo 4096. -/
def seqBefore (a b : Nat) : Bool := decide (0 < (b + 4096 - a) % 4096 ∧ (b + 4096 - a) % 4096 ≤ 2048)

def State.moduleUp (s : State) (e m : Nat) : Bool := decide (e < 4 ∧ m < 4 ∧ 2 ≤ (s.link e m).st) && !s.edgesDown.contains e

/-- Whether a module has a flit to send: bytes to carry and room in the replay buffer. -/
def State.canFlit (s : State) (e d m : Nat) : Bool :=
  let x := s.ldir e d m
  decide (d < 2) && s.moduleUp e m && !x.stored.isEmpty && decide (x.replay.length < 128)

/-- The number of the last flit that a direction's receiver has accepted. -/
def LinkDir.lastGot (x : LinkDir) : Nat := (x.expect + 4095) % 4096

/-- LINK_FLIT_SEND (R234 to R236, R436). -/
def execLinkFlitSend (edge dir mod_ : Nat) (s : State) : Out :=
  event (s.canFlit edge dir mod_) s fun s =>
    let x := s.ldir edge dir mod_
    let (ws, ls, n) := pack flitRoom x.stored
    let f : Flit := { seq := x.next, ack := (s.ldir edge (1 - dir) mod_).lastGot, bytes := n, whole := ws, pst := firstStart x.stored, at_ := s.now }
    s.setLdir edge dir mod_ { x with
      stored := ls, next := (x.next + 1) % 4096, replay := x.replay ++ [f], flight := x.flight ++ [f], sentAt := s.now }

/-- The sender of a direction lets go of the flits that an ack covers. -/
def LinkDir.acked (x : LinkDir) (n : Nat) : LinkDir := { x with replay := x.replay.filter fun f => !seqBefore f.seq n }

/-- The receiver of a direction sends a nak for the number that it expects: a flit of the other direction, with its ack (R235). -/
def State.sendNak (s : State) (e d m : Nat) : State :=
  let x := s.ldir e d m
  let s := s.setLdir e d m { x with waiting := true, nakAt := s.now }
  let y := s.ldir e (1 - d) m
  let f : Flit := { seq := x.expect, ack := x.lastGot, bytes := 0, whole := [], kind := 2, at_ := s.now }
  s.setLdir e (1 - d) m { y with flight := y.flight ++ [f], sentAt := s.now }

/-- The die that receives a direction of an edge. -/
def recvDie (e d : Nat) : Nat := if d = 0 then (edgeDies e).1 else (edgeDies e).2

/-- A packet is whole at the far die: it goes on to its agent there, or over its next edge. -/
def State.land (s : State) (die : Nat) (p : LPacket) : State :=
  if p.dst.die = die then s.enterDie p else s.hop die { p with left := p.size }

/-- The flits of a replay buffer leave again: each carries the latest ack (R236). -/
def State.resend (s : State) (e d m : Nat) : State :=
  let x := s.ldir e d m
  let fs := x.replay.map fun f => { f with ack := (s.ldir e (1 - d) m).lastGot, at_ := s.now }
  s.setLdir e d m { x with replay := fs, flight := x.flight ++ fs, sentAt := if fs.isEmpty then x.sentAt else s.now }

/-- A direction as a retrain leaves it: counts and replay buffer stay, what was on the way is lost. -/
def LinkDir.quiet (x : LinkDir) : LinkDir := { x with flight := [], waiting := false, nakFor := none, nakCount := 0 }

/-! ## Retrains (R237, R436, R437) -/

/-- Both directions of a module. -/
def State.modDirs (s : State) (e m : Nat) (f : LinkDir → LinkDir) : State :=
  (s.setLdir e 0 m (f (s.ldir e 0 m))).setLdir e 1 m (f (s.ldir e 1 m))

/-- The packets of a direction that its receiver has not got, in order. -/
def LinkDir.owed (x : LinkDir) : List LPacket := (x.unaccepted.flatMap (·.whole) ++ x.stored).map fun p => { p with left := p.size }

/-- Moves what a down module owes onto another module, which carries its traffic from now on (R437). -/
def State.moveTo (s : State) (e m n : Nat) : State :=
  let s := [0, 1].foldl (fun (s : State) d =>
    let x := s.ldir e d m
    let y := s.ldir e d n
    (s.setLdir e d n { y with stored := y.stored ++ x.owed }).setLdir e d m { x.quiet with stored := [], replay := [] }) s
  [0, 1, 2, 3].foldl (fun s k =>
    if k = m ∨ (s.link e k).subst = some m then s.setLink e k { s.link e k with subst := some n } else s) s

/-- The modules of an edge after `m`, in the order of R437. -/
def nextModules (m : Nat) : List Nat := [(m + 1) % 4, (m + 2) % 4, (m + 3) % 4]

/-- An edge goes down (R437); what it owes is lost (`State.loseDown`). -/
def State.edgeFails (s : State) (e : Nat) : State :=
  if s.edgesDown.contains e then s else { s with edgesDown := e :: s.edgesDown }.linkRec .link (16 + e)

/-- A module goes down (R437): its packets move to the next module that is up, or wait for one that trains. -/
def State.moduleFails (s : State) (e m : Nat) (sideband : Bool) : State :=
  let s := (s.setLink e m { s.link e m with st := 0 }).linkRec .link (4 * e + m)
  if !sideband then s.edgeFails e
  else
    match (nextModules m).find? fun n => s.moduleUp e n with
    | some n => s.moveTo e m n
    | none => if (nextModules m).any (fun n => (s.link e n).st == 1) then s else s.edgeFails e

/-- A module begins to retrain (R237); more than 8 times within 1 ms takes it down (R437). -/
def State.retrain (s : State) (e m : Nat) : State :=
  let l := s.link e m
  let recent := s.now :: l.recent.filter fun t => decide (s.now < t + 2000000)
  let s := (s.modDirs e m LinkDir.quiet).setLink e m { l with st := 1, rtr := l.rtr + 1, recent := recent, trainAt := s.now }
  if 8 < recent.length then s.moduleFails e m true else s

/-- The sender of a direction takes a nak (R236, R237): it resends from the number that the nak names; a fourth nak for one number
retrains. -/
def State.takeNak (s : State) (e d m : Nat) (n : Nat) : State :=
  let x := s.ldir e d m
  let cnt := if x.nakFor = some n then x.nakCount + 1 else 1
  let s := (s.setLdir e d m ({ x with nak := x.nak + 1, nakFor := some n, nakCount := cnt }.acked n)).resend e d m
  if 4 ≤ cnt then s.retrain e m else s

/-- The head of what a module's direction carries arrives; `good` tells whether it passes its CRC (R235, R236). One that does not, of whatever
kind, is discarded and answered with a nak. An idle flit acknowledges only, a nak is taken as one, a flit of the kind that is not valid is
discarded. -/
def State.takeFlit (s : State) (e d m : Nat) (good : Bool) : State :=
  match (s.ldir e d m).flight with
  | [] => s
  | f :: r =>
    let x := { s.ldir e d m with flight := r }
    if !good then (s.setLdir e d m { x with crc := x.crc + 1 }).sendNak e d m
    else
      let s := s.setLdir e d m x
      if f.kind = 3 then s else
      let s := s.setLdir e (1 - d) m ((s.ldir e (1 - d) m).acked ((f.ack + 1) % 4096))
      if f.kind = 1 then s
      else if f.kind = 2 then s.takeNak e (1 - d) m f.seq
      else if f.seq = x.expect then
        f.whole.foldl (fun s p => s.land (recvDie e d) p) (s.setLdir e d m { x with expect := (x.expect + 1) % 4096, waiting := false })
      else if seqBefore f.seq x.expect || x.waiting then s
      else s.sendNak e d m

/-- LINK_FLIT_RECEIVE (R235 to R237, R436): the next flit of a direction arrives. -/
def execLinkFlitReceive (edge dir mod_ : Nat) (good : Bool) (s : State) : Out :=
  event (decide (dir < 2) && s.moduleUp edge mod_) s fun s => s.takeFlit edge dir mod_ good

/-- The nak of a direction that arrives next at its sender: the head of what the other direction carries. -/
def State.nakDue (s : State) (e d m : Nat) : Bool :=
  (((s.ldir e (1 - d) m).flight.head?).map fun f => f.kind == 2).getD false

/-- LINK_NAK_RECEIVE (R236, R237): a nak for a direction arrives with a good CRC. -/
def execLinkNakReceive (edge dir mod_ : Nat) (s : State) : Out :=
  event (decide (dir < 2) && s.moduleUp edge mod_ && s.nakDue edge dir mod_) s fun s => s.takeFlit edge (1 - dir) mod_ true

/-- Whether the receiver of a direction has sent nothing for 16 cycles, neither flits of the other direction nor naks (R236). -/
def State.canIdle (s : State) (e d m : Nat) : Bool :=
  decide (d < 2) && s.moduleUp e m && decide ((s.ldir e (1 - d) m).sentAt + 16 ≤ s.now)

/-- LINK_IDLE_TIMER (R236): the receiver of a direction has sent nothing for 16 cycles; it sends an idle flit, which acknowledges. -/
def execLinkIdleTimer (edge dir mod_ : Nat) (s : State) : Out :=
  event (s.canIdle edge dir mod_) s fun s =>
    let y := s.ldir edge (1 - dir) mod_
    let f : Flit := { seq := 0, ack := (s.ldir edge dir mod_).lastGot, bytes := 0, whole := [], kind := 1, at_ := s.now }
    s.setLdir edge (1 - dir) mod_ { y with flight := y.flight ++ [f], sentAt := s.now }

def State.canRepeatNak (s : State) (e d m : Nat) : Bool :=
  let x := s.ldir e d m
  decide (d < 2) && s.moduleUp e m && x.waiting && decide (x.nakAt + 64 ≤ s.now)

/-- NAK_REPEAT_TIMER (R436). -/
def execNakRepeatTimer (edge dir mod_ : Nat) (s : State) : Out :=
  event (s.canRepeatNak edge dir mod_) s fun s => s.sendNak edge dir mod_

/-- The modules begin to train: the commons firmware, which stage 1 has loaded, brings the die links up (R438, R465; log entry 5). -/
def State.trainLinks (s : State) : State :=
  (List.range 16).foldl (fun (s : State) k => s.setLink (k / 4) (k % 4) { s.link (k / 4) (k % 4) with st := 1, trainAt := s.now }) s

/-- LINK_LOCK_LOSS (R237). -/
def execLinkLockLoss (edge mod_ : Nat) (s : State) : Out := event (s.moduleUp edge mod_) s fun s => s.retrain edge mod_

/-- Whether a flit of a direction has been unacknowledged for the link bound since it was last sent (R405). -/
def State.ackLate (s : State) (e d m : Nat) : Bool := (s.ldir e d m).replay.any fun f => decide (f.at_ + 4000 ≤ s.now)

/-- LINK_ACK_TIMEOUT (R405): a flit stays unacknowledged past the link bound. -/
def execLinkAckTimeout (edge mod_ : Nat) (s : State) : Out :=
  event (s.moduleUp edge mod_ && ([0, 1].any fun d => s.ackLate edge d mod_)) s fun s => s.retrain edge mod_

/-- LINK_RETRAIN_DONE (R237, R436 to R438): `lanes` 0 trains all 64, 1 lanes 0 to 31, 2 lanes 32 to 63; a module that fell back stays
on its half; 3 trains on none that it may, and the module is down. Each direction replays from its receiver's expected number. A module of the
edge that is down without a replacement that can carry its traffic is replaced by this one. -/
def execLinkRetrainDone (edge mod_ : Nat) (lanes : BitVec 2) (s : State) : Out :=
  let l := s.link edge mod_
  event (decide (edge < 4 ∧ mod_ < 4) && !s.edgesDown.contains edge && l.st == 1 && (l.half == 0 || lanes.toNat == l.half || lanes == 3)) s fun s =>
    if lanes = 3 then s.moduleFails edge mod_ true else
    let s := s.setLink edge mod_ { l with st := 2 + lanes.toNat, half := lanes.toNat }
    let s := if lanes != 0 && l.half == 0 then s.linkRec .none (4 * edge + mod_) else s
    let s := [0, 1].foldl (fun (s : State) d =>
      let x := s.ldir edge d mod_
      (s.setLdir edge d mod_ { x.quiet with replay := x.unaccepted }).resend edge d mod_) s
    (nextModules mod_).foldl (fun s n =>
      if (s.link edge n).st = 0 ∧ ((s.link edge n).subst.map fun k => s.moduleUp edge k || (s.link edge k).st == 1).getD false = false then
        s.moveTo edge n mod_ else s) s

/-- RETRAIN_TIMEOUT (R436, R437): `sideband` tells that the sideband still works. -/
def execRetrainTimeout (edge mod_ : Nat) (sideband : Bool) (s : State) : Out :=
  event (decide (edge < 4 ∧ mod_ < 4) && (s.link edge mod_).st == 1 && decide ((s.link edge mod_).trainAt + 1600 ≤ s.now)) s fun s =>
    s.moduleFails edge mod_ sideband

/-- Loses what stands at the modules of down edges (R437). -/
def State.loseDown (s : State) : State :=
  s.edgesDown.foldl (fun s e => [0, 1, 2, 3].foldl (fun s m => [0, 1].foldl (fun (s : State) d =>
    let x := s.ldir e d m
    if x = {} ∨ (x.stored.isEmpty ∧ x.replay.isEmpty) then s else
    let owed := x.owed
    owed.foldl (fun s p => s.lose p.ev) (s.setLdir e d m { x.quiet with stored := [], replay := [] })) s) s) s

/-! ## Ports (R432, R433, R435) -/

/-- PORT_LOST (R435): ports 0 to 7 are the peer ports, 8 the host port. -/
def execPortLost (port : Nat) (s : State) : Out :=
  event (decide (port ≤ 8) && !(Tab.getD s.ports false port)) s fun s =>
    { s with ports := s.ports.put port true }.linkRec .link (if port = 8 then 24 else 32 + port)

/-- HOST_PORT_RETURN (R435): the records held back reach the manager ring. -/
def execHostPortReturn (s : State) : Out :=
  event (Tab.getD s.ports false 8) s fun s =>
    let rs := s.heldRecs
    rs.foldl (fun s r => s.mgrRec (r.map (·.toNat))) { s with ports := s.ports.del 8, heldRecs := [] }

/-- CXL_LINK_STATE_CHANGE (R432, R434). -/
def execCxlLinkStateChange (port : Nat) (active : Bool) (s : State) : Out :=
  event (decide (port < 4)) s fun s =>
    let s := s.setWinBits (oCXS port) 0 2 (if active then 2 else 1)
    { s with cxlDownAt := if active then s.cxlDownAt.del port else
        (match s.cxlDownAt.find port with | some _ => s.cxlDownAt | none => s.cxlDownAt.put port s.now) }

/-- CXL_PORT_LOST (R432 to R434): the link has been down for its bound, or its data link layer reports it down. -/
def execCxlPortLost (port : Nat) (s : State) : Out :=
  event (decide (port < 4) && s.winBits (oCXS port) 2 1 == 0) s fun s => (s.cxlLost port).setWinBits (oCXS port) 0 2 0

/-- A write of `CXM_c` (R250, R434): enabling a disabled range on an active link clears its fence. -/
def State.writeCxm (s : State) (port : Nat) (value : DWord) : State :=
  let was := s.winBits (oCXM port) 0 1
  let s := s.setWin (oCXM port) (value &&& 0x7FFF7)
  if was = 0 ∧ bit value 0 ∧ s.winBits (oCXS port) 0 2 = 2 then s.setWinBits (oCXS port) 2 1 0 else s

/-- CXL_RANGE_ENABLE (R250, R434): a write of `CXM_c`. -/
def execCxlRangeEnable (port : Nat) (value : BitVec 64) (s : State) : Out :=
  event (decide (port < 4) && s.hostUp) s fun s => s.writeCxm port value

end Sys2Proof.Machine
end

