-- ==== Sys2Proof/Machine/EvPreempt.lean ====
section
/-! DEFINITION. The events of pre-emption through the shadow bank (R164 to R170). -/

namespace Sys2Proof.Machine

/-- Whether a core's sub-cores have all stopped outside hold runs (R165). -/
def State.stoppedIssuing (s : State) (core : Nat) : Bool :=
  !(s.lgs.any fun p => p.2.inRun &&
    ((s.wgs.find p.2.wg).map fun w => w.core == core && w.here && w.bank == (s.core core).act).getD false)

/-- Whether a paired product runs that a core leads or follows (R190). -/
def State.pairRuns (s : State) (core : Nat) : Bool :=
  s.cmds.any fun p => p.2.st == .running && (p.2.core == core || p.2.core + 1 == core) &&
    (match p.2.body with | .mxPmma _ _ _ => true | _ => false)

/-- Whether the banks can exchange: every sub-core has stopped, and no paired product runs (R165, R169, R190). -/
def State.canFlip (s : State) (core : Nat) : Bool := (s.core core).swapping && s.stoppedIssuing core && !s.pairRuns core

/-- PREEMPT_SWAP_DONE (R165): the banks exchange roles; the incoming context needs its spilled copy no longer, and its lane groups begin
to wait for their turns now (R157). -/
def execPreemptSwapDone (core : Nat) (s : State) : Out :=
  event (s.canFlip core) s fun s =>
    let bank := 1 - (s.core core).act
    let here := (s.bankWgs core 0 ++ s.bankWgs core 1).map (·.1)
    let fresh := fun (l : Lg) => if here.contains l.wg ∧ l.status = .ready then { l with aged := false, parkAt := s.now } else l
    let s := { s with lgs := s.lgs.map fun (p : Nat × Lg) => (p.1, fresh p.2) }
    let s := (s.bankWgs core bank).foldl (fun s p => s.modWg p.1 fun w => { w with spill := none }) s
    s.modCore core fun k => { k with act := bank, swapping := false, shadowClean := false }

/-- The workgroups whose contexts were discarded from a core's shadow bank (R167). -/
def State.oustedOf (s : State) (core : Nat) : List Nat :=
  (s.wgs.filter fun p => p.2.ousted && p.2.core == core && p.2.st == .absent).map (·.1)

/-- Whether a core swaps back (R167, R169). -/
def State.canSwapBack (s : State) (core : Nat) : Bool :=
  let k := s.core core
  !k.swapping && !s.urgentIn core k.act && !s.paired core &&
    !((s.bankWgs core k.act).any fun p => p.2.st == .leaving || p.2.st == .restoring) &&
    (s.preempted core || !(s.oustedOf core).isEmpty)

/-- SWAP_BACK (R167): the last urgent workgroup of a core has ended. -/
def execSwapBack (core : Nat) (s : State) : Out :=
  event (s.canSwapBack core) s fun s =>
    let s := (s.oustedOf core).foldl (fun s w => ({ s with nseq := s.nseq + 1 }).modWg w fun g =>
      { g with ousted := false, eligible := true, eligAt := s.nseq }) s
    if s.preempted core then s.modCore core fun k => { k with swapping := true } else s

/-- The workgroups of a core's shadow bank, each with a spill slot where one was free. -/
def State.slotted (s : State) (core : Nat) : State × List Nat :=
  let ws := (s.bankWgs core (1 - (s.core core).act)).map (·.1)
  (ws.foldl (fun s w => s.takeSpill w) s, ws)

/-- Whether a swap-out on a core can end now (R170). -/
def State.leavingOn (s : State) (core : Nat) : Bool := s.wgs.any fun p => p.2.core == core && s.canLeave p.1

/-- Whether a shadow bank's write-out can end (R167): it is the spill engine's last work (R170). -/
def State.canWriteOut (s : State) (core : Nat) : Bool :=
  let k := s.core core
  let (t, ws) := s.slotted core
  !k.swapping && !k.shadowClean && !ws.isEmpty && !s.evicting core && !s.restoring core && !s.leavingOn core &&
    ws.all fun w => t.hasSpill w && s.settled w

/-- SHADOW_WRITEOUT_DONE (R167): the bank is clean. -/
def execShadowWriteoutDone (core : Nat) (s : State) : Out :=
  memEvent (s.canWriteOut core) s fun s =>
    let (s, ws) := s.slotted core
    (ws.foldl (fun s w => s.writeSpill w) s).modCore core fun k => { k with shadowClean := true }

/-- SLOT_EVICTION_DONE (R168): an operand slot of a pre-empted context is spilled and free. -/
def execSlotEvictionDone (core slot : Nat) (s : State) : Out :=
  if !s.canEvictSlot core slot then .next s else
  memFire (.slotEvictionDone core slot) s fun s =>
    match s.foreign core (s.slot core slot).claim with
    | none => s
    | some w =>
      ((s.takeSpill w).writeSpill w).modCore core fun k =>
        let x := Tab.getD k.slots {} slot
        { k with slots := k.slots.put slot { x with claim := none, pair := false }, evSlots := k.evSlots.put (32 * w + slot) x }

/-- ARRAY_EVICTION_DONE (R168): at a sweep boundary the array context of a pre-empted context is spilled. -/
def execArrayEvictionDone (core : Nat) (s : State) : Out :=
  if !s.canEvictArr core then .next s else
  memFire (.arrayEvictionDone core) s fun s =>
    match s.foreign core (s.core core).arr.holder with
    | none => s
    | some w =>
      ((s.takeSpill w).writeSpill w).modCore core fun k => { k with evArr := k.evArr.put w k.arr, arr := {} }

end Sys2Proof.Machine
end

