-- ==== Sys2Proof/Machine/Manage.lean ====
section
/-! DEFINITION. What the partition manager and the Slate controller write: partitions and their teardown (R14 to R17), windows
(R20 to R22), home maps (R19), functions (R24), keys (R468), and the sequence of a bulkhead (R13, R411, R469). -/

namespace Sys2Proof.Machine

/-- The key under which `dir` keeps a line whose key material is gone: no key reads it as it was (R118, R468). -/
def deadKey (n : Nat) : Nat := 8193 + n

/-! ## Ends of what a bulkhead or partition held -/

/-- The command that an event on its way belongs to. -/
def Ev.cmdOf : Ev → Option Nat
  | .engineTakeOwnership c | .engineFinish c | .mxLdDone c | .busTransferDone c | .mxMmaDone c | .mxPmmaDone c | .mxDrainDone c
  | .mxChkDone c | .mxRelEffect c | .saLoadDone c | .saReadDone c | .ghostSubscribe c | .ghostUnsubscribe c | .ghostAnswer c _
  | .mcastRequest c _ | .mcastReplyArrive c _ | .mcastAlone c _ => some c
  | _ => none

/-- Ends a command whose core or partition is gone: lines that it owns are released, its events and packets are dropped. -/
def State.killCmd (s : State) (id : Nat) (cause : Cause := .none) : State :=
  let s := (s.unlock id).disarm id
  let s := (s.packs.filter fun p => p.2.evs.all fun e => e.cmdOf == some id).foldl (fun (s : State) p => s.dropPacket p.1) s
  { s with pending := s.pending.filter fun e => e.cmdOf != some id }.endCmd id cause

/-- Discards what an agent owns: its words are released and poisoned (R23). -/
def State.releaseOwned (s : State) (a : Nat) : State :=
  let s := (s.dir.filter fun p => p.2.own.any fun q => q.2 == a).foldl (fun (s : State) p =>
    let ws := (p.2.own.filter fun q => q.2 == a).map (·.1)
    let s := ws.foldl (fun s i => s.setPois (32 * p.1 + i) true) s
    s.setDir p.1 { s.dirOf p.1 with own := p.2.own.filter fun q => q.2 != a }) s
  s.setCopies a []

/-- The agents of a bulkhead: its cores and the stashes on them. -/
def State.agentsOf (s : State) (g : Nat) : List Nat :=
  bhCores g ++ (s.wgs.filter fun p => p.2.here && bhOf p.2.core == g).map fun p => 192 + p.1

/-! ## Bulkheads (R13, R411, R469) -/

def State.bhBit (s : State) (g i : Nat) : Bool := s.winBits (oBHC g) i 1 == 1

/-- `BHC`.st, and when it was entered. -/
def State.setSt (s : State) (g st : Nat) : State :=
  { s.setWinBits (oBHC g) 4 3 st with bhSince := s.bhSince.put g s.now }

/-- A src 14 record (R408). -/
def State.bhRec (s : State) (g : Nat) : State :=
  s.mgrRec [recHead .none 14 (s.winBits (oBHC g) 16 4) 0 0 0 0 g, 0, s.bhSt g, s.time]

/-- Whether a message crosses the fabric gate of a bulkhead to or from another (R10, R16). -/
def State.crosses (s : State) (g : Nat) (e : Ev) : Bool :=
  let x := fun a b => bhOf a != bhOf b && (bhOf a == g || bhOf b == g)
  match e with
  | .amArrive m => ((s.msgs.find m).map fun m => x m.src m.dst).getD false
  | .ghostSubscribe c | .ghostUnsubscribe c | .ghostAnswer c _ =>
    ((s.cmds.find c).map fun k => x k.core (ghostCore k.body.ghostWord)).getD false
  | .ghostUpdate c u => x u.src c
  | .stopNotice c _ src => x src c
  | .busTransferDone c => ((s.cmds.find c).map fun k => match k.body with
      | .bus col _ _ mask _ => (busCores k.core col mask).any fun r => x k.core r
      | _ => false).getD false
  | _ => false

/-- Fails a crossing with `gate` (R410): ghost traffic that no instruction waits for leaves its src 7 record alone. -/
def State.failCrossing (s : State) (e : Ev) : State :=
  let note := fun (s : State) (c info : Nat) => match s.cmds.find c with | some k => s.cmdGate k info | none => s
  match e with
  | .amArrive m =>
    match s.msgs.find m with
    | none => s
    | some x => (note ({ s.recall e with msgs := s.msgs.del m }) x.cmd x.hidx).endCmd x.cmd .gate
  | .ghostSubscribe c | .ghostUnsubscribe c | .ghostAnswer c _ => (note (s.recall e) c 0).ghostLost c .gate
  | .ghostUpdate _ u => (s.recall e).ghostRefused u.src (some u.holder) u.node
  | .stopNotice _ _ src => (s.recall e).ghostRefused src (s.arr src).holder 0
  | .busTransferDone c => (note s c 0).killCmd c .gate
  | _ => s

/-- The core on whose side a crossing waits: its sender. -/
def State.crossFrom (s : State) (e : Ev) : Nat :=
  match e with
  | .amArrive m => ((s.msgs.find m).map (·.src)).getD 0
  | .ghostAnswer c _ => ((s.cmds.find c).map fun k => ghostCore k.body.ghostWord).getD 0
  | .ghostUpdate _ u => u.src
  | .stopNotice _ _ src => src
  | e => ((e.cmdOf.bind s.cmds.find).map (·.core)).getD 0

/-- Since when the crossings of a bulkhead's gate may no longer pass: it drains, is fenced or reset, or the teardown of its partition
awaits them (R13, R17). -/
def State.gateShutAt (s : State) (g : Nat) : Option Nat :=
  let p := s.winBits (oBHC g) 16 4
  match if p < 12 then (s.part p).teardown else none with
  | some t => some t
  | none => if s.bhSt g = 3 then none else some ((s.bhSince.find g).getD 0)

/-- Whether a crossing pending at a shut gate has lasted the group timeout of the partition on whose side it waits (R13, R17, R23). -/
def State.crossLate (s : State) (g : Nat) (e : Ev) : Bool :=
  s.crosses g e &&
    match s.gateShutAt g with
    | none => false
    | some t => let p := s.partOf (s.crossFrom e); decide (t + (if p < 12 then s.gto p else 0) ≤ s.now)

/-- Ends what stands on a bulkhead and enters a state without it (R411 steps 2 to 4, R23). -/
def State.enterReset (s : State) (g st : Nat) : State :=
  let s := (s.agentsOf g).foldl State.releaseOwned s
  let touched := (s.launches.filter fun p => p.2.st == .running && p.2.rect.any fun c => bhOf c == g).map (·.1)
  let s := touched.foldl (fun (s : State) l =>
    match s.launches.find l with
    | none => s
    | some la => if la.node then s.requeue l .gate else s.endFaulted l .gate) s
  let s := (s.cmds.filter fun p => bhOf p.2.core == g).foldl (fun s p => s.killCmd p.1) s
  let ofBh := fun (p : Port) => match p with | .core c => bhOf c == g | _ => false
  let s := (s.packs.filter fun p => ofBh p.2.src || ofBh p.2.dst).foldl (fun (s : State) p => s.dropPacket p.1) s
  let s := { s with
    accs := s.accs.filter fun p => bhOf p.2.core != g
    msgs := s.msgs.filter fun p => !((s.core p.2.dst).inq.contains p.1 && bhOf p.2.dst == g)
    pending := s.pending.filter fun e => match e with
      | .ghostUpdateArrive c | .sweepEnd c | .monitorWindowClose c | .stopNotice c _ _ | .slotEvictionDone c _ | .arrayEvictionDone c =>
        bhOf c != g
      | _ => true
    govs := s.govs.del g }
  let s := (bhCores g).foldl (fun (s : State) c => s.modCore c fun k => { ticks := k.ticks }) s
  let s := s.setSt g st
  if st = 0 then s.setWinBits (oBHC g) 7 1 0 else s.bhRec g

/-- The four fields that software writes. -/
def State.setBhFields (s : State) (g : Nat) (v : DWord) : State := s.setWinBits (oBHC g) 0 4 (bits v 0 4)

/-- A write of `BHC_g` that takes effect now. The entry under 12 + g notes a PLL that has still to lock. -/
def State.applyBhc (s : State) (g : Nat) (v : DWord) : State :=
  let o := s
  let st := s.bhSt g
  let s := s.setBhFields g v
  let pwr := bit v 0
  let clk := pwr && bit v 1
  let s := if clk && !(o.bhBit g 0 && o.bhBit g 1) then { s with bhSince := s.bhSince.put (12 + g) s.now }
    else if !clk then { s.setWinBits (oBHC g) 7 1 0 with bhSince := s.bhSince.del (12 + g) }
    else s
  match st with
  | 0 => if pwr then s.setSt g 1 else s
  | 1 => if pwr then s else s.setSt g 0
  | 2 => if !pwr then s.setSt g 0 else if o.bhBit g 2 && !bit v 2 then s.setSt g 2 else s
  | 3 => if !pwr || bit v 2 || (bit v 3 && !o.bhBit g 3) then s.setSt g 4 else s
  | 5 => if !pwr then s.enterReset g 0 else if bit v 2 then s.enterReset g 2
         else if !bit v 3 && s.bhBit g 7 then s.setSt g 3 else s
  | _ => s

/-- A write of `BHC_g`: during a drain or a dump it waits (R469, R471). -/
def State.writeBhc (s : State) (g : Nat) (v : DWord) : State :=
  if s.bhSt g = 4 || s.dumps.contains g then { s with bhWait := s.bhWait.put g v } else s.applyBhc g v

/-- What `BHC_g` holds or, during a drain, will hold. -/
def State.bhLast (s : State) (g : Nat) : DWord := (s.bhWait.find g).getD (s.win' (oBHC g))

/-- A held write takes effect. -/
def State.releaseBhc (s : State) (g : Nat) : State :=
  match s.bhWait.find g with
  | none => s
  | some v => { s with bhWait := s.bhWait.del g }.applyBhc g v

/-- Whether the drain of a bulkhead can end: no crossing is pending at its gate. -/
def State.canDrain (s : State) (g : Nat) : Bool := s.bhSt g == 4 && !(s.messages.any (s.crosses g))

/-- The end of a drain (R13, R469). -/
def State.drained (s : State) (g : Nat) : State :=
  let s := if !s.bhBit g 0 then s.enterReset g 0
    else if s.bhBit g 2 then s.enterReset g 2
    else (s.setSt g 5).bhRec g
  s.releaseBhc g

/-- A fatal error fences a bulkhead for its dump (R411); where there is no dump region its reset follows at once (R471). -/
def State.fatal (s : State) (g : Nat) : State :=
  if s.dumps.contains g || !(s.bhSt g = 3 || s.bhSt g = 4 || s.bhSt g = 5) then s
  else if s.winBits oDMB 27 21 = 0 then ((((s.setSt g 5).bhRec g).setWinBits (oBHC g) 2 1 1).enterReset g 2).releaseBhc g
  else { (s.setSt g 5).bhRec g with dumps := s.dumps ++ [g] }

/-- The bulkheads to which an uncorrectable error of a link is fatal (R452): that of a mesh link, or those of a commons link's die. -/
def linkUnits (link : Nat) : List Nat :=
  if meshLink link then [bhOf (linkName link % 0x1000 / 8)]
  else let d := (linkName link - 0x100) / 16; [3 * d, 3 * d + 1, 3 * d + 2]

/-- The flits that have reached a link's buffer with no slot free (R452), the total and one slot more, are fatal to its unit; their packets
are lost. -/
def State.lostFlits (s : State) : State :=
  (s.permits.filter fun p => decide (permitTotal (p.1 % 8) + 1 < p.2.buf.length)).foldl (fun (s : State) p =>
    (linkUnits (p.1 / 8)).foldl State.fatal ((p.2.buf.drop (permitTotal (p.1 % 8) + 1)).foldl (fun (s : State) id => s.dropPacket id) s)) s

/-! ## Partitions (R14 to R17) -/

/-- The 27 legal masks (R15). -/
def legalMasks : List Nat :=
  (List.range 12).map (2 ^ ·) ++ [0x003, 0x006, 0x018, 0x030, 0x0C0, 0x180, 0x600, 0xC00] ++ [0x007, 0x038, 0x1C0, 0xE00] ++
    [0x03F, 0xFC0, 0xFFF]

/-- Whether a write that sets en of a partition is accepted (R14). -/
def State.partOk (s : State) (n : Nat) (v : DWord) : Bool :=
  let m := bits v 0 12
  legalMasks.contains m && bits v 16 8 != 0 && (bhsOf m).all (fun g => s.bhSt g == 3) &&
    (List.range 12).all fun k => k == n || !s.partEn k || s.partMask k &&& m == 0

/-- Disables a window (R22): it admits no new operation, and its drain begins. -/
def State.disableWin (s : State) (w : Nat) : State :=
  if (s.winDrain.find w).isSome then s else { s with winDrain := s.winDrain.put w s.now }

/-- Begins a teardown (R17 steps 1 to 3). -/
def State.beginTeardown (s : State) (n : Nat) : State :=
  let s := s.modPart n fun p => { p with teardown := some s.now }
  let ls := (s.launches.filter fun p => p.2.part == n && p.2.st != .ended).map (·.1)
  let s := ls.foldl (fun s l => s.endFaulted l .gate) s
  ((List.range 32).filter fun w =>
    let x := s.win' (oWIN w)
    bit x 12 && (bits x 0 4 == n || bits x 4 4 == n)).foldl (fun s w => s.disableWin w) s

/-- A write of `PART_n` (R14, R17). A write with en to an enabled partition enables nothing anew: it writes gto alone (log entry 70);
during a teardown it is ignored, as R17 has it. -/
def State.writePart (s : State) (n : Nat) (v : DWord) : State :=
  if 12 ≤ n then s
  else if s.partEn n then
    if (s.part n).teardown.isSome && bit v 12 then s
    else
      let s := s.setWinBits (oPART n) 16 8 (bits v 16 8)
      if bit v 12 || (s.part n).teardown.isSome then s else s.beginTeardown n
  else
    let ok := s.partOk n v
    let s := (s.setWinBits (oPART n) 0 12 (bits v 0 12)).setWinBits (oPART n) 16 8 (bits v 16 8)
    if !bit v 12 then s
    else if !ok then s.setWinBits (oPART n) 13 1 1
    else
      let s := (s.setWinBits (oPART n) 12 2 1).modPart n fun _ => {}
      (bhsOf (bits v 0 12)).foldl (fun s g => s.setWinBits (oBHC g) 16 4 n) s

/-- Whether a window names a partition and is enabled. -/
def State.winNames (s : State) (n w : Nat) : Bool :=
  let x := s.win' (oWIN w)
  bit x 12 && (bits x 0 4 == n || bits x 4 4 == n)

/-- Whether a teardown can end (R17): windows drained, fragments delivered, and nothing of the partition under way, or the group
timeout past. -/
def State.canTeardown (s : State) (n : Nat) : Bool :=
  match (s.part n).teardown with
  | none => false
  | some t =>
    !((List.range 32).any (s.winNames n)) && !(s.frags.any fun p => p.2.owner == n) &&
      !((bhsOf (s.partMask n)).any fun g => s.messages.any (s.crosses g)) &&
      (decide (t + s.gto n ≤ s.now) ||
        (!(s.accs.any fun p => p.2.part == n && p.2.busy) && !(s.cmds.any fun p => p.2.part == n && p.2.live) &&
          !(s.launches.any fun p => p.2.part == n && p.2.counterPending.isSome)))

/-- The end of a teardown (R17 steps 4 and 5); messages that no handler of the partition will take are dropped. -/
def State.endTeardown (s : State) (n : Nat) : State :=
  let mine := fun (m : Nat) => ((s.msgs.find m).map fun x => s.partOf x.dst == n).getD true
  let s := { s with
    cores := s.cores.map fun (p : Nat × Core) => (p.1, if s.partOf p.1 = n then { p.2 with inq := [] } else p.2)
    msgs := s.msgs.filter fun p => !(mine p.1 && (s.core p.2.dst).inq.contains p.1) }
  let s := (s.cmds.filter fun p => p.2.part == n).foldl (fun s p => s.killCmd p.1 .gate) s
  let s := { s with accs := s.accs.filter fun p => p.2.part != n }
  let p := s.part n
  let s := s.modPart n fun _ => { fenceN := p.fenceN, fencePois := p.fencePois }
  let s := (bhsOf (s.partMask n)).foldl (fun s g => s.setWinBits (oBHC g) 16 4 0xF) s
  let fs := (List.range 1024).filter fun f => s.vfPart f == n && s.vfEn f
  let s := fs.foldl (fun s f => s.setWinBits (oVFM f) 4 1 0) s
  s.setWinBits (oPART n) 12 1 0

/-! ## Windows (R20 to R22) -/

/-- Whether a write that sets en of a window is accepted. -/
def State.windowOk (s : State) (a b : DWord) : Bool :=
  let kind := bits a 8 2
  bits a 0 4 != bits a 4 4 && s.partEn (bits a 0 4) && s.partEn (bits a 4 4) && kind != 3 && decide (bits b 0 32 < bits b 32 32) &&
    bits a 10 2 != 0 && !(kind == 1 && decide (2 ^ 24 < bits b 32 32)) && !(kind == 2 && bit a 10)

/-- A write of a window's words. A window of a partition in teardown is disabled as soon as it is enabled (R17 step 3). -/
def State.writeWin (s : State) (w : Nat) (a b : DWord) : State :=
  if 32 ≤ w then s
  else if s.winBits (oWIN w) 12 1 = 1 then
    if bit a 12 then s else s.disableWin w
  else
    let bad := s.winBits (oWIN w) 13 1
    let ok := s.windowOk a b
    let s := (s.setWin (oWIN w) (a &&& 0xFFF)).setWin (oWIN w + 8) b
    if !bit a 12 then s.setWinBits (oWIN w) 13 1 bad
    else if ok then
      let s := s.setWinBits (oWIN w) 12 2 1
      if (s.part (bits a 0 4)).teardown.isSome || (s.part (bits a 4 4)).teardown.isSome then s.disableWin w else s
    else s.setWinBits (oWIN w) 12 2 2

/-- Whether an operation that a window covers is under way (R22). -/
def State.underWindow (s : State) (w : Nat) : Bool :=
  let a := s.win' (oWIN w)
  let b := s.win' (oWIN w + 8)
  let own := bits a 0 4
  let gst := bits a 4 4
  let hit := fun u => decide (bits b 0 32 ≤ u ∧ u < bits b 32 32)
  match bits a 8 2 with
  | 0 =>
    let region := fun pa => ((s.region pa).map fun r => s.homeOwner r == own).getD false && hit (pa / 0x200000)
    (s.accs.any fun p => p.2.part == gst && p.2.lanes.any fun l => decide (l.st < 2) && region l.pa) ||
      s.cmds.any fun p => p.2.part == gst && p.2.live && p.2.gran.any fun q => region q.2.1
  | 1 => (s.frags.any fun p => p.2.owner == own && ((p.2.sender == gst && hit p.2.tag) || p.2.wins.contains w)) ||
      s.tallies.any fun p => p.2.owner == own && p.2.wins.contains w
  | _ => s.msgs.any fun p => p.2.reg && hit p.2.hidx && s.partOf p.2.dst == own && s.partOf p.2.src == gst &&
      s.onWay (· == .amArrive p.1)

/-- The operations under a window that has drained for the group timeout fail with `gate` (R22, R405): accesses and commands on its memory,
fragments that no router has accepted, messages on their way. What a router holds of the guest meets a closed window at its delivery. -/
def State.failUnder (s : State) (w : Nat) : State :=
  let a := s.win' (oWIN w)
  let b := s.win' (oWIN w + 8)
  let own := bits a 0 4
  let gst := bits a 4 4
  let hit := fun u => decide (bits b 0 32 ≤ u ∧ u < bits b 32 32)
  let region := fun pa => ((s.region pa).map fun r => s.homeOwner r == own).getD false && hit (pa / 0x200000)
  let gate := fun (s : State) id => (match s.cmds.find id with | some k => s.cmdGate k 0 | none => s).killCmd id .gate
  match bits a 8 2 with
  | 0 =>
    let s := (s.accs.filter fun p => p.2.part == gst).foldl (fun s p =>
      ((p.2.lanes.filter fun l => decide (l.st < 2) && region l.pa).map (·.pa / 128)).eraseDups.foldl (fun s ln =>
        s.losePartsIf p.1 ln (fun l => region l.pa) .gate) s) s
    (s.cmds.filter fun p => p.2.part == gst && p.2.live && p.2.gran.any fun q => region q.2.1).foldl (fun s p => gate s p.1) s
  | 1 =>
    let fs := s.frags.filter fun p => p.2.owner == own && p.2.sender == gst && hit p.2.tag && p.2.place == .sent
    let s := fs.foldl (fun (s : State) p => { s.recall (.fragmentArrive p.2.cmd p.2.f) with frags := s.frags.del p.1 }) s
    ((fs.map (·.2.cmd)).eraseDups).foldl gate s
  | _ =>
    (s.msgs.filter fun p => p.2.reg && hit p.2.hidx && s.partOf p.2.dst == own && s.partOf p.2.src == gst &&
      s.onWay (· == .amArrive p.1)).foldl (fun s p => s.failCrossing (.amArrive p.1)) s

/-! ## Functions, keys, home maps -/

/-- A write of `VFM_f` (R24). -/
def State.writeVfm (s : State) (f : Nat) (v : DWord) : State :=
  if 1024 ≤ f then s else
  let s := s.setWin (oVFM f) (v &&& 0x6F)
  if bit v 4 && s.partEn (bits v 0 4) then s.setWinBits (oVFM f) 4 1 1 else s

/-- Destroys the material of a key (R118, R468): the lines held under it are written back to memory first, with the words that cores own, and
no key reads them as they were. -/
def State.destroyKey (s : State) (i : Nat) : State :=
  let s := (s.dir.filter fun p => p.2.kid == i).foldl (fun (s : State) p =>
    let s := s.publishAll p.1
    s.setDir p.1 { s.dirOf p.1 with inL2 := false, dirty := false, inMsc := false, mscDirty := false }) s
  { s with nseq := s.nseq + 1, dir := s.dir.map fun p => (p.1, if p.2.kid = i then { p.2 with kid := deadKey s.nseq } else p.2) }

/-- A write of `KEY_i` (R468). -/
def State.writeKey (s : State) (i : Nat) (v : DWord) : State :=
  if i = 0 || 8192 ≤ i then s else
  let w := s.win' (oKEY i)
  let keep := bit v 10 && bits v 0 10 == bits w 0 10
  let s := if bit w 11 && !keep then s.destroyKey i else s
  s.setWin (oKEY i) (BitVec.ofNat 64 (bits v 0 11 + b2n (keep && bit w 11) * 2048))

/-- The regions of the word that `HMX` selects, none past its unit's range (R19). -/
def State.mapWord (s : State) : Option Nat :=
  let x := s.win' oHMX
  let u := bits x 0 2
  let w := bits x 4 20
  if bit x 2 then
    if w < 32 * min (s.winBits (oCXM u) 4 15) 16384 then some (0x40000 + u * 0x800000 + 16 * w) else none
  else if w < 3072 then some (49152 * u + 16 * w) else none

/-- What a read of `HMW` gives: the 16 entries of the selected word, all ones past its unit's range. -/
def State.readMap (s : State) : DWord :=
  match s.mapWord with
  | none => 0xFFFFFFFFFFFFFFFF
  | some r => BitVec.ofNat 64 ((List.range 16).foldl (fun n i => n + s.homeOwner (r + i) * 2 ^ (4 * i)) 0)

/-- `HMX` after an access to `HMW`. -/
def State.stepMap (s : State) : State :=
  if s.winBits oHMX 3 1 = 1 then s.setWinBits oHMX 4 20 (s.winBits oHMX 4 20 + 1) else s

/-- A write of `HMW`. -/
def State.writeMap (s : State) (v : DWord) : State :=
  let s := match s.mapWord with
    | none => s
    | some r => (List.range 16).foldl (fun (s : State) i =>
        { s with hmap := s.hmap.setD 0xF (r + i) (BitVec.ofNat 4 (bits v (4 * i) 4)) }) s
  s.stepMap

end Sys2Proof.Machine
end

