-- ==== Sys2Proof/Machine/EvBulkhead.lean ====
section
/-! DEFINITION. The events of bulkheads: power, clock, reset, gate, drain, fatal errors, dumps, trims (R13, R23, R411, R469, R471).
A row that is a write of one field of `BHC_g` keeps the other fields as last written. -/

namespace Sys2Proof.Machine

/-- A write of `BHC_g` that changes one field. -/
def State.writeBhBit (s : State) (g i : Nat) (b : Bool) : State := s.writeBhc g (setBits (s.bhLast g) i 1 (b2n b))

/-- Whether the manager can write a register of a bulkhead. -/
def State.bhReach (s : State) (g : Nat) : Bool := decide (g < 12) && s.hostUp

/-! ## Power and clock (R469) -/

/-- BULKHEAD_POWER_ON: a write of pwr 1. -/
def execBulkheadPowerOn (bh : Nat) (s : State) : Out := event (s.bhReach bh) s fun s => s.writeBhBit bh 0 true

/-- Whether a rail is coming up. -/
def State.railUp (s : State) (g : Nat) : Bool := decide (g < 12) && s.bhSt g == 1 && s.bhBit g 0 && (s.bhSince.find g).isSome

/-- BULKHEAD_RAIL_GOOD (R469): within 100 µs of the write. -/
def execBulkheadRailGood (bh : Nat) (s : State) : Out :=
  event (s.railUp bh && decide (s.now ≤ (s.bhSince.find bh).getD 0 + 200000)) s fun s => s.setSt bh 2

/-- BULKHEAD_RAIL_TIMEOUT (R469): the bulkhead stays at st = 1 and a src 14 record is written. -/
def execBulkheadRailTimeout (bh : Nat) (s : State) : Out :=
  event (s.railUp bh && decide ((s.bhSince.find bh).getD 0 + 200000 < s.now)) s fun s =>
    { s with bhSince := s.bhSince.del bh }.bhRec bh

/-- BULKHEAD_CLOCK_ENABLE (R13): a write of clk 1. -/
def execBulkheadClockEnable (bh : Nat) (s : State) : Out := event (s.bhReach bh) s fun s => s.writeBhBit bh 1 true

/-- Whether a PLL has still to lock. -/
def State.pllOn (s : State) (g : Nat) : Bool :=
  decide (g < 12) && s.bhBit g 0 && s.bhBit g 1 && !s.bhBit g 7 && (s.bhSince.find (12 + g)).isSome

/-- PLL_LOCK (R469): within 50 µs; a bulkhead whose reset is already released starts clearing now. -/
def execPllLock (bh : Nat) (s : State) : Out :=
  event (s.pllOn bh && decide (s.now ≤ (s.bhSince.find (12 + bh)).getD 0 + 100000)) s fun s =>
    let t : State := { s with bhSince := s.bhSince.del (12 + bh) }
    let t := t.setWinBits (oBHC bh) 7 1 1
    if t.bhSt bh = 2 then t.setSt bh 2 else t

/-- PLL_LOCK_TIMEOUT (R469): lock stays 0 and a src 14 record is written. -/
def execPllLockTimeout (bh : Nat) (s : State) : Out :=
  event (s.pllOn bh && decide ((s.bhSince.find (12 + bh)).getD 0 + 100000 < s.now)) s fun s =>
    { s with bhSince := s.bhSince.del (12 + bh) }.bhRec bh

/-! ## Reset and gate (R13, R411) -/

/-- BULKHEAD_RESET_RELEASE (R469): a write of rst 0. -/
def execBulkheadResetRelease (bh : Nat) (s : State) : Out := event (s.bhReach bh) s fun s => s.writeBhBit bh 2 false

/-- Whether the clearing of a bulkhead is over: 2^18 cycles after its release (R469). -/
def State.canInit (s : State) (g : Nat) : Bool :=
  decide (g < 12) && s.bhSt g == 2 && s.bhBit g 0 && s.bhBit g 7 && !s.bhBit g 2 &&
    decide ((s.bhSince.find g).getD 0 + 2 ^ 18 ≤ s.now)

/-- BULKHEAD_INIT_DONE (R469): every register file, buffer, cache and tile is zero, the arrays are trimmed. -/
def execBulkheadInitDone (bh : Nat) (s : State) : Out :=
  event (s.canInit bh) s fun s =>
    ((bhCores bh).foldl (fun s c => s.modCore c fun _ => { ticks := s.now / 256 }) s).setSt bh 3

/-- BULKHEAD_RESET_ASSERT (R411): a write of rst 1. -/
def execBulkheadResetAssert (bh : Nat) (s : State) : Out := event (s.bhReach bh) s fun s => s.writeBhBit bh 2 true

/-- BULKHEAD_GATE_CLOSE (R13): a write of gate 1. -/
def execBulkheadGateClose (bh : Nat) (s : State) : Out := event (s.bhReach bh) s fun s => s.writeBhBit bh 3 true

/-- BULKHEAD_GATE_OPEN (R13): a write of gate 0. -/
def execBulkheadGateOpen (bh : Nat) (s : State) : Out := event (s.bhReach bh) s fun s => s.writeBhBit bh 3 false

/-- BULKHEAD_POWER_OFF (R469): a write of pwr 0. -/
def execBulkheadPowerOff (bh : Nat) (s : State) : Out := event (s.bhReach bh) s fun s => s.writeBhBit bh 0 false

/-- BULKHEAD_DRAIN_DONE (R13): no crossing is pending any more. -/
def execBulkheadDrainDone (bh : Nat) (s : State) : Out :=
  event (decide (bh < 12) && s.canDrain bh) s fun s => s.drained bh

/-- Whether crossings of a shut gate have waited for the group timeout of their side. -/
def State.canGateTimeout (s : State) (g : Nat) : Bool := decide (g < 12) && s.messages.any (s.crossLate g)

/-- GATE_DRAIN_TIMEOUT (R13, R17, R23, R410): the crossings that have waited so long fail with `gate`. -/
def execGateDrainTimeout (bh : Nat) (s : State) : Out :=
  event (s.canGateTimeout bh) s fun s => (s.messages.filter (s.crossLate bh)).foldl (fun s e => s.failCrossing e) s

/-! ## Fatal errors and dumps (R411, R471) -/

/-- BULKHEAD_FATAL_ERROR (R411). -/
def execBulkheadFatalError (bh : Nat) (s : State) : Out := event (decide (bh < 12)) s fun s => s.fatal bh

/-- Writes bytes of a dump: writes by the device under key identifier 0. -/
def State.dumpWrite (s : State) (a : Nat) (bs : List Byte) : State :=
  let s := (s.devWrite a bs).2
  (linesOf a bs.length).foldl (fun (s : State) ln =>
    s.setDir ln { s.dirOf ln with kid := 0, orig := some (0, s.bytesAt (128 * ln) 128), inL2 := true, dirty := true }) s

/-- The bytes of a tile's cells and of its metadata in a dump (R471). -/
def Tile.cellBytes (x : Tile) : List Byte := (List.range 4096).flatMap fun i => natLe 4 (Tab.getD x.cells 0 i).toNat
def Tile.metaBytes (x : Tile) : List Byte :=
  ((List.range 64).flatMap fun i => natLe 8 ((Tab.getD x.rows 0 i).toNat +
    (if i = 0 then x.mode * 2 ^ 40 + b2n x.pois * 2 ^ 42 else 0))) ++
  (List.range 64).flatMap fun i => natLe 8 (Tab.getD x.cols 0 i).toNat

/-- The bytes of a slot in a dump: rows, side-area, record. -/
def Slot.dumpBytes (x : Slot) : List Byte :=
  ((List.range 8192).map fun i => Tab.getD x.rows 0 i) ++ ((List.range 512).map fun i => Tab.getD x.side 0 i) ++
    natLe 8 x.record.toNat

/-- The record of a core in a dump: free bytes where the spec gives no layout inside a region, then the tiles and slots (R471). The words that
fail their codes, of registers, L1 and stash, are marked poisoned, each at a free place of its region (log entry 59). -/
def State.dumpCore (s : State) (a core : Nat) : State :=
  let (k, s) := s.draw
  let c := s.core core
  let banks := [c.act, 1 - c.act]
  let file := fun (g : Lg) => (s.wgs.find g.wg).bind fun w => if w.here && w.core == core then some (b2n (w.bank != c.act)) else none
  let bad := (s.lgs.flatMap fun p => match file p.2 with
      | some b => p.2.bad.map fun r => a + 0x80000 * b + 4 * (Config.dumpPlace (1024 * p.1 + r) % 0x20000)
      | none => []) ++
    (c.l1.flatMap fun p => (lanesOf p.2.pois).map fun i => a + 0x2E0000 + 128 * (Config.dumpPlace p.1 % 1024) + 4 * i) ++
    ((s.wgs.filter fun p => p.2.here && p.2.core == core).flatMap fun w => w.2.stash.flatMap fun p =>
      (lanesOf p.2.pois).map fun i => a + 0x1E0000 + 128 * (Config.dumpPlace (p.1 + w.1) % 8192) + 4 * i)
  let tiles := banks.flatMap fun b => (List.range 16).map fun t => Tab.getD c.tiles {} (16 * b + t)
  let s := s.dumpWrite a ((Config.image k).take 0x400000)
  let s := s.dumpWrite (a + 0x110000) (tiles.flatMap Tile.cellBytes)
  let s := (List.range 32).foldl (fun (s : State) n => s.dumpWrite (a + 0x190000 + 9216 * n) (Tab.getD c.slots {} n).dumpBytes) s
  let s := (List.range 32).foldl (fun (s : State) n => (Tab.getD c.slots {} n).pois.foldl (fun (s : State) w =>
    s.setPois ((a + 0x190000 + 9216 * n) / 4 + w) true) s) s
  (bad.foldl (fun (s : State) x => s.setPois (x / 4) true) s).dumpWrite (a + 0x1D8000) (tiles.flatMap Tile.metaBytes)

/-- STATE_DUMP_DONE (R471): dumps are written one bulkhead at a time; one whose section runs past the memory fails, and its header's time is 0; then the bulkhead is reset, and a held write takes effect. -/
def execStateDumpDone (bh : Nat) (s : State) : Out :=
  memEvent (s.dumps.head? == some bh) s fun s =>
    let b := s.winBits oDMB 27 21
    let a := b * 2 ^ 27 + bh * 2 ^ 27
    let s := if b = 0 || s.paKind a = .none then s else
      let part := s.winBits (oBHC bh) 16 4
      let whole := s.paKind (a + 2 ^ 27 - 1) != .none
      let s := if !whole then s else
        (bhCores bh).zipIdx.foldl (fun (s : State) p => s.dumpCore (a + (p.2 + 1) * 0x400000) p.1) s
      s.dumpWrite a (natLe 8 1 ++ natLe 8 (recHead .none 14 part 0 0 0 0 bh) ++ natLe 8 (s.win' (oBHC bh)).toNat ++
        natLe 8 (if part < 12 then s.win' (oPART part) else 0).toNat ++ natLe 8 (if whole then s.time else 0))
    let s := { s with dumps := s.dumps.tail }
    ((s.setWinBits (oBHC bh) 2 1 1).enterReset bh 2).releaseBhc bh

/-! ## Trims (R469) -/

/-- Whether the Slate controller carries out commands (R465): its firmware runs, and no failed image has halted the boot. -/
def State.slateUp (s : State) : Bool := decide (1 ≤ s.boot.stage) && !s.boot.halted

/-- A write of `TRM_g`: the request stands until the trim can be made. -/
def State.writeTrm (s : State) (g : Nat) (go : Bool) : State :=
  if g < 12 && go then s.setWinBits (oTRM g) 1 1 1 else s

/-- TRIM_START (R469): a write of go. -/
def execTrimStart (bh : Nat) (s : State) : Out := event s.slateUp s fun s => s.writeTrm bh true

/-- Whether a requested trim can be carried out: no array of the bulkhead is held in WHITE mode. -/
def State.canTrim (s : State) (g : Nat) : Bool :=
  decide (g < 12) && s.winBits (oTRM g) 1 1 == 1 && s.bhSt g == 3 &&
    (bhCores g).all fun c => (s.core c).arr.holder.isNone || cfgGrey (s.core c).arr.cfg

/-- TRIM_DONE (R469, R446): the lock-out is cleared. -/
def execTrimDone (bh : Nat) (s : State) : Out :=
  event (s.canTrim bh) s fun s =>
    let s := s.setWinBits (oTRM bh) 1 1 0
    (bhCores bh).foldl (fun s c => s.modCore c fun k => { k with mon := { k.mon with lockout := false } }) s

end Sys2Proof.Machine
end

