-- ==== Sys2Proof/Machine/Sha.lean ====
section
/-! DEFINITION. SHA-384 (R465), the hash of FIPS 180-4: the spec names it and does not write it out (log entry 52). -/

namespace Sys2Proof.Machine

/-- The integer root of degree `d` of `n`, by bisection from bit `k` down. -/
def intRoot (d n : Nat) : Nat → Nat → Nat
  | 0, r => r
  | k + 1, r => intRoot d n k (if (r + 2 ^ k) ^ d ≤ n then r + 2 ^ k else r)

/-- The first 64 bits of the fraction of the root of degree `d` of a small number. -/
def rootBits (d p : Nat) : BitVec 64 := BitVec.ofNat 64 (intRoot d (p * 2 ^ (64 * d)) 72 0)

/-- The prime numbers below 410: eighty. -/
def shaPrimes : List Nat := (List.range 410).filter fun n => decide (2 ≤ n) && (List.range n).all fun d => decide (d < 2) || n % d != 0

/-- The round constants: cube roots of the first eighty primes. -/
def shaK : List (BitVec 64) := shaPrimes.map (rootBits 3)

/-- The first hash value: square roots of the ninth to the sixteenth prime. -/
def shaInit : List (BitVec 64) := ((shaPrimes.drop 8).take 8).map (rootBits 2)

/-- The big-endian words of a block. -/
def shaWords : List Byte → List (BitVec 64)
  | a :: b :: c :: d :: e :: f :: g :: h :: r => (a ++ b ++ c ++ d ++ e ++ f ++ g ++ h : BitVec 64) :: shaWords r
  | _ => []

/-- The message schedule: `k` further words, the newest sixteen held newest first; answers the words in their order. -/
def shaSchedule : Nat → List (BitVec 64) → List (BitVec 64)
  | 0, _ => []
  | k + 1, ws =>
    let at_ := fun i => ws.getD i 0
    let x := at_ 14
    let y := at_ 1
    let s0 := x.rotateRight 1 ^^^ x.rotateRight 8 ^^^ x >>> 7
    let s1 := y.rotateRight 19 ^^^ y.rotateRight 61 ^^^ y >>> 6
    let w := s1 + at_ 6 + s0 + at_ 15
    w :: shaSchedule k (w :: ws.take 15)

/-- One round on the eight working words, `kw` the sum of its constant and its schedule word. -/
def shaRound (kw : BitVec 64) : List (BitVec 64) → List (BitVec 64)
  | [a, b, c, d, e, f, g, h] =>
    let s1 := e.rotateRight 14 ^^^ e.rotateRight 18 ^^^ e.rotateRight 41
    let t1 := h + s1 + ((e &&& f) ^^^ (~~~e &&& g)) + kw
    let s0 := a.rotateRight 28 ^^^ a.rotateRight 34 ^^^ a.rotateRight 39
    let t2 := s0 + ((a &&& b) ^^^ (a &&& c) ^^^ (b &&& c))
    [t1 + t2, a, b, c, d + t1, e, f, g]
  | x => x

/-- One block of 128 bytes. -/
def shaBlock (hs : List (BitVec 64)) (block : List Byte) : List (BitVec 64) :=
  let ws := shaWords block
  let sched := ws ++ shaSchedule 64 ws.reverse
  let out := (shaK.zip sched).foldl (fun v p => shaRound (p.1 + p.2) v) hs
  (hs.zip out).map fun p => p.1 + p.2

/-- The padding of a message of `n` bytes: a one bit, zeros, the length in bits as 128 bits, big-endian. -/
def shaPad (n : Nat) : List Byte := 0x80#8 :: List.replicate ((239 - n % 128) % 128) 0 ++ (natLe 16 (8 * n)).reverse

/-- The hash over `k` blocks. -/
def shaBlocks : Nat → List (BitVec 64) → List Byte → List (BitVec 64)
  | 0, hs, _ => hs
  | k + 1, hs, m => shaBlocks k (shaBlock hs (m.take 128)) (m.drop 128)

/-- SHA-384: the first six words of the hash, big-endian. -/
def sha384 (m : List Byte) : List Byte :=
  let p := m ++ shaPad m.length
  ((shaBlocks (p.length / 128) shaInit p).take 6).flatMap fun w => (natLe 8 w.toNat).reverse

end Sys2Proof.Machine
end

