-- ==== Sys2Proof/Machine/EvManage.lean ====
section
/-! DEFINITION. The events of partitions, windows, home maps, functions, keys, breakpoints, the boot, and register writes
(R14 to R25, R4, R382, R465 to R468). -/

namespace Sys2Proof.Machine

/-! ## Partitions and windows -/

/-- PARTITION_ENABLE (R14): a write of `PART_n` that sets en. -/
def execPartitionEnable (part : Nat) (value : BitVec 64) (s : State) : Out :=
  event (s.hostUp && bit value 12) s fun s => s.writePart part value

/-- PARTITION_TEARDOWN (R17): a write of `PART_n` that clears en and keeps the other fields. -/
def execPartitionTeardown (part : Nat) (s : State) : Out :=
  event s.hostUp s fun s => s.writePart part (setBits (s.win' (oPART part)) 12 1 0)

/-- TEARDOWN_DONE (R17). -/
def execTeardownDone (part : Nat) (s : State) : Out :=
  event (decide (part < 12) && s.canTeardown part) s fun s => s.endTeardown part

/-- WINDOW_ENABLE (R20): a write of both words that sets en. -/
def execWindowEnable (win : Nat) (word0 word1 : BitVec 64) (s : State) : Out :=
  event (s.hostUp && bit word0 12) s fun s => s.writeWin win word0 word1

/-- WINDOW_DISABLE (R22): a write that clears en. -/
def execWindowDisable (win : Nat) (s : State) : Out :=
  event (s.hostUp && s.winBits (oWIN win) 12 1 == 1) s fun s =>
    s.writeWin win (setBits (s.win' (oWIN win)) 12 1 0) (s.win' (oWIN win + 8))

/-- Whether a closing window has drained for its guest's group timeout (R405). -/
def State.winLate (s : State) (w : Nat) : Bool :=
  ((s.winDrain.find w).map fun t => decide (t + s.gto (s.winBits (oWIN w) 4 4) ≤ s.now)).getD false

/-- Whether the drain of a window can end: the operations admitted under it have ended, or are to fail. -/
def State.canCloseWin (s : State) (w : Nat) : Bool := (s.winDrain.find w).isSome && (!s.underWindow w || s.winLate w)

/-- WINDOW_DRAIN_DONE (R22, R405): operations that the group timeout has found still under way fail with `gate`. -/
def execWindowDrainDone (win : Nat) (s : State) : Out :=
  event (s.canCloseWin win) s fun s =>
    let s := if s.underWindow win then s.failUnder win else s
    { s.setWinBits (oWIN win) 12 1 0 with winDrain := s.winDrain.del win }

/-- HOME_MAP_WRITE (R19). -/
def execHomeMapWrite (value : BitVec 64) (s : State) : Out := event s.hostUp s fun s => s.writeMap value

/-- HOME_MAP_READ_INC (R19): the manager reads `HMW`. -/
def execHomeMapReadInc (s : State) : Out := event s.hostUp s fun s => { s.stepMap with hostGot := some s.readMap }

/-! ## Functions and keys -/

/-- VF_ENABLE (R24): a write of `VFM_f` that sets en. -/
def execVfEnable (vf : Nat) (value : BitVec 32) (s : State) : Out :=
  event (s.hostUp && bit value 4) s fun s => s.writeVfm vf (value.setWidth 64)

/-- KEY_TABLE_WRITE (R468). -/
def execKeyTableWrite (key : Nat) (value : BitVec 64) (s : State) : Out := event s.hostUp s fun s => s.writeKey key value

/-- KEY_LOAD (R468): the wrapped-key command gives an assigned key its material. -/
def execKeyLoad (key : Nat) (s : State) : Out :=
  event (s.slateUp && decide (0 < key ∧ key < 8192) && s.winBits (oKEY key) 10 1 == 1) s fun s =>
    let s := if s.winBits (oKEY key) 11 1 = 1 then s.destroyKey key else s
    s.setWinBits (oKEY key) 11 1 1

/-! ## Breakpoints (R382) -/

/-- The lane group that `DBR` names, if it is stopped at a `bkpt`: in the active bank before the shadow bank. -/
def State.bkptAt (s : State) (w : DWord) : Option Nat :=
  let core := coreAt (bits w 0 5) (bits w 5 3)
  let at_ := fun bank => (s.lgs.find? fun p => p.2.status == .bkpt && p.2.lgn == bits w 12 5 &&
    ((s.wgs.find p.2.wg).map fun g => g.here && g.core == core && g.slot == bits w 8 4 && g.bank == bank).getD false).map (·.1)
  (at_ (s.core core).act).orElse fun _ => at_ (1 - (s.core core).act)

/-- A write of `DBR`: with go, the lane group continues at `cr.resume`. -/
def State.writeDbr (s : State) (w : DWord) : State :=
  let s := s.setWin oDBR (w &&& 0x1FFFF)
  if !bit w 17 then s else
  match s.bkptAt w with
  | none => s
  | some g => (s.modLg g fun l => { l with pc := l.resume, run := none }).makeReady g

/-- What `DBR`.hit reads (R467). -/
def State.dbrHit (s : State) : Bool := (s.bkptAt (s.win' oDBR)).isSome

/-- DEBUG_RESUME (R382): a write of `DBR` with go. -/
def execDebugResume (value : BitVec 64) (s : State) : Out := event (s.slateUp && bit value 17) s fun s => s.writeDbr value

/-! ## Errors, codes, retirement (R421, R426, R428) -/

/-- A write of `ECS_d`.str (R426). -/
def State.writeStr (s : State) (d : Nat) (str : Bool) : State :=
  if 4 ≤ d || s.winBits (oECS d) 1 1 = 1 || s.winBits (oECS d) 0 1 = b2n str then s
  else s.setWinBits (oECS d) 0 2 (b2n str + 2)

/-- L2_CODE_CHANGE (R426). -/
def execL2CodeChange (die : Nat) (str : Bool) (s : State) : Out := event s.slateUp s fun s => s.writeStr die str

/-- REENCODE_DONE (R426): every line of the die stands under the new code. -/
def execReencodeDone (die : Nat) (s : State) : Out :=
  event (decide (die < 4) && s.winBits (oECS die) 1 1 == 1) s fun s =>
    let str := s.winBits (oECS die) 0 1 == 1
    let s := (s.dir.filter fun p => p.2.inL2 && s.homeDie (128 * p.1) == die).foldl (fun (s : State) p =>
      s.setDir p.1 { s.dirOf p.1 with strong := str }) s
    s.setWinBits (oECS die) 1 1 0

/-- Retires a frame (R428): the retired table of a die holds 1,024. -/
def State.retire (s : State) (frame : Nat) : State :=
  let die := fun f => s.homeDie (65536 * f)
  if s.retired.contains frame then s.setWinBits oRTA 0 1 0
  else if 1024 ≤ (s.retired.filter fun f => die f == die frame).length then s.setWinBits oRTA 0 1 1
  else { s.setWinBits oRTA 0 1 0 with retired := (frame :: s.retired).sortNat, suspect := s.suspect.erase frame }

/-- RETIRE_FRAME (R428). -/
def execRetireFrame (frame : Nat) (s : State) : Out :=
  event (s.slateUp && decide (frame < 2 ^ 32)) s fun s => s.retire frame

/-- Bits of 8 bytes of a slot change by themselves: what they come to is found when the slot is read (R441). -/
def State.slotError (s : State) (core n byte : Nat) (flip : BitVec 64) : State :=
  let x := s.slot core n
  s.setSlot core n { x with errs := x.errs.setD 0 (byte / 8) (Tab.getD x.errs 0 (byte / 8) ^^^ flip) }

/-- SOFT_ERROR (R421, R441, R188, R215, R320, R411): a stored word changes its bits by itself. -/
def execSoftError (site : ErrSite) (s : State) : Out :=
  match site with
  | .register lg reg lane =>
    event (decide (reg < 256 ∧ lane < 32)) s fun s =>
      s.modLg lg fun l => { l with bad := if l.bad.contains (32 * reg + lane) then l.bad else (32 * reg + lane) :: l.bad }
  | .l1 core pa =>
    event (decide (core < 192)) s fun s =>
      let s := if ((s.core core).l1.find (pa / 128)).isSome then s.copyError core (pa / 128) (pa % 128 / 4) else s
      (s.stashHolders core (pa / 128)).foldl (fun s a => s.copyError a (pa / 128) (pa % 128 / 4)) s
  | .l2 pa => event (s.dirOf (pa / 128)).inL2 s fun s => s.sliceError (pa / 4)
  | .msc pa =>
    let d := s.dirOf (pa / 128)
    event (d.inMsc && !d.inL2) s fun s =>
      if d.mscDirty then ((List.range 32).map fun i => pa / 128 * 32 + i).foldl (fun s w => s.setPois w true) s
      else s.setDir (pa / 128) { d with inMsc := false }
  | .operand core slot byte flip =>
    event (decide (core < 192 ∧ slot < 32 ∧ byte < 8712)) s fun s => s.slotError core slot byte flip
  | .cell core tile i j flip =>
    event (decide (core < 192 ∧ tile < 16 ∧ i < 64 ∧ j < 64)) s fun s =>
      let b := (s.core core).act
      let x := s.tile core b tile
      s.setTile core b tile { x with cells := x.cells.setD 0 (64 * i + j) (Tab.getD x.cells 0 (64 * i + j) ^^^ flip) }
  | .sum core tile isRow idx flip =>
    event (decide (core < 192 ∧ tile < 16 ∧ idx < 64)) s fun s =>
      let b := (s.core core).act
      let x := s.tile core b tile
      s.setTile core b tile (if isRow then { x with rows := x.rows.setD 0 idx (Tab.getD x.rows 0 idx ^^^ flip) }
        else { x with cols := x.cols.setD 0 idx (Tab.getD x.cols 0 idx ^^^ flip) })
  | .control bh => event (decide (bh < 12)) s fun s => s.fatal bh
  | .commons die => event (decide (die < 4)) s fun s => [3 * die, 3 * die + 1, 3 * die + 2].foldl State.fatal s
  | .matching frag word =>
    event (decide (word < 128)) s fun s =>
      { s with frags := s.frags.modify frag fun f =>
        match f.place with
        | .store _ => { f with pois := (f.pois ++ [word / 2 * 2, word / 2 * 2 + 1]).eraseDups }
        | _ => f }
  | .fence part => event (decide (part < 12)) s fun s => s.modPart part fun p => { p with fencePois := true }
  | .corrected level die =>
    event (decide (level < 5 ∧ die < 4)) s fun s => if level = 4 then s.countL2 die else s.countCorrected level
  | .permit link chan =>
    event (decide (chan < 8)) s fun s =>
      let p := s.permit link chan
      s.setPermit link chan { p with held := p.held - 1 }
  | .surplus link chan =>
    event (decide (chan < 8)) s fun s =>
      let p := s.permit link chan
      s.setPermit link chan { p with held := p.held + 1 }

/-! ## The boot (R465, R466) -/

/-- PACKAGE_RESET (R465): every field at its reset value, but for what the outside world still does, the retired tables, the index of
the one-time keys, and memory, whose lines no key reads as they were. -/
def execPackageReset (s : State) : Out :=
  let lines := (s.mem.map fun p => p.1 / 128).eraseDups
  .next { State.reset with
    agenda := s.agenda, nfree := s.nfree, nseq := s.nseq + 1, retired := s.retired, mem := s.mem
    dir := lines.foldl (fun t ln => t.put ln { kid := deadKey s.nseq }) []
    boot := { quotes := s.boot.quotes } }

/-- The measurement register that a stage extends. -/
def Boot.extend (b : Boot) (hash : List Byte) : Boot :=
  let h := (hash ++ List.replicate 32 0).take 32
  match b.stage with
  | 0 => { b with m0 := (sha384 (b.m0 ++ h)).take 48 }
  | 1 => { b with m1 := (sha384 (b.m1 ++ h)).take 48 }
  | _ => { b with m2 := (sha384 (b.m2 ++ h)).take 48 }

/-- BOOT_STAGE (R465): `good` tells that the image passes its checks, `hash` is its SHA-256. With the commons firmware the die links begin
to train. -/
def execBootStage (good : Bool) (hash : List (BitVec 8)) (s : State) : Out :=
  event (decide (s.boot.stage < 3) && !s.boot.halted) s fun s =>
    if good then
      let t : State := { s with boot := { s.boot.extend hash with stage := s.boot.stage + 1 } }
      if s.boot.stage = 1 then t.trainLinks else t
    else { s with boot := { s.boot with halted := true } }

/-- BOOT_IMAGE_REPLACE (R465): a halted boot tries again with another image. -/
def execBootImageReplace (s : State) : Out := event s.boot.halted s fun s => { s with boot := { s.boot with halted := false } }

/-- What a quote signs (R466). -/
def Boot.message (b : Boot) (nonce : BitVec 256) : List Byte := b.m0 ++ b.m1 ++ b.m2 ++ Config.fused ++ natLe 32 nonce.toNat

/-- ATTEST_QUOTE (R466): each quote uses one one-time key; when all 2^20 are spent it is refused. -/
def execAttestQuote (nonce : BitVec 256) (s : State) : Out :=
  event s.slateUp s fun s =>
    let b := s.boot
    if 2 ^ 20 ≤ b.quotes then { s with boot := { b with refused := true } }
    else { s with boot := { b with
      quotes := b.quotes + 1, refused := false, lastQuote := some (b.message nonce ++ Config.sign b.quotes (b.message nonce)) } }

/-! ## Register writes (R4, R12, R240, R467) -/

/-- Writes the bits of `mask` of a register of the window. -/
def State.maskWin (s : State) (off : Nat) (mask v : DWord) : State := s.setWin off ((s.win' off &&& ~~~mask) ||| (v &&& mask))

/-- A write of a firmware register (R467): only the Slate controller's writes count. -/
def State.writeFirm (s : State) (o : Nat) (v : DWord) : State :=
  if o < 0x50060 then
    let bh := (o - 0x50000) / 8
    { s with govs := s.govs.setD {} bh (s.gov bh) }.maskWin o 0x1FF v
  else if 0x50100 ≤ o ∧ o < 0x50120 then (s.maskWin o 0x0000FFFFFFFF0000#64 v).writeStr ((o - 0x50100) / 8) (bit v 0)
  else if 0x50200 ≤ o ∧ o < 0x50300 then
    let i := (o - 0x50200) / 8
    let e := i / 8
    let m := i % 8 / 2
    let x := s.ldir e (i % 2) m
    let s := s.setLdir e (i % 2) m { x with crc := BitVec.ofNat 16 (bits v 8 16), nak := BitVec.ofNat 16 (bits v 24 16) }
    s.setLink e m { s.link e m with rtr := BitVec.ofNat 8 (bits v 40 8) }
  else if o = oDOM then s.maskWin o 0x1F v
  else if o = oPRT then s.maskWin o 0x0000FFFFFFFFFFFF#64 v
  else if 0x50D00 ≤ o ∧ o < 0x50F00 then s.maskWin o 0x1FFF v
  else if o = oRTA then s.retire (bits v 16 32)
  else if 0x50A40 ≤ o ∧ o < 0x50AC0 then s.setWin o v
  else if o = oDBR then s.writeDbr v
  else if 0x50B00 ≤ o ∧ o < 0x50B60 then s.writeTrm ((o - 0x50B00) / 8) (bit v 0)
  else if o = oDMB then s.maskWin o 0x0000FFFFF8000000#64 v
  else if 0x51000 ≤ o ∧ o < 0x51600 then s.maskWin o 0xFFFFFFFF v
  else s

/-- A write of a register of the manager window (R12, R135, R407, R427, R434, R467, R468). -/
def State.writeWindow (s : State) (slate : Bool) (o : Nat) (v : DWord) : State :=
  if 0x1000 ≤ o ∧ o < 0x2000 then (if o % 4 = 0 then s.writeVfm ((o - 0x1000) / 4) v else s)
  else if o % 8 ≠ 0 then s
  else if o < 0x60 then s.writePart (o / 8) v
  else if 0x100 ≤ o ∧ o < 0x160 then s.writeBhc ((o - 0x100) / 8) v
  else if 0x200 ≤ o ∧ o < 0x400 then
    let w := (o - 0x200) / 16
    if o % 16 = 0 then s.writeWin w v (s.win' (oWIN w + 8))
    else if s.winBits (oWIN w) 12 1 = 1 then s else s.setWin o v
  else if 0x2000 ≤ o ∧ o < 0x2020 then s.writeCxm ((o - 0x2000) / 8) v
  else if 0x2020 ≤ o ∧ o < 0x2040 then s.maskWin o 0x0000FFFFFFFF0000#64 v
  else if o = oHMX then s.maskWin o 0xFFFFFF v
  else if o = 0x3008 then s.writeMap v
  else if 0x10000 ≤ o ∧ o < 0x10060 then s.maskWin o 0xFFFFFFFFFFFFF001#64 v
  else if o = 0x10100 then s.writeS2r (bits v 0 4) (bits v 16 32 * 65536) (bit v 4)
  else if o = oMRB ∨ o = oFAQB ∨ (0x21000 ≤ o ∧ o < 0x23000) then s.maskWin o 0x0000FFFFFFFFF00F#64 v
  else if o = oFAQH then s.maskWin o 0xFFFFFFFF v
  else if o = oCET then s.maskWin o 0xFFFF v
  else if 0x30000 ≤ o ∧ o < 0x40000 then s.writeKey ((o - 0x30000) / 8) v
  else if 0x50000 ≤ o && slate then s.writeFirm o v
  else s

/-- A write of a register of a function's page (R135, R155, R240 to R242). -/
def State.writePage (s : State) (manager : Bool) (f o : Nat) (v : DWord) : State :=
  let put := fun (mask : DWord) => s.setVr f o ((s.vr f o &&& ~~~mask) ||| (v &&& mask))
  if 1024 ≤ f then s
  else if o = 0x00 then put 0xFFFFFFFFFFFFF001#64
  else if o = 0x08 then put 0x0000FFFFFFC00FFF#64
  else if o = 0x10 then put 0x0000FFFFFFFFF00F#64
  else if o = 0x20 then put 0xFFFFFFFF
  else if o = 0x28 then s.writePrd f (v.truncate 32)
  else if o = 0x30 then (if manager then put 0xFF else s)
  else if o = 0x38 then s.writeRsz f v
  else if 0x100 ≤ o ∧ o < 0x200 then
    let q := (o - 0x100) / 32
    if !s.queueOn f q then s
    else if o % 32 = 0 then put 0x0000FFFFFFFFF00F#64
    else if o % 32 = 8 then s.writeLqt f q (bits v 0 32)
    else s
  else if 0x200 ≤ o ∧ o < 0x300 then
    if o % 32 = 0 then put 0x01FFFFFFFFFFF00F#64
    else if o % 32 = 8 then s.writeSqc f ((o - 0x200) / 32) v
    else s
  else s

/-- What a read of a function's page gives (R240): the registers of a queue beyond qcnt read as zero, `PRD` and `RSZ` too. -/
def State.readPage (s : State) (f o : Nat) : DWord :=
  if 0x100 ≤ o ∧ o < 0x200 ∧ !s.queueOn f ((o - 0x100) / 32) then 0
  else if o = 0x28 then 0
  else s.vr f o

/-- REGISTER_WRITE (R4): a write of the register at an offset of a space, by the agent that the space stands for. -/
def execRegisterWrite (space : RegSpace) (off : Nat) (value : BitVec 64) (s : State) : Out :=
  match space with
  | .window => event s.hostUp s fun s => s.writeWindow false off value
  | .slate => event s.slateUp s fun s => s.writeWindow true off value
  | .page f => event s.hostUp s fun s => s.writePage false f off value
  | .pageManager f => event s.hostUp s fun s => s.writePage true f off value

end Sys2Proof.Machine
end

