-- ==== Sys2Proof/Machine/Due.lean ====
section
/-! DEFINITION. Which of the device's own events can happen now: the messages under way, each the event of the opcode table
of the same name, and the events whose conditions hold or whose bounds have passed (R50, R405). Events that come from outside the package, and errors, are
on the agenda alone. -/

namespace Sys2Proof.Machine

/-- The event that a message or step under way stands for: the meaning of the opcode table's row of the same name. A multicast reply
that crosses an edge is one packet, which its die's commons hands to each member (R218): none of it is under way as such. -/
def Ev.run : Ev → State → Out
  | .workgroupStart w => execWorkgroupStart w
  | .nodeDiscard l => execNodeDiscard l
  | .loadRequest a ln => execLoadRequest a (128 * ln)
  | .writeRegistration a ln => execWriteRegistration a (128 * ln)
  | .forcedPublishRequest a ln => execForcedPublishRequest a (128 * ln)
  | .publishArrive a ln cs own pois => execPublishArrive a (128 * ln) cs own pois
  | .nearAtomic a lane => execNearAtomic a lane
  | .farAtomic a lane => execFarAtomic a lane
  | .accessReply a ln => execAccessReply a (128 * ln)
  | .memoryReadComplete ln => execMemoryReadComplete (128 * ln) 0
  | .engineTakeOwnership c => execEngineTakeOwnership c
  | .engineFinish c => execEngineFinish c
  | .slotEvictionDone c n => execSlotEvictionDone c n
  | .arrayEvictionDone c => execArrayEvictionDone c
  | .mxLdDone c => execMxLdDone c
  | .busTransferDone c => execBusTransferDone c
  | .mxMmaDone c => execMxMmaDone c []
  | .mxPmmaDone c => execMxPmmaDone c []
  | .mxDrainDone c => execMxDrainDone c
  | .mxChkDone c => execMxChkDone c
  | .mxRelEffect c => execMxRelEffect c
  | .saLoadDone c => execSaLoadDone c
  | .saReadDone c => execSaReadDone c
  | .sweepEnd c => execSweepEnd c
  | .ghostSubscribe c => execGhostSubscribe c
  | .ghostUnsubscribe c => execGhostUnsubscribe c
  | .ghostAnswer c ok => execGhostAnswer c ok
  | .ghostUpdateArrive c => execGhostUpdateArrive c
  | .monitorWindowClose c => execMonitorWindowClose c
  | .stopNotice c ch src => State.stopNotice c ch src
  | .amArrive m => execAmArrive m
  | .mcastRequest c ln => execMcastRequest c (128 * ln)
  | .mcastReplyArrive c ln => execMcastReplyArrive c (128 * ln)
  | .mcastFan cs ln => fun s => .next ({ s with pending := s.pending.erase (.mcastFan cs ln) }.deliver (.mcastFan cs ln))
  | .mcastAlone c ln => fun s => execMcastReplyArrive c (128 * ln) ({ s with pending := s.pending.erase (.mcastAlone c ln) }.post (.mcastReplyArrive c ln))
  | .ghostUpdate c u => fun s => .next ({ s with pending := s.pending.erase (.ghostUpdate c u) }.deliver (.ghostUpdate c u))
  | .crossing c ln => fun s => .next ({ s with pending := s.pending.erase (.crossing c ln) }.deliver (.crossing c ln))
  | .writeBack ln => fun s => .next { s with pending := s.pending.erase (.writeBack ln) }
  | .fragmentArrive c f => execFragmentArrive c f
  | .overflowFragmentArrive f => execOverflowFragmentArrive f
  | .fragmentCombineDone f => execFragmentCombineDone f

/-! ## Order and ports of the fabric (R209, R212) -/

/-- The channel, the source and the destination of a message that has reached its agent, where several of its kind can follow one another
(R212): those of one route are performed in the order in which the fabric has delivered them. Active messages and ghost updates keep their
order in their own lists. -/
def State.route (s : State) (e : Ev) : Option (Chan × Nat × Nat) :=
  let acc := fun (a : Nat) (f : Access → Option (Chan × Nat × Nat)) => (s.accs.find a).bind f
  let cmd := fun (c : Nat) (f : Cmd → Option (Chan × Nat × Nat)) => (s.cmds.find c).bind f
  let home := fun (ln : Nat) => s.sliceAt (128 * ln)
  match e with
  | .loadRequest a ln | .writeRegistration a ln => acc a fun x => some (.req, x.core, home ln)
  | .nearAtomic a lane | .farAtomic a lane =>
      acc a fun x => (x.lanes.find? fun p => p.lane == lane).map fun p => (.req, x.core, home (p.pa / 128))
  | .accessReply a ln => acc a fun x => some (.rsp, home ln, x.core)
  | .forcedPublishRequest a ln => some (.snp, home ln, s.agentCore a)
  | .publishArrive a ln _ _ _ => some (.pub, s.agentCore a, home ln)
  | .mcastRequest c ln => cmd c fun x => some (.req, x.core, home ln)
  | .mcastReplyArrive c ln => cmd c fun x => some (.mc, home ln, x.core)
  | .mcastAlone c ln => cmd c fun x => some (.rsp, home ln, x.core)
  | .fragmentArrive c f => (s.frags.find? fun p => p.2.cmd == c && p.2.f == f).bind fun p =>
      cmd c fun x => some (.meet, x.core, 192 + 8 * p.2.die + p.2.router)
  | .overflowFragmentArrive f => (s.frags.find f).map fun x =>
      (.meet, 192 + 8 * x.die + x.router, 256 + 16 * x.die + (s.meetingPlace x.owner x.tag).2.2)
  | .fragmentCombineDone f => (s.frags.find f).map fun x =>
      (.req, 192 + 8 * x.die + x.router, home (((x.dst.head?.map (·.1)).getD 0) / 128))
  | .ghostSubscribe c => cmd c fun x => some (.ghost, x.core, ghostCore x.body.ghostWord)
  | .ghostUnsubscribe c => cmd c fun x => some (.ghost, x.core, s.oldSource x)
  | .ghostAnswer c _ => cmd c fun x => some (.rsp, ghostCore x.body.ghostWord, x.core)
  | .stopNotice c _ src => some (.ghost, src, c)
  | _ => none

/-- The core whose bulkhead's station ports an engine's step passes (R209); those of a packet are `State.portsLet`'s. -/
def State.portOf (s : State) (e : Ev) : Option Nat :=
  match e with
  | .engineTakeOwnership c | .engineFinish c | .mxLdDone c | .mxDrainDone c | .saLoadDone c | .saReadDone c => (s.cmds.find c).map (·.core)
  | _ => none

/-- The core inside which a step under way takes place. -/
def State.insideOf (s : State) (e : Ev) : Option Nat :=
  match e with
  | .accessReply a _ => (s.accs.find a).map (·.core)
  | .forcedPublishRequest a _ => some (s.agentCore a)
  | .amArrive m => (s.msgs.find m).map (·.dst)
  | .mcastReplyArrive c _ | .mcastAlone c _ | .ghostAnswer c _ => (s.cmds.find c).map (·.core)
  | .ghostUpdateArrive c | .stopNotice c _ _ => some c
  | .ghostSubscribe c | .ghostUnsubscribe c => (s.cmds.find c).map fun k => ghostCore k.body.ghostWord
  | .slotEvictionDone c _ | .arrayEvictionDone c | .sweepEnd c | .monitorWindowClose c => some c
  | .busTransferDone c | .mxMmaDone c | .mxPmmaDone c | .mxChkDone c | .mxRelEffect c => (s.cmds.find c).map (·.core)
  | _ => none

/-- Whether bulkheads let a message or step go on: those that do not run have closed their station ports (R209), the cores of a fenced
one stand still (R13). -/
def State.portsOpen (s : State) (e : Ev) : Bool :=
  ((s.portOf e).map fun c => s.bhSt (bhOf c) == 3).getD true && ((s.insideOf e).map fun c => s.bhSt (bhOf c) != 5).getD true

/-- Whether an event changes the machine now. -/
def State.moves (s : State) (f : State → Out) : Bool :=
  match f { s with pk := {} } with
  | .next t => t != { s with pk := {} }
  | _ => true

/-- Whether a message under way can be performed now. -/
def State.ripe (s : State) (e : Ev) : Bool := s.portsOpen e && s.moves e.run

/-- Of the messages under way, given the routes that an earlier one holds, those that can be performed now, in order on each route. -/
def State.ripeOf (s : State) : List (Chan × Nat × Nat) → List Ev → List Ev
  | _, [] => []
  | held, e :: r =>
    if !s.ripe e then s.ripeOf held r
    else match s.route e with
      | none => e :: s.ripeOf held r
      | some w => if held.contains w then s.ripeOf held r else e :: s.ripeOf (w :: held) r

/-! ## Events that are due -/

/-- An event, if its condition holds. -/
def onlyIf (b : Bool) (f : State → Out) : List (State → Out) := if b then [f] else []

/-- Pairs of a list of numbers with the first few others. -/
def withBelow (xs : List Nat) (n : Nat) : List (Nat × Nat) := xs.flatMap fun x => (List.range n).map fun i => (x, i)

/-- The cores that the state says something of. -/
def State.busyCores (s : State) : List Nat := (s.cores.keys ++ s.wgs.vals.map (·.core)).eraseDups.filter fun c => c < 192

/-- Events of lane groups and barriers (R37, R38, R50, R53, R148, R157, R162, R382). -/
def State.dueGroups (s : State) : List (State → Out) :=
  (s.lgs.flatMap fun p =>
    let g := p.1
    (match p.2.status with
     | .blocked b _ => onlyIf (s.wakes g).isSome (execLaneGroupWake g) ++
        (let la := ((s.wgs.find p.2.wg).map (·.launch)).getD 0
         match b with
         | .barWg n => onlyIf (s.barFull p.2.wg n) (execWgBarrierComplete p.2.wg n)
         | .barSpan ox oy lw lh => onlyIf (s.spanFull la ox oy lw lh) (execSpanBarrierComplete la ox oy lw lh)
         | .barStep => onlyIf (s.stepFull la) (execStepBarrierComplete la)
         | _ => [])
     | .ready => onlyIf (s.canAge g) (execLaneGroupAged g)
     | .yielding _ => onlyIf (s.canUnyield g) (execYieldExpiry g)
     | .parkedPage _ => onlyIf (s.canTimeout g) (execParkTimeout g)
     | .parkedS2 _ => onlyIf (s.canTimeout g) (execParkTimeout g)
     | _ => [])) ++
  (withBelow s.busyCores 4).flatMap fun p =>
    onlyIf (s.canGrow p.1 p.2) (execRegisterGrowGrant p.1 p.2) ++ onlyIf (s.canUnstick p.1 p.2) (execGrowthDeadlock p.1 p.2)

/-- The launches waiting or running to which an event of R33, R154, R406 or R453 is due. -/
def State.dueLaunches (s : State) : List (State → Out) :=
  s.launches.flatMap fun p =>
    let l := p.2
    onlyIf (s.launchOver p.1) (execLaunchComplete p.1) ++
    onlyIf (l.ending && s.allStopped p.1) (execFaultedLaunchEnd p.1) ++
    onlyIf (l.ending && decide (l.lastIssue + s.gto l.part < s.now)) (execFaultedLaunchTimeout p.1) ++
    onlyIf ((l.st == .waiting || l.st == .gang) && l.cor && !l.late && decide (l.since + s.gto l.part < s.now)) (execGroupWaitTimeout p.1) ++
    onlyIf (s.deadlocked p.1) (execPipeDeadlock p.1)

/-- What the distributors and the task pool do next (R36, R43, R151, R153, R241). -/
def State.dueWork (s : State) : List (State → Out) :=
  ((List.range 12).flatMap fun n =>
    match s.work n with
    | some (.readmit w) => [execReadmit w]
    | some (.place l) => [execWorkgroupPlace l]
    | some (.claim c) => [execTaskClaim n c]
    | none => []) ++
  (withBelow (s.vfr.keys.map (· / 4096)).eraseDups 8).flatMap fun p => onlyIf (s.canReadQueue p.1 p.2) (execLaunchQueueRead p.1 p.2)

/-- Events of cores: handlers, sweeps, pre-emption, L1 capacity, the rise of pts (R48, R107, R113, R130, R165 to R168, R201). -/
def State.dueCores (s : State) : List (State → Out) :=
  s.busyCores.flatMap fun c =>
    let k := s.core c
    let a := k.arr
    onlyIf (s.nextMsg c).isSome (execHandlerStart c) ++
    onlyIf (s.canSweep c) (execSweepBegin c) ++
    onlyIf (s.stallOver a) (execChainTimeout c) ++
    onlyIf (s.canFlip c) (execPreemptSwapDone c) ++ onlyIf (s.canSwapBack c) (execSwapBack c) ++
    onlyIf (s.canWriteOut c) (execShadowWriteoutDone c) ++
    onlyIf (s.bhSt (bhOf c) == 3 && decide (k.ticks < s.now / 256)) (execPtsTick c) ++
    (if 1024 ≤ k.l1.length then k.l1.map fun p => execL1Eviction c (128 * p.1) else []) ++
    (s.wgs.filter fun p => p.2.core == c).flatMap fun p =>
      onlyIf (s.canLeave p.1) (execSwapOutDone p.1) ++ onlyIf (s.canRestore c p.1) (execContextRestoreDone c p.1)

/-- Commands that their engines can start, and accesses that have waited at a slice beyond its bound (R179, R184, R205, R405). -/
def State.dueEngines (s : State) : List (State → Out) :=
  (s.cmds.flatMap fun p =>
    onlyIf (s.canMx p.1 p.2) (execMxCommandStart p.1) ++ onlyIf (s.canSa p.1 p.2 || s.lostSa p.1 p.2) (execSaCommandStart p.1) ++
    onlyIf (s.canBus p.1 p.2) (execBusTransferStart p.1)) ++
  s.accs.flatMap fun p =>
    ((p.2.lanes.filter fun q => q.st == 0 && decide (q.sentAt + 40000 ≤ s.now)).map (·.pa / 128)).eraseDups.flatMap fun ln =>
      onlyIf ((s.sliceWaits p.1 ln).any fun q => decide (q.sentAt + 40000 ≤ s.now)) (execSliceTimeout p.1 (128 * ln))

/-- Events of the fabric: the governor's windows, merge entries, fragments, permits (R171, R217, R219, R226, R452). -/
def State.dueFabric (s : State) : List (State → Out) :=
  (s.govs.flatMap fun p => onlyIf (decide (p.2.window < s.now / 256)) (execGovernorWindow p.1)) ++
  (s.merges.flatMap fun p =>
    let e := (p.1 / 16 % 4, p.1 % 16, p.1 / 64)
    onlyIf (!p.2.closed && decide (p.2.opened + 64 ≤ s.now)) (execMergeWindowExpiry e.1 e.2.1 e.2.2) ++
    onlyIf (p.2.closed && decide (p.2.opened + 1024 ≤ s.now)) (execMergeSetExpiry e.1 e.2.1 e.2.2)) ++
  (s.frags.flatMap fun p =>
    onlyIf ((match p.2.place with | .store _ => true | .overflow => true | _ => false) && decide (p.2.since + p.2.oto ≤ s.now))
      (execOrphanTimeout p.1)) ++
  s.permits.flatMap fun p => onlyIf (p.2.held + p.2.buf.length != permitTotal (p.1 % 8)) (execPermitAudit (p.1 / 8) (p.1 % 8))

/-- Events of the die links and ports (R235 to R237, R405, R432, R436). A flit arrives good; errors are on the agenda. -/
def State.dueLinks (s : State) : List (State → Out) :=
  ((List.range 32).flatMap fun k =>
    let e := k / 8
    let m := k / 2 % 4
    let d := k % 2
    let x := s.ldir e d m
    onlyIf (s.canFlit e d m) (execLinkFlitSend e d m) ++
    onlyIf (s.moduleUp e m && !x.flight.isEmpty && !s.nakDue e (1 - d) m) (execLinkFlitReceive e d m true) ++
    onlyIf (s.moduleUp e m && s.nakDue e d m) (execLinkNakReceive e d m) ++
    onlyIf (s.canIdle e d m) (execLinkIdleTimer e d m) ++
    onlyIf (s.canRepeatNak e d m) (execNakRepeatTimer e d m) ++
    onlyIf (s.moduleUp e m && s.ackLate e d m) (execLinkAckTimeout e m)) ++
  (s.links.flatMap fun p =>
    let e := p.1 / 4
    let m := p.1 % 4
    if p.2.st ≠ 1 || s.edgesDown.contains e then []
    else [execLinkRetrainDone e m (BitVec.ofNat 2 p.2.half)] ++ onlyIf (decide (p.2.trainAt + 1600 ≤ s.now)) (execRetrainTimeout e m true)) ++
  s.cxlDownAt.flatMap fun p => onlyIf (decide (p.2 + 4000 ≤ s.now)) (execCxlPortLost p.1)

/-- Answers and records owed to the host, and descriptors of stream queues (R142, R147, R244). -/
def State.dueHost (s : State) : List (State → Out) :=
  (s.syncs.flatMap fun p => onlyIf (s.canAnswer p.1) (execTlbSyncAnswer p.1)) ++
  (s.preqs.flatMap fun p => onlyIf (s.canRequest p.1) (execPageRequestWrite p.1)) ++
  s.streams.flatMap fun p => onlyIf (s.canDescribe (p.1 / 8) (p.1 % 8)) (execDescriptorPush (p.1 / 8) (p.1 % 8))

/-- Events of bulkheads, partitions, windows and codes (R13, R17, R22, R410, R426, R469, R471). -/
def State.dueManage (s : State) : List (State → Out) :=
  ((List.range 12).flatMap fun g =>
    onlyIf (s.railUp g && decide (s.now ≤ (s.bhSince.find g).getD 0 + 200000)) (execBulkheadRailGood g) ++
    onlyIf (s.railUp g && decide ((s.bhSince.find g).getD 0 + 200000 < s.now)) (execBulkheadRailTimeout g) ++
    onlyIf (s.pllOn g && decide (s.now ≤ (s.bhSince.find (12 + g)).getD 0 + 100000)) (execPllLock g) ++
    onlyIf (s.pllOn g && decide ((s.bhSince.find (12 + g)).getD 0 + 100000 < s.now)) (execPllLockTimeout g) ++
    onlyIf (s.canInit g) (execBulkheadInitDone g) ++
    onlyIf (s.canGateTimeout g) (execGateDrainTimeout g) ++
    onlyIf (s.canDrain g) (execBulkheadDrainDone g) ++
    onlyIf (s.canTrim g) (execTrimDone g) ++
    onlyIf (s.canTeardown g) (execTeardownDone g)) ++
  (s.dumps.head?.map execStateDumpDone).toList ++
  (s.winDrain.keys.filter s.canCloseWin).map execWindowDrainDone ++
  (List.range 4).flatMap fun d => onlyIf (s.winBits (oECS d) 1 1 == 1) (execReencodeDone d)

/-- Every event that is due. -/
def State.due (s : State) : List (State → Out) :=
  (s.dueGroups ++ s.dueLaunches ++ s.dueWork ++ s.dueCores ++ s.dueEngines ++ s.dueFabric ++ s.dueLinks ++ s.dueHost ++
    s.dueManage).filter s.moves

end Sys2Proof.Machine
end

