-- ==== Sys2Proof/Machine/Atomic.lean ====
section
/-! DEFINITION. Atomics: major 8 (R313, R314). -/

namespace Sys2Proof.Machine

/-- An atomic word: `o` bit 0 acquire, bit 1 release (R274); in staged mode it reaches a forced commit point first. -/
def atomWord (i : Instr) (s : State) (op : AtomOp) (c : BitVec 4) (d : BitVec 6) (g : BitVec 3) (a : BitVec 6)
    (w f : BitVec 1) (o : BitVec 2) : Out :=
  memWord i s fun x s =>
    let n := if w = 0 then 1 else 2
    let m := if op = .cas then 2 * n else n
    s.checked x (x.regF x.em a.toNat ++ (List.range m).flatMap fun r => x.regF x.em (d.toNat + r)) fun s =>
      let r : Req :=
        { kind := .atomic op (f = 1), ctr := c.toNat, d := d.toNat, size := 4 * n, acqr := bit o 0, relr := bit o 1, need := 3,
          lanes := x.lanes, addr := x.addr g.toNat a.toNat 0,
          data := fun j => x.regBytes (if op = .cas then d.toNat + n else d.toNat) n j,
          cmp := fun j => if op = .cas then x.regBytes d.toNat n j else [] }
      if r.lanes.isEmpty then s.issueReq x r
      else if s.acquiring x.g || (r.relr && !s.quiet x.g) then s.holdBack x
      else s.afterCommit x fun s => s.issueReq x r

def execAtomAdd (c : BitVec 4) (d : BitVec 6) (g : BitVec 3) (a : BitVec 6) (w f : BitVec 1) (o : BitVec 2) (s : State) : Out :=
  atomWord (.atomAdd c d g a w f o) s .add c d g a w f o
def execAtomFaddF32 (c : BitVec 4) (d : BitVec 6) (g : BitVec 3) (a : BitVec 6) (f : BitVec 1) (o : BitVec 2) (s : State) : Out :=
  atomWord (.atomFaddF32 c d g a f o) s .fadd c d g a 0 f o
def execAtomAnd (c : BitVec 4) (d : BitVec 6) (g : BitVec 3) (a : BitVec 6) (w f : BitVec 1) (o : BitVec 2) (s : State) : Out :=
  atomWord (.atomAnd c d g a w f o) s .and c d g a w f o
def execAtomOr (c : BitVec 4) (d : BitVec 6) (g : BitVec 3) (a : BitVec 6) (w f : BitVec 1) (o : BitVec 2) (s : State) : Out :=
  atomWord (.atomOr c d g a w f o) s .or c d g a w f o
def execAtomXor (c : BitVec 4) (d : BitVec 6) (g : BitVec 3) (a : BitVec 6) (w f : BitVec 1) (o : BitVec 2) (s : State) : Out :=
  atomWord (.atomXor c d g a w f o) s .xor c d g a w f o
def execAtomMin (c : BitVec 4) (d : BitVec 6) (g : BitVec 3) (a : BitVec 6) (z w f : BitVec 1) (o : BitVec 2) (s : State) : Out :=
  atomWord (.atomMin c d g a z w f o) s (if z = 1 then .minS else .minZ) c d g a w f o
def execAtomMax (c : BitVec 4) (d : BitVec 6) (g : BitVec 3) (a : BitVec 6) (z w f : BitVec 1) (o : BitVec 2) (s : State) : Out :=
  atomWord (.atomMax c d g a z w f o) s (if z = 1 then .maxS else .maxZ) c d g a w f o
def execAtomExch (c : BitVec 4) (d : BitVec 6) (g : BitVec 3) (a : BitVec 6) (w f : BitVec 1) (o : BitVec 2) (s : State) : Out :=
  atomWord (.atomExch c d g a w f o) s .exch c d g a w f o
def execAtomCas (c : BitVec 4) (d : BitVec 6) (g : BitVec 3) (a : BitVec 6) (w f : BitVec 1) (o : BitVec 2) (s : State) : Out :=
  atomWord (.atomCas c d g a w f o) s .cas c d g a w f o

end Sys2Proof.Machine
end

