-- ==== Sys2Proof/Machine/Control.lean ====
section
/-! DEFINITION. Control flow: major 9 (R325 to R329). -/

namespace Sys2Proof.Machine

/-- The packet at an offset from the branch's own (R325). -/
def State.offset (s : State) (o : BitVec 20) : DWord := s.pk.idx + o.signExtend 64

/-- Moves the current path. -/
def State.jump (s : State) (c : Ctx) (t : DWord) : State := s.up c fun l => { l with pc := t }

def execBra (o : BitVec 20) (s : State) : Out :=
  memWord (.bra o) s fun c s => s.landing c [s.offset o] fun s => s.jump c (s.offset o)

def execBraK (n : BitVec 4) (o : BitVec 20) (s : State) : Out :=
  memWord (.braK n o) s fun c s => if c.kr n.toNat = 0 then s else s.landing c [s.offset o] fun s => s.jump c (s.offset o)

def execCall (o : BitVec 20) (s : State) : Out :=
  memWord (.call o) s fun c s => s.landing c [s.offset o] fun s =>
    s.up c fun l => { l with lk := s.pk.succ, pc := s.offset o }

/-- `brd` (R326): both the taken packet and the successor must be targets. -/
def execBrd (v : BitVec 1) (q : BitVec 3) (o : BitVec 20) (s : State) : Out :=
  memWord (.brd v q o) s fun c s =>
    let t := (if v = 0 then c.q q.toNat else ~~~(c.q q.toNat)) &&& c.em
    let f := c.em &&& ~~~t
    s.landing c [s.offset o, s.pk.succ] fun s =>
      if t = 0 then s
      else if f = 0 then s.jump c (s.offset o)
      else s.checked c (c.illegalIf (8 ≤ c.lg.path.length)) fun s =>
        s.up c fun l => { l with path := l.path ++ [(t, s.offset o)], em := f }

def Lg.rj (l : Lg) (n : Nat) : Rejoin := Tab.getD l.j {} n
def Lg.setRj (l : Lg) (n : Nat) (r : Rejoin) : Lg := { l with j := l.j.setD {} n r }

/-- The next path of a lane group (R328), none where it ends. -/
def Lg.nextPath (l : Lg) : Option Lg :=
  match (List.range 4).find? fun n => (l.rj n).expected != 0 && (l.rj n).arrived == (l.rj n).expected with
  | some n => some ({ l with em := (l.rj n).expected, pc := (l.rj n).resume }.setRj n {})
  | none =>
    match l.path with
    | (m, i) :: r => some { l with em := m &&& ~~~l.ended, pc := i, path := r }
    | [] =>
      match (List.range 4).find? fun n => (l.rj n).arrived != 0 with
      | some n => some ({ l with em := (l.rj n).arrived, pc := (l.rj n).resume }.setRj n {})
      | none => none

/-- Ends the current path of a lane group (R328). -/
def State.endPath (s : State) (c : Ctx) : State :=
  match s.lgs.find c.g with
  | none => s
  | some l =>
    match l.nextPath with
    | some l => s.setLg c.g l
    | none => s.endLg c.g

def execJinit (j : BitVec 2) (m : BitVec 4) (s : State) : Out :=
  word (.jinit j m) s fun c s => s.checked c (c.illegalIf ((c.lg.rj j.toNat).arrived ≠ 0)) fun s =>
    s.up c fun l => l.setRj j.toNat { expected := if m.toNat < 8 then c.q m.toNat else c.em, arrived := 0, resume := 0 }

/-- Whether the end of this lane group would commit staged words that must wait for an engine (R116, R132). -/
def State.endWaits (s : State) (c : Ctx) : Bool :=
  c.la.staged && ((s.lgsOf c.lg.wg).all fun p => p.1 == c.g || p.2.status == .ended) && s.commitWaits c.lg.wg

/-- A word that may end its lane group: where that end would commit staged words on a line that an engine owns, it waits (R132). -/
def endWord (i : Instr) (s : State) (f : Ctx → State → State) : Out :=
  word i s fun c s =>
    let t := f c s
    if s.endWaits c && ((t.lgs.find c.g).map fun l => l.status == .ended).getD false then s.holdBack c else t

def execJwait (j : BitVec 2) (s : State) : Out :=
  endWord (.jwait j) s fun c s =>
    let r := c.lg.rj j.toNat
    if r.expected = 0 then s
    else s.checked c (c.illegalIf (c.em &&& ~~~r.expected ≠ 0)) fun s =>
      let a := r.arrived ||| c.em
      if a = r.expected then s.up c fun l => { l with em := r.expected }.setRj j.toNat {}
      else (s.up c fun l => l.setRj j.toNat { r with arrived := a, resume := s.pk.succ }).endPath c

/-- Withdraws lanes from a rejoin register. -/
def Lg.leaveRj (l : Lg) (em : Word) (n : Nat) : Lg :=
  let r := l.rj n
  let e := r.expected &&& ~~~em
  let a := r.arrived &&& ~~~em
  l.setRj n { expected := e, arrived := a, resume := if a = 0 then 0 else r.resume }

def execJarr (j : BitVec 2) (s : State) : Out :=
  word (.jarr j) s fun c s => s.up c fun l => l.leaveRj c.em j.toNat

def execRet (s : State) : Out :=
  endWord .ret s fun c s => if c.em ≠ 0 then s.jump c c.lg.lk else s.endPath c

def execExit (s : State) : Out :=
  endWord .exit s fun c s =>
    (s.up c fun l =>
      let l := (List.range 4).foldl (fun l n => l.leaveRj c.em n) l
      { l with ended := l.ended ||| c.em, em := 0 }).endPath c

def execEmRd (q : BitVec 3) (s : State) : Out :=
  word (.emRd q) s fun c s => s.up c fun l => l.setQ q.toNat c.em

def execEmWr (q : BitVec 3) (s : State) : Out :=
  word (.emWr q) s fun c s => s.up c fun l => { l with em := c.q q.toNat &&& ~~~l.ended }

end Sys2Proof.Machine
end

