-- ==== Sys2Proof/Machine/Fp.lean ====
section
/-! DEFINITION. Floating-point words: majors 2 and 3 (R288 to R290). -/

namespace Sys2Proof.Machine

/-! ## Major 2, binary -/

def execFaddF32 (d : BitVec 6) (n : BitVec 1) (a b : BitVec 8) (s : State) : Out :=
  fp32Word (.faddF32 d n a b) s n d a b f32.fadd
def execFsubF32 (d : BitVec 6) (n : BitVec 1) (a b : BitVec 8) (s : State) : Out :=
  fp32Word (.fsubF32 d n a b) s n d a b f32.fsub
def execFmulF32 (d : BitVec 6) (n : BitVec 1) (a b : BitVec 8) (s : State) : Out :=
  fp32Word (.fmulF32 d n a b) s n d a b f32.fmul
def execFminF32 (d : BitVec 6) (n : BitVec 1) (a b : BitVec 8) (s : State) : Out :=
  fp32Word (.fminF32 d n a b) s n d a b (f32.fminmax false)
def execFmaxF32 (d : BitVec 6) (n : BitVec 1) (a b : BitVec 8) (s : State) : Out :=
  fp32Word (.fmaxF32 d n a b) s n d a b (f32.fminmax true)
def execFaddBf16x2 (d : BitVec 6) (n : BitVec 1) (a b : BitVec 8) (s : State) : Out :=
  fpPkWord (.faddBf16x2 d n a b) s 1 n d a b bf16.fadd
def execFsubBf16x2 (d : BitVec 6) (n : BitVec 1) (a b : BitVec 8) (s : State) : Out :=
  fpPkWord (.fsubBf16x2 d n a b) s 1 n d a b bf16.fsub
def execFmulBf16x2 (d : BitVec 6) (n : BitVec 1) (a b : BitVec 8) (s : State) : Out :=
  fpPkWord (.fmulBf16x2 d n a b) s 1 n d a b bf16.fmul
def execFminBf16x2 (d : BitVec 6) (n : BitVec 1) (a b : BitVec 8) (s : State) : Out :=
  fpPkWord (.fminBf16x2 d n a b) s 1 n d a b (bf16.fminmax false)
def execFmaxBf16x2 (d : BitVec 6) (n : BitVec 1) (a b : BitVec 8) (s : State) : Out :=
  fpPkWord (.fmaxBf16x2 d n a b) s 1 n d a b (bf16.fminmax true)
def execFaddF16x2 (d : BitVec 6) (n : BitVec 1) (a b : BitVec 8) (s : State) : Out :=
  fpPkWord (.faddF16x2 d n a b) s 2 n d a b f16.fadd
def execFsubF16x2 (d : BitVec 6) (n : BitVec 1) (a b : BitVec 8) (s : State) : Out :=
  fpPkWord (.fsubF16x2 d n a b) s 2 n d a b f16.fsub
def execFmulF16x2 (d : BitVec 6) (n : BitVec 1) (a b : BitVec 8) (s : State) : Out :=
  fpPkWord (.fmulF16x2 d n a b) s 2 n d a b f16.fmul
def execFminF16x2 (d : BitVec 6) (n : BitVec 1) (a b : BitVec 8) (s : State) : Out :=
  fpPkWord (.fminF16x2 d n a b) s 2 n d a b (f16.fminmax false)
def execFmaxF16x2 (d : BitVec 6) (n : BitVec 1) (a b : BitVec 8) (s : State) : Out :=
  fpPkWord (.fmaxF16x2 d n a b) s 2 n d a b (f16.fminmax true)

/-! ## Major 2, unary (R289): operation numbers of R270 -/

def execFrcp (d : BitVec 6) (n : BitVec 1) (a : BitVec 8) (t : BitVec 2) (s : State) : Out :=
  fpUnWord (.frcp d n a t) s t n d a fun f => f.special 0
def execFrsqrt (d : BitVec 6) (n : BitVec 1) (a : BitVec 8) (t : BitVec 2) (s : State) : Out :=
  fpUnWord (.frsqrt d n a t) s t n d a fun f => f.special 1
def execFsqrt (d : BitVec 6) (n : BitVec 1) (a : BitVec 8) (t : BitVec 2) (s : State) : Out :=
  fpUnWord (.fsqrt d n a t) s t n d a fun f => f.special 2
def execFexp2 (d : BitVec 6) (n : BitVec 1) (a : BitVec 8) (t : BitVec 2) (s : State) : Out :=
  fpUnWord (.fexp2 d n a t) s t n d a fun f => f.special 3
def execFlog2 (d : BitVec 6) (n : BitVec 1) (a : BitVec 8) (t : BitVec 2) (s : State) : Out :=
  fpUnWord (.flog2 d n a t) s t n d a fun f => f.special 4
def execFsin (d : BitVec 6) (n : BitVec 1) (a : BitVec 8) (t : BitVec 2) (s : State) : Out :=
  fpUnWord (.fsin d n a t) s t n d a fun f => f.special 5
def execFcos (d : BitVec 6) (n : BitVec 1) (a : BitVec 8) (t : BitVec 2) (s : State) : Out :=
  fpUnWord (.fcos d n a t) s t n d a fun f => f.special 6

/-- The class mask; of packed elements, the high one's in bits [25:16]. No flag is set. -/
def execFclass (d : BitVec 6) (n : BitVec 1) (a : BitVec 8) (t : BitVec 2) (s : State) : Out :=
  fpUnWord (.fclass d n a t) s t n d a fun f x => (f.fclass x, 0)

/-! ## Major 3: the addend is the old destination, or the latch with n = 1 (R266, R290) -/

/-- A fused word on the three operands. -/
def fusedWord (i : Instr) (s : State) (pk : Nat) (n : BitVec 1) (d : BitVec 6) (a b : BitVec 8)
    (f : Word → Word → Word → Word × FFlags) : Out :=
  fpWord i s n d.toNat (fun c => c.dstF n d.toNat ++ c.srcF a ++ c.srcF b) fun c j =>
    f (c.src pk a j) (c.src pk b j) (c.dst n d.toNat j)

def execFfmaF32 (d : BitVec 6) (n : BitVec 1) (a b : BitVec 8) (g : BitVec 1) (s : State) : Out :=
  fusedWord (.ffmaF32 d n a b g) s 0 n d a b fun x y z => res32 (f32.ffma (g = 1) x.toNat y.toNat z.toNat)
def execFfmaBf16x2 (d : BitVec 6) (n : BitVec 1) (a b : BitVec 8) (g : BitVec 1) (s : State) : Out :=
  fusedWord (.ffmaBf16x2 d n a b g) s 1 n d a b (packed3 (bf16.ffma (g = 1)))
def execFfmaF16x2 (d : BitVec 6) (n : BitVec 1) (a b : BitVec 8) (g : BitVec 1) (s : State) : Out :=
  fusedWord (.ffmaF16x2 d n a b g) s 2 n d a b (packed3 (f16.ffma (g = 1)))
def execImadLo (d : BitVec 6) (n : BitVec 1) (a b : BitVec 8) (g : BitVec 1) (s : State) : Out :=
  fusedWord (.imadLo d n a b g) s 0 n d a b fun x y z => (if g = 1 then z - x * y else x * y + z, 0)
/-- With g = 1 the operands are signed. -/
def execImadHi (d : BitVec 6) (n : BitVec 1) (a b : BitVec 8) (g : BitVec 1) (s : State) : Out :=
  fusedWord (.imadHi d n a b g) s 0 n d a b fun x y z =>
    (if g = 1 then ((BitVec.ofInt 64 (x.toInt * y.toInt + z.toInt)) >>> 32).truncate 32
     else BitVec.ofNat 32 ((x.toNat * y.toNat + z.toNat) / 2 ^ 32), 0)

end Sys2Proof.Machine
end

