-- ==== Sys2Proof/Machine/Int.lean ====
section
/-! DEFINITION. Integer words: majors 0 and 1 (R285 to R287). -/

namespace Sys2Proof.Machine

/-- Leading zero bits, 0 to 32. -/
def clz32 (a : Word) : Word := BitVec.ofNat 32 (if a = 0 then 32 else 31 - Nat.log2 a.toNat)
/-- Bit i is bit 31 − i. -/
def brev32 (a : Word) : Word := BitVec.ofNat 32 ((List.range 32).foldl (fun r i => r + (if bit a i then 2 ^ (31 - i) else 0)) 0)
/-- Trailing zero bits, 0 to 32. -/
def ctz32 (a : Word) : Word := clz32 (brev32 a)
/-- Set bits. -/
def popc32 (a : Word) : Word := BitVec.ofNat 32 (lanesOf a).length
def shl32 (a b : Word) : Word := if b.toNat < 32 then a <<< b.toNat else 0
def shr32 (a b : Word) : Word := if b.toNat < 32 then a >>> b.toNat else 0
def sar32 (a b : Word) : Word := a.sshiftRight (min b.toNat 31)
def sext8 (i : BitVec 8) : Word := i.signExtend 32
/-- The mask of a field of width w + 1 at `p`, cut at bit 31 (R286, R287). -/
def fieldMask (w : BitVec 3) (p : BitVec 5) : Word := BitVec.ofNat 32 ((2 ^ (w.toNat + 1) - 1) * 2 ^ p.toNat)

/-! ## Major 0 -/

def execAdd (d : BitVec 6) (n : BitVec 1) (a b : BitVec 8) (s : State) : Out := binWord (.add d n a b) s n d a b (· + ·)
def execSub (d : BitVec 6) (n : BitVec 1) (a b : BitVec 8) (s : State) : Out := binWord (.sub d n a b) s n d a b (· - ·)
def execAddc (d : BitVec 6) (n : BitVec 1) (a b : BitVec 8) (s : State) : Out :=
  binWord (.addc d n a b) s n d a b fun x y => if 2 ^ 32 ≤ x.toNat + y.toNat then 1 else 0
def execSubb (d : BitVec 6) (n : BitVec 1) (a b : BitVec 8) (s : State) : Out :=
  binWord (.subb d n a b) s n d a b fun x y => if x.toNat < y.toNat then 1 else 0
def execMullo (d : BitVec 6) (n : BitVec 1) (a b : BitVec 8) (s : State) : Out := binWord (.mullo d n a b) s n d a b (· * ·)
def execMulhi (d : BitVec 6) (n : BitVec 1) (a b : BitVec 8) (s : State) : Out :=
  binWord (.mulhi d n a b) s n d a b fun x y => BitVec.ofNat 32 (x.toNat * y.toNat / 2 ^ 32)
def execAnd (d : BitVec 6) (n : BitVec 1) (a b : BitVec 8) (s : State) : Out := binWord (.and d n a b) s n d a b (· &&& ·)
def execOr (d : BitVec 6) (n : BitVec 1) (a b : BitVec 8) (s : State) : Out := binWord (.or d n a b) s n d a b (· ||| ·)
def execXor (d : BitVec 6) (n : BitVec 1) (a b : BitVec 8) (s : State) : Out := binWord (.xor d n a b) s n d a b (· ^^^ ·)
def execAndn (d : BitVec 6) (n : BitVec 1) (a b : BitVec 8) (s : State) : Out :=
  binWord (.andn d n a b) s n d a b fun x y => x &&& ~~~y
def execShl (d : BitVec 6) (n : BitVec 1) (a b : BitVec 8) (s : State) : Out := binWord (.shl d n a b) s n d a b shl32
def execShr (d : BitVec 6) (n : BitVec 1) (a b : BitVec 8) (s : State) : Out := binWord (.shr d n a b) s n d a b shr32
def execSar (d : BitVec 6) (n : BitVec 1) (a b : BitVec 8) (s : State) : Out := binWord (.sar d n a b) s n d a b sar32
def execRotl (d : BitVec 6) (n : BitVec 1) (a b : BitVec 8) (s : State) : Out :=
  binWord (.rotl d n a b) s n d a b fun x y => x.rotateLeft (y.toNat % 32)
def execMin (d : BitVec 6) (n : BitVec 1) (a b : BitVec 8) (s : State) : Out :=
  binWord (.min d n a b) s n d a b fun x y => if x.toInt ≤ y.toInt then x else y
def execMax (d : BitVec 6) (n : BitVec 1) (a b : BitVec 8) (s : State) : Out :=
  binWord (.max d n a b) s n d a b fun x y => if x.toInt ≤ y.toInt then y else x

/-! ## Major 1 -/

def execAddi (d : BitVec 6) (n : BitVec 1) (a i : BitVec 8) (s : State) : Out :=
  unWord (.addi d n a i) s n d a fun x => x + sext8 i
def execAndi (d : BitVec 6) (n : BitVec 1) (a i : BitVec 8) (s : State) : Out :=
  unWord (.andi d n a i) s n d a fun x => x &&& sext8 i
def execOri (d : BitVec 6) (n : BitVec 1) (a i : BitVec 8) (s : State) : Out :=
  unWord (.ori d n a i) s n d a fun x => x ||| sext8 i
def execXori (d : BitVec 6) (n : BitVec 1) (a i : BitVec 8) (s : State) : Out :=
  unWord (.xori d n a i) s n d a fun x => x ^^^ sext8 i
def execShli (d : BitVec 6) (n : BitVec 1) (a : BitVec 8) (i : BitVec 5) (s : State) : Out :=
  unWord (.shli d n a i) s n d a fun x => x <<< i.toNat
def execShri (d : BitVec 6) (n : BitVec 1) (a : BitVec 8) (i : BitVec 5) (s : State) : Out :=
  unWord (.shri d n a i) s n d a fun x => x >>> i.toNat
def execSari (d : BitVec 6) (n : BitVec 1) (a : BitVec 8) (i : BitVec 5) (s : State) : Out :=
  unWord (.sari d n a i) s n d a fun x => x.sshiftRight i.toNat
def execMuli (d : BitVec 6) (n : BitVec 1) (a i : BitVec 8) (s : State) : Out :=
  unWord (.muli d n a i) s n d a fun x => x * sext8 i
def execClz (d : BitVec 6) (n : BitVec 1) (a : BitVec 8) (s : State) : Out := unWord (.clz d n a) s n d a clz32
def execCtz (d : BitVec 6) (n : BitVec 1) (a : BitVec 8) (s : State) : Out := unWord (.ctz d n a) s n d a ctz32
def execPopc (d : BitVec 6) (n : BitVec 1) (a : BitVec 8) (s : State) : Out := unWord (.popc d n a) s n d a popc32
def execBrev (d : BitVec 6) (n : BitVec 1) (a : BitVec 8) (s : State) : Out := unWord (.brev d n a) s n d a brev32
def execBfe (d : BitVec 6) (n : BitVec 1) (a : BitVec 8) (w : BitVec 3) (p : BitVec 5) (s : State) : Out :=
  unWord (.bfe d n a w p) s n d a fun x => (x >>> p.toNat) &&& fieldMask w 0
/-- Reads its destination as well (R287). -/
def execBfi (d : BitVec 6) (n : BitVec 1) (a : BitVec 8) (w : BitVec 3) (p : BitVec 5) (s : State) : Out :=
  laneWord (.bfi d n a w p) s n d.toNat (fun c => c.dstF n d.toNat ++ c.srcF a) fun c j =>
    (c.dst n d.toNat j &&& ~~~(fieldMask w p)) ||| ((c.src 0 a j <<< p.toNat) &&& fieldMask w p)

end Sys2Proof.Machine
end

