-- ==== Sys2Proof/Machine/Pred.lean ====
section
/-! DEFINITION. Compares and predicates: major 4 (R291, R292). -/

namespace Sys2Proof.Machine

/-- The conditions of `icmp` (R271, R291). -/
def icmpHolds (c : BitVec 3) (a b : Word) : Bool :=
  match c.toNat with
  | 0 => a == b
  | 1 => a != b
  | 2 => a.slt b
  | 3 => a.sle b
  | 4 => b.slt a
  | 5 => b.sle a
  | 6 => a.ult b
  | _ => b.ule a

/-- The mask whose active lanes hold. -/
def maskWhere (em : Word) (f : Nat → Bool) : Word := maskOf ((lanesOf em).filter f)

def execIcmp (c q : BitVec 3) (a b : BitVec 8) (s : State) : Out :=
  word (.icmp c q a b) s fun x s => s.checked x (x.srcF a ++ x.srcF b) fun s => s.up x fun l =>
    l.wrQ x.em q.toNat (maskWhere x.em fun j => icmpHolds c (x.src 0 a j) (x.src 0 b j))

def execFcmp (c q : BitVec 3) (a b : BitVec 8) (s : State) : Out :=
  word (.fcmp c q a b) s fun x s => s.checked x (x.srcF a ++ x.srcF b) fun s => s.up x fun l =>
    (l.wrQ x.em q.toNat (maskWhere x.em fun j => (fcmpHolds c.toNat (x.src 0 a j).toNat (x.src 0 b j).toNat).1)).raiseF
      (nvIf ((lanesOf x.em).any fun j => (fcmpHolds c.toNat (x.src 0 a j).toNat (x.src 0 b j).toNat).2))

def execSel (q : BitVec 3) (d : BitVec 6) (n : BitVec 1) (a b : BitVec 8) (s : State) : Out :=
  laneWord (.sel q d n a b) s n d.toNat (fun c => c.srcF a ++ c.srcF b) fun c j =>
    if (c.q q.toNat).getLsbD j then c.src 0 a j else c.src 0 b j

/-- A word that writes all 32 bits of a predicate from the predicates before the packet. -/
def maskWord (i : Instr) (s : State) (d : BitVec 3) (f : Ctx → Word) : Out :=
  word i s fun c s => s.up c fun l => l.setQ d.toNat (f c)

def execPand (d a b : BitVec 3) (s : State) : Out := maskWord (.pand d a b) s d fun c => c.q a.toNat &&& c.q b.toNat
def execPor (d a b : BitVec 3) (s : State) : Out := maskWord (.por d a b) s d fun c => c.q a.toNat ||| c.q b.toNat
def execPxor (d a b : BitVec 3) (s : State) : Out := maskWord (.pxor d a b) s d fun c => c.q a.toNat ^^^ c.q b.toNat
def execPnot (d a : BitVec 3) (s : State) : Out := maskWord (.pnot d a) s d fun c => ~~~(c.q a.toNat)
def execPtest (m d a : BitVec 3) (s : State) : Out :=
  maskWord (.ptest m d a) s d fun c =>
    let x := c.q a.toNat &&& c.em
    allQ (if m = 0 then x != 0 else if m = 1 then x == c.em else x == 0)

end Sys2Proof.Machine
end

