-- ==== Sys2Proof/Machine/Uniform.lean ====
section
/-! DEFINITION. Uniform instructions: major 11 (R330 to R334, R63, R64). -/

namespace Sys2Proof.Machine

/-- The check that the lane group owns a `k` register it writes (R63). -/
def Ctx.ownF (c : Ctx) (d : Nat) : List Finding := c.finding (!c.owns d) .kown

/-- A word that writes a `k` register. -/
def kWord (i : Instr) (s : State) (d : BitVec 5) (f : Ctx → DWord) : Out :=
  word i s fun c s => s.checked c (c.ownF d.toNat) fun s => s.wrK c.lg.wg d.toNat c.lg.lgn (f c)

/-- A word of two uniform operands. -/
def kBin (i : Instr) (s : State) (d : BitVec 5) (a b : BitVec 8) (f : DWord → DWord → DWord) : Out :=
  kWord i s d fun c => f (c.uni a) (c.uni b)

/-- The outcome of a uniform compare. -/
def kBool (b : Bool) : DWord := if b then 1 else 0

def execKmov (d : BitVec 5) (a : BitVec 8) (s : State) : Out := kWord (.kmov d a) s d fun c => c.uni a
def execKmovFromLk (d : BitVec 5) (s : State) : Out := kWord (.kmovFromLk d) s d fun c => c.sn.lk
def execKmovToLk (a : BitVec 8) (s : State) : Out :=
  word (.kmovToLk a) s fun c s => s.up c fun l => { l with lk := c.uni a }
def execKadd (d : BitVec 5) (a b : BitVec 8) (s : State) : Out := kBin (.kadd d a b) s d a b (· + ·)
def execKsub (d : BitVec 5) (a b : BitVec 8) (s : State) : Out := kBin (.ksub d a b) s d a b (· - ·)
def execKand (d : BitVec 5) (a b : BitVec 8) (s : State) : Out := kBin (.kand d a b) s d a b (· &&& ·)
def execKor (d : BitVec 5) (a b : BitVec 8) (s : State) : Out := kBin (.kor d a b) s d a b (· ||| ·)
def execKxor (d : BitVec 5) (a b : BitVec 8) (s : State) : Out := kBin (.kxor d a b) s d a b (· ^^^ ·)
def execKshl (d : BitVec 5) (a b : BitVec 8) (s : State) : Out :=
  kBin (.kshl d a b) s d a b fun x y => if 64 ≤ y.toNat then 0 else x <<< y.toNat
def execKshr (d : BitVec 5) (a b : BitVec 8) (s : State) : Out :=
  kBin (.kshr d a b) s d a b fun x y => if 64 ≤ y.toNat then 0 else x >>> y.toNat
def execKcmpEq (d : BitVec 5) (a b : BitVec 8) (s : State) : Out := kBin (.kcmpEq d a b) s d a b fun x y => kBool (x == y)
def execKcmpLtS (d : BitVec 5) (a b : BitVec 8) (s : State) : Out := kBin (.kcmpLtS d a b) s d a b fun x y => kBool (x.slt y)
def execKcmpLtZ (d : BitVec 5) (a b : BitVec 8) (s : State) : Out := kBin (.kcmpLtZ d a b) s d a b fun x y => kBool (x.ult y)

/-- `kbr` (R332): the landing is checked. -/
def execKbr (a : BitVec 8) (s : State) : Out :=
  memWord (.kbr a) s fun c s => s.landing c [c.uni a] fun s => s.up c fun l => { l with pc := c.uni a }

/-- Changes the owner of a `k` register: a lane-group number, 32 for none. -/
def State.setOwner (s : State) (w n o : Nat) : State := s.modWg w fun g => { g with kown := g.kown.setD 0 n o }

/-- `kclaim` (R333, R63): never blocks; a successful claimant reads the latest value. -/
def execKclaim (d : BitVec 5) (p : BitVec 3) (s : State) : Out :=
  word (.kclaim d p) s fun c s =>
    let o := c.owner d.toNat
    let ok := o == 32 || o == c.lg.lgn
    (if ok then s.setOwner c.lg.wg d.toNat c.lg.lgn else s).up c fun l =>
      { l with kv := if ok then l.kv.del d.toNat else l.kv }.setQ p.toNat (allQ ok)

/-- `krel` (R333, R63, R64): earlier writes become visible, then the register has no owner. -/
def execKrel (d : BitVec 5) (s : State) : Out :=
  word (.krel d) s fun c s => s.checked c (c.ownF d.toNat) fun s =>
    (s.showK c.lg.wg d.toNat).setOwner c.lg.wg d.toNat 32

/-- `kfromv` (R334): both sources in the lowest active lane. -/
def execKfromv (d : BitVec 5) (a b : BitVec 8) (s : State) : Out :=
  word (.kfromv d a b) s fun c s =>
    if c.em = 0 then s else
    let m := 1#32 <<< c.exLane
    s.checked c (c.srcAt m id a ++ c.srcAt m id b ++ c.ownF d.toNat) fun s =>
      s.wrK c.lg.wg d.toNat c.lg.lgn
        ((c.src 0 a c.exLane).setWidth 64 ||| ((c.src 0 b c.exLane).setWidth 64 <<< 32))

end Sys2Proof.Machine
end

