-- ==== Sys2Proof/Machine/Dispatch.lean ====
section
/-! DEFINITION. The meaning of every instruction and event, one arm per constructor. -/

namespace Sys2Proof.Machine

def exec (i : Instr) (s : State) : Host.Outcome State Fault Refusal :=
  match i with
  | .add d n a b => Sys2Proof.Machine.execAdd d n a b s
  | .sub d n a b => Sys2Proof.Machine.execSub d n a b s
  | .addc d n a b => Sys2Proof.Machine.execAddc d n a b s
  | .subb d n a b => Sys2Proof.Machine.execSubb d n a b s
  | .mullo d n a b => Sys2Proof.Machine.execMullo d n a b s
  | .mulhi d n a b => Sys2Proof.Machine.execMulhi d n a b s
  | .and d n a b => Sys2Proof.Machine.execAnd d n a b s
  | .or d n a b => Sys2Proof.Machine.execOr d n a b s
  | .xor d n a b => Sys2Proof.Machine.execXor d n a b s
  | .andn d n a b => Sys2Proof.Machine.execAndn d n a b s
  | .shl d n a b => Sys2Proof.Machine.execShl d n a b s
  | .shr d n a b => Sys2Proof.Machine.execShr d n a b s
  | .sar d n a b => Sys2Proof.Machine.execSar d n a b s
  | .rotl d n a b => Sys2Proof.Machine.execRotl d n a b s
  | .min d n a b => Sys2Proof.Machine.execMin d n a b s
  | .max d n a b => Sys2Proof.Machine.execMax d n a b s
  | .addi d n a ix => Sys2Proof.Machine.execAddi d n a ix s
  | .andi d n a ix => Sys2Proof.Machine.execAndi d n a ix s
  | .ori d n a ix => Sys2Proof.Machine.execOri d n a ix s
  | .xori d n a ix => Sys2Proof.Machine.execXori d n a ix s
  | .shli d n a ix => Sys2Proof.Machine.execShli d n a ix s
  | .shri d n a ix => Sys2Proof.Machine.execShri d n a ix s
  | .sari d n a ix => Sys2Proof.Machine.execSari d n a ix s
  | .muli d n a ix => Sys2Proof.Machine.execMuli d n a ix s
  | .clz d n a => Sys2Proof.Machine.execClz d n a s
  | .ctz d n a => Sys2Proof.Machine.execCtz d n a s
  | .popc d n a => Sys2Proof.Machine.execPopc d n a s
  | .brev d n a => Sys2Proof.Machine.execBrev d n a s
  | .bfe d n a w p => Sys2Proof.Machine.execBfe d n a w p s
  | .bfi d n a w p => Sys2Proof.Machine.execBfi d n a w p s
  | .faddF32 d n a b => Sys2Proof.Machine.execFaddF32 d n a b s
  | .fsubF32 d n a b => Sys2Proof.Machine.execFsubF32 d n a b s
  | .fmulF32 d n a b => Sys2Proof.Machine.execFmulF32 d n a b s
  | .fminF32 d n a b => Sys2Proof.Machine.execFminF32 d n a b s
  | .fmaxF32 d n a b => Sys2Proof.Machine.execFmaxF32 d n a b s
  | .faddBf16x2 d n a b => Sys2Proof.Machine.execFaddBf16x2 d n a b s
  | .fsubBf16x2 d n a b => Sys2Proof.Machine.execFsubBf16x2 d n a b s
  | .fmulBf16x2 d n a b => Sys2Proof.Machine.execFmulBf16x2 d n a b s
  | .fminBf16x2 d n a b => Sys2Proof.Machine.execFminBf16x2 d n a b s
  | .fmaxBf16x2 d n a b => Sys2Proof.Machine.execFmaxBf16x2 d n a b s
  | .faddF16x2 d n a b => Sys2Proof.Machine.execFaddF16x2 d n a b s
  | .fsubF16x2 d n a b => Sys2Proof.Machine.execFsubF16x2 d n a b s
  | .fmulF16x2 d n a b => Sys2Proof.Machine.execFmulF16x2 d n a b s
  | .fminF16x2 d n a b => Sys2Proof.Machine.execFminF16x2 d n a b s
  | .fmaxF16x2 d n a b => Sys2Proof.Machine.execFmaxF16x2 d n a b s
  | .frcp d n a t => Sys2Proof.Machine.execFrcp d n a t s
  | .frsqrt d n a t => Sys2Proof.Machine.execFrsqrt d n a t s
  | .fsqrt d n a t => Sys2Proof.Machine.execFsqrt d n a t s
  | .fexp2 d n a t => Sys2Proof.Machine.execFexp2 d n a t s
  | .flog2 d n a t => Sys2Proof.Machine.execFlog2 d n a t s
  | .fsin d n a t => Sys2Proof.Machine.execFsin d n a t s
  | .fcos d n a t => Sys2Proof.Machine.execFcos d n a t s
  | .fclass d n a t => Sys2Proof.Machine.execFclass d n a t s
  | .ffmaF32 d n a b g => Sys2Proof.Machine.execFfmaF32 d n a b g s
  | .ffmaBf16x2 d n a b g => Sys2Proof.Machine.execFfmaBf16x2 d n a b g s
  | .ffmaF16x2 d n a b g => Sys2Proof.Machine.execFfmaF16x2 d n a b g s
  | .imadLo d n a b g => Sys2Proof.Machine.execImadLo d n a b g s
  | .imadHi d n a b g => Sys2Proof.Machine.execImadHi d n a b g s
  | .icmp c q a b => Sys2Proof.Machine.execIcmp c q a b s
  | .fcmp c q a b => Sys2Proof.Machine.execFcmp c q a b s
  | .sel q d n a b => Sys2Proof.Machine.execSel q d n a b s
  | .pand d a b => Sys2Proof.Machine.execPand d a b s
  | .por d a b => Sys2Proof.Machine.execPor d a b s
  | .pxor d a b => Sys2Proof.Machine.execPxor d a b s
  | .pnot d a => Sys2Proof.Machine.execPnot d a s
  | .ptest m d a => Sys2Proof.Machine.execPtest m d a s
  | .mov d n a => Sys2Proof.Machine.execMov d n a s
  | .li d n ix => Sys2Proof.Machine.execLi d n ix s
  | .cvt d n a sx => Sys2Proof.Machine.execCvt d n a sx s
  | .shfl d n a r m l => Sys2Proof.Machine.execShfl d n a r m l s
  | .voteAny d q => Sys2Proof.Machine.execVoteAny d q s
  | .voteAll d q => Sys2Proof.Machine.execVoteAll d q s
  | .voteBallot d n q => Sys2Proof.Machine.execVoteBallot d n q s
  | .edge m => Sys2Proof.Machine.execEdge m s
  | .idxSet x a => Sys2Proof.Machine.execIdxSet x a s
  | .idxAdd x a => Sys2Proof.Machine.execIdxAdd x a s
  | .rgnPf m => Sys2Proof.Machine.execRgnPf m s
  | .rgrow c => Sys2Proof.Machine.execRgrow c s
  | .rshrink c => Sys2Proof.Machine.execRshrink c s
  | .rdsp d n sx => Sys2Proof.Machine.execRdsp d n sx s
  | .ldX d n x => Sys2Proof.Machine.execLdX d n x s
  | .stX x a => Sys2Proof.Machine.execStX x a s
  | .lih d ix => Sys2Proof.Machine.execLih d ix s
  | .ldB8Z c d g a ix => Sys2Proof.Machine.execLdB8Z c d g a ix s
  | .ldB8S c d g a ix => Sys2Proof.Machine.execLdB8S c d g a ix s
  | .ldB16Z c d g a ix => Sys2Proof.Machine.execLdB16Z c d g a ix s
  | .ldB16S c d g a ix => Sys2Proof.Machine.execLdB16S c d g a ix s
  | .ldB32 c d g a ix => Sys2Proof.Machine.execLdB32 c d g a ix s
  | .ldB64 c d g a ix => Sys2Proof.Machine.execLdB64 c d g a ix s
  | .ldB128 c d g a ix => Sys2Proof.Machine.execLdB128 c d g a ix s
  | .ldAcq c d g a sx => Sys2Proof.Machine.execLdAcq c d g a sx s
  | .kld c d g a => Sys2Proof.Machine.execKld c d g a s
  | .stB8 c d g a ix => Sys2Proof.Machine.execStB8 c d g a ix s
  | .stB16 c d g a ix => Sys2Proof.Machine.execStB16 c d g a ix s
  | .stB32 c d g a ix => Sys2Proof.Machine.execStB32 c d g a ix s
  | .stB64 c d g a ix => Sys2Proof.Machine.execStB64 c d g a ix s
  | .stB128 c d g a ix => Sys2Proof.Machine.execStB128 c d g a ix s
  | .stRel c d g a sx => Sys2Proof.Machine.execStRel c d g a sx s
  | .kst c d g a => Sys2Proof.Machine.execKst c d g a s
  | .stashMap c p e g a => Sys2Proof.Machine.execStashMap c p e g a s
  | .stashWb c g a => Sys2Proof.Machine.execStashWb c g a s
  | .stashWbE c e => Sys2Proof.Machine.execStashWbE c e s
  | .stashInv c g a => Sys2Proof.Machine.execStashInv c g a s
  | .stashInvE c e => Sys2Proof.Machine.execStashInvE c e s
  | .stashStg c d => Sys2Proof.Machine.execStashStg c d s
  | .atomAdd c d g a w f o => Sys2Proof.Machine.execAtomAdd c d g a w f o s
  | .atomFaddF32 c d g a f o => Sys2Proof.Machine.execAtomFaddF32 c d g a f o s
  | .atomAnd c d g a w f o => Sys2Proof.Machine.execAtomAnd c d g a w f o s
  | .atomOr c d g a w f o => Sys2Proof.Machine.execAtomOr c d g a w f o s
  | .atomXor c d g a w f o => Sys2Proof.Machine.execAtomXor c d g a w f o s
  | .atomMin c d g a sx w f o => Sys2Proof.Machine.execAtomMin c d g a sx w f o s
  | .atomMax c d g a sx w f o => Sys2Proof.Machine.execAtomMax c d g a sx w f o s
  | .atomExch c d g a w f o => Sys2Proof.Machine.execAtomExch c d g a w f o s
  | .atomCas c d g a w f o => Sys2Proof.Machine.execAtomCas c d g a w f o s
  | .bra o => Sys2Proof.Machine.execBra o s
  | .braK n o => Sys2Proof.Machine.execBraK n o s
  | .brd v q o => Sys2Proof.Machine.execBrd v q o s
  | .call o => Sys2Proof.Machine.execCall o s
  | .jinit j sx => Sys2Proof.Machine.execJinit j sx s
  | .jwait j => Sys2Proof.Machine.execJwait j s
  | .jarr j => Sys2Proof.Machine.execJarr j s
  | .ret => Sys2Proof.Machine.execRet s
  | .exit => Sys2Proof.Machine.execExit s
  | .emRd q => Sys2Proof.Machine.execEmRd q s
  | .emWr q => Sys2Proof.Machine.execEmWr q s
  | .barWg b => Sys2Proof.Machine.execBarWg b s
  | .barSpan h w => Sys2Proof.Machine.execBarSpan h w s
  | .barStep r => Sys2Proof.Machine.execBarStep r s
  | .fenceAcq => Sys2Proof.Machine.execFenceAcq s
  | .fenceRel => Sys2Proof.Machine.execFenceRel s
  | .fenceAr => Sys2Proof.Machine.execFenceAr s
  | .waitc c a ix => Sys2Proof.Machine.execWaitc c a ix s
  | .waitm d a ix => Sys2Proof.Machine.execWaitm d a ix s
  | .cset c a ix => Sys2Proof.Machine.execCset c a ix s
  | .cadd c a ix => Sys2Proof.Machine.execCadd c a ix s
  | .elect q => Sys2Proof.Machine.execElect q s
  | .kmov d a => Sys2Proof.Machine.execKmov d a s
  | .kmovFromLk d => Sys2Proof.Machine.execKmovFromLk d s
  | .kmovToLk a => Sys2Proof.Machine.execKmovToLk a s
  | .kadd d a b => Sys2Proof.Machine.execKadd d a b s
  | .ksub d a b => Sys2Proof.Machine.execKsub d a b s
  | .kand d a b => Sys2Proof.Machine.execKand d a b s
  | .kor d a b => Sys2Proof.Machine.execKor d a b s
  | .kxor d a b => Sys2Proof.Machine.execKxor d a b s
  | .kshl d a b => Sys2Proof.Machine.execKshl d a b s
  | .kshr d a b => Sys2Proof.Machine.execKshr d a b s
  | .kcmpEq d a b => Sys2Proof.Machine.execKcmpEq d a b s
  | .kcmpLtS d a b => Sys2Proof.Machine.execKcmpLtS d a b s
  | .kcmpLtZ d a b => Sys2Proof.Machine.execKcmpLtZ d a b s
  | .kbr a => Sys2Proof.Machine.execKbr a s
  | .kclaim d p => Sys2Proof.Machine.execKclaim d p s
  | .krel d => Sys2Proof.Machine.execKrel d s
  | .kfromv d a b => Sys2Proof.Machine.execKfromv d a b s
  | .mxClaim p y w sx => Sys2Proof.Machine.execMxClaim p y w sx s
  | .mxRel y sx => Sys2Proof.Machine.execMxRel y sx s
  | .mxRec sx r => Sys2Proof.Machine.execMxRec sx r s
  | .mxLd m sx g c => Sys2Proof.Machine.execMxLd m sx g c s
  | .mxLdS m sx g c => Sys2Proof.Machine.execMxLdS m sx g c s
  | .mxLdb w x sx c h => Sys2Proof.Machine.execMxLdb w x sx c h s
  | .mxMma u v c t => Sys2Proof.Machine.execMxMma u v c t s
  | .mxPmma u v c t => Sys2Proof.Machine.execMxPmma u v c t s
  | .mxZero c t => Sys2Proof.Machine.execMxZero c t s
  | .mxDrain m w g c t => Sys2Proof.Machine.execMxDrain m w g c t s
  | .mxChk d c t => Sys2Proof.Machine.execMxChk d c t s
  | .saCfg o r p c => Sys2Proof.Machine.execSaCfg o r p c s
  | .saKey r c => Sys2Proof.Machine.execSaKey r c s
  | .saLdc m g c => Sys2Proof.Machine.execSaLdc m g c s
  | .saLdh m g c => Sys2Proof.Machine.execSaLdh m g c s
  | .saClmp m g c => Sys2Proof.Machine.execSaClmp m g c s
  | .saUncl m c => Sys2Proof.Machine.execSaUncl m c s
  | .saGhost m p c => Sys2Proof.Machine.execSaGhost m p c s
  | .saSwp m q c w => Sys2Proof.Machine.execSaSwp m q c w s
  | .saRdc m q g c w => Sys2Proof.Machine.execSaRdc m q g c w s
  | .saRds m q g c w => Sys2Proof.Machine.execSaRds m q g c w s
  | .saClr c => Sys2Proof.Machine.execSaClr c s
  | .saMon d c => Sys2Proof.Machine.execSaMon d c s
  | .saMonW d t c => Sys2Proof.Machine.execSaMonW d t c s
  | .saStat d c => Sys2Proof.Machine.execSaStat d c s
  | .tcLd r o t c q => Sys2Proof.Machine.execTcLd r o t c q s
  | .tcSt r o t c q => Sys2Proof.Machine.execTcSt r o t c q s
  | .tcMcast r o t c q => Sys2Proof.Machine.execTcMcast r o t c q s
  | .busA r o t c q => Sys2Proof.Machine.execBusA r o t c q s
  | .busB r o t c q => Sys2Proof.Machine.execBusB r o t c q s
  | .rvSend r o t c => Sys2Proof.Machine.execRvSend r o t c s
  | .rvTalloc r p => Sys2Proof.Machine.execRvTalloc r p s
  | .rvTfree r => Sys2Proof.Machine.execRvTfree r s
  | .rvStat r d => Sys2Proof.Machine.execRvStat r d s
  | .amSend r v p c => Sys2Proof.Machine.execAmSend r v p c s
  | .amReg r p => Sys2Proof.Machine.execAmReg r p s
  | .pipeBind r => Sys2Proof.Machine.execPipeBind r s
  | .pipePush r v => Sys2Proof.Machine.execPipePush r v s
  | .pipePop r d e => Sys2Proof.Machine.execPipePop r d e s
  | .pipeEos r => Sys2Proof.Machine.execPipeEos r s
  | .taskSpawn r g p => Sys2Proof.Machine.execTaskSpawn r g p s
  | .taskSpawnL r u p => Sys2Proof.Machine.execTaskSpawnL r u p s
  | .taskNext d => Sys2Proof.Machine.execTaskNext d s
  | .taskDone => Sys2Proof.Machine.execTaskDone s
  | .nodeCommit c => Sys2Proof.Machine.execNodeCommit c s
  | .nop => Sys2Proof.Machine.execNop s
  | .trap ix => Sys2Proof.Machine.execTrap ix s
  | .sysret => Sys2Proof.Machine.execSysret s
  | .crRd d ix => Sys2Proof.Machine.execCrRd d ix s
  | .crWr a ix => Sys2Proof.Machine.execCrWr a ix s
  | .park => Sys2Proof.Machine.execPark s
  | .poolPop d => Sys2Proof.Machine.execPoolPop d s
  | .poolGive d n => Sys2Proof.Machine.execPoolGive d n s
  | .xlatProbe d a n => Sys2Proof.Machine.execXlatProbe d a n s
  | .tlbInv n ix => Sys2Proof.Machine.execTlbInv n ix s
  | .bkpt ix => Sys2Proof.Machine.execBkpt ix s
  | .yield => Sys2Proof.Machine.execYield s
  | .time d => Sys2Proof.Machine.execTime d s
  | .fetchLineArrive lg => Sys2Proof.Machine.execFetchLineArrive lg s
  | .launchDoorbell vf q tail => Sys2Proof.Machine.execLaunchDoorbell vf q tail s
  | .launchQueueRead vf q => Sys2Proof.Machine.execLaunchQueueRead vf q s
  | .workgroupPlace launch => Sys2Proof.Machine.execWorkgroupPlace launch s
  | .workgroupStart wg => Sys2Proof.Machine.execWorkgroupStart wg s
  | .launchComplete launch => Sys2Proof.Machine.execLaunchComplete launch s
  | .groupWaitTimeout launch => Sys2Proof.Machine.execGroupWaitTimeout launch s
  | .resizeRequest vf value => Sys2Proof.Machine.execResizeRequest vf value s
  | .wgBarrierComplete wg b => Sys2Proof.Machine.execWgBarrierComplete wg b s
  | .spanBarrierComplete launch ox oy lw lh => Sys2Proof.Machine.execSpanBarrierComplete launch ox oy lw lh s
  | .stepBarrierComplete launch => Sys2Proof.Machine.execStepBarrierComplete launch s
  | .laneGroupWake lg => Sys2Proof.Machine.execLaneGroupWake lg s
  | .laneGroupAged lg => Sys2Proof.Machine.execLaneGroupAged lg s
  | .yieldExpiry lg => Sys2Proof.Machine.execYieldExpiry lg s
  | .registerGrowGrant core sc => Sys2Proof.Machine.execRegisterGrowGrant core sc s
  | .growthDeadlock core sc => Sys2Proof.Machine.execGrowthDeadlock core sc s
  | .taskClaim part core => Sys2Proof.Machine.execTaskClaim part core s
  | .amArrive msg => Sys2Proof.Machine.execAmArrive msg s
  | .handlerStart core => Sys2Proof.Machine.execHandlerStart core s
  | .ptsTick core => Sys2Proof.Machine.execPtsTick core s
  | .loadRequest acc line => Sys2Proof.Machine.execLoadRequest acc line s
  | .writeRegistration acc line => Sys2Proof.Machine.execWriteRegistration acc line s
  | .forcedPublishRequest agent line => Sys2Proof.Machine.execForcedPublishRequest agent line s
  | .publishArrive agent line cells own pois => Sys2Proof.Machine.execPublishArrive agent line cells own pois s
  | .l1Eviction core line => Sys2Proof.Machine.execL1Eviction core line s
  | .nearAtomic acc lane => Sys2Proof.Machine.execNearAtomic acc lane s
  | .farAtomic acc lane => Sys2Proof.Machine.execFarAtomic acc lane s
  | .accessReply acc line => Sys2Proof.Machine.execAccessReply acc line s
  | .memoryReadComplete line outcome => Sys2Proof.Machine.execMemoryReadComplete line outcome s
  | .engineTakeOwnership cmd => Sys2Proof.Machine.execEngineTakeOwnership cmd s
  | .engineFinish cmd => Sys2Proof.Machine.execEngineFinish cmd s
  | .tlbWalkDone core vf va => Sys2Proof.Machine.execTlbWalkDone core vf va s
  | .tlbiVaRange vmid asid va pages => Sys2Proof.Machine.execTlbiVaRange vmid asid va pages s
  | .tlbiAsid vmid asid => Sys2Proof.Machine.execTlbiAsid vmid asid s
  | .tlbiIpaRange vmid ipa pages => Sys2Proof.Machine.execTlbiIpaRange vmid ipa pages s
  | .tlbiVmid vmid => Sys2Proof.Machine.execTlbiVmid vmid s
  | .tlbiAll => Sys2Proof.Machine.execTlbiAll s
  | .hostTlbSync id => Sys2Proof.Machine.execHostTlbSync id s
  | .tlbSyncAnswer id => Sys2Proof.Machine.execTlbSyncAnswer id s
  | .pageRequestWrite rq => Sys2Proof.Machine.execPageRequestWrite rq s
  | .pageRequestDone vf rqid => Sys2Proof.Machine.execPageRequestDone vf rqid s
  | .parkTimeout lg => Sys2Proof.Machine.execParkTimeout lg s
  | .swapOutDone wg => Sys2Proof.Machine.execSwapOutDone wg s
  | .readmit wg => Sys2Proof.Machine.execReadmit wg s
  | .s2rResume part ipa => Sys2Proof.Machine.execS2rResume part ipa s
  | .s2rAbort part ipa => Sys2Proof.Machine.execS2rAbort part ipa s
  | .governorWindow bh => Sys2Proof.Machine.execGovernorWindow bh s
  | .preemptSwapDone core => Sys2Proof.Machine.execPreemptSwapDone core s
  | .swapBack core => Sys2Proof.Machine.execSwapBack core s
  | .shadowWriteoutDone core => Sys2Proof.Machine.execShadowWriteoutDone core s
  | .slotEvictionDone core slot => Sys2Proof.Machine.execSlotEvictionDone core slot s
  | .arrayEvictionDone core => Sys2Proof.Machine.execArrayEvictionDone core s
  | .contextRestoreDone core wg => Sys2Proof.Machine.execContextRestoreDone core wg s
  | .mxCommandStart cmd => Sys2Proof.Machine.execMxCommandStart cmd s
  | .mxLdDone cmd => Sys2Proof.Machine.execMxLdDone cmd s
  | .busTransferStart cmd => Sys2Proof.Machine.execBusTransferStart cmd s
  | .busTransferDone cmd => Sys2Proof.Machine.execBusTransferDone cmd s
  | .mxMmaDone cmd errs => Sys2Proof.Machine.execMxMmaDone cmd errs s
  | .mxPmmaDone cmd errs => Sys2Proof.Machine.execMxPmmaDone cmd errs s
  | .mxDrainDone cmd => Sys2Proof.Machine.execMxDrainDone cmd s
  | .mxChkDone cmd => Sys2Proof.Machine.execMxChkDone cmd s
  | .mxRelEffect cmd => Sys2Proof.Machine.execMxRelEffect cmd s
  | .saCommandStart cmd => Sys2Proof.Machine.execSaCommandStart cmd s
  | .saLoadDone cmd => Sys2Proof.Machine.execSaLoadDone cmd s
  | .saReadDone cmd => Sys2Proof.Machine.execSaReadDone cmd s
  | .sweepBegin core => Sys2Proof.Machine.execSweepBegin core s
  | .sweepEnd core => Sys2Proof.Machine.execSweepEnd core s
  | .ghostSubscribe cmd => Sys2Proof.Machine.execGhostSubscribe cmd s
  | .ghostUnsubscribe cmd => Sys2Proof.Machine.execGhostUnsubscribe cmd s
  | .ghostAnswer cmd ok => Sys2Proof.Machine.execGhostAnswer cmd ok s
  | .ghostUpdateArrive core => Sys2Proof.Machine.execGhostUpdateArrive core s
  | .monitorWindowClose core => Sys2Proof.Machine.execMonitorWindowClose core s
  | .chainTimeout core => Sys2Proof.Machine.execChainTimeout core s
  | .stopNotice core chain => Sys2Proof.Machine.execStopNotice core chain s
  | .permitAudit link chan => Sys2Proof.Machine.execPermitAudit link chan s
  | .mcastRequest cmd line => Sys2Proof.Machine.execMcastRequest cmd line s
  | .mergeWindowExpiry die slice entry => Sys2Proof.Machine.execMergeWindowExpiry die slice entry s
  | .mergeSetExpiry die slice entry => Sys2Proof.Machine.execMergeSetExpiry die slice entry s
  | .mcastReplyArrive cmd line => Sys2Proof.Machine.execMcastReplyArrive cmd line s
  | .fragmentArrive cmd f => Sys2Proof.Machine.execFragmentArrive cmd f s
  | .overflowFragmentArrive frag => Sys2Proof.Machine.execOverflowFragmentArrive frag s
  | .fragmentCombineDone frag => Sys2Proof.Machine.execFragmentCombineDone frag s
  | .orphanTimeout frag => Sys2Proof.Machine.execOrphanTimeout frag s
  | .linkFlitSend edge dir mod => Sys2Proof.Machine.execLinkFlitSend edge dir mod s
  | .linkFlitReceive edge dir mod good => Sys2Proof.Machine.execLinkFlitReceive edge dir mod good s
  | .linkNakReceive edge dir mod => Sys2Proof.Machine.execLinkNakReceive edge dir mod s
  | .linkIdleTimer edge dir mod => Sys2Proof.Machine.execLinkIdleTimer edge dir mod s
  | .nakRepeatTimer edge dir mod => Sys2Proof.Machine.execNakRepeatTimer edge dir mod s
  | .linkLockLoss edge mod => Sys2Proof.Machine.execLinkLockLoss edge mod s
  | .linkRetrainDone edge mod lanes => Sys2Proof.Machine.execLinkRetrainDone edge mod lanes s
  | .retrainTimeout edge mod sideband => Sys2Proof.Machine.execRetrainTimeout edge mod sideband s
  | .portLost port => Sys2Proof.Machine.execPortLost port s
  | .cxlPortLost port => Sys2Proof.Machine.execCxlPortLost port s
  | .sliceTimeout acc line => Sys2Proof.Machine.execSliceTimeout acc line s
  | .hostAccess vf pa write value => Sys2Proof.Machine.execHostAccess vf pa write value s
  | .hostSnoop line => Sys2Proof.Machine.execHostSnoop line s
  | .remoteAccess spkg spart pa op pts => Sys2Proof.Machine.execRemoteAccess spkg spart pa op pts s
  | .streamSegment vf sx frame off data => Sys2Proof.Machine.execStreamSegment vf sx frame off data s
  | .frameDeadline vf sx frame => Sys2Proof.Machine.execFrameDeadline vf sx frame s
  | .descriptorPush vf sx => Sys2Proof.Machine.execDescriptorPush vf sx s
  | .streamEnable vf sx value => Sys2Proof.Machine.execStreamEnable vf sx value s
  | .streamEos vf sx => Sys2Proof.Machine.execStreamEos vf sx s
  | .dbiWindow chan inversion lowToggle => Sys2Proof.Machine.execDbiWindow chan inversion lowToggle s
  | .faultedLaunchEnd launch => Sys2Proof.Machine.execFaultedLaunchEnd launch s
  | .faultedLaunchTimeout launch => Sys2Proof.Machine.execFaultedLaunchTimeout launch s
  | .nodeDiscard launch => Sys2Proof.Machine.execNodeDiscard launch s
  | .pipeDeadlock launch => Sys2Proof.Machine.execPipeDeadlock launch s
  | .gateDrainTimeout bh => Sys2Proof.Machine.execGateDrainTimeout bh s
  | .sweeperRead unit line outcome => Sys2Proof.Machine.execSweeperRead unit line outcome s
  | .l2CodeChange die str => Sys2Proof.Machine.execL2CodeChange die str s
  | .reencodeDone die => Sys2Proof.Machine.execReencodeDone die s
  | .retireFrame frame => Sys2Proof.Machine.execRetireFrame frame s
  | .bulkheadFatalError bh => Sys2Proof.Machine.execBulkheadFatalError bh s
  | .stateDumpDone bh => Sys2Proof.Machine.execStateDumpDone bh s
  | .bulkheadPowerOn bh => Sys2Proof.Machine.execBulkheadPowerOn bh s
  | .bulkheadRailGood bh => Sys2Proof.Machine.execBulkheadRailGood bh s
  | .bulkheadRailTimeout bh => Sys2Proof.Machine.execBulkheadRailTimeout bh s
  | .bulkheadClockEnable bh => Sys2Proof.Machine.execBulkheadClockEnable bh s
  | .pllLock bh => Sys2Proof.Machine.execPllLock bh s
  | .pllLockTimeout bh => Sys2Proof.Machine.execPllLockTimeout bh s
  | .bulkheadResetRelease bh => Sys2Proof.Machine.execBulkheadResetRelease bh s
  | .bulkheadInitDone bh => Sys2Proof.Machine.execBulkheadInitDone bh s
  | .bulkheadResetAssert bh => Sys2Proof.Machine.execBulkheadResetAssert bh s
  | .bulkheadGateClose bh => Sys2Proof.Machine.execBulkheadGateClose bh s
  | .bulkheadGateOpen bh => Sys2Proof.Machine.execBulkheadGateOpen bh s
  | .bulkheadPowerOff bh => Sys2Proof.Machine.execBulkheadPowerOff bh s
  | .bulkheadDrainDone bh => Sys2Proof.Machine.execBulkheadDrainDone bh s
  | .partitionEnable part value => Sys2Proof.Machine.execPartitionEnable part value s
  | .partitionTeardown part => Sys2Proof.Machine.execPartitionTeardown part s
  | .teardownDone part => Sys2Proof.Machine.execTeardownDone part s
  | .windowEnable win word0 word1 => Sys2Proof.Machine.execWindowEnable win word0 word1 s
  | .windowDisable win => Sys2Proof.Machine.execWindowDisable win s
  | .windowDrainDone win => Sys2Proof.Machine.execWindowDrainDone win s
  | .homeMapWrite value => Sys2Proof.Machine.execHomeMapWrite value s
  | .homeMapReadInc => Sys2Proof.Machine.execHomeMapReadInc s
  | .vfEnable vf value => Sys2Proof.Machine.execVfEnable vf value s
  | .keyTableWrite key value => Sys2Proof.Machine.execKeyTableWrite key value s
  | .keyLoad key => Sys2Proof.Machine.execKeyLoad key s
  | .cxlRangeEnable port value => Sys2Proof.Machine.execCxlRangeEnable port value s
  | .trimStart bh => Sys2Proof.Machine.execTrimStart bh s
  | .trimDone bh => Sys2Proof.Machine.execTrimDone bh s
  | .debugResume value => Sys2Proof.Machine.execDebugResume value s
  | .packageReset => Sys2Proof.Machine.execPackageReset s
  | .bootStage good hash => Sys2Proof.Machine.execBootStage good hash s
  | .bootImageReplace => Sys2Proof.Machine.execBootImageReplace s
  | .attestQuote nonce => Sys2Proof.Machine.execAttestQuote nonce s
  | .registerWrite space off value => Sys2Proof.Machine.execRegisterWrite space off value s
  | .softError site => Sys2Proof.Machine.execSoftError site s
  | .linkAckTimeout edge mod => Sys2Proof.Machine.execLinkAckTimeout edge mod s
  | .cxlLinkStateChange port active => Sys2Proof.Machine.execCxlLinkStateChange port active s
  | .hostPortReturn => Sys2Proof.Machine.execHostPortReturn s

end Sys2Proof.Machine
end

