-- ==== Sys2Proof/Machine/Packet.lean ====
section
/-! DEFINITION. Packets: pipes (R254), the run-ending class (R257), what a word reads (R259), the `chain` checks
(R255 to R259, R472). -/

namespace Sys2Proof.Machine

/-- The four pipes (R254). -/
inductive Pipe4 where
  | a | b | m | u
  deriving DecidableEq, Repr

/-- The pipe of a word; `nop` and events have none. -/
def pipeOf : Instr → Option Pipe4
  | .add _ _ _ _ => some .a
  | .sub _ _ _ _ => some .a
  | .addc _ _ _ _ => some .a
  | .subb _ _ _ _ => some .a
  | .mullo _ _ _ _ => some .a
  | .mulhi _ _ _ _ => some .a
  | .and _ _ _ _ => some .a
  | .or _ _ _ _ => some .a
  | .xor _ _ _ _ => some .a
  | .andn _ _ _ _ => some .a
  | .shl _ _ _ _ => some .a
  | .shr _ _ _ _ => some .a
  | .sar _ _ _ _ => some .a
  | .rotl _ _ _ _ => some .a
  | .min _ _ _ _ => some .a
  | .max _ _ _ _ => some .a
  | .addi _ _ _ _ => some .a
  | .andi _ _ _ _ => some .a
  | .ori _ _ _ _ => some .a
  | .xori _ _ _ _ => some .a
  | .shli _ _ _ _ => some .a
  | .shri _ _ _ _ => some .a
  | .sari _ _ _ _ => some .a
  | .muli _ _ _ _ => some .a
  | .clz _ _ _ => some .a
  | .ctz _ _ _ => some .a
  | .popc _ _ _ => some .a
  | .brev _ _ _ => some .a
  | .bfe _ _ _ _ _ => some .a
  | .bfi _ _ _ _ _ => some .a
  | .faddF32 _ _ _ _ => some .a
  | .fsubF32 _ _ _ _ => some .a
  | .fmulF32 _ _ _ _ => some .a
  | .fminF32 _ _ _ _ => some .a
  | .fmaxF32 _ _ _ _ => some .a
  | .faddBf16x2 _ _ _ _ => some .a
  | .fsubBf16x2 _ _ _ _ => some .a
  | .fmulBf16x2 _ _ _ _ => some .a
  | .fminBf16x2 _ _ _ _ => some .a
  | .fmaxBf16x2 _ _ _ _ => some .a
  | .faddF16x2 _ _ _ _ => some .a
  | .fsubF16x2 _ _ _ _ => some .a
  | .fmulF16x2 _ _ _ _ => some .a
  | .fminF16x2 _ _ _ _ => some .a
  | .fmaxF16x2 _ _ _ _ => some .a
  | .frcp _ _ _ _ => some .b
  | .frsqrt _ _ _ _ => some .b
  | .fsqrt _ _ _ _ => some .b
  | .fexp2 _ _ _ _ => some .b
  | .flog2 _ _ _ _ => some .b
  | .fsin _ _ _ _ => some .b
  | .fcos _ _ _ _ => some .b
  | .fclass _ _ _ _ => some .a
  | .ffmaF32 _ _ _ _ _ => some .a
  | .ffmaBf16x2 _ _ _ _ _ => some .a
  | .ffmaF16x2 _ _ _ _ _ => some .a
  | .imadLo _ _ _ _ _ => some .a
  | .imadHi _ _ _ _ _ => some .a
  | .icmp _ _ _ _ => some .a
  | .fcmp _ _ _ _ => some .a
  | .sel _ _ _ _ _ => some .a
  | .pand _ _ _ => some .a
  | .por _ _ _ => some .a
  | .pxor _ _ _ => some .a
  | .pnot _ _ => some .a
  | .ptest _ _ _ => some .a
  | .mov _ _ _ => some .b
  | .li _ _ _ => some .b
  | .cvt _ _ _ _ => some .b
  | .shfl _ _ _ _ _ _ => some .b
  | .voteAny _ _ => some .b
  | .voteAll _ _ => some .b
  | .voteBallot _ _ _ => some .b
  | .edge _ => some .b
  | .idxSet _ _ => some .b
  | .idxAdd _ _ => some .b
  | .rgnPf _ => some .b
  | .rgrow _ => some .u
  | .rshrink _ => some .u
  | .rdsp _ _ _ => some .b
  | .ldX _ _ _ => some .b
  | .stX _ _ => some .b
  | .lih _ _ => some .b
  | .ldB8Z _ _ _ _ _ => some .m
  | .ldB8S _ _ _ _ _ => some .m
  | .ldB16Z _ _ _ _ _ => some .m
  | .ldB16S _ _ _ _ _ => some .m
  | .ldB32 _ _ _ _ _ => some .m
  | .ldB64 _ _ _ _ _ => some .m
  | .ldB128 _ _ _ _ _ => some .m
  | .ldAcq _ _ _ _ _ => some .m
  | .kld _ _ _ _ => some .m
  | .stB8 _ _ _ _ _ => some .m
  | .stB16 _ _ _ _ _ => some .m
  | .stB32 _ _ _ _ _ => some .m
  | .stB64 _ _ _ _ _ => some .m
  | .stB128 _ _ _ _ _ => some .m
  | .stRel _ _ _ _ _ => some .m
  | .kst _ _ _ _ => some .m
  | .stashMap _ _ _ _ _ => some .m
  | .stashWb _ _ _ => some .m
  | .stashWbE _ _ => some .m
  | .stashInv _ _ _ => some .m
  | .stashInvE _ _ => some .m
  | .stashStg _ _ => some .m
  | .atomAdd _ _ _ _ _ _ _ => some .m
  | .atomFaddF32 _ _ _ _ _ _ => some .m
  | .atomAnd _ _ _ _ _ _ _ => some .m
  | .atomOr _ _ _ _ _ _ _ => some .m
  | .atomXor _ _ _ _ _ _ _ => some .m
  | .atomMin _ _ _ _ _ _ _ _ => some .m
  | .atomMax _ _ _ _ _ _ _ _ => some .m
  | .atomExch _ _ _ _ _ _ _ => some .m
  | .atomCas _ _ _ _ _ _ _ => some .m
  | .bra _ => some .u
  | .braK _ _ => some .u
  | .brd _ _ _ => some .u
  | .call _ => some .u
  | .jinit _ _ => some .u
  | .jwait _ => some .u
  | .jarr _ => some .u
  | .ret => some .u
  | .exit => some .u
  | .emRd _ => some .u
  | .emWr _ => some .u
  | .barWg _ => some .m
  | .barSpan _ _ => some .m
  | .barStep _ => some .m
  | .fenceAcq => some .m
  | .fenceRel => some .m
  | .fenceAr => some .m
  | .waitc _ _ _ => some .m
  | .waitm _ _ _ => some .m
  | .cset _ _ _ => some .m
  | .cadd _ _ _ => some .m
  | .elect _ => some .m
  | .kmov _ _ => some .u
  | .kmovFromLk _ => some .u
  | .kmovToLk _ => some .u
  | .kadd _ _ _ => some .u
  | .ksub _ _ _ => some .u
  | .kand _ _ _ => some .u
  | .kor _ _ _ => some .u
  | .kxor _ _ _ => some .u
  | .kshl _ _ _ => some .u
  | .kshr _ _ _ => some .u
  | .kcmpEq _ _ _ => some .u
  | .kcmpLtS _ _ _ => some .u
  | .kcmpLtZ _ _ _ => some .u
  | .kbr _ => some .u
  | .kclaim _ _ => some .u
  | .krel _ => some .u
  | .kfromv _ _ _ => some .u
  | .mxClaim _ _ _ _ => some .u
  | .mxRel _ _ => some .u
  | .mxRec _ _ => some .u
  | .mxLd _ _ _ _ => some .u
  | .mxLdS _ _ _ _ => some .u
  | .mxLdb _ _ _ _ _ => some .u
  | .mxMma _ _ _ _ => some .u
  | .mxPmma _ _ _ _ => some .u
  | .mxZero _ _ => some .u
  | .mxDrain _ _ _ _ _ => some .u
  | .mxChk _ _ _ => some .u
  | .saCfg _ _ _ _ => some .u
  | .saKey _ _ => some .u
  | .saLdc _ _ _ => some .u
  | .saLdh _ _ _ => some .u
  | .saClmp _ _ _ => some .u
  | .saUncl _ _ => some .u
  | .saGhost _ _ _ => some .u
  | .saSwp _ _ _ _ => some .u
  | .saRdc _ _ _ _ _ => some .u
  | .saRds _ _ _ _ _ => some .u
  | .saClr _ => some .u
  | .saMon _ _ => some .u
  | .saMonW _ _ _ => some .u
  | .saStat _ _ => some .u
  | .tcLd _ _ _ _ _ => some .m
  | .tcSt _ _ _ _ _ => some .m
  | .tcMcast _ _ _ _ _ => some .m
  | .busA _ _ _ _ _ => some .m
  | .busB _ _ _ _ _ => some .m
  | .rvSend _ _ _ _ => some .m
  | .rvTalloc _ _ => some .m
  | .rvTfree _ => some .m
  | .rvStat _ _ => some .m
  | .amSend _ _ _ _ => some .m
  | .amReg _ _ => some .m
  | .pipeBind _ => some .m
  | .pipePush _ _ => some .m
  | .pipePop _ _ _ => some .m
  | .pipeEos _ => some .m
  | .taskSpawn _ _ _ => some .m
  | .taskSpawnL _ _ _ => some .m
  | .taskNext _ => some .m
  | .taskDone => some .m
  | .nodeCommit _ => some .m
  | .nop => none
  | .trap _ => some .u
  | .sysret => some .u
  | .crRd _ _ => some .u
  | .crWr _ _ => some .u
  | .park => some .u
  | .poolPop _ => some .u
  | .poolGive _ _ => some .u
  | .xlatProbe _ _ _ => some .u
  | .tlbInv _ _ => some .u
  | .bkpt _ => some .u
  | .yield => some .u
  | .time _ => some .u
  | _ => none

/-- The run-ending class (R257). -/
def runEnding : Instr → Bool
  | .add _ _ _ _ => false
  | .sub _ _ _ _ => false
  | .addc _ _ _ _ => false
  | .subb _ _ _ _ => false
  | .mullo _ _ _ _ => false
  | .mulhi _ _ _ _ => false
  | .and _ _ _ _ => false
  | .or _ _ _ _ => false
  | .xor _ _ _ _ => false
  | .andn _ _ _ _ => false
  | .shl _ _ _ _ => false
  | .shr _ _ _ _ => false
  | .sar _ _ _ _ => false
  | .rotl _ _ _ _ => false
  | .min _ _ _ _ => false
  | .max _ _ _ _ => false
  | .addi _ _ _ _ => false
  | .andi _ _ _ _ => false
  | .ori _ _ _ _ => false
  | .xori _ _ _ _ => false
  | .shli _ _ _ _ => false
  | .shri _ _ _ _ => false
  | .sari _ _ _ _ => false
  | .muli _ _ _ _ => false
  | .clz _ _ _ => false
  | .ctz _ _ _ => false
  | .popc _ _ _ => false
  | .brev _ _ _ => false
  | .bfe _ _ _ _ _ => false
  | .bfi _ _ _ _ _ => false
  | .faddF32 _ _ _ _ => false
  | .fsubF32 _ _ _ _ => false
  | .fmulF32 _ _ _ _ => false
  | .fminF32 _ _ _ _ => false
  | .fmaxF32 _ _ _ _ => false
  | .faddBf16x2 _ _ _ _ => false
  | .fsubBf16x2 _ _ _ _ => false
  | .fmulBf16x2 _ _ _ _ => false
  | .fminBf16x2 _ _ _ _ => false
  | .fmaxBf16x2 _ _ _ _ => false
  | .faddF16x2 _ _ _ _ => false
  | .fsubF16x2 _ _ _ _ => false
  | .fmulF16x2 _ _ _ _ => false
  | .fminF16x2 _ _ _ _ => false
  | .fmaxF16x2 _ _ _ _ => false
  | .frcp _ _ _ _ => false
  | .frsqrt _ _ _ _ => false
  | .fsqrt _ _ _ _ => false
  | .fexp2 _ _ _ _ => false
  | .flog2 _ _ _ _ => false
  | .fsin _ _ _ _ => false
  | .fcos _ _ _ _ => false
  | .fclass _ _ _ _ => false
  | .ffmaF32 _ _ _ _ _ => false
  | .ffmaBf16x2 _ _ _ _ _ => false
  | .ffmaF16x2 _ _ _ _ _ => false
  | .imadLo _ _ _ _ _ => false
  | .imadHi _ _ _ _ _ => false
  | .icmp _ _ _ _ => false
  | .fcmp _ _ _ _ => false
  | .sel _ _ _ _ _ => false
  | .pand _ _ _ => false
  | .por _ _ _ => false
  | .pxor _ _ _ => false
  | .pnot _ _ => false
  | .ptest _ _ _ => false
  | .mov _ _ _ => false
  | .li _ _ _ => false
  | .cvt _ _ _ _ => false
  | .shfl _ _ _ _ _ _ => false
  | .voteAny _ _ => false
  | .voteAll _ _ => false
  | .voteBallot _ _ _ => false
  | .edge _ => false
  | .idxSet _ _ => false
  | .idxAdd _ _ => false
  | .rgnPf _ => false
  | .rdsp _ _ _ => false
  | .ldX _ _ _ => false
  | .stX _ _ => false
  | .lih _ _ => false
  | .kmov _ _ => false
  | .kmovFromLk _ => false
  | .kmovToLk _ => false
  | .kadd _ _ _ => false
  | .ksub _ _ _ => false
  | .kand _ _ _ => false
  | .kor _ _ _ => false
  | .kxor _ _ _ => false
  | .kshl _ _ _ => false
  | .kshr _ _ _ => false
  | .kcmpEq _ _ _ => false
  | .kcmpLtS _ _ _ => false
  | .kcmpLtZ _ _ _ => false
  | .kclaim _ _ => false
  | .krel _ => false
  | .kfromv _ _ _ => false
  | .nop => false
  | .crRd _ _ => false
  | .crWr _ _ => false
  | .time _ => false
  | _ => true

/-- The register that a word writes with a latency above 4 cycles (R301), if any. -/
def slowWrite : Instr → Option Nat
  | .mullo d n _ _ => if n = 0 then some d.toNat else none
  | .mulhi d n _ _ => if n = 0 then some d.toNat else none
  | .muli d n _ _ => if n = 0 then some d.toNat else none
  | .imadLo d n _ _ _ => if n = 0 then some d.toNat else none
  | .imadHi d n _ _ _ => if n = 0 then some d.toNat else none
  | .frcp d n _ _ => if n = 0 then some d.toNat else none
  | .frsqrt d n _ _ => if n = 0 then some d.toNat else none
  | .fsqrt d n _ _ => if n = 0 then some d.toNat else none
  | .fexp2 d n _ _ => if n = 0 then some d.toNat else none
  | .flog2 d n _ _ => if n = 0 then some d.toNat else none
  | .fsin d n _ _ => if n = 0 then some d.toNat else none
  | .fcos d n _ _ => if n = 0 then some d.toNat else none
  | _ => none

/-- The `v` registers that a source names, read in a lane for each active lane: a neighbour source counts as the register it names, an
indexed source as every register it reaches (R259). -/
def Ctx.srcRegsAt (c : Ctx) (at_ : Nat → Nat) (a : BitVec 8) : List Nat :=
  let n := a.toNat % 64
  if a.toNat / 64 ≠ 1 then [n] else if 4 ≤ n ∧ n < 8 then c.lanes.map fun j => c.idxReg (n - 4) (at_ j) else []

/-- The `v` registers that a source read in its own lane names. -/
def Ctx.srcRegs (c : Ctx) (a : BitVec 8) : List Nat := c.srcRegsAt id a

/-- The `v` registers that a word reads (R259). -/
def Ctx.vReads (c : Ctx) : Instr → List Nat
  | .add _ _ a b => c.srcRegs a ++ c.srcRegs b
  | .sub _ _ a b => c.srcRegs a ++ c.srcRegs b
  | .addc _ _ a b => c.srcRegs a ++ c.srcRegs b
  | .subb _ _ a b => c.srcRegs a ++ c.srcRegs b
  | .mullo _ _ a b => c.srcRegs a ++ c.srcRegs b
  | .mulhi _ _ a b => c.srcRegs a ++ c.srcRegs b
  | .and _ _ a b => c.srcRegs a ++ c.srcRegs b
  | .or _ _ a b => c.srcRegs a ++ c.srcRegs b
  | .xor _ _ a b => c.srcRegs a ++ c.srcRegs b
  | .andn _ _ a b => c.srcRegs a ++ c.srcRegs b
  | .shl _ _ a b => c.srcRegs a ++ c.srcRegs b
  | .shr _ _ a b => c.srcRegs a ++ c.srcRegs b
  | .sar _ _ a b => c.srcRegs a ++ c.srcRegs b
  | .rotl _ _ a b => c.srcRegs a ++ c.srcRegs b
  | .min _ _ a b => c.srcRegs a ++ c.srcRegs b
  | .max _ _ a b => c.srcRegs a ++ c.srcRegs b
  | .addi _ _ a _ => c.srcRegs a
  | .andi _ _ a _ => c.srcRegs a
  | .ori _ _ a _ => c.srcRegs a
  | .xori _ _ a _ => c.srcRegs a
  | .shli _ _ a _ => c.srcRegs a
  | .shri _ _ a _ => c.srcRegs a
  | .sari _ _ a _ => c.srcRegs a
  | .muli _ _ a _ => c.srcRegs a
  | .clz _ _ a => c.srcRegs a
  | .ctz _ _ a => c.srcRegs a
  | .popc _ _ a => c.srcRegs a
  | .brev _ _ a => c.srcRegs a
  | .bfe _ _ a _ _ => c.srcRegs a
  | .bfi d n a _ _ => c.srcRegs a ++ (if n = 0 then [d.toNat] else [])
  | .faddF32 _ _ a b => c.srcRegs a ++ c.srcRegs b
  | .fsubF32 _ _ a b => c.srcRegs a ++ c.srcRegs b
  | .fmulF32 _ _ a b => c.srcRegs a ++ c.srcRegs b
  | .fminF32 _ _ a b => c.srcRegs a ++ c.srcRegs b
  | .fmaxF32 _ _ a b => c.srcRegs a ++ c.srcRegs b
  | .faddBf16x2 _ _ a b => c.srcRegs a ++ c.srcRegs b
  | .fsubBf16x2 _ _ a b => c.srcRegs a ++ c.srcRegs b
  | .fmulBf16x2 _ _ a b => c.srcRegs a ++ c.srcRegs b
  | .fminBf16x2 _ _ a b => c.srcRegs a ++ c.srcRegs b
  | .fmaxBf16x2 _ _ a b => c.srcRegs a ++ c.srcRegs b
  | .faddF16x2 _ _ a b => c.srcRegs a ++ c.srcRegs b
  | .fsubF16x2 _ _ a b => c.srcRegs a ++ c.srcRegs b
  | .fmulF16x2 _ _ a b => c.srcRegs a ++ c.srcRegs b
  | .fminF16x2 _ _ a b => c.srcRegs a ++ c.srcRegs b
  | .fmaxF16x2 _ _ a b => c.srcRegs a ++ c.srcRegs b
  | .frcp _ _ a _ => c.srcRegs a
  | .frsqrt _ _ a _ => c.srcRegs a
  | .fsqrt _ _ a _ => c.srcRegs a
  | .fexp2 _ _ a _ => c.srcRegs a
  | .flog2 _ _ a _ => c.srcRegs a
  | .fsin _ _ a _ => c.srcRegs a
  | .fcos _ _ a _ => c.srcRegs a
  | .fclass _ _ a _ => c.srcRegs a
  | .ffmaF32 d n a b _ => c.srcRegs a ++ c.srcRegs b ++ (if n = 0 then [d.toNat] else [])
  | .ffmaBf16x2 d n a b _ => c.srcRegs a ++ c.srcRegs b ++ (if n = 0 then [d.toNat] else [])
  | .ffmaF16x2 d n a b _ => c.srcRegs a ++ c.srcRegs b ++ (if n = 0 then [d.toNat] else [])
  | .imadLo d n a b _ => c.srcRegs a ++ c.srcRegs b ++ (if n = 0 then [d.toNat] else [])
  | .imadHi d n a b _ => c.srcRegs a ++ c.srcRegs b ++ (if n = 0 then [d.toNat] else [])
  | .icmp _ _ a b => c.srcRegs a ++ c.srcRegs b
  | .fcmp _ _ a b => c.srcRegs a ++ c.srcRegs b
  | .sel _ _ _ a b => c.srcRegs a ++ c.srcRegs b
  | .mov _ _ a => c.srcRegs a
  | .cvt d n a s => c.srcRegs a ++ (if n = 0 ∧ (bits s 0 4 = 4 ∨ bits s 0 4 = 5) then [d.toNat] else [])
  | .shfl _ _ a r m l => c.srcRegsAt (fun j => shflLane m (shflOp c r l j) j) a ++ (if r = 1 then [l.toNat] else [])
  | .idxSet _ a => c.srcRegs a
  | .idxAdd _ a => c.srcRegs a
  | .rgnPf m => ((List.range 64).filter (bit (c.kr m.toNat)))
  | .ldX _ _ x => (c.lanes.map fun j => c.idxReg x.toNat j)
  | .stX _ a => c.srcRegs a
  | .lih d _ => [d.toNat]
  | .ldB8Z _ _ _ a _ => [a.toNat]
  | .ldB8S _ _ _ a _ => [a.toNat]
  | .ldB16Z _ _ _ a _ => [a.toNat]
  | .ldB16S _ _ _ a _ => [a.toNat]
  | .ldB32 _ _ _ a _ => [a.toNat]
  | .ldB64 _ _ _ a _ => [a.toNat]
  | .ldB128 _ _ _ a _ => [a.toNat]
  | .ldAcq _ _ _ a _ => [a.toNat]
  | .kld _ _ _ a => [a.toNat]
  | .stB8 _ d _ a _ => [a.toNat] ++ ((List.range 1).map (d.toNat + ·))
  | .stB16 _ d _ a _ => [a.toNat] ++ ((List.range 1).map (d.toNat + ·))
  | .stB32 _ d _ a _ => [a.toNat] ++ ((List.range 1).map (d.toNat + ·))
  | .stB64 _ d _ a _ => [a.toNat] ++ ((List.range 2).map (d.toNat + ·))
  | .stB128 _ d _ a _ => [a.toNat] ++ ((List.range 4).map (d.toNat + ·))
  | .stRel _ d _ a s => [a.toNat] ++ ((List.range (if s = 0 then 1 else 2)).map (d.toNat + ·))
  | .kst _ _ _ a => [a.toNat]
  | .stashMap _ _ _ _ a => [a.toNat]
  | .stashWb _ _ a => [a.toNat]
  | .stashInv _ _ a => [a.toNat]
  | .atomAdd _ d _ a w _ _ => [a.toNat] ++ ((List.range (if w = 0 then 1 else 2)).map (d.toNat + ·))
  | .atomFaddF32 _ d _ a _ _ => [a.toNat] ++ ((List.range 1).map (d.toNat + ·))
  | .atomAnd _ d _ a w _ _ => [a.toNat] ++ ((List.range (if w = 0 then 1 else 2)).map (d.toNat + ·))
  | .atomOr _ d _ a w _ _ => [a.toNat] ++ ((List.range (if w = 0 then 1 else 2)).map (d.toNat + ·))
  | .atomXor _ d _ a w _ _ => [a.toNat] ++ ((List.range (if w = 0 then 1 else 2)).map (d.toNat + ·))
  | .atomMin _ d _ a _ w _ _ => [a.toNat] ++ ((List.range (if w = 0 then 1 else 2)).map (d.toNat + ·))
  | .atomMax _ d _ a _ w _ _ => [a.toNat] ++ ((List.range (if w = 0 then 1 else 2)).map (d.toNat + ·))
  | .atomExch _ d _ a w _ _ => [a.toNat] ++ ((List.range (if w = 0 then 1 else 2)).map (d.toNat + ·))
  | .atomCas _ d _ a w _ _ => [a.toNat] ++ ((List.range (if w = 0 then 2 else 4)).map (d.toNat + ·))
  | .kfromv _ a b => c.srcRegs a ++ c.srcRegs b
  | .mxLd m _ _ _ => [m.toNat, m.toNat + 1]
  | .mxLdS m _ _ _ => [m.toNat]
  | .mxDrain m _ _ _ _ => [m.toNat, m.toNat + 1]
  | .saLdc m _ _ => [m.toNat, m.toNat + 1]
  | .saLdh m _ _ => [m.toNat, m.toNat + 1]
  | .saClmp m _ _ => [m.toNat, m.toNat + 1]
  | .saUncl m _ => [m.toNat]
  | .saGhost m _ _ => [m.toNat]
  | .saSwp m _ _ _ => [m.toNat]
  | .saRdc m _ _ _ _ => [m.toNat, m.toNat + 1]
  | .saRds m _ _ _ _ => [m.toNat, m.toNat + 1]
  | .saMonW _ t _ => [t.toNat]
  | .amSend _ v _ _ => [v.toNat]
  | .pipePush _ v => [v.toNat]
  | .crWr a i => if 5 ≤ i.toNat ∧ i.toNat ≤ 8 then [a.toNat] else [a.toNat, a.toNat + 1]
  | .xlatProbe _ a _ => c.srcRegs a
  | _ => []

/-! ## The `chain` checks -/

/-- The lowest slot whose word uses a pipe that a lower slot uses (R255, R472). -/
def pipeClash : List (Nat × Instr) → List Pipe4 → Option Nat
  | [], _ => none
  | (j, i) :: r, used =>
    match pipeOf i with
    | none => pipeClash r used
    | some p => if used.contains p then some j else pipeClash r (p :: used)

/-- The lowest slot whose word brings a bank class past four distinct registers (R259, R472). -/
def Ctx.bankClash (c : Ctx) : List (Nat × Instr) → List Nat → Option Nat
  | [], _ => none
  | (j, i) :: r, seen =>
    let seen := (c.vReads i).foldl (fun l x => if l.contains x then l else x :: l) seen
    if (List.range 8).any fun b => 4 < (seen.filter fun x => x % 8 == b).length then some j else c.bankClash r seen

/-- The lesser of two optional slots. -/
def minSlot : Option Nat → Option Nat → Option Nat
  | none, b => b
  | a, none => a
  | some a, some b => some (min a b)

/-- The slot that `chain` names for a packet, if a rule is broken (R472): `hold` its hold bit, `tgt` whether its successor
is a branch target. -/
def Ctx.chainSlot (c : Ctx) (ms : List (Nat × Instr)) (hold tgt : Bool) : Option Nat :=
  let n := (c.lg.run.map (·.count)).getD 0
  let slow := (c.lg.run.map (·.slow)).getD []
  minSlot (pipeClash ms [])
    (minSlot (if hold && (3 ≤ n || tgt) then some 2 else none)
      (minSlot (if hold then (ms.find? fun p => runEnding p.2).map (·.1) else none)
        (if n = 0 then none else
          minSlot ((ms.find? fun p => (c.vReads p.2).any slow.contains).map (·.1)) (c.bankClash ms []))))

end Sys2Proof.Machine
end

