-- ==== Sys2Proof/Machine/Issue.lean ====
section
/-! DEFINITION. The issue of a packet (R70, R145, R156 to R158, R253 to R264, R413, R414): which lane groups can issue, the
fetch and checks of a packet, its words together, hold runs, replays. -/

namespace Sys2Proof.Machine

/-- Goes on from a next state. -/
def andThen (o : Out) (f : State → Out) : Out :=
  match o with
  | .next s => f s
  | .fault r => .fault r
  | .refused r => .refused r

/-! ## The words of a packet (R253, R254, R277) -/

/-- The member words of a packet with their slots, decoded. -/
def packetSlots (p : Packet) : List (Nat × Option Instr) :=
  (List.range 3).zip (p.members.map decodeWord)

/-- The lowest slot that raises `illegal` for its word alone: no fill word, a word that the tables do not assign, a field out of
range. -/
def packetIllegal (p : Packet) : Option Nat :=
  minSlot p.badFill (((packetSlots p).find? fun q => match q.2 with | none => true | some i => !wellFormed i).map (·.1))

/-- The member words of a packet that all decode. -/
def packetWords (p : Packet) : List (Nat × Instr) := (packetSlots p).filterMap fun q => q.2.map fun i => (q.1, i)

/-- The words that end, stop, move or park their lane group: they execute after the other words of their packet. -/
def isLast : Instr → Bool
  | .exit => true
  | .ret => true
  | .jwait _ => true
  | .sysret => true
  | .trap _ => true
  | .park => true
  | .yield => true
  | .bkpt _ => true
  | _ => false

/-! ## Which lane groups can issue (R156, R157) -/

/-- Whether the active context of a core waits for what was evicted of it: it issues again once all of it is restored (R168). -/
def State.awaitsRestore (s : State) (core : Nat) : Bool :=
  let k := s.core core
  let mine := fun w => ((s.wgs.find w).map fun g => g.st == .resident && g.core == core && g.bank == k.act).getD false
  (k.evSlots.any fun p => mine (p.1 / 32)) || (k.evTiles.any fun p => mine (p.1 / 16)) || k.evArr.any fun p => mine p.1

/-- Whether a lane group can issue its next packet (R156, R165, R168, R412); one inside a hold run finishes it (R149, R256). While a
workgroup that a resize adds still starts, none of its launch issues (R42). -/
def State.canIssue (s : State) (l : Lg) : Bool :=
  (match l.status with | .ready => true | .held e => e != s.epoch | _ => false) &&
  match s.wgs.find l.wg with
  | none => false
  | some w =>
    let k := s.core w.core
    let run := l.run.isSome
    (w.st == .resident || (w.st == .leaving && run)) && w.bank == k.act && (!k.swapping || run) && s.bhSt (bhOf w.core) == 3 &&
      !(s.awaitsRestore w.core) &&
      !(s.wgs.any fun p => p.2.launch == w.launch && p.2.added && p.2.st == .starting) &&
      match s.launches.find w.launch with
      | none => false
      | some la => la.discard.isNone || run

/-- The sub-core of a lane group: its core's number and its own (R28). -/
def State.subCore (s : State) (l : Lg) : Nat × Nat := (((s.wgs.find l.wg).map (·.core)).getD 192, l.sc)

/-- Whether lane group `a` has been aged for longer than `b` (R157): ties go to the lower slot, here that of the workgroup and then
the lane group's number (log entry 69). -/
def State.longerAged (s : State) (a b : Nat × Lg) : Bool :=
  let slot := fun (l : Lg) => 32 * ((s.wgs.find l.wg).map (·.slot)).getD 0 + l.lgn
  decide (a.2.parkAt < b.2.parkAt) || (a.2.parkAt == b.2.parkAt && decide (slot a.2 ≤ slot b.2))

/-- Whether a lane group that can issue is ready (R156): an aged one is, and one inside a hold run; of any other the spec leaves it to
the timing of its pipes, registers and entries (log entry 69). -/
def State.ready (s : State) (p : Nat × Lg) : Bool := p.2.aged || p.2.inRun || Config.ready s.now p.1

/-- The lane group that a sub-core issues (R157): the one inside a hold run; else, among the ready ones, the one aged longest; else
the one that issued last; else the one that has waited longest. -/
def State.chosen (s : State) (can : List (Nat × Lg)) (sub : Nat × Nat) : Option Nat :=
  let mine := can.filter fun q => s.subCore q.2 == sub
  if s.lgs.any fun q => q.2.inRun && s.subCore q.2 == sub && s.inPlay q.2.wg then (mine.find? fun q => q.2.inRun).map (·.1)
  else
    match (mine.filter fun q => q.2.aged).sortBy s.longerAged with
    | q :: _ => some q.1
    | [] =>
      let rs := mine.filter s.ready
      let last := Tab.getD (s.core sub.1).last 0 sub.2
      match rs.find? fun q => q.1 == last with
      | some q => some q.1
      | none => ((rs.sortBy fun a b => decide (a.2.waited ≤ b.2.waited)).head?).map (·.1)

/-- The lane groups of which one issues next: one of each sub-core at most (R157). -/
def State.issuable (s : State) : List Nat :=
  let can := s.lgs.filter fun p => s.canIssue p.2
  (can.map fun p => s.subCore p.2).eraseDups.filterMap (s.chosen can)

/-! ## Entering and leaving a packet -/

/-- Older values of a `k` register that a read may no longer see (R64): each gives way to the next by a free choice. -/
def State.dropOld (s : State) : List DWord → State × List DWord
  | [] => (s, [])
  | x :: r =>
    let (n, s) := s.draw
    if Config.seesNew n then s.dropOld r else (s, x :: r)

/-- How far a lane group sees the `k` writes of others at this packet (R64). -/
def State.seeK (s : State) (g : Nat) : State :=
  match s.lgs.find g with
  | none => s
  | some l =>
    l.kv.foldl (fun s p =>
      match s.dropOld p.2 with
      | (s, []) => s.modLg g fun l => { l with kv := l.kv.del p.1 }
      | (s, xs) => s.modLg g fun l => { l with kv := l.kv.put p.1 xs }) s

/-- A lane group has issued: the yields that wait for it wait no longer (R382). -/
def State.unyield (s : State) (g : Nat) : State :=
  { s with lgs := s.lgs.map fun p => (p.1, match p.2.status with
      | .yielding os => { p.2 with status := .yielding (os.erase g) }
      | _ => p.2) }

/-- The marks of a packet that has issued: the time and order of issue, which end waits of `yield` (R382) and count for R406. -/
def State.issued (s : State) (g : Nat) : State :=
  let s := s.modLg g fun l => { l with waited := s.nseq, parkAt := s.now, aged := false }
  let s := match s.lgs.find g with
    | some l => s.modCore (s.subCore l).1 fun k => { k with last := k.last.put l.sc g }
    | none => s
  let s := s.modLaunch (((s.wgs.find (s.wgOf g)).map (·.launch)).getD 0) fun l => { l with lastIssue := s.now }
  let s := s.unyield g
  { s with now := s.now + 1, nseq := s.nseq + 1, epoch := s.epoch + 1 }

/-- Whether a lane group waits in a word that it has issued: a visible block, or `waitc` (R51, R321). -/
def State.waitsIn (s : State) (g : Nat) : Bool :=
  match s.lgs.find g with
  | none => false
  | some l => l.counting || (match l.status with | .blocked _ _ => true | _ => false)

/-- The end of an issue: a packet that was held back leaves no mark, but that a word of it which waits has issued (R382). -/
def State.closePacket (s : State) (g : Nat) : State :=
  let t : State := { s with pk := {} }
  if s.pk.fate = .heldBack then (if t.waitsIn g then t.unyield g else t) else t.issued g

/-- The lane group after a packet that committed without a trap: a hold continues its run, anything else ends it (R62, R256). -/
def Lg.afterPacket (l : Lg) (hold : Bool) (first : DWord) (slow : List Nat) : Lg :=
  if hold then
    { l with run := some ⟨first, ((l.run.map (·.count)).getD 0) + 1, ((l.run.map (·.slow)).getD []) ++ slow⟩ }
  else { l with run := none, lOk := 0 }

/-! ## Executing words -/

/-- The state with the word of a slot at its turn. -/
def State.atSlot (s : State) (j : Nat) : State := { s with pk := { s.pk with slot := j, fate := .runs } }

/-- Leaves words of a packet whose other words have committed for later: the lane group executes them when it can. -/
def State.defer (s : State) (em : Word) (j : Nat) (rest : List Nat) : State :=
  let t : State := { s with pk := { s.pk with fate := .runs } }
  t.modLg s.cur fun l =>
    let st : Status := if l.status = Status.ready then .held s.epoch else l.status
    { l with replay := some ⟨j, em, some l.pc, none, rest⟩, pc := s.pk.idx, status := st }

/-- Runs words one after another, all of them reading the state before the packet. A word that cannot issue after the others is
left for later, with the words behind it. The flag says that all have run. -/
def State.runWords (em : Word) : List (Nat × Instr) → State → (State → Bool → Out) → Out
  | [], s, k => k s true
  | (j, i) :: r, s, k =>
    andThen (exec i (s.atSlot j)) fun t =>
      if t.pk.fate = .heldBack then k (s.defer em j (r.map (·.1))) false else State.runWords em r t k

/-- A word's fate when it runs alone. -/
structure DryRun where
  slot : Nat
  instr : Instr
  after : State

/-- Runs each word alone. -/
def State.dryRun (s : State) : List (Nat × Instr) → (List DryRun → Out) → Out
  | [], k => k []
  | (j, i) :: r, k => andThen (exec i (s.atSlot j)) fun t => s.dryRun r fun ds => k (⟨j, i, t⟩ :: ds)

/-- The rank and slot of a word's trap. -/
def DryRun.rank (d : DryRun) : Option (Nat × Nat × Bool) :=
  match d.after.pk.fate with
  | .trapped r j others => some (r, j, others)
  | _ => none

/-- The word whose trap is reported (R414): the highest-ranked cause, in the lowest slot. -/
def bestTrap (ds : List DryRun) : Option DryRun :=
  ds.foldl (fun b d =>
    match d.rank, b.bind DryRun.rank with
    | none, _ => b
    | some _, none => some d
    | some (r, j, _), some (r', j', _) => if r < r' ∨ (r = r' ∧ j < j') then some d else b) none

/-- Executes the words of a packet together (R70, R260, R413). The words are tried one by one: a restarting trap commits no word; a
word that cannot issue holds the packet back; else the words commit, and the word with a replaying or reporting trap last. -/
def State.runPacket (s : State) (em : Word) (ms : List (Nat × Instr)) : Out :=
  match ms with
  | [(j, i)] => exec i (s.atSlot j)
  | _ =>
    s.dryRun ms fun ds =>
      let best := bestTrap ds
      let alone := (best.bind DryRun.rank).map fun r => !r.2.2
      match best, alone, ds.find? fun d => d.after.pk.fate = .heldBack with
      | some d, some true, _ => .next d.after
      | _, _, some d => .next d.after
      | _, _, none =>
        let good := (ds.filter fun d => d.rank.isNone).map fun d => (d.slot, d.instr)
        let last := good.filter fun p => isLast p.2
        s.runWords em (good.filter fun p => !isLast p.2) fun t ok =>
          if !ok then .next t else
          match best with
          | some d =>
            let later := ((ds.filter fun e => e.rank.isSome && e.slot != d.slot).map (·.slot)) ++ last.map (·.1)
            exec d.instr { t.atSlot d.slot with pk := { (t.atSlot d.slot).pk with later := later } }
          | none =>
            let stands := ((t.lgs.find t.cur).map fun l => l.status == .ready).getD false
            match last with
            | [] => .next t
            | (j, _) :: r => if stands then t.runWords em last fun t _ => .next t else .next (t.defer em j (r.map (·.1)))

/-! ## A packet -/

/-- Raises a restarting cause that the packet shows before its words execute, in a slot. -/
def State.packetTrap (s : State) (c : Ctx) (x : Cause) (slot : Nat) (tva : DWord) : State :=
  (s.atSlot slot).raiseR c x c.em tva

/-- Raises `illegal` for a packet that its line does not hold: at the resumption of a `sysret` it stops the lane group (R417). -/
def State.invalidTrap (s : State) (c : Ctx) : State :=
  if c.lg.resuming then
    (s.modLg c.g fun l => { (l.record (s.restartTrap .illegal 1 c.em)) with resuming := false }).stopLg c.g .illegal
  else s.packetTrap c .illegal 0 0

/-- Raises `illegal` for the word in a slot of a packet. -/
def State.wordTrap (s : State) (c : Ctx) (p : Packet) (slot : Nat) : State :=
  (s.atSlot slot).raiseR c .illegal (c.illegalLanes (p.members.getD slot 0))

/-- Replays one word (R145, R146, R417): it alone executes, in the lanes named; then whatever of its packet has still to run. -/
def State.runReplay (s : State) (c : Ctx) (r : Replay) (succ : DWord) (ms : List (Nat × Instr)) : Out :=
  match ms.find? fun p => p.1 == r.slot with
  | none => .next (s.packetTrap c .illegal r.slot 0)
  | some (j, i) =>
    let l : Lg := { c.lg with pc := r.next.getD succ, landing := false, resuming := false, replay := if r.acc.isSome then some r else none }
    let sn : Lg := { l with pc := s.pk.idx, em := r.lanes, replay := some r }
    let t := s.openPacket c sn succ
    let t : State := { t with pk := { t.pk with later := r.later } }
    andThen (exec i ((t.setLg c.g l).atSlot j)) fun t =>
      match t.pk.fate with
      | .heldBack => .next (t.modLg c.g fun x => { x with em := l.em })
      | .trapped _ _ _ => .next t
      | .runs => .next (t.modLg c.g fun x =>
          let x := { x with
            replay := if r.acc.isSome ∧ x.replay = some r then none else x.replay
            fm := if x.sup then x.fm else 0, run := none, lOk := 0 }
          match r.later with
          | [] => x
          | j :: rest => { x with replay := some ⟨j, x.em, some x.pc, none, rest⟩, pc := t.pk.idx })

/-- Whether the sequential successor of a packet is marked as a branch target (R257), or what its line's fetch waits for; a line that
fails its checks marks nothing. -/
def State.succTarget (s : State) (c : Ctx) (ln : FetchLine) (succ : DWord) : State × Bool × Option FetchRes :=
  if succ.toNat / 10 = s.pk.idx.toNat / 10 then (s, ln.isTarget (succ.toNat % 10), none)
  else
    match s.fetchLine c (lineVa succ) with
    | (s, .line n) => (s, n.isTarget (succ.toNat % 10), none)
    | (s, .raise _ _) => (s, false, none)
    | (s, .bad _) => (s, false, none)
    | (s, r) => (s, false, some r)

/-- Whether the run that begins at a packet goes on into the next line: every valid packet from there on carries a hold, and there are at
most three. -/
def lineRunsOn (l : FetchLine) (j : Nat) : Bool :=
  let js := (List.range 10).filter fun i => decide (j ≤ i) && l.isValid i
  decide (js.length ≤ 3) && js.all fun i => (l.packet i).hold

/-- Before a run's first packet issues, its lines are there, so that no wait for a line falls inside the run (R256, R263; log entry 68):
what the next line's fetch waits for. -/
def State.runWaits (s : State) (c : Ctx) (ln : FetchLine) : State × Option FetchRes :=
  if c.lg.run.isSome || !lineRunsOn ln (s.pk.idx.toNat % 10) then (s, none)
  else
    match s.fetchLine c (lineVa s.pk.idx + 128) with
    | (s, .line _) => (s, none)
    | (s, .raise _ _) => (s, none)
    | (s, .bad _) => (s, none)
    | (s, r) => (s, some r)

/-- Executes a whole packet, with the checks of its run (R255 to R259, R472). -/
def State.runWhole (s : State) (c : Ctx) (ln : FetchLine) (p : Packet) : Out :=
  let succ := succIn ln s.pk.idx
  let (s, tgt, wait) := if p.hold then s.succTarget c ln succ else (s, false, none)
  let (s, ahead) := if p.hold then s.runWaits c ln else (s, none)
  if s.pk.stall then .next (s.holdBack c) else
  match c.chainSlot (packetWords p) p.hold tgt, wait <|> ahead with
  | some j, _ => .next (s.packetTrap c .chain j 0)
  | none, some r => .next (s.parkAtPacket c (lineVa s.pk.idx + 128) r)
  | none, none =>
    let sn : Lg := { c.lg with landing := false, resuming := false }
    let sn : Lg := { sn with fetched := (s.lgs.find c.g).bind fun l => l.fetched }
    andThen (((s.openPacket c sn succ).setLg c.g { sn with pc := succ }).runPacket c.em (packetWords p)) fun t =>
      match t.pk.fate with
      | .runs => .next (t.modLg c.g fun l =>
          if l.replay.isSome && !p.hold then { l with run := none }
          else l.afterPacket p.hold s.pk.first ((packetWords p).filterMap fun q => slowWrite q.2))
      | _ => .next t

/-- The least cycles between two packets with `task.spawn` on a sub-core (R163). -/
def State.spawnGap (s : State) (c : Ctx) : Nat := if (s.part c.part).depth then 16 else 8

/-- Whether a packet waits under R163. -/
def State.spawnWaits (s : State) (c : Ctx) (p : Packet) : Bool :=
  ((packetWords p).any fun q => match q.2 with | .taskSpawn _ _ _ => true | _ => false) &&
    (match (s.core c.core).spawnAt.find c.lg.sc with | none => false | some t => decide (s.now < t + s.spawnGap c))

/-- Notes the issue of a packet with `task.spawn`. -/
def State.spawned (s : State) (c : Ctx) (p : Packet) : State :=
  if s.pk.fate != .heldBack && ((packetWords p).any fun q => match q.2 with | .taskSpawn _ _ _ => true | _ => false) then
    s.modCore c.core fun k => { k with spawnAt := k.spawnAt.put c.lg.sc s.now }
  else s

/-- A packet whose line has been fetched and checked (R253, R263, R264, R417). -/
def State.runLine (s : State) (c : Ctx) (ln : FetchLine) : Out :=
  let j := s.pk.idx.toNat % 10
  let p := ln.packet j
  if c.lg.landing && c.lg.replay.isNone && !mayLand ln s.pk.idx then .next (s.packetTrap c .target 0 0)
  else if !ln.isValid j then .next (s.invalidTrap c)
  else
    match packetIllegal p with
    | some k => .next (s.wordTrap c p k)
    | none =>
      if s.spawnWaits c p then .next (s.holdBack c) else
      andThen (match c.lg.replay with
        | some r => s.runReplay c r (succIn ln s.pk.idx) (packetWords p)
        | none => s.runWhole c ln p) fun t => .next (t.spawned c p)

/-- Issues the next packet of a lane group. -/
def State.issue (s : State) (g : Nat) : Out :=
  let s := (s.seeK g).modLg g fun l => { l with status := .ready, counting := false }
  match s.lgs.find g with
  | none => .fault .noLaneGroup
  | some l =>
    let s : State := { s with cur := g, pk :=
      { idx := l.pc, succ := l.pc, first := (l.run.map (·.first)).getD l.pc, since := some s.nseq } }
    match s.ctx? with
    | none => .fault .noLaneGroup
    | some c =>
      let (t, f) := s.fetchLine c (lineVa l.pc)
      if t.pk.stall then .next ((s.holdBack c).closePacket g) else
      andThen (match f with
        | .line ln => t.runLine c ln
        | .raise x tva => .next (t.packetTrap c x 0 tva)
        | .bad ln => .next (if ln.isValid (l.pc.toNat % 10) then t.packetTrap c .illegal 0 0 else t.invalidTrap c)
        | f => .next (t.parkAtPacket c (lineVa l.pc) f)) fun t => .next (t.closePacket g)

end Sys2Proof.Machine
end

