-- ==== Sys2Proof/Machine/Next.lean ====
section
/-! DEFINITION. What happens next: the outside world's next event, a packet of some lane group, a message under way, an event that
is due, or the passing of a cycle. Which of several possible things comes first is a free choice (log entry 3). -/

namespace Sys2Proof.Machine

/-- A segment that has arrived and waits for a line that an engine owns has opened its frame on its arrival (R243). -/
def State.openArrived (s : State) : State :=
  s.agenda.foldl (fun s p =>
    match p.2 with
    | .streamSegment vf q frame off data =>
      if p.1 ≤ s.now ∧ s.segmentWaits vf q frame off data.length = true then s.openFrame vf q frame else s
    | _ => s) s

/-- What no event of its own announces: the time of stalls (R201), what stands at the modules of a failed edge (R437), flits that found no slot (R452), records, counter updates and stream units that a line
owned by an engine held back (R132), the matches of bus sends (R184), ghost updates that may go (R202), growth that stands still and what ends it (R162),
segments that have arrived (R243), swap-outs that a count of parked lane groups asks for (R148). -/
def State.settle (s : State) : State :=
  s.clockStalls.loseDown.lostFlits.flushRecs.flushBacks.flushCtrs.flushUnits.dropMatches.matchSends.flushGhosts.watchGrowths.growEligible.openArrived.beginSwaps

/-- A cycle in which nothing else happens. -/
def State.tick (s : State) : State := { s with now := s.now + 1, epoch := s.epoch + 1 }

/-- An event: no packet is in execution. -/
def eventStep (f : State → Out) (s : State) : Out :=
  andThen (f { s with pk := {} }) fun t => .next { t with pk := {}, epoch := t.epoch + 1 }

/-- Of the lane groups that can issue now, the one that has waited longest. -/
def State.longestWaiting (s : State) : Option Nat :=
  (((s.issuable.filterMap fun g => (s.lgs.find g).map fun l => (g, l)).sortBy fun a b =>
    decide (a.2.waited ≤ b.2.waited)).head?).map (·.1)

/-- The flits that can leave their places now, those of the oldest packet first (R208, R213). -/
def State.flitMoves (s : State) : List (State → Out) :=
  s.packs.flatMap fun p => ((none :: (List.range p.2.hops.length).map some).filter (s.flitReady p.1 p.2)).map fun a => fun s => .next (s.moveFlit p.1 a)

/-- What has its turn at this step, so that nothing that can happen waits for ever (R50): every eighth step the lane group that has
waited longest, every eighth the oldest message under way, every eighth a due event, each in its turn, every eighth a flit that can move (log entry 3). -/
def State.turn (s : State) (msgs due flits : List (State → Out)) : Option (State → Out) :=
  match s.epoch % 8 with
  | 0 => s.longestWaiting.map fun g => fun s => s.issue g
  | 1 => msgs.head?
  | 2 => due[s.epoch / 8 % due.length]?
  | 3 => flits[s.epoch / 8 % flits.length]?
  | _ => none

/-- One of the things that can happen: what has its turn, else a free choice where there are several; with none, a cycle passes.
Events may be as late as their bounds allow, so a cycle may pass before one. -/
def State.goOn (s : State) : Out :=
  let msgs := (s.ripeOf [] s.pending).map fun e => eventStep e.run
  let due := s.due.map eventStep
  let flits := s.flitMoves.map eventStep
  match s.issuable.map (fun g s => State.issue s g) ++ msgs ++ due ++ flits ++
    (if msgs.isEmpty && due.isEmpty && flits.isEmpty then [] else [fun s => .next s.tick]) with
  | [] => .next s.tick
  | [f] => f s
  | fs =>
    match s.turn msgs due flits with
    | some f => f s
    | none =>
      let (n, s) := s.draw
      match fs[Config.pick n % fs.length]? with
      | some f => f s
      | none => .next s

/-- Whether an event from outside still waits: it is not yet time, or it needs a line that an engine owns (R132, R239, R243, R246). -/
def State.waitsOutside (s : State) (p : Nat × Instr) : Bool :=
  decide (s.now < p.1) ||
    match p.2 with
    | .hostAccess _ pa _ _ => s.locked (s.canonPa pa / 128)
    | .hostSnoop line => s.locked (line / 128)
    | .remoteAccess _ _ pa _ _ => s.locked (s.canonPa pa / 128)
    | .streamSegment vf q frame off data => s.segmentWaits vf q frame off data.length
    | _ => false

/-- The stream queue of a segment: those of one queue arrive in their order. -/
def streamOf : Instr → Option (Nat × Nat)
  | .streamSegment vf q _ _ _ => some (vf, q)
  | _ => none

/-- The first event from outside that need not wait; a segment does not pass an earlier one of its queue (R243). -/
def State.firstOutside (s : State) (held : List (Nat × Nat)) : List (Nat × Instr) → Option (Nat × Instr)
  | [] => none
  | p :: r =>
    if ((streamOf p.2).map held.contains).getD false then s.firstOutside held r
    else if s.waitsOutside p then s.firstOutside (if p.1 ≤ s.now then held ++ (streamOf p.2).toList else held) r
    else some p

/-- A frame closes at its deadline, before anything else happens (R244). -/
def State.afterDeadlines (k : State → Out) (s : State) : Out :=
  match s.overdue.filter fun f => s.moves (execFrameDeadline f.1 f.2.1 f.2.2) with
  | some f => eventStep (execFrameDeadline f.1 f.2.1 f.2.2) s
  | none => k s

/-- An event of the outside world; its agenda holds no instruction word. -/
def State.fromOutside (p : Nat × Instr) (s : State) : Out :=
  let s := { s with agenda := s.agenda.erase p }
  if (encode p.2).isSome then .next s else eventStep (exec p.2) s

/-- What happens next: an event of the outside world at its time, once it need not wait, or what the package does. Between two steps no
packet is in execution. -/
def State.advance (s : State) : Out :=
  let r : State := { s.settle with pk := {} }
  match r.firstOutside [] s.agenda with
  | none => r.afterDeadlines State.goOn
  | some p => r.afterDeadlines (State.fromOutside p)

end Sys2Proof.Machine
end

