-- ==== Sys2Proof/Machine/Place.lean ====
section
/-! DEFINITION. A program of one packet, placed as a loader places it: a launch that runs on core 0 for partition 0 and function 0,
with one workgroup of one lane group at the packet (log entry 1). -/

namespace Sys2Proof.Machine

/-- The address, virtual and physical, of the line that holds the packet. -/
def placeAt : Nat := 0x100000

/-- The translation of its granule: read, write and execute at both stages, under key 1. -/
def placeTlb : TlbEnt :=
  { part := 0, vf := 0, bits := 16, va := placeAt, ipa := placeAt, pa := placeAt, perm := 7, perm2 := 7, kid := 1, bits2 := 16 }

/-- Bulkhead 0 runs for partition 0 (R13), which is enabled (R14), as is function 0 (R24); key 1 is loaded for it (R468). -/
def placeWin : Tab DWord := [(0, 0x141001#64), (0x100, 0xB3#64), (0x1000, 0x10#64), (0x10000, 1#64), (0x30008, 0xC00#64)]

/-- The launch: one workgroup of one lane group, already placed. -/
def placeLaunch (now : Nat) : Launch :=
  { words := [BitVec.ofNat 64 placeAt, 0, 0x0000000100010001#64, 0, 0, 0, 0, 0], vf := 0, part := 0, queue := 0, lnum := 0,
    st := .running, next := 1, since := now, startAt := 2, lastIssue := now }

def placeWg (now : Nat) : Wg := { launch := 0, core := 0, home := 0, st := .resident, placedAt := now }

def placeLg (now : Nat) : Lg := { wg := 1, lgn := 0, alloc := 64, pc := linePacket placeAt, landing := true, aged := true, waited := 2, parkAt := now }

/-- The machine with the word of a packet of its own about to issue; nothing else is about to happen. -/
def State.placeWord (s : State) (w : Nat) : State :=
  let s := s.writeBytes placeAt (lineOfWord (BitVec.ofNat 32 w))
  { s with
    cur := 2, pk := {}, nseq := max s.nseq 3, agenda := [], pending := []
    poison := (wordsOf placeAt 128).foldl (fun t i => t.del i) s.poison
    dir := s.dir.del (placeAt / 128), retired := s.retired.erase (placeAt / 65536)
    win := placeWin, winDrain := [], hmap := s.hmap.put 0 0#4, vfr := []
    cores := [(0, { ticks := s.now / 256, tlb := [placeTlb] })]
    lgs := [(2, placeLg s.now)], wgs := [(1, placeWg s.now)], launches := [(0, placeLaunch s.now)], parts := []
    accs := [], cmds := [], msgs := [], merges := [], frags := [], packs := [], links := [], ldirs := [], edgesDown := [], permits := [], govs := []
    preqs := [], s2w := [], invs := [], syncs := [], streams := [], dumps := [], bhSince := [], cxlDownAt := [], bhWait := []
    boot := { s.boot with stage := 3, halted := false } }

end Sys2Proof.Machine
end

