-- ==== Sys2Proof/Machine/Step.lean ====
section
/-! DEFINITION. One step of the machine, and a word placed where the next step fetches it. -/

namespace Sys2Proof.Machine

/-- One step: the next thing that happens in the package. -/
def step (s : State) : Host.Outcome State Fault Refusal := s.advance

/-- The machine with one 32-bit word as the only packet of a program that is about to issue it. -/
def State.withFetchWord (s : State) (_nbits w : Nat) : State := s.placeWord w

end Sys2Proof.Machine
end

