-- ==== Sys2Proof/Safety.lean ====
section
/-! DEFINITION. The terms in which statements about the machine are made: reading registers and memory, what a word or an event
answers, the form of a word's effect (its result and its frame), and the invariants of a run. -/

namespace Sys2Proof.Machine

/-! ## Reading -/

/-- Register `r` of a lane (R52). -/
def Lg.vAt (l : Lg) (r lane : Nat) : Word := Tab.getD l.v 0 (32 * r + lane)
/-- Latch `j` of a lane (R61). -/
def Lg.lAt (l : Lg) (j lane : Nat) : Word := Tab.getD l.l 0 (32 * j + lane)
/-- Predicate `n` (R65). -/
def Lg.qAt (l : Lg) (n : Nat) : Word := Tab.getD l.q 0 n
/-- Arrival counter `n` (R68). -/
def Lg.cAt (l : Lg) (n : Nat) : Word := Tab.getD l.c 0 n
/-- Index offset `x` of a lane (R72). -/
def Lg.xoAt (l : Lg) (x lane : Nat) : BitVec 8 := Tab.getD l.xo 0 (32 * x + lane)
/-- Uniform register `n` of a workgroup (R63). -/
def Wg.kAt (w : Wg) (n : Nat) : DWord := Tab.getD w.k 0 n
/-- The owner of a uniform register, 32 for none (R63). -/
def Wg.ownerAt (w : Wg) (n : Nat) : Nat := Tab.getD w.kown 0 n

/-! ## What a source needs (R55, R62, R421) -/

/-- A source, read by lane `j` as lane `at_ j` sees it, that raises no cause in the active lanes: a latch was written in this run, an
index is in bounds, no word read fails its code. -/
def Ctx.SrcAtOk (c : Ctx) (at_ : Nat → Nat) (a : BitVec 8) : Prop :=
  (a.toNat / 64 = 1 → a.toNat % 64 < 4 → c.sn.lOk.getLsbD (a.toNat % 64) = true) ∧
  (a.toNat / 64 = 1 → 4 ≤ a.toNat % 64 → a.toNat % 64 < 8 → ∀ j ∈ c.lanes, c.idxOk (a.toNat % 64 - 4) (at_ j) = true) ∧
  (∀ j ∈ c.lanes, ∀ p, c.reads a (at_ j) = some p → c.badWord p = false)

/-- The same for each lane's own view. -/
def Ctx.SrcOk (c : Ctx) (a : BitVec 8) : Prop := c.SrcAtOk id a

/-- A register whose words in the active lanes pass their codes. -/
abbrev Ctx.RegOk (c : Ctx) (r : Nat) : Prop := ∀ j ∈ c.lanes, c.badWord (r, j) = false

/-- The same in the executing lane of a command (R363). -/
abbrev Ctx.ExOk (c : Ctx) (r : Nat) : Prop := c.badWord (r, c.exLane) = false

/-- An old destination, or latch, that a word reads. -/
abbrev Ctx.DstOk (c : Ctx) (n : BitVec 1) (d : BitVec 6) : Prop :=
  if n = 1 then c.sn.lOk.getLsbD d.toNat = true else c.RegOk d.toNat

/-! ## What a word answers -/

/-- In every state in which a lane group stands at the well-formed word `i` and `ok` holds, `exec` answers a next state, and `eff`
says which. -/
def Runs (i : Instr) (ok : Ctx → State → Prop) (eff : Ctx → State → State → Prop) : Prop :=
  ∀ (s : State) (c : Ctx), s.ctx? = some c → wellFormed i = true → ok c s → ∃ t, exec i s = .next t ∧ eff c s t

/-- Some state meets the hypotheses of `Runs`. -/
def Meets (i : Instr) (ok : Ctx → State → Prop) : Prop :=
  ∃ (s : State) (c : Ctx), s.ctx? = some c ∧ wellFormed i = true ∧ ok c s

/-- In every state in which `ok` holds, an event answers a next state, and `eff` says which. -/
def Happens (i : Instr) (ok : State → Prop) (eff : State → State → Prop) : Prop :=
  ∀ s : State, ok s → ∃ t, exec i s = .next t ∧ eff s t

/-- The machine once a message has been taken. -/
def State.took (s : State) (e : Ev) : State := { s with pending := s.pending.erase e }

/-- In every state in which the message `e` is under way and `ok` holds, its event `i` answers a next state, and `eff` says which, from
the machine that no longer holds the message. -/
def Arrives (e : Ev) (i : Instr) (ok : State → Prop) (eff : State → State → Prop) : Prop :=
  ∀ s : State, e ∈ s.pending → ok s → ∃ t, exec i s = .next t ∧ eff (s.took e) t

/-- An event whose step may reach memory: in every state in which `ok` holds, `exec` answers what `f` makes of the machine; where that
meets a line that an engine owns, the event waits instead, and the machine stands (R132). -/
def Performs (i : Instr) (ok : State → Prop) (f : State → State) : Prop :=
  ∀ s : State, ok s → exec i s = .next (if (f s).pk.stall = true ∧ s.pk.stall = false then s else f s)

/-- The same for a message under way, which `f` no longer finds. -/
def Delivers (e : Ev) (i : Instr) (ok : State → Prop) (f : State → State) : Prop :=
  ∀ s : State, e ∈ s.pending → ok s →
    exec i s = .next (if (f (s.took e)).pk.stall = true ∧ s.pk.stall = false then s else f (s.took e))

/-! ## Effects and frames -/

/-- A 32-bit result in `v[d]`, or with `n` = 1 in latch `d` (R61): the active lanes of `v[d]` take it, a latch takes zero in the
others and becomes valid, codes of the words written become good, nothing else of the lane group changes. -/
structure LaneWrite (em : Word) (n : BitVec 1) (d : Nat) (f : Nat → Word) (l l' : Lg) : Prop where
  reg : ∀ r lane, lane < 32 → l'.vAt r lane = if n = 0 ∧ r = d ∧ em.getLsbD lane = true then f lane else l.vAt r lane
  latch : ∀ j lane, lane < 32 →
    l'.lAt j lane = if n = 1 ∧ j = d then (if em.getLsbD lane = true then f lane else 0) else l.lAt j lane
  valid : ∀ j, j < 4 → (l'.lOk.getLsbD j = true ↔ l.lOk.getLsbD j = true ∨ (n = 1 ∧ j = d))
  code : ∀ x, x ∈ l'.bad ↔ x ∈ l.bad ∧ ¬ (n = 0 ∧ x / 32 = d ∧ em.getLsbD (x % 32) = true)
  rest : l' = { l with v := l'.v, bad := l'.bad, l := l'.l, lOk := l'.lOk }

/-- The effect of a word that writes a lane result and nothing else of the machine. -/
def LaneEff (n : BitVec 1) (d : Nat) (f : Ctx → Nat → Word) (c : Ctx) (s t : State) : Prop :=
  ∃ l', LaneWrite c.em n d (f c) c.lg l' ∧ t = s.setLg c.g l'

/-- The same with the flags of the active lanes added to `cr.fflags` (R75). -/
def FlagEff (n : BitVec 1) (d : Nat) (f : Ctx → Nat → Word × FFlags) (c : Ctx) (s t : State) : Prop :=
  ∃ l', LaneWrite c.em n d (fun j => (f c j).1) c.lg l' ∧
    ∃ fl : FFlags, (∀ b, fl.getLsbD b = true ↔ c.lg.fflags.getLsbD b = true ∨ ∃ j ∈ c.lanes, (f c j).2.getLsbD b = true) ∧
      t = s.setLg c.g { l' with fflags := fl }

/-- The lanes of `em` of predicate `d` become those of `w`; nothing else of the lane group changes. -/
structure PredWrite (em : Word) (d : Nat) (w : Word) (l l' : Lg) : Prop where
  pred : ∀ n, l'.qAt n = if n = d then (l.qAt n &&& ~~~em) ||| (w &&& em) else l.qAt n
  rest : l' = { l with q := l'.q }

def PredEff (em : Ctx → Word) (d : Nat) (f : Ctx → Word) (c : Ctx) (s t : State) : Prop :=
  ∃ l', PredWrite (em c) d (f c) c.lg l' ∧ t = s.setLg c.g l'

/-- A word that changes its lane group as `f` says, and nothing else. -/
def LgEff (f : Ctx → State → Lg → Lg) (c : Ctx) (s t : State) : Prop := t = s.setLg c.g (f c s c.lg)

/-- A word with no effect but to pass. -/
def NoEff (_ : Ctx) (s t : State) : Prop := t = s

/-- Index offsets written in the active lanes (R298). -/
def OffEff (x : Nat) (f : Ctx → Nat → BitVec 8) (c : Ctx) (s t : State) : Prop :=
  ∃ l' : Lg, (∀ y lane, lane < 32 → l'.xoAt y lane = if y = x ∧ c.em.getLsbD lane = true then f c lane else c.lg.xoAt y lane) ∧
    l' = { c.lg with xo := l'.xo } ∧ t = s.setLg c.g l'

/-- An arrival counter of the lane group takes a value (R68). -/
def CtrEff (n : Nat) (f : Ctx → Word) (c : Ctx) (s t : State) : Prop :=
  ∃ l' : Lg, (∀ m, l'.cAt m = if m = n then f c else c.lg.cAt m) ∧ l' = { c.lg with c := l'.c } ∧ t = s.setLg c.g l'

/-- A 64-bit result in the pair `v[d]`:`v[d+1]` of the active lanes. -/
def PairWrite (em : Word) (d : Nat) (f : Nat → DWord) (l l' : Lg) : Prop :=
  (∀ r lane, lane < 32 → l'.vAt r lane =
    if r = d ∧ em.getLsbD lane = true then (f lane).truncate 32
    else if r = d + 1 ∧ em.getLsbD lane = true then (f lane >>> 32).truncate 32 else l.vAt r lane) ∧
  l' = { l with v := l'.v, bad := l'.bad }

def PairEff (d : Nat) (f : Ctx → State → Nat → DWord) (c : Ctx) (s t : State) : Prop :=
  ∃ l', PairWrite c.em d (f c s) c.lg l' ∧ t = s.setLg c.g l'

/-- A uniform register of the lane group's workgroup takes a value: every other register, workgroup and piece of the machine stands;
of the lane groups only the older values that they may still read change (R64). -/
def KEff (n : Nat) (f : Ctx → DWord) (c : Ctx) (s t : State) : Prop :=
  (∃ w', t.wgs.find c.lg.wg = some w' ∧ (∀ m, w'.kAt m = if m = n then f c else c.wg.kAt m) ∧ w' = { c.wg with k := w'.k }) ∧
  (∀ u, u ≠ c.lg.wg → t.wgs.find u = s.wgs.find u) ∧
  (∀ g, (t.lgs.find g).map (fun l => { l with kv := [] }) = (s.lgs.find g).map (fun l => { l with kv := [] })) ∧
  t = { s with wgs := t.wgs, lgs := t.lgs }

/-- A word raises a restarting cause of a rank (R7): what follows is what taking the exception gives. -/
def Raises (k : Cause) (rank : Nat) (fm : Ctx → Word) (c : Ctx) (s t : State) : Prop := t = s.takeTrap c (s.restartTrap k rank (fm c))

/-- A lane group stands before its packet and tries again later (R123, R321): nothing of the packet happens. -/
def Held (c : Ctx) (s t : State) : Prop := t = s.holdBack c

/-- A binary word: its result in each active lane is `f` of its sources there. -/
def BinLaw (i : Instr) (n : BitVec 1) (d : BitVec 6) (a b : BitVec 8) (f : Word → Word → Word) : Prop :=
  Runs i (fun c _ => c.SrcOk a ∧ c.SrcOk b) (LaneEff n d.toNat fun c j => f (c.src 0 a j) (c.src 0 b j))

/-- A word that cannot read its source `a`, its other sources good (`ok`): a latch that no packet of the run has written raises `latch`
(R62), an index out of bounds in some active lane `bound` with those lanes (R55), words whose code fails `poison` with their lanes
(R421). -/
def SrcTrapLaw (i : Instr) (a : BitVec 8) (ok : Ctx → Prop) : Prop :=
  let out := fun (c : Ctx) => maskOf (c.lanes.filter fun j => !c.idxOk (a.toNat % 64 - 4) j)
  let bad := fun (c : Ctx) => maskOf (c.lanes.filter fun j => c.badWord (a.toNat, j))
  Runs i (fun c _ => ok c ∧ c.sn.bad = [] ∧ a.toNat / 64 = 1 ∧ a.toNat % 64 < 4 ∧ c.sn.lOk.getLsbD (a.toNat % 64) = false)
    (Raises .latch (Cause.rank .latch) Ctx.em) ∧
  Runs i (fun c _ => ok c ∧ c.sn.bad = [] ∧ a.toNat / 64 = 1 ∧ 4 ≤ a.toNat % 64 ∧ a.toNat % 64 < 8 ∧ out c ≠ 0)
    (Raises .bound (Cause.rank .bound) out) ∧
  Runs i (fun c _ => ok c ∧ a.toNat / 64 = 0 ∧ bad c ≠ 0) (Raises .poison 5 bad)

/-- The same of either of two sources. -/
def TwoSrcTraps (i : Instr) (a b : BitVec 8) : Prop :=
  SrcTrapLaw i a (fun c => c.SrcOk b ∨ a = b) ∧ SrcTrapLaw i b (fun c => c.SrcOk a ∨ a = b)

/-- A unary word. -/
def UnLaw (i : Instr) (n : BitVec 1) (d : BitVec 6) (a : BitVec 8) (f : Word → Word) : Prop :=
  Runs i (fun c _ => c.SrcOk a) (LaneEff n d.toNat fun c j => f (c.src 0 a j))

/-- A scalar floating-point word of two sources. -/
def Fp32Law (i : Instr) (n : BitVec 1) (d : BitVec 6) (a b : BitVec 8) (f : Nat → Nat → Nat × FFlags) : Prop :=
  Runs i (fun c _ => c.SrcOk a ∧ c.SrcOk b) (FlagEff n d.toNat fun c j =>
    (BitVec.ofNat 32 (f (c.src 0 a j).toNat (c.src 0 b j).toNat).1, (f (c.src 0 a j).toNat (c.src 0 b j).toNat).2))

/-- A packed word of two sources: `f` on the low halves and, alone, on the high halves; the flags of both (R81). `pk` is 1 for BF16
constants, 2 for FP16. -/
def FpPkLaw (i : Instr) (pk : Nat) (n : BitVec 1) (d : BitVec 6) (a b : BitVec 8) (f : Nat → Nat → Nat × FFlags) : Prop :=
  Runs i (fun c _ => c.SrcOk a ∧ c.SrcOk b) (FlagEff n d.toNat fun c j =>
    let lo := f ((c.src pk a j).toNat % 65536) ((c.src pk b j).toNat % 65536)
    let hi := f ((c.src pk a j).toNat / 65536) ((c.src pk b j).toNat / 65536)
    (BitVec.ofNat 32 (lo.1 % 65536 + hi.1 % 65536 * 65536), lo.2 ||| hi.2))

/-- A unary floating-point word of type `t` (R270): 0 scalar FP32, 1 packed BF16, 2 packed FP16. -/
def FpUnLaw (i : Instr) (t : BitVec 2) (n : BitVec 1) (d : BitVec 6) (a : BitVec 8) (f : Fmt → Nat → Nat × FFlags) : Prop :=
  Runs i (fun c _ => c.SrcOk a) (FlagEff n d.toNat fun c j =>
    let x := (c.src t.toNat a j).toNat
    if t = 0 then (BitVec.ofNat 32 (f f32 x).1, (f f32 x).2)
    else
      let lo := f (if t = 1 then bf16 else f16) (x % 65536)
      let hi := f (if t = 1 then bf16 else f16) (x / 65536)
      (BitVec.ofNat 32 (lo.1 % 65536 + hi.1 % 65536 * 65536), lo.2 ||| hi.2))

/-- A fused word on two sources and the old destination (R266). -/
def FusedLaw (i : Instr) (pk : Nat) (n : BitVec 1) (d : BitVec 6) (a b : BitVec 8) (f : Word → Word → Word → Word × FFlags) : Prop :=
  Runs i (fun c _ => c.SrcOk a ∧ c.SrcOk b ∧ c.DstOk n d) (FlagEff n d.toNat fun c j =>
    f (c.src pk a j) (c.src pk b j) (c.dst n d.toNat j))

/-- A word that writes a whole predicate. -/
def PredLaw (i : Instr) (d : BitVec 3) (f : Ctx → Word) : Prop := Runs i (fun _ _ => True) (PredEff (fun _ => 0xFFFFFFFF) d.toNat f)

/-- A word that writes a uniform register that its lane group owns. -/
def KLaw (i : Instr) (d : BitVec 5) (f : Ctx → DWord) : Prop := Runs i (fun c _ => c.owns d.toNat = true) (KEff d.toNat f)

/-- A word of two uniform sources. -/
def KBinLaw (i : Instr) (d : BitVec 5) (a b : BitVec 8) (f : DWord → DWord → DWord) : Prop := KLaw i d fun c => f (c.uni a) (c.uni b)

/-! ## Accesses (R105, R122, R302) -/

/-- The translations that the issue of an access makes. -/
def Req.xlated (r : Req) (c : Ctx) (s : State) : State × List LaneAddr :=
  s.xlateLanes c r.size r.need [] (r.lanes.map fun i => (i, r.addr i))

/-- What has been done on the way from `s` to `t` has met no line that an engine owns (R132). -/
abbrev Unowned (s t : State) : Prop := t.pk.stall = s.pk.stall

/-- Nothing of the lane group keeps an access from issuing: no acquire before it, and before a release nothing (R123). -/
abbrev OrderOk (r : Req) (c : Ctx) (s : State) : Prop := s.acquiring c.g = false ∧ (r.relr = true → s.quiet c.g = true)

/-- An access that issues: some lane executes it, nothing of its lane group holds it, every lane's address is aligned and translated
without meeting a line that an engine owns, and it is no replay. -/
abbrev IssueOk (r : Req) (c : Ctx) (s : State) : Prop :=
  r.lanes ≠ [] ∧ OrderOk r c s ∧ s.replaying c = none ∧ Unowned s (r.xlated c s).1 ∧ ∀ a ∈ (r.xlated c s).2, a.cause = .none

/-- A core but for its L1 cache and its L1 TLB. -/
def Core.rest (k : Core) : Core := { k with l1 := [], tlb := [] }

/-- A workgroup but for the lines in its stash. -/
def Wg.bare (w : Wg) : Wg := { w with stash := [] }

/-- A workgroup but for its stash and its staged words. -/
def Wg.unstaged (w : Wg) : Wg := { w with stash := [], staged := [], stagedPois := [], stagedKids := [] }

/-- The machine but for what walks, publishes and records change: memory with its poison and its directory, the cores and the workgroups
(`Below` says what of them stands), the die TLBs and the entries that have left a TLB, the count of free values, the lines on their way
to memory, and the records that wait. -/
def State.rest (s : State) : State :=
  { s with mem := [], poison := [], dir := [], cores := [], dtlb := [], oldTlb := [], wgs := [], nfree := 0, wbacks := [],
           heldRecs := [], lateRecs := [],
           pk := { s.pk with stall := false } }

/-- The frame of what goes on below the lane groups: a walk, a publish, the writing of a record. -/
structure Below (s t : State) : Prop where
  rest : t.rest = s.rest
  core : ∀ c, (t.core c).rest = (s.core c).rest
  wg : ∀ w, (t.wgs.find w).map Wg.bare = (s.wgs.find w).map Wg.bare

/-- The machine, further, but for accesses, messages, and the number of the next access. -/
def State.idle (s : State) : State := { s.rest with accs := [], pending := [], packs := [], ldirs := [], nseq := 0 }

/-- An access outstanding after its issue: every lane's part is on its way with the address and, until it is performed, the bytes of its
lane; a 16-byte access has two parts a lane, one for each half. The lane groups, the other accesses, and memory but for what translating
and a stash that gives up a line write, stand; of the machine change only the messages that the access sends, the caches and the TLBs,
and the staged words of the lane group's workgroup. -/
structure Issued (r : Req) (c : Ctx) (s t : State) : Prop where
  acc : ∃ x, t.accs.find s.nseq = some x ∧ x.lg = c.g ∧ x.kind = r.kind ∧ x.ctr = r.ctr ∧ x.d = r.d ∧ x.size = min r.size 8 ∧
    x.sext = r.sext ∧ x.acqr = r.acqr ∧ x.relr = r.relr ∧ x.busy = true ∧
    (∀ j ∈ r.lanes, ∃ p ∈ x.lanes, p.lane = j ∧ p.off = 0 ∧ p.va = r.addr j ∧
      (p.st = 0 → p.data = (if r.size = 16 then (r.data j).take 8 else r.data j) ∧ p.cmp = r.cmp j)) ∧
    (r.size = 16 → ∀ j ∈ r.lanes, ∃ p ∈ x.lanes, p.lane = j ∧ p.off = 2 ∧ p.va = r.addr j + 8 ∧
      (p.st = 0 → p.data = (r.data j).drop 8))
  lg : t.lgs.find c.g = s.lgs.find c.g
  others : ∀ id, id ≠ s.nseq → t.accs.find id = s.accs.find id
  rest : t.idle = s.idle
  core : ∀ k, (t.core k).rest = (s.core k).rest
  wg : ∀ w, (t.wgs.find w).map Wg.unstaged = (s.wgs.find w).map Wg.unstaged
  mem : (∀ op far, r.kind ≠ .atomic op far) → t.mem = (r.xlated c s).1.mem

/-- The state in which a word that a staged workgroup must commit before issues (R117). -/
def Committed (c : Ctx) (s : State) : State := if c.la.staged = true then s.forcedCommit c.lg.wg else s

/-- The hypotheses of such a word: no engine holds the commit back. -/
abbrev CommitOk (c : Ctx) (s : State) : Prop := c.la.staged = true → s.commitWaits c.lg.wg = false

/-- The addresses, virtual and physical, of a store's lanes. -/
def Req.places (r : Req) (c : Ctx) (s : State) : List (Nat × Nat) :=
  (r.xlated c s).2.filterMap fun a => match a.res with | .ok pa _ => some (a.va, pa) | _ => none

/-- The state in which a store issues: in staged mode a release reaches a forced commit point first; any other store has its
addresses translated, and where it finds no room it reaches a forced commit point (R116, R117). -/
def StoreAt (r : Req) (c : Ctx) (s : State) : State :=
  if c.la.staged = false then s
  else if r.relr = true then Committed c s
  else if c.stageFits (r.xlated c s).1 (r.places c s) = true then (r.xlated c s).1
  else Committed c (r.xlated c s).1

/-- In staged mode no load stands in a store's way and no engine holds back a commit (R116, R123). -/
abbrev StageOk (r : Req) (c : Ctx) (s : State) : Prop :=
  c.la.staged = true → if r.relr = true then CommitOk c s else
    (r.xlated c s).1.loadsInWay c r.size (r.places c s) = false ∧
      (c.stageFits (r.xlated c s).1 (r.places c s) = false → CommitOk c (r.xlated c s).1)

/-- Whether a store issues at once. -/
abbrev StoreOk (r : Req) (c : Ctx) (s : State) : Prop :=
  r.lanes ≠ [] ∧ OrderOk r c s ∧ IssueOk r c (StoreAt r c s) ∧ Unowned s (StoreAt r c s) ∧ StageOk r c s

/-- An access of which some lane fails its checks or its translation: nothing holds it, it is no replay, and no line that an engine owns
is met. -/
abbrev FaultOk (r : Req) (c : Ctx) (s : State) : Prop :=
  r.lanes ≠ [] ∧ OrderOk r c s ∧ s.replaying c = none ∧ Unowned s (r.xlated c s).1 ∧ ∃ a ∈ (r.xlated c s).2, a.cause ≠ .none

/-- What it does (R105, R146, R413, R414): the lanes that passed have their parts on the way, those that failed have none, and the
replaying trap of the highest-ranked cause is taken, with the lowest lane that raised that cause as its address, the lanes that raised
any cause, and the access to be continued. -/
def Faulted (r : Req) (c : Ctx) (s t : State) : Prop :=
  let bad := (r.xlated c s).2.filter fun a => a.cause != .none
  let k := bestCause (bad.map LaneAddr.cause)
  ∃ (u : State) (tr : Trap) (kind : Nat), t = u.takeTrap c tr kind ∧ tr.cause = k ∧ tr.fm = maskOf (bad.map (·.lane)) ∧
    (∃ a, bad.find? (fun a => a.cause == k) = some a ∧ tr.tva = BitVec.ofNat 64 a.va) ∧
    tr.replaying = true ∧ tr.acc = some s.nseq ∧ tr.fpc = s.pk.idx ∧ tr.resume = s.pk.idx ∧ u.lgs.find c.g = s.lgs.find c.g ∧
    ∃ x, u.accs.find s.nseq = some x ∧ x.opn = true ∧ x.lg = c.g ∧ x.kind = r.kind ∧ x.ctr = r.ctr ∧
      (∀ p ∈ x.lanes, ∃ a ∈ (r.xlated c s).2, a.lane = p.lane ∧ a.cause = .none) ∧
      (∀ a ∈ (r.xlated c s).2, a.cause = .none → ∃ p ∈ x.lanes, p.lane = a.lane)

/-- An address that is no multiple of the access' size fails with `align`, one at or above 2^57 with `xlat.perm`, in its lane (R105). -/
def AlignLaw (r : Ctx → Req) : Prop := ∀ (c : Ctx) (s : State), ∀ j ∈ (r c).lanes,
  ((r c).addr j % (r c).size ≠ 0 → ∃ a ∈ ((r c).xlated c s).2, a.lane = j ∧ a.cause = .align) ∧
  ((r c).addr j % (r c).size = 0 → 2 ^ 57 ≤ (r c).addr j → ∃ a ∈ ((r c).xlated c s).2, a.lane = j ∧ a.cause = .xlatPerm)

/-- A word with no active lane adds 1 to its counter and does nothing else (R302). -/
def Counts (ctr : Nat) (c : Ctx) (s t : State) : Prop := t = s.addCtr c.g ctr 1

/-- A word that loads: with no active lane it only counts; held back by an earlier acquire it waits; else its access issues, and with a
lane that fails traps as well. -/
def LoadLaw (i : Instr) (ok : Ctx → Prop) (r : Ctx → Req) : Prop :=
  Runs i (fun c s => ok c ∧ IssueOk (r c) c s) (fun c s t => Issued (r c) c s t) ∧
  Runs i (fun c s => ok c ∧ s.acquiring c.g = true) Held ∧
  Runs i (fun c s => c.em = 0 ∧ s.acquiring c.g = false) (fun c s t => Counts (r c).ctr c s t) ∧
  Runs i (fun c s => ok c ∧ FaultOk (r c) c s) (fun c s t => Faulted (r c) c s t) ∧ AlignLaw r

/-- A word that stores: with no active lane it only counts; held back by an earlier acquire or, a release, by anything outstanding, it
waits, as a release in staged mode does while an engine owns a line that its workgroup commits, and a staged store behind a load of its
workgroup; else its access issues. -/
def StoreLaw (i : Instr) (ok : Ctx → Prop) (r : Ctx → Req) : Prop :=
  Runs i (fun c s => ok c ∧ StoreOk (r c) c s) (fun c s t => Issued (r c) c (StoreAt (r c) c s) t) ∧
  Runs i (fun c s => ok c ∧ ¬ OrderOk (r c) c s) Held ∧
  Runs i (fun c s => c.em = 0 ∧ OrderOk (r c) c s) (fun c s t => Counts (r c).ctr c s t) ∧
  Runs i (fun c s => ok c ∧ (r c).lanes ≠ [] ∧ OrderOk (r c) c s ∧ (r c).relr = true ∧ c.la.staged = true ∧
    s.commitWaits c.lg.wg = true) Held ∧
  Runs i (fun c s => ok c ∧ (r c).lanes ≠ [] ∧ OrderOk (r c) c s ∧ (r c).relr = false ∧ c.la.staged = true ∧
    Unowned s ((r c).xlated c s).1 ∧ ((r c).xlated c s).1.loadsInWay c (r c).size ((r c).places c s) = true)
    (fun c s t => t = ((r c).xlated c s).1.holdBack c) ∧
  Runs i (fun c s => ok c ∧ OrderOk (r c) c s ∧ FaultOk (r c) c (StoreAt (r c) c s) ∧ Unowned s (StoreAt (r c) c s) ∧ StageOk (r c) c s)
    (fun c s t => Faulted (r c) c (StoreAt (r c) c s) t) ∧ AlignLaw r

/-- An atomic word: the same, after a forced commit in staged mode. -/
def AtomLaw (i : Instr) (ok : Ctx → Prop) (r : Ctx → Req) : Prop :=
  Runs i (fun c s => ok c ∧ (r c).lanes ≠ [] ∧ OrderOk (r c) c s ∧ CommitOk c s ∧ Unowned s (Committed c s) ∧
    IssueOk (r c) c (Committed c s)) (fun c s t => Issued (r c) c (Committed c s) t) ∧
  Runs i (fun c s => ok c ∧ ¬ OrderOk (r c) c s) Held ∧
  Runs i (fun c s => c.em = 0 ∧ OrderOk (r c) c s) (fun c s t => Counts (r c).ctr c s t) ∧
  Runs i (fun c s => ok c ∧ (r c).lanes ≠ [] ∧ OrderOk (r c) c s ∧ ¬ CommitOk c s) Held ∧
  Runs i (fun c s => ok c ∧ OrderOk (r c) c s ∧ CommitOk c s ∧ Unowned s (Committed c s) ∧ FaultOk (r c) c (Committed c s))
    (fun c s t => Faulted (r c) c (Committed c s) t) ∧ AlignLaw r

/-! ## Commands (R178, R338, R365) -/

/-- A command in flight after its issue. -/
def Queued (ctr : Option Nat) (body : CmdBody) (c : Ctx) (t : State) (id : Nat) : Prop :=
  ∃ x, t.cmds.find id = some x ∧ x.lg = c.g ∧ x.wg = c.lg.wg ∧ x.core = c.core ∧ x.ctr = ctr ∧ x.body = body ∧ x.live = true

/-- A command that joins the matrix queue: beside it, only the reservation that a product at the queue's head takes changes. `gran`: the
addresses under which its pieces were translated. -/
structure MxAdded (ctr : Option Nat) (body : CmdBody) (gran : Tab (Nat × Nat)) (c : Ctx) (u t : State) : Prop where
  cmd : Queued ctr body c t u.nseq
  gran : (t.cmds.find u.nseq).map (·.gran) = some gran
  queue : ∀ k, (t.core k).mxq = if k = c.core then (u.core k).mxq ++ [u.nseq] else (u.core k).mxq
  others : ∀ id, id ≠ u.nseq → (t.cmds.find id).map (fun x => { x with left := 0 }) = (u.cmds.find id).map (fun x => { x with left := 0 })
  core : ∀ k, { t.core k with mxq := [], slaved := none } = { u.core k with mxq := [], slaved := none }
  rest : t = { u with nseq := t.nseq, cmds := t.cmds, cores := t.cores }

/-- A command that joins the array's queue, with its completion counter. -/
structure SaAdded (ctr : Nat) (body : CmdBody) (gran : Tab (Nat × Nat)) (q : Option Nat) (c : Ctx) (u t : State) : Prop where
  cmd : Queued (some ctr) body c t u.nseq
  gran : (t.cmds.find u.nseq).map (fun x => (x.gran, x.q)) = some (gran, q)
  queue : ∀ k, (t.core k).saq = if k = c.core then (u.core k).saq ++ [u.nseq] else (u.core k).saq
  others : ∀ id, id ≠ u.nseq → t.cmds.find id = u.cmds.find id
  core : ∀ k, { t.core k with saq := [] } = { u.core k with saq := [] }
  rest : t = { u with nseq := t.nseq, cmds := t.cmds, cores := t.cores }

/-- An engine command, with its completion counter: its ownership is to be taken next; a copy or bus send also waits in the core's
queue. -/
structure EngineAdded (ctr : Nat) (body : CmdBody) (q : Option Nat) (tc : Bool) (c : Ctx) (u t : State) : Prop where
  cmd : Queued (some ctr) body c t u.nseq
  counter : (t.cmds.find u.nseq).map (·.q) = some q
  next : t.pending = u.pending ++ [.engineTakeOwnership u.nseq]
  queue : ∀ k, (t.core k).tcq = if k = c.core ∧ tc = true then (u.core k).tcq ++ [u.nseq] else (u.core k).tcq
  others : ∀ id, id ≠ u.nseq → t.cmds.find id = u.cmds.find id
  core : ∀ k, { t.core k with tcq := [] } = { u.core k with tcq := [] }
  rest : t = { u with nseq := t.nseq, cmds := t.cmds, cores := t.cores, pending := t.pending }

/-- The state holds room in the matrix queue, and some lane is active. -/
abbrev MxReady (c : Ctx) (s : State) : Prop := (s.core c.core).mxq.length < 8 ∧ c.em ≠ 0

/-- The array is the workgroup's, its queue has room, and some lane is active. -/
abbrev SaReady (c : Ctx) (s : State) : Prop :=
  s.saFull c.core c.bank = false ∧ c.em ≠ 0 ∧ s.arrForeign c.core c.bank = false ∧ s.holdsArr c.core c.lg.wg = true

/-- The translations that a command makes of pieces, with the need given: the state after them and the addresses, by granule. -/
def Walked (c : Ctx) (s : State) (need : Nat) (ps : List (Nat × Nat)) : State × Tab (Nat × Nat) :=
  ((s.xlateGrans c need (granules ps)).1, (s.xlateGrans c need (granules ps)).2.1)

/-- The pieces of a command all translate, and no table word waits for an engine. -/
abbrev GransOk (c : Ctx) (s : State) (need : Nat) (ps : List (Nat × Nat)) : Prop :=
  (∀ a ∈ (s.xlateGrans c need (granules ps)).2.2, a.cause = .none) ∧ Unowned s (Walked c s need ps).1

/-- Some piece of a command does not translate. -/
abbrev GransFail (c : Ctx) (s : State) (need : Nat) (ps : List (Nat × Nat)) : Prop :=
  (∃ a ∈ (s.xlateGrans c need (granules ps)).2.2, a.cause ≠ .none) ∧ Unowned s (Walked c s need ps).1

/-- The translations of an image and of its completion counter, one after the other. -/
def ImageWalked (c : Ctx) (s : State) (need : Nat) (ps : List (Nat × Nat)) (q : Option Nat) : State × Tab (Nat × Nat) :=
  let r := Walked c s need ps
  let u := r.1.xlateGrans c 3 (match q with | none => [] | some a => [(a / 65536, a)])
  (u.1, u.2.1.foldl (fun t p => t.put p.1 p.2) r.2)

/-- The pieces of an image and its completion counter all translate. -/
abbrev ImageOk (c : Ctx) (s : State) (need : Nat) (ps : List (Nat × Nat)) (q : Option Nat) : Prop :=
  (∀ a ∈ (s.xlateGrans c need (granules ps)).2.2, a.cause = .none) ∧
  (∀ a ∈ ((Walked c s need ps).1.xlateGrans c 3 (match q with | none => [] | some a => [(a / 65536, a)])).2.2, a.cause = .none) ∧
  (∀ a, q = some a → a % 8 = 0) ∧ Unowned s (ImageWalked c s need ps q).1

/-- A replaying trap of the executing lane at an address. -/
def Faults (k : Cause) (va : Ctx → Nat) (c : Ctx) (s t : State) : Prop :=
  ∃ x : Trap, x.cause = k ∧ x.fm = 1#32 <<< c.exLane ∧ x.tva = BitVec.ofNat 64 (va c) ∧ x.replaying = true ∧ x.fpc = s.pk.idx ∧
    t = s.takeTrap c x

/-- A matrix word: held while the queue is full; with no active lane it only counts, if it has a counter; else, its operands passing
(`ok`), its command joins the queue of the state that `walk` gives. -/
def MxLaw (i : Instr) (ctr : Option (BitVec 4)) (ok : Ctx → State → Prop) (walk : Ctx → State → State × Tab (Nat × Nat))
    (body : Ctx → CmdBody) : Prop :=
  Runs i (fun c s => MxReady c s ∧ ok c s) (fun c s t => MxAdded (ctr.map (·.toNat)) (body c) (walk c s).2 c (walk c s).1 t) ∧
  Runs i (fun c s => 8 ≤ (s.core c.core).mxq.length) Held ∧
  Runs i (fun c s => (s.core c.core).mxq.length < 8 ∧ c.em = 0) (fun c s t => match ctr with | none => t = s | some n => Counts n.toNat c s t)

/-- A matrix word that reaches memory, of a row of pieces: held by an acquire, aligned to 64 bytes, translated, then queued. -/
def MxMemLaw (i : Instr) (ctr : BitVec 4) (ok : Ctx → State → Prop) (need : Nat) (base stride : Ctx → Nat) (body : Ctx → CmdBody) : Prop :=
  let al := fun (c : Ctx) => base c % 64 = 0 ∧ stride c % 64 = 0
  MxLaw i (some ctr) (fun c s => ok c s ∧ s.acquiring c.g = false ∧ al c ∧ GransOk c s need (body c).segs)
    (fun c s => Walked c s need (body c).segs) body ∧
  Runs i (fun c s => MxReady c s ∧ ok c s ∧ s.acquiring c.g = true) Held ∧
  Runs i (fun c s => MxReady c s ∧ ok c s ∧ s.acquiring c.g = false ∧ ¬ al c) (Faults .align base) ∧
  Runs i (fun c s => MxReady c s ∧ ok c s ∧ s.acquiring c.g = false ∧ al c ∧ GransFail c s need (body c).segs)
    (fun c s t => ∃ x : Trap, x.cause ≠ .none ∧ x.replaying = true ∧ t = (Walked c s need (body c).segs).1.takeTrap c x (need - 1))

/-- What a sampling word of a context meets before its own operands: a full queue holds it (where `queued`), with no active lane it only
counts, another context's array is evicted first, and without the array it is illegal (where `regs` pass their codes). -/
def SaGate (i : Instr) (ctr : BitVec 4) (queued : Bool) (regs : List Nat) : Prop :=
  let room := fun (c : Ctx) (s : State) => queued = true → s.saFull c.core c.bank = false
  Runs i (fun c s => ¬ room c s) Held ∧
  Runs i (fun c s => room c s ∧ c.em = 0) (fun c s t => Counts ctr.toNat c s t) ∧
  Runs i (fun c s => room c s ∧ c.em ≠ 0 ∧ s.arrForeign c.core c.bank = true)
    (fun c s t => t = (s.postOnce (.arrayEvictionDone c.core)).holdBack c) ∧
  Runs i (fun c s => room c s ∧ c.em ≠ 0 ∧ s.arrForeign c.core c.bank = false ∧ s.holdsArr c.core c.lg.wg = false ∧
    ∀ r ∈ regs, c.ExOk r) (Raises .illegal 6 Ctx.exMask)

/-- A sampling word whose command joins the array's queue. -/
def SaLaw (i : Instr) (ctr : BitVec 4) (regs : List Nat) (ok : Ctx → State → Prop) (walk : Ctx → State → State × Tab (Nat × Nat))
    (q : Ctx → Option Nat) (body : Ctx → CmdBody) : Prop :=
  Runs i (fun c s => SaReady c s ∧ (∀ r ∈ regs, c.ExOk r) ∧ ok c s)
    (fun c s t => SaAdded ctr.toNat (body c) (walk c s).2 (q c) c (walk c s).1 t) ∧
  SaGate i ctr true regs

/-- Nothing keeps an engine command: earlier accesses performed, room in the queue, no alignment fault of its completion counter, no
commit held back. -/
abbrev EngineOk (c : Ctx) (s : State) (q : Option Nat) (tc : Bool) : Prop :=
  (∀ a, q = some a → a % 8 = 0) ∧ s.quiet c.g = true ∧ s.acquiring c.g = false ∧
    (tc = true → (s.core c.core).tcq.length < 16) ∧ CommitOk c s

/-- An engine command: its operands passing (`ok`), it is handed to its engine after a forced commit in staged mode; a completion counter
that is not aligned is refused; until earlier accesses are performed, an engine's lines are free, and its queue has room, it is held. -/
def EngineLaw (i : Instr) (ctr : BitVec 4) (ok : Ctx → State → Prop) (q : Ctx → Option Nat) (tc : Bool) (body : Ctx → CmdBody) : Prop :=
  Runs i (fun c s => ok c s ∧ EngineOk c s (q c) tc) (fun c s t => EngineAdded ctr.toNat (body c) (q c) tc c (Committed c s) t) ∧
  Runs i (fun c s => ok c s ∧ ∃ a, q c = some a ∧ a % 8 ≠ 0) (Raises .align (Cause.rank .align) Ctx.exMask) ∧
  Runs i (fun c s => ok c s ∧ (∀ a, q c = some a → a % 8 = 0) ∧ (s.quiet c.g = false ∨ s.acquiring c.g = true ∨
    (tc = true ∧ 16 ≤ (s.core c.core).tcq.length) ∨ ¬ CommitOk c s)) Held

/-- The launch that `task.spawn.l` makes of the 64 bytes that it has read in the machine `u` (R31, R378). -/
def Spawned (c : Ctx) (q : Nat) (bytes : Tab Byte) (u : State) : Launch :=
  let words := (List.range 8).map fun i => BitVec.ofNat 64 (leNat ((List.range 8).map fun j => Tab.getD bytes 0 (8 * i + j)))
  ({ words := words, vf := c.vf, part := u.vfPart c.vf, queue := q, lnum := u.vrBits c.vf (0x110 + 32 * q) 0 32
     urgent := u.urgentQ c.vf q, rst := (words.getD 1 0).getLsbD 27, arrival := u.nseq, since := u.now
     pts := (u.core c.core).pts } : Launch).atPacket

/-- What fetching the line of a landing gives: the machine after it, and the line or what became of the fetch (R264). -/
def Fetched (c : Ctx) (i : DWord) (s : State) : State × FetchRes := s.fetchLine c (lineVa i)

/-- A branch can land on a packet: its line is fetched without meeting a line that an engine owns, the packet valid and a target. -/
def Lands (c : Ctx) (i : DWord) (s : State) : Prop :=
  Unowned s (Fetched c i s).1 ∧ ∃ l, (Fetched c i s).2 = .line l ∧ mayLand l i = true

/-- What a branch does, in the machine `s` that stood before it, where the landing on `i`, whose line is fetched in the machine `u`, is
refused: no target, a fetch that fails, a park, a line that an engine owns (R263, R264, R132, R413). -/
def Misses (w : Instr) (ok : Ctx → State → Prop) (u : Ctx → State → State) (i : Ctx → State → DWord) : Prop :=
  let res := fun c s => (Fetched c (i c s) (u c s)).2
  let at_ := fun c s => (Fetched c (i c s) (u c s)).1
  let ok' := fun c s => ok c s ∧ Unowned s (at_ c s)
  Runs w (fun c s => ok' c s ∧ ∃ l, res c s = .line l ∧ mayLand l (i c s) = false) (fun c s t => t = (at_ c s).raise c .target) ∧
  (∀ x v, Runs w (fun c s => ok' c s ∧ res c s = .raise x v) (fun c s t => t = (at_ c s).raiseR c x c.em v)) ∧
  (∀ l, Runs w (fun c s => ok' c s ∧ res c s = .bad l) (fun c s t => t = (at_ c s).raise c .illegal)) ∧
  Runs w (fun c s => ok' c s ∧ ((∃ p, res c s = .park p) ∨ ∃ a b, res c s = .s2 a b))
    (fun c s t => t = (at_ c s).parkAtPacket c (lineVa (i c s)) (res c s)) ∧
  Runs w (fun c s => ok c s ∧ s.pk.stall = false ∧ (at_ c s).pk.stall = true) Held

/-! ## Invariants of a run -/

/-- Memory holds its canonical form. -/
def State.MemInv (s : State) : Prop := Memory.wf s.mem = true

/-- No packet is in execution: between two steps every packet has issued as a whole or not at all (R70, R260). -/
def State.PacketInv (s : State) : Prop := s.pk = {}

end Sys2Proof.Machine
end

