-- ==== Sys2Proof/Certificates/Slice0/Obligations.lean ====
section
/-! DEFINITION. The statements about the machine, each a proposition to be proved; OBLIGATIONS.json gives their texts. -/

open Sys2Proof Sys2Proof.Machine

/-- For every instruction that has a word, decoding the word, with its chain bit clear or set, gives the instruction back with every operand. (R252, R265, R269) -/
def Obligations.EncodeThenDecode : Prop :=
  ∀ (i : Instr) (w : BitVec 32) (k : Bool), encode i = some w → decodeWord (withChain k w) = some i

/-- Every word that the decoder accepts is, but for its chain bit, the word that the tables give the instruction it decodes to: no unassigned word is taken for an instruction, and no bit is dropped. (R252, R265, R269, R277) -/
def Obligations.DecodeThenEncode : Prop :=
  ∀ (i : Instr) (w : BitVec 32), decodeWord w = some i → encode i = some (w &&& 0x7FFFFFFF#32)

/-- One word of each of several families, written out bit by bit from the tables, decodes to the instruction it stands for; a word that no row assigns is refused; the bits above 32 must be absent. (R269, R277) -/
def Obligations.DecodedWords : Prop :=
  decodeTableWord 32 0x00020201 = some (.add 1 0 2 1) ∧ decodeTableWord 32 0x08040381 = some (.addi 2 0 3 0x81) ∧
  decodeTableWord 32 0x48000010 = some (.bra 16) ∧ decodeTableWord 32 0x78000000 = some .nop ∧
  decodeTableWord 32 0x80020201 = some (.add 1 0 2 1) ∧ decodeTableWord 32 0x7FFFFFFF = none ∧ decodeTableWord 64 0 = none

/-- Each integer word of two sources answers a next state in which each active lane of its destination holds the result that R285 gives (a latch holds zero in the other lanes), and nothing else of the machine changes. Completion: exec answers a next state, with the effects stated, under conditions on the state and operands alone, for add, sub, addc, subb, mullo, mulhi, and, or, xor, andn, shl, shr, sar, rotl, min, max. (R285, R61, R283) -/
def Obligations.IntegerWords : Prop :=
  ∀ (d : BitVec 6) (n : BitVec 1) (a b : BitVec 8),
    BinLaw (.add d n a b) n d a b (fun x y => x + y) ∧
    BinLaw (.sub d n a b) n d a b (fun x y => x - y) ∧
    BinLaw (.addc d n a b) n d a b (fun x y => if 2 ^ 32 ≤ x.toNat + y.toNat then 1 else 0) ∧
    BinLaw (.subb d n a b) n d a b (fun x y => if x.toNat < y.toNat then 1 else 0) ∧
    BinLaw (.mullo d n a b) n d a b (fun x y => BitVec.ofNat 32 (x.toNat * y.toNat)) ∧
    BinLaw (.mulhi d n a b) n d a b (fun x y => BitVec.ofNat 32 (x.toNat * y.toNat / 2 ^ 32)) ∧
    BinLaw (.and d n a b) n d a b (fun x y => x &&& y) ∧
    BinLaw (.or d n a b) n d a b (fun x y => x ||| y) ∧
    BinLaw (.xor d n a b) n d a b (fun x y => x ^^^ y) ∧
    BinLaw (.andn d n a b) n d a b (fun x y => x &&& ~~~y) ∧
    BinLaw (.shl d n a b) n d a b (fun x y => x <<< y.toNat) ∧
    BinLaw (.shr d n a b) n d a b (fun x y => x >>> y.toNat) ∧
    BinLaw (.sar d n a b) n d a b (fun x y => x.sshiftRight (min y.toNat 31)) ∧
    BinLaw (.rotl d n a b) n d a b (fun x y => x.rotateLeft (y.toNat % 32)) ∧
    BinLaw (.min d n a b) n d a b (fun x y => if y.toInt < x.toInt then y else x) ∧
    BinLaw (.max d n a b) n d a b (fun x y => if x.toInt < y.toInt then y else x)

/-- Each word of major 1 answers a next state in which each active lane of its destination holds the result that R286 and R287 give, and nothing else of the machine changes; bfi keeps the destination outside its field. Completion: exec answers a next state, with the effects stated, under conditions on the state and operands alone, for addi, andi, ori, xori, muli, shli, shri, sari, clz, ctz, popc, brev, bfe, bfi. (R286, R287, R61) -/
def Obligations.ImmediateWords : Prop :=
  (∀ (d : BitVec 6) (n : BitVec 1) (a i : BitVec 8),
    UnLaw (.addi d n a i) n d a (fun x => x + i.signExtend 32) ∧
    UnLaw (.andi d n a i) n d a (fun x => x &&& i.signExtend 32) ∧
    UnLaw (.ori d n a i) n d a (fun x => x ||| i.signExtend 32) ∧
    UnLaw (.xori d n a i) n d a (fun x => x ^^^ i.signExtend 32) ∧
    UnLaw (.muli d n a i) n d a (fun x => x * i.signExtend 32)) ∧
  (∀ (d : BitVec 6) (n : BitVec 1) (a : BitVec 8) (i : BitVec 5),
    UnLaw (.shli d n a i) n d a (fun x => x <<< i.toNat) ∧
    UnLaw (.shri d n a i) n d a (fun x => x >>> i.toNat) ∧
    UnLaw (.sari d n a i) n d a (fun x => x.sshiftRight i.toNat)) ∧
  (∀ (d : BitVec 6) (n : BitVec 1) (a : BitVec 8),
    UnLaw (.clz d n a) n d a clz32 ∧ UnLaw (.ctz d n a) n d a ctz32 ∧
    UnLaw (.popc d n a) n d a popc32 ∧ UnLaw (.brev d n a) n d a brev32) ∧
  (∀ (d : BitVec 6) (n : BitVec 1) (a : BitVec 8) (w : BitVec 3) (p : BitVec 5),
    UnLaw (.bfe d n a w p) n d a (fun x => BitVec.ofNat 32 (x.toNat / 2 ^ p.toNat % 2 ^ (w.toNat + 1))) ∧
    Runs (.bfi d n a w p) (fun c _ => c.DstOk n d ∧ c.SrcOk a) (LaneEff n d.toNat fun c j =>
      (c.dst n d.toNat j &&& ~~~(fieldMask w p)) ||| ((c.src 0 a j <<< p.toNat) &&& fieldMask w p)))

/-- The functions that clz, ctz, popc and brev compute: clz counts the zero bits above the highest set bit, ctz those below the lowest, both 32 for zero; popc counts the set bits; brev moves bit i to bit 31 - i. (R287) -/
def Obligations.BitCounts : Prop :=
  (∀ (a : Word) (k : Nat), k < 32 →
    ((clz32 a).toNat = k ↔ (a.getLsbD (31 - k) = true ∧ ∀ i, i < k → a.getLsbD (31 - i) = false)) ∧
    ((ctz32 a).toNat = k ↔ (a.getLsbD k = true ∧ ∀ i, i < k → a.getLsbD i = false)) ∧
    (brev32 a).getLsbD k = a.getLsbD (31 - k)) ∧
  clz32 0 = 32 ∧ ctz32 0 = 32 ∧
  ∀ a : Word, (popc32 a).toNat = ((List.range 32).filter fun i => a.getLsbD i).length

/-- Each scalar or packed add, subtract, multiply, minimum and maximum answers a next state in which each active lane of its destination holds the rounded result in its format, the flags of the active lanes are added to cr.fflags, and nothing else of the machine changes. Completion: exec answers a next state, with the effects stated, under conditions on the state and operands alone, for faddF32, fsubF32, fmulF32, fminF32, fmaxF32, faddBf16x2, fsubBf16x2, fmulBf16x2, fminBf16x2, fmaxBf16x2, faddF16x2, fsubF16x2, fmulF16x2, fminF16x2, fmaxF16x2. (R288, R75, R81, R83) -/
def Obligations.FpBinaryWords : Prop :=
  ∀ (d : BitVec 6) (n : BitVec 1) (a b : BitVec 8),
    Fp32Law (.faddF32 d n a b) n d a b f32.fadd ∧ Fp32Law (.fsubF32 d n a b) n d a b f32.fsub ∧
    Fp32Law (.fmulF32 d n a b) n d a b f32.fmul ∧ Fp32Law (.fminF32 d n a b) n d a b (f32.fminmax false) ∧
    Fp32Law (.fmaxF32 d n a b) n d a b (f32.fminmax true) ∧
    FpPkLaw (.faddBf16x2 d n a b) 1 n d a b bf16.fadd ∧ FpPkLaw (.fsubBf16x2 d n a b) 1 n d a b bf16.fsub ∧
    FpPkLaw (.fmulBf16x2 d n a b) 1 n d a b bf16.fmul ∧ FpPkLaw (.fminBf16x2 d n a b) 1 n d a b (bf16.fminmax false) ∧
    FpPkLaw (.fmaxBf16x2 d n a b) 1 n d a b (bf16.fminmax true) ∧
    FpPkLaw (.faddF16x2 d n a b) 2 n d a b f16.fadd ∧ FpPkLaw (.fsubF16x2 d n a b) 2 n d a b f16.fsub ∧
    FpPkLaw (.fmulF16x2 d n a b) 2 n d a b f16.fmul ∧ FpPkLaw (.fminF16x2 d n a b) 2 n d a b (f16.fminmax false) ∧
    FpPkLaw (.fmaxF16x2 d n a b) 2 n d a b (f16.fminmax true)

/-- Each special function and fclass, in each of its types, answers a next state in which each active lane of its destination holds the result in its format with the flags of the active lanes added, and nothing else of the machine changes. Completion: exec answers a next state, with the effects stated, under conditions on the state and operands alone, for frcp, frsqrt, fsqrt, fexp2, flog2, fsin, fcos, fclass. (R289, R102, R270, R75) -/
def Obligations.FpUnaryWords : Prop :=
  ∀ (d : BitVec 6) (n : BitVec 1) (a : BitVec 8) (t : BitVec 2),
    FpUnLaw (.frcp d n a t) t n d a (fun f => f.special 0) ∧ FpUnLaw (.frsqrt d n a t) t n d a (fun f => f.special 1) ∧
    FpUnLaw (.fsqrt d n a t) t n d a (fun f => f.special 2) ∧ FpUnLaw (.fexp2 d n a t) t n d a (fun f => f.special 3) ∧
    FpUnLaw (.flog2 d n a t) t n d a (fun f => f.special 4) ∧ FpUnLaw (.fsin d n a t) t n d a (fun f => f.special 5) ∧
    FpUnLaw (.fcos d n a t) t n d a (fun f => f.special 6) ∧
    FpUnLaw (.fclass d n a t) t n d a (fun f x => (f.fclass x, 0))

/-- Each fused word answers a next state in which each active lane of its destination holds the product of its sources with its old value added (subtracted from it with g = 1), rounded once, the flags added, and nothing else of the machine changes; the integer forms are exact modulo 2^32 or give the high half. Completion: exec answers a next state, with the effects stated, under conditions on the state and operands alone, for ffmaF32, ffmaBf16x2, ffmaF16x2, imadLo, imadHi. (R290, R266, R75) -/
def Obligations.FusedWords : Prop :=
  ∀ (d : BitVec 6) (n : BitVec 1) (a b : BitVec 8) (g : BitVec 1),
    FusedLaw (.ffmaF32 d n a b g) 0 n d a b (fun x y z =>
      (BitVec.ofNat 32 (f32.ffma (g = 1) x.toNat y.toNat z.toNat).1, (f32.ffma (g = 1) x.toNat y.toNat z.toNat).2)) ∧
    FusedLaw (.ffmaBf16x2 d n a b g) 1 n d a b (packed3 (bf16.ffma (g = 1))) ∧
    FusedLaw (.ffmaF16x2 d n a b g) 2 n d a b (packed3 (f16.ffma (g = 1))) ∧
    FusedLaw (.imadLo d n a b g) 0 n d a b (fun x y z =>
      (if g = 1 then z - x * y else BitVec.ofNat 32 (x.toNat * y.toNat + z.toNat), 0)) ∧
    FusedLaw (.imadHi d n a b g) 0 n d a b (fun x y z =>
      (if g = 1 then BitVec.ofInt 32 ((x.toInt * y.toInt + z.toInt) / 2 ^ 32)
       else BitVec.ofNat 32 ((x.toNat * y.toNat + z.toNat) / 2 ^ 32), 0))

/-- A compare writes the active lanes of its predicate with the outcome in each (fcmp adds the invalid flag where it says so); sel takes its first source where the predicate is set; the predicate words write all 32 bits; nothing else of the machine changes. Completion: exec answers a next state, with the effects stated, under conditions on the state and operands alone, for icmp, fcmp, sel, pand, por, pxor, pnot, ptest. (R291, R292, R271) -/
def Obligations.CompareWords : Prop :=
  (∀ (m q : BitVec 3) (a b : BitVec 8),
    Runs (.icmp m q a b) (fun c _ => c.SrcOk a ∧ c.SrcOk b) (PredEff Ctx.em q.toNat fun c => maskOf (c.lanes.filter fun j =>
      let x := c.src 0 a j
      let y := c.src 0 b j
      match m.toNat with
      | 0 => x == y
      | 1 => x != y
      | 2 => decide (x.toInt < y.toInt)
      | 3 => decide (x.toInt ≤ y.toInt)
      | 4 => decide (y.toInt < x.toInt)
      | 5 => decide (y.toInt ≤ x.toInt)
      | 6 => decide (x.toNat < y.toNat)
      | _ => decide (y.toNat ≤ x.toNat))) ∧
    Runs (.fcmp m q a b) (fun c _ => c.SrcOk a ∧ c.SrcOk b) (fun c s t => ∃ l' fl,
      PredWrite c.em q.toNat (maskOf (c.lanes.filter fun j => (fcmpHolds m.toNat (c.src 0 a j).toNat (c.src 0 b j).toNat).1)) c.lg l' ∧
      fl = c.lg.fflags ||| nvIf (c.lanes.any fun j => (fcmpHolds m.toNat (c.src 0 a j).toNat (c.src 0 b j).toNat).2) ∧
      t = s.setLg c.g { l' with fflags := fl })) ∧
  (∀ (q : BitVec 3) (d : BitVec 6) (n : BitVec 1) (a b : BitVec 8),
    Runs (.sel q d n a b) (fun c _ => c.SrcOk a ∧ c.SrcOk b) (LaneEff n d.toNat fun c j =>
      if (c.q q.toNat).getLsbD j then c.src 0 a j else c.src 0 b j)) ∧
  (∀ d a b : BitVec 3,
    PredLaw (.pand d a b) d (fun c => c.q a.toNat &&& c.q b.toNat) ∧ PredLaw (.por d a b) d (fun c => c.q a.toNat ||| c.q b.toNat) ∧
    PredLaw (.pxor d a b) d (fun c => c.q a.toNat ^^^ c.q b.toNat) ∧ PredLaw (.pnot d a) d (fun c => ~~~(c.q a.toNat))) ∧
  (∀ m d a : BitVec 3, PredLaw (.ptest m d a) d fun c =>
    let any := decide (∃ j ∈ c.lanes, (c.q a.toNat).getLsbD j = true)
    let all := decide (∀ j ∈ c.lanes, (c.q a.toNat).getLsbD j = true)
    if (if m = 0 then any else if m = 1 then all else !any) then 0xFFFFFFFF else 0)

/-- Moves and constants, the conversions by selector, lane exchange and votes answer a next state with their result in the active lanes of the destination (or the predicate), the flags of conversions added, and nothing else of the machine changed. Completion: exec answers a next state, with the effects stated, under conditions on the state and operands alone, for mov, li, lih, cvt, shfl, voteAny, voteAll, voteBallot. (R293, R294, R295, R296) -/
def Obligations.MoveWords : Prop :=
  (∀ (d : BitVec 6) (n : BitVec 1) (a : BitVec 8), UnLaw (.mov d n a) n d a id) ∧
  (∀ (d : BitVec 6) (n : BitVec 1) (i : BitVec 16),
    Runs (.li d n i) (fun _ _ => True) (LaneEff n d.toNat fun _ _ => i.signExtend 32)) ∧
  (∀ (d : BitVec 5) (i : BitVec 21), Runs (.lih d i) (fun c _ => c.RegOk d.toNat) (LaneEff 0 d.toNat fun c j =>
    BitVec.ofNat 32 (i.toNat * 2 ^ 11 + (c.v d.toNat j).toNat % 2 ^ 11))) ∧
  (∀ (d : BitVec 6) (n : BitVec 1) (a x : BitVec 8),
    Runs (.cvt d n a x) (fun c _ => c.SrcOk a ∧ (cvtReadsD x = true → c.DstOk n d) ∧
        (cvtDesc x = true → (Desc.of ((c.kr (bits x 4 4)).toNat % 2 ^ 32)).valid = true))
      (FlagEff n d.toNat fun c j => cvtRes x ((c.kr (bits x 4 4)).toNat % 2 ^ 32) (c.src 0 a j) (c.dst n d.toNat j))) ∧
  (∀ (d : BitVec 6) (n : BitVec 1) (a : BitVec 8) (r : BitVec 1) (m : BitVec 2) (l : BitVec 5),
    let from_ := fun (c : Ctx) (j : Nat) =>
      let x := if r = 1 then (c.v l.toNat j).toNat % 32 else l.toNat
      match m.toNat with
      | 0 => x
      | 1 => j ^^^ x
      | 2 => if x ≤ j then j - x else j
      | _ => if j + x ≤ 31 then j + x else j
    Runs (.shfl d n a r m l) (fun c _ => (r = 1 → c.RegOk l.toNat) ∧ c.SrcAtOk (from_ c) a)
      (LaneEff n d.toNat fun c j => c.src 0 a (from_ c j))) ∧
  (∀ (d q : BitVec 3),
    Runs (.voteAny d q) (fun _ _ => True) (PredEff Ctx.em d.toNat fun c => if c.q q.toNat &&& c.em = 0 then 0 else 0xFFFFFFFF) ∧
    Runs (.voteAll d q) (fun _ _ => True) (PredEff Ctx.em d.toNat fun c => if c.q q.toNat &&& c.em = c.em then 0xFFFFFFFF else 0)) ∧
  (∀ (d : BitVec 6) (n : BitVec 1) (q : BitVec 3),
    Runs (.voteBallot d n q) (fun _ _ => True) (LaneEff n d.toNat fun c _ => c.q q.toNat &&& c.em))

/-- edge, idx.set, idx.add, rgn.pf, rgrow, rshrink, rdsp and the indexed moves do what R298 to R300 and R53 to R58 say, and change nothing else; a growth beyond the allocation is a visible block, and once the registers have been given it takes them, reading as zero; a handler's growth and a mask of more than 32 registers are illegal; a mask that names a register whose code fails raises poison with its lanes. Completion: exec answers a next state, with the effects stated, under conditions on the state and operands alone, for edge, idxSet, idxAdd, rgnPf, rgrow, rshrink, rdsp, ldX, stX. (R298, R299, R300, R53, R54, R57) -/
def Obligations.LaneControlWords : Prop :=
  (∀ m : BitVec 2, Runs (.edge m) (fun _ _ => True) (LgEff fun _ _ l => { l with edge := m })) ∧
  (∀ (x : BitVec 2) (a : BitVec 8),
    Runs (.idxSet x a) (fun c _ => c.SrcOk a) (OffEff x.toNat fun c j => (c.src 0 a j).truncate 8) ∧
    Runs (.idxAdd x a) (fun c _ => c.SrcOk a) (OffEff x.toNat fun c j =>
      Tab.getD c.sn.xo 0 (32 * x.toNat + j) + (c.src 0 a j).truncate 8)) ∧
  (∀ m : BitVec 5, Runs (.rgnPf m) (fun c _ => ((List.range 64).filter (c.kr m.toNat).getLsbD).length ≤ 32 ∧
      ∀ r, r < 64 → (c.kr m.toNat).getLsbD r = true → r < c.lg.alloc → c.RegOk r) fun c s t =>
    ∃ l', t.lgs.find c.g = some l' ∧ (∀ r, r ∈ l'.staged ↔ r < 64 ∧ (c.kr m.toNat).getLsbD r = true) ∧
      l' = { c.lg with staged := l'.staged, stagedAt := l'.stagedAt } ∧
      (∀ g, g ≠ c.g → (t.lgs.find g).map (fun l => { l with staged := [], stagedAt := 0 }) =
        (s.lgs.find g).map (fun l => { l with staged := [], stagedAt := 0 })) ∧ t = { s with lgs := t.lgs, nseq := t.nseq }) ∧
  (∀ m : BitVec 5, Runs (.rgnPf m) (fun c _ => 32 < ((List.range 64).filter (c.kr m.toNat).getLsbD).length ∧
      ∀ r, r < 64 → (c.kr m.toNat).getLsbD r = true → r < c.lg.alloc → c.RegOk r) (Raises .illegal 6 Ctx.em)) ∧
  (∀ m : BitVec 5,
    let bad := fun (c : Ctx) => maskOf (c.lanes.filter fun j => (List.range 64).any fun r =>
      (c.kr m.toNat).getLsbD r && decide (r < c.lg.alloc) && c.badWord (r, j))
    Runs (.rgnPf m) (fun c _ => bad c ≠ 0) (Raises .poison 5 bad)) ∧
  (∀ x : BitVec 3,
    Runs (.rgrow x) (fun c _ => c.lg.hnd = false ∧ 64 + 32 * x.toNat ≤ c.lg.alloc) NoEff ∧
    Runs (.rgrow x) (fun c _ => c.lg.hnd = true) (Raises .illegal 6 Ctx.em) ∧
    Runs (.rgrow x) (fun c _ => c.lg.hnd = false ∧ c.lg.alloc < 64 + 32 * x.toNat ∧ c.lg.grown ≠ some (64 + 32 * x.toNat)) (fun c s t =>
      ∃ first slot, t.lgs.find c.g = some { c.sn with
        status := .blocked (.rgrow (64 + 32 * x.toNat) first slot) false, pc := s.pk.idx, waited := s.nseq, parkAt := s.now }) ∧
    Runs (.rgrow x) (fun c _ => c.lg.hnd = false ∧ c.lg.alloc < 64 + 32 * x.toNat ∧ c.lg.grown = some (64 + 32 * x.toNat)) (fun c s t =>
      ∃ l', t = s.setLg c.g l' ∧ l'.alloc = 64 + 32 * x.toNat ∧ l'.grown = none ∧
        (∀ r lane, lane < 32 → l'.vAt r lane = if r < c.lg.alloc then c.lg.vAt r lane else 0) ∧
        l' = { c.lg with alloc := l'.alloc, grown := l'.grown, v := l'.v, bad := l'.bad }) ∧
    Runs (.rshrink x) (fun _ _ => True) (fun c s t => ∃ l', t = s.setLg c.g l' ∧ l'.alloc = min c.lg.alloc (64 + 32 * x.toNat) ∧
      (∀ r lane, lane < 32 → l'.vAt r lane = if r < 64 + 32 * x.toNat ∨ c.lg.alloc ≤ 64 + 32 * x.toNat then c.lg.vAt r lane else 0) ∧
      l' = { c.lg with alloc := l'.alloc, v := l'.v, bad := l'.bad, staged := l'.staged })) ∧
  (∀ (d : BitVec 6) (n : BitVec 1) (x : BitVec 5), Runs (.rdsp d n x) (fun _ _ => True) fun c s t =>
    LaneEff n d.toNat (fun c _ =>
      match x.toNat with
      | 0 => c.em
      | 1 => c.sn.fm
      | 2 => BitVec.ofNat 32 c.sn.alloc
      | 3 => BitVec.ofNat 32 c.sn.path.length
      | 4 => BitVec.ofNat 32 ((s.lgsOf c.lg.wg).filter fun p => p.2.status != .ended).length
      | y => c.q (y - 8)) c s t) ∧
  (∀ (d : BitVec 6) (n : BitVec 1) (x : BitVec 2) (a : BitVec 8),
    Runs (.ldX d n x) (fun c _ => ∀ j ∈ c.lanes, c.idxOk x.toNat j = true ∧ c.badWord (c.idxReg x.toNat j, j) = false)
      (LaneEff n d.toNat fun c j => c.v (c.idxReg x.toNat j) j) ∧
    Runs (.stX x a) (fun c _ => (∀ j ∈ c.lanes, c.idxOk x.toNat j = true) ∧ c.SrcOk a) (fun c s t => ∃ l', t = s.setLg c.g l' ∧
      (∀ r lane, lane < 32 → l'.vAt r lane =
        if c.em.getLsbD lane = true ∧ r = c.idxReg x.toNat lane then c.src 0 a lane else c.lg.vAt r lane) ∧
      l' = { c.lg with v := l'.v, bad := l'.bad }))

/-- A source names a register of the lane itself, of the left or the right neighbour by the edge mode, or a special: a latch, an indexed register, a constant, a lane value or the low half of a uniform register; all read the lane group as it stood before the packet. (R267, R59, R268, R55, R70) -/
def Obligations.SourceForms : Prop :=
  ∀ (c : Ctx) (pk : Nat) (n : BitVec 6) (j : Nat), j < 32 →
    let at_ := fun (k : Nat) => BitVec.ofNat 8 (64 * k + n.toNat)
    c.src pk (at_ 0) j = Tab.getD c.sn.v 0 (32 * n.toNat + j) ∧
    c.src pk (at_ 2) j = (if j ≠ 0 then Tab.getD c.sn.v 0 (32 * n.toNat + (j - 1))
      else if c.sn.edge = 1 then Tab.getD c.sn.v 0 (32 * n.toNat)
      else if c.sn.edge = 2 then Tab.getD c.sn.v 0 (32 * n.toNat + 31) else 0) ∧
    c.src pk (at_ 3) j = (if j ≠ 31 then Tab.getD c.sn.v 0 (32 * n.toNat + (j + 1))
      else if c.sn.edge = 1 then Tab.getD c.sn.v 0 (32 * n.toNat + 31)
      else if c.sn.edge = 2 then Tab.getD c.sn.v 0 (32 * n.toNat) else 0) ∧
    (n.toNat < 4 → c.src pk (at_ 1) j = Tab.getD c.sn.l 0 (32 * n.toNat + j)) ∧
    (4 ≤ n.toNat → n.toNat < 8 → c.src pk (at_ 1) j = Tab.getD c.sn.v 0
      (32 * ((Tab.getD c.sn.x {} (n.toNat - 4)).base.toNat + (Tab.getD c.sn.xo 0 (32 * (n.toNat - 4) + j)).toNat) + j)) ∧
    (n.toNat = 8 → c.src pk (at_ 1) j = 0) ∧ (n.toNat = 9 → c.src pk (at_ 1) j = 1) ∧
    (n.toNat = 10 → c.src pk (at_ 1) j = 2) ∧ (n.toNat = 11 → c.src pk (at_ 1) j = 0xFFFFFFFF) ∧
    (n.toNat = 13 → c.src 0 (at_ 1) j = 0x3F800000 ∧ c.src 1 (at_ 1) j = 0x3F803F80 ∧ c.src 2 (at_ 1) j = 0x3C003C00) ∧
    (n.toNat = 16 → c.src pk (at_ 1) j = BitVec.ofNat 32 j) ∧
    (n.toNat = 17 → c.src pk (at_ 1) j = BitVec.ofNat 32 c.lg.lgn) ∧
    (32 ≤ n.toNat → c.src pk (at_ 1) j = (c.kr (n.toNat - 32)).truncate 32)

/-- Of each integer word of major 0 and each floating-point add, subtract, multiply, minimum and maximum of two sources, whichever source it is, the other source readable or the same: a latch that no packet of the run has written raises latch; an index out of bounds in some active lane raises bound with those lanes; a word whose code fails raises poison with those lanes: an exception is taken in place of the result. (R62, R55, R421, R7, R413) -/
def Obligations.SourceTraps : Prop :=
  ∀ (d : BitVec 6) (n : BitVec 1) (a b : BitVec 8),
    TwoSrcTraps (.add d n a b) a b ∧ TwoSrcTraps (.sub d n a b) a b ∧ TwoSrcTraps (.addc d n a b) a b ∧
    TwoSrcTraps (.subb d n a b) a b ∧ TwoSrcTraps (.mullo d n a b) a b ∧ TwoSrcTraps (.mulhi d n a b) a b ∧
    TwoSrcTraps (.and d n a b) a b ∧ TwoSrcTraps (.or d n a b) a b ∧ TwoSrcTraps (.xor d n a b) a b ∧
    TwoSrcTraps (.andn d n a b) a b ∧ TwoSrcTraps (.shl d n a b) a b ∧ TwoSrcTraps (.shr d n a b) a b ∧
    TwoSrcTraps (.sar d n a b) a b ∧ TwoSrcTraps (.rotl d n a b) a b ∧ TwoSrcTraps (.min d n a b) a b ∧
    TwoSrcTraps (.max d n a b) a b ∧ TwoSrcTraps (.faddF32 d n a b) a b ∧ TwoSrcTraps (.fsubF32 d n a b) a b ∧
    TwoSrcTraps (.fmulF32 d n a b) a b ∧ TwoSrcTraps (.fminF32 d n a b) a b ∧ TwoSrcTraps (.fmaxF32 d n a b) a b ∧
    TwoSrcTraps (.faddBf16x2 d n a b) a b ∧ TwoSrcTraps (.fsubBf16x2 d n a b) a b ∧ TwoSrcTraps (.fmulBf16x2 d n a b) a b ∧
    TwoSrcTraps (.fminBf16x2 d n a b) a b ∧ TwoSrcTraps (.fmaxBf16x2 d n a b) a b ∧ TwoSrcTraps (.faddF16x2 d n a b) a b ∧
    TwoSrcTraps (.fsubF16x2 d n a b) a b ∧ TwoSrcTraps (.fmulF16x2 d n a b) a b ∧ TwoSrcTraps (.fminF16x2 d n a b) a b ∧
    TwoSrcTraps (.fmaxF16x2 d n a b) a b

/-- Every instruction word whose fields break a limit that the word alone shows raises illegal for its lane group, restarting, in the executing lane for majors 12 to 14 and in the active lanes for the others; with no lane group at its turn no instruction word runs. (R277, R61, R7, R413, R178, R338, R363) -/
def Obligations.IllegalWords : Prop :=
  ∀ (i : Instr) (s : State), (encode i).isSome = true →
    (∀ c w, s.ctx? = some c → encode i = some w → wellFormed i = false →
      let one := 1#32 <<< c.exLane
      let m := bits w 27 4
      exec i s = .next (s.raiseR c .illegal (if m = 14 then one else if m = 12 ∨ m = 13 then one &&& c.em else c.em))) ∧
    (s.ctx? = none → exec i s = .fault .noLaneGroup)

/-- Each load answers a next state in which an access of its kind, size, extension, counter and destination is outstanding, with a part for each active lane at the address k[g] + sign-extended v[a] + scaled offset; the lane group stands (its registers change when the reply arrives), and the machine but for translation and the messages sent. A lane whose address is misaligned or past the address space, or whose page is not there for it, has no part: the other lanes have theirs, and a replaying trap of the highest-ranked cause is taken with those lanes and the access to continue. A kld into a register that its lane group does not own raises kown. Behind an acquire a load is held; with no active lane it only adds 1 to its counter. Completion: exec answers a next state, with the effects stated, under conditions on the state and operands alone, for ldB8Z, ldB8S, ldB16Z, ldB16S, ldB32, ldB64, ldB128, ldAcq, kld. (R302, R303, R304, R305, R306, R307, R122, R105, R146, R413, R414) -/
def Obligations.LoadWords : Prop :=
  (∀ (ctr : BitVec 4) (d : BitVec 6) (g : BitVec 3) (a : BitVec 6) (i : BitVec 5),
    let req := fun (size : Nat) (sx : Bool) (c : Ctx) => ({
        kind := .load, ctr := ctr.toNat, d := d.toNat, size := size, sext := sx, need := 1, lanes := c.lanes,
        addr := fun j => (c.kr g.toNat + (c.v a.toNat j).signExtend 64 + BitVec.ofNat 64 (size * i.toNat)).toNat } : Req)
    let law := fun (x : Instr) (size : Nat) (sx : Bool) => LoadLaw x (fun c => c.RegOk a.toNat) (req size sx)
    law (.ldB8Z ctr d g a i) 1 false ∧ law (.ldB8S ctr d g a i) 1 true ∧ law (.ldB16Z ctr d g a i) 2 false ∧
    law (.ldB16S ctr d g a i) 2 true ∧ law (.ldB32 ctr d g a i) 4 false ∧ law (.ldB64 ctr d g a i) 8 false ∧
    law (.ldB128 ctr d g a i) 16 false) ∧
  (∀ (ctr : BitVec 4) (d : BitVec 6) (g : BitVec 3) (a : BitVec 6) (z : BitVec 1),
    let req := fun (c : Ctx) => ({
        kind := .acq, ctr := ctr.toNat, d := d.toNat, size := if z = 0 then 4 else 8, acqr := true, need := 1,
        lanes := c.lanes, addr := fun j => (c.kr g.toNat + (c.v a.toNat j).signExtend 64).toNat } : Req)
    LoadLaw (.ldAcq ctr d g a z) (fun c => c.RegOk a.toNat) req) ∧
  (∀ (ctr : BitVec 4) (d : BitVec 5) (g : BitVec 3) (a : BitVec 6),
    let req := fun (c : Ctx) => ({
        kind := .kload, ctr := ctr.toNat, d := d.toNat, size := 8, need := 1, lanes := c.lanes.take 1,
        addr := fun j => (c.kr g.toNat + (c.v a.toNat j).signExtend 64).toNat } : Req)
    LoadLaw (.kld ctr d g a) (fun c => c.ExOk a.toNat ∧ c.owns d.toNat = true) req ∧
    Runs (.kld ctr d g a) (fun c _ => c.em ≠ 0 ∧ c.ExOk a.toNat ∧ c.owns d.toNat = false)
      (Raises .kown (Cause.rank .kown) fun c => 1#32 <<< c.exLane))

/-- Each store answers a next state in which a store, release store or uniform store of its size, counter and data register is outstanding, with a part for each active lane at its address; the lane group stands, and home memory is untouched but for translation and a forced commit. In staged mode a release, and a store that finds no room, reach a forced commit point first. A lane whose address is misaligned or past the address space, or whose page is not there for it, has no part: the other lanes have theirs, and a replaying trap of the highest-ranked cause is taken with those lanes and the access to continue. Behind an acquire, a release behind anything outstanding, a staged store behind a load in its way, and a commit that an engine holds back, the word is held; with no active lane it only adds 1 to its counter. Completion: exec answers a next state, with the effects stated, under conditions on the state and operands alone, for stB8, stB16, stB32, stB64, stB128, stRel, kst. (R302, R308, R309, R116, R117, R122, R105, R146, R413, R414) -/
def Obligations.StoreWords : Prop :=
  (∀ (ctr : BitVec 4) (d : BitVec 6) (g : BitVec 3) (a : BitVec 6) (i : BitVec 5),
    let req := fun (size : Nat) (c : Ctx) => ({
        kind := .store, ctr := ctr.toNat, d := d.toNat, size := size, need := 2, lanes := c.lanes,
        addr := fun j => (c.kr g.toNat + (c.v a.toNat j).signExtend 64 + BitVec.ofNat 64 (size * i.toNat)).toNat,
        data := fun j => (((List.range (ceilDiv size 4)).flatMap fun r => natLe 4 (c.v (d.toNat + r) j).toNat).take size) } : Req)
    let law := fun (x : Instr) (size : Nat) =>
      StoreLaw x (fun c => c.RegOk a.toNat ∧ ∀ r, r < ceilDiv size 4 → c.RegOk (d.toNat + r)) (req size)
    law (.stB8 ctr d g a i) 1 ∧ law (.stB16 ctr d g a i) 2 ∧ law (.stB32 ctr d g a i) 4 ∧ law (.stB64 ctr d g a i) 8 ∧
    law (.stB128 ctr d g a i) 16) ∧
  (∀ (ctr : BitVec 4) (d : BitVec 6) (g : BitVec 3) (a : BitVec 6) (z : BitVec 1),
    let size := if z = 0 then 4 else 8
    let req := fun (c : Ctx) => ({
        kind := .rel, ctr := ctr.toNat, d := d.toNat, size := size, relr := true, need := 2, lanes := c.lanes,
        addr := fun j => (c.kr g.toNat + (c.v a.toNat j).signExtend 64).toNat,
        data := fun j => (((List.range (ceilDiv size 4)).flatMap fun r => natLe 4 (c.v (d.toNat + r) j).toNat).take size) } : Req)
    StoreLaw (.stRel ctr d g a z) (fun c => c.RegOk a.toNat ∧ ∀ r, r < ceilDiv size 4 → c.RegOk (d.toNat + r)) req) ∧
  (∀ (ctr : BitVec 4) (d : BitVec 5) (g : BitVec 3) (a : BitVec 6),
    let req := fun (c : Ctx) => ({
        kind := .kstore, ctr := ctr.toNat, d := d.toNat, size := 8, need := 2, lanes := c.lanes.take 1,
        addr := fun j => (c.kr g.toNat + (c.v a.toNat j).signExtend 64).toNat,
        data := fun _ => natLe 8 (c.kr d.toNat).toNat } : Req)
    StoreLaw (.kst ctr d g a) (fun c => c.ExOk a.toNat) req)

/-- Bytes written at an address are read back there, and every byte outside them reads as before; memory keeps its canonical form. (R3, R111) -/
def Obligations.StoredBytes : Prop :=
  ∀ (s : State) (a : Nat) (bs : List Byte) (x : Nat),
    ((s.writeBytes a bs).byteAt x = if a ≤ x ∧ x < a + bs.length then bs.getD (x - a) 0 else s.byteAt x) ∧
    (s.MemInv → (s.writeBytes a bs).MemInv) ∧
    (s.retiredAt a = false → (s.homeWrite a bs).byteAt x = if a ≤ x ∧ x < a + bs.length then bs.getD (x - a) 0 else s.byteAt x) ∧
    (s.retiredAt a = true → s.homeWrite a bs = s)

/-- Each atomic answers a next state in which an access of its operation, place (near or far), order bits, size and operands is outstanding with a part for each active lane at its address; in staged mode the workgroup first reaches a forced commit point; the lane group stands. A lane whose address is misaligned or past the address space, or whose page is not there for it, has no part: the other lanes have theirs, and a replaying trap of the highest-ranked cause is taken with those lanes and the access to continue. Behind an acquire, a release behind anything outstanding, and a commit that an engine holds back, the word is held; with no active lane it only adds 1 to its counter. Completion: exec answers a next state, with the effects stated, under conditions on the state and operands alone, for atomAdd, atomFaddF32, atomAnd, atomOr, atomXor, atomMin, atomMax, atomExch, atomCas. (R313, R314, R274, R120, R117, R105, R146, R413, R414) -/
def Obligations.AtomicWords : Prop :=
  ∀ (ctr : BitVec 4) (d : BitVec 6) (g : BitVec 3) (a : BitVec 6) (z w f : BitVec 1) (o : BitVec 2),
    let req := fun (op : AtomOp) (n : Nat) (c : Ctx) => ({
        kind := .atomic op (f = 1), ctr := ctr.toNat, d := d.toNat, size := 4 * n, acqr := o.getLsbD 0,
        relr := o.getLsbD 1, need := 3, lanes := c.lanes,
        addr := fun j => (c.kr g.toNat + (c.v a.toNat j).signExtend 64).toNat,
        data := fun j => (List.range n).flatMap fun r => natLe 4 (c.v ((if op = .cas then d.toNat + n else d.toNat) + r) j).toNat,
        cmp := fun j => if op = .cas then (List.range n).flatMap fun r => natLe 4 (c.v (d.toNat + r) j).toNat else [] } : Req)
    let law := fun (x : Instr) (op : AtomOp) (n : Nat) =>
      AtomLaw x (fun c => c.RegOk a.toNat ∧ ∀ r, r < (if op = .cas then 2 * n else n) → c.RegOk (d.toNat + r)) (req op n)
    let n := if w = 0 then 1 else 2
    law (.atomAdd ctr d g a w f o) .add n ∧ law (.atomFaddF32 ctr d g a f o) .fadd 1 ∧ law (.atomAnd ctr d g a w f o) .and n ∧
    law (.atomOr ctr d g a w f o) .or n ∧ law (.atomXor ctr d g a w f o) .xor n ∧
    law (.atomMin ctr d g a z w f o) (if z = 1 then .minS else .minZ) n ∧ law (.atomMax ctr d g a z w f o) (if z = 1 then .maxS else .maxZ) n ∧
    law (.atomExch ctr d g a w f o) .exch n ∧ law (.atomCas ctr d g a w f o) .cas n

/-- stash.map maps its range when it fits and answers the outcome in its predicate; write-backs publish and invalidations drop the lines they select; stash.stg reads the staging word; each adds 1 to its counter, with no active lane does only that, and is held while anything of its lane group is outstanding. A map with a size or base that R310 does not allow is illegal, one whose range is in use waits; a map, write-back or invalidation past the address space faults, the other lanes of the latter two having their effect. Completion: exec answers a next state, with the effects stated, under conditions on the state and operands alone, for stashMap, stashWb, stashInv, stashWbE, stashInvE, stashStg. (R310, R311, R312, R114) -/
def Obligations.StashWords : Prop :=
  let free := fun (c : Ctx) (s : State) => s.acquiring c.g = false ∧ s.quiet c.g = true
  let ready := fun (c : Ctx) (s : State) => free c s ∧ c.em ≠ 0
  let waits := fun (i : Instr) (ok : Ctx → Prop) (ctr : BitVec 4) =>
    Runs i (fun c s => (c.em ≠ 0 → ok c) ∧ ¬ free c s) Held ∧
    Runs i (fun c s => c.em = 0 ∧ free c s) (fun c s t => Counts ctr.toNat c s t)
  (∀ (ctr : BitVec 4) (p : BitVec 3) (e : BitVec 2) (g : BitVec 3) (a : BitVec 6),
    let va := fun (c : Ctx) => (c.kr g.toNat + (c.v a.toNat c.exLane).signExtend 64).toNat
    let ok := fun (c : Ctx) => c.ExOk a.toNat ∧ va c % 512 ≤ 256 ∧ va c / 512 % 8 = 0
    let fits := fun (c : Ctx) (s : State) => decide (va c % 512 = 0) || s.mapFits c.wg e.toNat (va c / 4096 * 4096) (va c % 512)
    Runs (.stashMap ctr p e g a)
      (fun c s => ready c s ∧ ok c ∧ va c < 2 ^ 57 ∧ (fits c s = true → s.entryBusy c.lg.wg c.wg e.toNat = false))
      (fun c s t => ∃ l' w', t.lgs.find c.g = some l' ∧ t.wgs.find c.lg.wg = some w' ∧
        l'.qAt p.toNat = (if fits c s then 0xFFFFFFFF else 0) ∧ l'.cAt ctr.toNat = c.lg.cAt ctr.toNat + 1 ∧
        l' = { c.lg with q := l'.q, c := l'.c } ∧ (∀ h, h ≠ c.g → t.lgs.find h = s.lgs.find h) ∧
        (fits c s = false → w' = c.wg ∧ t = { s with lgs := t.lgs }) ∧
        (fits c s = true → w'.maps.find e.toNat = (if va c % 512 = 0 then none else some ⟨va c / 4096 * 4096, va c % 512⟩) ∧
          t.mem = (s.unmap c.lg.wg e.toNat).mem)) ∧
    Runs (.stashMap ctr p e g a)
      (fun c s => ready c s ∧ ok c ∧ va c < 2 ^ 57 ∧ fits c s = true ∧ s.entryBusy c.lg.wg c.wg e.toNat = true) Held ∧
    Runs (.stashMap ctr p e g a) (fun c s => ready c s ∧ ok c ∧ 2 ^ 57 ≤ va c) (fun c s t => ∃ tr : Trap, tr.cause = .xlatPerm ∧
      tr.fm = 1#32 <<< c.exLane ∧ tr.replaying = true ∧ t = s.takeTrap c tr) ∧
    Runs (.stashMap ctr p e g a) (fun c _ => c.em ≠ 0 ∧ c.ExOk a.toNat ∧ (256 < va c % 512 ∨ va c / 512 % 8 ≠ 0))
      (Raises .illegal 6 fun c => 1#32 <<< c.exLane) ∧
    waits (.stashMap ctr p e g a) ok ctr) ∧
  (∀ (ctr : BitVec 4) (e : BitVec 2) (g : BitVec 3) (a : BitVec 6) (d : BitVec 6),
    let counts := fun (c : Ctx) (s u t : State) => t = u.addCtr c.g ctr.toNat 1 ∧ u.lgs = s.lgs
    let va := fun (c : Ctx) (j : Nat) => (c.kr g.toNat + (c.v a.toNat j).signExtend 64).toNat
    let low := fun (c : Ctx) => ∀ j ∈ c.lanes, va c j < 2 ^ 57
    let high := fun (f : Ctx → State → Nat → State) (c : Ctx) (s t : State) => ∃ tr : Trap, tr.cause = .xlatPerm ∧ tr.replaying = true ∧
      tr.fm = maskOf (c.lanes.filter fun j => decide (2 ^ 57 ≤ va c j)) ∧ t = ((c.stashLines g a).foldl (f c) s).takeTrap c tr
    Runs (.stashWb ctr g a) (fun c s => ready c s ∧ c.RegOk a.toNat ∧ ¬ low c) (high fun c s ln => s.publishFrom ln (192 + c.lg.wg)) ∧
    Runs (.stashInv ctr g a) (fun c s => ready c s ∧ c.RegOk a.toNat ∧ ¬ low c) (high fun c s ln => s.invLine c.lg.wg ln) ∧
    Runs (.stashWb ctr g a) (fun c s => ready c s ∧ c.RegOk a.toNat ∧ low c) (fun c s t =>
      counts c s ((c.stashLines g a).foldl (fun s ln => s.publishFrom ln (192 + c.lg.wg)) s) t) ∧
    Runs (.stashWbE ctr e) ready (fun c s t =>
      counts c s ((c.wg.entryLines e.toNat).foldl (fun s ln => s.publishFrom ln (192 + c.lg.wg)) s) t) ∧
    Runs (.stashInv ctr g a) (fun c s => ready c s ∧ c.RegOk a.toNat ∧ low c) (fun c s t =>
      counts c s ((c.stashLines g a).foldl (fun s ln => s.invLine c.lg.wg ln) s) t) ∧
    Runs (.stashInvE ctr e) ready (fun c s t =>
      counts c s ((c.wg.entryLines e.toNat).foldl (fun s ln => s.invLine c.lg.wg ln) s) t) ∧
    Runs (.stashStg ctr d) ready (fun c s t => ∃ u, LaneEff 0 d.toNat (fun c _ => c.stgWord s) c s u ∧ t = u.addCtr c.g ctr.toNat 1) ∧
    waits (.stashWb ctr g a) (fun c => c.RegOk a.toNat) ctr ∧ waits (.stashWbE ctr e) (fun _ => True) ctr ∧
    waits (.stashInv ctr g a) (fun c => c.RegOk a.toNat) ctr ∧ waits (.stashInvE ctr e) (fun _ => True) ctr ∧
    waits (.stashStg ctr d) (fun _ => True) ctr)

/-- A branch whose target line is fetched and whose packet is a valid target moves the path there: bra always, bra.k when its register is not zero, call with the link register set to the successor, kbr through a uniform value; brd, whose target and successor both may be landed on, splits the active lanes by its predicate; bra.k not taken changes nothing; a ninth path is illegal. Of each of them: a packet that is no target raises target, a fetch that fails raises its cause, a page that is absent parks the lane group at the branch, and a line that an engine owns holds the branch back. Completion: exec answers a next state, with the effects stated, under conditions on the state and operands alone, for bra, call, braK, kbr, brd. (R325, R326, R332, R264, R67) -/
def Obligations.BranchWords : Prop :=
  let at_ := fun (o : BitVec 20) (s : State) => s.pk.idx + o.signExtend 64
  let jump := fun (i : DWord) (l : Lg) => { l with pc := i }
  let any := fun (_ : Ctx) (_ : State) => True
  let self := fun (_ : Ctx) (s : State) => s
  (∀ o : BitVec 20,
    Runs (.bra o) (fun c s => Lands c (at_ o s) s) (fun c s t => t = (Fetched c (at_ o s) s).1.modLg c.g (jump (at_ o s))) ∧
    Misses (.bra o) any self (fun _ s => at_ o s) ∧
    Runs (.call o) (fun c s => Lands c (at_ o s) s)
      (fun c s t => t = (Fetched c (at_ o s) s).1.modLg c.g fun l => { jump (at_ o s) l with lk := s.pk.succ }) ∧
    Misses (.call o) any self (fun _ s => at_ o s)) ∧
  (∀ (n : BitVec 4) (o : BitVec 20),
    Runs (.braK n o) (fun c _ => c.kr n.toNat = 0) NoEff ∧
    Runs (.braK n o) (fun c s => c.kr n.toNat ≠ 0 ∧ Lands c (at_ o s) s)
      (fun c s t => t = (Fetched c (at_ o s) s).1.modLg c.g (jump (at_ o s))) ∧
    Misses (.braK n o) (fun c _ => c.kr n.toNat ≠ 0) self (fun _ s => at_ o s)) ∧
  (∀ a : BitVec 8,
    Runs (.kbr a) (fun c s => Lands c (c.uni a) s) (fun c s t => t = (Fetched c (c.uni a) s).1.modLg c.g (jump (c.uni a))) ∧
    Misses (.kbr a) any self (fun c _ => c.uni a)) ∧
  (∀ (v : BitVec 1) (q : BitVec 3) (o : BitVec 20),
    let first := fun (c : Ctx) (s : State) => (Fetched c (at_ o s) s).1
    let both := fun (c : Ctx) (s : State) => Lands c (at_ o s) s ∧ Lands c s.pk.succ (first c s)
    let u := fun (c : Ctx) (s : State) => (Fetched c s.pk.succ (first c s)).1
    let t := fun (c : Ctx) => (if v = 0 then c.q q.toNat else ~~~(c.q q.toNat)) &&& c.em
    let rest := fun (c : Ctx) => c.em &&& ~~~(t c)
    Runs (.brd v q o) (fun c s => both c s ∧ t c = 0) (fun c s x => x = u c s) ∧
    Runs (.brd v q o) (fun c s => both c s ∧ t c ≠ 0 ∧ rest c = 0) (fun c s x => x = (u c s).modLg c.g (jump (at_ o s))) ∧
    Runs (.brd v q o) (fun c s => both c s ∧ t c ≠ 0 ∧ rest c ≠ 0 ∧ c.lg.path.length < 8) (fun c s x =>
      x = (u c s).modLg c.g fun l => { l with path := l.path ++ [(t c, at_ o s)], em := rest c }) ∧
    Runs (.brd v q o) (fun c s => both c s ∧ t c ≠ 0 ∧ rest c ≠ 0 ∧ 8 ≤ c.lg.path.length) (fun c s x =>
      x = (u c s).takeTrap c ((u c s).restartTrap .illegal 6 c.em)) ∧
    Misses (.brd v q o) any self (fun _ s => at_ o s) ∧
    Misses (.brd v q o) (fun c s => Lands c (at_ o s) s) first (fun _ s => s.pk.succ))

/-- jinit sets a rejoin register; jwait passes where nothing is expected, rejoins the lanes where all have arrived, else records them and ends the path; jarr withdraws the active lanes; ret goes to the link register, or ends an empty path; exit ends the active lanes and the path, and the lane group where no path is left (which has then ended while another of its workgroup goes on; an end that would commit staged words on a line that an engine owns waits); em.rd and em.wr copy the mask. Completion: exec answers a next state, with the effects stated, under conditions on the state and operands alone, for jinit, jwait, jarr, ret, exit, emRd, emWr. (R326, R327, R328, R329, R65, R67) -/
def Obligations.PathWords : Prop :=
  let stays := fun (c : Ctx) (s : State) => s.endWaits c = true → c.lg.status ≠ .ended
  (∀ (j : BitVec 2) (m : BitVec 4),
    Runs (.jinit j m) (fun c _ => (c.lg.rj j.toNat).arrived ≠ 0) (Raises .illegal 6 Ctx.em) ∧
    Runs (.jinit j m) (fun c _ => (c.lg.rj j.toNat).arrived = 0) (LgEff fun c _ l => { l with
      j := l.j.setD {} j.toNat { expected := if m.toNat < 8 then c.q m.toNat else c.em, arrived := 0, resume := 0 } })) ∧
  (∀ j : BitVec 2,
    Runs (.jwait j) (fun c s => stays c s ∧ (c.lg.rj j.toNat).expected = 0) NoEff ∧
    Runs (.jwait j) (fun c s => stays c s ∧ (c.lg.rj j.toNat).expected ≠ 0 ∧ c.em &&& ~~~(c.lg.rj j.toNat).expected ≠ 0)
      (Raises .illegal 6 Ctx.em) ∧
    Runs (.jwait j) (fun c s => stays c s ∧ (c.lg.rj j.toNat).expected ≠ 0 ∧ (c.lg.rj j.toNat).arrived ||| c.em = (c.lg.rj j.toNat).expected)
      (LgEff fun c _ l => { l with em := (c.lg.rj j.toNat).expected, j := l.j.setD {} j.toNat {} }) ∧
    (∀ (s : State) (c : Ctx), s.ctx? = some c → (c.lg.rj j.toNat).expected ≠ 0 → c.em &&& ~~~(c.lg.rj j.toNat).expected = 0 →
      (c.lg.rj j.toNat).arrived ||| c.em ≠ (c.lg.rj j.toNat).expected →
      let l1 := c.lg.setRj j.toNat { c.lg.rj j.toNat with arrived := (c.lg.rj j.toNat).arrived ||| c.em, resume := s.pk.succ }
      (∀ l2, l1.nextPath = some l2 → stays c s →
        ∃ t, exec (.jwait j) s = .next t ∧ t.lgs.find c.g = some l2 ∧ t = { s with lgs := t.lgs }) ∧
      (l1.nextPath = none → s.endWaits c = false → exec (.jwait j) s = .next ((s.setLg c.g l1).endLg c.g)) ∧
      (l1.nextPath = none → s.endWaits c = true → exec (.jwait j) s = .next (s.holdBack c))) ∧
    Runs (.jarr j) (fun _ _ => True) (LgEff fun c _ l =>
      let r := l.rj j.toNat
      l.setRj j.toNat { expected := r.expected &&& ~~~c.em, arrived := r.arrived &&& ~~~c.em,
                        resume := if r.arrived &&& ~~~c.em = 0 then 0 else r.resume })) ∧
  Runs .ret (fun c s => stays c s ∧ c.em ≠ 0) (LgEff fun _ _ l => { l with pc := l.lk }) ∧
  (∀ (s : State) (c : Ctx), s.ctx? = some c → c.em = 0 →
    (∀ l2, c.lg.nextPath = some l2 → stays c s → exec .ret s = .next (s.setLg c.g l2)) ∧
    (c.lg.nextPath = none → s.endWaits c = false → exec .ret s = .next (s.endLg c.g)) ∧
    (c.lg.nextPath = none → s.endWaits c = true → exec .ret s = .next (s.holdBack c))) ∧
  (∀ (s : State) (c : Ctx), s.ctx? = some c →
    let l0 := (List.range 4).foldl (fun l n => l.leaveRj c.em n) c.lg
    let l1 := { l0 with ended := l0.ended ||| c.em, em := 0 }
    (∀ l2, l1.nextPath = some l2 → stays c s → ∃ t, exec .exit s = .next t ∧ t.lgs.find c.g = some l2 ∧ t = { s with lgs := t.lgs }) ∧
    (l1.nextPath = none → s.endWaits c = false → exec .exit s = .next ((s.setLg c.g l1).endLg c.g)) ∧
    (l1.nextPath = none → s.endWaits c = true → exec .exit s = .next (s.holdBack c))) ∧
  (∀ q : BitVec 3, PredLaw (.emRd q) q Ctx.em ∧
    Runs (.emWr q) (fun _ _ => True) (LgEff fun c _ l => { l with em := c.q q.toNat &&& ~~~l.ended })) ∧
  (∀ (s : State) (g : Nat) (l : Lg), s.lgs.find g = some l → (∃ p ∈ s.lgs, p.1 ≠ g ∧ p.2.wg = l.wg ∧ p.2.status ≠ .ended) →
    ∃ l', (s.endLg g).lgs.find g = some l' ∧ l'.status = .ended ∧ l'.em = 0)

/-- A lane group with no open path and nothing outstanding that reaches a workgroup, span or step barrier is recorded there with its core timestamp and blocks; with open paths, a span or step barrier in a launch that is not coresident or in a handler, or a span outside the launch rectangle, it raises illegal; with accesses outstanding it is held. Completion: exec answers a next state, with the effects stated, under conditions on the state and operands alone, for barWg, barSpan, barStep. (R315, R317, R318, R319, R37, R38, R123) -/
def Obligations.BarrierWords : Prop :=
  let quiet := fun (c : Ctx) (s : State) => s.quiet c.g = true ∧ s.acquiring c.g = false
  (∀ b : BitVec 2,
    Runs (.barWg b) (fun c s => c.lg.pathsOpen = false ∧ quiet c s) (fun c s t => ∃ w', t.wgs.find c.lg.wg = some w' ∧
      (let r := Tab.getD c.wg.bars {} b.toNat
       Tab.find w'.bars b.toNat = some { r with arrived := c.lg.lgn :: r.arrived, pts := max r.pts (s.core c.core).pts }) ∧
      w' = { c.wg with bars := w'.bars } ∧ t.lgs.find c.g = some { c.lg with status := .blocked (.barWg b.toNat) false } ∧
      t = { s with wgs := t.wgs, lgs := t.lgs }) ∧
    Runs (.barWg b) (fun c _ => c.lg.pathsOpen = true) (Raises .illegal 6 Ctx.em) ∧
    Runs (.barWg b) (fun c s => c.lg.pathsOpen = false ∧ ¬ quiet c s) Held) ∧
  (∀ h w : BitVec 3, Runs (.barSpan h w)
    (fun c s => c.lg.pathsOpen = false ∧ quiet c s ∧ c.la.cor = true ∧ c.lg.hnd = false ∧
      (spanAt c.la c.wg.home w.toNat h.toNat).1 + 2 ^ w.toNat ≤ c.la.w ∧ (spanAt c.la c.wg.home w.toNat h.toNat).2 + 2 ^ h.toNat ≤ c.la.h)
    (fun c s t => ∃ la' b, t.launches.find c.wg.launch = some la' ∧
      let o := spanAt c.la c.wg.home w.toNat h.toNat
      Tab.find la'.spans (spanKey o.1 o.2 w.toNat h.toNat) = some b ∧ c.g ∈ b.arrived ∧ (s.core c.core).pts ≤ b.pts ∧
      t.lgs.find c.g = some { c.lg with status := .blocked (.barSpan o.1 o.2 w.toNat h.toNat) false } ∧
      t = { s with launches := t.launches, lgs := t.lgs }) ∧
    Runs (.barSpan h w) (fun c _ => c.lg.pathsOpen = true ∨ c.la.cor = false ∨ c.lg.hnd = true ∨
        c.la.w < (spanAt c.la c.wg.home w.toNat h.toNat).1 + 2 ^ w.toNat ∨ c.la.h < (spanAt c.la c.wg.home w.toNat h.toNat).2 + 2 ^ h.toNat)
      (Raises .illegal 6 Ctx.em) ∧
    Runs (.barSpan h w) (fun c s => c.lg.pathsOpen = false ∧ c.la.cor = true ∧ c.lg.hnd = false ∧
      (spanAt c.la c.wg.home w.toNat h.toNat).1 + 2 ^ w.toNat ≤ c.la.w ∧ (spanAt c.la c.wg.home w.toNat h.toNat).2 + 2 ^ h.toNat ≤ c.la.h ∧
      ¬ quiet c s) Held) ∧
  (∀ r : BitVec 1, Runs (.barStep r) (fun c s => c.lg.pathsOpen = false ∧ quiet c s ∧ c.la.cor = true ∧ c.lg.hnd = false)
    (fun c s t => ∃ la', t.launches.find c.wg.launch = some la' ∧ c.g ∈ la'.step.arrived ∧
      la'.step.flag = (c.la.step.flag || decide (r = 1)) ∧ (s.core c.core).pts ≤ la'.step.pts ∧
      t.lgs.find c.g = some { c.lg with status := .blocked .barStep false } ∧ t = { s with launches := t.launches, lgs := t.lgs }) ∧
    Runs (.barStep r) (fun c _ => c.lg.pathsOpen = true ∨ c.la.cor = false ∨ c.lg.hnd = true) (Raises .illegal 6 Ctx.em) ∧
    Runs (.barStep r) (fun c s => c.lg.pathsOpen = false ∧ c.la.cor = true ∧ c.lg.hnd = false ∧ ¬ quiet c s) Held)

/-- fence.acq, with no earlier load or atomic outstanding, raises the core timestamp to what the lane group has bound; else it marks the lane group, whose later memory words it holds until then. fence.rel, with nothing outstanding, passes (after a forced commit in staged mode); fence.ar takes the partition fence word past every timestamp and raises the core to it, reports deferred where no way leads to the word and poison where the word is poisoned; each is held until it can go on. Completion: exec answers a next state, with the effects stated, under conditions on the state and operands alone, for fenceAcq, fenceRel, fenceAr. (R320, R129, R130, R123) -/
def Obligations.FenceWords : Prop :=
  Runs .fenceAcq (fun c s => s.loadsOut c.g (s.pk.since.getD s.nseq) = false) (fun c s t =>
    (t.core c.core).pts = max (s.core c.core).pts c.lg.boundWts ∧ t = { s with cores := t.cores }) ∧
  Runs .fenceAcq (fun c s => s.loadsOut c.g (s.pk.since.getD s.nseq) = true)
    (LgEff fun _ s l => { l with fence := some (s.pk.since.getD s.nseq) }) ∧
  Runs .fenceRel (fun c s => s.quiet c.g = true ∧ CommitOk c s ∧ Unowned s (Committed c s)) (fun c s t => t = Committed c s) ∧
  Runs .fenceRel (fun c s => s.quiet c.g = false ∨ ¬ CommitOk c s) Held ∧
  (let ok := fun (c : Ctx) (s : State) => s.quiet c.g = true ∧ s.acquiring c.g = false ∧ CommitOk c s ∧ Unowned s (Committed c s)
   let cut := fun (c : Ctx) (u : State) => u.cutOff (dieOf c.core) (((u.partDies c.part).head?).getD 0)
   Runs .fenceAr (fun c s => ok c s ∧ cut c (Committed c s) = false ∧ ((Committed c s).part c.part).fencePois = false)
    (fun c s t =>
      let u := Committed c s
      let ts := max (u.part c.part).fenceN (max (u.core c.core).pts c.lg.boundWts) + 1
      (t.part c.part).fenceN = ts ∧ (t.core c.core).pts = ts ∧ t = { u with parts := t.parts, cores := t.cores }) ∧
   Runs .fenceAr (fun c s => ok c s ∧ cut c (Committed c s) = true) (fun c s t =>
      t = (Committed c s).raiseReport c .deferred c.em 0 s.pk.idx s.pk.idx) ∧
   Runs .fenceAr (fun c s => ok c s ∧ cut c (Committed c s) = false ∧ ((Committed c s).part c.part).fencePois = true) (fun c s t =>
      t = (Committed c s).raiseReport c .poison c.em 0 s.pk.idx s.pk.idx) ∧
   Runs .fenceAr (fun c s => s.quiet c.g = false ∨ s.acquiring c.g = true ∨ ¬ CommitOk c s) Held)

/-- waitc passes when its counter has reached the threshold, reports the oldest failure before that, waits while something on the counter is outstanding, and raises illegal where nothing is; waitm binds the word as an acquire when it has reached the threshold and else blocks, waits behind an acquire or a store to its line, and fails as its translation or its home slice says; cset, cadd and elect write what R323 and R324 say. Completion: exec answers a next state, with the effects stated, under conditions on the state and operands alone, for waitc, cset, cadd, waitm, elect. (R321, R322, R323, R324, R68, R338) -/
def Obligations.WaitWords : Prop :=
  let waits := fun (c : Ctx) (s t : State) => t = (s.holdBack c).modLg c.g fun l => { l with counting := true }
  (∀ (n : BitVec 4) (a i : BitVec 8),
    Runs (.waitc n a i) (fun c _ => c.lg.oldestFail n.toNat = none ∧ (c.lg.cAt n.toNat - c.threshold a i).toNat < 2 ^ 31) NoEff ∧
    Runs (.waitc n a i) (fun c s => c.lg.oldestFail n.toNat = none ∧ 2 ^ 31 ≤ (c.lg.cAt n.toNat - c.threshold a i).toNat ∧ s.onCounter c.g n.toNat ≠ []) waits ∧
    Runs (.waitc n a i) (fun c s => ∃ f, c.lg.oldestFail n.toNat = some f ∧ ∃ q ∈ s.onCounter c.g n.toNat, q < f.seq) waits ∧
    (∀ (s : State) (c : Ctx), s.ctx? = some c → wellFormed (.waitc n a i) = true → c.lg.oldestFail n.toNat = none →
      2 ^ 31 ≤ (c.lg.cAt n.toNat - c.threshold a i).toNat → s.onCounter c.g n.toNat = [] →
      exec (.waitc n a i) s = .next (s.takeTrap c (s.restartTrap .illegal 6 c.em))) ∧
    (∀ (s : State) (c : Ctx) (f : Fail), s.ctx? = some c → wellFormed (.waitc n a i) = true → c.lg.oldestFail n.toNat = some f →
      (∀ q ∈ s.onCounter c.g n.toNat, f.seq ≤ q) →
      (c.lg.reported f).fails = c.lg.fails.erase f ∧ exec (.waitc n a i) s = .next ((s.setLg c.g (c.lg.reported f)).raiseReport
        { c with lg := c.lg.reported f } f.cause f.fm f.va f.fpc s.pk.idx f.slot f.inRun)) ∧
    Runs (.cset n a i) (fun _ _ => True) (CtrEff n.toNat fun c => c.threshold a i) ∧
    Runs (.cadd n a i) (fun _ _ => True) (CtrEff n.toNat fun c => c.lg.cAt n.toNat + c.threshold a i)) ∧
  (∀ (d : BitVec 5) (a i : BitVec 8) (s s1 : State) (c : Ctx) (x : LaneAddr), s.ctx? = some c →
    wellFormed (.waitm d a i) = true → s.laneXlate c 8 1 c.exLane (c.kr d.toNat).toNat = (s1, x) →
    let va := (c.kr d.toNat).toNat
    (s.acquiring c.g = true → exec (.waitm d a i) s = .next (s.holdBack c)) ∧
    (s.acquiring c.g = false → Unowned s s1 →
      (x.cause ≠ .none → ∃ tr : Trap, tr.cause = x.cause ∧ tr.fm = 1#32 <<< c.exLane ∧ tr.tva = BitVec.ofNat 64 va ∧ tr.replaying = true ∧
        exec (.waitm d a i) s = .next (s1.takeTrap c tr)) ∧
      ∀ pa kid, x.res = .ok pa kid →
        let block := fun (u : State) => u.modLg c.g fun l =>
          { l with status := .blocked (.waitm va (some (pa, kid)) (c.threshold a i) s.pk.idx s.pk.first s.pk.slot) false }
        (s1.storeOut c.core pa = true → exec (.waitm d a i) s = .next (s1.holdBack c)) ∧
        (s1.storeOut c.core pa = false → s1.locked (pa / 128) = true → exec (.waitm d a i) s = .next (block s1)) ∧
        (s1.storeOut c.core pa = false → s1.locked (pa / 128) = false → ∀ s2 e w wts, s1.watch c.lg.wg c.part pa kid = (s2, e, w, wts) →
          (e ≠ .none → exec (.waitm d a i) s = .next (s2.waitmFails c e pa va)) ∧
          (e = .none → (w - c.threshold a i).toNat < 2 ^ 31 → exec (.waitm d a i) s =
            .next ((s2.raisePts c.core wts).modLg c.g fun l => { l with boundWts := max l.boundWts wts })) ∧
          (e = .none → 2 ^ 31 ≤ (w - c.threshold a i).toNat → exec (.waitm d a i) s = .next (block s2))))) ∧
  (∀ q : BitVec 3, Runs (.elect q) (fun _ _ => True) (fun c s t => ∃ l' w', t.lgs.find c.g = some l' ∧ t.wgs.find c.lg.wg = some w' ∧
    let wins := c.wg.elect = true ∧ c.em ≠ 0
    (wins → l'.qAt q.toNat = 1#32 <<< c.exLane ∧ w'.elect = false) ∧ (¬ wins → l'.qAt q.toNat = 0 ∧ w' = c.wg) ∧
    l' = { c.lg with q := l'.q } ∧ w' = { c.wg with elect := w'.elect } ∧ t = { s with lgs := t.lgs, wgs := t.wgs }))

/-- Each uniform word whose lane group owns its destination writes the 64-bit result there; every other register, workgroup and piece of the machine stands; kmov to lk writes the link register alone. Completion: exec answers a next state, with the effects stated, under conditions on the state and operands alone, for kmov, kmovFromLk, kadd, ksub, kand, kor, kxor, kshl, kshr, kcmpEq, kcmpLtS, kcmpLtZ, kmovToLk, kfromv. (R330, R331, R63, R64) -/
def Obligations.UniformWords : Prop :=
  (∀ (d : BitVec 5) (a b : BitVec 8),
    KLaw (.kmov d a) d (fun c => c.uni a) ∧ KLaw (.kmovFromLk d) d (fun c => c.sn.lk) ∧
    KBinLaw (.kadd d a b) d a b (fun x y => x + y) ∧ KBinLaw (.ksub d a b) d a b (fun x y => x - y) ∧
    KBinLaw (.kand d a b) d a b (fun x y => x &&& y) ∧ KBinLaw (.kor d a b) d a b (fun x y => x ||| y) ∧
    KBinLaw (.kxor d a b) d a b (fun x y => x ^^^ y) ∧ KBinLaw (.kshl d a b) d a b (fun x y => x <<< y.toNat) ∧
    KBinLaw (.kshr d a b) d a b (fun x y => x >>> y.toNat) ∧ KBinLaw (.kcmpEq d a b) d a b (fun x y => if x = y then 1 else 0) ∧
    KBinLaw (.kcmpLtS d a b) d a b (fun x y => if x.toInt < y.toInt then 1 else 0) ∧
    KBinLaw (.kcmpLtZ d a b) d a b (fun x y => if x.toNat < y.toNat then 1 else 0)) ∧
  (∀ a : BitVec 8, Runs (.kmovToLk a) (fun _ _ => True) (LgEff fun c _ l => { l with lk := c.uni a })) ∧
  (∀ (d : BitVec 5) (a b : BitVec 8), Runs (.kfromv d a b) (fun c _ => c.em ≠ 0 ∧ c.owns d.toNat = true ∧
      c.srcAt (1#32 <<< c.exLane) id a = [] ∧ c.srcAt (1#32 <<< c.exLane) id b = [])
    (KEff d.toNat fun c => BitVec.ofNat 64 ((c.src 0 a c.exLane).toNat + (c.src 0 b c.exLane).toNat * 2 ^ 32)) ∧
    Runs (.kfromv d a b) (fun c _ => c.em = 0) NoEff)

/-- kclaim takes a register that nobody or its own lane group owns and answers the outcome in its predicate; krel leaves it with no owner; each word of the uniform family whose destination its lane group does not own (and krel of such a register) raises kown, in the active lanes, and writes nothing. Completion: exec answers a next state, with the effects stated, under conditions on the state and operands alone, for kclaim, krel. (R333, R63, R64) -/
def Obligations.UniformOwnership : Prop :=
  (∀ (d : BitVec 5) (p : BitVec 3), Runs (.kclaim d p) (fun _ _ => True) (fun c s t => ∃ l' w', t.lgs.find c.g = some l' ∧
    t.wgs.find c.lg.wg = some w' ∧
    let free := c.owner d.toNat = 32 ∨ c.owner d.toNat = c.lg.lgn
    (free → l'.qAt p.toNat = 0xFFFFFFFF ∧ w'.ownerAt d.toNat = c.lg.lgn) ∧ (¬ free → l'.qAt p.toNat = 0 ∧ w' = c.wg) ∧
    (∀ m, m ≠ d.toNat → w'.ownerAt m = c.wg.ownerAt m) ∧ w' = { c.wg with kown := w'.kown } ∧
    l' = { c.lg with q := l'.q, kv := l'.kv } ∧ (∀ m : BitVec 3, m ≠ p → l'.qAt m.toNat = c.lg.qAt m.toNat) ∧
    t = { s with lgs := t.lgs, wgs := t.wgs })) ∧
  (∀ d : BitVec 5, Runs (.krel d) (fun c _ => c.owns d.toNat = true) (fun c s t => ∃ w', t.wgs.find c.lg.wg = some w' ∧
    w'.ownerAt d.toNat = 32 ∧ (∀ m, m ≠ d.toNat → w'.ownerAt m = c.wg.ownerAt m) ∧ w' = { c.wg with kown := w'.kown } ∧
    (∀ g, (t.lgs.find g).map (fun l => { l with kv := [] }) = (s.lgs.find g).map (fun l => { l with kv := [] })) ∧
    t = { s with lgs := t.lgs, wgs := t.wgs })) ∧
  (∀ (d : BitVec 5) (a b : BitVec 8),
    let refused := fun (i : Instr) => Runs i (fun c _ => c.owns d.toNat = false) (Raises .kown (Cause.rank .kown) Ctx.em)
    refused (.kmov d a) ∧ refused (.kmovFromLk d) ∧ refused (.kadd d a b) ∧ refused (.ksub d a b) ∧ refused (.kand d a b) ∧
    refused (.kor d a b) ∧ refused (.kxor d a b) ∧ refused (.kshl d a b) ∧ refused (.kshr d a b) ∧ refused (.kcmpEq d a b) ∧
    refused (.kcmpLtS d a b) ∧ refused (.kcmpLtZ d a b) ∧ refused (.krel d) ∧
    Runs (.kfromv d a b) (fun c _ => c.em ≠ 0 ∧ c.owns d.toNat = false ∧ c.srcAt (1#32 <<< c.exLane) id a = [] ∧
      c.srcAt (1#32 <<< c.exLane) id b = []) (Raises .kown (Cause.rank .kown) Ctx.em))

/-- With room in the matrix queue and some lane active, a claim of a free slot or tile takes it, of an own one answers 1 and of another's 0; a release, record, load, armed transfer, product, zero, drain or check that passes its checks waits in the queue with its operands, and nothing else changes; loads and drains have their addresses aligned and translated, products the governor's admission. A full queue holds the word, with no active lane it only counts, a resource that it does not hold raises slot. Completion: exec answers a next state, with the effects stated, under conditions on the state and operands alone, for mxClaim, mxRel, mxRec, mxLd, mxLdS, mxLdb, mxMma, mxPmma, mxZero, mxDrain, mxChk. (R174, R178, R179, R336, R341, R342, R343, R344, R345, R346, R347, R348) -/
def Obligations.MatrixWords : Prop :=
  let here := fun (_ : Ctx) (s : State) => (s, ([] : Tab (Nat × Nat)))
  let noSlot := Raises .slot (Cause.rank .slot) Ctx.exMask
  let illegal := Raises .illegal 6 Ctx.exMask
  let fmt := Raises .fmt (Cause.rank .fmt) Ctx.exMask
  (∀ (p : BitVec 3) (y w : BitVec 1) (n : BitVec 5),
    let who := fun (c : Ctx) (s : State) => s.claimOf c.core c.bank (y = 1) n.toNat
    Runs (.mxClaim p y w n) (fun c s => MxReady c s ∧ who c s = none)
      (fun c s t => t.claimOf c.core c.bank (y = 1) n.toNat = some c.lg.wg ∧
        PredEff (fun _ => 0xFFFFFFFF) p.toNat (fun _ => 0xFFFFFFFF) c (s.setClaim c.core c.bank (y = 1) n.toNat (some c.lg.wg) (w = 1)) t) ∧
    Runs (.mxClaim p y w n) (fun c s => MxReady c s ∧ who c s = some c.lg.wg ∧ s.relOf c.core c.lg.wg (y = 1) n.toNat = none)
      (fun c s t => ∃ u, MxAdded none (.mxPair (y = 1) n.toNat (w = 1)) [] c s u ∧ PredEff (fun _ => 0xFFFFFFFF) p.toNat (fun _ => 0xFFFFFFFF) c u t) ∧
    Runs (.mxClaim p y w n) (fun c s => MxReady c s ∧ ∃ o, who c s = some o ∧ o ≠ c.lg.wg ∧
        (y = 1 ∨ ((s.wgs.find o).map (·.bank)).getD c.bank = c.bank))
      (PredEff (fun _ => 0xFFFFFFFF) p.toNat fun _ => 0) ∧
    Runs (.mxClaim p y w n) (fun c s => MxReady c s ∧ y = 0 ∧ ∃ o v, who c s = some o ∧ o ≠ c.lg.wg ∧ s.wgs.find o = some v ∧ v.bank ≠ c.bank)
      (fun c s t => t = (s.postOnce (.slotEvictionDone c.core n.toNat)).holdBack c) ∧
    Runs (.mxClaim p y w n) (fun c s => 8 ≤ (s.core c.core).mxq.length) Held ∧
    Runs (.mxClaim p y w n) (fun c s => (s.core c.core).mxq.length < 8 ∧ c.em = 0) NoEff) ∧
  (∀ (y : BitVec 1) (n : BitVec 5),
    MxLaw (.mxRel y n) none (fun c s => c.holds s (y = 1) n.toNat = true)
      (fun c s => (if y = 1 then s else s.withdrawLdb c.core c.lg.wg n.toNat, [])) (fun _ => .mxRel (y = 1) n.toNat) ∧
    Runs (.mxRel y n) (fun c s => MxReady c s ∧ c.holds s (y = 1) n.toNat = false) noSlot) ∧
  (∀ n r : BitVec 5,
    MxLaw (.mxRec n r) none (fun c s => c.holds s false n.toNat = true ∧ recCause (c.kr r.toNat) = .none) here
      (fun c => .mxRec n.toNat (c.kr r.toNat)) ∧
    Runs (.mxRec n r) (fun c s => MxReady c s ∧ recCause (c.kr r.toNat) = .illegal) illegal ∧
    Runs (.mxRec n r) (fun c s => MxReady c s ∧ recCause (c.kr r.toNat) ≠ .illegal ∧ c.holds s false n.toNat = false) noSlot ∧
    Runs (.mxRec n r) (fun c s => MxReady c s ∧ recCause (c.kr r.toNat) = .fmt ∧ c.holds s false n.toNat = true) fmt) ∧
  (∀ (m : BitVec 6) (n : BitVec 5) (g : BitVec 3) (ctr : BitVec 4),
    let base := fun (c : Ctx) => (c.kr g.toNat + (c.v m.toNat c.exLane).signExtend 64).toNat
    let stride := fun (c : Ctx) => (c.v (m.toNat + 1) c.exLane).toNat
    MxMemLaw (.mxLd m n g ctr) ctr (fun c s => c.ExOk m.toNat ∧ c.ExOk (m.toNat + 1) ∧ c.holds s false n.toNat = true) 1 base stride
      (fun c => .mxLd n.toNat (base c) (stride c) false) ∧
    Runs (.mxLd m n g ctr) (fun c s => MxReady c s ∧ c.ExOk m.toNat ∧ c.ExOk (m.toNat + 1) ∧ c.holds s false n.toNat = false) noSlot ∧
    MxMemLaw (.mxLdS m n g ctr) ctr (fun c s => c.ExOk m.toNat ∧ c.holds s false n.toNat = true) 1 base (fun _ => 0)
      (fun c => .mxLd n.toNat (base c) 0 true) ∧
    Runs (.mxLdS m n g ctr) (fun c s => MxReady c s ∧ c.ExOk m.toNat ∧ c.holds s false n.toNat = false) noSlot) ∧
  (∀ (w : BitVec 1) (x n : BitVec 5) (ctr h : BitVec 4),
    MxLaw (.mxLdb w x n ctr h) (some ctr) (fun c s => ldbBad c.core (w = 1) x.toNat = false ∧ c.holds s false n.toNat = true) here
      (fun _ => .mxLdb n.toNat (w = 1) x.toNat h.toNat none) ∧
    Runs (.mxLdb w x n ctr h) (fun c s => MxReady c s ∧ ldbBad c.core (w = 1) x.toNat = true) illegal ∧
    Runs (.mxLdb w x n ctr h) (fun c s => MxReady c s ∧ ldbBad c.core (w = 1) x.toNat = false ∧ c.holds s false n.toNat = false) noSlot) ∧
  (∀ (u v : BitVec 5) (ctr tl : BitVec 4),
    let good := fun (c : Ctx) (s : State) => c.productF s v.toNat u.toNat tl.toNat = []
    let all := fun (c : Ctx) (s : State) => c.holds s false v.toNat = true ∧ c.holds s false u.toNat = true ∧ c.holds s true tl.toNat = true
    let product := fun (i : Instr) (cost : Nat) (ok : Ctx → Prop) (body : CmdBody) =>
      MxLaw i (some ctr) (fun c s => ok c ∧ good c s ∧ (s.govern c cost).2 = true) (fun c s => ((s.govern c cost).1, [])) (fun _ => body) ∧
      Runs i (fun c s => MxReady c s ∧ ok c ∧ good c s ∧ (s.govern c cost).2 = false) (fun c s t => t = (s.govern c cost).1.holdBack c) ∧
      Runs i (fun c s => MxReady c s ∧ ok c ∧ ¬ all c s) noSlot ∧
      Runs i (fun c s => MxReady c s ∧ ok c ∧ all c s ∧ ¬ good c s) fmt
    product (.mxMma u v ctr tl) 1 (fun _ => True) (.mxMma tl.toNat v.toNat u.toNat) ∧
    product (.mxPmma u v ctr tl) 2 (fun c => coreX c.core % 4 ≠ 3) (.mxPmma tl.toNat v.toNat u.toNat) ∧
    Runs (.mxPmma u v ctr tl) (fun c s => MxReady c s ∧ coreX c.core % 4 = 3) illegal) ∧
  (∀ ctr tl : BitVec 4,
    MxLaw (.mxZero ctr tl) (some ctr) (fun c s => c.holds s true tl.toNat = true) here (fun _ => .mxZero tl.toNat) ∧
    Runs (.mxZero ctr tl) (fun c s => MxReady c s ∧ c.holds s true tl.toNat = false) noSlot) ∧
  (∀ (m : BitVec 6) (w : BitVec 5) (g : BitVec 3) (ctr tl : BitVec 4),
    let base := fun (c : Ctx) => (c.kr g.toNat + (c.v m.toNat c.exLane).signExtend 64).toNat
    let stride := fun (c : Ctx) => (c.v (m.toNat + 1) c.exLane).toNat
    let regs := fun (c : Ctx) => c.ExOk m.toNat ∧ c.ExOk (m.toNat + 1)
    let form := fun (c : Ctx) => bits (c.kr w.toNat) 32 3 ≤ 5 ∧ bits (c.kr w.toNat) 35 2 ≠ 3
    MxMemLaw (.mxDrain m w g ctr tl) ctr (fun c s => regs c ∧ c.holds s true tl.toNat = true ∧ bits (c.kr w.toNat) 38 26 = 0 ∧ form c) 2
      base stride (fun c => .mxDrain tl.toNat (base c) (stride c) (c.kr w.toNat)) ∧
    Runs (.mxDrain m w g ctr tl) (fun c s => MxReady c s ∧ regs c ∧ bits (c.kr w.toNat) 38 26 ≠ 0) illegal ∧
    Runs (.mxDrain m w g ctr tl) (fun c s => MxReady c s ∧ regs c ∧ bits (c.kr w.toNat) 38 26 = 0 ∧ c.holds s true tl.toNat = false) noSlot ∧
    Runs (.mxDrain m w g ctr tl) (fun c s => MxReady c s ∧ regs c ∧ bits (c.kr w.toNat) 38 26 = 0 ∧ c.holds s true tl.toNat = true ∧ ¬ form c) fmt) ∧
  (∀ (d : BitVec 6) (ctr tl : BitVec 4),
    MxLaw (.mxChk d ctr tl) (some ctr) (fun c s => c.holds s true tl.toNat = true) here (fun _ => .mxChk d.toNat tl.toNat) ∧
    Runs (.mxChk d ctr tl) (fun c s => MxReady c s ∧ c.holds s true tl.toNat = false) noSlot)

/-- With the array, room in its queue and some lane active, each sampling command that passes its checks waits in the queue with its operands, and nothing else changes (image commands and completion counters with their addresses aligned and translated); sa.cfg takes a free array and answers 1, another's answers 0; the monitor and status reads write their pair at once and add 1 to their counter. A full queue holds the word, with no active lane it only counts, another context's array is evicted first, without the array and with an operand that its rule refuses it is illegal, a ghost's source behind a gate raises gate. Completion: exec answers a next state, with the effects stated, under conditions on the state and operands alone, for saCfg, saKey, saLdc, saLdh, saClmp, saRdc, saRds, saSwp, saUncl, saGhost, saClr, saMon, saStat, saMonW. (R194, R205, R207, R351, R352, R353, R354, R355, R356, R357, R358, R360) -/
def Obligations.SamplingWords : Prop :=
  let here := fun (_ : Ctx) (s : State) => (s, ([] : Tab (Nat × Nat)))
  let no := fun (_ : Ctx) => (none : Option Nat)
  let illegal := Raises .illegal 6 Ctx.exMask
  (∀ (o r : BitVec 5) (p : BitVec 3) (ctr : BitVec 4),
    let at_ := fun (c : Ctx) (s : State) => s.saFull c.core c.bank = false ∧ c.em ≠ 0
    let free := fun (c : Ctx) (s : State) => s.arrTaken c.core c.lg.wg c.bank = false
    let biased := fun (c : Ctx) (s : State) => cfgGrey (c.kr r.toNat) = false ∧ (s.core c.core).mon.lockout = true
    let from_ := fun (c : Ctx) (s : State) => if s.arrForeign c.core c.bank then s.postOnce (.arrayEvictionDone c.core) else s
    Runs (.saCfg o r p ctr) (fun c s => at_ c s ∧ cfgBad (c.kr r.toNat) (c.kr o.toNat) = false ∧ free c s ∧ ¬ biased c s)
      (fun c s t => ∃ u, SaAdded ctr.toNat (.saCfg (c.kr r.toNat) (c.kr o.toNat) (!s.holdsArr c.core c.lg.wg)) [] none c (from_ c s) u ∧
        PredEff (fun _ => 0xFFFFFFFF) p.toNat (fun _ => 0xFFFFFFFF) c u t) ∧
    Runs (.saCfg o r p ctr) (fun c s => at_ c s ∧ cfgBad (c.kr r.toNat) (c.kr o.toNat) = false ∧ ¬ free c s)
      (fun c s t => ∃ u, PredEff (fun _ => 0xFFFFFFFF) p.toNat (fun _ => 0) c s u ∧ t = u.addCtr c.g ctr.toNat 1) ∧
    Runs (.saCfg o r p ctr) (fun c s => at_ c s ∧ cfgBad (c.kr r.toNat) (c.kr o.toNat) = true) illegal ∧
    Runs (.saCfg o r p ctr) (fun c s => at_ c s ∧ cfgBad (c.kr r.toNat) (c.kr o.toNat) = false ∧ free c s ∧ biased c s)
      (Raises .bias (Cause.rank .bias) Ctx.exMask) ∧
    Runs (.saCfg o r p ctr) (fun c s => s.saFull c.core c.bank = true) Held ∧
    Runs (.saCfg o r p ctr) (fun c s => s.saFull c.core c.bank = false ∧ c.em = 0) (fun c s t => Counts ctr.toNat c s t)) ∧
  (∀ (r : BitVec 5) (ctr : BitVec 4), SaLaw (.saKey r ctr) ctr [] (fun _ _ => True) here no (fun c => .saKey (c.kr r.toNat))) ∧
  (∀ (m : BitVec 6) (g : BitVec 3) (ctr : BitVec 4) (q : BitVec 5) (w : BitVec 1),
    let base := fun (c : Ctx) => (c.kr g.toNat + (c.v m.toNat c.exLane).signExtend 64).toNat
    let rng := fun (c : Ctx) => c.v (m.toNat + 1) c.exLane
    let law := fun (x : Instr) (need align : Nat) (by32 : Bool) (qa : Ctx → Option Nat) (body : Nat → Nat → Nat → CmdBody) =>
      let b := fun (c : Ctx) => body (base c) (rangeFirst (rng c)) (rangeCnt (rng c))
      let ready := fun (c : Ctx) (s : State) => SaReady c s ∧ c.ExOk m.toNat ∧ c.ExOk (m.toNat + 1)
      SaLaw x ctr [m.toNat, m.toNat + 1] (fun c s => rangeBad (rng c) by32 = false ∧ s.acquiring c.g = false ∧ base c % align = 0 ∧
          ImageOk c s need (b c).segs (qa c)) (fun c s => ImageWalked c s need (b c).segs (qa c)) qa b ∧
      Runs x (fun c s => ready c s ∧ rangeBad (rng c) by32 = true) illegal ∧
      Runs x (fun c s => ready c s ∧ rangeBad (rng c) by32 = false ∧ s.acquiring c.g = true) Held ∧
      Runs x (fun c s => ready c s ∧ rangeBad (rng c) by32 = false ∧ s.acquiring c.g = false ∧ base c % align ≠ 0) (Faults .align base) ∧
      Runs x (fun c s => ready c s ∧ rangeBad (rng c) by32 = false ∧ s.acquiring c.g = false ∧ base c % align = 0 ∧ (qa c).getD 0 % 8 ≠ 0)
        (Faults .align fun c => (qa c).getD 0)
    let qa := fun (c : Ctx) => if w = 1 then some (c.kr q.toNat).toNat else none
    law (.saLdc m g ctr) 1 128 false no (fun b f n => .saLdc b f n) ∧
    law (.saLdh m g ctr) 1 4 false no (fun b f n => .saLdh b f n) ∧
    law (.saClmp m g ctr) 1 4 true no (fun b f n => .saClmp b f n) ∧
    law (.saRdc m q g ctr w) 2 2 false qa (fun b f n => .saRdc b f n) ∧
    law (.saRds m q g ctr w) 2 4 true qa (fun b f n => .saRds b f n) ∧
    (let x := fun (c : Ctx) => c.v m.toNat c.exLane
     let bad := fun (c : Ctx) => bits (x c) 0 16 = 0 ∨ bits (x c) 17 15 ≠ 0
     SaLaw (.saSwp m q ctr w) ctr [m.toNat] (fun c s => ¬ bad c ∧ ImageOk c s 2 [] (qa c)) (fun c s => ImageWalked c s 2 [] (qa c)) qa
       (fun c => .saSwp (bits (x c) 0 16) ((x c).getLsbD 16)) ∧
     Runs (.saSwp m q ctr w) (fun c s => SaReady c s ∧ c.ExOk m.toNat ∧ bad c) illegal ∧
     Runs (.saSwp m q ctr w) (fun c s => SaReady c s ∧ c.ExOk m.toNat ∧ ¬ bad c ∧ (qa c).getD 0 % 8 ≠ 0) (Faults .align fun c => (qa c).getD 0))) ∧
  (∀ (m : BitVec 6) (p : BitVec 3) (ctr : BitVec 4),
    let x := fun (c : Ctx) => c.v m.toNat c.exLane
    let gated := fun (c : Ctx) (s : State) => ghostUnb (x c) = false ∧
      (s.partOf (ghostCore (x c)) ≠ c.part ∨ s.passes c.part c.core (ghostCore (x c)) = false)
    SaLaw (.saUncl m ctr) ctr [m.toNat] (fun c _ => rangeBad (x c) true = false) here no (fun c => .saUncl (rangeFirst (x c)) (rangeCnt (x c))) ∧
    Runs (.saUncl m ctr) (fun c s => SaReady c s ∧ c.ExOk m.toNat ∧ rangeBad (x c) true = true) illegal ∧
    SaLaw (.saGhost m p ctr) ctr [m.toNat] (fun c s => ghostBad (x c) = false ∧ ¬ gated c s) here no (fun c => .saGhost (x c) p.toNat) ∧
    Runs (.saGhost m p ctr) (fun c s => SaReady c s ∧ c.ExOk m.toNat ∧ ghostBad (x c) = true) illegal ∧
    Runs (.saGhost m p ctr) (fun c s => SaReady c s ∧ c.ExOk m.toNat ∧ ghostBad (x c) = false ∧ gated c s) (fun c s t =>
      Raises .gate (Cause.rank .gate) Ctx.exMask c (s.gateRec c.part c.vf c.core c.wg.slot c.lg.lgn s.pk.idx.toNat (x c).toNat true) t)) ∧
  (∀ ctr : BitVec 4, SaLaw (.saClr ctr) ctr [] (fun _ _ => True) here no (fun _ => .saClr)) ∧
  (∀ (d th : BitVec 6) (ctr : BitVec 4),
    let now := fun (c : Ctx) (s : State) => c.em ≠ 0 ∧ s.arrForeign c.core c.bank = false ∧ s.holdsArr c.core c.lg.wg = true
    Runs (.saMon d ctr) now (fun c s t => ∃ u, PairEff d.toNat (fun c s _ => (s.core c.core).mon.word) c s u ∧ t = u.addCtr c.g ctr.toNat 1) ∧
    Runs (.saStat d ctr) now (fun c s t => ∃ u, PairEff d.toNat (fun c s _ => (s.core c.core).saStatus) c s u ∧ t = u.addCtr c.g ctr.toNat 1) ∧
    SaGate (.saMon d ctr) ctr false [] ∧ SaGate (.saStat d ctr) ctr false [] ∧
    SaLaw (.saMonW d th ctr) ctr [th.toNat] (fun c _ => bits (c.v th.toNat c.exLane) 16 16 = 0) here no
      (fun c => .saMonW (bits (c.v th.toNat c.exLane) 0 16) d.toNat) ∧
    Runs (.saMonW d th ctr) (fun c s => SaReady c s ∧ c.ExOk th.toNat ∧ bits (c.v th.toNat c.exLane) 16 16 ≠ 0) illegal)

/-- With earlier accesses performed and room in the queue, a tensor copy of a valid shape, a bus send to receivers in the launch rectangle and a rendezvous send of a valid word become commands whose engine is to take ownership of the lines, and nothing else changes; in staged mode the workgroup first reaches a forced commit point. Until then the word is held; a word that its rule refuses is illegal, an address or completion counter out of alignment raises align. Completion: exec answers a next state, with the effects stated, under conditions on the state and operands alone, for tcLd, tcSt, tcMcast, busA, busB, rvSend. (R365, R366, R367, R368, R369, R370, R372, R117) -/
def Obligations.EngineWords : Prop :=
  let illegal := Raises .illegal 6 Ctx.exMask
  let align := Raises .align (Cause.rank .align) Ctx.exMask
  (∀ (r o tt : BitVec 5) (ctr : BitVec 4) (q : BitVec 1),
    let sh := fun (c : Ctx) => [c.kr r.toNat, c.kr (r.toNat + 1), c.kr (r.toNat + 2), c.kr (r.toNat + 3)]
    let org := fun (c : Ctx) => c.kr o.toNat
    let buf := fun (c : Ctx) => (c.kr (o.toNat + 1)).toNat
    let qa := fun (c : Ctx) => if q = 1 then some (c.kr tt.toNat).toNat else none
    let copy := fun (i : Instr) (store : Bool) (more : Ctx → State → Bool) (body : Ctx → CmdBody) =>
      let good := fun (c : Ctx) (s : State) => badShape (sh c) = false ∧ tcOverlap store (sh c) (org c) (buf c) = false ∧ more c s = false
      let al := fun (c : Ctx) => shBase (sh c) % shE (sh c) = 0 ∧ buf c % shE (sh c) = 0
      EngineLaw i ctr (fun c s => good c s ∧ al c) qa true body ∧ Runs i (fun c s => ¬ good c s) illegal ∧
      Runs i (fun c s => good c s ∧ ¬ al c) align
    copy (.tcLd r o tt ctr q) false (fun _ _ => false) (fun c => .tcLd (sh c) (org c) (buf c)) ∧
    copy (.tcSt r o tt ctr q) true (fun _ _ => false) (fun c => .tcSt (sh c) (org c) (buf c)) ∧
    copy (.tcMcast r o tt ctr q) false (fun c s => s.badMembers c (c.kr (o.toNat + 2)))
      (fun c => .tcMcast (sh c) (org c) (buf c) (c.kr (o.toNat + 2))) ∧
    let bus := fun (i : Instr) (col : Bool) =>
      let w := fun (c : Ctx) => c.kr (o.toNat + 1)
      let good := fun (c : Ctx) => bits (w c) 16 48 = 0 ∧ bits (w c) 0 12 ≠ 0 ∧ (col = true → bits (w c) 4 8 = 0) ∧
        ∀ d ∈ busCores c.core col (bits (w c) 0 12), d ≠ c.core ∧ c.la.inRect d = true
      EngineLaw i ctr (fun c _ => good c ∧ recCause (c.kr o.toNat) = .none ∧ (c.kr r.toNat).toNat % 128 = 0) qa true
        (fun c => .bus col (c.kr r.toNat).toNat (c.kr o.toNat) (bits (w c) 0 12) (bits (w c) 12 4)) ∧
      Runs i (fun c _ => ¬ good c ∨ recCause (c.kr o.toNat) = .illegal) illegal ∧
      Runs i (fun c _ => good c ∧ recCause (c.kr o.toNat) = .fmt) (Raises .fmt (Cause.rank .fmt) Ctx.exMask) ∧
      Runs i (fun c _ => good c ∧ recCause (c.kr o.toNat) = .none ∧ (c.kr r.toNat).toNat % 128 ≠ 0) align
    bus (.busA r o tt ctr q) false ∧ bus (.busB r o tt ctr q) true) ∧
  (∀ (r o tt : BitVec 5) (ctr : BitVec 4),
    let w := fun (c : Ctx) => c.kr r.toNat
    let good := fun (c : Ctx) => bits (w c) 32 32 = 0 ∧ bits (w c) 28 2 ≠ 3 ∧ bits (w c) 30 2 ≠ 3
    let al := fun (c : Ctx) => (c.kr o.toNat).toNat % 128 = 0 ∧ (c.kr (o.toNat + 1)).toNat % 128 = 0
    EngineLaw (.rvSend r o tt ctr) ctr (fun c _ => good c ∧ al c) (fun c => some (c.kr tt.toNat).toNat) false
      (fun c => .rvSend (w c) (c.kr o.toNat).toNat (c.kr (o.toNat + 1)).toNat) ∧
    Runs (.rvSend r o tt ctr) (fun c _ => ¬ good c) illegal ∧ Runs (.rvSend r o tt ctr) (fun c _ => good c ∧ ¬ al c) align)

/-- rv.talloc gives the lowest free tag of the partition while fewer than 4096 are allocated; rv.tfree frees a tag; rv.stat reads its state; am.send, with nothing outstanding, answers 1 and puts the message on its way or posts the refusal; without a permit of the first link a handler does not send and answers 0, any other lane group waits; am.reg registers or removes a handler and answers the outcome. An acquire holds each of them; a word with reserved bits is illegal, an unowned register raises kown, an unallocated tag raises tag. Completion: exec answers a next state, with the effects stated, under conditions on the state and operands alone, for rvTalloc, rvTfree, rvStat, amSend, amReg. (R228, R230, R231, R371, R373, R374, R123) -/
def Obligations.TagAndMessageWords : Prop :=
  let illegal := Raises .illegal 6 Ctx.exMask
  let kown := Raises .kown (Cause.rank .kown) Ctx.exMask
  (∀ (r : BitVec 5) (p : BitVec 3),
    let used := fun (c : Ctx) (s : State) => ((s.part c.part).tags.filter fun x => !x.2.freed).length
    Runs (.rvTalloc r p) (fun c s => c.owns r.toNat = true ∧ s.acquiring c.g = false ∧ used c s < 4096) (fun c s t =>
      let n := Tab.gap 0 (s.part c.part).tags
      ∃ u v, u = s.modPart c.part (fun x => { x with tags := x.tags.put n ⟨c.wg.launch, false⟩ }) ∧
        KEff r.toNat (fun _ => BitVec.ofNat 64 n) c u v ∧ PredEff (fun _ => 0xFFFFFFFF) p.toNat (fun _ => 0xFFFFFFFF) c v t ∧
        (t.part c.part).tags.find n = some ⟨c.wg.launch, false⟩ ∧ t.mem = s.mem) ∧
    Runs (.rvTalloc r p) (fun c s => c.owns r.toNat = true ∧ s.acquiring c.g = false ∧ 4096 ≤ used c s)
      (PredEff (fun _ => 0xFFFFFFFF) p.toNat fun _ => 0) ∧
    Runs (.rvTalloc r p) (fun c s => c.owns r.toNat = true ∧ s.acquiring c.g = true) Held ∧
    Runs (.rvTalloc r p) (fun c _ => c.owns r.toNat = false) kown) ∧
  (∀ r : BitVec 5,
    let tag := fun (c : Ctx) => bits (c.kr r.toNat) 0 24
    (∀ own, Runs (.rvTfree r) (fun c s => bits (c.kr r.toNat) 24 40 = 0 ∧ s.tagOwner c.part (tag c) true = some own ∧ s.acquiring c.g = false)
      (fun c s t => (∀ x, (t.part own).tags.find (tag c) = some x → x.freed = true) ∧
        (∀ n, n ≠ tag c → (t.part own).tags.find n = (s.part own).tags.find n) ∧ (∀ n, n ≠ own → t.part n = s.part n) ∧
        t = { s with parts := t.parts })) ∧
    Runs (.rvTfree r) (fun c s => bits (c.kr r.toNat) 24 40 = 0 ∧ (s.tagOwner c.part (tag c) true).isSome = true ∧ s.acquiring c.g = true) Held ∧
    Runs (.rvTfree r) (fun c _ => bits (c.kr r.toNat) 24 40 ≠ 0) illegal ∧
    Runs (.rvTfree r) (fun c s => bits (c.kr r.toNat) 24 40 = 0 ∧ s.tagOwner c.part (tag c) true = none)
      (Raises .tag (Cause.rank .tag) Ctx.exMask)) ∧
  (∀ r d : BitVec 5,
    let tag := fun (c : Ctx) => bits (c.kr r.toNat) 0 24
    Runs (.rvStat r d) (fun c s => c.owns d.toNat = true ∧ s.acquiring c.g = false) (fun c s t =>
      let own := ((s.tagOwner c.part (tag c) true) <|> (s.tagOwner c.part (tag c) false)).getD c.part
      KEff d.toNat (fun c => BitVec.ofNat 64 (if bits (c.kr r.toNat) 24 40 ≠ 0 then 0 else s.tagState own (tag c))) c s t) ∧
    Runs (.rvStat r d) (fun c s => c.owns d.toNat = true ∧ s.acquiring c.g = true) Held ∧
    Runs (.rvStat r d) (fun c _ => c.owns d.toNat = false) kown) ∧
  (∀ (r v : BitVec 5) (p : BitVec 3) (ctr : BitVec 4),
    let w := fun (c : Ctx) => c.kr r.toNat
    let dst := fun (c : Ctx) => coreAt (bits (w c) 0 5) (bits (w c) 5 3)
    let good := fun (c : Ctx) => bits (w c) 29 35 = 0 ∧ bits (w c) 0 5 ≤ 23 ∧ bits (w c) 21 8 ≤ 128 ∧
      ((w c).getLsbD 8 = true ∨ (bits (w c) 9 12 < c.la.hcnt ∧ c.la.inRect (dst c) = true))
    let ok := fun (c : Ctx) (s : State) => good c ∧ c.payloadF v.toNat (bits (w c) 21 8) = [] ∧ s.quiet c.g = true ∧
      s.acquiring c.g = false ∧ CommitOk c s
    let ans := fun (c : Ctx) (s : State) => (Committed c s).handlerOf c (dst c) ((w c).getLsbD 8) (bits (w c) 9 12)
    let msg := fun (c : Ctx) (s : State) => ({ src := c.core, dst := dst c, launch := c.wg.launch, reg := (w c).getLsbD 8, hidx := bits (w c) 9 12
                                               len := bits (w c) 21 8, cmd := (Committed c s).nseq, data := c.payload v.toNat (bits (w c) 21 8)
                                               pts := ((Committed c s).core c.core).pts, entry := (ans c s).1.2, owner := (ans c s).1.1 } : Msg)
    let room := fun (c : Ctx) (s : State) =>
      { Committed c s with msgs := (Committed c s).msgs.put (Committed c s).nseq (msg c s) }.canSend (.amArrive (Committed c s).nseq)
        (.core c.core) (.core (dst c)) .am
    Runs (.amSend r v p ctr) (fun c s => ok c s ∧ (ans c s).2 = .none ∧ room c s = true)
      (fun c s t => let id := (Committed c s).nseq
        ∃ l', t.lgs.find c.g = some l' ∧ PredWrite 0xFFFFFFFF p.toNat 0xFFFFFFFF ((Committed c s).lgs.find c.g |>.getD c.lg) l' ∧
        t.msgs.find id = some (msg c s) ∧ Queued (some ctr.toNat) (.amSend id) c t id ∧ t.onWay (fun e => e == .amArrive id) = true ∧
        t = { Committed c s with lgs := t.lgs, msgs := t.msgs, cmds := t.cmds, nseq := t.nseq, pending := t.pending, ldirs := t.ldirs,
                                 packs := t.packs, permits := t.permits }) ∧
    Runs (.amSend r v p ctr) (fun c s => ok c s ∧ (ans c s).2 = .none ∧ c.lg.hnd = true ∧ room c s = false)
      (fun c s t => t = ((Committed c s).addCtr c.g ctr.toNat 1).modLg c.g fun l => { l with q := l.q.setD 0 p.toNat 0 }) ∧
    Runs (.amSend r v p ctr) (fun c s => ok c s ∧ (ans c s).2 = .none ∧ c.lg.hnd = false ∧ room c s = false)
      (fun c s t => t = (Committed c s).holdBack c) ∧
    Runs (.amSend r v p ctr) (fun c s => ok c s ∧ (ans c s).2 ≠ .none ∧ c.lg.status ≠ .ended)
      (fun c s t => ∃ l', t.lgs.find c.g = some l' ∧ l'.qAt p.toNat = 0xFFFFFFFF ∧ ∃ f ∈ l'.fails, f.cause = (ans c s).2 ∧ f.posted = true ∧
        f.ctr = ctr.toNat) ∧
    Runs (.amSend r v p ctr) (fun c s => good c ∧ c.payloadF v.toNat (bits (w c) 21 8) = [] ∧
      (s.quiet c.g = false ∨ s.acquiring c.g = true ∨ ¬ CommitOk c s)) Held ∧
    Runs (.amSend r v p ctr) (fun c _ => ¬ good c ∧ c.payloadF v.toNat (min (bits (w c) 21 8) 128) = []) illegal) ∧
  (∀ (r : BitVec 5) (p : BitVec 3),
    let i := fun (c : Ctx) => bits (c.kr r.toNat) 0 12
    let e := fun (c : Ctx) => bits (c.kr r.toNat) 12 8
    let remove := fun (c : Ctx) => (c.kr r.toNat).getLsbD 20
    let good := fun (c : Ctx) => bits (c.kr r.toNat) 21 43 = 0 ∧ e c < c.la.hcnt
    let old := fun (c : Ctx) (s : State) => Tab.find (s.part c.part).handlers (i c)
    let ok := fun (c : Ctx) (s : State) => (remove c = false ∧ (old c s = none ∨ old c s = some (c.wg.launch, e c))) ∨
      (remove c = true ∧ ∃ h, old c s = some h ∧ h.1 = c.wg.launch)
    Runs (.amReg r p) (fun c s => good c ∧ s.acquiring c.g = false ∧ ok c s)
      (fun c s t => Tab.find (t.part c.part).handlers (i c) = (if remove c then none else some (c.wg.launch, e c)) ∧
        (∀ n, n ≠ i c → Tab.find (t.part c.part).handlers n = Tab.find (s.part c.part).handlers n) ∧ (∀ n, n ≠ c.part → t.part n = s.part n) ∧
        PredEff (fun _ => 0xFFFFFFFF) p.toNat (fun _ => 0xFFFFFFFF) c { s with parts := t.parts } t) ∧
    Runs (.amReg r p) (fun c s => good c ∧ s.acquiring c.g = false ∧ ¬ ok c s) (PredEff (fun _ => 0xFFFFFFFF) p.toNat fun _ => 0) ∧
    Runs (.amReg r p) (fun c s => good c ∧ s.acquiring c.g = true) Held ∧
    Runs (.amReg r p) (fun c _ => ¬ good c) illegal)

/-- pipe.bind enters a new pipe with its ring, descriptor and producers, or joins one bound alike; pipe.push appends an element to a pipe that is not full; pipe.pop of an element takes the oldest, and of an ended pipe answers end-of-stream; pipe.eos withdraws a producer; a push that finds the pipe full and a pop that finds it empty, or others waiting, block, and pass once their grant has come; a name bound otherwise, a full table, an unknown pipe and an ended one raise pipe; a ring that cannot be reached raises its cause. Completion: exec answers a next state, with the effects stated, under conditions on the state and operands alone, for pipeBind, pipePush, pipePop, pipeEos. (R46, R375, R376, R123) -/
def Obligations.PipeWords : Prop :=
  let illegal := Raises .illegal 6 Ctx.exMask
  let pipe := Raises .pipe (Cause.rank .pipe) Ctx.exMask
  (∀ r : BitVec 5,
    let ring := fun (c : Ctx) => (c.kr r.toNat).toNat
    let d := fun (c : Ctx) => c.kr (r.toNat + 1)
    let name := fun (c : Ctx) => bits (d c) 0 16
    let good := fun (c : Ctx) => bits (d c) 16 3 ≤ 5 ∧ bits (d c) 19 13 = 0 ∧ peCap (d c) ≠ 0 ∧ pePcnt (d c) ≠ 0 ∧ ring c % 128 = 0
    let ps := fun (c : Ctx) => pieces (ring c) (peCap (d c) * peEsz (d c))
    let reach := fun (c : Ctx) (s : State) => s.acquiring c.g = false ∧ GransOk c s 3 (ps c) ∧
      ∀ p ∈ (Walked c s 3 (ps c)).2.vals, (Walked c s 3 (ps c)).1.sliceErr c.part p.1 true = .none
    let alike := fun (c : Ctx) (p : Pipe) => p.ring = ring c ∧ p.desc = d c ∧ p.vf = c.vf
    let taken := fun (c : Ctx) (s : State) => (s.pipe c.part (name c) = none ∧ 64 ≤ (s.part c.part).pipes.length) ∨
      ∃ n p, s.pipe c.part (name c) = some (n, p) ∧ ¬ alike c p
    Runs (.pipeBind r) (fun c s => good c ∧ reach c s ∧ s.pipe c.part (name c) = none ∧ (s.part c.part).pipes.length < 64)
      (fun c s t => ∃ n p, Tab.find (t.part c.part).pipes n = some p ∧ Tab.find (s.part c.part).pipes n = none ∧ p.name = name c ∧
        p.ring = ring c ∧ p.desc = d c ∧ p.vf = c.vf ∧ p.len = 0 ∧ p.head = 0 ∧ p.left = pePcnt (d c) ∧ p.users = [c.wg.launch] ∧
        (∀ m, m ≠ n → Tab.find (t.part c.part).pipes m = Tab.find (s.part c.part).pipes m) ∧ t = { (Walked c s 3 (ps c)).1 with parts := t.parts }) ∧
    Runs (.pipeBind r) (fun c s => good c ∧ reach c s ∧ ∃ n p, s.pipe c.part (name c) = some (n, p) ∧ alike c p)
      (fun c s t => ∃ n p, s.pipe c.part (name c) = some (n, p) ∧
        Tab.find (t.part c.part).pipes n = some { p with users := (c.wg.launch :: p.users).eraseDups } ∧
        t = { (Walked c s 3 (ps c)).1 with parts := t.parts }) ∧
    Runs (.pipeBind r) (fun c s => good c ∧ taken c s) pipe ∧
    Runs (.pipeBind r) (fun c s => good c ∧ ¬ taken c s ∧ s.acquiring c.g = true) Held ∧
    Runs (.pipeBind r) (fun c s => good c ∧ ¬ taken c s ∧ s.acquiring c.g = false ∧ GransFail c s 3 (ps c))
      (fun c s t => ∃ x : Trap, x.cause ≠ .none ∧ x.replaying = true ∧ t = (Walked c s 3 (ps c)).1.takeTrap c x 3) ∧
    Runs (.pipeBind r) (fun c _ => ¬ good c) illegal) ∧
  (∀ r v : BitVec 5,
    let name := fun (c : Ctx) => bits (c.kr r.toNat) 0 16
    (∀ (s : State) (c : Ctx) (n : Nat) (p : Pipe), s.ctx? = some c → wellFormed (.pipePush r v) = true → c.lg.grant = none →
      s.pipe c.part (name c) = some (n, p) → p.left ≠ 0 → c.payloadF v.toNat p.size = [] →
      (s.quiet c.g = false ∨ s.acquiring c.g = true ∨ ¬ CommitOk c s → exec (.pipePush r v) s = .next (s.holdBack c)) ∧
      (s.quiet c.g = true → s.acquiring c.g = false → CommitOk c s → ∀ s1 a x, (Committed c s).ringAt c p (p.head + p.len) 3 = (s1, a, x) →
        (∀ y, x = some y → Unowned s s1 → exec (.pipePush r v) s = .next (s1.takeTrap c y 3)) ∧
        (∀ b, a = some b → x = none →
          let u := s1.pushAt c.part n p b (c.payload v.toNat p.size) (s1.core c.core).pts
          (p.full = false → s1.pipeWaiters c.part (name c) true = [] → Unowned s u → exec (.pipePush r v) s = .next u) ∧
          (p.full = true ∨ s1.pipeWaiters c.part (name c) true ≠ [] → Unowned s s1 → exec (.pipePush r v) s =
            .next (s1.blockBack c (.pipePush (name c) (c.payload v.toNat p.size) s1.pk.first s1.pk.slot)))))) ∧
    Runs (.pipePush r v) (fun c _ => c.lg.grant ≠ none) (LgEff fun _ _ l => { l with grant := none }) ∧
    Runs (.pipePush r v) (fun c s => c.lg.grant = none ∧ s.pipe c.part (name c) = none ∧ c.payloadF v.toNat 0 = []) pipe ∧
    Runs (.pipePush r v) (fun c s => c.lg.grant = none ∧ ∃ n p, s.pipe c.part (name c) = some (n, p) ∧ p.left = 0 ∧ c.payloadF v.toNat p.size = []) pipe) ∧
  (∀ (part n : Nat) (s : State) (p : Pipe) (a : Nat × Nat) (data : List Byte) (pts : Nat),
    ∃ p', Tab.find ((s.pushAt part n p a data pts).part part).pipes n = some p' ∧ p'.len = p.len + 1 ∧ p'.head = p.head ∧ p'.left = p.left) ∧
  (∀ (r d : BitVec 5) (e : BitVec 3),
    let name := fun (c : Ctx) => bits (c.kr r.toNat) 0 16
    Runs (.pipePop r d e) (fun c s => c.lg.grant = none ∧ s.acquiring c.g = false ∧ s.pipeWaiters c.part (name c) false = [] ∧
        ∃ n p, s.pipe c.part (name c) = some (n, p) ∧ p.len = 0 ∧ p.left = 0)
      (fun c s t => ∃ l', t.lgs.find c.g = some l' ∧ PredWrite 0xFFFFFFFF e.toNat 0xFFFFFFFF c.lg l' ∧ t = { s with lgs := t.lgs, cores := t.cores } ∧
        (t.core c.core).pts = (s.core c.core).pts) ∧
    Runs (.pipePop r d e) (fun c s => c.lg.grant = none ∧ s.acquiring c.g = false ∧ ∃ n p, s.pipe c.part (name c) = some (n, p) ∧
        (s.pipeWaiters c.part (name c) false ≠ [] ∨ (p.len = 0 ∧ p.left ≠ 0)))
      (fun c s t => t = s.blockBack c (.pipePop (name c) s.pk.first s.pk.slot)) ∧
    Runs (.pipePop r d e) (fun c s => c.lg.grant = none ∧ s.acquiring c.g = true ∧ (s.pipe c.part (name c)).isSome = true) Held ∧
    Runs (.pipePop r d e) (fun c s => c.lg.grant = none ∧ s.pipe c.part (name c) = none) pipe ∧
    (∀ (s : State) (c : Ctx) (g : Grant), s.ctx? = some c → wellFormed (.pipePop r d e) = true → c.lg.grant = some g →
      exec (.pipePop r d e) s = .next ((s.setLg c.g { c.lg with grant := none }).popEnd { c with lg := { c.lg with grant := none } } d.toNat e.toNat g 0 (BitVec.ofNat 64 (bits (c.kr r.toNat) 0 16)))) ∧
    (∀ (s s1 : State) (c : Ctx) (n : Nat) (p : Pipe) (a : Option (Nat × Nat)) (x : Option Trap), s.ctx? = some c →
      wellFormed (.pipePop r d e) = true → c.lg.grant = none → s.acquiring c.g = false → s.pipe c.part (name c) = some (n, p) → p.len ≠ 0 →
      s.pipeWaiters c.part (name c) false = [] → s.ringAt c p p.head 1 = (s1, a, x) →
      (∀ y, x = some y → Unowned s s1 → exec (.pipePop r d e) s = .next (s1.takeTrap c y 3)) ∧
      (∀ b s2 g ts, a = some b → x = none → s1.popAt c.part n p b = (s2, g, ts) → Unowned s s2 →
        exec (.pipePop r d e) s = .next (s2.popEnd c d.toNat e.toNat g ts (BitVec.ofNat 64 (bits (c.kr r.toNat) 0 16)))))) ∧
  (∀ r : BitVec 5,
    let at_ := fun (c : Ctx) (s : State) => s.pipe c.part (bits (c.kr r.toNat) 0 16)
    Runs (.pipeEos r) (fun c s => s.acquiring c.g = false ∧ ∃ n p, at_ c s = some (n, p) ∧ p.left ≠ 0)
      (fun c s t => ∃ n p p', at_ c s = some (n, p) ∧ Tab.find (t.part c.part).pipes n = some p' ∧
        p'.left = p.left - 1 ∧ p'.len = p.len ∧ t = { s with parts := t.parts }) ∧
    Runs (.pipeEos r) (fun c s => s.acquiring c.g = true ∧ ∃ n p, at_ c s = some (n, p) ∧ p.left ≠ 0) Held ∧
    Runs (.pipeEos r) (fun c s => ∀ n p, at_ c s = some (n, p) → p.left = 0) pipe)

/-- task.spawn adds a record of its range to a pool that has room and answers 1 (an empty range adds none), a full pool answers 0; task.next gives the next block of the claimed record in an owned pair; task.done returns the record; task.spawn.l reads its packet and takes the launch that the packet describes into the program launch buffer, or answers 0 where that is full, and reports a launch that R31 refuses in the ring of the tenant; node.commit commits the staged words and adds 1 to its counter. task.spawn, task.spawn.l and node.commit are held until earlier accesses are performed, task.next and task.done until an earlier acquire is. A zero grain, a reserved bit or an unaligned entry of task.spawn, a queue that is not there of task.spawn.l, and task.next and task.done without a claimed record are illegal; a misaligned packet traps align, one that cannot be read raises its cause, and task.next into a pair that is not owned raises kown. Completion: exec answers a next state, with the effects stated, under conditions on the state and operands alone, for taskSpawn, taskSpawnL, taskNext, taskDone, nodeCommit. (R43, R44, R377, R378, R379, R380, R123) -/
def Obligations.TaskWords : Prop :=
  let illegal := Raises .illegal 6 Ctx.exMask
  (∀ (r g : BitVec 5) (p : BitVec 3),
    let lo := fun (c : Ctx) => (c.kr r.toNat).toNat
    let hi := fun (c : Ctx) => (c.kr (r.toNat + 1)).toNat
    let good := fun (c : Ctx) => bits (c.kr g.toNat) 0 32 ≠ 0 ∧ bits (c.kr g.toNat) 32 32 = 0 ∧ (c.kr (g.toNat + 1)).toNat % 128 = 0
    let ok := fun (c : Ctx) (s : State) => good c ∧ s.quiet c.g = true ∧ s.acquiring c.g = false ∧ CommitOk c s
    let full := fun (c : Ctx) (s : State) => 1024 ≤ ((Committed c s).part c.part).tasks.length
    let answers := fun (w : Word) (c : Ctx) (s t : State) => (∃ l0 l', (Committed c s).lgs.find c.g = some l0 ∧ t.lgs.find c.g = some l' ∧
        PredWrite 0xFFFFFFFF p.toNat w l0 l') ∧ (∀ h, h ≠ c.g → t.lgs.find h = (Committed c s).lgs.find h) ∧
      t = { Committed c s with lgs := t.lgs, parts := t.parts, nseq := t.nseq }
    Runs (.taskSpawn r g p) (fun c s => ok c s ∧ lo c < hi c ∧ ¬ full c s)
      (fun c s t => answers 0xFFFFFFFF c s t ∧ ∃ id x, Tab.find (t.part c.part).tasks id = some x ∧ x.launch = c.wg.launch ∧ x.cur = lo c ∧
        x.hi = hi c ∧ x.g = bits (c.kr g.toNat) 0 32 ∧ x.entry = (c.kr (g.toNat + 1)).toNat ∧ x.holder = none ∧
        ∀ n, n ≠ id → Tab.find (t.part c.part).tasks n = Tab.find ((Committed c s).part c.part).tasks n) ∧
    Runs (.taskSpawn r g p) (fun c s => ok c s ∧ hi c ≤ lo c) (fun c s t => answers 0xFFFFFFFF c s t ∧ t.parts = (Committed c s).parts) ∧
    Runs (.taskSpawn r g p) (fun c s => ok c s ∧ lo c < hi c ∧ full c s) (fun c s t => answers 0 c s t ∧ t.parts = (Committed c s).parts) ∧
    Runs (.taskSpawn r g p) (fun c s => good c ∧ (s.quiet c.g = false ∨ s.acquiring c.g = true ∨ ¬ CommitOk c s)) Held ∧
    Runs (.taskSpawn r g p) (fun c _ => ¬ good c) illegal) ∧
  (∀ (r u : BitVec 5) (p : BitVec 3),
    let va := fun (c : Ctx) => (c.kr r.toNat).toNat
    let q := fun (c : Ctx) => (c.kr u.toNat).toNat
    let good := fun (c : Ctx) (s : State) => q c < 8 ∧ q c < 2 ^ s.winBits (oVFM c.vf) 5 2
    let free := fun (c : Ctx) (s : State) => s.quiet c.g = true ∧ s.acquiring c.g = false
    let ps := fun (c : Ctx) => pieces (va c) 64
    let read := fun (c : Ctx) (s : State) =>
      let x := Walked c s 1 (ps c)
      let u1 := Committed c x.1
      State.readPieces { c.cmd u1 none .commit with gran := x.2 } 0 (ps c) (u1, {})
    let ok := fun (c : Ctx) (s : State) => good c s ∧ va c % 64 = 0 ∧ free c s ∧ GransOk c s 1 (ps c) ∧ CommitOk c (Walked c s 1 (ps c)).1 ∧
      Unowned s (read c s).1
    let l := fun (c : Ctx) (s : State) => Spawned c (q c) (read c s).2.bytes (read c s).1
    let more := fun (c : Ctx) (s : State) => { (read c s).1 with nseq := (read c s).1.nseq + 1 }
    let room := fun (c : Ctx) (s : State) => ok c s ∧ (read c s).2.errs = [] ∧ ((read c s).1.part c.part).plb.length < 64
    let answers := fun (w : Word) (u : State) (c : Ctx) (t : State) => ∃ l0 l', u.lgs.find c.g = some l0 ∧ t.lgs.find c.g = some l' ∧
      PredWrite 0xFFFFFFFF p.toNat w l0 l' ∧ ∀ h, h ≠ c.g → t.lgs.find h = u.lgs.find h
    Runs (.taskSpawnL r u p) (fun c s => room c s ∧ (more c s).badLaunch (read c s).1.nseq (l c s) = false ∧ (l c s).gang = false)
      (fun c s t => answers 0xFFFFFFFF (read c s).1 c t ∧ t.launches.find (read c s).1.nseq = some (l c s) ∧
        (t.part c.part).plb = ((read c s).1.part c.part).plb ++ [(read c s).1.nseq] ∧
        (∀ n, n ≠ (read c s).1.nseq → t.launches.find n = (read c s).1.launches.find n) ∧
        t = { more c s with lgs := t.lgs, launches := t.launches, parts := t.parts }) ∧
    Runs (.taskSpawnL r u p) (fun c s => room c s ∧ (more c s).badLaunch (read c s).1.nseq (l c s) = true ∧
        (read c s).1.launches.find (read c s).1.nseq = none)
      (fun c s t => t = ((more c s).rejectRec (l c s) .illegal).modLg c.g fun x => x.setQ p.toNat 0xFFFFFFFF) ∧
    Runs (.taskSpawnL r u p) (fun c s => room c s ∧ (l c s).gang = true) (fun c s t => ∃ l', t.lgs.find c.g = some l' ∧
      l'.qAt p.toNat = 0xFFFFFFFF) ∧
    Runs (.taskSpawnL r u p) (fun c s => ok c s ∧ (read c s).2.errs = [] ∧ 64 ≤ ((read c s).1.part c.part).plb.length)
      (fun c s t => ∃ l0 l', (read c s).1.lgs.find c.g = some l0 ∧ t = (read c s).1.setLg c.g l' ∧ PredWrite 0xFFFFFFFF p.toNat 0 l0 l') ∧
    Runs (.taskSpawnL r u p) (fun c s => ok c s ∧ (worst (read c s).2.errs).1 ≠ .none) (fun c s t =>
      let k := (worst (read c s).2.errs).1
      t = (read c s).1.raiseR c (if k = .deferred ∧ (read c s).2.pois ≠ [] then .poison else k) c.exMask) ∧
    Runs (.taskSpawnL r u p) (fun c s => good c s ∧ va c % 64 = 0 ∧ ¬ free c s) Held ∧
    Runs (.taskSpawnL r u p) (fun c s => good c s ∧ va c % 64 ≠ 0) (Faults .align va) ∧
    Runs (.taskSpawnL r u p) (fun c s => ¬ good c s) illegal) ∧
  (∀ d : BitVec 5,
    let mine := fun (c : Ctx) => c.owns d.toNat = true ∧ c.owns (d.toNat + 1) = true
    (∀ k x, Runs (.taskNext d) (fun c s => mine c ∧ s.acquiring c.g = false ∧ c.lg.task = some k ∧ Tab.find (s.part c.part).tasks k = some x)
      (fun c s t => ∃ u v, u = s.modPart c.part (fun y => { y with tasks := y.tasks.put k { x with cur := min (x.cur + x.g) x.hi } }) ∧
        KEff d.toNat (fun _ => BitVec.ofNat 64 x.cur) c u v ∧
        (∃ w', t.wgs.find c.lg.wg = some w' ∧ w'.kAt d.toNat = BitVec.ofNat 64 x.cur ∧
          w'.kAt (d.toNat + 1) = BitVec.ofNat 64 (min (x.cur + x.g) x.hi) ∧ w' = { c.wg with k := w'.k } ∧
          ∀ m, m ≠ d.toNat → m ≠ d.toNat + 1 → w'.kAt m = c.wg.kAt m) ∧
        (∀ w, w ≠ c.lg.wg → t.wgs.find w = s.wgs.find w) ∧
        (∀ h, (t.lgs.find h).map (fun l => { l with kv := [] }) = (s.lgs.find h).map (fun l => { l with kv := [] })) ∧
        t = { u with wgs := t.wgs, lgs := t.lgs })) ∧
    Runs (.taskNext d) (fun c s => mine c ∧ s.acquiring c.g = true ∧ c.lg.task.isSome = true) Held ∧
    Runs (.taskNext d) (fun c _ => c.lg.task = none) illegal ∧
    Runs (.taskNext d) (fun c _ => ¬ mine c ∧ c.lg.task.isSome = true) (Raises .kown (Cause.rank .kown) Ctx.exMask)) ∧
  (∀ k x, Runs .taskDone (fun c s => c.lg.task = some k ∧ s.acquiring c.g = false ∧ Tab.find (s.part c.part).tasks k = some x) (fun c s t =>
    (∃ l', t.lgs.find c.g = some l' ∧ l' = { c.lg with task := none }) ∧ (∀ h, h ≠ c.g → t.lgs.find h = s.lgs.find h) ∧
    Tab.find (t.part c.part).tasks k = (if x.cur < x.hi then some { x with holder := none } else none) ∧
    (∀ n, n ≠ k → Tab.find (t.part c.part).tasks n = Tab.find (s.part c.part).tasks n) ∧ t = { s with lgs := t.lgs, parts := t.parts })) ∧
  Runs .taskDone (fun c s => c.lg.task.isSome = true ∧ s.acquiring c.g = true) Held ∧
  Runs .taskDone (fun c _ => c.lg.task = none) illegal ∧
  (∀ ctr : BitVec 4,
    Runs (.nodeCommit ctr) (fun c s => s.quiet c.g = true ∧ s.acquiring c.g = false ∧ CommitOk c s)
      (fun c s t => t = (if c.la.staged = true then s.commitStaged c.lg.wg else s).addCtr c.g ctr.toNat 1) ∧
    Runs (.nodeCommit ctr) (fun c s => s.quiet c.g = false ∨ s.acquiring c.g = true ∨ ¬ CommitOk c s) Held)

/-- trap enters the supervisor handler with cause 0, its code as the address, the successor to resume at and an empty fault mask, or without a handler stops the lane group; sysret leaves the handler: with a fault mask and an unchanged resume address it replays the faulting word in those lanes, else the packet at cr.resume runs in full; outside the handler it is illegal; bkpt stops at a breakpoint where the debugger enables it, else passes. Completion: exec answers a next state, with the effects stated, under conditions on the state and operands alone, for trap, bkpt, sysret. (R384, R416, R417, R145, R382, R404) -/
def Obligations.TrapAndReturn : Prop :=
  (∀ i : BitVec 8,
    Runs (.trap i) (fun c _ => c.la.svh ≠ 0 ∧ c.lg.sup = false) (fun c s t => ∃ l', t = s.setLg c.g l' ∧ l'.sup = true ∧
      l'.tcause = BitVec.ofNat 11 (s.pk.slot % 4 * 256 + (if s.pk.first = s.pk.idx then 0 else 1024)) ∧ l'.tva = i.setWidth 64 ∧
      l'.fpc = s.pk.idx ∧ l'.resume = s.pk.succ ∧ l'.fm = 0 ∧ l'.em = c.lg.em ∧ l'.savedEm = c.em ∧ l'.pc = linePacket c.la.svh ∧
      l'.v = c.lg.v ∧ l'.q = c.lg.q ∧ l'.c = c.lg.c ∧ l'.path = c.lg.path ∧ l'.lk = c.lg.lk) ∧
    Runs (.trap i) (fun c _ => c.la.svh = 0 ∨ c.lg.sup = true) (fun c s t => ∃ l', t.lgs.find c.g = some l' ∧ l'.status = .stopped .none ∧
      l'.fpc = s.pk.idx ∧ l'.tva = i.setWidth 64 ∧ ∃ la', t.launches.find c.wg.launch = some la' ∧ la'.faulted = true) ∧
    Runs (.bkpt i) (fun c s => (s.win' (oBKE (c.vf / 64))).getLsbD (c.vf % 64) = true) (fun c s t => ∃ l', t = s.setLg c.g l' ∧
      l'.status = .bkpt ∧ l'.fpc = s.pk.idx ∧ l'.tva = i.setWidth 64 ∧ l'.resume = s.pk.succ ∧ l'.em = c.lg.em ∧ l'.v = c.lg.v) ∧
    Runs (.bkpt i) (fun c s => (s.win' (oBKE (c.vf / 64))).getLsbD (c.vf % 64) = false) NoEff) ∧
  Runs .sysret (fun c s => c.lg.sup = true ∧ s.handlerBusy c = false ∧ c.lg.fm ≠ 0 ∧ c.lg.resume = c.lg.fpc) (fun c s t => ∃ l', t = s.setLg c.g l' ∧
    l'.sup = false ∧ l'.em = c.lg.savedEm ∧ l'.fm = 0 ∧ l'.pc = c.lg.resume ∧ l'.v = c.lg.v ∧ l'.q = c.lg.q ∧
    (∃ r, l'.replay = some r ∧ r.slot = bits c.lg.tcause 8 2 ∧ r.lanes = c.lg.fm ∧ r.next = c.lg.replayNext)) ∧
  Runs .sysret (fun c s => c.lg.sup = true ∧ s.handlerBusy c = false ∧ (c.lg.fm = 0 ∨ c.lg.resume ≠ c.lg.fpc)) (fun c _ t => ∃ l',
    t.lgs.find c.g = some l' ∧ l'.sup = false ∧ l'.em = c.lg.savedEm ∧ l'.fm = 0 ∧ l'.pc = c.lg.resume ∧ l'.replay = none) ∧
  Runs .sysret (fun c s => c.lg.sup = true ∧ s.handlerBusy c = true) Held ∧
  Runs .sysret (fun c _ => c.lg.sup = false) (Raises .illegal 6 Ctx.em)

/-- A cause raised by a lane group whose launch has a handler, outside the handler, that is no second-stage fault and no poison of a node: cr.tcause, cr.tva (57 bits), cr.fpc, cr.resume and fm take the trap record, the active mask is saved and becomes fm (lane 0 where fm is empty), the lane group enters the supervisor handler at its first packet; its registers, predicates, counters, paths and memory stand, and so does the rest of the machine. (R413, R416, R77, R72, R143) -/
def Obligations.TakingAnException : Prop :=
  ∀ (s : State) (c : Ctx) (x : Trap) (kind : Nat), s.ctx? = some c → x.cause ≠ .xlatS2 → ¬ (c.la.node = true ∧ (x.cause = .poison ∨ x.cause = .deferred)) →
    c.la.svh ≠ 0 → c.lg.sup = false →
    ∃ l', (s.takeTrap c x kind).lgs = s.lgs.put c.g l' ∧
      l'.tcause = BitVec.ofNat 11 (x.cause.code + x.slot % 4 * 256 + (if x.run then 1024 else 0)) ∧ l'.fpc = x.fpc ∧ l'.resume = x.resume ∧
      l'.tva = x.tva &&& 0x1FFFFFFFFFFFFFF#64 ∧ l'.fm = x.fm ∧ l'.em = (if x.fm = 0 then 1 else x.fm) ∧ l'.savedEm = c.lg.em ∧
      l'.sup = true ∧ l'.pc = linePacket c.la.svh ∧ l'.status = c.lg.status ∧
      l'.v = c.lg.v ∧ l'.q = c.lg.q ∧ l'.c = c.lg.c ∧ l'.path = c.lg.path ∧ l'.lk = c.lg.lk ∧ l'.fflags = c.lg.fflags ∧
      s.takeTrap c x kind = { s with lgs := s.lgs.put c.g l', pk := (s.takeTrap c x kind).pk }

/-- A cause other than a first touch or second-stage fault, raised where the launch has no handler or inside the handler, outside a node for poison: the trap record is written, the lane group is stopped with the cause, and its launch is faulted, keeping the first cause. (R404, R406, R415) -/
def Obligations.NoHandlerStops : Prop :=
  ∀ (s : State) (c : Ctx) (x : Trap) (kind : Nat), s.ctx? = some c → x.cause ≠ .xlatS2 → x.cause ≠ .xlatFt →
    ¬ (c.la.node = true ∧ (x.cause = .poison ∨ x.cause = .deferred)) → (c.la.svh = 0 ∨ c.lg.sup = true) →
    ∃ l' la', (s.takeTrap c x kind).lgs.find c.g = some l' ∧ l'.status = .stopped x.cause ∧
      l'.tcause = BitVec.ofNat 11 (x.cause.code + x.slot % 4 * 256 + (if x.run then 1024 else 0)) ∧ l'.fpc = x.fpc ∧ l'.fm = x.fm ∧
      l'.sup = c.lg.sup ∧ l'.em = c.lg.em ∧ l'.v = c.lg.v ∧
      (s.takeTrap c x kind).launches.find c.wg.launch = some la' ∧ la'.faulted = true ∧
      la'.faultCause = if c.la.faulted then c.la.faultCause else x.cause

/-- A first touch that no handler takes posts a page request for its pool and parks the lane group at the faulting packet; a second-stage fault parks it until the hypervisor resumes or aborts it, and leaves its trap registers. (R143, R147, R415, R430) -/
def Obligations.PageFaultParks : Prop :=
  ∀ (s : State) (c : Ctx) (x : Trap) (kind : Nat), s.ctx? = some c →
    (x.cause = .xlatFt → (c.la.svh = 0 ∨ c.lg.sup = true) → ∃ l' rq y, (s.takeTrap c x kind).lgs.find c.g = some l' ∧
      l'.status = .parkedPage rq ∧ l'.pc = x.fpc ∧ (s.takeTrap c x kind).preqs.find rq = some y ∧ y.vf = c.vf ∧ y.part = c.part ∧
      y.kind = kind ∧ y.by_ = .lg c.g ∧ (∀ p, x.pend = some p → y.pool = p.pool ∧ y.lvl = p.lvl ∧ y.va = p.va)) ∧
    (x.cause = .xlatS2 → ∃ l', (s.takeTrap c x kind).lgs.find c.g = some l' ∧ l'.status = .parkedS2 x.ipa ∧ l'.pc = x.fpc ∧
      l'.tcause = c.lg.tcause ∧ l'.fpc = c.lg.fpc ∧ l'.tva = c.lg.tva ∧ l'.resume = c.lg.resume ∧
      (c.part, x.ipa / 65536, Waiter.lg c.g) ∈ (s.takeTrap c x kind).s2w)

/-- cr.rd writes the register's value to the pair (or the lane's offset) in the active lanes; cr.wr writes the writable fields of the register from the executing lane's pair; the registers of the handler are illegal outside it; a bad edge mode or limit is illegal; with no active lane a uniform register is not written. Completion: exec answers a next state, with the effects stated, under conditions on the state and operands alone, for crRd, crWr. (R72, R73, R74, R75, R148, R383) -/
def Obligations.ControlRegisters : Prop :=
  (∀ (d : BitVec 6) (i : BitVec 8),
    Runs (.crRd d i) (fun _ _ => i.toNat < 5 ∨ 8 < i.toNat) (PairEff d.toNat fun c s _ =>
      match i.toNat with
      | 0x00 => BitVec.ofNat 64 c.lgs
      | 0x09 => BitVec.ofNat 64 c.kowned
      | 0x0A => c.sn.fm.setWidth 64
      | 0x0B => BitVec.ofNat 64 c.shape
      | 0x0C => c.sn.fflags.setWidth 64
      | 0x10 => c.sn.tcause.setWidth 64
      | 0x11 => c.sn.tva
      | 0x12 => c.sn.fpc
      | 0x13 => c.sn.resume
      | 0x18 => (s.pk.crs.map (·.1)).getD (BitVec.ofNat 64 (c.la.parkCnt.toNat + c.la.parkTmo.toNat * 2 ^ 16))
      | 0x20 => BitVec.ofNat 64 (s.mxgov (bhOf c.core))
      | 0x21 => (s.pk.crs.map (·.2)).getD (s.core c.core).mxchk
      | _ => BitVec.ofNat 64 ((c.idx (i.toNat - 1)).base.toNat + (c.idx (i.toNat - 1)).limit.toNat * 2 ^ 8)) ∧
    Runs (.crRd d i) (fun _ _ => 5 ≤ i.toNat ∧ i.toNat ≤ 8) (LaneEff 0 d.toNat fun c j =>
      (Tab.getD c.sn.xo 0 (32 * (i.toNat - 5) + j)).setWidth 32)) ∧
  (∀ (a : BitVec 6) (i : BitVec 8),
    let x := fun (c : Ctx) => BitVec.ofNat 64 ((c.v a.toNat c.exLane).toNat + (c.v (a.toNat + 1) c.exLane).toNat * 2 ^ 32)
    let ok := fun (c : Ctx) => c.em ≠ 0 ∧ c.ExOk a.toNat ∧ c.ExOk (a.toNat + 1)
    Runs (.crWr a i) (fun c _ => i = 0x00 ∧ ok c ∧ bits (x c) 3 2 ≠ 3) (LgEff fun c _ l => { l with edge := BitVec.ofNat 2 (bits (x c) 3 2) }) ∧
    Runs (.crWr a i) (fun c _ => 1 ≤ i.toNat ∧ i.toNat ≤ 4 ∧ ok c ∧ bits (x c) 8 9 ≤ 256) (LgEff fun c _ l => { l with
      x := l.x.setD {} (i.toNat - 1) ⟨BitVec.ofNat 8 (bits (x c) 0 8), BitVec.ofNat 9 (bits (x c) 8 9)⟩ }) ∧
    Runs (.crWr a i) (fun c _ => 5 ≤ i.toNat ∧ i.toNat ≤ 8 ∧ c.RegOk a.toNat) (OffEff (i.toNat - 5) fun c j => (c.v a.toNat j).truncate 8) ∧
    Runs (.crWr a i) (fun c _ => i = 0x0A ∧ ok c ∧ c.sn.sup = true) (LgEff fun c _ l => { l with fm := (x c).truncate 32 }) ∧
    Runs (.crWr a i) (fun c _ => i = 0x0C ∧ ok c) (LgEff fun c _ l => { l with fflags := (x c).truncate 5 }) ∧
    Runs (.crWr a i) (fun c _ => i = 0x13 ∧ ok c ∧ c.sn.sup = true) (LgEff fun c _ l => { l with resume := x c }) ∧
    Runs (.crWr a i) (fun c _ => i = 0x18 ∧ ok c ∧ c.sn.sup = true) (fun c s t => ∃ la', t.launches.find c.wg.launch = some la' ∧
      la' = { c.la with parkCnt := BitVec.ofNat 6 (bits (x c) 0 6), parkTmo := BitVec.ofNat 16 (bits (x c) 16 16) } ∧
      t = { s with launches := t.launches }) ∧
    Runs (.crWr a i) (fun c _ => i = 0x21 ∧ ok c) (fun c s t => bits (t.core c.core).mxchk 0 24 = bits (x c) 0 24 ∧
      bits (t.core c.core).mxchk 24 40 = bits (s.core c.core).mxchk 24 40 ∧ t = { s with cores := t.cores }) ∧
    Runs (.crWr a i) (fun c _ => (i = 0x0A ∨ i = 0x13 ∨ i = 0x18) ∧ c.sn.sup = false) (Raises .illegal 6 Ctx.em) ∧
    Runs (.crWr a i) (fun c _ => i = 0x00 ∧ ok c ∧ bits (x c) 3 2 = 3) (Raises .illegal 6 Ctx.em) ∧
    Runs (.crWr a i) (fun c _ => 1 ≤ i.toNat ∧ i.toNat ≤ 4 ∧ ok c ∧ 256 < bits (x c) 8 9) (Raises .illegal 6 Ctx.em) ∧
    Runs (.crWr a i) (fun c _ => (i.toNat < 5 ∨ 8 < i.toNat) ∧ c.em = 0 ∧ (i = 0x0A ∨ i = 0x13 ∨ i = 0x18 → c.sn.sup = true)) NoEff)

/-- park posts the page request of the pending entry and parks; pool.pop answers what became of the pending entry and installs a frame of the pool; pool.give adds frames to a pool and answers how many; xlat.probe writes each lane's probe and installs nothing; tlb.inv removes the translations it names and waits for what was translated under them, a waitm under them translating again. Outside the handler, or with no pending entry, park and pool.pop are illegal, as are a refused pool word and a range that is no granule. Completion: exec answers a next state, with the effects stated, under conditions on the state and operands alone, for park, poolPop, poolGive, xlatProbe, tlbInv. (R141, R142, R144, R147, R385, R386, R387, R388) -/
def Obligations.PageWords : Prop :=
  Runs .park (fun c _ => c.lg.sup = true ∧ c.lg.pend.isSome = true ∧ c.lg.hnd = false) (fun c s t => ∃ rq l' y, t.lgs.find c.g = some l' ∧
    l' = { c.lg with status := .parkedPage rq, parkAt := s.now } ∧ t.preqs.find rq = some y ∧ y.va = c.lg.tva.toNat ∧ y.by_ = .lg c.g ∧
    t = { s with lgs := t.lgs, preqs := t.preqs }) ∧
  Runs .park (fun c _ => c.lg.sup = false ∨ c.lg.pend = none ∨ c.lg.hnd = true) (Raises .illegal 6 Ctx.em) ∧
  (∀ d : BitVec 6, Runs (.poolPop d) (fun c _ => c.lg.sup = false ∨ c.lg.pend = none) (Raises .illegal 6 Ctx.em)) ∧
  (∀ d : BitVec 6, ∀ p, Runs (.poolPop d) (fun c s => c.lg.sup = true ∧ c.lg.pend = some p ∧ Unowned s (s.popFrame c p).1) (fun c s t => ∃ l', t.lgs.find c.g = some l' ∧
    LaneWrite c.em 0 d.toNat (fun _ => BitVec.ofNat 32 (s.popFrame c p).2) c.lg l' ∧ t = { (s.popFrame c p).1 with lgs := t.lgs })) ∧
  (∀ (d : BitVec 6) (n : BitVec 5),
    let w := fun (c : Ctx) => c.kr n.toNat
    let ipa := fun (c : Ctx) => bits (w c) 16 32 * 65536
    Runs (.poolGive d n) (fun c s => bits (w c) 4 2 ≠ 3 ∧ bits (w c) 48 16 = 0 ∧ ipa c % 2 ^ frameBits (bits (w c) 4 2) = 0 ∧
        ((w c).getLsbD 6 = true ∨ ∀ q, Tab.find (s.part c.part).pools (bits (w c) 0 4) = some q → q.size = bits (w c) 4 2))
      (fun c s t => ∃ q l' add, Tab.find (t.part c.part).pools (bits (w c) 0 4) = some q ∧ q.size = bits (w c) 4 2 ∧
        (let have_ := if (w c).getLsbD 6 then [] else ((Tab.find (s.part c.part).pools (bits (w c) 0 4)).map (·.frames)).getD []
         add = min (bits (w c) 7 9 + 1) (4096 - have_.length) ∧ q.frames.length = add + have_.length ∧
         ∀ f, f ∈ q.frames ↔ f ∈ have_ ∨ ∃ i, i < add ∧ f = ipa c + i * 2 ^ frameBits (bits (w c) 4 2)) ∧
        t.lgs.find c.g = some l' ∧ LaneWrite c.em 0 d.toNat (fun _ => BitVec.ofNat 32 add) c.lg l' ∧ t = { s with lgs := t.lgs, parts := t.parts }) ∧
    Runs (.poolGive d n) (fun c s => ¬ (bits (w c) 4 2 ≠ 3 ∧ bits (w c) 48 16 = 0 ∧ ipa c % 2 ^ frameBits (bits (w c) 4 2) = 0 ∧
        ((w c).getLsbD 6 = true ∨ ∀ q, Tab.find (s.part c.part).pools (bits (w c) 0 4) = some q → q.size = bits (w c) 4 2)))
      (Raises .illegal 6 Ctx.em)) ∧
  (∀ (d : BitVec 6) (a : BitVec 8) (n : BitVec 5), Runs (.xlatProbe d a n)
      (fun c s => c.SrcOk a ∧ Unowned s (s.probeLanes c (c.kr n.toNat) a c.lanes).1) (fun c s t => ∃ l',
    let r := s.probeLanes c (c.kr n.toNat) a c.lanes
    PairWrite c.em d.toNat (fun j => Tab.getD r.2 0 j) ((r.1.lgs.find c.g).getD c.lg) l' ∧ t = r.1.modLg c.g fun _ => l')) ∧
  (∀ (n : BitVec 5) (i : BitVec 8) (s : State) (c : Ctx), s.ctx? = some c → wellFormed (.tlbInv n i) = true →
    (i ≠ 0 → (c.kr n.toNat).toNat % 65536 = 0 ∧ (c.kr n.toNat).toNat < 2 ^ 57) →
    let k := (c.kr n.toNat).toNat
    let hit := fun (e : TlbEnt) => e.part == c.part && e.vf == c.vf && (i == 0 || decide (e.va < k + i.toNat * 65536 ∧ k < e.va + 2 ^ e.bits))
    let r := s.dropTlb hit
    let at_ := fun (p f va : Nat) => p == c.part && f == c.vf && (i == 0 || decide (k ≤ va ∧ va < k + i.toNat * 65536))
    let v := r.1.under r.2 at_
    let u := r.1.rewatch r.2 at_
    (s.invs.find c.g = none → u.invDone v = true → exec (.tlbInv n i) s = .next u) ∧
    (s.invs.find c.g = none → u.invDone v = false → exec (.tlbInv n i) s = .next (({ u with invs := u.invs.put c.g v } : State).holdBack c)) ∧
    (∀ v, s.invs.find c.g = some v → exec (.tlbInv n i) s = .next (if s.invDone v then { s with invs := s.invs.del c.g } else s.holdBack c))) ∧
  (∀ (n : BitVec 5) (i : BitVec 8), Runs (.tlbInv n i) (fun c _ => i ≠ 0 ∧ ((c.kr n.toNat).toNat % 65536 ≠ 0 ∨ 2 ^ 57 ≤ (c.kr n.toNat).toNat))
    (Raises .illegal 6 Ctx.em)) ∧
  (∀ (s : State) (f : TlbEnt → Bool), (∀ c, ∀ e ∈ ((s.dropTlb f).1.core c).tlb, f e = false) ∧
    ∀ d, ∀ e ∈ Tab.getD (s.dropTlb f).1.dtlb [] d, f e = false)

/-- nop changes nothing; yield with no other ready lane group of its sub-core passes, else the lane group waits for each of them to issue once; time writes the device time in nanoseconds to the pair in the active lanes. Completion: exec answers a next state, with the effects stated, under conditions on the state and operands alone, for nop, yield, time. (R381, R382, R242) -/
def Obligations.PlainSystemWords : Prop :=
  Runs .nop (fun _ _ => True) NoEff ∧
  Runs .yield (fun c s => s.readyOn c.core c.lg.sc c.g = []) NoEff ∧
  Runs .yield (fun c s => s.readyOn c.core c.lg.sc c.g ≠ []) (LgEff fun c s l =>
    { l with status := .yielding (s.readyOn c.core c.lg.sc c.g), parkAt := s.now }) ∧
  (∀ d : BitVec 6, Runs (.time d) (fun _ _ => True) (PairEff d.toNat fun _ s _ => BitVec.ofNat 64 (s.now / 2)))

/-- cset cN, t sets the counter to the threshold and cadd adds the threshold to it modulo 2^32, whatever em holds, in one step of the machine, and nothing else changes; the threshold is the immediate, zero-extended, with a = 0, or with a = 0x60 + M and a zero immediate bits [31:0] of kM; any other a raises illegal. Completion: exec answers a next state, with the effects stated, under conditions on the state and operands alone, for cset, cadd. (R323, R316) -/
def Obligations.CounterWords : Prop :=
  ∀ (n : BitVec 4) (a i : BitVec 8),
    (wellFormed (.cset n a i) = true ↔ a = 0 ∨ (96 ≤ a.toNat ∧ a.toNat < 128 ∧ i = 0)) ∧
    (wellFormed (.cadd n a i) = true ↔ a = 0 ∨ (96 ≤ a.toNat ∧ a.toNat < 128 ∧ i = 0)) ∧
    ∀ (s : State) (c : Ctx), s.ctx? = some c →
      let t := fun (a i : BitVec 8) => if a = 0 then i.zeroExtend 32 else (c.kr (a.toNat - 96)).truncate 32
      (wellFormed (.cset n a i) = true →
        ∃ u, exec (.cset n a i) s = .next u ∧ CtrEff n.toNat (fun _ => t a i) c s u) ∧
      (wellFormed (.cadd n a i) = true →
        ∃ u, exec (.cadd n a i) s = .next u ∧ CtrEff n.toNat (fun c => c.lg.cAt n.toNat + t a i) c s u) ∧
      (wellFormed (.cset n a i) = false → exec (.cset n a i) s = .next (s.raise c .illegal)) ∧
      (wellFormed (.cadd n a i) = false → exec (.cadd n a i) s = .next (s.raise c .illegal))

/-- rdsp writes the same value to every active lane, read as it stood before the packet: em, fm, the allocation, the path-table entries in use, the lane groups of the workgroup that have not ended, or a predicate; any other selector raises illegal. Completion: exec answers a next state, with the effect stated, under conditions on the state and operands alone, for rdsp. (R299) -/
def Obligations.RdspValues : Prop :=
  ∀ (d : BitVec 6) (n : BitVec 1) (x : BitVec 5) (s : State) (c : Ctx), s.ctx? = some c →
    let val := fun (w : Word) => wellFormed (.rdsp d n x) = true →
      ∃ t, exec (.rdsp d n x) s = .next t ∧ LaneEff n d.toNat (fun _ _ => w) c s t
    (x = 0 → val c.sn.em) ∧ (x = 1 → val c.sn.fm) ∧ (x = 2 → val (BitVec.ofNat 32 c.sn.alloc)) ∧
    (x = 3 → val (BitVec.ofNat 32 c.sn.path.length)) ∧
    (x = 4 → val (BitVec.ofNat 32 ((s.lgsOf c.lg.wg).filter fun p => p.2.status != .ended).length)) ∧
    (∀ m : Nat, m < 8 → x.toNat = 8 + m → val (c.sn.qAt m)) ∧
    (5 ≤ x.toNat → ¬ (8 ≤ x.toNat ∧ x.toNat ≤ 15) → exec (.rdsp d n x) s = .next (s.raise c .illegal))

/-- When nothing else is about to happen, one lane group can issue, its next packet is fetched, valid and holds one word, which decodes to a well-formed instruction and does not wait for the issue rate of task.spawn, the step is exec of that instruction at the state with the lane group at its turn; then the packet closes: unless it was held back, the lane group is marked as issued and one cycle passes; no packet is in execution. (R70, R163, R253, R260, R262) -/
def Obligations.StepRunsTheWord : Prop :=
  ∀ (s s1 : State) (g : Nat) (c : Ctx) (l : Lg) (ln : FetchLine) (i : Instr),
    let s0 : State := { s.settle with pk := {} }
    s.agenda = [] → s0.overdue = none → s0.ripeOf [] s0.pending = [] → s0.due = [] → s0.flitMoves = [] → s0.issuable = [g] →
    s0.lgs.find g = some l → l.kv = [] → l.replay = none →
    let s2 : State := { s0.modLg g (fun l => { l with status := .ready, counting := false }) with
      cur := g, pk := { idx := l.pc, succ := l.pc, first := (l.run.map (·.first)).getD l.pc, since := some s0.nseq } }
    s2.ctx? = some c → s2.fetchLine c (lineVa l.pc) = (s1, .line ln) → s1.pk.stall = false →
    (l.landing = true → mayLand ln l.pc = true) → ln.isValid (l.pc.toNat % 10) = true →
    let p := ln.packet (l.pc.toNat % 10)
    p.hold = false → p.badFill = none → packetSlots p = [(0, some i)] → wellFormed i = true → s1.spawnWaits c p = false →
    c.chainSlot (packetWords p) false false = none →
    let sn : Lg := { c.lg with landing := false, resuming := false, fetched := (s1.lgs.find g).bind fun l => l.fetched }
    let u : State := { s1 with pk := { s1.pk with
      succ := succIn ln s1.pk.idx, before := some (sn, c.k), owners := some c.wg.kown
      crs := some (BitVec.ofNat 64 (c.la.parkCnt.toNat + c.la.parkTmo.toNat * 2 ^ 16), (s1.core c.core).mxchk) } }
    ∀ t, exec i ((u.setLg g { sn with pc := succIn ln s1.pk.idx }).atSlot 0) = .next t →
      step s = .next (((match t.pk.fate with
        | .runs => t.modLg g fun l => if l.replay.isSome then { l with run := none }
            else l.afterPacket false s1.pk.first ((packetWords p).filterMap fun q : Nat × Instr => slowWrite q.2)
        | _ => t).spawned c p).closePacket g)

/-- A frame beyond its deadline closes first; then an event of the outside world whose time has come is the next step, exec of it with no packet in execution; else the step is one of the things that can happen (a packet of a lane group that can issue, a message under way, a due event, a flit that can move, the passing of a cycle), and what has waited longest has its turn again and again. (Model choice, log entries 2, 3 and 71: how events stand in the state and how the step chooses.) (R50, R157, R212, R244, R405) -/
def Obligations.StepTakesTheEvent : Prop :=
  (∀ s : State,
    let s0 : State := { s.settle with pk := {} }
    let closes := s0.overdue.filter fun f => s0.moves (execFrameDeadline f.1 f.2.1 f.2.2)
    (∀ (f : Nat × Nat × Nat) (t : State), closes = some f → exec (.frameDeadline f.1 f.2.1 f.2.2) s0 = .next t →
      step s = .next { t with pk := {}, epoch := t.epoch + 1 }) ∧
    (∀ (n : Nat) (i : Instr) (t : State), closes = none → s0.firstOutside [] s.agenda = some (n, i) →
      encode i = none → exec i { s0 with agenda := s0.agenda.erase (n, i) } = .next t →
      step s = .next { t with pk := {}, epoch := t.epoch + 1 }) ∧
    (closes = none → s0.firstOutside [] s.agenda = none →
      let packets := s0.issuable.map fun g s => State.issue s g
      let msgs := (s0.ripeOf [] s0.pending).map fun e => eventStep e.run
      let due := s0.due.map eventStep
      let flits := s0.flitMoves.map eventStep
      (packets = [] → msgs = [] → due = [] → flits = [] → step s = .next s0.tick) ∧
      (∃ f ∈ (fun s : State => .next s.tick) :: (packets ++ msgs ++ due ++ flits), step s = f s0 ∨ step s = f s0.draw.2) ∧
      (∀ g, s0.epoch % 8 = 0 → s0.longestWaiting = some g → step s = s0.issue g) ∧
      (∀ f r, s0.epoch % 8 = 1 → msgs = f :: r → step s = f s0) ∧
      (∀ f, s0.epoch % 8 = 2 → due[s0.epoch / 8 % due.length]? = some f → step s = f s0) ∧
      (∀ f, s0.epoch % 8 = 3 → flits[s0.epoch / 8 % flits.length]? = some f → step s = f s0))) ∧
  (∀ (e : Ev) (s : State), (∃ i : Instr, encode i = none ∧ e.run s = exec i s) ∨ ∃ cs ln, e = .mcastFan cs ln)

/-- Every step from every state that answers a next state leaves no packet in execution: what a packet does, all its words and the effects of a trap among them, is done in one step. (R70, R260, R413) -/
def Obligations.NoPacketInExecution : Prop :=
  ∀ s t : State, step s = .next t → t.PacketInv

/-- At reset memory holds its canonical form and no packet is in execution. (R465, R70) -/
def Obligations.ResetInvariants : Prop :=
  State.reset.MemInv ∧ State.reset.PacketInv

/-- Of every state whose memory holds its canonical form, addresses strictly rising and no listed byte equal to what an unlisted address reads as, every step that answers a next state gives a state whose memory holds it too: equal memories stay equal data whatever the machine does. (R3, R107, R111) -/
def Obligations.StepsKeepMemoryCanonical : Prop :=
  ∀ s t : State, s.MemInv → step s = .next t → t.MemInv

/-- After reset every bulkhead is off, not locked, held in reset with its gate closed and in no partition; every partition is disabled with an empty mask and a group timeout of 20; every function is disabled, of no partition, with one queue; every matrix budget is 256; the corrected-error threshold is 16; no lane group, workgroup, launch or command exists; every core timestamp is 0; no memory byte is listed. (R13, R14, R24, R109, R171, R427, R465) -/
def Obligations.ResetValues : Prop :=
  let s := State.reset
  (∀ g, g < 12 → s.winBits (oBHC g) 0 1 = 0 ∧ s.winBits (oBHC g) 1 1 = 0 ∧ s.winBits (oBHC g) 2 1 = 1 ∧ s.winBits (oBHC g) 3 1 = 1 ∧
    s.bhSt g = 0 ∧ s.winBits (oBHC g) 7 1 = 0 ∧ s.winBits (oBHC g) 16 4 = 15) ∧
  (∀ n, n < 12 → s.partEn n = false ∧ s.partMask n = 0 ∧ s.winBits (oPART n) 13 1 = 0 ∧ s.winBits (oPART n) 16 8 = 20) ∧
  (∀ f, f < 1024 → s.vfEn f = false ∧ s.vfPart f = 15 ∧ s.winBits (oVFM f) 5 2 = 0) ∧
  (∀ g, g < 12 → s.winBits (oMXB g) 0 9 = 256) ∧ s.winBits oCET 0 16 = 16 ∧
  (∀ c, (s.core c).pts = 0) ∧ s.lgs = [] ∧ s.wgs = [] ∧ s.launches = [] ∧ s.cmds = [] ∧ s.accs = [] ∧ s.mem = []

/-- A doorbell moves the tail; a queue read takes the head packet; the distributor places what its order names; a start gives a workgroup its k registers and its lane groups their entry; completion, timeouts, resizes, faulted ends, discards and task claims have the effect their rules give. Completion: exec answers a next state, with the effects stated, under conditions on the state and operands alone, for launchDoorbell, launchQueueRead, workgroupPlace, workgroupStart, launchComplete, groupWaitTimeout, resizeRequest, faultedLaunchEnd, faultedLaunchTimeout, nodeDiscard, taskClaim. (R32, R33, R36, R41, R43, R153, R154, R241, R406, R412) -/
def Obligations.LaunchEvents : Prop :=
  (∀ vf q tail : Nat, Happens (.launchDoorbell vf q tail)
    (fun s => s.hostUp = true ∧ s.queueOn vf q = true ∧
      (tail % 2 ^ 32 + 2 ^ 32 - s.vrBits vf (oLQB q + 16) 0 32) % 2 ^ 32 ≤ qSize (s.vrBits vf (oLQB q) 0 4))
    (fun s t => t.vr vf (oLQB q + 8) = setBits (s.vr vf (oLQB q + 8)) 0 32 tail ∧
      t = { s with vfr := t.vfr, nseq := s.nseq + 1, lqt := t.lqt })) ∧
  (∀ (vf q pa kid : Nat) (s s1 s2 : State) (bs : List Byte), s.canReadQueue vf q = true →
    let head := s.vrBits vf (oLQB q + 16) 0 32
    s.ipaAddr (s.vfPart vf) vf (s.vrBits vf (oLQB q) 12 36 * 4096 + 64 * (head % qSize (s.vrBits vf (oLQB q) 0 4))) 1 = (s1, some (pa, kid)) →
    (s1.keyRange pa 64 kid).devRead pa 64 = (s2, bs, false) →
    let u := (s2.pastHead vf q).takeLaunch ((List.range 8).map fun i => BitVec.ofNat 64 (leNat ((bs.drop (8 * i)).take 8)))
      vf q head (s2.arrivalOf vf q head) (max ((s2.pastHead vf q).dirOf (pa / 128)).wts (s2.tailPts vf q head))
    exec (.launchQueueRead vf q) s = .next (if u.pk.stall = true ∧ s.pk.stall = false then s else u)) ∧
  (∀ (l : Nat) (s t0 : State) (la : Launch), s.launches.find l = some la → s.work la.part = some (.place l) →
    t0.pk.stall = s.pk.stall →
    (la.st ≠ .waiting → s.tryNext l = some t0 → exec (.workgroupPlace l) s = .next t0) ∧
    (la.st = .waiting → s.tryStart l = some t0 → ∃ t, exec (.workgroupPlace l) s = .next t ∧ t.launches = t0.launches ∧
      t.wgs = t0.wgs ∧ t.lgs = t0.lgs ∧ t.pending = t0.pending ∧ t.mem = t0.mem)) ∧
  (∀ (w : Nat) (g : Wg) (la : Launch), Arrives (.workgroupStart w) (.workgroupStart w)
    (fun s => s.wgs.find w = some g ∧ s.launches.find g.launch = some la ∧ g.st = .starting ∧ g.kind = .grid ∧ la.kinit = 0)
    (fun s t => (∃ g', t.wgs.find w = some g' ∧ g'.st = .resident ∧ ∀ n, g'.kAt n = 0) ∧
      (∀ k l, s.lgs.find k = some l → l.wg = w → t.lgs.find k = some { l with pc := linePacket g.entry, fpc := 0 }) ∧ t.mem = s.mem)) ∧
  (∀ (l : Nat) (la : Launch),
    Happens (.launchComplete l) (fun s => s.launches.find l = some la ∧ s.launchOver l = true ∧ la.ctr = 0)
      (fun s t => (∃ lb, t.launches.find l = some lb ∧ lb.st = .ended ∧ lb.reserved = false ∧ lb.counterPending = none) ∧ t.mem = s.mem) ∧
    Happens (.groupWaitTimeout l) (fun s => s.launches.find l = some la ∧ (la.st = .waiting ∨ la.st = .gang) ∧ la.cor = true ∧
        la.late = false ∧ la.since + s.gto la.part < s.now)
      (fun s t => t.launches.find l = some { la with late := true } ∧ t = { s with launches := t.launches }) ∧
    (∀ (vf : Nat) (v : BitVec 64), Happens (.resizeRequest vf v)
      (fun s => vf < 1024 ∧ s.hostUp = true ∧ (bits v 35 3 = 1 ∨ bits v 35 3 = 2 ∨ bits v 35 3 = 4) ∧ la.dmin ≤ bits v 35 3 ∧
        bits v 35 3 ≤ la.dmax ∧ s.launches.find l = some la ∧ s.launches.find? (fun p => p.2.vf == vf && p.2.st == .running && p.2.elas &&
          p.2.queue == bits v 32 3 && p.2.lnum % 2 ^ 32 == bits v 0 32) = some (l, la))
      (fun s t => t.launches.find l = some { la with resize := some (bits v 35 3) } ∧ t = { s with launches := t.launches })) ∧
    Performs (.faultedLaunchEnd l) (fun s => s.launches.find l = some la ∧ la.ending = true ∧ s.allStopped l = true)
      (fun s => s.endFaulted l la.faultCause) ∧
    Performs (.faultedLaunchTimeout l) (fun s => s.launches.find l = some la ∧ la.ending = true ∧ la.lastIssue + s.gto la.part < s.now)
      (fun s => s.endFaulted l la.faultCause) ∧
    (∀ k : Cause, Delivers (.nodeDiscard l) (.nodeDiscard l)
      (fun s => s.launches.find l = some la ∧ s.inRun l = false ∧ la.discard = some k) (fun s => s.requeue l k)) ∧
    (∀ (part core c r : Nat) (tk : Task), Happens (.taskClaim part core)
      (fun s => s.work part = some (.claim core) ∧ s.claimNext part = some (c, r) ∧ (s.part part).tasks.find r = some tk ∧
        tk.holder = none ∧ tk.launch = l ∧ s.launches.find l = some la)
      (fun s t => (∃ w, t.wgs.find s.nseq = some w ∧ w.launch = l ∧ w.kind = .task r ∧ w.core = c ∧ w.nlg = 1) ∧
        (∃ x, t.lgs.find (s.nseq + 1) = some x ∧ x.wg = s.nseq ∧ x.task = some r ∧ x.alloc = la.alloc) ∧
        (t.part part).tasks.find r = some { tk with holder := some (s.nseq + 1) } ∧ Ev.workgroupStart s.nseq ∈ t.pending)))

/-- A complete barrier starts its next generation and its lane groups may depart; a lane group whose condition holds becomes ready; ages, yields, growths, a growth deadlock and a park timeout have the effect of their rules; a message enters its queue and its handler starts; a core timestamp rises by 1. Completion: exec answers a next state, with the effects stated, under conditions on the state and operands alone, for wgBarrierComplete, spanBarrierComplete, stepBarrierComplete, laneGroupWake, laneGroupAged, yieldExpiry, registerGrowGrant, parkTimeout, fetchLineArrive, pipeDeadlock, growthDeadlock, amArrive, handlerStart, ptsTick. (R37, R38, R39, R48, R49, R53, R109, R148, R157, R162, R263, R382) -/
def Obligations.SchedulingEvents : Prop :=
  (∀ (w b : Nat) (g : Wg), Happens (.wgBarrierComplete w b) (fun s => s.wgs.find w = some g ∧ s.barFull w b = true)
    (fun s t => (∃ g', t.wgs.find w = some g' ∧ Tab.getD g'.bars {} b = { gen := (Tab.getD g.bars {} b).gen + 1 }) ∧
      (∀ k l, s.lgs.find k = some l → l.wg = w → l.status = .blocked (.barWg b) false →
        t.lgs.find k = some { l with kv := [], status := .blocked (.barWg b) true }) ∧ t.mem = s.mem)) ∧
  (∀ (l ox oy lw lh : Nat) (la : Launch), Happens (.spanBarrierComplete l ox oy lw lh)
    (fun s => s.launches.find l = some la ∧ s.spanFull l ox oy lw lh = true)
    (fun s t => t.launches.find l = some { la with spans := la.spans.del (spanKey ox oy lw lh) } ∧
      (∀ k x b d, k ∈ (Tab.getD la.spans {} (spanKey ox oy lw lh)).arrived → s.lgs.find k = some x → x.status = .blocked b d →
        t.lgs.find k = some { x with status := .blocked b true }) ∧ t.mem = s.mem)) ∧
  (∀ (l : Nat) (la : Launch), Happens (.stepBarrierComplete l)
    (fun s => s.launches.find l = some la ∧ s.stepFull l = true ∧ la.resize = none)
    (fun s t => t.launches.find l = some { la with step := {} } ∧
      (∀ k x b d, k ∈ la.step.arrived → s.lgs.find k = some x → x.status = .blocked b d →
        t.lgs.find k = some { x with status := .blocked b true }) ∧ t.mem = s.mem) ∧
    (∀ n : Nat, Performs (.stepBarrierComplete l)
      (fun s => s.launches.find l = some la ∧ s.stepFull l = true ∧ la.resize = some n ∧ la.step.flag = true ∧ la.elas = true ∧ n ≠ la.dies)
      (fun s =>
        let u := (s.modLaunch l fun x => { x with step := {} }).resize l n
        u.depart la.step.arrived (max la.step.pts (((u.launches.find l).map (·.stepPts)).getD la.stepPts))))) ∧
  (∀ (g : Nat) (l : Lg) (b : Block),
    let ready := fun (s t : State) => t.lgs.find g = some { l with status := .ready, parkAt := s.now, aged := false } ∧
      t = { s with lgs := t.lgs }
    Happens (.laneGroupWake g) (fun s => s.lgs.find g = some l ∧ l.status = .blocked b true ∧ b ≠ .barStep ∧ s.absent l.wg = false) ready ∧
    Happens (.laneGroupAged g) (fun s => s.lgs.find g = some l ∧ l.status = .ready ∧ l.aged = false ∧ s.inPlay l.wg = true ∧
        l.parkAt + 32 ≤ s.now)
      (fun s t => if ((List.range 32).all fun i => Config.ready (s.now - i) g) = true then
          t.lgs.find g = some { l with aged := true } ∧ t = { s with lgs := t.lgs } else t = s) ∧
    (∀ os : List Nat, Happens (.yieldExpiry g) (fun s => s.lgs.find g = some l ∧ l.status = .yielding os ∧ s.absent l.wg = false ∧
        (l.parkAt + 32 ≤ s.now ∨ os = [])) ready) ∧
    (∀ (core sc n : Nat) (r : List (Nat × Lg × Nat)), Happens (.registerGrowGrant core sc)
      (fun s => s.growers core sc = (g, l, n) :: r ∧ s.lgs.find g = some l ∧ n - l.regs ≤ s.freeRegs core (s.core core).act sc)
      (fun s t => t.lgs.find g = some { l with grown := some n, status := .blocked (.rgrow n 0 0) true } ∧ t = { s with lgs := t.lgs })) ∧
    (∀ w : Wg, Happens (.parkTimeout g) (fun s => s.lgs.find g = some l ∧ s.canTimeout g = true ∧ s.wgs.find l.wg = some w)
      (fun s t => t.wgs.find l.wg = some { w with st := .leaving, spill := s.freeSpill (s.wgVf l.wg) } ∧ t = { s with wgs := t.wgs })) ∧
    (∀ (s s1 : State) (c : Ctx) (ln : FetchLine), ({ s with cur := g, pk := { s.pk with before := none } } : State).ctx? = some c →
      c.lg.status = .ready → c.wg.st = .resident → (c.lg.fetched.map (·.1)) ≠ some (lineVa c.lg.pc) →
      s.fetchLine c (lineVa c.lg.pc) = (s1, .line ln) →
      exec (.fetchLineArrive g) s = .next (if s1.pk.stall = true ∧ s.pk.stall = false then s else s1)) ∧
    (∀ (launch n slot : Nat) (first : DWord) (la : Launch) (s : State) (c : Ctx), s.deadlocked launch = true →
      s.launches.find launch = some la → (s.gangLgs launch).filter (fun p => p.2.pipeName.isSome) = [(g, l)] →
      l.pipeName = some (n, first, slot) →
      let r := s.tenantRec la.vf [recHead .pipe 13 la.part la.vf 0 0 0 0, la.recWhere, if la.gang then la.gid else n, s.time]
      let u : State := { r.makeReady g with cur := g, pk := { idx := l.pc, first := first, slot := slot } }
      u.ctx? = some c → exec (.pipeDeadlock launch) s = .next (u.raiseR c .pipe c.exMask (BitVec.ofNat 64 n)))) ∧
  (∀ (core sc w : Nat) (g : Wg), Happens (.growthDeadlock core sc)
    (fun s => s.growStuck core sc = true ∧ s.growVictim core sc = some w ∧ s.canSwapOut w = true ∧ s.wgs.find w = some g)
    (fun s t => t.wgs.find w = some { g with st := .leaving, spill := s.freeSpill (s.wgVf w) } ∧ t = { s with wgs := t.wgs })) ∧
  (∀ (id : Nat) (m : Msg),
    Arrives (.amArrive id) (.amArrive id) (fun s => s.msgs.find id = some m ∧ s.canArrive id m = true)
      (fun s t => t = (s.modCore m.dst fun k => { k with inq := k.inq ++ [id] }).endCmd m.cmd) ∧
    (∀ core : Nat, Happens (.handlerStart core) (fun s => s.nextMsg core = some id ∧ s.msgs.find id = some m)
      (fun s t => (∃ w, t.wgs.find s.nseq = some w ∧ w.launch = m.owner ∧ w.kind = .handler id ∧ w.core = core ∧ w.nlg = 1) ∧
        (∃ x, t.lgs.find (s.nseq + 1) = some x ∧ x.wg = s.nseq ∧ x.hnd = true ∧ x.alloc = 64) ∧
        (t.core core).inq = (s.core core).inq.erase id ∧ Ev.workgroupStart s.nseq ∈ t.pending))) ∧
  (∀ core : Nat, Happens (.ptsTick core) (fun s => core < 192 ∧ (s.core core).ticks < s.now / 256)
    (fun s t => t.core core = { s.core core with ticks := (s.core core).ticks + 1, pts := (s.core core).pts + 1 } ∧
      (∀ c, c ≠ core → t.core c = s.core c) ∧ t = { s with cores := t.cores }))

/-- A load binds the bytes of its home slice; a store takes its words; an atomic reads and writes its location at once and keeps its old value for the reply; a reply writes its register and adds 1 to its counter; publishes, evictions, memory reads, sweeps, timeouts and accesses from outside have the effect of their rules. Completion: exec answers a next state, with the effects stated, under conditions on the state and operands alone, for loadRequest, writeRegistration, nearAtomic, farAtomic, accessReply, forcedPublishRequest, publishArrive, l1Eviction, memoryReadComplete, sweeperRead, sliceTimeout, hostAccess, hostSnoop, remoteAccess. (R107, R110, R112, R113, R119, R122, R239, R246, R405, R421, R425, R427) -/
def Obligations.MemoryEvents : Prop :=
  (∀ (a line : Nat) (x : Access) (p : LanePart),
    let ln := line / 128
    let fits := fun (s : State) => s.accs.find a = some x ∧ x.at ln 0 = [p] ∧ x.lanes = [p] ∧ p.held = 0 ∧ p.off = 0 ∧ s.owners ln = [] ∧ (s.dirOf ln).lock = none ∧
      (s.dirOf ln).kid = p.kid ∧ s.present ln = true
    Arrives (.loadRequest a ln) (.loadRequest a line)
      (fun s => s.canLoad a ln = true ∧ fits s ∧ x.kind = .load ∧ s.sliceErr x.part line false = .none ∧ s.renews p ln = false)
      (fun s t => ((s.copies p.agent).length < 1024 → t.mem = s.mem) ∧ t.lgs = s.lgs ∧
        (∃ x', t.accs.find a = some x' ∧ ∃ q ∈ x'.lanes, q.lane = p.lane ∧ q.st = 1 ∧
        q.data = s.loaded x.wg p.agent p.pa (s.bytesAt p.pa x.size) ∧ q.wts = (s.dirOf ln).wts)) ∧
    Arrives (.writeRegistration a ln) (.writeRegistration a line)
      (fun s => s.canRegister a ln = true ∧ fits s ∧ 4 ≤ x.size ∧ s.sliceErr x.part line true = .none)
      (fun s t => ((s.copies p.agent).length < 1024 → t.mem = s.mem) ∧ (∀ i ∈ p.offs x.size, i < 32 → t.ownerOf (32 * ln + i) = some p.agent) ∧
        ∃ x', t.accs.find a = some x' ∧ ∃ q ∈ x'.lanes, q.lane = p.lane ∧ q.st = 1 ∧ q.err = .none ∧
          q.wts = max (s.dirOf ln).rts (s.core x.core).pts + 1)) ∧
  (∀ (a lane : Nat) (x : Access) (p : LanePart) (op : AtomOp) (far : Bool),
    let ln := p.pa / 128
    let ok := fun (s : State) => s.canAtomic a lane = true ∧ s.accs.find a = some x ∧ x.kind = .atomic op far ∧ x.lanes = [p] ∧
      p.lane = lane ∧ p.st = 0 ∧ s.sliceErr x.part p.pa true = .none ∧ s.owners ln = [] ∧ (s.dirOf ln).lock = none ∧
      (s.dirOf ln).kid = p.kid ∧ s.present ln = true ∧ s.poison = [] ∧ s.retired = []
    let eff := fun (s t : State) =>
      let old := leNat (s.bytesAt p.pa x.size)
      t.mem = (s.writeBytes p.pa (natLe x.size (op.new x.size old (leNat p.data) (leNat p.cmp)))).mem ∧
      ∃ x', t.accs.find a = some x' ∧ ∃ q ∈ x'.lanes, q.lane = lane ∧ q.st = 1 ∧ q.data = natLe x.size old
    Arrives (.nearAtomic a lane) (.nearAtomic a lane) ok eff ∧ Arrives (.farAtomic a lane) (.farAtomic a lane) ok eff) ∧
  (∀ (a line : Nat) (x : Access) (p : LanePart) (l : Lg), Arrives (.accessReply a (line / 128)) (.accessReply a line)
    (fun s => s.accs.find a = some x ∧ x.lanes = [p] ∧ x.at (line / 128) 1 = [p] ∧ x.kind = .load ∧ x.size = 4 ∧ x.opn = false ∧
      x.ctr < 16 ∧ p.lane < 32 ∧ p.off = 0 ∧ p.err = .none ∧ s.lgs.find x.lg = some l)
    (fun s t => t.mem = s.mem ∧ t.accs.find a = none ∧ ∃ l', t.lgs.find x.lg = some l' ∧
      (∀ r lane, lane < 32 → l'.vAt r lane = if r = x.d ∧ lane = p.lane then loadWord 4 x.sext p.data 0 else l.vAt r lane) ∧
      l'.cAt x.ctr = l.cAt x.ctr + 1 ∧ l'.boundWts = max l.boundWts p.wts)) ∧
  (∀ (a line : Nat) (cells : List (Nat × BitVec 8)) (own pois : BitVec 32),
    let ln := line / 128
    Arrives (.forcedPublishRequest a ln) (.forcedPublishRequest a line) (fun _ => True) (fun s t =>
      t = (s.givePublish a ln).send (.publishArrive a ln ((s.copy a ln).cells (s.pubMask a ln)) (s.pubMask a ln) (s.copy a ln).pois)
        (.core (s.agentCore a)) (s.homePort line) .pub 144) ∧
    Arrives (.publishArrive a ln cells own pois) (.publishArrive a line cells own pois) (fun _ => True) (fun s t =>
      t = s.takePublish a ln cells own pois ∧
      ∀ i, i < 32 → own.getLsbD i = true → s.ownerOf (32 * ln + i) = some a → t.ownerOf (32 * ln + i) = none) ∧
    Happens (.l1Eviction a line) (fun s => a < 192 ∧ (Tab.find (s.copies a) ln).isSome = true)
      (fun s t => t = s.dropCopy a ln ∧ Tab.find (t.copies a) ln = none)) ∧
  (∀ (line : Nat) (n : BitVec 2),
    let ln := line / 128
    Arrives (.memoryReadComplete ln) (.memoryReadComplete line n) (fun _ => n = 0)
      (fun s t => t = (s.keepMsc ln false).keepL2 ln false) ∧
    (∀ unit : Nat, Happens (.sweeperRead unit line n) (fun s => n = 1 ∧ unit < 64 ∧ s.sliceAsked ln = false ∧ (s.dirOf ln).inL2 = true ∧ s.homeDie line = unit / 16 ∧
        homeSlice line = unit % 16 ∧ (s.dirOf ln).strong = s.strongNow (unit / 16))
      (fun s t => t = s.setWinBits (oECS (unit / 16)) 16 16 (s.winBits (oECS (unit / 16)) 16 16 + 1))) ∧
    (∀ (a : Nat) (x : Access) (p : LanePart), Happens (.sliceTimeout a line)
      (fun s => s.accs.find a = some x ∧ x.at ln 0 = [p] ∧ x.writes = false ∧ p.held = 0 ∧ s.pending = [.loadRequest a ln] ∧ s.owners ln = [] ∧ s.present ln = false)
      (fun s t =>
        let u := ({ s with pending := [] } : State).mgrRec [recHead .deferred 15 x.part x.vf x.core (((s.wgs.find x.wg).map (·.slot)).getD 0)
          (((s.lgs.find x.lg).map (·.lgn)).getD 0) (bhOf x.core), 0, line, s.time]
        let v := match u.paKind line with
          | .cxl c => if u.owners ln = [] && (u.dirOf ln).lock.isNone && u.winBits (oCXS c) 2 1 == 0 then u.cxlLost c else u
          | _ => u
        t = v.answer a ln x [{ p with st := 1, err := .deferred }] 16))) ∧
  (∀ (vf pa : Nat) (v : BitVec 64),
    let at_ := fun (s : State) => s.canonPa (pa / 8 * 8)
    Happens (.hostAccess vf pa true v) (fun s => 1024 ≤ vf ∧ s.hostUp = true ∧ s.canReach (at_ s) = true)
      (fun s t => t = s.hostWrite (at_ s) (natLe 8 v.toNat)) ∧
    Happens (.hostAccess vf pa false v) (fun s => 1024 ≤ vf ∧ s.hostUp = true ∧ s.canReach (at_ s) = true)
      (fun s t => t = s.publishLine (at_ s / 128)) ∧
    (∀ w : Bool, Happens (.hostAccess vf pa w v) (fun s => vf < 1024 ∧ s.hostUp = true ∧ s.canReach (at_ s) = true ∧
        s.mapOk (s.vfPart vf) (at_ s) w = false)
      (fun s t => t = s.gateRec (s.vfPart vf) vf 0 0 0 0 (at_ s) true)) ∧
    Happens (.hostSnoop pa) (fun s => s.hostUp = true ∧ s.paKind pa = .host ∧ s.locked (pa / 128) = false)
      (fun s t => t = s.publishLine (pa / 128)) ∧
    (∀ (spkg spart part pts : Nat) (op : RemoteOp),
      let to_ := fun (s : State) => s.remoteAt pa op
      Happens (.remoteAccess spkg spart pa op pts)
        (fun s => s.winBits oDOM 4 1 = 1 ∧ spkg < 16 ∧ spart < 16 ∧ (∃ d, s.paKind (to_ s) = .hbm d) ∧ s.canReach (to_ s) = true ∧
          s.admission spkg spart = some part ∧ s.partEn part = true ∧ s.mapOk part (to_ s) (remoteWrites op) = true)
        (fun s t => t = s.remote (to_ s) op pts ∧
          (op = .store v → t = s.writeOuter (to_ s) (natLe 8 v.toNat) pts) ∧ (op = .load → t.mem = (s.publishLine (to_ s / 128)).mem)) ∧
      Happens (.remoteAccess spkg spart pa op pts)
        (fun s => s.winBits oDOM 4 1 = 1 ∧ spkg < 16 ∧ spart < 16 ∧ (∃ d, s.paKind (to_ s) = .hbm d) ∧ s.canReach (to_ s) = true ∧
          s.admission spkg spart = none) (fun s t => t = s.gateRec 15 0 0 0 0 0 (to_ s) false)))

/-- An invalidation removes every cached result that it names; a synchronisation notes the invalidations before it and is answered once they are done; a page request is written, and its lane group is ready once the driver answers; a second-stage answer resumes or stops its waiters. Completion: exec answers a next state, with the effects stated, under conditions on the state and operands alone, for tlbiVaRange, tlbiAsid, tlbiIpaRange, tlbiVmid, tlbiAll, tlbWalkDone, hostTlbSync, tlbSyncAnswer, pageRequestWrite, pageRequestDone, s2rResume, s2rAbort. (R140, R141, R142, R147, R431) -/
def Obligations.TranslationEvents : Prop :=
  (∀ (vmid asid : BitVec 16) (va pages : Nat),
    let gone := fun (f : State → TlbEnt → Bool) (s t : State) =>
      (∀ c, ∀ e ∈ (t.core c).tlb, f s e = false) ∧ (∀ p ∈ t.dtlb, ∀ e ∈ p.2, f s e = false) ∧ t.mem = s.mem ∧ t.nseq = s.nseq + 1 ∧
        (∀ g l, s.lgs.find g = some l → ∃ l', t.lgs.find g = some l' ∧ l' = { l with status := l'.status } ∧
          ((∀ va pa x i j k, l.status ≠ .blocked (.waitm va (some pa) x i j k) false) → l' = l))
    let up := fun (s : State) => s.hostUp = true
    Happens (.tlbiVaRange vmid asid va pages) up (gone fun s e => s.asidIs vmid asid e.part e.vf &&
      decide (e.va < va / 4096 * 4096 + 4096 * pages ∧ va / 4096 * 4096 < e.va + 2 ^ e.bits)) ∧
    Happens (.tlbiAsid vmid asid) up (gone fun s e => s.asidIs vmid asid e.part e.vf) ∧
    Happens (.tlbiIpaRange vmid va pages) up (gone fun s e => s.vmidIs vmid e.part &&
      decide (e.ipa / 2 ^ e.bits2 * 2 ^ e.bits2 < va / 4096 * 4096 + 4096 * pages ∧
        va / 4096 * 4096 < e.ipa / 2 ^ e.bits2 * 2 ^ e.bits2 + 2 ^ e.bits2)) ∧
    Happens (.tlbiVmid vmid) up (gone fun s e => s.vmidIs vmid e.part) ∧
    Happens .tlbiAll up (gone fun _ _ => true)) ∧
  (∀ core vf va : Nat, Performs (.tlbWalkDone core vf va) (fun s => core < 192 ∧ va < 2 ^ 57 ∧ s.servesOn core vf = true)
    (fun s => (s.xlate core (s.vfPart vf) vf va 0).1)) ∧
  (∀ id : Nat,
    Happens (.hostTlbSync id) (fun s => s.hostUp = true ∧ s.syncs.find id = none)
      (fun s t => t = { s with syncs := t.syncs } ∧ t.syncs.find id = some s.hostInvs) ∧
    (∀ is : List Nat, Happens (.tlbSyncAnswer id)
      (fun s => s.syncs.find id = some is ∧ ∀ i ∈ is, ∀ v, s.invs.find i = some v → s.invDone v = true)
      (fun s t => t = { s with syncs := t.syncs, invs := t.invs } ∧ t.syncs.find id = none ∧ ∀ p ∈ t.invs, p.1 ∉ is))) ∧
  (∀ (rq : Nat) (p : PageReq) (g : Nat) (l : Lg),
    (∀ (s s1 : State) (pa kid : Nat), s.canRequest rq = true → s.preqs.find rq = some p →
      s.ipaAddr p.part p.vf (s.vrBits p.vf 0x10 12 36 * 4096 + 32 * (s.vrBits p.vf 0x18 0 32 % qSize (s.vrBits p.vf 0x10 0 4))) 2 =
        (s1, some (pa, kid)) →
      let u := ((s1.keyRange pa 32 kid).devWrite pa (recBytes (p.words rq))).2.setVrBits p.vf 0x18 0 32 (s.vrBits p.vf 0x18 0 32 + 1)
      let v : State := { u with preqs := u.preqs.modify rq fun q => { q with written := true } }
      exec (.pageRequestWrite rq) s = .next (if v.pk.stall = true ∧ s.pk.stall = false then s else v)) ∧
    (∀ (vf : Nat) (n : BitVec 32), Happens (.pageRequestDone vf n)
      (fun s => s.hostUp = true ∧ s.preqs.find? (fun p => p.2.vf == vf && p.1 % 2 ^ 32 == n.toNat && p.2.written) = some (rq, p) ∧
        p.by_ = .lg g ∧ s.lgs.find g = some l ∧ l.status = .parkedPage rq ∧ s.absent l.wg = false)
      (fun s t => t.lgs.find g = some { l with status := .ready, parkAt := s.now, aged := false } ∧ t.preqs = s.preqs.del rq ∧
        t = { s with lgs := t.lgs, preqs := t.preqs })) ∧
    (∀ part ipa at_ : Nat,
      let one := fun (s : State) => s.hostUp = true ∧ s.s2w = [(part, ipa / 65536, .lg g)] ∧ s.lgs.find g = some l ∧ l.status = .parkedS2 at_
      Happens (.s2rResume part ipa) (fun s => one s ∧ s.absent l.wg = false)
        (fun s t => t.lgs.find g = some { l with status := .ready, parkAt := s.now, aged := false } ∧ t.s2w = [] ∧
          t = { s with lgs := t.lgs, s2w := t.s2w }) ∧
      Happens (.s2rAbort part ipa) one (fun s t => t = ({ s with s2w := [] } : State).stopLg g .xlatS2)))

/-- A swap-out ends with the context in its spill slot; a re-admitted workgroup is restoring on its core and then resident; a bank swap exchanges the banks; a written-out shadow bank is clean; evicted slots and arrays are free. Completion: exec answers a next state, with the effects stated, under conditions on the state and operands alone, for swapOutDone, readmit, contextRestoreDone, preemptSwapDone, swapBack, shadowWriteoutDone, slotEvictionDone, arrayEvictionDone. (R149, R151, R152, R165, R166, R167, R168) -/
def Obligations.PreemptionEvents : Prop :=
  (∀ (w : Nat) (g : Wg),
    Performs (.swapOutDone w) (fun s => s.canLeave w = true) (fun s =>
      let u := (s.writeSpill w).spillWg w
      if ((u.lgsOf w).any fun p => p.2.wouldRun) = true then
        ({ u with nseq := u.nseq + 1 } : State).modWg w fun x => { x with eligible := true, eligAt := u.nseq } else u) ∧
    (∀ (c : Nat) (la : Launch), Happens (.readmit w)
      (fun s => s.wgs.find w = some g ∧ s.launches.find g.launch = some la ∧ s.work la.part = some (.readmit w) ∧ s.readmitCore w = some c)
      (fun s t => t.wgs.find w = some { g with
        core := c, bank := (s.core c).act, slot := s.freeSlot c (s.core c).act, st := .restoring,
        eligible := false, ousted := false, placedAt := s.nseq })) ∧
    (∀ core : Nat, Happens (.contextRestoreDone core w) (fun s => s.wgs.find w = some g ∧ s.canRestore core w = true)
      (fun s t => (g.st ≠ .ended → t.wgs.find w = some { g with st := .resident, spill := none }) ∧ t.mem = s.mem))) ∧
  (∀ core : Nat,
    Happens (.preemptSwapDone core) (fun s => s.canFlip core = true) (fun s t =>
      t.core core = { s.core core with act := 1 - (s.core core).act, swapping := false, shadowClean := false } ∧ t.mem = s.mem) ∧
    Happens (.swapBack core) (fun s => s.canSwapBack core = true ∧ s.preempted core = true ∧ s.oustedOf core = [])
      (fun s t => t.core core = { s.core core with swapping := true } ∧ t = { s with cores := t.cores }) ∧
    Performs (.shadowWriteoutDone core) (fun s => s.canWriteOut core = true) (fun s =>
      ((s.slotted core).2.foldl (fun s w => s.writeSpill w) (s.slotted core).1).modCore core fun k => { k with shadowClean := true }) ∧
    (∀ n w : Nat, Delivers (.slotEvictionDone core n) (.slotEvictionDone core n)
      (fun s => s.foreign core (s.slot core n).claim = some w ∧ s.canEvictSlot core n = true)
      (fun s => ((s.takeSpill w).writeSpill w).modCore core fun k =>
        let x := Tab.getD k.slots {} n
        { k with slots := k.slots.put n { x with claim := none, pair := false }, evSlots := k.evSlots.put (32 * w + n) x })) ∧
    (∀ w : Nat, Delivers (.arrayEvictionDone core) (.arrayEvictionDone core)
      (fun s => s.foreign core (s.core core).arr.holder = some w ∧ s.canEvictArr core = true)
      (fun s => ((s.takeSpill w).writeSpill w).modCore core fun k =>
        { k with evArr := k.evArr.put w k.arr, arr := {} })))

/-- A queued command starts when it may, or ends with the cause found then; loads, products, drains, checks, releases and transfers end with the tiles, slots, memory and counters their rules give; a new governor window starts with its whole budget. Completion: exec answers a next state, with the effects stated, under conditions on the state and operands alone, for mxCommandStart, mxLdDone, mxDrainDone, mxMmaDone, mxPmmaDone, mxChkDone, mxRelEffect, busTransferStart, busTransferDone, governorWindow. (R171, R174, R179, R182, R184, R186, R187, R188, R338, R343, R348, R441) -/
def Obligations.MatrixEvents : Prop :=
  (∀ (id : Nat) (c : Cmd),
    let here := fun (s : State) => s.cmds.find id = some c
    Happens (.mxCommandStart id) (fun s => here s ∧ s.canMx id c = true ∧ s.startCause c ≠ .none) (fun s t => t = s.endCmd id (s.startCause c)) ∧
    Happens (.mxCommandStart id) (fun s => here s ∧ s.canMx id c = true ∧ s.startCause c = .none ∧ ∃ n b x y, c.body = .mxLd n b x y)
      (fun s t => t.cmds.find id = some { c with st := .running } ∧ Ev.mxLdDone id ∈ t.pending ∧
        t = { s with cmds := t.cmds, pending := t.pending }) ∧
    (∀ n : Nat, Happens (.mxCommandStart id)
      (fun s => here s ∧ s.canMx id c = true ∧ s.startCause c = .none ∧ c.body = .mxZero n)
      (fun s t => let u := s.modCmd id fun x => { x with st := .running }
        t = (u.setTile c.core c.bank n { claim := some c.wg, pair := (u.tile c.core c.bank n).pair }).endCmd id)) ∧
    (∀ n a b : Nat, Happens (.mxCommandStart id) (fun s => here s ∧ s.canMx id c = true ∧ s.startCause c = .none ∧ c.body = .mxPmma n a b)
      (fun s t => t.cmds.find id = some { c with st := .running, owned := [((s.pairBank (c.core + 1) c.launch n).getD 0)] } ∧
        (t.core (c.core + 1)).slaved = some id ∧ Ev.mxPmmaDone id ∈ t.pending)) ∧
    (∀ (n : Nat) (w : DWord), Happens (.mxCommandStart id)
      (fun s => here s ∧ s.canMx id c = true ∧ s.startCause c = .none ∧ c.body = .mxRec n w)
      (fun s t => let u := s.modCmd id fun x => { x with st := .running }
        t = (u.setSlot c.core n { u.slot c.core n with
          record := w, pois := (u.slot c.core n).pois.filter fun p => decide (p < 2176)
          errs := (u.slot c.core n).errs.del 1088 }).endCmd id)) ∧
    (∀ (n b x : Nat) (side : Bool) (va : Nat) (e : Cause) (g : Got) (s u : State), .mxLdDone id ∈ s.pending → here s →
      s.cmdBlocked id c = false → s.farFirst id c (.mxLdDone id) false = none → c.body = .mxLd n b x side → (s.took (.mxLdDone id)).cmdRead c = (u, g) → worst g.errs = (e, va) →
      exec (.mxLdDone id) s = .next ((u.setSlot c.core n ((u.slot c.core n).load side c.body.segs g)).endCmd id e (BitVec.ofNat 64 va))) ∧
    (∀ s t : State, here s → s.cmdBlocked id c = false →
      (s.farFirst id c (.mxLdDone id) false = some t → exec (.mxLdDone id) s = .next t) ∧
      (s.cmdCommitWaits c = false → s.farFirst id c (.mxDrainDone id) true = some t → exec (.mxDrainDone id) s = .next t)) ∧
    (∀ (t_ a b : Nat),
      let mma := fun (s : State) => here s ∧ c.body = .mxMma t_ a b
      let read := fun (s : State) => (s.readSlot c.core a).readSlot c.core b
      let both := fun (s : State) => (read s).readSlot (c.core + 1) b
      let far := fun (s : State) => halfProduct (s.slot c.core a) (s.slot (c.core + 1) b) (s.tile (c.core + 1) (c.owned.headD 0) t_) []
      let half := fun (s : State) => halfProduct (s.slot c.core a) (s.slot c.core b) (s.tile c.core c.bank t_) []
      Arrives (.mxMmaDone id) (.mxMmaDone id [])
        (fun s => mma s ∧ ((read s).slot c.core a).poisoned = false ∧ ((read s).slot c.core b).poisoned = false ∧
          ∀ k ∈ (half (read s)).checks, k = .fine)
        (fun s t => t = ((read s).setTile c.core c.bank t_ (half (read s)).tile).endCmd id) ∧
      Arrives (.mxMmaDone id) (.mxMmaDone id []) (fun s => mma s ∧
          (((read s).slot c.core a).poisoned = true ∨ ((read s).slot c.core b).poisoned = true))
        (fun s t => t = ((read s).poisonHalf c.core c.bank t_).endCmd id .slot) ∧
      Arrives (.mxPmmaDone id) (.mxPmmaDone id [])
        (fun s => here s ∧ c.body = .mxPmma t_ a b ∧ ((both s).slot c.core a).poisoned = false ∧ ((both s).slot c.core b).poisoned = false ∧
          ((both s).slot (c.core + 1) b).poisoned = false ∧ (∀ k ∈ (half (both s)).checks, k = .fine) ∧
          ∀ k ∈ (far (both s)).checks, k = .fine)
        (fun s t => t = (((both s).setTile c.core c.bank t_ (half (both s)).tile).setTile (c.core + 1) (c.owned.headD 0) t_
          (far (both s)).tile).endCmd id)) ∧
    (∀ (n b x va : Nat) (w : DWord) (e : Cause) (r : Storage) (es : List (Cause × Nat)) (s u v : State), .mxDrainDone id ∈ s.pending →
      here s → s.cmdBlocked id c = false → s.cmdCommitWaits c = false → s.farFirst id c (.mxDrainDone id) true = none → c.body = .mxDrain n b x w →
      (s.took (.mxDrainDone id)).checkTile c n = (u, r) → u.cmdWrite c (r.tile.drain w) r.tile.pois = (v, es) → bit w 37 = false →
      worst (if r.tile.pois then (.slot, 0) :: es else es) = (e, va) →
      exec (.mxDrainDone id) s = .next (v.endCmd id e (BitVec.ofNat 64 va))) ∧
    (∀ (d n : Nat) (r : Storage) (s u : State), .mxChkDone id ∈ s.pending → here s → c.body = .mxChk d n →
      (s.took (.mxChkDone id)).checkTile c n = (u, r) →
      exec (.mxChkDone id) s = .next ((u.modLg c.lg fun l => l.wrV c.em d fun _ =>
        BitVec.ofNat 32 (r.out + r.tile.mode * 4 + b2n r.tile.pois * 16 + r.row * 32 + r.col * 2048)).endCmd id
          (if r.out = 3 then .slot else .none))) ∧
    (∀ (tile : Bool) (n : Nat), Arrives (.mxRelEffect id) (.mxRelEffect id) (fun s => here s ∧ c.body = .mxRel tile n)
      (fun s t => t = (s.setClaim c.core c.bank tile n none false).endCmd id)) ∧
    (∀ (col : Bool) (chan mask : Nat) (word : DWord),
      (∀ x y, c.body = .bus col x y mask chan → Happens (.busTransferStart id)
        (fun s => here s ∧ s.canBus id c = true ∧ ∃ r ∈ busCores c.core col mask, s.busOpen c.part c.core r = false)
        (fun s t => t = (s.cmdGate c mask).endCmd id .gate)) ∧
      (∀ x y, c.body = .bus col x y mask chan → Happens (.busTransferStart id)
        (fun s => here s ∧ s.canBus id c = true ∧ ∀ r ∈ busCores c.core col mask, s.busOpen c.part c.core r = true)
        (fun s t => t.cmds.find id = some { c with st := .running } ∧ Ev.busTransferDone id ∈ t.pending ∧
          t = { s with cmds := t.cmds, pending := t.pending })) ∧
      (∀ x y z, c.body = .bus x y word z chan → Arrives (.busTransferDone id) (.busTransferDone id) (fun s => here s ∧ s.counterLocked c = false)
        (fun s t => t = (s.fillSlots id c word).finishCmd id c (if c.gotPois.isEmpty then .none else .deferred))))) ∧
  (∀ bh : Nat, Happens (.governorWindow bh)
    (fun s => bh < 12 ∧ (Tab.getD s.govs {} bh).window < s.now / 256 ∧ (Tab.getD s.govs {} bh).waiting = [])
    (fun s t => Tab.getD t.govs {} bh = { Tab.getD s.govs {} bh with
        used := 0, window := s.now / 256, admitted := (Tab.getD s.govs {} bh).admitted.filter s.stalledStill
        budget := if s.winBits (oMXB bh) 0 9 = 0 then 1 else min (s.winBits (oMXB bh) 0 9) 256 } ∧ t = { s with govs := t.govs }))

/-- A queued command starts in order and acts between sweeps; images are read and written whole; a sweep begins, ends and counts; subscriptions, answers, updates and notices act on their arrays; a window closes; a stall beyond its bound ends the chain. Completion: exec answers a next state, with the effects stated, under conditions on the state and operands alone, for saCommandStart, saLoadDone, saReadDone, ghostSubscribe, ghostUnsubscribe, ghostAnswer, sweepEnd, sweepBegin, ghostUpdateArrive, monitorWindowClose, chainTimeout, stopNotice. (R198, R200, R201, R205, R206, R354, R355, R356, R357, R359, R444, R447) -/
def Obligations.SamplingEvents : Prop :=
  (∀ (id : Nat) (c : Cmd),
    let here := fun (s : State) => s.cmds.find id = some c
    (∀ k : DWord, Happens (.saCommandStart id) (fun s => here s ∧ s.canSa id c = true ∧ c.body = .saKey k)
      (fun s t => t = (s.modArr c.core fun a => { a with key := k }).endCmd id)) ∧
    Happens (.saCommandStart id) (fun s => here s ∧ s.canSa id c = true ∧ c.body = .saClr)
      (fun s t => t = (s.modArr c.core fun a => { a with cnt := [], csat := false }).endCmd id) ∧
    (∀ (n : Nat) (b : Bool), Happens (.saCommandStart id)
      (fun s => here s ∧ s.canSa id c = true ∧ c.body = .saSwp n b ∧ (s.arr c.core).st ≠ 4 ∧ (s.arr c.core).st ≠ 5)
      (fun s t => t = (((s.modCmd id fun x => { x with st := .running }).modArr c.core fun a => { a with swp := some id }).judgeStall c.core))) ∧
    (∀ (s u : State) (g : Got), .saLoadDone id ∈ s.pending → here s → s.cmdBlocked id c = false →
      s.farFirst id c (.saLoadDone id) false = none → (s.took (.saLoadDone id)).cmdRead c = (u, g) → g.errs = [] → g.pois = [] →
      imageBad c.body (wordsIn g.bytes (131072 / 2)) = false →
      exec (.saLoadDone id) s = .next ((u.modArrOf c.wg fun a => a.image c.body (wordsIn g.bytes (131072 / 2))).endCmd id)) ∧
    (∀ (s u : State), .saReadDone id ∈ s.pending → here s → s.cmdBlocked id c = false → s.cmdCommitWaits c = false →
      (c.q.isSome && s.stagedCmd c && s.commitWaits c.wg) = false → s.farFirst id c (.saReadDone id) true = none →
      (s.took (.saReadDone id)).cmdWrite c ((s.arrOfWg c.wg).bytes c.body) false = (u, []) →
      exec (.saReadDone id) s = .next ((if c.q.isSome = true then u.forcedCommit c.wg else u).finishCmd id c .none)) ∧
    (∀ (w : Word) (p : Nat),
      let src := ghostCore w
      let slot := bits w 24 8
      let dst := fun (s : State) => ((s.arrOf c.wg).map (·.1)).getD c.core
      let mine := fun (s : State) => here s ∧ c.body = .saGhost w p
      Arrives (.ghostSubscribe id) (.ghostSubscribe id) (fun s => mine s ∧ s.sourceOn src (cfgChain (s.arrOfWg c.wg).cfg) = none)
        (fun s t => t = s.ghostSend id (.ghostAnswer id false) src (dst s)) ∧
      (∀ h : Nat, Arrives (.ghostSubscribe id) (.ghostSubscribe id)
        (fun s => mine s ∧ s.sourceOn src (cfgChain (s.arrOfWg c.wg).cfg) = some h ∧
          let u := s.modArrOf h fun a => a.dropExport c.wg slot
          u.partOf src = c.part ∧ (u.arrOfWg h).exports.length < 256)
        (fun s t =>
          let u := s.modArrOf h fun a => a.dropExport c.wg slot
          let a := u.arrOfWg h
          let x : Export := { core := dst s, slot := slot, node := bits w 0 11, owner := c.wg, queue := [(a.sw, a.m.contains (bits w 0 11))] }
          t = (((u.modArrOf h fun a => { a with exports := a.exports ++ [x] }).modCmd id fun y => { y with owned := [h] }).ghostSend id
            (.ghostAnswer id true) src (dst s)))) ∧
      Arrives (.ghostUnsubscribe id) (.ghostUnsubscribe id) mine (fun s t =>
        let old := c.owned.headD 0
        let u := s.modArrOf old fun a => a.dropExport c.wg slot
        t = if ghostUnb w = true then u.ghostSend id (.ghostAnswer id true) (((u.arrOf old).map (·.1)).getD (dst u)) (dst u)
          else u.ghostSend id (.ghostSubscribe id) (dst u) src) ∧
      Arrives (.ghostAnswer id true) (.ghostAnswer id true) (fun s => mine s ∧ ghostUnb w = false)
        (fun s t => let x : Ghost := { src := some (src, bits w 0 11), owner := c.owned.headD 0 }
          t = ((s.modArrOf c.wg fun a => { a with ghosts := a.ghosts.put slot x }).modLg c.lg fun l => l.setQ p 0xFFFFFFFF).endCmd id)) ∧
    (∀ (core n : Nat) (b : Bool), Arrives (.sweepEnd core) (.sweepEnd core)
      (fun s => here s ∧ Ev.monitorWindowClose core ∉ s.pending ∧ (s.arr core).swp = some id ∧ c.body = .saSwp n b ∧ n ≤ 1 ∧
        (s.arr core).biasDue = false ∧ (s.arr core).noticed = false ∧ (s.arr core).exports = [] ∧ ∀ k ∈ s.cores, k.2.arr.exports = [])
      (fun s t =>
        let u := (s.classesTo core 8 (Machine.orderOf (s.arr core).ord).length).modArr core fun a =>
          let a := { a with sw := (a.sw + 1) % 2 ^ 32, st := 1 }
          let a := if b then a.count else a
          a.exportAll a.sw
        u.flushGhosts = u ∧ t = (u.modArr core fun a => { a with swp := none }).finishCmd id c .none))) ∧
  (∀ core : Nat,
    Happens (.sweepBegin core) (fun s => s.canSweep core = true) (fun s t =>
      (t.core core).arr = { s.arr core with st := 2, pos := 0 } ∧ (t.core core).mon.probes = (s.core core).mon.probes + 1 ∧
      Ev.sweepEnd core ∈ t.pending ∧ t = { s with cores := t.cores, pending := t.pending, nfree := s.nfree + 256 }) ∧
    (∀ u : GhostUpd,
      let taken := fun (s : State) => s.modCore core fun k => { k with ghin := k.ghin.erase u }
      let at_ := fun (s : State) => (((taken s).arrOf u.owner).map (·.1)).getD core
      Arrives (.ghostUpdateArrive core) (.ghostUpdateArrive core)
        (fun s => s.ghostNext core = [u] ∧ at_ s = core ∧ (s.core core).arr.st ≠ 2)
        (fun s t => t = ((taken s).modArr core fun a => a.takeUpd u).judgeStall core) ∧
      Arrives (.ghostUpdateArrive core) (.ghostUpdateArrive core) (fun s => s.ghostNext core = [u] ∧ at_ s ≠ core)
        (fun s t => t = if (taken s).passes ((taken s).partOf core) core (at_ s) = true then
            (taken s).sendNow (.ghostUpdate (at_ s) u) (.core core) (.core (at_ s)) .ghost 32
          else (taken s).ghostRefused core (some u.holder) u.node)) ∧
    Arrives (.monitorWindowClose core) (.monitorWindowClose core) (fun _ => True) (fun s t =>
      let m := (s.core core).mon
      let n := (t.core core).mon
      n.wins = m.wins + 1 ∧ n.probes = 0 ∧ n.counts = [] ∧ n.wcnt = Tab.getD m.counts 0 n.wlane ∧
      (n.biased = true ↔ m.thr.toNat < (((Tab.getD m.counts 0 n.wlane : Nat) : Int) - 32768).natAbs) ∧ t = { s with cores := t.cores }) ∧
    Happens (.chainTimeout core)
      (fun s => (s.arr core).st = 3 ∧ (s.arr core).swp.isSome = true ∧ (s.arr core).stalls.isSome = true ∧
        s.suspended (s.arr core) = false ∧ cfgTimeout (s.arr core).cfg ≤ s.stallTime (s.arr core))
      (fun s t => t = ((s.arrayRec core .stale).modArr core fun a => { a with stale := true, st := 1 }).endSwp core .stale) ∧
    (∀ (chain : BitVec 16) (src : Nat), Arrives (.stopNotice core chain src) (.stopNotice core chain)
      (fun s => (∀ e ∈ s.pending, ∀ other, e = .stopNotice core chain other → other = src) ∧
        ((s.ghostNext core).any fun u => u.src == src) = false ∧ (s.core core).evArr = [] ∧
        ((s.core core).arr.holder.isSome && cfgChain (s.core core).arr.cfg == chain) = true ∧
        (s.core core).arr.noticed = false ∧ (s.core core).arr.st = 1)
      (fun s t => let u := s.modCore core fun k => { k with evArr := [] }
        t = ((u.modArr core fun a => { a with noticed := true, st := 4 }).notify core (s.core core).arr).endSwp core .bias)))

/-- An engine takes its lines once its granules are translated, and finishes by writing, releasing and counting; a multicast request opens an entry that closes in its window and is forgotten; fragments meet, wait, overflow, time out and are written; a permit count is repaired. Completion: exec answers a next state, with the effects stated, under conditions on the state and operands alone, for engineTakeOwnership, engineFinish, mcastRequest, mcastReplyArrive, mergeWindowExpiry, mergeSetExpiry, fragmentArrive, overflowFragmentArrive, fragmentCombineDone, orphanTimeout, permitAudit. (R131, R132, R133, R217, R218, R219, R222, R223, R225, R226, R227, R452) -/
def Obligations.FabricEvents : Prop :=
  (∀ (id : Nat) (c : Cmd),
    let here := fun (s : State) => s.cmds.find id = some c
    Arrives (.engineTakeOwnership id) (.engineTakeOwnership id)
      (fun s => here s ∧ c.st = .queued ∧ s.canOwn id c = true ∧ c.translated = true ∧ s.roundTrip id c c.asksFor 0 false = none)
      (fun s t => t = s.engineGo id c) ∧
    (∀ s t : State, .engineTakeOwnership id ∈ s.pending → here s → c.st = .queued → s.canOwn id c = true → c.translated = true →
      s.roundTrip id c c.asksFor 0 false = some t → exec (.engineTakeOwnership id) s = .next t) ∧
    (∀ (s u : State) (g : Tab (Nat × Nat)), .engineTakeOwnership id ∈ s.pending → here s → c.st = .queued → s.canOwn id c = true →
      c.translated = false → s.xlateCmd c = (u, g, []) →
      let v := u.modCmd id fun x => { x with gran := g }
      exec (.engineTakeOwnership id) s = .next (if v.pk.stall = true ∧ s.pk.stall = false then s else v)) ∧
    (∀ s t : State, .engineFinish id ∈ s.pending → here s → c.left ≠ 2 →
      s.roundTrip id c (c.linesOf c.body.dsts) 3 true = some t → exec (.engineFinish id) s = .next t) ∧
    (∀ s : State, .engineFinish id ∈ s.pending → here s → c.left ≠ 2 → s.roundTrip id c (c.linesOf c.body.dsts) 3 true = none →
      let u := (s.engineEnd id c).modCmd id fun x => { x with left := 2 }
      (u.counterLocked c = true → exec (.engineFinish id) s = .next u) ∧
      (u.counterLocked c = false → exec (.engineFinish id) s =
        .next ((u.took (.engineFinish id)).finishCmd id c
          (if c.gotPois.isEmpty && !((c.linesOf c.body.dsts).any (u.dstLost c)) then .none else .deferred))) ∧
      ∀ (sh : List DWord) (org : DWord) (buf : Nat), c.body = .tcSt sh org buf → s.engineEnd id c =
        (((CmdBody.tcSt sh org buf).copies.foldl (fun (s' : State) (p : Nat × Nat × Nat) =>
          State.engineWrite c c.got c.gotPois (max c.pts (s.core c.core).pts) s' p.1 p.2.1 p.2.2) s).unlock id)) ∧
    Arrives (.engineFinish id) (.engineFinish id) (fun s => s.cmds.find id = none) (fun s t => t = s.unlock id) ∧
    (∀ (line mem : Nat) (x : List DWord) (y : DWord) (z : Nat),
      let ln := line / 128
      Arrives (.mcastRequest id ln) (.mcastRequest id line)
        (fun s => here s ∧ s.canMcast id ln = true ∧ c.body = .tcMcast x y z mem ∧ s.merges = [] ∧
          ∃ m ∈ members mem, m ≠ c.core)
        (fun s t => t = { s with merges := t.merges } ∧ t.merges.find (mergeKey (s.homeDie line) (homeSlice line) 0) =
          some { part := c.part, line := ln, mem := mem, joined := [(c.core, id)], opened := s.now }) ∧
      Arrives (.mcastReplyArrive id ln) (.mcastReplyArrive id line) here
        (fun s t => t.cmds.find id = some { c with left := c.left - 1 } ∧ (c.left = 1 → Ev.engineFinish id ∈ t.pending) ∧
          t = { s with cmds := t.cmds, pending := t.pending }))) ∧
  (∀ (die slice n : Nat) (m : Merge),
    let k := mergeKey die slice n
    let here := fun (s : State) => s.merges.find k = some m ∧ die < 4 ∧ slice < 16
    Happens (.mergeWindowExpiry die slice n) (fun s => here s ∧ m.closed = false ∧ m.opened + 64 ≤ s.now ∧ s.canClose m = true) (fun s t => t = s.closeMerge k) ∧
    Happens (.mergeSetExpiry die slice n) (fun s => here s ∧ m.closed = true ∧ m.opened + 1024 ≤ s.now)
      (fun s t => t = { s with merges := s.merges.del k })) ∧
  (∀ (id f k : Nat) (x : Frag),
    let sent := fun (s : State) => s.sentFrag id f = some (k, x) ∧ s.meetShut x.die x.router = false ∧
      (s.part x.owner).retired.contains (x.tag, x.f) = false
    let partner := fun (s : State) => s.frags.find? fun p => p.2.owner == x.owner && p.2.tag == x.tag && p.2.f == x.f &&
      (match p.2.place with | .store _ => true | _ => false)
    let next := fun (s : State) => ({ s with nseq := s.nseq + 1 } : State)
    (∀ (j : Nat) (y : Frag), Arrives (.fragmentArrive id f) (.fragmentArrive id f) (fun s => sent s ∧ partner s = some (j, y))
      (fun s t => t = ((next s).meet j y k { x with ord := s.nseq }).accept id)) ∧
    (∀ b : Bool, Arrives (.fragmentArrive id f) (.fragmentArrive id f)
      (fun s => sent s ∧ partner s = none ∧ Tab.getD s.presence 0 x.countKey = 0 ∧ s.takeStore x = some b)
      (fun s t => t = ((next s).setFrag k { x with ord := s.nseq, place := .store b, since := s.now }).accept id)) ∧
    Arrives (.overflowFragmentArrive k) (.overflowFragmentArrive k)
      (fun s => s.frags.find k = some x ∧ (s.part x.owner).retired.contains (x.tag, x.f) = false ∧ ∀ p ∈ s.frags, p.2.place ≠ .overflow)
      (fun s t => t = ((next s).setFrag k { x with place := .overflow, since := s.now, ord := s.nseq }).accept x.cmd) ∧
    (∀ (tl : Tally) (ts : Nat) (s u : State), .fragmentCombineDone k ∈ s.pending → s.frags.find k = some x → s.canDeliver x = true →
      x.place = .combined → (s.took (.fragmentCombineDone k)).writeFrag x = (u, false, ts) → (u.part x.owner).tags.find x.tag = none →
      let v : State := { u with frags := u.frags.del k }
      v.tallies.find (v.tallyRoot x.cmd) = some tl → tl.need ≠ x.cnt → x.cnt ≤ tl.need →
      let tn : Tally := { tl with need := tl.need - x.cnt, pts := max tl.pts ts }
      exec (.fragmentCombineDone k) s = .next { v with tallies := v.tallies.put (v.tallyRoot x.cmd) tn }) ∧
    Happens (.orphanTimeout k) (fun s => s.frags.find k = some x ∧ (x.place = .overflow ∨ ∃ b, x.place = .store b) ∧ x.since + x.oto ≤ s.now)
      (fun s t => t = (s.makeOrphan k x .orphan).releaseHeld)) ∧
  (∀ link chan : Nat,
    let p := fun (s : State) => s.permit link chan
    Happens (.permitAudit link chan) (fun s => chan < 8 ∧ (p s).held + (p s).buf.length ≠ permitTotal chan)
      (fun s t => t = (s.setPermit link chan { p s with held := permitTotal chan - (p s).buf.length }).mgrRec
        [recHead .permit 10 15 0 0 0 0 0, 0, linkName link, s.time]))

/-- A module sends a flit and keeps it for replay; a bad flit is counted and refused, a good one in sequence is accepted; naks, acks, timers, retrains and their time limits, lost and returned ports have the effect their rules give. Completion: exec answers a next state, with the effects stated, under conditions on the state and operands alone, for linkFlitSend, linkFlitReceive, linkNakReceive, linkIdleTimer, nakRepeatTimer, linkLockLoss, linkAckTimeout, linkRetrainDone, retrainTimeout, portLost, cxlLinkStateChange, cxlPortLost, cxlRangeEnable, hostPortReturn. (R235, R236, R237, R405, R432, R433, R434, R435, R436, R437, R438) -/
def Obligations.LinkEvents : Prop :=
  (∀ (e d m : Nat),
    let x := fun (s : State) => s.ldir e d m
    let up := fun (s : State) => d < 2 ∧ s.moduleUp e m = true
    -- a nak goes back in the other direction, whose latest ack it carries
    let naks := fun (s t : State) (y : LinkDir) => t.ldir e d m = { y with waiting := true, nakAt := s.now } ∧
      t.ldir e (1 - d) m = { s.ldir e (1 - d) m with
        flight := (s.ldir e (1 - d) m).flight ++ [{ seq := (x s).expect, ack := (x s).lastGot, bytes := 0, whole := [], kind := 2, at_ := s.now }]
        sentAt := s.now } ∧ t = { s with ldirs := t.ldirs }
    -- what is kept is sent anew with the latest ack
    let anew := fun (s : State) (y : LinkDir) =>
      let fs := y.replay.map fun h => { h with ack := (s.ldir e (1 - d) m).lastGot, at_ := s.now }
      ({ y with replay := fs, flight := y.flight ++ fs, sentAt := if fs.isEmpty then y.sentAt else s.now } : LinkDir)
    (∀ (ws ls : List LPacket) (n : Nat), Happens (.linkFlitSend e d m)
      (fun s => s.canFlit e d m = true ∧ pack flitRoom (x s).stored = (ws, ls, n))
      (fun s t =>
        let f : Flit := { seq := (x s).next, ack := (s.ldir e (1 - d) m).lastGot, bytes := n, whole := ws, pst := firstStart (x s).stored, at_ := s.now }
        t.ldir e d m = { x s with
          stored := ls, next := ((x s).next + 1) % 4096, replay := (x s).replay ++ [f], flight := (x s).flight ++ [f], sentAt := s.now } ∧
        t = { s with ldirs := t.ldirs })) ∧
    (∀ (f : Flit) (r : List Flit),
      Happens (.linkFlitReceive e d m false) (fun s => up s ∧ (x s).flight = f :: r)
        (fun s t => naks s t { x s with flight := r, crc := (x s).crc + 1 }) ∧
      Happens (.linkFlitReceive e d m true) (fun s => up s ∧ (x s).flight = f :: r ∧ f.kind = 0 ∧ f.seq = (x s).expect ∧ f.whole = [])
        (fun s t => t.ldir e d m = { x s with flight := r, expect := ((x s).expect + 1) % 4096, waiting := false } ∧
          t.ldir e (1 - d) m = (s.ldir e (1 - d) m).acked ((f.ack + 1) % 4096) ∧ t = { s with ldirs := t.ldirs })) ∧
    (∀ (f : Flit) (r : List Flit), Happens (.linkNakReceive e d m)
      (fun s => up s ∧ (s.ldir e (1 - d) m).flight = f :: r ∧ f.kind = 2 ∧ (x s).nakFor ≠ some f.seq)
      (fun s t =>
        let y := (x s).acked ((f.ack + 1) % 4096)
        t.ldir e d m = anew s (({ y with nak := y.nak + 1, nakFor := some f.seq, nakCount := 1 } : LinkDir).acked f.seq) ∧
          t.ldir e (1 - d) m = { s.ldir e (1 - d) m with flight := r } ∧ t = { s with ldirs := t.ldirs })) ∧
    Happens (.linkIdleTimer e d m) (fun s => s.canIdle e d m = true)
      (fun s t =>
        let y := s.ldir e (1 - d) m
        let f : Flit := { seq := 0, ack := (x s).lastGot, bytes := 0, whole := [], kind := 1, at_ := s.now }
        t.ldir e (1 - d) m = { y with flight := y.flight ++ [f], sentAt := s.now } ∧ t = { s with ldirs := t.ldirs }) ∧
    Happens (.nakRepeatTimer e d m) (fun s => up s ∧ (x s).waiting = true ∧ (x s).nakAt + 64 ≤ s.now)
      (fun s t => naks s t (x s))) ∧
  (∀ e m : Nat,
    let few := fun (s : State) => ((s.link e m).recent.filter fun t => decide (s.now < t + 2000000)).length < 8
    let trains := fun (s t : State) => (t.link e m).st = 1 ∧ (t.link e m).rtr = (s.link e m).rtr + 1 ∧ (t.link e m).trainAt = s.now ∧
      t = { s with links := t.links, ldirs := t.ldirs }
    Happens (.linkLockLoss e m) (fun s => s.moduleUp e m = true ∧ few s) trains ∧
    Happens (.linkAckTimeout e m) (fun s => s.moduleUp e m = true ∧ (∃ d, d < 2 ∧ ∃ f ∈ (s.ldir e d m).replay, f.at_ + 4000 ≤ s.now) ∧ few s) trains ∧
    Happens (.linkRetrainDone e m 0)
      (fun s => e < 4 ∧ m < 4 ∧ e ∉ s.edgesDown ∧ (s.link e m).st = 1 ∧ (s.link e m).half = 0 ∧
        ∀ n ∈ nextModules m, (s.link e n).st ≠ 0)
      (fun s t => t.link e m = { s.link e m with st := 2 } ∧ (∀ d, d < 2 →
          let fs := (s.ldir e d m).unaccepted.map fun h => { h with ack := (s.ldir e (1 - d) m).lastGot, at_ := s.now }
          t.ldir e d m = { (s.ldir e d m).quiet with
            replay := fs, flight := fs, sentAt := if fs.isEmpty then (s.ldir e d m).sentAt else s.now }) ∧
        t = { s with links := t.links, ldirs := t.ldirs }) ∧
    (∀ b : Bool, Happens (.retrainTimeout e m b)
      (fun s => e < 4 ∧ m < 4 ∧ (s.link e m).st = 1 ∧ (s.link e m).trainAt + 1600 ≤ s.now) (fun s t => t = s.moduleFails e m b))) ∧
  (∀ p : Nat,
    Happens (.portLost p) (fun s => p ≤ 8 ∧ Tab.getD s.ports false p = false)
      (fun s t => t = ({ s with ports := s.ports.put p true } : State).linkRec .link (if p = 8 then 24 else 32 + p)) ∧
    (∀ b : Bool, Happens (.cxlLinkStateChange p b) (fun _ => p < 4) (fun s t =>
      t.win' (oCXS p) = setBits (s.win' (oCXS p)) 0 2 (if b then 2 else 1) ∧ (b = true → t.cxlDownAt.find p = none) ∧
      (b = false → (t.cxlDownAt.find p).isSome = true) ∧ t = { s with win := t.win, cxlDownAt := t.cxlDownAt })) ∧
    Happens (.cxlPortLost p) (fun s => p < 4 ∧ s.winBits (oCXS p) 2 1 = 0)
      (fun s t => t = (s.cxlLost p).setWinBits (oCXS p) 0 2 0 ∧
        (s.dir = [] → s.pending = [] →
          let s1 := s.setWinBits (oCXS p) 2 1 1
          let u := s1.setWinBits (oCXS p) 16 16 (s1.winBits (oCXS p) 16 16 + 1)
          s.cxlLost p = ({ u with cxlDownAt := u.cxlDownAt.del p } : State).linkRec .link (48 + p))) ∧
    (∀ v : BitVec 64, Happens (.cxlRangeEnable p v) (fun s => p < 4 ∧ s.hostUp = true)
      (fun _ t => t.win' (oCXM p) = v &&& 0x7FFF7))) ∧
  Happens .hostPortReturn (fun s => Tab.getD s.ports false 8 = true)
    (fun s t => t = s.heldRecs.foldl (fun s r => s.mgrRec (r.map (·.toNat))) { s with ports := s.ports.del 8, heldRecs := [] })

/-- A stream queue is enabled, takes segments, closes frames late and pushes their descriptors, ends; a register write changes the writable bits of its register; a package reset leaves memory and the retired table alone; the boot goes on with a good image and halts on a bad one; a quote uses the next one-time key. Completion: exec answers a next state, with the effects stated, under conditions on the state and operands alone, for streamEnable, streamEos, streamSegment, frameDeadline, descriptorPush, dbiWindow, registerWrite, packageReset, bootStage, bootImageReplace, attestQuote. (R12, R240, R242, R243, R244, R249, R428, R465, R466, R467) -/
def Obligations.HostEvents : Prop :=
  (∀ (vf q : Nat) (v : BitVec 64) (n : Nat) (p : Pipe),
    let on := fun (s : State) => s.hostUp = true ∧ vf < 1024 ∧ q < 8
    Happens (.streamEnable vf q v)
      (fun s => on s ∧ v.getLsbD 56 = true ∧ v.getLsbD 57 = false ∧
        let u := s.setVr vf (oSQC q) (v &&& 0x00FFFFFFFFFFFFFF#64)
        1 ≤ u.vrBits vf (oSQB q) 0 4 ∧ u.vrBits vf (oSQB q) 0 4 ≤ 10 ∧ u.sqUnits vf q ≠ 0 ∧ u.sqPipe vf q = some (n, p) ∧ p.size = 32)
      (fun s t => t = (s.setVr vf (oSQC q) (v &&& 0x00FFFFFFFFFFFFFF#64)).setVrBits vf (oSQC q) 56 1 1) ∧
    Happens (.streamEos vf q) on (fun s t => t = s.writeSqc vf q (s.vr vf (oSQC q) ||| 0x0200000000000000#64)) ∧
    (∀ (frame off : Nat) (data : List (BitVec 8)),
      let ok := fun (s : State) => s.canSegment vf q frame off data.length = true
      Happens (.streamSegment vf q frame off data) (fun s => ok s ∧ s.sqOn vf q = false) (fun s t => t = s.countSq vf (oSQL q) 32) ∧
      Happens (.streamSegment vf q frame off data)
        (fun s => ok s ∧ s.sqOn vf q = true ∧ off + data.length ≤ 64 * s.sqUnits vf q ∧ frame ∈ (s.stream vf q).closed)
        (fun s t => t = s.countSq vf (oSQL q) 0) ∧
      (∀ f : Frame, Happens (.streamSegment vf q frame off data)
        (fun s => ok s ∧ s.sqOn vf q = true ∧ off + data.length ≤ 64 * s.sqUnits vf q ∧ frame ∉ (s.stream vf q).closed ∧
          (s.stream vf q).frames.find frame = some f ∧ f.topen + s.sqDeadline vf q ≤ s.time)
        (fun s t => t = s.countSq vf (oSQL q) 0)) ∧
      Happens (.streamSegment vf q frame off data) (fun s => s.segmentWaits vf q frame off data.length = true)
        (fun s t => t = s.openFrame vf q frame) ∧
      (∀ (s u : State) (f : Frame) (pa kid : Nat), ok s → s.sqOn vf q = true → off + data.length ≤ 64 * s.sqUnits vf q →
        frame ∉ (s.stream vf q).closed → (s.stream vf q).frames.find frame = some f → s.expired vf q f = false →
        s.segmentWaits vf q frame off data.length = false → data.length = 64 → off / 64 ∉ f.units →
        s.unitAddrs vf q frame [off / 64] = (u, [(off / 64, some (pa, kid))]) → (u.stream vf q).frames.find frame = some f →
        let w := u.putUnits vf q frame f.pts [⟨frame, pa, kid, data.take 64⟩]
        let f' : Frame := { f with units := f.units ++ [off / 64], pts := w.2 }
        let z := w.1.setStream vf q { w.1.stream vf q with frames := (w.1.stream vf q).frames.put frame f' }
        f.units.length + 1 ≠ z.sqUnits vf q → exec (.streamSegment vf q frame off data) s = .next z) ∧
      (∀ (s u : State) (f : Frame) (as : List (Nat × Option (Nat × Nat))), s.canExpire vf q frame = true →
        (s.stream vf q).frames.find frame = some f →
        s.unitAddrs vf q frame ((List.range (s.sqUnits vf q)).filter fun u => !(f.units.contains u)) = (u, as) →
        let w := u.putUnits vf q frame f.pts (as.filterMap fun a => a.2.map fun p => ⟨frame, p.1, p.2, List.replicate 64 0⟩)
        exec (.frameDeadline vf q frame) s = .next (w.1.closeFrame vf q frame true f.units.length w.2))) ∧
    (∀ (s u : State) (d : StreamDesc) (va : Nat) (e : TlbEnt), s.descAt vf q = some (d, n, p, va) → s.canDescribe vf q = true →
      s.devXlate (s.vfPart vf) p.vf va 3 = (u, .ok e) →
      let w := u.pushAt (s.vfPart vf) n p (e.addr va, e.kid) d.image d.pts (some (8 * vf + q, d.frame))
      let z := (w.setStream vf q { w.stream vf q with ready := (w.stream vf q).ready.tail }).finishStream vf q
      exec (.descriptorPush vf q) s = .next (if z.pk.stall = true ∧ s.pk.stall = false then s else z))) ∧
  (∀ chan a b : Nat,
    Happens (.dbiWindow chan a b) (fun _ => chan < 256 ∧ b < a) (fun s t => chan ∈ t.dbi ∧ t = { s with dbi := t.dbi }) ∧
    Happens (.dbiWindow chan a b) (fun _ => chan < 256 ∧ a < b) (fun s t => chan ∉ t.dbi ∧ t = { s with dbi := t.dbi }) ∧
    Happens (.dbiWindow chan a b) (fun _ => chan < 256 ∧ a = b) (fun s t => t = s)) ∧
  (∀ (f g : Nat) (v : BitVec 64),
    Happens (.registerWrite (.page f) 0 v) (fun s => s.hostUp = true ∧ f < 1024) (fun s t =>
      t.vr f 0 = (s.vr f 0 &&& ~~~0xFFFFFFFFFFFFF001#64) ||| (v &&& 0xFFFFFFFFFFFFF001#64) ∧ t = { s with vfr := t.vfr }) ∧
    Happens (.registerWrite (.pageManager f) 0x30 v) (fun s => s.hostUp = true ∧ f < 1024) (fun s t =>
      t.vr f 0x30 = (s.vr f 0x30 &&& ~~~0xFF#64) ||| (v &&& 0xFF#64) ∧ t = { s with vfr := t.vfr }) ∧
    Happens (.registerWrite .window oCET v) (fun s => s.hostUp = true) (fun s t =>
      t.win' oCET = (s.win' oCET &&& ~~~0xFFFF#64) ||| (v &&& 0xFFFF#64) ∧ t = { s with win := t.win }) ∧
    Happens (.registerWrite .window (oMXB g) v) (fun s => s.hostUp = true ∧ g < 12) (fun s t => t = s) ∧
    Happens (.registerWrite .slate (oMXB g) v) (fun s => s.slateUp = true ∧ g < 12) (fun s t =>
      t.win' (oMXB g) = (s.win' (oMXB g) &&& ~~~0x1FF#64) ||| (v &&& 0x1FF#64) ∧
      t = { s with win := t.win, govs := s.govs.setD {} g (s.gov g) })) ∧
  Happens .packageReset (fun _ => True) (fun s t => t.mem = s.mem ∧ t.retired = s.retired ∧ t.lgs = [] ∧ t.wgs = [] ∧ t.launches = [] ∧
    t.cores = [] ∧ t.win = [] ∧ t.boot = { quotes := s.boot.quotes } ∧ t.agenda = s.agenda) ∧
  (∀ h : List (BitVec 8),
    Happens (.bootStage true h) (fun s => s.boot.stage < 3 ∧ s.boot.halted = false) (fun s t => t.boot.stage = s.boot.stage + 1 ∧
      t = (if s.boot.stage = 1 then ({ s with boot := t.boot } : State).trainLinks else { s with boot := t.boot }) ∧
      (s.boot.stage = 0 → t.boot.m0 = (sha384 (s.boot.m0 ++ (h ++ List.replicate 32 0).take 32)).take 48 ∧ t.boot.m1 = s.boot.m1)) ∧
    Happens (.bootStage false h) (fun s => s.boot.stage < 3 ∧ s.boot.halted = false)
      (fun s t => t = { s with boot := { s.boot with halted := true } })) ∧
  Happens .bootImageReplace (fun s => s.boot.halted = true) (fun s t => t = { s with boot := { s.boot with halted := false } }) ∧
  (∀ nonce : BitVec 256,
    Happens (.attestQuote nonce) (fun s => s.slateUp = true ∧ s.boot.quotes < 2 ^ 20) (fun s t => t.boot.quotes = s.boot.quotes + 1 ∧
      t.boot.lastQuote = some (s.boot.message nonce ++ Config.sign s.boot.quotes (s.boot.message nonce)) ∧ t = { s with boot := t.boot }) ∧
    Happens (.attestQuote nonce) (fun s => s.slateUp = true ∧ 2 ^ 20 ≤ s.boot.quotes)
      (fun s t => t.boot.quotes = s.boot.quotes ∧ t.boot.refused = true ∧ t = { s with boot := t.boot }))

/-- Power, clock, reset and gate writes move a bulkhead through its states: powering, in reset once its rail is good, locked, running with its cores cleared after initialisation, draining on a gate, reset or power write while running, then fenced; a fatal error fences it for its dump; a trim clears the lock-out. Completion: exec answers a next state, with the effects stated, under conditions on the state and operands alone, for bulkheadPowerOn, bulkheadRailGood, bulkheadRailTimeout, bulkheadClockEnable, pllLock, pllLockTimeout, bulkheadResetRelease, bulkheadInitDone, bulkheadResetAssert, bulkheadGateClose, bulkheadPowerOff, bulkheadGateOpen, bulkheadDrainDone, gateDrainTimeout, bulkheadFatalError, stateDumpDone, trimStart, trimDone. (R13, R23, R405, R411, R446, R469, R471) -/
def Obligations.BulkheadEvents : Prop :=
  (∀ g : Nat,
    let free := fun (s : State) => g < 12 ∧ s.hostUp = true ∧ s.dumps.contains g = false ∧ s.bhWait.find g = none
    Happens (.bulkheadPowerOn g) (fun s => free s ∧ s.bhSt g = 0) (fun s t => t.bhSt g = 1 ∧ t.bhBit g 0 = true ∧
      t.bhSince.find g = some s.now) ∧
    Happens (.bulkheadRailGood g) (fun s => s.railUp g = true ∧ s.now ≤ (s.bhSince.find g).getD 0 + 200000) (fun _ t => t.bhSt g = 2) ∧
    Happens (.bulkheadRailTimeout g) (fun s => s.railUp g = true ∧ (s.bhSince.find g).getD 0 + 200000 < s.now)
      (fun s t => t = ({ s with bhSince := s.bhSince.del g } : State).bhRec g) ∧
    Happens (.bulkheadClockEnable g) (fun s => free s ∧ s.bhSt g = 2 ∧ s.bhBit g 0 = true ∧ s.bhBit g 1 = false ∧ s.bhBit g 2 = true)
      (fun s t => t.bhBit g 1 = true ∧ t.bhSt g = 2 ∧ t.bhSince.find (12 + g) = some s.now) ∧
    Happens (.pllLock g) (fun s => s.pllOn g = true ∧ s.now ≤ (s.bhSince.find (12 + g)).getD 0 + 100000) (fun _ t => t.bhBit g 7 = true) ∧
    Happens (.pllLockTimeout g) (fun s => s.pllOn g = true ∧ (s.bhSince.find (12 + g)).getD 0 + 100000 < s.now)
      (fun s t => t = ({ s with bhSince := s.bhSince.del (12 + g) } : State).bhRec g) ∧
    Happens (.bulkheadResetRelease g) (fun s => free s ∧ s.bhSt g = 2 ∧ s.bhBit g 0 = true ∧ s.bhBit g 2 = true)
      (fun s t => t.bhBit g 2 = false ∧ t.bhSt g = 2 ∧ t.bhSince.find g = some s.now) ∧
    Happens (.bulkheadInitDone g) (fun s => s.canInit g = true)
      (fun s t => t.bhSt g = 3 ∧ ∀ c ∈ bhCores g, t.core c = { ticks := s.now / 256 }) ∧
    Happens (.bulkheadResetAssert g) (fun s => free s ∧ s.bhSt g = 3 ∧ s.bhBit g 0 = true) (fun _ t => t.bhSt g = 4 ∧ t.bhBit g 2 = true) ∧
    Happens (.bulkheadGateClose g) (fun s => free s ∧ s.bhSt g = 3 ∧ s.bhBit g 0 = true ∧ s.bhBit g 3 = false)
      (fun _ t => t.bhSt g = 4 ∧ t.bhBit g 3 = true) ∧
    Happens (.bulkheadPowerOff g) (fun s => free s ∧ s.bhSt g = 3) (fun _ t => t.bhSt g = 4 ∧ t.bhBit g 0 = false) ∧
    Happens (.bulkheadGateOpen g) (fun s => free s ∧ s.bhSt g = 5 ∧ s.bhBit g 0 = true ∧ s.bhBit g 1 = true ∧ s.bhBit g 2 = false ∧ s.bhBit g 7 = true)
      (fun _ t => t.bhSt g = 3 ∧ t.bhBit g 3 = false) ∧
    Happens (.bulkheadDrainDone g) (fun s => g < 12 ∧ s.canDrain g = true ∧ s.bhBit g 0 = true ∧ s.bhBit g 2 = false ∧
        ((s.setSt g 5).bhRec g).bhWait.find g = none) (fun s t => t = (s.setSt g 5).bhRec g) ∧
    (∀ e : Ev, Happens (.gateDrainTimeout g) (fun s => s.canGateTimeout g = true ∧ s.messages.filter (s.crossLate g) = [e])
      (fun s t => t = s.failCrossing e)) ∧
    (let fatal := fun (s : State) => g < 12 ∧ s.dumps.contains g = false ∧ (s.bhSt g = 3 ∨ s.bhSt g = 4 ∨ s.bhSt g = 5)
    Happens (.bulkheadFatalError g) (fun s => fatal s ∧ s.winBits oDMB 27 21 ≠ 0)
      (fun s t => t = { (s.setSt g 5).bhRec g with dumps := s.dumps ++ [g] }) ∧
    Happens (.bulkheadFatalError g) (fun s => fatal s ∧ s.winBits oDMB 27 21 = 0)
      (fun s t => t = ((((s.setSt g 5).bhRec g).setWinBits (oBHC g) 2 1 1).enterReset g 2).releaseBhc g)) ∧
    (∀ r : List Nat, Performs (.stateDumpDone g) (fun s => s.dumps = g :: r ∧ s.winBits oDMB 27 21 = 0)
      (fun s => ((({ s with dumps := r } : State).setWinBits (oBHC g) 2 1 1).enterReset g 2).releaseBhc g)) ∧
    Happens (.trimStart g) (fun s => g < 12 ∧ s.slateUp = true)
      (fun s t => t.winBits (oTRM g) 1 1 = 1 ∧ t = { s with win := t.win }) ∧
    Happens (.trimDone g) (fun s => s.canTrim g = true) (fun s t => t.winBits (oTRM g) 1 1 = 0 ∧
      (∀ c ∈ bhCores g, (t.core c).mon = { (s.core c).mon with lockout := false }) ∧ t = { s with win := t.win, cores := t.cores }))

/-- A partition is enabled with its bulkheads when its write is acceptable and torn down in order; a write to an enabled partition that keeps it enabled writes gto alone (the model's choice, log entry 70); windows open, drain and close; home-map words give regions their owner; functions and keys are enabled and loaded; a breakpoint goes on; codes change, frames retire, and a soft error marks what it hits. Completion: exec answers a next state, with the effects stated, under conditions on the state and operands alone, for partitionEnable, partitionTeardown, teardownDone, windowEnable, windowDisable, windowDrainDone, homeMapWrite, homeMapReadInc, vfEnable, keyTableWrite, keyLoad, debugResume, l2CodeChange, reencodeDone, retireFrame, softError. (R14, R17, R19, R20, R22, R24, R382, R421, R426, R428, R441, R468) -/
def Obligations.ManagerEvents : Prop :=
  (∀ (n : Nat) (v : BitVec 64),
    Happens (.partitionEnable n v) (fun s => s.hostUp = true ∧ v.getLsbD 12 = true ∧ n < 12 ∧ s.partEn n = false ∧ s.partOk n v = true)
      (fun _ t => t.partEn n = true ∧ ∀ g ∈ bhsOf (bits v 0 12), t.winBits (oBHC g) 16 4 = n) ∧
    Happens (.partitionEnable n v) (fun s => s.hostUp = true ∧ v.getLsbD 12 = true ∧ n < 12 ∧ s.partEn n = false ∧ s.partOk n v = false)
      (fun _ t => t.partEn n = false ∧ t.winBits (oPART n) 13 1 = 1) ∧
    Happens (.partitionTeardown n) (fun s => s.hostUp = true ∧ n < 12 ∧ s.partEn n = true ∧ (s.part n).teardown = none)
      (fun s t => t = (s.setWinBits (oPART n) 16 8 (bits (setBits (s.win' (oPART n)) 12 1 0) 16 8)).beginTeardown n) ∧
    Happens (.partitionEnable n v) (fun s => s.hostUp = true ∧ v.getLsbD 12 = true ∧ n < 12 ∧ s.partEn n = true ∧ (s.part n).teardown = none)
      (fun s t => t = s.setWinBits (oPART n) 16 8 (bits v 16 8)) ∧
    Happens (.teardownDone n) (fun s => n < 12 ∧ s.canTeardown n = true) (fun s t => t = s.endTeardown n ∧ t.partEn n = false)) ∧
  (∀ (w : Nat) (a b : BitVec 64),
    Happens (.windowEnable w a b) (fun s => s.hostUp = true ∧ a.getLsbD 12 = true ∧ w < 32 ∧ s.winBits (oWIN w) 12 1 = 0 ∧ s.windowOk a b = true ∧
        (s.part (bits a 0 4)).teardown = none ∧ (s.part (bits a 4 4)).teardown = none)
      (fun s t => t.winBits (oWIN w) 12 1 = 1 ∧ t.winBits (oWIN w) 13 1 = 0 ∧ t.win' (oWIN w + 8) = b ∧ t = { s with win := t.win }) ∧
    Happens (.windowEnable w a b) (fun s => s.hostUp = true ∧ a.getLsbD 12 = true ∧ w < 32 ∧ s.winBits (oWIN w) 12 1 = 0 ∧ s.windowOk a b = true ∧
        ((s.part (bits a 0 4)).teardown.isSome = true ∨ (s.part (bits a 4 4)).teardown.isSome = true))
      (fun s t => t.winBits (oWIN w) 12 1 = 1 ∧ (t.winDrain.find w).isSome = true ∧ t = { s with win := t.win, winDrain := t.winDrain }) ∧
    Happens (.windowEnable w a b) (fun s => s.hostUp = true ∧ a.getLsbD 12 = true ∧ w < 32 ∧ s.winBits (oWIN w) 12 1 = 0 ∧ s.windowOk a b = false)
      (fun s t => t.winBits (oWIN w) 12 1 = 0 ∧ t.winBits (oWIN w) 13 1 = 1 ∧ t = { s with win := t.win }) ∧
    Happens (.windowDisable w) (fun s => s.hostUp = true ∧ w < 32 ∧ s.winBits (oWIN w) 12 1 = 1 ∧ s.winDrain.find w = none)
      (fun s t => t.winDrain.find w = some s.now ∧ t = { s with winDrain := t.winDrain }) ∧
    Happens (.windowDrainDone w) (fun s => s.canCloseWin w = true)
      (fun s t => t.winBits (oWIN w) 12 1 = 0 ∧ (s.underWindow w = false → t = { s with win := t.win, winDrain := s.winDrain.del w }))) ∧
  (∀ (v : BitVec 64) (r : Nat),
    Happens (.homeMapWrite v) (fun s => s.hostUp = true ∧ s.mapWord = some r)
      (fun _ t => ∀ i, i < 16 → Tab.getD t.hmap 0xF (r + i) = BitVec.ofNat 4 (bits v (4 * i) 4)) ∧
    Happens .homeMapReadInc (fun s => s.hostUp = true ∧ s.winBits oHMX 3 1 = 1)
      (fun s t => t.winBits oHMX 4 20 = (s.winBits oHMX 4 20 + 1) % 2 ^ 20 ∧
        t = { s with win := t.win, hostGot := some s.readMap })) ∧
  (∀ (f : Nat) (v : BitVec 32), Happens (.vfEnable f v)
    (fun s => s.hostUp = true ∧ v.getLsbD 4 = true ∧ f < 1024 ∧ s.partEn (bits v 0 4) = true)
    (fun s t => t.vfEn f = true ∧ t.vfPart f = bits v 0 4 ∧ t = { s with win := t.win })) ∧
  (∀ (k : Nat) (v : BitVec 64),
    Happens (.keyTableWrite k v) (fun s => s.hostUp = true ∧ 0 < k ∧ k < 8192 ∧ s.winBits (oKEY k) 11 1 = 0)
      (fun s t => t.win' (oKEY k) = BitVec.ofNat 64 (bits v 0 11) ∧ t = { s with win := t.win }) ∧
    Happens (.keyLoad k) (fun s => s.slateUp = true ∧ 0 < k ∧ k < 8192 ∧ s.winBits (oKEY k) 10 1 = 1 ∧ s.winBits (oKEY k) 11 1 = 0)
      (fun s t => t.winBits (oKEY k) 11 1 = 1 ∧ t.winBits (oKEY k) 0 11 = s.winBits (oKEY k) 0 11 ∧ t = { s with win := t.win })) ∧
  (∀ (v : BitVec 64) (g : Nat) (l : Lg), Happens (.debugResume v)
    (fun s => s.slateUp = true ∧ v.getLsbD 17 = true ∧ s.bkptAt v = some g ∧ s.lgs.find g = some l ∧ s.absent l.wg = false)
    (fun s t => t.lgs.find g = some { l with
      pc := l.resume, run := none, status := .ready, parkAt := s.now, aged := false } ∧
      t = { s with win := t.win, lgs := t.lgs })) ∧
  (∀ d : Nat,
    (∀ b : Bool, Happens (.l2CodeChange d b) (fun s => s.slateUp = true ∧ d < 4 ∧ s.winBits (oECS d) 1 1 = 0 ∧ s.winBits (oECS d) 0 1 ≠ b2n b)
      (fun s t => t.winBits (oECS d) 0 1 = b2n b ∧ t.winBits (oECS d) 1 1 = 1 ∧ t = { s with win := t.win })) ∧
    Happens (.reencodeDone d) (fun s => d < 4 ∧ s.winBits (oECS d) 1 1 = 1)
      (fun s t => t.winBits (oECS d) 1 1 = 0 ∧ t = { s with win := t.win, dir := t.dir })) ∧
  (∀ f : Nat, Happens (.retireFrame f)
    (fun s => s.slateUp = true ∧ f < 2 ^ 32 ∧ f ∉ s.retired ∧ (s.retired.filter fun x => s.homeDie (65536 * x) == s.homeDie (65536 * f)).length < 1024)
    (fun s t => f ∈ t.retired ∧ t.winBits oRTA 0 1 = 0 ∧ t = { s with win := t.win, retired := t.retired, suspect := t.suspect })) ∧
  (∀ (g r j pa : Nat) (l : Lg) (w : BitVec 64),
    Happens (.softError (.register g r j)) (fun s => s.lgs.find g = some l ∧ r < 256 ∧ j < 32)
      (fun s t => (∃ l', t.lgs.find g = some l' ∧ 32 * r + j ∈ l'.bad ∧ l' = { l with bad := l'.bad }) ∧ t = { s with lgs := t.lgs }) ∧
    Happens (.softError (.l2 pa)) (fun s => (s.dirOf (pa / 128)).inL2 = true) (fun s t => t = s.sliceError (pa / 4)) ∧
    Happens (.softError (.msc pa)) (fun s => (s.dirOf (pa / 128)).inMsc = true ∧ (s.dirOf (pa / 128)).inL2 = false ∧
        (s.dirOf (pa / 128)).mscDirty = false)
      (fun s t => t = s.setDir (pa / 128) { s.dirOf (pa / 128) with inMsc := false }) ∧
    Happens (.softError (.permit g r)) (fun _ => r < 8)
      (fun s t => t = s.setPermit g r { s.permit g r with held := (s.permit g r).held - 1 }) ∧
    Happens (.softError (.control r)) (fun _ => r < 12) (fun s t => t = s.fatal r) ∧
    Happens (.softError (.operand g r j w)) (fun _ => g < 192 ∧ r < 32 ∧ j < 8712) (fun s t => t = s.slotError g r j w))
end

