-- ==== Sys2Proof/Laws/State.lean ====
section
/-! SUPPORT. What each update of the state leaves in each field of it. -/

set_option Elab.async false

namespace Sys2Proof.Machine

/-! ## `State.setWin` -/

@[simp] theorem State.setWin_now (s : State) (off : Nat) (w : DWord) : (s.setWin off w).now = s.now := rfl
@[simp] theorem State.setWin_cur (s : State) (off : Nat) (w : DWord) : (s.setWin off w).cur = s.cur := rfl
@[simp] theorem State.setWin_pk (s : State) (off : Nat) (w : DWord) : (s.setWin off w).pk = s.pk := rfl
@[simp] theorem State.setWin_nfree (s : State) (off : Nat) (w : DWord) : (s.setWin off w).nfree = s.nfree := rfl
@[simp] theorem State.setWin_nseq (s : State) (off : Nat) (w : DWord) : (s.setWin off w).nseq = s.nseq := rfl
@[simp] theorem State.setWin_epoch (s : State) (off : Nat) (w : DWord) : (s.setWin off w).epoch = s.epoch := rfl
@[simp] theorem State.setWin_agenda (s : State) (off : Nat) (w : DWord) : (s.setWin off w).agenda = s.agenda := rfl
@[simp] theorem State.setWin_pending (s : State) (off : Nat) (w : DWord) : (s.setWin off w).pending = s.pending := rfl
@[simp] theorem State.setWin_mem (s : State) (off : Nat) (w : DWord) : (s.setWin off w).mem = s.mem := rfl
@[simp] theorem State.setWin_poison (s : State) (off : Nat) (w : DWord) : (s.setWin off w).poison = s.poison := rfl
@[simp] theorem State.setWin_dir (s : State) (off : Nat) (w : DWord) : (s.setWin off w).dir = s.dir := rfl
@[simp] theorem State.setWin_retired (s : State) (off : Nat) (w : DWord) : (s.setWin off w).retired = s.retired := rfl
@[simp] theorem State.setWin_suspect (s : State) (off : Nat) (w : DWord) : (s.setWin off w).suspect = s.suspect := rfl
@[simp] theorem State.setWin_corrected (s : State) (off : Nat) (w : DWord) : (s.setWin off w).corrected = s.corrected := rfl
@[simp] theorem State.setWin_frameCe (s : State) (off : Nat) (w : DWord) : (s.setWin off w).frameCe = s.frameCe := rfl
@[simp] theorem State.setWin_win (s : State) (off : Nat) (w : DWord) : (s.setWin off w).win = Tab.setD s.win (winReset off) off w := rfl
@[simp] theorem State.setWin_winDrain (s : State) (off : Nat) (w : DWord) : (s.setWin off w).winDrain = s.winDrain := rfl
@[simp] theorem State.setWin_hmap (s : State) (off : Nat) (w : DWord) : (s.setWin off w).hmap = s.hmap := rfl
@[simp] theorem State.setWin_vfr (s : State) (off : Nat) (w : DWord) : (s.setWin off w).vfr = s.vfr := rfl
@[simp] theorem State.setWin_cores (s : State) (off : Nat) (w : DWord) : (s.setWin off w).cores = s.cores := rfl
@[simp] theorem State.setWin_dtlb (s : State) (off : Nat) (w : DWord) : (s.setWin off w).dtlb = s.dtlb := rfl
@[simp] theorem State.setWin_oldTlb (s : State) (off : Nat) (w : DWord) : (s.setWin off w).oldTlb = s.oldTlb := rfl
@[simp] theorem State.setWin_lgs (s : State) (off : Nat) (w : DWord) : (s.setWin off w).lgs = s.lgs := rfl
@[simp] theorem State.setWin_wgs (s : State) (off : Nat) (w : DWord) : (s.setWin off w).wgs = s.wgs := rfl
@[simp] theorem State.setWin_launches (s : State) (off : Nat) (w : DWord) : (s.setWin off w).launches = s.launches := rfl
@[simp] theorem State.setWin_parts (s : State) (off : Nat) (w : DWord) : (s.setWin off w).parts = s.parts := rfl
@[simp] theorem State.setWin_accs (s : State) (off : Nat) (w : DWord) : (s.setWin off w).accs = s.accs := rfl
@[simp] theorem State.setWin_cmds (s : State) (off : Nat) (w : DWord) : (s.setWin off w).cmds = s.cmds := rfl
@[simp] theorem State.setWin_msgs (s : State) (off : Nat) (w : DWord) : (s.setWin off w).msgs = s.msgs := rfl
@[simp] theorem State.setWin_merges (s : State) (off : Nat) (w : DWord) : (s.setWin off w).merges = s.merges := rfl
@[simp] theorem State.setWin_frags (s : State) (off : Nat) (w : DWord) : (s.setWin off w).frags = s.frags := rfl
@[simp] theorem State.setWin_tallies (s : State) (off : Nat) (w : DWord) : (s.setWin off w).tallies = s.tallies := rfl
@[simp] theorem State.setWin_presence (s : State) (off : Nat) (w : DWord) : (s.setWin off w).presence = s.presence := rfl
@[simp] theorem State.setWin_packs (s : State) (off : Nat) (w : DWord) : (s.setWin off w).packs = s.packs := rfl
@[simp] theorem State.setWin_wbacks (s : State) (off : Nat) (w : DWord) : (s.setWin off w).wbacks = s.wbacks := rfl
@[simp] theorem State.setWin_links (s : State) (off : Nat) (w : DWord) : (s.setWin off w).links = s.links := rfl
@[simp] theorem State.setWin_ldirs (s : State) (off : Nat) (w : DWord) : (s.setWin off w).ldirs = s.ldirs := rfl
@[simp] theorem State.setWin_edgesDown (s : State) (off : Nat) (w : DWord) : (s.setWin off w).edgesDown = s.edgesDown := rfl
@[simp] theorem State.setWin_ports (s : State) (off : Nat) (w : DWord) : (s.setWin off w).ports = s.ports := rfl
@[simp] theorem State.setWin_heldRecs (s : State) (off : Nat) (w : DWord) : (s.setWin off w).heldRecs = s.heldRecs := rfl
@[simp] theorem State.setWin_lateRecs (s : State) (off : Nat) (w : DWord) : (s.setWin off w).lateRecs = s.lateRecs := rfl
@[simp] theorem State.setWin_permits (s : State) (off : Nat) (w : DWord) : (s.setWin off w).permits = s.permits := rfl
@[simp] theorem State.setWin_govs (s : State) (off : Nat) (w : DWord) : (s.setWin off w).govs = s.govs := rfl
@[simp] theorem State.setWin_preqs (s : State) (off : Nat) (w : DWord) : (s.setWin off w).preqs = s.preqs := rfl
@[simp] theorem State.setWin_s2w (s : State) (off : Nat) (w : DWord) : (s.setWin off w).s2w = s.s2w := rfl
@[simp] theorem State.setWin_invs (s : State) (off : Nat) (w : DWord) : (s.setWin off w).invs = s.invs := rfl
@[simp] theorem State.setWin_syncs (s : State) (off : Nat) (w : DWord) : (s.setWin off w).syncs = s.syncs := rfl
@[simp] theorem State.setWin_streams (s : State) (off : Nat) (w : DWord) : (s.setWin off w).streams = s.streams := rfl
@[simp] theorem State.setWin_boot (s : State) (off : Nat) (w : DWord) : (s.setWin off w).boot = s.boot := rfl
@[simp] theorem State.setWin_dumps (s : State) (off : Nat) (w : DWord) : (s.setWin off w).dumps = s.dumps := rfl
@[simp] theorem State.setWin_bhSince (s : State) (off : Nat) (w : DWord) : (s.setWin off w).bhSince = s.bhSince := rfl
@[simp] theorem State.setWin_cxlDownAt (s : State) (off : Nat) (w : DWord) : (s.setWin off w).cxlDownAt = s.cxlDownAt := rfl
@[simp] theorem State.setWin_bhWait (s : State) (off : Nat) (w : DWord) : (s.setWin off w).bhWait = s.bhWait := rfl
@[simp] theorem State.setWin_lqt (s : State) (off : Nat) (w : DWord) : (s.setWin off w).lqt = s.lqt := rfl
@[simp] theorem State.setWin_hostPts (s : State) (off : Nat) (w : DWord) : (s.setWin off w).hostPts = s.hostPts := rfl
@[simp] theorem State.setWin_dbi (s : State) (off : Nat) (w : DWord) : (s.setWin off w).dbi = s.dbi := rfl
@[simp] theorem State.setWin_hostGot (s : State) (off : Nat) (w : DWord) : (s.setWin off w).hostGot = s.hostGot := rfl

/-! ## `State.setWinBits` -/

@[simp] theorem State.setWinBits_now (s : State) (off lo n v : Nat) : (s.setWinBits off lo n v).now = s.now := rfl
@[simp] theorem State.setWinBits_cur (s : State) (off lo n v : Nat) : (s.setWinBits off lo n v).cur = s.cur := rfl
@[simp] theorem State.setWinBits_pk (s : State) (off lo n v : Nat) : (s.setWinBits off lo n v).pk = s.pk := rfl
@[simp] theorem State.setWinBits_nfree (s : State) (off lo n v : Nat) : (s.setWinBits off lo n v).nfree = s.nfree := rfl
@[simp] theorem State.setWinBits_nseq (s : State) (off lo n v : Nat) : (s.setWinBits off lo n v).nseq = s.nseq := rfl
@[simp] theorem State.setWinBits_epoch (s : State) (off lo n v : Nat) : (s.setWinBits off lo n v).epoch = s.epoch := rfl
@[simp] theorem State.setWinBits_agenda (s : State) (off lo n v : Nat) : (s.setWinBits off lo n v).agenda = s.agenda := rfl
@[simp] theorem State.setWinBits_pending (s : State) (off lo n v : Nat) : (s.setWinBits off lo n v).pending = s.pending := rfl
@[simp] theorem State.setWinBits_mem (s : State) (off lo n v : Nat) : (s.setWinBits off lo n v).mem = s.mem := rfl
@[simp] theorem State.setWinBits_poison (s : State) (off lo n v : Nat) : (s.setWinBits off lo n v).poison = s.poison := rfl
@[simp] theorem State.setWinBits_dir (s : State) (off lo n v : Nat) : (s.setWinBits off lo n v).dir = s.dir := rfl
@[simp] theorem State.setWinBits_retired (s : State) (off lo n v : Nat) : (s.setWinBits off lo n v).retired = s.retired := rfl
@[simp] theorem State.setWinBits_suspect (s : State) (off lo n v : Nat) : (s.setWinBits off lo n v).suspect = s.suspect := rfl
@[simp] theorem State.setWinBits_corrected (s : State) (off lo n v : Nat) : (s.setWinBits off lo n v).corrected = s.corrected := rfl
@[simp] theorem State.setWinBits_frameCe (s : State) (off lo n v : Nat) : (s.setWinBits off lo n v).frameCe = s.frameCe := rfl
@[simp] theorem State.setWinBits_win (s : State) (off lo n v : Nat) : (s.setWinBits off lo n v).win = Tab.setD s.win (winReset off) off (setBits (s.win' off) lo n v) := rfl
@[simp] theorem State.setWinBits_winDrain (s : State) (off lo n v : Nat) : (s.setWinBits off lo n v).winDrain = s.winDrain := rfl
@[simp] theorem State.setWinBits_hmap (s : State) (off lo n v : Nat) : (s.setWinBits off lo n v).hmap = s.hmap := rfl
@[simp] theorem State.setWinBits_vfr (s : State) (off lo n v : Nat) : (s.setWinBits off lo n v).vfr = s.vfr := rfl
@[simp] theorem State.setWinBits_cores (s : State) (off lo n v : Nat) : (s.setWinBits off lo n v).cores = s.cores := rfl
@[simp] theorem State.setWinBits_dtlb (s : State) (off lo n v : Nat) : (s.setWinBits off lo n v).dtlb = s.dtlb := rfl
@[simp] theorem State.setWinBits_oldTlb (s : State) (off lo n v : Nat) : (s.setWinBits off lo n v).oldTlb = s.oldTlb := rfl
@[simp] theorem State.setWinBits_lgs (s : State) (off lo n v : Nat) : (s.setWinBits off lo n v).lgs = s.lgs := rfl
@[simp] theorem State.setWinBits_wgs (s : State) (off lo n v : Nat) : (s.setWinBits off lo n v).wgs = s.wgs := rfl
@[simp] theorem State.setWinBits_launches (s : State) (off lo n v : Nat) : (s.setWinBits off lo n v).launches = s.launches := rfl
@[simp] theorem State.setWinBits_parts (s : State) (off lo n v : Nat) : (s.setWinBits off lo n v).parts = s.parts := rfl
@[simp] theorem State.setWinBits_accs (s : State) (off lo n v : Nat) : (s.setWinBits off lo n v).accs = s.accs := rfl
@[simp] theorem State.setWinBits_cmds (s : State) (off lo n v : Nat) : (s.setWinBits off lo n v).cmds = s.cmds := rfl
@[simp] theorem State.setWinBits_msgs (s : State) (off lo n v : Nat) : (s.setWinBits off lo n v).msgs = s.msgs := rfl
@[simp] theorem State.setWinBits_merges (s : State) (off lo n v : Nat) : (s.setWinBits off lo n v).merges = s.merges := rfl
@[simp] theorem State.setWinBits_frags (s : State) (off lo n v : Nat) : (s.setWinBits off lo n v).frags = s.frags := rfl
@[simp] theorem State.setWinBits_tallies (s : State) (off lo n v : Nat) : (s.setWinBits off lo n v).tallies = s.tallies := rfl
@[simp] theorem State.setWinBits_presence (s : State) (off lo n v : Nat) : (s.setWinBits off lo n v).presence = s.presence := rfl
@[simp] theorem State.setWinBits_packs (s : State) (off lo n v : Nat) : (s.setWinBits off lo n v).packs = s.packs := rfl
@[simp] theorem State.setWinBits_wbacks (s : State) (off lo n v : Nat) : (s.setWinBits off lo n v).wbacks = s.wbacks := rfl
@[simp] theorem State.setWinBits_links (s : State) (off lo n v : Nat) : (s.setWinBits off lo n v).links = s.links := rfl
@[simp] theorem State.setWinBits_ldirs (s : State) (off lo n v : Nat) : (s.setWinBits off lo n v).ldirs = s.ldirs := rfl
@[simp] theorem State.setWinBits_edgesDown (s : State) (off lo n v : Nat) : (s.setWinBits off lo n v).edgesDown = s.edgesDown := rfl
@[simp] theorem State.setWinBits_ports (s : State) (off lo n v : Nat) : (s.setWinBits off lo n v).ports = s.ports := rfl
@[simp] theorem State.setWinBits_heldRecs (s : State) (off lo n v : Nat) : (s.setWinBits off lo n v).heldRecs = s.heldRecs := rfl
@[simp] theorem State.setWinBits_lateRecs (s : State) (off lo n v : Nat) : (s.setWinBits off lo n v).lateRecs = s.lateRecs := rfl
@[simp] theorem State.setWinBits_permits (s : State) (off lo n v : Nat) : (s.setWinBits off lo n v).permits = s.permits := rfl
@[simp] theorem State.setWinBits_govs (s : State) (off lo n v : Nat) : (s.setWinBits off lo n v).govs = s.govs := rfl
@[simp] theorem State.setWinBits_preqs (s : State) (off lo n v : Nat) : (s.setWinBits off lo n v).preqs = s.preqs := rfl
@[simp] theorem State.setWinBits_s2w (s : State) (off lo n v : Nat) : (s.setWinBits off lo n v).s2w = s.s2w := rfl
@[simp] theorem State.setWinBits_invs (s : State) (off lo n v : Nat) : (s.setWinBits off lo n v).invs = s.invs := rfl
@[simp] theorem State.setWinBits_syncs (s : State) (off lo n v : Nat) : (s.setWinBits off lo n v).syncs = s.syncs := rfl
@[simp] theorem State.setWinBits_streams (s : State) (off lo n v : Nat) : (s.setWinBits off lo n v).streams = s.streams := rfl
@[simp] theorem State.setWinBits_boot (s : State) (off lo n v : Nat) : (s.setWinBits off lo n v).boot = s.boot := rfl
@[simp] theorem State.setWinBits_dumps (s : State) (off lo n v : Nat) : (s.setWinBits off lo n v).dumps = s.dumps := rfl
@[simp] theorem State.setWinBits_bhSince (s : State) (off lo n v : Nat) : (s.setWinBits off lo n v).bhSince = s.bhSince := rfl
@[simp] theorem State.setWinBits_cxlDownAt (s : State) (off lo n v : Nat) : (s.setWinBits off lo n v).cxlDownAt = s.cxlDownAt := rfl
@[simp] theorem State.setWinBits_bhWait (s : State) (off lo n v : Nat) : (s.setWinBits off lo n v).bhWait = s.bhWait := rfl
@[simp] theorem State.setWinBits_lqt (s : State) (off lo n v : Nat) : (s.setWinBits off lo n v).lqt = s.lqt := rfl
@[simp] theorem State.setWinBits_hostPts (s : State) (off lo n v : Nat) : (s.setWinBits off lo n v).hostPts = s.hostPts := rfl
@[simp] theorem State.setWinBits_dbi (s : State) (off lo n v : Nat) : (s.setWinBits off lo n v).dbi = s.dbi := rfl
@[simp] theorem State.setWinBits_hostGot (s : State) (off lo n v : Nat) : (s.setWinBits off lo n v).hostGot = s.hostGot := rfl

/-! ## `State.setVr` -/

@[simp] theorem State.setVr_now (s : State) (vf off : Nat) (w : DWord) : (s.setVr vf off w).now = s.now := rfl
@[simp] theorem State.setVr_cur (s : State) (vf off : Nat) (w : DWord) : (s.setVr vf off w).cur = s.cur := rfl
@[simp] theorem State.setVr_pk (s : State) (vf off : Nat) (w : DWord) : (s.setVr vf off w).pk = s.pk := rfl
@[simp] theorem State.setVr_nfree (s : State) (vf off : Nat) (w : DWord) : (s.setVr vf off w).nfree = s.nfree := rfl
@[simp] theorem State.setVr_nseq (s : State) (vf off : Nat) (w : DWord) : (s.setVr vf off w).nseq = s.nseq := rfl
@[simp] theorem State.setVr_epoch (s : State) (vf off : Nat) (w : DWord) : (s.setVr vf off w).epoch = s.epoch := rfl
@[simp] theorem State.setVr_agenda (s : State) (vf off : Nat) (w : DWord) : (s.setVr vf off w).agenda = s.agenda := rfl
@[simp] theorem State.setVr_pending (s : State) (vf off : Nat) (w : DWord) : (s.setVr vf off w).pending = s.pending := rfl
@[simp] theorem State.setVr_mem (s : State) (vf off : Nat) (w : DWord) : (s.setVr vf off w).mem = s.mem := rfl
@[simp] theorem State.setVr_poison (s : State) (vf off : Nat) (w : DWord) : (s.setVr vf off w).poison = s.poison := rfl
@[simp] theorem State.setVr_dir (s : State) (vf off : Nat) (w : DWord) : (s.setVr vf off w).dir = s.dir := rfl
@[simp] theorem State.setVr_retired (s : State) (vf off : Nat) (w : DWord) : (s.setVr vf off w).retired = s.retired := rfl
@[simp] theorem State.setVr_suspect (s : State) (vf off : Nat) (w : DWord) : (s.setVr vf off w).suspect = s.suspect := rfl
@[simp] theorem State.setVr_corrected (s : State) (vf off : Nat) (w : DWord) : (s.setVr vf off w).corrected = s.corrected := rfl
@[simp] theorem State.setVr_frameCe (s : State) (vf off : Nat) (w : DWord) : (s.setVr vf off w).frameCe = s.frameCe := rfl
@[simp] theorem State.setVr_win (s : State) (vf off : Nat) (w : DWord) : (s.setVr vf off w).win = s.win := rfl
@[simp] theorem State.setVr_winDrain (s : State) (vf off : Nat) (w : DWord) : (s.setVr vf off w).winDrain = s.winDrain := rfl
@[simp] theorem State.setVr_hmap (s : State) (vf off : Nat) (w : DWord) : (s.setVr vf off w).hmap = s.hmap := rfl
@[simp] theorem State.setVr_vfr (s : State) (vf off : Nat) (w : DWord) : (s.setVr vf off w).vfr = Tab.setD s.vfr 0 (4096 * vf + off) w := rfl
@[simp] theorem State.setVr_cores (s : State) (vf off : Nat) (w : DWord) : (s.setVr vf off w).cores = s.cores := rfl
@[simp] theorem State.setVr_dtlb (s : State) (vf off : Nat) (w : DWord) : (s.setVr vf off w).dtlb = s.dtlb := rfl
@[simp] theorem State.setVr_oldTlb (s : State) (vf off : Nat) (w : DWord) : (s.setVr vf off w).oldTlb = s.oldTlb := rfl
@[simp] theorem State.setVr_lgs (s : State) (vf off : Nat) (w : DWord) : (s.setVr vf off w).lgs = s.lgs := rfl
@[simp] theorem State.setVr_wgs (s : State) (vf off : Nat) (w : DWord) : (s.setVr vf off w).wgs = s.wgs := rfl
@[simp] theorem State.setVr_launches (s : State) (vf off : Nat) (w : DWord) : (s.setVr vf off w).launches = s.launches := rfl
@[simp] theorem State.setVr_parts (s : State) (vf off : Nat) (w : DWord) : (s.setVr vf off w).parts = s.parts := rfl
@[simp] theorem State.setVr_accs (s : State) (vf off : Nat) (w : DWord) : (s.setVr vf off w).accs = s.accs := rfl
@[simp] theorem State.setVr_cmds (s : State) (vf off : Nat) (w : DWord) : (s.setVr vf off w).cmds = s.cmds := rfl
@[simp] theorem State.setVr_msgs (s : State) (vf off : Nat) (w : DWord) : (s.setVr vf off w).msgs = s.msgs := rfl
@[simp] theorem State.setVr_merges (s : State) (vf off : Nat) (w : DWord) : (s.setVr vf off w).merges = s.merges := rfl
@[simp] theorem State.setVr_frags (s : State) (vf off : Nat) (w : DWord) : (s.setVr vf off w).frags = s.frags := rfl
@[simp] theorem State.setVr_tallies (s : State) (vf off : Nat) (w : DWord) : (s.setVr vf off w).tallies = s.tallies := rfl
@[simp] theorem State.setVr_presence (s : State) (vf off : Nat) (w : DWord) : (s.setVr vf off w).presence = s.presence := rfl
@[simp] theorem State.setVr_packs (s : State) (vf off : Nat) (w : DWord) : (s.setVr vf off w).packs = s.packs := rfl
@[simp] theorem State.setVr_wbacks (s : State) (vf off : Nat) (w : DWord) : (s.setVr vf off w).wbacks = s.wbacks := rfl
@[simp] theorem State.setVr_links (s : State) (vf off : Nat) (w : DWord) : (s.setVr vf off w).links = s.links := rfl
@[simp] theorem State.setVr_ldirs (s : State) (vf off : Nat) (w : DWord) : (s.setVr vf off w).ldirs = s.ldirs := rfl
@[simp] theorem State.setVr_edgesDown (s : State) (vf off : Nat) (w : DWord) : (s.setVr vf off w).edgesDown = s.edgesDown := rfl
@[simp] theorem State.setVr_ports (s : State) (vf off : Nat) (w : DWord) : (s.setVr vf off w).ports = s.ports := rfl
@[simp] theorem State.setVr_heldRecs (s : State) (vf off : Nat) (w : DWord) : (s.setVr vf off w).heldRecs = s.heldRecs := rfl
@[simp] theorem State.setVr_lateRecs (s : State) (vf off : Nat) (w : DWord) : (s.setVr vf off w).lateRecs = s.lateRecs := rfl
@[simp] theorem State.setVr_permits (s : State) (vf off : Nat) (w : DWord) : (s.setVr vf off w).permits = s.permits := rfl
@[simp] theorem State.setVr_govs (s : State) (vf off : Nat) (w : DWord) : (s.setVr vf off w).govs = s.govs := rfl
@[simp] theorem State.setVr_preqs (s : State) (vf off : Nat) (w : DWord) : (s.setVr vf off w).preqs = s.preqs := rfl
@[simp] theorem State.setVr_s2w (s : State) (vf off : Nat) (w : DWord) : (s.setVr vf off w).s2w = s.s2w := rfl
@[simp] theorem State.setVr_invs (s : State) (vf off : Nat) (w : DWord) : (s.setVr vf off w).invs = s.invs := rfl
@[simp] theorem State.setVr_syncs (s : State) (vf off : Nat) (w : DWord) : (s.setVr vf off w).syncs = s.syncs := rfl
@[simp] theorem State.setVr_streams (s : State) (vf off : Nat) (w : DWord) : (s.setVr vf off w).streams = s.streams := rfl
@[simp] theorem State.setVr_boot (s : State) (vf off : Nat) (w : DWord) : (s.setVr vf off w).boot = s.boot := rfl
@[simp] theorem State.setVr_dumps (s : State) (vf off : Nat) (w : DWord) : (s.setVr vf off w).dumps = s.dumps := rfl
@[simp] theorem State.setVr_bhSince (s : State) (vf off : Nat) (w : DWord) : (s.setVr vf off w).bhSince = s.bhSince := rfl
@[simp] theorem State.setVr_cxlDownAt (s : State) (vf off : Nat) (w : DWord) : (s.setVr vf off w).cxlDownAt = s.cxlDownAt := rfl
@[simp] theorem State.setVr_bhWait (s : State) (vf off : Nat) (w : DWord) : (s.setVr vf off w).bhWait = s.bhWait := rfl
@[simp] theorem State.setVr_lqt (s : State) (vf off : Nat) (w : DWord) : (s.setVr vf off w).lqt = s.lqt := rfl
@[simp] theorem State.setVr_hostPts (s : State) (vf off : Nat) (w : DWord) : (s.setVr vf off w).hostPts = s.hostPts := rfl
@[simp] theorem State.setVr_dbi (s : State) (vf off : Nat) (w : DWord) : (s.setVr vf off w).dbi = s.dbi := rfl
@[simp] theorem State.setVr_hostGot (s : State) (vf off : Nat) (w : DWord) : (s.setVr vf off w).hostGot = s.hostGot := rfl

/-! ## `State.setVrBits` -/

@[simp] theorem State.setVrBits_now (s : State) (vf off lo n v : Nat) : (s.setVrBits vf off lo n v).now = s.now := rfl
@[simp] theorem State.setVrBits_cur (s : State) (vf off lo n v : Nat) : (s.setVrBits vf off lo n v).cur = s.cur := rfl
@[simp] theorem State.setVrBits_pk (s : State) (vf off lo n v : Nat) : (s.setVrBits vf off lo n v).pk = s.pk := rfl
@[simp] theorem State.setVrBits_nfree (s : State) (vf off lo n v : Nat) : (s.setVrBits vf off lo n v).nfree = s.nfree := rfl
@[simp] theorem State.setVrBits_nseq (s : State) (vf off lo n v : Nat) : (s.setVrBits vf off lo n v).nseq = s.nseq := rfl
@[simp] theorem State.setVrBits_epoch (s : State) (vf off lo n v : Nat) : (s.setVrBits vf off lo n v).epoch = s.epoch := rfl
@[simp] theorem State.setVrBits_agenda (s : State) (vf off lo n v : Nat) : (s.setVrBits vf off lo n v).agenda = s.agenda := rfl
@[simp] theorem State.setVrBits_pending (s : State) (vf off lo n v : Nat) : (s.setVrBits vf off lo n v).pending = s.pending := rfl
@[simp] theorem State.setVrBits_mem (s : State) (vf off lo n v : Nat) : (s.setVrBits vf off lo n v).mem = s.mem := rfl
@[simp] theorem State.setVrBits_poison (s : State) (vf off lo n v : Nat) : (s.setVrBits vf off lo n v).poison = s.poison := rfl
@[simp] theorem State.setVrBits_dir (s : State) (vf off lo n v : Nat) : (s.setVrBits vf off lo n v).dir = s.dir := rfl
@[simp] theorem State.setVrBits_retired (s : State) (vf off lo n v : Nat) : (s.setVrBits vf off lo n v).retired = s.retired := rfl
@[simp] theorem State.setVrBits_suspect (s : State) (vf off lo n v : Nat) : (s.setVrBits vf off lo n v).suspect = s.suspect := rfl
@[simp] theorem State.setVrBits_corrected (s : State) (vf off lo n v : Nat) : (s.setVrBits vf off lo n v).corrected = s.corrected := rfl
@[simp] theorem State.setVrBits_frameCe (s : State) (vf off lo n v : Nat) : (s.setVrBits vf off lo n v).frameCe = s.frameCe := rfl
@[simp] theorem State.setVrBits_win (s : State) (vf off lo n v : Nat) : (s.setVrBits vf off lo n v).win = s.win := rfl
@[simp] theorem State.setVrBits_winDrain (s : State) (vf off lo n v : Nat) : (s.setVrBits vf off lo n v).winDrain = s.winDrain := rfl
@[simp] theorem State.setVrBits_hmap (s : State) (vf off lo n v : Nat) : (s.setVrBits vf off lo n v).hmap = s.hmap := rfl
@[simp] theorem State.setVrBits_vfr (s : State) (vf off lo n v : Nat) : (s.setVrBits vf off lo n v).vfr = Tab.setD s.vfr 0 (4096 * vf + off) (setBits (s.vr vf off) lo n v) := rfl
@[simp] theorem State.setVrBits_cores (s : State) (vf off lo n v : Nat) : (s.setVrBits vf off lo n v).cores = s.cores := rfl
@[simp] theorem State.setVrBits_dtlb (s : State) (vf off lo n v : Nat) : (s.setVrBits vf off lo n v).dtlb = s.dtlb := rfl
@[simp] theorem State.setVrBits_oldTlb (s : State) (vf off lo n v : Nat) : (s.setVrBits vf off lo n v).oldTlb = s.oldTlb := rfl
@[simp] theorem State.setVrBits_lgs (s : State) (vf off lo n v : Nat) : (s.setVrBits vf off lo n v).lgs = s.lgs := rfl
@[simp] theorem State.setVrBits_wgs (s : State) (vf off lo n v : Nat) : (s.setVrBits vf off lo n v).wgs = s.wgs := rfl
@[simp] theorem State.setVrBits_launches (s : State) (vf off lo n v : Nat) : (s.setVrBits vf off lo n v).launches = s.launches := rfl
@[simp] theorem State.setVrBits_parts (s : State) (vf off lo n v : Nat) : (s.setVrBits vf off lo n v).parts = s.parts := rfl
@[simp] theorem State.setVrBits_accs (s : State) (vf off lo n v : Nat) : (s.setVrBits vf off lo n v).accs = s.accs := rfl
@[simp] theorem State.setVrBits_cmds (s : State) (vf off lo n v : Nat) : (s.setVrBits vf off lo n v).cmds = s.cmds := rfl
@[simp] theorem State.setVrBits_msgs (s : State) (vf off lo n v : Nat) : (s.setVrBits vf off lo n v).msgs = s.msgs := rfl
@[simp] theorem State.setVrBits_merges (s : State) (vf off lo n v : Nat) : (s.setVrBits vf off lo n v).merges = s.merges := rfl
@[simp] theorem State.setVrBits_frags (s : State) (vf off lo n v : Nat) : (s.setVrBits vf off lo n v).frags = s.frags := rfl
@[simp] theorem State.setVrBits_tallies (s : State) (vf off lo n v : Nat) : (s.setVrBits vf off lo n v).tallies = s.tallies := rfl
@[simp] theorem State.setVrBits_presence (s : State) (vf off lo n v : Nat) : (s.setVrBits vf off lo n v).presence = s.presence := rfl
@[simp] theorem State.setVrBits_packs (s : State) (vf off lo n v : Nat) : (s.setVrBits vf off lo n v).packs = s.packs := rfl
@[simp] theorem State.setVrBits_wbacks (s : State) (vf off lo n v : Nat) : (s.setVrBits vf off lo n v).wbacks = s.wbacks := rfl
@[simp] theorem State.setVrBits_links (s : State) (vf off lo n v : Nat) : (s.setVrBits vf off lo n v).links = s.links := rfl
@[simp] theorem State.setVrBits_ldirs (s : State) (vf off lo n v : Nat) : (s.setVrBits vf off lo n v).ldirs = s.ldirs := rfl
@[simp] theorem State.setVrBits_edgesDown (s : State) (vf off lo n v : Nat) : (s.setVrBits vf off lo n v).edgesDown = s.edgesDown := rfl
@[simp] theorem State.setVrBits_ports (s : State) (vf off lo n v : Nat) : (s.setVrBits vf off lo n v).ports = s.ports := rfl
@[simp] theorem State.setVrBits_heldRecs (s : State) (vf off lo n v : Nat) : (s.setVrBits vf off lo n v).heldRecs = s.heldRecs := rfl
@[simp] theorem State.setVrBits_lateRecs (s : State) (vf off lo n v : Nat) : (s.setVrBits vf off lo n v).lateRecs = s.lateRecs := rfl
@[simp] theorem State.setVrBits_permits (s : State) (vf off lo n v : Nat) : (s.setVrBits vf off lo n v).permits = s.permits := rfl
@[simp] theorem State.setVrBits_govs (s : State) (vf off lo n v : Nat) : (s.setVrBits vf off lo n v).govs = s.govs := rfl
@[simp] theorem State.setVrBits_preqs (s : State) (vf off lo n v : Nat) : (s.setVrBits vf off lo n v).preqs = s.preqs := rfl
@[simp] theorem State.setVrBits_s2w (s : State) (vf off lo n v : Nat) : (s.setVrBits vf off lo n v).s2w = s.s2w := rfl
@[simp] theorem State.setVrBits_invs (s : State) (vf off lo n v : Nat) : (s.setVrBits vf off lo n v).invs = s.invs := rfl
@[simp] theorem State.setVrBits_syncs (s : State) (vf off lo n v : Nat) : (s.setVrBits vf off lo n v).syncs = s.syncs := rfl
@[simp] theorem State.setVrBits_streams (s : State) (vf off lo n v : Nat) : (s.setVrBits vf off lo n v).streams = s.streams := rfl
@[simp] theorem State.setVrBits_boot (s : State) (vf off lo n v : Nat) : (s.setVrBits vf off lo n v).boot = s.boot := rfl
@[simp] theorem State.setVrBits_dumps (s : State) (vf off lo n v : Nat) : (s.setVrBits vf off lo n v).dumps = s.dumps := rfl
@[simp] theorem State.setVrBits_bhSince (s : State) (vf off lo n v : Nat) : (s.setVrBits vf off lo n v).bhSince = s.bhSince := rfl
@[simp] theorem State.setVrBits_cxlDownAt (s : State) (vf off lo n v : Nat) : (s.setVrBits vf off lo n v).cxlDownAt = s.cxlDownAt := rfl
@[simp] theorem State.setVrBits_bhWait (s : State) (vf off lo n v : Nat) : (s.setVrBits vf off lo n v).bhWait = s.bhWait := rfl
@[simp] theorem State.setVrBits_lqt (s : State) (vf off lo n v : Nat) : (s.setVrBits vf off lo n v).lqt = s.lqt := rfl
@[simp] theorem State.setVrBits_hostPts (s : State) (vf off lo n v : Nat) : (s.setVrBits vf off lo n v).hostPts = s.hostPts := rfl
@[simp] theorem State.setVrBits_dbi (s : State) (vf off lo n v : Nat) : (s.setVrBits vf off lo n v).dbi = s.dbi := rfl
@[simp] theorem State.setVrBits_hostGot (s : State) (vf off lo n v : Nat) : (s.setVrBits vf off lo n v).hostGot = s.hostGot := rfl

/-! ## `State.setLg` -/

@[simp] theorem State.setLg_now (s : State) (g : Nat) (x : Lg) : (s.setLg g x).now = s.now := rfl
@[simp] theorem State.setLg_cur (s : State) (g : Nat) (x : Lg) : (s.setLg g x).cur = s.cur := rfl
@[simp] theorem State.setLg_pk (s : State) (g : Nat) (x : Lg) : (s.setLg g x).pk = s.pk := rfl
@[simp] theorem State.setLg_nfree (s : State) (g : Nat) (x : Lg) : (s.setLg g x).nfree = s.nfree := rfl
@[simp] theorem State.setLg_nseq (s : State) (g : Nat) (x : Lg) : (s.setLg g x).nseq = s.nseq := rfl
@[simp] theorem State.setLg_epoch (s : State) (g : Nat) (x : Lg) : (s.setLg g x).epoch = s.epoch := rfl
@[simp] theorem State.setLg_agenda (s : State) (g : Nat) (x : Lg) : (s.setLg g x).agenda = s.agenda := rfl
@[simp] theorem State.setLg_pending (s : State) (g : Nat) (x : Lg) : (s.setLg g x).pending = s.pending := rfl
@[simp] theorem State.setLg_mem (s : State) (g : Nat) (x : Lg) : (s.setLg g x).mem = s.mem := rfl
@[simp] theorem State.setLg_poison (s : State) (g : Nat) (x : Lg) : (s.setLg g x).poison = s.poison := rfl
@[simp] theorem State.setLg_dir (s : State) (g : Nat) (x : Lg) : (s.setLg g x).dir = s.dir := rfl
@[simp] theorem State.setLg_retired (s : State) (g : Nat) (x : Lg) : (s.setLg g x).retired = s.retired := rfl
@[simp] theorem State.setLg_suspect (s : State) (g : Nat) (x : Lg) : (s.setLg g x).suspect = s.suspect := rfl
@[simp] theorem State.setLg_corrected (s : State) (g : Nat) (x : Lg) : (s.setLg g x).corrected = s.corrected := rfl
@[simp] theorem State.setLg_frameCe (s : State) (g : Nat) (x : Lg) : (s.setLg g x).frameCe = s.frameCe := rfl
@[simp] theorem State.setLg_win (s : State) (g : Nat) (x : Lg) : (s.setLg g x).win = s.win := rfl
@[simp] theorem State.setLg_winDrain (s : State) (g : Nat) (x : Lg) : (s.setLg g x).winDrain = s.winDrain := rfl
@[simp] theorem State.setLg_hmap (s : State) (g : Nat) (x : Lg) : (s.setLg g x).hmap = s.hmap := rfl
@[simp] theorem State.setLg_vfr (s : State) (g : Nat) (x : Lg) : (s.setLg g x).vfr = s.vfr := rfl
@[simp] theorem State.setLg_cores (s : State) (g : Nat) (x : Lg) : (s.setLg g x).cores = s.cores := rfl
@[simp] theorem State.setLg_dtlb (s : State) (g : Nat) (x : Lg) : (s.setLg g x).dtlb = s.dtlb := rfl
@[simp] theorem State.setLg_oldTlb (s : State) (g : Nat) (x : Lg) : (s.setLg g x).oldTlb = s.oldTlb := rfl
@[simp] theorem State.setLg_lgs (s : State) (g : Nat) (x : Lg) : (s.setLg g x).lgs = s.lgs.put g x := rfl
@[simp] theorem State.setLg_wgs (s : State) (g : Nat) (x : Lg) : (s.setLg g x).wgs = s.wgs := rfl
@[simp] theorem State.setLg_launches (s : State) (g : Nat) (x : Lg) : (s.setLg g x).launches = s.launches := rfl
@[simp] theorem State.setLg_parts (s : State) (g : Nat) (x : Lg) : (s.setLg g x).parts = s.parts := rfl
@[simp] theorem State.setLg_accs (s : State) (g : Nat) (x : Lg) : (s.setLg g x).accs = s.accs := rfl
@[simp] theorem State.setLg_cmds (s : State) (g : Nat) (x : Lg) : (s.setLg g x).cmds = s.cmds := rfl
@[simp] theorem State.setLg_msgs (s : State) (g : Nat) (x : Lg) : (s.setLg g x).msgs = s.msgs := rfl
@[simp] theorem State.setLg_merges (s : State) (g : Nat) (x : Lg) : (s.setLg g x).merges = s.merges := rfl
@[simp] theorem State.setLg_frags (s : State) (g : Nat) (x : Lg) : (s.setLg g x).frags = s.frags := rfl
@[simp] theorem State.setLg_tallies (s : State) (g : Nat) (x : Lg) : (s.setLg g x).tallies = s.tallies := rfl
@[simp] theorem State.setLg_presence (s : State) (g : Nat) (x : Lg) : (s.setLg g x).presence = s.presence := rfl
@[simp] theorem State.setLg_packs (s : State) (g : Nat) (x : Lg) : (s.setLg g x).packs = s.packs := rfl
@[simp] theorem State.setLg_wbacks (s : State) (g : Nat) (x : Lg) : (s.setLg g x).wbacks = s.wbacks := rfl
@[simp] theorem State.setLg_links (s : State) (g : Nat) (x : Lg) : (s.setLg g x).links = s.links := rfl
@[simp] theorem State.setLg_ldirs (s : State) (g : Nat) (x : Lg) : (s.setLg g x).ldirs = s.ldirs := rfl
@[simp] theorem State.setLg_edgesDown (s : State) (g : Nat) (x : Lg) : (s.setLg g x).edgesDown = s.edgesDown := rfl
@[simp] theorem State.setLg_ports (s : State) (g : Nat) (x : Lg) : (s.setLg g x).ports = s.ports := rfl
@[simp] theorem State.setLg_heldRecs (s : State) (g : Nat) (x : Lg) : (s.setLg g x).heldRecs = s.heldRecs := rfl
@[simp] theorem State.setLg_lateRecs (s : State) (g : Nat) (x : Lg) : (s.setLg g x).lateRecs = s.lateRecs := rfl
@[simp] theorem State.setLg_permits (s : State) (g : Nat) (x : Lg) : (s.setLg g x).permits = s.permits := rfl
@[simp] theorem State.setLg_govs (s : State) (g : Nat) (x : Lg) : (s.setLg g x).govs = s.govs := rfl
@[simp] theorem State.setLg_preqs (s : State) (g : Nat) (x : Lg) : (s.setLg g x).preqs = s.preqs := rfl
@[simp] theorem State.setLg_s2w (s : State) (g : Nat) (x : Lg) : (s.setLg g x).s2w = s.s2w := rfl
@[simp] theorem State.setLg_invs (s : State) (g : Nat) (x : Lg) : (s.setLg g x).invs = s.invs := rfl
@[simp] theorem State.setLg_syncs (s : State) (g : Nat) (x : Lg) : (s.setLg g x).syncs = s.syncs := rfl
@[simp] theorem State.setLg_streams (s : State) (g : Nat) (x : Lg) : (s.setLg g x).streams = s.streams := rfl
@[simp] theorem State.setLg_boot (s : State) (g : Nat) (x : Lg) : (s.setLg g x).boot = s.boot := rfl
@[simp] theorem State.setLg_dumps (s : State) (g : Nat) (x : Lg) : (s.setLg g x).dumps = s.dumps := rfl
@[simp] theorem State.setLg_bhSince (s : State) (g : Nat) (x : Lg) : (s.setLg g x).bhSince = s.bhSince := rfl
@[simp] theorem State.setLg_cxlDownAt (s : State) (g : Nat) (x : Lg) : (s.setLg g x).cxlDownAt = s.cxlDownAt := rfl
@[simp] theorem State.setLg_bhWait (s : State) (g : Nat) (x : Lg) : (s.setLg g x).bhWait = s.bhWait := rfl
@[simp] theorem State.setLg_lqt (s : State) (g : Nat) (x : Lg) : (s.setLg g x).lqt = s.lqt := rfl
@[simp] theorem State.setLg_hostPts (s : State) (g : Nat) (x : Lg) : (s.setLg g x).hostPts = s.hostPts := rfl
@[simp] theorem State.setLg_dbi (s : State) (g : Nat) (x : Lg) : (s.setLg g x).dbi = s.dbi := rfl
@[simp] theorem State.setLg_hostGot (s : State) (g : Nat) (x : Lg) : (s.setLg g x).hostGot = s.hostGot := rfl

/-! ## `State.modLg` -/

@[simp] theorem State.modLg_now (s : State) (g : Nat) (f : Lg → Lg) : (s.modLg g f).now = s.now := rfl
@[simp] theorem State.modLg_cur (s : State) (g : Nat) (f : Lg → Lg) : (s.modLg g f).cur = s.cur := rfl
@[simp] theorem State.modLg_pk (s : State) (g : Nat) (f : Lg → Lg) : (s.modLg g f).pk = s.pk := rfl
@[simp] theorem State.modLg_nfree (s : State) (g : Nat) (f : Lg → Lg) : (s.modLg g f).nfree = s.nfree := rfl
@[simp] theorem State.modLg_nseq (s : State) (g : Nat) (f : Lg → Lg) : (s.modLg g f).nseq = s.nseq := rfl
@[simp] theorem State.modLg_epoch (s : State) (g : Nat) (f : Lg → Lg) : (s.modLg g f).epoch = s.epoch := rfl
@[simp] theorem State.modLg_agenda (s : State) (g : Nat) (f : Lg → Lg) : (s.modLg g f).agenda = s.agenda := rfl
@[simp] theorem State.modLg_pending (s : State) (g : Nat) (f : Lg → Lg) : (s.modLg g f).pending = s.pending := rfl
@[simp] theorem State.modLg_mem (s : State) (g : Nat) (f : Lg → Lg) : (s.modLg g f).mem = s.mem := rfl
@[simp] theorem State.modLg_poison (s : State) (g : Nat) (f : Lg → Lg) : (s.modLg g f).poison = s.poison := rfl
@[simp] theorem State.modLg_dir (s : State) (g : Nat) (f : Lg → Lg) : (s.modLg g f).dir = s.dir := rfl
@[simp] theorem State.modLg_retired (s : State) (g : Nat) (f : Lg → Lg) : (s.modLg g f).retired = s.retired := rfl
@[simp] theorem State.modLg_suspect (s : State) (g : Nat) (f : Lg → Lg) : (s.modLg g f).suspect = s.suspect := rfl
@[simp] theorem State.modLg_corrected (s : State) (g : Nat) (f : Lg → Lg) : (s.modLg g f).corrected = s.corrected := rfl
@[simp] theorem State.modLg_frameCe (s : State) (g : Nat) (f : Lg → Lg) : (s.modLg g f).frameCe = s.frameCe := rfl
@[simp] theorem State.modLg_win (s : State) (g : Nat) (f : Lg → Lg) : (s.modLg g f).win = s.win := rfl
@[simp] theorem State.modLg_winDrain (s : State) (g : Nat) (f : Lg → Lg) : (s.modLg g f).winDrain = s.winDrain := rfl
@[simp] theorem State.modLg_hmap (s : State) (g : Nat) (f : Lg → Lg) : (s.modLg g f).hmap = s.hmap := rfl
@[simp] theorem State.modLg_vfr (s : State) (g : Nat) (f : Lg → Lg) : (s.modLg g f).vfr = s.vfr := rfl
@[simp] theorem State.modLg_cores (s : State) (g : Nat) (f : Lg → Lg) : (s.modLg g f).cores = s.cores := rfl
@[simp] theorem State.modLg_dtlb (s : State) (g : Nat) (f : Lg → Lg) : (s.modLg g f).dtlb = s.dtlb := rfl
@[simp] theorem State.modLg_oldTlb (s : State) (g : Nat) (f : Lg → Lg) : (s.modLg g f).oldTlb = s.oldTlb := rfl
@[simp] theorem State.modLg_lgs (s : State) (g : Nat) (f : Lg → Lg) : (s.modLg g f).lgs = s.lgs.modify g f := rfl
@[simp] theorem State.modLg_wgs (s : State) (g : Nat) (f : Lg → Lg) : (s.modLg g f).wgs = s.wgs := rfl
@[simp] theorem State.modLg_launches (s : State) (g : Nat) (f : Lg → Lg) : (s.modLg g f).launches = s.launches := rfl
@[simp] theorem State.modLg_parts (s : State) (g : Nat) (f : Lg → Lg) : (s.modLg g f).parts = s.parts := rfl
@[simp] theorem State.modLg_accs (s : State) (g : Nat) (f : Lg → Lg) : (s.modLg g f).accs = s.accs := rfl
@[simp] theorem State.modLg_cmds (s : State) (g : Nat) (f : Lg → Lg) : (s.modLg g f).cmds = s.cmds := rfl
@[simp] theorem State.modLg_msgs (s : State) (g : Nat) (f : Lg → Lg) : (s.modLg g f).msgs = s.msgs := rfl
@[simp] theorem State.modLg_merges (s : State) (g : Nat) (f : Lg → Lg) : (s.modLg g f).merges = s.merges := rfl
@[simp] theorem State.modLg_frags (s : State) (g : Nat) (f : Lg → Lg) : (s.modLg g f).frags = s.frags := rfl
@[simp] theorem State.modLg_tallies (s : State) (g : Nat) (f : Lg → Lg) : (s.modLg g f).tallies = s.tallies := rfl
@[simp] theorem State.modLg_presence (s : State) (g : Nat) (f : Lg → Lg) : (s.modLg g f).presence = s.presence := rfl
@[simp] theorem State.modLg_packs (s : State) (g : Nat) (f : Lg → Lg) : (s.modLg g f).packs = s.packs := rfl
@[simp] theorem State.modLg_wbacks (s : State) (g : Nat) (f : Lg → Lg) : (s.modLg g f).wbacks = s.wbacks := rfl
@[simp] theorem State.modLg_links (s : State) (g : Nat) (f : Lg → Lg) : (s.modLg g f).links = s.links := rfl
@[simp] theorem State.modLg_ldirs (s : State) (g : Nat) (f : Lg → Lg) : (s.modLg g f).ldirs = s.ldirs := rfl
@[simp] theorem State.modLg_edgesDown (s : State) (g : Nat) (f : Lg → Lg) : (s.modLg g f).edgesDown = s.edgesDown := rfl
@[simp] theorem State.modLg_ports (s : State) (g : Nat) (f : Lg → Lg) : (s.modLg g f).ports = s.ports := rfl
@[simp] theorem State.modLg_heldRecs (s : State) (g : Nat) (f : Lg → Lg) : (s.modLg g f).heldRecs = s.heldRecs := rfl
@[simp] theorem State.modLg_lateRecs (s : State) (g : Nat) (f : Lg → Lg) : (s.modLg g f).lateRecs = s.lateRecs := rfl
@[simp] theorem State.modLg_permits (s : State) (g : Nat) (f : Lg → Lg) : (s.modLg g f).permits = s.permits := rfl
@[simp] theorem State.modLg_govs (s : State) (g : Nat) (f : Lg → Lg) : (s.modLg g f).govs = s.govs := rfl
@[simp] theorem State.modLg_preqs (s : State) (g : Nat) (f : Lg → Lg) : (s.modLg g f).preqs = s.preqs := rfl
@[simp] theorem State.modLg_s2w (s : State) (g : Nat) (f : Lg → Lg) : (s.modLg g f).s2w = s.s2w := rfl
@[simp] theorem State.modLg_invs (s : State) (g : Nat) (f : Lg → Lg) : (s.modLg g f).invs = s.invs := rfl
@[simp] theorem State.modLg_syncs (s : State) (g : Nat) (f : Lg → Lg) : (s.modLg g f).syncs = s.syncs := rfl
@[simp] theorem State.modLg_streams (s : State) (g : Nat) (f : Lg → Lg) : (s.modLg g f).streams = s.streams := rfl
@[simp] theorem State.modLg_boot (s : State) (g : Nat) (f : Lg → Lg) : (s.modLg g f).boot = s.boot := rfl
@[simp] theorem State.modLg_dumps (s : State) (g : Nat) (f : Lg → Lg) : (s.modLg g f).dumps = s.dumps := rfl
@[simp] theorem State.modLg_bhSince (s : State) (g : Nat) (f : Lg → Lg) : (s.modLg g f).bhSince = s.bhSince := rfl
@[simp] theorem State.modLg_cxlDownAt (s : State) (g : Nat) (f : Lg → Lg) : (s.modLg g f).cxlDownAt = s.cxlDownAt := rfl
@[simp] theorem State.modLg_bhWait (s : State) (g : Nat) (f : Lg → Lg) : (s.modLg g f).bhWait = s.bhWait := rfl
@[simp] theorem State.modLg_lqt (s : State) (g : Nat) (f : Lg → Lg) : (s.modLg g f).lqt = s.lqt := rfl
@[simp] theorem State.modLg_hostPts (s : State) (g : Nat) (f : Lg → Lg) : (s.modLg g f).hostPts = s.hostPts := rfl
@[simp] theorem State.modLg_dbi (s : State) (g : Nat) (f : Lg → Lg) : (s.modLg g f).dbi = s.dbi := rfl
@[simp] theorem State.modLg_hostGot (s : State) (g : Nat) (f : Lg → Lg) : (s.modLg g f).hostGot = s.hostGot := rfl

/-! ## `State.modWg` -/

@[simp] theorem State.modWg_now (s : State) (w : Nat) (f : Wg → Wg) : (s.modWg w f).now = s.now := rfl
@[simp] theorem State.modWg_cur (s : State) (w : Nat) (f : Wg → Wg) : (s.modWg w f).cur = s.cur := rfl
@[simp] theorem State.modWg_pk (s : State) (w : Nat) (f : Wg → Wg) : (s.modWg w f).pk = s.pk := rfl
@[simp] theorem State.modWg_nfree (s : State) (w : Nat) (f : Wg → Wg) : (s.modWg w f).nfree = s.nfree := rfl
@[simp] theorem State.modWg_nseq (s : State) (w : Nat) (f : Wg → Wg) : (s.modWg w f).nseq = s.nseq := rfl
@[simp] theorem State.modWg_epoch (s : State) (w : Nat) (f : Wg → Wg) : (s.modWg w f).epoch = s.epoch := rfl
@[simp] theorem State.modWg_agenda (s : State) (w : Nat) (f : Wg → Wg) : (s.modWg w f).agenda = s.agenda := rfl
@[simp] theorem State.modWg_pending (s : State) (w : Nat) (f : Wg → Wg) : (s.modWg w f).pending = s.pending := rfl
@[simp] theorem State.modWg_mem (s : State) (w : Nat) (f : Wg → Wg) : (s.modWg w f).mem = s.mem := rfl
@[simp] theorem State.modWg_poison (s : State) (w : Nat) (f : Wg → Wg) : (s.modWg w f).poison = s.poison := rfl
@[simp] theorem State.modWg_dir (s : State) (w : Nat) (f : Wg → Wg) : (s.modWg w f).dir = s.dir := rfl
@[simp] theorem State.modWg_retired (s : State) (w : Nat) (f : Wg → Wg) : (s.modWg w f).retired = s.retired := rfl
@[simp] theorem State.modWg_suspect (s : State) (w : Nat) (f : Wg → Wg) : (s.modWg w f).suspect = s.suspect := rfl
@[simp] theorem State.modWg_corrected (s : State) (w : Nat) (f : Wg → Wg) : (s.modWg w f).corrected = s.corrected := rfl
@[simp] theorem State.modWg_frameCe (s : State) (w : Nat) (f : Wg → Wg) : (s.modWg w f).frameCe = s.frameCe := rfl
@[simp] theorem State.modWg_win (s : State) (w : Nat) (f : Wg → Wg) : (s.modWg w f).win = s.win := rfl
@[simp] theorem State.modWg_winDrain (s : State) (w : Nat) (f : Wg → Wg) : (s.modWg w f).winDrain = s.winDrain := rfl
@[simp] theorem State.modWg_hmap (s : State) (w : Nat) (f : Wg → Wg) : (s.modWg w f).hmap = s.hmap := rfl
@[simp] theorem State.modWg_vfr (s : State) (w : Nat) (f : Wg → Wg) : (s.modWg w f).vfr = s.vfr := rfl
@[simp] theorem State.modWg_cores (s : State) (w : Nat) (f : Wg → Wg) : (s.modWg w f).cores = s.cores := rfl
@[simp] theorem State.modWg_dtlb (s : State) (w : Nat) (f : Wg → Wg) : (s.modWg w f).dtlb = s.dtlb := rfl
@[simp] theorem State.modWg_oldTlb (s : State) (w : Nat) (f : Wg → Wg) : (s.modWg w f).oldTlb = s.oldTlb := rfl
@[simp] theorem State.modWg_lgs (s : State) (w : Nat) (f : Wg → Wg) : (s.modWg w f).lgs = s.lgs := rfl
@[simp] theorem State.modWg_wgs (s : State) (w : Nat) (f : Wg → Wg) : (s.modWg w f).wgs = s.wgs.modify w f := rfl
@[simp] theorem State.modWg_launches (s : State) (w : Nat) (f : Wg → Wg) : (s.modWg w f).launches = s.launches := rfl
@[simp] theorem State.modWg_parts (s : State) (w : Nat) (f : Wg → Wg) : (s.modWg w f).parts = s.parts := rfl
@[simp] theorem State.modWg_accs (s : State) (w : Nat) (f : Wg → Wg) : (s.modWg w f).accs = s.accs := rfl
@[simp] theorem State.modWg_cmds (s : State) (w : Nat) (f : Wg → Wg) : (s.modWg w f).cmds = s.cmds := rfl
@[simp] theorem State.modWg_msgs (s : State) (w : Nat) (f : Wg → Wg) : (s.modWg w f).msgs = s.msgs := rfl
@[simp] theorem State.modWg_merges (s : State) (w : Nat) (f : Wg → Wg) : (s.modWg w f).merges = s.merges := rfl
@[simp] theorem State.modWg_frags (s : State) (w : Nat) (f : Wg → Wg) : (s.modWg w f).frags = s.frags := rfl
@[simp] theorem State.modWg_tallies (s : State) (w : Nat) (f : Wg → Wg) : (s.modWg w f).tallies = s.tallies := rfl
@[simp] theorem State.modWg_presence (s : State) (w : Nat) (f : Wg → Wg) : (s.modWg w f).presence = s.presence := rfl
@[simp] theorem State.modWg_packs (s : State) (w : Nat) (f : Wg → Wg) : (s.modWg w f).packs = s.packs := rfl
@[simp] theorem State.modWg_wbacks (s : State) (w : Nat) (f : Wg → Wg) : (s.modWg w f).wbacks = s.wbacks := rfl
@[simp] theorem State.modWg_links (s : State) (w : Nat) (f : Wg → Wg) : (s.modWg w f).links = s.links := rfl
@[simp] theorem State.modWg_ldirs (s : State) (w : Nat) (f : Wg → Wg) : (s.modWg w f).ldirs = s.ldirs := rfl
@[simp] theorem State.modWg_edgesDown (s : State) (w : Nat) (f : Wg → Wg) : (s.modWg w f).edgesDown = s.edgesDown := rfl
@[simp] theorem State.modWg_ports (s : State) (w : Nat) (f : Wg → Wg) : (s.modWg w f).ports = s.ports := rfl
@[simp] theorem State.modWg_heldRecs (s : State) (w : Nat) (f : Wg → Wg) : (s.modWg w f).heldRecs = s.heldRecs := rfl
@[simp] theorem State.modWg_lateRecs (s : State) (w : Nat) (f : Wg → Wg) : (s.modWg w f).lateRecs = s.lateRecs := rfl
@[simp] theorem State.modWg_permits (s : State) (w : Nat) (f : Wg → Wg) : (s.modWg w f).permits = s.permits := rfl
@[simp] theorem State.modWg_govs (s : State) (w : Nat) (f : Wg → Wg) : (s.modWg w f).govs = s.govs := rfl
@[simp] theorem State.modWg_preqs (s : State) (w : Nat) (f : Wg → Wg) : (s.modWg w f).preqs = s.preqs := rfl
@[simp] theorem State.modWg_s2w (s : State) (w : Nat) (f : Wg → Wg) : (s.modWg w f).s2w = s.s2w := rfl
@[simp] theorem State.modWg_invs (s : State) (w : Nat) (f : Wg → Wg) : (s.modWg w f).invs = s.invs := rfl
@[simp] theorem State.modWg_syncs (s : State) (w : Nat) (f : Wg → Wg) : (s.modWg w f).syncs = s.syncs := rfl
@[simp] theorem State.modWg_streams (s : State) (w : Nat) (f : Wg → Wg) : (s.modWg w f).streams = s.streams := rfl
@[simp] theorem State.modWg_boot (s : State) (w : Nat) (f : Wg → Wg) : (s.modWg w f).boot = s.boot := rfl
@[simp] theorem State.modWg_dumps (s : State) (w : Nat) (f : Wg → Wg) : (s.modWg w f).dumps = s.dumps := rfl
@[simp] theorem State.modWg_bhSince (s : State) (w : Nat) (f : Wg → Wg) : (s.modWg w f).bhSince = s.bhSince := rfl
@[simp] theorem State.modWg_cxlDownAt (s : State) (w : Nat) (f : Wg → Wg) : (s.modWg w f).cxlDownAt = s.cxlDownAt := rfl
@[simp] theorem State.modWg_bhWait (s : State) (w : Nat) (f : Wg → Wg) : (s.modWg w f).bhWait = s.bhWait := rfl
@[simp] theorem State.modWg_lqt (s : State) (w : Nat) (f : Wg → Wg) : (s.modWg w f).lqt = s.lqt := rfl
@[simp] theorem State.modWg_hostPts (s : State) (w : Nat) (f : Wg → Wg) : (s.modWg w f).hostPts = s.hostPts := rfl
@[simp] theorem State.modWg_dbi (s : State) (w : Nat) (f : Wg → Wg) : (s.modWg w f).dbi = s.dbi := rfl
@[simp] theorem State.modWg_hostGot (s : State) (w : Nat) (f : Wg → Wg) : (s.modWg w f).hostGot = s.hostGot := rfl

/-! ## `State.modLaunch` -/

@[simp] theorem State.modLaunch_now (s : State) (l : Nat) (f : Launch → Launch) : (s.modLaunch l f).now = s.now := rfl
@[simp] theorem State.modLaunch_cur (s : State) (l : Nat) (f : Launch → Launch) : (s.modLaunch l f).cur = s.cur := rfl
@[simp] theorem State.modLaunch_pk (s : State) (l : Nat) (f : Launch → Launch) : (s.modLaunch l f).pk = s.pk := rfl
@[simp] theorem State.modLaunch_nfree (s : State) (l : Nat) (f : Launch → Launch) : (s.modLaunch l f).nfree = s.nfree := rfl
@[simp] theorem State.modLaunch_nseq (s : State) (l : Nat) (f : Launch → Launch) : (s.modLaunch l f).nseq = s.nseq := rfl
@[simp] theorem State.modLaunch_epoch (s : State) (l : Nat) (f : Launch → Launch) : (s.modLaunch l f).epoch = s.epoch := rfl
@[simp] theorem State.modLaunch_agenda (s : State) (l : Nat) (f : Launch → Launch) : (s.modLaunch l f).agenda = s.agenda := rfl
@[simp] theorem State.modLaunch_pending (s : State) (l : Nat) (f : Launch → Launch) : (s.modLaunch l f).pending = s.pending := rfl
@[simp] theorem State.modLaunch_mem (s : State) (l : Nat) (f : Launch → Launch) : (s.modLaunch l f).mem = s.mem := rfl
@[simp] theorem State.modLaunch_poison (s : State) (l : Nat) (f : Launch → Launch) : (s.modLaunch l f).poison = s.poison := rfl
@[simp] theorem State.modLaunch_dir (s : State) (l : Nat) (f : Launch → Launch) : (s.modLaunch l f).dir = s.dir := rfl
@[simp] theorem State.modLaunch_retired (s : State) (l : Nat) (f : Launch → Launch) : (s.modLaunch l f).retired = s.retired := rfl
@[simp] theorem State.modLaunch_suspect (s : State) (l : Nat) (f : Launch → Launch) : (s.modLaunch l f).suspect = s.suspect := rfl
@[simp] theorem State.modLaunch_corrected (s : State) (l : Nat) (f : Launch → Launch) : (s.modLaunch l f).corrected = s.corrected := rfl
@[simp] theorem State.modLaunch_frameCe (s : State) (l : Nat) (f : Launch → Launch) : (s.modLaunch l f).frameCe = s.frameCe := rfl
@[simp] theorem State.modLaunch_win (s : State) (l : Nat) (f : Launch → Launch) : (s.modLaunch l f).win = s.win := rfl
@[simp] theorem State.modLaunch_winDrain (s : State) (l : Nat) (f : Launch → Launch) : (s.modLaunch l f).winDrain = s.winDrain := rfl
@[simp] theorem State.modLaunch_hmap (s : State) (l : Nat) (f : Launch → Launch) : (s.modLaunch l f).hmap = s.hmap := rfl
@[simp] theorem State.modLaunch_vfr (s : State) (l : Nat) (f : Launch → Launch) : (s.modLaunch l f).vfr = s.vfr := rfl
@[simp] theorem State.modLaunch_cores (s : State) (l : Nat) (f : Launch → Launch) : (s.modLaunch l f).cores = s.cores := rfl
@[simp] theorem State.modLaunch_dtlb (s : State) (l : Nat) (f : Launch → Launch) : (s.modLaunch l f).dtlb = s.dtlb := rfl
@[simp] theorem State.modLaunch_oldTlb (s : State) (l : Nat) (f : Launch → Launch) : (s.modLaunch l f).oldTlb = s.oldTlb := rfl
@[simp] theorem State.modLaunch_lgs (s : State) (l : Nat) (f : Launch → Launch) : (s.modLaunch l f).lgs = s.lgs := rfl
@[simp] theorem State.modLaunch_wgs (s : State) (l : Nat) (f : Launch → Launch) : (s.modLaunch l f).wgs = s.wgs := rfl
@[simp] theorem State.modLaunch_launches (s : State) (l : Nat) (f : Launch → Launch) : (s.modLaunch l f).launches = s.launches.modify l f := rfl
@[simp] theorem State.modLaunch_parts (s : State) (l : Nat) (f : Launch → Launch) : (s.modLaunch l f).parts = s.parts := rfl
@[simp] theorem State.modLaunch_accs (s : State) (l : Nat) (f : Launch → Launch) : (s.modLaunch l f).accs = s.accs := rfl
@[simp] theorem State.modLaunch_cmds (s : State) (l : Nat) (f : Launch → Launch) : (s.modLaunch l f).cmds = s.cmds := rfl
@[simp] theorem State.modLaunch_msgs (s : State) (l : Nat) (f : Launch → Launch) : (s.modLaunch l f).msgs = s.msgs := rfl
@[simp] theorem State.modLaunch_merges (s : State) (l : Nat) (f : Launch → Launch) : (s.modLaunch l f).merges = s.merges := rfl
@[simp] theorem State.modLaunch_frags (s : State) (l : Nat) (f : Launch → Launch) : (s.modLaunch l f).frags = s.frags := rfl
@[simp] theorem State.modLaunch_tallies (s : State) (l : Nat) (f : Launch → Launch) : (s.modLaunch l f).tallies = s.tallies := rfl
@[simp] theorem State.modLaunch_presence (s : State) (l : Nat) (f : Launch → Launch) : (s.modLaunch l f).presence = s.presence := rfl
@[simp] theorem State.modLaunch_packs (s : State) (l : Nat) (f : Launch → Launch) : (s.modLaunch l f).packs = s.packs := rfl
@[simp] theorem State.modLaunch_wbacks (s : State) (l : Nat) (f : Launch → Launch) : (s.modLaunch l f).wbacks = s.wbacks := rfl
@[simp] theorem State.modLaunch_links (s : State) (l : Nat) (f : Launch → Launch) : (s.modLaunch l f).links = s.links := rfl
@[simp] theorem State.modLaunch_ldirs (s : State) (l : Nat) (f : Launch → Launch) : (s.modLaunch l f).ldirs = s.ldirs := rfl
@[simp] theorem State.modLaunch_edgesDown (s : State) (l : Nat) (f : Launch → Launch) : (s.modLaunch l f).edgesDown = s.edgesDown := rfl
@[simp] theorem State.modLaunch_ports (s : State) (l : Nat) (f : Launch → Launch) : (s.modLaunch l f).ports = s.ports := rfl
@[simp] theorem State.modLaunch_heldRecs (s : State) (l : Nat) (f : Launch → Launch) : (s.modLaunch l f).heldRecs = s.heldRecs := rfl
@[simp] theorem State.modLaunch_lateRecs (s : State) (l : Nat) (f : Launch → Launch) : (s.modLaunch l f).lateRecs = s.lateRecs := rfl
@[simp] theorem State.modLaunch_permits (s : State) (l : Nat) (f : Launch → Launch) : (s.modLaunch l f).permits = s.permits := rfl
@[simp] theorem State.modLaunch_govs (s : State) (l : Nat) (f : Launch → Launch) : (s.modLaunch l f).govs = s.govs := rfl
@[simp] theorem State.modLaunch_preqs (s : State) (l : Nat) (f : Launch → Launch) : (s.modLaunch l f).preqs = s.preqs := rfl
@[simp] theorem State.modLaunch_s2w (s : State) (l : Nat) (f : Launch → Launch) : (s.modLaunch l f).s2w = s.s2w := rfl
@[simp] theorem State.modLaunch_invs (s : State) (l : Nat) (f : Launch → Launch) : (s.modLaunch l f).invs = s.invs := rfl
@[simp] theorem State.modLaunch_syncs (s : State) (l : Nat) (f : Launch → Launch) : (s.modLaunch l f).syncs = s.syncs := rfl
@[simp] theorem State.modLaunch_streams (s : State) (l : Nat) (f : Launch → Launch) : (s.modLaunch l f).streams = s.streams := rfl
@[simp] theorem State.modLaunch_boot (s : State) (l : Nat) (f : Launch → Launch) : (s.modLaunch l f).boot = s.boot := rfl
@[simp] theorem State.modLaunch_dumps (s : State) (l : Nat) (f : Launch → Launch) : (s.modLaunch l f).dumps = s.dumps := rfl
@[simp] theorem State.modLaunch_bhSince (s : State) (l : Nat) (f : Launch → Launch) : (s.modLaunch l f).bhSince = s.bhSince := rfl
@[simp] theorem State.modLaunch_cxlDownAt (s : State) (l : Nat) (f : Launch → Launch) : (s.modLaunch l f).cxlDownAt = s.cxlDownAt := rfl
@[simp] theorem State.modLaunch_bhWait (s : State) (l : Nat) (f : Launch → Launch) : (s.modLaunch l f).bhWait = s.bhWait := rfl
@[simp] theorem State.modLaunch_lqt (s : State) (l : Nat) (f : Launch → Launch) : (s.modLaunch l f).lqt = s.lqt := rfl
@[simp] theorem State.modLaunch_hostPts (s : State) (l : Nat) (f : Launch → Launch) : (s.modLaunch l f).hostPts = s.hostPts := rfl
@[simp] theorem State.modLaunch_dbi (s : State) (l : Nat) (f : Launch → Launch) : (s.modLaunch l f).dbi = s.dbi := rfl
@[simp] theorem State.modLaunch_hostGot (s : State) (l : Nat) (f : Launch → Launch) : (s.modLaunch l f).hostGot = s.hostGot := rfl

/-! ## `State.modCore` -/

@[simp] theorem State.modCore_now (s : State) (c : Nat) (f : Core → Core) : (s.modCore c f).now = s.now := rfl
@[simp] theorem State.modCore_cur (s : State) (c : Nat) (f : Core → Core) : (s.modCore c f).cur = s.cur := rfl
@[simp] theorem State.modCore_pk (s : State) (c : Nat) (f : Core → Core) : (s.modCore c f).pk = s.pk := rfl
@[simp] theorem State.modCore_nfree (s : State) (c : Nat) (f : Core → Core) : (s.modCore c f).nfree = s.nfree := rfl
@[simp] theorem State.modCore_nseq (s : State) (c : Nat) (f : Core → Core) : (s.modCore c f).nseq = s.nseq := rfl
@[simp] theorem State.modCore_epoch (s : State) (c : Nat) (f : Core → Core) : (s.modCore c f).epoch = s.epoch := rfl
@[simp] theorem State.modCore_agenda (s : State) (c : Nat) (f : Core → Core) : (s.modCore c f).agenda = s.agenda := rfl
@[simp] theorem State.modCore_pending (s : State) (c : Nat) (f : Core → Core) : (s.modCore c f).pending = s.pending := rfl
@[simp] theorem State.modCore_mem (s : State) (c : Nat) (f : Core → Core) : (s.modCore c f).mem = s.mem := rfl
@[simp] theorem State.modCore_poison (s : State) (c : Nat) (f : Core → Core) : (s.modCore c f).poison = s.poison := rfl
@[simp] theorem State.modCore_dir (s : State) (c : Nat) (f : Core → Core) : (s.modCore c f).dir = s.dir := rfl
@[simp] theorem State.modCore_retired (s : State) (c : Nat) (f : Core → Core) : (s.modCore c f).retired = s.retired := rfl
@[simp] theorem State.modCore_suspect (s : State) (c : Nat) (f : Core → Core) : (s.modCore c f).suspect = s.suspect := rfl
@[simp] theorem State.modCore_corrected (s : State) (c : Nat) (f : Core → Core) : (s.modCore c f).corrected = s.corrected := rfl
@[simp] theorem State.modCore_frameCe (s : State) (c : Nat) (f : Core → Core) : (s.modCore c f).frameCe = s.frameCe := rfl
@[simp] theorem State.modCore_win (s : State) (c : Nat) (f : Core → Core) : (s.modCore c f).win = s.win := rfl
@[simp] theorem State.modCore_winDrain (s : State) (c : Nat) (f : Core → Core) : (s.modCore c f).winDrain = s.winDrain := rfl
@[simp] theorem State.modCore_hmap (s : State) (c : Nat) (f : Core → Core) : (s.modCore c f).hmap = s.hmap := rfl
@[simp] theorem State.modCore_vfr (s : State) (c : Nat) (f : Core → Core) : (s.modCore c f).vfr = s.vfr := rfl
@[simp] theorem State.modCore_cores (s : State) (c : Nat) (f : Core → Core) : (s.modCore c f).cores = s.cores.setD {} c (f (s.core c)) := rfl
@[simp] theorem State.modCore_dtlb (s : State) (c : Nat) (f : Core → Core) : (s.modCore c f).dtlb = s.dtlb := rfl
@[simp] theorem State.modCore_oldTlb (s : State) (c : Nat) (f : Core → Core) : (s.modCore c f).oldTlb = s.oldTlb := rfl
@[simp] theorem State.modCore_lgs (s : State) (c : Nat) (f : Core → Core) : (s.modCore c f).lgs = s.lgs := rfl
@[simp] theorem State.modCore_wgs (s : State) (c : Nat) (f : Core → Core) : (s.modCore c f).wgs = s.wgs := rfl
@[simp] theorem State.modCore_launches (s : State) (c : Nat) (f : Core → Core) : (s.modCore c f).launches = s.launches := rfl
@[simp] theorem State.modCore_parts (s : State) (c : Nat) (f : Core → Core) : (s.modCore c f).parts = s.parts := rfl
@[simp] theorem State.modCore_accs (s : State) (c : Nat) (f : Core → Core) : (s.modCore c f).accs = s.accs := rfl
@[simp] theorem State.modCore_cmds (s : State) (c : Nat) (f : Core → Core) : (s.modCore c f).cmds = s.cmds := rfl
@[simp] theorem State.modCore_msgs (s : State) (c : Nat) (f : Core → Core) : (s.modCore c f).msgs = s.msgs := rfl
@[simp] theorem State.modCore_merges (s : State) (c : Nat) (f : Core → Core) : (s.modCore c f).merges = s.merges := rfl
@[simp] theorem State.modCore_frags (s : State) (c : Nat) (f : Core → Core) : (s.modCore c f).frags = s.frags := rfl
@[simp] theorem State.modCore_tallies (s : State) (c : Nat) (f : Core → Core) : (s.modCore c f).tallies = s.tallies := rfl
@[simp] theorem State.modCore_presence (s : State) (c : Nat) (f : Core → Core) : (s.modCore c f).presence = s.presence := rfl
@[simp] theorem State.modCore_packs (s : State) (c : Nat) (f : Core → Core) : (s.modCore c f).packs = s.packs := rfl
@[simp] theorem State.modCore_wbacks (s : State) (c : Nat) (f : Core → Core) : (s.modCore c f).wbacks = s.wbacks := rfl
@[simp] theorem State.modCore_links (s : State) (c : Nat) (f : Core → Core) : (s.modCore c f).links = s.links := rfl
@[simp] theorem State.modCore_ldirs (s : State) (c : Nat) (f : Core → Core) : (s.modCore c f).ldirs = s.ldirs := rfl
@[simp] theorem State.modCore_edgesDown (s : State) (c : Nat) (f : Core → Core) : (s.modCore c f).edgesDown = s.edgesDown := rfl
@[simp] theorem State.modCore_ports (s : State) (c : Nat) (f : Core → Core) : (s.modCore c f).ports = s.ports := rfl
@[simp] theorem State.modCore_heldRecs (s : State) (c : Nat) (f : Core → Core) : (s.modCore c f).heldRecs = s.heldRecs := rfl
@[simp] theorem State.modCore_lateRecs (s : State) (c : Nat) (f : Core → Core) : (s.modCore c f).lateRecs = s.lateRecs := rfl
@[simp] theorem State.modCore_permits (s : State) (c : Nat) (f : Core → Core) : (s.modCore c f).permits = s.permits := rfl
@[simp] theorem State.modCore_govs (s : State) (c : Nat) (f : Core → Core) : (s.modCore c f).govs = s.govs := rfl
@[simp] theorem State.modCore_preqs (s : State) (c : Nat) (f : Core → Core) : (s.modCore c f).preqs = s.preqs := rfl
@[simp] theorem State.modCore_s2w (s : State) (c : Nat) (f : Core → Core) : (s.modCore c f).s2w = s.s2w := rfl
@[simp] theorem State.modCore_invs (s : State) (c : Nat) (f : Core → Core) : (s.modCore c f).invs = s.invs := rfl
@[simp] theorem State.modCore_syncs (s : State) (c : Nat) (f : Core → Core) : (s.modCore c f).syncs = s.syncs := rfl
@[simp] theorem State.modCore_streams (s : State) (c : Nat) (f : Core → Core) : (s.modCore c f).streams = s.streams := rfl
@[simp] theorem State.modCore_boot (s : State) (c : Nat) (f : Core → Core) : (s.modCore c f).boot = s.boot := rfl
@[simp] theorem State.modCore_dumps (s : State) (c : Nat) (f : Core → Core) : (s.modCore c f).dumps = s.dumps := rfl
@[simp] theorem State.modCore_bhSince (s : State) (c : Nat) (f : Core → Core) : (s.modCore c f).bhSince = s.bhSince := rfl
@[simp] theorem State.modCore_cxlDownAt (s : State) (c : Nat) (f : Core → Core) : (s.modCore c f).cxlDownAt = s.cxlDownAt := rfl
@[simp] theorem State.modCore_bhWait (s : State) (c : Nat) (f : Core → Core) : (s.modCore c f).bhWait = s.bhWait := rfl
@[simp] theorem State.modCore_lqt (s : State) (c : Nat) (f : Core → Core) : (s.modCore c f).lqt = s.lqt := rfl
@[simp] theorem State.modCore_hostPts (s : State) (c : Nat) (f : Core → Core) : (s.modCore c f).hostPts = s.hostPts := rfl
@[simp] theorem State.modCore_dbi (s : State) (c : Nat) (f : Core → Core) : (s.modCore c f).dbi = s.dbi := rfl
@[simp] theorem State.modCore_hostGot (s : State) (c : Nat) (f : Core → Core) : (s.modCore c f).hostGot = s.hostGot := rfl

/-! ## `State.modPart` -/

@[simp] theorem State.modPart_now (s : State) (n : Nat) (f : Part → Part) : (s.modPart n f).now = s.now := rfl
@[simp] theorem State.modPart_cur (s : State) (n : Nat) (f : Part → Part) : (s.modPart n f).cur = s.cur := rfl
@[simp] theorem State.modPart_pk (s : State) (n : Nat) (f : Part → Part) : (s.modPart n f).pk = s.pk := rfl
@[simp] theorem State.modPart_nfree (s : State) (n : Nat) (f : Part → Part) : (s.modPart n f).nfree = s.nfree := rfl
@[simp] theorem State.modPart_nseq (s : State) (n : Nat) (f : Part → Part) : (s.modPart n f).nseq = s.nseq := rfl
@[simp] theorem State.modPart_epoch (s : State) (n : Nat) (f : Part → Part) : (s.modPart n f).epoch = s.epoch := rfl
@[simp] theorem State.modPart_agenda (s : State) (n : Nat) (f : Part → Part) : (s.modPart n f).agenda = s.agenda := rfl
@[simp] theorem State.modPart_pending (s : State) (n : Nat) (f : Part → Part) : (s.modPart n f).pending = s.pending := rfl
@[simp] theorem State.modPart_mem (s : State) (n : Nat) (f : Part → Part) : (s.modPart n f).mem = s.mem := rfl
@[simp] theorem State.modPart_poison (s : State) (n : Nat) (f : Part → Part) : (s.modPart n f).poison = s.poison := rfl
@[simp] theorem State.modPart_dir (s : State) (n : Nat) (f : Part → Part) : (s.modPart n f).dir = s.dir := rfl
@[simp] theorem State.modPart_retired (s : State) (n : Nat) (f : Part → Part) : (s.modPart n f).retired = s.retired := rfl
@[simp] theorem State.modPart_suspect (s : State) (n : Nat) (f : Part → Part) : (s.modPart n f).suspect = s.suspect := rfl
@[simp] theorem State.modPart_corrected (s : State) (n : Nat) (f : Part → Part) : (s.modPart n f).corrected = s.corrected := rfl
@[simp] theorem State.modPart_frameCe (s : State) (n : Nat) (f : Part → Part) : (s.modPart n f).frameCe = s.frameCe := rfl
@[simp] theorem State.modPart_win (s : State) (n : Nat) (f : Part → Part) : (s.modPart n f).win = s.win := rfl
@[simp] theorem State.modPart_winDrain (s : State) (n : Nat) (f : Part → Part) : (s.modPart n f).winDrain = s.winDrain := rfl
@[simp] theorem State.modPart_hmap (s : State) (n : Nat) (f : Part → Part) : (s.modPart n f).hmap = s.hmap := rfl
@[simp] theorem State.modPart_vfr (s : State) (n : Nat) (f : Part → Part) : (s.modPart n f).vfr = s.vfr := rfl
@[simp] theorem State.modPart_cores (s : State) (n : Nat) (f : Part → Part) : (s.modPart n f).cores = s.cores := rfl
@[simp] theorem State.modPart_dtlb (s : State) (n : Nat) (f : Part → Part) : (s.modPart n f).dtlb = s.dtlb := rfl
@[simp] theorem State.modPart_oldTlb (s : State) (n : Nat) (f : Part → Part) : (s.modPart n f).oldTlb = s.oldTlb := rfl
@[simp] theorem State.modPart_lgs (s : State) (n : Nat) (f : Part → Part) : (s.modPart n f).lgs = s.lgs := rfl
@[simp] theorem State.modPart_wgs (s : State) (n : Nat) (f : Part → Part) : (s.modPart n f).wgs = s.wgs := rfl
@[simp] theorem State.modPart_launches (s : State) (n : Nat) (f : Part → Part) : (s.modPart n f).launches = s.launches := rfl
@[simp] theorem State.modPart_parts (s : State) (n : Nat) (f : Part → Part) : (s.modPart n f).parts = s.parts.setD {} n (f (s.part n)) := rfl
@[simp] theorem State.modPart_accs (s : State) (n : Nat) (f : Part → Part) : (s.modPart n f).accs = s.accs := rfl
@[simp] theorem State.modPart_cmds (s : State) (n : Nat) (f : Part → Part) : (s.modPart n f).cmds = s.cmds := rfl
@[simp] theorem State.modPart_msgs (s : State) (n : Nat) (f : Part → Part) : (s.modPart n f).msgs = s.msgs := rfl
@[simp] theorem State.modPart_merges (s : State) (n : Nat) (f : Part → Part) : (s.modPart n f).merges = s.merges := rfl
@[simp] theorem State.modPart_frags (s : State) (n : Nat) (f : Part → Part) : (s.modPart n f).frags = s.frags := rfl
@[simp] theorem State.modPart_tallies (s : State) (n : Nat) (f : Part → Part) : (s.modPart n f).tallies = s.tallies := rfl
@[simp] theorem State.modPart_presence (s : State) (n : Nat) (f : Part → Part) : (s.modPart n f).presence = s.presence := rfl
@[simp] theorem State.modPart_packs (s : State) (n : Nat) (f : Part → Part) : (s.modPart n f).packs = s.packs := rfl
@[simp] theorem State.modPart_wbacks (s : State) (n : Nat) (f : Part → Part) : (s.modPart n f).wbacks = s.wbacks := rfl
@[simp] theorem State.modPart_links (s : State) (n : Nat) (f : Part → Part) : (s.modPart n f).links = s.links := rfl
@[simp] theorem State.modPart_ldirs (s : State) (n : Nat) (f : Part → Part) : (s.modPart n f).ldirs = s.ldirs := rfl
@[simp] theorem State.modPart_edgesDown (s : State) (n : Nat) (f : Part → Part) : (s.modPart n f).edgesDown = s.edgesDown := rfl
@[simp] theorem State.modPart_ports (s : State) (n : Nat) (f : Part → Part) : (s.modPart n f).ports = s.ports := rfl
@[simp] theorem State.modPart_heldRecs (s : State) (n : Nat) (f : Part → Part) : (s.modPart n f).heldRecs = s.heldRecs := rfl
@[simp] theorem State.modPart_lateRecs (s : State) (n : Nat) (f : Part → Part) : (s.modPart n f).lateRecs = s.lateRecs := rfl
@[simp] theorem State.modPart_permits (s : State) (n : Nat) (f : Part → Part) : (s.modPart n f).permits = s.permits := rfl
@[simp] theorem State.modPart_govs (s : State) (n : Nat) (f : Part → Part) : (s.modPart n f).govs = s.govs := rfl
@[simp] theorem State.modPart_preqs (s : State) (n : Nat) (f : Part → Part) : (s.modPart n f).preqs = s.preqs := rfl
@[simp] theorem State.modPart_s2w (s : State) (n : Nat) (f : Part → Part) : (s.modPart n f).s2w = s.s2w := rfl
@[simp] theorem State.modPart_invs (s : State) (n : Nat) (f : Part → Part) : (s.modPart n f).invs = s.invs := rfl
@[simp] theorem State.modPart_syncs (s : State) (n : Nat) (f : Part → Part) : (s.modPart n f).syncs = s.syncs := rfl
@[simp] theorem State.modPart_streams (s : State) (n : Nat) (f : Part → Part) : (s.modPart n f).streams = s.streams := rfl
@[simp] theorem State.modPart_boot (s : State) (n : Nat) (f : Part → Part) : (s.modPart n f).boot = s.boot := rfl
@[simp] theorem State.modPart_dumps (s : State) (n : Nat) (f : Part → Part) : (s.modPart n f).dumps = s.dumps := rfl
@[simp] theorem State.modPart_bhSince (s : State) (n : Nat) (f : Part → Part) : (s.modPart n f).bhSince = s.bhSince := rfl
@[simp] theorem State.modPart_cxlDownAt (s : State) (n : Nat) (f : Part → Part) : (s.modPart n f).cxlDownAt = s.cxlDownAt := rfl
@[simp] theorem State.modPart_bhWait (s : State) (n : Nat) (f : Part → Part) : (s.modPart n f).bhWait = s.bhWait := rfl
@[simp] theorem State.modPart_lqt (s : State) (n : Nat) (f : Part → Part) : (s.modPart n f).lqt = s.lqt := rfl
@[simp] theorem State.modPart_hostPts (s : State) (n : Nat) (f : Part → Part) : (s.modPart n f).hostPts = s.hostPts := rfl
@[simp] theorem State.modPart_dbi (s : State) (n : Nat) (f : Part → Part) : (s.modPart n f).dbi = s.dbi := rfl
@[simp] theorem State.modPart_hostGot (s : State) (n : Nat) (f : Part → Part) : (s.modPart n f).hostGot = s.hostGot := rfl

/-! ## `State.modAcc` -/

@[simp] theorem State.modAcc_now (s : State) (a : Nat) (f : Access → Access) : (s.modAcc a f).now = s.now := rfl
@[simp] theorem State.modAcc_cur (s : State) (a : Nat) (f : Access → Access) : (s.modAcc a f).cur = s.cur := rfl
@[simp] theorem State.modAcc_pk (s : State) (a : Nat) (f : Access → Access) : (s.modAcc a f).pk = s.pk := rfl
@[simp] theorem State.modAcc_nfree (s : State) (a : Nat) (f : Access → Access) : (s.modAcc a f).nfree = s.nfree := rfl
@[simp] theorem State.modAcc_nseq (s : State) (a : Nat) (f : Access → Access) : (s.modAcc a f).nseq = s.nseq := rfl
@[simp] theorem State.modAcc_epoch (s : State) (a : Nat) (f : Access → Access) : (s.modAcc a f).epoch = s.epoch := rfl
@[simp] theorem State.modAcc_agenda (s : State) (a : Nat) (f : Access → Access) : (s.modAcc a f).agenda = s.agenda := rfl
@[simp] theorem State.modAcc_pending (s : State) (a : Nat) (f : Access → Access) : (s.modAcc a f).pending = s.pending := rfl
@[simp] theorem State.modAcc_mem (s : State) (a : Nat) (f : Access → Access) : (s.modAcc a f).mem = s.mem := rfl
@[simp] theorem State.modAcc_poison (s : State) (a : Nat) (f : Access → Access) : (s.modAcc a f).poison = s.poison := rfl
@[simp] theorem State.modAcc_dir (s : State) (a : Nat) (f : Access → Access) : (s.modAcc a f).dir = s.dir := rfl
@[simp] theorem State.modAcc_retired (s : State) (a : Nat) (f : Access → Access) : (s.modAcc a f).retired = s.retired := rfl
@[simp] theorem State.modAcc_suspect (s : State) (a : Nat) (f : Access → Access) : (s.modAcc a f).suspect = s.suspect := rfl
@[simp] theorem State.modAcc_corrected (s : State) (a : Nat) (f : Access → Access) : (s.modAcc a f).corrected = s.corrected := rfl
@[simp] theorem State.modAcc_frameCe (s : State) (a : Nat) (f : Access → Access) : (s.modAcc a f).frameCe = s.frameCe := rfl
@[simp] theorem State.modAcc_win (s : State) (a : Nat) (f : Access → Access) : (s.modAcc a f).win = s.win := rfl
@[simp] theorem State.modAcc_winDrain (s : State) (a : Nat) (f : Access → Access) : (s.modAcc a f).winDrain = s.winDrain := rfl
@[simp] theorem State.modAcc_hmap (s : State) (a : Nat) (f : Access → Access) : (s.modAcc a f).hmap = s.hmap := rfl
@[simp] theorem State.modAcc_vfr (s : State) (a : Nat) (f : Access → Access) : (s.modAcc a f).vfr = s.vfr := rfl
@[simp] theorem State.modAcc_cores (s : State) (a : Nat) (f : Access → Access) : (s.modAcc a f).cores = s.cores := rfl
@[simp] theorem State.modAcc_dtlb (s : State) (a : Nat) (f : Access → Access) : (s.modAcc a f).dtlb = s.dtlb := rfl
@[simp] theorem State.modAcc_oldTlb (s : State) (a : Nat) (f : Access → Access) : (s.modAcc a f).oldTlb = s.oldTlb := rfl
@[simp] theorem State.modAcc_lgs (s : State) (a : Nat) (f : Access → Access) : (s.modAcc a f).lgs = s.lgs := rfl
@[simp] theorem State.modAcc_wgs (s : State) (a : Nat) (f : Access → Access) : (s.modAcc a f).wgs = s.wgs := rfl
@[simp] theorem State.modAcc_launches (s : State) (a : Nat) (f : Access → Access) : (s.modAcc a f).launches = s.launches := rfl
@[simp] theorem State.modAcc_parts (s : State) (a : Nat) (f : Access → Access) : (s.modAcc a f).parts = s.parts := rfl
@[simp] theorem State.modAcc_accs (s : State) (a : Nat) (f : Access → Access) : (s.modAcc a f).accs = s.accs.modify a f := rfl
@[simp] theorem State.modAcc_cmds (s : State) (a : Nat) (f : Access → Access) : (s.modAcc a f).cmds = s.cmds := rfl
@[simp] theorem State.modAcc_msgs (s : State) (a : Nat) (f : Access → Access) : (s.modAcc a f).msgs = s.msgs := rfl
@[simp] theorem State.modAcc_merges (s : State) (a : Nat) (f : Access → Access) : (s.modAcc a f).merges = s.merges := rfl
@[simp] theorem State.modAcc_frags (s : State) (a : Nat) (f : Access → Access) : (s.modAcc a f).frags = s.frags := rfl
@[simp] theorem State.modAcc_tallies (s : State) (a : Nat) (f : Access → Access) : (s.modAcc a f).tallies = s.tallies := rfl
@[simp] theorem State.modAcc_presence (s : State) (a : Nat) (f : Access → Access) : (s.modAcc a f).presence = s.presence := rfl
@[simp] theorem State.modAcc_packs (s : State) (a : Nat) (f : Access → Access) : (s.modAcc a f).packs = s.packs := rfl
@[simp] theorem State.modAcc_wbacks (s : State) (a : Nat) (f : Access → Access) : (s.modAcc a f).wbacks = s.wbacks := rfl
@[simp] theorem State.modAcc_links (s : State) (a : Nat) (f : Access → Access) : (s.modAcc a f).links = s.links := rfl
@[simp] theorem State.modAcc_ldirs (s : State) (a : Nat) (f : Access → Access) : (s.modAcc a f).ldirs = s.ldirs := rfl
@[simp] theorem State.modAcc_edgesDown (s : State) (a : Nat) (f : Access → Access) : (s.modAcc a f).edgesDown = s.edgesDown := rfl
@[simp] theorem State.modAcc_ports (s : State) (a : Nat) (f : Access → Access) : (s.modAcc a f).ports = s.ports := rfl
@[simp] theorem State.modAcc_heldRecs (s : State) (a : Nat) (f : Access → Access) : (s.modAcc a f).heldRecs = s.heldRecs := rfl
@[simp] theorem State.modAcc_lateRecs (s : State) (a : Nat) (f : Access → Access) : (s.modAcc a f).lateRecs = s.lateRecs := rfl
@[simp] theorem State.modAcc_permits (s : State) (a : Nat) (f : Access → Access) : (s.modAcc a f).permits = s.permits := rfl
@[simp] theorem State.modAcc_govs (s : State) (a : Nat) (f : Access → Access) : (s.modAcc a f).govs = s.govs := rfl
@[simp] theorem State.modAcc_preqs (s : State) (a : Nat) (f : Access → Access) : (s.modAcc a f).preqs = s.preqs := rfl
@[simp] theorem State.modAcc_s2w (s : State) (a : Nat) (f : Access → Access) : (s.modAcc a f).s2w = s.s2w := rfl
@[simp] theorem State.modAcc_invs (s : State) (a : Nat) (f : Access → Access) : (s.modAcc a f).invs = s.invs := rfl
@[simp] theorem State.modAcc_syncs (s : State) (a : Nat) (f : Access → Access) : (s.modAcc a f).syncs = s.syncs := rfl
@[simp] theorem State.modAcc_streams (s : State) (a : Nat) (f : Access → Access) : (s.modAcc a f).streams = s.streams := rfl
@[simp] theorem State.modAcc_boot (s : State) (a : Nat) (f : Access → Access) : (s.modAcc a f).boot = s.boot := rfl
@[simp] theorem State.modAcc_dumps (s : State) (a : Nat) (f : Access → Access) : (s.modAcc a f).dumps = s.dumps := rfl
@[simp] theorem State.modAcc_bhSince (s : State) (a : Nat) (f : Access → Access) : (s.modAcc a f).bhSince = s.bhSince := rfl
@[simp] theorem State.modAcc_cxlDownAt (s : State) (a : Nat) (f : Access → Access) : (s.modAcc a f).cxlDownAt = s.cxlDownAt := rfl
@[simp] theorem State.modAcc_bhWait (s : State) (a : Nat) (f : Access → Access) : (s.modAcc a f).bhWait = s.bhWait := rfl
@[simp] theorem State.modAcc_lqt (s : State) (a : Nat) (f : Access → Access) : (s.modAcc a f).lqt = s.lqt := rfl
@[simp] theorem State.modAcc_hostPts (s : State) (a : Nat) (f : Access → Access) : (s.modAcc a f).hostPts = s.hostPts := rfl
@[simp] theorem State.modAcc_dbi (s : State) (a : Nat) (f : Access → Access) : (s.modAcc a f).dbi = s.dbi := rfl
@[simp] theorem State.modAcc_hostGot (s : State) (a : Nat) (f : Access → Access) : (s.modAcc a f).hostGot = s.hostGot := rfl

/-! ## `State.modCmd` -/

@[simp] theorem State.modCmd_now (s : State) (c : Nat) (f : Cmd → Cmd) : (s.modCmd c f).now = s.now := rfl
@[simp] theorem State.modCmd_cur (s : State) (c : Nat) (f : Cmd → Cmd) : (s.modCmd c f).cur = s.cur := rfl
@[simp] theorem State.modCmd_pk (s : State) (c : Nat) (f : Cmd → Cmd) : (s.modCmd c f).pk = s.pk := rfl
@[simp] theorem State.modCmd_nfree (s : State) (c : Nat) (f : Cmd → Cmd) : (s.modCmd c f).nfree = s.nfree := rfl
@[simp] theorem State.modCmd_nseq (s : State) (c : Nat) (f : Cmd → Cmd) : (s.modCmd c f).nseq = s.nseq := rfl
@[simp] theorem State.modCmd_epoch (s : State) (c : Nat) (f : Cmd → Cmd) : (s.modCmd c f).epoch = s.epoch := rfl
@[simp] theorem State.modCmd_agenda (s : State) (c : Nat) (f : Cmd → Cmd) : (s.modCmd c f).agenda = s.agenda := rfl
@[simp] theorem State.modCmd_pending (s : State) (c : Nat) (f : Cmd → Cmd) : (s.modCmd c f).pending = s.pending := rfl
@[simp] theorem State.modCmd_mem (s : State) (c : Nat) (f : Cmd → Cmd) : (s.modCmd c f).mem = s.mem := rfl
@[simp] theorem State.modCmd_poison (s : State) (c : Nat) (f : Cmd → Cmd) : (s.modCmd c f).poison = s.poison := rfl
@[simp] theorem State.modCmd_dir (s : State) (c : Nat) (f : Cmd → Cmd) : (s.modCmd c f).dir = s.dir := rfl
@[simp] theorem State.modCmd_retired (s : State) (c : Nat) (f : Cmd → Cmd) : (s.modCmd c f).retired = s.retired := rfl
@[simp] theorem State.modCmd_suspect (s : State) (c : Nat) (f : Cmd → Cmd) : (s.modCmd c f).suspect = s.suspect := rfl
@[simp] theorem State.modCmd_corrected (s : State) (c : Nat) (f : Cmd → Cmd) : (s.modCmd c f).corrected = s.corrected := rfl
@[simp] theorem State.modCmd_frameCe (s : State) (c : Nat) (f : Cmd → Cmd) : (s.modCmd c f).frameCe = s.frameCe := rfl
@[simp] theorem State.modCmd_win (s : State) (c : Nat) (f : Cmd → Cmd) : (s.modCmd c f).win = s.win := rfl
@[simp] theorem State.modCmd_winDrain (s : State) (c : Nat) (f : Cmd → Cmd) : (s.modCmd c f).winDrain = s.winDrain := rfl
@[simp] theorem State.modCmd_hmap (s : State) (c : Nat) (f : Cmd → Cmd) : (s.modCmd c f).hmap = s.hmap := rfl
@[simp] theorem State.modCmd_vfr (s : State) (c : Nat) (f : Cmd → Cmd) : (s.modCmd c f).vfr = s.vfr := rfl
@[simp] theorem State.modCmd_cores (s : State) (c : Nat) (f : Cmd → Cmd) : (s.modCmd c f).cores = s.cores := rfl
@[simp] theorem State.modCmd_dtlb (s : State) (c : Nat) (f : Cmd → Cmd) : (s.modCmd c f).dtlb = s.dtlb := rfl
@[simp] theorem State.modCmd_oldTlb (s : State) (c : Nat) (f : Cmd → Cmd) : (s.modCmd c f).oldTlb = s.oldTlb := rfl
@[simp] theorem State.modCmd_lgs (s : State) (c : Nat) (f : Cmd → Cmd) : (s.modCmd c f).lgs = s.lgs := rfl
@[simp] theorem State.modCmd_wgs (s : State) (c : Nat) (f : Cmd → Cmd) : (s.modCmd c f).wgs = s.wgs := rfl
@[simp] theorem State.modCmd_launches (s : State) (c : Nat) (f : Cmd → Cmd) : (s.modCmd c f).launches = s.launches := rfl
@[simp] theorem State.modCmd_parts (s : State) (c : Nat) (f : Cmd → Cmd) : (s.modCmd c f).parts = s.parts := rfl
@[simp] theorem State.modCmd_accs (s : State) (c : Nat) (f : Cmd → Cmd) : (s.modCmd c f).accs = s.accs := rfl
@[simp] theorem State.modCmd_cmds (s : State) (c : Nat) (f : Cmd → Cmd) : (s.modCmd c f).cmds = s.cmds.modify c f := rfl
@[simp] theorem State.modCmd_msgs (s : State) (c : Nat) (f : Cmd → Cmd) : (s.modCmd c f).msgs = s.msgs := rfl
@[simp] theorem State.modCmd_merges (s : State) (c : Nat) (f : Cmd → Cmd) : (s.modCmd c f).merges = s.merges := rfl
@[simp] theorem State.modCmd_frags (s : State) (c : Nat) (f : Cmd → Cmd) : (s.modCmd c f).frags = s.frags := rfl
@[simp] theorem State.modCmd_tallies (s : State) (c : Nat) (f : Cmd → Cmd) : (s.modCmd c f).tallies = s.tallies := rfl
@[simp] theorem State.modCmd_presence (s : State) (c : Nat) (f : Cmd → Cmd) : (s.modCmd c f).presence = s.presence := rfl
@[simp] theorem State.modCmd_packs (s : State) (c : Nat) (f : Cmd → Cmd) : (s.modCmd c f).packs = s.packs := rfl
@[simp] theorem State.modCmd_wbacks (s : State) (c : Nat) (f : Cmd → Cmd) : (s.modCmd c f).wbacks = s.wbacks := rfl
@[simp] theorem State.modCmd_links (s : State) (c : Nat) (f : Cmd → Cmd) : (s.modCmd c f).links = s.links := rfl
@[simp] theorem State.modCmd_ldirs (s : State) (c : Nat) (f : Cmd → Cmd) : (s.modCmd c f).ldirs = s.ldirs := rfl
@[simp] theorem State.modCmd_edgesDown (s : State) (c : Nat) (f : Cmd → Cmd) : (s.modCmd c f).edgesDown = s.edgesDown := rfl
@[simp] theorem State.modCmd_ports (s : State) (c : Nat) (f : Cmd → Cmd) : (s.modCmd c f).ports = s.ports := rfl
@[simp] theorem State.modCmd_heldRecs (s : State) (c : Nat) (f : Cmd → Cmd) : (s.modCmd c f).heldRecs = s.heldRecs := rfl
@[simp] theorem State.modCmd_lateRecs (s : State) (c : Nat) (f : Cmd → Cmd) : (s.modCmd c f).lateRecs = s.lateRecs := rfl
@[simp] theorem State.modCmd_permits (s : State) (c : Nat) (f : Cmd → Cmd) : (s.modCmd c f).permits = s.permits := rfl
@[simp] theorem State.modCmd_govs (s : State) (c : Nat) (f : Cmd → Cmd) : (s.modCmd c f).govs = s.govs := rfl
@[simp] theorem State.modCmd_preqs (s : State) (c : Nat) (f : Cmd → Cmd) : (s.modCmd c f).preqs = s.preqs := rfl
@[simp] theorem State.modCmd_s2w (s : State) (c : Nat) (f : Cmd → Cmd) : (s.modCmd c f).s2w = s.s2w := rfl
@[simp] theorem State.modCmd_invs (s : State) (c : Nat) (f : Cmd → Cmd) : (s.modCmd c f).invs = s.invs := rfl
@[simp] theorem State.modCmd_syncs (s : State) (c : Nat) (f : Cmd → Cmd) : (s.modCmd c f).syncs = s.syncs := rfl
@[simp] theorem State.modCmd_streams (s : State) (c : Nat) (f : Cmd → Cmd) : (s.modCmd c f).streams = s.streams := rfl
@[simp] theorem State.modCmd_boot (s : State) (c : Nat) (f : Cmd → Cmd) : (s.modCmd c f).boot = s.boot := rfl
@[simp] theorem State.modCmd_dumps (s : State) (c : Nat) (f : Cmd → Cmd) : (s.modCmd c f).dumps = s.dumps := rfl
@[simp] theorem State.modCmd_bhSince (s : State) (c : Nat) (f : Cmd → Cmd) : (s.modCmd c f).bhSince = s.bhSince := rfl
@[simp] theorem State.modCmd_cxlDownAt (s : State) (c : Nat) (f : Cmd → Cmd) : (s.modCmd c f).cxlDownAt = s.cxlDownAt := rfl
@[simp] theorem State.modCmd_bhWait (s : State) (c : Nat) (f : Cmd → Cmd) : (s.modCmd c f).bhWait = s.bhWait := rfl
@[simp] theorem State.modCmd_lqt (s : State) (c : Nat) (f : Cmd → Cmd) : (s.modCmd c f).lqt = s.lqt := rfl
@[simp] theorem State.modCmd_hostPts (s : State) (c : Nat) (f : Cmd → Cmd) : (s.modCmd c f).hostPts = s.hostPts := rfl
@[simp] theorem State.modCmd_dbi (s : State) (c : Nat) (f : Cmd → Cmd) : (s.modCmd c f).dbi = s.dbi := rfl
@[simp] theorem State.modCmd_hostGot (s : State) (c : Nat) (f : Cmd → Cmd) : (s.modCmd c f).hostGot = s.hostGot := rfl

/-! ## `State.post` -/

@[simp] theorem State.post_now (s : State) (e : Ev) : (s.post e).now = s.now := rfl
@[simp] theorem State.post_cur (s : State) (e : Ev) : (s.post e).cur = s.cur := rfl
@[simp] theorem State.post_pk (s : State) (e : Ev) : (s.post e).pk = s.pk := rfl
@[simp] theorem State.post_nfree (s : State) (e : Ev) : (s.post e).nfree = s.nfree := rfl
@[simp] theorem State.post_nseq (s : State) (e : Ev) : (s.post e).nseq = s.nseq := rfl
@[simp] theorem State.post_epoch (s : State) (e : Ev) : (s.post e).epoch = s.epoch := rfl
@[simp] theorem State.post_agenda (s : State) (e : Ev) : (s.post e).agenda = s.agenda := rfl
@[simp] theorem State.post_pending (s : State) (e : Ev) : (s.post e).pending = s.pending ++ [e] := rfl
@[simp] theorem State.post_mem (s : State) (e : Ev) : (s.post e).mem = s.mem := rfl
@[simp] theorem State.post_poison (s : State) (e : Ev) : (s.post e).poison = s.poison := rfl
@[simp] theorem State.post_dir (s : State) (e : Ev) : (s.post e).dir = s.dir := rfl
@[simp] theorem State.post_retired (s : State) (e : Ev) : (s.post e).retired = s.retired := rfl
@[simp] theorem State.post_suspect (s : State) (e : Ev) : (s.post e).suspect = s.suspect := rfl
@[simp] theorem State.post_corrected (s : State) (e : Ev) : (s.post e).corrected = s.corrected := rfl
@[simp] theorem State.post_frameCe (s : State) (e : Ev) : (s.post e).frameCe = s.frameCe := rfl
@[simp] theorem State.post_win (s : State) (e : Ev) : (s.post e).win = s.win := rfl
@[simp] theorem State.post_winDrain (s : State) (e : Ev) : (s.post e).winDrain = s.winDrain := rfl
@[simp] theorem State.post_hmap (s : State) (e : Ev) : (s.post e).hmap = s.hmap := rfl
@[simp] theorem State.post_vfr (s : State) (e : Ev) : (s.post e).vfr = s.vfr := rfl
@[simp] theorem State.post_cores (s : State) (e : Ev) : (s.post e).cores = s.cores := rfl
@[simp] theorem State.post_dtlb (s : State) (e : Ev) : (s.post e).dtlb = s.dtlb := rfl
@[simp] theorem State.post_oldTlb (s : State) (e : Ev) : (s.post e).oldTlb = s.oldTlb := rfl
@[simp] theorem State.post_lgs (s : State) (e : Ev) : (s.post e).lgs = s.lgs := rfl
@[simp] theorem State.post_wgs (s : State) (e : Ev) : (s.post e).wgs = s.wgs := rfl
@[simp] theorem State.post_launches (s : State) (e : Ev) : (s.post e).launches = s.launches := rfl
@[simp] theorem State.post_parts (s : State) (e : Ev) : (s.post e).parts = s.parts := rfl
@[simp] theorem State.post_accs (s : State) (e : Ev) : (s.post e).accs = s.accs := rfl
@[simp] theorem State.post_cmds (s : State) (e : Ev) : (s.post e).cmds = s.cmds := rfl
@[simp] theorem State.post_msgs (s : State) (e : Ev) : (s.post e).msgs = s.msgs := rfl
@[simp] theorem State.post_merges (s : State) (e : Ev) : (s.post e).merges = s.merges := rfl
@[simp] theorem State.post_frags (s : State) (e : Ev) : (s.post e).frags = s.frags := rfl
@[simp] theorem State.post_tallies (s : State) (e : Ev) : (s.post e).tallies = s.tallies := rfl
@[simp] theorem State.post_presence (s : State) (e : Ev) : (s.post e).presence = s.presence := rfl
@[simp] theorem State.post_packs (s : State) (e : Ev) : (s.post e).packs = s.packs := rfl
@[simp] theorem State.post_wbacks (s : State) (e : Ev) : (s.post e).wbacks = s.wbacks := rfl
@[simp] theorem State.post_links (s : State) (e : Ev) : (s.post e).links = s.links := rfl
@[simp] theorem State.post_ldirs (s : State) (e : Ev) : (s.post e).ldirs = s.ldirs := rfl
@[simp] theorem State.post_edgesDown (s : State) (e : Ev) : (s.post e).edgesDown = s.edgesDown := rfl
@[simp] theorem State.post_ports (s : State) (e : Ev) : (s.post e).ports = s.ports := rfl
@[simp] theorem State.post_heldRecs (s : State) (e : Ev) : (s.post e).heldRecs = s.heldRecs := rfl
@[simp] theorem State.post_lateRecs (s : State) (e : Ev) : (s.post e).lateRecs = s.lateRecs := rfl
@[simp] theorem State.post_permits (s : State) (e : Ev) : (s.post e).permits = s.permits := rfl
@[simp] theorem State.post_govs (s : State) (e : Ev) : (s.post e).govs = s.govs := rfl
@[simp] theorem State.post_preqs (s : State) (e : Ev) : (s.post e).preqs = s.preqs := rfl
@[simp] theorem State.post_s2w (s : State) (e : Ev) : (s.post e).s2w = s.s2w := rfl
@[simp] theorem State.post_invs (s : State) (e : Ev) : (s.post e).invs = s.invs := rfl
@[simp] theorem State.post_syncs (s : State) (e : Ev) : (s.post e).syncs = s.syncs := rfl
@[simp] theorem State.post_streams (s : State) (e : Ev) : (s.post e).streams = s.streams := rfl
@[simp] theorem State.post_boot (s : State) (e : Ev) : (s.post e).boot = s.boot := rfl
@[simp] theorem State.post_dumps (s : State) (e : Ev) : (s.post e).dumps = s.dumps := rfl
@[simp] theorem State.post_bhSince (s : State) (e : Ev) : (s.post e).bhSince = s.bhSince := rfl
@[simp] theorem State.post_cxlDownAt (s : State) (e : Ev) : (s.post e).cxlDownAt = s.cxlDownAt := rfl
@[simp] theorem State.post_bhWait (s : State) (e : Ev) : (s.post e).bhWait = s.bhWait := rfl
@[simp] theorem State.post_lqt (s : State) (e : Ev) : (s.post e).lqt = s.lqt := rfl
@[simp] theorem State.post_hostPts (s : State) (e : Ev) : (s.post e).hostPts = s.hostPts := rfl
@[simp] theorem State.post_dbi (s : State) (e : Ev) : (s.post e).dbi = s.dbi := rfl
@[simp] theorem State.post_hostGot (s : State) (e : Ev) : (s.post e).hostGot = s.hostGot := rfl

/-! ## `State.writeBytes` -/

@[simp] theorem State.writeBytes_now (s : State) (a : Nat) (bs : List Byte) : (s.writeBytes a bs).now = s.now := rfl
@[simp] theorem State.writeBytes_cur (s : State) (a : Nat) (bs : List Byte) : (s.writeBytes a bs).cur = s.cur := rfl
@[simp] theorem State.writeBytes_pk (s : State) (a : Nat) (bs : List Byte) : (s.writeBytes a bs).pk = s.pk := rfl
@[simp] theorem State.writeBytes_nfree (s : State) (a : Nat) (bs : List Byte) : (s.writeBytes a bs).nfree = s.nfree := rfl
@[simp] theorem State.writeBytes_nseq (s : State) (a : Nat) (bs : List Byte) : (s.writeBytes a bs).nseq = s.nseq := rfl
@[simp] theorem State.writeBytes_epoch (s : State) (a : Nat) (bs : List Byte) : (s.writeBytes a bs).epoch = s.epoch := rfl
@[simp] theorem State.writeBytes_agenda (s : State) (a : Nat) (bs : List Byte) : (s.writeBytes a bs).agenda = s.agenda := rfl
@[simp] theorem State.writeBytes_pending (s : State) (a : Nat) (bs : List Byte) : (s.writeBytes a bs).pending = s.pending := rfl
@[simp] theorem State.writeBytes_mem (s : State) (a : Nat) (bs : List Byte) : (s.writeBytes a bs).mem = memWrite s.mem a bs := rfl
@[simp] theorem State.writeBytes_poison (s : State) (a : Nat) (bs : List Byte) : (s.writeBytes a bs).poison = s.poison := rfl
@[simp] theorem State.writeBytes_dir (s : State) (a : Nat) (bs : List Byte) : (s.writeBytes a bs).dir = s.dir := rfl
@[simp] theorem State.writeBytes_retired (s : State) (a : Nat) (bs : List Byte) : (s.writeBytes a bs).retired = s.retired := rfl
@[simp] theorem State.writeBytes_suspect (s : State) (a : Nat) (bs : List Byte) : (s.writeBytes a bs).suspect = s.suspect := rfl
@[simp] theorem State.writeBytes_corrected (s : State) (a : Nat) (bs : List Byte) : (s.writeBytes a bs).corrected = s.corrected := rfl
@[simp] theorem State.writeBytes_frameCe (s : State) (a : Nat) (bs : List Byte) : (s.writeBytes a bs).frameCe = s.frameCe := rfl
@[simp] theorem State.writeBytes_win (s : State) (a : Nat) (bs : List Byte) : (s.writeBytes a bs).win = s.win := rfl
@[simp] theorem State.writeBytes_winDrain (s : State) (a : Nat) (bs : List Byte) : (s.writeBytes a bs).winDrain = s.winDrain := rfl
@[simp] theorem State.writeBytes_hmap (s : State) (a : Nat) (bs : List Byte) : (s.writeBytes a bs).hmap = s.hmap := rfl
@[simp] theorem State.writeBytes_vfr (s : State) (a : Nat) (bs : List Byte) : (s.writeBytes a bs).vfr = s.vfr := rfl
@[simp] theorem State.writeBytes_cores (s : State) (a : Nat) (bs : List Byte) : (s.writeBytes a bs).cores = s.cores := rfl
@[simp] theorem State.writeBytes_dtlb (s : State) (a : Nat) (bs : List Byte) : (s.writeBytes a bs).dtlb = s.dtlb := rfl
@[simp] theorem State.writeBytes_oldTlb (s : State) (a : Nat) (bs : List Byte) : (s.writeBytes a bs).oldTlb = s.oldTlb := rfl
@[simp] theorem State.writeBytes_lgs (s : State) (a : Nat) (bs : List Byte) : (s.writeBytes a bs).lgs = s.lgs := rfl
@[simp] theorem State.writeBytes_wgs (s : State) (a : Nat) (bs : List Byte) : (s.writeBytes a bs).wgs = s.wgs := rfl
@[simp] theorem State.writeBytes_launches (s : State) (a : Nat) (bs : List Byte) : (s.writeBytes a bs).launches = s.launches := rfl
@[simp] theorem State.writeBytes_parts (s : State) (a : Nat) (bs : List Byte) : (s.writeBytes a bs).parts = s.parts := rfl
@[simp] theorem State.writeBytes_accs (s : State) (a : Nat) (bs : List Byte) : (s.writeBytes a bs).accs = s.accs := rfl
@[simp] theorem State.writeBytes_cmds (s : State) (a : Nat) (bs : List Byte) : (s.writeBytes a bs).cmds = s.cmds := rfl
@[simp] theorem State.writeBytes_msgs (s : State) (a : Nat) (bs : List Byte) : (s.writeBytes a bs).msgs = s.msgs := rfl
@[simp] theorem State.writeBytes_merges (s : State) (a : Nat) (bs : List Byte) : (s.writeBytes a bs).merges = s.merges := rfl
@[simp] theorem State.writeBytes_frags (s : State) (a : Nat) (bs : List Byte) : (s.writeBytes a bs).frags = s.frags := rfl
@[simp] theorem State.writeBytes_tallies (s : State) (a : Nat) (bs : List Byte) : (s.writeBytes a bs).tallies = s.tallies := rfl
@[simp] theorem State.writeBytes_presence (s : State) (a : Nat) (bs : List Byte) : (s.writeBytes a bs).presence = s.presence := rfl
@[simp] theorem State.writeBytes_packs (s : State) (a : Nat) (bs : List Byte) : (s.writeBytes a bs).packs = s.packs := rfl
@[simp] theorem State.writeBytes_wbacks (s : State) (a : Nat) (bs : List Byte) : (s.writeBytes a bs).wbacks = s.wbacks := rfl
@[simp] theorem State.writeBytes_links (s : State) (a : Nat) (bs : List Byte) : (s.writeBytes a bs).links = s.links := rfl
@[simp] theorem State.writeBytes_ldirs (s : State) (a : Nat) (bs : List Byte) : (s.writeBytes a bs).ldirs = s.ldirs := rfl
@[simp] theorem State.writeBytes_edgesDown (s : State) (a : Nat) (bs : List Byte) : (s.writeBytes a bs).edgesDown = s.edgesDown := rfl
@[simp] theorem State.writeBytes_ports (s : State) (a : Nat) (bs : List Byte) : (s.writeBytes a bs).ports = s.ports := rfl
@[simp] theorem State.writeBytes_heldRecs (s : State) (a : Nat) (bs : List Byte) : (s.writeBytes a bs).heldRecs = s.heldRecs := rfl
@[simp] theorem State.writeBytes_lateRecs (s : State) (a : Nat) (bs : List Byte) : (s.writeBytes a bs).lateRecs = s.lateRecs := rfl
@[simp] theorem State.writeBytes_permits (s : State) (a : Nat) (bs : List Byte) : (s.writeBytes a bs).permits = s.permits := rfl
@[simp] theorem State.writeBytes_govs (s : State) (a : Nat) (bs : List Byte) : (s.writeBytes a bs).govs = s.govs := rfl
@[simp] theorem State.writeBytes_preqs (s : State) (a : Nat) (bs : List Byte) : (s.writeBytes a bs).preqs = s.preqs := rfl
@[simp] theorem State.writeBytes_s2w (s : State) (a : Nat) (bs : List Byte) : (s.writeBytes a bs).s2w = s.s2w := rfl
@[simp] theorem State.writeBytes_invs (s : State) (a : Nat) (bs : List Byte) : (s.writeBytes a bs).invs = s.invs := rfl
@[simp] theorem State.writeBytes_syncs (s : State) (a : Nat) (bs : List Byte) : (s.writeBytes a bs).syncs = s.syncs := rfl
@[simp] theorem State.writeBytes_streams (s : State) (a : Nat) (bs : List Byte) : (s.writeBytes a bs).streams = s.streams := rfl
@[simp] theorem State.writeBytes_boot (s : State) (a : Nat) (bs : List Byte) : (s.writeBytes a bs).boot = s.boot := rfl
@[simp] theorem State.writeBytes_dumps (s : State) (a : Nat) (bs : List Byte) : (s.writeBytes a bs).dumps = s.dumps := rfl
@[simp] theorem State.writeBytes_bhSince (s : State) (a : Nat) (bs : List Byte) : (s.writeBytes a bs).bhSince = s.bhSince := rfl
@[simp] theorem State.writeBytes_cxlDownAt (s : State) (a : Nat) (bs : List Byte) : (s.writeBytes a bs).cxlDownAt = s.cxlDownAt := rfl
@[simp] theorem State.writeBytes_bhWait (s : State) (a : Nat) (bs : List Byte) : (s.writeBytes a bs).bhWait = s.bhWait := rfl
@[simp] theorem State.writeBytes_lqt (s : State) (a : Nat) (bs : List Byte) : (s.writeBytes a bs).lqt = s.lqt := rfl
@[simp] theorem State.writeBytes_hostPts (s : State) (a : Nat) (bs : List Byte) : (s.writeBytes a bs).hostPts = s.hostPts := rfl
@[simp] theorem State.writeBytes_dbi (s : State) (a : Nat) (bs : List Byte) : (s.writeBytes a bs).dbi = s.dbi := rfl
@[simp] theorem State.writeBytes_hostGot (s : State) (a : Nat) (bs : List Byte) : (s.writeBytes a bs).hostGot = s.hostGot := rfl

/-! ## `State.setDir` -/

@[simp] theorem State.setDir_now (s : State) (ln : Nat) (d : Dir) : (s.setDir ln d).now = s.now := rfl
@[simp] theorem State.setDir_cur (s : State) (ln : Nat) (d : Dir) : (s.setDir ln d).cur = s.cur := rfl
@[simp] theorem State.setDir_pk (s : State) (ln : Nat) (d : Dir) : (s.setDir ln d).pk = s.pk := rfl
@[simp] theorem State.setDir_nfree (s : State) (ln : Nat) (d : Dir) : (s.setDir ln d).nfree = s.nfree := rfl
@[simp] theorem State.setDir_nseq (s : State) (ln : Nat) (d : Dir) : (s.setDir ln d).nseq = s.nseq := rfl
@[simp] theorem State.setDir_epoch (s : State) (ln : Nat) (d : Dir) : (s.setDir ln d).epoch = s.epoch := rfl
@[simp] theorem State.setDir_agenda (s : State) (ln : Nat) (d : Dir) : (s.setDir ln d).agenda = s.agenda := rfl
@[simp] theorem State.setDir_pending (s : State) (ln : Nat) (d : Dir) : (s.setDir ln d).pending = s.pending := rfl
@[simp] theorem State.setDir_mem (s : State) (ln : Nat) (d : Dir) : (s.setDir ln d).mem = s.mem := rfl
@[simp] theorem State.setDir_poison (s : State) (ln : Nat) (d : Dir) : (s.setDir ln d).poison = s.poison := rfl
@[simp] theorem State.setDir_dir (s : State) (ln : Nat) (d : Dir) : (s.setDir ln d).dir = s.dir.setD {} ln d := rfl
@[simp] theorem State.setDir_retired (s : State) (ln : Nat) (d : Dir) : (s.setDir ln d).retired = s.retired := rfl
@[simp] theorem State.setDir_suspect (s : State) (ln : Nat) (d : Dir) : (s.setDir ln d).suspect = s.suspect := rfl
@[simp] theorem State.setDir_corrected (s : State) (ln : Nat) (d : Dir) : (s.setDir ln d).corrected = s.corrected := rfl
@[simp] theorem State.setDir_frameCe (s : State) (ln : Nat) (d : Dir) : (s.setDir ln d).frameCe = s.frameCe := rfl
@[simp] theorem State.setDir_win (s : State) (ln : Nat) (d : Dir) : (s.setDir ln d).win = s.win := rfl
@[simp] theorem State.setDir_winDrain (s : State) (ln : Nat) (d : Dir) : (s.setDir ln d).winDrain = s.winDrain := rfl
@[simp] theorem State.setDir_hmap (s : State) (ln : Nat) (d : Dir) : (s.setDir ln d).hmap = s.hmap := rfl
@[simp] theorem State.setDir_vfr (s : State) (ln : Nat) (d : Dir) : (s.setDir ln d).vfr = s.vfr := rfl
@[simp] theorem State.setDir_cores (s : State) (ln : Nat) (d : Dir) : (s.setDir ln d).cores = s.cores := rfl
@[simp] theorem State.setDir_dtlb (s : State) (ln : Nat) (d : Dir) : (s.setDir ln d).dtlb = s.dtlb := rfl
@[simp] theorem State.setDir_oldTlb (s : State) (ln : Nat) (d : Dir) : (s.setDir ln d).oldTlb = s.oldTlb := rfl
@[simp] theorem State.setDir_lgs (s : State) (ln : Nat) (d : Dir) : (s.setDir ln d).lgs = s.lgs := rfl
@[simp] theorem State.setDir_wgs (s : State) (ln : Nat) (d : Dir) : (s.setDir ln d).wgs = s.wgs := rfl
@[simp] theorem State.setDir_launches (s : State) (ln : Nat) (d : Dir) : (s.setDir ln d).launches = s.launches := rfl
@[simp] theorem State.setDir_parts (s : State) (ln : Nat) (d : Dir) : (s.setDir ln d).parts = s.parts := rfl
@[simp] theorem State.setDir_accs (s : State) (ln : Nat) (d : Dir) : (s.setDir ln d).accs = s.accs := rfl
@[simp] theorem State.setDir_cmds (s : State) (ln : Nat) (d : Dir) : (s.setDir ln d).cmds = s.cmds := rfl
@[simp] theorem State.setDir_msgs (s : State) (ln : Nat) (d : Dir) : (s.setDir ln d).msgs = s.msgs := rfl
@[simp] theorem State.setDir_merges (s : State) (ln : Nat) (d : Dir) : (s.setDir ln d).merges = s.merges := rfl
@[simp] theorem State.setDir_frags (s : State) (ln : Nat) (d : Dir) : (s.setDir ln d).frags = s.frags := rfl
@[simp] theorem State.setDir_tallies (s : State) (ln : Nat) (d : Dir) : (s.setDir ln d).tallies = s.tallies := rfl
@[simp] theorem State.setDir_presence (s : State) (ln : Nat) (d : Dir) : (s.setDir ln d).presence = s.presence := rfl
@[simp] theorem State.setDir_packs (s : State) (ln : Nat) (d : Dir) : (s.setDir ln d).packs = s.packs := rfl
@[simp] theorem State.setDir_wbacks (s : State) (ln : Nat) (d : Dir) : (s.setDir ln d).wbacks = s.wbacks := rfl
@[simp] theorem State.setDir_links (s : State) (ln : Nat) (d : Dir) : (s.setDir ln d).links = s.links := rfl
@[simp] theorem State.setDir_ldirs (s : State) (ln : Nat) (d : Dir) : (s.setDir ln d).ldirs = s.ldirs := rfl
@[simp] theorem State.setDir_edgesDown (s : State) (ln : Nat) (d : Dir) : (s.setDir ln d).edgesDown = s.edgesDown := rfl
@[simp] theorem State.setDir_ports (s : State) (ln : Nat) (d : Dir) : (s.setDir ln d).ports = s.ports := rfl
@[simp] theorem State.setDir_heldRecs (s : State) (ln : Nat) (d : Dir) : (s.setDir ln d).heldRecs = s.heldRecs := rfl
@[simp] theorem State.setDir_lateRecs (s : State) (ln : Nat) (d : Dir) : (s.setDir ln d).lateRecs = s.lateRecs := rfl
@[simp] theorem State.setDir_permits (s : State) (ln : Nat) (d : Dir) : (s.setDir ln d).permits = s.permits := rfl
@[simp] theorem State.setDir_govs (s : State) (ln : Nat) (d : Dir) : (s.setDir ln d).govs = s.govs := rfl
@[simp] theorem State.setDir_preqs (s : State) (ln : Nat) (d : Dir) : (s.setDir ln d).preqs = s.preqs := rfl
@[simp] theorem State.setDir_s2w (s : State) (ln : Nat) (d : Dir) : (s.setDir ln d).s2w = s.s2w := rfl
@[simp] theorem State.setDir_invs (s : State) (ln : Nat) (d : Dir) : (s.setDir ln d).invs = s.invs := rfl
@[simp] theorem State.setDir_syncs (s : State) (ln : Nat) (d : Dir) : (s.setDir ln d).syncs = s.syncs := rfl
@[simp] theorem State.setDir_streams (s : State) (ln : Nat) (d : Dir) : (s.setDir ln d).streams = s.streams := rfl
@[simp] theorem State.setDir_boot (s : State) (ln : Nat) (d : Dir) : (s.setDir ln d).boot = s.boot := rfl
@[simp] theorem State.setDir_dumps (s : State) (ln : Nat) (d : Dir) : (s.setDir ln d).dumps = s.dumps := rfl
@[simp] theorem State.setDir_bhSince (s : State) (ln : Nat) (d : Dir) : (s.setDir ln d).bhSince = s.bhSince := rfl
@[simp] theorem State.setDir_cxlDownAt (s : State) (ln : Nat) (d : Dir) : (s.setDir ln d).cxlDownAt = s.cxlDownAt := rfl
@[simp] theorem State.setDir_bhWait (s : State) (ln : Nat) (d : Dir) : (s.setDir ln d).bhWait = s.bhWait := rfl
@[simp] theorem State.setDir_lqt (s : State) (ln : Nat) (d : Dir) : (s.setDir ln d).lqt = s.lqt := rfl
@[simp] theorem State.setDir_hostPts (s : State) (ln : Nat) (d : Dir) : (s.setDir ln d).hostPts = s.hostPts := rfl
@[simp] theorem State.setDir_dbi (s : State) (ln : Nat) (d : Dir) : (s.setDir ln d).dbi = s.dbi := rfl
@[simp] theorem State.setDir_hostGot (s : State) (ln : Nat) (d : Dir) : (s.setDir ln d).hostGot = s.hostGot := rfl

/-! ## `State.setPois` -/

@[simp] theorem State.setPois_now (s : State) (w : Nat) (b : Bool) : (s.setPois w b).now = s.now := rfl
@[simp] theorem State.setPois_cur (s : State) (w : Nat) (b : Bool) : (s.setPois w b).cur = s.cur := rfl
@[simp] theorem State.setPois_pk (s : State) (w : Nat) (b : Bool) : (s.setPois w b).pk = s.pk := rfl
@[simp] theorem State.setPois_nfree (s : State) (w : Nat) (b : Bool) : (s.setPois w b).nfree = s.nfree := rfl
@[simp] theorem State.setPois_nseq (s : State) (w : Nat) (b : Bool) : (s.setPois w b).nseq = s.nseq := rfl
@[simp] theorem State.setPois_epoch (s : State) (w : Nat) (b : Bool) : (s.setPois w b).epoch = s.epoch := rfl
@[simp] theorem State.setPois_agenda (s : State) (w : Nat) (b : Bool) : (s.setPois w b).agenda = s.agenda := rfl
@[simp] theorem State.setPois_pending (s : State) (w : Nat) (b : Bool) : (s.setPois w b).pending = s.pending := rfl
@[simp] theorem State.setPois_mem (s : State) (w : Nat) (b : Bool) : (s.setPois w b).mem = s.mem := rfl
@[simp] theorem State.setPois_poison (s : State) (w : Nat) (b : Bool) : (s.setPois w b).poison = s.poison.setD false w b := rfl
@[simp] theorem State.setPois_dir (s : State) (w : Nat) (b : Bool) : (s.setPois w b).dir = s.dir := rfl
@[simp] theorem State.setPois_retired (s : State) (w : Nat) (b : Bool) : (s.setPois w b).retired = s.retired := rfl
@[simp] theorem State.setPois_suspect (s : State) (w : Nat) (b : Bool) : (s.setPois w b).suspect = s.suspect := rfl
@[simp] theorem State.setPois_corrected (s : State) (w : Nat) (b : Bool) : (s.setPois w b).corrected = s.corrected := rfl
@[simp] theorem State.setPois_frameCe (s : State) (w : Nat) (b : Bool) : (s.setPois w b).frameCe = s.frameCe := rfl
@[simp] theorem State.setPois_win (s : State) (w : Nat) (b : Bool) : (s.setPois w b).win = s.win := rfl
@[simp] theorem State.setPois_winDrain (s : State) (w : Nat) (b : Bool) : (s.setPois w b).winDrain = s.winDrain := rfl
@[simp] theorem State.setPois_hmap (s : State) (w : Nat) (b : Bool) : (s.setPois w b).hmap = s.hmap := rfl
@[simp] theorem State.setPois_vfr (s : State) (w : Nat) (b : Bool) : (s.setPois w b).vfr = s.vfr := rfl
@[simp] theorem State.setPois_cores (s : State) (w : Nat) (b : Bool) : (s.setPois w b).cores = s.cores := rfl
@[simp] theorem State.setPois_dtlb (s : State) (w : Nat) (b : Bool) : (s.setPois w b).dtlb = s.dtlb := rfl
@[simp] theorem State.setPois_oldTlb (s : State) (w : Nat) (b : Bool) : (s.setPois w b).oldTlb = s.oldTlb := rfl
@[simp] theorem State.setPois_lgs (s : State) (w : Nat) (b : Bool) : (s.setPois w b).lgs = s.lgs := rfl
@[simp] theorem State.setPois_wgs (s : State) (w : Nat) (b : Bool) : (s.setPois w b).wgs = s.wgs := rfl
@[simp] theorem State.setPois_launches (s : State) (w : Nat) (b : Bool) : (s.setPois w b).launches = s.launches := rfl
@[simp] theorem State.setPois_parts (s : State) (w : Nat) (b : Bool) : (s.setPois w b).parts = s.parts := rfl
@[simp] theorem State.setPois_accs (s : State) (w : Nat) (b : Bool) : (s.setPois w b).accs = s.accs := rfl
@[simp] theorem State.setPois_cmds (s : State) (w : Nat) (b : Bool) : (s.setPois w b).cmds = s.cmds := rfl
@[simp] theorem State.setPois_msgs (s : State) (w : Nat) (b : Bool) : (s.setPois w b).msgs = s.msgs := rfl
@[simp] theorem State.setPois_merges (s : State) (w : Nat) (b : Bool) : (s.setPois w b).merges = s.merges := rfl
@[simp] theorem State.setPois_frags (s : State) (w : Nat) (b : Bool) : (s.setPois w b).frags = s.frags := rfl
@[simp] theorem State.setPois_tallies (s : State) (w : Nat) (b : Bool) : (s.setPois w b).tallies = s.tallies := rfl
@[simp] theorem State.setPois_presence (s : State) (w : Nat) (b : Bool) : (s.setPois w b).presence = s.presence := rfl
@[simp] theorem State.setPois_packs (s : State) (w : Nat) (b : Bool) : (s.setPois w b).packs = s.packs := rfl
@[simp] theorem State.setPois_wbacks (s : State) (w : Nat) (b : Bool) : (s.setPois w b).wbacks = s.wbacks := rfl
@[simp] theorem State.setPois_links (s : State) (w : Nat) (b : Bool) : (s.setPois w b).links = s.links := rfl
@[simp] theorem State.setPois_ldirs (s : State) (w : Nat) (b : Bool) : (s.setPois w b).ldirs = s.ldirs := rfl
@[simp] theorem State.setPois_edgesDown (s : State) (w : Nat) (b : Bool) : (s.setPois w b).edgesDown = s.edgesDown := rfl
@[simp] theorem State.setPois_ports (s : State) (w : Nat) (b : Bool) : (s.setPois w b).ports = s.ports := rfl
@[simp] theorem State.setPois_heldRecs (s : State) (w : Nat) (b : Bool) : (s.setPois w b).heldRecs = s.heldRecs := rfl
@[simp] theorem State.setPois_lateRecs (s : State) (w : Nat) (b : Bool) : (s.setPois w b).lateRecs = s.lateRecs := rfl
@[simp] theorem State.setPois_permits (s : State) (w : Nat) (b : Bool) : (s.setPois w b).permits = s.permits := rfl
@[simp] theorem State.setPois_govs (s : State) (w : Nat) (b : Bool) : (s.setPois w b).govs = s.govs := rfl
@[simp] theorem State.setPois_preqs (s : State) (w : Nat) (b : Bool) : (s.setPois w b).preqs = s.preqs := rfl
@[simp] theorem State.setPois_s2w (s : State) (w : Nat) (b : Bool) : (s.setPois w b).s2w = s.s2w := rfl
@[simp] theorem State.setPois_invs (s : State) (w : Nat) (b : Bool) : (s.setPois w b).invs = s.invs := rfl
@[simp] theorem State.setPois_syncs (s : State) (w : Nat) (b : Bool) : (s.setPois w b).syncs = s.syncs := rfl
@[simp] theorem State.setPois_streams (s : State) (w : Nat) (b : Bool) : (s.setPois w b).streams = s.streams := rfl
@[simp] theorem State.setPois_boot (s : State) (w : Nat) (b : Bool) : (s.setPois w b).boot = s.boot := rfl
@[simp] theorem State.setPois_dumps (s : State) (w : Nat) (b : Bool) : (s.setPois w b).dumps = s.dumps := rfl
@[simp] theorem State.setPois_bhSince (s : State) (w : Nat) (b : Bool) : (s.setPois w b).bhSince = s.bhSince := rfl
@[simp] theorem State.setPois_cxlDownAt (s : State) (w : Nat) (b : Bool) : (s.setPois w b).cxlDownAt = s.cxlDownAt := rfl
@[simp] theorem State.setPois_bhWait (s : State) (w : Nat) (b : Bool) : (s.setPois w b).bhWait = s.bhWait := rfl
@[simp] theorem State.setPois_lqt (s : State) (w : Nat) (b : Bool) : (s.setPois w b).lqt = s.lqt := rfl
@[simp] theorem State.setPois_hostPts (s : State) (w : Nat) (b : Bool) : (s.setPois w b).hostPts = s.hostPts := rfl
@[simp] theorem State.setPois_dbi (s : State) (w : Nat) (b : Bool) : (s.setPois w b).dbi = s.dbi := rfl
@[simp] theorem State.setPois_hostGot (s : State) (w : Nat) (b : Bool) : (s.setPois w b).hostGot = s.hostGot := rfl

/-! ## `State.raisePts` -/

@[simp] theorem State.raisePts_now (s : State) (c t : Nat) : (s.raisePts c t).now = s.now := rfl
@[simp] theorem State.raisePts_cur (s : State) (c t : Nat) : (s.raisePts c t).cur = s.cur := rfl
@[simp] theorem State.raisePts_pk (s : State) (c t : Nat) : (s.raisePts c t).pk = s.pk := rfl
@[simp] theorem State.raisePts_nfree (s : State) (c t : Nat) : (s.raisePts c t).nfree = s.nfree := rfl
@[simp] theorem State.raisePts_nseq (s : State) (c t : Nat) : (s.raisePts c t).nseq = s.nseq := rfl
@[simp] theorem State.raisePts_epoch (s : State) (c t : Nat) : (s.raisePts c t).epoch = s.epoch := rfl
@[simp] theorem State.raisePts_agenda (s : State) (c t : Nat) : (s.raisePts c t).agenda = s.agenda := rfl
@[simp] theorem State.raisePts_pending (s : State) (c t : Nat) : (s.raisePts c t).pending = s.pending := rfl
@[simp] theorem State.raisePts_mem (s : State) (c t : Nat) : (s.raisePts c t).mem = s.mem := rfl
@[simp] theorem State.raisePts_poison (s : State) (c t : Nat) : (s.raisePts c t).poison = s.poison := rfl
@[simp] theorem State.raisePts_dir (s : State) (c t : Nat) : (s.raisePts c t).dir = s.dir := rfl
@[simp] theorem State.raisePts_retired (s : State) (c t : Nat) : (s.raisePts c t).retired = s.retired := rfl
@[simp] theorem State.raisePts_suspect (s : State) (c t : Nat) : (s.raisePts c t).suspect = s.suspect := rfl
@[simp] theorem State.raisePts_corrected (s : State) (c t : Nat) : (s.raisePts c t).corrected = s.corrected := rfl
@[simp] theorem State.raisePts_frameCe (s : State) (c t : Nat) : (s.raisePts c t).frameCe = s.frameCe := rfl
@[simp] theorem State.raisePts_win (s : State) (c t : Nat) : (s.raisePts c t).win = s.win := rfl
@[simp] theorem State.raisePts_winDrain (s : State) (c t : Nat) : (s.raisePts c t).winDrain = s.winDrain := rfl
@[simp] theorem State.raisePts_hmap (s : State) (c t : Nat) : (s.raisePts c t).hmap = s.hmap := rfl
@[simp] theorem State.raisePts_vfr (s : State) (c t : Nat) : (s.raisePts c t).vfr = s.vfr := rfl
@[simp] theorem State.raisePts_cores (s : State) (c t : Nat) : (s.raisePts c t).cores = s.cores.setD {} c { s.core c with pts := max (s.core c).pts t } := rfl
@[simp] theorem State.raisePts_dtlb (s : State) (c t : Nat) : (s.raisePts c t).dtlb = s.dtlb := rfl
@[simp] theorem State.raisePts_oldTlb (s : State) (c t : Nat) : (s.raisePts c t).oldTlb = s.oldTlb := rfl
@[simp] theorem State.raisePts_lgs (s : State) (c t : Nat) : (s.raisePts c t).lgs = s.lgs := rfl
@[simp] theorem State.raisePts_wgs (s : State) (c t : Nat) : (s.raisePts c t).wgs = s.wgs := rfl
@[simp] theorem State.raisePts_launches (s : State) (c t : Nat) : (s.raisePts c t).launches = s.launches := rfl
@[simp] theorem State.raisePts_parts (s : State) (c t : Nat) : (s.raisePts c t).parts = s.parts := rfl
@[simp] theorem State.raisePts_accs (s : State) (c t : Nat) : (s.raisePts c t).accs = s.accs := rfl
@[simp] theorem State.raisePts_cmds (s : State) (c t : Nat) : (s.raisePts c t).cmds = s.cmds := rfl
@[simp] theorem State.raisePts_msgs (s : State) (c t : Nat) : (s.raisePts c t).msgs = s.msgs := rfl
@[simp] theorem State.raisePts_merges (s : State) (c t : Nat) : (s.raisePts c t).merges = s.merges := rfl
@[simp] theorem State.raisePts_frags (s : State) (c t : Nat) : (s.raisePts c t).frags = s.frags := rfl
@[simp] theorem State.raisePts_tallies (s : State) (c t : Nat) : (s.raisePts c t).tallies = s.tallies := rfl
@[simp] theorem State.raisePts_presence (s : State) (c t : Nat) : (s.raisePts c t).presence = s.presence := rfl
@[simp] theorem State.raisePts_packs (s : State) (c t : Nat) : (s.raisePts c t).packs = s.packs := rfl
@[simp] theorem State.raisePts_wbacks (s : State) (c t : Nat) : (s.raisePts c t).wbacks = s.wbacks := rfl
@[simp] theorem State.raisePts_links (s : State) (c t : Nat) : (s.raisePts c t).links = s.links := rfl
@[simp] theorem State.raisePts_ldirs (s : State) (c t : Nat) : (s.raisePts c t).ldirs = s.ldirs := rfl
@[simp] theorem State.raisePts_edgesDown (s : State) (c t : Nat) : (s.raisePts c t).edgesDown = s.edgesDown := rfl
@[simp] theorem State.raisePts_ports (s : State) (c t : Nat) : (s.raisePts c t).ports = s.ports := rfl
@[simp] theorem State.raisePts_heldRecs (s : State) (c t : Nat) : (s.raisePts c t).heldRecs = s.heldRecs := rfl
@[simp] theorem State.raisePts_lateRecs (s : State) (c t : Nat) : (s.raisePts c t).lateRecs = s.lateRecs := rfl
@[simp] theorem State.raisePts_permits (s : State) (c t : Nat) : (s.raisePts c t).permits = s.permits := rfl
@[simp] theorem State.raisePts_govs (s : State) (c t : Nat) : (s.raisePts c t).govs = s.govs := rfl
@[simp] theorem State.raisePts_preqs (s : State) (c t : Nat) : (s.raisePts c t).preqs = s.preqs := rfl
@[simp] theorem State.raisePts_s2w (s : State) (c t : Nat) : (s.raisePts c t).s2w = s.s2w := rfl
@[simp] theorem State.raisePts_invs (s : State) (c t : Nat) : (s.raisePts c t).invs = s.invs := rfl
@[simp] theorem State.raisePts_syncs (s : State) (c t : Nat) : (s.raisePts c t).syncs = s.syncs := rfl
@[simp] theorem State.raisePts_streams (s : State) (c t : Nat) : (s.raisePts c t).streams = s.streams := rfl
@[simp] theorem State.raisePts_boot (s : State) (c t : Nat) : (s.raisePts c t).boot = s.boot := rfl
@[simp] theorem State.raisePts_dumps (s : State) (c t : Nat) : (s.raisePts c t).dumps = s.dumps := rfl
@[simp] theorem State.raisePts_bhSince (s : State) (c t : Nat) : (s.raisePts c t).bhSince = s.bhSince := rfl
@[simp] theorem State.raisePts_cxlDownAt (s : State) (c t : Nat) : (s.raisePts c t).cxlDownAt = s.cxlDownAt := rfl
@[simp] theorem State.raisePts_bhWait (s : State) (c t : Nat) : (s.raisePts c t).bhWait = s.bhWait := rfl
@[simp] theorem State.raisePts_lqt (s : State) (c t : Nat) : (s.raisePts c t).lqt = s.lqt := rfl
@[simp] theorem State.raisePts_hostPts (s : State) (c t : Nat) : (s.raisePts c t).hostPts = s.hostPts := rfl
@[simp] theorem State.raisePts_dbi (s : State) (c t : Nat) : (s.raisePts c t).dbi = s.dbi := rfl
@[simp] theorem State.raisePts_hostGot (s : State) (c t : Nat) : (s.raisePts c t).hostGot = s.hostGot := rfl

/-! ## `State.draw` -/

@[simp] theorem State.draw_now (s : State) : (s.draw.2).now = s.now := rfl
@[simp] theorem State.draw_cur (s : State) : (s.draw.2).cur = s.cur := rfl
@[simp] theorem State.draw_pk (s : State) : (s.draw.2).pk = s.pk := rfl
@[simp] theorem State.draw_nfree (s : State) : (s.draw.2).nfree = s.nfree + 1 := rfl
@[simp] theorem State.draw_nseq (s : State) : (s.draw.2).nseq = s.nseq := rfl
@[simp] theorem State.draw_epoch (s : State) : (s.draw.2).epoch = s.epoch := rfl
@[simp] theorem State.draw_agenda (s : State) : (s.draw.2).agenda = s.agenda := rfl
@[simp] theorem State.draw_pending (s : State) : (s.draw.2).pending = s.pending := rfl
@[simp] theorem State.draw_mem (s : State) : (s.draw.2).mem = s.mem := rfl
@[simp] theorem State.draw_poison (s : State) : (s.draw.2).poison = s.poison := rfl
@[simp] theorem State.draw_dir (s : State) : (s.draw.2).dir = s.dir := rfl
@[simp] theorem State.draw_retired (s : State) : (s.draw.2).retired = s.retired := rfl
@[simp] theorem State.draw_suspect (s : State) : (s.draw.2).suspect = s.suspect := rfl
@[simp] theorem State.draw_corrected (s : State) : (s.draw.2).corrected = s.corrected := rfl
@[simp] theorem State.draw_frameCe (s : State) : (s.draw.2).frameCe = s.frameCe := rfl
@[simp] theorem State.draw_win (s : State) : (s.draw.2).win = s.win := rfl
@[simp] theorem State.draw_winDrain (s : State) : (s.draw.2).winDrain = s.winDrain := rfl
@[simp] theorem State.draw_hmap (s : State) : (s.draw.2).hmap = s.hmap := rfl
@[simp] theorem State.draw_vfr (s : State) : (s.draw.2).vfr = s.vfr := rfl
@[simp] theorem State.draw_cores (s : State) : (s.draw.2).cores = s.cores := rfl
@[simp] theorem State.draw_dtlb (s : State) : (s.draw.2).dtlb = s.dtlb := rfl
@[simp] theorem State.draw_oldTlb (s : State) : (s.draw.2).oldTlb = s.oldTlb := rfl
@[simp] theorem State.draw_lgs (s : State) : (s.draw.2).lgs = s.lgs := rfl
@[simp] theorem State.draw_wgs (s : State) : (s.draw.2).wgs = s.wgs := rfl
@[simp] theorem State.draw_launches (s : State) : (s.draw.2).launches = s.launches := rfl
@[simp] theorem State.draw_parts (s : State) : (s.draw.2).parts = s.parts := rfl
@[simp] theorem State.draw_accs (s : State) : (s.draw.2).accs = s.accs := rfl
@[simp] theorem State.draw_cmds (s : State) : (s.draw.2).cmds = s.cmds := rfl
@[simp] theorem State.draw_msgs (s : State) : (s.draw.2).msgs = s.msgs := rfl
@[simp] theorem State.draw_merges (s : State) : (s.draw.2).merges = s.merges := rfl
@[simp] theorem State.draw_frags (s : State) : (s.draw.2).frags = s.frags := rfl
@[simp] theorem State.draw_tallies (s : State) : (s.draw.2).tallies = s.tallies := rfl
@[simp] theorem State.draw_presence (s : State) : (s.draw.2).presence = s.presence := rfl
@[simp] theorem State.draw_packs (s : State) : (s.draw.2).packs = s.packs := rfl
@[simp] theorem State.draw_wbacks (s : State) : (s.draw.2).wbacks = s.wbacks := rfl
@[simp] theorem State.draw_links (s : State) : (s.draw.2).links = s.links := rfl
@[simp] theorem State.draw_ldirs (s : State) : (s.draw.2).ldirs = s.ldirs := rfl
@[simp] theorem State.draw_edgesDown (s : State) : (s.draw.2).edgesDown = s.edgesDown := rfl
@[simp] theorem State.draw_ports (s : State) : (s.draw.2).ports = s.ports := rfl
@[simp] theorem State.draw_heldRecs (s : State) : (s.draw.2).heldRecs = s.heldRecs := rfl
@[simp] theorem State.draw_lateRecs (s : State) : (s.draw.2).lateRecs = s.lateRecs := rfl
@[simp] theorem State.draw_permits (s : State) : (s.draw.2).permits = s.permits := rfl
@[simp] theorem State.draw_govs (s : State) : (s.draw.2).govs = s.govs := rfl
@[simp] theorem State.draw_preqs (s : State) : (s.draw.2).preqs = s.preqs := rfl
@[simp] theorem State.draw_s2w (s : State) : (s.draw.2).s2w = s.s2w := rfl
@[simp] theorem State.draw_invs (s : State) : (s.draw.2).invs = s.invs := rfl
@[simp] theorem State.draw_syncs (s : State) : (s.draw.2).syncs = s.syncs := rfl
@[simp] theorem State.draw_streams (s : State) : (s.draw.2).streams = s.streams := rfl
@[simp] theorem State.draw_boot (s : State) : (s.draw.2).boot = s.boot := rfl
@[simp] theorem State.draw_dumps (s : State) : (s.draw.2).dumps = s.dumps := rfl
@[simp] theorem State.draw_bhSince (s : State) : (s.draw.2).bhSince = s.bhSince := rfl
@[simp] theorem State.draw_cxlDownAt (s : State) : (s.draw.2).cxlDownAt = s.cxlDownAt := rfl
@[simp] theorem State.draw_bhWait (s : State) : (s.draw.2).bhWait = s.bhWait := rfl
@[simp] theorem State.draw_lqt (s : State) : (s.draw.2).lqt = s.lqt := rfl
@[simp] theorem State.draw_hostPts (s : State) : (s.draw.2).hostPts = s.hostPts := rfl
@[simp] theorem State.draw_dbi (s : State) : (s.draw.2).dbi = s.dbi := rfl
@[simp] theorem State.draw_hostGot (s : State) : (s.draw.2).hostGot = s.hostGot := rfl

/-! ## `State.up` -/

@[simp] theorem State.up_now (s : State) (c : Ctx) (f : Lg → Lg) : (s.up c f).now = s.now := rfl
@[simp] theorem State.up_cur (s : State) (c : Ctx) (f : Lg → Lg) : (s.up c f).cur = s.cur := rfl
@[simp] theorem State.up_pk (s : State) (c : Ctx) (f : Lg → Lg) : (s.up c f).pk = s.pk := rfl
@[simp] theorem State.up_nfree (s : State) (c : Ctx) (f : Lg → Lg) : (s.up c f).nfree = s.nfree := rfl
@[simp] theorem State.up_nseq (s : State) (c : Ctx) (f : Lg → Lg) : (s.up c f).nseq = s.nseq := rfl
@[simp] theorem State.up_epoch (s : State) (c : Ctx) (f : Lg → Lg) : (s.up c f).epoch = s.epoch := rfl
@[simp] theorem State.up_agenda (s : State) (c : Ctx) (f : Lg → Lg) : (s.up c f).agenda = s.agenda := rfl
@[simp] theorem State.up_pending (s : State) (c : Ctx) (f : Lg → Lg) : (s.up c f).pending = s.pending := rfl
@[simp] theorem State.up_mem (s : State) (c : Ctx) (f : Lg → Lg) : (s.up c f).mem = s.mem := rfl
@[simp] theorem State.up_poison (s : State) (c : Ctx) (f : Lg → Lg) : (s.up c f).poison = s.poison := rfl
@[simp] theorem State.up_dir (s : State) (c : Ctx) (f : Lg → Lg) : (s.up c f).dir = s.dir := rfl
@[simp] theorem State.up_retired (s : State) (c : Ctx) (f : Lg → Lg) : (s.up c f).retired = s.retired := rfl
@[simp] theorem State.up_suspect (s : State) (c : Ctx) (f : Lg → Lg) : (s.up c f).suspect = s.suspect := rfl
@[simp] theorem State.up_corrected (s : State) (c : Ctx) (f : Lg → Lg) : (s.up c f).corrected = s.corrected := rfl
@[simp] theorem State.up_frameCe (s : State) (c : Ctx) (f : Lg → Lg) : (s.up c f).frameCe = s.frameCe := rfl
@[simp] theorem State.up_win (s : State) (c : Ctx) (f : Lg → Lg) : (s.up c f).win = s.win := rfl
@[simp] theorem State.up_winDrain (s : State) (c : Ctx) (f : Lg → Lg) : (s.up c f).winDrain = s.winDrain := rfl
@[simp] theorem State.up_hmap (s : State) (c : Ctx) (f : Lg → Lg) : (s.up c f).hmap = s.hmap := rfl
@[simp] theorem State.up_vfr (s : State) (c : Ctx) (f : Lg → Lg) : (s.up c f).vfr = s.vfr := rfl
@[simp] theorem State.up_cores (s : State) (c : Ctx) (f : Lg → Lg) : (s.up c f).cores = s.cores := rfl
@[simp] theorem State.up_dtlb (s : State) (c : Ctx) (f : Lg → Lg) : (s.up c f).dtlb = s.dtlb := rfl
@[simp] theorem State.up_oldTlb (s : State) (c : Ctx) (f : Lg → Lg) : (s.up c f).oldTlb = s.oldTlb := rfl
@[simp] theorem State.up_lgs (s : State) (c : Ctx) (f : Lg → Lg) : (s.up c f).lgs = s.lgs.modify c.g f := rfl
@[simp] theorem State.up_wgs (s : State) (c : Ctx) (f : Lg → Lg) : (s.up c f).wgs = s.wgs := rfl
@[simp] theorem State.up_launches (s : State) (c : Ctx) (f : Lg → Lg) : (s.up c f).launches = s.launches := rfl
@[simp] theorem State.up_parts (s : State) (c : Ctx) (f : Lg → Lg) : (s.up c f).parts = s.parts := rfl
@[simp] theorem State.up_accs (s : State) (c : Ctx) (f : Lg → Lg) : (s.up c f).accs = s.accs := rfl
@[simp] theorem State.up_cmds (s : State) (c : Ctx) (f : Lg → Lg) : (s.up c f).cmds = s.cmds := rfl
@[simp] theorem State.up_msgs (s : State) (c : Ctx) (f : Lg → Lg) : (s.up c f).msgs = s.msgs := rfl
@[simp] theorem State.up_merges (s : State) (c : Ctx) (f : Lg → Lg) : (s.up c f).merges = s.merges := rfl
@[simp] theorem State.up_frags (s : State) (c : Ctx) (f : Lg → Lg) : (s.up c f).frags = s.frags := rfl
@[simp] theorem State.up_tallies (s : State) (c : Ctx) (f : Lg → Lg) : (s.up c f).tallies = s.tallies := rfl
@[simp] theorem State.up_presence (s : State) (c : Ctx) (f : Lg → Lg) : (s.up c f).presence = s.presence := rfl
@[simp] theorem State.up_packs (s : State) (c : Ctx) (f : Lg → Lg) : (s.up c f).packs = s.packs := rfl
@[simp] theorem State.up_wbacks (s : State) (c : Ctx) (f : Lg → Lg) : (s.up c f).wbacks = s.wbacks := rfl
@[simp] theorem State.up_links (s : State) (c : Ctx) (f : Lg → Lg) : (s.up c f).links = s.links := rfl
@[simp] theorem State.up_ldirs (s : State) (c : Ctx) (f : Lg → Lg) : (s.up c f).ldirs = s.ldirs := rfl
@[simp] theorem State.up_edgesDown (s : State) (c : Ctx) (f : Lg → Lg) : (s.up c f).edgesDown = s.edgesDown := rfl
@[simp] theorem State.up_ports (s : State) (c : Ctx) (f : Lg → Lg) : (s.up c f).ports = s.ports := rfl
@[simp] theorem State.up_heldRecs (s : State) (c : Ctx) (f : Lg → Lg) : (s.up c f).heldRecs = s.heldRecs := rfl
@[simp] theorem State.up_lateRecs (s : State) (c : Ctx) (f : Lg → Lg) : (s.up c f).lateRecs = s.lateRecs := rfl
@[simp] theorem State.up_permits (s : State) (c : Ctx) (f : Lg → Lg) : (s.up c f).permits = s.permits := rfl
@[simp] theorem State.up_govs (s : State) (c : Ctx) (f : Lg → Lg) : (s.up c f).govs = s.govs := rfl
@[simp] theorem State.up_preqs (s : State) (c : Ctx) (f : Lg → Lg) : (s.up c f).preqs = s.preqs := rfl
@[simp] theorem State.up_s2w (s : State) (c : Ctx) (f : Lg → Lg) : (s.up c f).s2w = s.s2w := rfl
@[simp] theorem State.up_invs (s : State) (c : Ctx) (f : Lg → Lg) : (s.up c f).invs = s.invs := rfl
@[simp] theorem State.up_syncs (s : State) (c : Ctx) (f : Lg → Lg) : (s.up c f).syncs = s.syncs := rfl
@[simp] theorem State.up_streams (s : State) (c : Ctx) (f : Lg → Lg) : (s.up c f).streams = s.streams := rfl
@[simp] theorem State.up_boot (s : State) (c : Ctx) (f : Lg → Lg) : (s.up c f).boot = s.boot := rfl
@[simp] theorem State.up_dumps (s : State) (c : Ctx) (f : Lg → Lg) : (s.up c f).dumps = s.dumps := rfl
@[simp] theorem State.up_bhSince (s : State) (c : Ctx) (f : Lg → Lg) : (s.up c f).bhSince = s.bhSince := rfl
@[simp] theorem State.up_cxlDownAt (s : State) (c : Ctx) (f : Lg → Lg) : (s.up c f).cxlDownAt = s.cxlDownAt := rfl
@[simp] theorem State.up_bhWait (s : State) (c : Ctx) (f : Lg → Lg) : (s.up c f).bhWait = s.bhWait := rfl
@[simp] theorem State.up_lqt (s : State) (c : Ctx) (f : Lg → Lg) : (s.up c f).lqt = s.lqt := rfl
@[simp] theorem State.up_hostPts (s : State) (c : Ctx) (f : Lg → Lg) : (s.up c f).hostPts = s.hostPts := rfl
@[simp] theorem State.up_dbi (s : State) (c : Ctx) (f : Lg → Lg) : (s.up c f).dbi = s.dbi := rfl
@[simp] theorem State.up_hostGot (s : State) (c : Ctx) (f : Lg → Lg) : (s.up c f).hostGot = s.hostGot := rfl

/-! ## `State.addCtr` -/

@[simp] theorem State.addCtr_now (s : State) (g n : Nat) (x : Word) : (s.addCtr g n x).now = s.now := rfl
@[simp] theorem State.addCtr_cur (s : State) (g n : Nat) (x : Word) : (s.addCtr g n x).cur = s.cur := rfl
@[simp] theorem State.addCtr_pk (s : State) (g n : Nat) (x : Word) : (s.addCtr g n x).pk = s.pk := rfl
@[simp] theorem State.addCtr_nfree (s : State) (g n : Nat) (x : Word) : (s.addCtr g n x).nfree = s.nfree := rfl
@[simp] theorem State.addCtr_nseq (s : State) (g n : Nat) (x : Word) : (s.addCtr g n x).nseq = s.nseq := rfl
@[simp] theorem State.addCtr_epoch (s : State) (g n : Nat) (x : Word) : (s.addCtr g n x).epoch = s.epoch := rfl
@[simp] theorem State.addCtr_agenda (s : State) (g n : Nat) (x : Word) : (s.addCtr g n x).agenda = s.agenda := rfl
@[simp] theorem State.addCtr_pending (s : State) (g n : Nat) (x : Word) : (s.addCtr g n x).pending = s.pending := rfl
@[simp] theorem State.addCtr_mem (s : State) (g n : Nat) (x : Word) : (s.addCtr g n x).mem = s.mem := rfl
@[simp] theorem State.addCtr_poison (s : State) (g n : Nat) (x : Word) : (s.addCtr g n x).poison = s.poison := rfl
@[simp] theorem State.addCtr_dir (s : State) (g n : Nat) (x : Word) : (s.addCtr g n x).dir = s.dir := rfl
@[simp] theorem State.addCtr_retired (s : State) (g n : Nat) (x : Word) : (s.addCtr g n x).retired = s.retired := rfl
@[simp] theorem State.addCtr_suspect (s : State) (g n : Nat) (x : Word) : (s.addCtr g n x).suspect = s.suspect := rfl
@[simp] theorem State.addCtr_corrected (s : State) (g n : Nat) (x : Word) : (s.addCtr g n x).corrected = s.corrected := rfl
@[simp] theorem State.addCtr_frameCe (s : State) (g n : Nat) (x : Word) : (s.addCtr g n x).frameCe = s.frameCe := rfl
@[simp] theorem State.addCtr_win (s : State) (g n : Nat) (x : Word) : (s.addCtr g n x).win = s.win := rfl
@[simp] theorem State.addCtr_winDrain (s : State) (g n : Nat) (x : Word) : (s.addCtr g n x).winDrain = s.winDrain := rfl
@[simp] theorem State.addCtr_hmap (s : State) (g n : Nat) (x : Word) : (s.addCtr g n x).hmap = s.hmap := rfl
@[simp] theorem State.addCtr_vfr (s : State) (g n : Nat) (x : Word) : (s.addCtr g n x).vfr = s.vfr := rfl
@[simp] theorem State.addCtr_cores (s : State) (g n : Nat) (x : Word) : (s.addCtr g n x).cores = s.cores := rfl
@[simp] theorem State.addCtr_dtlb (s : State) (g n : Nat) (x : Word) : (s.addCtr g n x).dtlb = s.dtlb := rfl
@[simp] theorem State.addCtr_oldTlb (s : State) (g n : Nat) (x : Word) : (s.addCtr g n x).oldTlb = s.oldTlb := rfl
@[simp] theorem State.addCtr_wgs (s : State) (g n : Nat) (x : Word) : (s.addCtr g n x).wgs = s.wgs := rfl
@[simp] theorem State.addCtr_launches (s : State) (g n : Nat) (x : Word) : (s.addCtr g n x).launches = s.launches := rfl
@[simp] theorem State.addCtr_parts (s : State) (g n : Nat) (x : Word) : (s.addCtr g n x).parts = s.parts := rfl
@[simp] theorem State.addCtr_accs (s : State) (g n : Nat) (x : Word) : (s.addCtr g n x).accs = s.accs := rfl
@[simp] theorem State.addCtr_cmds (s : State) (g n : Nat) (x : Word) : (s.addCtr g n x).cmds = s.cmds := rfl
@[simp] theorem State.addCtr_msgs (s : State) (g n : Nat) (x : Word) : (s.addCtr g n x).msgs = s.msgs := rfl
@[simp] theorem State.addCtr_merges (s : State) (g n : Nat) (x : Word) : (s.addCtr g n x).merges = s.merges := rfl
@[simp] theorem State.addCtr_frags (s : State) (g n : Nat) (x : Word) : (s.addCtr g n x).frags = s.frags := rfl
@[simp] theorem State.addCtr_tallies (s : State) (g n : Nat) (x : Word) : (s.addCtr g n x).tallies = s.tallies := rfl
@[simp] theorem State.addCtr_presence (s : State) (g n : Nat) (x : Word) : (s.addCtr g n x).presence = s.presence := rfl
@[simp] theorem State.addCtr_packs (s : State) (g n : Nat) (x : Word) : (s.addCtr g n x).packs = s.packs := rfl
@[simp] theorem State.addCtr_wbacks (s : State) (g n : Nat) (x : Word) : (s.addCtr g n x).wbacks = s.wbacks := rfl
@[simp] theorem State.addCtr_links (s : State) (g n : Nat) (x : Word) : (s.addCtr g n x).links = s.links := rfl
@[simp] theorem State.addCtr_ldirs (s : State) (g n : Nat) (x : Word) : (s.addCtr g n x).ldirs = s.ldirs := rfl
@[simp] theorem State.addCtr_edgesDown (s : State) (g n : Nat) (x : Word) : (s.addCtr g n x).edgesDown = s.edgesDown := rfl
@[simp] theorem State.addCtr_ports (s : State) (g n : Nat) (x : Word) : (s.addCtr g n x).ports = s.ports := rfl
@[simp] theorem State.addCtr_heldRecs (s : State) (g n : Nat) (x : Word) : (s.addCtr g n x).heldRecs = s.heldRecs := rfl
@[simp] theorem State.addCtr_lateRecs (s : State) (g n : Nat) (x : Word) : (s.addCtr g n x).lateRecs = s.lateRecs := rfl
@[simp] theorem State.addCtr_permits (s : State) (g n : Nat) (x : Word) : (s.addCtr g n x).permits = s.permits := rfl
@[simp] theorem State.addCtr_govs (s : State) (g n : Nat) (x : Word) : (s.addCtr g n x).govs = s.govs := rfl
@[simp] theorem State.addCtr_preqs (s : State) (g n : Nat) (x : Word) : (s.addCtr g n x).preqs = s.preqs := rfl
@[simp] theorem State.addCtr_s2w (s : State) (g n : Nat) (x : Word) : (s.addCtr g n x).s2w = s.s2w := rfl
@[simp] theorem State.addCtr_invs (s : State) (g n : Nat) (x : Word) : (s.addCtr g n x).invs = s.invs := rfl
@[simp] theorem State.addCtr_syncs (s : State) (g n : Nat) (x : Word) : (s.addCtr g n x).syncs = s.syncs := rfl
@[simp] theorem State.addCtr_streams (s : State) (g n : Nat) (x : Word) : (s.addCtr g n x).streams = s.streams := rfl
@[simp] theorem State.addCtr_boot (s : State) (g n : Nat) (x : Word) : (s.addCtr g n x).boot = s.boot := rfl
@[simp] theorem State.addCtr_dumps (s : State) (g n : Nat) (x : Word) : (s.addCtr g n x).dumps = s.dumps := rfl
@[simp] theorem State.addCtr_bhSince (s : State) (g n : Nat) (x : Word) : (s.addCtr g n x).bhSince = s.bhSince := rfl
@[simp] theorem State.addCtr_cxlDownAt (s : State) (g n : Nat) (x : Word) : (s.addCtr g n x).cxlDownAt = s.cxlDownAt := rfl
@[simp] theorem State.addCtr_bhWait (s : State) (g n : Nat) (x : Word) : (s.addCtr g n x).bhWait = s.bhWait := rfl
@[simp] theorem State.addCtr_lqt (s : State) (g n : Nat) (x : Word) : (s.addCtr g n x).lqt = s.lqt := rfl
@[simp] theorem State.addCtr_hostPts (s : State) (g n : Nat) (x : Word) : (s.addCtr g n x).hostPts = s.hostPts := rfl
@[simp] theorem State.addCtr_dbi (s : State) (g n : Nat) (x : Word) : (s.addCtr g n x).dbi = s.dbi := rfl
@[simp] theorem State.addCtr_hostGot (s : State) (g n : Nat) (x : Word) : (s.addCtr g n x).hostGot = s.hostGot := rfl

/-! ## `State.noteFail` -/

@[simp] theorem State.noteFail_now (s : State) (g : Nat) (f : Fail) : (s.noteFail g f).now = s.now := rfl
@[simp] theorem State.noteFail_cur (s : State) (g : Nat) (f : Fail) : (s.noteFail g f).cur = s.cur := rfl
@[simp] theorem State.noteFail_pk (s : State) (g : Nat) (f : Fail) : (s.noteFail g f).pk = s.pk := rfl
@[simp] theorem State.noteFail_nfree (s : State) (g : Nat) (f : Fail) : (s.noteFail g f).nfree = s.nfree := rfl
@[simp] theorem State.noteFail_nseq (s : State) (g : Nat) (f : Fail) : (s.noteFail g f).nseq = s.nseq := rfl
@[simp] theorem State.noteFail_epoch (s : State) (g : Nat) (f : Fail) : (s.noteFail g f).epoch = s.epoch := rfl
@[simp] theorem State.noteFail_agenda (s : State) (g : Nat) (f : Fail) : (s.noteFail g f).agenda = s.agenda := rfl
@[simp] theorem State.noteFail_pending (s : State) (g : Nat) (f : Fail) : (s.noteFail g f).pending = s.pending := rfl
@[simp] theorem State.noteFail_mem (s : State) (g : Nat) (f : Fail) : (s.noteFail g f).mem = s.mem := rfl
@[simp] theorem State.noteFail_poison (s : State) (g : Nat) (f : Fail) : (s.noteFail g f).poison = s.poison := rfl
@[simp] theorem State.noteFail_dir (s : State) (g : Nat) (f : Fail) : (s.noteFail g f).dir = s.dir := rfl
@[simp] theorem State.noteFail_retired (s : State) (g : Nat) (f : Fail) : (s.noteFail g f).retired = s.retired := rfl
@[simp] theorem State.noteFail_suspect (s : State) (g : Nat) (f : Fail) : (s.noteFail g f).suspect = s.suspect := rfl
@[simp] theorem State.noteFail_corrected (s : State) (g : Nat) (f : Fail) : (s.noteFail g f).corrected = s.corrected := rfl
@[simp] theorem State.noteFail_frameCe (s : State) (g : Nat) (f : Fail) : (s.noteFail g f).frameCe = s.frameCe := rfl
@[simp] theorem State.noteFail_win (s : State) (g : Nat) (f : Fail) : (s.noteFail g f).win = s.win := rfl
@[simp] theorem State.noteFail_winDrain (s : State) (g : Nat) (f : Fail) : (s.noteFail g f).winDrain = s.winDrain := rfl
@[simp] theorem State.noteFail_hmap (s : State) (g : Nat) (f : Fail) : (s.noteFail g f).hmap = s.hmap := rfl
@[simp] theorem State.noteFail_vfr (s : State) (g : Nat) (f : Fail) : (s.noteFail g f).vfr = s.vfr := rfl
@[simp] theorem State.noteFail_cores (s : State) (g : Nat) (f : Fail) : (s.noteFail g f).cores = s.cores := rfl
@[simp] theorem State.noteFail_dtlb (s : State) (g : Nat) (f : Fail) : (s.noteFail g f).dtlb = s.dtlb := rfl
@[simp] theorem State.noteFail_oldTlb (s : State) (g : Nat) (f : Fail) : (s.noteFail g f).oldTlb = s.oldTlb := rfl
@[simp] theorem State.noteFail_wgs (s : State) (g : Nat) (f : Fail) : (s.noteFail g f).wgs = s.wgs := rfl
@[simp] theorem State.noteFail_launches (s : State) (g : Nat) (f : Fail) : (s.noteFail g f).launches = s.launches := rfl
@[simp] theorem State.noteFail_parts (s : State) (g : Nat) (f : Fail) : (s.noteFail g f).parts = s.parts := rfl
@[simp] theorem State.noteFail_accs (s : State) (g : Nat) (f : Fail) : (s.noteFail g f).accs = s.accs := rfl
@[simp] theorem State.noteFail_cmds (s : State) (g : Nat) (f : Fail) : (s.noteFail g f).cmds = s.cmds := rfl
@[simp] theorem State.noteFail_msgs (s : State) (g : Nat) (f : Fail) : (s.noteFail g f).msgs = s.msgs := rfl
@[simp] theorem State.noteFail_merges (s : State) (g : Nat) (f : Fail) : (s.noteFail g f).merges = s.merges := rfl
@[simp] theorem State.noteFail_frags (s : State) (g : Nat) (f : Fail) : (s.noteFail g f).frags = s.frags := rfl
@[simp] theorem State.noteFail_tallies (s : State) (g : Nat) (f : Fail) : (s.noteFail g f).tallies = s.tallies := rfl
@[simp] theorem State.noteFail_presence (s : State) (g : Nat) (f : Fail) : (s.noteFail g f).presence = s.presence := rfl
@[simp] theorem State.noteFail_packs (s : State) (g : Nat) (f : Fail) : (s.noteFail g f).packs = s.packs := rfl
@[simp] theorem State.noteFail_wbacks (s : State) (g : Nat) (f : Fail) : (s.noteFail g f).wbacks = s.wbacks := rfl
@[simp] theorem State.noteFail_links (s : State) (g : Nat) (f : Fail) : (s.noteFail g f).links = s.links := rfl
@[simp] theorem State.noteFail_ldirs (s : State) (g : Nat) (f : Fail) : (s.noteFail g f).ldirs = s.ldirs := rfl
@[simp] theorem State.noteFail_edgesDown (s : State) (g : Nat) (f : Fail) : (s.noteFail g f).edgesDown = s.edgesDown := rfl
@[simp] theorem State.noteFail_ports (s : State) (g : Nat) (f : Fail) : (s.noteFail g f).ports = s.ports := rfl
@[simp] theorem State.noteFail_heldRecs (s : State) (g : Nat) (f : Fail) : (s.noteFail g f).heldRecs = s.heldRecs := rfl
@[simp] theorem State.noteFail_lateRecs (s : State) (g : Nat) (f : Fail) : (s.noteFail g f).lateRecs = s.lateRecs := rfl
@[simp] theorem State.noteFail_permits (s : State) (g : Nat) (f : Fail) : (s.noteFail g f).permits = s.permits := rfl
@[simp] theorem State.noteFail_govs (s : State) (g : Nat) (f : Fail) : (s.noteFail g f).govs = s.govs := rfl
@[simp] theorem State.noteFail_preqs (s : State) (g : Nat) (f : Fail) : (s.noteFail g f).preqs = s.preqs := rfl
@[simp] theorem State.noteFail_s2w (s : State) (g : Nat) (f : Fail) : (s.noteFail g f).s2w = s.s2w := rfl
@[simp] theorem State.noteFail_invs (s : State) (g : Nat) (f : Fail) : (s.noteFail g f).invs = s.invs := rfl
@[simp] theorem State.noteFail_syncs (s : State) (g : Nat) (f : Fail) : (s.noteFail g f).syncs = s.syncs := rfl
@[simp] theorem State.noteFail_streams (s : State) (g : Nat) (f : Fail) : (s.noteFail g f).streams = s.streams := rfl
@[simp] theorem State.noteFail_boot (s : State) (g : Nat) (f : Fail) : (s.noteFail g f).boot = s.boot := rfl
@[simp] theorem State.noteFail_dumps (s : State) (g : Nat) (f : Fail) : (s.noteFail g f).dumps = s.dumps := rfl
@[simp] theorem State.noteFail_bhSince (s : State) (g : Nat) (f : Fail) : (s.noteFail g f).bhSince = s.bhSince := rfl
@[simp] theorem State.noteFail_cxlDownAt (s : State) (g : Nat) (f : Fail) : (s.noteFail g f).cxlDownAt = s.cxlDownAt := rfl
@[simp] theorem State.noteFail_bhWait (s : State) (g : Nat) (f : Fail) : (s.noteFail g f).bhWait = s.bhWait := rfl
@[simp] theorem State.noteFail_lqt (s : State) (g : Nat) (f : Fail) : (s.noteFail g f).lqt = s.lqt := rfl
@[simp] theorem State.noteFail_hostPts (s : State) (g : Nat) (f : Fail) : (s.noteFail g f).hostPts = s.hostPts := rfl
@[simp] theorem State.noteFail_dbi (s : State) (g : Nat) (f : Fail) : (s.noteFail g f).dbi = s.dbi := rfl
@[simp] theorem State.noteFail_hostGot (s : State) (g : Nat) (f : Fail) : (s.noteFail g f).hostGot = s.hostGot := rfl

/-! ## `State.faultLaunch` -/

@[simp] theorem State.faultLaunch_now (s : State) (l : Nat) (c : Cause) : (s.faultLaunch l c).now = s.now := rfl
@[simp] theorem State.faultLaunch_cur (s : State) (l : Nat) (c : Cause) : (s.faultLaunch l c).cur = s.cur := rfl
@[simp] theorem State.faultLaunch_pk (s : State) (l : Nat) (c : Cause) : (s.faultLaunch l c).pk = s.pk := rfl
@[simp] theorem State.faultLaunch_nfree (s : State) (l : Nat) (c : Cause) : (s.faultLaunch l c).nfree = s.nfree := rfl
@[simp] theorem State.faultLaunch_nseq (s : State) (l : Nat) (c : Cause) : (s.faultLaunch l c).nseq = s.nseq := rfl
@[simp] theorem State.faultLaunch_epoch (s : State) (l : Nat) (c : Cause) : (s.faultLaunch l c).epoch = s.epoch := rfl
@[simp] theorem State.faultLaunch_agenda (s : State) (l : Nat) (c : Cause) : (s.faultLaunch l c).agenda = s.agenda := rfl
@[simp] theorem State.faultLaunch_pending (s : State) (l : Nat) (c : Cause) : (s.faultLaunch l c).pending = s.pending := rfl
@[simp] theorem State.faultLaunch_mem (s : State) (l : Nat) (c : Cause) : (s.faultLaunch l c).mem = s.mem := rfl
@[simp] theorem State.faultLaunch_poison (s : State) (l : Nat) (c : Cause) : (s.faultLaunch l c).poison = s.poison := rfl
@[simp] theorem State.faultLaunch_dir (s : State) (l : Nat) (c : Cause) : (s.faultLaunch l c).dir = s.dir := rfl
@[simp] theorem State.faultLaunch_retired (s : State) (l : Nat) (c : Cause) : (s.faultLaunch l c).retired = s.retired := rfl
@[simp] theorem State.faultLaunch_suspect (s : State) (l : Nat) (c : Cause) : (s.faultLaunch l c).suspect = s.suspect := rfl
@[simp] theorem State.faultLaunch_corrected (s : State) (l : Nat) (c : Cause) : (s.faultLaunch l c).corrected = s.corrected := rfl
@[simp] theorem State.faultLaunch_frameCe (s : State) (l : Nat) (c : Cause) : (s.faultLaunch l c).frameCe = s.frameCe := rfl
@[simp] theorem State.faultLaunch_win (s : State) (l : Nat) (c : Cause) : (s.faultLaunch l c).win = s.win := rfl
@[simp] theorem State.faultLaunch_winDrain (s : State) (l : Nat) (c : Cause) : (s.faultLaunch l c).winDrain = s.winDrain := rfl
@[simp] theorem State.faultLaunch_hmap (s : State) (l : Nat) (c : Cause) : (s.faultLaunch l c).hmap = s.hmap := rfl
@[simp] theorem State.faultLaunch_vfr (s : State) (l : Nat) (c : Cause) : (s.faultLaunch l c).vfr = s.vfr := rfl
@[simp] theorem State.faultLaunch_cores (s : State) (l : Nat) (c : Cause) : (s.faultLaunch l c).cores = s.cores := rfl
@[simp] theorem State.faultLaunch_dtlb (s : State) (l : Nat) (c : Cause) : (s.faultLaunch l c).dtlb = s.dtlb := rfl
@[simp] theorem State.faultLaunch_oldTlb (s : State) (l : Nat) (c : Cause) : (s.faultLaunch l c).oldTlb = s.oldTlb := rfl
@[simp] theorem State.faultLaunch_lgs (s : State) (l : Nat) (c : Cause) : (s.faultLaunch l c).lgs = s.lgs := rfl
@[simp] theorem State.faultLaunch_wgs (s : State) (l : Nat) (c : Cause) : (s.faultLaunch l c).wgs = s.wgs := rfl
@[simp] theorem State.faultLaunch_parts (s : State) (l : Nat) (c : Cause) : (s.faultLaunch l c).parts = s.parts := rfl
@[simp] theorem State.faultLaunch_accs (s : State) (l : Nat) (c : Cause) : (s.faultLaunch l c).accs = s.accs := rfl
@[simp] theorem State.faultLaunch_cmds (s : State) (l : Nat) (c : Cause) : (s.faultLaunch l c).cmds = s.cmds := rfl
@[simp] theorem State.faultLaunch_msgs (s : State) (l : Nat) (c : Cause) : (s.faultLaunch l c).msgs = s.msgs := rfl
@[simp] theorem State.faultLaunch_merges (s : State) (l : Nat) (c : Cause) : (s.faultLaunch l c).merges = s.merges := rfl
@[simp] theorem State.faultLaunch_frags (s : State) (l : Nat) (c : Cause) : (s.faultLaunch l c).frags = s.frags := rfl
@[simp] theorem State.faultLaunch_tallies (s : State) (l : Nat) (c : Cause) : (s.faultLaunch l c).tallies = s.tallies := rfl
@[simp] theorem State.faultLaunch_presence (s : State) (l : Nat) (c : Cause) : (s.faultLaunch l c).presence = s.presence := rfl
@[simp] theorem State.faultLaunch_packs (s : State) (l : Nat) (c : Cause) : (s.faultLaunch l c).packs = s.packs := rfl
@[simp] theorem State.faultLaunch_wbacks (s : State) (l : Nat) (c : Cause) : (s.faultLaunch l c).wbacks = s.wbacks := rfl
@[simp] theorem State.faultLaunch_links (s : State) (l : Nat) (c : Cause) : (s.faultLaunch l c).links = s.links := rfl
@[simp] theorem State.faultLaunch_ldirs (s : State) (l : Nat) (c : Cause) : (s.faultLaunch l c).ldirs = s.ldirs := rfl
@[simp] theorem State.faultLaunch_edgesDown (s : State) (l : Nat) (c : Cause) : (s.faultLaunch l c).edgesDown = s.edgesDown := rfl
@[simp] theorem State.faultLaunch_ports (s : State) (l : Nat) (c : Cause) : (s.faultLaunch l c).ports = s.ports := rfl
@[simp] theorem State.faultLaunch_heldRecs (s : State) (l : Nat) (c : Cause) : (s.faultLaunch l c).heldRecs = s.heldRecs := rfl
@[simp] theorem State.faultLaunch_lateRecs (s : State) (l : Nat) (c : Cause) : (s.faultLaunch l c).lateRecs = s.lateRecs := rfl
@[simp] theorem State.faultLaunch_permits (s : State) (l : Nat) (c : Cause) : (s.faultLaunch l c).permits = s.permits := rfl
@[simp] theorem State.faultLaunch_govs (s : State) (l : Nat) (c : Cause) : (s.faultLaunch l c).govs = s.govs := rfl
@[simp] theorem State.faultLaunch_preqs (s : State) (l : Nat) (c : Cause) : (s.faultLaunch l c).preqs = s.preqs := rfl
@[simp] theorem State.faultLaunch_s2w (s : State) (l : Nat) (c : Cause) : (s.faultLaunch l c).s2w = s.s2w := rfl
@[simp] theorem State.faultLaunch_invs (s : State) (l : Nat) (c : Cause) : (s.faultLaunch l c).invs = s.invs := rfl
@[simp] theorem State.faultLaunch_syncs (s : State) (l : Nat) (c : Cause) : (s.faultLaunch l c).syncs = s.syncs := rfl
@[simp] theorem State.faultLaunch_streams (s : State) (l : Nat) (c : Cause) : (s.faultLaunch l c).streams = s.streams := rfl
@[simp] theorem State.faultLaunch_boot (s : State) (l : Nat) (c : Cause) : (s.faultLaunch l c).boot = s.boot := rfl
@[simp] theorem State.faultLaunch_dumps (s : State) (l : Nat) (c : Cause) : (s.faultLaunch l c).dumps = s.dumps := rfl
@[simp] theorem State.faultLaunch_bhSince (s : State) (l : Nat) (c : Cause) : (s.faultLaunch l c).bhSince = s.bhSince := rfl
@[simp] theorem State.faultLaunch_cxlDownAt (s : State) (l : Nat) (c : Cause) : (s.faultLaunch l c).cxlDownAt = s.cxlDownAt := rfl
@[simp] theorem State.faultLaunch_bhWait (s : State) (l : Nat) (c : Cause) : (s.faultLaunch l c).bhWait = s.bhWait := rfl
@[simp] theorem State.faultLaunch_lqt (s : State) (l : Nat) (c : Cause) : (s.faultLaunch l c).lqt = s.lqt := rfl
@[simp] theorem State.faultLaunch_hostPts (s : State) (l : Nat) (c : Cause) : (s.faultLaunch l c).hostPts = s.hostPts := rfl
@[simp] theorem State.faultLaunch_dbi (s : State) (l : Nat) (c : Cause) : (s.faultLaunch l c).dbi = s.dbi := rfl
@[simp] theorem State.faultLaunch_hostGot (s : State) (l : Nat) (c : Cause) : (s.faultLaunch l c).hostGot = s.hostGot := rfl

/-! ## `State.putCmd` -/

@[simp] theorem State.putCmd_now (s : State) (x : Cmd) : (s.putCmd x).now = s.now := rfl
@[simp] theorem State.putCmd_cur (s : State) (x : Cmd) : (s.putCmd x).cur = s.cur := rfl
@[simp] theorem State.putCmd_pk (s : State) (x : Cmd) : (s.putCmd x).pk = s.pk := rfl
@[simp] theorem State.putCmd_nfree (s : State) (x : Cmd) : (s.putCmd x).nfree = s.nfree := rfl
@[simp] theorem State.putCmd_nseq (s : State) (x : Cmd) : (s.putCmd x).nseq = s.nseq + 1 := rfl
@[simp] theorem State.putCmd_epoch (s : State) (x : Cmd) : (s.putCmd x).epoch = s.epoch := rfl
@[simp] theorem State.putCmd_agenda (s : State) (x : Cmd) : (s.putCmd x).agenda = s.agenda := rfl
@[simp] theorem State.putCmd_pending (s : State) (x : Cmd) : (s.putCmd x).pending = s.pending := rfl
@[simp] theorem State.putCmd_mem (s : State) (x : Cmd) : (s.putCmd x).mem = s.mem := rfl
@[simp] theorem State.putCmd_poison (s : State) (x : Cmd) : (s.putCmd x).poison = s.poison := rfl
@[simp] theorem State.putCmd_dir (s : State) (x : Cmd) : (s.putCmd x).dir = s.dir := rfl
@[simp] theorem State.putCmd_retired (s : State) (x : Cmd) : (s.putCmd x).retired = s.retired := rfl
@[simp] theorem State.putCmd_suspect (s : State) (x : Cmd) : (s.putCmd x).suspect = s.suspect := rfl
@[simp] theorem State.putCmd_corrected (s : State) (x : Cmd) : (s.putCmd x).corrected = s.corrected := rfl
@[simp] theorem State.putCmd_frameCe (s : State) (x : Cmd) : (s.putCmd x).frameCe = s.frameCe := rfl
@[simp] theorem State.putCmd_win (s : State) (x : Cmd) : (s.putCmd x).win = s.win := rfl
@[simp] theorem State.putCmd_winDrain (s : State) (x : Cmd) : (s.putCmd x).winDrain = s.winDrain := rfl
@[simp] theorem State.putCmd_hmap (s : State) (x : Cmd) : (s.putCmd x).hmap = s.hmap := rfl
@[simp] theorem State.putCmd_vfr (s : State) (x : Cmd) : (s.putCmd x).vfr = s.vfr := rfl
@[simp] theorem State.putCmd_cores (s : State) (x : Cmd) : (s.putCmd x).cores = s.cores := rfl
@[simp] theorem State.putCmd_dtlb (s : State) (x : Cmd) : (s.putCmd x).dtlb = s.dtlb := rfl
@[simp] theorem State.putCmd_oldTlb (s : State) (x : Cmd) : (s.putCmd x).oldTlb = s.oldTlb := rfl
@[simp] theorem State.putCmd_lgs (s : State) (x : Cmd) : (s.putCmd x).lgs = s.lgs := rfl
@[simp] theorem State.putCmd_wgs (s : State) (x : Cmd) : (s.putCmd x).wgs = s.wgs := rfl
@[simp] theorem State.putCmd_launches (s : State) (x : Cmd) : (s.putCmd x).launches = s.launches := rfl
@[simp] theorem State.putCmd_parts (s : State) (x : Cmd) : (s.putCmd x).parts = s.parts := rfl
@[simp] theorem State.putCmd_accs (s : State) (x : Cmd) : (s.putCmd x).accs = s.accs := rfl
@[simp] theorem State.putCmd_cmds (s : State) (x : Cmd) : (s.putCmd x).cmds = s.cmds.put x.seq x := rfl
@[simp] theorem State.putCmd_msgs (s : State) (x : Cmd) : (s.putCmd x).msgs = s.msgs := rfl
@[simp] theorem State.putCmd_merges (s : State) (x : Cmd) : (s.putCmd x).merges = s.merges := rfl
@[simp] theorem State.putCmd_frags (s : State) (x : Cmd) : (s.putCmd x).frags = s.frags := rfl
@[simp] theorem State.putCmd_tallies (s : State) (x : Cmd) : (s.putCmd x).tallies = s.tallies := rfl
@[simp] theorem State.putCmd_presence (s : State) (x : Cmd) : (s.putCmd x).presence = s.presence := rfl
@[simp] theorem State.putCmd_packs (s : State) (x : Cmd) : (s.putCmd x).packs = s.packs := rfl
@[simp] theorem State.putCmd_wbacks (s : State) (x : Cmd) : (s.putCmd x).wbacks = s.wbacks := rfl
@[simp] theorem State.putCmd_links (s : State) (x : Cmd) : (s.putCmd x).links = s.links := rfl
@[simp] theorem State.putCmd_ldirs (s : State) (x : Cmd) : (s.putCmd x).ldirs = s.ldirs := rfl
@[simp] theorem State.putCmd_edgesDown (s : State) (x : Cmd) : (s.putCmd x).edgesDown = s.edgesDown := rfl
@[simp] theorem State.putCmd_ports (s : State) (x : Cmd) : (s.putCmd x).ports = s.ports := rfl
@[simp] theorem State.putCmd_heldRecs (s : State) (x : Cmd) : (s.putCmd x).heldRecs = s.heldRecs := rfl
@[simp] theorem State.putCmd_lateRecs (s : State) (x : Cmd) : (s.putCmd x).lateRecs = s.lateRecs := rfl
@[simp] theorem State.putCmd_permits (s : State) (x : Cmd) : (s.putCmd x).permits = s.permits := rfl
@[simp] theorem State.putCmd_govs (s : State) (x : Cmd) : (s.putCmd x).govs = s.govs := rfl
@[simp] theorem State.putCmd_preqs (s : State) (x : Cmd) : (s.putCmd x).preqs = s.preqs := rfl
@[simp] theorem State.putCmd_s2w (s : State) (x : Cmd) : (s.putCmd x).s2w = s.s2w := rfl
@[simp] theorem State.putCmd_invs (s : State) (x : Cmd) : (s.putCmd x).invs = s.invs := rfl
@[simp] theorem State.putCmd_syncs (s : State) (x : Cmd) : (s.putCmd x).syncs = s.syncs := rfl
@[simp] theorem State.putCmd_streams (s : State) (x : Cmd) : (s.putCmd x).streams = s.streams := rfl
@[simp] theorem State.putCmd_boot (s : State) (x : Cmd) : (s.putCmd x).boot = s.boot := rfl
@[simp] theorem State.putCmd_dumps (s : State) (x : Cmd) : (s.putCmd x).dumps = s.dumps := rfl
@[simp] theorem State.putCmd_bhSince (s : State) (x : Cmd) : (s.putCmd x).bhSince = s.bhSince := rfl
@[simp] theorem State.putCmd_cxlDownAt (s : State) (x : Cmd) : (s.putCmd x).cxlDownAt = s.cxlDownAt := rfl
@[simp] theorem State.putCmd_bhWait (s : State) (x : Cmd) : (s.putCmd x).bhWait = s.bhWait := rfl
@[simp] theorem State.putCmd_lqt (s : State) (x : Cmd) : (s.putCmd x).lqt = s.lqt := rfl
@[simp] theorem State.putCmd_hostPts (s : State) (x : Cmd) : (s.putCmd x).hostPts = s.hostPts := rfl
@[simp] theorem State.putCmd_dbi (s : State) (x : Cmd) : (s.putCmd x).dbi = s.dbi := rfl
@[simp] theorem State.putCmd_hostGot (s : State) (x : Cmd) : (s.putCmd x).hostGot = s.hostGot := rfl

/-! ## `State.tick` -/

@[simp] theorem State.tick_now (s : State) : (s.tick).now = s.now + 1 := rfl
@[simp] theorem State.tick_cur (s : State) : (s.tick).cur = s.cur := rfl
@[simp] theorem State.tick_pk (s : State) : (s.tick).pk = s.pk := rfl
@[simp] theorem State.tick_nfree (s : State) : (s.tick).nfree = s.nfree := rfl
@[simp] theorem State.tick_nseq (s : State) : (s.tick).nseq = s.nseq := rfl
@[simp] theorem State.tick_epoch (s : State) : (s.tick).epoch = s.epoch + 1 := rfl
@[simp] theorem State.tick_agenda (s : State) : (s.tick).agenda = s.agenda := rfl
@[simp] theorem State.tick_pending (s : State) : (s.tick).pending = s.pending := rfl
@[simp] theorem State.tick_mem (s : State) : (s.tick).mem = s.mem := rfl
@[simp] theorem State.tick_poison (s : State) : (s.tick).poison = s.poison := rfl
@[simp] theorem State.tick_dir (s : State) : (s.tick).dir = s.dir := rfl
@[simp] theorem State.tick_retired (s : State) : (s.tick).retired = s.retired := rfl
@[simp] theorem State.tick_suspect (s : State) : (s.tick).suspect = s.suspect := rfl
@[simp] theorem State.tick_corrected (s : State) : (s.tick).corrected = s.corrected := rfl
@[simp] theorem State.tick_frameCe (s : State) : (s.tick).frameCe = s.frameCe := rfl
@[simp] theorem State.tick_win (s : State) : (s.tick).win = s.win := rfl
@[simp] theorem State.tick_winDrain (s : State) : (s.tick).winDrain = s.winDrain := rfl
@[simp] theorem State.tick_hmap (s : State) : (s.tick).hmap = s.hmap := rfl
@[simp] theorem State.tick_vfr (s : State) : (s.tick).vfr = s.vfr := rfl
@[simp] theorem State.tick_cores (s : State) : (s.tick).cores = s.cores := rfl
@[simp] theorem State.tick_dtlb (s : State) : (s.tick).dtlb = s.dtlb := rfl
@[simp] theorem State.tick_oldTlb (s : State) : (s.tick).oldTlb = s.oldTlb := rfl
@[simp] theorem State.tick_lgs (s : State) : (s.tick).lgs = s.lgs := rfl
@[simp] theorem State.tick_wgs (s : State) : (s.tick).wgs = s.wgs := rfl
@[simp] theorem State.tick_launches (s : State) : (s.tick).launches = s.launches := rfl
@[simp] theorem State.tick_parts (s : State) : (s.tick).parts = s.parts := rfl
@[simp] theorem State.tick_accs (s : State) : (s.tick).accs = s.accs := rfl
@[simp] theorem State.tick_cmds (s : State) : (s.tick).cmds = s.cmds := rfl
@[simp] theorem State.tick_msgs (s : State) : (s.tick).msgs = s.msgs := rfl
@[simp] theorem State.tick_merges (s : State) : (s.tick).merges = s.merges := rfl
@[simp] theorem State.tick_frags (s : State) : (s.tick).frags = s.frags := rfl
@[simp] theorem State.tick_tallies (s : State) : (s.tick).tallies = s.tallies := rfl
@[simp] theorem State.tick_presence (s : State) : (s.tick).presence = s.presence := rfl
@[simp] theorem State.tick_packs (s : State) : (s.tick).packs = s.packs := rfl
@[simp] theorem State.tick_wbacks (s : State) : (s.tick).wbacks = s.wbacks := rfl
@[simp] theorem State.tick_links (s : State) : (s.tick).links = s.links := rfl
@[simp] theorem State.tick_ldirs (s : State) : (s.tick).ldirs = s.ldirs := rfl
@[simp] theorem State.tick_edgesDown (s : State) : (s.tick).edgesDown = s.edgesDown := rfl
@[simp] theorem State.tick_ports (s : State) : (s.tick).ports = s.ports := rfl
@[simp] theorem State.tick_heldRecs (s : State) : (s.tick).heldRecs = s.heldRecs := rfl
@[simp] theorem State.tick_lateRecs (s : State) : (s.tick).lateRecs = s.lateRecs := rfl
@[simp] theorem State.tick_permits (s : State) : (s.tick).permits = s.permits := rfl
@[simp] theorem State.tick_govs (s : State) : (s.tick).govs = s.govs := rfl
@[simp] theorem State.tick_preqs (s : State) : (s.tick).preqs = s.preqs := rfl
@[simp] theorem State.tick_s2w (s : State) : (s.tick).s2w = s.s2w := rfl
@[simp] theorem State.tick_invs (s : State) : (s.tick).invs = s.invs := rfl
@[simp] theorem State.tick_syncs (s : State) : (s.tick).syncs = s.syncs := rfl
@[simp] theorem State.tick_streams (s : State) : (s.tick).streams = s.streams := rfl
@[simp] theorem State.tick_boot (s : State) : (s.tick).boot = s.boot := rfl
@[simp] theorem State.tick_dumps (s : State) : (s.tick).dumps = s.dumps := rfl
@[simp] theorem State.tick_bhSince (s : State) : (s.tick).bhSince = s.bhSince := rfl
@[simp] theorem State.tick_cxlDownAt (s : State) : (s.tick).cxlDownAt = s.cxlDownAt := rfl
@[simp] theorem State.tick_bhWait (s : State) : (s.tick).bhWait = s.bhWait := rfl
@[simp] theorem State.tick_lqt (s : State) : (s.tick).lqt = s.lqt := rfl
@[simp] theorem State.tick_hostPts (s : State) : (s.tick).hostPts = s.hostPts := rfl
@[simp] theorem State.tick_dbi (s : State) : (s.tick).dbi = s.dbi := rfl
@[simp] theorem State.tick_hostGot (s : State) : (s.tick).hostGot = s.hostGot := rfl

/-! ## `State.atSlot` -/

@[simp] theorem State.atSlot_now (s : State) (j : Nat) : (s.atSlot j).now = s.now := rfl
@[simp] theorem State.atSlot_cur (s : State) (j : Nat) : (s.atSlot j).cur = s.cur := rfl
@[simp] theorem State.atSlot_pk (s : State) (j : Nat) : (s.atSlot j).pk = { s.pk with slot := j, fate := .runs } := rfl
@[simp] theorem State.atSlot_nfree (s : State) (j : Nat) : (s.atSlot j).nfree = s.nfree := rfl
@[simp] theorem State.atSlot_nseq (s : State) (j : Nat) : (s.atSlot j).nseq = s.nseq := rfl
@[simp] theorem State.atSlot_epoch (s : State) (j : Nat) : (s.atSlot j).epoch = s.epoch := rfl
@[simp] theorem State.atSlot_agenda (s : State) (j : Nat) : (s.atSlot j).agenda = s.agenda := rfl
@[simp] theorem State.atSlot_pending (s : State) (j : Nat) : (s.atSlot j).pending = s.pending := rfl
@[simp] theorem State.atSlot_mem (s : State) (j : Nat) : (s.atSlot j).mem = s.mem := rfl
@[simp] theorem State.atSlot_poison (s : State) (j : Nat) : (s.atSlot j).poison = s.poison := rfl
@[simp] theorem State.atSlot_dir (s : State) (j : Nat) : (s.atSlot j).dir = s.dir := rfl
@[simp] theorem State.atSlot_retired (s : State) (j : Nat) : (s.atSlot j).retired = s.retired := rfl
@[simp] theorem State.atSlot_suspect (s : State) (j : Nat) : (s.atSlot j).suspect = s.suspect := rfl
@[simp] theorem State.atSlot_corrected (s : State) (j : Nat) : (s.atSlot j).corrected = s.corrected := rfl
@[simp] theorem State.atSlot_frameCe (s : State) (j : Nat) : (s.atSlot j).frameCe = s.frameCe := rfl
@[simp] theorem State.atSlot_win (s : State) (j : Nat) : (s.atSlot j).win = s.win := rfl
@[simp] theorem State.atSlot_winDrain (s : State) (j : Nat) : (s.atSlot j).winDrain = s.winDrain := rfl
@[simp] theorem State.atSlot_hmap (s : State) (j : Nat) : (s.atSlot j).hmap = s.hmap := rfl
@[simp] theorem State.atSlot_vfr (s : State) (j : Nat) : (s.atSlot j).vfr = s.vfr := rfl
@[simp] theorem State.atSlot_cores (s : State) (j : Nat) : (s.atSlot j).cores = s.cores := rfl
@[simp] theorem State.atSlot_dtlb (s : State) (j : Nat) : (s.atSlot j).dtlb = s.dtlb := rfl
@[simp] theorem State.atSlot_oldTlb (s : State) (j : Nat) : (s.atSlot j).oldTlb = s.oldTlb := rfl
@[simp] theorem State.atSlot_lgs (s : State) (j : Nat) : (s.atSlot j).lgs = s.lgs := rfl
@[simp] theorem State.atSlot_wgs (s : State) (j : Nat) : (s.atSlot j).wgs = s.wgs := rfl
@[simp] theorem State.atSlot_launches (s : State) (j : Nat) : (s.atSlot j).launches = s.launches := rfl
@[simp] theorem State.atSlot_parts (s : State) (j : Nat) : (s.atSlot j).parts = s.parts := rfl
@[simp] theorem State.atSlot_accs (s : State) (j : Nat) : (s.atSlot j).accs = s.accs := rfl
@[simp] theorem State.atSlot_cmds (s : State) (j : Nat) : (s.atSlot j).cmds = s.cmds := rfl
@[simp] theorem State.atSlot_msgs (s : State) (j : Nat) : (s.atSlot j).msgs = s.msgs := rfl
@[simp] theorem State.atSlot_merges (s : State) (j : Nat) : (s.atSlot j).merges = s.merges := rfl
@[simp] theorem State.atSlot_frags (s : State) (j : Nat) : (s.atSlot j).frags = s.frags := rfl
@[simp] theorem State.atSlot_tallies (s : State) (j : Nat) : (s.atSlot j).tallies = s.tallies := rfl
@[simp] theorem State.atSlot_presence (s : State) (j : Nat) : (s.atSlot j).presence = s.presence := rfl
@[simp] theorem State.atSlot_packs (s : State) (j : Nat) : (s.atSlot j).packs = s.packs := rfl
@[simp] theorem State.atSlot_wbacks (s : State) (j : Nat) : (s.atSlot j).wbacks = s.wbacks := rfl
@[simp] theorem State.atSlot_links (s : State) (j : Nat) : (s.atSlot j).links = s.links := rfl
@[simp] theorem State.atSlot_ldirs (s : State) (j : Nat) : (s.atSlot j).ldirs = s.ldirs := rfl
@[simp] theorem State.atSlot_edgesDown (s : State) (j : Nat) : (s.atSlot j).edgesDown = s.edgesDown := rfl
@[simp] theorem State.atSlot_ports (s : State) (j : Nat) : (s.atSlot j).ports = s.ports := rfl
@[simp] theorem State.atSlot_heldRecs (s : State) (j : Nat) : (s.atSlot j).heldRecs = s.heldRecs := rfl
@[simp] theorem State.atSlot_lateRecs (s : State) (j : Nat) : (s.atSlot j).lateRecs = s.lateRecs := rfl
@[simp] theorem State.atSlot_permits (s : State) (j : Nat) : (s.atSlot j).permits = s.permits := rfl
@[simp] theorem State.atSlot_govs (s : State) (j : Nat) : (s.atSlot j).govs = s.govs := rfl
@[simp] theorem State.atSlot_preqs (s : State) (j : Nat) : (s.atSlot j).preqs = s.preqs := rfl
@[simp] theorem State.atSlot_s2w (s : State) (j : Nat) : (s.atSlot j).s2w = s.s2w := rfl
@[simp] theorem State.atSlot_invs (s : State) (j : Nat) : (s.atSlot j).invs = s.invs := rfl
@[simp] theorem State.atSlot_syncs (s : State) (j : Nat) : (s.atSlot j).syncs = s.syncs := rfl
@[simp] theorem State.atSlot_streams (s : State) (j : Nat) : (s.atSlot j).streams = s.streams := rfl
@[simp] theorem State.atSlot_boot (s : State) (j : Nat) : (s.atSlot j).boot = s.boot := rfl
@[simp] theorem State.atSlot_dumps (s : State) (j : Nat) : (s.atSlot j).dumps = s.dumps := rfl
@[simp] theorem State.atSlot_bhSince (s : State) (j : Nat) : (s.atSlot j).bhSince = s.bhSince := rfl
@[simp] theorem State.atSlot_cxlDownAt (s : State) (j : Nat) : (s.atSlot j).cxlDownAt = s.cxlDownAt := rfl
@[simp] theorem State.atSlot_bhWait (s : State) (j : Nat) : (s.atSlot j).bhWait = s.bhWait := rfl
@[simp] theorem State.atSlot_lqt (s : State) (j : Nat) : (s.atSlot j).lqt = s.lqt := rfl
@[simp] theorem State.atSlot_hostPts (s : State) (j : Nat) : (s.atSlot j).hostPts = s.hostPts := rfl
@[simp] theorem State.atSlot_dbi (s : State) (j : Nat) : (s.atSlot j).dbi = s.dbi := rfl
@[simp] theorem State.atSlot_hostGot (s : State) (j : Nat) : (s.atSlot j).hostGot = s.hostGot := rfl

end Sys2Proof.Machine
end

