-- ==== Sys2Proof/Laws/Tab.lean ====
section
/-! SUPPORT. What reading, writing and removing an entry of a table do, for every table, and that they keep the canonical form. -/

set_option Elab.async false

namespace Sys2Proof.Machine

variable {α : Type}

theorem Tab.find_put_self (t : Tab α) (k : Nat) (x : α) : (t.put k x).find k = some x := by
  induction t with
  | nil => simp [Tab.put, Tab.find]
  | cons p r ih =>
    obtain ⟨j, y⟩ := p
    by_cases h1 : k < j
    · simp [Tab.put, Tab.find, h1]
    · by_cases h2 : k = j
      · simp [Tab.put, Tab.find, h2]
      · have : j ≠ k := fun h => h2 h.symm
        simp [Tab.put, Tab.find, h1, h2, this, ih]

theorem Tab.find_put_other (t : Tab α) {k k' : Nat} (x : α) (h : k' ≠ k) : (t.put k x).find k' = t.find k' := by
  have hk : k ≠ k' := fun e => h e.symm
  induction t with
  | nil => simp [Tab.put, Tab.find, hk]
  | cons p r ih =>
    obtain ⟨j, y⟩ := p
    by_cases h1 : k < j
    · simp [Tab.put, Tab.find, h1, hk]
    · by_cases h2 : k = j
      · subst h2; simp [Tab.put, Tab.find, hk]
      · simp [Tab.put, Tab.find, h1, h2, ih]

theorem Tab.find_put (t : Tab α) (k k' : Nat) (x : α) : (t.put k x).find k' = if k' = k then some x else t.find k' := by
  by_cases h : k' = k
  · subst h; simp [Tab.find_put_self]
  · simp [Tab.find_put_other t x h, h]

theorem Tab.find_del (t : Tab α) (k k' : Nat) : (t.del k).find k' = if k' = k then none else t.find k' := by
  induction t with
  | nil => simp [Tab.del, Tab.find]
  | cons p r ih =>
    obtain ⟨j, y⟩ := p
    by_cases h : j = k
    · subst h
      by_cases h' : k' = j
      · subst h'; simp only [Tab.del, if_true, ih]
      · have : j ≠ k' := fun e => h' e.symm
        simp [Tab.del, Tab.find, ih, h', this]
    · by_cases h' : k' = k
      · subst h'; simp [Tab.del, Tab.find, h, ih]
      · simp [Tab.del, Tab.find, h, ih, h']

theorem Tab.getD_put (t : Tab α) (d : α) (k k' : Nat) (x : α) :
    (t.put k x).getD d k' = if k' = k then x else t.getD d k' := by
  by_cases h : k' = k <;> simp [Tab.getD, Tab.find_put, h]

theorem Tab.getD_del (t : Tab α) (d : α) (k k' : Nat) : (t.del k).getD d k' = if k' = k then d else t.getD d k' := by
  by_cases h : k' = k <;> simp [Tab.getD, Tab.find_del, h]

/-- A read after a write. -/
theorem Tab.getD_setD [DecidableEq α] (t : Tab α) (d : α) (k k' : Nat) (x : α) :
    (t.setD d k x).getD d k' = if k' = k then x else t.getD d k' := by
  unfold Tab.setD
  split
  · next h => subst h; exact Tab.getD_del t x k k'
  · exact Tab.getD_put t d k k' x

theorem Tab.getD_of_find {t : Tab α} {d x : α} {k : Nat} (h : t.find k = some x) : t.getD d k = x := by simp [Tab.getD, h]

theorem Tab.modify_of_find {t : Tab α} {k : Nat} {x : α} (f : α → α) (h : t.find k = some x) : t.modify k f = t.put k (f x) := by
  simp [Tab.modify, h]

theorem Tab.modify_of_none {t : Tab α} {k : Nat} (f : α → α) (h : t.find k = none) : t.modify k f = t := by
  simp [Tab.modify, h]

theorem Tab.find_modify (t : Tab α) (k k' : Nat) (f : α → α) :
    (t.modify k f).find k' = if k' = k then (t.find k).map f else t.find k' := by
  cases h : t.find k with
  | none =>
    rw [Tab.modify_of_none f h]
    by_cases e : k' = k
    · subst e; simp [h]
    · simp [e]
  | some x => rw [Tab.modify_of_find f h, Tab.find_put]; simp

theorem Tab.getD_nil (d : α) (k : Nat) : Tab.getD [] d k = d := rfl

/-! ## Canonical form -/

theorem Tab.sortedFrom_weaken {lo lo' : Nat} (h : lo' ≤ lo) : ∀ {t : Tab α}, Tab.sortedFrom lo t = true → Tab.sortedFrom lo' t = true
  | [], _ => rfl
  | (j, y) :: r, ht => by
    simp only [Tab.sortedFrom, Bool.and_eq_true, decide_eq_true_eq] at ht ⊢
    exact ⟨by omega, ht.2⟩

theorem Tab.sortedFrom_put (x : α) : ∀ {t : Tab α} {lo k : Nat}, lo ≤ k → Tab.sortedFrom lo t = true → Tab.sortedFrom lo (t.put k x) = true
  | [], lo, k, hk, _ => by simp [Tab.put, Tab.sortedFrom, hk]
  | (j, y) :: r, lo, k, hk, ht => by
    simp only [Tab.sortedFrom, Bool.and_eq_true, decide_eq_true_eq] at ht
    by_cases h1 : k < j
    · simp only [Tab.put, h1, if_true, Tab.sortedFrom, Bool.and_eq_true, decide_eq_true_eq]
      exact ⟨hk, by omega, ht.2⟩
    · by_cases h2 : k = j
      · subst h2
        simp only [Tab.put, h1, if_true, if_false, Tab.sortedFrom, Bool.and_eq_true, decide_eq_true_eq]
        exact ⟨hk, ht.2⟩
      · simp only [Tab.put, h1, h2, if_false, Tab.sortedFrom, Bool.and_eq_true, decide_eq_true_eq]
        exact ⟨ht.1, Tab.sortedFrom_put x (by omega) ht.2⟩

theorem Tab.sortedFrom_del {k : Nat} : ∀ {t : Tab α} {lo : Nat}, Tab.sortedFrom lo t = true → Tab.sortedFrom lo (t.del k) = true
  | [], _, _ => rfl
  | (j, y) :: r, lo, ht => by
    simp only [Tab.sortedFrom, Bool.and_eq_true, decide_eq_true_eq] at ht
    by_cases h : j = k
    · simp only [Tab.del, h, if_true]
      exact Tab.sortedFrom_weaken (by omega) (Tab.sortedFrom_del (k := k) ht.2)
    · simp only [Tab.del, h, if_false, Tab.sortedFrom, Bool.and_eq_true, decide_eq_true_eq]
      exact ⟨ht.1, Tab.sortedFrom_del ht.2⟩

theorem Tab.all_put (p : Nat × α → Bool) (x : α) (k : Nat) : ∀ {t : Tab α}, p (k, x) = true → t.all p = true → (t.put k x).all p = true
  | [], hx, _ => by simp [Tab.put, hx]
  | (j, y) :: r, hx, ht => by
    simp only [List.all_cons, Bool.and_eq_true] at ht
    unfold Tab.put
    split
    · simp [hx, ht.1, ht.2]
    · split
      · simp [hx, ht.2]
      · simp [ht.1, Tab.all_put p x k hx ht.2]

theorem Tab.all_del (p : Nat × α → Bool) (k : Nat) : ∀ {t : Tab α}, t.all p = true → (t.del k).all p = true
  | [], _ => rfl
  | (j, y) :: r, ht => by
    simp only [List.all_cons, Bool.and_eq_true] at ht
    unfold Tab.del
    split
    · exact Tab.all_del p k ht.2
    · simp [ht.1, Tab.all_del p k ht.2]

/-- A write keeps the canonical form. -/
theorem Tab.wf_setD [DecidableEq α] {d : α} {t : Tab α} (k : Nat) (x : α) (h : Tab.wf d t = true) : Tab.wf d (t.setD d k x) = true := by
  simp only [Tab.wf, Bool.and_eq_true] at h ⊢
  unfold Tab.setD
  split
  · exact ⟨Tab.sortedFrom_del h.1, Tab.all_del _ k h.2⟩
  · next hx => exact ⟨Tab.sortedFrom_put x (Nat.zero_le k) h.1, Tab.all_put _ x k (by simp [hx]) h.2⟩

theorem Tab.wf_nil [DecidableEq α] (d : α) : Tab.wf d ([] : Tab α) = true := rfl

theorem Tab.find_none_of_sortedFrom : ∀ {t : Tab α} {lo k : Nat}, k < lo → Tab.sortedFrom lo t = true → t.find k = none
  | [], _, _, _, _ => rfl
  | (j, y) :: r, lo, k, hk, ht => by
    simp only [Tab.sortedFrom, Bool.and_eq_true, decide_eq_true_eq] at ht
    have : j ≠ k := by omega
    simp only [Tab.find, this, if_false]
    exact Tab.find_none_of_sortedFrom (lo := j + 1) (by omega) ht.2

/-- Canonical tables that read alike are equal. -/
theorem Tab.ext_of_wf [DecidableEq α] {d : α} : ∀ {t u : Tab α} {lo : Nat}, Tab.sortedFrom lo t = true → Tab.sortedFrom lo u = true →
    (t.all fun p => decide (p.2 ≠ d)) = true → (u.all fun p => decide (p.2 ≠ d)) = true → (∀ k, t.getD d k = u.getD d k) → t = u
  | [], [], _, _, _, _, _, _ => rfl
  | [], (j, y) :: r, lo, _, _, _, hu, h => by
    simp only [List.all_cons, Bool.and_eq_true, decide_eq_true_eq] at hu
    have := h j
    simp only [Tab.getD, Tab.find, if_true, Option.getD_none, Option.getD_some] at this
    exact absurd this.symm hu.1
  | (j, y) :: r, [], lo, _, _, ht, _, h => by
    simp only [List.all_cons, Bool.and_eq_true, decide_eq_true_eq] at ht
    have := h j
    simp only [Tab.getD, Tab.find, if_true, Option.getD_none, Option.getD_some] at this
    exact absurd this ht.1
  | (j, y) :: r, (i, z) :: q, lo, st, su, ht, hu, h => by
    simp only [List.all_cons, Bool.and_eq_true, decide_eq_true_eq] at ht hu
    simp only [Tab.sortedFrom, Bool.and_eq_true, decide_eq_true_eq] at st su
    have hij : j = i := by
      rcases Nat.lt_trichotomy j i with hlt | heq | hgt
      · have hj := h j
        have hne : i ≠ j := by omega
        have hq : Tab.find q j = none := Tab.find_none_of_sortedFrom (lo := i + 1) (by omega) su.2
        simp only [Tab.getD, Tab.find, if_true, hne, if_false, Option.getD_some, hq, Option.getD_none] at hj
        exact absurd hj ht.1
      · exact heq
      · have hi := h i
        have hne : j ≠ i := by omega
        have hr : Tab.find r i = none := Tab.find_none_of_sortedFrom (lo := j + 1) (by omega) st.2
        simp only [Tab.getD, Tab.find, if_true, hne, if_false, Option.getD_some, hr, Option.getD_none] at hi
        exact absurd hi.symm hu.1
    subst hij
    have hyz : y = z := by
      have := h j
      simpa [Tab.getD, Tab.find] using this
    subst hyz
    have : r = q := Tab.ext_of_wf st.2 su.2 ht.2 hu.2 (fun k => by
      by_cases hk : j = k
      · subst hk
        simp [Tab.getD, Tab.find_none_of_sortedFrom (lo := j + 1) (Nat.lt_succ_self j) st.2,
          Tab.find_none_of_sortedFrom (lo := j + 1) (Nat.lt_succ_self j) su.2]
      · have := h k
        simpa [Tab.getD, Tab.find, hk] using this)
    rw [this]

end Sys2Proof.Machine
end

