-- ==== Sys2Proof/Laws/Memory.lean ====
section
/-! SUPPORT. The memory keeps its canonical form under every operation that writes it, and what a byte reads as after a write. -/

set_option Elab.async false

namespace Sys2Proof.Machine

/-! ## The list of cells -/

theorem memWrite_wf (bs : List Byte) : ∀ (m : List Host.Cell) (a : Nat), Memory.wf m = true → Memory.wf (memWrite m a bs) = true := by
  induction bs with
  | nil => exact fun m a h => h
  | cons b r ih => exact fun m a h => ih _ _ (Tab.wf_setD a b h)

/-- A byte outside the bytes written reads as before, a byte inside reads what was written. -/
theorem memWrite_getD (bs : List Byte) : ∀ (m : List Host.Cell) (a x : Nat),
    Tab.getD (memWrite m a bs) unwritten x = if a ≤ x ∧ x < a + bs.length then bs.getD (x - a) 0 else Tab.getD m unwritten x := by
  induction bs with
  | nil =>
    intro m a x
    have : ¬(a ≤ x ∧ x < a + ([] : List Byte).length) := by simp only [List.length_nil]; omega
    rw [if_neg this]; rfl
  | cons b r ih =>
    intro m a x
    rw [memWrite, ih, Tab.getD_setD]
    by_cases h : x = a
    · subst h
      simp
    · by_cases g : a + 1 ≤ x ∧ x < a + 1 + r.length
      · have h2 : a ≤ x ∧ x < a + (b :: r).length := by simp; omega
        have e : x - a = (x - (a + 1)) + 1 := by omega
        rw [if_pos g, if_pos h2, e, List.getD_cons_succ]
      · have h2 : ¬(a ≤ x ∧ x < a + (b :: r).length) := by simp; omega
        rw [if_neg g, if_neg h2, if_neg h]

/-! ## The operations on a state -/

/-- What a function that leaves the memory alone keeps. -/
theorem Memory.wf_of_eq {s t : State} (e : t.mem = s.mem) (h : Memory.wf s.mem = true) : Memory.wf t.mem = true := e ▸ h

/-- A fold keeps the canonical form if its step does. -/
theorem Memory.wf_foldl {β : Type} (f : State → β → State) (hf : ∀ s x, Memory.wf s.mem = true → Memory.wf (f s x).mem = true) :
    ∀ (l : List β) (s : State), Memory.wf s.mem = true → Memory.wf (l.foldl f s).mem = true
  | [], _, h => h
  | x :: r, s, h => Memory.wf_foldl f hf r (f s x) (hf s x h)

/-- A fold leaves the memory alone if its step does. -/
theorem foldl_mem {β : Type} (f : State → β → State) (hf : ∀ s x, (f s x).mem = s.mem) : ∀ (l : List β) (s : State), (l.foldl f s).mem = s.mem
  | [], _ => rfl
  | x :: r, s => (foldl_mem f hf r (f s x)).trans (hf s x)

theorem State.reset_memory_wf : Memory.wf State.reset.mem = true := rfl

theorem State.writeBytes_wf {s : State} (a : Nat) (bs : List Byte) (h : Memory.wf s.mem = true) : Memory.wf (s.writeBytes a bs).mem = true :=
  memWrite_wf bs s.mem a h


/-- A write at the home writes the bytes, or nothing in a retired frame. -/
theorem State.homeWrite_mem (s : State) (a : Nat) (bs : List Byte) :
    (s.homeWrite a bs).mem = if s.retiredAt a then s.mem else memWrite s.mem a bs := by
  unfold State.homeWrite
  split
  · rfl
  · exact foldl_mem _ (fun s w => by split <;> rfl) _ _

theorem State.homeWriteP_mem (s : State) (a : Nat) (bs : List Byte) (pois : List Nat) :
    (s.homeWriteP a bs pois).mem = if s.retiredAt a then s.mem else memWrite s.mem a bs := by
  unfold State.homeWriteP
  split
  · rfl
  · next h =>
    refine (foldl_mem _ (fun s w => State.setPois_mem s w true) _ _).trans ?_
    rw [State.homeWrite_mem, if_neg h]

theorem State.homeWrite_wf {s : State} (a : Nat) (bs : List Byte) (h : Memory.wf s.mem = true) : Memory.wf (s.homeWrite a bs).mem = true := by
  rw [State.homeWrite_mem]; split
  · exact h
  · exact memWrite_wf bs _ _ h

theorem State.homeWriteP_wf {s : State} (a : Nat) (bs : List Byte) (pois : List Nat) (h : Memory.wf s.mem = true) :
    Memory.wf (s.homeWriteP a bs pois).mem = true := by
  rw [State.homeWriteP_mem]; split
  · exact h
  · exact memWrite_wf bs _ _ h

/-- A byte after a write at the home of a frame that is not retired. -/
theorem State.homeWrite_byteAt (s : State) (a x : Nat) (bs : List Byte) (hr : s.retiredAt a = false) :
    (s.homeWrite a bs).byteAt x = if a ≤ x ∧ x < a + bs.length then bs.getD (x - a) 0 else s.byteAt x := by
  rw [State.byteAt, State.homeWrite_mem, hr]; exact memWrite_getD bs s.mem a x

end Sys2Proof.Machine
end

