-- ==== Sys2Proof/Laws/Below.lean ====
section
/-! SUPPORT. What walks, publishes and the writing of records do, said once: `Below s t` (its frame), and that memory keeps its canonical
form. One lemma for each operation, on the conjunction `Under`; what callers cite stands at the end. -/

set_option Elab.async false

namespace Sys2Proof.Machine

/-- The frame, and the canonical form of memory. -/
def Under (s t : State) : Prop := Below s t ∧ (Memory.wf s.mem = true → Memory.wf t.mem = true)

theorem Below.refl (s : State) : Below s s := ⟨rfl, fun _ => rfl, fun _ => rfl⟩
theorem Below.trans {s t u : State} (h : Below s t) (k : Below t u) : Below s u :=
  ⟨k.rest.trans h.rest, fun c => (k.core c).trans (h.core c), fun w => (k.wg w).trans (h.wg w)⟩

theorem Under.refl (s : State) : Under s s := ⟨Below.refl s, id⟩
theorem Under.trans {s t u : State} (h : Under s t) (k : Under t u) : Under s u := ⟨h.1.trans k.1, fun w => k.2 (h.2 w)⟩

/-- A change of the fields that `rest` leaves out, but for cores, workgroups and memory. -/
theorem Under.of_eq {s t : State} (r : t.rest = s.rest) (c : t.cores = s.cores) (w : t.wgs = s.wgs) (m : t.mem = s.mem) : Under s t :=
  ⟨⟨r, fun _ => by simp only [State.core, c], fun _ => by rw [w]⟩, fun h => m ▸ h⟩

theorem Under.foldl {β : Type} (f : State → β → State) (hf : ∀ s x, Under s (f s x)) : ∀ (l : List β) (s : State), Under s (l.foldl f s)
  | [], s => Under.refl s
  | x :: r, s => (hf s x).trans (Under.foldl f hf r (f s x))

/-- A change of a core's copies or its TLB. -/
theorem Under.modCore (s : State) (c : Nat) (f : Core → Core) (hf : ∀ k, (f k).rest = k.rest) : Under s (s.modCore c f) := by
  refine ⟨⟨rfl, fun c' => ?_, fun _ => rfl⟩, id⟩
  simp only [State.core, State.modCore, Tab.getD_setD]
  split
  · next e => rw [hf, e]
  · rfl

/-- A change of a workgroup's stash. -/
theorem Under.modWg (s : State) (w : Nat) (f : Wg → Wg) (hf : ∀ k, (f k).bare = k.bare) : Under s (s.modWg w f) := by
  refine ⟨⟨rfl, fun _ => rfl, fun w' => ?_⟩, id⟩
  simp only [State.modWg, Tab.find_modify]
  split
  · next e => subst e; cases s.wgs.find w' <;> simp [hf]
  · rfl

/-! ## Memory, its directory and the caches -/

theorem State.writeBytes_under (s : State) (a : Nat) (bs : List Byte) : Under s (s.writeBytes a bs) :=
  ⟨⟨rfl, fun _ => rfl, fun _ => rfl⟩, State.writeBytes_wf a bs⟩

theorem State.setPois_under (s : State) (w : Nat) (b : Bool) : Under s (s.setPois w b) := Under.of_eq rfl rfl rfl rfl
theorem State.setDir_under (s : State) (ln : Nat) (d : Dir) : Under s (s.setDir ln d) := Under.of_eq rfl rfl rfl rfl
theorem State.stalled_under (s : State) : Under s s.stalled := Under.of_eq rfl rfl rfl rfl
theorem State.stamp_under (s : State) (ln pts : Nat) : Under s (s.stamp ln pts).2 := Under.of_eq rfl rfl rfl rfl

theorem State.homeWrite_under (s : State) (a : Nat) (bs : List Byte) : Under s (s.homeWrite a bs) := by
  unfold State.homeWrite
  split
  · exact Under.refl s
  · refine (State.writeBytes_under s a bs).trans (Under.foldl _ (fun s w => ?_) _ _)
    split
    · exact State.setPois_under s w false
    · exact Under.refl s

theorem State.homeWriteP_under (s : State) (a : Nat) (bs : List Byte) (pois : List Nat) : Under s (s.homeWriteP a bs pois) := by
  unfold State.homeWriteP
  split
  · exact Under.refl s
  · exact (State.homeWrite_under s a bs).trans (Under.foldl _ (fun s w => State.setPois_under s w true) _ _)

theorem State.victim_under (s : State) (held : Tab Dir) : Under s (s.victim held).1 := Under.of_eq rfl rfl rfl rfl

theorem State.fill_under (s : State) (ln : Nat) : Under s (s.fill ln) := by
  unfold State.fill
  split
  · exact Under.foldl _ (fun s i => State.setPois_under ..) _ _
  · exact Under.refl s

theorem State.keepMsc_under (s : State) (ln : Nat) (dirty : Bool) : Under s (s.keepMsc ln dirty) := by
  unfold State.keepMsc
  split
  · exact Under.refl s
  · extract_lets s0 d s1 held
    have k0 : Under s s0 := by
      simp only [s0]
      split
      · exact Under.refl s
      · exact State.fill_under s ln
    have k : Under s s1 := k0.trans (State.setDir_under ..)
    split
    · exact k
    · have v := State.victim_under s1 held
      split
      · next e =>
        rw [e] at v
        extract_lets s2
        refine (k.trans v).trans (Under.trans ?_ (State.setDir_under ..))
        simp only [s2]
        split
        · exact Under.of_eq rfl rfl rfl rfl
        · exact Under.refl _
      · next e => rw [e] at v; exact k.trans v

theorem State.keepL2_under (s : State) (ln : Nat) (dirty : Bool) : Under s (s.keepL2 ln dirty) := by
  unfold State.keepL2
  split
  · exact Under.refl s
  · extract_lets s0 d s1 held
    have k : Under s s1 := (State.fill_under s ln).trans (State.setDir_under ..)
    split
    · exact k
    · have v := State.victim_under s1 held
      split
      · next e =>
        rw [e] at v
        have k2 := k.trans v
        dsimp only
        split
        · exact (k2.trans (State.setDir_under ..)).trans (State.keepMsc_under ..)
        · exact k2.trans (State.setDir_under ..)
      · next e => rw [e] at v; exact k.trans v

theorem State.farLine_under (s : State) (ln : Nat) : Under s (s.farLine ln) := (State.setDir_under ..).trans (State.keepMsc_under ..)

/-! ## Publishing -/

theorem State.setCopies_under (s : State) (a : Nat) (t : Tab CLine) : Under s (s.setCopies a t) := by
  unfold State.setCopies
  split
  · exact Under.modCore _ _ _ fun _ => rfl
  · exact Under.modWg _ _ _ fun _ => rfl

theorem State.setCopy_under (s : State) (a ln : Nat) (c : CLine) : Under s (s.setCopy a ln c) := State.setCopies_under ..
theorem State.givePublish_under (s : State) (a ln : Nat) : Under s (s.givePublish a ln) := State.setCopies_under ..

theorem State.takePublish_under (s : State) (a ln : Nat) (cells : List (Nat × Byte)) (own pois : Word) :
    Under s (s.takePublish a ln cells own pois) := by
  unfold State.takePublish
  extract_lets ws s1 d s2
  have k1 : Under s s1 := by
    simp only [s1]
    split
    · exact Under.refl s
    · exact Under.foldl _ (fun s i => State.homeWriteP_under ..) _ _
  have k2 : Under s s2 := k1.trans (State.setDir_under ..)
  split
  · exact k2
  · exact k2.trans (State.keepL2_under ..)

theorem State.publishFrom_under (s : State) (ln a : Nat) : Under s (s.publishFrom ln a) :=
  (State.givePublish_under s a ln).trans (State.takePublish_under ..)

theorem State.landPublishes_under (s : State) (ln : Nat) : Under s (s.landPublishes ln) := by
  refine Under.foldl _ (fun s e => ?_) _ _
  split
  · split
    · exact State.takePublish_under ..
    · exact Under.refl s
  · exact Under.refl s

theorem State.loseWords_under (s : State) (ln a : Nat) : Under s (s.loseWords ln a) := by
  unfold State.loseWords
  exact ((State.setDir_under ..).trans (Under.foldl _ (fun s p => State.setPois_under ..) _ _)).trans (State.setCopy_under ..)

theorem State.publishAll_under (s : State) (ln : Nat) : Under s (s.publishAll ln) := by
  refine (State.landPublishes_under s ln).trans (Under.foldl _ (fun s a => ?_) _ _)
  split
  · exact State.loseWords_under s ln a
  · exact State.publishFrom_under s ln a

theorem State.publishLine_under (s : State) (ln : Nat) : Under s (s.publishLine ln) := by
  unfold State.publishLine
  split
  · exact State.stalled_under s
  · exact State.publishAll_under s ln

theorem State.publishRange_under (s : State) (a n : Nat) : Under s (s.publishRange a n) := Under.foldl _ State.publishLine_under _ _

theorem State.dropCopy_under (s : State) (a ln : Nat) : Under s (s.dropCopy a ln) :=
  (State.publishFrom_under s ln a).trans (State.setCopies_under ..)

/-! ## What the device itself reads and writes -/

theorem State.devRead_under (s : State) (a n : Nat) : Under s (s.devRead a n).1 := State.publishRange_under s a n

theorem State.stamps_under (pts : Nat) : ∀ (l : List Nat) (p : Nat × State),
    Under p.2 (l.foldl (fun (p : Nat × State) ln => let (t, s) := p.2.stamp ln pts; (max p.1 t, s.keepL2 ln true)) p).2
  | [], p => Under.refl p.2
  | ln :: r, p => ((State.stamp_under p.2 ln pts).trans (State.keepL2_under ..)).trans
      (State.stamps_under pts r (max p.1 (p.2.stamp ln pts).1, (p.2.stamp ln pts).2.keepL2 ln true))

theorem State.devWrite_under (s : State) (a : Nat) (bs : List Byte) (pts : Nat) : Under s (s.devWrite a bs pts).2 :=
  ((State.publishRange_under s a bs.length).trans (State.homeWrite_under _ a bs)).trans (State.stamps_under pts (linesOf a bs.length) (pts, _))

theorem State.asKey_under (s : State) (ln kid : Nat) : Under s (s.asKey ln kid) := by
  unfold State.asKey
  extract_lets d
  split
  · exact Under.refl s
  · split
    · exact State.setDir_under ..
    · have k : Under s { s with wbacks := s.wbacks ++ [ln] } := Under.of_eq rfl rfl rfl rfl
      exact (k.trans (State.writeBytes_under ..)).trans (State.setDir_under ..)

/-- Lines taken as a request's key reads them. -/
theorem State.keyRange_under (s : State) (a n kid : Nat) : Under s (s.keyRange a n kid) :=
  Under.foldl _ (fun s ln => (State.publishLine_under s ln).trans (State.asKey_under ..)) _ _

/-! ## Walks -/

/-- What a function that answers a state and a value does below, read off its equation. -/
theorem Under.of_fst {α : Type} {s t : State} {r : State × α} {x : α} (h : Under s r.1) (e : r = (t, x)) : Under s t := by
  rw [e] at h; exact h

theorem State.tableWord_under (s : State) (pa : Nat) (kid : Nat := 0) : Under s (s.tableWord pa kid).1 := by
  unfold State.tableWord
  extract_lets pa
  split
  · exact Under.refl s
  · exact (State.keyRange_under s pa 8 kid).trans (State.devRead_under _ pa 8)

theorem onWord_under {α : Type} {s : State} (r : State × Option DWord) (bad : State → State × α) (k : State → DWord → State × α)
    (h : Under s r.1) (hb : ∀ t, Under s t → Under s (bad t).1) (hk : ∀ t e, Under s t → Under s (k t e).1) : Under s (onWord r bad k).1 := by
  obtain ⟨t, _ | e⟩ := r
  · exact hb t h
  · exact hk t e h

theorem walkS2_under (ipa : Nat) : ∀ (l : List Level) (table : Nat) (s : State), Under s (walkS2 ipa l table s).1
  | [], _, s => Under.refl s
  | l :: r, table, s => by
    unfold walkS2
    refine onWord_under _ _ _ (State.tableWord_under ..) (fun t h => h) fun t e h => ?_
    split
    · exact h
    · split
      · exact h.trans (walkS2_under ipa r _ _)
      · exact h

theorem State.stage2_under (s : State) (part ipa : Nat) : Under s (s.stage2 part ipa).1 := by
  unfold State.stage2
  extract_lets c
  split
  · exact walkS2_under _ _ _ _
  · exact Under.refl s

theorem State.ipaCause_under (s : State) (part vf ipa need : Nat) : Under s (s.ipaCause part vf ipa need).1 := by
  unfold State.ipaCause
  have k := State.stage2_under s part ipa
  split <;> (next e => exact k.of_fst e)

theorem State.ipaAddr_under (s : State) (part vf ipa need : Nat) : Under s (s.ipaAddr part vf ipa need).1 := by
  unfold State.ipaAddr
  have k := State.ipaCause_under s part vf ipa need
  split <;> (next e => exact k.of_fst e)

theorem walkS1_under (part vf va need : Nat) : ∀ (l : List Level) (table : Nat) (s : State), Under s (walkS1 part vf va need l table s).1
  | [], _, s => Under.refl s
  | l :: r, table, s => by
    unfold walkS1
    extract_lets ipa q
    have k : Under s q.1 := State.ipaCause_under s part vf ipa 1
    split
    · exact k
    · split
      · exact k
      · refine onWord_under _ _ _ (k.trans (State.tableWord_under q.1 q.2.1.1 q.2.1.2)) (fun t h => h) fun t e h => ?_
        split
        · split
          · exact h
          · split <;> exact h
        · split
          · exact h
          · split
            · exact h.trans (walkS1_under part vf va need r _ _)
            · split
              · exact h
              · extract_lets ipa
                have k3 := State.stage2_under t part ipa
                split <;> (next e => exact h.trans (k3.of_fst e))

theorem State.walk_under (s : State) (part vf va need : Nat) : Under s (s.walk part vf va need).1 := by
  unfold State.walk
  extract_lets c
  split
  · exact Under.refl s
  · exact walkS1_under _ _ _ _ _ _ _

theorem State.keepOld_under (s : State) (es : List TlbEnt) : Under s (s.keepOld es) := Under.of_eq rfl rfl rfl rfl

theorem State.fillTlb_under (s : State) (core : Nat) (e : TlbEnt) : Under s (s.fillTlb core e) := by
  unfold State.fillTlb
  extract_lets old new s1 s2
  exact ((State.keepOld_under s _).trans (Under.modCore s1 core (fun k => { k with tlb := (e :: k.tlb.erase e).take 128 }) fun _ => rfl)).trans
    (Under.of_eq rfl rfl rfl rfl)

/-- A look-up of an address (R140). -/
theorem State.xlate_under (s : State) (core part vf va need : Nat) : Under s (s.xlate core part vf va need).1 := by
  unfold State.xlate
  split
  · exact Under.refl s
  · split
    · exact State.fillTlb_under ..
    · have k := State.walk_under s part vf va need
      split
      · next e => exact (k.of_fst e).trans (State.fillTlb_under ..)
      · exact k

/-- The look-ups of an access' lanes (R105, R140). -/
theorem State.xlateLanes_under (c : Ctx) (align need : Nat) : ∀ (l : List (Nat × Nat)) (seen : Tab (Nat × XRes)) (s : State),
    Under s (s.xlateLanes c align need seen l).1
  | [], _, s => by unfold State.xlateLanes; exact Under.refl s
  | (lane, va) :: r, seen, s => by
    unfold State.xlateLanes
    split
    · exact State.xlateLanes_under c align need r seen s
    · split
      · exact State.xlateLanes_under c align need r seen s
      · exact (State.xlate_under ..).trans (State.xlateLanes_under c align need r _ _)

/-! ## Records -/

theorem State.ringPut_under (s : State) (tr : State → Nat → State × Option (Nat × Nat)) (base size : Nat) (bs : List Byte)
    (htr : ∀ s a, Under s (tr s a).1) : Under s (s.ringPut tr base size bs).1 := by
  unfold State.ringPut
  have k := htr s base
  split
  · next e => exact k.of_fst e
  · next q hd hk e =>
    have k2 := (k.of_fst e).trans ((State.keyRange_under q hd 24 hk).trans (State.devRead_under _ hd 24))
    rcases hr : (q.keyRange hd 24 hk).devRead hd 24 with ⟨s1, bs1, p⟩
    rw [hr] at k2
    dsimp only at k2 ⊢
    split
    · exact k2.trans (State.devWrite_under ..)
    · have k3 := htr s1 (base + 32 + 32 * (leNat (bs1.take 8) % size))
      split
      · next e => exact (k2.trans (k3.of_fst e)).trans (State.devWrite_under ..)
      · next e =>
        exact (((k2.trans (k3.of_fst e)).trans (State.keyRange_under ..)).trans (State.devWrite_under ..)).trans (State.devWrite_under ..)

theorem State.orLate_under (s : State) (ring : Nat) (ws : List Nat) (put : State → State) (h : Under s (put s)) :
    Under s (s.orLate ring ws put) := by
  unfold State.orLate
  extract_lets late t
  have k : Under s late := Under.of_eq rfl rfl rfl rfl
  split
  · exact k
  · split
    · exact k
    · exact h

theorem State.mgrPut_under (s : State) (ws : List Nat) : Under s (s.mgrPut ws) := by
  unfold State.mgrPut
  extract_lets r
  split
  · exact Under.refl s
  · exact State.ringPut_under _ _ _ _ _ fun s _ => Under.refl s

theorem State.mgrRec_under (s : State) (ws : List Nat) : Under s (s.mgrRec ws) := by
  unfold State.mgrRec
  split
  · exact Under.of_eq rfl rfl rfl rfl
  · exact State.orLate_under _ _ _ _ (State.mgrPut_under s ws)

theorem State.s2Rec_under (s : State) (part vf core wgs lgn ipa va : Nat) (table engine : Bool) :
    Under s (s.s2Rec part vf core wgs lgn ipa va table engine) := State.mgrRec_under ..

theorem State.tenantPut_under (s : State) (vf : Nat) (ws : List Nat) : Under s (s.tenantPut vf ws) := by
  unfold State.tenantPut
  extract_lets r part
  split
  · exact Under.refl s
  · have k := State.ringPut_under s (fun s a => s.ipaAddr part vf a 3) (bits r 12 36 * 4096) (qSize (bits r 0 4)) (recBytes ws)
      fun s a => State.ipaAddr_under s part vf a 3
    split
    · next e => exact k.of_fst e
    · next e => exact (k.of_fst e).trans (State.s2Rec_under ..)

theorem State.tenantRec_under (s : State) (vf : Nat) (ws : List Nat) : Under s (s.tenantRec vf ws) :=
  State.orLate_under _ _ _ _ (State.tenantPut_under s vf ws)

theorem State.gateRec_under (s : State) (part vf core wgs lgn fpc info : Nat) (tenant : Bool) :
    Under s (s.gateRec part vf core wgs lgn fpc info tenant) := by
  unfold State.gateRec
  extract_lets r s1
  have k : Under s s1 := State.mgrRec_under ..
  split
  · exact k.trans (State.tenantRec_under ..)
  · exact k

theorem State.flushRecs_under (s : State) : Under s s.flushRecs := by
  refine Under.foldl _ (fun a p => ?_) _ _
  split
  · exact Under.refl a
  · extract_lets t
    have k : Under a t := by
      simp only [t]
      split
      · exact State.mgrPut_under ..
      · exact State.tenantPut_under ..
    split
    · exact Under.refl a
    · exact k.trans (Under.of_eq rfl rfl rfl rfl)

/-- The src 11 record of an array. -/
theorem State.arrayRec_under (s : State) (core : Nat) (cause : Cause) : Under s (s.arrayRec core cause) := by
  unfold State.arrayRec
  extract_lets a
  split
  · exact Under.refl s
  · split
    · exact Under.refl s
    · exact State.tenantRec_under ..

/-! ## What callers cite -/

/-- Every array stands. -/
theorem Below.arr {s t : State} (h : Below s t) (c : Nat) : t.arr c = s.arr c := by
  have k := congrArg Core.arr (h.core c); exact k

/-- Every field that `rest` keeps stands; two that events read. -/
theorem Below.lgs {s t : State} (h : Below s t) : t.lgs = s.lgs := by
  have k := congrArg State.lgs h.rest; exact k
theorem Below.win {s t : State} (h : Below s t) : t.win = s.win := by
  have k := congrArg State.win h.rest; exact k
theorem Below.accs {s t : State} (h : Below s t) : t.accs = s.accs := by
  have k := congrArg State.accs h.rest; exact k
theorem Below.pending {s t : State} (h : Below s t) : t.pending = s.pending := by
  have k := congrArg State.pending h.rest; exact k

/-- The src 11 record of an array leaves every array as it is. -/
theorem State.arrayRec_arr (s : State) (core : Nat) (cause : Cause) : (s.arrayRec core cause).arr = s.arr :=
  funext fun c => (State.arrayRec_under s core cause).1.arr c

/-! ## Memory keeps its canonical form under the other operations that write it -/

theorem State.publishLine_wf {s : State} (ln : Nat) (h : Memory.wf s.mem = true) : Memory.wf (s.publishLine ln).mem = true :=
  (State.publishLine_under s ln).2 h

theorem State.devWrite_wf {s : State} (a : Nat) (bs : List Byte) (pts : Nat) (h : Memory.wf s.mem = true) :
    Memory.wf (s.devWrite a bs pts).2.mem = true := (State.devWrite_under s a bs pts).2 h

theorem State.asKey_wf {s : State} (ln kid : Nat) (h : Memory.wf s.mem = true) : Memory.wf (s.asKey ln kid).mem = true :=
  (State.asKey_under s ln kid).2 h

/-- A look-up of an address keeps the canonical form. -/
theorem State.xlate_wf {s : State} (core part vf va need : Nat) (h : Memory.wf s.mem = true) :
    Memory.wf (s.xlate core part vf va need).1.mem = true := (State.xlate_under s core part vf va need).2 h

theorem State.forget_wf {s : State} (ln : Nat) (h : Memory.wf s.mem = true) : Memory.wf (s.forget ln).mem = true :=
  memWrite_wf _ _ _ h

theorem State.faqPut_wf {s : State} (frame kind : Nat) (h : Memory.wf s.mem = true) : Memory.wf (s.faqPut frame kind).mem = true := by
  unfold State.faqPut
  extract_lets size t
  split
  · rw [State.setWinBits_mem]; exact h
  · rw [State.setWinBits_mem]; exact State.devWrite_wf _ _ _ h

theorem State.suspectFrame_wf {s : State} (frame kind : Nat) (h : Memory.wf s.mem = true) : Memory.wf (s.suspectFrame frame kind).mem = true := by
  unfold State.suspectFrame
  split
  · exact h
  · exact State.faqPut_wf frame kind h

theorem State.commitLine_wf {s : State} (g : Wg) (ts ln : Nat) (h : Memory.wf s.mem = true) : Memory.wf (s.commitLine g ts ln).mem = true := by
  unfold State.commitLine
  extract_lets cells s0 s1 s2 s3
  have k0 : Memory.wf s0.mem = true := by
    simp only [s0]
    split
    · exact State.asKey_wf _ _ h
    · exact h
  have k1 : Memory.wf s1.mem = true := by
    simp only [s1]
    split
    · exact k0
    · exact Memory.wf_foldl _ (fun _ p h => State.writeBytes_wf _ _ h) _ _ k0
  have k2 : s2.mem = s1.mem := foldl_mem _ (fun s i => by split <;> rfl) _ _
  have k3 : s3.mem = s2.mem := foldl_mem (fun s w => s.setPois w true) (fun s w => rfl) _ _
  exact (State.keepL2_under _ _ _).2 (Memory.wf_of_eq (k3.trans k2) k1)

/-- The staged words of a release keep the canonical form. -/
theorem State.commitStaged_wf {s : State} (w : Nat) (h : Memory.wf s.mem = true) : Memory.wf (s.commitStaged w).mem = true := by
  unfold State.commitStaged
  split
  · exact h
  · split
    · exact h
    · extract_lets bad s1 lines s2 ts s3 s4
      have k1 : Memory.wf s1.mem = true := Memory.wf_foldl _ (fun _ _ h => (State.gateRec_under ..).2 h) _ _ h
      have k2 : Memory.wf s2.mem = true := Memory.wf_foldl _ (fun _ _ h => State.publishLine_wf _ h) _ _ k1
      have k3 : Memory.wf s3.mem = true := Memory.wf_foldl _ (fun _ _ h => State.commitLine_wf _ _ _ h) _ _ k2
      have k4 : Memory.wf s4.mem = true := by
        simp only [s4]
        split
        · exact k3
        · exact k3
      exact k4

end Sys2Proof.Machine
end

