-- ==== Sys2Proof/Laws/Bits.lean ====
section
/-! SUPPORT. What writing a field of a word or of a register does to that field and to others. -/

set_option Elab.async false

namespace Sys2Proof.Machine

theorem bits_lt {m : Nat} (w : BitVec m) (lo n : Nat) : bits w lo n < 2 ^ n := Nat.mod_lt _ (by positivity)

theorem bits_eq {m : Nat} (w : BitVec m) (lo n : Nat) : bits w lo n = w.toNat / 2 ^ lo % 2 ^ n := by
  simp [bits, Nat.shiftRight_eq_div_pow]

/-- A word about a field: what stands above, in and below it. -/
theorem toNat_split (w lo n : Nat) : w = w / 2 ^ (lo + n) * 2 ^ (lo + n) + w / 2 ^ lo % 2 ^ n * 2 ^ lo + w % 2 ^ lo := by
  have h1 := Nat.div_add_mod w (2 ^ lo)
  have h2 := Nat.div_add_mod (w / 2 ^ lo) (2 ^ n)
  rw [Nat.div_div_eq_div_mul, ← pow_add] at h2
  rw [Nat.pow_add]
  calc w = 2 ^ lo * (w / 2 ^ lo) + w % 2 ^ lo := h1.symm
    _ = 2 ^ lo * (2 ^ n * (w / 2 ^ (lo + n)) + w / 2 ^ lo % 2 ^ n) + w % 2 ^ lo := by rw [h2]
    _ = _ := by ring_nf

theorem toNat_setBits {m : Nat} (w : BitVec m) (lo n v : Nat) (h : lo + n ≤ m) :
    (setBits w lo n v).toNat = w.toNat / 2 ^ (lo + n) * 2 ^ (lo + n) + v % 2 ^ n * 2 ^ lo + w.toNat % 2 ^ lo := by
  have hs := toNat_split w.toNat lo n
  have hw := w.isLt
  have hv : v % 2 ^ n < 2 ^ n := Nat.mod_lt _ (by positivity)
  have hl : w.toNat % 2 ^ lo < 2 ^ lo := Nat.mod_lt _ (by positivity)
  have hmul : v % 2 ^ n * 2 ^ lo + w.toNat % 2 ^ lo < 2 ^ (lo + n) := by
    rw [pow_add, mul_comm (2 ^ lo)]
    calc v % 2 ^ n * 2 ^ lo + w.toNat % 2 ^ lo < v % 2 ^ n * 2 ^ lo + 2 ^ lo := by omega
      _ = (v % 2 ^ n + 1) * 2 ^ lo := by ring
      _ ≤ 2 ^ n * 2 ^ lo := Nat.mul_le_mul_right _ hv
  have hdiv : w.toNat / 2 ^ (lo + n) < 2 ^ (m - (lo + n)) := by
    rw [Nat.div_lt_iff_lt_mul (by positivity), ← pow_add]
    rwa [show m - (lo + n) + (lo + n) = m by omega]
  have htot : w.toNat / 2 ^ (lo + n) * 2 ^ (lo + n) + (v % 2 ^ n * 2 ^ lo + w.toNat % 2 ^ lo) < 2 ^ m := by
    calc _ < w.toNat / 2 ^ (lo + n) * 2 ^ (lo + n) + 2 ^ (lo + n) := by omega
      _ = (w.toNat / 2 ^ (lo + n) + 1) * 2 ^ (lo + n) := by ring
      _ ≤ 2 ^ (m - (lo + n)) * 2 ^ (lo + n) := Nat.mul_le_mul_right _ hdiv
      _ = 2 ^ m := by rw [← pow_add]; congr 1; omega
  rw [setBits, BitVec.toNat_ofNat, bits_eq, Nat.mod_eq_of_lt]
  · generalize w.toNat / 2 ^ (lo + n) * 2 ^ (lo + n) = a at *
    generalize w.toNat / 2 ^ lo % 2 ^ n * 2 ^ lo = b at *
    omega
  · generalize w.toNat / 2 ^ (lo + n) * 2 ^ (lo + n) = a at *
    generalize w.toNat / 2 ^ lo % 2 ^ n * 2 ^ lo = b at *
    omega

/-- The field reads as written. -/
theorem bits_setBits {m : Nat} (w : BitVec m) (lo n v : Nat) (h : lo + n ≤ m) : bits (setBits w lo n v) lo n = v % 2 ^ n := by
  have hl : w.toNat % 2 ^ lo < 2 ^ lo := Nat.mod_lt _ (by positivity)
  have : w.toNat / 2 ^ (lo + n) * 2 ^ (lo + n) + v % 2 ^ n * 2 ^ lo + w.toNat % 2 ^ lo =
      w.toNat % 2 ^ lo + (v % 2 ^ n + w.toNat / 2 ^ (lo + n) * 2 ^ n) * 2 ^ lo := by rw [pow_add]; ring
  rw [bits_eq, toNat_setBits w lo n v h, this, Nat.add_mul_div_right _ _ (by positivity), Nat.div_eq_of_lt hl, Nat.zero_add,
    Nat.add_mul_mod_self_right, Nat.mod_mod]

/-- A field above it stands. -/
theorem bits_setBits_above {m : Nat} (w : BitVec m) (lo n v lo' n' : Nat) (h : lo + n ≤ m) (h' : lo + n ≤ lo') :
    bits (setBits w lo n v) lo' n' = bits w lo' n' := by
  have hl : w.toNat % 2 ^ lo < 2 ^ lo := Nat.mod_lt _ (by positivity)
  have hv : v % 2 ^ n < 2 ^ n := Nat.mod_lt _ (by positivity)
  have hmul : v % 2 ^ n * 2 ^ lo + w.toNat % 2 ^ lo < 2 ^ (lo + n) := by
    rw [pow_add, mul_comm (2 ^ lo)]
    calc v % 2 ^ n * 2 ^ lo + w.toNat % 2 ^ lo < v % 2 ^ n * 2 ^ lo + 2 ^ lo := by omega
      _ = (v % 2 ^ n + 1) * 2 ^ lo := by ring
      _ ≤ 2 ^ n * 2 ^ lo := Nat.mul_le_mul_right _ hv
  rw [bits_eq, bits_eq, toNat_setBits w lo n v h]
  obtain ⟨k, rfl⟩ := Nat.exists_eq_add_of_le h'
  rw [pow_add 2 (lo + n) k, ← Nat.div_div_eq_div_mul, ← Nat.div_div_eq_div_mul]
  congr 2
  rw [show w.toNat / 2 ^ (lo + n) * 2 ^ (lo + n) + v % 2 ^ n * 2 ^ lo + w.toNat % 2 ^ lo =
    (v % 2 ^ n * 2 ^ lo + w.toNat % 2 ^ lo) + w.toNat / 2 ^ (lo + n) * 2 ^ (lo + n) by omega,
    Nat.add_mul_div_right _ _ (by positivity), Nat.div_eq_of_lt hmul, Nat.zero_add]

/-- A field below it stands. -/
theorem bits_setBits_below {m : Nat} (w : BitVec m) (lo n v lo' n' : Nat) (h : lo + n ≤ m) (h' : lo' + n' ≤ lo) :
    bits (setBits w lo n v) lo' n' = bits w lo' n' := by
  rw [bits_eq, bits_eq, toNat_setBits w lo n v h]
  obtain ⟨k, rfl⟩ := Nat.exists_eq_add_of_le h'
  have e : ∀ x, x / 2 ^ lo' % 2 ^ n' = x % 2 ^ (lo' + n') / 2 ^ lo' := by
    intro x
    rw [pow_add, Nat.mod_mul_right_div_self]
  rw [e, e]
  congr 1
  have d1 : 2 ^ (lo' + n') ∣ 2 ^ (lo' + n' + k + n) := Nat.pow_dvd_pow 2 (by omega)
  have d2 : 2 ^ (lo' + n') ∣ 2 ^ (lo' + n' + k) := Nat.pow_dvd_pow 2 (by omega)
  rw [Nat.add_mod, Nat.add_mod (_ * _), Nat.mod_eq_zero_of_dvd (Dvd.dvd.mul_left d1 _), Nat.mod_eq_zero_of_dvd (Dvd.dvd.mul_left d2 _)]
  simp [Nat.mod_mod_of_dvd _ d2]

theorem bits_ofNat {m : Nat} (v lo n : Nat) (h : v < 2 ^ m) : bits (BitVec.ofNat m v) lo n = v / 2 ^ lo % 2 ^ n := by
  rw [bits_eq, BitVec.toNat_ofNat, Nat.mod_eq_of_lt h]

theorem bit_bits {m : Nat} (w : BitVec m) (i : Nat) : bit w i = true ↔ bits w i 1 = 1 := by
  rw [bits_eq, bit, BitVec.getLsbD, Nat.testBit_eq_decide_div_mod_eq]
  simp

/-! ## Registers -/

@[simp] theorem State.win'_setWin (s : State) (o o' : Nat) (w : DWord) : (s.setWin o w).win' o' = if o' = o then w else s.win' o' := by
  by_cases h : o' = o
  · subst h; simp [State.win', State.setWin, Tab.getD_setD]
  · have hg : (s.setWin o w).win' o' = Tab.getD (Tab.setD s.win (winReset o) o w) (winReset o') o' := rfl
    rw [hg, if_neg h]
    unfold Tab.setD State.win' Tab.getD
    split <;> simp [Tab.find_del, Tab.find_put, h]

theorem State.win'_setWinBits (s : State) (o lo n v o' : Nat) :
    (s.setWinBits o lo n v).win' o' = if o' = o then setBits (s.win' o) lo n v else s.win' o' := by
  simp [State.setWinBits]

/-- A field of a register reads as written. -/
theorem State.winBits_setWinBits (s : State) (o lo n v : Nat) (h : lo + n ≤ 64) :
    (s.setWinBits o lo n v).winBits o lo n = v % 2 ^ n := by
  simp [State.winBits, State.win'_setWinBits, bits_setBits _ _ _ _ h]

theorem State.winBits_setWinBits_above (s : State) (o lo n v lo' n' : Nat) (h : lo + n ≤ 64) (h' : lo + n ≤ lo') :
    (s.setWinBits o lo n v).winBits o lo' n' = s.winBits o lo' n' := by
  simp [State.winBits, State.win'_setWinBits, bits_setBits_above _ _ _ _ _ _ h h']

theorem State.winBits_setWinBits_below (s : State) (o lo n v lo' n' : Nat) (h : lo + n ≤ 64) (h' : lo' + n' ≤ lo) :
    (s.setWinBits o lo n v).winBits o lo' n' = s.winBits o lo' n' := by
  simp [State.winBits, State.win'_setWinBits, bits_setBits_below _ _ _ _ _ _ h h']

/-- A field of another register stands. -/
theorem State.winBits_setWinBits_other (s : State) (o lo n v o' lo' n' : Nat) (h : o' ≠ o) :
    (s.setWinBits o lo n v).winBits o' lo' n' = s.winBits o' lo' n' := by
  simp [State.winBits, State.win'_setWinBits, h]

@[simp] theorem State.vr_setVr (s : State) (f o f' o' : Nat) (w : DWord) :
    (s.setVr f o w).vr f' o' = if 4096 * f' + o' = 4096 * f + o then w else s.vr f' o' := by
  simp [State.vr, State.setVr, Tab.getD_setD]

end Sys2Proof.Machine
end

