-- ==== Sys2Proof/Laws/Coding.lean ====
section
/-! SUPPORT. How fields placed in a word read back, and which rows of the decoding tables a word with known fixed bits matches. -/

set_option Elab.async false

namespace Sys2Proof

/-- A field read back from where it was placed. -/
theorem fld_put_self {n : Nat} (x : BitVec n) (lo : Nat) (h : lo + n ≤ 32) : fld (put x lo) lo n = x := by
  apply BitVec.eq_of_getLsbD_eq
  intro i hi
  have h1 : lo + i < 32 := by omega
  simp only [BitVec.getLsbD_extractLsb', BitVec.getLsbD_shiftLeft, BitVec.getLsbD_setWidth, hi, h1, decide_true, Bool.true_and]
  have h2 : ¬ lo + i < lo := by omega
  have h3 : lo + i - lo = i := by omega
  have h4 : i < 32 := by omega
  simp [h2, h3, h4]

/-- A field reads nothing of what was placed outside it. -/
theorem fld_put_other {m : Nat} (x : BitVec m) (lo' lo n : Nat) (h : lo + n ≤ lo' ∨ lo' + m ≤ lo) : fld (put x lo') lo n = 0#n := by
  apply BitVec.eq_of_getLsbD_eq
  intro i hi
  simp only [BitVec.getLsbD_extractLsb', BitVec.getLsbD_shiftLeft, BitVec.getLsbD_setWidth, hi, decide_true, Bool.true_and,
    BitVec.getLsbD_zero]
  rcases h with h | h
  · have : lo + i < lo' := by omega
    simp [this]
  · have : x.getLsbD (lo + i - lo') = false := BitVec.getLsbD_of_ge x _ (by omega)
    simp [this]

/-- A field of a constant that is zero there. -/
theorem fld_zero {c : BitVec 32} {lo n : Nat} (h : fld c lo n = 0#n) : fld c lo n = 0#n := h

theorem fld_or (a b : BitVec 32) (lo n : Nat) : fld (a ||| b) lo n = fld a lo n ||| fld b lo n := by
  apply BitVec.eq_of_getLsbD_eq
  intro i hi
  simp only [BitVec.getLsbD_extractLsb', BitVec.getLsbD_or, hi, decide_true, Bool.true_and]

/-- A field placed where the mask has no bit vanishes under it. -/
theorem put_and {n : Nat} (x : BitVec n) (lo : Nat) (k : BitVec 32) (h : fld k lo n = 0#n) : put x lo &&& k = 0#32 := by
  apply BitVec.eq_of_getLsbD_eq
  intro i hi
  simp only [BitVec.getLsbD_and, BitVec.getLsbD_shiftLeft, BitVec.getLsbD_setWidth, BitVec.getLsbD_zero]
  by_cases h1 : i < lo
  · simp [h1]
  · by_cases h2 : i - lo < n
    · have h3 := congrArg (fun v => v.getLsbD (i - lo)) h
      simp only [BitVec.getLsbD_extractLsb', h2, decide_true, Bool.true_and, BitVec.getLsbD_zero] at h3
      have h4 : lo + (i - lo) = i := by omega
      rw [h4] at h3
      simp [h3]
    · have : x.getLsbD (i - lo) = false := BitVec.getLsbD_of_ge x _ (by omega)
      simp [this]

theorem or_and (a b k : BitVec 32) : (a ||| b) &&& k = (a &&& k) ||| (b &&& k) := by
  apply BitVec.eq_of_getLsbD_eq
  intro i hi
  simp [Bool.and_or_distrib_right]

/-- A word whose known bits under `k` are `b` matches a row whose mask lies in `k`. -/
theorem row_matches {w k b mask pat : BitVec 32} (h : w &&& k = b) (hm : mask &&& k = mask) (hp : b &&& mask = pat) :
    matches' w mask pat = true := by
  have : w &&& mask = pat := by
    rw [← hp, ← h, ← hm]
    apply BitVec.eq_of_getLsbD_eq
    intro i hi
    simp only [BitVec.getLsbD_and]
    cases w.getLsbD i <;> cases k.getLsbD i <;> cases mask.getLsbD i <;> rfl
  simp [this]

/-- It misses a row whose pattern differs in a known bit of the mask. -/
theorem row_misses {w k b mask pat : BitVec 32} (h : w &&& k = b) (hp : b &&& mask ≠ pat &&& k) : matches' w mask pat = false := by
  rw [matches', beq_eq_false_iff_ne]
  intro e
  apply hp
  rw [← h, ← e]
  apply BitVec.eq_of_getLsbD_eq
  intro i hi
  simp only [BitVec.getLsbD_and]
  cases w.getLsbD i <;> cases k.getLsbD i <;> cases mask.getLsbD i <;> rfl

/-- The known bits of a word with its chain bit. -/
theorem chain_and (c : Bool) (w k : BitVec 32) (h : 0x80000000#32 &&& k = 0#32) : withChain c w &&& k = w &&& k := by
  cases c
  · rfl
  · simp [withChain, or_and, h]

/-- A field below the chain bit does not see it. -/
theorem chain_fld (c : Bool) (w : BitVec 32) (lo n : Nat) (h : lo + n ≤ 31) : fld (withChain c w) lo n = fld w lo n := by
  cases c
  · rfl
  · have : fld (0x80000000#32) lo n = 0#n := by
      have h31 : (0x80000000#32) = put 1#1 31 := by decide
      rw [h31]
      exact fld_put_other 1#1 31 lo n (Or.inl h)
    simp only [withChain, if_true, fld_or, this]
    simp

end Sys2Proof
end

