-- ==== Sys2Proof/Laws/Event.lean ====
section
/-! SUPPORT. What an event answers: with its condition its effect, without it nothing; a message is performed once. -/

set_option Elab.async false

namespace Sys2Proof.Machine

theorem event_of {cond : Bool} {s : State} {f : State → State} (h : cond = true) : event cond s f = .next (f s) := by
  simp [event, h]

theorem event_off {cond : Bool} {s : State} {f : State → State} (h : cond = false) : event cond s f = .next s := by
  simp [event, h]

theorem fire_of {e : Ev} {s : State} {f : State → State} (h : e ∈ s.pending) : fire e s f = .next (f (s.took e)) := by
  simp [fire, h, State.took]

theorem fire_off {e : Ev} {s : State} {f : State → State} (h : e ∉ s.pending) : fire e s f = .next s := by
  simp [fire, h]

/-- An event's statement from its condition and effect. -/
theorem happens_event {i : Instr} {cond : State → Bool} {f : State → State → State} {ok : State → Prop} {eff : State → State → Prop}
    (hi : ∀ s, ok s → exec i s = event (cond s) s (f s)) (hc : ∀ s, ok s → cond s = true) (he : ∀ s, ok s → eff s (f s s)) :
    Happens i ok eff := fun s h => ⟨f s s, by rw [hi s h, event_of (hc s h)], he s h⟩

/-- A message's statement from its effect. -/
theorem arrives_fire {i : Instr} {e : Ev} {f : State → State → State} {ok : State → Prop} {eff : State → State → Prop}
    (hi : ∀ s, ok s → exec i s = fire e s (f s)) (he : ∀ s, ok s → eff (s.took e) (f s (s.took e))) : Arrives e i ok eff :=
  fun s hp h => ⟨f s (s.took e), by rw [hi s h, fire_of hp], he s h⟩

end Sys2Proof.Machine
end

