-- ==== Sys2Proof/Laws/Lane.lean ====
section
/-! SUPPORT. What the operations that write lane registers, latches, predicates and offsets do, and when a word's checks find
nothing. -/

set_option Elab.async false

namespace Sys2Proof.Machine

theorem mem_lanesOf {m : Word} {j : Nat} : j ∈ lanesOf m ↔ j < 32 ∧ m.getLsbD j = true := by
  simp [lanesOf]

/-- Reading after a table has been written at a list of keys. -/
theorem getD_foldl_setD {α : Type} [DecidableEq α] (d : α) (key : Nat → Nat) (f : Nat → α) (inj : ∀ a b, key a = key b → a = b)
    (xs : List Nat) (t : Tab α) (k : Nat) (j : Nat) (hk : key j = k) :
    Tab.getD (xs.foldl (fun (t : Tab α) i => t.setD d (key i) (f i)) t) d k = if j ∈ xs then f j else Tab.getD t d k := by
  induction xs generalizing t with
  | nil => simp
  | cons x r ih =>
    simp only [List.foldl_cons, ih, Tab.getD_setD, List.mem_cons]
    by_cases h1 : j ∈ r
    · simp [h1]
    · by_cases h2 : j = x
      · subst h2; simp [h1, hk]
      · have : k ≠ key x := fun e => h2 (inj j x (hk.trans e))
        simp [h1, h2, this]

/-- The same at a key that is none of those written. -/
theorem getD_foldl_setD_other {α : Type} [DecidableEq α] (d : α) (key : Nat → Nat) (f : Nat → α) (xs : List Nat) (t : Tab α) (k : Nat)
    (hk : ∀ i ∈ xs, key i ≠ k) : Tab.getD (xs.foldl (fun (t : Tab α) i => t.setD d (key i) (f i)) t) d k = Tab.getD t d k := by
  induction xs generalizing t with
  | nil => rfl
  | cons x r ih =>
    have h1 : k ≠ key x := fun e => hk x (List.mem_cons_self) e.symm
    simp only [List.foldl_cons]
    rw [ih _ (fun i hi => hk i (List.mem_cons_of_mem x hi)), Tab.getD_setD, if_neg h1]

theorem Lg.wrV_vAt (l : Lg) (em : Word) (d : Nat) (f : Nat → Word) (r lane : Nat) (h : lane < 32) :
    (l.wrV em d f).vAt r lane = if r = d ∧ em.getLsbD lane = true then f lane else l.vAt r lane := by
  unfold Lg.vAt Lg.wrV
  by_cases hr : r = d
  · subst hr
    show Tab.getD ((lanesOf em).foldl (fun (t : Tab Word) i => t.setD 0 (32 * r + i) (f i)) l.v) 0 (32 * r + lane) = _
    rw [getD_foldl_setD 0 (fun i => 32 * r + i) f (fun a b e => by simpa using e) _ _ _ lane rfl]
    simp [mem_lanesOf, h]
  · show Tab.getD ((lanesOf em).foldl (fun (t : Tab Word) i => t.setD 0 (32 * d + i) (f i)) l.v) 0 (32 * r + lane) = _
    rw [getD_foldl_setD_other]
    · simp [hr]
    · intro i hi e
      rw [mem_lanesOf] at hi
      exact hr (by omega)

theorem Lg.wrL_lAt (l : Lg) (em : Word) (d : Nat) (f : Nat → Word) (j lane : Nat) (h : lane < 32) :
    (l.wrL em d f).lAt j lane = if j = d then (if em.getLsbD lane = true then f lane else 0) else l.lAt j lane := by
  unfold Lg.lAt Lg.wrL
  by_cases hr : j = d
  · subst hr
    show Tab.getD ((List.range 32).foldl (fun (t : Tab Word) i => t.setD 0 (32 * j + i) (if em.getLsbD i then f i else 0)) l.l) 0 (32 * j + lane) = _
    rw [getD_foldl_setD 0 (fun i => 32 * j + i) (fun i => if em.getLsbD i then f i else 0) (fun a b e => by simpa using e) _ _ _ lane rfl]
    simp [h]
  · show Tab.getD ((List.range 32).foldl (fun (t : Tab Word) i => t.setD 0 (32 * d + i) (if em.getLsbD i then f i else 0)) l.l) 0 (32 * j + lane) = _
    rw [getD_foldl_setD_other]
    · simp [hr]
    · intro i hi e
      rw [List.mem_range] at hi
      exact hr (by omega)

/-- Writing a 32-bit result (R61). -/
theorem Lg.wrRes_laneWrite (l : Lg) (em : Word) (n : BitVec 1) (d : Nat) (f : Nat → Word) (h : n = 1 → d < 4) :
    LaneWrite em n d f l (l.wrRes em n d f) := by
  have hall : ∀ m : BitVec 1, m = 0 ∨ m = 1 := by decide
  have hn := hall n
  rcases hn with rfl | rfl
  · have e : l.wrRes em 0 d f = l.wrV em d f := rfl
    rw [e]
    refine ⟨fun r lane hl => ?_, fun j lane hl => ?_, fun j hj => ?_, fun x => ?_, rfl⟩
    · rw [Lg.wrV_vAt l em d f r lane hl]; simp
    · simp [Lg.lAt, Lg.wrV]
    · simp [Lg.wrV]
    · simp only [Lg.wrV, List.mem_filter, Bool.not_eq_true', Bool.and_eq_false_iff, beq_eq_false_iff_ne, true_and, not_and_or]
      simp
  · have e : l.wrRes em 1 d f = l.wrL em d f := rfl
    rw [e]
    refine ⟨fun r lane hl => ?_, fun j lane hl => ?_, fun j hj => ?_, fun x => ?_, rfl⟩
    · simp [Lg.vAt, Lg.wrL]
    · rw [Lg.wrL_lAt l em d f j lane hl]; simp
    · have hd : d < 4 := h rfl
      have h1 : d = 0 ∨ d = 1 ∨ d = 2 ∨ d = 3 := by omega
      have h2 : j = 0 ∨ j = 1 ∨ j = 2 ∨ j = 3 := by omega
      simp only [Lg.wrL, BitVec.getLsbD_or, Bool.or_eq_true, true_and]
      rcases h1 with rfl | rfl | rfl | rfl <;> rcases h2 with rfl | rfl | rfl | rfl <;> simp
    · simp [Lg.wrL]

theorem Lg.wrQ_predWrite (l : Lg) (em : Word) (d : Nat) (w : Word) : PredWrite em d w l (l.wrQ em d w) := by
  refine ⟨fun n => ?_, rfl⟩
  show Tab.getD (l.q.setD 0 d ((Tab.getD l.q 0 d &&& ~~~em) ||| (w &&& em))) 0 n = _
  rw [Tab.getD_setD]
  by_cases h : n = d
  · subst h; simp [Lg.qAt]
  · simp [h, Lg.qAt]

theorem Lg.setQ_predWrite (l : Lg) (d : Nat) (w : Word) : PredWrite 0xFFFFFFFF d w l (l.setQ d w) := by
  refine ⟨fun n => ?_, rfl⟩
  show Tab.getD (l.q.setD 0 d w) 0 n = _
  rw [Tab.getD_setD]
  by_cases h : n = d
  · subst h
    have h1 : (~~~(0xFFFFFFFF#32)) = 0#32 := by decide
    have h2 : w &&& 0xFFFFFFFF#32 = w := by
      have : (0xFFFFFFFF#32) = BitVec.allOnes 32 := by decide
      rw [this, BitVec.and_allOnes]
    simp [h1, h2]
  · simp [h, Lg.qAt]

/-! ## The context -/

/-- What the context of a word is: the lane group, workgroup and launch at its turn. -/
theorem State.ctx?_spec {s : State} {c : Ctx} (h : s.ctx? = some c) :
    c.g = s.cur ∧ s.lgs.find s.cur = some c.lg ∧ s.wgs.find c.lg.wg = some c.wg ∧ s.launches.find c.wg.launch = some c.la := by
  unfold State.ctx? at h
  split at h
  · cases h
  · next lg hl =>
    split at h
    · cases h
    · next wg hw =>
      split at h
      · cases h
      · next la ha =>
        split at h <;> (cases h; exact ⟨rfl, hl, hw, ha⟩)

/-- Changing the lane group of the context. -/
theorem State.up_eq {s : State} {c : Ctx} (h : s.ctx? = some c) (f : Lg → Lg) : s.up c f = s.setLg c.g (f c.lg) := by
  obtain ⟨hg, hl, -, -⟩ := State.ctx?_spec h
  show ({ s with lgs := s.lgs.modify c.g f } : State) = { s with lgs := s.lgs.put c.g (f c.lg) }
  rw [hg, Tab.modify_of_find f hl]

/-! ## Checks that find nothing -/

theorem maskOf_nil : maskOf [] = 0#32 := rfl

theorem lanesFail_nil (r : Nat) (k : Cause) {p : Nat → Bool} {ls : List Nat} (h : ∀ j ∈ ls, p j = false) :
    lanesFail r k (maskOf (ls.filter p)) = [] := by
  have : ls.filter p = [] := by
    rw [List.filter_eq_nil_iff]
    intro a ha
    simp [h a ha]
  rw [this]
  rfl

theorem Ctx.regF_nil {c : Ctx} {r : Nat} (h : c.RegOk r) : c.regF c.em r = [] := by
  unfold Ctx.regF
  split
  · rfl
  · exact lanesFail_nil 5 .poison fun j hj => h j hj

theorem Ctx.srcAt_nil {c : Ctx} {at_ : Nat → Nat} {a : BitVec 8} (h : c.SrcAtOk at_ a) : c.srcAt c.em at_ a = [] := by
  obtain ⟨h1, h2, h3⟩ := h
  unfold Ctx.srcAt
  have e1 : (a.toNat / 64 == 1 && decide (a.toNat % 64 < 4) && !c.sn.lOk.getLsbD (a.toNat % 64)) = false := by
    by_cases hs : a.toNat / 64 = 1
    · by_cases hn : a.toNat % 64 < 4
      · simp [h1 hs hn]
      · simp [hn]
    · simp [hs]
  have e2 : (if (a.toNat / 64 == 1 && decide (4 ≤ a.toNat % 64) && decide (a.toNat % 64 < 8)) = true then
      lanesFail (Cause.rank .bound) .bound (maskOf ((lanesOf c.em).filter fun i => !c.idxOk (a.toNat % 64 - 4) (at_ i))) else []) = [] := by
    split
    · next hc =>
      simp only [Bool.and_eq_true, beq_iff_eq, decide_eq_true_eq] at hc
      exact lanesFail_nil _ _ fun j hj => by simp [h2 hc.1.1 hc.1.2 hc.2 j hj]
    · rfl
  have e3 : (if c.sn.bad.isEmpty = true then ([] : List Finding) else
      lanesFail 5 .poison (maskOf ((lanesOf c.em).filter fun i => ((c.reads a (at_ i)).map c.badWord).getD false))) = [] := by
    split
    · rfl
    · refine lanesFail_nil _ _ fun j hj => ?_
      cases hr : c.reads a (at_ j) with
      | none => simp [hr]
      | some p => simp [hr, h3 j hj p hr]
  simp only [e1, e2, e3]
  rfl

theorem Ctx.srcF_nil {c : Ctx} {a : BitVec 8} (h : c.SrcOk a) : c.srcF a = [] := Ctx.srcAt_nil h

theorem Ctx.dstF_nil {c : Ctx} {n : BitVec 1} {d : BitVec 6} (h : c.DstOk n d) : c.dstF n d.toNat = [] := by
  unfold Ctx.DstOk at h
  unfold Ctx.dstF
  split
  · next hn => rw [if_pos hn] at h; simp only [h, if_true]
  · next hn => rw [if_neg hn] at h; exact Ctx.regF_nil h

theorem State.checked_nil (s : State) (c : Ctx) (k : State → State) : s.checked c [] k = k s := rfl

/-! ## The shapes of words -/

/-- A well-formed word runs its effect. -/
theorem word_next {i : Instr} {s : State} {c : Ctx} (f : Ctx → State → State) (h : s.ctx? = some c) (hw : wellFormed i = true) :
    word i s f = .next (f c s) := by
  unfold word
  rw [h]
  simp [hw]

/-- A word that computes a lane result. -/
theorem laneWord_next {i : Instr} {s : State} {c : Ctx} {n : BitVec 1} {d : Nat} {chk : Ctx → List Finding} (f : Ctx → Nat → Word)
    (h : s.ctx? = some c) (hw : wellFormed i = true) (hc : chk c = []) (hd : n = 1 → d < 4) :
    ∃ t, laneWord i s n d chk f = .next t ∧ LaneEff n d f c s t :=
  ⟨_, by unfold laneWord; rw [word_next _ h hw, hc, State.checked_nil], _, Lg.wrRes_laneWrite c.lg c.em n d (f c) hd, State.up_eq h _⟩

theorem binWord_next {i : Instr} {s : State} {c : Ctx} {n : BitVec 1} {d : BitVec 6} {a b : BitVec 8} (f : Word → Word → Word)
    (h : s.ctx? = some c) (hw : wellFormed i = true) (ha : c.SrcOk a) (hb : c.SrcOk b) (hd : n = 1 → d.toNat < 4) :
    ∃ t, binWord i s n d a b f = .next t ∧ LaneEff n d.toNat (fun c j => f (c.src 0 a j) (c.src 0 b j)) c s t :=
  laneWord_next _ h hw (by rw [Ctx.srcF_nil ha, Ctx.srcF_nil hb]; rfl) hd

theorem unWord_next {i : Instr} {s : State} {c : Ctx} {n : BitVec 1} {d : BitVec 6} {a : BitVec 8} (f : Word → Word)
    (h : s.ctx? = some c) (hw : wellFormed i = true) (ha : c.SrcOk a) (hd : n = 1 → d.toNat < 4) :
    ∃ t, unWord i s n d a f = .next t ∧ LaneEff n d.toNat (fun c j => f (c.src 0 a j)) c s t :=
  laneWord_next _ h hw (Ctx.srcF_nil ha) hd

/-- The flags joined over the active lanes. -/
theorem joinFlags_bit (f : Nat → Word × FFlags) (b : Nat) : ∀ (ls : List Nat) (a : FFlags),
    (ls.foldl (fun a i => a ||| (f i).2) a).getLsbD b = true ↔ a.getLsbD b = true ∨ ∃ j ∈ ls, (f j).2.getLsbD b = true
  | [], a => by simp
  | x :: r, a => by
    simp only [List.foldl_cons, joinFlags_bit f b r, BitVec.getLsbD_or, Bool.or_eq_true, List.mem_cons, exists_eq_or_imp]
    tauto

/-- A word that computes a lane result with flags. -/
theorem fpWord_next {i : Instr} {s : State} {c : Ctx} {n : BitVec 1} {d : Nat} {chk : Ctx → List Finding} (f : Ctx → Nat → Word × FFlags)
    (h : s.ctx? = some c) (hw : wellFormed i = true) (hc : chk c = []) (hd : n = 1 → d < 4) :
    ∃ t, fpWord i s n d chk f = .next t ∧ FlagEff n d f c s t := by
  refine ⟨_, by unfold fpWord; rw [word_next _ h hw, hc, State.checked_nil], _, Lg.wrRes_laneWrite c.lg c.em n d (fun j => (f c j).1) hd,
    c.lg.fflags ||| joinFlags c.em (f c), fun b => ?_, ?_⟩
  · rw [BitVec.getLsbD_or, Bool.or_eq_true]
    unfold joinFlags
    rw [joinFlags_bit (f c) b]
    simp [Ctx.lanes]
  · rw [State.up_eq h]
    have e : (c.lg.wrRes c.em n d fun j => (f c j).1).fflags = c.lg.fflags := by
      unfold Lg.wrRes; split <;> rfl
    unfold Lg.raiseF
    rw [e]

/-- A word that writes a predicate. -/
theorem maskWord_next {i : Instr} {s : State} {c : Ctx} {d : BitVec 3} (f : Ctx → Word) (h : s.ctx? = some c) (hw : wellFormed i = true) :
    ∃ t, maskWord i s d f = .next t ∧ PredEff (fun _ => 0xFFFFFFFF) d.toNat f c s t :=
  ⟨_, by unfold maskWord; rw [word_next _ h hw], _, Lg.setQ_predWrite c.lg d.toNat (f c), State.up_eq h _⟩

end Sys2Proof.Machine
end

