-- ==== Sys2Proof/Laws/PerInstr.lean ====
section
/-! SUPPORT. For every instruction: its word, with either chain bit, decodes to it. -/

set_option Elab.async false

namespace Sys2Proof.Laws.Coding

/-- Decoding the word of an instruction gives the instruction back (R252, R265 to R276). -/
def Statement (i : Instr) : Prop := ∀ (w : BitVec 32) (k : Bool), encode i = some w → decodeWord (withChain k w) = some i

theorem major0 {w : BitVec 32} (h : fld w 27 4 = 0#4) : decodeWord w = decodeMajor0 w := by
  unfold decodeWord; rw [h]; rfl

theorem major1 {w : BitVec 32} (h : fld w 27 4 = 1#4) : decodeWord w = decodeMajor1 w := by
  unfold decodeWord; rw [h]; rfl

theorem major2 {w : BitVec 32} (h : fld w 27 4 = 2#4) : decodeWord w = decodeMajor2 w := by
  unfold decodeWord; rw [h]; rfl

theorem major3 {w : BitVec 32} (h : fld w 27 4 = 3#4) : decodeWord w = decodeMajor3 w := by
  unfold decodeWord; rw [h]; rfl

theorem major4 {w : BitVec 32} (h : fld w 27 4 = 4#4) : decodeWord w = decodeMajor4 w := by
  unfold decodeWord; rw [h]; rfl

theorem major5 {w : BitVec 32} (h : fld w 27 4 = 5#4) : decodeWord w = decodeMajor5 w := by
  unfold decodeWord; rw [h]; rfl

theorem major6 {w : BitVec 32} (h : fld w 27 4 = 6#4) : decodeWord w = decodeMajor6 w := by
  unfold decodeWord; rw [h]; rfl

theorem major7 {w : BitVec 32} (h : fld w 27 4 = 7#4) : decodeWord w = decodeMajor7 w := by
  unfold decodeWord; rw [h]; rfl

theorem major8 {w : BitVec 32} (h : fld w 27 4 = 8#4) : decodeWord w = decodeMajor8 w := by
  unfold decodeWord; rw [h]; rfl

theorem major9 {w : BitVec 32} (h : fld w 27 4 = 9#4) : decodeWord w = decodeMajor9 w := by
  unfold decodeWord; rw [h]; rfl

theorem major10 {w : BitVec 32} (h : fld w 27 4 = 10#4) : decodeWord w = decodeMajor10 w := by
  unfold decodeWord; rw [h]; rfl

theorem major11 {w : BitVec 32} (h : fld w 27 4 = 11#4) : decodeWord w = decodeMajor11 w := by
  unfold decodeWord; rw [h]; rfl

theorem major12 {w : BitVec 32} (h : fld w 27 4 = 12#4) : decodeWord w = decodeMajor12 w := by
  unfold decodeWord; rw [h]; rfl

theorem major13 {w : BitVec 32} (h : fld w 27 4 = 13#4) : decodeWord w = decodeMajor13 w := by
  unfold decodeWord; rw [h]; rfl

theorem major14 {w : BitVec 32} (h : fld w 27 4 = 14#4) : decodeWord w = decodeMajor14 w := by
  unfold decodeWord; rw [h]; rfl

theorem major15 {w : BitVec 32} (h : fld w 27 4 = 15#4) : decodeWord w = decodeMajor15 w := by
  unfold decodeWord; rw [h]; rfl

theorem add (x0 : BitVec 6) (x1 : BitVec 1) (x2 : BitVec 8) (x3 : BitVec 8) : Statement (.add x0 x1 x2 x3) := by
  intro w k h
  obtain rfl : 0x00000000#32 ||| put x0 17 ||| put x1 16 ||| put x2 8 ||| put x3 0 = w := Option.some.inj h
  have e : withChain k (0x00000000#32 ||| put x0 17 ||| put x1 16 ||| put x2 8 ||| put x3 0) &&& 0x7F800000#32 = 0x00000000#32 := by
    rw [chain_and _ _ _ (by decide)]
    simp (disch := decide) only [or_and, put_and, BitVec.or_zero, BitVec.zero_or, BitVec.reduceAnd]
  rw [major0 (by
    rw [chain_fld _ _ _ _ (by decide)]
    simp (disch := decide) only [fld_or, fld_put_other, BitVec.or_zero]
    try decide)]
  simp (disch := decide) only [decodeMajor0, row_misses e, row_matches e, if_true, Bool.false_eq_true, if_false]
  simp (disch := decide) only [chain_fld, fld_or, fld_put_other, fld_put_self, fld_zero, BitVec.or_zero, BitVec.zero_or]
  try rfl
theorem sub (x0 : BitVec 6) (x1 : BitVec 1) (x2 : BitVec 8) (x3 : BitVec 8) : Statement (.sub x0 x1 x2 x3) := by
  intro w k h
  obtain rfl : 0x00800000#32 ||| put x0 17 ||| put x1 16 ||| put x2 8 ||| put x3 0 = w := Option.some.inj h
  have e : withChain k (0x00800000#32 ||| put x0 17 ||| put x1 16 ||| put x2 8 ||| put x3 0) &&& 0x7F800000#32 = 0x00800000#32 := by
    rw [chain_and _ _ _ (by decide)]
    simp (disch := decide) only [or_and, put_and, BitVec.or_zero, BitVec.zero_or, BitVec.reduceAnd]
  rw [major0 (by
    rw [chain_fld _ _ _ _ (by decide)]
    simp (disch := decide) only [fld_or, fld_put_other, BitVec.or_zero]
    try decide)]
  simp (disch := decide) only [decodeMajor0, row_misses e, row_matches e, if_true, Bool.false_eq_true, if_false]
  simp (disch := decide) only [chain_fld, fld_or, fld_put_other, fld_put_self, fld_zero, BitVec.or_zero, BitVec.zero_or]
  try rfl
theorem addc (x0 : BitVec 6) (x1 : BitVec 1) (x2 : BitVec 8) (x3 : BitVec 8) : Statement (.addc x0 x1 x2 x3) := by
  intro w k h
  obtain rfl : 0x01000000#32 ||| put x0 17 ||| put x1 16 ||| put x2 8 ||| put x3 0 = w := Option.some.inj h
  have e : withChain k (0x01000000#32 ||| put x0 17 ||| put x1 16 ||| put x2 8 ||| put x3 0) &&& 0x7F800000#32 = 0x01000000#32 := by
    rw [chain_and _ _ _ (by decide)]
    simp (disch := decide) only [or_and, put_and, BitVec.or_zero, BitVec.zero_or, BitVec.reduceAnd]
  rw [major0 (by
    rw [chain_fld _ _ _ _ (by decide)]
    simp (disch := decide) only [fld_or, fld_put_other, BitVec.or_zero]
    try decide)]
  simp (disch := decide) only [decodeMajor0, row_misses e, row_matches e, if_true, Bool.false_eq_true, if_false]
  simp (disch := decide) only [chain_fld, fld_or, fld_put_other, fld_put_self, fld_zero, BitVec.or_zero, BitVec.zero_or]
  try rfl
theorem subb (x0 : BitVec 6) (x1 : BitVec 1) (x2 : BitVec 8) (x3 : BitVec 8) : Statement (.subb x0 x1 x2 x3) := by
  intro w k h
  obtain rfl : 0x01800000#32 ||| put x0 17 ||| put x1 16 ||| put x2 8 ||| put x3 0 = w := Option.some.inj h
  have e : withChain k (0x01800000#32 ||| put x0 17 ||| put x1 16 ||| put x2 8 ||| put x3 0) &&& 0x7F800000#32 = 0x01800000#32 := by
    rw [chain_and _ _ _ (by decide)]
    simp (disch := decide) only [or_and, put_and, BitVec.or_zero, BitVec.zero_or, BitVec.reduceAnd]
  rw [major0 (by
    rw [chain_fld _ _ _ _ (by decide)]
    simp (disch := decide) only [fld_or, fld_put_other, BitVec.or_zero]
    try decide)]
  simp (disch := decide) only [decodeMajor0, row_misses e, row_matches e, if_true, Bool.false_eq_true, if_false]
  simp (disch := decide) only [chain_fld, fld_or, fld_put_other, fld_put_self, fld_zero, BitVec.or_zero, BitVec.zero_or]
  try rfl
theorem mullo (x0 : BitVec 6) (x1 : BitVec 1) (x2 : BitVec 8) (x3 : BitVec 8) : Statement (.mullo x0 x1 x2 x3) := by
  intro w k h
  obtain rfl : 0x02000000#32 ||| put x0 17 ||| put x1 16 ||| put x2 8 ||| put x3 0 = w := Option.some.inj h
  have e : withChain k (0x02000000#32 ||| put x0 17 ||| put x1 16 ||| put x2 8 ||| put x3 0) &&& 0x7F800000#32 = 0x02000000#32 := by
    rw [chain_and _ _ _ (by decide)]
    simp (disch := decide) only [or_and, put_and, BitVec.or_zero, BitVec.zero_or, BitVec.reduceAnd]
  rw [major0 (by
    rw [chain_fld _ _ _ _ (by decide)]
    simp (disch := decide) only [fld_or, fld_put_other, BitVec.or_zero]
    try decide)]
  simp (disch := decide) only [decodeMajor0, row_misses e, row_matches e, if_true, Bool.false_eq_true, if_false]
  simp (disch := decide) only [chain_fld, fld_or, fld_put_other, fld_put_self, fld_zero, BitVec.or_zero, BitVec.zero_or]
  try rfl
theorem mulhi (x0 : BitVec 6) (x1 : BitVec 1) (x2 : BitVec 8) (x3 : BitVec 8) : Statement (.mulhi x0 x1 x2 x3) := by
  intro w k h
  obtain rfl : 0x02800000#32 ||| put x0 17 ||| put x1 16 ||| put x2 8 ||| put x3 0 = w := Option.some.inj h
  have e : withChain k (0x02800000#32 ||| put x0 17 ||| put x1 16 ||| put x2 8 ||| put x3 0) &&& 0x7F800000#32 = 0x02800000#32 := by
    rw [chain_and _ _ _ (by decide)]
    simp (disch := decide) only [or_and, put_and, BitVec.or_zero, BitVec.zero_or, BitVec.reduceAnd]
  rw [major0 (by
    rw [chain_fld _ _ _ _ (by decide)]
    simp (disch := decide) only [fld_or, fld_put_other, BitVec.or_zero]
    try decide)]
  simp (disch := decide) only [decodeMajor0, row_misses e, row_matches e, if_true, Bool.false_eq_true, if_false]
  simp (disch := decide) only [chain_fld, fld_or, fld_put_other, fld_put_self, fld_zero, BitVec.or_zero, BitVec.zero_or]
  try rfl
theorem and (x0 : BitVec 6) (x1 : BitVec 1) (x2 : BitVec 8) (x3 : BitVec 8) : Statement (.and x0 x1 x2 x3) := by
  intro w k h
  obtain rfl : 0x03000000#32 ||| put x0 17 ||| put x1 16 ||| put x2 8 ||| put x3 0 = w := Option.some.inj h
  have e : withChain k (0x03000000#32 ||| put x0 17 ||| put x1 16 ||| put x2 8 ||| put x3 0) &&& 0x7F800000#32 = 0x03000000#32 := by
    rw [chain_and _ _ _ (by decide)]
    simp (disch := decide) only [or_and, put_and, BitVec.or_zero, BitVec.zero_or, BitVec.reduceAnd]
  rw [major0 (by
    rw [chain_fld _ _ _ _ (by decide)]
    simp (disch := decide) only [fld_or, fld_put_other, BitVec.or_zero]
    try decide)]
  simp (disch := decide) only [decodeMajor0, row_misses e, row_matches e, if_true, Bool.false_eq_true, if_false]
  simp (disch := decide) only [chain_fld, fld_or, fld_put_other, fld_put_self, fld_zero, BitVec.or_zero, BitVec.zero_or]
  try rfl
theorem or (x0 : BitVec 6) (x1 : BitVec 1) (x2 : BitVec 8) (x3 : BitVec 8) : Statement (.or x0 x1 x2 x3) := by
  intro w k h
  obtain rfl : 0x03800000#32 ||| put x0 17 ||| put x1 16 ||| put x2 8 ||| put x3 0 = w := Option.some.inj h
  have e : withChain k (0x03800000#32 ||| put x0 17 ||| put x1 16 ||| put x2 8 ||| put x3 0) &&& 0x7F800000#32 = 0x03800000#32 := by
    rw [chain_and _ _ _ (by decide)]
    simp (disch := decide) only [or_and, put_and, BitVec.or_zero, BitVec.zero_or, BitVec.reduceAnd]
  rw [major0 (by
    rw [chain_fld _ _ _ _ (by decide)]
    simp (disch := decide) only [fld_or, fld_put_other, BitVec.or_zero]
    try decide)]
  simp (disch := decide) only [decodeMajor0, row_misses e, row_matches e, if_true, Bool.false_eq_true, if_false]
  simp (disch := decide) only [chain_fld, fld_or, fld_put_other, fld_put_self, fld_zero, BitVec.or_zero, BitVec.zero_or]
  try rfl
theorem xor (x0 : BitVec 6) (x1 : BitVec 1) (x2 : BitVec 8) (x3 : BitVec 8) : Statement (.xor x0 x1 x2 x3) := by
  intro w k h
  obtain rfl : 0x04000000#32 ||| put x0 17 ||| put x1 16 ||| put x2 8 ||| put x3 0 = w := Option.some.inj h
  have e : withChain k (0x04000000#32 ||| put x0 17 ||| put x1 16 ||| put x2 8 ||| put x3 0) &&& 0x7F800000#32 = 0x04000000#32 := by
    rw [chain_and _ _ _ (by decide)]
    simp (disch := decide) only [or_and, put_and, BitVec.or_zero, BitVec.zero_or, BitVec.reduceAnd]
  rw [major0 (by
    rw [chain_fld _ _ _ _ (by decide)]
    simp (disch := decide) only [fld_or, fld_put_other, BitVec.or_zero]
    try decide)]
  simp (disch := decide) only [decodeMajor0, row_misses e, row_matches e, if_true, Bool.false_eq_true, if_false]
  simp (disch := decide) only [chain_fld, fld_or, fld_put_other, fld_put_self, fld_zero, BitVec.or_zero, BitVec.zero_or]
  try rfl
theorem andn (x0 : BitVec 6) (x1 : BitVec 1) (x2 : BitVec 8) (x3 : BitVec 8) : Statement (.andn x0 x1 x2 x3) := by
  intro w k h
  obtain rfl : 0x04800000#32 ||| put x0 17 ||| put x1 16 ||| put x2 8 ||| put x3 0 = w := Option.some.inj h
  have e : withChain k (0x04800000#32 ||| put x0 17 ||| put x1 16 ||| put x2 8 ||| put x3 0) &&& 0x7F800000#32 = 0x04800000#32 := by
    rw [chain_and _ _ _ (by decide)]
    simp (disch := decide) only [or_and, put_and, BitVec.or_zero, BitVec.zero_or, BitVec.reduceAnd]
  rw [major0 (by
    rw [chain_fld _ _ _ _ (by decide)]
    simp (disch := decide) only [fld_or, fld_put_other, BitVec.or_zero]
    try decide)]
  simp (disch := decide) only [decodeMajor0, row_misses e, row_matches e, if_true, Bool.false_eq_true, if_false]
  simp (disch := decide) only [chain_fld, fld_or, fld_put_other, fld_put_self, fld_zero, BitVec.or_zero, BitVec.zero_or]
  try rfl
theorem shl (x0 : BitVec 6) (x1 : BitVec 1) (x2 : BitVec 8) (x3 : BitVec 8) : Statement (.shl x0 x1 x2 x3) := by
  intro w k h
  obtain rfl : 0x05000000#32 ||| put x0 17 ||| put x1 16 ||| put x2 8 ||| put x3 0 = w := Option.some.inj h
  have e : withChain k (0x05000000#32 ||| put x0 17 ||| put x1 16 ||| put x2 8 ||| put x3 0) &&& 0x7F800000#32 = 0x05000000#32 := by
    rw [chain_and _ _ _ (by decide)]
    simp (disch := decide) only [or_and, put_and, BitVec.or_zero, BitVec.zero_or, BitVec.reduceAnd]
  rw [major0 (by
    rw [chain_fld _ _ _ _ (by decide)]
    simp (disch := decide) only [fld_or, fld_put_other, BitVec.or_zero]
    try decide)]
  simp (disch := decide) only [decodeMajor0, row_misses e, row_matches e, if_true, Bool.false_eq_true, if_false]
  simp (disch := decide) only [chain_fld, fld_or, fld_put_other, fld_put_self, fld_zero, BitVec.or_zero, BitVec.zero_or]
  try rfl
theorem shr (x0 : BitVec 6) (x1 : BitVec 1) (x2 : BitVec 8) (x3 : BitVec 8) : Statement (.shr x0 x1 x2 x3) := by
  intro w k h
  obtain rfl : 0x05800000#32 ||| put x0 17 ||| put x1 16 ||| put x2 8 ||| put x3 0 = w := Option.some.inj h
  have e : withChain k (0x05800000#32 ||| put x0 17 ||| put x1 16 ||| put x2 8 ||| put x3 0) &&& 0x7F800000#32 = 0x05800000#32 := by
    rw [chain_and _ _ _ (by decide)]
    simp (disch := decide) only [or_and, put_and, BitVec.or_zero, BitVec.zero_or, BitVec.reduceAnd]
  rw [major0 (by
    rw [chain_fld _ _ _ _ (by decide)]
    simp (disch := decide) only [fld_or, fld_put_other, BitVec.or_zero]
    try decide)]
  simp (disch := decide) only [decodeMajor0, row_misses e, row_matches e, if_true, Bool.false_eq_true, if_false]
  simp (disch := decide) only [chain_fld, fld_or, fld_put_other, fld_put_self, fld_zero, BitVec.or_zero, BitVec.zero_or]
  try rfl
theorem sar (x0 : BitVec 6) (x1 : BitVec 1) (x2 : BitVec 8) (x3 : BitVec 8) : Statement (.sar x0 x1 x2 x3) := by
  intro w k h
  obtain rfl : 0x06000000#32 ||| put x0 17 ||| put x1 16 ||| put x2 8 ||| put x3 0 = w := Option.some.inj h
  have e : withChain k (0x06000000#32 ||| put x0 17 ||| put x1 16 ||| put x2 8 ||| put x3 0) &&& 0x7F800000#32 = 0x06000000#32 := by
    rw [chain_and _ _ _ (by decide)]
    simp (disch := decide) only [or_and, put_and, BitVec.or_zero, BitVec.zero_or, BitVec.reduceAnd]
  rw [major0 (by
    rw [chain_fld _ _ _ _ (by decide)]
    simp (disch := decide) only [fld_or, fld_put_other, BitVec.or_zero]
    try decide)]
  simp (disch := decide) only [decodeMajor0, row_misses e, row_matches e, if_true, Bool.false_eq_true, if_false]
  simp (disch := decide) only [chain_fld, fld_or, fld_put_other, fld_put_self, fld_zero, BitVec.or_zero, BitVec.zero_or]
  try rfl
theorem rotl (x0 : BitVec 6) (x1 : BitVec 1) (x2 : BitVec 8) (x3 : BitVec 8) : Statement (.rotl x0 x1 x2 x3) := by
  intro w k h
  obtain rfl : 0x06800000#32 ||| put x0 17 ||| put x1 16 ||| put x2 8 ||| put x3 0 = w := Option.some.inj h
  have e : withChain k (0x06800000#32 ||| put x0 17 ||| put x1 16 ||| put x2 8 ||| put x3 0) &&& 0x7F800000#32 = 0x06800000#32 := by
    rw [chain_and _ _ _ (by decide)]
    simp (disch := decide) only [or_and, put_and, BitVec.or_zero, BitVec.zero_or, BitVec.reduceAnd]
  rw [major0 (by
    rw [chain_fld _ _ _ _ (by decide)]
    simp (disch := decide) only [fld_or, fld_put_other, BitVec.or_zero]
    try decide)]
  simp (disch := decide) only [decodeMajor0, row_misses e, row_matches e, if_true, Bool.false_eq_true, if_false]
  simp (disch := decide) only [chain_fld, fld_or, fld_put_other, fld_put_self, fld_zero, BitVec.or_zero, BitVec.zero_or]
  try rfl
theorem min (x0 : BitVec 6) (x1 : BitVec 1) (x2 : BitVec 8) (x3 : BitVec 8) : Statement (.min x0 x1 x2 x3) := by
  intro w k h
  obtain rfl : 0x07000000#32 ||| put x0 17 ||| put x1 16 ||| put x2 8 ||| put x3 0 = w := Option.some.inj h
  have e : withChain k (0x07000000#32 ||| put x0 17 ||| put x1 16 ||| put x2 8 ||| put x3 0) &&& 0x7F800000#32 = 0x07000000#32 := by
    rw [chain_and _ _ _ (by decide)]
    simp (disch := decide) only [or_and, put_and, BitVec.or_zero, BitVec.zero_or, BitVec.reduceAnd]
  rw [major0 (by
    rw [chain_fld _ _ _ _ (by decide)]
    simp (disch := decide) only [fld_or, fld_put_other, BitVec.or_zero]
    try decide)]
  simp (disch := decide) only [decodeMajor0, row_misses e, row_matches e, if_true, Bool.false_eq_true, if_false]
  simp (disch := decide) only [chain_fld, fld_or, fld_put_other, fld_put_self, fld_zero, BitVec.or_zero, BitVec.zero_or]
  try rfl
theorem max (x0 : BitVec 6) (x1 : BitVec 1) (x2 : BitVec 8) (x3 : BitVec 8) : Statement (.max x0 x1 x2 x3) := by
  intro w k h
  obtain rfl : 0x07800000#32 ||| put x0 17 ||| put x1 16 ||| put x2 8 ||| put x3 0 = w := Option.some.inj h
  have e : withChain k (0x07800000#32 ||| put x0 17 ||| put x1 16 ||| put x2 8 ||| put x3 0) &&& 0x7F800000#32 = 0x07800000#32 := by
    rw [chain_and _ _ _ (by decide)]
    simp (disch := decide) only [or_and, put_and, BitVec.or_zero, BitVec.zero_or, BitVec.reduceAnd]
  rw [major0 (by
    rw [chain_fld _ _ _ _ (by decide)]
    simp (disch := decide) only [fld_or, fld_put_other, BitVec.or_zero]
    try decide)]
  simp (disch := decide) only [decodeMajor0, row_misses e, row_matches e, if_true, Bool.false_eq_true, if_false]
  simp (disch := decide) only [chain_fld, fld_or, fld_put_other, fld_put_self, fld_zero, BitVec.or_zero, BitVec.zero_or]
  try rfl
theorem addi (x0 : BitVec 6) (x1 : BitVec 1) (x2 : BitVec 8) (x3 : BitVec 8) : Statement (.addi x0 x1 x2 x3) := by
  intro w k h
  obtain rfl : 0x08000000#32 ||| put x0 17 ||| put x1 16 ||| put x2 8 ||| put x3 0 = w := Option.some.inj h
  have e : withChain k (0x08000000#32 ||| put x0 17 ||| put x1 16 ||| put x2 8 ||| put x3 0) &&& 0x7F800000#32 = 0x08000000#32 := by
    rw [chain_and _ _ _ (by decide)]
    simp (disch := decide) only [or_and, put_and, BitVec.or_zero, BitVec.zero_or, BitVec.reduceAnd]
  rw [major1 (by
    rw [chain_fld _ _ _ _ (by decide)]
    simp (disch := decide) only [fld_or, fld_put_other, BitVec.or_zero]
    try decide)]
  simp (disch := decide) only [decodeMajor1, row_misses e, row_matches e, if_true, Bool.false_eq_true, if_false]
  simp (disch := decide) only [chain_fld, fld_or, fld_put_other, fld_put_self, fld_zero, BitVec.or_zero, BitVec.zero_or]
  try rfl
theorem andi (x0 : BitVec 6) (x1 : BitVec 1) (x2 : BitVec 8) (x3 : BitVec 8) : Statement (.andi x0 x1 x2 x3) := by
  intro w k h
  obtain rfl : 0x08800000#32 ||| put x0 17 ||| put x1 16 ||| put x2 8 ||| put x3 0 = w := Option.some.inj h
  have e : withChain k (0x08800000#32 ||| put x0 17 ||| put x1 16 ||| put x2 8 ||| put x3 0) &&& 0x7F800000#32 = 0x08800000#32 := by
    rw [chain_and _ _ _ (by decide)]
    simp (disch := decide) only [or_and, put_and, BitVec.or_zero, BitVec.zero_or, BitVec.reduceAnd]
  rw [major1 (by
    rw [chain_fld _ _ _ _ (by decide)]
    simp (disch := decide) only [fld_or, fld_put_other, BitVec.or_zero]
    try decide)]
  simp (disch := decide) only [decodeMajor1, row_misses e, row_matches e, if_true, Bool.false_eq_true, if_false]
  simp (disch := decide) only [chain_fld, fld_or, fld_put_other, fld_put_self, fld_zero, BitVec.or_zero, BitVec.zero_or]
  try rfl
theorem ori (x0 : BitVec 6) (x1 : BitVec 1) (x2 : BitVec 8) (x3 : BitVec 8) : Statement (.ori x0 x1 x2 x3) := by
  intro w k h
  obtain rfl : 0x09000000#32 ||| put x0 17 ||| put x1 16 ||| put x2 8 ||| put x3 0 = w := Option.some.inj h
  have e : withChain k (0x09000000#32 ||| put x0 17 ||| put x1 16 ||| put x2 8 ||| put x3 0) &&& 0x7F800000#32 = 0x09000000#32 := by
    rw [chain_and _ _ _ (by decide)]
    simp (disch := decide) only [or_and, put_and, BitVec.or_zero, BitVec.zero_or, BitVec.reduceAnd]
  rw [major1 (by
    rw [chain_fld _ _ _ _ (by decide)]
    simp (disch := decide) only [fld_or, fld_put_other, BitVec.or_zero]
    try decide)]
  simp (disch := decide) only [decodeMajor1, row_misses e, row_matches e, if_true, Bool.false_eq_true, if_false]
  simp (disch := decide) only [chain_fld, fld_or, fld_put_other, fld_put_self, fld_zero, BitVec.or_zero, BitVec.zero_or]
  try rfl
theorem xori (x0 : BitVec 6) (x1 : BitVec 1) (x2 : BitVec 8) (x3 : BitVec 8) : Statement (.xori x0 x1 x2 x3) := by
  intro w k h
  obtain rfl : 0x09800000#32 ||| put x0 17 ||| put x1 16 ||| put x2 8 ||| put x3 0 = w := Option.some.inj h
  have e : withChain k (0x09800000#32 ||| put x0 17 ||| put x1 16 ||| put x2 8 ||| put x3 0) &&& 0x7F800000#32 = 0x09800000#32 := by
    rw [chain_and _ _ _ (by decide)]
    simp (disch := decide) only [or_and, put_and, BitVec.or_zero, BitVec.zero_or, BitVec.reduceAnd]
  rw [major1 (by
    rw [chain_fld _ _ _ _ (by decide)]
    simp (disch := decide) only [fld_or, fld_put_other, BitVec.or_zero]
    try decide)]
  simp (disch := decide) only [decodeMajor1, row_misses e, row_matches e, if_true, Bool.false_eq_true, if_false]
  simp (disch := decide) only [chain_fld, fld_or, fld_put_other, fld_put_self, fld_zero, BitVec.or_zero, BitVec.zero_or]
  try rfl
theorem shli (x0 : BitVec 6) (x1 : BitVec 1) (x2 : BitVec 8) (x3 : BitVec 5) : Statement (.shli x0 x1 x2 x3) := by
  intro w k h
  obtain rfl : 0x0A000000#32 ||| put x0 17 ||| put x1 16 ||| put x2 8 ||| put x3 0 = w := Option.some.inj h
  have e : withChain k (0x0A000000#32 ||| put x0 17 ||| put x1 16 ||| put x2 8 ||| put x3 0) &&& 0x7F8000E0#32 = 0x0A000000#32 := by
    rw [chain_and _ _ _ (by decide)]
    simp (disch := decide) only [or_and, put_and, BitVec.or_zero, BitVec.zero_or, BitVec.reduceAnd]
  rw [major1 (by
    rw [chain_fld _ _ _ _ (by decide)]
    simp (disch := decide) only [fld_or, fld_put_other, BitVec.or_zero]
    try decide)]
  simp (disch := decide) only [decodeMajor1, row_misses e, row_matches e, if_true, Bool.false_eq_true, if_false]
  simp (disch := decide) only [chain_fld, fld_or, fld_put_other, fld_put_self, fld_zero, BitVec.or_zero, BitVec.zero_or]
  try rfl
theorem shri (x0 : BitVec 6) (x1 : BitVec 1) (x2 : BitVec 8) (x3 : BitVec 5) : Statement (.shri x0 x1 x2 x3) := by
  intro w k h
  obtain rfl : 0x0A800000#32 ||| put x0 17 ||| put x1 16 ||| put x2 8 ||| put x3 0 = w := Option.some.inj h
  have e : withChain k (0x0A800000#32 ||| put x0 17 ||| put x1 16 ||| put x2 8 ||| put x3 0) &&& 0x7F8000E0#32 = 0x0A800000#32 := by
    rw [chain_and _ _ _ (by decide)]
    simp (disch := decide) only [or_and, put_and, BitVec.or_zero, BitVec.zero_or, BitVec.reduceAnd]
  rw [major1 (by
    rw [chain_fld _ _ _ _ (by decide)]
    simp (disch := decide) only [fld_or, fld_put_other, BitVec.or_zero]
    try decide)]
  simp (disch := decide) only [decodeMajor1, row_misses e, row_matches e, if_true, Bool.false_eq_true, if_false]
  simp (disch := decide) only [chain_fld, fld_or, fld_put_other, fld_put_self, fld_zero, BitVec.or_zero, BitVec.zero_or]
  try rfl
theorem sari (x0 : BitVec 6) (x1 : BitVec 1) (x2 : BitVec 8) (x3 : BitVec 5) : Statement (.sari x0 x1 x2 x3) := by
  intro w k h
  obtain rfl : 0x0B000000#32 ||| put x0 17 ||| put x1 16 ||| put x2 8 ||| put x3 0 = w := Option.some.inj h
  have e : withChain k (0x0B000000#32 ||| put x0 17 ||| put x1 16 ||| put x2 8 ||| put x3 0) &&& 0x7F8000E0#32 = 0x0B000000#32 := by
    rw [chain_and _ _ _ (by decide)]
    simp (disch := decide) only [or_and, put_and, BitVec.or_zero, BitVec.zero_or, BitVec.reduceAnd]
  rw [major1 (by
    rw [chain_fld _ _ _ _ (by decide)]
    simp (disch := decide) only [fld_or, fld_put_other, BitVec.or_zero]
    try decide)]
  simp (disch := decide) only [decodeMajor1, row_misses e, row_matches e, if_true, Bool.false_eq_true, if_false]
  simp (disch := decide) only [chain_fld, fld_or, fld_put_other, fld_put_self, fld_zero, BitVec.or_zero, BitVec.zero_or]
  try rfl
theorem muli (x0 : BitVec 6) (x1 : BitVec 1) (x2 : BitVec 8) (x3 : BitVec 8) : Statement (.muli x0 x1 x2 x3) := by
  intro w k h
  obtain rfl : 0x0B800000#32 ||| put x0 17 ||| put x1 16 ||| put x2 8 ||| put x3 0 = w := Option.some.inj h
  have e : withChain k (0x0B800000#32 ||| put x0 17 ||| put x1 16 ||| put x2 8 ||| put x3 0) &&& 0x7F800000#32 = 0x0B800000#32 := by
    rw [chain_and _ _ _ (by decide)]
    simp (disch := decide) only [or_and, put_and, BitVec.or_zero, BitVec.zero_or, BitVec.reduceAnd]
  rw [major1 (by
    rw [chain_fld _ _ _ _ (by decide)]
    simp (disch := decide) only [fld_or, fld_put_other, BitVec.or_zero]
    try decide)]
  simp (disch := decide) only [decodeMajor1, row_misses e, row_matches e, if_true, Bool.false_eq_true, if_false]
  simp (disch := decide) only [chain_fld, fld_or, fld_put_other, fld_put_self, fld_zero, BitVec.or_zero, BitVec.zero_or]
  try rfl
theorem clz (x0 : BitVec 6) (x1 : BitVec 1) (x2 : BitVec 8) : Statement (.clz x0 x1 x2) := by
  intro w k h
  obtain rfl : 0x0C000000#32 ||| put x0 17 ||| put x1 16 ||| put x2 8 = w := Option.some.inj h
  have e : withChain k (0x0C000000#32 ||| put x0 17 ||| put x1 16 ||| put x2 8) &&& 0x7F8000FF#32 = 0x0C000000#32 := by
    rw [chain_and _ _ _ (by decide)]
    simp (disch := decide) only [or_and, put_and, BitVec.or_zero, BitVec.zero_or, BitVec.reduceAnd]
  rw [major1 (by
    rw [chain_fld _ _ _ _ (by decide)]
    simp (disch := decide) only [fld_or, fld_put_other, BitVec.or_zero]
    try decide)]
  simp (disch := decide) only [decodeMajor1, row_misses e, row_matches e, if_true, Bool.false_eq_true, if_false]
  simp (disch := decide) only [chain_fld, fld_or, fld_put_other, fld_put_self, fld_zero, BitVec.or_zero, BitVec.zero_or]
  try rfl
theorem ctz (x0 : BitVec 6) (x1 : BitVec 1) (x2 : BitVec 8) : Statement (.ctz x0 x1 x2) := by
  intro w k h
  obtain rfl : 0x0C800000#32 ||| put x0 17 ||| put x1 16 ||| put x2 8 = w := Option.some.inj h
  have e : withChain k (0x0C800000#32 ||| put x0 17 ||| put x1 16 ||| put x2 8) &&& 0x7F8000FF#32 = 0x0C800000#32 := by
    rw [chain_and _ _ _ (by decide)]
    simp (disch := decide) only [or_and, put_and, BitVec.or_zero, BitVec.zero_or, BitVec.reduceAnd]
  rw [major1 (by
    rw [chain_fld _ _ _ _ (by decide)]
    simp (disch := decide) only [fld_or, fld_put_other, BitVec.or_zero]
    try decide)]
  simp (disch := decide) only [decodeMajor1, row_misses e, row_matches e, if_true, Bool.false_eq_true, if_false]
  simp (disch := decide) only [chain_fld, fld_or, fld_put_other, fld_put_self, fld_zero, BitVec.or_zero, BitVec.zero_or]
  try rfl
theorem popc (x0 : BitVec 6) (x1 : BitVec 1) (x2 : BitVec 8) : Statement (.popc x0 x1 x2) := by
  intro w k h
  obtain rfl : 0x0D000000#32 ||| put x0 17 ||| put x1 16 ||| put x2 8 = w := Option.some.inj h
  have e : withChain k (0x0D000000#32 ||| put x0 17 ||| put x1 16 ||| put x2 8) &&& 0x7F8000FF#32 = 0x0D000000#32 := by
    rw [chain_and _ _ _ (by decide)]
    simp (disch := decide) only [or_and, put_and, BitVec.or_zero, BitVec.zero_or, BitVec.reduceAnd]
  rw [major1 (by
    rw [chain_fld _ _ _ _ (by decide)]
    simp (disch := decide) only [fld_or, fld_put_other, BitVec.or_zero]
    try decide)]
  simp (disch := decide) only [decodeMajor1, row_misses e, row_matches e, if_true, Bool.false_eq_true, if_false]
  simp (disch := decide) only [chain_fld, fld_or, fld_put_other, fld_put_self, fld_zero, BitVec.or_zero, BitVec.zero_or]
  try rfl
theorem brev (x0 : BitVec 6) (x1 : BitVec 1) (x2 : BitVec 8) : Statement (.brev x0 x1 x2) := by
  intro w k h
  obtain rfl : 0x0D800000#32 ||| put x0 17 ||| put x1 16 ||| put x2 8 = w := Option.some.inj h
  have e : withChain k (0x0D800000#32 ||| put x0 17 ||| put x1 16 ||| put x2 8) &&& 0x7F8000FF#32 = 0x0D800000#32 := by
    rw [chain_and _ _ _ (by decide)]
    simp (disch := decide) only [or_and, put_and, BitVec.or_zero, BitVec.zero_or, BitVec.reduceAnd]
  rw [major1 (by
    rw [chain_fld _ _ _ _ (by decide)]
    simp (disch := decide) only [fld_or, fld_put_other, BitVec.or_zero]
    try decide)]
  simp (disch := decide) only [decodeMajor1, row_misses e, row_matches e, if_true, Bool.false_eq_true, if_false]
  simp (disch := decide) only [chain_fld, fld_or, fld_put_other, fld_put_self, fld_zero, BitVec.or_zero, BitVec.zero_or]
  try rfl
theorem bfe (x0 : BitVec 6) (x1 : BitVec 1) (x2 : BitVec 8) (x3 : BitVec 3) (x4 : BitVec 5) : Statement (.bfe x0 x1 x2 x3 x4) := by
  intro w k h
  obtain rfl : 0x0E000000#32 ||| put x0 17 ||| put x1 16 ||| put x2 8 ||| put x3 5 ||| put x4 0 = w := Option.some.inj h
  have e : withChain k (0x0E000000#32 ||| put x0 17 ||| put x1 16 ||| put x2 8 ||| put x3 5 ||| put x4 0) &&& 0x7F800000#32 = 0x0E000000#32 := by
    rw [chain_and _ _ _ (by decide)]
    simp (disch := decide) only [or_and, put_and, BitVec.or_zero, BitVec.zero_or, BitVec.reduceAnd]
  rw [major1 (by
    rw [chain_fld _ _ _ _ (by decide)]
    simp (disch := decide) only [fld_or, fld_put_other, BitVec.or_zero]
    try decide)]
  simp (disch := decide) only [decodeMajor1, row_misses e, row_matches e, if_true, Bool.false_eq_true, if_false]
  simp (disch := decide) only [chain_fld, fld_or, fld_put_other, fld_put_self, fld_zero, BitVec.or_zero, BitVec.zero_or]
  try rfl
theorem bfi (x0 : BitVec 6) (x1 : BitVec 1) (x2 : BitVec 8) (x3 : BitVec 3) (x4 : BitVec 5) : Statement (.bfi x0 x1 x2 x3 x4) := by
  intro w k h
  obtain rfl : 0x0E800000#32 ||| put x0 17 ||| put x1 16 ||| put x2 8 ||| put x3 5 ||| put x4 0 = w := Option.some.inj h
  have e : withChain k (0x0E800000#32 ||| put x0 17 ||| put x1 16 ||| put x2 8 ||| put x3 5 ||| put x4 0) &&& 0x7F800000#32 = 0x0E800000#32 := by
    rw [chain_and _ _ _ (by decide)]
    simp (disch := decide) only [or_and, put_and, BitVec.or_zero, BitVec.zero_or, BitVec.reduceAnd]
  rw [major1 (by
    rw [chain_fld _ _ _ _ (by decide)]
    simp (disch := decide) only [fld_or, fld_put_other, BitVec.or_zero]
    try decide)]
  simp (disch := decide) only [decodeMajor1, row_misses e, row_matches e, if_true, Bool.false_eq_true, if_false]
  simp (disch := decide) only [chain_fld, fld_or, fld_put_other, fld_put_self, fld_zero, BitVec.or_zero, BitVec.zero_or]
  try rfl
theorem faddF32 (x0 : BitVec 6) (x1 : BitVec 1) (x2 : BitVec 8) (x3 : BitVec 8) : Statement (.faddF32 x0 x1 x2 x3) := by
  intro w k h
  obtain rfl : 0x10000000#32 ||| put x0 17 ||| put x1 16 ||| put x2 8 ||| put x3 0 = w := Option.some.inj h
  have e : withChain k (0x10000000#32 ||| put x0 17 ||| put x1 16 ||| put x2 8 ||| put x3 0) &&& 0x7F800000#32 = 0x10000000#32 := by
    rw [chain_and _ _ _ (by decide)]
    simp (disch := decide) only [or_and, put_and, BitVec.or_zero, BitVec.zero_or, BitVec.reduceAnd]
  rw [major2 (by
    rw [chain_fld _ _ _ _ (by decide)]
    simp (disch := decide) only [fld_or, fld_put_other, BitVec.or_zero]
    try decide)]
  simp (disch := decide) only [decodeMajor2, row_misses e, row_matches e, if_true, Bool.false_eq_true, if_false]
  simp (disch := decide) only [chain_fld, fld_or, fld_put_other, fld_put_self, fld_zero, BitVec.or_zero, BitVec.zero_or]
  try rfl
theorem fsubF32 (x0 : BitVec 6) (x1 : BitVec 1) (x2 : BitVec 8) (x3 : BitVec 8) : Statement (.fsubF32 x0 x1 x2 x3) := by
  intro w k h
  obtain rfl : 0x10800000#32 ||| put x0 17 ||| put x1 16 ||| put x2 8 ||| put x3 0 = w := Option.some.inj h
  have e : withChain k (0x10800000#32 ||| put x0 17 ||| put x1 16 ||| put x2 8 ||| put x3 0) &&& 0x7F800000#32 = 0x10800000#32 := by
    rw [chain_and _ _ _ (by decide)]
    simp (disch := decide) only [or_and, put_and, BitVec.or_zero, BitVec.zero_or, BitVec.reduceAnd]
  rw [major2 (by
    rw [chain_fld _ _ _ _ (by decide)]
    simp (disch := decide) only [fld_or, fld_put_other, BitVec.or_zero]
    try decide)]
  simp (disch := decide) only [decodeMajor2, row_misses e, row_matches e, if_true, Bool.false_eq_true, if_false]
  simp (disch := decide) only [chain_fld, fld_or, fld_put_other, fld_put_self, fld_zero, BitVec.or_zero, BitVec.zero_or]
  try rfl
theorem fmulF32 (x0 : BitVec 6) (x1 : BitVec 1) (x2 : BitVec 8) (x3 : BitVec 8) : Statement (.fmulF32 x0 x1 x2 x3) := by
  intro w k h
  obtain rfl : 0x11000000#32 ||| put x0 17 ||| put x1 16 ||| put x2 8 ||| put x3 0 = w := Option.some.inj h
  have e : withChain k (0x11000000#32 ||| put x0 17 ||| put x1 16 ||| put x2 8 ||| put x3 0) &&& 0x7F800000#32 = 0x11000000#32 := by
    rw [chain_and _ _ _ (by decide)]
    simp (disch := decide) only [or_and, put_and, BitVec.or_zero, BitVec.zero_or, BitVec.reduceAnd]
  rw [major2 (by
    rw [chain_fld _ _ _ _ (by decide)]
    simp (disch := decide) only [fld_or, fld_put_other, BitVec.or_zero]
    try decide)]
  simp (disch := decide) only [decodeMajor2, row_misses e, row_matches e, if_true, Bool.false_eq_true, if_false]
  simp (disch := decide) only [chain_fld, fld_or, fld_put_other, fld_put_self, fld_zero, BitVec.or_zero, BitVec.zero_or]
  try rfl
theorem fminF32 (x0 : BitVec 6) (x1 : BitVec 1) (x2 : BitVec 8) (x3 : BitVec 8) : Statement (.fminF32 x0 x1 x2 x3) := by
  intro w k h
  obtain rfl : 0x11800000#32 ||| put x0 17 ||| put x1 16 ||| put x2 8 ||| put x3 0 = w := Option.some.inj h
  have e : withChain k (0x11800000#32 ||| put x0 17 ||| put x1 16 ||| put x2 8 ||| put x3 0) &&& 0x7F800000#32 = 0x11800000#32 := by
    rw [chain_and _ _ _ (by decide)]
    simp (disch := decide) only [or_and, put_and, BitVec.or_zero, BitVec.zero_or, BitVec.reduceAnd]
  rw [major2 (by
    rw [chain_fld _ _ _ _ (by decide)]
    simp (disch := decide) only [fld_or, fld_put_other, BitVec.or_zero]
    try decide)]
  simp (disch := decide) only [decodeMajor2, row_misses e, row_matches e, if_true, Bool.false_eq_true, if_false]
  simp (disch := decide) only [chain_fld, fld_or, fld_put_other, fld_put_self, fld_zero, BitVec.or_zero, BitVec.zero_or]
  try rfl
theorem fmaxF32 (x0 : BitVec 6) (x1 : BitVec 1) (x2 : BitVec 8) (x3 : BitVec 8) : Statement (.fmaxF32 x0 x1 x2 x3) := by
  intro w k h
  obtain rfl : 0x12000000#32 ||| put x0 17 ||| put x1 16 ||| put x2 8 ||| put x3 0 = w := Option.some.inj h
  have e : withChain k (0x12000000#32 ||| put x0 17 ||| put x1 16 ||| put x2 8 ||| put x3 0) &&& 0x7F800000#32 = 0x12000000#32 := by
    rw [chain_and _ _ _ (by decide)]
    simp (disch := decide) only [or_and, put_and, BitVec.or_zero, BitVec.zero_or, BitVec.reduceAnd]
  rw [major2 (by
    rw [chain_fld _ _ _ _ (by decide)]
    simp (disch := decide) only [fld_or, fld_put_other, BitVec.or_zero]
    try decide)]
  simp (disch := decide) only [decodeMajor2, row_misses e, row_matches e, if_true, Bool.false_eq_true, if_false]
  simp (disch := decide) only [chain_fld, fld_or, fld_put_other, fld_put_self, fld_zero, BitVec.or_zero, BitVec.zero_or]
  try rfl
theorem faddBf16x2 (x0 : BitVec 6) (x1 : BitVec 1) (x2 : BitVec 8) (x3 : BitVec 8) : Statement (.faddBf16x2 x0 x1 x2 x3) := by
  intro w k h
  obtain rfl : 0x12800000#32 ||| put x0 17 ||| put x1 16 ||| put x2 8 ||| put x3 0 = w := Option.some.inj h
  have e : withChain k (0x12800000#32 ||| put x0 17 ||| put x1 16 ||| put x2 8 ||| put x3 0) &&& 0x7F800000#32 = 0x12800000#32 := by
    rw [chain_and _ _ _ (by decide)]
    simp (disch := decide) only [or_and, put_and, BitVec.or_zero, BitVec.zero_or, BitVec.reduceAnd]
  rw [major2 (by
    rw [chain_fld _ _ _ _ (by decide)]
    simp (disch := decide) only [fld_or, fld_put_other, BitVec.or_zero]
    try decide)]
  simp (disch := decide) only [decodeMajor2, row_misses e, row_matches e, if_true, Bool.false_eq_true, if_false]
  simp (disch := decide) only [chain_fld, fld_or, fld_put_other, fld_put_self, fld_zero, BitVec.or_zero, BitVec.zero_or]
  try rfl
theorem fsubBf16x2 (x0 : BitVec 6) (x1 : BitVec 1) (x2 : BitVec 8) (x3 : BitVec 8) : Statement (.fsubBf16x2 x0 x1 x2 x3) := by
  intro w k h
  obtain rfl : 0x13000000#32 ||| put x0 17 ||| put x1 16 ||| put x2 8 ||| put x3 0 = w := Option.some.inj h
  have e : withChain k (0x13000000#32 ||| put x0 17 ||| put x1 16 ||| put x2 8 ||| put x3 0) &&& 0x7F800000#32 = 0x13000000#32 := by
    rw [chain_and _ _ _ (by decide)]
    simp (disch := decide) only [or_and, put_and, BitVec.or_zero, BitVec.zero_or, BitVec.reduceAnd]
  rw [major2 (by
    rw [chain_fld _ _ _ _ (by decide)]
    simp (disch := decide) only [fld_or, fld_put_other, BitVec.or_zero]
    try decide)]
  simp (disch := decide) only [decodeMajor2, row_misses e, row_matches e, if_true, Bool.false_eq_true, if_false]
  simp (disch := decide) only [chain_fld, fld_or, fld_put_other, fld_put_self, fld_zero, BitVec.or_zero, BitVec.zero_or]
  try rfl
theorem fmulBf16x2 (x0 : BitVec 6) (x1 : BitVec 1) (x2 : BitVec 8) (x3 : BitVec 8) : Statement (.fmulBf16x2 x0 x1 x2 x3) := by
  intro w k h
  obtain rfl : 0x13800000#32 ||| put x0 17 ||| put x1 16 ||| put x2 8 ||| put x3 0 = w := Option.some.inj h
  have e : withChain k (0x13800000#32 ||| put x0 17 ||| put x1 16 ||| put x2 8 ||| put x3 0) &&& 0x7F800000#32 = 0x13800000#32 := by
    rw [chain_and _ _ _ (by decide)]
    simp (disch := decide) only [or_and, put_and, BitVec.or_zero, BitVec.zero_or, BitVec.reduceAnd]
  rw [major2 (by
    rw [chain_fld _ _ _ _ (by decide)]
    simp (disch := decide) only [fld_or, fld_put_other, BitVec.or_zero]
    try decide)]
  simp (disch := decide) only [decodeMajor2, row_misses e, row_matches e, if_true, Bool.false_eq_true, if_false]
  simp (disch := decide) only [chain_fld, fld_or, fld_put_other, fld_put_self, fld_zero, BitVec.or_zero, BitVec.zero_or]
  try rfl
theorem fminBf16x2 (x0 : BitVec 6) (x1 : BitVec 1) (x2 : BitVec 8) (x3 : BitVec 8) : Statement (.fminBf16x2 x0 x1 x2 x3) := by
  intro w k h
  obtain rfl : 0x14000000#32 ||| put x0 17 ||| put x1 16 ||| put x2 8 ||| put x3 0 = w := Option.some.inj h
  have e : withChain k (0x14000000#32 ||| put x0 17 ||| put x1 16 ||| put x2 8 ||| put x3 0) &&& 0x7F800000#32 = 0x14000000#32 := by
    rw [chain_and _ _ _ (by decide)]
    simp (disch := decide) only [or_and, put_and, BitVec.or_zero, BitVec.zero_or, BitVec.reduceAnd]
  rw [major2 (by
    rw [chain_fld _ _ _ _ (by decide)]
    simp (disch := decide) only [fld_or, fld_put_other, BitVec.or_zero]
    try decide)]
  simp (disch := decide) only [decodeMajor2, row_misses e, row_matches e, if_true, Bool.false_eq_true, if_false]
  simp (disch := decide) only [chain_fld, fld_or, fld_put_other, fld_put_self, fld_zero, BitVec.or_zero, BitVec.zero_or]
  try rfl
theorem fmaxBf16x2 (x0 : BitVec 6) (x1 : BitVec 1) (x2 : BitVec 8) (x3 : BitVec 8) : Statement (.fmaxBf16x2 x0 x1 x2 x3) := by
  intro w k h
  obtain rfl : 0x14800000#32 ||| put x0 17 ||| put x1 16 ||| put x2 8 ||| put x3 0 = w := Option.some.inj h
  have e : withChain k (0x14800000#32 ||| put x0 17 ||| put x1 16 ||| put x2 8 ||| put x3 0) &&& 0x7F800000#32 = 0x14800000#32 := by
    rw [chain_and _ _ _ (by decide)]
    simp (disch := decide) only [or_and, put_and, BitVec.or_zero, BitVec.zero_or, BitVec.reduceAnd]
  rw [major2 (by
    rw [chain_fld _ _ _ _ (by decide)]
    simp (disch := decide) only [fld_or, fld_put_other, BitVec.or_zero]
    try decide)]
  simp (disch := decide) only [decodeMajor2, row_misses e, row_matches e, if_true, Bool.false_eq_true, if_false]
  simp (disch := decide) only [chain_fld, fld_or, fld_put_other, fld_put_self, fld_zero, BitVec.or_zero, BitVec.zero_or]
  try rfl
theorem faddF16x2 (x0 : BitVec 6) (x1 : BitVec 1) (x2 : BitVec 8) (x3 : BitVec 8) : Statement (.faddF16x2 x0 x1 x2 x3) := by
  intro w k h
  obtain rfl : 0x15000000#32 ||| put x0 17 ||| put x1 16 ||| put x2 8 ||| put x3 0 = w := Option.some.inj h
  have e : withChain k (0x15000000#32 ||| put x0 17 ||| put x1 16 ||| put x2 8 ||| put x3 0) &&& 0x7F800000#32 = 0x15000000#32 := by
    rw [chain_and _ _ _ (by decide)]
    simp (disch := decide) only [or_and, put_and, BitVec.or_zero, BitVec.zero_or, BitVec.reduceAnd]
  rw [major2 (by
    rw [chain_fld _ _ _ _ (by decide)]
    simp (disch := decide) only [fld_or, fld_put_other, BitVec.or_zero]
    try decide)]
  simp (disch := decide) only [decodeMajor2, row_misses e, row_matches e, if_true, Bool.false_eq_true, if_false]
  simp (disch := decide) only [chain_fld, fld_or, fld_put_other, fld_put_self, fld_zero, BitVec.or_zero, BitVec.zero_or]
  try rfl
theorem fsubF16x2 (x0 : BitVec 6) (x1 : BitVec 1) (x2 : BitVec 8) (x3 : BitVec 8) : Statement (.fsubF16x2 x0 x1 x2 x3) := by
  intro w k h
  obtain rfl : 0x15800000#32 ||| put x0 17 ||| put x1 16 ||| put x2 8 ||| put x3 0 = w := Option.some.inj h
  have e : withChain k (0x15800000#32 ||| put x0 17 ||| put x1 16 ||| put x2 8 ||| put x3 0) &&& 0x7F800000#32 = 0x15800000#32 := by
    rw [chain_and _ _ _ (by decide)]
    simp (disch := decide) only [or_and, put_and, BitVec.or_zero, BitVec.zero_or, BitVec.reduceAnd]
  rw [major2 (by
    rw [chain_fld _ _ _ _ (by decide)]
    simp (disch := decide) only [fld_or, fld_put_other, BitVec.or_zero]
    try decide)]
  simp (disch := decide) only [decodeMajor2, row_misses e, row_matches e, if_true, Bool.false_eq_true, if_false]
  simp (disch := decide) only [chain_fld, fld_or, fld_put_other, fld_put_self, fld_zero, BitVec.or_zero, BitVec.zero_or]
  try rfl
theorem fmulF16x2 (x0 : BitVec 6) (x1 : BitVec 1) (x2 : BitVec 8) (x3 : BitVec 8) : Statement (.fmulF16x2 x0 x1 x2 x3) := by
  intro w k h
  obtain rfl : 0x16000000#32 ||| put x0 17 ||| put x1 16 ||| put x2 8 ||| put x3 0 = w := Option.some.inj h
  have e : withChain k (0x16000000#32 ||| put x0 17 ||| put x1 16 ||| put x2 8 ||| put x3 0) &&& 0x7F800000#32 = 0x16000000#32 := by
    rw [chain_and _ _ _ (by decide)]
    simp (disch := decide) only [or_and, put_and, BitVec.or_zero, BitVec.zero_or, BitVec.reduceAnd]
  rw [major2 (by
    rw [chain_fld _ _ _ _ (by decide)]
    simp (disch := decide) only [fld_or, fld_put_other, BitVec.or_zero]
    try decide)]
  simp (disch := decide) only [decodeMajor2, row_misses e, row_matches e, if_true, Bool.false_eq_true, if_false]
  simp (disch := decide) only [chain_fld, fld_or, fld_put_other, fld_put_self, fld_zero, BitVec.or_zero, BitVec.zero_or]
  try rfl
theorem fminF16x2 (x0 : BitVec 6) (x1 : BitVec 1) (x2 : BitVec 8) (x3 : BitVec 8) : Statement (.fminF16x2 x0 x1 x2 x3) := by
  intro w k h
  obtain rfl : 0x16800000#32 ||| put x0 17 ||| put x1 16 ||| put x2 8 ||| put x3 0 = w := Option.some.inj h
  have e : withChain k (0x16800000#32 ||| put x0 17 ||| put x1 16 ||| put x2 8 ||| put x3 0) &&& 0x7F800000#32 = 0x16800000#32 := by
    rw [chain_and _ _ _ (by decide)]
    simp (disch := decide) only [or_and, put_and, BitVec.or_zero, BitVec.zero_or, BitVec.reduceAnd]
  rw [major2 (by
    rw [chain_fld _ _ _ _ (by decide)]
    simp (disch := decide) only [fld_or, fld_put_other, BitVec.or_zero]
    try decide)]
  simp (disch := decide) only [decodeMajor2, row_misses e, row_matches e, if_true, Bool.false_eq_true, if_false]
  simp (disch := decide) only [chain_fld, fld_or, fld_put_other, fld_put_self, fld_zero, BitVec.or_zero, BitVec.zero_or]
  try rfl
theorem fmaxF16x2 (x0 : BitVec 6) (x1 : BitVec 1) (x2 : BitVec 8) (x3 : BitVec 8) : Statement (.fmaxF16x2 x0 x1 x2 x3) := by
  intro w k h
  obtain rfl : 0x17000000#32 ||| put x0 17 ||| put x1 16 ||| put x2 8 ||| put x3 0 = w := Option.some.inj h
  have e : withChain k (0x17000000#32 ||| put x0 17 ||| put x1 16 ||| put x2 8 ||| put x3 0) &&& 0x7F800000#32 = 0x17000000#32 := by
    rw [chain_and _ _ _ (by decide)]
    simp (disch := decide) only [or_and, put_and, BitVec.or_zero, BitVec.zero_or, BitVec.reduceAnd]
  rw [major2 (by
    rw [chain_fld _ _ _ _ (by decide)]
    simp (disch := decide) only [fld_or, fld_put_other, BitVec.or_zero]
    try decide)]
  simp (disch := decide) only [decodeMajor2, row_misses e, row_matches e, if_true, Bool.false_eq_true, if_false]
  simp (disch := decide) only [chain_fld, fld_or, fld_put_other, fld_put_self, fld_zero, BitVec.or_zero, BitVec.zero_or]
  try rfl
theorem frcp (x0 : BitVec 6) (x1 : BitVec 1) (x2 : BitVec 8) (x3 : BitVec 2) : Statement (.frcp x0 x1 x2 x3) := by
  intro w k h
  obtain rfl : 0x17800000#32 ||| put x0 17 ||| put x1 16 ||| put x2 8 ||| put x3 3 = w := Option.some.inj h
  have e : withChain k (0x17800000#32 ||| put x0 17 ||| put x1 16 ||| put x2 8 ||| put x3 3) &&& 0x7F8000E7#32 = 0x17800000#32 := by
    rw [chain_and _ _ _ (by decide)]
    simp (disch := decide) only [or_and, put_and, BitVec.or_zero, BitVec.zero_or, BitVec.reduceAnd]
  rw [major2 (by
    rw [chain_fld _ _ _ _ (by decide)]
    simp (disch := decide) only [fld_or, fld_put_other, BitVec.or_zero]
    try decide)]
  simp (disch := decide) only [decodeMajor2, row_misses e, row_matches e, if_true, Bool.false_eq_true, if_false]
  simp (disch := decide) only [chain_fld, fld_or, fld_put_other, fld_put_self, fld_zero, BitVec.or_zero, BitVec.zero_or]
  try rfl
theorem frsqrt (x0 : BitVec 6) (x1 : BitVec 1) (x2 : BitVec 8) (x3 : BitVec 2) : Statement (.frsqrt x0 x1 x2 x3) := by
  intro w k h
  obtain rfl : 0x17800001#32 ||| put x0 17 ||| put x1 16 ||| put x2 8 ||| put x3 3 = w := Option.some.inj h
  have e : withChain k (0x17800001#32 ||| put x0 17 ||| put x1 16 ||| put x2 8 ||| put x3 3) &&& 0x7F8000E7#32 = 0x17800001#32 := by
    rw [chain_and _ _ _ (by decide)]
    simp (disch := decide) only [or_and, put_and, BitVec.or_zero, BitVec.zero_or, BitVec.reduceAnd]
  rw [major2 (by
    rw [chain_fld _ _ _ _ (by decide)]
    simp (disch := decide) only [fld_or, fld_put_other, BitVec.or_zero]
    try decide)]
  simp (disch := decide) only [decodeMajor2, row_misses e, row_matches e, if_true, Bool.false_eq_true, if_false]
  simp (disch := decide) only [chain_fld, fld_or, fld_put_other, fld_put_self, fld_zero, BitVec.or_zero, BitVec.zero_or]
  try rfl
theorem fsqrt (x0 : BitVec 6) (x1 : BitVec 1) (x2 : BitVec 8) (x3 : BitVec 2) : Statement (.fsqrt x0 x1 x2 x3) := by
  intro w k h
  obtain rfl : 0x17800002#32 ||| put x0 17 ||| put x1 16 ||| put x2 8 ||| put x3 3 = w := Option.some.inj h
  have e : withChain k (0x17800002#32 ||| put x0 17 ||| put x1 16 ||| put x2 8 ||| put x3 3) &&& 0x7F8000E7#32 = 0x17800002#32 := by
    rw [chain_and _ _ _ (by decide)]
    simp (disch := decide) only [or_and, put_and, BitVec.or_zero, BitVec.zero_or, BitVec.reduceAnd]
  rw [major2 (by
    rw [chain_fld _ _ _ _ (by decide)]
    simp (disch := decide) only [fld_or, fld_put_other, BitVec.or_zero]
    try decide)]
  simp (disch := decide) only [decodeMajor2, row_misses e, row_matches e, if_true, Bool.false_eq_true, if_false]
  simp (disch := decide) only [chain_fld, fld_or, fld_put_other, fld_put_self, fld_zero, BitVec.or_zero, BitVec.zero_or]
  try rfl
theorem fexp2 (x0 : BitVec 6) (x1 : BitVec 1) (x2 : BitVec 8) (x3 : BitVec 2) : Statement (.fexp2 x0 x1 x2 x3) := by
  intro w k h
  obtain rfl : 0x17800003#32 ||| put x0 17 ||| put x1 16 ||| put x2 8 ||| put x3 3 = w := Option.some.inj h
  have e : withChain k (0x17800003#32 ||| put x0 17 ||| put x1 16 ||| put x2 8 ||| put x3 3) &&& 0x7F8000E7#32 = 0x17800003#32 := by
    rw [chain_and _ _ _ (by decide)]
    simp (disch := decide) only [or_and, put_and, BitVec.or_zero, BitVec.zero_or, BitVec.reduceAnd]
  rw [major2 (by
    rw [chain_fld _ _ _ _ (by decide)]
    simp (disch := decide) only [fld_or, fld_put_other, BitVec.or_zero]
    try decide)]
  simp (disch := decide) only [decodeMajor2, row_misses e, row_matches e, if_true, Bool.false_eq_true, if_false]
  simp (disch := decide) only [chain_fld, fld_or, fld_put_other, fld_put_self, fld_zero, BitVec.or_zero, BitVec.zero_or]
  try rfl
theorem flog2 (x0 : BitVec 6) (x1 : BitVec 1) (x2 : BitVec 8) (x3 : BitVec 2) : Statement (.flog2 x0 x1 x2 x3) := by
  intro w k h
  obtain rfl : 0x17800004#32 ||| put x0 17 ||| put x1 16 ||| put x2 8 ||| put x3 3 = w := Option.some.inj h
  have e : withChain k (0x17800004#32 ||| put x0 17 ||| put x1 16 ||| put x2 8 ||| put x3 3) &&& 0x7F8000E7#32 = 0x17800004#32 := by
    rw [chain_and _ _ _ (by decide)]
    simp (disch := decide) only [or_and, put_and, BitVec.or_zero, BitVec.zero_or, BitVec.reduceAnd]
  rw [major2 (by
    rw [chain_fld _ _ _ _ (by decide)]
    simp (disch := decide) only [fld_or, fld_put_other, BitVec.or_zero]
    try decide)]
  simp (disch := decide) only [decodeMajor2, row_misses e, row_matches e, if_true, Bool.false_eq_true, if_false]
  simp (disch := decide) only [chain_fld, fld_or, fld_put_other, fld_put_self, fld_zero, BitVec.or_zero, BitVec.zero_or]
  try rfl
theorem fsin (x0 : BitVec 6) (x1 : BitVec 1) (x2 : BitVec 8) (x3 : BitVec 2) : Statement (.fsin x0 x1 x2 x3) := by
  intro w k h
  obtain rfl : 0x17800005#32 ||| put x0 17 ||| put x1 16 ||| put x2 8 ||| put x3 3 = w := Option.some.inj h
  have e : withChain k (0x17800005#32 ||| put x0 17 ||| put x1 16 ||| put x2 8 ||| put x3 3) &&& 0x7F8000E7#32 = 0x17800005#32 := by
    rw [chain_and _ _ _ (by decide)]
    simp (disch := decide) only [or_and, put_and, BitVec.or_zero, BitVec.zero_or, BitVec.reduceAnd]
  rw [major2 (by
    rw [chain_fld _ _ _ _ (by decide)]
    simp (disch := decide) only [fld_or, fld_put_other, BitVec.or_zero]
    try decide)]
  simp (disch := decide) only [decodeMajor2, row_misses e, row_matches e, if_true, Bool.false_eq_true, if_false]
  simp (disch := decide) only [chain_fld, fld_or, fld_put_other, fld_put_self, fld_zero, BitVec.or_zero, BitVec.zero_or]
  try rfl
theorem fcos (x0 : BitVec 6) (x1 : BitVec 1) (x2 : BitVec 8) (x3 : BitVec 2) : Statement (.fcos x0 x1 x2 x3) := by
  intro w k h
  obtain rfl : 0x17800006#32 ||| put x0 17 ||| put x1 16 ||| put x2 8 ||| put x3 3 = w := Option.some.inj h
  have e : withChain k (0x17800006#32 ||| put x0 17 ||| put x1 16 ||| put x2 8 ||| put x3 3) &&& 0x7F8000E7#32 = 0x17800006#32 := by
    rw [chain_and _ _ _ (by decide)]
    simp (disch := decide) only [or_and, put_and, BitVec.or_zero, BitVec.zero_or, BitVec.reduceAnd]
  rw [major2 (by
    rw [chain_fld _ _ _ _ (by decide)]
    simp (disch := decide) only [fld_or, fld_put_other, BitVec.or_zero]
    try decide)]
  simp (disch := decide) only [decodeMajor2, row_misses e, row_matches e, if_true, Bool.false_eq_true, if_false]
  simp (disch := decide) only [chain_fld, fld_or, fld_put_other, fld_put_self, fld_zero, BitVec.or_zero, BitVec.zero_or]
  try rfl
theorem fclass (x0 : BitVec 6) (x1 : BitVec 1) (x2 : BitVec 8) (x3 : BitVec 2) : Statement (.fclass x0 x1 x2 x3) := by
  intro w k h
  obtain rfl : 0x17800007#32 ||| put x0 17 ||| put x1 16 ||| put x2 8 ||| put x3 3 = w := Option.some.inj h
  have e : withChain k (0x17800007#32 ||| put x0 17 ||| put x1 16 ||| put x2 8 ||| put x3 3) &&& 0x7F8000E7#32 = 0x17800007#32 := by
    rw [chain_and _ _ _ (by decide)]
    simp (disch := decide) only [or_and, put_and, BitVec.or_zero, BitVec.zero_or, BitVec.reduceAnd]
  rw [major2 (by
    rw [chain_fld _ _ _ _ (by decide)]
    simp (disch := decide) only [fld_or, fld_put_other, BitVec.or_zero]
    try decide)]
  simp (disch := decide) only [decodeMajor2, row_misses e, row_matches e, if_true, Bool.false_eq_true, if_false]
  simp (disch := decide) only [chain_fld, fld_or, fld_put_other, fld_put_self, fld_zero, BitVec.or_zero, BitVec.zero_or]
  try rfl
theorem ffmaF32 (x0 : BitVec 6) (x1 : BitVec 1) (x2 : BitVec 8) (x3 : BitVec 8) (x4 : BitVec 1) : Statement (.ffmaF32 x0 x1 x2 x3 x4) := by
  intro w k h
  obtain rfl : 0x18000000#32 ||| put x0 18 ||| put x1 17 ||| put x2 9 ||| put x3 1 ||| put x4 0 = w := Option.some.inj h
  have e : withChain k (0x18000000#32 ||| put x0 18 ||| put x1 17 ||| put x2 9 ||| put x3 1 ||| put x4 0) &&& 0x7F000000#32 = 0x18000000#32 := by
    rw [chain_and _ _ _ (by decide)]
    simp (disch := decide) only [or_and, put_and, BitVec.or_zero, BitVec.zero_or, BitVec.reduceAnd]
  rw [major3 (by
    rw [chain_fld _ _ _ _ (by decide)]
    simp (disch := decide) only [fld_or, fld_put_other, BitVec.or_zero]
    try decide)]
  simp (disch := decide) only [decodeMajor3, row_misses e, row_matches e, if_true, Bool.false_eq_true, if_false]
  simp (disch := decide) only [chain_fld, fld_or, fld_put_other, fld_put_self, fld_zero, BitVec.or_zero, BitVec.zero_or]
  try rfl
theorem ffmaBf16x2 (x0 : BitVec 6) (x1 : BitVec 1) (x2 : BitVec 8) (x3 : BitVec 8) (x4 : BitVec 1) : Statement (.ffmaBf16x2 x0 x1 x2 x3 x4) := by
  intro w k h
  obtain rfl : 0x19000000#32 ||| put x0 18 ||| put x1 17 ||| put x2 9 ||| put x3 1 ||| put x4 0 = w := Option.some.inj h
  have e : withChain k (0x19000000#32 ||| put x0 18 ||| put x1 17 ||| put x2 9 ||| put x3 1 ||| put x4 0) &&& 0x7F000000#32 = 0x19000000#32 := by
    rw [chain_and _ _ _ (by decide)]
    simp (disch := decide) only [or_and, put_and, BitVec.or_zero, BitVec.zero_or, BitVec.reduceAnd]
  rw [major3 (by
    rw [chain_fld _ _ _ _ (by decide)]
    simp (disch := decide) only [fld_or, fld_put_other, BitVec.or_zero]
    try decide)]
  simp (disch := decide) only [decodeMajor3, row_misses e, row_matches e, if_true, Bool.false_eq_true, if_false]
  simp (disch := decide) only [chain_fld, fld_or, fld_put_other, fld_put_self, fld_zero, BitVec.or_zero, BitVec.zero_or]
  try rfl
theorem ffmaF16x2 (x0 : BitVec 6) (x1 : BitVec 1) (x2 : BitVec 8) (x3 : BitVec 8) (x4 : BitVec 1) : Statement (.ffmaF16x2 x0 x1 x2 x3 x4) := by
  intro w k h
  obtain rfl : 0x1A000000#32 ||| put x0 18 ||| put x1 17 ||| put x2 9 ||| put x3 1 ||| put x4 0 = w := Option.some.inj h
  have e : withChain k (0x1A000000#32 ||| put x0 18 ||| put x1 17 ||| put x2 9 ||| put x3 1 ||| put x4 0) &&& 0x7F000000#32 = 0x1A000000#32 := by
    rw [chain_and _ _ _ (by decide)]
    simp (disch := decide) only [or_and, put_and, BitVec.or_zero, BitVec.zero_or, BitVec.reduceAnd]
  rw [major3 (by
    rw [chain_fld _ _ _ _ (by decide)]
    simp (disch := decide) only [fld_or, fld_put_other, BitVec.or_zero]
    try decide)]
  simp (disch := decide) only [decodeMajor3, row_misses e, row_matches e, if_true, Bool.false_eq_true, if_false]
  simp (disch := decide) only [chain_fld, fld_or, fld_put_other, fld_put_self, fld_zero, BitVec.or_zero, BitVec.zero_or]
  try rfl
theorem imadLo (x0 : BitVec 6) (x1 : BitVec 1) (x2 : BitVec 8) (x3 : BitVec 8) (x4 : BitVec 1) : Statement (.imadLo x0 x1 x2 x3 x4) := by
  intro w k h
  obtain rfl : 0x1B000000#32 ||| put x0 18 ||| put x1 17 ||| put x2 9 ||| put x3 1 ||| put x4 0 = w := Option.some.inj h
  have e : withChain k (0x1B000000#32 ||| put x0 18 ||| put x1 17 ||| put x2 9 ||| put x3 1 ||| put x4 0) &&& 0x7F000000#32 = 0x1B000000#32 := by
    rw [chain_and _ _ _ (by decide)]
    simp (disch := decide) only [or_and, put_and, BitVec.or_zero, BitVec.zero_or, BitVec.reduceAnd]
  rw [major3 (by
    rw [chain_fld _ _ _ _ (by decide)]
    simp (disch := decide) only [fld_or, fld_put_other, BitVec.or_zero]
    try decide)]
  simp (disch := decide) only [decodeMajor3, row_misses e, row_matches e, if_true, Bool.false_eq_true, if_false]
  simp (disch := decide) only [chain_fld, fld_or, fld_put_other, fld_put_self, fld_zero, BitVec.or_zero, BitVec.zero_or]
  try rfl
theorem imadHi (x0 : BitVec 6) (x1 : BitVec 1) (x2 : BitVec 8) (x3 : BitVec 8) (x4 : BitVec 1) : Statement (.imadHi x0 x1 x2 x3 x4) := by
  intro w k h
  obtain rfl : 0x1C000000#32 ||| put x0 18 ||| put x1 17 ||| put x2 9 ||| put x3 1 ||| put x4 0 = w := Option.some.inj h
  have e : withChain k (0x1C000000#32 ||| put x0 18 ||| put x1 17 ||| put x2 9 ||| put x3 1 ||| put x4 0) &&& 0x7F000000#32 = 0x1C000000#32 := by
    rw [chain_and _ _ _ (by decide)]
    simp (disch := decide) only [or_and, put_and, BitVec.or_zero, BitVec.zero_or, BitVec.reduceAnd]
  rw [major3 (by
    rw [chain_fld _ _ _ _ (by decide)]
    simp (disch := decide) only [fld_or, fld_put_other, BitVec.or_zero]
    try decide)]
  simp (disch := decide) only [decodeMajor3, row_misses e, row_matches e, if_true, Bool.false_eq_true, if_false]
  simp (disch := decide) only [chain_fld, fld_or, fld_put_other, fld_put_self, fld_zero, BitVec.or_zero, BitVec.zero_or]
  try rfl
theorem icmp (x0 : BitVec 3) (x1 : BitVec 3) (x2 : BitVec 8) (x3 : BitVec 8) : Statement (.icmp x0 x1 x2 x3) := by
  intro w k h
  obtain rfl : 0x20000000#32 ||| put x0 20 ||| put x1 17 ||| put x2 8 ||| put x3 0 = w := Option.some.inj h
  have e : withChain k (0x20000000#32 ||| put x0 20 ||| put x1 17 ||| put x2 8 ||| put x3 0) &&& 0x7F810000#32 = 0x20000000#32 := by
    rw [chain_and _ _ _ (by decide)]
    simp (disch := decide) only [or_and, put_and, BitVec.or_zero, BitVec.zero_or, BitVec.reduceAnd]
  rw [major4 (by
    rw [chain_fld _ _ _ _ (by decide)]
    simp (disch := decide) only [fld_or, fld_put_other, BitVec.or_zero]
    try decide)]
  simp (disch := decide) only [decodeMajor4, row_misses e, row_matches e, if_true, Bool.false_eq_true, if_false]
  simp (disch := decide) only [chain_fld, fld_or, fld_put_other, fld_put_self, fld_zero, BitVec.or_zero, BitVec.zero_or]
  try rfl
theorem fcmp (x0 : BitVec 3) (x1 : BitVec 3) (x2 : BitVec 8) (x3 : BitVec 8) : Statement (.fcmp x0 x1 x2 x3) := by
  intro w k h
  obtain rfl : 0x20800000#32 ||| put x0 20 ||| put x1 17 ||| put x2 8 ||| put x3 0 = w := Option.some.inj h
  have e : withChain k (0x20800000#32 ||| put x0 20 ||| put x1 17 ||| put x2 8 ||| put x3 0) &&& 0x7F810000#32 = 0x20800000#32 := by
    rw [chain_and _ _ _ (by decide)]
    simp (disch := decide) only [or_and, put_and, BitVec.or_zero, BitVec.zero_or, BitVec.reduceAnd]
  rw [major4 (by
    rw [chain_fld _ _ _ _ (by decide)]
    simp (disch := decide) only [fld_or, fld_put_other, BitVec.or_zero]
    try decide)]
  simp (disch := decide) only [decodeMajor4, row_misses e, row_matches e, if_true, Bool.false_eq_true, if_false]
  simp (disch := decide) only [chain_fld, fld_or, fld_put_other, fld_put_self, fld_zero, BitVec.or_zero, BitVec.zero_or]
  try rfl
theorem sel0 (d : BitVec 6) (n : BitVec 1) (a b : BitVec 8) : Statement (.sel 0#3 d n a b) := by
  intro w k h
  obtain rfl : 0x20000000#32 ||| put ((0#3).setWidth 4 + 2) 23 ||| put d 17 ||| put n 16 ||| put a 8 ||| put b 0 = w := Option.some.inj h
  rw [show 0x20000000#32 ||| put ((0#3).setWidth 4 + 2) 23 = 0x21000000#32 by decide]
  have e : withChain k (0x21000000#32 ||| put d 17 ||| put n 16 ||| put a 8 ||| put b 0) &&& 0x7F800000#32 = 0x21000000#32 := by
    rw [chain_and _ _ _ (by decide)]
    simp (disch := decide) only [or_and, put_and, BitVec.or_zero, BitVec.zero_or, BitVec.reduceAnd]
  rw [major4 (by
    rw [chain_fld _ _ _ _ (by decide)]
    simp (disch := decide) only [fld_or, fld_put_other, BitVec.or_zero]
    try decide)]
  simp (disch := decide) only [decodeMajor4, row_misses e, row_matches e, if_true, Bool.false_eq_true, if_false]
  simp (disch := decide) only [chain_fld, fld_or, fld_put_other, fld_put_self, fld_zero, BitVec.or_zero, BitVec.zero_or]
  try rfl
theorem sel1 (d : BitVec 6) (n : BitVec 1) (a b : BitVec 8) : Statement (.sel 1#3 d n a b) := by
  intro w k h
  obtain rfl : 0x20000000#32 ||| put ((1#3).setWidth 4 + 2) 23 ||| put d 17 ||| put n 16 ||| put a 8 ||| put b 0 = w := Option.some.inj h
  rw [show 0x20000000#32 ||| put ((1#3).setWidth 4 + 2) 23 = 0x21800000#32 by decide]
  have e : withChain k (0x21800000#32 ||| put d 17 ||| put n 16 ||| put a 8 ||| put b 0) &&& 0x7F800000#32 = 0x21800000#32 := by
    rw [chain_and _ _ _ (by decide)]
    simp (disch := decide) only [or_and, put_and, BitVec.or_zero, BitVec.zero_or, BitVec.reduceAnd]
  rw [major4 (by
    rw [chain_fld _ _ _ _ (by decide)]
    simp (disch := decide) only [fld_or, fld_put_other, BitVec.or_zero]
    try decide)]
  simp (disch := decide) only [decodeMajor4, row_misses e, row_matches e, if_true, Bool.false_eq_true, if_false]
  simp (disch := decide) only [chain_fld, fld_or, fld_put_other, fld_put_self, fld_zero, BitVec.or_zero, BitVec.zero_or]
  try rfl
theorem sel2 (d : BitVec 6) (n : BitVec 1) (a b : BitVec 8) : Statement (.sel 2#3 d n a b) := by
  intro w k h
  obtain rfl : 0x20000000#32 ||| put ((2#3).setWidth 4 + 2) 23 ||| put d 17 ||| put n 16 ||| put a 8 ||| put b 0 = w := Option.some.inj h
  rw [show 0x20000000#32 ||| put ((2#3).setWidth 4 + 2) 23 = 0x22000000#32 by decide]
  have e : withChain k (0x22000000#32 ||| put d 17 ||| put n 16 ||| put a 8 ||| put b 0) &&& 0x7F800000#32 = 0x22000000#32 := by
    rw [chain_and _ _ _ (by decide)]
    simp (disch := decide) only [or_and, put_and, BitVec.or_zero, BitVec.zero_or, BitVec.reduceAnd]
  rw [major4 (by
    rw [chain_fld _ _ _ _ (by decide)]
    simp (disch := decide) only [fld_or, fld_put_other, BitVec.or_zero]
    try decide)]
  simp (disch := decide) only [decodeMajor4, row_misses e, row_matches e, if_true, Bool.false_eq_true, if_false]
  simp (disch := decide) only [chain_fld, fld_or, fld_put_other, fld_put_self, fld_zero, BitVec.or_zero, BitVec.zero_or]
  try rfl
theorem sel3 (d : BitVec 6) (n : BitVec 1) (a b : BitVec 8) : Statement (.sel 3#3 d n a b) := by
  intro w k h
  obtain rfl : 0x20000000#32 ||| put ((3#3).setWidth 4 + 2) 23 ||| put d 17 ||| put n 16 ||| put a 8 ||| put b 0 = w := Option.some.inj h
  rw [show 0x20000000#32 ||| put ((3#3).setWidth 4 + 2) 23 = 0x22800000#32 by decide]
  have e : withChain k (0x22800000#32 ||| put d 17 ||| put n 16 ||| put a 8 ||| put b 0) &&& 0x7F800000#32 = 0x22800000#32 := by
    rw [chain_and _ _ _ (by decide)]
    simp (disch := decide) only [or_and, put_and, BitVec.or_zero, BitVec.zero_or, BitVec.reduceAnd]
  rw [major4 (by
    rw [chain_fld _ _ _ _ (by decide)]
    simp (disch := decide) only [fld_or, fld_put_other, BitVec.or_zero]
    try decide)]
  simp (disch := decide) only [decodeMajor4, row_misses e, row_matches e, if_true, Bool.false_eq_true, if_false]
  simp (disch := decide) only [chain_fld, fld_or, fld_put_other, fld_put_self, fld_zero, BitVec.or_zero, BitVec.zero_or]
  try rfl
theorem sel4 (d : BitVec 6) (n : BitVec 1) (a b : BitVec 8) : Statement (.sel 4#3 d n a b) := by
  intro w k h
  obtain rfl : 0x20000000#32 ||| put ((4#3).setWidth 4 + 2) 23 ||| put d 17 ||| put n 16 ||| put a 8 ||| put b 0 = w := Option.some.inj h
  rw [show 0x20000000#32 ||| put ((4#3).setWidth 4 + 2) 23 = 0x23000000#32 by decide]
  have e : withChain k (0x23000000#32 ||| put d 17 ||| put n 16 ||| put a 8 ||| put b 0) &&& 0x7F800000#32 = 0x23000000#32 := by
    rw [chain_and _ _ _ (by decide)]
    simp (disch := decide) only [or_and, put_and, BitVec.or_zero, BitVec.zero_or, BitVec.reduceAnd]
  rw [major4 (by
    rw [chain_fld _ _ _ _ (by decide)]
    simp (disch := decide) only [fld_or, fld_put_other, BitVec.or_zero]
    try decide)]
  simp (disch := decide) only [decodeMajor4, row_misses e, row_matches e, if_true, Bool.false_eq_true, if_false]
  simp (disch := decide) only [chain_fld, fld_or, fld_put_other, fld_put_self, fld_zero, BitVec.or_zero, BitVec.zero_or]
  try rfl
theorem sel5 (d : BitVec 6) (n : BitVec 1) (a b : BitVec 8) : Statement (.sel 5#3 d n a b) := by
  intro w k h
  obtain rfl : 0x20000000#32 ||| put ((5#3).setWidth 4 + 2) 23 ||| put d 17 ||| put n 16 ||| put a 8 ||| put b 0 = w := Option.some.inj h
  rw [show 0x20000000#32 ||| put ((5#3).setWidth 4 + 2) 23 = 0x23800000#32 by decide]
  have e : withChain k (0x23800000#32 ||| put d 17 ||| put n 16 ||| put a 8 ||| put b 0) &&& 0x7F800000#32 = 0x23800000#32 := by
    rw [chain_and _ _ _ (by decide)]
    simp (disch := decide) only [or_and, put_and, BitVec.or_zero, BitVec.zero_or, BitVec.reduceAnd]
  rw [major4 (by
    rw [chain_fld _ _ _ _ (by decide)]
    simp (disch := decide) only [fld_or, fld_put_other, BitVec.or_zero]
    try decide)]
  simp (disch := decide) only [decodeMajor4, row_misses e, row_matches e, if_true, Bool.false_eq_true, if_false]
  simp (disch := decide) only [chain_fld, fld_or, fld_put_other, fld_put_self, fld_zero, BitVec.or_zero, BitVec.zero_or]
  try rfl
theorem sel6 (d : BitVec 6) (n : BitVec 1) (a b : BitVec 8) : Statement (.sel 6#3 d n a b) := by
  intro w k h
  obtain rfl : 0x20000000#32 ||| put ((6#3).setWidth 4 + 2) 23 ||| put d 17 ||| put n 16 ||| put a 8 ||| put b 0 = w := Option.some.inj h
  rw [show 0x20000000#32 ||| put ((6#3).setWidth 4 + 2) 23 = 0x24000000#32 by decide]
  have e : withChain k (0x24000000#32 ||| put d 17 ||| put n 16 ||| put a 8 ||| put b 0) &&& 0x7F800000#32 = 0x24000000#32 := by
    rw [chain_and _ _ _ (by decide)]
    simp (disch := decide) only [or_and, put_and, BitVec.or_zero, BitVec.zero_or, BitVec.reduceAnd]
  rw [major4 (by
    rw [chain_fld _ _ _ _ (by decide)]
    simp (disch := decide) only [fld_or, fld_put_other, BitVec.or_zero]
    try decide)]
  simp (disch := decide) only [decodeMajor4, row_misses e, row_matches e, if_true, Bool.false_eq_true, if_false]
  simp (disch := decide) only [chain_fld, fld_or, fld_put_other, fld_put_self, fld_zero, BitVec.or_zero, BitVec.zero_or]
  try rfl
theorem sel7 (d : BitVec 6) (n : BitVec 1) (a b : BitVec 8) : Statement (.sel 7#3 d n a b) := by
  intro w k h
  obtain rfl : 0x20000000#32 ||| put ((7#3).setWidth 4 + 2) 23 ||| put d 17 ||| put n 16 ||| put a 8 ||| put b 0 = w := Option.some.inj h
  rw [show 0x20000000#32 ||| put ((7#3).setWidth 4 + 2) 23 = 0x24800000#32 by decide]
  have e : withChain k (0x24800000#32 ||| put d 17 ||| put n 16 ||| put a 8 ||| put b 0) &&& 0x7F800000#32 = 0x24800000#32 := by
    rw [chain_and _ _ _ (by decide)]
    simp (disch := decide) only [or_and, put_and, BitVec.or_zero, BitVec.zero_or, BitVec.reduceAnd]
  rw [major4 (by
    rw [chain_fld _ _ _ _ (by decide)]
    simp (disch := decide) only [fld_or, fld_put_other, BitVec.or_zero]
    try decide)]
  simp (disch := decide) only [decodeMajor4, row_misses e, row_matches e, if_true, Bool.false_eq_true, if_false]
  simp (disch := decide) only [chain_fld, fld_or, fld_put_other, fld_put_self, fld_zero, BitVec.or_zero, BitVec.zero_or]
  try rfl
theorem sel (x0 : BitVec 3) (x1 : BitVec 6) (x2 : BitVec 1) (x3 x4 : BitVec 8) : Statement (.sel x0 x1 x2 x3 x4) := by
  have h : x0 = 0#3 ∨ x0 = 1#3 ∨ x0 = 2#3 ∨ x0 = 3#3 ∨ x0 = 4#3 ∨ x0 = 5#3 ∨ x0 = 6#3 ∨ x0 = 7#3 := by revert x0; decide
  rcases h with rfl | rfl | rfl | rfl | rfl | rfl | rfl | rfl
  exacts [sel0 x1 x2 x3 x4, sel1 x1 x2 x3 x4, sel2 x1 x2 x3 x4, sel3 x1 x2 x3 x4, sel4 x1 x2 x3 x4, sel5 x1 x2 x3 x4,
    sel6 x1 x2 x3 x4, sel7 x1 x2 x3 x4]
theorem pand (x0 : BitVec 3) (x1 : BitVec 3) (x2 : BitVec 3) : Statement (.pand x0 x1 x2) := by
  intro w k h
  obtain rfl : 0x25000000#32 ||| put x0 17 ||| put x1 8 ||| put x2 0 = w := Option.some.inj h
  have e : withChain k (0x25000000#32 ||| put x0 17 ||| put x1 8 ||| put x2 0) &&& 0x7FF1F8F8#32 = 0x25000000#32 := by
    rw [chain_and _ _ _ (by decide)]
    simp (disch := decide) only [or_and, put_and, BitVec.or_zero, BitVec.zero_or, BitVec.reduceAnd]
  rw [major4 (by
    rw [chain_fld _ _ _ _ (by decide)]
    simp (disch := decide) only [fld_or, fld_put_other, BitVec.or_zero]
    try decide)]
  simp (disch := decide) only [decodeMajor4, row_misses e, row_matches e, if_true, Bool.false_eq_true, if_false]
  simp (disch := decide) only [chain_fld, fld_or, fld_put_other, fld_put_self, fld_zero, BitVec.or_zero, BitVec.zero_or]
  try rfl
theorem por (x0 : BitVec 3) (x1 : BitVec 3) (x2 : BitVec 3) : Statement (.por x0 x1 x2) := by
  intro w k h
  obtain rfl : 0x25800000#32 ||| put x0 17 ||| put x1 8 ||| put x2 0 = w := Option.some.inj h
  have e : withChain k (0x25800000#32 ||| put x0 17 ||| put x1 8 ||| put x2 0) &&& 0x7FF1F8F8#32 = 0x25800000#32 := by
    rw [chain_and _ _ _ (by decide)]
    simp (disch := decide) only [or_and, put_and, BitVec.or_zero, BitVec.zero_or, BitVec.reduceAnd]
  rw [major4 (by
    rw [chain_fld _ _ _ _ (by decide)]
    simp (disch := decide) only [fld_or, fld_put_other, BitVec.or_zero]
    try decide)]
  simp (disch := decide) only [decodeMajor4, row_misses e, row_matches e, if_true, Bool.false_eq_true, if_false]
  simp (disch := decide) only [chain_fld, fld_or, fld_put_other, fld_put_self, fld_zero, BitVec.or_zero, BitVec.zero_or]
  try rfl
theorem pxor (x0 : BitVec 3) (x1 : BitVec 3) (x2 : BitVec 3) : Statement (.pxor x0 x1 x2) := by
  intro w k h
  obtain rfl : 0x26000000#32 ||| put x0 17 ||| put x1 8 ||| put x2 0 = w := Option.some.inj h
  have e : withChain k (0x26000000#32 ||| put x0 17 ||| put x1 8 ||| put x2 0) &&& 0x7FF1F8F8#32 = 0x26000000#32 := by
    rw [chain_and _ _ _ (by decide)]
    simp (disch := decide) only [or_and, put_and, BitVec.or_zero, BitVec.zero_or, BitVec.reduceAnd]
  rw [major4 (by
    rw [chain_fld _ _ _ _ (by decide)]
    simp (disch := decide) only [fld_or, fld_put_other, BitVec.or_zero]
    try decide)]
  simp (disch := decide) only [decodeMajor4, row_misses e, row_matches e, if_true, Bool.false_eq_true, if_false]
  simp (disch := decide) only [chain_fld, fld_or, fld_put_other, fld_put_self, fld_zero, BitVec.or_zero, BitVec.zero_or]
  try rfl
theorem pnot (x0 : BitVec 3) (x1 : BitVec 3) : Statement (.pnot x0 x1) := by
  intro w k h
  obtain rfl : 0x26800000#32 ||| put x0 17 ||| put x1 8 = w := Option.some.inj h
  have e : withChain k (0x26800000#32 ||| put x0 17 ||| put x1 8) &&& 0x7FF1F8FF#32 = 0x26800000#32 := by
    rw [chain_and _ _ _ (by decide)]
    simp (disch := decide) only [or_and, put_and, BitVec.or_zero, BitVec.zero_or, BitVec.reduceAnd]
  rw [major4 (by
    rw [chain_fld _ _ _ _ (by decide)]
    simp (disch := decide) only [fld_or, fld_put_other, BitVec.or_zero]
    try decide)]
  simp (disch := decide) only [decodeMajor4, row_misses e, row_matches e, if_true, Bool.false_eq_true, if_false]
  simp (disch := decide) only [chain_fld, fld_or, fld_put_other, fld_put_self, fld_zero, BitVec.or_zero, BitVec.zero_or]
  try rfl
theorem ptest (x0 : BitVec 3) (x1 : BitVec 3) (x2 : BitVec 3) : Statement (.ptest x0 x1 x2) := by
  intro w k h
  obtain rfl : 0x27000000#32 ||| put x0 20 ||| put x1 17 ||| put x2 8 = w := Option.some.inj h
  have e : withChain k (0x27000000#32 ||| put x0 20 ||| put x1 17 ||| put x2 8) &&& 0x7F81F8FF#32 = 0x27000000#32 := by
    rw [chain_and _ _ _ (by decide)]
    simp (disch := decide) only [or_and, put_and, BitVec.or_zero, BitVec.zero_or, BitVec.reduceAnd]
  rw [major4 (by
    rw [chain_fld _ _ _ _ (by decide)]
    simp (disch := decide) only [fld_or, fld_put_other, BitVec.or_zero]
    try decide)]
  simp (disch := decide) only [decodeMajor4, row_misses e, row_matches e, if_true, Bool.false_eq_true, if_false]
  simp (disch := decide) only [chain_fld, fld_or, fld_put_other, fld_put_self, fld_zero, BitVec.or_zero, BitVec.zero_or]
  try rfl
theorem mov (x0 : BitVec 6) (x1 : BitVec 1) (x2 : BitVec 8) : Statement (.mov x0 x1 x2) := by
  intro w k h
  obtain rfl : 0x28000000#32 ||| put x0 17 ||| put x1 16 ||| put x2 8 = w := Option.some.inj h
  have e : withChain k (0x28000000#32 ||| put x0 17 ||| put x1 16 ||| put x2 8) &&& 0x7F8000FF#32 = 0x28000000#32 := by
    rw [chain_and _ _ _ (by decide)]
    simp (disch := decide) only [or_and, put_and, BitVec.or_zero, BitVec.zero_or, BitVec.reduceAnd]
  rw [major5 (by
    rw [chain_fld _ _ _ _ (by decide)]
    simp (disch := decide) only [fld_or, fld_put_other, BitVec.or_zero]
    try decide)]
  simp (disch := decide) only [decodeMajor5, row_misses e, row_matches e, if_true, Bool.false_eq_true, if_false]
  simp (disch := decide) only [chain_fld, fld_or, fld_put_other, fld_put_self, fld_zero, BitVec.or_zero, BitVec.zero_or]
  try rfl
theorem li (x0 : BitVec 6) (x1 : BitVec 1) (x2 : BitVec 16) : Statement (.li x0 x1 x2) := by
  intro w k h
  obtain rfl : 0x28800000#32 ||| put x0 17 ||| put x1 16 ||| put x2 0 = w := Option.some.inj h
  have e : withChain k (0x28800000#32 ||| put x0 17 ||| put x1 16 ||| put x2 0) &&& 0x7F800000#32 = 0x28800000#32 := by
    rw [chain_and _ _ _ (by decide)]
    simp (disch := decide) only [or_and, put_and, BitVec.or_zero, BitVec.zero_or, BitVec.reduceAnd]
  rw [major5 (by
    rw [chain_fld _ _ _ _ (by decide)]
    simp (disch := decide) only [fld_or, fld_put_other, BitVec.or_zero]
    try decide)]
  simp (disch := decide) only [decodeMajor5, row_misses e, row_matches e, if_true, Bool.false_eq_true, if_false]
  simp (disch := decide) only [chain_fld, fld_or, fld_put_other, fld_put_self, fld_zero, BitVec.or_zero, BitVec.zero_or]
  try rfl
theorem cvt (x0 : BitVec 6) (x1 : BitVec 1) (x2 : BitVec 8) (x3 : BitVec 8) : Statement (.cvt x0 x1 x2 x3) := by
  intro w k h
  obtain rfl : 0x29000000#32 ||| put x0 17 ||| put x1 16 ||| put x2 8 ||| put x3 0 = w := Option.some.inj h
  have e : withChain k (0x29000000#32 ||| put x0 17 ||| put x1 16 ||| put x2 8 ||| put x3 0) &&& 0x7F800000#32 = 0x29000000#32 := by
    rw [chain_and _ _ _ (by decide)]
    simp (disch := decide) only [or_and, put_and, BitVec.or_zero, BitVec.zero_or, BitVec.reduceAnd]
  rw [major5 (by
    rw [chain_fld _ _ _ _ (by decide)]
    simp (disch := decide) only [fld_or, fld_put_other, BitVec.or_zero]
    try decide)]
  simp (disch := decide) only [decodeMajor5, row_misses e, row_matches e, if_true, Bool.false_eq_true, if_false]
  simp (disch := decide) only [chain_fld, fld_or, fld_put_other, fld_put_self, fld_zero, BitVec.or_zero, BitVec.zero_or]
  try rfl
theorem shfl (x0 : BitVec 6) (x1 : BitVec 1) (x2 : BitVec 8) (x3 : BitVec 1) (x4 : BitVec 2) (x5 : BitVec 5) : Statement (.shfl x0 x1 x2 x3 x4 x5) := by
  intro w k h
  obtain rfl : 0x29800000#32 ||| put x0 17 ||| put x1 16 ||| put x2 8 ||| put x3 7 ||| put x4 5 ||| put x5 0 = w := Option.some.inj h
  have e : withChain k (0x29800000#32 ||| put x0 17 ||| put x1 16 ||| put x2 8 ||| put x3 7 ||| put x4 5 ||| put x5 0) &&& 0x7F800000#32 = 0x29800000#32 := by
    rw [chain_and _ _ _ (by decide)]
    simp (disch := decide) only [or_and, put_and, BitVec.or_zero, BitVec.zero_or, BitVec.reduceAnd]
  rw [major5 (by
    rw [chain_fld _ _ _ _ (by decide)]
    simp (disch := decide) only [fld_or, fld_put_other, BitVec.or_zero]
    try decide)]
  simp (disch := decide) only [decodeMajor5, row_misses e, row_matches e, if_true, Bool.false_eq_true, if_false]
  simp (disch := decide) only [chain_fld, fld_or, fld_put_other, fld_put_self, fld_zero, BitVec.or_zero, BitVec.zero_or]
  try rfl
theorem voteAny (x0 : BitVec 3) (x1 : BitVec 3) : Statement (.voteAny x0 x1) := by
  intro w k h
  obtain rfl : 0x2A000000#32 ||| put x0 17 ||| put x1 0 = w := Option.some.inj h
  have e : withChain k (0x2A000000#32 ||| put x0 17 ||| put x1 0) &&& 0x7FF1FFF8#32 = 0x2A000000#32 := by
    rw [chain_and _ _ _ (by decide)]
    simp (disch := decide) only [or_and, put_and, BitVec.or_zero, BitVec.zero_or, BitVec.reduceAnd]
  rw [major5 (by
    rw [chain_fld _ _ _ _ (by decide)]
    simp (disch := decide) only [fld_or, fld_put_other, BitVec.or_zero]
    try decide)]
  simp (disch := decide) only [decodeMajor5, row_misses e, row_matches e, if_true, Bool.false_eq_true, if_false]
  simp (disch := decide) only [chain_fld, fld_or, fld_put_other, fld_put_self, fld_zero, BitVec.or_zero, BitVec.zero_or]
  try rfl
theorem voteAll (x0 : BitVec 3) (x1 : BitVec 3) : Statement (.voteAll x0 x1) := by
  intro w k h
  obtain rfl : 0x2A000008#32 ||| put x0 17 ||| put x1 0 = w := Option.some.inj h
  have e : withChain k (0x2A000008#32 ||| put x0 17 ||| put x1 0) &&& 0x7FF1FFF8#32 = 0x2A000008#32 := by
    rw [chain_and _ _ _ (by decide)]
    simp (disch := decide) only [or_and, put_and, BitVec.or_zero, BitVec.zero_or, BitVec.reduceAnd]
  rw [major5 (by
    rw [chain_fld _ _ _ _ (by decide)]
    simp (disch := decide) only [fld_or, fld_put_other, BitVec.or_zero]
    try decide)]
  simp (disch := decide) only [decodeMajor5, row_misses e, row_matches e, if_true, Bool.false_eq_true, if_false]
  simp (disch := decide) only [chain_fld, fld_or, fld_put_other, fld_put_self, fld_zero, BitVec.or_zero, BitVec.zero_or]
  try rfl
theorem voteBallot (x0 : BitVec 6) (x1 : BitVec 1) (x2 : BitVec 3) : Statement (.voteBallot x0 x1 x2) := by
  intro w k h
  obtain rfl : 0x2A000010#32 ||| put x0 17 ||| put x1 16 ||| put x2 0 = w := Option.some.inj h
  have e : withChain k (0x2A000010#32 ||| put x0 17 ||| put x1 16 ||| put x2 0) &&& 0x7F80FFF8#32 = 0x2A000010#32 := by
    rw [chain_and _ _ _ (by decide)]
    simp (disch := decide) only [or_and, put_and, BitVec.or_zero, BitVec.zero_or, BitVec.reduceAnd]
  rw [major5 (by
    rw [chain_fld _ _ _ _ (by decide)]
    simp (disch := decide) only [fld_or, fld_put_other, BitVec.or_zero]
    try decide)]
  simp (disch := decide) only [decodeMajor5, row_misses e, row_matches e, if_true, Bool.false_eq_true, if_false]
  simp (disch := decide) only [chain_fld, fld_or, fld_put_other, fld_put_self, fld_zero, BitVec.or_zero, BitVec.zero_or]
  try rfl
theorem edge (x0 : BitVec 2) : Statement (.edge x0) := by
  intro w k h
  obtain rfl : 0x2A800000#32 ||| put x0 0 = w := Option.some.inj h
  have e : withChain k (0x2A800000#32 ||| put x0 0) &&& 0x7FFFFFFC#32 = 0x2A800000#32 := by
    rw [chain_and _ _ _ (by decide)]
    simp (disch := decide) only [or_and, put_and, BitVec.or_zero, BitVec.zero_or, BitVec.reduceAnd]
  rw [major5 (by
    rw [chain_fld _ _ _ _ (by decide)]
    simp (disch := decide) only [fld_or, fld_put_other, BitVec.or_zero]
    try decide)]
  simp (disch := decide) only [decodeMajor5, row_misses e, row_matches e, if_true, Bool.false_eq_true, if_false]
  simp (disch := decide) only [chain_fld, fld_or, fld_put_other, fld_put_self, fld_zero, BitVec.or_zero, BitVec.zero_or]
  try rfl
theorem idxSet (x0 : BitVec 2) (x1 : BitVec 8) : Statement (.idxSet x0 x1) := by
  intro w k h
  obtain rfl : 0x2A800020#32 ||| put x0 17 ||| put x1 8 = w := Option.some.inj h
  have e : withChain k (0x2A800020#32 ||| put x0 17 ||| put x1 8) &&& 0x7FF900FF#32 = 0x2A800020#32 := by
    rw [chain_and _ _ _ (by decide)]
    simp (disch := decide) only [or_and, put_and, BitVec.or_zero, BitVec.zero_or, BitVec.reduceAnd]
  rw [major5 (by
    rw [chain_fld _ _ _ _ (by decide)]
    simp (disch := decide) only [fld_or, fld_put_other, BitVec.or_zero]
    try decide)]
  simp (disch := decide) only [decodeMajor5, row_misses e, row_matches e, if_true, Bool.false_eq_true, if_false]
  simp (disch := decide) only [chain_fld, fld_or, fld_put_other, fld_put_self, fld_zero, BitVec.or_zero, BitVec.zero_or]
  try rfl
theorem idxAdd (x0 : BitVec 2) (x1 : BitVec 8) : Statement (.idxAdd x0 x1) := by
  intro w k h
  obtain rfl : 0x2A800040#32 ||| put x0 17 ||| put x1 8 = w := Option.some.inj h
  have e : withChain k (0x2A800040#32 ||| put x0 17 ||| put x1 8) &&& 0x7FF900FF#32 = 0x2A800040#32 := by
    rw [chain_and _ _ _ (by decide)]
    simp (disch := decide) only [or_and, put_and, BitVec.or_zero, BitVec.zero_or, BitVec.reduceAnd]
  rw [major5 (by
    rw [chain_fld _ _ _ _ (by decide)]
    simp (disch := decide) only [fld_or, fld_put_other, BitVec.or_zero]
    try decide)]
  simp (disch := decide) only [decodeMajor5, row_misses e, row_matches e, if_true, Bool.false_eq_true, if_false]
  simp (disch := decide) only [chain_fld, fld_or, fld_put_other, fld_put_self, fld_zero, BitVec.or_zero, BitVec.zero_or]
  try rfl
theorem rgnPf (x0 : BitVec 5) : Statement (.rgnPf x0) := by
  intro w k h
  obtain rfl : 0x2A800060#32 ||| put x0 0 = w := Option.some.inj h
  have e : withChain k (0x2A800060#32 ||| put x0 0) &&& 0x7FFFFFE0#32 = 0x2A800060#32 := by
    rw [chain_and _ _ _ (by decide)]
    simp (disch := decide) only [or_and, put_and, BitVec.or_zero, BitVec.zero_or, BitVec.reduceAnd]
  rw [major5 (by
    rw [chain_fld _ _ _ _ (by decide)]
    simp (disch := decide) only [fld_or, fld_put_other, BitVec.or_zero]
    try decide)]
  simp (disch := decide) only [decodeMajor5, row_misses e, row_matches e, if_true, Bool.false_eq_true, if_false]
  simp (disch := decide) only [chain_fld, fld_or, fld_put_other, fld_put_self, fld_zero, BitVec.or_zero, BitVec.zero_or]
  try rfl
theorem rgrow (x0 : BitVec 3) : Statement (.rgrow x0) := by
  intro w k h
  obtain rfl : 0x2A800080#32 ||| put x0 0 = w := Option.some.inj h
  have e : withChain k (0x2A800080#32 ||| put x0 0) &&& 0x7FFFFFF8#32 = 0x2A800080#32 := by
    rw [chain_and _ _ _ (by decide)]
    simp (disch := decide) only [or_and, put_and, BitVec.or_zero, BitVec.zero_or, BitVec.reduceAnd]
  rw [major5 (by
    rw [chain_fld _ _ _ _ (by decide)]
    simp (disch := decide) only [fld_or, fld_put_other, BitVec.or_zero]
    try decide)]
  simp (disch := decide) only [decodeMajor5, row_misses e, row_matches e, if_true, Bool.false_eq_true, if_false]
  simp (disch := decide) only [chain_fld, fld_or, fld_put_other, fld_put_self, fld_zero, BitVec.or_zero, BitVec.zero_or]
  try rfl
theorem rshrink (x0 : BitVec 3) : Statement (.rshrink x0) := by
  intro w k h
  obtain rfl : 0x2A8000A0#32 ||| put x0 0 = w := Option.some.inj h
  have e : withChain k (0x2A8000A0#32 ||| put x0 0) &&& 0x7FFFFFF8#32 = 0x2A8000A0#32 := by
    rw [chain_and _ _ _ (by decide)]
    simp (disch := decide) only [or_and, put_and, BitVec.or_zero, BitVec.zero_or, BitVec.reduceAnd]
  rw [major5 (by
    rw [chain_fld _ _ _ _ (by decide)]
    simp (disch := decide) only [fld_or, fld_put_other, BitVec.or_zero]
    try decide)]
  simp (disch := decide) only [decodeMajor5, row_misses e, row_matches e, if_true, Bool.false_eq_true, if_false]
  simp (disch := decide) only [chain_fld, fld_or, fld_put_other, fld_put_self, fld_zero, BitVec.or_zero, BitVec.zero_or]
  try rfl
theorem rdsp (x0 : BitVec 6) (x1 : BitVec 1) (x2 : BitVec 5) : Statement (.rdsp x0 x1 x2) := by
  intro w k h
  obtain rfl : 0x2A8000C0#32 ||| put x0 17 ||| put x1 16 ||| put x2 0 = w := Option.some.inj h
  have e : withChain k (0x2A8000C0#32 ||| put x0 17 ||| put x1 16 ||| put x2 0) &&& 0x7F80FFE0#32 = 0x2A8000C0#32 := by
    rw [chain_and _ _ _ (by decide)]
    simp (disch := decide) only [or_and, put_and, BitVec.or_zero, BitVec.zero_or, BitVec.reduceAnd]
  rw [major5 (by
    rw [chain_fld _ _ _ _ (by decide)]
    simp (disch := decide) only [fld_or, fld_put_other, BitVec.or_zero]
    try decide)]
  simp (disch := decide) only [decodeMajor5, row_misses e, row_matches e, if_true, Bool.false_eq_true, if_false]
  simp (disch := decide) only [chain_fld, fld_or, fld_put_other, fld_put_self, fld_zero, BitVec.or_zero, BitVec.zero_or]
  try rfl
theorem ldX (x0 : BitVec 6) (x1 : BitVec 1) (x2 : BitVec 2) : Statement (.ldX x0 x1 x2) := by
  intro w k h
  obtain rfl : 0x2B000000#32 ||| put x0 17 ||| put x1 16 ||| put x2 0 = w := Option.some.inj h
  have e : withChain k (0x2B000000#32 ||| put x0 17 ||| put x1 16 ||| put x2 0) &&& 0x7F80FFFC#32 = 0x2B000000#32 := by
    rw [chain_and _ _ _ (by decide)]
    simp (disch := decide) only [or_and, put_and, BitVec.or_zero, BitVec.zero_or, BitVec.reduceAnd]
  rw [major5 (by
    rw [chain_fld _ _ _ _ (by decide)]
    simp (disch := decide) only [fld_or, fld_put_other, BitVec.or_zero]
    try decide)]
  simp (disch := decide) only [decodeMajor5, row_misses e, row_matches e, if_true, Bool.false_eq_true, if_false]
  simp (disch := decide) only [chain_fld, fld_or, fld_put_other, fld_put_self, fld_zero, BitVec.or_zero, BitVec.zero_or]
  try rfl
theorem stX (x0 : BitVec 2) (x1 : BitVec 8) : Statement (.stX x0 x1) := by
  intro w k h
  obtain rfl : 0x2B800000#32 ||| put x0 17 ||| put x1 8 = w := Option.some.inj h
  have e : withChain k (0x2B800000#32 ||| put x0 17 ||| put x1 8) &&& 0x7FF900FF#32 = 0x2B800000#32 := by
    rw [chain_and _ _ _ (by decide)]
    simp (disch := decide) only [or_and, put_and, BitVec.or_zero, BitVec.zero_or, BitVec.reduceAnd]
  rw [major5 (by
    rw [chain_fld _ _ _ _ (by decide)]
    simp (disch := decide) only [fld_or, fld_put_other, BitVec.or_zero]
    try decide)]
  simp (disch := decide) only [decodeMajor5, row_misses e, row_matches e, if_true, Bool.false_eq_true, if_false]
  simp (disch := decide) only [chain_fld, fld_or, fld_put_other, fld_put_self, fld_zero, BitVec.or_zero, BitVec.zero_or]
  try rfl
theorem lih (x0 : BitVec 5) (x1 : BitVec 21) : Statement (.lih x0 x1) := by
  intro w k h
  obtain rfl : 0x2C000000#32 ||| put x0 21 ||| put x1 0 = w := Option.some.inj h
  have e : withChain k (0x2C000000#32 ||| put x0 21 ||| put x1 0) &&& 0x7C000000#32 = 0x2C000000#32 := by
    rw [chain_and _ _ _ (by decide)]
    simp (disch := decide) only [or_and, put_and, BitVec.or_zero, BitVec.zero_or, BitVec.reduceAnd]
  rw [major5 (by
    rw [chain_fld _ _ _ _ (by decide)]
    simp (disch := decide) only [fld_or, fld_put_other, BitVec.or_zero]
    try decide)]
  simp (disch := decide) only [decodeMajor5, row_misses e, row_matches e, if_true, Bool.false_eq_true, if_false]
  simp (disch := decide) only [chain_fld, fld_or, fld_put_other, fld_put_self, fld_zero, BitVec.or_zero, BitVec.zero_or]
  try rfl
theorem ldB8Z (x0 : BitVec 4) (x1 : BitVec 6) (x2 : BitVec 3) (x3 : BitVec 6) (x4 : BitVec 5) : Statement (.ldB8Z x0 x1 x2 x3 x4) := by
  intro w k h
  obtain rfl : 0x30000000#32 ||| put x0 20 ||| put x1 14 ||| put x2 11 ||| put x3 5 ||| put x4 0 = w := Option.some.inj h
  have e : withChain k (0x30000000#32 ||| put x0 20 ||| put x1 14 ||| put x2 11 ||| put x3 5 ||| put x4 0) &&& 0x7F000000#32 = 0x30000000#32 := by
    rw [chain_and _ _ _ (by decide)]
    simp (disch := decide) only [or_and, put_and, BitVec.or_zero, BitVec.zero_or, BitVec.reduceAnd]
  rw [major6 (by
    rw [chain_fld _ _ _ _ (by decide)]
    simp (disch := decide) only [fld_or, fld_put_other, BitVec.or_zero]
    try decide)]
  simp (disch := decide) only [decodeMajor6, row_misses e, row_matches e, if_true, Bool.false_eq_true, if_false]
  simp (disch := decide) only [chain_fld, fld_or, fld_put_other, fld_put_self, fld_zero, BitVec.or_zero, BitVec.zero_or]
  try rfl
theorem ldB8S (x0 : BitVec 4) (x1 : BitVec 6) (x2 : BitVec 3) (x3 : BitVec 6) (x4 : BitVec 5) : Statement (.ldB8S x0 x1 x2 x3 x4) := by
  intro w k h
  obtain rfl : 0x31000000#32 ||| put x0 20 ||| put x1 14 ||| put x2 11 ||| put x3 5 ||| put x4 0 = w := Option.some.inj h
  have e : withChain k (0x31000000#32 ||| put x0 20 ||| put x1 14 ||| put x2 11 ||| put x3 5 ||| put x4 0) &&& 0x7F000000#32 = 0x31000000#32 := by
    rw [chain_and _ _ _ (by decide)]
    simp (disch := decide) only [or_and, put_and, BitVec.or_zero, BitVec.zero_or, BitVec.reduceAnd]
  rw [major6 (by
    rw [chain_fld _ _ _ _ (by decide)]
    simp (disch := decide) only [fld_or, fld_put_other, BitVec.or_zero]
    try decide)]
  simp (disch := decide) only [decodeMajor6, row_misses e, row_matches e, if_true, Bool.false_eq_true, if_false]
  simp (disch := decide) only [chain_fld, fld_or, fld_put_other, fld_put_self, fld_zero, BitVec.or_zero, BitVec.zero_or]
  try rfl
theorem ldB16Z (x0 : BitVec 4) (x1 : BitVec 6) (x2 : BitVec 3) (x3 : BitVec 6) (x4 : BitVec 5) : Statement (.ldB16Z x0 x1 x2 x3 x4) := by
  intro w k h
  obtain rfl : 0x32000000#32 ||| put x0 20 ||| put x1 14 ||| put x2 11 ||| put x3 5 ||| put x4 0 = w := Option.some.inj h
  have e : withChain k (0x32000000#32 ||| put x0 20 ||| put x1 14 ||| put x2 11 ||| put x3 5 ||| put x4 0) &&& 0x7F000000#32 = 0x32000000#32 := by
    rw [chain_and _ _ _ (by decide)]
    simp (disch := decide) only [or_and, put_and, BitVec.or_zero, BitVec.zero_or, BitVec.reduceAnd]
  rw [major6 (by
    rw [chain_fld _ _ _ _ (by decide)]
    simp (disch := decide) only [fld_or, fld_put_other, BitVec.or_zero]
    try decide)]
  simp (disch := decide) only [decodeMajor6, row_misses e, row_matches e, if_true, Bool.false_eq_true, if_false]
  simp (disch := decide) only [chain_fld, fld_or, fld_put_other, fld_put_self, fld_zero, BitVec.or_zero, BitVec.zero_or]
  try rfl
theorem ldB16S (x0 : BitVec 4) (x1 : BitVec 6) (x2 : BitVec 3) (x3 : BitVec 6) (x4 : BitVec 5) : Statement (.ldB16S x0 x1 x2 x3 x4) := by
  intro w k h
  obtain rfl : 0x33000000#32 ||| put x0 20 ||| put x1 14 ||| put x2 11 ||| put x3 5 ||| put x4 0 = w := Option.some.inj h
  have e : withChain k (0x33000000#32 ||| put x0 20 ||| put x1 14 ||| put x2 11 ||| put x3 5 ||| put x4 0) &&& 0x7F000000#32 = 0x33000000#32 := by
    rw [chain_and _ _ _ (by decide)]
    simp (disch := decide) only [or_and, put_and, BitVec.or_zero, BitVec.zero_or, BitVec.reduceAnd]
  rw [major6 (by
    rw [chain_fld _ _ _ _ (by decide)]
    simp (disch := decide) only [fld_or, fld_put_other, BitVec.or_zero]
    try decide)]
  simp (disch := decide) only [decodeMajor6, row_misses e, row_matches e, if_true, Bool.false_eq_true, if_false]
  simp (disch := decide) only [chain_fld, fld_or, fld_put_other, fld_put_self, fld_zero, BitVec.or_zero, BitVec.zero_or]
  try rfl
theorem ldB32 (x0 : BitVec 4) (x1 : BitVec 6) (x2 : BitVec 3) (x3 : BitVec 6) (x4 : BitVec 5) : Statement (.ldB32 x0 x1 x2 x3 x4) := by
  intro w k h
  obtain rfl : 0x34000000#32 ||| put x0 20 ||| put x1 14 ||| put x2 11 ||| put x3 5 ||| put x4 0 = w := Option.some.inj h
  have e : withChain k (0x34000000#32 ||| put x0 20 ||| put x1 14 ||| put x2 11 ||| put x3 5 ||| put x4 0) &&& 0x7F000000#32 = 0x34000000#32 := by
    rw [chain_and _ _ _ (by decide)]
    simp (disch := decide) only [or_and, put_and, BitVec.or_zero, BitVec.zero_or, BitVec.reduceAnd]
  rw [major6 (by
    rw [chain_fld _ _ _ _ (by decide)]
    simp (disch := decide) only [fld_or, fld_put_other, BitVec.or_zero]
    try decide)]
  simp (disch := decide) only [decodeMajor6, row_misses e, row_matches e, if_true, Bool.false_eq_true, if_false]
  simp (disch := decide) only [chain_fld, fld_or, fld_put_other, fld_put_self, fld_zero, BitVec.or_zero, BitVec.zero_or]
  try rfl
theorem ldB64 (x0 : BitVec 4) (x1 : BitVec 6) (x2 : BitVec 3) (x3 : BitVec 6) (x4 : BitVec 5) : Statement (.ldB64 x0 x1 x2 x3 x4) := by
  intro w k h
  obtain rfl : 0x35000000#32 ||| put x0 20 ||| put x1 14 ||| put x2 11 ||| put x3 5 ||| put x4 0 = w := Option.some.inj h
  have e : withChain k (0x35000000#32 ||| put x0 20 ||| put x1 14 ||| put x2 11 ||| put x3 5 ||| put x4 0) &&& 0x7F000000#32 = 0x35000000#32 := by
    rw [chain_and _ _ _ (by decide)]
    simp (disch := decide) only [or_and, put_and, BitVec.or_zero, BitVec.zero_or, BitVec.reduceAnd]
  rw [major6 (by
    rw [chain_fld _ _ _ _ (by decide)]
    simp (disch := decide) only [fld_or, fld_put_other, BitVec.or_zero]
    try decide)]
  simp (disch := decide) only [decodeMajor6, row_misses e, row_matches e, if_true, Bool.false_eq_true, if_false]
  simp (disch := decide) only [chain_fld, fld_or, fld_put_other, fld_put_self, fld_zero, BitVec.or_zero, BitVec.zero_or]
  try rfl
theorem ldB128 (x0 : BitVec 4) (x1 : BitVec 6) (x2 : BitVec 3) (x3 : BitVec 6) (x4 : BitVec 5) : Statement (.ldB128 x0 x1 x2 x3 x4) := by
  intro w k h
  obtain rfl : 0x36000000#32 ||| put x0 20 ||| put x1 14 ||| put x2 11 ||| put x3 5 ||| put x4 0 = w := Option.some.inj h
  have e : withChain k (0x36000000#32 ||| put x0 20 ||| put x1 14 ||| put x2 11 ||| put x3 5 ||| put x4 0) &&& 0x7F000000#32 = 0x36000000#32 := by
    rw [chain_and _ _ _ (by decide)]
    simp (disch := decide) only [or_and, put_and, BitVec.or_zero, BitVec.zero_or, BitVec.reduceAnd]
  rw [major6 (by
    rw [chain_fld _ _ _ _ (by decide)]
    simp (disch := decide) only [fld_or, fld_put_other, BitVec.or_zero]
    try decide)]
  simp (disch := decide) only [decodeMajor6, row_misses e, row_matches e, if_true, Bool.false_eq_true, if_false]
  simp (disch := decide) only [chain_fld, fld_or, fld_put_other, fld_put_self, fld_zero, BitVec.or_zero, BitVec.zero_or]
  try rfl
theorem ldAcq (x0 : BitVec 4) (x1 : BitVec 6) (x2 : BitVec 3) (x3 : BitVec 6) (x4 : BitVec 1) : Statement (.ldAcq x0 x1 x2 x3 x4) := by
  intro w k h
  obtain rfl : 0x37000002#32 ||| put x0 20 ||| put x1 14 ||| put x2 11 ||| put x3 5 ||| put x4 0 = w := Option.some.inj h
  have e : withChain k (0x37000002#32 ||| put x0 20 ||| put x1 14 ||| put x2 11 ||| put x3 5 ||| put x4 0) &&& 0x7F00001E#32 = 0x37000002#32 := by
    rw [chain_and _ _ _ (by decide)]
    simp (disch := decide) only [or_and, put_and, BitVec.or_zero, BitVec.zero_or, BitVec.reduceAnd]
  rw [major6 (by
    rw [chain_fld _ _ _ _ (by decide)]
    simp (disch := decide) only [fld_or, fld_put_other, BitVec.or_zero]
    try decide)]
  simp (disch := decide) only [decodeMajor6, row_misses e, row_matches e, if_true, Bool.false_eq_true, if_false]
  simp (disch := decide) only [chain_fld, fld_or, fld_put_other, fld_put_self, fld_zero, BitVec.or_zero, BitVec.zero_or]
  try rfl
theorem kld (x0 : BitVec 4) (x1 : BitVec 5) (x2 : BitVec 3) (x3 : BitVec 6) : Statement (.kld x0 x1 x2 x3) := by
  intro w k h
  obtain rfl : 0x3700000B#32 ||| put x0 20 ||| put x1 14 ||| put x2 11 ||| put x3 5 = w := Option.some.inj h
  have e : withChain k (0x3700000B#32 ||| put x0 20 ||| put x1 14 ||| put x2 11 ||| put x3 5) &&& 0x7F08001F#32 = 0x3700000B#32 := by
    rw [chain_and _ _ _ (by decide)]
    simp (disch := decide) only [or_and, put_and, BitVec.or_zero, BitVec.zero_or, BitVec.reduceAnd]
  rw [major6 (by
    rw [chain_fld _ _ _ _ (by decide)]
    simp (disch := decide) only [fld_or, fld_put_other, BitVec.or_zero]
    try decide)]
  simp (disch := decide) only [decodeMajor6, row_misses e, row_matches e, if_true, Bool.false_eq_true, if_false]
  simp (disch := decide) only [chain_fld, fld_or, fld_put_other, fld_put_self, fld_zero, BitVec.or_zero, BitVec.zero_or]
  try rfl
theorem stB8 (x0 : BitVec 4) (x1 : BitVec 6) (x2 : BitVec 3) (x3 : BitVec 6) (x4 : BitVec 5) : Statement (.stB8 x0 x1 x2 x3 x4) := by
  intro w k h
  obtain rfl : 0x38000000#32 ||| put x0 20 ||| put x1 14 ||| put x2 11 ||| put x3 5 ||| put x4 0 = w := Option.some.inj h
  have e : withChain k (0x38000000#32 ||| put x0 20 ||| put x1 14 ||| put x2 11 ||| put x3 5 ||| put x4 0) &&& 0x7F000000#32 = 0x38000000#32 := by
    rw [chain_and _ _ _ (by decide)]
    simp (disch := decide) only [or_and, put_and, BitVec.or_zero, BitVec.zero_or, BitVec.reduceAnd]
  rw [major7 (by
    rw [chain_fld _ _ _ _ (by decide)]
    simp (disch := decide) only [fld_or, fld_put_other, BitVec.or_zero]
    try decide)]
  simp (disch := decide) only [decodeMajor7, row_misses e, row_matches e, if_true, Bool.false_eq_true, if_false]
  simp (disch := decide) only [chain_fld, fld_or, fld_put_other, fld_put_self, fld_zero, BitVec.or_zero, BitVec.zero_or]
  try rfl
theorem stB16 (x0 : BitVec 4) (x1 : BitVec 6) (x2 : BitVec 3) (x3 : BitVec 6) (x4 : BitVec 5) : Statement (.stB16 x0 x1 x2 x3 x4) := by
  intro w k h
  obtain rfl : 0x39000000#32 ||| put x0 20 ||| put x1 14 ||| put x2 11 ||| put x3 5 ||| put x4 0 = w := Option.some.inj h
  have e : withChain k (0x39000000#32 ||| put x0 20 ||| put x1 14 ||| put x2 11 ||| put x3 5 ||| put x4 0) &&& 0x7F000000#32 = 0x39000000#32 := by
    rw [chain_and _ _ _ (by decide)]
    simp (disch := decide) only [or_and, put_and, BitVec.or_zero, BitVec.zero_or, BitVec.reduceAnd]
  rw [major7 (by
    rw [chain_fld _ _ _ _ (by decide)]
    simp (disch := decide) only [fld_or, fld_put_other, BitVec.or_zero]
    try decide)]
  simp (disch := decide) only [decodeMajor7, row_misses e, row_matches e, if_true, Bool.false_eq_true, if_false]
  simp (disch := decide) only [chain_fld, fld_or, fld_put_other, fld_put_self, fld_zero, BitVec.or_zero, BitVec.zero_or]
  try rfl
theorem stB32 (x0 : BitVec 4) (x1 : BitVec 6) (x2 : BitVec 3) (x3 : BitVec 6) (x4 : BitVec 5) : Statement (.stB32 x0 x1 x2 x3 x4) := by
  intro w k h
  obtain rfl : 0x3A000000#32 ||| put x0 20 ||| put x1 14 ||| put x2 11 ||| put x3 5 ||| put x4 0 = w := Option.some.inj h
  have e : withChain k (0x3A000000#32 ||| put x0 20 ||| put x1 14 ||| put x2 11 ||| put x3 5 ||| put x4 0) &&& 0x7F000000#32 = 0x3A000000#32 := by
    rw [chain_and _ _ _ (by decide)]
    simp (disch := decide) only [or_and, put_and, BitVec.or_zero, BitVec.zero_or, BitVec.reduceAnd]
  rw [major7 (by
    rw [chain_fld _ _ _ _ (by decide)]
    simp (disch := decide) only [fld_or, fld_put_other, BitVec.or_zero]
    try decide)]
  simp (disch := decide) only [decodeMajor7, row_misses e, row_matches e, if_true, Bool.false_eq_true, if_false]
  simp (disch := decide) only [chain_fld, fld_or, fld_put_other, fld_put_self, fld_zero, BitVec.or_zero, BitVec.zero_or]
  try rfl
theorem stB64 (x0 : BitVec 4) (x1 : BitVec 6) (x2 : BitVec 3) (x3 : BitVec 6) (x4 : BitVec 5) : Statement (.stB64 x0 x1 x2 x3 x4) := by
  intro w k h
  obtain rfl : 0x3B000000#32 ||| put x0 20 ||| put x1 14 ||| put x2 11 ||| put x3 5 ||| put x4 0 = w := Option.some.inj h
  have e : withChain k (0x3B000000#32 ||| put x0 20 ||| put x1 14 ||| put x2 11 ||| put x3 5 ||| put x4 0) &&& 0x7F000000#32 = 0x3B000000#32 := by
    rw [chain_and _ _ _ (by decide)]
    simp (disch := decide) only [or_and, put_and, BitVec.or_zero, BitVec.zero_or, BitVec.reduceAnd]
  rw [major7 (by
    rw [chain_fld _ _ _ _ (by decide)]
    simp (disch := decide) only [fld_or, fld_put_other, BitVec.or_zero]
    try decide)]
  simp (disch := decide) only [decodeMajor7, row_misses e, row_matches e, if_true, Bool.false_eq_true, if_false]
  simp (disch := decide) only [chain_fld, fld_or, fld_put_other, fld_put_self, fld_zero, BitVec.or_zero, BitVec.zero_or]
  try rfl
theorem stB128 (x0 : BitVec 4) (x1 : BitVec 6) (x2 : BitVec 3) (x3 : BitVec 6) (x4 : BitVec 5) : Statement (.stB128 x0 x1 x2 x3 x4) := by
  intro w k h
  obtain rfl : 0x3C000000#32 ||| put x0 20 ||| put x1 14 ||| put x2 11 ||| put x3 5 ||| put x4 0 = w := Option.some.inj h
  have e : withChain k (0x3C000000#32 ||| put x0 20 ||| put x1 14 ||| put x2 11 ||| put x3 5 ||| put x4 0) &&& 0x7F000000#32 = 0x3C000000#32 := by
    rw [chain_and _ _ _ (by decide)]
    simp (disch := decide) only [or_and, put_and, BitVec.or_zero, BitVec.zero_or, BitVec.reduceAnd]
  rw [major7 (by
    rw [chain_fld _ _ _ _ (by decide)]
    simp (disch := decide) only [fld_or, fld_put_other, BitVec.or_zero]
    try decide)]
  simp (disch := decide) only [decodeMajor7, row_misses e, row_matches e, if_true, Bool.false_eq_true, if_false]
  simp (disch := decide) only [chain_fld, fld_or, fld_put_other, fld_put_self, fld_zero, BitVec.or_zero, BitVec.zero_or]
  try rfl
theorem stRel (x0 : BitVec 4) (x1 : BitVec 6) (x2 : BitVec 3) (x3 : BitVec 6) (x4 : BitVec 1) : Statement (.stRel x0 x1 x2 x3 x4) := by
  intro w k h
  obtain rfl : 0x3D000002#32 ||| put x0 20 ||| put x1 14 ||| put x2 11 ||| put x3 5 ||| put x4 0 = w := Option.some.inj h
  have e : withChain k (0x3D000002#32 ||| put x0 20 ||| put x1 14 ||| put x2 11 ||| put x3 5 ||| put x4 0) &&& 0x7F00001E#32 = 0x3D000002#32 := by
    rw [chain_and _ _ _ (by decide)]
    simp (disch := decide) only [or_and, put_and, BitVec.or_zero, BitVec.zero_or, BitVec.reduceAnd]
  rw [major7 (by
    rw [chain_fld _ _ _ _ (by decide)]
    simp (disch := decide) only [fld_or, fld_put_other, BitVec.or_zero]
    try decide)]
  simp (disch := decide) only [decodeMajor7, row_misses e, row_matches e, if_true, Bool.false_eq_true, if_false]
  simp (disch := decide) only [chain_fld, fld_or, fld_put_other, fld_put_self, fld_zero, BitVec.or_zero, BitVec.zero_or]
  try rfl
theorem kst (x0 : BitVec 4) (x1 : BitVec 5) (x2 : BitVec 3) (x3 : BitVec 6) : Statement (.kst x0 x1 x2 x3) := by
  intro w k h
  obtain rfl : 0x3D00000B#32 ||| put x0 20 ||| put x1 14 ||| put x2 11 ||| put x3 5 = w := Option.some.inj h
  have e : withChain k (0x3D00000B#32 ||| put x0 20 ||| put x1 14 ||| put x2 11 ||| put x3 5) &&& 0x7F08001F#32 = 0x3D00000B#32 := by
    rw [chain_and _ _ _ (by decide)]
    simp (disch := decide) only [or_and, put_and, BitVec.or_zero, BitVec.zero_or, BitVec.reduceAnd]
  rw [major7 (by
    rw [chain_fld _ _ _ _ (by decide)]
    simp (disch := decide) only [fld_or, fld_put_other, BitVec.or_zero]
    try decide)]
  simp (disch := decide) only [decodeMajor7, row_misses e, row_matches e, if_true, Bool.false_eq_true, if_false]
  simp (disch := decide) only [chain_fld, fld_or, fld_put_other, fld_put_self, fld_zero, BitVec.or_zero, BitVec.zero_or]
  try rfl
theorem stashMap (x0 : BitVec 4) (x1 : BitVec 3) (x2 : BitVec 2) (x3 : BitVec 3) (x4 : BitVec 6) : Statement (.stashMap x0 x1 x2 x3 x4) := by
  intro w k h
  obtain rfl : 0x3E000000#32 ||| put x0 20 ||| put x1 16 ||| put x2 14 ||| put x3 11 ||| put x4 5 = w := Option.some.inj h
  have e : withChain k (0x3E000000#32 ||| put x0 20 ||| put x1 16 ||| put x2 14 ||| put x3 11 ||| put x4 5) &&& 0x7F08001F#32 = 0x3E000000#32 := by
    rw [chain_and _ _ _ (by decide)]
    simp (disch := decide) only [or_and, put_and, BitVec.or_zero, BitVec.zero_or, BitVec.reduceAnd]
  rw [major7 (by
    rw [chain_fld _ _ _ _ (by decide)]
    simp (disch := decide) only [fld_or, fld_put_other, BitVec.or_zero]
    try decide)]
  simp (disch := decide) only [decodeMajor7, row_misses e, row_matches e, if_true, Bool.false_eq_true, if_false]
  simp (disch := decide) only [chain_fld, fld_or, fld_put_other, fld_put_self, fld_zero, BitVec.or_zero, BitVec.zero_or]
  try rfl
theorem stashWb (x0 : BitVec 4) (x1 : BitVec 3) (x2 : BitVec 6) : Statement (.stashWb x0 x1 x2) := by
  intro w k h
  obtain rfl : 0x3E000008#32 ||| put x0 20 ||| put x1 11 ||| put x2 5 = w := Option.some.inj h
  have e : withChain k (0x3E000008#32 ||| put x0 20 ||| put x1 11 ||| put x2 5) &&& 0x7F0FC01F#32 = 0x3E000008#32 := by
    rw [chain_and _ _ _ (by decide)]
    simp (disch := decide) only [or_and, put_and, BitVec.or_zero, BitVec.zero_or, BitVec.reduceAnd]
  rw [major7 (by
    rw [chain_fld _ _ _ _ (by decide)]
    simp (disch := decide) only [fld_or, fld_put_other, BitVec.or_zero]
    try decide)]
  simp (disch := decide) only [decodeMajor7, row_misses e, row_matches e, if_true, Bool.false_eq_true, if_false]
  simp (disch := decide) only [chain_fld, fld_or, fld_put_other, fld_put_self, fld_zero, BitVec.or_zero, BitVec.zero_or]
  try rfl
theorem stashWbE (x0 : BitVec 4) (x1 : BitVec 2) : Statement (.stashWbE x0 x1) := by
  intro w k h
  obtain rfl : 0x3E080008#32 ||| put x0 20 ||| put x1 14 = w := Option.some.inj h
  have e : withChain k (0x3E080008#32 ||| put x0 20 ||| put x1 14) &&& 0x7F0F3FFF#32 = 0x3E080008#32 := by
    rw [chain_and _ _ _ (by decide)]
    simp (disch := decide) only [or_and, put_and, BitVec.or_zero, BitVec.zero_or, BitVec.reduceAnd]
  rw [major7 (by
    rw [chain_fld _ _ _ _ (by decide)]
    simp (disch := decide) only [fld_or, fld_put_other, BitVec.or_zero]
    try decide)]
  simp (disch := decide) only [decodeMajor7, row_misses e, row_matches e, if_true, Bool.false_eq_true, if_false]
  simp (disch := decide) only [chain_fld, fld_or, fld_put_other, fld_put_self, fld_zero, BitVec.or_zero, BitVec.zero_or]
  try rfl
theorem stashInv (x0 : BitVec 4) (x1 : BitVec 3) (x2 : BitVec 6) : Statement (.stashInv x0 x1 x2) := by
  intro w k h
  obtain rfl : 0x3E000010#32 ||| put x0 20 ||| put x1 11 ||| put x2 5 = w := Option.some.inj h
  have e : withChain k (0x3E000010#32 ||| put x0 20 ||| put x1 11 ||| put x2 5) &&& 0x7F0FC01F#32 = 0x3E000010#32 := by
    rw [chain_and _ _ _ (by decide)]
    simp (disch := decide) only [or_and, put_and, BitVec.or_zero, BitVec.zero_or, BitVec.reduceAnd]
  rw [major7 (by
    rw [chain_fld _ _ _ _ (by decide)]
    simp (disch := decide) only [fld_or, fld_put_other, BitVec.or_zero]
    try decide)]
  simp (disch := decide) only [decodeMajor7, row_misses e, row_matches e, if_true, Bool.false_eq_true, if_false]
  simp (disch := decide) only [chain_fld, fld_or, fld_put_other, fld_put_self, fld_zero, BitVec.or_zero, BitVec.zero_or]
  try rfl
theorem stashInvE (x0 : BitVec 4) (x1 : BitVec 2) : Statement (.stashInvE x0 x1) := by
  intro w k h
  obtain rfl : 0x3E080010#32 ||| put x0 20 ||| put x1 14 = w := Option.some.inj h
  have e : withChain k (0x3E080010#32 ||| put x0 20 ||| put x1 14) &&& 0x7F0F3FFF#32 = 0x3E080010#32 := by
    rw [chain_and _ _ _ (by decide)]
    simp (disch := decide) only [or_and, put_and, BitVec.or_zero, BitVec.zero_or, BitVec.reduceAnd]
  rw [major7 (by
    rw [chain_fld _ _ _ _ (by decide)]
    simp (disch := decide) only [fld_or, fld_put_other, BitVec.or_zero]
    try decide)]
  simp (disch := decide) only [decodeMajor7, row_misses e, row_matches e, if_true, Bool.false_eq_true, if_false]
  simp (disch := decide) only [chain_fld, fld_or, fld_put_other, fld_put_self, fld_zero, BitVec.or_zero, BitVec.zero_or]
  try rfl
theorem stashStg (x0 : BitVec 4) (x1 : BitVec 6) : Statement (.stashStg x0 x1) := by
  intro w k h
  obtain rfl : 0x3E000018#32 ||| put x0 20 ||| put x1 14 = w := Option.some.inj h
  have e : withChain k (0x3E000018#32 ||| put x0 20 ||| put x1 14) &&& 0x7F003FFF#32 = 0x3E000018#32 := by
    rw [chain_and _ _ _ (by decide)]
    simp (disch := decide) only [or_and, put_and, BitVec.or_zero, BitVec.zero_or, BitVec.reduceAnd]
  rw [major7 (by
    rw [chain_fld _ _ _ _ (by decide)]
    simp (disch := decide) only [fld_or, fld_put_other, BitVec.or_zero]
    try decide)]
  simp (disch := decide) only [decodeMajor7, row_misses e, row_matches e, if_true, Bool.false_eq_true, if_false]
  simp (disch := decide) only [chain_fld, fld_or, fld_put_other, fld_put_self, fld_zero, BitVec.or_zero, BitVec.zero_or]
  try rfl
theorem atomAdd (x0 : BitVec 4) (x1 : BitVec 6) (x2 : BitVec 3) (x3 : BitVec 6) (x4 : BitVec 1) (x5 : BitVec 1) (x6 : BitVec 2) : Statement (.atomAdd x0 x1 x2 x3 x4 x5 x6) := by
  intro w k h
  obtain rfl : 0x40000000#32 ||| put x0 20 ||| put x1 14 ||| put x2 11 ||| put x3 5 ||| put x4 3 ||| put x5 2 ||| put x6 0 = w := Option.some.inj h
  have e : withChain k (0x40000000#32 ||| put x0 20 ||| put x1 14 ||| put x2 11 ||| put x3 5 ||| put x4 3 ||| put x5 2 ||| put x6 0) &&& 0x7F000010#32 = 0x40000000#32 := by
    rw [chain_and _ _ _ (by decide)]
    simp (disch := decide) only [or_and, put_and, BitVec.or_zero, BitVec.zero_or, BitVec.reduceAnd]
  rw [major8 (by
    rw [chain_fld _ _ _ _ (by decide)]
    simp (disch := decide) only [fld_or, fld_put_other, BitVec.or_zero]
    try decide)]
  simp (disch := decide) only [decodeMajor8, row_misses e, row_matches e, if_true, Bool.false_eq_true, if_false]
  simp (disch := decide) only [chain_fld, fld_or, fld_put_other, fld_put_self, fld_zero, BitVec.or_zero, BitVec.zero_or]
  try rfl
theorem atomFaddF32 (x0 : BitVec 4) (x1 : BitVec 6) (x2 : BitVec 3) (x3 : BitVec 6) (x4 : BitVec 1) (x5 : BitVec 2) : Statement (.atomFaddF32 x0 x1 x2 x3 x4 x5) := by
  intro w k h
  obtain rfl : 0x40000010#32 ||| put x0 20 ||| put x1 14 ||| put x2 11 ||| put x3 5 ||| put x4 2 ||| put x5 0 = w := Option.some.inj h
  have e : withChain k (0x40000010#32 ||| put x0 20 ||| put x1 14 ||| put x2 11 ||| put x3 5 ||| put x4 2 ||| put x5 0) &&& 0x7F000018#32 = 0x40000010#32 := by
    rw [chain_and _ _ _ (by decide)]
    simp (disch := decide) only [or_and, put_and, BitVec.or_zero, BitVec.zero_or, BitVec.reduceAnd]
  rw [major8 (by
    rw [chain_fld _ _ _ _ (by decide)]
    simp (disch := decide) only [fld_or, fld_put_other, BitVec.or_zero]
    try decide)]
  simp (disch := decide) only [decodeMajor8, row_misses e, row_matches e, if_true, Bool.false_eq_true, if_false]
  simp (disch := decide) only [chain_fld, fld_or, fld_put_other, fld_put_self, fld_zero, BitVec.or_zero, BitVec.zero_or]
  try rfl
theorem atomAnd (x0 : BitVec 4) (x1 : BitVec 6) (x2 : BitVec 3) (x3 : BitVec 6) (x4 : BitVec 1) (x5 : BitVec 1) (x6 : BitVec 2) : Statement (.atomAnd x0 x1 x2 x3 x4 x5 x6) := by
  intro w k h
  obtain rfl : 0x41000000#32 ||| put x0 20 ||| put x1 14 ||| put x2 11 ||| put x3 5 ||| put x4 3 ||| put x5 2 ||| put x6 0 = w := Option.some.inj h
  have e : withChain k (0x41000000#32 ||| put x0 20 ||| put x1 14 ||| put x2 11 ||| put x3 5 ||| put x4 3 ||| put x5 2 ||| put x6 0) &&& 0x7F000010#32 = 0x41000000#32 := by
    rw [chain_and _ _ _ (by decide)]
    simp (disch := decide) only [or_and, put_and, BitVec.or_zero, BitVec.zero_or, BitVec.reduceAnd]
  rw [major8 (by
    rw [chain_fld _ _ _ _ (by decide)]
    simp (disch := decide) only [fld_or, fld_put_other, BitVec.or_zero]
    try decide)]
  simp (disch := decide) only [decodeMajor8, row_misses e, row_matches e, if_true, Bool.false_eq_true, if_false]
  simp (disch := decide) only [chain_fld, fld_or, fld_put_other, fld_put_self, fld_zero, BitVec.or_zero, BitVec.zero_or]
  try rfl
theorem atomOr (x0 : BitVec 4) (x1 : BitVec 6) (x2 : BitVec 3) (x3 : BitVec 6) (x4 : BitVec 1) (x5 : BitVec 1) (x6 : BitVec 2) : Statement (.atomOr x0 x1 x2 x3 x4 x5 x6) := by
  intro w k h
  obtain rfl : 0x42000000#32 ||| put x0 20 ||| put x1 14 ||| put x2 11 ||| put x3 5 ||| put x4 3 ||| put x5 2 ||| put x6 0 = w := Option.some.inj h
  have e : withChain k (0x42000000#32 ||| put x0 20 ||| put x1 14 ||| put x2 11 ||| put x3 5 ||| put x4 3 ||| put x5 2 ||| put x6 0) &&& 0x7F000010#32 = 0x42000000#32 := by
    rw [chain_and _ _ _ (by decide)]
    simp (disch := decide) only [or_and, put_and, BitVec.or_zero, BitVec.zero_or, BitVec.reduceAnd]
  rw [major8 (by
    rw [chain_fld _ _ _ _ (by decide)]
    simp (disch := decide) only [fld_or, fld_put_other, BitVec.or_zero]
    try decide)]
  simp (disch := decide) only [decodeMajor8, row_misses e, row_matches e, if_true, Bool.false_eq_true, if_false]
  simp (disch := decide) only [chain_fld, fld_or, fld_put_other, fld_put_self, fld_zero, BitVec.or_zero, BitVec.zero_or]
  try rfl
theorem atomXor (x0 : BitVec 4) (x1 : BitVec 6) (x2 : BitVec 3) (x3 : BitVec 6) (x4 : BitVec 1) (x5 : BitVec 1) (x6 : BitVec 2) : Statement (.atomXor x0 x1 x2 x3 x4 x5 x6) := by
  intro w k h
  obtain rfl : 0x43000000#32 ||| put x0 20 ||| put x1 14 ||| put x2 11 ||| put x3 5 ||| put x4 3 ||| put x5 2 ||| put x6 0 = w := Option.some.inj h
  have e : withChain k (0x43000000#32 ||| put x0 20 ||| put x1 14 ||| put x2 11 ||| put x3 5 ||| put x4 3 ||| put x5 2 ||| put x6 0) &&& 0x7F000010#32 = 0x43000000#32 := by
    rw [chain_and _ _ _ (by decide)]
    simp (disch := decide) only [or_and, put_and, BitVec.or_zero, BitVec.zero_or, BitVec.reduceAnd]
  rw [major8 (by
    rw [chain_fld _ _ _ _ (by decide)]
    simp (disch := decide) only [fld_or, fld_put_other, BitVec.or_zero]
    try decide)]
  simp (disch := decide) only [decodeMajor8, row_misses e, row_matches e, if_true, Bool.false_eq_true, if_false]
  simp (disch := decide) only [chain_fld, fld_or, fld_put_other, fld_put_self, fld_zero, BitVec.or_zero, BitVec.zero_or]
  try rfl
theorem atomMin (x0 : BitVec 4) (x1 : BitVec 6) (x2 : BitVec 3) (x3 : BitVec 6) (x4 : BitVec 1) (x5 : BitVec 1) (x6 : BitVec 1) (x7 : BitVec 2) : Statement (.atomMin x0 x1 x2 x3 x4 x5 x6 x7) := by
  intro w k h
  obtain rfl : 0x44000000#32 ||| put x0 20 ||| put x1 14 ||| put x2 11 ||| put x3 5 ||| put x4 4 ||| put x5 3 ||| put x6 2 ||| put x7 0 = w := Option.some.inj h
  have e : withChain k (0x44000000#32 ||| put x0 20 ||| put x1 14 ||| put x2 11 ||| put x3 5 ||| put x4 4 ||| put x5 3 ||| put x6 2 ||| put x7 0) &&& 0x7F000000#32 = 0x44000000#32 := by
    rw [chain_and _ _ _ (by decide)]
    simp (disch := decide) only [or_and, put_and, BitVec.or_zero, BitVec.zero_or, BitVec.reduceAnd]
  rw [major8 (by
    rw [chain_fld _ _ _ _ (by decide)]
    simp (disch := decide) only [fld_or, fld_put_other, BitVec.or_zero]
    try decide)]
  simp (disch := decide) only [decodeMajor8, row_misses e, row_matches e, if_true, Bool.false_eq_true, if_false]
  simp (disch := decide) only [chain_fld, fld_or, fld_put_other, fld_put_self, fld_zero, BitVec.or_zero, BitVec.zero_or]
  try rfl
theorem atomMax (x0 : BitVec 4) (x1 : BitVec 6) (x2 : BitVec 3) (x3 : BitVec 6) (x4 : BitVec 1) (x5 : BitVec 1) (x6 : BitVec 1) (x7 : BitVec 2) : Statement (.atomMax x0 x1 x2 x3 x4 x5 x6 x7) := by
  intro w k h
  obtain rfl : 0x45000000#32 ||| put x0 20 ||| put x1 14 ||| put x2 11 ||| put x3 5 ||| put x4 4 ||| put x5 3 ||| put x6 2 ||| put x7 0 = w := Option.some.inj h
  have e : withChain k (0x45000000#32 ||| put x0 20 ||| put x1 14 ||| put x2 11 ||| put x3 5 ||| put x4 4 ||| put x5 3 ||| put x6 2 ||| put x7 0) &&& 0x7F000000#32 = 0x45000000#32 := by
    rw [chain_and _ _ _ (by decide)]
    simp (disch := decide) only [or_and, put_and, BitVec.or_zero, BitVec.zero_or, BitVec.reduceAnd]
  rw [major8 (by
    rw [chain_fld _ _ _ _ (by decide)]
    simp (disch := decide) only [fld_or, fld_put_other, BitVec.or_zero]
    try decide)]
  simp (disch := decide) only [decodeMajor8, row_misses e, row_matches e, if_true, Bool.false_eq_true, if_false]
  simp (disch := decide) only [chain_fld, fld_or, fld_put_other, fld_put_self, fld_zero, BitVec.or_zero, BitVec.zero_or]
  try rfl
theorem atomExch (x0 : BitVec 4) (x1 : BitVec 6) (x2 : BitVec 3) (x3 : BitVec 6) (x4 : BitVec 1) (x5 : BitVec 1) (x6 : BitVec 2) : Statement (.atomExch x0 x1 x2 x3 x4 x5 x6) := by
  intro w k h
  obtain rfl : 0x46000000#32 ||| put x0 20 ||| put x1 14 ||| put x2 11 ||| put x3 5 ||| put x4 3 ||| put x5 2 ||| put x6 0 = w := Option.some.inj h
  have e : withChain k (0x46000000#32 ||| put x0 20 ||| put x1 14 ||| put x2 11 ||| put x3 5 ||| put x4 3 ||| put x5 2 ||| put x6 0) &&& 0x7F000010#32 = 0x46000000#32 := by
    rw [chain_and _ _ _ (by decide)]
    simp (disch := decide) only [or_and, put_and, BitVec.or_zero, BitVec.zero_or, BitVec.reduceAnd]
  rw [major8 (by
    rw [chain_fld _ _ _ _ (by decide)]
    simp (disch := decide) only [fld_or, fld_put_other, BitVec.or_zero]
    try decide)]
  simp (disch := decide) only [decodeMajor8, row_misses e, row_matches e, if_true, Bool.false_eq_true, if_false]
  simp (disch := decide) only [chain_fld, fld_or, fld_put_other, fld_put_self, fld_zero, BitVec.or_zero, BitVec.zero_or]
  try rfl
theorem atomCas (x0 : BitVec 4) (x1 : BitVec 6) (x2 : BitVec 3) (x3 : BitVec 6) (x4 : BitVec 1) (x5 : BitVec 1) (x6 : BitVec 2) : Statement (.atomCas x0 x1 x2 x3 x4 x5 x6) := by
  intro w k h
  obtain rfl : 0x47000000#32 ||| put x0 20 ||| put x1 14 ||| put x2 11 ||| put x3 5 ||| put x4 3 ||| put x5 2 ||| put x6 0 = w := Option.some.inj h
  have e : withChain k (0x47000000#32 ||| put x0 20 ||| put x1 14 ||| put x2 11 ||| put x3 5 ||| put x4 3 ||| put x5 2 ||| put x6 0) &&& 0x7F000010#32 = 0x47000000#32 := by
    rw [chain_and _ _ _ (by decide)]
    simp (disch := decide) only [or_and, put_and, BitVec.or_zero, BitVec.zero_or, BitVec.reduceAnd]
  rw [major8 (by
    rw [chain_fld _ _ _ _ (by decide)]
    simp (disch := decide) only [fld_or, fld_put_other, BitVec.or_zero]
    try decide)]
  simp (disch := decide) only [decodeMajor8, row_misses e, row_matches e, if_true, Bool.false_eq_true, if_false]
  simp (disch := decide) only [chain_fld, fld_or, fld_put_other, fld_put_self, fld_zero, BitVec.or_zero, BitVec.zero_or]
  try rfl
theorem bra (x0 : BitVec 20) : Statement (.bra x0) := by
  intro w k h
  obtain rfl : 0x48000000#32 ||| put x0 0 = w := Option.some.inj h
  have e : withChain k (0x48000000#32 ||| put x0 0) &&& 0x7FF00000#32 = 0x48000000#32 := by
    rw [chain_and _ _ _ (by decide)]
    simp (disch := decide) only [or_and, put_and, BitVec.or_zero, BitVec.zero_or, BitVec.reduceAnd]
  rw [major9 (by
    rw [chain_fld _ _ _ _ (by decide)]
    simp (disch := decide) only [fld_or, fld_put_other, BitVec.or_zero]
    try decide)]
  simp (disch := decide) only [decodeMajor9, row_misses e, row_matches e, if_true, Bool.false_eq_true, if_false]
  simp (disch := decide) only [chain_fld, fld_or, fld_put_other, fld_put_self, fld_zero, BitVec.or_zero, BitVec.zero_or]
  try rfl
theorem braK (x0 : BitVec 4) (x1 : BitVec 20) : Statement (.braK x0 x1) := by
  intro w k h
  obtain rfl : 0x49000000#32 ||| put x0 20 ||| put x1 0 = w := Option.some.inj h
  have e : withChain k (0x49000000#32 ||| put x0 20 ||| put x1 0) &&& 0x7F000000#32 = 0x49000000#32 := by
    rw [chain_and _ _ _ (by decide)]
    simp (disch := decide) only [or_and, put_and, BitVec.or_zero, BitVec.zero_or, BitVec.reduceAnd]
  rw [major9 (by
    rw [chain_fld _ _ _ _ (by decide)]
    simp (disch := decide) only [fld_or, fld_put_other, BitVec.or_zero]
    try decide)]
  simp (disch := decide) only [decodeMajor9, row_misses e, row_matches e, if_true, Bool.false_eq_true, if_false]
  simp (disch := decide) only [chain_fld, fld_or, fld_put_other, fld_put_self, fld_zero, BitVec.or_zero, BitVec.zero_or]
  try rfl
theorem brd (x0 : BitVec 1) (x1 : BitVec 3) (x2 : BitVec 20) : Statement (.brd x0 x1 x2) := by
  intro w k h
  obtain rfl : 0x4A000000#32 ||| put x0 23 ||| put x1 20 ||| put x2 0 = w := Option.some.inj h
  have e : withChain k (0x4A000000#32 ||| put x0 23 ||| put x1 20 ||| put x2 0) &&& 0x7F000000#32 = 0x4A000000#32 := by
    rw [chain_and _ _ _ (by decide)]
    simp (disch := decide) only [or_and, put_and, BitVec.or_zero, BitVec.zero_or, BitVec.reduceAnd]
  rw [major9 (by
    rw [chain_fld _ _ _ _ (by decide)]
    simp (disch := decide) only [fld_or, fld_put_other, BitVec.or_zero]
    try decide)]
  simp (disch := decide) only [decodeMajor9, row_misses e, row_matches e, if_true, Bool.false_eq_true, if_false]
  simp (disch := decide) only [chain_fld, fld_or, fld_put_other, fld_put_self, fld_zero, BitVec.or_zero, BitVec.zero_or]
  try rfl
theorem call (x0 : BitVec 20) : Statement (.call x0) := by
  intro w k h
  obtain rfl : 0x4B000000#32 ||| put x0 0 = w := Option.some.inj h
  have e : withChain k (0x4B000000#32 ||| put x0 0) &&& 0x7FF00000#32 = 0x4B000000#32 := by
    rw [chain_and _ _ _ (by decide)]
    simp (disch := decide) only [or_and, put_and, BitVec.or_zero, BitVec.zero_or, BitVec.reduceAnd]
  rw [major9 (by
    rw [chain_fld _ _ _ _ (by decide)]
    simp (disch := decide) only [fld_or, fld_put_other, BitVec.or_zero]
    try decide)]
  simp (disch := decide) only [decodeMajor9, row_misses e, row_matches e, if_true, Bool.false_eq_true, if_false]
  simp (disch := decide) only [chain_fld, fld_or, fld_put_other, fld_put_self, fld_zero, BitVec.or_zero, BitVec.zero_or]
  try rfl
theorem jinit (x0 : BitVec 2) (x1 : BitVec 4) : Statement (.jinit x0 x1) := by
  intro w k h
  obtain rfl : 0x4C000000#32 ||| put x0 20 ||| put x1 0 = w := Option.some.inj h
  have e : withChain k (0x4C000000#32 ||| put x0 20 ||| put x1 0) &&& 0x7FCFFFF0#32 = 0x4C000000#32 := by
    rw [chain_and _ _ _ (by decide)]
    simp (disch := decide) only [or_and, put_and, BitVec.or_zero, BitVec.zero_or, BitVec.reduceAnd]
  rw [major9 (by
    rw [chain_fld _ _ _ _ (by decide)]
    simp (disch := decide) only [fld_or, fld_put_other, BitVec.or_zero]
    try decide)]
  simp (disch := decide) only [decodeMajor9, row_misses e, row_matches e, if_true, Bool.false_eq_true, if_false]
  simp (disch := decide) only [chain_fld, fld_or, fld_put_other, fld_put_self, fld_zero, BitVec.or_zero, BitVec.zero_or]
  try rfl
theorem jwait (x0 : BitVec 2) : Statement (.jwait x0) := by
  intro w k h
  obtain rfl : 0x4C400000#32 ||| put x0 20 = w := Option.some.inj h
  have e : withChain k (0x4C400000#32 ||| put x0 20) &&& 0x7FCFFFFF#32 = 0x4C400000#32 := by
    rw [chain_and _ _ _ (by decide)]
    simp (disch := decide) only [or_and, put_and, BitVec.or_zero, BitVec.zero_or, BitVec.reduceAnd]
  rw [major9 (by
    rw [chain_fld _ _ _ _ (by decide)]
    simp (disch := decide) only [fld_or, fld_put_other, BitVec.or_zero]
    try decide)]
  simp (disch := decide) only [decodeMajor9, row_misses e, row_matches e, if_true, Bool.false_eq_true, if_false]
  simp (disch := decide) only [chain_fld, fld_or, fld_put_other, fld_put_self, fld_zero, BitVec.or_zero, BitVec.zero_or]
  try rfl
theorem jarr (x0 : BitVec 2) : Statement (.jarr x0) := by
  intro w k h
  obtain rfl : 0x4C800000#32 ||| put x0 20 = w := Option.some.inj h
  have e : withChain k (0x4C800000#32 ||| put x0 20) &&& 0x7FCFFFFF#32 = 0x4C800000#32 := by
    rw [chain_and _ _ _ (by decide)]
    simp (disch := decide) only [or_and, put_and, BitVec.or_zero, BitVec.zero_or, BitVec.reduceAnd]
  rw [major9 (by
    rw [chain_fld _ _ _ _ (by decide)]
    simp (disch := decide) only [fld_or, fld_put_other, BitVec.or_zero]
    try decide)]
  simp (disch := decide) only [decodeMajor9, row_misses e, row_matches e, if_true, Bool.false_eq_true, if_false]
  simp (disch := decide) only [chain_fld, fld_or, fld_put_other, fld_put_self, fld_zero, BitVec.or_zero, BitVec.zero_or]
  try rfl
theorem ret : Statement .ret := by
  intro w k h
  obtain rfl : 0x4D000000#32 = w := Option.some.inj h
  cases k <;> decide
theorem exit : Statement .exit := by
  intro w k h
  obtain rfl : 0x4D100000#32 = w := Option.some.inj h
  cases k <;> decide
theorem emRd (x0 : BitVec 3) : Statement (.emRd x0) := by
  intro w k h
  obtain rfl : 0x4E000000#32 ||| put x0 20 = w := Option.some.inj h
  have e : withChain k (0x4E000000#32 ||| put x0 20) &&& 0x7F8FFFFF#32 = 0x4E000000#32 := by
    rw [chain_and _ _ _ (by decide)]
    simp (disch := decide) only [or_and, put_and, BitVec.or_zero, BitVec.zero_or, BitVec.reduceAnd]
  rw [major9 (by
    rw [chain_fld _ _ _ _ (by decide)]
    simp (disch := decide) only [fld_or, fld_put_other, BitVec.or_zero]
    try decide)]
  simp (disch := decide) only [decodeMajor9, row_misses e, row_matches e, if_true, Bool.false_eq_true, if_false]
  simp (disch := decide) only [chain_fld, fld_or, fld_put_other, fld_put_self, fld_zero, BitVec.or_zero, BitVec.zero_or]
  try rfl
theorem emWr (x0 : BitVec 3) : Statement (.emWr x0) := by
  intro w k h
  obtain rfl : 0x4E800000#32 ||| put x0 20 = w := Option.some.inj h
  have e : withChain k (0x4E800000#32 ||| put x0 20) &&& 0x7F8FFFFF#32 = 0x4E800000#32 := by
    rw [chain_and _ _ _ (by decide)]
    simp (disch := decide) only [or_and, put_and, BitVec.or_zero, BitVec.zero_or, BitVec.reduceAnd]
  rw [major9 (by
    rw [chain_fld _ _ _ _ (by decide)]
    simp (disch := decide) only [fld_or, fld_put_other, BitVec.or_zero]
    try decide)]
  simp (disch := decide) only [decodeMajor9, row_misses e, row_matches e, if_true, Bool.false_eq_true, if_false]
  simp (disch := decide) only [chain_fld, fld_or, fld_put_other, fld_put_self, fld_zero, BitVec.or_zero, BitVec.zero_or]
  try rfl
theorem barWg (x0 : BitVec 2) : Statement (.barWg x0) := by
  intro w k h
  obtain rfl : 0x50000000#32 ||| put x0 0 = w := Option.some.inj h
  have e : withChain k (0x50000000#32 ||| put x0 0) &&& 0x7FFFFFFC#32 = 0x50000000#32 := by
    rw [chain_and _ _ _ (by decide)]
    simp (disch := decide) only [or_and, put_and, BitVec.or_zero, BitVec.zero_or, BitVec.reduceAnd]
  rw [major10 (by
    rw [chain_fld _ _ _ _ (by decide)]
    simp (disch := decide) only [fld_or, fld_put_other, BitVec.or_zero]
    try decide)]
  simp (disch := decide) only [decodeMajor10, row_misses e, row_matches e, if_true, Bool.false_eq_true, if_false]
  simp (disch := decide) only [chain_fld, fld_or, fld_put_other, fld_put_self, fld_zero, BitVec.or_zero, BitVec.zero_or]
  try rfl
theorem barSpan (x0 : BitVec 3) (x1 : BitVec 3) : Statement (.barSpan x0 x1) := by
  intro w k h
  obtain rfl : 0x50800000#32 ||| put x0 3 ||| put x1 0 = w := Option.some.inj h
  have e : withChain k (0x50800000#32 ||| put x0 3 ||| put x1 0) &&& 0x7FFFFFC0#32 = 0x50800000#32 := by
    rw [chain_and _ _ _ (by decide)]
    simp (disch := decide) only [or_and, put_and, BitVec.or_zero, BitVec.zero_or, BitVec.reduceAnd]
  rw [major10 (by
    rw [chain_fld _ _ _ _ (by decide)]
    simp (disch := decide) only [fld_or, fld_put_other, BitVec.or_zero]
    try decide)]
  simp (disch := decide) only [decodeMajor10, row_misses e, row_matches e, if_true, Bool.false_eq_true, if_false]
  simp (disch := decide) only [chain_fld, fld_or, fld_put_other, fld_put_self, fld_zero, BitVec.or_zero, BitVec.zero_or]
  try rfl
theorem barStep (x0 : BitVec 1) : Statement (.barStep x0) := by
  intro w k h
  obtain rfl : 0x51000000#32 ||| put x0 0 = w := Option.some.inj h
  have e : withChain k (0x51000000#32 ||| put x0 0) &&& 0x7FFFFFFE#32 = 0x51000000#32 := by
    rw [chain_and _ _ _ (by decide)]
    simp (disch := decide) only [or_and, put_and, BitVec.or_zero, BitVec.zero_or, BitVec.reduceAnd]
  rw [major10 (by
    rw [chain_fld _ _ _ _ (by decide)]
    simp (disch := decide) only [fld_or, fld_put_other, BitVec.or_zero]
    try decide)]
  simp (disch := decide) only [decodeMajor10, row_misses e, row_matches e, if_true, Bool.false_eq_true, if_false]
  simp (disch := decide) only [chain_fld, fld_or, fld_put_other, fld_put_self, fld_zero, BitVec.or_zero, BitVec.zero_or]
  try rfl
theorem fenceAcq : Statement .fenceAcq := by
  intro w k h
  obtain rfl : 0x51800000#32 = w := Option.some.inj h
  cases k <;> decide
theorem fenceRel : Statement .fenceRel := by
  intro w k h
  obtain rfl : 0x52000000#32 = w := Option.some.inj h
  cases k <;> decide
theorem fenceAr : Statement .fenceAr := by
  intro w k h
  obtain rfl : 0x52800000#32 = w := Option.some.inj h
  cases k <;> decide
theorem waitc (x0 : BitVec 4) (x1 : BitVec 8) (x2 : BitVec 8) : Statement (.waitc x0 x1 x2) := by
  intro w k h
  obtain rfl : 0x53000000#32 ||| put x0 17 ||| put x1 8 ||| put x2 0 = w := Option.some.inj h
  have e : withChain k (0x53000000#32 ||| put x0 17 ||| put x1 8 ||| put x2 0) &&& 0x7FE10000#32 = 0x53000000#32 := by
    rw [chain_and _ _ _ (by decide)]
    simp (disch := decide) only [or_and, put_and, BitVec.or_zero, BitVec.zero_or, BitVec.reduceAnd]
  rw [major10 (by
    rw [chain_fld _ _ _ _ (by decide)]
    simp (disch := decide) only [fld_or, fld_put_other, BitVec.or_zero]
    try decide)]
  simp (disch := decide) only [decodeMajor10, row_misses e, row_matches e, if_true, Bool.false_eq_true, if_false]
  simp (disch := decide) only [chain_fld, fld_or, fld_put_other, fld_put_self, fld_zero, BitVec.or_zero, BitVec.zero_or]
  try rfl
theorem waitm (x0 : BitVec 5) (x1 : BitVec 8) (x2 : BitVec 8) : Statement (.waitm x0 x1 x2) := by
  intro w k h
  obtain rfl : 0x53800000#32 ||| put x0 17 ||| put x1 8 ||| put x2 0 = w := Option.some.inj h
  have e : withChain k (0x53800000#32 ||| put x0 17 ||| put x1 8 ||| put x2 0) &&& 0x7FC10000#32 = 0x53800000#32 := by
    rw [chain_and _ _ _ (by decide)]
    simp (disch := decide) only [or_and, put_and, BitVec.or_zero, BitVec.zero_or, BitVec.reduceAnd]
  rw [major10 (by
    rw [chain_fld _ _ _ _ (by decide)]
    simp (disch := decide) only [fld_or, fld_put_other, BitVec.or_zero]
    try decide)]
  simp (disch := decide) only [decodeMajor10, row_misses e, row_matches e, if_true, Bool.false_eq_true, if_false]
  simp (disch := decide) only [chain_fld, fld_or, fld_put_other, fld_put_self, fld_zero, BitVec.or_zero, BitVec.zero_or]
  try rfl
theorem cset (x0 : BitVec 4) (x1 : BitVec 8) (x2 : BitVec 8) : Statement (.cset x0 x1 x2) := by
  intro w k h
  obtain rfl : 0x54000000#32 ||| put x0 17 ||| put x1 8 ||| put x2 0 = w := Option.some.inj h
  have e : withChain k (0x54000000#32 ||| put x0 17 ||| put x1 8 ||| put x2 0) &&& 0x7FE10000#32 = 0x54000000#32 := by
    rw [chain_and _ _ _ (by decide)]
    simp (disch := decide) only [or_and, put_and, BitVec.or_zero, BitVec.zero_or, BitVec.reduceAnd]
  rw [major10 (by
    rw [chain_fld _ _ _ _ (by decide)]
    simp (disch := decide) only [fld_or, fld_put_other, BitVec.or_zero]
    try decide)]
  simp (disch := decide) only [decodeMajor10, row_misses e, row_matches e, if_true, Bool.false_eq_true, if_false]
  simp (disch := decide) only [chain_fld, fld_or, fld_put_other, fld_put_self, fld_zero, BitVec.or_zero, BitVec.zero_or]
  try rfl
theorem cadd (x0 : BitVec 4) (x1 : BitVec 8) (x2 : BitVec 8) : Statement (.cadd x0 x1 x2) := by
  intro w k h
  obtain rfl : 0x54800000#32 ||| put x0 17 ||| put x1 8 ||| put x2 0 = w := Option.some.inj h
  have e : withChain k (0x54800000#32 ||| put x0 17 ||| put x1 8 ||| put x2 0) &&& 0x7FE10000#32 = 0x54800000#32 := by
    rw [chain_and _ _ _ (by decide)]
    simp (disch := decide) only [or_and, put_and, BitVec.or_zero, BitVec.zero_or, BitVec.reduceAnd]
  rw [major10 (by
    rw [chain_fld _ _ _ _ (by decide)]
    simp (disch := decide) only [fld_or, fld_put_other, BitVec.or_zero]
    try decide)]
  simp (disch := decide) only [decodeMajor10, row_misses e, row_matches e, if_true, Bool.false_eq_true, if_false]
  simp (disch := decide) only [chain_fld, fld_or, fld_put_other, fld_put_self, fld_zero, BitVec.or_zero, BitVec.zero_or]
  try rfl
theorem elect (x0 : BitVec 3) : Statement (.elect x0) := by
  intro w k h
  obtain rfl : 0x55000000#32 ||| put x0 17 = w := Option.some.inj h
  have e : withChain k (0x55000000#32 ||| put x0 17) &&& 0x7FF1FFFF#32 = 0x55000000#32 := by
    rw [chain_and _ _ _ (by decide)]
    simp (disch := decide) only [or_and, put_and, BitVec.or_zero, BitVec.zero_or, BitVec.reduceAnd]
  rw [major10 (by
    rw [chain_fld _ _ _ _ (by decide)]
    simp (disch := decide) only [fld_or, fld_put_other, BitVec.or_zero]
    try decide)]
  simp (disch := decide) only [decodeMajor10, row_misses e, row_matches e, if_true, Bool.false_eq_true, if_false]
  simp (disch := decide) only [chain_fld, fld_or, fld_put_other, fld_put_self, fld_zero, BitVec.or_zero, BitVec.zero_or]
  try rfl
theorem kmov (x0 : BitVec 5) (x1 : BitVec 8) : Statement (.kmov x0 x1) := by
  intro w k h
  obtain rfl : 0x58000000#32 ||| put x0 17 ||| put x1 8 = w := Option.some.inj h
  have e : withChain k (0x58000000#32 ||| put x0 17 ||| put x1 8) &&& 0x7FC100FF#32 = 0x58000000#32 := by
    rw [chain_and _ _ _ (by decide)]
    simp (disch := decide) only [or_and, put_and, BitVec.or_zero, BitVec.zero_or, BitVec.reduceAnd]
  rw [major11 (by
    rw [chain_fld _ _ _ _ (by decide)]
    simp (disch := decide) only [fld_or, fld_put_other, BitVec.or_zero]
    try decide)]
  simp (disch := decide) only [decodeMajor11, row_misses e, row_matches e, if_true, Bool.false_eq_true, if_false]
  simp (disch := decide) only [chain_fld, fld_or, fld_put_other, fld_put_self, fld_zero, BitVec.or_zero, BitVec.zero_or]
  try rfl
theorem kmovFromLk (x0 : BitVec 5) : Statement (.kmovFromLk x0) := by
  intro w k h
  obtain rfl : 0x58010000#32 ||| put x0 17 = w := Option.some.inj h
  have e : withChain k (0x58010000#32 ||| put x0 17) &&& 0x7FC1FFFF#32 = 0x58010000#32 := by
    rw [chain_and _ _ _ (by decide)]
    simp (disch := decide) only [or_and, put_and, BitVec.or_zero, BitVec.zero_or, BitVec.reduceAnd]
  rw [major11 (by
    rw [chain_fld _ _ _ _ (by decide)]
    simp (disch := decide) only [fld_or, fld_put_other, BitVec.or_zero]
    try decide)]
  simp (disch := decide) only [decodeMajor11, row_misses e, row_matches e, if_true, Bool.false_eq_true, if_false]
  simp (disch := decide) only [chain_fld, fld_or, fld_put_other, fld_put_self, fld_zero, BitVec.or_zero, BitVec.zero_or]
  try rfl
theorem kmovToLk (x0 : BitVec 8) : Statement (.kmovToLk x0) := by
  intro w k h
  obtain rfl : 0x58410000#32 ||| put x0 8 = w := Option.some.inj h
  have e : withChain k (0x58410000#32 ||| put x0 8) &&& 0x7FFF00FF#32 = 0x58410000#32 := by
    rw [chain_and _ _ _ (by decide)]
    simp (disch := decide) only [or_and, put_and, BitVec.or_zero, BitVec.zero_or, BitVec.reduceAnd]
  rw [major11 (by
    rw [chain_fld _ _ _ _ (by decide)]
    simp (disch := decide) only [fld_or, fld_put_other, BitVec.or_zero]
    try decide)]
  simp (disch := decide) only [decodeMajor11, row_misses e, row_matches e, if_true, Bool.false_eq_true, if_false]
  simp (disch := decide) only [chain_fld, fld_or, fld_put_other, fld_put_self, fld_zero, BitVec.or_zero, BitVec.zero_or]
  try rfl
theorem kadd (x0 : BitVec 5) (x1 : BitVec 8) (x2 : BitVec 8) : Statement (.kadd x0 x1 x2) := by
  intro w k h
  obtain rfl : 0x58800000#32 ||| put x0 17 ||| put x1 8 ||| put x2 0 = w := Option.some.inj h
  have e : withChain k (0x58800000#32 ||| put x0 17 ||| put x1 8 ||| put x2 0) &&& 0x7FC10000#32 = 0x58800000#32 := by
    rw [chain_and _ _ _ (by decide)]
    simp (disch := decide) only [or_and, put_and, BitVec.or_zero, BitVec.zero_or, BitVec.reduceAnd]
  rw [major11 (by
    rw [chain_fld _ _ _ _ (by decide)]
    simp (disch := decide) only [fld_or, fld_put_other, BitVec.or_zero]
    try decide)]
  simp (disch := decide) only [decodeMajor11, row_misses e, row_matches e, if_true, Bool.false_eq_true, if_false]
  simp (disch := decide) only [chain_fld, fld_or, fld_put_other, fld_put_self, fld_zero, BitVec.or_zero, BitVec.zero_or]
  try rfl
theorem ksub (x0 : BitVec 5) (x1 : BitVec 8) (x2 : BitVec 8) : Statement (.ksub x0 x1 x2) := by
  intro w k h
  obtain rfl : 0x59000000#32 ||| put x0 17 ||| put x1 8 ||| put x2 0 = w := Option.some.inj h
  have e : withChain k (0x59000000#32 ||| put x0 17 ||| put x1 8 ||| put x2 0) &&& 0x7FC10000#32 = 0x59000000#32 := by
    rw [chain_and _ _ _ (by decide)]
    simp (disch := decide) only [or_and, put_and, BitVec.or_zero, BitVec.zero_or, BitVec.reduceAnd]
  rw [major11 (by
    rw [chain_fld _ _ _ _ (by decide)]
    simp (disch := decide) only [fld_or, fld_put_other, BitVec.or_zero]
    try decide)]
  simp (disch := decide) only [decodeMajor11, row_misses e, row_matches e, if_true, Bool.false_eq_true, if_false]
  simp (disch := decide) only [chain_fld, fld_or, fld_put_other, fld_put_self, fld_zero, BitVec.or_zero, BitVec.zero_or]
  try rfl
theorem kand (x0 : BitVec 5) (x1 : BitVec 8) (x2 : BitVec 8) : Statement (.kand x0 x1 x2) := by
  intro w k h
  obtain rfl : 0x59800000#32 ||| put x0 17 ||| put x1 8 ||| put x2 0 = w := Option.some.inj h
  have e : withChain k (0x59800000#32 ||| put x0 17 ||| put x1 8 ||| put x2 0) &&& 0x7FC10000#32 = 0x59800000#32 := by
    rw [chain_and _ _ _ (by decide)]
    simp (disch := decide) only [or_and, put_and, BitVec.or_zero, BitVec.zero_or, BitVec.reduceAnd]
  rw [major11 (by
    rw [chain_fld _ _ _ _ (by decide)]
    simp (disch := decide) only [fld_or, fld_put_other, BitVec.or_zero]
    try decide)]
  simp (disch := decide) only [decodeMajor11, row_misses e, row_matches e, if_true, Bool.false_eq_true, if_false]
  simp (disch := decide) only [chain_fld, fld_or, fld_put_other, fld_put_self, fld_zero, BitVec.or_zero, BitVec.zero_or]
  try rfl
theorem kor (x0 : BitVec 5) (x1 : BitVec 8) (x2 : BitVec 8) : Statement (.kor x0 x1 x2) := by
  intro w k h
  obtain rfl : 0x5A000000#32 ||| put x0 17 ||| put x1 8 ||| put x2 0 = w := Option.some.inj h
  have e : withChain k (0x5A000000#32 ||| put x0 17 ||| put x1 8 ||| put x2 0) &&& 0x7FC10000#32 = 0x5A000000#32 := by
    rw [chain_and _ _ _ (by decide)]
    simp (disch := decide) only [or_and, put_and, BitVec.or_zero, BitVec.zero_or, BitVec.reduceAnd]
  rw [major11 (by
    rw [chain_fld _ _ _ _ (by decide)]
    simp (disch := decide) only [fld_or, fld_put_other, BitVec.or_zero]
    try decide)]
  simp (disch := decide) only [decodeMajor11, row_misses e, row_matches e, if_true, Bool.false_eq_true, if_false]
  simp (disch := decide) only [chain_fld, fld_or, fld_put_other, fld_put_self, fld_zero, BitVec.or_zero, BitVec.zero_or]
  try rfl
theorem kxor (x0 : BitVec 5) (x1 : BitVec 8) (x2 : BitVec 8) : Statement (.kxor x0 x1 x2) := by
  intro w k h
  obtain rfl : 0x5A800000#32 ||| put x0 17 ||| put x1 8 ||| put x2 0 = w := Option.some.inj h
  have e : withChain k (0x5A800000#32 ||| put x0 17 ||| put x1 8 ||| put x2 0) &&& 0x7FC10000#32 = 0x5A800000#32 := by
    rw [chain_and _ _ _ (by decide)]
    simp (disch := decide) only [or_and, put_and, BitVec.or_zero, BitVec.zero_or, BitVec.reduceAnd]
  rw [major11 (by
    rw [chain_fld _ _ _ _ (by decide)]
    simp (disch := decide) only [fld_or, fld_put_other, BitVec.or_zero]
    try decide)]
  simp (disch := decide) only [decodeMajor11, row_misses e, row_matches e, if_true, Bool.false_eq_true, if_false]
  simp (disch := decide) only [chain_fld, fld_or, fld_put_other, fld_put_self, fld_zero, BitVec.or_zero, BitVec.zero_or]
  try rfl
theorem kshl (x0 : BitVec 5) (x1 : BitVec 8) (x2 : BitVec 8) : Statement (.kshl x0 x1 x2) := by
  intro w k h
  obtain rfl : 0x5B000000#32 ||| put x0 17 ||| put x1 8 ||| put x2 0 = w := Option.some.inj h
  have e : withChain k (0x5B000000#32 ||| put x0 17 ||| put x1 8 ||| put x2 0) &&& 0x7FC10000#32 = 0x5B000000#32 := by
    rw [chain_and _ _ _ (by decide)]
    simp (disch := decide) only [or_and, put_and, BitVec.or_zero, BitVec.zero_or, BitVec.reduceAnd]
  rw [major11 (by
    rw [chain_fld _ _ _ _ (by decide)]
    simp (disch := decide) only [fld_or, fld_put_other, BitVec.or_zero]
    try decide)]
  simp (disch := decide) only [decodeMajor11, row_misses e, row_matches e, if_true, Bool.false_eq_true, if_false]
  simp (disch := decide) only [chain_fld, fld_or, fld_put_other, fld_put_self, fld_zero, BitVec.or_zero, BitVec.zero_or]
  try rfl
theorem kshr (x0 : BitVec 5) (x1 : BitVec 8) (x2 : BitVec 8) : Statement (.kshr x0 x1 x2) := by
  intro w k h
  obtain rfl : 0x5B800000#32 ||| put x0 17 ||| put x1 8 ||| put x2 0 = w := Option.some.inj h
  have e : withChain k (0x5B800000#32 ||| put x0 17 ||| put x1 8 ||| put x2 0) &&& 0x7FC10000#32 = 0x5B800000#32 := by
    rw [chain_and _ _ _ (by decide)]
    simp (disch := decide) only [or_and, put_and, BitVec.or_zero, BitVec.zero_or, BitVec.reduceAnd]
  rw [major11 (by
    rw [chain_fld _ _ _ _ (by decide)]
    simp (disch := decide) only [fld_or, fld_put_other, BitVec.or_zero]
    try decide)]
  simp (disch := decide) only [decodeMajor11, row_misses e, row_matches e, if_true, Bool.false_eq_true, if_false]
  simp (disch := decide) only [chain_fld, fld_or, fld_put_other, fld_put_self, fld_zero, BitVec.or_zero, BitVec.zero_or]
  try rfl
theorem kcmpEq (x0 : BitVec 5) (x1 : BitVec 8) (x2 : BitVec 8) : Statement (.kcmpEq x0 x1 x2) := by
  intro w k h
  obtain rfl : 0x5C000000#32 ||| put x0 17 ||| put x1 8 ||| put x2 0 = w := Option.some.inj h
  have e : withChain k (0x5C000000#32 ||| put x0 17 ||| put x1 8 ||| put x2 0) &&& 0x7FC10000#32 = 0x5C000000#32 := by
    rw [chain_and _ _ _ (by decide)]
    simp (disch := decide) only [or_and, put_and, BitVec.or_zero, BitVec.zero_or, BitVec.reduceAnd]
  rw [major11 (by
    rw [chain_fld _ _ _ _ (by decide)]
    simp (disch := decide) only [fld_or, fld_put_other, BitVec.or_zero]
    try decide)]
  simp (disch := decide) only [decodeMajor11, row_misses e, row_matches e, if_true, Bool.false_eq_true, if_false]
  simp (disch := decide) only [chain_fld, fld_or, fld_put_other, fld_put_self, fld_zero, BitVec.or_zero, BitVec.zero_or]
  try rfl
theorem kcmpLtS (x0 : BitVec 5) (x1 : BitVec 8) (x2 : BitVec 8) : Statement (.kcmpLtS x0 x1 x2) := by
  intro w k h
  obtain rfl : 0x5C800000#32 ||| put x0 17 ||| put x1 8 ||| put x2 0 = w := Option.some.inj h
  have e : withChain k (0x5C800000#32 ||| put x0 17 ||| put x1 8 ||| put x2 0) &&& 0x7FC10000#32 = 0x5C800000#32 := by
    rw [chain_and _ _ _ (by decide)]
    simp (disch := decide) only [or_and, put_and, BitVec.or_zero, BitVec.zero_or, BitVec.reduceAnd]
  rw [major11 (by
    rw [chain_fld _ _ _ _ (by decide)]
    simp (disch := decide) only [fld_or, fld_put_other, BitVec.or_zero]
    try decide)]
  simp (disch := decide) only [decodeMajor11, row_misses e, row_matches e, if_true, Bool.false_eq_true, if_false]
  simp (disch := decide) only [chain_fld, fld_or, fld_put_other, fld_put_self, fld_zero, BitVec.or_zero, BitVec.zero_or]
  try rfl
theorem kcmpLtZ (x0 : BitVec 5) (x1 : BitVec 8) (x2 : BitVec 8) : Statement (.kcmpLtZ x0 x1 x2) := by
  intro w k h
  obtain rfl : 0x5D000000#32 ||| put x0 17 ||| put x1 8 ||| put x2 0 = w := Option.some.inj h
  have e : withChain k (0x5D000000#32 ||| put x0 17 ||| put x1 8 ||| put x2 0) &&& 0x7FC10000#32 = 0x5D000000#32 := by
    rw [chain_and _ _ _ (by decide)]
    simp (disch := decide) only [or_and, put_and, BitVec.or_zero, BitVec.zero_or, BitVec.reduceAnd]
  rw [major11 (by
    rw [chain_fld _ _ _ _ (by decide)]
    simp (disch := decide) only [fld_or, fld_put_other, BitVec.or_zero]
    try decide)]
  simp (disch := decide) only [decodeMajor11, row_misses e, row_matches e, if_true, Bool.false_eq_true, if_false]
  simp (disch := decide) only [chain_fld, fld_or, fld_put_other, fld_put_self, fld_zero, BitVec.or_zero, BitVec.zero_or]
  try rfl
theorem kbr (x0 : BitVec 8) : Statement (.kbr x0) := by
  intro w k h
  obtain rfl : 0x5D800000#32 ||| put x0 8 = w := Option.some.inj h
  have e : withChain k (0x5D800000#32 ||| put x0 8) &&& 0x7FFF00FF#32 = 0x5D800000#32 := by
    rw [chain_and _ _ _ (by decide)]
    simp (disch := decide) only [or_and, put_and, BitVec.or_zero, BitVec.zero_or, BitVec.reduceAnd]
  rw [major11 (by
    rw [chain_fld _ _ _ _ (by decide)]
    simp (disch := decide) only [fld_or, fld_put_other, BitVec.or_zero]
    try decide)]
  simp (disch := decide) only [decodeMajor11, row_misses e, row_matches e, if_true, Bool.false_eq_true, if_false]
  simp (disch := decide) only [chain_fld, fld_or, fld_put_other, fld_put_self, fld_zero, BitVec.or_zero, BitVec.zero_or]
  try rfl
theorem kclaim (x0 : BitVec 5) (x1 : BitVec 3) : Statement (.kclaim x0 x1) := by
  intro w k h
  obtain rfl : 0x5E000000#32 ||| put x0 17 ||| put x1 0 = w := Option.some.inj h
  have e : withChain k (0x5E000000#32 ||| put x0 17 ||| put x1 0) &&& 0x7FC1FFF8#32 = 0x5E000000#32 := by
    rw [chain_and _ _ _ (by decide)]
    simp (disch := decide) only [or_and, put_and, BitVec.or_zero, BitVec.zero_or, BitVec.reduceAnd]
  rw [major11 (by
    rw [chain_fld _ _ _ _ (by decide)]
    simp (disch := decide) only [fld_or, fld_put_other, BitVec.or_zero]
    try decide)]
  simp (disch := decide) only [decodeMajor11, row_misses e, row_matches e, if_true, Bool.false_eq_true, if_false]
  simp (disch := decide) only [chain_fld, fld_or, fld_put_other, fld_put_self, fld_zero, BitVec.or_zero, BitVec.zero_or]
  try rfl
theorem krel (x0 : BitVec 5) : Statement (.krel x0) := by
  intro w k h
  obtain rfl : 0x5E800000#32 ||| put x0 17 = w := Option.some.inj h
  have e : withChain k (0x5E800000#32 ||| put x0 17) &&& 0x7FC1FFFF#32 = 0x5E800000#32 := by
    rw [chain_and _ _ _ (by decide)]
    simp (disch := decide) only [or_and, put_and, BitVec.or_zero, BitVec.zero_or, BitVec.reduceAnd]
  rw [major11 (by
    rw [chain_fld _ _ _ _ (by decide)]
    simp (disch := decide) only [fld_or, fld_put_other, BitVec.or_zero]
    try decide)]
  simp (disch := decide) only [decodeMajor11, row_misses e, row_matches e, if_true, Bool.false_eq_true, if_false]
  simp (disch := decide) only [chain_fld, fld_or, fld_put_other, fld_put_self, fld_zero, BitVec.or_zero, BitVec.zero_or]
  try rfl
theorem kfromv (x0 : BitVec 5) (x1 : BitVec 8) (x2 : BitVec 8) : Statement (.kfromv x0 x1 x2) := by
  intro w k h
  obtain rfl : 0x5F000000#32 ||| put x0 17 ||| put x1 8 ||| put x2 0 = w := Option.some.inj h
  have e : withChain k (0x5F000000#32 ||| put x0 17 ||| put x1 8 ||| put x2 0) &&& 0x7FC10000#32 = 0x5F000000#32 := by
    rw [chain_and _ _ _ (by decide)]
    simp (disch := decide) only [or_and, put_and, BitVec.or_zero, BitVec.zero_or, BitVec.reduceAnd]
  rw [major11 (by
    rw [chain_fld _ _ _ _ (by decide)]
    simp (disch := decide) only [fld_or, fld_put_other, BitVec.or_zero]
    try decide)]
  simp (disch := decide) only [decodeMajor11, row_misses e, row_matches e, if_true, Bool.false_eq_true, if_false]
  simp (disch := decide) only [chain_fld, fld_or, fld_put_other, fld_put_self, fld_zero, BitVec.or_zero, BitVec.zero_or]
  try rfl
theorem mxClaim (x0 : BitVec 3) (x1 : BitVec 1) (x2 : BitVec 1) (x3 : BitVec 5) : Statement (.mxClaim x0 x1 x2 x3) := by
  intro w k h
  obtain rfl : 0x60000000#32 ||| put x0 17 ||| put x1 15 ||| put x2 14 ||| put x3 8 = w := Option.some.inj h
  have e : withChain k (0x60000000#32 ||| put x0 17 ||| put x1 15 ||| put x2 14 ||| put x3 8) &&& 0x7FF120FF#32 = 0x60000000#32 := by
    rw [chain_and _ _ _ (by decide)]
    simp (disch := decide) only [or_and, put_and, BitVec.or_zero, BitVec.zero_or, BitVec.reduceAnd]
  rw [major12 (by
    rw [chain_fld _ _ _ _ (by decide)]
    simp (disch := decide) only [fld_or, fld_put_other, BitVec.or_zero]
    try decide)]
  simp (disch := decide) only [decodeMajor12, row_misses e, row_matches e, if_true, Bool.false_eq_true, if_false]
  simp (disch := decide) only [chain_fld, fld_or, fld_put_other, fld_put_self, fld_zero, BitVec.or_zero, BitVec.zero_or]
  try rfl
theorem mxRel (x0 : BitVec 1) (x1 : BitVec 5) : Statement (.mxRel x0 x1) := by
  intro w k h
  obtain rfl : 0x60800000#32 ||| put x0 15 ||| put x1 8 = w := Option.some.inj h
  have e : withChain k (0x60800000#32 ||| put x0 15 ||| put x1 8) &&& 0x7FFF60FF#32 = 0x60800000#32 := by
    rw [chain_and _ _ _ (by decide)]
    simp (disch := decide) only [or_and, put_and, BitVec.or_zero, BitVec.zero_or, BitVec.reduceAnd]
  rw [major12 (by
    rw [chain_fld _ _ _ _ (by decide)]
    simp (disch := decide) only [fld_or, fld_put_other, BitVec.or_zero]
    try decide)]
  simp (disch := decide) only [decodeMajor12, row_misses e, row_matches e, if_true, Bool.false_eq_true, if_false]
  simp (disch := decide) only [chain_fld, fld_or, fld_put_other, fld_put_self, fld_zero, BitVec.or_zero, BitVec.zero_or]
  try rfl
theorem mxRec (x0 : BitVec 5) (x1 : BitVec 5) : Statement (.mxRec x0 x1) := by
  intro w k h
  obtain rfl : 0x61000000#32 ||| put x0 11 ||| put x1 0 = w := Option.some.inj h
  have e : withChain k (0x61000000#32 ||| put x0 11 ||| put x1 0) &&& 0x7FFF07E0#32 = 0x61000000#32 := by
    rw [chain_and _ _ _ (by decide)]
    simp (disch := decide) only [or_and, put_and, BitVec.or_zero, BitVec.zero_or, BitVec.reduceAnd]
  rw [major12 (by
    rw [chain_fld _ _ _ _ (by decide)]
    simp (disch := decide) only [fld_or, fld_put_other, BitVec.or_zero]
    try decide)]
  simp (disch := decide) only [decodeMajor12, row_misses e, row_matches e, if_true, Bool.false_eq_true, if_false]
  simp (disch := decide) only [chain_fld, fld_or, fld_put_other, fld_put_self, fld_zero, BitVec.or_zero, BitVec.zero_or]
  try rfl
theorem mxLd (x0 : BitVec 6) (x1 : BitVec 5) (x2 : BitVec 3) (x3 : BitVec 4) : Statement (.mxLd x0 x1 x2 x3) := by
  intro w k h
  obtain rfl : 0x61800000#32 ||| put x0 17 ||| put x1 11 ||| put x2 8 ||| put x3 4 = w := Option.some.inj h
  have e : withChain k (0x61800000#32 ||| put x0 17 ||| put x1 11 ||| put x2 8 ||| put x3 4) &&& 0x7F81000F#32 = 0x61800000#32 := by
    rw [chain_and _ _ _ (by decide)]
    simp (disch := decide) only [or_and, put_and, BitVec.or_zero, BitVec.zero_or, BitVec.reduceAnd]
  rw [major12 (by
    rw [chain_fld _ _ _ _ (by decide)]
    simp (disch := decide) only [fld_or, fld_put_other, BitVec.or_zero]
    try decide)]
  simp (disch := decide) only [decodeMajor12, row_misses e, row_matches e, if_true, Bool.false_eq_true, if_false]
  simp (disch := decide) only [chain_fld, fld_or, fld_put_other, fld_put_self, fld_zero, BitVec.or_zero, BitVec.zero_or]
  try rfl
theorem mxLdS (x0 : BitVec 6) (x1 : BitVec 5) (x2 : BitVec 3) (x3 : BitVec 4) : Statement (.mxLdS x0 x1 x2 x3) := by
  intro w k h
  obtain rfl : 0x61800001#32 ||| put x0 17 ||| put x1 11 ||| put x2 8 ||| put x3 4 = w := Option.some.inj h
  have e : withChain k (0x61800001#32 ||| put x0 17 ||| put x1 11 ||| put x2 8 ||| put x3 4) &&& 0x7F81000F#32 = 0x61800001#32 := by
    rw [chain_and _ _ _ (by decide)]
    simp (disch := decide) only [or_and, put_and, BitVec.or_zero, BitVec.zero_or, BitVec.reduceAnd]
  rw [major12 (by
    rw [chain_fld _ _ _ _ (by decide)]
    simp (disch := decide) only [fld_or, fld_put_other, BitVec.or_zero]
    try decide)]
  simp (disch := decide) only [decodeMajor12, row_misses e, row_matches e, if_true, Bool.false_eq_true, if_false]
  simp (disch := decide) only [chain_fld, fld_or, fld_put_other, fld_put_self, fld_zero, BitVec.or_zero, BitVec.zero_or]
  try rfl
theorem mxLdb (x0 : BitVec 1) (x1 : BitVec 5) (x2 : BitVec 5) (x3 : BitVec 4) (x4 : BitVec 4) : Statement (.mxLdb x0 x1 x2 x3 x4) := by
  intro w k h
  obtain rfl : 0x62000000#32 ||| put x0 22 ||| put x1 17 ||| put x2 11 ||| put x3 4 ||| put x4 0 = w := Option.some.inj h
  have e : withChain k (0x62000000#32 ||| put x0 22 ||| put x1 17 ||| put x2 11 ||| put x3 4 ||| put x4 0) &&& 0x7F810700#32 = 0x62000000#32 := by
    rw [chain_and _ _ _ (by decide)]
    simp (disch := decide) only [or_and, put_and, BitVec.or_zero, BitVec.zero_or, BitVec.reduceAnd]
  rw [major12 (by
    rw [chain_fld _ _ _ _ (by decide)]
    simp (disch := decide) only [fld_or, fld_put_other, BitVec.or_zero]
    try decide)]
  simp (disch := decide) only [decodeMajor12, row_misses e, row_matches e, if_true, Bool.false_eq_true, if_false]
  simp (disch := decide) only [chain_fld, fld_or, fld_put_other, fld_put_self, fld_zero, BitVec.or_zero, BitVec.zero_or]
  try rfl
theorem mxMma (x0 : BitVec 5) (x1 : BitVec 5) (x2 : BitVec 4) (x3 : BitVec 4) : Statement (.mxMma x0 x1 x2 x3) := by
  intro w k h
  obtain rfl : 0x62800000#32 ||| put x0 17 ||| put x1 11 ||| put x2 4 ||| put x3 0 = w := Option.some.inj h
  have e : withChain k (0x62800000#32 ||| put x0 17 ||| put x1 11 ||| put x2 4 ||| put x3 0) &&& 0x7FC10700#32 = 0x62800000#32 := by
    rw [chain_and _ _ _ (by decide)]
    simp (disch := decide) only [or_and, put_and, BitVec.or_zero, BitVec.zero_or, BitVec.reduceAnd]
  rw [major12 (by
    rw [chain_fld _ _ _ _ (by decide)]
    simp (disch := decide) only [fld_or, fld_put_other, BitVec.or_zero]
    try decide)]
  simp (disch := decide) only [decodeMajor12, row_misses e, row_matches e, if_true, Bool.false_eq_true, if_false]
  simp (disch := decide) only [chain_fld, fld_or, fld_put_other, fld_put_self, fld_zero, BitVec.or_zero, BitVec.zero_or]
  try rfl
theorem mxPmma (x0 : BitVec 5) (x1 : BitVec 5) (x2 : BitVec 4) (x3 : BitVec 4) : Statement (.mxPmma x0 x1 x2 x3) := by
  intro w k h
  obtain rfl : 0x63000000#32 ||| put x0 17 ||| put x1 11 ||| put x2 4 ||| put x3 0 = w := Option.some.inj h
  have e : withChain k (0x63000000#32 ||| put x0 17 ||| put x1 11 ||| put x2 4 ||| put x3 0) &&& 0x7FC10700#32 = 0x63000000#32 := by
    rw [chain_and _ _ _ (by decide)]
    simp (disch := decide) only [or_and, put_and, BitVec.or_zero, BitVec.zero_or, BitVec.reduceAnd]
  rw [major12 (by
    rw [chain_fld _ _ _ _ (by decide)]
    simp (disch := decide) only [fld_or, fld_put_other, BitVec.or_zero]
    try decide)]
  simp (disch := decide) only [decodeMajor12, row_misses e, row_matches e, if_true, Bool.false_eq_true, if_false]
  simp (disch := decide) only [chain_fld, fld_or, fld_put_other, fld_put_self, fld_zero, BitVec.or_zero, BitVec.zero_or]
  try rfl
theorem mxZero (x0 : BitVec 4) (x1 : BitVec 4) : Statement (.mxZero x0 x1) := by
  intro w k h
  obtain rfl : 0x63800000#32 ||| put x0 4 ||| put x1 0 = w := Option.some.inj h
  have e : withChain k (0x63800000#32 ||| put x0 4 ||| put x1 0) &&& 0x7FFFFF00#32 = 0x63800000#32 := by
    rw [chain_and _ _ _ (by decide)]
    simp (disch := decide) only [or_and, put_and, BitVec.or_zero, BitVec.zero_or, BitVec.reduceAnd]
  rw [major12 (by
    rw [chain_fld _ _ _ _ (by decide)]
    simp (disch := decide) only [fld_or, fld_put_other, BitVec.or_zero]
    try decide)]
  simp (disch := decide) only [decodeMajor12, row_misses e, row_matches e, if_true, Bool.false_eq_true, if_false]
  simp (disch := decide) only [chain_fld, fld_or, fld_put_other, fld_put_self, fld_zero, BitVec.or_zero, BitVec.zero_or]
  try rfl
theorem mxDrain (x0 : BitVec 6) (x1 : BitVec 5) (x2 : BitVec 3) (x3 : BitVec 4) (x4 : BitVec 4) : Statement (.mxDrain x0 x1 x2 x3 x4) := by
  intro w k h
  obtain rfl : 0x64000000#32 ||| put x0 17 ||| put x1 11 ||| put x2 8 ||| put x3 4 ||| put x4 0 = w := Option.some.inj h
  have e : withChain k (0x64000000#32 ||| put x0 17 ||| put x1 11 ||| put x2 8 ||| put x3 4 ||| put x4 0) &&& 0x7F810000#32 = 0x64000000#32 := by
    rw [chain_and _ _ _ (by decide)]
    simp (disch := decide) only [or_and, put_and, BitVec.or_zero, BitVec.zero_or, BitVec.reduceAnd]
  rw [major12 (by
    rw [chain_fld _ _ _ _ (by decide)]
    simp (disch := decide) only [fld_or, fld_put_other, BitVec.or_zero]
    try decide)]
  simp (disch := decide) only [decodeMajor12, row_misses e, row_matches e, if_true, Bool.false_eq_true, if_false]
  simp (disch := decide) only [chain_fld, fld_or, fld_put_other, fld_put_self, fld_zero, BitVec.or_zero, BitVec.zero_or]
  try rfl
theorem mxChk (x0 : BitVec 6) (x1 : BitVec 4) (x2 : BitVec 4) : Statement (.mxChk x0 x1 x2) := by
  intro w k h
  obtain rfl : 0x64800000#32 ||| put x0 17 ||| put x1 4 ||| put x2 0 = w := Option.some.inj h
  have e : withChain k (0x64800000#32 ||| put x0 17 ||| put x1 4 ||| put x2 0) &&& 0x7F81FF00#32 = 0x64800000#32 := by
    rw [chain_and _ _ _ (by decide)]
    simp (disch := decide) only [or_and, put_and, BitVec.or_zero, BitVec.zero_or, BitVec.reduceAnd]
  rw [major12 (by
    rw [chain_fld _ _ _ _ (by decide)]
    simp (disch := decide) only [fld_or, fld_put_other, BitVec.or_zero]
    try decide)]
  simp (disch := decide) only [decodeMajor12, row_misses e, row_matches e, if_true, Bool.false_eq_true, if_false]
  simp (disch := decide) only [chain_fld, fld_or, fld_put_other, fld_put_self, fld_zero, BitVec.or_zero, BitVec.zero_or]
  try rfl
theorem saCfg (x0 : BitVec 5) (x1 : BitVec 5) (x2 : BitVec 3) (x3 : BitVec 4) : Statement (.saCfg x0 x1 x2 x3) := by
  intro w k h
  obtain rfl : 0x68000000#32 ||| put x0 17 ||| put x1 11 ||| put x2 8 ||| put x3 4 = w := Option.some.inj h
  have e : withChain k (0x68000000#32 ||| put x0 17 ||| put x1 11 ||| put x2 8 ||| put x3 4) &&& 0x7FC1000F#32 = 0x68000000#32 := by
    rw [chain_and _ _ _ (by decide)]
    simp (disch := decide) only [or_and, put_and, BitVec.or_zero, BitVec.zero_or, BitVec.reduceAnd]
  rw [major13 (by
    rw [chain_fld _ _ _ _ (by decide)]
    simp (disch := decide) only [fld_or, fld_put_other, BitVec.or_zero]
    try decide)]
  simp (disch := decide) only [decodeMajor13, row_misses e, row_matches e, if_true, Bool.false_eq_true, if_false]
  simp (disch := decide) only [chain_fld, fld_or, fld_put_other, fld_put_self, fld_zero, BitVec.or_zero, BitVec.zero_or]
  try rfl
theorem saKey (x0 : BitVec 5) (x1 : BitVec 4) : Statement (.saKey x0 x1) := by
  intro w k h
  obtain rfl : 0x68800000#32 ||| put x0 11 ||| put x1 4 = w := Option.some.inj h
  have e : withChain k (0x68800000#32 ||| put x0 11 ||| put x1 4) &&& 0x7FFF070F#32 = 0x68800000#32 := by
    rw [chain_and _ _ _ (by decide)]
    simp (disch := decide) only [or_and, put_and, BitVec.or_zero, BitVec.zero_or, BitVec.reduceAnd]
  rw [major13 (by
    rw [chain_fld _ _ _ _ (by decide)]
    simp (disch := decide) only [fld_or, fld_put_other, BitVec.or_zero]
    try decide)]
  simp (disch := decide) only [decodeMajor13, row_misses e, row_matches e, if_true, Bool.false_eq_true, if_false]
  simp (disch := decide) only [chain_fld, fld_or, fld_put_other, fld_put_self, fld_zero, BitVec.or_zero, BitVec.zero_or]
  try rfl
theorem saLdc (x0 : BitVec 6) (x1 : BitVec 3) (x2 : BitVec 4) : Statement (.saLdc x0 x1 x2) := by
  intro w k h
  obtain rfl : 0x69000000#32 ||| put x0 17 ||| put x1 8 ||| put x2 4 = w := Option.some.inj h
  have e : withChain k (0x69000000#32 ||| put x0 17 ||| put x1 8 ||| put x2 4) &&& 0x7F81F80F#32 = 0x69000000#32 := by
    rw [chain_and _ _ _ (by decide)]
    simp (disch := decide) only [or_and, put_and, BitVec.or_zero, BitVec.zero_or, BitVec.reduceAnd]
  rw [major13 (by
    rw [chain_fld _ _ _ _ (by decide)]
    simp (disch := decide) only [fld_or, fld_put_other, BitVec.or_zero]
    try decide)]
  simp (disch := decide) only [decodeMajor13, row_misses e, row_matches e, if_true, Bool.false_eq_true, if_false]
  simp (disch := decide) only [chain_fld, fld_or, fld_put_other, fld_put_self, fld_zero, BitVec.or_zero, BitVec.zero_or]
  try rfl
theorem saLdh (x0 : BitVec 6) (x1 : BitVec 3) (x2 : BitVec 4) : Statement (.saLdh x0 x1 x2) := by
  intro w k h
  obtain rfl : 0x69800000#32 ||| put x0 17 ||| put x1 8 ||| put x2 4 = w := Option.some.inj h
  have e : withChain k (0x69800000#32 ||| put x0 17 ||| put x1 8 ||| put x2 4) &&& 0x7F81F80F#32 = 0x69800000#32 := by
    rw [chain_and _ _ _ (by decide)]
    simp (disch := decide) only [or_and, put_and, BitVec.or_zero, BitVec.zero_or, BitVec.reduceAnd]
  rw [major13 (by
    rw [chain_fld _ _ _ _ (by decide)]
    simp (disch := decide) only [fld_or, fld_put_other, BitVec.or_zero]
    try decide)]
  simp (disch := decide) only [decodeMajor13, row_misses e, row_matches e, if_true, Bool.false_eq_true, if_false]
  simp (disch := decide) only [chain_fld, fld_or, fld_put_other, fld_put_self, fld_zero, BitVec.or_zero, BitVec.zero_or]
  try rfl
theorem saClmp (x0 : BitVec 6) (x1 : BitVec 3) (x2 : BitVec 4) : Statement (.saClmp x0 x1 x2) := by
  intro w k h
  obtain rfl : 0x6A000000#32 ||| put x0 17 ||| put x1 8 ||| put x2 4 = w := Option.some.inj h
  have e : withChain k (0x6A000000#32 ||| put x0 17 ||| put x1 8 ||| put x2 4) &&& 0x7F81F80F#32 = 0x6A000000#32 := by
    rw [chain_and _ _ _ (by decide)]
    simp (disch := decide) only [or_and, put_and, BitVec.or_zero, BitVec.zero_or, BitVec.reduceAnd]
  rw [major13 (by
    rw [chain_fld _ _ _ _ (by decide)]
    simp (disch := decide) only [fld_or, fld_put_other, BitVec.or_zero]
    try decide)]
  simp (disch := decide) only [decodeMajor13, row_misses e, row_matches e, if_true, Bool.false_eq_true, if_false]
  simp (disch := decide) only [chain_fld, fld_or, fld_put_other, fld_put_self, fld_zero, BitVec.or_zero, BitVec.zero_or]
  try rfl
theorem saUncl (x0 : BitVec 6) (x1 : BitVec 4) : Statement (.saUncl x0 x1) := by
  intro w k h
  obtain rfl : 0x6A800000#32 ||| put x0 17 ||| put x1 4 = w := Option.some.inj h
  have e : withChain k (0x6A800000#32 ||| put x0 17 ||| put x1 4) &&& 0x7F81FF0F#32 = 0x6A800000#32 := by
    rw [chain_and _ _ _ (by decide)]
    simp (disch := decide) only [or_and, put_and, BitVec.or_zero, BitVec.zero_or, BitVec.reduceAnd]
  rw [major13 (by
    rw [chain_fld _ _ _ _ (by decide)]
    simp (disch := decide) only [fld_or, fld_put_other, BitVec.or_zero]
    try decide)]
  simp (disch := decide) only [decodeMajor13, row_misses e, row_matches e, if_true, Bool.false_eq_true, if_false]
  simp (disch := decide) only [chain_fld, fld_or, fld_put_other, fld_put_self, fld_zero, BitVec.or_zero, BitVec.zero_or]
  try rfl
theorem saGhost (x0 : BitVec 6) (x1 : BitVec 3) (x2 : BitVec 4) : Statement (.saGhost x0 x1 x2) := by
  intro w k h
  obtain rfl : 0x6B000000#32 ||| put x0 17 ||| put x1 8 ||| put x2 4 = w := Option.some.inj h
  have e : withChain k (0x6B000000#32 ||| put x0 17 ||| put x1 8 ||| put x2 4) &&& 0x7F81F80F#32 = 0x6B000000#32 := by
    rw [chain_and _ _ _ (by decide)]
    simp (disch := decide) only [or_and, put_and, BitVec.or_zero, BitVec.zero_or, BitVec.reduceAnd]
  rw [major13 (by
    rw [chain_fld _ _ _ _ (by decide)]
    simp (disch := decide) only [fld_or, fld_put_other, BitVec.or_zero]
    try decide)]
  simp (disch := decide) only [decodeMajor13, row_misses e, row_matches e, if_true, Bool.false_eq_true, if_false]
  simp (disch := decide) only [chain_fld, fld_or, fld_put_other, fld_put_self, fld_zero, BitVec.or_zero, BitVec.zero_or]
  try rfl
theorem saSwp (x0 : BitVec 6) (x1 : BitVec 5) (x2 : BitVec 4) (x3 : BitVec 1) : Statement (.saSwp x0 x1 x2 x3) := by
  intro w k h
  obtain rfl : 0x6B800000#32 ||| put x0 17 ||| put x1 11 ||| put x2 4 ||| put x3 0 = w := Option.some.inj h
  have e : withChain k (0x6B800000#32 ||| put x0 17 ||| put x1 11 ||| put x2 4 ||| put x3 0) &&& 0x7F81070E#32 = 0x6B800000#32 := by
    rw [chain_and _ _ _ (by decide)]
    simp (disch := decide) only [or_and, put_and, BitVec.or_zero, BitVec.zero_or, BitVec.reduceAnd]
  rw [major13 (by
    rw [chain_fld _ _ _ _ (by decide)]
    simp (disch := decide) only [fld_or, fld_put_other, BitVec.or_zero]
    try decide)]
  simp (disch := decide) only [decodeMajor13, row_misses e, row_matches e, if_true, Bool.false_eq_true, if_false]
  simp (disch := decide) only [chain_fld, fld_or, fld_put_other, fld_put_self, fld_zero, BitVec.or_zero, BitVec.zero_or]
  try rfl
theorem saRdc (x0 : BitVec 6) (x1 : BitVec 5) (x2 : BitVec 3) (x3 : BitVec 4) (x4 : BitVec 1) : Statement (.saRdc x0 x1 x2 x3 x4) := by
  intro w k h
  obtain rfl : 0x6C000000#32 ||| put x0 17 ||| put x1 11 ||| put x2 8 ||| put x3 4 ||| put x4 0 = w := Option.some.inj h
  have e : withChain k (0x6C000000#32 ||| put x0 17 ||| put x1 11 ||| put x2 8 ||| put x3 4 ||| put x4 0) &&& 0x7F81000E#32 = 0x6C000000#32 := by
    rw [chain_and _ _ _ (by decide)]
    simp (disch := decide) only [or_and, put_and, BitVec.or_zero, BitVec.zero_or, BitVec.reduceAnd]
  rw [major13 (by
    rw [chain_fld _ _ _ _ (by decide)]
    simp (disch := decide) only [fld_or, fld_put_other, BitVec.or_zero]
    try decide)]
  simp (disch := decide) only [decodeMajor13, row_misses e, row_matches e, if_true, Bool.false_eq_true, if_false]
  simp (disch := decide) only [chain_fld, fld_or, fld_put_other, fld_put_self, fld_zero, BitVec.or_zero, BitVec.zero_or]
  try rfl
theorem saRds (x0 : BitVec 6) (x1 : BitVec 5) (x2 : BitVec 3) (x3 : BitVec 4) (x4 : BitVec 1) : Statement (.saRds x0 x1 x2 x3 x4) := by
  intro w k h
  obtain rfl : 0x6C800000#32 ||| put x0 17 ||| put x1 11 ||| put x2 8 ||| put x3 4 ||| put x4 0 = w := Option.some.inj h
  have e : withChain k (0x6C800000#32 ||| put x0 17 ||| put x1 11 ||| put x2 8 ||| put x3 4 ||| put x4 0) &&& 0x7F81000E#32 = 0x6C800000#32 := by
    rw [chain_and _ _ _ (by decide)]
    simp (disch := decide) only [or_and, put_and, BitVec.or_zero, BitVec.zero_or, BitVec.reduceAnd]
  rw [major13 (by
    rw [chain_fld _ _ _ _ (by decide)]
    simp (disch := decide) only [fld_or, fld_put_other, BitVec.or_zero]
    try decide)]
  simp (disch := decide) only [decodeMajor13, row_misses e, row_matches e, if_true, Bool.false_eq_true, if_false]
  simp (disch := decide) only [chain_fld, fld_or, fld_put_other, fld_put_self, fld_zero, BitVec.or_zero, BitVec.zero_or]
  try rfl
theorem saClr (x0 : BitVec 4) : Statement (.saClr x0) := by
  intro w k h
  obtain rfl : 0x6D000000#32 ||| put x0 4 = w := Option.some.inj h
  have e : withChain k (0x6D000000#32 ||| put x0 4) &&& 0x7FFFFF0F#32 = 0x6D000000#32 := by
    rw [chain_and _ _ _ (by decide)]
    simp (disch := decide) only [or_and, put_and, BitVec.or_zero, BitVec.zero_or, BitVec.reduceAnd]
  rw [major13 (by
    rw [chain_fld _ _ _ _ (by decide)]
    simp (disch := decide) only [fld_or, fld_put_other, BitVec.or_zero]
    try decide)]
  simp (disch := decide) only [decodeMajor13, row_misses e, row_matches e, if_true, Bool.false_eq_true, if_false]
  simp (disch := decide) only [chain_fld, fld_or, fld_put_other, fld_put_self, fld_zero, BitVec.or_zero, BitVec.zero_or]
  try rfl
theorem saMon (x0 : BitVec 6) (x1 : BitVec 4) : Statement (.saMon x0 x1) := by
  intro w k h
  obtain rfl : 0x6D800000#32 ||| put x0 17 ||| put x1 4 = w := Option.some.inj h
  have e : withChain k (0x6D800000#32 ||| put x0 17 ||| put x1 4) &&& 0x7F81FF0F#32 = 0x6D800000#32 := by
    rw [chain_and _ _ _ (by decide)]
    simp (disch := decide) only [or_and, put_and, BitVec.or_zero, BitVec.zero_or, BitVec.reduceAnd]
  rw [major13 (by
    rw [chain_fld _ _ _ _ (by decide)]
    simp (disch := decide) only [fld_or, fld_put_other, BitVec.or_zero]
    try decide)]
  simp (disch := decide) only [decodeMajor13, row_misses e, row_matches e, if_true, Bool.false_eq_true, if_false]
  simp (disch := decide) only [chain_fld, fld_or, fld_put_other, fld_put_self, fld_zero, BitVec.or_zero, BitVec.zero_or]
  try rfl
theorem saMonW (x0 : BitVec 6) (x1 : BitVec 6) (x2 : BitVec 4) : Statement (.saMonW x0 x1 x2) := by
  intro w k h
  obtain rfl : 0x6D800001#32 ||| put x0 17 ||| put x1 8 ||| put x2 4 = w := Option.some.inj h
  have e : withChain k (0x6D800001#32 ||| put x0 17 ||| put x1 8 ||| put x2 4) &&& 0x7F81C00F#32 = 0x6D800001#32 := by
    rw [chain_and _ _ _ (by decide)]
    simp (disch := decide) only [or_and, put_and, BitVec.or_zero, BitVec.zero_or, BitVec.reduceAnd]
  rw [major13 (by
    rw [chain_fld _ _ _ _ (by decide)]
    simp (disch := decide) only [fld_or, fld_put_other, BitVec.or_zero]
    try decide)]
  simp (disch := decide) only [decodeMajor13, row_misses e, row_matches e, if_true, Bool.false_eq_true, if_false]
  simp (disch := decide) only [chain_fld, fld_or, fld_put_other, fld_put_self, fld_zero, BitVec.or_zero, BitVec.zero_or]
  try rfl
theorem saStat (x0 : BitVec 6) (x1 : BitVec 4) : Statement (.saStat x0 x1) := by
  intro w k h
  obtain rfl : 0x6E000000#32 ||| put x0 17 ||| put x1 4 = w := Option.some.inj h
  have e : withChain k (0x6E000000#32 ||| put x0 17 ||| put x1 4) &&& 0x7F81FF0F#32 = 0x6E000000#32 := by
    rw [chain_and _ _ _ (by decide)]
    simp (disch := decide) only [or_and, put_and, BitVec.or_zero, BitVec.zero_or, BitVec.reduceAnd]
  rw [major13 (by
    rw [chain_fld _ _ _ _ (by decide)]
    simp (disch := decide) only [fld_or, fld_put_other, BitVec.or_zero]
    try decide)]
  simp (disch := decide) only [decodeMajor13, row_misses e, row_matches e, if_true, Bool.false_eq_true, if_false]
  simp (disch := decide) only [chain_fld, fld_or, fld_put_other, fld_put_self, fld_zero, BitVec.or_zero, BitVec.zero_or]
  try rfl
theorem tcLd (x0 : BitVec 5) (x1 : BitVec 5) (x2 : BitVec 5) (x3 : BitVec 4) (x4 : BitVec 1) : Statement (.tcLd x0 x1 x2 x3 x4) := by
  intro w k h
  obtain rfl : 0x70000000#32 ||| put x0 18 ||| put x1 13 ||| put x2 8 ||| put x3 4 ||| put x4 3 = w := Option.some.inj h
  have e : withChain k (0x70000000#32 ||| put x0 18 ||| put x1 13 ||| put x2 8 ||| put x3 4 ||| put x4 3) &&& 0x7F800007#32 = 0x70000000#32 := by
    rw [chain_and _ _ _ (by decide)]
    simp (disch := decide) only [or_and, put_and, BitVec.or_zero, BitVec.zero_or, BitVec.reduceAnd]
  rw [major14 (by
    rw [chain_fld _ _ _ _ (by decide)]
    simp (disch := decide) only [fld_or, fld_put_other, BitVec.or_zero]
    try decide)]
  simp (disch := decide) only [decodeMajor14, row_misses e, row_matches e, if_true, Bool.false_eq_true, if_false]
  simp (disch := decide) only [chain_fld, fld_or, fld_put_other, fld_put_self, fld_zero, BitVec.or_zero, BitVec.zero_or]
  try rfl
theorem tcSt (x0 : BitVec 5) (x1 : BitVec 5) (x2 : BitVec 5) (x3 : BitVec 4) (x4 : BitVec 1) : Statement (.tcSt x0 x1 x2 x3 x4) := by
  intro w k h
  obtain rfl : 0x70800000#32 ||| put x0 18 ||| put x1 13 ||| put x2 8 ||| put x3 4 ||| put x4 3 = w := Option.some.inj h
  have e : withChain k (0x70800000#32 ||| put x0 18 ||| put x1 13 ||| put x2 8 ||| put x3 4 ||| put x4 3) &&& 0x7F800007#32 = 0x70800000#32 := by
    rw [chain_and _ _ _ (by decide)]
    simp (disch := decide) only [or_and, put_and, BitVec.or_zero, BitVec.zero_or, BitVec.reduceAnd]
  rw [major14 (by
    rw [chain_fld _ _ _ _ (by decide)]
    simp (disch := decide) only [fld_or, fld_put_other, BitVec.or_zero]
    try decide)]
  simp (disch := decide) only [decodeMajor14, row_misses e, row_matches e, if_true, Bool.false_eq_true, if_false]
  simp (disch := decide) only [chain_fld, fld_or, fld_put_other, fld_put_self, fld_zero, BitVec.or_zero, BitVec.zero_or]
  try rfl
theorem tcMcast (x0 : BitVec 5) (x1 : BitVec 5) (x2 : BitVec 5) (x3 : BitVec 4) (x4 : BitVec 1) : Statement (.tcMcast x0 x1 x2 x3 x4) := by
  intro w k h
  obtain rfl : 0x71000000#32 ||| put x0 18 ||| put x1 13 ||| put x2 8 ||| put x3 4 ||| put x4 3 = w := Option.some.inj h
  have e : withChain k (0x71000000#32 ||| put x0 18 ||| put x1 13 ||| put x2 8 ||| put x3 4 ||| put x4 3) &&& 0x7F800007#32 = 0x71000000#32 := by
    rw [chain_and _ _ _ (by decide)]
    simp (disch := decide) only [or_and, put_and, BitVec.or_zero, BitVec.zero_or, BitVec.reduceAnd]
  rw [major14 (by
    rw [chain_fld _ _ _ _ (by decide)]
    simp (disch := decide) only [fld_or, fld_put_other, BitVec.or_zero]
    try decide)]
  simp (disch := decide) only [decodeMajor14, row_misses e, row_matches e, if_true, Bool.false_eq_true, if_false]
  simp (disch := decide) only [chain_fld, fld_or, fld_put_other, fld_put_self, fld_zero, BitVec.or_zero, BitVec.zero_or]
  try rfl
theorem busA (x0 : BitVec 5) (x1 : BitVec 5) (x2 : BitVec 5) (x3 : BitVec 4) (x4 : BitVec 1) : Statement (.busA x0 x1 x2 x3 x4) := by
  intro w k h
  obtain rfl : 0x71800000#32 ||| put x0 18 ||| put x1 13 ||| put x2 8 ||| put x3 4 ||| put x4 3 = w := Option.some.inj h
  have e : withChain k (0x71800000#32 ||| put x0 18 ||| put x1 13 ||| put x2 8 ||| put x3 4 ||| put x4 3) &&& 0x7F800007#32 = 0x71800000#32 := by
    rw [chain_and _ _ _ (by decide)]
    simp (disch := decide) only [or_and, put_and, BitVec.or_zero, BitVec.zero_or, BitVec.reduceAnd]
  rw [major14 (by
    rw [chain_fld _ _ _ _ (by decide)]
    simp (disch := decide) only [fld_or, fld_put_other, BitVec.or_zero]
    try decide)]
  simp (disch := decide) only [decodeMajor14, row_misses e, row_matches e, if_true, Bool.false_eq_true, if_false]
  simp (disch := decide) only [chain_fld, fld_or, fld_put_other, fld_put_self, fld_zero, BitVec.or_zero, BitVec.zero_or]
  try rfl
theorem busB (x0 : BitVec 5) (x1 : BitVec 5) (x2 : BitVec 5) (x3 : BitVec 4) (x4 : BitVec 1) : Statement (.busB x0 x1 x2 x3 x4) := by
  intro w k h
  obtain rfl : 0x72000000#32 ||| put x0 18 ||| put x1 13 ||| put x2 8 ||| put x3 4 ||| put x4 3 = w := Option.some.inj h
  have e : withChain k (0x72000000#32 ||| put x0 18 ||| put x1 13 ||| put x2 8 ||| put x3 4 ||| put x4 3) &&& 0x7F800007#32 = 0x72000000#32 := by
    rw [chain_and _ _ _ (by decide)]
    simp (disch := decide) only [or_and, put_and, BitVec.or_zero, BitVec.zero_or, BitVec.reduceAnd]
  rw [major14 (by
    rw [chain_fld _ _ _ _ (by decide)]
    simp (disch := decide) only [fld_or, fld_put_other, BitVec.or_zero]
    try decide)]
  simp (disch := decide) only [decodeMajor14, row_misses e, row_matches e, if_true, Bool.false_eq_true, if_false]
  simp (disch := decide) only [chain_fld, fld_or, fld_put_other, fld_put_self, fld_zero, BitVec.or_zero, BitVec.zero_or]
  try rfl
theorem rvSend (x0 : BitVec 5) (x1 : BitVec 5) (x2 : BitVec 5) (x3 : BitVec 4) : Statement (.rvSend x0 x1 x2 x3) := by
  intro w k h
  obtain rfl : 0x72800000#32 ||| put x0 18 ||| put x1 13 ||| put x2 8 ||| put x3 4 = w := Option.some.inj h
  have e : withChain k (0x72800000#32 ||| put x0 18 ||| put x1 13 ||| put x2 8 ||| put x3 4) &&& 0x7F80000F#32 = 0x72800000#32 := by
    rw [chain_and _ _ _ (by decide)]
    simp (disch := decide) only [or_and, put_and, BitVec.or_zero, BitVec.zero_or, BitVec.reduceAnd]
  rw [major14 (by
    rw [chain_fld _ _ _ _ (by decide)]
    simp (disch := decide) only [fld_or, fld_put_other, BitVec.or_zero]
    try decide)]
  simp (disch := decide) only [decodeMajor14, row_misses e, row_matches e, if_true, Bool.false_eq_true, if_false]
  simp (disch := decide) only [chain_fld, fld_or, fld_put_other, fld_put_self, fld_zero, BitVec.or_zero, BitVec.zero_or]
  try rfl
theorem rvTalloc (x0 : BitVec 5) (x1 : BitVec 3) : Statement (.rvTalloc x0 x1) := by
  intro w k h
  obtain rfl : 0x73000000#32 ||| put x0 18 ||| put x1 13 = w := Option.some.inj h
  have e : withChain k (0x73000000#32 ||| put x0 18 ||| put x1 13) &&& 0x7F831FFF#32 = 0x73000000#32 := by
    rw [chain_and _ _ _ (by decide)]
    simp (disch := decide) only [or_and, put_and, BitVec.or_zero, BitVec.zero_or, BitVec.reduceAnd]
  rw [major14 (by
    rw [chain_fld _ _ _ _ (by decide)]
    simp (disch := decide) only [fld_or, fld_put_other, BitVec.or_zero]
    try decide)]
  simp (disch := decide) only [decodeMajor14, row_misses e, row_matches e, if_true, Bool.false_eq_true, if_false]
  simp (disch := decide) only [chain_fld, fld_or, fld_put_other, fld_put_self, fld_zero, BitVec.or_zero, BitVec.zero_or]
  try rfl
theorem rvTfree (x0 : BitVec 5) : Statement (.rvTfree x0) := by
  intro w k h
  obtain rfl : 0x73000001#32 ||| put x0 18 = w := Option.some.inj h
  have e : withChain k (0x73000001#32 ||| put x0 18) &&& 0x7F83FFFF#32 = 0x73000001#32 := by
    rw [chain_and _ _ _ (by decide)]
    simp (disch := decide) only [or_and, put_and, BitVec.or_zero, BitVec.zero_or, BitVec.reduceAnd]
  rw [major14 (by
    rw [chain_fld _ _ _ _ (by decide)]
    simp (disch := decide) only [fld_or, fld_put_other, BitVec.or_zero]
    try decide)]
  simp (disch := decide) only [decodeMajor14, row_misses e, row_matches e, if_true, Bool.false_eq_true, if_false]
  simp (disch := decide) only [chain_fld, fld_or, fld_put_other, fld_put_self, fld_zero, BitVec.or_zero, BitVec.zero_or]
  try rfl
theorem rvStat (x0 : BitVec 5) (x1 : BitVec 5) : Statement (.rvStat x0 x1) := by
  intro w k h
  obtain rfl : 0x73000002#32 ||| put x0 18 ||| put x1 13 = w := Option.some.inj h
  have e : withChain k (0x73000002#32 ||| put x0 18 ||| put x1 13) &&& 0x7F801FFF#32 = 0x73000002#32 := by
    rw [chain_and _ _ _ (by decide)]
    simp (disch := decide) only [or_and, put_and, BitVec.or_zero, BitVec.zero_or, BitVec.reduceAnd]
  rw [major14 (by
    rw [chain_fld _ _ _ _ (by decide)]
    simp (disch := decide) only [fld_or, fld_put_other, BitVec.or_zero]
    try decide)]
  simp (disch := decide) only [decodeMajor14, row_misses e, row_matches e, if_true, Bool.false_eq_true, if_false]
  simp (disch := decide) only [chain_fld, fld_or, fld_put_other, fld_put_self, fld_zero, BitVec.or_zero, BitVec.zero_or]
  try rfl
theorem amSend (x0 : BitVec 5) (x1 : BitVec 5) (x2 : BitVec 3) (x3 : BitVec 4) : Statement (.amSend x0 x1 x2 x3) := by
  intro w k h
  obtain rfl : 0x73800000#32 ||| put x0 18 ||| put x1 13 ||| put x2 8 ||| put x3 4 = w := Option.some.inj h
  have e : withChain k (0x73800000#32 ||| put x0 18 ||| put x1 13 ||| put x2 8 ||| put x3 4) &&& 0x7F80180F#32 = 0x73800000#32 := by
    rw [chain_and _ _ _ (by decide)]
    simp (disch := decide) only [or_and, put_and, BitVec.or_zero, BitVec.zero_or, BitVec.reduceAnd]
  rw [major14 (by
    rw [chain_fld _ _ _ _ (by decide)]
    simp (disch := decide) only [fld_or, fld_put_other, BitVec.or_zero]
    try decide)]
  simp (disch := decide) only [decodeMajor14, row_misses e, row_matches e, if_true, Bool.false_eq_true, if_false]
  simp (disch := decide) only [chain_fld, fld_or, fld_put_other, fld_put_self, fld_zero, BitVec.or_zero, BitVec.zero_or]
  try rfl
theorem amReg (x0 : BitVec 5) (x1 : BitVec 3) : Statement (.amReg x0 x1) := by
  intro w k h
  obtain rfl : 0x74000000#32 ||| put x0 18 ||| put x1 13 = w := Option.some.inj h
  have e : withChain k (0x74000000#32 ||| put x0 18 ||| put x1 13) &&& 0x7F831FFF#32 = 0x74000000#32 := by
    rw [chain_and _ _ _ (by decide)]
    simp (disch := decide) only [or_and, put_and, BitVec.or_zero, BitVec.zero_or, BitVec.reduceAnd]
  rw [major14 (by
    rw [chain_fld _ _ _ _ (by decide)]
    simp (disch := decide) only [fld_or, fld_put_other, BitVec.or_zero]
    try decide)]
  simp (disch := decide) only [decodeMajor14, row_misses e, row_matches e, if_true, Bool.false_eq_true, if_false]
  simp (disch := decide) only [chain_fld, fld_or, fld_put_other, fld_put_self, fld_zero, BitVec.or_zero, BitVec.zero_or]
  try rfl
theorem pipeBind (x0 : BitVec 5) : Statement (.pipeBind x0) := by
  intro w k h
  obtain rfl : 0x74800000#32 ||| put x0 18 = w := Option.some.inj h
  have e : withChain k (0x74800000#32 ||| put x0 18) &&& 0x7F83FFFF#32 = 0x74800000#32 := by
    rw [chain_and _ _ _ (by decide)]
    simp (disch := decide) only [or_and, put_and, BitVec.or_zero, BitVec.zero_or, BitVec.reduceAnd]
  rw [major14 (by
    rw [chain_fld _ _ _ _ (by decide)]
    simp (disch := decide) only [fld_or, fld_put_other, BitVec.or_zero]
    try decide)]
  simp (disch := decide) only [decodeMajor14, row_misses e, row_matches e, if_true, Bool.false_eq_true, if_false]
  simp (disch := decide) only [chain_fld, fld_or, fld_put_other, fld_put_self, fld_zero, BitVec.or_zero, BitVec.zero_or]
  try rfl
theorem pipePush (x0 : BitVec 5) (x1 : BitVec 5) : Statement (.pipePush x0 x1) := by
  intro w k h
  obtain rfl : 0x75000000#32 ||| put x0 18 ||| put x1 13 = w := Option.some.inj h
  have e : withChain k (0x75000000#32 ||| put x0 18 ||| put x1 13) &&& 0x7F801FFF#32 = 0x75000000#32 := by
    rw [chain_and _ _ _ (by decide)]
    simp (disch := decide) only [or_and, put_and, BitVec.or_zero, BitVec.zero_or, BitVec.reduceAnd]
  rw [major14 (by
    rw [chain_fld _ _ _ _ (by decide)]
    simp (disch := decide) only [fld_or, fld_put_other, BitVec.or_zero]
    try decide)]
  simp (disch := decide) only [decodeMajor14, row_misses e, row_matches e, if_true, Bool.false_eq_true, if_false]
  simp (disch := decide) only [chain_fld, fld_or, fld_put_other, fld_put_self, fld_zero, BitVec.or_zero, BitVec.zero_or]
  try rfl
theorem pipePop (x0 : BitVec 5) (x1 : BitVec 5) (x2 : BitVec 3) : Statement (.pipePop x0 x1 x2) := by
  intro w k h
  obtain rfl : 0x75800000#32 ||| put x0 18 ||| put x1 13 ||| put x2 0 = w := Option.some.inj h
  have e : withChain k (0x75800000#32 ||| put x0 18 ||| put x1 13 ||| put x2 0) &&& 0x7F801FF8#32 = 0x75800000#32 := by
    rw [chain_and _ _ _ (by decide)]
    simp (disch := decide) only [or_and, put_and, BitVec.or_zero, BitVec.zero_or, BitVec.reduceAnd]
  rw [major14 (by
    rw [chain_fld _ _ _ _ (by decide)]
    simp (disch := decide) only [fld_or, fld_put_other, BitVec.or_zero]
    try decide)]
  simp (disch := decide) only [decodeMajor14, row_misses e, row_matches e, if_true, Bool.false_eq_true, if_false]
  simp (disch := decide) only [chain_fld, fld_or, fld_put_other, fld_put_self, fld_zero, BitVec.or_zero, BitVec.zero_or]
  try rfl
theorem pipeEos (x0 : BitVec 5) : Statement (.pipeEos x0) := by
  intro w k h
  obtain rfl : 0x76000000#32 ||| put x0 18 = w := Option.some.inj h
  have e : withChain k (0x76000000#32 ||| put x0 18) &&& 0x7F83FFFF#32 = 0x76000000#32 := by
    rw [chain_and _ _ _ (by decide)]
    simp (disch := decide) only [or_and, put_and, BitVec.or_zero, BitVec.zero_or, BitVec.reduceAnd]
  rw [major14 (by
    rw [chain_fld _ _ _ _ (by decide)]
    simp (disch := decide) only [fld_or, fld_put_other, BitVec.or_zero]
    try decide)]
  simp (disch := decide) only [decodeMajor14, row_misses e, row_matches e, if_true, Bool.false_eq_true, if_false]
  simp (disch := decide) only [chain_fld, fld_or, fld_put_other, fld_put_self, fld_zero, BitVec.or_zero, BitVec.zero_or]
  try rfl
theorem taskSpawn (x0 : BitVec 5) (x1 : BitVec 5) (x2 : BitVec 3) : Statement (.taskSpawn x0 x1 x2) := by
  intro w k h
  obtain rfl : 0x76800000#32 ||| put x0 18 ||| put x1 13 ||| put x2 0 = w := Option.some.inj h
  have e : withChain k (0x76800000#32 ||| put x0 18 ||| put x1 13 ||| put x2 0) &&& 0x7F801FF8#32 = 0x76800000#32 := by
    rw [chain_and _ _ _ (by decide)]
    simp (disch := decide) only [or_and, put_and, BitVec.or_zero, BitVec.zero_or, BitVec.reduceAnd]
  rw [major14 (by
    rw [chain_fld _ _ _ _ (by decide)]
    simp (disch := decide) only [fld_or, fld_put_other, BitVec.or_zero]
    try decide)]
  simp (disch := decide) only [decodeMajor14, row_misses e, row_matches e, if_true, Bool.false_eq_true, if_false]
  simp (disch := decide) only [chain_fld, fld_or, fld_put_other, fld_put_self, fld_zero, BitVec.or_zero, BitVec.zero_or]
  try rfl
theorem taskSpawnL (x0 : BitVec 5) (x1 : BitVec 5) (x2 : BitVec 3) : Statement (.taskSpawnL x0 x1 x2) := by
  intro w k h
  obtain rfl : 0x76800008#32 ||| put x0 18 ||| put x1 13 ||| put x2 0 = w := Option.some.inj h
  have e : withChain k (0x76800008#32 ||| put x0 18 ||| put x1 13 ||| put x2 0) &&& 0x7F801FF8#32 = 0x76800008#32 := by
    rw [chain_and _ _ _ (by decide)]
    simp (disch := decide) only [or_and, put_and, BitVec.or_zero, BitVec.zero_or, BitVec.reduceAnd]
  rw [major14 (by
    rw [chain_fld _ _ _ _ (by decide)]
    simp (disch := decide) only [fld_or, fld_put_other, BitVec.or_zero]
    try decide)]
  simp (disch := decide) only [decodeMajor14, row_misses e, row_matches e, if_true, Bool.false_eq_true, if_false]
  simp (disch := decide) only [chain_fld, fld_or, fld_put_other, fld_put_self, fld_zero, BitVec.or_zero, BitVec.zero_or]
  try rfl
theorem taskNext (x0 : BitVec 5) : Statement (.taskNext x0) := by
  intro w k h
  obtain rfl : 0x77000000#32 ||| put x0 18 = w := Option.some.inj h
  have e : withChain k (0x77000000#32 ||| put x0 18) &&& 0x7F83FFFF#32 = 0x77000000#32 := by
    rw [chain_and _ _ _ (by decide)]
    simp (disch := decide) only [or_and, put_and, BitVec.or_zero, BitVec.zero_or, BitVec.reduceAnd]
  rw [major14 (by
    rw [chain_fld _ _ _ _ (by decide)]
    simp (disch := decide) only [fld_or, fld_put_other, BitVec.or_zero]
    try decide)]
  simp (disch := decide) only [decodeMajor14, row_misses e, row_matches e, if_true, Bool.false_eq_true, if_false]
  simp (disch := decide) only [chain_fld, fld_or, fld_put_other, fld_put_self, fld_zero, BitVec.or_zero, BitVec.zero_or]
  try rfl
theorem taskDone : Statement .taskDone := by
  intro w k h
  obtain rfl : 0x77000001#32 = w := Option.some.inj h
  cases k <;> decide
theorem nodeCommit (x0 : BitVec 4) : Statement (.nodeCommit x0) := by
  intro w k h
  obtain rfl : 0x77800000#32 ||| put x0 4 = w := Option.some.inj h
  have e : withChain k (0x77800000#32 ||| put x0 4) &&& 0x7FFFFF0F#32 = 0x77800000#32 := by
    rw [chain_and _ _ _ (by decide)]
    simp (disch := decide) only [or_and, put_and, BitVec.or_zero, BitVec.zero_or, BitVec.reduceAnd]
  rw [major14 (by
    rw [chain_fld _ _ _ _ (by decide)]
    simp (disch := decide) only [fld_or, fld_put_other, BitVec.or_zero]
    try decide)]
  simp (disch := decide) only [decodeMajor14, row_misses e, row_matches e, if_true, Bool.false_eq_true, if_false]
  simp (disch := decide) only [chain_fld, fld_or, fld_put_other, fld_put_self, fld_zero, BitVec.or_zero, BitVec.zero_or]
  try rfl
theorem nop : Statement .nop := by
  intro w k h
  obtain rfl : 0x78000000#32 = w := Option.some.inj h
  cases k <;> decide
theorem trap (x0 : BitVec 8) : Statement (.trap x0) := by
  intro w k h
  obtain rfl : 0x78800000#32 ||| put x0 0 = w := Option.some.inj h
  have e : withChain k (0x78800000#32 ||| put x0 0) &&& 0x7FFFFF00#32 = 0x78800000#32 := by
    rw [chain_and _ _ _ (by decide)]
    simp (disch := decide) only [or_and, put_and, BitVec.or_zero, BitVec.zero_or, BitVec.reduceAnd]
  rw [major15 (by
    rw [chain_fld _ _ _ _ (by decide)]
    simp (disch := decide) only [fld_or, fld_put_other, BitVec.or_zero]
    try decide)]
  simp (disch := decide) only [decodeMajor15, row_misses e, row_matches e, if_true, Bool.false_eq_true, if_false]
  simp (disch := decide) only [chain_fld, fld_or, fld_put_other, fld_put_self, fld_zero, BitVec.or_zero, BitVec.zero_or]
  try rfl
theorem sysret : Statement .sysret := by
  intro w k h
  obtain rfl : 0x79000000#32 = w := Option.some.inj h
  cases k <;> decide
theorem crRd (x0 : BitVec 6) (x1 : BitVec 8) : Statement (.crRd x0 x1) := by
  intro w k h
  obtain rfl : 0x79800000#32 ||| put x0 17 ||| put x1 0 = w := Option.some.inj h
  have e : withChain k (0x79800000#32 ||| put x0 17 ||| put x1 0) &&& 0x7F81FF00#32 = 0x79800000#32 := by
    rw [chain_and _ _ _ (by decide)]
    simp (disch := decide) only [or_and, put_and, BitVec.or_zero, BitVec.zero_or, BitVec.reduceAnd]
  rw [major15 (by
    rw [chain_fld _ _ _ _ (by decide)]
    simp (disch := decide) only [fld_or, fld_put_other, BitVec.or_zero]
    try decide)]
  simp (disch := decide) only [decodeMajor15, row_misses e, row_matches e, if_true, Bool.false_eq_true, if_false]
  simp (disch := decide) only [chain_fld, fld_or, fld_put_other, fld_put_self, fld_zero, BitVec.or_zero, BitVec.zero_or]
  try rfl
theorem crWr (x0 : BitVec 6) (x1 : BitVec 8) : Statement (.crWr x0 x1) := by
  intro w k h
  obtain rfl : 0x7A000000#32 ||| put x0 8 ||| put x1 0 = w := Option.some.inj h
  have e : withChain k (0x7A000000#32 ||| put x0 8 ||| put x1 0) &&& 0x7FFFC000#32 = 0x7A000000#32 := by
    rw [chain_and _ _ _ (by decide)]
    simp (disch := decide) only [or_and, put_and, BitVec.or_zero, BitVec.zero_or, BitVec.reduceAnd]
  rw [major15 (by
    rw [chain_fld _ _ _ _ (by decide)]
    simp (disch := decide) only [fld_or, fld_put_other, BitVec.or_zero]
    try decide)]
  simp (disch := decide) only [decodeMajor15, row_misses e, row_matches e, if_true, Bool.false_eq_true, if_false]
  simp (disch := decide) only [chain_fld, fld_or, fld_put_other, fld_put_self, fld_zero, BitVec.or_zero, BitVec.zero_or]
  try rfl
theorem park : Statement .park := by
  intro w k h
  obtain rfl : 0x7A800000#32 = w := Option.some.inj h
  cases k <;> decide
theorem poolPop (x0 : BitVec 6) : Statement (.poolPop x0) := by
  intro w k h
  obtain rfl : 0x7B000000#32 ||| put x0 17 = w := Option.some.inj h
  have e : withChain k (0x7B000000#32 ||| put x0 17) &&& 0x7F81FFFF#32 = 0x7B000000#32 := by
    rw [chain_and _ _ _ (by decide)]
    simp (disch := decide) only [or_and, put_and, BitVec.or_zero, BitVec.zero_or, BitVec.reduceAnd]
  rw [major15 (by
    rw [chain_fld _ _ _ _ (by decide)]
    simp (disch := decide) only [fld_or, fld_put_other, BitVec.or_zero]
    try decide)]
  simp (disch := decide) only [decodeMajor15, row_misses e, row_matches e, if_true, Bool.false_eq_true, if_false]
  simp (disch := decide) only [chain_fld, fld_or, fld_put_other, fld_put_self, fld_zero, BitVec.or_zero, BitVec.zero_or]
  try rfl
theorem poolGive (x0 : BitVec 6) (x1 : BitVec 5) : Statement (.poolGive x0 x1) := by
  intro w k h
  obtain rfl : 0x7B806000#32 ||| put x0 17 ||| put x1 8 = w := Option.some.inj h
  have e : withChain k (0x7B806000#32 ||| put x0 17 ||| put x1 8) &&& 0x7F81E0FF#32 = 0x7B806000#32 := by
    rw [chain_and _ _ _ (by decide)]
    simp (disch := decide) only [or_and, put_and, BitVec.or_zero, BitVec.zero_or, BitVec.reduceAnd]
  rw [major15 (by
    rw [chain_fld _ _ _ _ (by decide)]
    simp (disch := decide) only [fld_or, fld_put_other, BitVec.or_zero]
    try decide)]
  simp (disch := decide) only [decodeMajor15, row_misses e, row_matches e, if_true, Bool.false_eq_true, if_false]
  simp (disch := decide) only [chain_fld, fld_or, fld_put_other, fld_put_self, fld_zero, BitVec.or_zero, BitVec.zero_or]
  try rfl
theorem xlatProbe (x0 : BitVec 6) (x1 : BitVec 8) (x2 : BitVec 5) : Statement (.xlatProbe x0 x1 x2) := by
  intro w k h
  obtain rfl : 0x7C000000#32 ||| put x0 17 ||| put x1 8 ||| put x2 0 = w := Option.some.inj h
  have e : withChain k (0x7C000000#32 ||| put x0 17 ||| put x1 8 ||| put x2 0) &&& 0x7F8100E0#32 = 0x7C000000#32 := by
    rw [chain_and _ _ _ (by decide)]
    simp (disch := decide) only [or_and, put_and, BitVec.or_zero, BitVec.zero_or, BitVec.reduceAnd]
  rw [major15 (by
    rw [chain_fld _ _ _ _ (by decide)]
    simp (disch := decide) only [fld_or, fld_put_other, BitVec.or_zero]
    try decide)]
  simp (disch := decide) only [decodeMajor15, row_misses e, row_matches e, if_true, Bool.false_eq_true, if_false]
  simp (disch := decide) only [chain_fld, fld_or, fld_put_other, fld_put_self, fld_zero, BitVec.or_zero, BitVec.zero_or]
  try rfl
theorem tlbInv (x0 : BitVec 5) (x1 : BitVec 8) : Statement (.tlbInv x0 x1) := by
  intro w k h
  obtain rfl : 0x7C806000#32 ||| put x0 8 ||| put x1 0 = w := Option.some.inj h
  have e : withChain k (0x7C806000#32 ||| put x0 8 ||| put x1 0) &&& 0x7FFFE000#32 = 0x7C806000#32 := by
    rw [chain_and _ _ _ (by decide)]
    simp (disch := decide) only [or_and, put_and, BitVec.or_zero, BitVec.zero_or, BitVec.reduceAnd]
  rw [major15 (by
    rw [chain_fld _ _ _ _ (by decide)]
    simp (disch := decide) only [fld_or, fld_put_other, BitVec.or_zero]
    try decide)]
  simp (disch := decide) only [decodeMajor15, row_misses e, row_matches e, if_true, Bool.false_eq_true, if_false]
  simp (disch := decide) only [chain_fld, fld_or, fld_put_other, fld_put_self, fld_zero, BitVec.or_zero, BitVec.zero_or]
  try rfl
theorem bkpt (x0 : BitVec 8) : Statement (.bkpt x0) := by
  intro w k h
  obtain rfl : 0x7D000000#32 ||| put x0 0 = w := Option.some.inj h
  have e : withChain k (0x7D000000#32 ||| put x0 0) &&& 0x7FFFFF00#32 = 0x7D000000#32 := by
    rw [chain_and _ _ _ (by decide)]
    simp (disch := decide) only [or_and, put_and, BitVec.or_zero, BitVec.zero_or, BitVec.reduceAnd]
  rw [major15 (by
    rw [chain_fld _ _ _ _ (by decide)]
    simp (disch := decide) only [fld_or, fld_put_other, BitVec.or_zero]
    try decide)]
  simp (disch := decide) only [decodeMajor15, row_misses e, row_matches e, if_true, Bool.false_eq_true, if_false]
  simp (disch := decide) only [chain_fld, fld_or, fld_put_other, fld_put_self, fld_zero, BitVec.or_zero, BitVec.zero_or]
  try rfl
theorem yield : Statement .yield := by
  intro w k h
  obtain rfl : 0x7D800000#32 = w := Option.some.inj h
  cases k <;> decide
theorem time (x0 : BitVec 6) : Statement (.time x0) := by
  intro w k h
  obtain rfl : 0x7E000000#32 ||| put x0 17 = w := Option.some.inj h
  have e : withChain k (0x7E000000#32 ||| put x0 17) &&& 0x7F81FFFF#32 = 0x7E000000#32 := by
    rw [chain_and _ _ _ (by decide)]
    simp (disch := decide) only [or_and, put_and, BitVec.or_zero, BitVec.zero_or, BitVec.reduceAnd]
  rw [major15 (by
    rw [chain_fld _ _ _ _ (by decide)]
    simp (disch := decide) only [fld_or, fld_put_other, BitVec.or_zero]
    try decide)]
  simp (disch := decide) only [decodeMajor15, row_misses e, row_matches e, if_true, Bool.false_eq_true, if_false]
  simp (disch := decide) only [chain_fld, fld_or, fld_put_other, fld_put_self, fld_zero, BitVec.or_zero, BitVec.zero_or]
  try rfl
theorem fetchLineArrive (x0 : Nat) : Statement (.fetchLineArrive x0) := fun _ _ h => nomatch h
theorem launchDoorbell (x0 : Nat) (x1 : Nat) (x2 : Nat) : Statement (.launchDoorbell x0 x1 x2) := fun _ _ h => nomatch h
theorem launchQueueRead (x0 : Nat) (x1 : Nat) : Statement (.launchQueueRead x0 x1) := fun _ _ h => nomatch h
theorem workgroupPlace (x0 : Nat) : Statement (.workgroupPlace x0) := fun _ _ h => nomatch h
theorem workgroupStart (x0 : Nat) : Statement (.workgroupStart x0) := fun _ _ h => nomatch h
theorem launchComplete (x0 : Nat) : Statement (.launchComplete x0) := fun _ _ h => nomatch h
theorem groupWaitTimeout (x0 : Nat) : Statement (.groupWaitTimeout x0) := fun _ _ h => nomatch h
theorem resizeRequest (x0 : Nat) (x1 : BitVec 64) : Statement (.resizeRequest x0 x1) := fun _ _ h => nomatch h
theorem wgBarrierComplete (x0 : Nat) (x1 : Nat) : Statement (.wgBarrierComplete x0 x1) := fun _ _ h => nomatch h
theorem spanBarrierComplete (x0 : Nat) (x1 : Nat) (x2 : Nat) (x3 : Nat) (x4 : Nat) : Statement (.spanBarrierComplete x0 x1 x2 x3 x4) := fun _ _ h => nomatch h
theorem stepBarrierComplete (x0 : Nat) : Statement (.stepBarrierComplete x0) := fun _ _ h => nomatch h
theorem laneGroupWake (x0 : Nat) : Statement (.laneGroupWake x0) := fun _ _ h => nomatch h
theorem laneGroupAged (x0 : Nat) : Statement (.laneGroupAged x0) := fun _ _ h => nomatch h
theorem yieldExpiry (x0 : Nat) : Statement (.yieldExpiry x0) := fun _ _ h => nomatch h
theorem registerGrowGrant (x0 : Nat) (x1 : Nat) : Statement (.registerGrowGrant x0 x1) := fun _ _ h => nomatch h
theorem growthDeadlock (x0 : Nat) (x1 : Nat) : Statement (.growthDeadlock x0 x1) := fun _ _ h => nomatch h
theorem taskClaim (x0 : Nat) (x1 : Nat) : Statement (.taskClaim x0 x1) := fun _ _ h => nomatch h
theorem amArrive (x0 : Nat) : Statement (.amArrive x0) := fun _ _ h => nomatch h
theorem handlerStart (x0 : Nat) : Statement (.handlerStart x0) := fun _ _ h => nomatch h
theorem ptsTick (x0 : Nat) : Statement (.ptsTick x0) := fun _ _ h => nomatch h
theorem loadRequest (x0 : Nat) (x1 : Nat) : Statement (.loadRequest x0 x1) := fun _ _ h => nomatch h
theorem writeRegistration (x0 : Nat) (x1 : Nat) : Statement (.writeRegistration x0 x1) := fun _ _ h => nomatch h
theorem forcedPublishRequest (x0 : Nat) (x1 : Nat) : Statement (.forcedPublishRequest x0 x1) := fun _ _ h => nomatch h
theorem publishArrive (x0 : Nat) (x1 : Nat) (x2 : List (Nat × BitVec 8)) (x3 : BitVec 32) (x4 : BitVec 32) : Statement (.publishArrive x0 x1 x2 x3 x4) := fun _ _ h => nomatch h
theorem l1Eviction (x0 : Nat) (x1 : Nat) : Statement (.l1Eviction x0 x1) := fun _ _ h => nomatch h
theorem nearAtomic (x0 : Nat) (x1 : Nat) : Statement (.nearAtomic x0 x1) := fun _ _ h => nomatch h
theorem farAtomic (x0 : Nat) (x1 : Nat) : Statement (.farAtomic x0 x1) := fun _ _ h => nomatch h
theorem accessReply (x0 : Nat) (x1 : Nat) : Statement (.accessReply x0 x1) := fun _ _ h => nomatch h
theorem memoryReadComplete (x0 : Nat) (x1 : BitVec 2) : Statement (.memoryReadComplete x0 x1) := fun _ _ h => nomatch h
theorem engineTakeOwnership (x0 : Nat) : Statement (.engineTakeOwnership x0) := fun _ _ h => nomatch h
theorem engineFinish (x0 : Nat) : Statement (.engineFinish x0) := fun _ _ h => nomatch h
theorem tlbWalkDone (x0 : Nat) (x1 : Nat) (x2 : Nat) : Statement (.tlbWalkDone x0 x1 x2) := fun _ _ h => nomatch h
theorem tlbiVaRange (x0 : BitVec 16) (x1 : BitVec 16) (x2 : Nat) (x3 : Nat) : Statement (.tlbiVaRange x0 x1 x2 x3) := fun _ _ h => nomatch h
theorem tlbiAsid (x0 : BitVec 16) (x1 : BitVec 16) : Statement (.tlbiAsid x0 x1) := fun _ _ h => nomatch h
theorem tlbiIpaRange (x0 : BitVec 16) (x1 : Nat) (x2 : Nat) : Statement (.tlbiIpaRange x0 x1 x2) := fun _ _ h => nomatch h
theorem tlbiVmid (x0 : BitVec 16) : Statement (.tlbiVmid x0) := fun _ _ h => nomatch h
theorem tlbiAll : Statement .tlbiAll := fun _ _ h => nomatch h
theorem hostTlbSync (x0 : Nat) : Statement (.hostTlbSync x0) := fun _ _ h => nomatch h
theorem tlbSyncAnswer (x0 : Nat) : Statement (.tlbSyncAnswer x0) := fun _ _ h => nomatch h
theorem pageRequestWrite (x0 : Nat) : Statement (.pageRequestWrite x0) := fun _ _ h => nomatch h
theorem pageRequestDone (x0 : Nat) (x1 : BitVec 32) : Statement (.pageRequestDone x0 x1) := fun _ _ h => nomatch h
theorem parkTimeout (x0 : Nat) : Statement (.parkTimeout x0) := fun _ _ h => nomatch h
theorem swapOutDone (x0 : Nat) : Statement (.swapOutDone x0) := fun _ _ h => nomatch h
theorem readmit (x0 : Nat) : Statement (.readmit x0) := fun _ _ h => nomatch h
theorem s2rResume (x0 : Nat) (x1 : Nat) : Statement (.s2rResume x0 x1) := fun _ _ h => nomatch h
theorem s2rAbort (x0 : Nat) (x1 : Nat) : Statement (.s2rAbort x0 x1) := fun _ _ h => nomatch h
theorem governorWindow (x0 : Nat) : Statement (.governorWindow x0) := fun _ _ h => nomatch h
theorem preemptSwapDone (x0 : Nat) : Statement (.preemptSwapDone x0) := fun _ _ h => nomatch h
theorem swapBack (x0 : Nat) : Statement (.swapBack x0) := fun _ _ h => nomatch h
theorem shadowWriteoutDone (x0 : Nat) : Statement (.shadowWriteoutDone x0) := fun _ _ h => nomatch h
theorem slotEvictionDone (x0 : Nat) (x1 : Nat) : Statement (.slotEvictionDone x0 x1) := fun _ _ h => nomatch h
theorem arrayEvictionDone (x0 : Nat) : Statement (.arrayEvictionDone x0) := fun _ _ h => nomatch h
theorem contextRestoreDone (x0 : Nat) (x1 : Nat) : Statement (.contextRestoreDone x0 x1) := fun _ _ h => nomatch h
theorem mxCommandStart (x0 : Nat) : Statement (.mxCommandStart x0) := fun _ _ h => nomatch h
theorem mxLdDone (x0 : Nat) : Statement (.mxLdDone x0) := fun _ _ h => nomatch h
theorem busTransferStart (x0 : Nat) : Statement (.busTransferStart x0) := fun _ _ h => nomatch h
theorem busTransferDone (x0 : Nat) : Statement (.busTransferDone x0) := fun _ _ h => nomatch h
theorem mxMmaDone (x0 : Nat) (x1 : List WrongSum) : Statement (.mxMmaDone x0 x1) := fun _ _ h => nomatch h
theorem mxPmmaDone (x0 : Nat) (x1 : List WrongSum) : Statement (.mxPmmaDone x0 x1) := fun _ _ h => nomatch h
theorem mxDrainDone (x0 : Nat) : Statement (.mxDrainDone x0) := fun _ _ h => nomatch h
theorem mxChkDone (x0 : Nat) : Statement (.mxChkDone x0) := fun _ _ h => nomatch h
theorem mxRelEffect (x0 : Nat) : Statement (.mxRelEffect x0) := fun _ _ h => nomatch h
theorem saCommandStart (x0 : Nat) : Statement (.saCommandStart x0) := fun _ _ h => nomatch h
theorem saLoadDone (x0 : Nat) : Statement (.saLoadDone x0) := fun _ _ h => nomatch h
theorem saReadDone (x0 : Nat) : Statement (.saReadDone x0) := fun _ _ h => nomatch h
theorem sweepBegin (x0 : Nat) : Statement (.sweepBegin x0) := fun _ _ h => nomatch h
theorem sweepEnd (x0 : Nat) : Statement (.sweepEnd x0) := fun _ _ h => nomatch h
theorem ghostSubscribe (x0 : Nat) : Statement (.ghostSubscribe x0) := fun _ _ h => nomatch h
theorem ghostUnsubscribe (x0 : Nat) : Statement (.ghostUnsubscribe x0) := fun _ _ h => nomatch h
theorem ghostAnswer (x0 : Nat) (x1 : Bool) : Statement (.ghostAnswer x0 x1) := fun _ _ h => nomatch h
theorem ghostUpdateArrive (x0 : Nat) : Statement (.ghostUpdateArrive x0) := fun _ _ h => nomatch h
theorem monitorWindowClose (x0 : Nat) : Statement (.monitorWindowClose x0) := fun _ _ h => nomatch h
theorem chainTimeout (x0 : Nat) : Statement (.chainTimeout x0) := fun _ _ h => nomatch h
theorem stopNotice (x0 : Nat) (x1 : BitVec 16) : Statement (.stopNotice x0 x1) := fun _ _ h => nomatch h
theorem permitAudit (x0 : Nat) (x1 : Nat) : Statement (.permitAudit x0 x1) := fun _ _ h => nomatch h
theorem mcastRequest (x0 : Nat) (x1 : Nat) : Statement (.mcastRequest x0 x1) := fun _ _ h => nomatch h
theorem mergeWindowExpiry (x0 : Nat) (x1 : Nat) (x2 : Nat) : Statement (.mergeWindowExpiry x0 x1 x2) := fun _ _ h => nomatch h
theorem mergeSetExpiry (x0 : Nat) (x1 : Nat) (x2 : Nat) : Statement (.mergeSetExpiry x0 x1 x2) := fun _ _ h => nomatch h
theorem mcastReplyArrive (x0 : Nat) (x1 : Nat) : Statement (.mcastReplyArrive x0 x1) := fun _ _ h => nomatch h
theorem fragmentArrive (x0 : Nat) (x1 : Nat) : Statement (.fragmentArrive x0 x1) := fun _ _ h => nomatch h
theorem overflowFragmentArrive (x0 : Nat) : Statement (.overflowFragmentArrive x0) := fun _ _ h => nomatch h
theorem fragmentCombineDone (x0 : Nat) : Statement (.fragmentCombineDone x0) := fun _ _ h => nomatch h
theorem orphanTimeout (x0 : Nat) : Statement (.orphanTimeout x0) := fun _ _ h => nomatch h
theorem linkFlitSend (x0 : Nat) (x1 : Nat) (x2 : Nat) : Statement (.linkFlitSend x0 x1 x2) := fun _ _ h => nomatch h
theorem linkFlitReceive (x0 : Nat) (x1 : Nat) (x2 : Nat) (x3 : Bool) : Statement (.linkFlitReceive x0 x1 x2 x3) := fun _ _ h => nomatch h
theorem linkNakReceive (x0 : Nat) (x1 : Nat) (x2 : Nat) : Statement (.linkNakReceive x0 x1 x2) := fun _ _ h => nomatch h
theorem linkIdleTimer (x0 : Nat) (x1 : Nat) (x2 : Nat) : Statement (.linkIdleTimer x0 x1 x2) := fun _ _ h => nomatch h
theorem nakRepeatTimer (x0 : Nat) (x1 : Nat) (x2 : Nat) : Statement (.nakRepeatTimer x0 x1 x2) := fun _ _ h => nomatch h
theorem linkLockLoss (x0 : Nat) (x1 : Nat) : Statement (.linkLockLoss x0 x1) := fun _ _ h => nomatch h
theorem linkRetrainDone (x0 : Nat) (x1 : Nat) (x2 : BitVec 2) : Statement (.linkRetrainDone x0 x1 x2) := fun _ _ h => nomatch h
theorem retrainTimeout (x0 : Nat) (x1 : Nat) (x2 : Bool) : Statement (.retrainTimeout x0 x1 x2) := fun _ _ h => nomatch h
theorem portLost (x0 : Nat) : Statement (.portLost x0) := fun _ _ h => nomatch h
theorem cxlPortLost (x0 : Nat) : Statement (.cxlPortLost x0) := fun _ _ h => nomatch h
theorem sliceTimeout (x0 : Nat) (x1 : Nat) : Statement (.sliceTimeout x0 x1) := fun _ _ h => nomatch h
theorem hostAccess (x0 : Nat) (x1 : Nat) (x2 : Bool) (x3 : BitVec 64) : Statement (.hostAccess x0 x1 x2 x3) := fun _ _ h => nomatch h
theorem hostSnoop (x0 : Nat) : Statement (.hostSnoop x0) := fun _ _ h => nomatch h
theorem remoteAccess (x0 : Nat) (x1 : Nat) (x2 : Nat) (x3 : RemoteOp) (x4 : Nat) : Statement (.remoteAccess x0 x1 x2 x3 x4) := fun _ _ h => nomatch h
theorem streamSegment (x0 : Nat) (x1 : Nat) (x2 : Nat) (x3 : Nat) (x4 : List (BitVec 8)) : Statement (.streamSegment x0 x1 x2 x3 x4) := fun _ _ h => nomatch h
theorem frameDeadline (x0 : Nat) (x1 : Nat) (x2 : Nat) : Statement (.frameDeadline x0 x1 x2) := fun _ _ h => nomatch h
theorem descriptorPush (x0 : Nat) (x1 : Nat) : Statement (.descriptorPush x0 x1) := fun _ _ h => nomatch h
theorem streamEnable (x0 : Nat) (x1 : Nat) (x2 : BitVec 64) : Statement (.streamEnable x0 x1 x2) := fun _ _ h => nomatch h
theorem streamEos (x0 : Nat) (x1 : Nat) : Statement (.streamEos x0 x1) := fun _ _ h => nomatch h
theorem dbiWindow (x0 : Nat) (x1 : Nat) (x2 : Nat) : Statement (.dbiWindow x0 x1 x2) := fun _ _ h => nomatch h
theorem faultedLaunchEnd (x0 : Nat) : Statement (.faultedLaunchEnd x0) := fun _ _ h => nomatch h
theorem faultedLaunchTimeout (x0 : Nat) : Statement (.faultedLaunchTimeout x0) := fun _ _ h => nomatch h
theorem nodeDiscard (x0 : Nat) : Statement (.nodeDiscard x0) := fun _ _ h => nomatch h
theorem pipeDeadlock (x0 : Nat) : Statement (.pipeDeadlock x0) := fun _ _ h => nomatch h
theorem gateDrainTimeout (x0 : Nat) : Statement (.gateDrainTimeout x0) := fun _ _ h => nomatch h
theorem sweeperRead (x0 : Nat) (x1 : Nat) (x2 : BitVec 2) : Statement (.sweeperRead x0 x1 x2) := fun _ _ h => nomatch h
theorem l2CodeChange (x0 : Nat) (x1 : Bool) : Statement (.l2CodeChange x0 x1) := fun _ _ h => nomatch h
theorem reencodeDone (x0 : Nat) : Statement (.reencodeDone x0) := fun _ _ h => nomatch h
theorem retireFrame (x0 : Nat) : Statement (.retireFrame x0) := fun _ _ h => nomatch h
theorem bulkheadFatalError (x0 : Nat) : Statement (.bulkheadFatalError x0) := fun _ _ h => nomatch h
theorem stateDumpDone (x0 : Nat) : Statement (.stateDumpDone x0) := fun _ _ h => nomatch h
theorem bulkheadPowerOn (x0 : Nat) : Statement (.bulkheadPowerOn x0) := fun _ _ h => nomatch h
theorem bulkheadRailGood (x0 : Nat) : Statement (.bulkheadRailGood x0) := fun _ _ h => nomatch h
theorem bulkheadRailTimeout (x0 : Nat) : Statement (.bulkheadRailTimeout x0) := fun _ _ h => nomatch h
theorem bulkheadClockEnable (x0 : Nat) : Statement (.bulkheadClockEnable x0) := fun _ _ h => nomatch h
theorem pllLock (x0 : Nat) : Statement (.pllLock x0) := fun _ _ h => nomatch h
theorem pllLockTimeout (x0 : Nat) : Statement (.pllLockTimeout x0) := fun _ _ h => nomatch h
theorem bulkheadResetRelease (x0 : Nat) : Statement (.bulkheadResetRelease x0) := fun _ _ h => nomatch h
theorem bulkheadInitDone (x0 : Nat) : Statement (.bulkheadInitDone x0) := fun _ _ h => nomatch h
theorem bulkheadResetAssert (x0 : Nat) : Statement (.bulkheadResetAssert x0) := fun _ _ h => nomatch h
theorem bulkheadGateClose (x0 : Nat) : Statement (.bulkheadGateClose x0) := fun _ _ h => nomatch h
theorem bulkheadGateOpen (x0 : Nat) : Statement (.bulkheadGateOpen x0) := fun _ _ h => nomatch h
theorem bulkheadPowerOff (x0 : Nat) : Statement (.bulkheadPowerOff x0) := fun _ _ h => nomatch h
theorem bulkheadDrainDone (x0 : Nat) : Statement (.bulkheadDrainDone x0) := fun _ _ h => nomatch h
theorem partitionEnable (x0 : Nat) (x1 : BitVec 64) : Statement (.partitionEnable x0 x1) := fun _ _ h => nomatch h
theorem partitionTeardown (x0 : Nat) : Statement (.partitionTeardown x0) := fun _ _ h => nomatch h
theorem teardownDone (x0 : Nat) : Statement (.teardownDone x0) := fun _ _ h => nomatch h
theorem windowEnable (x0 : Nat) (x1 : BitVec 64) (x2 : BitVec 64) : Statement (.windowEnable x0 x1 x2) := fun _ _ h => nomatch h
theorem windowDisable (x0 : Nat) : Statement (.windowDisable x0) := fun _ _ h => nomatch h
theorem windowDrainDone (x0 : Nat) : Statement (.windowDrainDone x0) := fun _ _ h => nomatch h
theorem homeMapWrite (x0 : BitVec 64) : Statement (.homeMapWrite x0) := fun _ _ h => nomatch h
theorem homeMapReadInc : Statement .homeMapReadInc := fun _ _ h => nomatch h
theorem vfEnable (x0 : Nat) (x1 : BitVec 32) : Statement (.vfEnable x0 x1) := fun _ _ h => nomatch h
theorem keyTableWrite (x0 : Nat) (x1 : BitVec 64) : Statement (.keyTableWrite x0 x1) := fun _ _ h => nomatch h
theorem keyLoad (x0 : Nat) : Statement (.keyLoad x0) := fun _ _ h => nomatch h
theorem cxlRangeEnable (x0 : Nat) (x1 : BitVec 64) : Statement (.cxlRangeEnable x0 x1) := fun _ _ h => nomatch h
theorem trimStart (x0 : Nat) : Statement (.trimStart x0) := fun _ _ h => nomatch h
theorem trimDone (x0 : Nat) : Statement (.trimDone x0) := fun _ _ h => nomatch h
theorem debugResume (x0 : BitVec 64) : Statement (.debugResume x0) := fun _ _ h => nomatch h
theorem packageReset : Statement .packageReset := fun _ _ h => nomatch h
theorem bootStage (x0 : Bool) (x1 : List (BitVec 8)) : Statement (.bootStage x0 x1) := fun _ _ h => nomatch h
theorem bootImageReplace : Statement .bootImageReplace := fun _ _ h => nomatch h
theorem attestQuote (x0 : BitVec 256) : Statement (.attestQuote x0) := fun _ _ h => nomatch h
theorem registerWrite (x0 : RegSpace) (x1 : Nat) (x2 : BitVec 64) : Statement (.registerWrite x0 x1 x2) := fun _ _ h => nomatch h
theorem softError (x0 : ErrSite) : Statement (.softError x0) := fun _ _ h => nomatch h
theorem linkAckTimeout (x0 : Nat) (x1 : Nat) : Statement (.linkAckTimeout x0 x1) := fun _ _ h => nomatch h
theorem cxlLinkStateChange (x0 : Nat) (x1 : Bool) : Statement (.cxlLinkStateChange x0 x1) := fun _ _ h => nomatch h
theorem hostPortReturn : Statement .hostPortReturn := fun _ _ h => nomatch h

end Sys2Proof.Laws.Coding
end

