-- ==== Sys2Proof/Tests/Slice0.lean ====
section
/-! SUPPORT. Tests of the decoder against words written out from the formats of R265; ill-formed terms; single steps whose results are
the spec's examples or worked by hand from its rules; and, for each statement of Certificates/Slice0/Obligations.lean, states and
operands that meet the hypotheses of its clauses, at bounds of their ranges where they have them. -/

set_option Elab.async false

set_option maxRecDepth 20000

namespace Sys2Proof.Tests
open Sys2Proof Sys2Proof.Machine

/-! ## Words written out from the formats of R265 -/

/-- Formats F3 and FI. -/
def wordF3 (maj fn : BitVec 4) (d : BitVec 6) (n : BitVec 1) (a b : BitVec 8) : Nat := (0#1 ++ maj ++ fn ++ d ++ n ++ a ++ b).toNat
/-- Format FL: bit 26 is bit 5 of d and always set (R272). -/
def wordFL (maj : BitVec 4) (d : BitVec 6) (imm : BitVec 21) : Nat := (0#1 ++ maj ++ d ++ imm).toNat
/-- Format F4. -/
def wordF4 (maj : BitVec 4) (fn : BitVec 3) (d : BitVec 6) (n : BitVec 1) (a b : BitVec 8) (neg : BitVec 1) : Nat :=
  (0#1 ++ maj ++ fn ++ d ++ n ++ a ++ b ++ neg).toNat
/-- Format FM. -/
def wordFM (maj : BitVec 4) (fn : BitVec 3) (c : BitVec 4) (d : BitVec 6) (kb : BitVec 3) (a : BitVec 6) (imm : BitVec 5) : Nat :=
  (0#1 ++ maj ++ fn ++ c ++ d ++ kb ++ a ++ imm).toNat
/-- Format FB. -/
def wordFB (maj : BitVec 4) (fn : BitVec 3) (sel : BitVec 4) (off : BitVec 20) : Nat := (0#1 ++ maj ++ fn ++ sel ++ off).toNat
/-- Format FE. -/
def wordFE (maj fn : BitVec 4) (rec coord ctr : BitVec 5) (flags : BitVec 8) : Nat := (0#1 ++ maj ++ fn ++ rec ++ coord ++ ctr ++ flags).toNat

/-- The decoder reads the word as this instruction. -/
abbrev reads (w : Nat) (i : Instr) : Prop := decodeTableWord 32 w = some i

/-- Words that the spec writes out in full: the examples of R280, R294, R351 and R381. -/
theorem test_decode_spec_examples :
    reads 0x91040109 (.fmulF32 2 0 1 9) ∧ reads 0x29860221 (.shfl 3 0 2 0 1 1) ∧ reads 0x081008FF (.addi 8 0 8 0xFF) ∧
    reads 0x2908005A (.cvt 4 0 0 0x5A) ∧ reads 0x68165100 (.saCfg 11 10 1 0) ∧ reads 0x6B883811 (.saSwp 4 7 1 1) ∧
    reads 0x7E080000 (.time 4) ∧ reads 0x7984000B (.crRd 2 0x0B) ∧ reads 0x78000000 .nop ∧ reads 0xF8000000 .nop := by decide

theorem test_decode_major0 :
    reads (wordF3 0 0 63 0 0x81 0x7F) (.add 63 0 0x81 0x7F) ∧ reads (wordF3 0 1 3 1 2 0xC0) (.sub 3 1 2 0xC0) ∧
    reads (wordF3 0 2 1 0 2 3) (.addc 1 0 2 3) ∧ reads (wordF3 0 3 1 0 2 3) (.subb 1 0 2 3) ∧
    reads (wordF3 0 4 1 0 2 3) (.mullo 1 0 2 3) ∧ reads (wordF3 0 5 1 0 2 3) (.mulhi 1 0 2 3) ∧
    reads (wordF3 0 6 1 0 2 3) (.and 1 0 2 3) ∧ reads (wordF3 0 7 1 0 2 3) (.or 1 0 2 3) ∧
    reads (wordF3 0 8 1 0 2 3) (.xor 1 0 2 3) ∧ reads (wordF3 0 9 1 0 2 3) (.andn 1 0 2 3) ∧
    reads (wordF3 0 10 1 0 2 3) (.shl 1 0 2 3) ∧ reads (wordF3 0 11 1 0 2 3) (.shr 1 0 2 3) ∧
    reads (wordF3 0 12 1 0 2 3) (.sar 1 0 2 3) ∧ reads (wordF3 0 13 1 0 2 3) (.rotl 1 0 2 3) ∧
    reads (wordF3 0 14 1 0 2 3) (.min 1 0 2 3) ∧ reads (wordF3 0 15 1 0 2 3) (.max 1 0 2 3) := by decide

theorem test_decode_major1 :
    reads (wordF3 1 0 8 0 8 0xFF) (.addi 8 0 8 0xFF) ∧ reads (wordF3 1 1 1 1 2 0x80) (.andi 1 1 2 0x80) ∧
    reads (wordF3 1 2 1 0 2 3) (.ori 1 0 2 3) ∧ reads (wordF3 1 3 1 0 2 3) (.xori 1 0 2 3) ∧
    reads (wordF3 1 4 1 0 2 31) (.shli 1 0 2 31) ∧ reads (wordF3 1 5 1 0 2 30) (.shri 1 0 2 30) ∧
    reads (wordF3 1 6 1 0 2 3) (.sari 1 0 2 3) ∧ reads (wordF3 1 7 1 0 2 3) (.muli 1 0 2 3) ∧
    reads (wordF3 1 8 1 0 2 0) (.clz 1 0 2) ∧ reads (wordF3 1 9 1 0 2 0) (.ctz 1 0 2) ∧
    reads (wordF3 1 10 1 0 2 0) (.popc 1 0 2) ∧ reads (wordF3 1 11 1 0 2 0) (.brev 1 0 2) ∧
    reads (wordF3 1 12 1 0 2 0xE5) (.bfe 1 0 2 7 5) ∧ reads (wordF3 1 13 8 0 5 0xE8) (.bfi 8 0 5 7 8) := by decide

theorem test_decode_major2 :
    reads (wordF3 2 0 1 0 2 3) (.faddF32 1 0 2 3) ∧ reads (wordF3 2 1 1 0 2 3) (.fsubF32 1 0 2 3) ∧
    reads (wordF3 2 2 1 0 2 3) (.fmulF32 1 0 2 3) ∧ reads (wordF3 2 3 1 0 2 3) (.fminF32 1 0 2 3) ∧
    reads (wordF3 2 4 1 0 2 3) (.fmaxF32 1 0 2 3) ∧ reads (wordF3 2 5 1 0 2 3) (.faddBf16x2 1 0 2 3) ∧
    reads (wordF3 2 6 1 0 2 3) (.fsubBf16x2 1 0 2 3) ∧ reads (wordF3 2 7 1 0 2 3) (.fmulBf16x2 1 0 2 3) ∧
    reads (wordF3 2 8 1 0 2 3) (.fminBf16x2 1 0 2 3) ∧ reads (wordF3 2 9 1 0 2 3) (.fmaxBf16x2 1 0 2 3) ∧
    reads (wordF3 2 10 1 0 2 3) (.faddF16x2 1 0 2 3) ∧ reads (wordF3 2 11 1 0 2 3) (.fsubF16x2 1 0 2 3) ∧
    reads (wordF3 2 12 1 0 2 3) (.fmulF16x2 1 0 2 3) ∧ reads (wordF3 2 13 1 0 2 3) (.fminF16x2 1 0 2 3) ∧
    reads (wordF3 2 14 1 0 2 3) (.fmaxF16x2 1 0 2 3) := by decide

/-- Function 15 of major 2: b holds the operation in [2:0] and the type in [4:3] (R270). -/
theorem test_decode_unary :
    reads (wordF3 2 15 1 0 2 0b00000) (.frcp 1 0 2 0) ∧ reads (wordF3 2 15 1 0 2 0b01001) (.frsqrt 1 0 2 1) ∧
    reads (wordF3 2 15 1 0 2 0b10010) (.fsqrt 1 0 2 2) ∧ reads (wordF3 2 15 1 0 2 0b00011) (.fexp2 1 0 2 0) ∧
    reads (wordF3 2 15 1 0 2 0b00100) (.flog2 1 0 2 0) ∧ reads (wordF3 2 15 1 0 2 0b00101) (.fsin 1 0 2 0) ∧
    reads (wordF3 2 15 1 0 2 0b00110) (.fcos 1 0 2 0) ∧ reads (wordF3 2 15 1 0 2 0b10111) (.fclass 1 0 2 2) := by decide

theorem test_decode_major3 :
    reads (wordF4 3 0 9 0 2 3 1) (.ffmaF32 9 0 2 3 1) ∧ reads (wordF4 3 1 9 1 2 3 0) (.ffmaBf16x2 9 1 2 3 0) ∧
    reads (wordF4 3 2 9 0 2 3 0) (.ffmaF16x2 9 0 2 3 0) ∧ reads (wordF4 3 3 9 0 2 3 1) (.imadLo 9 0 2 3 1) ∧
    reads (wordF4 3 4 9 0 2 0xFF 0) (.imadHi 9 0 2 0xFF 0) := by decide

/-- Major 4: predicates in the low bits of d, conditions in d[5:3], the predicate of sel in fn (R271). -/
theorem test_decode_major4 :
    reads (wordF3 4 0 0b110101 0 2 3) (.icmp 6 5 2 3) ∧ reads (wordF3 4 1 0b111001 0 2 3) (.fcmp 7 1 2 3) ∧
    reads (wordF3 4 2 9 0 2 3) (.sel 0 9 0 2 3) ∧ reads (wordF3 4 9 3 1 2 3) (.sel 7 3 1 2 3) ∧
    reads (wordF3 4 10 1 0 2 3) (.pand 1 2 3) ∧ reads (wordF3 4 11 1 0 2 3) (.por 1 2 3) ∧
    reads (wordF3 4 12 1 0 2 7) (.pxor 1 2 7) ∧ reads (wordF3 4 13 1 0 2 0) (.pnot 1 2) ∧
    reads (wordF3 4 14 0b010001 0 3 0) (.ptest 2 1 3) := by decide

theorem test_decode_major5 :
    reads (wordF3 5 0 1 0 2 0) (.mov 1 0 2) ∧ reads (wordF3 5 1 1 0 0xFE 0xDC) (.li 1 0 0xFEDC) ∧
    reads (wordF3 5 2 4 0 0 0x5A) (.cvt 4 0 0 0x5A) ∧ reads (wordF3 5 3 1 0 2 0b11101001) (.shfl 1 0 2 1 3 9) ∧
    reads (wordF3 5 4 1 0 0 0b00010) (.voteAny 1 2) ∧ reads (wordF3 5 4 1 0 0 0b01010) (.voteAll 1 2) ∧
    reads (wordF3 5 4 1 1 0 0b10010) (.voteBallot 1 1 2) ∧ reads (wordFL 5 0b100101 0x1F2345) (.lih 5 0x1F2345) := by decide

/-- Functions 5 to 7 of major 5 (R272, R298). -/
theorem test_decode_lane_control :
    reads (wordF3 5 5 0 0 0 0b00000010) (.edge 2) ∧ reads (wordF3 5 5 3 0 7 0b00100000) (.idxSet 3 7) ∧
    reads (wordF3 5 5 2 0 7 0b01000000) (.idxAdd 2 7) ∧ reads (wordF3 5 5 0 0 0 0b01111111) (.rgnPf 31) ∧
    reads (wordF3 5 5 0 0 0 0b10000110) (.rgrow 6) ∧ reads (wordF3 5 5 0 0 0 0b10100001) (.rshrink 1) ∧
    reads (wordF3 5 5 7 0 0 0b11001111) (.rdsp 7 0 15) ∧ reads (wordF3 5 6 7 1 0 2) (.ldX 7 1 2) ∧
    reads (wordF3 5 7 2 0 9 0) (.stX 2 9) := by decide

theorem test_decode_major6 :
    reads (wordFM 6 0 15 9 7 33 31) (.ldB8Z 15 9 7 33 31) ∧ reads (wordFM 6 1 1 9 7 3 2) (.ldB8S 1 9 7 3 2) ∧
    reads (wordFM 6 2 1 9 7 3 2) (.ldB16Z 1 9 7 3 2) ∧ reads (wordFM 6 3 1 9 7 3 2) (.ldB16S 1 9 7 3 2) ∧
    reads (wordFM 6 4 1 9 7 3 2) (.ldB32 1 9 7 3 2) ∧ reads (wordFM 6 5 1 9 7 3 2) (.ldB64 1 9 7 3 2) ∧
    reads (wordFM 6 6 1 9 7 3 2) (.ldB128 1 9 7 3 2) ∧ reads (wordFM 6 7 1 9 7 3 0b00010) (.ldAcq 1 9 7 3 0) ∧
    reads (wordFM 6 7 1 9 7 3 0b00011) (.ldAcq 1 9 7 3 1) ∧ reads (wordFM 6 7 1 9 7 3 0b01011) (.kld 1 9 7 3) := by decide

theorem test_decode_major7 :
    reads (wordFM 7 0 1 9 7 3 2) (.stB8 1 9 7 3 2) ∧ reads (wordFM 7 1 1 9 7 3 2) (.stB16 1 9 7 3 2) ∧
    reads (wordFM 7 2 1 9 7 3 2) (.stB32 1 9 7 3 2) ∧ reads (wordFM 7 3 1 9 7 3 2) (.stB64 1 9 7 3 2) ∧
    reads (wordFM 7 4 1 9 7 3 2) (.stB128 1 9 7 3 2) ∧ reads (wordFM 7 5 1 9 7 3 0b00010) (.stRel 1 9 7 3 0) ∧
    reads (wordFM 7 5 1 9 7 3 0b00011) (.stRel 1 9 7 3 1) ∧ reads (wordFM 7 5 1 9 7 3 0b01011) (.kst 1 9 7 3) := by decide

/-- The stash words: function 6 of major 7 (R273, R310 to R312). -/
theorem test_decode_stash :
    reads (wordFM 7 6 1 0b010111 7 3 0b00000) (.stashMap 1 5 3 7 3) ∧ reads (wordFM 7 6 1 0 7 3 0b01000) (.stashWb 1 7 3) ∧
    reads (wordFM 7 6 1 0b100010 0 0 0b01000) (.stashWbE 1 2) ∧ reads (wordFM 7 6 1 0 7 3 0b10000) (.stashInv 1 7 3) ∧
    reads (wordFM 7 6 1 0b100001 0 0 0b10000) (.stashInvE 1 1) ∧ reads (wordFM 7 6 1 9 0 0 0b11000) (.stashStg 1 9) := by decide

/-- Major 8: order in imm[1:0], far in [2], size in [3], the signed forms in [4] (R274). -/
theorem test_decode_major8 :
    reads (wordFM 8 0 1 9 7 3 0b01101) (.atomAdd 1 9 7 3 1 1 1) ∧ reads (wordFM 8 0 1 9 7 3 0b10110) (.atomFaddF32 1 9 7 3 1 2) ∧
    reads (wordFM 8 1 1 9 7 3 0b00011) (.atomAnd 1 9 7 3 0 0 3) ∧ reads (wordFM 8 2 1 9 7 3 0b01000) (.atomOr 1 9 7 3 1 0 0) ∧
    reads (wordFM 8 3 1 9 7 3 0b00100) (.atomXor 1 9 7 3 0 1 0) ∧ reads (wordFM 8 4 1 9 7 3 0b11001) (.atomMin 1 9 7 3 1 1 0 1) ∧
    reads (wordFM 8 5 1 9 7 3 0b00010) (.atomMax 1 9 7 3 0 0 0 2) ∧ reads (wordFM 8 6 1 9 7 3 0b01111) (.atomExch 1 9 7 3 1 1 3) ∧
    reads (wordFM 8 7 15 9 7 3 0b01001) (.atomCas 15 9 7 3 1 0 1) := by decide

theorem test_decode_major9 :
    reads (wordFB 9 0 0 0xFFFF0) (.bra 0xFFFF0) ∧ reads (wordFB 9 1 15 16) (.braK 15 16) ∧
    reads (wordFB 9 2 0b1011 16) (.brd 1 3 16) ∧ reads (wordFB 9 2 0b0011 16) (.brd 0 3 16) ∧
    reads (wordFB 9 3 0 16) (.call 16) ∧ reads (wordFB 9 4 0b0010 8) (.jinit 2 8) ∧
    reads (wordFB 9 4 0b0111 0) (.jwait 3) ∧ reads (wordFB 9 4 0b1001 0) (.jarr 1) ∧
    reads (wordFB 9 5 0 0) .ret ∧ reads (wordFB 9 5 1 0) .exit ∧
    reads (wordFB 9 6 0b0101 0) (.emRd 5) ∧ reads (wordFB 9 6 0b1101 0) (.emWr 5) := by decide

theorem test_decode_major10 :
    reads (wordF3 10 0 0 0 0 3) (.barWg 3) ∧ reads (wordF3 10 1 0 0 0 0b011100) (.barSpan 3 4) ∧
    reads (wordF3 10 2 0 0 0 1) (.barStep 1) ∧ reads (wordF3 10 3 0 0 0 0) .fenceAcq ∧
    reads (wordF3 10 4 0 0 0 0) .fenceRel ∧ reads (wordF3 10 5 0 0 0 0) .fenceAr ∧
    reads (wordF3 10 6 15 0 0 255) (.waitc 15 0 255) ∧ reads (wordF3 10 7 31 0 0x61 0) (.waitm 31 0x61 0) ∧
    reads (wordF3 10 8 2 0 0 5) (.cset 2 0 5) ∧ reads (wordF3 10 9 2 0 0x7F 0) (.cadd 2 0x7F 0) ∧
    reads (wordF3 10 10 6 0 0 0) (.elect 6) := by decide

theorem test_decode_major11 :
    reads (wordF3 11 0 3 0 0x61 0) (.kmov 3 0x61) ∧ reads (wordF3 11 0 3 1 0 0) (.kmovFromLk 3) ∧
    reads (wordF3 11 0 0x20 1 0x61 0) (.kmovToLk 0x61) ∧ reads (wordF3 11 1 31 0 0x61 0x48) (.kadd 31 0x61 0x48) ∧
    reads (wordF3 11 2 3 0 0x61 0x4B) (.ksub 3 0x61 0x4B) ∧ reads (wordF3 11 3 3 0 0x61 0x62) (.kand 3 0x61 0x62) ∧
    reads (wordF3 11 4 3 0 0x61 0x62) (.kor 3 0x61 0x62) ∧ reads (wordF3 11 5 3 0 0x61 0x62) (.kxor 3 0x61 0x62) ∧
    reads (wordF3 11 6 3 0 0x61 0x62) (.kshl 3 0x61 0x62) ∧ reads (wordF3 11 7 3 0 0x61 0x62) (.kshr 3 0x61 0x62) ∧
    reads (wordF3 11 8 3 0 0x61 0x62) (.kcmpEq 3 0x61 0x62) ∧ reads (wordF3 11 9 3 0 0x61 0x62) (.kcmpLtS 3 0x61 0x62) ∧
    reads (wordF3 11 10 3 0 0x61 0x62) (.kcmpLtZ 3 0x61 0x62) ∧ reads (wordF3 11 11 0 0 0x61 0) (.kbr 0x61) := by decide

/-- kclaim, krel and kfromv (R333, R334). -/
theorem test_decode_ownership :
    reads (wordF3 11 12 3 0 0 5) (.kclaim 3 5) ∧ reads (wordF3 11 13 3 0 0 0) (.krel 3) ∧
    reads (wordF3 11 14 3 0 1 2) (.kfromv 3 1 2) := by decide

theorem test_decode_major12 :
    reads (wordF3 12 0 2 0 0b11001111 0) (.mxClaim 2 1 1 15) ∧ reads (wordF3 12 1 0 0 0b00011111 0) (.mxRel 0 31) ∧
    reads (wordF3 12 2 0 0 0b10001000 9) (.mxRec 17 9) ∧ reads (wordF3 12 3 62 0 0b10001011 0x50) (.mxLd 62 17 3 5) ∧
    reads (wordF3 12 3 63 0 0b10001011 0x51) (.mxLdS 63 17 3 5) ∧ reads (wordF3 12 4 0b100111 0 0b10001000 0x5F) (.mxLdb 1 7 17 5 15) ∧
    reads (wordF3 12 5 9 0 0b10001000 0x53) (.mxMma 9 17 5 3) ∧ reads (wordF3 12 6 9 0 0b10001000 0x53) (.mxPmma 9 17 5 3) ∧
    reads (wordF3 12 7 0 0 0 0x53) (.mxZero 5 3) ∧ reads (wordF3 12 8 62 0 0b10001011 0x53) (.mxDrain 62 17 3 5 3) ∧
    reads (wordF3 12 9 63 0 0 0x53) (.mxChk 63 5 3) := by decide

theorem test_decode_major13 :
    reads (wordF3 13 0 11 0 0b01010001 0x70) (.saCfg 11 10 1 7) ∧ reads (wordF3 13 1 0 0 0b01010000 0x70) (.saKey 10 7) ∧
    reads (wordF3 13 2 62 0 3 0x70) (.saLdc 62 3 7) ∧ reads (wordF3 13 3 62 0 3 0x70) (.saLdh 62 3 7) ∧
    reads (wordF3 13 4 62 0 3 0x70) (.saClmp 62 3 7) ∧ reads (wordF3 13 5 63 0 0 0x70) (.saUncl 63 7) ∧
    reads (wordF3 13 6 63 0 3 0x70) (.saGhost 63 3 7) ∧ reads (wordF3 13 7 63 0 0b01010000 0x71) (.saSwp 63 10 7 1) ∧
    reads (wordF3 13 8 62 0 0b01010011 0x71) (.saRdc 62 10 3 7 1) ∧ reads (wordF3 13 9 62 0 0b00000011 0x70) (.saRds 62 0 3 7 0) ∧
    reads (wordF3 13 10 0 0 0 0x70) (.saClr 7) ∧ reads (wordF3 13 11 62 0 0 0x70) (.saMon 62 7) ∧
    reads (wordF3 13 11 62 0 63 0x71) (.saMonW 62 63 7) ∧ reads (wordF3 13 12 62 0 0 0x70) (.saStat 62 7) := by decide

theorem test_decode_major14 :
    reads (wordFE 14 0 4 8 0 0xF0) (.tcLd 4 8 0 15 0) ∧ reads (wordFE 14 1 4 8 9 0xF8) (.tcSt 4 8 9 15 1) ∧
    reads (wordFE 14 2 4 8 9 0xF8) (.tcMcast 4 8 9 15 1) ∧ reads (wordFE 14 3 4 8 9 0xF8) (.busA 4 8 9 15 1) ∧
    reads (wordFE 14 4 4 8 0 0xF0) (.busB 4 8 0 15 0) ∧ reads (wordFE 14 5 4 8 9 0xF0) (.rvSend 4 8 9 15) ∧
    reads (wordFE 14 6 4 5 0 0) (.rvTalloc 4 5) ∧ reads (wordFE 14 6 4 0 0 1) (.rvTfree 4) ∧
    reads (wordFE 14 6 4 31 0 2) (.rvStat 4 31) ∧ reads (wordFE 14 7 4 31 6 0xF0) (.amSend 4 31 6 15) ∧
    reads (wordFE 14 8 4 6 0 0) (.amReg 4 6) := by decide

/-- Functions 9 to 15 of major 14 (R276, R364). -/
theorem test_decode_pipes_and_tasks :
    reads (wordFE 14 9 4 0 0 0) (.pipeBind 4) ∧ reads (wordFE 14 10 4 31 0 0) (.pipePush 4 31) ∧
    reads (wordFE 14 11 4 31 0 6) (.pipePop 4 31 6) ∧ reads (wordFE 14 12 4 0 0 0) (.pipeEos 4) ∧
    reads (wordFE 14 13 4 8 0 6) (.taskSpawn 4 8 6) ∧ reads (wordFE 14 13 4 8 0 0b1110) (.taskSpawnL 4 8 6) ∧
    reads (wordFE 14 14 4 0 0 0) (.taskNext 4) ∧ reads (wordFE 14 14 0 0 0 1) .taskDone ∧
    reads (wordFE 14 15 0 0 0 0xF0) (.nodeCommit 15) := by decide

theorem test_decode_major15 :
    reads (wordF3 15 0 0 0 0 0) .nop ∧ reads (wordF3 15 1 0 0 0 0xAB) (.trap 0xAB) ∧ reads (wordF3 15 2 0 0 0 0) .sysret ∧
    reads (wordF3 15 3 9 0 0 0x0B) (.crRd 9 0x0B) ∧ reads (wordF3 15 4 0 0 9 0x18) (.crWr 9 0x18) ∧
    reads (wordF3 15 5 0 0 0 0) .park ∧ reads (wordF3 15 6 9 0 0 0) (.poolPop 9) ∧
    reads (wordF3 15 7 9 0 0x7F 0) (.poolGive 9 31) ∧ reads (wordF3 15 8 9 0 0x81 31) (.xlatProbe 9 0x81 31) ∧
    reads (wordF3 15 9 0 0 0x7F 0xAB) (.tlbInv 31 0xAB) ∧ reads (wordF3 15 10 0 0 0 0xAB) (.bkpt 0xAB) ∧
    reads (wordF3 15 11 0 0 0 0) .yield ∧ reads (wordF3 15 12 62 0 0 0) (.time 62) := by decide

/-- Words that no row assigns are refused (R277): reserved functions, types, sizes and fields that must be zero. -/
theorem test_decode_refuses : ∀ w ∈ [
    wordF3 1 14 0 0 0 0, wordF3 1 4 1 0 2 0x20, wordF3 1 8 1 0 2 1, wordF3 2 15 1 0 2 0x20, wordF4 3 5 9 0 2 3 0, wordF3 4 0 1 1 2 3,
    wordF3 4 13 1 0 2 1, wordF3 4 15 0 0 0 0, wordF3 5 5 0 0 0 0xE0, wordF3 5 4 1 0 0 0b11010, wordFM 6 7 1 9 7 3 0b00100,
    wordFM 6 7 1 0b100000 7 3 0b01011, wordFM 7 7 0 0 0 0 0, wordFM 8 1 1 9 7 3 0b10000, wordFM 8 0 1 9 7 3 0b11000,
    wordFB 9 7 0 0, wordFB 9 5 2 0, wordFB 9 4 0b1100 0, wordF3 10 11 0 0 0 0, wordF3 11 15 0 0 0 0, wordF3 12 10 0 0 0 0,
    wordF3 13 13 0 0 0 0, wordFE 14 6 4 0 0 3, wordFE 14 9 4 1 0 0, wordF3 15 13 0 0 0 0, wordF3 15 0 0 0 0 1], decodeTableWord 32 w = none := by
  decide

/-! ## Well-formedness: a term for each check, which the check refuses -/

/-- Latches l0 to l3 alone, types, modes, selectors and codes (R61, R270, R271, R294, R298, R299). -/
theorem test_ill_formed_arithmetic :
    wellFormed (.add 4 1 0 0) = false ∧ wellFormed (.add 3 1 0 0) = true ∧ wellFormed (.frcp 0 0 0 3) = false ∧
    wellFormed (.ptest 3 0 0) = false ∧ wellFormed (.cvt 0 0 0 0x30) = false ∧ wellFormed (.cvt 0 0 0 0x0F) = false ∧
    wellFormed (.cvt 0 0 0 0x84) = false ∧ wellFormed (.cvt 0 0 0 0x16) = false ∧ wellFormed (.cvt 0 0 0 0x38) = false ∧
    wellFormed (.cvt 0 0 0 0x4E) = false ∧ wellFormed (.edge 3) = false ∧ wellFormed (.rgrow 7) = false ∧ wellFormed (.rshrink 7) = false ∧
    wellFormed (.rdsp 0 0 5) = false ∧ wellFormed (.rdsp 0 0 16) = false := by decide

/-- Register runs that pass the last register (R303, R274, R340, R351, R364). -/
theorem test_ill_formed_runs :
    wellFormed (.ldB64 0 63 0 0 0) = false ∧ wellFormed (.ldB128 0 61 0 0 0) = false ∧ wellFormed (.stRel 0 63 0 0 1) = false ∧
    wellFormed (.stRel 0 63 0 0 0) = true ∧ wellFormed (.atomAdd 0 63 0 0 1 0 0) = false ∧ wellFormed (.atomCas 0 63 0 0 0 0 0) = false ∧
    wellFormed (.atomCas 0 61 0 0 1 0 0) = false ∧ wellFormed (.mxLd 63 0 0 0) = false ∧ wellFormed (.saMon 63 0) = false ∧
    wellFormed (.tcLd 29 0 0 0 0) = false ∧ wellFormed (.tcMcast 0 30 0 0 0) = false ∧ wellFormed (.rvSend 0 31 0 0) = false ∧
    wellFormed (.pipeBind 31) = false ∧ wellFormed (.taskNext 31) = false := by decide

/-- Thresholds, uniform sources, rejoin selectors, spans, tiles, unused counters and control registers (R316, R330, R275, R315, R340,
R351, R364, R72). -/
theorem test_ill_formed_fields :
    wellFormed (.waitc 0 1 0) = false ∧ wellFormed (.waitc 0 0x60 1) = false ∧ wellFormed (.kadd 0 0x60 0) = false ∧
    wellFormed (.kadd 0 0x4C 0x60) = false ∧ wellFormed (.jinit 0 9) = false ∧ wellFormed (.barSpan 0 5) = false ∧
    wellFormed (.barSpan 4 0) = false ∧ wellFormed (.mxClaim 0 1 0 16) = false ∧ wellFormed (.saSwp 0 1 0 0) = false ∧
    wellFormed (.tcLd 0 0 1 0 0) = false ∧ wellFormed (.crRd 0 0x0D) = false ∧ wellFormed (.crRd 63 0) = false ∧
    wellFormed (.crRd 63 5) = true ∧ wellFormed (.crWr 0 0x09) = false ∧ wellFormed (.xlatProbe 63 0 0) = false ∧
    wellFormed (.time 63) = false := by decide

/-! ## A small machine: one lane group (2) of one workgroup (1) of one launch (0) at its turn on core 0, whose granule 0x100000 is
translated, lane 0 alone active -/

def lane : Lg := { placeLg 0 with em := 1, landing := false }
def group : Wg := placeWg 0
def program : Launch := placeLaunch 0

def small (l : Lg) (w : Wg) (p : Launch) : State :=
  { cur := 2, nseq := 3, win := placeWin, hmap := [(0, 0#4)], cores := [(0, { tlb := [placeTlb] })], boot := { stage := 3 },
    lgs := [(2, l)], wgs := [(1, w)], launches := [(0, p)] }

/-- The context of the lane group. -/
def ctx (l : Lg) (w : Wg) (p : Launch) : Ctx := ⟨2, l, w, p, l, w.k, w.kown⟩

theorem small_ctx (l : Lg) (w : Wg) (p : Launch) (h : l.wg = 1) (hw : w.launch = 0) : (small l w p).ctx? = some (ctx l w p) := by
  simp [State.ctx?, small, ctx, Tab.find, h, hw]

/-- A word's hypotheses are met in the small machine. -/
theorem met {i : Instr} {ok : Ctx → State → Prop} (l : Lg) (w : Wg) (p : Launch) (hi : wellFormed i = true)
    (hok : ok (ctx l w p) (small l w p)) (h : l.wg = 1 := by rfl) (hw : w.launch = 0 := by rfl) : Meets i ok :=
  ⟨_, _, small_ctx l w p h hw, hi, hok⟩

/-- A plain source, whose words pass their codes, raises no cause. -/
theorem src_ok (c : Ctx) (a : BitVec 8) (hb : c.sn.bad = []) (h : a.toNat / 64 ≠ 1) : c.SrcOk a := by
  refine ⟨fun e => absurd e h, fun e => absurd e h, ?_⟩
  simp [Ctx.badWord, hb]

/-! ## One step on the small machine: the values are those of the spec's examples or worked from its tables by hand -/

/-- The lane group after a word. -/
def after (i : Instr) (l : Lg) (w : Wg := group) : Option Lg :=
  match exec i (small l w program) with
  | .next t => t.lgs.find 2
  | _ => none

def vOf (l : Option Lg) (r : Nat) (lane : Nat := 0) : Option Nat := l.map fun l => (l.vAt r lane).toNat
def flagsOf (l : Option Lg) : Option Nat := l.map (·.fflags.toNat)

theorem test_add_wraps : vOf (after (.add 3 0 1 2) { lane with v := [(32, 0xFFFFFFFF), (64, 2)] }) 3 = some 1 := by decide
theorem test_sub_source_is_destination : vOf (after (.sub 1 0 2 1) { lane with v := [(32, 5), (64, 3)] }) 1 = some 0xFFFFFFFE := by decide
theorem test_inactive_lane_keeps : vOf (after (.add 3 0 1 2) { lane with v := [(33, 7), (97, 9)] }) 3 1 = some 9 := by decide
theorem test_addi_sign : vOf (after (.addi 3 0 1 0xFF) { lane with v := [(32, 0)] }) 3 = some 0xFFFFFFFF := by decide
theorem test_shl_past_width : vOf (after (.shl 3 0 1 2) { lane with v := [(32, 1), (64, 32)] }) 3 = some 0 := by decide
theorem test_sar_past_width : vOf (after (.sar 3 0 1 2) { lane with v := [(32, 0x80000000), (64, 99)] }) 3 = some 0xFFFFFFFF := by decide
theorem test_clz_zero : vOf (after (.clz 3 0 1) lane) 3 = some 32 := by decide
theorem test_mulhi : vOf (after (.mulhi 3 0 1 1) { lane with v := [(32, 0xFFFFFFFF)] }) 3 = some 0xFFFFFFFE := by decide
/-- The last statement of the example of R294: byte 3 of v8. -/
theorem test_bfi_spec_example :
    vOf (after (.bfi 8 0 7 7 24) { lane with v := [(224, 0x7F), (256, 0xB03879)] }) 8 = some 0x7FB03879 := by decide
/-- R294: 300.0 to e4m3 is 0x79 with nx; 1000.0 overflows to NaN 0x7F with of and nx. -/
theorem test_cvt_pk_spec_example :
    vOf (after (.cvt 4 0 0 0x5A) { lane with v := [(0, 0x43960000)] } { group with k := [(5, 0x107098)] }) 4 = some 0x79 ∧
    vOf (after (.cvt 7 0 3 0x5A) { lane with v := [(96, 0x447A0000)] } { group with k := [(5, 0x107098)] }) 7 = some 0x7F := by decide
/-- 1.5 · 2.5 = 3.75 and 1.0 + 2^-24 = 1.0 rounded to even. -/
theorem test_fp : vOf (after (.fmulF32 3 0 1 2) { lane with v := [(32, 0x3FC00000), (64, 0x40200000)] }) 3 = some 0x40700000 ∧
    vOf (after (.faddF32 3 0 1 2) { lane with v := [(32, 0x3F800000), (64, 0x33800000)] }) 3 = some 0x3F800000 := by decide
theorem test_latch_write : (after (.mov 2 1 1) { lane with v := [(32, 7)] }).map (fun l => ((l.lAt 2 0).toNat, l.lOk.toNat, (l.vAt 2 0).toNat)) =
    some (7, 4, 0) := by decide
theorem test_neighbour : vOf (after (.mov 3 0 0xC1) { lane with v := [(32, 7), (33, 8)] }) 3 = some 8 ∧
    vOf (after (.mov 3 0 0x81) { lane with v := [(32, 7), (33, 8), (63, 9)], edge := 2 }) 3 = some 9 := by decide
theorem test_icmp_signed : (after (.icmp 2 1 1 2) { lane with v := [(32, 0xFFFFFFFF), (64, 1)] }).map (fun l => (l.qAt 1).toNat) = some 1 := by decide
theorem test_cset : (after (.cset 3 0 200) { lane with em := 0 }).map (fun l => (l.cAt 3).toNat) = some 200 := by decide
theorem test_jinit : (after (.jinit 1 8) lane).map (fun l => (l.rj 1).expected.toNat) = some 1 := by decide
theorem test_exit_ends : (after .exit lane).map (fun l => (l.status, l.ended.toNat)) = some (.ended, 1) := by decide
theorem test_trap_enters : (after (.trap 0xAB) lane).map (·.status) = some (.stopped .none) := by decide

/-! ## Hypotheses that are met: the words -/

theorem meets_IntegerWords : Meets (.add 1 0 2 0x81) (fun c _ => c.SrcOk 2 ∧ c.SrcOk 0x81) :=
  met lane group program rfl ⟨src_ok _ _ rfl (by decide), src_ok _ _ rfl (by decide)⟩
/-- A latch destination and latch sources that the run has written. -/
theorem meets_IntegerWords_latch : Meets (.sub 3 1 0x43 0x48) (fun c _ => c.SrcOk 0x43 ∧ c.SrcOk 0x48) :=
  met { lane with lOk := 8 } group program rfl ⟨⟨by decide, by decide, by simp [Ctx.badWord, ctx, lane, placeLg]⟩, ⟨by decide, by decide, by simp [Ctx.badWord, ctx, lane, placeLg]⟩⟩
theorem meets_ImmediateWords : Meets (.bfi 63 0 0xC0 7 31) (fun c _ => c.DstOk 0 63 ∧ c.SrcOk 0xC0) :=
  met lane group program rfl ⟨by decide, src_ok _ _ rfl (by decide)⟩
theorem meets_FpBinaryWords : Meets (.faddBf16x2 1 0 2 3) (fun c _ => c.SrcOk 2 ∧ c.SrcOk 3) :=
  met lane group program rfl ⟨src_ok _ _ rfl (by decide), src_ok _ _ rfl (by decide)⟩
theorem meets_FpUnaryWords : Meets (.flog2 1 0 2 2) (fun c _ => c.SrcOk 2) := met lane group program rfl (src_ok _ _ rfl (by decide))
theorem meets_FusedWords : Meets (.imadHi 3 1 2 3 1) (fun c _ => c.SrcOk 2 ∧ c.SrcOk 3 ∧ c.DstOk 1 3) :=
  met { lane with lOk := 8 } group program rfl ⟨src_ok _ _ rfl (by decide), src_ok _ _ rfl (by decide), by decide⟩
theorem meets_CompareWords : Meets (.fcmp 7 7 2 3) (fun c _ => c.SrcOk 2 ∧ c.SrcOk 3) ∧ Meets (.ptest 2 7 0) (fun _ _ => True) :=
  ⟨met lane group program rfl ⟨src_ok _ _ rfl (by decide), src_ok _ _ rfl (by decide)⟩, met lane group program rfl trivial⟩
theorem meets_MoveWords :
    Meets (.lih 31 0) (fun c _ => c.RegOk 31) ∧
    Meets (.cvt 4 0 0 0x5A) (fun c _ => c.SrcOk 0 ∧ (cvtReadsD 0x5A = true → c.DstOk 0 4) ∧
      (cvtDesc 0x5A = true → (Desc.of ((c.kr (bits (0x5A#8) 4 4)).toNat % 2 ^ 32)).valid = true)) ∧
    Meets (.cvt 4 0 0 0x44) (fun c _ => c.SrcOk 0 ∧ (cvtReadsD 0x44 = true → c.DstOk 0 4) ∧
      (cvtDesc 0x44 = true → (Desc.of ((c.kr (bits (0x44#8) 4 4)).toNat % 2 ^ 32)).valid = true)) :=
  ⟨met lane group program rfl (by decide),
   met lane { group with k := [(5, 0x107098)] } program rfl ⟨src_ok _ _ rfl (by decide), by decide, by decide⟩,
   met lane group program rfl ⟨src_ok _ _ rfl (by decide), by decide, by decide⟩⟩
/-- An exchange by a lane number read from a register. -/
theorem meets_MoveWords_shfl : Meets (.shfl 3 0 2 1 3 31) (fun c _ => c.RegOk 31 ∧ c.SrcAtOk (fun j =>
    if j + (c.v 31 j).toNat % 32 ≤ 31 then j + (c.v 31 j).toNat % 32 else j) 2) :=
  met lane group program rfl ⟨by decide, by decide, by decide, by simp [Ctx.badWord, ctx, lane, placeLg]⟩
theorem meets_LaneControlWords :
    Meets (.rgnPf 2) (fun c _ => ((List.range 64).filter (c.kr 2).getLsbD).length ≤ 32) ∧
    Meets (.rgrow 0) (fun c _ => c.lg.hnd = false ∧ 64 + 32 * 0 ≤ c.lg.alloc) ∧
    Meets (.rgrow 6) (fun c _ => c.lg.hnd = false ∧ c.lg.alloc < 64 + 32 * 6) ∧
    Meets (.ldX 3 0 3) (fun c _ => ∀ j ∈ c.lanes, c.idxOk 3 j = true ∧ c.badWord (c.idxReg 3 j, j) = false) ∧
    Meets (.stX 3 7) (fun c _ => (∀ j ∈ c.lanes, c.idxOk 3 j = true) ∧ c.SrcOk 7) :=
  ⟨met lane { group with k := [(2, 0xFFFFFFFF)] } program rfl (by decide), met lane group program rfl (by decide),
   met lane group program rfl (by decide), met { lane with x := [(3, ⟨0, 64⟩)] } group program rfl (by decide),
   met { lane with x := [(3, ⟨0, 64⟩)] } group program rfl ⟨by decide, src_ok _ _ rfl (by decide)⟩⟩
theorem meets_LaneControlWords_more :
    Meets (.rgnPf 31) (fun c _ => 32 < ((List.range 64).filter (c.kr 31).getLsbD).length ∧
      ∀ r, r < 64 → (c.kr 31).getLsbD r = true → r < c.lg.alloc → c.RegOk r) ∧
    Meets (.rgrow 6) (fun c _ => c.lg.hnd = true) ∧
    Meets (.rgrow 6) (fun c _ => c.lg.hnd = false ∧ c.lg.alloc < 64 + 32 * 6 ∧ c.lg.grown ≠ some (64 + 32 * 6)) ∧
    Meets (.rgrow 6) (fun c _ => c.lg.hnd = false ∧ c.lg.alloc < 64 + 32 * 6 ∧ c.lg.grown = some (64 + 32 * 6)) :=
  ⟨met lane { group with k := [(31, 0x1FFFFFFFF)] } program rfl (by decide), met { lane with hnd := true } group program rfl (by decide),
   met lane group program rfl (by decide), met { lane with grown := some 256 } group program rfl (by decide)⟩
theorem meets_SourceForms : (0 : Nat) < 32 ∧ (31 : Nat) < 32 := by decide
theorem meets_SourceTraps :
    (let c := ctx lane group program
     c.sn.bad = [] ∧ (0x43#8).toNat / 64 = 1 ∧ (0x43#8).toNat % 64 < 4 ∧ c.sn.lOk.getLsbD 3 = false) ∧
    (let c := ctx { lane with x := [(0, ⟨0, 0⟩)] } group program
     c.sn.bad = [] ∧ (0x44#8).toNat / 64 = 1 ∧ 4 ≤ (0x44#8).toNat % 64 ∧ maskOf (c.lanes.filter fun j => !c.idxOk 0 j) ≠ 0) ∧
    (let c := ctx { lane with bad := [64] } group program
     maskOf (c.lanes.filter fun j => c.badWord (2, j)) ≠ 0 ∧ ∀ j ∈ c.lanes, c.badWord (3, j) = false) := by decide
theorem meets_SourceTraps_other : (ctx lane group program).SrcOk 3 ∧ (ctx { lane with bad := [64] } group program).SrcOk 3 :=
  ⟨src_ok _ _ rfl (by decide), by decide, by decide, by decide⟩
theorem meets_IllegalWords : (encode (.add 4 1 0 0)).isSome = true ∧ wellFormed (.add 4 1 0 0) = false ∧
    (small lane group program).ctx?.isSome = true ∧ State.reset.ctx?.isNone = true := by decide

/-- A mask that names a register whose word in lane 0 fails its code, within the allocation. -/
theorem meets_LaneControlWords_poison :
    Meets (.rgnPf 31) (fun c _ => maskOf (c.lanes.filter fun j => (List.range 64).any fun r =>
      (c.kr 31).getLsbD r && decide (r < c.lg.alloc) && c.badWord (r, j)) ≠ 0) :=
  met { lane with bad := [2016] } { group with k := [(31, 0x8000000000000000)] } program rfl (by decide)

/-- An access of the lane group under way: a load, a load-acquire, a store. -/
def loading : Access :=
  { lg := 2, wg := 1, core := 0, bank := 0, vf := 0, part := 0, kind := .load, ctr := 3, d := 9, size := 4, fpc := 0, seq := 7,
    lanes := [{ lane := 0, va := placeAt, pa := placeAt, kid := 1, agent := 0 }] }
def behind (x : Access) (l : Lg := lane) (w : Wg := group) (p : Launch := program) : State :=
  { small l w p with accs := [(7, x)], nseq := 8 }
def acquire : Access := { loading with kind := .acq, acqr := true }
theorem behind_ctx (x : Access) (l : Lg) (w : Wg) (p : Launch) (h : l.wg = 1) (hw : w.launch = 0) :
    (behind x l w p).ctx? = some (ctx l w p) := small_ctx l w p h hw
/-- No lane active; a launch of restartable workgroups; staged words on a line that an engine owns. -/
def noLanes : Lg := { lane with em := 0 }
def restartable : Launch := { program with words := program.words.set 1 (1#64 <<< 27), rst := true }
def staging : Wg := { group with k := [(2, 0x100000)], staged := [(placeAt, 1)] }
def engineHolds (l : Lg := lane) : State := { small l staging restartable with dir := [(8192, { lock := some 9 })] }
theorem engineHolds_ctx : (engineHolds).ctx? = some (ctx lane staging restartable) := small_ctx lane staging restartable rfl rfl

/-- A load from the translated granule. -/
theorem meets_LoadWords : Meets (.ldB128 15 60 2 1 31) (fun c s => c.RegOk 1 ∧ IssueOk {
    kind := .load, ctr := 15, d := 60, size := 16, need := 1, lanes := c.lanes,
    addr := fun j => (c.kr 2 + (c.v 1 j).signExtend 64 + BitVec.ofNat 64 (16 * 31)).toNat } c s) :=
  met lane { group with k := [(2, 0x100000)] } program rfl ⟨by decide, by decide⟩
theorem meets_LoadWords_ordered : Meets (.ldAcq 0 62 0 1 1) (fun c s => c.RegOk 1 ∧ IssueOk {
    kind := .acq, ctr := 0, d := 62, size := 8, acqr := true, need := 1, lanes := c.lanes,
    addr := fun j => (c.kr 0 + (c.v 1 j).signExtend 64).toNat } c s) ∧
    Meets (.kld 0 31 0 1) (fun c s => c.ExOk 1 ∧ c.owns 31 = true ∧ IssueOk {
      kind := .kload, ctr := 0, d := 31, size := 8, need := 1, lanes := c.lanes.take 1,
      addr := fun j => (c.kr 0 + (c.v 1 j).signExtend 64).toNat } c s) :=
  ⟨met { lane with v := [(32, 0x10FFF8)] } group program rfl ⟨by decide, by decide⟩,
   met { lane with v := [(32, 0x10FFF8)] } group program rfl ⟨by decide, by decide, by decide⟩⟩
/-- The same in a machine that differs from the small one outside the three tables. -/
theorem metIn {i : Instr} {ok : Ctx → State → Prop} (s : State) (c : Ctx) (h : s.ctx? = some c) (hi : wellFormed i = true)
    (hok : ok c s) : Meets i ok := ⟨s, c, h, hi, hok⟩
theorem meets_LoadWords_held :
    Meets (.ldB8Z 0 9 2 1 0) (fun c s => c.RegOk 1 ∧ s.acquiring c.g = true) ∧
    Meets (.ldAcq 0 9 2 1 1) (fun c s => c.RegOk 1 ∧ s.acquiring c.g = true) ∧
    Meets (.kld 0 31 2 1) (fun c s => (c.ExOk 1 ∧ c.owns 31 = true) ∧ s.acquiring c.g = true) ∧
    Meets (.ldB128 15 60 2 1 31) (fun c s => c.em = 0 ∧ s.acquiring c.g = false) :=
  ⟨metIn (behind acquire) _ (behind_ctx _ _ _ _ rfl rfl) rfl (by decide), metIn (behind acquire) _ (behind_ctx _ _ _ _ rfl rfl) rfl (by decide),
   metIn (behind acquire) _ (behind_ctx _ _ _ _ rfl rfl) rfl (by decide), met noLanes group program rfl (by decide)⟩
/-- A store outside staged mode, and a release in staged mode. -/
theorem meets_StoreWords : Meets (.stB32 0 9 2 1 1) (fun c s => c.RegOk 1 ∧ (∀ r, r < 1 → c.RegOk (9 + r)) ∧ StoreOk {
    kind := .store, ctr := 0, d := 9, size := 4, need := 2, lanes := c.lanes,
    addr := fun j => (c.kr 2 + (c.v 1 j).signExtend 64 + BitVec.ofNat 64 (4 * 1)).toNat,
    data := fun j => (((List.range 1).flatMap fun r => natLe 4 (c.v (9 + r) j).toNat).take 4) } c s) :=
  met lane { group with k := [(2, 0x100000)] } program rfl ⟨by decide, by decide, by decide⟩
def storeReq (relr : Bool) (c : Ctx) : Req := {
    kind := if relr then .rel else .store, ctr := 0, d := 9, size := 4, relr := relr, need := 2, lanes := c.lanes,
    addr := fun j => (c.kr 2 + (c.v 1 j).signExtend 64 + BitVec.ofNat 64 0).toNat,
    data := fun j => (((List.range 1).flatMap fun r => natLe 4 (c.v (9 + r) j).toNat).take 4) }
/-- Behind an acquire, a release behind a load, no lane active; in staged mode a commit that an engine holds back and a load in the way. -/
theorem meets_StoreWords_held :
    Meets (.stB32 0 9 2 1 0) (fun c s => (c.RegOk 1 ∧ ∀ r, r < 1 → c.RegOk (9 + r)) ∧ ¬ OrderOk (storeReq false c) c s) ∧
    Meets (.stRel 0 9 2 1 0) (fun c s => (c.RegOk 1 ∧ ∀ r, r < 1 → c.RegOk (9 + r)) ∧ ¬ OrderOk (storeReq true c) c s) ∧
    Meets (.stRel 0 9 2 1 0) (fun c s => c.em = 0 ∧ OrderOk (storeReq true c) c s) ∧
    Meets (.stRel 0 9 2 1 0) (fun c s => (c.RegOk 1 ∧ ∀ r, r < 1 → c.RegOk (9 + r)) ∧ (storeReq true c).lanes ≠ [] ∧
      OrderOk (storeReq true c) c s ∧ (storeReq true c).relr = true ∧ c.la.staged = true ∧ s.commitWaits c.lg.wg = true) ∧
    Meets (.stB32 0 9 2 1 0) (fun c s => (c.RegOk 1 ∧ ∀ r, r < 1 → c.RegOk (9 + r)) ∧ (storeReq false c).lanes ≠ [] ∧
      OrderOk (storeReq false c) c s ∧ (storeReq false c).relr = false ∧ c.la.staged = true ∧ Unowned s ((storeReq false c).xlated c s).1 ∧
      ((storeReq false c).xlated c s).1.loadsInWay c (storeReq false c).size ((storeReq false c).places c s) = true) :=
  ⟨metIn (behind acquire) _ (behind_ctx _ _ _ _ rfl rfl) rfl (by decide), metIn (behind loading) _ (behind_ctx _ _ _ _ rfl rfl) rfl (by decide),
   met noLanes group program rfl (by decide), metIn engineHolds _ engineHolds_ctx rfl (by decide),
   metIn (behind loading lane staging restartable) _ (behind_ctx _ _ _ _ rfl rfl) rfl (by decide)⟩
theorem meets_AtomicWords : Meets (.atomCas 0 60 2 1 1 1 3) (fun c s => c.RegOk 1 ∧ (∀ r, r < 4 → c.RegOk (60 + r)) ∧ c.lanes ≠ [] ∧
    s.acquiring c.g = false ∧ s.quiet c.g = true ∧ CommitOk c s ∧ Unowned s (Committed c s) ∧ IssueOk {
      kind := .atomic .cas true, ctr := 0, d := 60, size := 8, acqr := true, relr := true, need := 3, lanes := c.lanes,
      addr := fun j => (c.kr 2 + (c.v 1 j).signExtend 64).toNat,
      data := fun j => (List.range 2).flatMap fun r => natLe 4 (c.v (62 + r) j).toNat,
      cmp := fun j => (List.range 2).flatMap fun r => natLe 4 (c.v (60 + r) j).toNat } c (Committed c s)) :=
  met lane { group with k := [(2, 0x100000)] } program rfl
    ⟨by decide, by decide, by decide, by decide, by decide, by decide, by decide, by decide⟩
theorem meets_AtomicWords_held :
    Meets (.atomAdd 0 9 2 1 0 1 2) (fun c s => (c.RegOk 1 ∧ ∀ r, r < 1 → c.RegOk (9 + r)) ∧ ¬ OrderOk { storeReq true c with acqr := false } c s) ∧
    Meets (.atomAdd 0 9 2 1 0 1 2) (fun c s => c.em = 0 ∧ OrderOk (storeReq true c) c s) ∧
    Meets (.atomAdd 0 9 2 1 0 1 2) (fun c s => (c.RegOk 1 ∧ ∀ r, r < 1 → c.RegOk (9 + r)) ∧ (storeReq true c).lanes ≠ [] ∧
      OrderOk (storeReq true c) c s ∧ ¬ CommitOk c s) :=
  ⟨metIn (behind loading) _ (behind_ctx _ _ _ _ rfl rfl) rfl (by decide), met noLanes group program rfl (by decide),
   metIn engineHolds _ engineHolds_ctx rfl (by decide)⟩
/-- A misaligned address, one at 2^57, one without a translation: a load, a store, an atomic, a load of a uniform register; an unowned one. -/
theorem meets_LoadWords_faults :
    Meets (.ldB128 15 60 2 1 31) (fun c s => c.RegOk 1 ∧ FaultOk {
      kind := .load, ctr := 15, d := 60, size := 16, need := 1, lanes := c.lanes,
      addr := fun j => (c.kr 2 + (c.v 1 j).signExtend 64 + BitVec.ofNat 64 (16 * 31)).toNat } c s) ∧
    Meets (.kld 0 31 0 1) (fun c s => (c.ExOk 1 ∧ c.owns 31 = true) ∧ FaultOk {
      kind := .kload, ctr := 0, d := 31, size := 8, need := 1, lanes := c.lanes.take 1,
      addr := fun j => (c.kr 0 + (c.v 1 j).signExtend 64).toNat } c s) ∧
    Meets (.kld 0 31 0 1) (fun c s => c.owns 31 = false ∧ s.acquiring c.g = false ∧ c.em ≠ 0) :=
  ⟨met lane { group with k := [(2, 0x500001)] } program rfl (by decide),
   met lane { group with k := [(0, 0x200000000000000)] } program rfl (by decide),
   met lane { group with kown := [(31, 32)] } program rfl (by decide)⟩
theorem meets_StoreWords_faults :
    Meets (.stB32 0 9 2 1 0) (fun c s => (c.RegOk 1 ∧ ∀ r, r < 1 → c.RegOk (9 + r)) ∧ OrderOk (storeReq false c) c s ∧
      FaultOk (storeReq false c) c (StoreAt (storeReq false c) c s) ∧ Unowned s (StoreAt (storeReq false c) c s) ∧ StageOk (storeReq false c) c s) ∧
    Meets (.atomAdd 0 9 2 1 0 1 2) (fun c s => (c.RegOk 1 ∧ ∀ r, r < 1 → c.RegOk (9 + r)) ∧ OrderOk (storeReq true c) c s ∧ CommitOk c s ∧
      Unowned s (Committed c s) ∧ FaultOk (storeReq true c) c (Committed c s)) :=
  ⟨met lane { group with k := [(2, 0x100001)] } program rfl (by decide), met lane { group with k := [(2, 0x500000)] } program rfl (by decide)⟩
theorem meets_StashWords : Meets (.stashMap 0 1 3 2 1)
    (fun c s => (s.acquiring c.g = false ∧ s.quiet c.g = true ∧ c.em ≠ 0) ∧ c.ExOk 1 ∧ (c.kr 2 + (c.v 1 c.exLane).signExtend 64).toNat % 512 ≤ 256 ∧
      (c.kr 2 + (c.v 1 c.exLane).signExtend 64).toNat / 512 % 8 = 0 ∧ (c.kr 2 + (c.v 1 c.exLane).signExtend 64).toNat < 2 ^ 57 ∧
      s.entryBusy c.lg.wg c.wg 3 = false) ∧
    Meets (.stashWb 0 2 1) (fun c s => (s.acquiring c.g = false ∧ s.quiet c.g = true ∧ c.em ≠ 0) ∧ c.RegOk 1) :=
  ⟨met { lane with v := [(32, 256)] } { group with k := [(2, 0x100000)] } program rfl (by decide),
   met lane group program rfl (by decide)⟩
/-- A workgroup whose entry 1 maps the granule's first 4 KiB: a map of entry 3 there does not fit; one of entry 1, in use by the load, waits. -/
def mapping : Wg := { group with k := [(2, 0x100000)], maps := [(1, ⟨0x100000, 1⟩)] }
theorem meets_StashWords_more :
    (let va := fun (c : Ctx) => (c.kr 2 + (c.v 1 c.exLane).signExtend 64).toNat
     let ready := fun (c : Ctx) (s : State) => (s.acquiring c.g = false ∧ s.quiet c.g = true) ∧ c.em ≠ 0
     let ok := fun (c : Ctx) => c.ExOk 1 ∧ va c % 512 ≤ 256 ∧ va c / 512 % 8 = 0
     let fits := fun (e : Nat) (c : Ctx) (s : State) => decide (va c % 512 = 0) || s.mapFits c.wg e (va c / 4096 * 4096) (va c % 512)
     Meets (.stashMap 0 1 3 2 1) (fun c s => ready c s ∧ ok c ∧ va c < 2 ^ 57 ∧ fits 3 c s = false) ∧
     Meets (.stashMap 0 1 1 2 1) (fun c s => ready c s ∧ ok c ∧ va c < 2 ^ 57 ∧ fits 1 c s = true ∧ s.entryBusy c.lg.wg c.wg 1 = true) ∧
     Meets (.stashMap 0 1 1 2 1) (fun c s => ready c s ∧ ok c ∧ 2 ^ 57 ≤ va c)) ∧
    Meets (.stashMap 0 1 1 2 1) (fun c _ => c.em ≠ 0 ∧ c.ExOk 1 ∧ (256 < (c.kr 2 + (c.v 1 c.exLane).signExtend 64).toNat % 512 ∨
      (c.kr 2 + (c.v 1 c.exLane).signExtend 64).toNat / 512 % 8 ≠ 0)) ∧
    Meets (.stashWb 0 2 1) (fun c s => (c.em ≠ 0 → c.RegOk 1) ∧ ¬ (s.acquiring c.g = false ∧ s.quiet c.g = true)) ∧
    Meets (.stashStg 15 63) (fun c s => c.em = 0 ∧ (s.acquiring c.g = false ∧ s.quiet c.g = true)) :=
  ⟨⟨met { lane with v := [(32, 1)] } mapping program rfl (by decide),
    metIn (behind { loading with lg := 3 } { lane with v := [(32, 1)] } mapping) _ (behind_ctx _ _ _ _ rfl rfl) rfl (by decide),
    met lane { group with k := [(2, 0x200000000000000)] } program rfl (by decide)⟩,
   met { lane with v := [(32, 257)] } { group with k := [(2, 0x100000)] } program rfl (by decide),
   metIn (behind loading) _ (behind_ctx _ _ _ _ rfl rfl) rfl (by decide), met noLanes group program rfl (by decide)⟩


/-- A lane group that has fetched its own line: a nop, valid and marked as a target. -/
def fetched : Lg := { lane with fetched := some (placeAt, lineOfWord 0x78000000#32) }
/-- A launch of cooperative workgroups. -/
def together : Launch := { program with words := program.words.set 1 (1#64 <<< 26) }

/-- Staged mode: a store with room, and a release whose workgroup has nothing staged. -/
theorem meets_StoreWords_staged : Meets (.stB8 0 9 2 1 0) (fun c s => c.RegOk 1 ∧ StoreOk {
    kind := .store, ctr := 0, d := 9, size := 1, need := 2, lanes := c.lanes,
    addr := fun j => (c.kr 2 + (c.v 1 j).signExtend 64 + BitVec.ofNat 64 (1 * 0)).toNat,
    data := fun j => (((List.range 1).flatMap fun r => natLe 4 (c.v (9 + r) j).toNat).take 1) } c s) ∧
    Meets (.stRel 0 9 2 1 1) (fun c s => c.RegOk 1 ∧ StoreOk {
      kind := .rel, ctr := 0, d := 9, size := 8, relr := true, need := 2, lanes := c.lanes,
      addr := fun j => (c.kr 2 + (c.v 1 j).signExtend 64).toNat,
      data := fun j => (((List.range 2).flatMap fun r => natLe 4 (c.v (9 + r) j).toNat).take 8) } c s) :=
  ⟨met lane { group with k := [(2, 0x100000)] } restartable rfl (by decide),
   met lane { group with k := [(2, 0x100000)] } restartable rfl (by decide)⟩

def own : DWord := linePacket placeAt
/-- A branch to its own packet (offset 0) lands; one to the next packet of the line (offset 1) finds it unmarked. -/
theorem meets_BranchWords :
    let s := { small fetched group program with pk := { idx := own, succ := own } }
    s.ctx? = some (ctx fetched group program) ∧ Lands (ctx fetched group program) (s.pk.idx + (0#20).signExtend 64) s ∧
      s.fetchLine (ctx fetched group program) (lineVa (s.pk.idx + (1#20).signExtend 64)) =
        (s, .line (FetchLine.ofBytes (lineOfWord 0x78000000#32))) ∧
      mayLand (FetchLine.ofBytes (lineOfWord 0x78000000#32)) (s.pk.idx + (1#20).signExtend 64) = false :=
  ⟨rfl, ⟨by decide, FetchLine.ofBytes (lineOfWord 0x78000000#32), by decide, by decide⟩, by decide, by decide⟩
theorem meets_BranchWords_conditions :
    wellFormed (.braK 15 0) = true ∧ (ctx lane { group with k := [(15, 1)] } program).kr 15 ≠ 0 ∧ (ctx lane group program).kr 15 = 0 ∧
    wellFormed (.kbr 0x61) = true ∧ (ctx lane { group with k := [(1, own)] } program).uni 0x61 = own ∧
    (let c := ctx { lane with em := 3, q := [(7, 1)] } group program
     let t := c.q 7 &&& c.em
     t ≠ 0 ∧ c.em &&& ~~~t ≠ 0 ∧ c.lg.path.length < 8) := by decide

/-- A branch whose line is not translated, and one that finds an engine on a word of its tables. -/
theorem meets_BranchWords_failing :
    (let s := small fetched group program
     ∃ s1 f, s.fetchLine (ctx fetched group program) (lineVa (0x5000 * 10)) = (s1, f) ∧ s1.pk = s.pk ∧ (∀ l, f ≠ .line l)) ∧
    (let s := { small fetched group program with
       win := placeWin.put (oS2C 0) 0x200001, vfr := [(0, 0x202001)], dir := [(0x200000 / 128, { lock := some 9 })] }
     s.pk.stall = false ∧ (s.fetchLine (ctx fetched group program) (lineVa (0x5000 * 10))).1.pk.stall = true) :=
  ⟨⟨_, _, rfl, rfl, fun _ h => nomatch h⟩, by decide⟩
theorem meets_PathWords :
    Meets (.jwait 0) (fun c _ => (c.lg.rj 0).expected = 0) ∧
    Meets (.jwait 3) (fun c _ => (c.lg.rj 3).expected ≠ 0 ∧ (c.lg.rj 3).arrived ||| c.em = (c.lg.rj 3).expected) ∧
    Meets (.jwait 3) (fun c _ => (c.lg.rj 3).expected ≠ 0 ∧ c.em &&& ~~~(c.lg.rj 3).expected = 0 ∧
      (c.lg.rj 3).arrived ||| c.em ≠ (c.lg.rj 3).expected ∧ ∃ l2,
      (c.lg.setRj 3 { c.lg.rj 3 with arrived := (c.lg.rj 3).arrived ||| c.em, resume := 0 }).nextPath = some l2) ∧
    Meets (.jinit 3 8) (fun c _ => (c.lg.rj 3).arrived = 0) ∧ Meets .ret (fun c _ => c.em ≠ 0) ∧
    Meets .ret (fun c _ => c.em = 0 ∧ ∃ l2, c.lg.nextPath = some l2) :=
  ⟨met lane group program rfl (by decide), met { lane with j := [(3, ⟨3, 2, 0⟩)] } group program rfl (by decide),
   met { lane with j := [(3, ⟨3, 0, 0⟩)], path := [(2, 5)] } group program rfl ⟨by decide, by decide, by decide, _, rfl⟩,
   met lane group program rfl (by decide), met lane group program rfl (by decide),
   met { lane with em := 0, path := [(2, 5)] } group program rfl ⟨by decide, _, rfl⟩⟩
theorem meets_PathWords_exit :
    Meets .exit (fun c s => s.endWaits c = false ∧
      let l0 := (List.range 4).foldl (fun l n => l.leaveRj c.em n) c.lg
      ({ l0 with ended := l0.ended ||| c.em, em := 0 } : Lg).nextPath = none) ∧
    Meets .exit (fun c s => s.endWaits c = false ∧
      let l0 := (List.range 4).foldl (fun l n => l.leaveRj c.em n) c.lg
      ∃ l2, ({ l0 with ended := l0.ended ||| c.em, em := 0 } : Lg).nextPath = some l2) :=
  ⟨met lane group program rfl ⟨by decide, rfl⟩, met { lane with path := [(2, 5)] } group program rfl ⟨by decide, _, rfl⟩⟩

theorem meets_BarrierWords :
    Meets (.barWg 3) (fun c s => c.lg.pathsOpen = false ∧ s.quiet c.g = true ∧ s.acquiring c.g = false) ∧
    Meets (.barWg 3) (fun c _ => c.lg.pathsOpen = true) ∧
    Meets (.barSpan 0 0) (fun c s => c.lg.pathsOpen = false ∧ (s.quiet c.g = true ∧ s.acquiring c.g = false) ∧ c.la.cor = true ∧
      c.lg.hnd = false ∧ (spanAt c.la c.wg.home 0 0).1 + 2 ^ 0 ≤ c.la.w ∧ (spanAt c.la c.wg.home 0 0).2 + 2 ^ 0 ≤ c.la.h) ∧
    Meets (.barSpan 3 4) (fun c _ => c.lg.pathsOpen = true ∨ c.la.cor = false ∨ c.lg.hnd = true ∨
      c.la.w < (spanAt c.la c.wg.home 4 3).1 + 2 ^ 4 ∨ c.la.h < (spanAt c.la c.wg.home 4 3).2 + 2 ^ 3) ∧
    Meets (.barStep 0) (fun c _ => c.lg.pathsOpen = true ∨ c.la.cor = false ∨ c.lg.hnd = true) ∧
    Meets (.barStep 1) (fun c s => c.lg.pathsOpen = false ∧ (s.quiet c.g = true ∧ s.acquiring c.g = false) ∧ c.la.cor = true ∧ c.lg.hnd = false) :=
  ⟨met lane group program rfl (by decide), met { lane with path := [(2, 5)] } group program rfl (by decide),
   met lane group together rfl (by decide), met lane group together rfl (by decide), met lane group program rfl (by decide),
   met lane group together rfl (by decide)⟩

def waiting : State := behind loading
theorem waiting_ctx : waiting.ctx? = some (ctx lane group program) := small_ctx lane group program rfl rfl

theorem meets_BarrierWords_held :
    Meets (.barWg 0) (fun c s => c.lg.pathsOpen = false ∧ ¬ (s.quiet c.g = true ∧ s.acquiring c.g = false)) ∧
    Meets (.barStep 0) (fun c s => c.lg.pathsOpen = false ∧ c.la.cor = true ∧ c.lg.hnd = false ∧
      ¬ (s.quiet c.g = true ∧ s.acquiring c.g = false)) :=
  ⟨metIn waiting _ waiting_ctx rfl (by decide), metIn (behind loading lane group together) _ (behind_ctx _ _ _ _ rfl rfl) rfl (by decide)⟩
theorem meets_FenceWords :
    Meets .fenceAcq (fun c s => s.loadsOut c.g (s.pk.since.getD s.nseq) = false) ∧
    Meets .fenceAcq (fun c s => s.loadsOut c.g (s.pk.since.getD s.nseq) = true) ∧
    Meets .fenceRel (fun c s => s.quiet c.g = true ∧ CommitOk c s ∧ Unowned s (Committed c s)) ∧
    Meets .fenceRel (fun c s => s.quiet c.g = false ∨ ¬ CommitOk c s) ∧
    Meets .fenceAr (fun c s => s.quiet c.g = true ∧ s.acquiring c.g = false ∧ CommitOk c s ∧ Unowned s (Committed c s) ∧
      (Committed c s).cutOff (dieOf c.core) ((((Committed c s).partDies c.part).head?).getD 0) = false ∧
      ((Committed c s).part c.part).fencePois = false) :=
  ⟨met lane group program rfl (by decide), metIn waiting _ waiting_ctx rfl (by decide), met lane group restartable rfl (by decide),
   metIn waiting _ waiting_ctx rfl (by decide), met lane group program rfl (by decide)⟩
/-- fence.ar on die 0 of a partition of bulkhead 11 alone, with no edge up; its fence word poisoned; behind a load. -/
theorem meets_FenceWords_fails :
    (let ok := fun (c : Ctx) (s : State) => s.quiet c.g = true ∧ s.acquiring c.g = false ∧ CommitOk c s ∧ Unowned s (Committed c s)
     let cut := fun (c : Ctx) (u : State) => u.cutOff (dieOf c.core) (((u.partDies c.part).head?).getD 0)
     Meets .fenceAr (fun c s => ok c s ∧ cut c (Committed c s) = true) ∧
     Meets .fenceAr (fun c s => ok c s ∧ cut c (Committed c s) = false ∧ ((Committed c s).part c.part).fencePois = true)) ∧
    Meets .fenceAr (fun c s => s.quiet c.g = false ∨ s.acquiring c.g = true ∨ ¬ CommitOk c s) :=
  ⟨⟨metIn { small lane group program with win := placeWin.put (oPART 0) 0x141800, edgesDown := [0, 1, 2, 3] } (ctx lane group program) rfl rfl
      (by decide),
    metIn { small lane group program with parts := [(0, { fencePois := true })] } (ctx lane group program) rfl rfl (by decide)⟩,
   metIn waiting _ waiting_ctx rfl (by decide)⟩
theorem meets_WaitWords :
    Meets (.waitc 3 0 0) (fun c _ => c.lg.oldestFail 3 = none ∧ (c.lg.cAt 3 - c.threshold 0 0).toNat < 2 ^ 31) ∧
    Meets (.waitc 3 0 1) (fun c s => c.lg.oldestFail 3 = none ∧ 2 ^ 31 ≤ (c.lg.cAt 3 - c.threshold 0 1).toNat ∧ s.onCounter c.g 3 ≠ []) ∧
    Meets (.waitc 3 0 1) (fun c s => c.lg.oldestFail 3 = none ∧ 2 ^ 31 ≤ (c.lg.cAt 3 - c.threshold 0 1).toNat ∧ s.onCounter c.g 3 = []) ∧
    Meets (.waitc 3 0 0) (fun c s => ∃ f, c.lg.oldestFail 3 = some f ∧ ∀ q ∈ s.onCounter c.g 3, f.seq ≤ q) ∧
    Meets (.waitc 3 0 0) (fun c s => ∃ f, c.lg.oldestFail 3 = some f ∧ ∃ q ∈ s.onCounter c.g 3, q < f.seq) :=
  ⟨met lane group program rfl (by decide), metIn waiting _ waiting_ctx rfl (by decide), met lane group program rfl (by decide),
   met { lane with fails := [⟨5, 3, .align, 0, 1, 0, false, 0, false⟩] } group program rfl ⟨_, rfl, by decide⟩,
   metIn (behind loading { lane with fails := [⟨9, 3, .align, 0, 1, 0, false, 0, false⟩] }) _ (behind_ctx _ _ _ _ rfl rfl) rfl
     ⟨_, rfl, 7, by decide⟩⟩
/-- A wait on a word of memory that stands at 5: met by the threshold 5, not by 6. -/
theorem meets_WaitWords_memory :
    (let s := small lane { group with k := [(2, 0x100000)] } program
     let c := ctx lane { group with k := [(2, 0x100000)] } program
     let x := s.laneXlate c 8 1 c.exLane (c.kr 2).toNat
     s.acquiring c.g = false ∧ Unowned s x.1 ∧ x.2.res = .ok 0x100000 1 ∧ x.1.storeOut c.core 0x100000 = false ∧ x.1.locked 8192 = false ∧
     (x.1.watch c.lg.wg c.part 0x100000 1).2.1 = .none ∧ ((x.1.watch c.lg.wg c.part 0x100000 1).2.2.1 - 0).toNat < 2 ^ 31 ∧
     2 ^ 31 ≤ ((x.1.watch c.lg.wg c.part 0x100000 1).2.2.1 - 1).toNat) := by decide
/-- Behind an acquire; at an address that is not aligned; behind a store to the line; on an engine's line; on a poisoned word. -/
theorem meets_WaitWords_memory_waits :
    (behind acquire).acquiring 2 = true ∧
    ((small lane group program).laneXlate (ctx lane group program) 8 1 0 0x100004).2.cause ≠ .none ∧
    (behind { loading with kind := .store }).storeOut 0 0x100000 = true ∧ (engineHolds).locked 8192 = true ∧
    ({ small lane group program with poison := [(0x100000 / 4, true)] }.watch 1 0 0x100000 1).2.1 ≠ .none := by decide

theorem meets_UniformWords : Meets (.kadd 31 0x7F 0x4B) (fun c _ => c.owns 31 = true) ∧
    Meets (.kfromv 31 1 2) (fun c _ => c.em ≠ 0 ∧ c.owns 31 = true ∧ c.srcAt (1#32 <<< c.exLane) id 1 = [] ∧ c.srcAt (1#32 <<< c.exLane) id 2 = []) :=
  ⟨met lane group program rfl (by decide), met lane group program rfl (by decide)⟩
theorem meets_UniformOwnership : Meets (.krel 31) (fun c _ => c.owns 31 = true) ∧ Meets (.kadd 31 0x60 0x60) (fun c _ => c.owns 31 = false) ∧
    (ctx lane { group with kown := [(31, 32)] } program).wg.ownerAt 31 = 32 :=
  ⟨met lane group program rfl (by decide), met lane { group with kown := [(31, 32)] } program rfl (by decide), by decide⟩

/-- The small machine whose core 0 is `k`. -/
def onCore (k : Core) (l : Lg := lane) (w : Wg := group) (p : Launch := program) : State :=
  { small l w p with cores := [(0, { k with tlb := [placeTlb] })] }
theorem onCore_ctx (k : Core) (l : Lg) (w : Wg) (p : Launch) (h : l.wg = 1) (hw : w.launch = 0) :
    (onCore k l w p).ctx? = some (ctx l w p) := small_ctx l w p h hw
/-- Two slots and a tile of the workgroup, their records of one integer format. -/
def matrixCore : Core :=
  { slots := [(0, { claim := some 1, record := 0x400000000#64 }), (31, { claim := some 1, record := 0x400000000#64 })],
    tiles := [(15, { claim := some 1 })] }
def loads : Wg := { group with k := [(2, 0x100000)] }

theorem meets_MatrixWords :
    Meets (.mxClaim 1 1 0 14) (fun c s => MxReady c s ∧ s.claimOf c.core c.bank true 14 = none) ∧
    Meets (.mxClaim 1 0 0 31) (fun c s => MxReady c s ∧ ∃ o, s.claimOf c.core c.bank false 31 = some o ∧ o ≠ c.lg.wg ∧
      ((0 : BitVec 1) = 1 ∨ ((s.wgs.find o).map (·.bank)).getD c.bank = c.bank)) ∧
    Meets (.mxRel 1 15) (fun c s => MxReady c s ∧ c.holds s true 15 = true) ∧
    Meets (.mxRec 31 4) (fun c s => MxReady c s ∧ c.holds s false 31 = true ∧ recCause (c.kr 4) = .none) ∧
    Meets (.mxLd 62 31 2 3) (fun c s => MxReady c s ∧ c.ExOk 62 ∧ c.ExOk 63 ∧ c.holds s false 31 = true ∧ s.acquiring c.g = false ∧
      GransOk c s 1 (CmdBody.mxLd 31 0x100000 64 false).segs) ∧
    Meets (.mxLdS 63 31 2 3) (fun c s => MxReady c s ∧ c.ExOk 63 ∧ GransOk c s 1 (CmdBody.mxLd 31 0x100000 0 true).segs) ∧
    Meets (.mxLdb 0 5 31 3 0) (fun c s => MxReady c s ∧ ldbBad c.core false 5 = false ∧ c.holds s false 31 = true) ∧
    Meets (.mxMma 0 31 3 15) (fun c s => MxReady c s ∧ c.productF s 31 0 15 = [] ∧ (s.govern c 1).2 = true) ∧
    Meets (.mxPmma 0 31 3 15) (fun c s => (MxReady c s ∧ c.productF s 31 0 15 = [] ∧ (s.govern c 2).2 = true) ∧ coreX c.core % 4 ≠ 3) ∧
    Meets (.mxZero 3 15) (fun c s => MxReady c s ∧ c.holds s true 15 = true) ∧
    Meets (.mxDrain 62 4 2 3 15) (fun c s => MxReady c s ∧ c.holds s true 15 = true ∧ bits (c.kr 4) 38 26 = 0 ∧ bits (c.kr 4) 32 3 ≤ 5 ∧
      bits (c.kr 4) 35 2 ≠ 3 ∧ GransOk c s 2 (CmdBody.mxDrain 15 0x100000 64 (c.kr 4)).segs) ∧
    Meets (.mxChk 63 3 15) (fun c s => MxReady c s ∧ c.holds s true 15 = true) :=
  ⟨metIn (onCore matrixCore) _ (onCore_ctx _ _ _ _ rfl rfl) rfl (by decide),
   metIn (onCore { matrixCore with slots := [(31, { claim := some 9 })] }) _ (onCore_ctx _ _ _ _ rfl rfl) rfl ⟨by decide, 9, by decide⟩,
   metIn (onCore matrixCore) _ (onCore_ctx _ _ _ _ rfl rfl) rfl (by decide),
   metIn (onCore matrixCore lane { group with k := [(4, 0x400000000#64)] }) _ (onCore_ctx _ _ _ _ rfl rfl) rfl (by decide),
   metIn (onCore matrixCore lane loads) _ (onCore_ctx _ _ _ _ rfl rfl) rfl (by decide),
   metIn (onCore matrixCore lane loads) _ (onCore_ctx _ _ _ _ rfl rfl) rfl (by decide),
   metIn (onCore matrixCore) _ (onCore_ctx _ _ _ _ rfl rfl) rfl (by decide),
   metIn (onCore matrixCore) _ (onCore_ctx _ _ _ _ rfl rfl) rfl (by decide),
   metIn (onCore matrixCore) _ (onCore_ctx _ _ _ _ rfl rfl) rfl (by decide),
   metIn (onCore matrixCore) _ (onCore_ctx _ _ _ _ rfl rfl) rfl (by decide),
   metIn (onCore matrixCore lane loads) _ (onCore_ctx _ _ _ _ rfl rfl) rfl (by decide),
   metIn (onCore matrixCore) _ (onCore_ctx _ _ _ _ rfl rfl) rfl (by decide)⟩
/-- Its own slot again; another bank's slot; a full queue; no lane active; a slot and a tile that are not its own. -/
def rival : State := { small lane group program with
  cores := [(0, { matrixCore with slots := [(31, { claim := some 9 })], tlb := [placeTlb] })], wgs := [(1, group), (9, { group with bank := 1 })] }
theorem meets_MatrixWords_claims :
    Meets (.mxClaim 1 0 0 31) (fun c s => MxReady c s ∧ s.claimOf c.core c.bank false 31 = some c.lg.wg ∧ s.relOf c.core c.lg.wg false 31 = none) ∧
    Meets (.mxClaim 1 0 0 31) (fun c s => MxReady c s ∧ (0 : BitVec 1) = 0 ∧ ∃ o v, s.claimOf c.core c.bank false 31 = some o ∧ o ≠ c.lg.wg ∧
      s.wgs.find o = some v ∧ v.bank ≠ c.bank) ∧
    Meets (.mxZero 3 15) (fun c s => 8 ≤ (s.core c.core).mxq.length) ∧
    Meets (.mxZero 3 15) (fun c s => (s.core c.core).mxq.length < 8 ∧ c.em = 0) ∧
    Meets (.mxChk 63 3 15) (fun c s => MxReady c s ∧ c.holds s true 15 = false) ∧
    Meets (.mxRec 31 4) (fun c s => MxReady c s ∧ recCause (c.kr 4) = .illegal) ∧
    Meets (.mxRec 31 4) (fun c s => MxReady c s ∧ recCause (c.kr 4) ≠ .illegal ∧ c.holds s false 31 = false) ∧
    Meets (.mxRec 31 4) (fun c s => MxReady c s ∧ recCause (c.kr 4) = .fmt ∧ c.holds s false 31 = true) :=
  ⟨metIn (onCore matrixCore) _ (onCore_ctx _ _ _ _ rfl rfl) rfl (by decide),
   metIn rival (ctx lane group program) rfl rfl ⟨by decide, rfl, 9, { group with bank := 1 }, by decide⟩,
   metIn (onCore { mxq := List.replicate 8 0 }) _ (onCore_ctx _ _ _ _ rfl rfl) rfl (by decide),
   metIn (onCore matrixCore noLanes) _ (onCore_ctx _ _ _ _ rfl rfl) rfl (by decide), met lane group program rfl (by decide),
   met lane { group with k := [(4, 0xC00000000)] } program rfl (by decide), met lane { group with k := [(4, 0x400000000)] } program rfl (by decide),
   metIn (onCore matrixCore lane { group with k := [(4, 0x300000000)] }) _ (onCore_ctx _ _ _ _ rfl rfl) rfl (by decide)⟩
/-- Behind an acquire, at a base that is not aligned, and where nothing is translated. -/
theorem meets_MatrixWords_memory :
    (let base := fun (c : Ctx) => (c.kr 2 + (c.v 62 c.exLane).signExtend 64).toNat
     let stride := fun (c : Ctx) => (c.v 63 c.exLane).toNat
     let ok := fun (c : Ctx) (s : State) => c.ExOk 62 ∧ c.ExOk 63 ∧ c.holds s false 31 = true
     let al := fun (c : Ctx) => base c % 64 = 0 ∧ stride c % 64 = 0
     Meets (.mxLd 62 31 2 3) (fun c s => MxReady c s ∧ ok c s ∧ s.acquiring c.g = true) ∧
     Meets (.mxLd 62 31 2 3) (fun c s => MxReady c s ∧ ok c s ∧ s.acquiring c.g = false ∧ ¬ al c) ∧
     Meets (.mxLd 62 31 2 3) (fun c s => MxReady c s ∧ ok c s ∧ s.acquiring c.g = false ∧ al c ∧
       GransFail c s 1 (CmdBody.mxLd 31 (base c) (stride c) false).segs)) ∧
    Meets (.mxLdb 0 5 31 3 0) (fun c s => MxReady c s ∧ ldbBad c.core false 5 = false ∧ c.holds s false 31 = false) ∧
    Meets (.mxLdb 0 31 31 3 0) (fun c s => MxReady c s ∧ ldbBad c.core false 31 = true) :=
  ⟨⟨metIn { onCore matrixCore lane loads with accs := [(7, acquire)], nseq := 8 } (ctx lane loads program) rfl rfl (by decide),
    metIn (onCore matrixCore { lane with v := [(62 * 32, 1)] } loads) _ (onCore_ctx _ _ _ _ rfl rfl) rfl (by decide),
    metIn (onCore matrixCore lane { group with k := [(2, 0x200000)] }) _ (onCore_ctx _ _ _ _ rfl rfl) rfl (by decide)⟩,
   met lane group program rfl (by decide), met lane group program rfl (by decide)⟩
/-- Products: the governor's budget used up, a slot that is not held, records that do not go together, the last column of a bulkhead. -/
theorem meets_MatrixWords_products :
    (let all := fun (c : Ctx) (s : State) => c.holds s false 31 = true ∧ c.holds s false 0 = true ∧ c.holds s true 15 = true
     Meets (.mxMma 0 31 3 15) (fun c s => MxReady c s ∧ True ∧ c.productF s 31 0 15 = [] ∧ (s.govern c 1).2 = false) ∧
     Meets (.mxPmma 0 31 3 15) (fun c s => MxReady c s ∧ coreX c.core % 4 ≠ 3 ∧ ¬ all c s) ∧
     Meets (.mxMma 0 31 3 15) (fun c s => MxReady c s ∧ True ∧ all c s ∧ ¬ c.productF s 31 0 15 = [])) ∧
    Meets (.mxPmma 0 31 3 15) (fun c s => MxReady c s ∧ coreX c.core % 4 = 3) :=
  ⟨⟨metIn { onCore matrixCore with govs := [(0, { used := 256 })] } (ctx lane group program) rfl rfl (by decide),
    met lane group program rfl (by decide),
    metIn (onCore { matrixCore with slots := [(0, { claim := some 1, record := 0x8300000000#64 }), (31, { claim := some 1, record := 0x400000000#64 })] }) _
      (onCore_ctx _ _ _ _ rfl rfl) rfl (by decide)⟩,
   met lane { group with core := 3 } program rfl (by decide)⟩
theorem meets_MatrixWords_drains :
    Meets (.mxDrain 62 4 2 3 15) (fun c s => MxReady c s ∧ (c.ExOk 62 ∧ c.ExOk 63) ∧ bits (c.kr 4) 38 26 ≠ 0) ∧
    Meets (.mxDrain 62 4 2 3 15) (fun c s => MxReady c s ∧ (c.ExOk 62 ∧ c.ExOk 63) ∧ bits (c.kr 4) 38 26 = 0 ∧ c.holds s true 15 = false) ∧
    Meets (.mxDrain 62 4 2 3 15) (fun c s => MxReady c s ∧ (c.ExOk 62 ∧ c.ExOk 63) ∧ bits (c.kr 4) 38 26 = 0 ∧ c.holds s true 15 = true ∧
      ¬ (bits (c.kr 4) 32 3 ≤ 5 ∧ bits (c.kr 4) 35 2 ≠ 3)) :=
  ⟨met lane { group with k := [(4, 0x8000000000000000)] } program rfl (by decide), met lane group program rfl (by decide),
   metIn (onCore matrixCore lane { group with k := [(4, 0x700000000)] }) _ (onCore_ctx _ _ _ _ rfl rfl) rfl (by decide)⟩

/-- The workgroup holds the array of core 0. -/
def arrayCore : Core := { arr := { holder := some 1, st := 1 } }
theorem meets_SamplingWords :
    Meets (.saCfg 11 10 1 7) (fun c s => s.saFull c.core c.bank = false ∧ c.em ≠ 0 ∧ cfgBad (c.kr 10) (c.kr 11) = false ∧
      s.arrTaken c.core c.lg.wg c.bank = false ∧ (cfgGrey (c.kr 10) = true ∨ (s.core c.core).mon.lockout = false)) ∧
    Meets (.saCfg 11 10 1 7) (fun c s => s.saFull c.core c.bank = false ∧ c.em ≠ 0 ∧ cfgBad (c.kr 10) (c.kr 11) = false ∧
      s.arrTaken c.core c.lg.wg c.bank = true) ∧
    Meets (.saClr 15) SaReady ∧
    Meets (.saLdc 62 2 7) (fun c s => SaReady c s ∧ c.ExOk 62 ∧ c.ExOk 63 ∧ rangeBad (c.v 63 c.exLane) false = false ∧
      s.acquiring c.g = false ∧ (c.kr 2 + (c.v 62 c.exLane).signExtend 64).toNat % 128 = 0 ∧
      ImageOk c s 1 (CmdBody.saLdc 0x100000 (rangeFirst (c.v 63 c.exLane)) (rangeCnt (c.v 63 c.exLane))).segs none) ∧
    Meets (.saRds 62 5 2 7 1) (fun c s => SaReady c s ∧ rangeBad (c.v 63 c.exLane) true = false ∧
      ImageOk c s 2 (CmdBody.saRds 0x100000 (rangeFirst (c.v 63 c.exLane)) (rangeCnt (c.v 63 c.exLane))).segs (some (c.kr 5).toNat)) ∧
    Meets (.saSwp 63 0 7 0) (fun c s => SaReady c s ∧ c.ExOk 63 ∧ bits (c.v 63 c.exLane) 0 16 ≠ 0 ∧
      bits (c.v 63 c.exLane) 17 15 = 0 ∧ ImageOk c s 2 [] none) ∧
    Meets (.saUncl 63 7) (fun c s => SaReady c s ∧ rangeBad (c.v 63 c.exLane) true = false) ∧
    Meets (.saGhost 63 7 7) (fun c s => SaReady c s ∧ c.ExOk 63 ∧ ghostBad (c.v 63 c.exLane) = false ∧
      (ghostUnb (c.v 63 c.exLane) = true ∨ s.partOf (ghostCore (c.v 63 c.exLane)) = c.part)) ∧
    Meets (.saMonW 62 63 7) (fun c s => SaReady c s ∧ c.ExOk 63 ∧ bits (c.v 63 c.exLane) 16 16 = 0) ∧
    Meets (.saMon 62 7) (fun c s => c.em ≠ 0 ∧ s.arrForeign c.core c.bank = false ∧ s.holdsArr c.core c.lg.wg = true) :=
  ⟨metIn (onCore {}) _ (onCore_ctx _ _ _ _ rfl rfl) rfl (by decide),
   metIn (onCore { arr := { holder := some 9 } }) _ (onCore_ctx _ _ _ _ rfl rfl) rfl (by decide),
   metIn (onCore arrayCore) _ (onCore_ctx _ _ _ _ rfl rfl) rfl (by decide),
   metIn (onCore arrayCore { lane with v := [(63 * 32, 0x10000)] } loads) _ (onCore_ctx _ _ _ _ rfl rfl) rfl (by decide),
   metIn (onCore arrayCore { lane with v := [(63 * 32, 0x200000)] } { group with k := [(2, 0x100000), (5, 0x100800)] }) _
     (onCore_ctx _ _ _ _ rfl rfl) rfl (by decide),
   metIn (onCore arrayCore { lane with v := [(63 * 32, 1)] }) _ (onCore_ctx _ _ _ _ rfl rfl) rfl (by decide),
   metIn (onCore arrayCore { lane with v := [(63 * 32, 0x200000)] }) _ (onCore_ctx _ _ _ _ rfl rfl) rfl (by decide),
   metIn (onCore arrayCore) _ (onCore_ctx _ _ _ _ rfl rfl) rfl (by decide),
   metIn (onCore arrayCore) _ (onCore_ctx _ _ _ _ rfl rfl) rfl (by decide),
   metIn (onCore arrayCore) _ (onCore_ctx _ _ _ _ rfl rfl) rfl (by decide)⟩

/-- What a sampling word meets before its operands: a full queue, no lane active, another context's array, no array. -/
def clearCmd : Cmd :=
  { lg := 2, wg := 1, core := 0, bank := 0, vf := 0, part := 0, launch := 0, ctr := none, lane := 0, em := 1, fpc := 0, seq := 7, body := .saClr }
def busyArray : State := { onCore { arr := { holder := some 1 }, saq := List.replicate 8 7 } with cmds := [(7, clearCmd)] }
/-- The array's workgroup with `x` in register 63 of its lane and uniform registers `k`. -/
def onArray (x : Word) (k : Tab DWord) : State := onCore arrayCore { lane with v := [(63 * 32, x)] } { group with k := k }
theorem onArray_ctx (x : Word) (k : Tab DWord) :
    (onArray x k).ctx? = some (ctx { lane with v := [(63 * 32, x)] } { group with k := k } program) :=
  onCore_ctx arrayCore { lane with v := [(63 * 32, x)] } { group with k := k } program rfl rfl
def foreignArray : State := { onCore { arr := { holder := some 9 } } with wgs := [(1, group), (9, { group with bank := 1 })] }
theorem meets_SamplingWords_gate :
    Meets (.saClr 15) (fun c s => ¬ (true = true → s.saFull c.core c.bank = false)) ∧
    Meets (.saClr 15) (fun c s => (true = true → s.saFull c.core c.bank = false) ∧ c.em = 0) ∧
    Meets (.saClr 15) (fun c s => (true = true → s.saFull c.core c.bank = false) ∧ c.em ≠ 0 ∧ s.arrForeign c.core c.bank = true) ∧
    Meets (.saUncl 63 15) (fun c s => (true = true → s.saFull c.core c.bank = false) ∧ c.em ≠ 0 ∧ s.arrForeign c.core c.bank = false ∧
      s.holdsArr c.core c.lg.wg = false ∧ ∀ r ∈ [63], c.ExOk r) ∧
    Meets (.saCfg 11 10 1 7) (fun c s => s.saFull c.core c.bank = true) ∧
    Meets (.saCfg 11 10 1 7) (fun c s => (s.saFull c.core c.bank = false ∧ c.em ≠ 0) ∧ cfgBad (c.kr 10) (c.kr 11) = true) ∧
    Meets (.saCfg 11 10 1 7) (fun c s => (s.saFull c.core c.bank = false ∧ c.em ≠ 0) ∧ cfgBad (c.kr 10) (c.kr 11) = false ∧
      s.arrTaken c.core c.lg.wg c.bank = false ∧ cfgGrey (c.kr 10) = false ∧ (s.core c.core).mon.lockout = true) :=
  ⟨metIn busyArray (ctx lane group program) rfl rfl (by decide), metIn (onCore arrayCore noLanes) _ (onCore_ctx _ _ _ _ rfl rfl) rfl (by decide),
   metIn foreignArray (ctx lane group program) rfl rfl (by decide), met lane group program rfl (by decide),
   metIn busyArray (ctx lane group program) rfl rfl (by decide), met lane { group with k := [(10, 0x20000000)] } program rfl (by decide),
   metIn (onCore { mon := { lockout := true } }) _ (onCore_ctx _ _ _ _ rfl rfl) rfl (by decide)⟩
/-- Image words with a bad range, behind an acquire, at a base and a completion counter that are not aligned; sweeps, thresholds and
ghosts that their rules refuse. -/
theorem meets_SamplingWords_refused :
    (let base := fun (c : Ctx) => (c.kr 2 + (c.v 62 c.exLane).signExtend 64).toNat
     let rng := fun (c : Ctx) => c.v 63 c.exLane
     let qa := fun (c : Ctx) => some (c.kr 5).toNat
     let ready := fun (c : Ctx) (s : State) => SaReady c s ∧ c.ExOk 62 ∧ c.ExOk 63
     Meets (.saRds 62 5 2 7 1) (fun c s => ready c s ∧ rangeBad (rng c) true = true) ∧
     Meets (.saRds 62 5 2 7 1) (fun c s => ready c s ∧ rangeBad (rng c) true = false ∧ s.acquiring c.g = true) ∧
     Meets (.saRds 62 5 2 7 1) (fun c s => ready c s ∧ rangeBad (rng c) true = false ∧ s.acquiring c.g = false ∧ base c % 4 ≠ 0) ∧
     Meets (.saRds 62 5 2 7 1) (fun c s => ready c s ∧ rangeBad (rng c) true = false ∧ s.acquiring c.g = false ∧ base c % 4 = 0 ∧
       (qa c).getD 0 % 8 ≠ 0) ∧
     Meets (.saSwp 63 5 7 1) (fun c s => SaReady c s ∧ c.ExOk 63 ∧ (bits (rng c) 0 16 = 0 ∨ bits (rng c) 17 15 ≠ 0)) ∧
     Meets (.saSwp 63 5 7 1) (fun c s => SaReady c s ∧ c.ExOk 63 ∧ ¬ (bits (rng c) 0 16 = 0 ∨ bits (rng c) 17 15 ≠ 0) ∧ (qa c).getD 0 % 8 ≠ 0) ∧
     Meets (.saUncl 63 7) (fun c s => SaReady c s ∧ c.ExOk 63 ∧ rangeBad (rng c) true = true) ∧
     Meets (.saGhost 63 7 7) (fun c s => SaReady c s ∧ c.ExOk 63 ∧ ghostBad (rng c) = true) ∧
     Meets (.saGhost 63 7 7) (fun c s => SaReady c s ∧ c.ExOk 63 ∧ ghostBad (rng c) = false ∧ ghostUnb (rng c) = false ∧
       (s.partOf (ghostCore (rng c)) ≠ c.part ∨ s.passes c.part c.core (ghostCore (rng c)) = false)) ∧
     Meets (.saMonW 62 63 7) (fun c s => SaReady c s ∧ c.ExOk 63 ∧ bits (rng c) 16 16 ≠ 0)) :=
  ⟨metIn (onArray 1 []) _ (onArray_ctx _ _) rfl (by decide),
   metIn { onArray 0x200000 [] with accs := [(7, acquire)], nseq := 8 } (ctx { lane with v := [(63 * 32, 0x200000)] } group program) rfl rfl (by decide),
   metIn (onArray 0x200000 [(2, 2)]) _ (onArray_ctx _ _) rfl (by decide), metIn (onArray 0x200000 [(5, 4)]) _ (onArray_ctx _ _) rfl (by decide),
   metIn (onArray 0 []) _ (onArray_ctx _ _) rfl (by decide), metIn (onArray 1 [(5, 4)]) _ (onArray_ctx _ _) rfl (by decide), metIn (onArray 1 []) _ (onArray_ctx _ _) rfl (by decide),
   metIn (onArray 0xFFFF []) _ (onArray_ctx _ _) rfl (by decide), metIn (onArray 0xFF1707FF []) _ (onArray_ctx _ _) rfl (by decide), metIn (onArray 0x10000 []) _ (onArray_ctx _ _) rfl (by decide)⟩

/-- A tensor shape of one row of four words, at the translated granule; its buffer at 0x100400; members and receivers. -/
def tensor : Wg := { group with k :=
  [(0, 0x400000000100000), (1, 0x100000004), (2, 16), (3, 0x10004), (9, 0x100400), (10, 0x3001), (12, 2)] }
def wide : Launch := { program with w := 12, h := 4 }
theorem meets_EngineWords :
    Meets (.tcLd 0 8 0 15 0) (fun c s => EngineOk c s none true ∧
      badShape [c.kr 0, c.kr 1, c.kr 2, c.kr 3] = false ∧ tcOverlap false [c.kr 0, c.kr 1, c.kr 2, c.kr 3] (c.kr 8) (c.kr 9).toNat = false ∧
      shBase [c.kr 0, c.kr 1, c.kr 2, c.kr 3] % shE [c.kr 0, c.kr 1, c.kr 2, c.kr 3] = 0 ∧
      (c.kr 9).toNat % shE [c.kr 0, c.kr 1, c.kr 2, c.kr 3] = 0) ∧
    Meets (.tcMcast 0 8 9 15 1) (fun c s => EngineOk c s (some (c.kr 9).toNat) true ∧
      badShape [c.kr 0, c.kr 1, c.kr 2, c.kr 3] = false ∧ tcOverlap false [c.kr 0, c.kr 1, c.kr 2, c.kr 3] (c.kr 8) (c.kr 9).toNat = false ∧
      s.badMembers c (c.kr 10) = false) ∧
    Meets (.busA 9 13 0 15 0) (fun c s => EngineOk c s none true ∧ (c.kr 9).toNat % 128 = 0 ∧ recCause (c.kr 13) = .none ∧
      bits (c.kr 14) 16 48 = 0 ∧ bits (c.kr 14) 0 12 ≠ 0 ∧
      ∀ d ∈ busCores c.core false (bits (c.kr 14) 0 12), d ≠ c.core ∧ c.la.inRect d = true) ∧
    Meets (.rvSend 20 13 9 15) (fun c s => EngineOk c s (some (c.kr 9).toNat) false ∧ bits (c.kr 20) 32 32 = 0 ∧ bits (c.kr 20) 28 2 ≠ 3 ∧
      bits (c.kr 20) 30 2 ≠ 3 ∧ (c.kr 13).toNat % 128 = 0 ∧ (c.kr 14).toNat % 128 = 0) :=
  ⟨met lane tensor program rfl (by decide), met lane tensor program rfl (by decide),
   met lane { tensor with k := [(9, 0x100400), (13, 0x400000000), (14, 0x802)] } wide rfl (by decide),
   met lane { tensor with k := [(9, 0x100400)] } program rfl (by decide)⟩
/-- Engine words behind a load, with a full queue, with a completion counter that is not aligned, and those that their rules refuse. -/
def withK (k : Tab DWord) : Wg := { group with k := k }
theorem meets_EngineWords_held :
    (let sh := fun (c : Ctx) => [c.kr 0, c.kr 1, c.kr 2, c.kr 3]
     let good := fun (c : Ctx) => badShape (sh c) = false ∧ tcOverlap false (sh c) (c.kr 8) (c.kr 9).toNat = false ∧ false = false
     let al := fun (c : Ctx) => shBase (sh c) % shE (sh c) = 0 ∧ (c.kr 9).toNat % shE (sh c) = 0
     Meets (.tcLd 0 8 5 15 1) (fun c s => (good c ∧ al c) ∧ (∀ a, some (c.kr 5).toNat = some a → a % 8 = 0) ∧ (s.quiet c.g = false ∨
       s.acquiring c.g = true ∨ (true = true ∧ 16 ≤ (s.core c.core).tcq.length) ∨ ¬ CommitOk c s)) ∧
     Meets (.tcLd 0 8 5 15 1) (fun c _ => (good c ∧ al c) ∧ ∃ a, some (c.kr 5).toNat = some a ∧ a % 8 ≠ 0) ∧
     Meets (.tcLd 0 8 0 15 0) (fun c _ => ¬ good c) ∧
     Meets (.tcLd 0 8 0 15 0) (fun c _ => good c ∧ ¬ al c)) :=
  ⟨metIn (onCore { tcq := List.replicate 16 0 } lane tensor) _ (onCore_ctx _ _ _ _ rfl rfl) rfl
     ⟨by decide, fun a h => by cases h; decide, by decide⟩,
   met lane { tensor with k := (5, 4) :: tensor.k } program rfl ⟨by decide, 4, by decide⟩,
   met lane group program rfl (by decide), met lane (withK [(0, 0x400000000100001), (1, 0x100000004), (2, 16), (3, 0x10004)]) program rfl (by decide)⟩
theorem meets_EngineWords_refused :
    (let w := fun (c : Ctx) => c.kr 14
     let good := fun (c : Ctx) => bits (w c) 16 48 = 0 ∧ bits (w c) 0 12 ≠ 0 ∧ (false = true → bits (w c) 4 8 = 0) ∧
       ∀ d ∈ busCores c.core false (bits (w c) 0 12), d ≠ c.core ∧ c.la.inRect d = true
     Meets (.busA 9 13 0 15 0) (fun c _ => ¬ good c ∨ recCause (c.kr 13) = .illegal) ∧
     Meets (.busA 9 13 0 15 0) (fun c _ => good c ∧ recCause (c.kr 13) = .fmt) ∧
     Meets (.busA 9 13 0 15 0) (fun c _ => good c ∧ recCause (c.kr 13) = .none ∧ (c.kr 9).toNat % 128 ≠ 0)) ∧
    (let good := fun (c : Ctx) => bits (c.kr 20) 32 32 = 0 ∧ bits (c.kr 20) 28 2 ≠ 3 ∧ bits (c.kr 20) 30 2 ≠ 3
     Meets (.rvSend 20 13 9 15) (fun c _ => ¬ good c) ∧
     Meets (.rvSend 20 13 9 15) (fun c _ => good c ∧ ¬ ((c.kr 13).toNat % 128 = 0 ∧ (c.kr 14).toNat % 128 = 0))) :=
  ⟨⟨met lane group program rfl (by decide), met lane (withK [(13, 0x300000000), (14, 0x802)]) wide rfl (by decide),
    met lane (withK [(9, 1), (13, 0x400000000), (14, 0x802)]) wide rfl (by decide)⟩,
   met lane (withK [(20, 0x30000000)]) program rfl (by decide), met lane (withK [(14, 64)]) program rfl (by decide)⟩

/-- The small machine with partition 0 holding `p`. -/
def inPart (p : Part) (l : Lg := lane) (w : Wg := group) (la : Launch := program) : State := { small l w la with parts := [(0, p)] }
theorem inPart_ctx (p : Part) (l : Lg) (w : Wg) (la : Launch) (h : l.wg = 1) (hw : w.launch = 0) :
    (inPart p l w la).ctx? = some (ctx l w la) := small_ctx l w la h hw
def withHandlers : Launch := { program with words := program.words.set 1 (2#64 <<< 48) }

theorem meets_TagAndMessageWords :
    Meets (.rvTalloc 31 7) (fun c s => c.owns 31 = true ∧ s.acquiring c.g = false ∧ ((s.part c.part).tags.filter fun x => !x.2.freed).length < 4096) ∧
    Meets (.rvTfree 0) (fun c s => bits (c.kr 0) 24 40 = 0 ∧ s.tagOwner c.part (bits (c.kr 0) 0 24) true = some 0 ∧ s.acquiring c.g = false) ∧
    Meets (.rvStat 0 31) (fun c s => c.owns 31 = true ∧ s.acquiring c.g = false) ∧
    Meets (.amReg 4 7) (fun c s => bits (c.kr 4) 21 43 = 0 ∧ bits (c.kr 4) 12 8 < c.la.hcnt ∧ (c.kr 4).getLsbD 20 = false ∧
      Tab.find (s.part c.part).handlers (bits (c.kr 4) 0 12) = none) ∧
    Meets (.amReg 4 7) (fun c s => bits (c.kr 4) 21 43 = 0 ∧ bits (c.kr 4) 12 8 < c.la.hcnt ∧ (c.kr 4).getLsbD 20 = true ∧
      ∃ h, Tab.find (s.part c.part).handlers (bits (c.kr 4) 0 12) = some h ∧ h.1 = c.wg.launch) :=
  ⟨metIn (inPart {}) _ (inPart_ctx _ _ _ _ rfl rfl) rfl (by decide),
   metIn (inPart { tags := [(0, ⟨0, false⟩)] }) _ (inPart_ctx _ _ _ _ rfl rfl) rfl (by decide),
   metIn (inPart { tags := [(0, ⟨0, false⟩)] }) _ (inPart_ctx _ _ _ _ rfl rfl) rfl (by decide),
   metIn (inPart {} lane { group with k := [(4, 0x1FFF)] } withHandlers) _ (inPart_ctx _ _ _ _ rfl rfl) rfl (by decide),
   metIn (inPart { handlers := [(0xFFF, (0, 1))] } lane { group with k := [(4, 0x101FFF)] } withHandlers) _ (inPart_ctx _ _ _ _ rfl rfl) rfl
     ⟨by decide, by decide, by decide, (0, 1), by decide, rfl⟩⟩
/-- Whether the first flit of a message of `am.send` `r` finds a permit, or at its own core room in the queue. -/
def amRoom (r v : Nat) (c : Ctx) (s : State) : Bool :=
  let w := c.kr r
  let dst := coreAt (bits w 0 5) (bits w 5 3)
  let u := Committed c s
  let ans := u.handlerOf c dst (w.getLsbD 8) (bits w 9 12)
  { u with msgs := u.msgs.put u.nseq {
      src := c.core, dst := dst, launch := c.wg.launch, reg := w.getLsbD 8, hidx := bits w 9 12, len := bits w 21 8, cmd := u.nseq,
      data := c.payload v (bits w 21 8), pts := (u.core c.core).pts, entry := ans.1.2, owner := ans.1.1 } }.canSend
    (.amArrive u.nseq) (.core c.core) (.core dst) .am
/-- A launch handler whose table's first entry (0x100080) names the line 0x100000, and a message to core 0 itself of 128 bytes. -/
theorem meets_TagAndMessageWords_send :
    Meets (.amSend 4 31 7 15) (fun c s => bits (c.kr 4) 29 35 = 0 ∧ bits (c.kr 4) 0 5 ≤ 23 ∧ bits (c.kr 4) 21 8 ≤ 128 ∧
      ((c.kr 4).getLsbD 8 = true ∨ (bits (c.kr 4) 9 12 < c.la.hcnt ∧ c.la.inRect (coreAt (bits (c.kr 4) 0 5) (bits (c.kr 4) 5 3)) = true)) ∧
      c.payloadF 31 (bits (c.kr 4) 21 8) = [] ∧ s.quiet c.g = true ∧ s.acquiring c.g = false ∧ CommitOk c s ∧
      ((Committed c s).handlerOf c (coreAt (bits (c.kr 4) 0 5) (bits (c.kr 4) 5 3)) ((c.kr 4).getLsbD 8) (bits (c.kr 4) 9 12)).2 = .none ∧
      amRoom 4 31 c s = true) :=
  met lane { group with k := [(4, 0x10000000)] } withHandlers rfl (by decide)
/-- To core 1 with no permit of the first link, from a handler and from no handler; past the gate; behind a load; reserved bits. -/
def far : Launch := { withHandlers with w := 4 }
def noPermit (l : Lg) : State :=
  let s := small l (withK [(4, 0x10000001)]) far
  s.setPermit (((s.way (.core 0) (.core 1) Chan.am.mesh).head?).getD 0) Chan.am.pos ⟨0, []⟩
theorem meets_TagAndMessageWords_refused :
    (let w := fun (c : Ctx) => c.kr 4
     let dst := fun (c : Ctx) => coreAt (bits (w c) 0 5) (bits (w c) 5 3)
     let good := fun (c : Ctx) => bits (w c) 29 35 = 0 ∧ bits (w c) 0 5 ≤ 23 ∧ bits (w c) 21 8 ≤ 128 ∧
       ((w c).getLsbD 8 = true ∨ (bits (w c) 9 12 < c.la.hcnt ∧ c.la.inRect (dst c) = true))
     let ok := fun (c : Ctx) (s : State) => good c ∧ c.payloadF 31 (bits (w c) 21 8) = [] ∧ s.quiet c.g = true ∧ s.acquiring c.g = false ∧ CommitOk c s
     let ans := fun (c : Ctx) (s : State) => (Committed c s).handlerOf c (dst c) ((w c).getLsbD 8) (bits (w c) 9 12)
     Meets (.amSend 4 31 7 15) (fun c s => ok c s ∧ (ans c s).2 ≠ .none ∧ c.lg.status ≠ .ended) ∧
     Meets (.amSend 4 31 7 15) (fun c s => good c ∧ c.payloadF 31 (bits (w c) 21 8) = [] ∧
       (s.quiet c.g = false ∨ s.acquiring c.g = true ∨ ¬ CommitOk c s)) ∧
     Meets (.amSend 4 31 7 15) (fun c _ => ¬ good c ∧ c.payloadF 31 (min (bits (w c) 21 8) 128) = [])) ∧
    (let w := fun (c : Ctx) => c.kr 4
     let dst := fun (c : Ctx) => coreAt (bits (w c) 0 5) (bits (w c) 5 3)
     let ok := fun (c : Ctx) (s : State) => (bits (w c) 29 35 = 0 ∧ bits (w c) 0 5 ≤ 23 ∧ bits (w c) 21 8 ≤ 128 ∧
       ((w c).getLsbD 8 = true ∨ (bits (w c) 9 12 < c.la.hcnt ∧ c.la.inRect (dst c) = true))) ∧ c.payloadF 31 (bits (w c) 21 8) = [] ∧
       s.quiet c.g = true ∧ s.acquiring c.g = false ∧ CommitOk c s
     let ans := fun (c : Ctx) (s : State) => (Committed c s).handlerOf c (dst c) ((w c).getLsbD 8) (bits (w c) 9 12)
     Meets (.amSend 4 31 7 15) (fun c s => ok c s ∧ (ans c s).2 = .none ∧ c.lg.hnd = true ∧ amRoom 4 31 c s = false) ∧
     Meets (.amSend 4 31 7 15) (fun c s => ok c s ∧ (ans c s).2 = .none ∧ c.lg.hnd = false ∧ amRoom 4 31 c s = false)) ∧
    Meets (.rvTalloc 31 7) (fun c s => c.owns 31 = true ∧ s.acquiring c.g = true) ∧ Meets (.rvTalloc 31 7) (fun c _ => c.owns 31 = false) ∧
    Meets (.rvTfree 0) (fun c _ => bits (c.kr 0) 24 40 ≠ 0) ∧
    Meets (.rvTfree 0) (fun c s => bits (c.kr 0) 24 40 = 0 ∧ s.tagOwner c.part (bits (c.kr 0) 0 24) true = none) ∧
    Meets (.amReg 4 7) (fun c s => (bits (c.kr 4) 21 43 = 0 ∧ bits (c.kr 4) 12 8 < c.la.hcnt) ∧ s.acquiring c.g = true) ∧
    Meets (.amReg 4 7) (fun c _ => ¬ (bits (c.kr 4) 21 43 = 0 ∧ bits (c.kr 4) 12 8 < c.la.hcnt)) :=
  ⟨⟨met lane (withK [(4, 0x100)]) program rfl (by decide),
    metIn (behind loading lane (withK [(4, 0x100)])) _ (behind_ctx _ _ _ _ rfl rfl) rfl (by decide),
    met lane (withK [(4, 0x20000000)]) program rfl (by decide)⟩,
   ⟨metIn (noPermit { lane with hnd := true }) (ctx { lane with hnd := true } (withK [(4, 0x10000001)]) far) rfl rfl (by decide),
    metIn (noPermit lane) (ctx lane (withK [(4, 0x10000001)]) far) rfl rfl (by decide)⟩,
   metIn (behind acquire) _ (behind_ctx _ _ _ _ rfl rfl) rfl (by decide), met lane { group with kown := [(31, 32)] } program rfl (by decide),
   met lane (withK [(0, 0x1000000)]) program rfl (by decide), met lane group program rfl (by decide),
   metIn (behind acquire lane group withHandlers) _ (behind_ctx _ _ _ _ rfl rfl) rfl (by decide), met lane group program rfl (by decide)⟩

/-- A pipe of one word-sized element, of capacity 2 and one producer. -/
def pipe1 : Pipe := { name := 3, ring := 0x100000, desc := 0x1000200000003, vf := 0, left := 1 }
theorem meets_PipeWords :
    Meets (.pipeBind 2) (fun c s => bits (c.kr 3) 16 3 ≤ 5 ∧ bits (c.kr 3) 19 13 = 0 ∧ peCap (c.kr 3) ≠ 0 ∧ pePcnt (c.kr 3) ≠ 0 ∧
      (c.kr 2).toNat % 128 = 0 ∧ s.acquiring c.g = false ∧ GransOk c s 3 (pieces (c.kr 2).toNat (peCap (c.kr 3) * peEsz (c.kr 3))) ∧
      (∀ p ∈ (s.xlateGrans c 3 (granules (pieces (c.kr 2).toNat (peCap (c.kr 3) * peEsz (c.kr 3))))).2.1.vals,
        (s.xlateGrans c 3 (granules (pieces (c.kr 2).toNat (peCap (c.kr 3) * peEsz (c.kr 3))))).1.sliceErr c.part p.1 true = .none) ∧
      (s.part c.part).pipes.length < 64) ∧
    Meets (.pipePush 4 31) (fun c s => c.lg.grant = none ∧ s.pipe c.part (bits (c.kr 4) 0 16) = some (0, pipe1) ∧ pipe1.left ≠ 0 ∧
      c.payloadF 31 pipe1.size = [] ∧ s.quiet c.g = true ∧ s.acquiring c.g = false ∧ CommitOk c s ∧ pipe1.full = false ∧
      ((Committed c s).ringAt c pipe1 (pipe1.head + pipe1.len) 3).2.1 = some (0x100000, 1) ∧
      ((Committed c s).ringAt c pipe1 (pipe1.head + pipe1.len) 3).2.2.isNone = true ∧ s.pipeWaiters c.part 3 true = []) ∧
    Meets (.pipePush 4 31) (fun c s => c.lg.grant = none ∧ s.pipe c.part (bits (c.kr 4) 0 16) = none ∧ c.payloadF 31 0 = []) ∧
    Meets (.pipePop 4 31 7) (fun c s => c.lg.grant = none ∧ s.acquiring c.g = false ∧ s.pipeWaiters c.part (bits (c.kr 4) 0 16) false = [] ∧
      ∃ n p, s.pipe c.part (bits (c.kr 4) 0 16) = some (n, p) ∧ p.len = 0 ∧ p.left = 0) ∧
    Meets (.pipeEos 4) (fun c s => s.acquiring c.g = false ∧ ∃ n p, s.pipe c.part (bits (c.kr 4) 0 16) = some (n, p) ∧ p.left ≠ 0) :=
  ⟨met lane { group with k := [(2, 0x100000), (3, 0x1000200000003)] } program rfl (by decide),
   metIn (inPart { pipes := [(0, pipe1)] } lane { group with k := [(4, 3)] }) _ (inPart_ctx _ _ _ _ rfl rfl) rfl (by decide),
   met lane group program rfl (by decide),
   metIn (inPart { pipes := [(0, { pipe1 with left := 0 })] } lane { group with k := [(4, 3)] }) _ (inPart_ctx _ _ _ _ rfl rfl) rfl
     ⟨by decide, by decide, by decide, 0, { pipe1 with left := 0 }, by decide, rfl, rfl⟩,
   metIn (inPart { pipes := [(0, pipe1)] } lane { group with k := [(4, 3)] }) _ (inPart_ctx _ _ _ _ rfl rfl) rfl
     ⟨by decide, 0, pipe1, by decide, by decide⟩⟩
/-- The pipe with `p` as its state, its name in `k4`; behind an acquire. -/
def piped (p : Pipe) (l : Lg := lane) : State := inPart { pipes := [(0, p)] } l (withK [(2, 0x100000), (3, 0x1000200000003), (4, 3)])
theorem piped_ctx (p : Pipe) (l : Lg) (h : l.wg = 1) :
    (piped p l).ctx? = some (ctx l (withK [(2, 0x100000), (3, 0x1000200000003), (4, 3)]) program) := inPart_ctx _ _ _ _ h rfl
def pipedLate (p : Pipe) : State := { piped p with accs := [(7, acquire)], nseq := 8 }
theorem pipedLate_ctx (p : Pipe) : (pipedLate p).ctx? = some (ctx lane (withK [(2, 0x100000), (3, 0x1000200000003), (4, 3)]) program) := piped_ctx p lane rfl
theorem meets_PipeWords_bind :
    (let d := fun (c : Ctx) => c.kr 3
     let good := fun (c : Ctx) => bits (d c) 16 3 ≤ 5 ∧ bits (d c) 19 13 = 0 ∧ peCap (d c) ≠ 0 ∧ pePcnt (d c) ≠ 0 ∧ (c.kr 2).toNat % 128 = 0
     let ps := fun (c : Ctx) => pieces (c.kr 2).toNat (peCap (d c) * peEsz (d c))
     let alike := fun (c : Ctx) (p : Pipe) => p.ring = (c.kr 2).toNat ∧ p.desc = d c ∧ p.vf = c.vf
     let taken := fun (c : Ctx) (s : State) => (s.pipe c.part (bits (d c) 0 16) = none ∧ 64 ≤ (s.part c.part).pipes.length) ∨
       ∃ n p, s.pipe c.part (bits (d c) 0 16) = some (n, p) ∧ ¬ alike c p
     Meets (.pipeBind 2) (fun c s => good c ∧ (s.acquiring c.g = false ∧ GransOk c s 3 (ps c) ∧
       ∀ p ∈ (Walked c s 3 (ps c)).2.vals, (Walked c s 3 (ps c)).1.sliceErr c.part p.1 true = .none) ∧
       ∃ n p, s.pipe c.part (bits (d c) 0 16) = some (n, p) ∧ alike c p) ∧
     Meets (.pipeBind 2) (fun c s => good c ∧ taken c s) ∧
     Meets (.pipeBind 2) (fun c s => good c ∧ ¬ taken c s ∧ s.acquiring c.g = true) ∧
     Meets (.pipeBind 2) (fun c s => good c ∧ ¬ taken c s ∧ s.acquiring c.g = false ∧ GransFail c s 3 (ps c)) ∧
     Meets (.pipeBind 2) (fun c _ => ¬ good c)) := by
  refine ⟨metIn (piped pipe1) _ (piped_ctx _ _ rfl) rfl ⟨by decide, by decide, 0, pipe1, by decide⟩,
    metIn (piped { pipe1 with ring := 0 }) _ (piped_ctx _ _ rfl) rfl ⟨by decide, .inr ⟨0, { pipe1 with ring := 0 }, by decide⟩⟩,
    metIn (pipedLate pipe1) _ (pipedLate_ctx _) rfl ⟨by decide, ?_, by decide⟩,
    met lane (withK [(2, 0x200000), (3, 0x1000200000003)]) program rfl ⟨by decide, ?_, by decide, by decide⟩, met lane group program rfl (by decide)⟩
  · rintro (h | ⟨n, p, h, hn⟩)
    · exact absurd h.1 (by decide)
    · cases (show some (0, pipe1) = some (n, p) from h); exact hn (by decide)
  · rintro (h | ⟨n, p, h, hn⟩)
    · exact absurd h.2 (by decide)
    · exact nomatch h
theorem meets_PipeWords_more :
    Meets (.pipePush 4 31) (fun c _ => c.lg.grant ≠ none) ∧
    Meets (.pipePush 4 31) (fun c s => c.lg.grant = none ∧ ∃ n p, s.pipe c.part (bits (c.kr 4) 0 16) = some (n, p) ∧ p.left = 0 ∧ c.payloadF 31 p.size = []) ∧
    Meets (.pipePop 4 31 7) (fun c s => c.lg.grant = none ∧ s.acquiring c.g = false ∧ ∃ n p, s.pipe c.part (bits (c.kr 4) 0 16) = some (n, p) ∧
      (s.pipeWaiters c.part (bits (c.kr 4) 0 16) false ≠ [] ∨ (p.len = 0 ∧ p.left ≠ 0))) ∧
    Meets (.pipePop 4 31 7) (fun c s => c.lg.grant = none ∧ s.acquiring c.g = true ∧ (s.pipe c.part (bits (c.kr 4) 0 16)).isSome = true) ∧
    Meets (.pipePop 4 31 7) (fun c s => c.lg.grant = none ∧ s.pipe c.part (bits (c.kr 4) 0 16) = none) ∧
    Meets (.pipeEos 4) (fun c s => s.acquiring c.g = true ∧ ∃ n p, s.pipe c.part (bits (c.kr 4) 0 16) = some (n, p) ∧ p.left ≠ 0) ∧
    Meets (.pipeEos 4) (fun c s => ∀ n p, s.pipe c.part (bits (c.kr 4) 0 16) = some (n, p) → p.left = 0) :=
  ⟨met { lane with grant := some .pushed } group program rfl (by decide),
   metIn (piped { pipe1 with left := 0 }) _ (piped_ctx _ _ rfl) rfl ⟨by decide, 0, _, rfl, by decide⟩,
   metIn (piped pipe1) _ (piped_ctx _ _ rfl) rfl ⟨by decide, by decide, 0, pipe1, rfl, by decide⟩,
   metIn (pipedLate pipe1) _ (pipedLate_ctx _) rfl (by decide), met lane group program rfl (by decide),
   metIn (pipedLate pipe1) _ (pipedLate_ctx _) rfl ⟨by decide, 0, pipe1, rfl, by decide⟩,
   met lane group program rfl fun _ _ h => nomatch h⟩
/-- A pop of the one element. -/
def pipe2 : Pipe := { pipe1 with len := 1, pts := [0], frames := [none] }
theorem meets_PipeWords_element :
    (inPart { pipes := [(0, pipe2)] }).pipe 0 3 = some (0, pipe2) ∧
    ((inPart { pipes := [(0, pipe2)] }).ringAt (ctx lane group program) pipe2 pipe2.head 1).2.1 = some (0x100000, 1) ∧
    ((inPart { pipes := [(0, pipe2)] }).ringAt (ctx lane group program) pipe2 pipe2.head 1).2.2.isNone = true := by decide

theorem meets_TaskWords :
    Meets (.taskSpawn 2 4 7) (fun c s => bits (c.kr 4) 0 32 ≠ 0 ∧ bits (c.kr 4) 32 32 = 0 ∧ (c.kr 5).toNat % 128 = 0 ∧
      s.quiet c.g = true ∧ s.acquiring c.g = false ∧ CommitOk c s ∧ (c.kr 2).toNat < (c.kr 3).toNat ∧
      ((Committed c s).part c.part).tasks.length < 1024) ∧
    Meets (.taskSpawnL 2 4 7) (fun c s => (c.kr 4).toNat < 8 ∧ (c.kr 4).toNat < 2 ^ s.winBits (oVFM c.vf) 5 2 ∧ (c.kr 2).toNat % 64 = 0 ∧
      s.quiet c.g = true ∧ s.acquiring c.g = false ∧ GransOk c s 1 (pieces (c.kr 2).toNat 64) ∧
      (let x := Walked c s 1 (pieces (c.kr 2).toNat 64)
       let u1 := Committed c x.1
       let rd := State.readPieces { c.cmd u1 none .commit with gran := x.2 } 0 (pieces (c.kr 2).toNat 64) (u1, {})
       CommitOk c x.1 ∧ Unowned s rd.1 ∧ rd.2.errs = [] ∧ (rd.1.part c.part).plb.length < 64)) ∧
    Meets (.taskNext 30) (fun c s => (c.owns 30 = true ∧ c.owns 31 = true) ∧ s.acquiring c.g = false ∧ c.lg.task = some 9 ∧
      Tab.find (s.part c.part).tasks 9 = some ⟨0, 4, 10, 3, 0, 0, some 2⟩) ∧
    Meets .taskDone (fun c s => c.lg.task = some 9 ∧ s.acquiring c.g = false ∧ Tab.find (s.part c.part).tasks 9 = some ⟨0, 4, 10, 3, 0, 0, some 2⟩) ∧
    Meets (.nodeCommit 15) (fun c s => s.quiet c.g = true ∧ s.acquiring c.g = false ∧ CommitOk c s) :=
  ⟨met lane { group with k := [(3, 1), (4, 1)] } program rfl (by decide), met lane loads program rfl (by decide),
   metIn (inPart { tasks := [(9, ⟨0, 4, 10, 3, 0, 0, some 2⟩)] } { lane with task := some 9 }) _ (inPart_ctx _ _ _ _ rfl rfl) rfl (by decide),
   metIn (inPart { tasks := [(9, ⟨0, 4, 10, 3, 0, 0, some 2⟩)] } { lane with task := some 9 }) _ (inPart_ctx _ _ _ _ rfl rfl) rfl (by decide),
   met lane group restartable rfl (by decide)⟩
/-- An empty range, a full pool, a load outstanding, a step of zero; a launch word whose queue is not enabled, at an address that is not
aligned, with a full buffer and with a poisoned packet; words of a task where no task is held; a commit behind a load. -/
def fullPool : Part := { tasks := (List.range 1024).map fun i => (i, ⟨0, 4, 10, 3, 0, 0, none⟩), plb := List.range 64 }
theorem meets_TaskWords_more :
    (let good := fun (c : Ctx) => bits (c.kr 4) 0 32 ≠ 0 ∧ bits (c.kr 4) 32 32 = 0 ∧ (c.kr 5).toNat % 128 = 0
     let ok := fun (c : Ctx) (s : State) => good c ∧ s.quiet c.g = true ∧ s.acquiring c.g = false ∧ CommitOk c s
     Meets (.taskSpawn 2 4 7) (fun c s => ok c s ∧ (c.kr 3).toNat ≤ (c.kr 2).toNat) ∧
     Meets (.taskSpawn 2 4 7) (fun c s => ok c s ∧ (c.kr 2).toNat < (c.kr 3).toNat ∧ 1024 ≤ ((Committed c s).part c.part).tasks.length) ∧
     Meets (.taskSpawn 2 4 7) (fun c s => good c ∧ (s.quiet c.g = false ∨ s.acquiring c.g = true ∨ ¬ CommitOk c s)) ∧
     Meets (.taskSpawn 2 4 7) (fun c _ => ¬ good c)) ∧
    Meets (.taskNext 30) (fun c s => (c.owns 30 = true ∧ c.owns 31 = true) ∧ s.acquiring c.g = true ∧ c.lg.task.isSome = true) ∧
    Meets (.taskNext 30) (fun c _ => c.lg.task = none) ∧
    Meets (.taskNext 30) (fun c _ => ¬ (c.owns 30 = true ∧ c.owns 31 = true) ∧ c.lg.task.isSome = true) ∧
    Meets .taskDone (fun c s => c.lg.task.isSome = true ∧ s.acquiring c.g = true) ∧ Meets .taskDone (fun c _ => c.lg.task = none) ∧
    Meets (.nodeCommit 15) (fun c s => s.quiet c.g = false ∨ s.acquiring c.g = true ∨ ¬ CommitOk c s) :=
  ⟨⟨met lane (withK [(4, 1)]) program rfl (by decide),
    metIn (inPart fullPool lane (withK [(3, 1), (4, 1)])) _ (inPart_ctx _ _ _ _ rfl rfl) rfl (by decide),
    metIn (behind loading lane (withK [(4, 1)])) _ (behind_ctx _ _ _ _ rfl rfl) rfl (by decide), met lane group program rfl (by decide)⟩,
   metIn (behind acquire { lane with task := some 9 }) _ (behind_ctx _ _ _ _ rfl rfl) rfl (by decide), met lane group program rfl (by decide),
   met { lane with task := some 9 } { group with kown := [(31, 32)] } program rfl (by decide),
   metIn (behind acquire { lane with task := some 9 }) _ (behind_ctx _ _ _ _ rfl rfl) rfl (by decide), met lane group program rfl (by decide),
   metIn waiting _ waiting_ctx rfl (by decide)⟩
theorem meets_TaskWords_launch :
    (let good := fun (c : Ctx) (s : State) => (c.kr 4).toNat < 8 ∧ (c.kr 4).toNat < 2 ^ s.winBits (oVFM c.vf) 5 2
     let free := fun (c : Ctx) (s : State) => s.quiet c.g = true ∧ s.acquiring c.g = false
     let ps := fun (c : Ctx) => pieces (c.kr 2).toNat 64
     let read := fun (c : Ctx) (s : State) =>
       let x := Walked c s 1 (ps c)
       let u1 := Committed c x.1
       State.readPieces { c.cmd u1 none .commit with gran := x.2 } 0 (ps c) (u1, {})
     let ok := fun (c : Ctx) (s : State) => good c s ∧ (c.kr 2).toNat % 64 = 0 ∧ free c s ∧ GransOk c s 1 (ps c) ∧
       CommitOk c (Walked c s 1 (ps c)).1 ∧ Unowned s (read c s).1
     Meets (.taskSpawnL 2 4 7) (fun c s => ok c s ∧ (read c s).2.errs = [] ∧ 64 ≤ ((read c s).1.part c.part).plb.length) ∧
     Meets (.taskSpawnL 2 4 7) (fun c s => ok c s ∧ (worst (read c s).2.errs).1 ≠ .none) ∧
     Meets (.taskSpawnL 2 4 7) (fun c s => good c s ∧ (c.kr 2).toNat % 64 = 0 ∧ ¬ free c s) ∧
     Meets (.taskSpawnL 2 4 7) (fun c s => good c s ∧ (c.kr 2).toNat % 64 ≠ 0) ∧
     Meets (.taskSpawnL 2 4 7) (fun c s => ¬ good c s)) :=
  ⟨metIn (inPart { plb := List.range 64 } lane loads) _ (inPart_ctx _ _ _ _ rfl rfl) rfl (by decide),
   metIn { small lane loads program with poison := [(0x100000 / 4, true)] } (ctx lane loads program) rfl rfl (by decide),
   metIn (behind loading lane loads) _ (behind_ctx _ _ _ _ rfl rfl) rfl (by decide), met lane (withK [(2, 1)]) program rfl (by decide),
   met lane (withK [(4, 8)]) program rfl (by decide)⟩

/-- A launch whose supervisor handler is the line 0x100000, and its lane group inside it. -/
def handled : Launch := { program with words := program.words.set 4 (0x100000#64) }
def inHandler : Lg := { lane with sup := true, savedEm := 3, fm := 1, fpc := own, resume := own }
theorem meets_TrapAndReturn :
    Meets (.trap 0xAB) (fun c _ => c.la.svh ≠ 0 ∧ c.lg.sup = false) ∧ Meets (.trap 0xAB) (fun c _ => c.la.svh = 0 ∨ c.lg.sup = true) ∧
    Meets (.bkpt 0xAB) (fun c s => (s.win' (oBKE (c.vf / 64))).getLsbD (c.vf % 64) = true) ∧
    Meets (.bkpt 0xAB) (fun c s => (s.win' (oBKE (c.vf / 64))).getLsbD (c.vf % 64) = false) ∧
    Meets .sysret (fun c s => c.lg.sup = true ∧ s.handlerBusy c = false ∧ c.lg.fm ≠ 0 ∧ c.lg.resume = c.lg.fpc) ∧
    Meets .sysret (fun c s => c.lg.sup = true ∧ s.handlerBusy c = false ∧ (c.lg.fm = 0 ∨ c.lg.resume ≠ c.lg.fpc)) ∧
    Meets .sysret (fun c s => c.lg.sup = true ∧ s.handlerBusy c = true) ∧ Meets .sysret (fun c _ => c.lg.sup = false) :=
  ⟨met lane group handled rfl (by decide), met lane group program rfl (by decide),
   metIn { small lane group program with win := [(oBKE 0, 1)] } (ctx lane group program) rfl rfl (by decide),
   met lane group program rfl (by decide), met inHandler group handled rfl (by decide),
   met { inHandler with fm := 0 } group handled rfl (by decide),
   metIn { small inHandler group handled with accs := [(7, loading)], nseq := 8 } (ctx inHandler group handled) rfl rfl (by decide),
   met lane group handled rfl (by decide)⟩
/-- A trap taken with and without a handler, a first touch and a second-stage fault. -/
def bad (k : Cause) : Trap := { cause := k, rank := 6, slot := 3, run := true, fm := 0, fpc := own, resume := own }
theorem meets_TakingAnException :
    (bad .illegal).cause ≠ .xlatS2 ∧ ¬ ((ctx lane group handled).la.node = true ∧ ((bad .illegal).cause = .poison ∨ (bad .illegal).cause = .deferred)) ∧
    (ctx lane group handled).la.svh ≠ 0 ∧ (ctx lane group handled).lg.sup = false := by decide
theorem meets_NoHandlerStops :
    (bad .align).cause ≠ .xlatS2 ∧ (bad .align).cause ≠ .xlatFt ∧
    ¬ ((ctx inHandler group handled).la.node = true ∧ ((bad .align).cause = .poison ∨ (bad .align).cause = .deferred)) ∧
    ((ctx inHandler group handled).la.svh = 0 ∨ (ctx inHandler group handled).lg.sup = true) ∧
    ((ctx lane group program).la.svh = 0 ∨ (ctx lane group program).lg.sup = true) := by decide
theorem meets_PageFaultParks : (bad .xlatFt).cause = .xlatFt ∧ (ctx lane group program).la.svh = 0 ∧ (bad .xlatS2).cause = .xlatS2 := by decide

theorem meets_ControlRegisters :
    Meets (.crRd 62 0) (fun _ _ => (0#8).toNat < 5 ∨ 8 < (0#8).toNat) ∧ Meets (.crRd 63 8) (fun _ _ => 5 ≤ (8#8).toNat ∧ (8#8).toNat ≤ 8) ∧
    Meets (.crWr 62 0) (fun c _ => c.em ≠ 0 ∧ c.ExOk 62 ∧ c.ExOk 63 ∧ bits (c.v 62 c.exLane) 3 2 ≠ 3) ∧
    Meets (.crWr 62 4) (fun c _ => c.em ≠ 0 ∧ c.ExOk 62 ∧ c.ExOk 63 ∧ bits (c.v 62 c.exLane) 8 9 ≤ 256) ∧
    Meets (.crWr 63 5) (fun c _ => c.RegOk 63) ∧
    Meets (.crWr 62 0x0A) (fun c _ => c.em ≠ 0 ∧ c.ExOk 62 ∧ c.ExOk 63 ∧ c.sn.sup = true) ∧
    Meets (.crWr 62 0x21) (fun c _ => c.em ≠ 0 ∧ c.ExOk 62 ∧ c.ExOk 63) ∧
    Meets (.crWr 62 0x0C) (fun c _ => c.em ≠ 0 ∧ c.ExOk 62 ∧ c.ExOk 63) ∧
    Meets (.crWr 62 0x13) (fun c _ => c.em ≠ 0 ∧ c.ExOk 62 ∧ c.ExOk 63 ∧ c.sn.sup = true) ∧
    Meets (.crWr 62 0x18) (fun c _ => c.em ≠ 0 ∧ c.ExOk 62 ∧ c.ExOk 63 ∧ c.sn.sup = true) ∧
    Meets (.crWr 62 4) (fun c _ => c.em ≠ 0 ∧ c.ExOk 62 ∧ c.ExOk 63 ∧
      256 < bits (BitVec.ofNat 64 ((c.v 62 c.exLane).toNat + (c.v 63 c.exLane).toNat * 2 ^ 32)) 8 9) ∧
    Meets (.crWr 62 0x0C) (fun c _ => c.em = 0) ∧
    Meets (.crWr 62 0x18) (fun c _ => c.sn.sup = false) ∧
    Meets (.crWr 62 0) (fun c _ => c.em ≠ 0 ∧ c.ExOk 62 ∧ c.ExOk 63 ∧ bits (c.v 62 c.exLane) 3 2 = 3) :=
  ⟨met lane group program rfl (by decide), met lane group program rfl (by decide), met lane group program rfl (by decide),
   met lane group program rfl (by decide), met lane group program rfl (by decide), met inHandler group handled rfl (by decide),
   met lane group program rfl (by decide), met lane group program rfl (by decide), met inHandler group handled rfl (by decide),
   met inHandler group handled rfl (by decide), met { lane with v := [(62 * 32, 0x10100)] } group program rfl (by decide),
   met noLanes group program rfl (by decide), met lane group program rfl (by decide),
   met { lane with v := [(62 * 32, 0x18)] } group program rfl (by decide)⟩

theorem meets_PageWords :
    Meets .park (fun c _ => c.lg.sup = true ∧ c.lg.pend.isSome = true ∧ c.lg.hnd = false) ∧
    Meets .park (fun c _ => c.lg.sup = false ∨ c.lg.pend = none ∨ c.lg.hnd = true) ∧
    Meets (.poolPop 63) (fun c s => c.lg.sup = true ∧ c.lg.pend = some ⟨0, 0, 3, 0⟩ ∧ Unowned s (s.popFrame c ⟨0, 0, 3, 0⟩).1) ∧
    Meets (.poolPop 63) (fun c _ => c.lg.sup = false ∨ c.lg.pend = none) ∧
    Meets (.poolGive 63 4) (fun c s => bits (c.kr 4) 4 2 ≠ 3 ∧ bits (c.kr 4) 48 16 = 0 ∧
      bits (c.kr 4) 16 32 * 65536 % 2 ^ frameBits (bits (c.kr 4) 4 2) = 0 ∧
      ((c.kr 4).getLsbD 6 = true ∨ (Tab.find (s.part c.part).pools (bits (c.kr 4) 0 4)).isNone = true)) ∧
    Meets (.poolGive 63 4) (fun c s => ¬ (bits (c.kr 4) 4 2 ≠ 3 ∧ bits (c.kr 4) 48 16 = 0 ∧
      bits (c.kr 4) 16 32 * 65536 % 2 ^ frameBits (bits (c.kr 4) 4 2) = 0 ∧
      ((c.kr 4).getLsbD 6 = true ∨ ∀ q, Tab.find (s.part c.part).pools (bits (c.kr 4) 0 4) = some q → q.size = bits (c.kr 4) 4 2))) ∧
    Meets (.xlatProbe 62 0xC1 31) (fun c s => c.SrcOk 0xC1 ∧ Unowned s (s.probeLanes c (c.kr 31) 0xC1 c.lanes).1) ∧
    Meets (.tlbInv 31 255) (fun c s => (c.kr 31).toNat % 65536 = 0 ∧ (c.kr 31).toNat < 2 ^ 57 ∧ s.invs.find c.g = none) ∧
    Meets (.tlbInv 31 255) (fun c _ => (255 : BitVec 8) ≠ 0 ∧ ((c.kr 31).toNat % 65536 ≠ 0 ∨ 2 ^ 57 ≤ (c.kr 31).toNat)) :=
  ⟨met { inHandler with pend := some ⟨0, 0, 3, 0⟩ } group handled rfl (by decide), met lane group program rfl (by decide),
   met { inHandler with pend := some ⟨0, 0, 3, 0⟩ } group handled rfl (by decide), met lane group program rfl (by decide),
   met lane group program rfl (by decide), met lane (withK [(4, 0x30)]) program rfl fun h => absurd h.1 (by decide),
   met lane group program rfl ⟨src_ok _ _ rfl (by decide), by decide⟩, met lane group program rfl (by decide),
   met lane (withK [(31, 1)]) program rfl (by decide)⟩
theorem meets_PlainSystemWords : Meets .yield (fun c s => s.readyOn c.core c.lg.sc c.g = []) ∧
    Meets .yield (fun c s => s.readyOn c.core c.lg.sc c.g ≠ []) :=
  ⟨met lane group program rfl (by decide),
   metIn { small lane group program with lgs := [(2, lane), (5, { lane with lgn := 4 })] } (ctx lane group program) rfl rfl (by decide)⟩
theorem meets_CounterWords : Meets (.cset 15 0 255) (fun _ _ => True) ∧ Meets (.cadd 15 0x7F 0) (fun _ _ => True) ∧
    wellFormed (.cset 15 0x80 0) = false ∧ wellFormed (.cadd 15 0x5F 0) = false ∧ wellFormed (.cadd 15 0x60 1) = false :=
  ⟨met lane group program rfl trivial, met lane group program rfl trivial, by decide⟩
theorem meets_RdspValues : Meets (.rdsp 3 1 0) (fun _ _ => True) ∧ Meets (.rdsp 63 0 15) (fun _ _ => True) ∧
    wellFormed (.rdsp 63 0 5) = false ∧ wellFormed (.rdsp 63 0 31) = false :=
  ⟨met lane group program rfl trivial, met lane group program rfl trivial, by decide⟩
theorem meets_EncodeThenDecode : encode .nop = some 0x78000000#32 ∧ decodeWord 0x78000000#32 = some .nop := by decide
theorem meets_StoredBytes : Memory.wf State.reset.mem = true ∧ State.reset.retiredAt 0 = false ∧
    ({ State.reset with retired := [0] } : State).retiredAt 65535 = true := by decide

/-! ## Hypotheses that are met: the step -/

/-- The machine after reset with the word `addi v3, v0, 1` about to issue. -/
def placed : State := State.reset.placeWord 0x08060001
/-- The machine as the step makes it ready. -/
def ready0 : State := { placed.settle with pk := {} }
theorem placed_issuable : placed.agenda = [] ∧ ready0.overdue = none ∧ ready0.ripeOf [] ready0.pending = [] ∧ ready0.due = [] ∧
    ready0.issuable = [2] :=
  ⟨by decide, by decide, by decide, List.eq_nil_of_length_eq_zero (by decide), by decide⟩
/-- The step of the word: the register is written, a cycle has passed, and the path goes on at the next line (R262). -/
theorem test_step : (match step placed with
    | .next t => (vOf (t.lgs.find 2) 3 0, vOf (t.lgs.find 2) 3 31, t.now, (t.lgs.find 2).map fun l : Lg => l.pc == own + 10)
    | _ => (none, none, 0, none)) = (some 1, some 1, 1, some true) := by decide
/-- The line that the lane group fetches, and what its packet holds. -/
def line1 : FetchLine := FetchLine.ofBytes (lineOfWord 0x08060001#32)
theorem meets_StepRunsTheWord_line :
    mayLand line1 own = true ∧ line1.isValid (own.toNat % 10) = true ∧ (line1.packet 0).hold = false ∧
    (line1.packet 0).badFill.isNone = true ∧ packetSlots (line1.packet 0) = [(0, some (.addi 3 0 0 1))] ∧
    wellFormed (.addi 3 0 0 1) = true ∧ (ctx lane group program).chainSlot (packetWords (line1.packet 0)) false false = none := by decide
def ready1 : State :=
  { ready0.modLg 2 (fun l => { l with status := .ready, counting := false }) with
    cur := 2, pk := { idx := own, succ := own, first := own, since := some ready0.nseq } }
theorem meets_StepRunsTheWord_fetch : (ready0.lgs.find 2).isSome = true ∧ ready0.flitMoves.length = 0 ∧
    (ready0.lgs.find 2).map (·.kv) = some [] ∧ ((ready0.lgs.find 2).map (·.replay.isNone)) = some true ∧
    ∃ c, ready1.ctx? = some c ∧ (ready1.fetchLine c (lineVa own)).2 = .line line1 ∧ (ready1.fetchLine c (lineVa own)).1.pk.stall = false ∧
      (ready1.fetchLine c (lineVa own)).1.spawnWaits c (line1.packet 0) = false :=
  ⟨by decide, by decide, by decide, by decide, _, rfl, by decide, by decide, by decide⟩

/-- The package after its boot, bulkhead 0 running for partition 0 and function 0, nothing placed. -/
def idle : State := { win := placeWin, hmap := [(0, 0#4)], boot := { stage := 3 }, nseq := 9 }
/-- A frame beyond its deadline; an event of the outside due at once; a machine with nothing to do; one whose turns come round. -/
def lateFrame : State := { State.reset with now := 2000000, streams := [(7, { frames := [(4, { topen := 0 })] })] }
theorem meets_StepTakesTheEvent_first :
    (let s0 : State := { lateFrame.settle with pk := {} }
     s0.overdue.filter (fun f => s0.moves (execFrameDeadline f.1 f.2.1 f.2.2)) = some (0, 7, 4) ∧
       ∃ t, exec (.frameDeadline 0 7 4) s0 = .next t) ∧
    (let s : State := { State.reset with agenda := [(0, .tlbiAll)] }
     let s0 : State := { s.settle with pk := {} }
     s0.overdue = none ∧ s0.firstOutside [] s.agenda = some (0, .tlbiAll) ∧ (encode .tlbiAll).isNone = true ∧
       ∃ t, exec .tlbiAll { s0 with agenda := [] } = .next t) :=
  ⟨⟨by decide, _, rfl⟩, by decide, by decide, by decide, _, rfl⟩
theorem meets_StepTakesTheEvent :
    (let s0 : State := { State.reset.settle with pk := {} }
     s0.overdue = none ∧ s0.agenda = [] ∧ s0.issuable = [] ∧ s0.ripeOf [] s0.pending = [] ∧ s0.flitMoves.length = 0 ∧ s0.due = []) ∧
    (ready0.epoch % 8 = 0 ∧ ready0.longestWaiting = some 2) ∧
    (let s0 : State := { idle with epoch := 1, pending := [.memoryReadComplete 8192] }
     s0.settle = s0 ∧ s0.ripeOf [] s0.pending = [.memoryReadComplete 8192]) ∧
    (let s0 : State := { small { lane with status := .blocked .barStep false } group { together with step := { arrived := [2] } } with epoch := 2 }
     s0.settle = s0 ∧ 0 < s0.due.length) ∧
    (let s0 : State := ({ idle with epoch := 3 } : State).send (.ghostUpdateArrive 1) (.core 0) (.core 1) .ghost 32
     s0.epoch % 8 = 3 ∧ s0.flitMoves.length = 1) :=
  ⟨⟨by decide, by decide, by decide, by decide, by decide, List.eq_nil_of_length_eq_zero (by decide)⟩, by decide, by decide, by decide, by decide⟩
theorem meets_StepsKeepMemoryCanonical : State.reset.MemInv ∧ ∃ t, step State.reset = .next t := ⟨rfl, _, rfl⟩
theorem meets_NoPacketInExecution : ∃ t, step State.reset = .next t := ⟨_, rfl⟩

/-! ## Hypotheses that are met: the events -/

/-- The same with the first gigabyte mapped to itself at both stages: tables at 0x200000 and 0x202000. -/
def mapped : State :=
  let put := fun (s : State) (a w : Nat) => s.writeBytes a (natLe 8 w)
  let s := put (put idle 0x200000 0x201003) 0x201000 0x800000000001D
  let s := put (put (put s 0x202000 0x203003) 0x203000 0x204003) 0x204000 0x1D
  { s with win := s.win.put (oS2C 0) 0x200001, vfr := [(0, 0x202001)] }

/-- What else a branch may find of its line: an address past 2^57, a bad header, a second stage that is not there, a page to come. -/
theorem meets_BranchWords_fetches :
    (∃ x v, ((small lane group program).fetchLine (ctx lane group program) (2 ^ 57)).2 = .raise x v) ∧
    (∃ l, ((small lane group program).fetchLine (ctx lane group program) 0x100000).2 = .bad l) ∧
    (∃ a b, (({ small lane group program with vfr := [(0, 0x202001)] } : State).fetchLine (ctx lane group program) 0x32000).2 = .s2 a b) ∧
    (∃ p, (({ small lane group program with
       win := mapped.win, vfr := mapped.vfr, mem := (mapped.writeBytes 0x204000 (natLe 8 0x3C)).mem } : State).fetchLine
       (ctx lane group program) 0x32000).2 = .park p) :=
  ⟨⟨_, _, rfl⟩, ⟨_, rfl⟩, ⟨_, _, rfl⟩, ⟨_, rfl⟩⟩

theorem meets_LaunchEvents_queues :
    (idle.hostUp = true ∧ idle.queueOn 0 0 = true ∧
      (1 % 2 ^ 32 + 2 ^ 32 - ({ idle with vfr := [(oLQB 0, 4)] } : State).vrBits 0 (oLQB 0 + 16) 0 32) % 2 ^ 32 ≤
        qSize (({ idle with vfr := [(oLQB 0, 4)] } : State).vrBits 0 (oLQB 0) 0 4)) ∧
    (let s := { mapped with vfr := [(0, 0x202001), (oLQB 0, 0x100004), (oLQB 0 + 8, 1)] }
     s.canReadQueue 0 0 = true ∧ (s.ipaAddr (s.vfPart 0) 0 0x100000 1).2 = some (0x100000, 1) ∧
       ((s.ipaAddr (s.vfPart 0) 0 0x100000 1).1.devRead 0x100000 64).2.2 = false) := by decide

/-- A launch of one workgroup that waits; of two workgroups, one placed; that has ended its one workgroup. -/
def fresh : Launch := { program with st := .waiting, next := 0 }
def two : Launch := { program with words := program.words.set 2 0x0000000100010002#64 }
theorem meets_LaunchEvents_place :
    ({ idle with launches := [(0, fresh)] } : State).work 0 = some (.place 0) ∧
    (({ idle with launches := [(0, fresh)] } : State).tryStart 0).isSome = true ∧
    ({ idle with launches := [(0, two)] } : State).work 0 = some (.place 0) ∧
    (({ idle with launches := [(0, two)] } : State).tryNext 0).isSome = true := by decide
theorem meets_LaunchEvents_start : ∃ s : State, Ev.workgroupStart 1 ∈ s.pending ∧
    ∃ g la, s.wgs.find 1 = some g ∧ s.launches.find g.launch = some la ∧ g.st = .starting ∧ g.kind = .grid ∧ la.kinit = 0 :=
  ⟨{ small lane { group with st := .starting } program with pending := [.workgroupStart 1] }, by decide, _, _, rfl, rfl, rfl, rfl, rfl⟩
theorem meets_LaunchEvents_end :
    ({ idle with launches := [(0, program)] } : State).launchOver 0 = true ∧ program.ctr = 0 ∧
    ((fresh.st = .waiting ∨ fresh.st = .gang) ∧ ({ fresh with words := together.words } : Launch).cor = true ∧ fresh.late = false ∧
      fresh.since + idle.gto fresh.part < 10000000) ∧
    ({ program with faulted := true } : Launch).ending = true ∧
    ({ idle with launches := [(0, { program with faulted := true })] } : State).allStopped 0 = true ∧
    program.lastIssue + idle.gto program.part < 10000000 ∧
    idle.inRun 0 = false ∧ Ev.nodeDiscard 0 ∈ ({ idle with pending := [.nodeDiscard 0] } : State).pending := by decide
/-- A running elastic launch on 1 to 4 dies, and a request for 4. -/
def elastic : Launch := { program with words := program.words.set 1 0x430000000#64 }
theorem meets_LaunchEvents_resize :
    (let s := { idle with launches := [(0, elastic)] }
     let v := 0x2000000000#64
     s.hostUp = true ∧ bits v 35 3 = 4 ∧ elastic.dmin ≤ bits v 35 3 ∧ bits v 35 3 ≤ elastic.dmax ∧
       s.launches.find? (fun p => p.2.vf == 0 && p.2.st == .running && p.2.elas && p.2.queue == bits v 32 3 &&
         p.2.lnum % 2 ^ 32 == bits v 0 32) = some (0, elastic)) := by decide
theorem meets_LaunchEvents_task :
    (let s := { idle with launches := [(0, program)], parts := [(0, { tasks := [(5, ⟨0, 4, 10, 3, 0, 0, none⟩)] })] }
     s.work 0 = some (.claim 0) ∧ s.claimNext 0 = some (0, 5) ∧ (s.part 0).tasks.find 5 = some ⟨0, 4, 10, 3, 0, 0, none⟩) := by decide

theorem meets_SchedulingEvents_barriers :
    (small lane { group with bars := [(3, { arrived := [0] })] } program).barFull 1 3 = true ∧
    (small lane group { together with spans := [(spanKey 0 0 0 0, { arrived := [2] })] }).spanFull 0 0 0 0 0 = true ∧
    (small lane group { together with step := { arrived := [2] } }).stepFull 0 = true ∧
    (let p : Launch := { elastic with step := { arrived := [2], flag := true }, resize := some 4 }
     (small lane group p).stepFull 0 = true ∧ p.resize = some 4 ∧ p.step.flag = true ∧ p.elas = true ∧ 4 ≠ p.dies) := by decide
/-- A lane group that waits for registers: 96 of 1024. -/
def growing : Lg := { lane with status := .blocked (.rgrow 96 0 0) false }
theorem meets_SchedulingEvents_lanes :
    ((small { lane with status := .blocked (.barWg 0) true } group program).absent 1 = false) ∧
    (let l : Lg := { lane with aged := false }
     (small l group program).inPlay 1 = true ∧ l.status = .ready ∧ l.aged = false ∧ l.parkAt + 32 ≤ 32) ∧
    ((small { lane with status := .yielding [] } group program).absent 1 = false) ∧
    ((small growing group program).growers 0 0 = [(2, growing, 96)] ∧
      96 - growing.regs ≤ (small growing group program).freeRegs 0 ((small growing group program).core 0).act 0) := by decide
/-- A park longer than 50 µs, with a spill slot free. -/
theorem meets_SchedulingEvents_park :
    ({ small { lane with status := .parkedPage 0 } group program with now := 100001, vfr := [(8, 1)] } : State).canTimeout 2 = true := by decide
/-- Two workgroups that hold 512 registers each and wait for 600. -/
def stuck : State :=
  { small lane group program with
    now := 1024, cores := [(0, { grow := [(0, (0, 0))] })], wgs := [(1, group), (8, { group with slot := 1, placedAt := 5 })], vfr := [(8, 1)]
    lgs := [(2, { lane with alloc := 512, status := .blocked (.rgrow 600 0 0) false }),
            (9, { lane with wg := 8, alloc := 512, status := .blocked (.rgrow 600 0 0) false })] }
theorem meets_SchedulingEvents_growth :
    stuck.growStuck 0 0 = true ∧ stuck.growVictim 0 0 = some 8 ∧ stuck.canSwapOut 8 = true ∧ (stuck.wgs.find 8).isSome = true := by decide
/-- A cooperative launch whose one lane group waits on a pipe for longer than the bound. -/
def pushing : Lg := { lane with status := .blocked (.pipePush 3 [] 0 0) false }
def ownPipe : State :=
  { small pushing group together with
    now := 400001
    parts := [(0, { pipes := [(0, { name := 3, ring := 0x100000, desc := 0x1000200000003, vf := 0, left := 1, pushers := [0], poppers := [0] })] })] }
theorem meets_SchedulingEvents_pipe :
    ownPipe.deadlocked 0 = true ∧
    ((ownPipe.gangLgs 0).filter fun p => p.2.pipeName.isSome) = [(2, pushing)] ∧
    pushing.pipeName = some (3, 0, 0) ∧
    (let s := ownPipe.tenantRec 0 [recHead .pipe 13 0 0 0 0 0 0, 0, 3, 0]
     ({ s.modLg 2 (fun l => { l with status := .ready }) with cur := 2, pk := { idx := pushing.pc } } : State).ctx?.isSome = true) := by decide
/-- A message to core 0 for a launch's handler: on its way, and in the inbound queue. -/
def hello : Msg := { src := 0, dst := 0, launch := 0, reg := false, hidx := 0, data := [], len := 0, cmd := 7, pts := 0 }
theorem meets_SchedulingEvents_messages :
    ((small lane group program).bhSt (bhOf 0) = 3 ∧
      ({ small lane group program with msgs := [(6, hello)], pending := [.amArrive 6] } : State).canArrive 6 hello = true) ∧
    ({ small lane group { withHandlers with reserved := true } with
       msgs := [(6, hello)], cores := [(0, { tlb := [placeTlb], inq := [6] })] } : State).nextMsg 0 = some 6 := by decide
theorem meets_SchedulingEvents_fetch :
    ((placeLg 0).status = .ready ∧ (placeWg 0).st = .resident ∧ (placeLg 0).fetched.isNone = true) ∧
    ∃ t l, placed.fetchLine (ctx (placeLg 0) (placeWg 0) (placeLaunch 0)) (lineVa (placeLg 0).pc) = (t, .line l) :=
  ⟨by decide, _, _, rfl⟩
theorem meets_SchedulingEvents_tick : (191 : Nat) < 192 ∧ (({ idle with now := 256 } : State).core 191).ticks < 256 / 256 := by decide

/-- A line in its slice: 8192 is the number of the line at 0x100000. -/
def present (s : State) : State := { s with dir := [(8192, { inL2 := true, kid := 1, wts := 5 })] }
def part1 : LanePart := { lane := 31, va := placeAt, pa := placeAt, kid := 1, agent := 0 }
def acc (k : AKind) (p : LanePart) : Access := { loading with kind := k, lanes := [p] }
def carried (x : Access) : State := { present (small lane group program) with accs := [(7, x)] }
theorem meets_MemoryEvents_load :
    (let s := carried (acc .load part1)
     s.canLoad 7 8192 = true ∧ (acc .load part1).at 8192 0 = [part1] ∧ part1.held = 0 ∧ part1.off = 0 ∧ s.renews part1 8192 = false ∧ s.owners 8192 = [] ∧ (s.dirOf 8192).lock = none ∧
       (s.dirOf 8192).kid = part1.kid ∧ s.present 8192 = true ∧ s.sliceErr 0 placeAt false = .none) := by decide
theorem meets_MemoryEvents_store :
    (let s := carried (acc .store part1)
     s.canRegister 7 8192 = true ∧ (acc .store part1).at 8192 0 = [part1] ∧
       s.owners 8192 = [] ∧ s.present 8192 = true ∧ s.sliceErr 0 placeAt true = .none) := by decide
theorem meets_MemoryEvents_atomic :
    (let s := carried (acc (.atomic .add false) part1)
     s.canAtomic 7 31 = true ∧ s.sliceErr 0 placeAt true = .none ∧ s.owners (part1.pa / 128) = [] ∧ (s.dirOf (part1.pa / 128)).lock = none ∧
       (s.dirOf (part1.pa / 128)).kid = part1.kid ∧ s.present (part1.pa / 128) = true ∧ s.poison = [] ∧ s.retired = []) := by decide
theorem meets_MemoryEvents_reply : (acc .load { part1 with st := 1, data := [1, 2, 3, 4] }).at (0x100000 / 128) 1 =
    [{ part1 with st := 1, data := [1, 2, 3, 4] }] ∧ loading.ctr < 16 ∧ part1.lane < 32 ∧ part1.off = 0 ∧ part1.err = .none := by decide
theorem meets_MemoryEvents_lines :
    (∃ s : State, (Tab.find (s.copies 191) 8192).isSome = true) ∧
    (∃ s : State, Ev.publishArrive 3 8192 [] 0x80000000 0 ∈ s.pending ∧ s.ownerOf (32 * 8192 + 31) = some 3) ∧
    (∃ s : State, Ev.forcedPublishRequest 0 8192 ∈ s.pending ∧ Ev.memoryReadComplete 8192 ∈ s.pending) ∧
    (let s := present idle
     (s.dirOf 8192).inL2 = true ∧ s.homeDie 0x100000 = homeSlice 0x100000 / 16 ∧ homeSlice 0x100000 < 16 ∧
       (s.dirOf 8192).strong = bit (s.win' (oECS 0)) 0) :=
  ⟨⟨{ cores := [(191, { l1 := [(8192, {})] })] }, by decide⟩,
   ⟨{ pending := [.publishArrive 3 8192 [] 0x80000000 0], dir := [(8192, { own := [(31, 3)] })] }, by decide, by decide⟩,
   ⟨{ pending := [.forcedPublishRequest 0 8192, .memoryReadComplete 8192] }, by decide, by decide⟩, by decide⟩
theorem meets_MemoryEvents_timeout :
    (let s := { small lane group program with accs := [(7, acc .load part1)], pending := [.loadRequest 7 8192] }
     (acc .load part1).at 8192 0 = [part1] ∧ (acc .load part1).writes = false ∧ s.owners 8192 = [] ∧ s.present 8192 = false ∧
       s.pending = [.loadRequest 7 8192]) := by decide
theorem meets_MemoryEvents_outside :
    idle.hostUp = true ∧ idle.canReach (idle.canonPa (0x100007 / 8 * 8)) = true ∧ idle.paKind 0x500000000000 = .host ∧
    (idle.dirOf (0x500000000000 / 128)).lock = none ∧
    (let s := { idle with win := (idle.win.put oDOM 0x10).put (oPAD 0) 0x1021 }
     s.winBits oDOM 4 1 = 1 ∧ s.admission 1 2 = some 0 ∧ s.partEn 0 = true ∧ s.mapOk 0 0x100000 true = true ∧
       s.paKind (s.remoteAt 0x100007 .load) = .hbm 0 ∧ s.canReach (s.remoteAt 0x100007 (.store 1)) = true ∧
       s.mapOk 0 (s.remoteAt 0x100007 .load) (remoteWrites .load) = true ∧ s.admission 1 3 = none) := by decide

theorem meets_TranslationEvents :
    idle.hostUp = true ∧ (0x100000 : Nat) < 2 ^ 57 ∧ (small lane group program).servesOn 0 0 = true ∧ (idle.syncs.find 3).isNone = true ∧
    (({ idle with syncs := [(3, [2])], invs := [(2, { accs := [], cmds := [] })] } : State).invDone { accs := [], cmds := [] } = true) ∧
    (let p : PageReq := { vf := 0, part := 0, va := placeAt, kind := 0, pool := 3, lvl := 4, time := 0, by_ := .lg 2 }
     let s := { mapped with preqs := [(6, p)], vfr := mapped.vfr ++ [(0x10, 0x100004)] }
     s.canRequest 6 = true ∧ (s.ipaAddr 0 0 (s.vrBits 0 0x10 12 36 * 4096 + 32 * (s.vrBits 0 0x18 0 32 % qSize (s.vrBits 0 0x10 0 4))) 2).2 =
       some (0x100000, 1)) := by decide
theorem meets_TranslationEvents_answers :
    (let p : PageReq := { vf := 0, part := 0, va := placeAt, kind := 0, pool := 3, lvl := 4, time := 0, by_ := .lg 2, written := true }
     ({ small { lane with status := .parkedPage 6 } group program with preqs := [(6, p)] } : State).preqs.find?
       (fun q => q.2.vf == 0 && q.1 % 2 ^ 32 == 6 && q.2.written) = some (6, p) ∧ p.by_ = .lg 2) ∧
    (small { lane with status := .parkedS2 placeAt } group program).absent 1 = false := by decide

/-- Workgroup 1 away from its core: leaving, absent, being restored. -/
def away (st : WgSt) : Wg := { group with st := st, spill := some 0, eligible := true }
theorem meets_PreemptionEvents :
    (small lane (away .leaving) program).canLeave 1 = true ∧
    (small lane (away .absent) program).work 0 = some (.readmit 1) ∧ (small lane (away .absent) program).readmitCore 1 = some 0 ∧
    (small lane (away .restoring) program).canRestore 0 1 = true := by decide
/-- An urgent swap on core 0, and the bank it leaves: workgroup 1 stands in the bank that is not active. -/
def shadowed (k : Core) : State := { onCore { k with act := 1 } with vfr := [(8, 4)] }
theorem meets_PreemptionEvents_banks :
    (onCore { swapping := true }).canFlip 0 = true ∧
    ((shadowed {}).canSwapBack 0 = true ∧ (shadowed {}).preempted 0 = true ∧ (shadowed {}).oustedOf 0 = []) ∧
    (shadowed {}).canWriteOut 0 = true ∧
    (let s := shadowed { slots := [(31, { claim := some 1 })] }
     s.foreign 0 (s.slot 0 31).claim = some 1 ∧ s.canEvictSlot 0 31 = true) ∧
    (let s := shadowed { arr := { holder := some 1 } }
     s.foreign 0 (s.core 0).arr.holder = some 1 ∧ s.canEvictArr 0 = true) := by decide

/-- A command of the workgroup, queued at core 0. -/
def queued (b : CmdBody) : Cmd :=
  { lg := 2, wg := 1, core := 0, bank := 0, vf := 0, part := 0, launch := 0, ctr := some 3, lane := 0, em := 1, fpc := own, seq := 7, body := b,
    left := 1 }
/-- The matrix unit with the command `b` first in its queue, `k` its slots and tiles. -/
def matrixAt (b : CmdBody) (k : Core := matrixCore) : State :=
  { onCore { k with mxq := [7] } lane loads program with cmds := [(7, queued b)], nseq := 9 }
/-- A follower whose slot 31 and tile 15 are paired with the leader's. -/
def follower : Core :=
  { slots := [(31, { claim := some 1, pair := true, record := 0x400000000#64 })], tiles := [(15, { claim := some 1, pair := true })], slaved := some 7 }
theorem meets_MatrixEvents_start :
    ((matrixAt (.mxZero 3)).canMx 7 (queued (.mxZero 3)) = true ∧ (matrixAt (.mxZero 3)).startCause (queued (.mxZero 3)) ≠ .none) ∧
    (let b := CmdBody.mxLd 31 0x100000 64 false
     (matrixAt b).canMx 7 (queued b) = true ∧ (matrixAt b).startCause (queued b) = .none) ∧
    ((matrixAt (.mxZero 15)).canMx 7 (queued (.mxZero 15)) = true ∧ (matrixAt (.mxZero 15)).startCause (queued (.mxZero 15)) = .none) ∧
    (let b := CmdBody.mxPmma 15 0 31
     let u := { matrixAt b with cores := (matrixAt b).cores ++ [(1, follower)] }
     u.canMx 7 (queued b) = true ∧ u.startCause (queued b) = .none) ∧
    (let b := CmdBody.mxRec 31 0
     (matrixAt b).canMx 7 (queued b) = true ∧ (matrixAt b).startCause (queued b) = .none) := by decide
theorem meets_MatrixEvents_load :
    (let b := CmdBody.mxLd 31 0x100000 64 false
     let s := { matrixAt b with pending := [.mxLdDone 7] }
     s.cmdBlocked 7 (queued b) = false ∧ ((s.took (.mxLdDone 7)).cmdRead { queued b with gran := [(16, (0x100000, 1))] }).2.errs.isEmpty = true) := by
  decide
/-- A shape of one row of four words at 0x100000. -/
def tensorShape : List DWord := [0x400000000100000, 0x100000004, 16, 0x10004]
/-- Of a line on die 1, which no request has reached yet: for a load, a drain and an engine; of one at home. -/
theorem meets_MatrixEvents_far :
    (let b := CmdBody.mxLd 31 0x100000 64 false
     let s := { matrixAt b with pending := [.mxLdDone 7] }
     s.farFirst 7 { queued b with gran := [(16, (0x100000, 1))] } (.mxLdDone 7) false = none ∧
       (s.farFirst 7 { queued b with gran := [(16, (0x1800000000, 1))] } (.mxLdDone 7) false).isSome = true) ∧
    (let b := CmdBody.mxDrain 15 0x100000 64 0
     let s := { matrixAt b with pending := [.mxDrainDone 7] }
     s.farFirst 7 { queued b with gran := [(16, (0x100000, 1))] } (.mxDrainDone 7) true = none ∧
       (s.farFirst 7 { queued b with gran := [(16, (0x1800000000, 1))] } (.mxDrainDone 7) true).isSome = true) ∧
    (let c := { queued (.tcSt tensorShape 0 0x100400) with gran := [(16, (0x1800000000, 1))] }
     (idle.roundTrip 7 c c.asksFor 0 false).isSome = true ∧ (idle.roundTrip 7 c (c.linesOf c.body.dsts) 3 true).isSome = true ∧
     (let d := { c with gran := [(16, (0x100000, 1))] }
      idle.roundTrip 7 d d.asksFor 0 false = none ∧ idle.roundTrip 7 d (d.linesOf d.body.dsts) 3 true = none)) := by decide
theorem meets_MatrixEvents_poisoned : (({ pois := [5] } : Slot).poisoned = true) ∧
    Ev.mxMmaDone 7 ∈ ({ matrixAt (.mxMma 15 0 31) with pending := [.mxMmaDone 7] } : State).pending := by decide
/-- Products of two slots whose records are of kind 1 and hold zeros. -/
theorem meets_MatrixEvents_product :
    ({ record := 0x400000000#64 } : Slot).poisoned = false ∧
    ∀ k ∈ (halfProduct { record := 0x400000000#64 } { record := 0x400000000#64 } {} []).checks, k = .fine := by decide
theorem meets_MatrixEvents_drain :
    (let b := CmdBody.mxDrain 15 0x100000 64 0
     let s := { matrixAt b with pending := [.mxDrainDone 7] }
     s.cmdBlocked 7 (queued b) = false ∧ s.cmdCommitWaits (queued b) = false ∧ bit (0 : DWord) 37 = false) := by decide
theorem meets_MatrixEvents_bus :
    (let b := CmdBody.bus false 0x100000 0 0x800 0
     let s := { small lane group wide with cmds := [(7, queued b)] }
     s.canBus 7 (queued b) = true ∧ ∃ r ∈ busCores 0 false 0x800, s.busOpen 0 0 r = false) ∧
    (let b := CmdBody.bus false 0x100000 0 0x2 0
     let c : Cmd := { queued b with owned := [1] }
     let s := { onCore {} lane group wide with
       cores := [(1, { matrixCore with mxq := [8] })],
       cmds := [(7, c), (8, { queued (.mxLdb 31 false 0 0 (some 7)) with core := 1, st := .running })] }
     s.canBus 7 c = true ∧ ∀ r ∈ busCores 0 false 0x2, s.busOpen 0 0 r = true) := by decide
theorem meets_MatrixEvents_window :
    (11 : Nat) < 12 ∧ (Tab.getD ({ idle with now := 256 } : State).govs {} 11).window < 256 / 256 ∧
      (Tab.getD ({ idle with now := 256 } : State).govs {} 11).waiting = [] := by decide

/-- Core 0 with the array `a` and the command `b` at the head of the sampling queue. -/
def arrayAt (b : CmdBody) (a : Arr := { holder := some 1, st := 1 }) : State :=
  { onCore { arr := a, saq := [7] } lane loads program with cmds := [(7, queued b)], nseq := 9 }
theorem meets_SamplingEvents_commands :
    (arrayAt (.saKey 5)).canSa 7 (queued (.saKey 5)) = true ∧ (arrayAt .saClr).canSa 7 (queued .saClr) = true ∧
    ((arrayAt (.saSwp 65535 true)).canSa 7 (queued (.saSwp 65535 true)) = true ∧ ((arrayAt (.saSwp 65535 true)).arr 0).st ≠ 4 ∧
      ((arrayAt (.saSwp 65535 true)).arr 0).st ≠ 5) ∧
    (let b := CmdBody.saClmp 0x100000 0 32
     let c := { queued b with gran := [(16, (0x100000, 1))] }
     let s := { arrayAt b with pending := [.saLoadDone 7] }
     s.cmdBlocked 7 c = false ∧ ((s.took (.saLoadDone 7)).cmdRead c).2.errs.isEmpty = true ∧
       ((s.took (.saLoadDone 7)).cmdRead c).2.pois.isEmpty = true ∧
       imageBad b (wordsIn ((s.took (.saLoadDone 7)).cmdRead c).2.bytes (131072 / 2)) = false) ∧
    (let b := CmdBody.saRds 0x100000 0 32
     let c := { queued b with gran := [(16, (0x100000, 1))] }
     let s := { arrayAt b with pending := [.saReadDone 7] }
     s.cmdBlocked 7 c = false ∧ s.cmdCommitWaits c = false ∧
       ((s.took (.saReadDone 7)).cmdWrite c ((s.arr 0).bytes b) false).2.isEmpty = true) := by decide
/-- A subscription to node 2047 of core 47's array, whose holder has gone; its end; its answer. -/
def subscribe : Word := 0xFF1707FF
theorem meets_SamplingEvents_ghosts :
    ghostBad subscribe = false ∧ (idle.arr (ghostCore subscribe)).holder.isNone = true ∧ ghostUnb subscribe = false ∧
    ghostUnb 0x80000800 = (bit (0x80000800 : Word) 11) ∧ ((arrayAt (.saGhost subscribe 1)).core 0).arr.holder = some 1 ∧
    (arrayAt (.saGhost subscribe 1)).sourceOn (ghostCore subscribe) (cfgChain ((arrayAt (.saGhost subscribe 1)).arrOfWg 1).cfg) = none := by decide
/-- The same with the source's array held by workgroup 9 of the partition. -/
theorem meets_SamplingEvents_source :
    (let x := arrayAt (.saGhost 0x00000001 1) { holder := some 1, st := 1 }
     let s : State := { x with cores := x.cores ++ [(ghostCore 0x01020001, { arr := { holder := some 9, st := 1 } })], wgs := x.wgs ++ [(9, { group with core := ghostCore 0x01020001 })] }
     s.sourceOn (ghostCore 0x01020001) (cfgChain (s.arrOfWg 1).cfg) = some 9 ∧
       (let u := s.modArrOf 9 fun a => a.dropExport 1 1
        u.partOf (ghostCore 0x01020001) = 0 ∧ (u.arrOfWg 9).exports.length < 256)) := by decide
theorem meets_SamplingEvents_sweeps :
    (let a : Arr := { holder := some 1, st := 2, swp := some 7 }
     let s := { arrayAt (.saSwp 1 true) a with pending := [.sweepEnd 0] }
     Ev.monitorWindowClose 0 ∉ s.pending ∧ (s.arr 0).swp = some 7 ∧ (s.arr 0).biasDue = false ∧ (s.arr 0).noticed = false ∧
       (s.arr 0).exports = [] ∧ ∀ k ∈ s.cores, k.2.arr.exports = []) ∧
    (arrayAt (.saSwp 1 true) { holder := some 1, st := 1, swp := some 7 }).canSweep 0 = true ∧
    (let u : GhostUpd := { slot := 3, src := 5, node := 1, stamp := 4, val := true, owner := 9 }
     let x := onCore { ghin := [u] }
     let s : State := { x with cores := x.cores ++ [(2, { arr := { holder := some 9 } })], wgs := x.wgs ++ [(9, { group with core := 2 })] }
     s.ghostNext 0 = [u] ∧ ((s.arrOf 9).map (·.1)).getD 0 ≠ 0) ∧
    (let u : GhostUpd := { slot := 3, src := 5, node := 1, stamp := 4, val := true, owner := 9 }
     let s := onCore { arr := { holder := some 1, st := 1, ghosts := [(3, { src := some (5, 1), owner := 9 })] }, ghin := [u] }
     s.ghostNext 0 = [u] ∧ (s.core 0).arr.st ≠ 2) := by decide
/-- A chain that waits on ghost slot 3 beyond its bound; a notice for an array of chain 5. -/
def waitsGhost : Arr :=
  { holder := some 1, st := 3, swp := some 7, edges := [(0, 0x80301)], ghosts := [(3, { src := some (5, 1), owner := 9 })] }
theorem meets_SamplingEvents_stop :
    (let s := onCore { arr := { holder := some 1, st := 1, cfg := 5 } }
     (s.core 0).evArr = [] ∧ ((s.core 0).arr.holder.isSome && cfgChain (s.core 0).arr.cfg == 5) = true ∧ (s.core 0).arr.noticed = false ∧
       (s.core 0).arr.st = 1 ∧ ((s.ghostNext 0).any fun u => u.src == 9) = false) ∧
    (let s := { onCore { arr := waitsGhost } with now := 2000000 }
     (s.arr 0).stalls = some 3 ∧ (s.arr 0).stallAt + cfgTimeout (s.arr 0).cfg ≤ s.now ∧
       ∀ x ∈ (s.arr 0).ghosts, x.2.src.isSome = true → ((s.arrOf x.2.owner).map (·.2)).getD false = false) := by decide

/-- A multicast from core 0 to the members of the word 0x3001: cores 0 and 1. -/
def mcast : CmdBody := .tcMcast tensorShape 0 0x100400 0x3001
theorem meets_FabricEvents :
    (let c := { queued mcast with gran := [(16, (0x100000, 1))] }
     let s := { onCore { tcq := [7] } with cmds := [(7, c)], pending := [.engineTakeOwnership 7, .mcastRequest 7 8192] }
     s.canOwn 7 c = true ∧ c.translated = true ∧ s.canOwn 7 (queued mcast) = true ∧ (queued mcast).translated = false ∧ c.left ≠ 2 ∧
       ((s.engineEnd 7 c).modCmd 7 fun x => { x with left := 2 }).counterLocked c = false ∧
       (let d := { c with q := some 0x100000 }
        let t := { s with dir := [(8192, { lock := some 9 })] }
        ((t.engineEnd 7 d).modCmd 7 fun x => { x with left := 2 }).counterLocked d = true) ∧
       s.canMcast 7 8192 = true ∧ s.merges = [] ∧ ∃ m ∈ members 0x3001, m ≠ 0) ∧
    ((0 : Nat) < 4 ∧ (15 : Nat) < 16 ∧ mergeKey 3 15 0 = 63) := by decide
def piece (p : FragPlace) : Frag :=
  { owner := 0, sender := 0, vf := 0, tag := 5, f := 2, nf := 4, op := 0, ty := 0, data := List.replicate 512 0, pois := [],
    dst := [(0x100000, 1)], ctr := (0x100800, 1), cmd := 7, launch := 0, oto := 20000, die := 0, router := 0, place := p }
theorem meets_FabricEvents_fragments :
    (let s := { idle with frags := [(3, piece .sent)], pending := [.fragmentArrive 7 2] }
     s.sentFrag 7 2 = some (3, piece .sent) ∧ s.meetShut 0 0 = false ∧
     (s.part 0).retired.contains (5, 2) = false ∧ Tab.getD s.presence 0 (piece .sent).countKey = 0 ∧
       ({ s with win := s.win.put (oPART 0) 0x141001 } : State).takeStore (piece .sent) = some false) ∧
    (let s := { idle with frags := [(4, { piece .combined with cmd := 9 })], tallies := [(9, { owner := 0, vf := 0, tag := 5, ctr := (0x100800, 1), need := 4 })] }
     s.canDeliver { piece .combined with cmd := 9 } = true ∧ (s.writeFrag { piece .combined with cmd := 9 }).2.1 = false ∧ (s.part 0).tags.find 5 = none ∧ s.tallyRoot 9 = 9 ∧ (1 : Nat) ≤ 4) ∧
    (piece (.store true)).since + (piece (.store true)).oto ≤ 20000 := by decide
theorem meets_FabricEvents_permits :
    (let s := { idle with permits := [(8 * 3 + 7, ⟨0, []⟩)] }
     (s.permit 3 7).held + (s.permit 3 7).buf.length ≠ permitTotal 7) := by decide

/-- Module 3 of edge 3 in direction 1, with `x` as its state. -/
def module (x : LinkDir) (y : LinkDir := {}) : State :=
  { idle with links := [(12, { st := 2 }), (13, { st := 3 }), (14, { st := 2 }), (15, { st := 2 })], ldirs := [(30, y), (31, x)] }
def packet : LPacket := { ev := .amArrive 6, size := 16, left := 16, ch := .am, dst := .core 96, src := .core 1, mod_ := 3 }
def nakFlit : Flit := { seq := 5, bytes := 0, whole := [], kind := 2 }
theorem meets_LinkEvents :
    ((module {}).moduleUp 3 3 = true ∧ ((module { flight := [{ seq := 0, bytes := 0, whole := [] }] }).ldir 3 1 3).flight = [{ seq := 0, bytes := 0, whole := [] }] ∧
      ((module { flight := [{ seq := 0, bytes := 0, whole := [] }] }).ldir 3 1 3).expect = 0) ∧
    (((module {} { flight := [nakFlit] }).ldir 3 (1 - 1) 3).flight = [nakFlit] ∧ ((module {}).ldir 3 1 3).nakFor ≠ some 5) ∧
    ({ module {} with now := 16 } : State).canIdle 3 1 3 = true ∧
    (((module { waiting := true }).ldir 3 1 3).waiting = true ∧ ((module { waiting := true }).ldir 3 1 3).nakAt + 64 ≤ 64) := by decide
theorem meets_LinkEvents_send :
    (module { stored := [packet] }).canFlit 3 1 3 = true ∧ (pack flitRoom [packet]).1 = [{ packet with left := 0 }] := by decide
theorem meets_LinkEvents_modules :
    ((((module {}).link 3 3).recent.filter fun t => decide (idle.now < t + 2000000)).length < 8 ∧ (module {}).moduleUp 3 3 = true ∧
      ∃ f ∈ ((module { replay := [{ seq := 0, bytes := 0, whole := [] }] }).ldir 3 1 3).replay, f.at_ + 4000 ≤ 4000) ∧
    (let s := { module {} with links := (module {}).links.put 15 { st := 1 }, now := 1600 }
     3 ∉ s.edgesDown ∧ (s.link 3 3).st = 1 ∧ (s.link 3 3).half = 0 ∧ (∀ n ∈ nextModules 3, (s.link 3 n).st ≠ 0) ∧
       (s.link 3 3).trainAt + 1600 ≤ s.now) := by decide
theorem meets_LinkEvents_ports :
    (8 : Nat) ≤ 8 ∧ Tab.getD idle.ports false 8 = false ∧ idle.winBits (oCXS 3) 2 1 = 0 ∧ idle.dir.isEmpty = true ∧ idle.pending.isEmpty = true ∧
    Tab.getD ({ idle with ports := [(8, true)] } : State).ports false 8 = true := by decide

/-- Stream queue 7 of function 0: pipe 3 of 32-byte elements at 0x100000, frames of two units at 0x140000. -/
def pipe32 : Pipe := { name := 3, ring := 0x100000, desc := 0x1000200030003, vf := 0, left := 1 }
def streamed (x : Stream) : State :=
  { mapped with
    vfr := mapped.vfr ++ [(oSQB 7, 0x140001), (oSQC 7, 0x0100030000000002)], parts := [(0, { pipes := [(0, pipe32)] })]
    streams := [(7, x)] }
theorem meets_HostEvents_enable :
    (let s := { streamed {} with vfr := mapped.vfr ++ [(oSQB 7, 0x140001)] }
     let u := s.setVr 0 (oSQC 7) (0x0100030000000002#64 &&& 0x00FFFFFFFFFFFFFF#64)
     (0x0100030000000002#64).getLsbD 56 = true ∧ (0x0100030000000002#64).getLsbD 57 = false ∧ 1 ≤ u.vrBits 0 (oSQB 7) 0 4 ∧
       u.vrBits 0 (oSQB 7) 0 4 ≤ 10 ∧ u.sqUnits 0 7 ≠ 0 ∧ u.sqPipe 0 7 = some (0, pipe32) ∧ pipe32.size = 32) := by decide
theorem meets_HostEvents_segments :
    (mapped.canSegment 0 7 4 0 64 = true ∧ mapped.sqOn 0 7 = false) ∧
    ((streamed { closed := [4] }).canSegment 0 7 4 64 64 = true ∧ (streamed { closed := [4] }).sqOn 0 7 = true ∧
      64 + 64 ≤ 64 * (streamed { closed := [4] }).sqUnits 0 7) ∧
    (let s := streamed { frames := [(4, { topen := 0 })] }
     s.canSegment 0 7 4 0 64 = true ∧ s.sqOn 0 7 = true ∧ 0 + 64 ≤ 64 * s.sqUnits 0 7 ∧ 4 ∉ (s.stream 0 7).closed ∧
       s.expired 0 7 { topen := 0 } = false ∧ s.segmentWaits 0 7 4 0 64 = false ∧
       (s.unitAddrs 0 7 4 [0]).2 = [(0, some (0x140000, 1))] ∧ 0 + 1 ≠ s.sqUnits 0 7) ∧
    (let s := { streamed { frames := [(4, { topen := 0 })] } with now := 2000000 }
     s.canSegment 0 7 4 0 64 = true ∧ s.sqOn 0 7 = true ∧ 4 ∉ (s.stream 0 7).closed ∧ 0 + s.sqDeadline 0 7 ≤ s.time) ∧
    ({ streamed {} with dir := [(0x200000 / 128, { lock := some 9 })] } : State).segmentWaits 0 7 4 0 64 = true := by decide
theorem meets_HostEvents_frames :
    (let s := { streamed { frames := [(4, { topen := 0, units := [0, 1] })] } with now := 2000000 }
     s.canExpire 0 7 4 = true ∧ (s.unitAddrs 0 7 4 ((List.range (s.sqUnits 0 7)).filter fun u => !([0, 1].contains u))).2.isEmpty = true) ∧
    (let d : StreamDesc := { frame := 4, loss := false, topen := 0, tclose := 0, bytes := 128 }
     let s := streamed { ready := [d] }
     s.descAt 0 7 = some (d, 0, pipe32, 0x100000) ∧ s.canDescribe 0 7 = true) := by decide
theorem meets_HostEvents_boot : State.reset.boot.stage < 3 ∧ State.reset.boot.halted = false ∧ idle.slateUp = true ∧
    idle.boot.quotes < 2 ^ 20 ∧ (255 : Nat) < 256 := by decide

/-- Bulkhead 11 with the control word `w`. -/
def bulkhead (w : DWord) : State := { idle with win := idle.win.put (oBHC 11) w }
theorem meets_BulkheadEvents_up :
    (State.reset.bhSt 11 = 0 ∧ idle.dumps.contains 11 = false ∧ idle.bhWait.find 11 = none) ∧
    ({ bulkhead 0xF0011 with bhSince := [(11, 0)], now := 200000 } : State).railUp 11 = true ∧
    ({ bulkhead 0xF0011 with bhSince := [(11, 0)], now := 200001 } : State).railUp 11 = true ∧
    ((bulkhead 0xF0025).bhSt 11 = 2 ∧ (bulkhead 0xF0025).bhBit 11 0 = true ∧ (bulkhead 0xF0025).bhBit 11 1 = false ∧
      (bulkhead 0xF0025).bhBit 11 2 = true) ∧
    ({ bulkhead 0xF0027 with bhSince := [(23, 0)], now := 100001 } : State).pllOn 11 = true ∧
    ({ bulkhead 0xF00A3 with bhSince := [(11, 0)], now := 262144 } : State).canInit 11 = true := by decide
theorem meets_BulkheadEvents_down :
    ((bulkhead 0xF00B3).bhSt 11 = 3 ∧ (bulkhead 0xF00B3).bhBit 11 0 = true ∧ (bulkhead 0xF00B3).bhBit 11 3 = false) ∧
    ((bulkhead 0xF00DB).bhSt 11 = 5 ∧ (bulkhead 0xF00DB).bhBit 11 7 = true ∧ (bulkhead 0xF00DB).bhBit 11 2 = false) ∧
    ((bulkhead 0xF00CB).canDrain 11 = true ∧ (((bulkhead 0xF00CB).setSt 11 5).bhRec 11).bhWait.find 11 = none) := by decide
/-- A message that crosses a draining bulkhead too long. -/
theorem meets_BulkheadEvents_timeout :
    (let s := { bulkhead 0xF00CB with
       msgs := [(6, { hello with src := 191 })], pending := [.amArrive 6], bhSince := [(11, 0)], now := 10000000 }
     s.canGateTimeout 11 = true ∧ s.messages.filter (s.crossLate 11) = [.amArrive 6]) := by decide
theorem meets_BulkheadEvents_trim :
    ((bulkhead 0xF00B3).slateUp = true ∧ ({ bulkhead 0xF00B3 with win := (bulkhead 0xF00B3).win.put (oTRM 11) 2 } : State).canTrim 11 = true) ∧
    ({ idle with dumps := [11] } : State).dumps = [11] ∧ idle.winBits oDMB 27 21 = 0 ∧
    ({ bulkhead 0xF00B3 with win := (bulkhead 0xF00B3).win.put oDMB 0x8000000 } : State).winBits oDMB 27 21 ≠ 0 := by decide

theorem meets_ManagerEvents_partitions :
    (let s := bulkhead 0xF00B3
     let v := 0x141800#64
     v.getLsbD 12 = true ∧ s.partEn 11 = false ∧ s.partOk 11 v = true ∧ s.partOk 11 0x1800 = false) ∧
    (idle.partEn 0 = true ∧ (idle.part 0).teardown = none) ∧
    (({ idle with parts := [(0, { teardown := some 0 })] } : State).canTeardown 0 = true) := by decide
/-- Two enabled partitions and a window of 1 on 0: kind 0 (memory), both rights, granules 0 to 1. -/
def twoParts : State := { idle with win := idle.win.put (oPART 1) 0x141800 }
theorem meets_ManagerEvents_windows :
    (let a := 0x1C10#64
     let b := 0x100000000#64
     a.getLsbD 12 = true ∧ twoParts.winBits (oWIN 31) 12 1 = 0 ∧ twoParts.windowOk a b = true ∧ twoParts.windowOk a 0 = false) ∧
    (let s := { idle with win := idle.win.put (oWIN 31) 0x1C10 }
     s.winBits (oWIN 31) 12 1 = 1 ∧ s.winDrain.find 31 = none ∧ ({ s with winDrain := [(31, 0)] } : State).canCloseWin 31 = true ∧
       s.underWindow 31 = false) ∧
    ((twoParts.part (bits (0x1C10#64) 0 4)).teardown = none ∧
     ((twoParts.modPart 1 fun p => { p with teardown := some 0 }).part (bits (0x1C10#64) 4 4)).teardown.isSome = true) := by decide
theorem meets_ManagerEvents_maps :
    idle.mapWord = some 0 ∧ ({ idle with win := idle.win.put oHMX 8 } : State).winBits oHMX 3 1 = 1 ∧
    ((0x10#32).getLsbD 4 = true ∧ idle.partEn (bits (0x10#32) 0 4) = true) ∧
    (idle.winBits (oKEY 8191) 11 1 = 0) ∧
    (let s := { idle with win := idle.win.put (oKEY 8191) 0x400 }
     s.winBits (oKEY 8191) 10 1 = 1 ∧ s.winBits (oKEY 8191) 11 1 = 0) := by decide
theorem meets_ManagerEvents_debug :
    ((0x20000#64).getLsbD 17 = true ∧ (small { lane with status := .bkpt } group program).bkptAt 0x20000 = some 2) ∧
    (idle.winBits (oECS 3) 1 1 = 0 ∧ idle.winBits (oECS 3) 0 1 ≠ b2n true) ∧
    (({ idle with win := idle.win.put (oECS 3) 2 } : State).winBits (oECS 3) 1 1 = 1) ∧
    ((0xFFFFFFFF : Nat) < 2 ^ 32 ∧ 0xFFFFFFFF ∉ idle.retired ∧
      (idle.retired.filter fun x => idle.homeDie (65536 * x) == idle.homeDie (65536 * 0xFFFFFFFF)).length < 1024) ∧
    (((present idle).dirOf (0x100000 / 128)).inL2 = true) ∧
    (let s := { idle with dir := [(8192, { inMsc := true })] }
     (s.dirOf 8192).inMsc = true ∧ (s.dirOf 8192).inL2 = false ∧ (s.dirOf 8192).mscDirty = false) := by decide

/-- The published example of FIPS 180-4: the hash of "abc" begins so. -/
theorem test_sha384 : (sha384 [0x61, 0x62, 0x63]).take 8 = [0xcb, 0x00, 0x75, 0x3f, 0x45, 0xa3, 0x5e, 0x8b] := by decide +kernel

end Sys2Proof.Tests
end

section
/-! SUPPORT. What a write at its home slice changes (O18). -/

set_option Elab.async false

namespace Sys2Proof.Machine

/-- Settles O18, by what a write of bytes at its home does to one byte of memory and to its canonical form. -/
theorem storedBytes : Obligations.StoredBytes := by
  unfold Obligations.StoredBytes
  intro s a bs x
  refine ⟨?_, ?_, ?_, ?_⟩
  · exact memWrite_getD bs s.mem a x
  · exact State.writeBytes_wf a bs
  · exact State.homeWrite_byteAt s a x bs
  · intro hr
    unfold State.homeWrite
    exact if_pos hr

end Sys2Proof.Machine
end

section
/-! SUPPORT. Every step keeps memory in its canonical form (O47). Each function of the model that answers a state has one
lemma, in the order of the model: `State.MemInv.f` says that `State.f`, or a word or an event `f`, keeps memory
canonical. A lemma takes the fact about the state before as its hypothesis, so a proof chains the lemmas of the functions
called as the function itself chains its calls, and a function that takes a continuation asks the same of it. Bytes of
memory change in `State.writeBytes` alone, which keeps the form by `memWrite_wf`. -/

set_option Elab.async false

namespace Sys2Proof.Machine

/-! ## What keeps memory canonical whatever it computes -/

namespace State.MemInv

/-- A change of other fields than memory. -/
theorem of_mem {s t : State} (h : s.MemInv) (e : t.mem = s.mem := by rfl) : t.MemInv := Memory.wf_of_eq e h

/-- A record update that keeps memory, field by field: in a chain of lemmas the state before is read off the memory field. -/
theorem upd {s : State} {x0 x1 x2 x3 x4 x5 x6 x7 x9 x10 x11 x12 x13 x14 x15 x16 x17 x18 x19 x20 x21 x22 x23 x24
    x25 x26 x27 x28 x29 x30 x31 x32 x33 x34 x35 x36 x37 x38 x39 x40 x41 x42 x43 x44 x45 x46 x47 x48 x49 x50 x51
    x52 x53 x54 x55 x56} (h : s.MemInv) :
    (State.mk x0 x1 x2 x3 x4 x5 x6 x7 s.mem x9 x10 x11 x12 x13 x14 x15 x16 x17 x18 x19 x20 x21 x22 x23 x24 x25
      x26 x27 x28 x29 x30 x31 x32 x33 x34 x35 x36 x37 x38 x39 x40 x41 x42 x43 x44 x45 x46 x47 x48 x49 x50 x51
      x52 x53 x54 x55 x56).MemInv := h.of_mem

theorem ite {c : Prop} {_ : Decidable c} {s t : State} (h : s.MemInv) (k : t.MemInv) : (if c then s else t).MemInv := by
  split
  · exact h
  · exact k

theorem ite_fst {α : Type} {c : Prop} {_ : Decidable c} {p q : State × α} (h : p.1.MemInv) (k : q.1.MemInv) :
    (if c then p else q).1.MemInv := by
  split
  · exact h
  · exact k

theorem ite_snd {α : Type} {c : Prop} {_ : Decidable c} {p q : α × State} (h : p.2.MemInv) (k : q.2.MemInv) :
    (if c then p else q).2.MemInv := by
  split
  · exact h
  · exact k

theorem foldl {β : Type} {f : State → β → State} (hf : ∀ {s x}, s.MemInv → (f s x).MemInv) {l : List β}
    {s : State} (h : s.MemInv) : (l.foldl f s).MemInv := Memory.wf_foldl f (fun _ _ => hf) l s h

theorem foldl_fst {α β : Type} {f : State × α → β → State × α}
    (hf : ∀ {p x}, p.1.MemInv → (f p x).1.MemInv) {l : List β} {p : State × α} (h : p.1.MemInv) :
    (l.foldl f p).1.MemInv := by
  induction l generalizing p with
  | nil => exact h
  | cons x r ih => exact ih (hf h)

/-- The state that a function answers beside a value, read off its equation. -/
theorem of_fst {α : Type} {r : State × α} {t : State} {x : α} (e : r = (t, x)) (h : r.1.MemInv) : t.MemInv := by
  rw [e] at h
  exact h

theorem of_snd {α : Type} {r : α × State} {t : State} {x : α} (e : r = (x, t)) (h : r.2.MemInv) : t.MemInv := by
  rw [e] at h
  exact h

end State.MemInv

/-- A next state, if one is answered, holds memory in its canonical form. -/
def Out.MemInv (o : Out) : Prop := ∀ t, o = .next t → t.MemInv

namespace Out.MemInv

theorem next {t : State} (h : t.MemInv) : Out.MemInv (.next t) := fun _ e => by cases e; exact h
theorem fault {f : Fault} : Out.MemInv (.fault f) := fun _ e => nomatch e
theorem refused {r : Refusal} : Out.MemInv (.refused r) := fun _ e => nomatch e

theorem ite {c : Prop} {_ : Decidable c} {o p : Out} (h : Out.MemInv o) (k : Out.MemInv p) :
    Out.MemInv (if c then o else p) := by
  split
  · exact h
  · exact k

end Out.MemInv

/-- The same of a function that may answer no state. -/
def OptMemInv (o : Option State) : Prop := ∀ t, o = some t → t.MemInv

namespace OptMemInv

theorem none : OptMemInv none := fun _ e => nomatch e
theorem some {t : State} (h : t.MemInv) : OptMemInv (some t) := fun _ e => by cases e; exact h

theorem ite {c : Prop} {_ : Decidable c} {o p : Option State} (h : OptMemInv o) (k : OptMemInv p) :
    OptMemInv (if c then o else p) := by
  split
  · exact h
  · exact k

theorem map {f : State → State} (hf : ∀ {s}, s.MemInv → (f s).MemInv) {o : Option State} (h : OptMemInv o) :
    OptMemInv (o.map f) := by
  cases o with
  | none => exact .none
  | some s => exact .some (hf (h s rfl))

theorem map_of {α : Type} {f : α → State} (hf : ∀ {x}, (f x).MemInv) {o : Option α} : OptMemInv (o.map f) := by
  cases o with
  | none => exact .none
  | some x => exact .some hf

theorem filter {p : State → Bool} {o : Option State} (h : OptMemInv o) : OptMemInv (o.filter p) :=
  fun t e => h t (Option.eq_some_of_filter_eq_some e)

theorem head? {l : List State} (h : ∀ t ∈ l, t.MemInv) : OptMemInv l.head? := fun t e => h t (List.mem_of_head? e)

theorem of_some {o : Option State} {t : State} (e : o = Option.some t) (h : OptMemInv o) : t.MemInv := h t e

end OptMemInv

theorem State.MemInv.getD {o : Option State} {s : State} (h : OptMemInv o) (k : s.MemInv) : (o.getD s).MemInv := by
  cases o with
  | none => exact k
  | some t => exact h t rfl

theorem State.MemInv.elim {α : Type} {o : Option α} {s : State} {f : α → State} (h : s.MemInv)
    (k : ∀ {x}, (f x).MemInv) : (o.elim s f).MemInv := by
  cases o with
  | none => exact h
  | some x => exact k

section
variable {s : State}

/-! ## Memory as the home slices hold it -/

theorem State.MemInv.setWin {off w} (h : s.MemInv) : (s.setWin off w).MemInv := h.of_mem
theorem State.MemInv.setWinBits {off lo n v} (h : s.MemInv) : (s.setWinBits off lo n v).MemInv := h.of_mem
theorem State.MemInv.setVr {vf off w} (h : s.MemInv) : (s.setVr vf off w).MemInv := h.of_mem
theorem State.MemInv.setVrBits {vf off lo n v} (h : s.MemInv) : (s.setVrBits vf off lo n v).MemInv := h.of_mem
theorem State.MemInv.setLg {g x} (h : s.MemInv) : (s.setLg g x).MemInv := h.of_mem
theorem State.MemInv.modLg {g f} (h : s.MemInv) : (s.modLg g f).MemInv := h.of_mem
theorem State.MemInv.modWg {w f} (h : s.MemInv) : (s.modWg w f).MemInv := h.of_mem
theorem State.MemInv.modLaunch {l f} (h : s.MemInv) : (s.modLaunch l f).MemInv := h.of_mem
theorem State.MemInv.modCore {c f} (h : s.MemInv) : (s.modCore c f).MemInv := h.of_mem
theorem State.MemInv.modPart {n f} (h : s.MemInv) : (s.modPart n f).MemInv := h.of_mem
theorem State.MemInv.modAcc {a f} (h : s.MemInv) : (s.modAcc a f).MemInv := h.of_mem
theorem State.MemInv.modCmd {c f} (h : s.MemInv) : (s.modCmd c f).MemInv := h.of_mem
theorem State.MemInv.post {e} (h : s.MemInv) : (s.post e).MemInv := h.of_mem
theorem State.MemInv.postOnce {e} (h : s.MemInv) : (s.postOnce e).MemInv := .ite h h.post
theorem State.MemInv.draw (h : s.MemInv) : s.draw.2.MemInv := h.of_mem
theorem State.MemInv.raisePts {c t} (h : s.MemInv) : (s.raisePts c t).MemInv := h.of_mem
theorem State.MemInv.setCopies {a t} (h : s.MemInv) : (s.setCopies a t).MemInv := (State.setCopies_under s a t).2 h
theorem State.MemInv.setCopy {a ln c} (h : s.MemInv) : (s.setCopy a ln c).MemInv := (State.setCopy_under s a ln c).2 h
theorem State.MemInv.writeBytes {a bs} (h : s.MemInv) : (s.writeBytes a bs).MemInv := State.writeBytes_wf _ _ h
theorem State.MemInv.setDir {ln d} (h : s.MemInv) : (s.setDir ln d).MemInv := h.of_mem
theorem State.MemInv.setPois {w b} (h : s.MemInv) : (s.setPois w b).MemInv := h.of_mem

theorem State.MemInv.homeWriteP {a bs pois} (h : s.MemInv) : (s.homeWriteP a bs pois).MemInv :=
  (State.homeWriteP_under s a bs pois).2 h

theorem State.MemInv.keepMsc {ln dirty} (h : s.MemInv) : (s.keepMsc ln dirty).MemInv :=
  (State.keepMsc_under s ln dirty).2 h

theorem State.MemInv.keepL2 {ln dirty} (h : s.MemInv) : (s.keepL2 ln dirty).MemInv :=
  (State.keepL2_under s ln dirty).2 h

theorem State.MemInv.farLine {ln} (h : s.MemInv) : (s.farLine ln).MemInv := (State.farLine_under s ln).2 h
theorem State.MemInv.setPermit {link chan p} (h : s.MemInv) : (s.setPermit link chan p).MemInv := h.of_mem

theorem State.MemInv.dropPacket {id} (h : s.MemInv) : (s.dropPacket id).MemInv := by
  unfold State.dropPacket
  split
  · exact h
  · exact .upd (.foldl (fun h => h.setPermit) h)

theorem State.MemInv.recall {e} (h : s.MemInv) : (s.recall e).MemInv := by
  unfold State.recall
  refine .ite h.upd ?_
  split
  · exact h.dropPacket
  · exact h.upd

theorem State.MemInv.takePublish {a ln cells own pois} (h : s.MemInv) : (s.takePublish a ln cells own pois).MemInv :=
  (State.takePublish_under s a ln cells own pois).2 h

theorem State.MemInv.givePublish {a ln} (h : s.MemInv) : (s.givePublish a ln).MemInv :=
  (State.givePublish_under s a ln).2 h

theorem State.MemInv.publishFrom {ln a} (h : s.MemInv) : (s.publishFrom ln a).MemInv :=
  (State.publishFrom_under s ln a).2 h

theorem State.MemInv.landPublishes {ln} (h : s.MemInv) : (s.landPublishes ln).MemInv :=
  (State.landPublishes_under s ln).2 h

theorem State.MemInv.publishAll {ln} (h : s.MemInv) : (s.publishAll ln).MemInv := (State.publishAll_under s ln).2 h
theorem State.MemInv.stalled (h : s.MemInv) : s.stalled.MemInv := h.of_mem
theorem State.MemInv.publishLine {ln} (h : s.MemInv) : (s.publishLine ln).MemInv := (State.publishLine_under s ln).2 h
theorem State.MemInv.asKey {ln kid} (h : s.MemInv) : (s.asKey ln kid).MemInv := (State.asKey_under s ln kid).2 h

theorem State.MemInv.keyRange {a n kid} (h : s.MemInv) : (s.keyRange a n kid).MemInv :=
  (State.keyRange_under s a n kid).2 h

theorem State.MemInv.stamp {ln pts} (h : s.MemInv) : (s.stamp ln pts).2.MemInv := h.of_mem
theorem State.MemInv.devRead {a n} (h : s.MemInv) : (s.devRead a n).1.MemInv := (State.devRead_under s a n).2 h

theorem State.MemInv.devWrite {a bs pts} (h : s.MemInv) : (s.devWrite a bs pts).2.MemInv :=
  (State.devWrite_under s a bs pts).2 h

/-! ## Translation and fault records -/

theorem State.MemInv.ipaAddr {part vf ipa need} (h : s.MemInv) : (s.ipaAddr part vf ipa need).1.MemInv :=
  (State.ipaAddr_under s part vf ipa need).2 h

theorem State.MemInv.walk {part vf va need} (h : s.MemInv) : (s.walk part vf va need).1.MemInv :=
  (State.walk_under s part vf va need).2 h

theorem State.MemInv.xlate {core part vf va need} (h : s.MemInv) : (s.xlate core part vf va need).1.MemInv :=
  (State.xlate_under s core part vf va need).2 h

theorem State.MemInv.mgrRec {ws} (h : s.MemInv) : (s.mgrRec ws).MemInv := (State.mgrRec_under s ws).2 h

theorem State.MemInv.s2Rec {part vf core wgs lgn ipa va table engine} (h : s.MemInv) :
    (s.s2Rec part vf core wgs lgn ipa va table engine).MemInv :=
  (State.s2Rec_under s part vf core wgs lgn ipa va table engine).2 h

theorem State.MemInv.tenantRec {vf ws} (h : s.MemInv) : (s.tenantRec vf ws).MemInv :=
  (State.tenantRec_under s vf ws).2 h

theorem State.MemInv.flushRecs (h : s.MemInv) : s.flushRecs.MemInv := (State.flushRecs_under s).2 h

theorem State.MemInv.suspectFrame {frame kind} (h : s.MemInv) : (s.suspectFrame frame kind).MemInv :=
  State.suspectFrame_wf _ _ h

/-! ## Operations over registers and control state -/

theorem State.MemInv.wrK {w n by_ x} (h : s.MemInv) : (s.wrK w n by_ x).MemInv := by
  unfold State.wrK
  split
  · exact h
  · exact h.upd.modWg

theorem State.MemInv.showK {w n} (h : s.MemInv) : (s.showK w n).MemInv := h.of_mem
theorem State.MemInv.addCtr {g n x} (h : s.MemInv) : (s.addCtr g n x).MemInv := h.of_mem

theorem State.MemInv.gateRec {part vf core wgs lgn fpc info tenant} (h : s.MemInv) :
    (s.gateRec part vf core wgs lgn fpc info tenant).MemInv :=
  (State.gateRec_under s part vf core wgs lgn fpc info tenant).2 h

theorem State.MemInv.lateGate {part vf core wg lg seq fpc info} (h : s.MemInv) :
    (s.lateGate part vf core wg lg seq fpc info).MemInv :=
  .ite h.mgrRec.modLg h.mgrRec.tenantRec

theorem State.MemInv.pageReq {vf part va kind pool lvl w} (h : s.MemInv) :
    (s.pageReq vf part va kind pool lvl w).2.MemInv :=
  h.of_mem

theorem State.MemInv.s2Wait {part ipa w} (h : s.MemInv) : (s.s2Wait part ipa w).MemInv := h.of_mem

theorem State.MemInv.makeReady {g} (h : s.MemInv) : (s.makeReady g).MemInv := by
  unfold State.makeReady
  split
  · exact h
  · exact .ite h.modLg.upd.modWg h.modLg

theorem State.MemInv.faultLaunch {l c} (h : s.MemInv) : (s.faultLaunch l c).MemInv := h.of_mem
theorem State.MemInv.discardNode {l c} (h : s.MemInv) : (s.discardNode l c).MemInv := h.modLaunch.postOnce

theorem State.MemInv.stopLg {g cause} (h : s.MemInv) : (s.stopLg g cause).MemInv := by
  unfold State.stopLg
  split
  · exact h
  · split
    · exact h
    · split
      · exact h
      · exact h.modLg.faultLaunch.tenantRec

theorem State.MemInv.parkFirstTouch {c t kind} (h : s.MemInv) : (s.parkFirstTouch c t kind).MemInv := h.of_mem
theorem State.MemInv.parkSecondStage {c t} (h : s.MemInv) : (s.parkSecondStage c t).MemInv := h.s2Rec.s2Wait.modLg

theorem State.MemInv.takeTrap {c t kind} (h : s.MemInv) : (s.takeTrap c t kind).MemInv :=
  .ite h.upd.parkSecondStage (.ite h.upd.modLg.discardNode (.ite (.ite h.upd.parkFirstTouch h.upd.modLg.stopLg)
    h.upd.modLg))

theorem State.MemInv.raiseR {c cause fm tva} (h : s.MemInv) : (s.raiseR c cause fm tva).MemInv := h.takeTrap
theorem State.MemInv.raise {c cause} (h : s.MemInv) : (s.raise c cause).MemInv := h.raiseR

theorem State.MemInv.raiseReport {c cause fm tva fpc resume slot run} (h : s.MemInv) :
    (s.raiseReport c cause fm tva fpc resume slot run).MemInv :=
  h.takeTrap

theorem State.MemInv.holdBack {c} (h : s.MemInv) : (s.holdBack c).MemInv := h.of_mem
theorem State.MemInv.blockBack {c b} (h : s.MemInv) : (s.blockBack c b).MemInv := h.of_mem

theorem State.MemInv.word {i f} (h : s.MemInv) (hf : ∀ {x0 s}, s.MemInv → (f x0 s).MemInv) :
    Out.MemInv (word i s f) := by
  unfold Machine.word
  split
  · exact .fault
  · exact .next (.ite (hf h) h.raiseR)

theorem State.MemInv.memWord {i f} (h : s.MemInv) (hf : ∀ {x0 s}, s.MemInv → (f x0 s).MemInv) :
    Out.MemInv (memWord i s f) :=
  h.word fun h => .ite h.holdBack (hf h)

theorem State.MemInv.up {c f} (h : s.MemInv) : (s.up c f).MemInv := h.of_mem

theorem State.MemInv.fire {e f} (h : s.MemInv) (hf : ∀ {s}, s.MemInv → (f s).MemInv) : Out.MemInv (fire e s f) :=
  .next (.ite (hf h.upd) h)

theorem State.MemInv.event {cond f} (h : s.MemInv) (hf : ∀ {s}, s.MemInv → (f s).MemInv) :
    Out.MemInv (event cond s f) :=
  .next (.ite (hf h) h)

theorem State.MemInv.unlessStalled {f} (h : s.MemInv) (hf : ∀ {s}, s.MemInv → (f s).MemInv) :
    (s.unlessStalled f).MemInv :=
  .ite h (hf h)

theorem State.MemInv.memFire {e f} (h : s.MemInv) (hf : ∀ {s}, s.MemInv → (f s).MemInv) :
    Out.MemInv (memFire e s f) :=
  .next (h.unlessStalled fun h => .ite (hf h.upd) h)

theorem State.MemInv.memEvent {cond f} (h : s.MemInv) (hf : ∀ {s}, s.MemInv → (f s).MemInv) :
    Out.MemInv (memEvent cond s f) :=
  .next (.ite (h.unlessStalled hf) h)

theorem State.MemInv.noteFail {g f} (h : s.MemInv) : (s.noteFail g f).MemInv := h.of_mem

theorem State.MemInv.flushRefusals {vf g} (h : s.MemInv) : (s.flushRefusals vf g).MemInv :=
  .modLg (.foldl (fun h => h.tenantRec) h)

theorem State.MemInv.afterAcquire {c k} (h : s.MemInv) (hk : ∀ {s}, s.MemInv → (k s).MemInv) :
    (s.afterAcquire c k).MemInv :=
  .ite h.holdBack (hk h)

theorem State.MemInv.closeFence {g} (h : s.MemInv) : (s.closeFence g).MemInv := by
  unfold State.closeFence
  split
  · exact h
  · split
    · exact h
    · refine .ite h ?_
      extract_lets
      split
      · exact h.modLg
      · exact h.modLg.raisePts

theorem State.MemInv.addAt {pa x pts} (h : s.MemInv) : (s.addAt pa x pts).2.MemInv := h.devRead.devWrite
theorem State.MemInv.openPacket {c sn succ} (h : s.MemInv) : (s.openPacket c sn succ).MemInv := h.of_mem

/-! ## The fabric -/

theorem State.MemInv.setLdir {e d m x} (h : s.MemInv) : (s.setLdir e d m x).MemInv := h.of_mem
theorem State.MemInv.setLink {e m x} (h : s.MemInv) : (s.setLink e m x).MemInv := h.of_mem
theorem State.MemInv.freeFlit {link ch} (h : s.MemInv) : (s.freeFlit link ch).MemInv := h.of_mem
theorem State.MemInv.crossFlit {link ch id} (h : s.MemInv) : (s.crossFlit link ch id).MemInv := h.of_mem

theorem State.MemInv.deliver {e} (h : s.MemInv) : (s.deliver e).MemInv := by
  unfold State.deliver
  split
  · exact .foldl (fun h => h.post) h
  · exact h.modCore.post
  · exact h.modCmd
  · exact h
  · exact h.post

theorem State.MemInv.hop {die p} (h : s.MemInv) : (s.hop die p).MemInv := by
  unfold State.hop
  extract_lets
  split
  · exact h.deliver
  · exact h.setLdir

theorem State.MemInv.inject {ch src dst bytes ws onward} (h : s.MemInv) :
    (s.inject ch src dst bytes ws onward).MemInv :=
  .ite (.foldl (fun h => h.deliver) h) (.upd (.foldl (fun h => h.deliver) h))

theorem State.MemInv.send {e a b ch bytes} (h : s.MemInv) : (s.send e a b ch bytes).MemInv := by
  unfold State.send
  refine .ite ?_ ?_
  · split
    · exact h.inject
    · exact h.inject
  · extract_lets
    split
    · exact h.hop
    · exact h.upd

theorem State.MemInv.enterDie {p} (h : s.MemInv) : (s.enterDie p).MemInv := h.inject

theorem State.MemInv.moveFlit {id a} (h : s.MemInv) : (s.moveFlit id a).MemInv := by
  unfold State.moveFlit
  split
  · exact h
  · extract_lets s₁ s₂ q s₃ s₄
    have k₁ : s₁.MemInv := by
      dsimp only [s₁]
      split
      · exact h.freeFlit
      · exact h
    have k₃ : s₃.MemInv := .upd (.foldl (fun h => h.crossFlit) k₁)
    have k₄ : s₄.MemInv := .foldl (fun h => h.deliver) k₃
    refine .ite k₃ (.ite ?_ k₄)
    split
    · exact k₄.hop
    · exact k₄

theorem State.MemInv.sendNow {e a b ch bytes} (h : s.MemInv) : (s.sendNow e a b ch bytes).MemInv :=
  .ite h.send.moveFlit h.send

theorem State.MemInv.flushBacks (h : s.MemInv) : s.flushBacks.MemInv := by
  unfold State.flushBacks
  refine .foldl (fun h => ?_) h.upd
  split
  · exact .ite h h.send
  · exact h

theorem State.MemInv.cross {id leg lns a b ch bytes} (h : s.MemInv) : (s.cross id leg lns a b ch bytes).MemInv :=
  .foldl (fun h => h.send) h.modCmd

theorem State.MemInv.roundTrip {id c lns base store} (h : s.MemInv) : OptMemInv (s.roundTrip id c lns base store) :=
  .ite (.some h) (.ite (.some h.cross) (.ite (.some h.cross) (.ite (.some h.cross) .none)))

/-! ## Source operands and the shapes of words -/

theorem State.MemInv.checked {c fs k} (h : s.MemInv) (hk : ∀ {s}, s.MemInv → (k s).MemInv) :
    (s.checked c fs k).MemInv := by
  unfold State.checked
  split
  · exact hk h
  · exact h.takeTrap

theorem State.MemInv.laneWord {i n d chk f} (h : s.MemInv) : Out.MemInv (laneWord i s n d chk f) :=
  h.word fun h => h.checked fun h => h.up

theorem State.MemInv.binWord {i n d a b f} (h : s.MemInv) : Out.MemInv (binWord i s n d a b f) := h.laneWord
theorem State.MemInv.unWord {i n d a f} (h : s.MemInv) : Out.MemInv (unWord i s n d a f) := h.laneWord

/-! ## Accesses of lane groups -/

theorem State.MemInv.dropCopy {a ln} (h : s.MemInv) : (s.dropCopy a ln).MemInv := (State.dropCopy_under s a ln).2 h
theorem State.MemInv.ask {ln as} (h : s.MemInv) : (s.ask ln as).MemInv := .foldl (fun h => .ite h h.send) h

theorem State.MemInv.askMemory {ln} (h : s.MemInv) : (s.askMemory ln).MemInv := by
  unfold State.askMemory
  split
  · exact h.send
  · exact h.post

theorem State.MemInv.serve {ln owners data} (h : s.MemInv) : (s.serve ln owners data).1.MemInv :=
  .ite_fst h (.ite_fst h.ask (.ite_fst (.ite h h.askMemory) h))

theorem State.MemInv.roomL1 {a ln} (h : s.MemInv) : (s.roomL1 a ln).MemInv := by
  unfold State.roomL1
  refine .ite h ?_
  split
  rename_i e
  have k := h.draw.of_snd e
  split
  · exact k.dropCopy
  · exact k

theorem State.MemInv.grant {a ln va} (h : s.MemInv) : (s.grant a ln va).MemInv := h.roomL1.setCopy

theorem State.MemInv.takeWords {agent ln offs} (h : s.MemInv) : (s.takeWords agent ln offs).MemInv := by
  unfold State.takeWords
  refine .foldl (fun h => ?_) h
  refine .setDir ?_
  split
  · exact .ite h h.setCopy
  · exact h

theorem State.MemInv.obtain {agent ln va kid offs} (h : s.MemInv) : (s.obtain agent ln va kid offs).MemInv :=
  .ite h (.ite h.stalled (.grant (.keepL2 (.setDir (.asKey (.foldl (fun h => h.publishFrom) h.landPublishes))))))

theorem State.MemInv.finishAccess {id} (h : s.MemInv) : (s.finishAccess id).MemInv := by
  unfold State.finishAccess
  split
  · exact h
  · exact .ite h (.ite (.ite h.upd.addCtr h.upd) (.noteFail (.ite h.upd.addCtr h.upd)))

theorem State.MemInv.laneXlate {c align need lane va} (h : s.MemInv) : (s.laneXlate c align need lane va).1.MemInv :=
  .ite_fst h h.xlate

theorem State.MemInv.xlateLanes {c align need seen l} (h : s.MemInv) : (s.xlateLanes c align need seen l).1.MemInv :=
  (State.xlateLanes_under c align need l seen s).2 h

theorem State.MemInv.stageStore {w p} (h : s.MemInv) : (s.stageStore w p).MemInv := h.of_mem

theorem State.MemInv.addPart {id staged last p} (h : s.MemInv) : (s.addPart id staged last p).MemInv := by
  unfold State.addPart
  split
  · exact h
  · extract_lets
    split
    · exact h.modAcc
    · exact h.modAcc
    · exact h.modAcc
    · exact .modAcc (.ite h.dropCopy h)
    · exact .ite h.modAcc (.ite h.stageStore.modAcc h.modAcc)

theorem State.MemInv.request {id core ln reg} (h : s.MemInv) : (s.request id core ln reg).MemInv := h.send

theorem State.MemInv.sendParts {id x ps} (h : s.MemInv) : (s.sendParts id x ps).MemInv := by
  unfold State.sendParts
  extract_lets
  split
  · exact .foldl (fun h => h.send) (.foldl (fun h => .ite h.postOnce h) h)
  · exact .foldl (fun h => .ite (.request (.ite h.request h)) (.ite h.request h))
      (.foldl (fun h => .ite h.postOnce h) h)

theorem State.MemInv.unhold {core} (h : s.MemInv) : (s.unhold core).MemInv :=
  .foldl (fun h => .ite h (.foldl (fun h => h.request) (.ite h h.modAcc))) h

theorem State.MemInv.issueReq {c r} (h : s.MemInv) : (s.issueReq c r).MemInv := by
  unfold State.issueReq
  refine .ite h.holdBack (.ite h.addCtr ?_)
  split
  rename_i e
  have k := h.xlateLanes.of_fst e
  extract_lets old ord id bad new s₁ ps before s₂ s₃
  have k₂ : s₂.MemInv := .foldl (fun h => h.addPart) k.upd
  have k₃ : s₃.MemInv := by
    dsimp only [s₃]
    split
    · exact k₂
    · exact k₂.sendParts
  clear_value s₃
  split
  · exact k₃.finishAccess
  · exact k₃.takeTrap

theorem State.MemInv.commitStaged {w} (h : s.MemInv) : (s.commitStaged w).MemInv := State.commitStaged_wf _ h

theorem State.MemInv.forcedCommit {w} (h : s.MemInv) : (s.forcedCommit w).MemInv := by
  unfold State.forcedCommit
  split
  · exact h
  · split
    · exact h
    · exact .ite h (.ite h.commitStaged h.commitStaged.modLaunch.tenantRec)

theorem State.MemInv.afterCommit {c k} (h : s.MemInv) (hk : ∀ {s}, s.MemInv → (k s).MemInv) :
    (s.afterCommit c k).MemInv :=
  .ite (hk h) (.ite h.holdBack (hk h.forcedCommit))

/-! ## Loads -/

theorem State.MemInv.loadWordI {i acq c d g a scaled size sext} (h : s.MemInv) :
    Out.MemInv (loadWordI i s acq c d g a scaled size sext) :=
  h.memWord fun h => h.checked fun h => h.issueReq

/-! ## Stores and stash instructions -/

theorem State.MemInv.issueStore {c r} (h : s.MemInv) : (s.issueStore c r).MemInv :=
  .ite h.issueReq (.ite (.ite (h.afterCommit fun h => h.issueReq) h.holdBack) (.ite h.xlateLanes.holdBack
    (.ite h.xlateLanes.issueReq (h.xlateLanes.afterCommit fun h => h.issueReq))))

theorem State.MemInv.storeWord {i rel c d g a scaled size} (h : s.MemInv) :
    Out.MemInv (storeWord i s rel c d g a scaled size) :=
  h.memWord fun h => h.checked fun h => h.issueStore

theorem State.MemInv.stashWord {i c chk f} (h : s.MemInv) (hf : ∀ {x0 s}, s.MemInv → (f x0 s).MemInv) :
    Out.MemInv (stashWord i s c chk f) :=
  h.memWord fun h => h.checked fun h => .ite h.holdBack (.ite h.addCtr (hf h))

theorem State.MemInv.invLine {w ln} (h : s.MemInv) : (s.invLine w ln).MemInv := by
  unfold State.invLine
  split
  · exact h
  · exact .ite h.dropCopy.setCopy h.dropCopy

theorem State.MemInv.unmap {w e} (h : s.MemInv) : (s.unmap w e).MemInv := by
  unfold State.unmap
  split
  · exact h
  · exact .modWg (.foldl (fun h => h.dropCopy) h)

theorem State.MemInv.execStashMap {c p e g a} (h : s.MemInv) : Out.MemInv (execStashMap c p e g a s) := by
  unfold Machine.execStashMap
  refine h.stashWord fun h => .ite ?_ (.ite h.holdBack (.addCtr (.up (.ite h.unmap (.ite h.unmap.modWg h)))))
  split
  · exact h
  · exact h.takeTrap

theorem State.MemInv.onStashLines {x g a ctr f} (h : s.MemInv) (hf : ∀ {s x1}, s.MemInv → (f s x1).MemInv) :
    (s.onStashLines x g a ctr f).MemInv := by
  unfold State.onStashLines
  extract_lets
  split
  · exact .addCtr (.foldl (fun h => hf h) h)
  · exact .takeTrap (.foldl (fun h => hf h) h)

theorem State.MemInv.execStashWbE {c e} (h : s.MemInv) : Out.MemInv (execStashWbE c e s) :=
  h.stashWord fun h => .addCtr (.foldl (fun h => h.publishFrom) h)

theorem State.MemInv.execStashInvE {c e} (h : s.MemInv) : Out.MemInv (execStashInvE c e s) :=
  h.stashWord fun h => .addCtr (.foldl (fun h => h.invLine) h)

/-! ## The end of lane groups, workgroups and claims -/

theorem State.MemInv.taskDone {part g} (h : s.MemInv) : (s.taskDone part g).MemInv := by
  unfold State.taskDone
  split
  · exact h
  · exact h.modLg.modPart

theorem State.MemInv.reportUnread {g} (h : s.MemInv) : (s.reportUnread g).MemInv := by
  unfold State.reportUnread
  split
  · exact h
  · split
    · exact h
    · split
      · exact h
      · exact .modLg (.flushRefusals (.foldl (fun h => h.faultLaunch.tenantRec) h))

theorem State.MemInv.raiseStep {l t} (h : s.MemInv) : (s.raiseStep l t).MemInv := h.of_mem

theorem State.MemInv.raiseSteps {w t} (h : s.MemInv) : (s.raiseSteps w t).MemInv := by
  unfold State.raiseSteps
  extract_lets
  split
  · exact .getD (.map_of h.raiseStep.raiseStep) h.raiseStep
  · exact h.raiseStep

theorem State.MemInv.withdrawSubs {wg} (h : s.MemInv) : (s.withdrawSubs wg).MemInv := h.of_mem

theorem State.MemInv.reap {core} (h : s.MemInv) : (s.reap core).MemInv := by
  unfold State.reap
  refine .modCore (.foldl (fun h => h.withdrawSubs) ?_)
  split
  · exact .ite h.withdrawSubs h
  · exact h

theorem State.MemInv.evictWg {w} (h : s.MemInv) : (s.evictWg w).MemInv := by
  unfold State.evictWg
  split
  · exact h
  · exact h.modCore

theorem State.MemInv.mxHead {core} (h : s.MemInv) : (s.mxHead core).MemInv := by
  unfold State.mxHead
  split
  · exact h
  · split
    · exact h
    · split
      · exact .ite h.modCmd.modCore h
      · exact h

theorem State.MemInv.endCmd {id cause va} (h : s.MemInv) : (s.endCmd id cause va).MemInv := by
  unfold State.endCmd
  split
  · exact h
  · refine .ite h ?_
    extract_lets s₁ s₂ s₃ s₄ s₅ s₆
    have k₄ : s₄.MemInv := .mxHead (.ite h.upd.modCore.modCore h.upd.modCore)
    have k₅ : s₅.MemInv := by
      dsimp only [s₅]
      split
      · exact k₄
      · exact k₄.addCtr
    have k₆ : s₆.MemInv := .ite k₅ k₅.noteFail
    exact .closeFence (.reap (.ite k₆.raiseStep.reportUnread k₆.raiseStep))

theorem State.MemInv.withdraw {w} (h : s.MemInv) : (s.withdraw w).MemInv := by
  unfold State.withdraw
  refine .foldl (fun h => ?_) h
  refine .ite h ?_
  split
  · exact h.endCmd
  · exact .ite h h.endCmd
  · exact h

theorem State.MemInv.leaveStash {w} (h : s.MemInv) : (s.leaveStash w).MemInv := by
  unfold State.leaveStash
  split
  · exact h
  · exact .modWg (.foldl (fun h => h.dropCopy) (.foldl (fun h => h.unmap) h))

theorem State.MemInv.spillWg {w} (h : s.MemInv) : (s.spillWg w).MemInv := by
  unfold State.spillWg
  split
  · exact h
  · exact .modWg (.evictWg (.upd (.foldl (fun h => h.setCopy) (.foldl (fun h => h.dropCopy) h))))

theorem State.MemInv.endWg {w} (h : s.MemInv) : (s.endWg w).MemInv := by
  unfold State.endWg
  split
  · exact h
  · exact .reap (.withdraw (.modWg (.leaveStash (.ite h.commitStaged h))))

theorem State.MemInv.endLg {g} (h : s.MemInv) : (s.endLg g).MemInv := by
  unfold State.endLg
  split
  · exact h
  · extract_lets part s₁ s₂ s₃ s₄
    have k₄ : s₄.MemInv := .ite h.taskDone.reportUnread.modLg.endWg h.taskDone.reportUnread.modLg
    clear_value s₄
    split
    · exact k₄.raiseSteps
    · exact k₄

/-! ## Events of the memory system -/

theorem State.MemInv.answer {id ln x ps bytes} (h : s.MemInv) : (s.answer id ln x ps bytes).MemInv := h.modAcc.send

theorem State.MemInv.refuse {id ln x ps e} (h : s.MemInv) : (s.refuse id ln x ps e).MemInv :=
  .answer (.ite h.lateGate h)

theorem State.MemInv.half {ps} (h : s.MemInv) : (s.half ps).1.MemInv := .ite_fst h h.draw
theorem State.MemInv.lease {p ln} (h : s.MemInv) : (s.lease p ln).MemInv := .ite h.setCopy h.grant

theorem State.MemInv.execLoadRequest {acc line} (h : s.MemInv) : Out.MemInv (execLoadRequest acc line s) := by
  unfold Machine.execLoadRequest
  refine .next (.ite h ?_)
  extract_lets
  split
  · exact h.upd
  · refine .ite h.upd (.ite h.upd.refuse ?_)
    split
    · next e => exact (h.upd.serve.of_fst e).post
    · next e =>
      have k := h.upd.serve.of_fst e
      split
      rename_i e
      have k := k.half.of_fst e
      extract_lets s₁ s₂ d pts s₃ s₄
      have k₂ : s₂.MemInv := .asKey (.ite k.post k)
      have k₄ : s₄.MemInv := .keepL2 (.ite k₂ k₂.setDir)
      exact .answer (.ite k₄ (.foldl (fun h => h.lease) k₄))

theorem State.MemInv.execWriteRegistration {acc line} (h : s.MemInv) :
    Out.MemInv (execWriteRegistration acc line s) := by
  unfold Machine.execWriteRegistration
  refine .next (.ite h ?_)
  extract_lets
  split
  · exact h.upd
  · refine .ite h.upd (.ite h.upd.refuse ?_)
    split
    · next e => exact (h.upd.serve.of_fst e).post
    · next e =>
      have k := h.upd.serve.of_fst e
      exact .answer (.foldl_fst (fun h => h.roomL1.setCopy.takeWords) (.stamp (.asKey (.ite k.half.post k.half))))

theorem State.MemInv.execForcedPublishRequest {agent line} (h : s.MemInv) :
    Out.MemInv (execForcedPublishRequest agent line s) :=
  h.fire fun h => h.givePublish.send

theorem State.MemInv.execPublishArrive {agent line cells own pois} (h : s.MemInv) :
    Out.MemInv (execPublishArrive agent line cells own pois s) :=
  h.fire fun h => h.takePublish

theorem State.MemInv.execL1Eviction {core line} (h : s.MemInv) : Out.MemInv (execL1Eviction core line s) :=
  h.event fun h => h.dropCopy

theorem State.MemInv.atomic {e id lane far} (h : s.MemInv) : (s.atomic e id lane far).MemInv := by
  unfold State.atomic
  refine .ite h ?_
  extract_lets
  split
  · exact h.upd
  · split
    · exact h.upd
    · refine .ite h.upd.refuse ?_
      split
      · next e => exact (h.upd.serve.of_fst e).post
      · next e =>
        have k := h.upd.serve.of_fst e
        extract_lets s₁
        split
        rename_i e
        have k := k.asKey.stamp.of_snd e
        extract_lets s₂
        have k : s₂.MemInv := .ite k.farLine k.keepL2
        exact .ite k.answer k.writeBytes.answer

theorem State.MemInv.execNearAtomic {acc lane} (h : s.MemInv) : Out.MemInv (execNearAtomic acc lane s) :=
  .next h.atomic

theorem State.MemInv.execFarAtomic {acc lane} (h : s.MemInv) : Out.MemInv (execFarAtomic acc lane s) := .next h.atomic

theorem State.MemInv.landLane {x p} (h : s.MemInv) : (s.landLane x p).MemInv := by
  unfold State.landLane
  refine .ite h ?_
  extract_lets
  split
  · exact h.modLg
  · exact h.modLg
  · exact h.modLg
  · exact h.wrK
  · exact h

theorem State.MemInv.execAccessReply {acc line} (h : s.MemInv) : Out.MemInv (execAccessReply acc line s) := by
  unfold Machine.execAccessReply
  refine h.fire fun h => ?_
  split
  · exact h
  · extract_lets ps s₁ top s₂ s₃
    have k₁ : s₁.MemInv := .foldl (fun h => h.landLane) h
    have k₂ : s₂.MemInv := .ite k₁ k₁.raisePts
    have k₃ : s₃.MemInv := by
      dsimp only [s₃]
      split
      · exact .ite k₂.raiseSteps k₂
      · exact k₂
    exact .unhold (.closeFence (.finishAccess (.modAcc (.ite k₃ k₃.modLg))))

theorem State.MemInv.frameError {frame} (h : s.MemInv) : (s.frameError frame).MemInv := .ite h.upd.suspectFrame h.upd

theorem State.MemInv.execMemoryReadComplete {line outcome} (h : s.MemInv) :
    Out.MemInv (execMemoryReadComplete line outcome s) := by
  unfold Machine.execMemoryReadComplete
  refine h.fire fun h => .ite h.keepMsc.keepL2 (.ite (.ite h.keepMsc.keepL2 h.keepMsc.keepL2.frameError) ?_)
  extract_lets
  split
  · exact .suspectFrame (.setWinBits (.foldl (fun h => h.setPois) h.keepMsc.keepL2))
  · exact .suspectFrame (.foldl (fun h => h.setPois) h.keepMsc.keepL2)

theorem State.MemInv.execPtsTick {core} (h : s.MemInv) : Out.MemInv (execPtsTick core s) := h.event fun h => h.modCore

theorem State.MemInv.copyError {a ln i} (h : s.MemInv) : (s.copyError a ln i).MemInv :=
  .ite h.modWg (.ite h.setCopy h.setCopy)

theorem State.MemInv.countL2 {die} (h : s.MemInv) : (s.countL2 die).MemInv := h.of_mem
theorem State.MemInv.countCorrected {level} (h : s.MemInv) : (s.countCorrected level).MemInv := h.of_mem

theorem State.MemInv.sliceError {w} (h : s.MemInv) : (s.sliceError w).MemInv :=
  .ite h.setWinBits.setPois h.setWinBits.setDir

theorem State.MemInv.execSweeperRead {unit line outcome} (h : s.MemInv) :
    Out.MemInv (execSweeperRead unit line outcome s) := by
  unfold Machine.execSweeperRead
  refine h.event fun h => .ite ?_ (.ite h (.ite h.countCorrected (.foldl (fun h => h.copyError) h)))
  refine .ite (.ite h h.setDir) (.ite (.countL2 (.ite h h.setDir)) ?_)
  extract_lets
  split
  · exact .suspectFrame (.sliceError (.ite h h.setDir))
  · exact .suspectFrame (.sliceError (.ite h h.setDir))
  · exact .sliceError (.ite h h.setDir)

theorem State.MemInv.linkRec {c link} (h : s.MemInv) : (s.linkRec c link).MemInv := h.mgrRec
theorem State.MemInv.forget {ln} (h : s.MemInv) : (s.forget ln).MemInv := State.forget_wf _ h

theorem State.MemInv.cxlLost {port} (h : s.MemInv) : (s.cxlLost port).MemInv :=
  .linkRec (.foldl (fun h => .setDir (.ite h.forget h)) h.setWinBits.setWinBits.upd)

theorem State.MemInv.execSliceTimeout {acc line} (h : s.MemInv) : Out.MemInv (execSliceTimeout acc line s) := by
  unfold Machine.execSliceTimeout
  refine h.event fun h => ?_
  split
  · exact h
  · extract_lets gone s₁ silent s₂ s₃ s₄
    have k₂ : s₂.MemInv := by
      refine .foldl (fun h => ?_) h.upd
      split
      · exact .ite h.setDir.setPois h
      · exact h
    have k₄ : s₄.MemInv := by
      dsimp only [s₄]
      split
      · exact .ite k₂.mgrRec.cxlLost k₂.mgrRec
      · exact k₂.mgrRec
    exact k₄.answer

/-! ## What commands share -/

theorem State.MemInv.xlateGrans {c need l} (h : s.MemInv) : (s.xlateGrans c need l).1.MemInv := by
  induction l generalizing s with
  | nil => exact h
  | cons p r ih =>
    rw [State.xlateGrans]
    split
    rename_i e
    have k := ih (h.laneXlate.of_fst e)
    split
    rename_i e
    have k := k.of_fst e
    split
    · exact k
    · exact k

theorem State.MemInv.withGrans {c need kind ps k} (h : s.MemInv) (hk : ∀ {x0 s}, s.MemInv → (k x0 s).MemInv) :
    (s.withGrans c need kind ps k).MemInv := by
  unfold State.withGrans
  split
  rename_i e
  have k := h.xlateGrans.of_fst e
  split
  · exact k.takeTrap
  · exact hk k

theorem State.MemInv.alignTrap {c va} (h : s.MemInv) : (s.alignTrap c va).MemInv := by
  unfold State.alignTrap
  split
  · exact h.takeTrap
  · exact h

theorem State.MemInv.putCmd {x} (h : s.MemInv) : (s.putCmd x).MemInv := h.of_mem
theorem State.MemInv.cmdGate {c info} (h : s.MemInv) : (s.cmdGate c info).MemInv := h.lateGate

theorem State.MemInv.readPiece {c g off va n} (h : s.MemInv) : (State.readPiece c (s, g) off va n).1.MemInv := by
  unfold State.readPiece
  dsimp only
  split
  · exact h
  · refine .ite_fst ?_ ?_
    · exact .ite h.cmdGate h
    · exact h.obtain.modLg

theorem State.MemInv.readPieces {c off l g} (h : s.MemInv) : (State.readPieces c off l (s, g)).1.MemInv := by
  induction l generalizing s off g with
  | nil => exact h
  | cons p r ih => exact ih h.readPiece

theorem State.MemInv.cmdRead {c} (h : s.MemInv) : (s.cmdRead c).1.MemInv := h.readPieces

theorem State.MemInv.storeBytes {agent va pa kid bs po} (h : s.MemInv) :
    (s.storeBytes agent va pa kid bs po).MemInv :=
  .raisePts (.takeWords (.setCopy (.stamp (.roomL1 (.asKey (.ite h.obtain.stalled h.obtain.landPublishes))))))

theorem State.MemInv.writePiece {c staged va bs po} (h : s.MemInv) : (s.writePiece c staged va bs po).1.MemInv := by
  unfold State.writePiece
  split
  · exact h
  · exact .ite_fst (.ite h.stageStore.modWg h.stageStore) (.ite_fst (.ite h.cmdGate h) h.storeBytes)

theorem State.MemInv.writePieces {c staged po l bs es} (h : s.MemInv) :
    (State.writePieces c staged po l bs (s, es)).1.MemInv := by
  induction l generalizing s bs es with
  | nil => exact h
  | cons p r ih => exact ih h.writePiece

theorem State.MemInv.cmdWrite {c bs po} (h : s.MemInv) : (s.cmdWrite c bs po).1.MemInv :=
  .writePieces (.ite h.forcedCommit h)

theorem State.MemInv.farFirst {id c e store} (h : s.MemInv) : OptMemInv (s.farFirst id c e store) :=
  .ite h.roundTrip .none

theorem State.MemInv.completeQ {c} (h : s.MemInv) : (s.completeQ c).1.MemInv := by
  unfold State.completeQ
  split
  · exact h
  · split
    · exact h
    · exact .ite_fst (.ite h.cmdGate h) (.ite_fst h.publishLine h.publishLine.asKey.addAt.raiseStep)

theorem State.MemInv.finishCmd {id c cause va} (h : s.MemInv) : (s.finishCmd id c cause va).MemInv :=
  .ite h.endCmd h.completeQ.endCmd

/-! ## Launches -/

theorem State.MemInv.devXlate {part vf va need} (h : s.MemInv) : (s.devXlate part vf va need).1.MemInv := by
  unfold State.devXlate
  refine .ite_fst h ?_
  split
  · next e => exact h.walk.of_fst e
  · exact h.walk

theorem State.MemInv.readFor {part vf l bs} (h : s.MemInv) : (State.readFor part vf l (s, bs)).1.MemInv := by
  induction l generalizing s bs with
  | nil => exact h
  | cons p r ih =>
    rw [State.readFor]
    split
    · next e => exact h.devXlate.of_fst e
    · next e => exact h.devXlate.of_fst e
    · next e => exact h.devXlate.of_fst e
    · next e =>
      have k := h.devXlate.of_fst e
      exact .ite_fst k (.ite_fst k.publishLine.asKey (ih k.publishLine.asKey))

theorem State.MemInv.preempt {core} (h : s.MemInv) : (s.preempt core).MemInv :=
  .modCore (.foldl (fun h => h.spillWg.modWg) h)

theorem State.MemInv.addWg {w alloc entry} (h : s.MemInv) : (s.addWg w alloc entry).MemInv := h.of_mem

theorem State.MemInv.placeOne {l fresh i} (h : s.MemInv) : OptMemInv (s.placeOne l fresh i) := by
  unfold State.placeOne
  split
  · exact .none
  · split
    split
    extract_lets
    split
    · exact .some h.addWg
    · refine .ite .none ?_
      split
      · exact .some h.preempt.addWg
      · exact .none

theorem State.MemInv.placeMany {l fresh n i} (h : s.MemInv) : OptMemInv (State.placeMany l fresh n i s) := by
  induction n generalizing s i with
  | zero => exact .some h
  | succ n ih =>
    rw [State.placeMany]
    split
    · exact .none
    · next e => exact ih (h.placeOne.of_some e)

theorem State.MemInv.started {l placed} (h : s.MemInv) : (s.started l placed).MemInv := h.of_mem

theorem State.MemInv.startWhole {l} (h : s.MemInv) : OptMemInv (s.startWhole l) := by
  unfold State.startWhole
  split
  · exact .none
  · refine .ite (.map (fun h => h.started) h.placeMany) (.head? fun t ht => ?_)
    obtain ⟨n, -, hn⟩ := List.mem_filterMap.mp ht
    exact OptMemInv.of_some hn (.ite (.map (fun h => h.started) h.modLaunch.placeMany) .none)

theorem State.MemInv.startAll {l} (h : s.MemInv) : OptMemInv (State.startAll l s) := by
  induction l generalizing s with
  | nil => exact .some h
  | cons l r ih =>
    rw [State.startAll]
    split
    · exact .none
    · next e => exact ih (h.startWhole.of_some e)

theorem State.MemInv.tryStart {l} (h : s.MemInv) : OptMemInv (s.tryStart l) := by
  unfold State.tryStart
  split
  · exact .none
  · exact .ite h.startAll (.map (fun h => h.started) h.placeOne)

theorem State.MemInv.tryNext {l} (h : s.MemInv) : OptMemInv (s.tryNext l) := by
  unfold State.tryNext
  split
  · exact .none
  · exact .map (fun h => h.modLaunch) h.placeOne

theorem State.MemInv.rejectRec {l c} (h : s.MemInv) : (s.rejectRec l c).MemInv := h.tenantRec

theorem State.MemInv.joinGang {id} (h : s.MemInv) : (s.joinGang id).MemInv := by
  unfold State.joinGang
  split
  · exact h
  · extract_lets ms clash ids refuse
    have hr : (refuse s).MemInv := .modPart (.upd (.foldl (fun h => h.rejectRec) h))
    exact .ite hr (.ite h (.ite hr (.foldl (fun h => h.modLaunch) h.upd)))

theorem State.MemInv.takeLaunch {words vf queue lnum arrival pts} (h : s.MemInv) :
    (s.takeLaunch words vf queue lnum arrival pts).MemInv :=
  .ite h.upd.rejectRec (.ite h.upd.upd.joinGang h.upd.upd)

theorem State.MemInv.dropCtr {id l c} (h : s.MemInv) : (s.dropCtr id l c).MemInv := h.tenantRec

theorem State.MemInv.tryCtr {id} (h : s.MemInv) : (s.tryCtr id).MemInv := by
  unfold State.tryCtr
  split
  · exact h
  · split
    · exact h
    · refine .ite h.modLaunch ?_
      split
      · next e => exact (h.devXlate.of_fst e).pageReq
      · next e => exact (h.devXlate.of_fst e).s2Rec.s2Wait
      · next e => exact (h.devXlate.of_fst e).modLaunch.dropCtr
      · next e =>
        have k := h.devXlate.of_fst e
        exact .ite k.modLaunch.gateRec.dropCtr (.ite k.modLaunch.dropCtr (.ite k.publishLine.modLaunch.dropCtr
          k.publishLine.asKey.addAt.farLine.modLaunch))

theorem State.MemInv.updateCtr {id} (h : s.MemInv) : (s.updateCtr id).MemInv := .ite h.modLaunch h.tryCtr
theorem State.MemInv.flushCtrs (h : s.MemInv) : s.flushCtrs.MemInv := .foldl (fun h => .ite h.modLaunch.updateCtr h) h
theorem State.MemInv.freePipes {part} (h : s.MemInv) : (s.freePipes part).MemInv := h.of_mem

theorem State.MemInv.closeLaunch {id} (h : s.MemInv) : (s.closeLaunch id).MemInv := by
  unfold State.closeLaunch
  split
  · exact h
  · exact h.modLaunch.modPart.freePipes

theorem State.MemInv.freeTag {part tag} (h : s.MemInv) : (s.freeTag part tag).MemInv := .ite h.modPart h.modPart

theorem State.MemInv.dropWgs {id} (h : s.MemInv) : (s.dropWgs id).MemInv :=
  .foldl (fun h => h.modWg.leaveStash.modWg.withdraw.reap) (.foldl (fun h => .foldl (fun h => h.publishFrom) h)
    (.upd (.foldl (fun h => h.flushRefusals) h)))

theorem State.MemInv.freeTags {id part} (h : s.MemInv) : (s.freeTags id part).MemInv := .foldl (fun h => h.freeTag) h

theorem State.MemInv.endFaulted {id cause} (h : s.MemInv) : (s.endFaulted id cause).MemInv := by
  unfold State.endFaulted
  split
  · exact h
  · exact h.faultLaunch.dropWgs.closeLaunch.modLaunch.freeTags.tenantRec.modLaunch.updateCtr

theorem State.MemInv.requeue {id cause} (h : s.MemInv) : (s.requeue id cause).MemInv := by
  unfold State.requeue
  split
  · exact h
  · exact .ite h.endFaulted h.dropWgs.closeLaunch.freeTags.upd.modLaunch.tenantRec

/-! ## Events of launches -/

theorem State.MemInv.writeLqt {vf q tail} (h : s.MemInv) : (s.writeLqt vf q tail).MemInv := .ite h h.setVrBits.upd
theorem State.MemInv.pastHead {vf q} (h : s.MemInv) : (s.pastHead vf q).MemInv := h.of_mem

theorem State.MemInv.execLaunchQueueRead {vf q} (h : s.MemInv) : Out.MemInv (execLaunchQueueRead vf q s) := by
  unfold Machine.execLaunchQueueRead
  refine h.memEvent fun h => ?_
  extract_lets
  split
  · next e => exact (h.ipaAddr.of_fst e).s2Rec.s2Wait
  · next e =>
    have k := h.ipaAddr.of_fst e
    exact .ite k.keyRange.devRead.pastHead.tenantRec k.keyRange.devRead.pastHead.takeLaunch

theorem State.MemInv.execWorkgroupPlace {launch} (h : s.MemInv) : Out.MemInv (execWorkgroupPlace launch s) := by
  unfold Machine.execWorkgroupPlace
  split
  · exact .next h
  · refine h.memEvent fun h => .ite ?_ (.getD h.tryNext h)
    split
    · exact h
    · next e =>
      have k := h.tryStart.of_some e
      exact .ite k.modPart k.modPart.modPart

theorem State.MemInv.failStart {w c} (h : s.MemInv) : (s.failStart w c).MemInv := by
  unfold State.failStart
  split
  · exact h
  · split
    · exact h
    · exact .ite h.discardNode h.upd.modWg.faultLaunch

theorem State.MemInv.startRead {w va n la k} (h : s.MemInv) (hk : ∀ {x0 s}, s.MemInv → (k x0 s).MemInv) :
    (s.startRead w va n la k).MemInv := by
  unfold State.startRead
  split
  · next e => exact hk (h.readFor.of_fst e)
  · next e =>
    have k := h.readFor.of_fst e
    exact .failStart (.ite k.gateRec k)
  · next e => exact (h.readFor.of_fst e).pageReq
  · next e => exact (h.readFor.of_fst e).s2Rec.s2Wait

theorem State.MemInv.goLive {w entry img pts} (h : s.MemInv) : (s.goLive w entry img pts).MemInv := h.of_mem

theorem State.MemInv.execWorkgroupStart {wg} (h : s.MemInv) : Out.MemInv (execWorkgroupStart wg s) := by
  unfold Machine.execWorkgroupStart
  refine h.memFire fun h => ?_
  split
  · exact h
  · split
    · exact h
    · refine .ite h ?_
      extract_lets
      split
      · exact .ite h.goLive (h.startRead fun h => h.goLive)
      · exact .ite h.goLive (h.startRead fun h => h.goLive)
      · split
        · exact h
        · exact h.startRead fun h => .ite h.failStart (.ite h.goLive.upd (h.startRead fun h => h.goLive.upd))

theorem State.MemInv.execLaunchComplete {launch} (h : s.MemInv) : Out.MemInv (execLaunchComplete launch s) :=
  h.memEvent fun h => h.closeLaunch.modLaunch.updateCtr

theorem State.MemInv.execGroupWaitTimeout {launch} (h : s.MemInv) : Out.MemInv (execGroupWaitTimeout launch s) := by
  unfold Machine.execGroupWaitTimeout
  split
  · exact .next h
  · exact h.event fun h => h.modLaunch

theorem State.MemInv.writeRsz {vf value} (h : s.MemInv) : (s.writeRsz vf value).MemInv := by
  unfold State.writeRsz
  extract_lets
  split
  · exact .ite h.modLaunch h.rejectRec
  · exact h.tenantRec

theorem State.MemInv.execFaultedLaunchEnd {launch} (h : s.MemInv) : Out.MemInv (execFaultedLaunchEnd launch s) := by
  unfold Machine.execFaultedLaunchEnd
  split
  · exact .next h
  · exact h.memEvent fun h => h.endFaulted

theorem State.MemInv.execFaultedLaunchTimeout {launch} (h : s.MemInv) :
    Out.MemInv (execFaultedLaunchTimeout launch s) := by
  unfold Machine.execFaultedLaunchTimeout
  split
  · exact .next h
  · exact h.memEvent fun h => h.endFaulted

theorem State.MemInv.execNodeDiscard {launch} (h : s.MemInv) : Out.MemInv (execNodeDiscard launch s) := by
  unfold Machine.execNodeDiscard
  split
  · exact h.fire fun h => h
  · refine .ite (.next h) (h.memFire fun h => ?_)
    split
    · exact h
    · exact h.requeue

theorem State.MemInv.execTaskClaim {part core} (h : s.MemInv) : Out.MemInv (execTaskClaim part core s) := by
  unfold Machine.execTaskClaim
  refine h.event fun h => ?_
  split
  · exact h
  · split
    · exact h
    · split
      · exact h
      · exact h.modPart.addWg.modLg

/-! ## Matrix instructions at issue -/

theorem State.MemInv.setSlot {core n x} (h : s.MemInv) : (s.setSlot core n x).MemInv := h.of_mem
theorem State.MemInv.setTile {core bank t x} (h : s.MemInv) : (s.setTile core bank t x).MemInv := h.of_mem

theorem State.MemInv.setClaim {core bank tile n o pair} (h : s.MemInv) :
    (s.setClaim core bank tile n o pair).MemInv :=
  .ite h.setTile h.setSlot

theorem State.MemInv.mxWord {i ctr chk k} (h : s.MemInv) (hk : ∀ {x0 s}, s.MemInv → (k x0 s).MemInv) :
    Out.MemInv (mxWord i s ctr chk k) := by
  unfold Machine.mxWord
  refine h.memWord fun h => .ite h.holdBack (.ite ?_ (h.checked fun h => hk h))
  split
  · exact h
  · exact h.addCtr

theorem State.MemInv.mxQueue {c ctr body gran} (h : s.MemInv) : (s.mxQueue c ctr body gran).MemInv :=
  h.putCmd.modCore.mxHead

theorem State.MemInv.execMxClaim {p y w n} (h : s.MemInv) : Out.MemInv (execMxClaim p y w n s) := by
  unfold Machine.execMxClaim
  refine h.mxWord fun h => ?_
  extract_lets
  split
  · exact h.setClaim.up
  · refine .ite ?_ (.ite h.postOnce.holdBack h.up)
    refine .up (.mxQueue ?_)
    split
    · exact h.endCmd
    · exact h

theorem State.MemInv.withdrawLdb {core wg n} (h : s.MemInv) : (s.withdrawLdb core wg n).MemInv := by
  unfold State.withdrawLdb
  refine .foldl (fun h => ?_) h
  split
  · exact .ite h.endCmd h
  · exact h

theorem State.MemInv.mxMemory {c ctr need kind base stride body} (h : s.MemInv) :
    (s.mxMemory c ctr need kind base stride body).MemInv :=
  .ite h.holdBack (.ite h.alignTrap (h.withGrans fun h => h.mxQueue))

theorem State.MemInv.govern {c cost} (h : s.MemInv) : (s.govern c cost).1.MemInv :=
  .ite_fst h.upd (.ite_fst h.upd (.ite_fst h.upd h.upd))

theorem State.MemInv.product {c ctr cost body} (h : s.MemInv) : (s.product c ctr cost body).MemInv := by
  unfold State.product
  split
  · next e => exact (h.govern.of_fst e).holdBack
  · next e => exact (h.govern.of_fst e).mxQueue

/-! ## Events of the matrix engines -/

theorem State.MemInv.execMxCommandStart {cmd} (h : s.MemInv) : Out.MemInv (execMxCommandStart cmd s) := by
  unfold Machine.execMxCommandStart
  split
  · exact .next h
  · refine h.event fun h => .ite h.endCmd ?_
    extract_lets
    split
    · exact h.modCmd.setSlot.endCmd
    · exact h.modCmd.setClaim.endCmd
    · exact h.modCmd.setTile.endCmd
    · exact h.modCmd.modCore.modCmd.post
    · split
      · exact h.modCmd.post
      · exact h.modCmd

theorem State.MemInv.execMxRelEffect {cmd} (h : s.MemInv) : Out.MemInv (execMxRelEffect cmd s) := by
  unfold Machine.execMxRelEffect
  refine h.fire fun h => ?_
  split
  · split
    · exact h.setClaim.endCmd
    · exact h
  · exact h

theorem State.MemInv.execMxLdDone {cmd} (h : s.MemInv) : Out.MemInv (execMxLdDone cmd s) := by
  unfold Machine.execMxLdDone
  split
  · exact h.fire fun h => h
  · refine .ite (.next h) ?_
    split
    · next e => exact .next (h.farFirst.of_some e)
    · refine h.fire fun h => ?_
      split
      · exact h.cmdRead.setSlot.endCmd
      · exact h

theorem State.MemInv.matchAt {id r col sender chan} (h : s.MemInv) : (s.matchAt id r col sender chan).MemInv := by
  unfold State.matchAt
  split
  · exact h
  · exact h.modCmd.modCmd

theorem State.MemInv.matchSends (h : s.MemInv) : s.matchSends.MemInv := by
  unfold State.matchSends
  refine .foldl (fun h => ?_) h
  split
  · exact .ite (.foldl (fun h => h.matchAt) h) h
  · exact h

theorem State.MemInv.disarm {id} (h : s.MemInv) : (s.disarm id).MemInv := h.of_mem

theorem State.MemInv.dropMatches (h : s.MemInv) : s.dropMatches.MemInv := by
  unfold State.dropMatches
  refine .foldl (fun h => ?_) h
  split
  · exact .ite h (.ite h.endCmd h.modCmd)
  · exact .ite h.disarm.modCmd h
  · exact h

theorem State.MemInv.execBusTransferStart {cmd} (h : s.MemInv) : Out.MemInv (execBusTransferStart cmd s) := by
  unfold Machine.execBusTransferStart
  split
  · exact .next h
  · refine h.event fun h => ?_
    split
    · exact .ite h.cmdGate.endCmd h.modCmd.post
    · exact h

theorem State.MemInv.fillSlots {cmd c word} (h : s.MemInv) : (s.fillSlots cmd c word).MemInv := by
  unfold State.fillSlots
  refine .foldl (fun h => ?_) h
  split
  · exact .ite h.setSlot.endCmd h
  · exact h

theorem State.MemInv.execBusTransferDone {cmd} (h : s.MemInv) : Out.MemInv (execBusTransferDone cmd s) := by
  unfold Machine.execBusTransferDone
  refine .ite (.next h) (h.fire fun h => ?_)
  split
  · exact h
  · split
    · exact h.fillSlots.finishCmd
    · exact h

theorem State.MemInv.readSlot {core n} (h : s.MemInv) : (s.readSlot core n).MemInv :=
  .foldl (fun h => .ite h.setWinBits.setSlot h.setWinBits.setSlot) h

theorem State.MemInv.mxEvent {core kind tile row col} (h : s.MemInv) : (s.mxEvent core kind tile row col).MemInv :=
  h.of_mem

theorem State.MemInv.mismatchRec {c core info} (h : s.MemInv) : (s.mismatchRec c core info).MemInv := h.tenantRec

theorem State.MemInv.judgeHalf {c core bank t flag a7} (h : s.MemInv) :
    (s.judgeHalf c core bank t flag a7).1.MemInv := by
  unfold State.judgeHalf
  refine .foldl_fst (fun h => ?_) h
  split
  · exact h
  · exact .ite_fst h h.mxEvent
  · exact .ite_fst h h.mxEvent.mismatchRec.setTile

theorem State.MemInv.poisonHalf {core bank t} (h : s.MemInv) : (s.poisonHalf core bank t).MemInv := h.of_mem

theorem State.MemInv.execMxMmaDone {cmd errs} (h : s.MemInv) : Out.MemInv (execMxMmaDone cmd errs s) := by
  unfold Machine.execMxMmaDone
  refine h.fire fun h => ?_
  split
  · exact h
  · split
    · refine .ite h.readSlot.readSlot.poisonHalf.endCmd ?_
      extract_lets
      split
      · next e => exact (h.readSlot.readSlot.judgeHalf.of_fst e).endCmd
      · next e => exact (h.readSlot.readSlot.judgeHalf.of_fst e).setTile.endCmd
    · exact h

theorem State.MemInv.execMxPmmaDone {cmd errs} (h : s.MemInv) : Out.MemInv (execMxPmmaDone cmd errs s) := by
  unfold Machine.execMxPmmaDone
  refine h.fire fun h => ?_
  split
  · exact h
  · split
    · extract_lets f fb s₁ x y z
      have k : s₁.MemInv := h.readSlot.readSlot.readSlot
      exact .ite (.endCmd (.ite (.poisonHalf (.ite k.poisonHalf k)) (.ite k.poisonHalf k)))
        (.ite k.judgeHalf.judgeHalf.endCmd k.judgeHalf.judgeHalf.setTile.setTile.endCmd)
    · exact h

theorem State.MemInv.checkTile {c t} (h : s.MemInv) : (s.checkTile c t).1.MemInv :=
  .ite h.setTile (.ite h.setTile.mxEvent.mismatchRec h.setTile.mxEvent)

theorem State.MemInv.execMxDrainDone {cmd} (h : s.MemInv) : Out.MemInv (execMxDrainDone cmd s) := by
  unfold Machine.execMxDrainDone
  split
  · exact h.fire fun h => h
  · refine .ite (.next h) ?_
    split
    · next e => exact .next (h.farFirst.of_some e)
    · refine h.fire fun h => ?_
      split
      · exact .endCmd (.ite h.checkTile.cmdWrite.setTile h.checkTile.cmdWrite)
      · exact h

theorem State.MemInv.execMxChkDone {cmd} (h : s.MemInv) : Out.MemInv (execMxChkDone cmd s) := by
  unfold Machine.execMxChkDone
  refine h.fire fun h => ?_
  split
  · exact h
  · split
    · exact h.checkTile.modLg.endCmd
    · exact h

theorem State.MemInv.execGovernorWindow {bh} (h : s.MemInv) : Out.MemInv (execGovernorWindow bh s) :=
  h.event fun h => h.upd

/-! ## Copies, pipes, messages and tasks -/

theorem State.MemInv.engine {c fs ctr q body tc} (h : s.MemInv) : (s.engine c fs ctr q body tc).MemInv :=
  h.checked fun h => .ite h.holdBack (h.afterCommit fun h => .post (.ite h.putCmd.modCore h.putCmd))

theorem State.MemInv.busSend {x col r o t c q} (h : s.MemInv) : (s.busSend x col r o t c q).MemInv := h.engine

theorem State.MemInv.execRvTalloc {r p} (h : s.MemInv) : Out.MemInv (execRvTalloc r p s) :=
  h.word fun h => h.checked fun h => h.afterAcquire fun h => .ite h.up h.modPart.wrK.up

theorem State.MemInv.execRvTfree {r} (h : s.MemInv) : Out.MemInv (execRvTfree r s) :=
  h.word fun h => h.checked fun h => h.afterAcquire fun h => h.freeTag

theorem State.MemInv.execRvStat {r d} (h : s.MemInv) : Out.MemInv (execRvStat r d s) :=
  h.word fun h => h.checked fun h => h.afterAcquire fun h => h.wrK

theorem State.MemInv.execAmSend {r v p c} (h : s.MemInv) : Out.MemInv (execAmSend r v p c s) :=
  h.word fun h => h.checked fun h => .ite h.holdBack (h.afterCommit fun h =>
    .ite (.ite h.addCtr.up h.holdBack) (.ite (.endCmd (.ite h.up.putCmd.cmdGate h.up.putCmd))
      h.up.putCmd.upd.sendNow))

theorem State.MemInv.execAmReg {r p} (h : s.MemInv) : Out.MemInv (execAmReg r p s) :=
  h.word fun h => h.checked fun h => h.afterAcquire fun h => .up (.ite h (.ite h.modPart h.modPart))

theorem State.MemInv.setPipe {part n p} (h : s.MemInv) : (s.setPipe part n p).MemInv := h.of_mem

theorem State.MemInv.execPipeBind {r} (h : s.MemInv) : Out.MemInv (execPipeBind r s) := by
  unfold Machine.execPipeBind
  refine h.memWord fun h => h.checked fun h => h.afterAcquire fun h => h.withGrans fun h => ?_
  dsimp only
  split
  · exact .raiseR (.ite h.gateRec h)
  · split
    · exact h.setPipe
    · exact h.setPipe

theorem State.MemInv.ringAt {c p i need} (h : s.MemInv) : (s.ringAt c p i need).1.MemInv := by
  unfold State.ringAt
  extract_lets
  split
  · next e => exact h.xlate.of_fst e
  · next e => exact h.xlate.of_fst e
  · next e => exact h.xlate.of_fst e
  · next e =>
    have k := h.xlate.of_fst e
    exact .ite_fst k (.ite k.gateRec k)

theorem State.MemInv.pushAt {part n p at_ data pts frame} (h : s.MemInv) :
    (s.pushAt part n p at_ data pts frame).MemInv :=
  h.publishLine.asKey.devWrite.setPipe

theorem State.MemInv.popAt {part n p at_} (h : s.MemInv) : (s.popAt part n p at_).1.MemInv := by
  unfold State.popAt
  extract_lets
  split
  rename_i e
  have k := h.publishLine.asKey.devRead.of_fst e
  dsimp only
  split
  · exact k.setPipe.upd
  · exact k.setPipe

theorem State.MemInv.execPipePush {r v} (h : s.MemInv) : Out.MemInv (execPipePush r v s) := by
  unfold Machine.execPipePush
  refine h.memWord fun h => ?_
  dsimp only
  split
  · exact h.up
  · refine h.checked fun h => .ite h.holdBack (h.afterCommit fun h => ?_)
    split
    · exact h
    · split
      · next e => exact (h.ringAt.of_fst e).takeTrap
      · next e => exact h.ringAt.of_fst e
      · next e =>
        have k := h.ringAt.of_fst e
        exact .ite k.setPipe.blockBack k.pushAt

theorem State.MemInv.popEnd {c d e g pts name} (h : s.MemInv) : (s.popEnd c d e g pts name).MemInv := by
  unfold State.popEnd
  extract_lets
  split
  · exact h.raisePts
  · exact h.raisePts.up
  · exact h.raisePts.up
  · exact .ite h.raisePts.up.discardNode h.raisePts.raiseReport

theorem State.MemInv.execPipePop {r d e} (h : s.MemInv) : Out.MemInv (execPipePop r d e s) := by
  unfold Machine.execPipePop
  refine h.memWord fun h => ?_
  extract_lets
  split
  · exact h.up.popEnd
  · refine h.checked fun h => .ite h.holdBack ?_
    split
    · exact h
    · refine .ite h.setPipe.blockBack (.ite h.popEnd ?_)
      split
      · next e => exact (h.ringAt.of_fst e).takeTrap
      · next e => exact h.ringAt.of_fst e
      · next e => exact (h.ringAt.of_fst e).popAt.popEnd

theorem State.MemInv.execPipeEos {r} (h : s.MemInv) : Out.MemInv (execPipeEos r s) := by
  unfold Machine.execPipeEos
  refine h.word fun h => h.checked fun h => h.afterAcquire fun h => ?_
  split
  · exact h
  · exact h.setPipe

theorem State.MemInv.execTaskSpawn {r g p} (h : s.MemInv) : Out.MemInv (execTaskSpawn r g p s) :=
  h.word fun h => h.checked fun h => .ite h.holdBack (h.afterCommit fun h => .up (.upd (.ite h.modPart h)))

theorem State.MemInv.execTaskSpawnL {r u p} (h : s.MemInv) : Out.MemInv (execTaskSpawnL r u p s) := by
  unfold Machine.execTaskSpawnL
  refine h.memWord fun h => h.checked fun h => .ite h.alignTrap (.ite h.holdBack
    (h.withGrans fun h => h.afterCommit fun h => ?_))
  split
  rename_i e
  have k := h.readPieces.of_fst e
  split
  · exact .ite k.up (.up (.ite k.takeLaunch.modPart k.takeLaunch))
  · exact k.raiseR

theorem State.MemInv.execTaskNext {d} (h : s.MemInv) : Out.MemInv (execTaskNext d s) := by
  unfold Machine.execTaskNext
  refine h.word fun h => h.checked fun h => h.afterAcquire fun h => ?_
  split
  · exact h
  · split
    · exact h
    · exact h.modPart.wrK.wrK

theorem State.MemInv.execTaskDone (h : s.MemInv) : Out.MemInv (execTaskDone s) :=
  h.word fun h => h.checked fun h => h.afterAcquire fun h => h.taskDone

theorem State.MemInv.execNodeCommit {c} (h : s.MemInv) : Out.MemInv (execNodeCommit c s) :=
  h.word fun h => .ite h.holdBack (.ite h.holdBack (.addCtr (.ite h.commitStaged h)))

/-! ## Events of engines, meetings, messages and pipes -/

theorem State.MemInv.xlateCmd {c} (h : s.MemInv) : (s.xlateCmd c).1.MemInv := by
  unfold State.xlateCmd
  refine .foldl_fst (fun {p x} h => ?_) h
  obtain ⟨s, t, es⟩ := p
  obtain ⟨va, need⟩ := x
  dsimp only
  split
  · next e =>
    have k := State.MemInv.of_fst e (.ite_fst h h.xlate)
    exact .ite_fst k.cmdGate (.ite_fst k k)
  · next e => exact State.MemInv.of_fst e (.ite_fst h h.xlate)
  · next e => exact State.MemInv.of_fst e (.ite_fst h h.xlate)
  · next e => exact State.MemInv.of_fst e (.ite_fst h h.xlate)

theorem State.MemInv.engineRead {c off l t po} (h : s.MemInv) : (State.engineRead c off l (s, t, po)).1.MemInv := by
  induction l generalizing s off t po with
  | nil => exact h
  | cons p r ih =>
    rw [State.engineRead]
    split
    · exact ih h
    · exact ih h.publishAll.asKey

theorem State.MemInv.unlock {id} (h : s.MemInv) : (s.unlock id).MemInv := h.of_mem

theorem State.MemInv.sendTile {id c w dst owner data pois} (h : s.MemInv) :
    (s.sendTile id c w dst owner data pois).MemInv :=
  .foldl (fun h => h.upd.send) h.upd.modCmd

theorem State.MemInv.sendMcast {id c} (h : s.MemInv) : (s.sendMcast id c).MemInv :=
  .ite h.modCmd.post (.foldl (fun h => h.send) h.modCmd)

theorem State.MemInv.engineGo {id c} (h : s.MemInv) : (s.engineGo id c).MemInv := by
  unfold State.engineGo
  extract_lets
  split
  rename_i e
  have k := h.engineRead.of_fst e
  split
  · exact .sendMcast (.modCmd (.foldl (fun h => h.publishAll.setDir) h))
  · exact k.modCmd
  · split
    · exact h.endCmd
    · exact k.modCmd.sendTile
  · exact .post (.modCmd (.engineRead (.modCmd (.foldl (fun h => h.publishAll.setDir) h))))

theorem State.MemInv.execEngineTakeOwnership {cmd} (h : s.MemInv) : Out.MemInv (execEngineTakeOwnership cmd s) := by
  unfold Machine.execEngineTakeOwnership
  split
  · exact h.fire fun h => h
  · refine .ite (.next h) (.ite ?_ ?_)
    · split
      · next e => exact .next (h.roundTrip.of_some e)
      · exact h.fire fun h => h.engineGo
    · refine h.memEvent fun h => ?_
      split
      rename_i e
      have k := h.xlateCmd.of_fst e
      extract_lets
      split
      · exact k.modCmd
      · exact k.pageReq.modCmd
      · exact .endCmd (.upd (.ite k.s2Rec k))

theorem State.MemInv.engineWrite {c got pois pts off va n} (h : s.MemInv) :
    (State.engineWrite c got pois pts s off va n).MemInv := by
  unfold State.engineWrite
  split
  · exact h
  · exact .ite h h.asKey.homeWriteP.stamp.keepL2.raisePts

theorem State.MemInv.engineEnd {cmd c} (h : s.MemInv) : (s.engineEnd cmd c).MemInv := by
  unfold State.engineEnd
  refine .unlock ?_
  split
  · exact .foldl (fun h => h.engineWrite) h
  · exact .foldl (fun h => h.engineWrite) h
  · exact .foldl (fun h => h.engineWrite) h

theorem State.MemInv.execEngineFinish {cmd} (h : s.MemInv) : Out.MemInv (execEngineFinish cmd s) := by
  unfold Machine.execEngineFinish
  split
  · exact h.fire fun h => h.unlock
  · refine h.event fun h => ?_
    extract_lets
    split
    · next e => exact OptMemInv.of_some e (.ite .none h.roundTrip)
    · exact .ite (.ite h h.engineEnd.modCmd) (.finishCmd (.upd (.ite h h.engineEnd.modCmd)))

theorem State.MemInv.countFst {die slice i n} (h : s.MemInv) : (s.countFst die slice i n).MemInv := h.of_mem

theorem State.MemInv.giveLine {id ln} (h : s.MemInv) : (s.giveLine id ln).MemInv := by
  unfold State.giveLine
  split
  · exact h
  · refine .foldl (fun h => ?_) h.publishAll.setDir.keepL2
    split
    · exact .ite h h.asKey.modCmd
    · exact h

theorem State.MemInv.closeMerge {k} (h : s.MemInv) : (s.closeMerge k).MemInv := by
  unfold State.closeMerge
  split
  · exact h
  · exact .upd (.countFst (.countFst (.foldl (fun h => h.send) (.foldl (fun h => h.giveLine) h))))

theorem State.MemInv.aloneReply {id ln core} (h : s.MemInv) : (s.aloneReply id ln core).MemInv := h.giveLine.send

theorem State.MemInv.execMcastRequest {cmd line} (h : s.MemInv) : Out.MemInv (execMcastRequest cmd line s) := by
  unfold Machine.execMcastRequest
  refine .ite (.next h) (h.fire fun h => ?_)
  split
  · exact h
  · split
    · extract_lets
      split
      · exact .ite h.upd.closeMerge h.upd
      · exact .ite h.countFst.aloneReply (.ite h.countFst.aloneReply (.ite h.upd.closeMerge h.upd))
    · exact h

theorem State.MemInv.execMergeWindowExpiry {die slice entry} (h : s.MemInv) :
    Out.MemInv (execMergeWindowExpiry die slice entry s) := by
  unfold Machine.execMergeWindowExpiry
  extract_lets
  split
  · exact .next h
  · exact h.event fun h => h.closeMerge

theorem State.MemInv.execMergeSetExpiry {die slice entry} (h : s.MemInv) :
    Out.MemInv (execMergeSetExpiry die slice entry s) := by
  unfold Machine.execMergeSetExpiry
  extract_lets
  split
  · exact .next h
  · exact h.event fun h => h.upd

theorem State.MemInv.execMcastReplyArrive {cmd line} (h : s.MemInv) : Out.MemInv (execMcastReplyArrive cmd line s) :=
  h.fire fun h => .ite h.modCmd.post h.modCmd

theorem State.MemInv.accept {cmd} (h : s.MemInv) : (s.accept cmd).MemInv := by
  unfold State.accept
  split
  · exact h
  · exact .ite h.endCmd h.modCmd

theorem State.MemInv.setFrag {k x} (h : s.MemInv) : (s.setFrag k x).MemInv := h.of_mem
theorem State.MemInv.unpresent {x} (h : s.MemInv) : (s.unpresent x).MemInv := .ite h.upd h
theorem State.MemInv.sendDone {k x} (h : s.MemInv) : (s.sendDone k x).MemInv := h.send

theorem State.MemInv.makeOrphan {k x c} (h : s.MemInv) : (s.makeOrphan k x c).MemInv :=
  h.unpresent.setFrag.modPart.sendDone

theorem State.MemInv.meet {ka a kb b} (h : s.MemInv) : (s.meet ka a kb b).MemInv := by
  unfold State.meet
  refine .ite h.makeOrphan.makeOrphan (.sendDone (.upd (.ite h.unpresent.unpresent ?_)))
  split
  · exact h.unpresent.unpresent.upd
  · exact h.unpresent.unpresent

theorem State.MemInv.deflect {k x} (h : s.MemInv) : (s.deflect k x).MemInv := .ite h.setFrag.post h.setFrag

theorem State.MemInv.releaseHeld (h : s.MemInv) : s.releaseHeld.MemInv := by
  unfold State.releaseHeld
  refine .foldl (fun h => ?_) h
  split
  · exact .ite h.deflect h
  · exact h

theorem State.MemInv.execFragmentArrive {cmd f} (h : s.MemInv) : Out.MemInv (execFragmentArrive cmd f s) := by
  unfold Machine.execFragmentArrive
  refine .ite (.next h) (h.fire fun h => ?_)
  split
  · exact h
  · refine .ite h.upd.makeOrphan.accept ?_
    split
    · exact h.upd.meet.accept
    · split
      · exact h.upd.setFrag.accept
      · exact h.upd.upd.deflect

theorem State.MemInv.execOverflowFragmentArrive {frag} (h : s.MemInv) :
    Out.MemInv (execOverflowFragmentArrive frag s) := by
  unfold Machine.execOverflowFragmentArrive
  refine h.fire fun h => ?_
  split
  · exact h
  · refine .ite h.makeOrphan.accept.releaseHeld ?_
    split
    · exact h.meet.accept.releaseHeld
    · exact h.upd.setFrag.accept

theorem State.MemInv.writeFrag {x} (h : s.MemInv) : (s.writeFrag x).1.MemInv := by
  refine .foldl_fst (fun {p _} h => ?_) h
  obtain ⟨s, bad, ts, off⟩ := p
  exact .ite_fst h.gateRec (.ite_fst h
    (.foldl_fst (fun h => h.stamp.keepL2) (.homeWriteP (.foldl (fun h => h.publishLine.asKey) h))))

theorem State.MemInv.closeTally {k t} (h : s.MemInv) : (s.closeTally k t).MemInv := by
  unfold State.closeTally
  extract_lets c n s₁ pa s₂ s₃
  have k₁ : s₁.MemInv := h.upd
  have k₃ : s₃.MemInv := .ite k₁.gateRec (.ite k₁ (.ite k₁.publishLine
    (.foldl (fun h => h.raiseStep) k₁.publishLine.asKey.addAt)))
  exact .ite k₃ (.foldl (fun h => h.tenantRec) k₃)

theorem State.MemInv.execFragmentCombineDone {frag} (h : s.MemInv) : Out.MemInv (execFragmentCombineDone frag s) := by
  unfold Machine.execFragmentCombineDone
  split
  · exact h.fire fun h => h
  · refine .ite (.next h) (h.fire fun h => ?_)
    split
    rename_i e
    have k := h.writeFrag.of_fst e
    extract_lets
    split
    · exact .ite k.upd.freeTag k.upd
    · exact .ite (.closeTally (.ite k.upd.freeTag k.upd)) (.upd (.ite k.upd.freeTag k.upd))

theorem State.MemInv.execOrphanTimeout {frag} (h : s.MemInv) : Out.MemInv (execOrphanTimeout frag s) := by
  unfold Machine.execOrphanTimeout
  split
  · exact .next h
  · exact h.event fun h => h.makeOrphan.releaseHeld

theorem State.MemInv.execAmArrive {msg} (h : s.MemInv) : Out.MemInv (execAmArrive msg s) := by
  unfold Machine.execAmArrive
  split
  · exact h.fire fun h => h
  · exact .ite (.next h) (h.fire fun h => h.modCore.endCmd)

theorem State.MemInv.execHandlerStart {core} (h : s.MemInv) : Out.MemInv (execHandlerStart core s) := by
  unfold Machine.execHandlerStart
  split
  · exact .next h
  · extract_lets
    split
    · exact .next h.modCore
    · exact .next h.modCore.addWg

theorem State.MemInv.execPipeDeadlock {launch} (h : s.MemInv) : Out.MemInv (execPipeDeadlock launch s) := by
  unfold Machine.execPipeDeadlock
  refine h.event fun h => ?_
  split
  · exact h
  · refine .foldl (fun h => ?_) h.tenantRec
    split
    · exact h
    · extract_lets
      split
      · exact h.makeReady.upd
      · exact h.makeReady.upd.raiseR

theorem State.MemInv.execPermitAudit {link chan} (h : s.MemInv) : Out.MemInv (execPermitAudit link chan s) := by
  unfold Machine.execPermitAudit
  exact h.event fun h => h.setPermit.mgrRec

/-! ## Floating-point flags -/

theorem State.MemInv.fpWord {i n d chk f} (h : s.MemInv) : Out.MemInv (fpWord i s n d chk f) :=
  h.word fun h => h.checked fun h => h.up

theorem State.MemInv.fp32Word {i n d a b f} (h : s.MemInv) : Out.MemInv (fp32Word i s n d a b f) := h.fpWord
theorem State.MemInv.fpPkWord {i pk n d a b f} (h : s.MemInv) : Out.MemInv (fpPkWord i s pk n d a b f) := h.fpWord
theorem State.MemInv.fpUnWord {i t n d a f} (h : s.MemInv) : Out.MemInv (fpUnWord i s t n d a f) := h.fpWord

/-! ## Lane control -/

theorem State.MemInv.stage {c m} (h : s.MemInv) : (s.stage c m).MemInv := by
  unfold State.stage
  refine .up (.upd (.ite h ?_))
  split
  · exact h
  · exact h.modLg

theorem State.MemInv.execRgrow {x} (h : s.MemInv) : Out.MemInv (execRgrow x s) :=
  h.word fun h => h.checked fun h => .ite h (.ite h.up h.blockBack)

/-! ## Instruction fetch -/

theorem State.MemInv.fetchLine_go {c va} (h : s.MemInv) : (State.fetchLine.go c va s).1.MemInv := by
  unfold State.fetchLine.go
  refine .ite_fst h ?_
  split
  · next e0 => exact h.xlate.of_fst e0
  · next e0 => exact h.xlate.of_fst e0
  · next e0 => exact h.xlate.of_fst e0
  · next e0 =>
    have k0 := h.xlate.of_fst e0
    refine .ite_fst k0 ?_
    split
    rename_i e1
    have k1 := k0.devRead.of_fst e1
    extract_lets
    split
    · exact k1.asKey.modLg
    · exact k1.asKey

theorem State.MemInv.fetchLine {c va} (h : s.MemInv) : (s.fetchLine c va).1.MemInv := by
  unfold State.fetchLine
  split
  · exact .ite_fst h h.fetchLine_go
  · exact h.fetchLine_go

theorem State.MemInv.parkFetch {c va r at_} (h : s.MemInv) : (s.parkFetch c va r at_).MemInv := by
  unfold State.parkFetch
  extract_lets
  split
  · exact h.pageReq.modLg
  · exact h.s2Rec.s2Wait.modLg
  · exact h

theorem State.MemInv.parkAtPacket {c va r} (h : s.MemInv) : (s.parkAtPacket c va r).MemInv := h.upd.modLg.parkFetch

theorem State.MemInv.landing {c l k} (h : s.MemInv) (hk : ∀ {s}, s.MemInv → (k s).MemInv) :
    (s.landing c l k).MemInv := by
  induction l generalizing s with
  | nil => exact hk h
  | cons i r ih =>
    rw [State.landing]
    split
    · next e =>
      have k := h.fetchLine.of_fst e
      exact .ite (ih k) k.raise
    · next e => exact (h.fetchLine.of_fst e).raiseR
    · next e => exact (h.fetchLine.of_fst e).raise
    · next e => exact (h.fetchLine.of_fst e).parkAtPacket

theorem State.MemInv.execFetchLineArrive {lg} (h : s.MemInv) : Out.MemInv (execFetchLineArrive lg s) := by
  unfold Machine.execFetchLineArrive
  split
  · exact .next h
  · exact h.memEvent fun h => h.fetchLine

/-! ## Synchronisation -/

theorem State.MemInv.arrive {c k} (h : s.MemInv) (hk : ∀ {s}, s.MemInv → (k s).MemInv) : (s.arrive c k).MemInv :=
  .ite (hk h) h.holdBack

theorem State.MemInv.execBarWg {b} (h : s.MemInv) : Out.MemInv (execBarWg b s) :=
  h.word fun h => h.checked fun h => h.arrive fun h => h.modWg.up

theorem State.MemInv.execBarSpan {a1 w} (h : s.MemInv) : Out.MemInv (execBarSpan a1 w s) :=
  h.word fun h => h.checked fun h => h.arrive fun h => h.modLaunch.up

theorem State.MemInv.execBarStep {r} (h : s.MemInv) : Out.MemInv (execBarStep r s) :=
  h.word fun h => h.checked fun h => h.arrive fun h => h.modLaunch.up

theorem State.MemInv.execFenceRel (h : s.MemInv) : Out.MemInv (execFenceRel s) :=
  h.memWord fun h => .ite (h.afterCommit fun h => h) h.holdBack

theorem State.MemInv.execFenceAr (h : s.MemInv) : Out.MemInv (execFenceAr s) :=
  h.memWord fun h => .ite h.holdBack (h.afterCommit fun h => .ite h.raiseReport (.ite h.raiseReport
    h.modPart.raisePts))

theorem State.MemInv.waitCount {c} (h : s.MemInv) : (s.waitCount c).MemInv := h.of_mem

theorem State.MemInv.execWaitc {n a i} (h : s.MemInv) : Out.MemInv (execWaitc n a i s) := by
  unfold Machine.execWaitc
  refine h.word fun h => ?_
  extract_lets
  split
  · exact .ite h.waitCount h.up.raiseReport
  · exact .ite h (h.checked fun h => h.waitCount)

theorem State.MemInv.watch {w part pa kid} (h : s.MemInv) : (s.watch w part pa kid).1.MemInv :=
  .ite_fst h (.ite_fst h.publishLine.asKey h.publishLine.asKey)

theorem State.MemInv.waitmFails {c e pa va} (h : s.MemInv) : (s.waitmFails c e pa va).MemInv :=
  .raiseReport (.ite h.gateRec h)

theorem State.MemInv.execWaitm {d a i} (h : s.MemInv) : Out.MemInv (execWaitm d a i s) := by
  unfold Machine.execWaitm
  refine h.memWord fun h => .ite h.holdBack ?_
  extract_lets
  split
  rename_i e
  have k := h.laneXlate.of_fst e
  split
  · split
    · exact k
    · exact k.takeTrap
  · exact .ite k.holdBack (.ite k.up (.ite k.watch.waitmFails (.ite k.watch.raisePts.up k.watch.up)))

/-! ## Events of scheduling -/

theorem State.MemInv.raiseWg {w t} (h : s.MemInv) : (s.raiseWg w t).MemInv := by
  unfold State.raiseWg
  split
  · exact h
  · exact .ite h.modWg h.raisePts

theorem State.MemInv.depart {gs pts} (h : s.MemInv) : (s.depart gs pts).MemInv := by
  unfold State.depart
  refine .foldl (fun h => ?_) h
  split
  · exact h
  · exact h.raiseWg.modLg

theorem State.MemInv.execWgBarrierComplete {wg b} (h : s.MemInv) : Out.MemInv (execWgBarrierComplete wg b s) := by
  unfold Machine.execWgBarrierComplete
  split
  · exact .next h
  · exact h.event fun h => h.modWg.upd.depart

theorem State.MemInv.execSpanBarrierComplete {launch ox oy lw lh} (h : s.MemInv) :
    Out.MemInv (execSpanBarrierComplete launch ox oy lw lh s) := by
  unfold Machine.execSpanBarrierComplete
  split
  · exact .next h
  · exact h.event fun h => h.modLaunch.depart

theorem State.MemInv.leaveDie {w} (h : s.MemInv) : (s.leaveDie w).MemInv := by
  unfold State.leaveDie
  split
  · exact h
  · refine .reap (.withdraw (.upd (.modWg (.leaveStash (.raiseStep ?_)))))
    exact .ite (.commitStaged (.foldl (fun h => h.taskDone) h)) (.foldl (fun h => h.taskDone) h)

theorem State.MemInv.resize {l n} (h : s.MemInv) : (s.resize l n).MemInv := by
  unfold State.resize
  split
  · exact h
  · refine .ite (.modLaunch (.foldl (fun h => h.leaveDie) h)) ?_
    split
    · next e => exact h.modLaunch.placeMany.of_some e
    · exact h

theorem State.MemInv.execStepBarrierComplete {launch} (h : s.MemInv) :
    Out.MemInv (execStepBarrierComplete launch s) := by
  unfold Machine.execStepBarrierComplete
  split
  · exact .next h
  · refine h.memEvent fun h => .depart ?_
    split
    · exact .ite h.modLaunch.resize h.modLaunch
    · exact h.modLaunch

theorem State.MemInv.atTurn {g idx first slot} (h : s.MemInv) : (s.atTurn g idx first slot).MemInv := h.of_mem

theorem State.MemInv.becomeEligible {w} (h : s.MemInv) : OptMemInv (s.becomeEligible w) :=
  .ite .none (.some h.upd.modWg)

theorem State.MemInv.wakeWait {g l va pa kid t idx first slot} (h : s.MemInv) :
    OptMemInv (s.wakeWait g l va pa kid t idx first slot) :=
  .ite (.ite h.watch.becomeEligible (.map_of h.watch.makeReady.atTurn.waitmFails.modLg))
    (.ite (.some h.watch.makeReady.raiseWg.modLg) .none)

theorem State.MemInv.watchAgain {g l va t idx first slot} (h : s.MemInv) :
    OptMemInv (s.watchAgain g l va t idx first slot) := by
  unfold State.watchAgain
  refine .ite ?_ (.map_of fun {c} => ?_)
  · dsimp only
    split
    · next e =>
      have k := h.walk.of_fst e
      split
      · exact .some k.modLg
      · exact k.becomeEligible
    · next e => exact (h.walk.of_fst e).becomeEligible
  · dsimp only
    split
    · exact h.atTurn.laneXlate.modLg
    · split
      · exact h.atTurn.laneXlate
      · exact h.atTurn.laneXlate.makeReady.takeTrap

theorem State.MemInv.wakePush {g l name data first slot} (h : s.MemInv) :
    OptMemInv (s.wakePush g l name data first slot) := by
  unfold State.wakePush
  extract_lets
  split
  · exact .none
  · split
    · exact .some h.makeReady
    · refine .ite .none (.ite (.some h.makeReady) (.ite .none ?_))
      split
      · next e => exact .some (h.atTurn.ringAt.of_fst e).pushAt.modLg.makeReady
      · exact .some h.makeReady

theorem State.MemInv.wakePop {g l name first slot} (h : s.MemInv) : OptMemInv (s.wakePop g l name first slot) := by
  unfold State.wakePop
  extract_lets
  split
  · exact .none
  · split
    · exact .some h.makeReady
    · refine .ite .none (.ite (.ite (.some h.modLg.makeReady) .none) ?_)
      split
      · next e => exact .some (h.atTurn.ringAt.of_fst e).popAt.modLg.makeReady.raiseWg
      · exact .some h.makeReady

theorem State.MemInv.wake {g} (h : s.MemInv) : OptMemInv (s.wake g) := by
  unfold State.wake
  split
  · exact .none
  · split
    · exact .ite .none (.some h.makeReady)
    · exact .some h.makeReady
    · exact h.wakeWait
    · exact h.watchAgain
    · exact h.wakePush
    · exact h.wakePop
    · exact .none

theorem State.MemInv.wakes {g} (h : s.MemInv) : OptMemInv (s.wakes g) := .filter h.wake

theorem State.MemInv.execLaneGroupWake {lg} (h : s.MemInv) : Out.MemInv (execLaneGroupWake lg s) :=
  .next (.getD h.wakes h)

theorem State.MemInv.execLaneGroupAged {lg} (h : s.MemInv) : Out.MemInv (execLaneGroupAged lg s) :=
  h.event fun h => h.modLg

theorem State.MemInv.execYieldExpiry {lg} (h : s.MemInv) : Out.MemInv (execYieldExpiry lg s) :=
  h.event fun h => h.makeReady

theorem State.MemInv.execRegisterGrowGrant {core sc} (h : s.MemInv) :
    Out.MemInv (execRegisterGrowGrant core sc s) := by
  unfold Machine.execRegisterGrowGrant
  refine h.event fun h => ?_
  split
  · exact h
  · exact h.modLg

theorem State.MemInv.watchGrowth {core sc} (h : s.MemInv) : (s.watchGrowth core sc).MemInv := by
  unfold State.watchGrowth
  refine .ite (.ite h h.modCore) ?_
  extract_lets
  split
  · exact .ite h h.modCore
  · exact h.modCore

theorem State.MemInv.watchGrowths (h : s.MemInv) : s.watchGrowths.MemInv :=
  .foldl (fun h => .foldl (fun h => h.watchGrowth) h) h

theorem State.MemInv.growEligible (h : s.MemInv) : s.growEligible.MemInv :=
  .foldl (fun h => .ite (.getD h.becomeEligible h) h) h

theorem State.MemInv.beginSwapOut {w} (h : s.MemInv) : (s.beginSwapOut w).MemInv := h.of_mem

theorem State.MemInv.execGrowthDeadlock {core sc} (h : s.MemInv) : Out.MemInv (execGrowthDeadlock core sc s) := by
  unfold Machine.execGrowthDeadlock
  refine h.event fun h => ?_
  split
  · exact h.beginSwapOut
  · split
    · split
      · extract_lets
        split
        · exact h.makeReady.atTurn.raise
        · exact h.makeReady.atTurn
      · exact h
    · exact h

/-! ## Sampling instructions at issue -/

theorem State.MemInv.modArr {core f} (h : s.MemInv) : (s.modArr core f).MemInv := h.of_mem

theorem State.MemInv.saWord {i ctr queued needs chk k} (h : s.MemInv) (hk : ∀ {x0 s}, s.MemInv → (k x0 s).MemInv) :
    Out.MemInv (saWord i s ctr queued needs chk k) :=
  h.memWord fun h => .ite h.holdBack (.ite h.addCtr (.ite h.postOnce.holdBack (h.checked fun h => hk h)))

theorem State.MemInv.saQueue {c ctr body gran q} (h : s.MemInv) : (s.saQueue c ctr body gran q).MemInv := h.of_mem

theorem State.MemInv.execSaCfg {o r p ctr} (h : s.MemInv) : Out.MemInv (execSaCfg o r p ctr s) :=
  h.saWord fun h => .ite h.up.addCtr (.up (.saQueue (.ite h.postOnce h)))

theorem State.MemInv.withImage {c need ps q k} (h : s.MemInv) (hk : ∀ {x0 s}, s.MemInv → (k x0 s).MemInv) :
    (s.withImage c need ps q k).MemInv := by
  unfold State.withImage
  split
  rename_i e0
  have k0 := h.xlateGrans.of_fst e0
  split
  rename_i e1
  have k1 := k0.xlateGrans.of_fst e1
  split
  · exact k1.takeTrap
  · exact hk k1

theorem State.MemInv.saImage {i m g ctr q need align by32 body} (h : s.MemInv) :
    Out.MemInv (saImage i s m g ctr q need align by32 body) :=
  h.saWord fun h => .ite h.holdBack (.ite h.alignTrap (.ite h.alignTrap (h.withImage fun h => h.saQueue)))

theorem State.MemInv.execSaGhost {m p ctr} (h : s.MemInv) : Out.MemInv (execSaGhost m p ctr s) :=
  h.saWord fun h => .checked (.ite h.gateRec h) fun h => h.saQueue

theorem State.MemInv.execSaSwp {m q ctr w} (h : s.MemInv) : Out.MemInv (execSaSwp m q ctr w s) :=
  h.saWord fun h => .ite h.alignTrap (h.withImage fun h => h.saQueue)

theorem State.MemInv.saRead {i d ctr f} (h : s.MemInv) : Out.MemInv (saRead i s d ctr f) :=
  h.saWord fun h => h.up.addCtr

/-! ## Stream ingress queues -/

theorem State.MemInv.setStream {vf q x} (h : s.MemInv) : (s.setStream vf q x).MemInv := h.of_mem
theorem State.MemInv.countSq {vf off lo} (h : s.MemInv) : (s.countSq vf off lo).MemInv := h.of_mem

theorem State.MemInv.unitAddrs {vf q frame l} (h : s.MemInv) : (s.unitAddrs vf q frame l).1.MemInv := by
  induction l generalizing s with
  | nil => exact h
  | cons u r ih =>
    refine ih ?_
    split
    · next e =>
      have k := h.devXlate.of_fst e
      exact .ite_fst k (.ite k.gateRec k)
    · next e => exact (h.devXlate.of_fst e).s2Rec
    · next e => exact h.devXlate.of_fst e

theorem State.MemInv.writeUnit {pa kid bs pts} (h : s.MemInv) : (s.writeUnit pa kid bs pts).2.MemInv :=
  h.publishLine.asKey.devWrite

theorem State.MemInv.putUnits {vf q frame pts us} (h : s.MemInv) : (s.putUnits vf q frame pts us).1.MemInv :=
  .foldl_fst (fun {p u} h => .ite_fst (p := ((p.1.setStream vf q _), p.2)) h.setStream h.writeUnit) h

theorem State.MemInv.flushUnits (h : s.MemInv) : s.flushUnits.MemInv := by
  refine .foldl (fun h => .ite h (.foldl (fun h => ?_) h.setStream)) h
  split
  rename_i e
  exact (h.putUnits.of_fst e).setStream

theorem State.MemInv.closeFrame {vf q frame loss units pts} (h : s.MemInv) :
    (s.closeFrame vf q frame loss units pts).MemInv :=
  .ite h.setStream.countSq.countSq h.setStream.countSq

theorem State.MemInv.finishStream {vf q} (h : s.MemInv) : (s.finishStream vf q).MemInv := by
  unfold State.finishStream
  refine .ite h (.freePipes (.setStream (.setVrBits ?_)))
  split
  · exact h.setPipe
  · exact h

theorem State.MemInv.dropDesc {vf q} (h : s.MemInv) : (s.dropDesc vf q).MemInv := by
  unfold State.dropDesc
  extract_lets
  split
  · exact h
  · exact h.setStream.finishStream

theorem State.MemInv.writeSqc {vf q v} (h : s.MemInv) : (s.writeSqc vf q v).MemInv :=
  .ite (.finishStream (.setStream (.ite h.setVr.setVrBits h.setVr.freePipes))) (.ite h.setVr.setVrBits
    h.setVr.freePipes)

/-! ## System instructions -/

theorem State.MemInv.abandon {a} (h : s.MemInv) : (s.abandon a).MemInv := by
  unfold State.abandon
  split
  · exact h
  · exact h.modAcc.finishAccess

theorem State.MemInv.execSysret (h : s.MemInv) : Out.MemInv (execSysret s) :=
  h.word fun h => h.checked fun h => .ite h.holdBack (.ite h.up h.abandon.up)

theorem State.MemInv.crPut {c n x} (h : s.MemInv) : (s.crPut c n x).MemInv := by
  unfold State.crPut
  split
  · exact h.up
  · exact h.up
  · exact h.up
  · exact h.up
  · exact h.modLaunch
  · exact h.modCore
  · exact h.up

theorem State.MemInv.execCrWr {a i} (h : s.MemInv) : Out.MemInv (execCrWr a i s) :=
  h.word fun h => .ite (h.checked fun h => h.up) (h.checked fun h => .ite h (h.checked fun h => h.crPut))

theorem State.MemInv.execPark (h : s.MemInv) : Out.MemInv (execPark s) := by
  unfold Machine.execPark
  refine h.word fun h => h.checked fun h => ?_
  split
  · exact h
  · exact h.pageReq.up

theorem State.MemInv.popFrame {c p} (h : s.MemInv) : (s.popFrame c p).1.MemInv := by
  unfold State.popFrame
  split
  rename_i e
  have k := h.devRead.of_fst e
  refine .ite_fst k (.ite_fst k (.ite_fst k ?_))
  split
  · exact k
  · split
    · exact k
    · exact k.modPart.devWrite.raisePts

theorem State.MemInv.execPoolPop {d} (h : s.MemInv) : Out.MemInv (execPoolPop d s) := by
  unfold Machine.execPoolPop
  refine h.memWord fun h => h.checked fun h => ?_
  split
  · exact h
  · exact h.popFrame.up

theorem State.MemInv.probe {c va} (h : s.MemInv) : (s.probe c va).1.MemInv := by
  unfold State.probe
  split
  · exact h
  · split
    · exact h
    · split
      · next e => exact h.walk.of_fst e
      · exact h.walk

theorem State.MemInv.probeLanes {c k a l} (h : s.MemInv) : (s.probeLanes c k a l).1.MemInv := by
  induction l generalizing s with
  | nil => exact h
  | cons i r ih => exact ih h.probe

theorem State.MemInv.dropTlb {f} (h : s.MemInv) : (s.dropTlb f).1.MemInv := h.of_mem
theorem State.MemInv.rewatch {es f} (h : s.MemInv) : (s.rewatch es f).MemInv := h.of_mem

theorem State.MemInv.execTlbInv {n i} (h : s.MemInv) : Out.MemInv (execTlbInv n i s) := by
  unfold Machine.execTlbInv
  refine h.word fun h => h.checked fun h => ?_
  split
  · exact .ite h.upd h.holdBack
  · exact .ite h.dropTlb.rewatch h.dropTlb.rewatch.upd.holdBack

theorem State.MemInv.execYield (h : s.MemInv) : Out.MemInv (execYield s) := by
  unfold Machine.execYield
  refine h.word fun h => ?_
  split
  · exact h
  · exact h.up

/-! ## Events of translation and parking -/

theorem State.MemInv.invalidate {f at_} (h : s.MemInv) : (s.invalidate f at_).MemInv := h.of_mem

theorem State.MemInv.execTlbSyncAnswer {id} (h : s.MemInv) : Out.MemInv (execTlbSyncAnswer id s) :=
  h.event fun h => h.upd.upd

theorem State.MemInv.execPageRequestWrite {rq} (h : s.MemInv) : Out.MemInv (execPageRequestWrite rq s) := by
  unfold Machine.execPageRequestWrite
  refine h.memEvent fun h => ?_
  split
  · exact h
  · extract_lets
    split
    · next e => exact (h.ipaAddr.of_fst e).s2Rec.s2Wait
    · next e => exact (h.ipaAddr.of_fst e).keyRange.devWrite.setVrBits.upd

theorem State.MemInv.resume {w rq} (h : s.MemInv) : (s.resume w rq).MemInv := by
  unfold State.resume
  split
  · split
    · exact h
    · split
      · exact .ite h.makeReady h
      · exact h.makeReady
      · exact h
  · exact h.modCmd
  · exact .ite h.postOnce h
  · exact h.updateCtr
  · exact h
  · exact h

theorem State.MemInv.writePrd {vf rqid} (h : s.MemInv) : (s.writePrd vf rqid).MemInv := by
  unfold State.writePrd
  split
  · exact h
  · exact h.upd.resume

theorem State.MemInv.takeS2 {part ipa} (h : s.MemInv) : (s.takeS2 part ipa).2.MemInv := h.of_mem

theorem State.MemInv.abort {w} (h : s.MemInv) : (s.abort w).MemInv := by
  unfold State.abort
  split
  · exact .ite h.stopLg h
  · exact h.upd.endCmd
  · exact .ite h.failStart h
  · split
    · exact h
    · exact h.modLaunch.dropCtr
  · exact .ite h.dropDesc h.pastHead.tenantRec
  · exact h

theorem State.MemInv.abortRequest {w} (h : s.MemInv) : (s.abortRequest w).MemInv := by
  unfold State.abortRequest
  split
  · split
    · exact h
    · exact h.upd.abort
  · exact h.abort

theorem State.MemInv.writeS2r {part ipa abort} (h : s.MemInv) : (s.writeS2r part ipa abort).MemInv :=
  .foldl (fun h => .ite h.abortRequest h.resume) h.takeS2

theorem State.MemInv.beginSwaps (h : s.MemInv) : s.beginSwaps.MemInv := .foldl (fun h => .ite h.beginSwapOut h) h

theorem State.MemInv.execParkTimeout {lg} (h : s.MemInv) : Out.MemInv (execParkTimeout lg s) :=
  h.event fun h => h.beginSwapOut

theorem State.MemInv.writeSpill {w} (h : s.MemInv) : (s.writeSpill w).MemInv := by
  unfold State.writeSpill
  split
  · exact h
  · split
    · refine .foldl (fun h => ?_) h
      split
      rename_i e0
      have k0 := h.draw.of_snd e0
      split
      · next e1 => exact (k0.ipaAddr.of_fst e1).s2Rec
      · next e1 =>
        have k1 := k0.ipaAddr.of_fst e1
        exact .ite (.foldl (fun h => h.setPois) k1.keyRange.devWrite) k1.keyRange.devWrite
    · exact h

theorem State.MemInv.takeSpill {w} (h : s.MemInv) : (s.takeSpill w).MemInv := h.of_mem

theorem State.MemInv.execSwapOutDone {wg} (h : s.MemInv) : Out.MemInv (execSwapOutDone wg s) :=
  h.memEvent fun h => .ite h.writeSpill.spillWg.upd.modWg h.writeSpill.spillWg

theorem State.MemInv.moveCmds {w core bank} (h : s.MemInv) : (s.moveCmds w core bank).MemInv :=
  .foldl (fun h => h.modCore.modCore.modCmd) h

theorem State.MemInv.moveAccs {w core bank} (h : s.MemInv) : (s.moveAccs w core bank).MemInv := h.of_mem

theorem State.MemInv.execReadmit {wg} (h : s.MemInv) : Out.MemInv (execReadmit wg s) := by
  unfold Machine.execReadmit
  refine h.event fun h => ?_
  split
  · exact .upd (.upd (.modWg (.moveAccs (.moveCmds (.ite h h.modCore.modCore)))))
  · exact h

theorem State.MemInv.execContextRestoreDone {core wg} (h : s.MemInv) :
    Out.MemInv (execContextRestoreDone core wg s) := by
  unfold Machine.execContextRestoreDone
  refine h.event fun h => ?_
  split
  · exact h
  · exact .ite h.modCore.reap h.modCore.raisePts.modWg

/-! ## The host and peer packages -/

theorem State.MemInv.writeWord {pa bs pts} (h : s.MemInv) : (s.writeWord pa bs pts).MemInv := h.devWrite

theorem State.MemInv.writeOuter {pa bs pts} (h : s.MemInv) : (s.writeOuter pa bs pts).MemInv :=
  .ite (.foldl (fun h => h.setPois) h.draw.writeWord) h.draw.writeWord

theorem State.MemInv.hostWrite {pa bs} (h : s.MemInv) : (s.hostWrite pa bs).MemInv := h.writeOuter.upd

theorem State.MemInv.execHostAccess {vf pa write value} (h : s.MemInv) :
    Out.MemInv (execHostAccess vf pa write value s) := by
  unfold Machine.execHostAccess
  exact h.event fun h => .ite h.gateRec (.ite h.hostWrite h.publishLine)

theorem State.MemInv.remote {pa op pts} (h : s.MemInv) : (s.remote pa op pts).MemInv := by
  unfold State.remote
  extract_lets
  split
  · exact h.publishLine.setDir.keepL2
  · exact h.writeOuter
  · exact .ite h.devRead.stamp.keepL2 h.devRead.writeWord

theorem State.MemInv.execRemoteAccess {spkg spart pa op pts} (h : s.MemInv) :
    Out.MemInv (execRemoteAccess spkg spart pa op pts s) := by
  unfold Machine.execRemoteAccess
  refine h.event fun h => ?_
  split
  · exact h.gateRec
  · exact .ite h.gateRec h.remote

theorem State.MemInv.openFrame {vf q frame} (h : s.MemInv) : (s.openFrame vf q frame).MemInv := .ite h h.setStream

theorem State.MemInv.execStreamSegment {vf q frame off data} (h : s.MemInv) :
    Out.MemInv (execStreamSegment vf q frame off data s) := by
  unfold Machine.execStreamSegment
  refine h.event fun h => ?_
  extract_lets
  split
  · exact h.countSq
  · exact h.countSq
  · exact .ite h.openFrame (.ite h.unitAddrs.countSq (.ite h.unitAddrs.openFrame.putUnits.setStream.closeFrame
      h.unitAddrs.openFrame.putUnits.setStream))

theorem State.MemInv.execFrameDeadline {vf q frame} (h : s.MemInv) : Out.MemInv (execFrameDeadline vf q frame s) := by
  unfold Machine.execFrameDeadline
  split
  · exact .next h
  · exact h.event fun h => h.unitAddrs.putUnits.closeFrame

theorem State.MemInv.execDescriptorPush {vf q} (h : s.MemInv) : Out.MemInv (execDescriptorPush vf q s) := by
  unfold Machine.execDescriptorPush
  split
  · exact .next h
  · refine h.memEvent fun h => ?_
    extract_lets
    split
    · next e => exact (h.devXlate.of_fst e).pageReq
    · next e => exact (h.devXlate.of_fst e).s2Rec.s2Wait
    · next e => exact h.devXlate.of_fst e
    · next e => exact (h.devXlate.of_fst e).pushAt.setStream.finishStream

/-! ## The sampling arrays at work -/

theorem State.MemInv.classesTo {core n k} (h : s.MemInv) : (s.classesTo core n k).MemInv := by
  induction n generalizing s k with
  | zero => exact h
  | succ n ih => exact .ite h (ih h.upd.modArr)

theorem State.MemInv.modArrOf {wg f} (h : s.MemInv) : (s.modArrOf wg f).MemInv := by
  unfold State.modArrOf
  split
  · exact h.modArr
  · exact h.modCore
  · exact h

theorem State.MemInv.ghostRefused {core holder info} (h : s.MemInv) : (s.ghostRefused core holder info).MemInv := by
  unfold State.ghostRefused
  split
  · exact h
  · split
    · exact h
    · exact h.gateRec

theorem State.MemInv.flushQueue {core a e l} (h : s.MemInv) : (s.flushQueue core a e l).1.MemInv := by
  induction l generalizing s with
  | nil => exact h
  | cons q r ih => exact .ite_fst h (.ite_fst (ih h.ghostRefused) (.ite_fst h (ih h.sendNow)))

theorem State.MemInv.sendNotice {core a chain c} (h : s.MemInv) : (s.sendNotice core a chain c).MemInv :=
  .ite h.send h.ghostRefused

theorem State.MemInv.flushNotices {core} (h : s.MemInv) : (s.flushNotices core).MemInv :=
  .foldl (fun h => h.modArr.sendNotice) h

theorem State.MemInv.flushExport {core a e} (h : s.MemInv) : (s.flushExport core a e).1.MemInv := h.flushQueue

theorem State.MemInv.flushExports {core a l} (h : s.MemInv) : (s.flushExports core a l).1.MemInv := by
  induction l generalizing s with
  | nil => exact h
  | cons e r ih => exact ih h.flushExport

theorem State.MemInv.flushGhosts (h : s.MemInv) : s.flushGhosts.MemInv :=
  .foldl (fun h => h.flushExports.modArr.flushNotices) h

theorem State.MemInv.judgeStall {core} (h : s.MemInv) : (s.judgeStall core).MemInv := h.of_mem
theorem State.MemInv.clockStalls (h : s.MemInv) : s.clockStalls.MemInv := h.of_mem

theorem State.MemInv.execSweepBegin {core} (h : s.MemInv) : Out.MemInv (execSweepBegin core s) :=
  h.event fun h => .post (.ite h.upd.modCore.postOnce h.upd.modCore)

theorem State.MemInv.execMonitorWindowClose {core} (h : s.MemInv) : Out.MemInv (execMonitorWindowClose core s) :=
  h.fire fun h => h.modCore

theorem State.MemInv.notify {core a} (h : s.MemInv) : (s.notify core a).MemInv := by
  unfold State.notify
  refine .foldl (fun h => h.sendNotice) ?_
  split
  · exact h.modArrOf
  · exact h

theorem State.MemInv.endSwp {core cause} (h : s.MemInv) : (s.endSwp core cause).MemInv := by
  unfold State.endSwp
  split
  · exact h
  · exact h.modArr.endCmd

theorem State.MemInv.arrayRec {core cause} (h : s.MemInv) : (s.arrayRec core cause).MemInv :=
  (State.arrayRec_under s core cause).2 h

theorem State.MemInv.execSweepEnd {core} (h : s.MemInv) : Out.MemInv (execSweepEnd core s) := by
  unfold Machine.execSweepEnd
  refine .ite (.next h) (h.fire fun h => ?_)
  extract_lets
  split
  · split
    · extract_lets s₁ s₂
      have k : s₂.MemInv := h.classesTo.modArr.flushGhosts
      exact .ite k.modCore.arrayRec.notify.endSwp (.ite k.modArr.notify.endSwp (.ite k.modArr.finishCmd
        k.modCmd.judgeStall))
    · exact h
  · exact h

theorem State.MemInv.execChainTimeout {core} (h : s.MemInv) : Out.MemInv (execChainTimeout core s) :=
  h.event fun h => h.arrayRec.modArr.endSwp

theorem State.MemInv.ghostLost {cmd cause} (h : s.MemInv) : (s.ghostLost cmd cause).MemInv := by
  unfold State.ghostLost
  split
  · exact h
  · exact h.modArrOf.modArrOf.modLg.endCmd

theorem State.MemInv.ghostSend {id e a b} (h : s.MemInv) : (s.ghostSend id e a b).MemInv := by
  unfold State.ghostSend
  split
  · exact h
  · exact .ite h.send h.cmdGate.ghostLost

theorem State.MemInv.startGhost {id c w p} (h : s.MemInv) : (s.startGhost id c w p).MemInv := by
  unfold State.startGhost
  extract_lets
  split
  · exact .ghostSend (.ite h.modCmd h.modCmd.modArr)
  · exact .ite h.modCmd.modLg.endCmd h.modCmd.ghostSend

theorem State.MemInv.execSaCommandStart {cmd} (h : s.MemInv) : Out.MemInv (execSaCommandStart cmd s) := by
  unfold Machine.execSaCommandStart
  split
  · exact .next h
  · next c _ =>
    refine h.event fun h => .ite h.endCmd ?_
    extract_lets
    cases c.body with
    | saCfg cfg ord pre =>
      cases pre with
      | false => exact .ite h.endCmd h.withdrawSubs.modArr.flushGhosts.endCmd
      | true => exact .ite h.endCmd h.modCore.endCmd
    | saKey => exact h.modArr.endCmd
    | saUncl => exact h.modArr.endCmd
    | saClr => exact h.modArr.endCmd
    | saMonW => exact h.modCore.modLg.endCmd
    | saGhost => exact h.startGhost
    | saSwp => exact .ite h.endCmd h.modCmd.modArr.judgeStall
    | saLdc => exact h.modCmd.post
    | saLdh => exact h.modCmd.post
    | saClmp => exact h.modCmd.post
    | saRdc => exact h.modCmd.post
    | saRds => exact h.modCmd.post
    | _ => exact h

theorem State.MemInv.execSaLoadDone {cmd} (h : s.MemInv) : Out.MemInv (execSaLoadDone cmd s) := by
  unfold Machine.execSaLoadDone
  split
  · exact h.fire fun h => h
  · refine .ite (.next h) ?_
    split
    · next e => exact .next (h.farFirst.of_some e)
    · exact h.fire fun h => .ite h.cmdRead.endCmd h.cmdRead.modArrOf.endCmd

theorem State.MemInv.execSaReadDone {cmd} (h : s.MemInv) : Out.MemInv (execSaReadDone cmd s) := by
  unfold Machine.execSaReadDone
  split
  · exact h.fire fun h => h
  · refine .ite (.next h) ?_
    split
    · next e => exact .next (h.farFirst.of_some e)
    · exact h.fire fun h => .finishCmd (.ite h.cmdWrite.forcedCommit h.cmdWrite)

theorem State.MemInv.execGhostSubscribe {cmd} (h : s.MemInv) : Out.MemInv (execGhostSubscribe cmd s) := by
  unfold Machine.execGhostSubscribe
  refine h.fire fun h => ?_
  split
  · exact h
  · extract_lets
    split
    · exact h.ghostSend
    · exact .ite h.modArrOf.modArrOf.modCmd.ghostSend h.modArrOf.ghostSend

theorem State.MemInv.execGhostUnsubscribe {cmd} (h : s.MemInv) : Out.MemInv (execGhostUnsubscribe cmd s) := by
  unfold Machine.execGhostUnsubscribe
  refine h.fire fun h => ?_
  split
  · exact h
  · exact .ite h.modArrOf.ghostSend h.modArrOf.ghostSend

theorem State.MemInv.execGhostAnswer {cmd ok} (h : s.MemInv) : Out.MemInv (execGhostAnswer cmd ok s) := by
  unfold Machine.execGhostAnswer
  refine h.fire fun h => ?_
  split
  · exact h
  · exact h.modArrOf.modLg.endCmd

theorem State.MemInv.stopNotice {core chain src} (h : s.MemInv) : Out.MemInv (State.stopNotice core chain src s) := by
  unfold State.stopNotice
  refine .ite (.next h) (h.fire fun h => ?_)
  extract_lets hit ev s₁ s₂ a
  have k : s₂.MemInv := by
    refine .foldl (fun h => ?_) h.modCore
    dsimp only
    split
    · exact h.notify.modCore.endCmd
    · exact h.notify
  exact .ite k (.ite k.modArr k.modArr.notify.endSwp)

theorem State.MemInv.execStopNotice {core chain} (h : s.MemInv) : Out.MemInv (execStopNotice core chain s) := by
  unfold Machine.execStopNotice
  split
  · exact h.stopNotice
  · exact .next h

theorem State.MemInv.execGhostUpdateArrive {core} (h : s.MemInv) : Out.MemInv (execGhostUpdateArrive core s) := by
  refine .ite (.next h) (h.fire fun h => ?_)
  split
  rename_i e
  have k := State.MemInv.of_snd e (.ite_snd h h.draw)
  split
  · exact k
  · exact .ite (.ite k.modCore.sendNow k.modCore.ghostRefused) (.judgeStall (.modArr (.ite k.modCore.draw.classesTo
      k.modCore)))

/-! ## Events of die links and ports -/

theorem State.MemInv.losePartsIf {acc ln f c} (h : s.MemInv) : (s.losePartsIf acc ln f c).MemInv := by
  unfold State.losePartsIf
  split
  · exact h
  · exact h.modAcc.postOnce

theorem State.MemInv.loseParts {acc ln f} (h : s.MemInv) : (s.loseParts acc ln f).MemInv := h.losePartsIf

theorem State.MemInv.loseLine {cmd ln} (h : s.MemInv) : (s.loseLine cmd ln).MemInv := by
  unfold State.loseLine
  split
  · exact h
  · exact h.modCmd.post

theorem State.MemInv.poisonFrag {f} (h : s.MemInv) : (s.poisonFrag f).MemInv := h.of_mem

theorem State.MemInv.lose {e} (h : s.MemInv) : (s.lose e).MemInv := by
  cases e with
  | nearAtomic => exact .elim h h.loseParts
  | farAtomic => exact .elim h h.loseParts
  | loadRequest => exact h.loseParts
  | writeRegistration => exact h.loseParts
  | accessReply => exact h.loseParts
  | publishArrive => exact h.takePublish
  | mcastRequest => exact h.loseLine
  | mcastReplyArrive => exact h.loseLine
  | mcastAlone => exact h.loseLine
  | mcastFan => exact .foldl (fun h => h.loseLine) h
  | fragmentArrive =>
    dsimp only [State.lose]
    split
    · exact h.upd.endCmd
    · exact h.endCmd
  | overflowFragmentArrive =>
    dsimp only [State.lose]
    split
    · exact h.poisonFrag.makeOrphan
    · exact h
  | fragmentCombineDone => exact h.poisonFrag.post
  | ghostSubscribe => exact h.ghostLost
  | ghostUnsubscribe => exact h.ghostLost
  | ghostAnswer => exact h.ghostLost
  | crossing => exact h.modCmd
  | writeBack => exact .foldl (fun h => h.setPois) h
  | amArrive =>
    dsimp only [State.lose]
    split
    · exact h.upd.endCmd
    · exact h
  | _ => exact h

theorem State.MemInv.execLinkFlitSend {edge dir mod_} (h : s.MemInv) :
    Out.MemInv (execLinkFlitSend edge dir mod_ s) :=
  h.event fun h => h.setLdir

theorem State.MemInv.sendNak {e d m} (h : s.MemInv) : (s.sendNak e d m).MemInv := h.of_mem
theorem State.MemInv.land {die p} (h : s.MemInv) : (s.land die p).MemInv := .ite h.enterDie h.hop
theorem State.MemInv.resend {e d m} (h : s.MemInv) : (s.resend e d m).MemInv := h.of_mem
theorem State.MemInv.modDirs {e m f} (h : s.MemInv) : (s.modDirs e m f).MemInv := h.of_mem

theorem State.MemInv.moveTo {e m n} (h : s.MemInv) : (s.moveTo e m n).MemInv :=
  .foldl (fun h => .ite h.setLink h) (.foldl (fun h => h.setLdir.setLdir) h)

theorem State.MemInv.edgeFails {e} (h : s.MemInv) : (s.edgeFails e).MemInv := .ite h h.upd.linkRec

theorem State.MemInv.moduleFails {e m sideband} (h : s.MemInv) : (s.moduleFails e m sideband).MemInv := by
  unfold State.moduleFails
  refine .ite h.setLink.linkRec.edgeFails ?_
  split
  · exact h.setLink.linkRec.moveTo
  · exact .ite h.setLink.linkRec h.setLink.linkRec.edgeFails

theorem State.MemInv.retrain {e m} (h : s.MemInv) : (s.retrain e m).MemInv :=
  .ite h.modDirs.setLink.moduleFails h.modDirs.setLink

theorem State.MemInv.takeNak {e d m n} (h : s.MemInv) : (s.takeNak e d m n).MemInv :=
  .ite h.setLdir.resend.retrain h.setLdir.resend

theorem State.MemInv.takeFlit {e d m good} (h : s.MemInv) : (s.takeFlit e d m good).MemInv := by
  unfold State.takeFlit
  split
  · exact h
  · exact .ite h.setLdir.sendNak (.ite h.setLdir (.ite h.setLdir.setLdir (.ite h.setLdir.setLdir.takeNak
      (.ite (.foldl (fun h => h.land) h.setLdir.setLdir.setLdir) (.ite h.setLdir.setLdir
      h.setLdir.setLdir.sendNak)))))

theorem State.MemInv.execLinkFlitReceive {edge dir mod_ good} (h : s.MemInv) :
    Out.MemInv (execLinkFlitReceive edge dir mod_ good s) :=
  h.event fun h => h.takeFlit

theorem State.MemInv.execLinkNakReceive {edge dir mod_} (h : s.MemInv) :
    Out.MemInv (execLinkNakReceive edge dir mod_ s) :=
  h.event fun h => h.takeFlit

theorem State.MemInv.execLinkIdleTimer {edge dir mod_} (h : s.MemInv) :
    Out.MemInv (execLinkIdleTimer edge dir mod_ s) :=
  h.event fun h => h.setLdir

theorem State.MemInv.execNakRepeatTimer {edge dir mod_} (h : s.MemInv) :
    Out.MemInv (execNakRepeatTimer edge dir mod_ s) :=
  h.event fun h => h.sendNak

theorem State.MemInv.trainLinks (h : s.MemInv) : s.trainLinks.MemInv := .foldl (fun h => h.setLink) h

theorem State.MemInv.execLinkAckTimeout {edge mod_} (h : s.MemInv) : Out.MemInv (execLinkAckTimeout edge mod_ s) :=
  h.event fun h => h.retrain

theorem State.MemInv.execLinkRetrainDone {edge mod_ lanes} (h : s.MemInv) :
    Out.MemInv (execLinkRetrainDone edge mod_ lanes s) := by
  unfold Machine.execLinkRetrainDone
  exact h.event fun h => .ite h.moduleFails (.foldl (fun h => .ite h.moveTo h) (.foldl (fun h => h.setLdir.resend)
    (.ite h.setLink.linkRec h.setLink)))

theorem State.MemInv.execRetrainTimeout {edge mod_ sideband} (h : s.MemInv) :
    Out.MemInv (execRetrainTimeout edge mod_ sideband s) :=
  h.event fun h => h.moduleFails

theorem State.MemInv.loseDown (h : s.MemInv) : s.loseDown.MemInv :=
  .foldl (fun h => .foldl (fun h => .foldl (fun h => .ite h (.foldl (fun h => h.lose) h.setLdir)) h) h) h

theorem State.MemInv.execCxlPortLost {port} (h : s.MemInv) : Out.MemInv (execCxlPortLost port s) :=
  h.event fun h => h.cxlLost.setWinBits

theorem State.MemInv.writeCxm {port value} (h : s.MemInv) : (s.writeCxm port value).MemInv :=
  .ite h.setWin.setWinBits h.setWin

/-! ## Events of pre-emption -/

theorem State.MemInv.execPreemptSwapDone {core} (h : s.MemInv) : Out.MemInv (execPreemptSwapDone core s) :=
  h.event fun h => .modCore (.foldl (fun h => h.modWg) h.upd)

theorem State.MemInv.execSwapBack {core} (h : s.MemInv) : Out.MemInv (execSwapBack core s) :=
  h.event fun h => .ite (.modCore (.foldl (fun h => h.upd.modWg) h)) (.foldl (fun h => h.upd.modWg) h)

theorem State.MemInv.slotted {core} (h : s.MemInv) : (s.slotted core).1.MemInv := .foldl (fun h => h.takeSpill) h

theorem State.MemInv.execShadowWriteoutDone {core} (h : s.MemInv) : Out.MemInv (execShadowWriteoutDone core s) :=
  h.memEvent fun h => .modCore (.foldl (fun h => h.writeSpill) h.slotted)

theorem State.MemInv.execSlotEvictionDone {core slot} (h : s.MemInv) :
    Out.MemInv (execSlotEvictionDone core slot s) := by
  unfold Machine.execSlotEvictionDone
  refine .ite (.next h) (h.memFire fun h => ?_)
  split
  · exact h
  · exact h.takeSpill.writeSpill.modCore

theorem State.MemInv.execArrayEvictionDone {core} (h : s.MemInv) : Out.MemInv (execArrayEvictionDone core s) := by
  unfold Machine.execArrayEvictionDone
  refine .ite (.next h) (h.memFire fun h => ?_)
  split
  · exact h
  · exact h.takeSpill.writeSpill.modCore

/-! ## What the partition manager and the controller write -/

theorem State.MemInv.killCmd {id cause} (h : s.MemInv) : (s.killCmd id cause).MemInv :=
  .endCmd (.upd (.foldl (fun h => h.dropPacket) h.unlock.disarm))

theorem State.MemInv.releaseOwned {a} (h : s.MemInv) : (s.releaseOwned a).MemInv :=
  .setCopies (.foldl (fun h => .setDir (.foldl (fun h => h.setPois) h)) h)

theorem State.MemInv.setSt {g st} (h : s.MemInv) : (s.setSt g st).MemInv := h.of_mem
theorem State.MemInv.bhRec {g} (h : s.MemInv) : (s.bhRec g).MemInv := h.mgrRec

theorem State.MemInv.failCrossing {e} (h : s.MemInv) : (s.failCrossing e).MemInv := by
  unfold State.failCrossing
  extract_lets note
  have hn : ∀ {t c info}, State.MemInv t → (note t c info).MemInv := by
    intro t c info h
    dsimp only [note]
    split
    · exact h.cmdGate
    · exact h
  clear_value note
  split
  · split
    · exact h
    · exact (hn h.recall.upd).endCmd
  · exact (hn h.recall).ghostLost
  · exact (hn h.recall).ghostLost
  · exact (hn h.recall).ghostLost
  · exact h.recall.ghostRefused
  · exact h.recall.ghostRefused
  · exact (hn h).killCmd
  · exact h

theorem State.MemInv.enterReset {g st} (h : s.MemInv) : (s.enterReset g st).MemInv := by
  unfold State.enterReset
  extract_lets s₁ touched s₂ s₃ ofBh s₄ s₅ s₆ s₇
  have k₂ : s₂.MemInv := by
    refine .foldl (fun h => ?_) (.foldl (fun h => h.releaseOwned) h)
    split
    · exact h
    · exact .ite h.requeue h.endFaulted
  have k₇ : s₇.MemInv := .setSt (.foldl (fun h => h.modCore) (.upd (.foldl (fun h => h.dropPacket)
    (.foldl (fun h => h.killCmd) k₂))))
  exact .ite k₇.setWinBits k₇.bhRec

theorem State.MemInv.setBhFields {g v} (h : s.MemInv) : (s.setBhFields g v).MemInv := h.of_mem

theorem State.MemInv.applyBhc {g v} (h : s.MemInv) : (s.applyBhc g v).MemInv := by
  unfold State.applyBhc
  extract_lets o st s₁ pwr clk _ s₂
  have k : s₂.MemInv := .ite h.setBhFields.upd (.ite h.setBhFields.setWinBits.upd h.setBhFields)
  clear_value st s₂
  split
  · exact .ite (.setSt k) k
  · exact .ite k (.setSt k)
  · exact .ite (.setSt k) (.ite (.setSt k) k)
  · exact .ite (.setSt k) k
  · exact .ite (.enterReset k) (.ite (.enterReset k) (.ite (.setSt k) k))
  · exact k

theorem State.MemInv.writeBhc {g v} (h : s.MemInv) : (s.writeBhc g v).MemInv := .ite h.upd h.applyBhc

theorem State.MemInv.releaseBhc {g} (h : s.MemInv) : (s.releaseBhc g).MemInv := by
  unfold State.releaseBhc
  split
  · exact h
  · exact h.upd.applyBhc

theorem State.MemInv.drained {g} (h : s.MemInv) : (s.drained g).MemInv :=
  .releaseBhc (.ite h.enterReset (.ite h.enterReset h.setSt.bhRec))

theorem State.MemInv.fatal {g} (h : s.MemInv) : (s.fatal g).MemInv :=
  .ite h (.ite h.setSt.bhRec.setWinBits.enterReset.releaseBhc h.setSt.bhRec.upd)

theorem State.MemInv.lostFlits (h : s.MemInv) : s.lostFlits.MemInv :=
  .foldl (fun h => .foldl (fun h => h.fatal) (.foldl (fun h => h.dropPacket) h)) h

theorem State.MemInv.disableWin {w} (h : s.MemInv) : (s.disableWin w).MemInv := .ite h h.upd

theorem State.MemInv.beginTeardown {n} (h : s.MemInv) : (s.beginTeardown n).MemInv :=
  .foldl (fun h => h.disableWin) (.foldl (fun h => h.endFaulted) h.modPart)

theorem State.MemInv.writePart {n v} (h : s.MemInv) : (s.writePart n v).MemInv :=
  .ite h (.ite (.ite h (.ite h.setWinBits h.setWinBits.beginTeardown)) (.ite h.setWinBits.setWinBits
    (.ite h.setWinBits.setWinBits.setWinBits (.foldl (fun h => h.setWinBits)
    h.setWinBits.setWinBits.setWinBits.modPart))))

theorem State.MemInv.endTeardown {n} (h : s.MemInv) : (s.endTeardown n).MemInv :=
  .setWinBits (.foldl (fun h => h.setWinBits) (.foldl (fun h => h.setWinBits)
    (.modPart (.upd (.foldl (fun h => h.killCmd) h.upd)))))

theorem State.MemInv.writeWin {w a b} (h : s.MemInv) : (s.writeWin w a b).MemInv :=
  .ite h (.ite (.ite h h.disableWin) (.ite h.setWin.setWin.setWinBits
    (.ite (.ite h.setWin.setWin.setWinBits.disableWin h.setWin.setWin.setWinBits) h.setWin.setWin.setWinBits)))

theorem State.MemInv.failUnder {w} (h : s.MemInv) : (s.failUnder w).MemInv := by
  unfold State.failUnder
  extract_lets a b own gst hit region gate
  have hg : ∀ {t id}, State.MemInv t → (gate t id).MemInv := by
    intro t id h
    refine .killCmd ?_
    split
    · exact h.cmdGate
    · exact h
  clear_value a gate
  split
  · exact .foldl (fun h => hg h) (.foldl (fun h => .foldl (fun h => h.losePartsIf) h) h)
  · exact .foldl (fun h => hg h) (.foldl (fun h => h.recall.upd) h)
  · exact .foldl (fun h => h.failCrossing) h

theorem State.MemInv.writeVfm {f v} (h : s.MemInv) : (s.writeVfm f v).MemInv :=
  .ite h (.ite h.setWin.setWinBits h.setWin)

theorem State.MemInv.destroyKey {i} (h : s.MemInv) : (s.destroyKey i).MemInv :=
  .upd (.foldl (fun h => h.publishAll.setDir) h)

theorem State.MemInv.writeKey {i v} (h : s.MemInv) : (s.writeKey i v).MemInv := .ite h (.setWin (.ite h.destroyKey h))
theorem State.MemInv.stepMap (h : s.MemInv) : s.stepMap.MemInv := .ite h.setWinBits h

theorem State.MemInv.writeMap {v} (h : s.MemInv) : (s.writeMap v).MemInv := by
  unfold State.writeMap
  refine .stepMap ?_
  split
  · exact h
  · exact .foldl (fun h => h.upd) h

/-! ## Events of bulkheads -/

theorem State.MemInv.writeBhBit {g i b} (h : s.MemInv) : (s.writeBhBit g i b).MemInv := h.writeBhc

theorem State.MemInv.execBulkheadRailGood {bh} (h : s.MemInv) : Out.MemInv (execBulkheadRailGood bh s) :=
  h.event fun h => h.setSt

theorem State.MemInv.execBulkheadRailTimeout {bh} (h : s.MemInv) : Out.MemInv (execBulkheadRailTimeout bh s) :=
  h.event fun h => h.upd.bhRec

theorem State.MemInv.execPllLock {bh} (h : s.MemInv) : Out.MemInv (execPllLock bh s) :=
  h.event fun h => .ite h.upd.setWinBits.setSt h.upd.setWinBits

theorem State.MemInv.execPllLockTimeout {bh} (h : s.MemInv) : Out.MemInv (execPllLockTimeout bh s) :=
  h.event fun h => h.upd.bhRec

theorem State.MemInv.execBulkheadInitDone {bh} (h : s.MemInv) : Out.MemInv (execBulkheadInitDone bh s) :=
  h.event fun h => .setSt (.foldl (fun h => h.modCore) h)

theorem State.MemInv.execBulkheadDrainDone {bh} (h : s.MemInv) : Out.MemInv (execBulkheadDrainDone bh s) :=
  h.event fun h => h.drained

theorem State.MemInv.execGateDrainTimeout {bh} (h : s.MemInv) : Out.MemInv (execGateDrainTimeout bh s) :=
  h.event fun h => .foldl (fun h => h.failCrossing) h

theorem State.MemInv.dumpWrite {a bs} (h : s.MemInv) : (s.dumpWrite a bs).MemInv :=
  .foldl (fun h => h.setDir) h.devWrite

theorem State.MemInv.dumpCore {a core} (h : s.MemInv) : (s.dumpCore a core).MemInv :=
  .dumpWrite (.foldl (fun h => h.setPois) (.foldl (fun h => .foldl (fun h => h.setPois) h)
    (.foldl (fun h => h.dumpWrite) h.draw.dumpWrite.dumpWrite)))

theorem State.MemInv.execStateDumpDone {bh} (h : s.MemInv) : Out.MemInv (execStateDumpDone bh s) :=
  h.memEvent fun h => .releaseBhc (.enterReset (.setWinBits (.upd (.ite h (.dumpWrite (.ite h
    (.foldl (fun h => h.dumpCore) h)))))))

theorem State.MemInv.writeTrm {g go} (h : s.MemInv) : (s.writeTrm g go).MemInv := .ite h.setWinBits h

theorem State.MemInv.execTrimDone {bh} (h : s.MemInv) : Out.MemInv (execTrimDone bh s) :=
  h.event fun h => .foldl (fun h => h.modCore) h.setWinBits

/-! ## Events of partitions, windows and keys -/

theorem State.MemInv.execTeardownDone {part} (h : s.MemInv) : Out.MemInv (execTeardownDone part s) :=
  h.event fun h => h.endTeardown

theorem State.MemInv.execWindowDrainDone {win} (h : s.MemInv) : Out.MemInv (execWindowDrainDone win s) :=
  h.event fun h => .upd (.setWinBits (.ite h.failUnder h))

theorem State.MemInv.writeDbr {w} (h : s.MemInv) : (s.writeDbr w).MemInv := by
  unfold State.writeDbr
  refine .ite h.setWin ?_
  split
  · exact h.setWin
  · exact h.setWin.modLg.makeReady

theorem State.MemInv.writeStr {d str} (h : s.MemInv) : (s.writeStr d str).MemInv := .ite h h.setWinBits

theorem State.MemInv.execReencodeDone {die} (h : s.MemInv) : Out.MemInv (execReencodeDone die s) :=
  h.event fun h => .setWinBits (.foldl (fun h => h.setDir) h)

theorem State.MemInv.retire {frame} (h : s.MemInv) : (s.retire frame).MemInv :=
  .ite h.setWinBits (.ite h.setWinBits h.setWinBits.upd)

theorem State.MemInv.slotError {core n byte flip} (h : s.MemInv) : (s.slotError core n byte flip).MemInv := h.of_mem

theorem State.MemInv.execSoftError {site} (h : s.MemInv) : Out.MemInv (execSoftError site s) := by
  unfold Machine.execSoftError
  split
  · exact h.event fun h => h.modLg
  · exact h.event fun h => .foldl (fun h => h.copyError) (.ite h.copyError h)
  · exact h.event fun h => h.sliceError
  · exact h.event fun h => .ite (.foldl (fun h => h.setPois) h) h.setDir
  · exact h.event fun h => h.slotError
  · exact h.event fun h => h.setTile
  · exact h.event fun h => h.setTile
  · exact h.event fun h => h.fatal
  · exact h.event fun h => .foldl (fun h => h.fatal) h
  · exact h.event fun h => h.upd
  · exact h.event fun h => h.modPart
  · exact h.event fun h => .ite h.countL2 h.countCorrected
  · exact h.event fun h => h.setPermit
  · exact h.event fun h => h.setPermit

theorem State.MemInv.maskWin {off mask v} (h : s.MemInv) : (s.maskWin off mask v).MemInv := h.of_mem

theorem State.MemInv.writeFirm {o v} (h : s.MemInv) : (s.writeFirm o v).MemInv :=
  .ite h.upd.maskWin (.ite h.maskWin.writeStr (.ite h.setLdir.setLink (.ite h.maskWin (.ite h.maskWin
    (.ite h.maskWin (.ite h.retire (.ite h.setWin (.ite h.writeDbr (.ite h.writeTrm (.ite h.maskWin
    (.ite h.maskWin h)))))))))))

theorem State.MemInv.writeWindow {slate o v} (h : s.MemInv) : (s.writeWindow slate o v).MemInv :=
  .ite (.ite h.writeVfm h) (.ite h (.ite h.writePart (.ite h.writeBhc (.ite (.ite h.writeWin (.ite h h.setWin))
    (.ite h.writeCxm (.ite h.maskWin (.ite h.maskWin (.ite h.writeMap (.ite h.maskWin (.ite h.writeS2r
    (.ite h.maskWin (.ite h.maskWin (.ite h.maskWin (.ite h.writeKey (.ite h.writeFirm h)))))))))))))))

theorem State.MemInv.writePage {manager f o v} (h : s.MemInv) : (s.writePage manager f o v).MemInv :=
  .ite h (.ite h.setVr (.ite h.setVr (.ite h.setVr (.ite h.setVr (.ite h.writePrd (.ite (.ite h.setVr h)
    (.ite h.writeRsz (.ite (.ite h (.ite h.setVr (.ite h.writeLqt h))) (.ite (.ite h.setVr
    (.ite h.writeSqc h)) h)))))))))

theorem State.MemInv.execRegisterWrite {space off value} (h : s.MemInv) :
    Out.MemInv (execRegisterWrite space off value s) := by
  unfold Machine.execRegisterWrite
  split
  · exact h.event fun h => h.writeWindow
  · exact h.event fun h => h.writeWindow
  · exact h.event fun h => h.writePage
  · exact h.event fun h => h.writePage

/-! ## Messages under way -/

theorem State.MemInv.evRun {e} (h : s.MemInv) : Out.MemInv (Ev.run e s) := by
  cases e with
  | workgroupStart => exact h.execWorkgroupStart
  | nodeDiscard => exact h.execNodeDiscard
  | loadRequest => exact h.execLoadRequest
  | writeRegistration => exact h.execWriteRegistration
  | forcedPublishRequest => exact h.execForcedPublishRequest
  | publishArrive => exact h.execPublishArrive
  | nearAtomic => exact h.execNearAtomic
  | farAtomic => exact h.execFarAtomic
  | accessReply => exact h.execAccessReply
  | memoryReadComplete => exact h.execMemoryReadComplete
  | engineTakeOwnership => exact h.execEngineTakeOwnership
  | engineFinish => exact h.execEngineFinish
  | slotEvictionDone => exact h.execSlotEvictionDone
  | arrayEvictionDone => exact h.execArrayEvictionDone
  | mxLdDone => exact h.execMxLdDone
  | busTransferDone => exact h.execBusTransferDone
  | mxMmaDone => exact h.execMxMmaDone
  | mxPmmaDone => exact h.execMxPmmaDone
  | mxDrainDone => exact h.execMxDrainDone
  | mxChkDone => exact h.execMxChkDone
  | mxRelEffect => exact h.execMxRelEffect
  | saLoadDone => exact h.execSaLoadDone
  | saReadDone => exact h.execSaReadDone
  | sweepEnd => exact h.execSweepEnd
  | ghostSubscribe => exact h.execGhostSubscribe
  | ghostUnsubscribe => exact h.execGhostUnsubscribe
  | ghostAnswer => exact h.execGhostAnswer
  | ghostUpdateArrive => exact h.execGhostUpdateArrive
  | monitorWindowClose => exact h.execMonitorWindowClose
  | stopNotice => exact h.stopNotice
  | amArrive => exact h.execAmArrive
  | mcastRequest => exact h.execMcastRequest
  | mcastReplyArrive => exact h.execMcastReplyArrive
  | mcastFan => exact .next h.upd.deliver
  | mcastAlone => exact h.upd.post.execMcastReplyArrive
  | ghostUpdate => exact .next h.upd.deliver
  | crossing => exact .next h.upd.deliver
  | writeBack => exact .next h.upd
  | fragmentArrive => exact h.execFragmentArrive
  | overflowFragmentArrive => exact h.execOverflowFragmentArrive
  | fragmentCombineDone => exact h.execFragmentCombineDone

/-! ## Atomics -/

theorem State.MemInv.atomWord {i op c d g a w f o} (h : s.MemInv) : Out.MemInv (atomWord i s op c d g a w f o) :=
  h.memWord fun h => h.checked fun h => .ite h.issueReq (.ite h.holdBack (h.afterCommit fun h => h.issueReq))

/-! ## Control flow -/

theorem State.MemInv.jump {c t} (h : s.MemInv) : (s.jump c t).MemInv := h.of_mem

theorem State.MemInv.execBrd {v q o} (h : s.MemInv) : Out.MemInv (execBrd v q o s) :=
  h.memWord fun h => h.landing fun h => .ite h (.ite h.jump (h.checked fun h => h.up))

theorem State.MemInv.endPath {c} (h : s.MemInv) : (s.endPath c).MemInv := by
  unfold State.endPath
  split
  · exact h
  · split
    · exact h.setLg
    · exact h.endLg

theorem State.MemInv.endWord {i f} (h : s.MemInv) (hf : ∀ {x0 s}, s.MemInv → (f x0 s).MemInv) :
    Out.MemInv (endWord i s f) :=
  h.word fun h => .ite h.holdBack (hf h)

theorem State.MemInv.execJwait {j} (h : s.MemInv) : Out.MemInv (execJwait j s) :=
  h.endWord fun h => .ite h (h.checked fun h => .ite h.up h.up.endPath)

/-! ## Fused words -/

theorem State.MemInv.fusedWord {i pk n d a b f} (h : s.MemInv) : Out.MemInv (fusedWord i s pk n d a b f) := h.fpWord

/-! ## Predicates -/

theorem State.MemInv.maskWord {i d f} (h : s.MemInv) : Out.MemInv (maskWord i s d f) := h.word fun h => h.up

/-! ## Uniform instructions -/

theorem State.MemInv.kWord {i d f} (h : s.MemInv) : Out.MemInv (kWord i s d f) :=
  h.word fun h => h.checked fun h => h.wrK

theorem State.MemInv.kBin {i d a b f} (h : s.MemInv) : Out.MemInv (kBin i s d a b f) := h.kWord
theorem State.MemInv.setOwner {w n o} (h : s.MemInv) : (s.setOwner w n o).MemInv := h.of_mem

/-! ## Every instruction and event -/

theorem State.MemInv.exec {i} (h : s.MemInv) : Out.MemInv (exec i s) := by
  unfold Machine.exec
  cases i with
  | add | sub | addc | subb | mullo | mulhi | and | or | xor | andn | shl | shr | sar | rotl | min | max =>
      exact h.binWord
  | addi | andi | ori | xori | shli | shri | sari | muli | clz | ctz | popc | brev | bfe | mov => exact h.unWord
  | bfi | sel | li | shfl | voteBallot | rdsp | ldX | lih => exact h.laneWord
  | faddF32 | fsubF32 | fmulF32 | fminF32 | fmaxF32 => exact h.fp32Word
  | faddBf16x2 | fsubBf16x2 | fmulBf16x2 | fminBf16x2 | fmaxBf16x2 | faddF16x2 | fsubF16x2 | fmulF16x2 | fminF16x2 |
      fmaxF16x2 => exact h.fpPkWord
  | frcp | frsqrt | fsqrt | fexp2 | flog2 | fsin | fcos | fclass => exact h.fpUnWord
  | ffmaF32 | ffmaBf16x2 | ffmaF16x2 | imadLo | imadHi => exact h.fusedWord
  | icmp | fcmp | idxSet | idxAdd | stX | jinit => exact h.word fun h => h.checked fun h => h.up
  | pand | por | pxor | pnot | ptest => exact h.maskWord
  | cvt => exact h.fpWord
  | voteAny | voteAll | edge | rshrink | jarr | emRd | emWr | cset | kmovToLk | time => exact h.word fun h => h.up
  | rgnPf => exact h.word fun h => h.checked fun h => h.stage
  | rgrow => exact h.execRgrow
  | ldB8Z | ldB8S | ldB16Z | ldB16S | ldB32 | ldB64 | ldB128 | ldAcq => exact h.loadWordI
  | kld => exact h.memWord fun h => h.checked fun h => h.issueReq
  | stB8 | stB16 | stB32 | stB64 | stB128 | stRel => exact h.storeWord
  | kst => exact h.memWord fun h => h.checked fun h => h.issueStore
  | stashMap => exact h.execStashMap
  | stashWb => exact h.stashWord fun h => h.onStashLines fun h => h.publishFrom
  | stashWbE => exact h.execStashWbE
  | stashInv => exact h.stashWord fun h => h.onStashLines fun h => h.invLine
  | stashInvE => exact h.execStashInvE
  | stashStg => exact h.stashWord fun h => h.up.addCtr
  | atomAdd | atomFaddF32 | atomAnd | atomOr | atomXor | atomMin | atomMax | atomExch | atomCas => exact h.atomWord
  | bra => exact h.memWord fun h => h.landing fun h => h.jump
  | braK => exact h.memWord fun h => .ite h (h.landing fun h => h.jump)
  | brd => exact h.execBrd
  | call | kbr => exact h.memWord fun h => h.landing fun h => h.up
  | jwait => exact h.execJwait
  | ret => exact h.endWord fun h => .ite h.jump h.endPath
  | exit => exact h.endWord fun h => h.up.endPath
  | barWg => exact h.execBarWg
  | barSpan => exact h.execBarSpan
  | barStep => exact h.execBarStep
  | fenceAcq => exact h.word fun h => .ite h.up h.raisePts
  | fenceRel => exact h.execFenceRel
  | fenceAr => exact h.execFenceAr
  | waitc => exact h.execWaitc
  | waitm => exact h.execWaitm
  | cadd => exact h.word fun h => h.addCtr
  | elect => exact h.word fun h => .up (.ite h.modWg h)
  | kmov | kmovFromLk => exact h.kWord
  | kadd | ksub | kand | kor | kxor | kshl | kshr | kcmpEq | kcmpLtS | kcmpLtZ => exact h.kBin
  | kclaim => exact h.word fun h => .up (.ite h.setOwner h)
  | krel => exact h.word fun h => h.checked fun h => h.showK.setOwner
  | kfromv => exact h.word fun h => .ite h (h.checked fun h => h.wrK)
  | mxClaim => exact h.execMxClaim
  | mxRel => exact h.mxWord fun h => .mxQueue (.ite h h.withdrawLdb)
  | mxRec | mxLdb | mxZero | mxChk => exact h.mxWord fun h => h.mxQueue
  | mxLd | mxLdS | mxDrain => exact h.mxWord fun h => h.mxMemory
  | mxMma | mxPmma => exact h.mxWord fun h => h.product
  | saCfg => exact h.execSaCfg
  | saKey | saUncl | saClr | saMonW => exact h.saWord fun h => h.saQueue
  | saLdc | saLdh | saClmp | saRdc | saRds => exact h.saImage
  | saGhost => exact h.execSaGhost
  | saSwp => exact h.execSaSwp
  | saMon | saStat => exact h.saRead
  | tcLd | tcSt | tcMcast | rvSend => exact h.word fun h => h.engine
  | busA | busB => exact h.word fun h => h.busSend
  | rvTalloc => exact h.execRvTalloc
  | rvTfree => exact h.execRvTfree
  | rvStat => exact h.execRvStat
  | amSend => exact h.execAmSend
  | amReg => exact h.execAmReg
  | pipeBind => exact h.execPipeBind
  | pipePush => exact h.execPipePush
  | pipePop => exact h.execPipePop
  | pipeEos => exact h.execPipeEos
  | taskSpawn => exact h.execTaskSpawn
  | taskSpawnL => exact h.execTaskSpawnL
  | taskNext => exact h.execTaskNext
  | taskDone => exact h.execTaskDone
  | nodeCommit => exact h.execNodeCommit
  | nop => exact h.word fun h => h
  | trap => exact h.word fun h => .ite h.up.stopLg h.up
  | sysret => exact h.execSysret
  | crRd => exact h.word fun h => .ite h.up h.up
  | crWr => exact h.execCrWr
  | park => exact h.execPark
  | poolPop => exact h.execPoolPop
  | poolGive => exact h.word fun h => h.checked fun h => h.modPart.up
  | xlatProbe => exact h.memWord fun h => h.checked fun h => h.probeLanes.up
  | tlbInv => exact h.execTlbInv
  | bkpt => exact h.word fun h => .ite h.up h
  | yield => exact h.execYield
  | fetchLineArrive => exact h.execFetchLineArrive
  | launchDoorbell => exact h.event fun h => h.writeLqt
  | launchQueueRead => exact h.execLaunchQueueRead
  | workgroupPlace => exact h.execWorkgroupPlace
  | workgroupStart => exact h.execWorkgroupStart
  | launchComplete => exact h.execLaunchComplete
  | groupWaitTimeout => exact h.execGroupWaitTimeout
  | resizeRequest => exact h.event fun h => h.writeRsz
  | wgBarrierComplete => exact h.execWgBarrierComplete
  | spanBarrierComplete => exact h.execSpanBarrierComplete
  | stepBarrierComplete => exact h.execStepBarrierComplete
  | laneGroupWake => exact h.execLaneGroupWake
  | laneGroupAged => exact h.execLaneGroupAged
  | yieldExpiry => exact h.execYieldExpiry
  | registerGrowGrant => exact h.execRegisterGrowGrant
  | growthDeadlock => exact h.execGrowthDeadlock
  | taskClaim => exact h.execTaskClaim
  | amArrive => exact h.execAmArrive
  | handlerStart => exact h.execHandlerStart
  | ptsTick => exact h.execPtsTick
  | loadRequest => exact h.execLoadRequest
  | writeRegistration => exact h.execWriteRegistration
  | forcedPublishRequest => exact h.execForcedPublishRequest
  | publishArrive => exact h.execPublishArrive
  | l1Eviction => exact h.execL1Eviction
  | nearAtomic => exact h.execNearAtomic
  | farAtomic => exact h.execFarAtomic
  | accessReply => exact h.execAccessReply
  | memoryReadComplete => exact h.execMemoryReadComplete
  | engineTakeOwnership => exact h.execEngineTakeOwnership
  | engineFinish => exact h.execEngineFinish
  | tlbWalkDone => exact h.memEvent fun h => h.xlate
  | tlbiVaRange | tlbiAsid | tlbiIpaRange | tlbiVmid | tlbiAll => exact h.event fun h => h.invalidate
  | hostTlbSync | bootImageReplace => exact h.event fun h => h.upd
  | tlbSyncAnswer => exact h.execTlbSyncAnswer
  | pageRequestWrite => exact h.execPageRequestWrite
  | pageRequestDone => exact h.event fun h => h.writePrd
  | parkTimeout => exact h.execParkTimeout
  | swapOutDone => exact h.execSwapOutDone
  | readmit => exact h.execReadmit
  | s2rResume | s2rAbort => exact h.event fun h => h.writeS2r
  | governorWindow => exact h.execGovernorWindow
  | preemptSwapDone => exact h.execPreemptSwapDone
  | swapBack => exact h.execSwapBack
  | shadowWriteoutDone => exact h.execShadowWriteoutDone
  | slotEvictionDone => exact h.execSlotEvictionDone
  | arrayEvictionDone => exact h.execArrayEvictionDone
  | contextRestoreDone => exact h.execContextRestoreDone
  | mxCommandStart => exact h.execMxCommandStart
  | mxLdDone => exact h.execMxLdDone
  | busTransferStart => exact h.execBusTransferStart
  | busTransferDone => exact h.execBusTransferDone
  | mxMmaDone => exact h.execMxMmaDone
  | mxPmmaDone => exact h.execMxPmmaDone
  | mxDrainDone => exact h.execMxDrainDone
  | mxChkDone => exact h.execMxChkDone
  | mxRelEffect => exact h.execMxRelEffect
  | saCommandStart => exact h.execSaCommandStart
  | saLoadDone => exact h.execSaLoadDone
  | saReadDone => exact h.execSaReadDone
  | sweepBegin => exact h.execSweepBegin
  | sweepEnd => exact h.execSweepEnd
  | ghostSubscribe => exact h.execGhostSubscribe
  | ghostUnsubscribe => exact h.execGhostUnsubscribe
  | ghostAnswer => exact h.execGhostAnswer
  | ghostUpdateArrive => exact h.execGhostUpdateArrive
  | monitorWindowClose => exact h.execMonitorWindowClose
  | chainTimeout => exact h.execChainTimeout
  | stopNotice => exact h.execStopNotice
  | permitAudit => exact h.execPermitAudit
  | mcastRequest => exact h.execMcastRequest
  | mergeWindowExpiry => exact h.execMergeWindowExpiry
  | mergeSetExpiry => exact h.execMergeSetExpiry
  | mcastReplyArrive => exact h.execMcastReplyArrive
  | fragmentArrive => exact h.execFragmentArrive
  | overflowFragmentArrive => exact h.execOverflowFragmentArrive
  | fragmentCombineDone => exact h.execFragmentCombineDone
  | orphanTimeout => exact h.execOrphanTimeout
  | linkFlitSend => exact h.execLinkFlitSend
  | linkFlitReceive => exact h.execLinkFlitReceive
  | linkNakReceive => exact h.execLinkNakReceive
  | linkIdleTimer => exact h.execLinkIdleTimer
  | nakRepeatTimer => exact h.execNakRepeatTimer
  | linkLockLoss => exact h.event fun h => h.retrain
  | linkRetrainDone => exact h.execLinkRetrainDone
  | retrainTimeout => exact h.execRetrainTimeout
  | portLost => exact h.event fun h => h.upd.linkRec
  | cxlPortLost => exact h.execCxlPortLost
  | sliceTimeout => exact h.execSliceTimeout
  | hostAccess => exact h.execHostAccess
  | hostSnoop => exact h.event fun h => h.publishLine
  | remoteAccess => exact h.execRemoteAccess
  | streamSegment => exact h.execStreamSegment
  | frameDeadline => exact h.execFrameDeadline
  | descriptorPush => exact h.execDescriptorPush
  | streamEnable | streamEos => exact h.event fun h => h.writeSqc
  | dbiWindow => exact h.event fun h => .ite h.upd (.ite h.upd h)
  | faultedLaunchEnd => exact h.execFaultedLaunchEnd
  | faultedLaunchTimeout => exact h.execFaultedLaunchTimeout
  | nodeDiscard => exact h.execNodeDiscard
  | pipeDeadlock => exact h.execPipeDeadlock
  | gateDrainTimeout => exact h.execGateDrainTimeout
  | sweeperRead => exact h.execSweeperRead
  | l2CodeChange => exact h.event fun h => h.writeStr
  | reencodeDone => exact h.execReencodeDone
  | retireFrame => exact h.event fun h => h.retire
  | bulkheadFatalError => exact h.event fun h => h.fatal
  | stateDumpDone => exact h.execStateDumpDone
  | bulkheadPowerOn | bulkheadClockEnable | bulkheadResetRelease | bulkheadResetAssert | bulkheadGateClose |
      bulkheadGateOpen | bulkheadPowerOff => exact h.event fun h => h.writeBhBit
  | bulkheadRailGood => exact h.execBulkheadRailGood
  | bulkheadRailTimeout => exact h.execBulkheadRailTimeout
  | pllLock => exact h.execPllLock
  | pllLockTimeout => exact h.execPllLockTimeout
  | bulkheadInitDone => exact h.execBulkheadInitDone
  | bulkheadDrainDone => exact h.execBulkheadDrainDone
  | partitionEnable | partitionTeardown => exact h.event fun h => h.writePart
  | teardownDone => exact h.execTeardownDone
  | windowEnable | windowDisable => exact h.event fun h => h.writeWin
  | windowDrainDone => exact h.execWindowDrainDone
  | homeMapWrite => exact h.event fun h => h.writeMap
  | homeMapReadInc => exact h.event fun h => h.stepMap.upd
  | vfEnable => exact h.event fun h => h.writeVfm
  | keyTableWrite => exact h.event fun h => h.writeKey
  | keyLoad => exact h.event fun h => .setWinBits (.ite h.destroyKey h)
  | cxlRangeEnable => exact h.event fun h => h.writeCxm
  | trimStart => exact h.event fun h => h.writeTrm
  | trimDone => exact h.execTrimDone
  | debugResume => exact h.event fun h => h.writeDbr
  | packageReset => exact .next h.upd
  | bootStage => exact h.event fun h => .ite (.ite h.upd.trainLinks h.upd) h.upd
  | attestQuote => exact h.event fun h => .ite h.upd h.upd
  | registerWrite => exact h.execRegisterWrite
  | softError => exact h.execSoftError
  | linkAckTimeout => exact h.execLinkAckTimeout
  | cxlLinkStateChange => exact h.event fun h => h.setWinBits.upd
  | hostPortReturn => exact h.event fun h => .foldl (fun h => h.mgrRec) h.upd

/-! ## Packets -/

theorem Out.MemInv.andThen {o f} (ho : Out.MemInv o) (hf : ∀ {s}, s.MemInv → Out.MemInv (f s)) :
    Out.MemInv (andThen o f) := by
  cases o with
  | next t => exact hf (ho t rfl)
  | fault => exact .fault
  | refused => exact .refused

theorem State.MemInv.dropOld {l} (h : s.MemInv) : (s.dropOld l).1.MemInv := by
  induction l generalizing s with
  | nil => exact h
  | cons x r ih => exact .ite_fst (ih h.draw) h.draw

theorem State.MemInv.seeK {g} (h : s.MemInv) : (s.seeK g).MemInv := by
  unfold State.seeK
  split
  · exact h
  · refine .foldl (fun h => ?_) h
    split
    · next e => exact (h.dropOld.of_fst e).modLg
    · next e => exact (h.dropOld.of_fst e).modLg

theorem State.MemInv.unyield {g} (h : s.MemInv) : (s.unyield g).MemInv := h.of_mem

theorem State.MemInv.issued {g} (h : s.MemInv) : (s.issued g).MemInv := by
  unfold State.issued
  refine .upd (.unyield (.modLaunch ?_))
  split
  · exact h.modLg.modCore
  · exact h.modLg

theorem State.MemInv.closePacket {g} (h : s.MemInv) : (s.closePacket g).MemInv :=
  .ite (.ite h.upd.unyield h.upd) h.upd.issued

theorem State.MemInv.atSlot {j} (h : s.MemInv) : (s.atSlot j).MemInv := h.of_mem
theorem State.MemInv.defer {em j rest} (h : s.MemInv) : (s.defer em j rest).MemInv := h.of_mem

theorem State.MemInv.runWords {em l k} (h : s.MemInv) (hk : ∀ {s b}, s.MemInv → Out.MemInv (k s b)) :
    Out.MemInv (State.runWords em l s k) := by
  induction l generalizing s with
  | nil => exact hk h
  | cons p r ih => exact h.atSlot.exec.andThen fun k => .ite (hk h.defer) (ih k)

/-- Every state that a word run alone leaves. -/
theorem State.MemInv.dryRun {l k} (h : s.MemInv) (hk : ∀ {ds : List DryRun}, (∀ d ∈ ds, d.after.MemInv) →
    Out.MemInv (k ds)) :
    Out.MemInv (s.dryRun l k) := by
  induction l generalizing k with
  | nil => exact hk (by simp)
  | cons p r ih => exact h.atSlot.exec.andThen fun k => ih fun hds => hk (List.forall_mem_cons.mpr ⟨k, hds⟩)

theorem mem_of_bestTrap {ds : List DryRun} {d : DryRun} (e : bestTrap ds = some d) : d ∈ ds := by
  unfold Machine.bestTrap at e
  refine List.foldlRecOn (motive := fun b => ∀ d, b = some d → d ∈ ds) ds _ (by intro _ e; cases e)
    (fun b hb x hx d e => ?_) d e
  split at e
  · exact hb d e
  · cases e; exact hx
  · split at e
    · cases e; exact hx
    · exact hb d e

theorem State.MemInv.runPacket {em ms} (h : s.MemInv) : Out.MemInv (s.runPacket em ms) := by
  unfold State.runPacket
  split
  · exact h.atSlot.exec
  · refine h.dryRun fun hds => ?_
    dsimp only
    split
    · next e _ => exact .next (hds _ (mem_of_bestTrap e))
    · next e _ => exact .next (hds _ (List.mem_of_find?_eq_some e))
    · refine h.runWords fun k => .ite (.next k) ?_
      split
      · exact k.atSlot.upd.exec
      · split
        · exact .next k
        · exact .ite (k.runWords fun h => .next h) (.next k.defer)

theorem State.MemInv.packetTrap {c x slot tva} (h : s.MemInv) : (s.packetTrap c x slot tva).MemInv := h.atSlot.raiseR
theorem State.MemInv.invalidTrap {c} (h : s.MemInv) : (s.invalidTrap c).MemInv := .ite h.modLg.stopLg h.packetTrap
theorem State.MemInv.wordTrap {c p slot} (h : s.MemInv) : (s.wordTrap c p slot).MemInv := h.atSlot.raiseR

theorem State.MemInv.runReplay {c r succ ms} (h : s.MemInv) : Out.MemInv (s.runReplay c r succ ms) := by
  unfold State.runReplay
  split
  · exact .next h.packetTrap
  · refine h.openPacket.upd.setLg.atSlot.exec.andThen fun h => ?_
    split
    · exact .next h.modLg
    · exact .next h
    · exact .next h.modLg

theorem State.MemInv.succTarget {c ln succ} (h : s.MemInv) : (s.succTarget c ln succ).1.MemInv := by
  unfold State.succTarget
  refine .ite_fst h ?_
  split
  · next e => exact h.fetchLine.of_fst e
  · next e => exact h.fetchLine.of_fst e
  · next e => exact h.fetchLine.of_fst e
  · next e => exact h.fetchLine.of_fst e

theorem State.MemInv.runWaits {c ln} (h : s.MemInv) : (s.runWaits c ln).1.MemInv := by
  unfold State.runWaits
  refine .ite_fst h ?_
  split
  · next e => exact h.fetchLine.of_fst e
  · next e => exact h.fetchLine.of_fst e
  · next e => exact h.fetchLine.of_fst e
  · next e => exact h.fetchLine.of_fst e

theorem State.MemInv.runWhole {c ln p} (h : s.MemInv) : Out.MemInv (s.runWhole c ln p) := by
  unfold State.runWhole
  extract_lets
  split
  rename_i e0
  have k0 := State.MemInv.of_fst e0 (.ite_fst h.succTarget h)
  split
  rename_i e1
  have k1 := State.MemInv.of_fst e1 (.ite_fst k0.runWaits k0)
  refine .ite (.next k1.holdBack) ?_
  split
  · exact .next k1.packetTrap
  · exact .next k1.parkAtPacket
  · refine k1.openPacket.setLg.runPacket.andThen fun h => ?_
    split
    · exact .next h.modLg
    · exact .next h

theorem State.MemInv.spawned {c p} (h : s.MemInv) : (s.spawned c p).MemInv := .ite h.modCore h

theorem State.MemInv.runLine {c ln} (h : s.MemInv) : Out.MemInv (s.runLine c ln) := by
  unfold State.runLine
  refine .ite (.next h.packetTrap) (.ite (.next h.invalidTrap) ?_)
  split
  · exact .next h.wordTrap
  · refine .ite (.next h.holdBack) (.andThen ?_ fun h => .next h.spawned)
    split
    · exact h.runReplay
    · exact h.runWhole

theorem State.MemInv.issue {g} (h : s.MemInv) : Out.MemInv (s.issue g) := by
  unfold State.issue
  extract_lets
  split
  · exact .fault
  · extract_lets
    split
    · exact .fault
    · split
      rename_i e
      have k := h.seeK.modLg.upd.fetchLine.of_fst e
      refine .ite (.next h.seeK.modLg.upd.holdBack.closePacket) (.andThen ?_ fun h => .next h.closePacket)
      split
      · exact k.runLine
      · exact .next k.packetTrap
      · exact .next (.ite k.packetTrap k.invalidTrap)
      · exact .next k.parkAtPacket

/-! ## What happens next -/

theorem State.MemInv.openArrived (h : s.MemInv) : s.openArrived.MemInv := by
  unfold State.openArrived
  refine .foldl (fun h => ?_) h
  split
  · exact .ite h.openFrame h
  · exact h

theorem State.MemInv.settle (h : s.MemInv) : s.settle.MemInv :=
  h.clockStalls.loseDown.lostFlits.flushRecs.flushBacks.flushCtrs.flushUnits.dropMatches
    |>.matchSends.flushGhosts.watchGrowths.growEligible.openArrived.beginSwaps

theorem State.MemInv.tick (h : s.MemInv) : s.tick.MemInv := h.of_mem

theorem State.MemInv.eventStep {f} (h : s.MemInv) (hf : ∀ {s}, s.MemInv → Out.MemInv (f s)) :
    Out.MemInv (eventStep f s) :=
  .andThen (hf h.upd) fun h => .next h.upd

/-- Every function of a list keeps memory canonical. -/
def AllKeep (fs : List (State → Out)) : Prop := ∀ f ∈ fs, ∀ s : State, s.MemInv → Out.MemInv (f s)

namespace AllKeep

theorem nil : AllKeep [] := fun _ hf => nomatch hf

theorem singleton {f : State → Out} (hf : ∀ {s}, s.MemInv → Out.MemInv (f s)) : AllKeep [f] :=
  fun g hg _ => by cases List.mem_singleton.mp hg; exact hf

theorem append {fs gs : List (State → Out)} (hf : AllKeep fs) (hg : AllKeep gs) : AllKeep (fs ++ gs) :=
  fun f h => (List.mem_append.mp h).elim (hf f) (hg f)

theorem map {α : Type} {l : List α} {f : α → State → Out} (hf : ∀ {x s}, s.MemInv → Out.MemInv (f x s)) :
    AllKeep (l.map f) :=
  fun g hg _ => by
    obtain ⟨x, -, rfl⟩ := List.mem_map.mp hg
    exact hf

theorem flatMap {α : Type} {l : List α} {f : α → List (State → Out)} (hf : ∀ x, AllKeep (f x)) :
    AllKeep (l.flatMap f) :=
  fun g hg => by
    obtain ⟨x, -, hx⟩ := List.mem_flatMap.mp hg
    exact hf x g hx

theorem onlyIf {b : Bool} {f : State → Out} (hf : ∀ {s}, s.MemInv → Out.MemInv (f s)) :
    AllKeep (Machine.onlyIf b f) := by
  cases b
  · exact nil
  · exact singleton hf

theorem filter {fs : List (State → Out)} {p : (State → Out) → Bool} (hf : AllKeep fs) : AllKeep (fs.filter p) :=
  fun f h => hf f (List.mem_of_mem_filter h)

theorem getElem? {fs : List (State → Out)} (hf : AllKeep fs) {n : Nat} {f : State →
    Out} (e : fs[n]? = some f) {s : State}
    (h : s.MemInv) : Out.MemInv (f s) := hf f (List.mem_of_getElem? e) s h

theorem eventStep {fs : List (State → Out)} (hf : AllKeep fs) : AllKeep (fs.map Machine.eventStep) :=
  fun g hg s h => by
    obtain ⟨f, hm, rfl⟩ := List.mem_map.mp hg
    exact h.eventStep fun k => hf f hm _ k

/-! ### The events that are due -/

theorem dueGroups {s : State} : AllKeep s.dueGroups := by
  refine .append (.flatMap fun p => ?_)
    (.flatMap fun p => .append (.onlyIf fun h => h.execRegisterGrowGrant) (.onlyIf fun h => h.execGrowthDeadlock))
  dsimp only
  split
  · refine .append (.onlyIf fun h => h.execLaneGroupWake) ?_
    split
    · exact .onlyIf fun h => h.execWgBarrierComplete
    · exact .onlyIf fun h => h.execSpanBarrierComplete
    · exact .onlyIf fun h => h.execStepBarrierComplete
    · exact .nil
  · exact .onlyIf fun h => h.execLaneGroupAged
  · exact .onlyIf fun h => h.execYieldExpiry
  · exact .onlyIf fun h => h.execParkTimeout
  · exact .onlyIf fun h => h.execParkTimeout
  · exact .nil

theorem dueLaunches {s : State} : AllKeep s.dueLaunches :=
  .flatMap fun _ => .append (.append (.append (.append
    (.onlyIf fun h => h.execLaunchComplete) (.onlyIf fun h => h.execFaultedLaunchEnd))
    (.onlyIf fun h => h.execFaultedLaunchTimeout)) (.onlyIf fun h => h.execGroupWaitTimeout))
      (.onlyIf fun h => h.execPipeDeadlock)

theorem dueWork {s : State} : AllKeep s.dueWork := by
  refine .append (.flatMap fun n => ?_) (.flatMap fun p => .onlyIf fun h => h.execLaunchQueueRead)
  split
  · exact .singleton fun h => h.execReadmit
  · exact .singleton fun h => h.execWorkgroupPlace
  · exact .singleton fun h => h.execTaskClaim
  · exact .nil

theorem dueCores {s : State} : AllKeep s.dueCores := by
  refine .flatMap fun c => .append (.append (.append (.append (.append (.append (.append (.append
    (.onlyIf fun h => h.execHandlerStart) (.onlyIf fun h => h.execSweepBegin)) (.onlyIf fun h => h.execChainTimeout))
    (.onlyIf fun h => h.execPreemptSwapDone)) (.onlyIf fun h => h.execSwapBack))
      (.onlyIf fun h => h.execShadowWriteoutDone))
    (.onlyIf fun h => h.execPtsTick)) ?_)
    (.flatMap fun p => .append (.onlyIf fun h => h.execSwapOutDone) (.onlyIf fun h => h.execContextRestoreDone))
  split
  · exact .map fun h => h.execL1Eviction
  · exact .nil

theorem dueEngines {s : State} : AllKeep s.dueEngines :=
  .append (.flatMap fun _ => .append (.append
    (.onlyIf fun h => h.execMxCommandStart) (.onlyIf fun h => h.execSaCommandStart))
      (.onlyIf fun h => h.execBusTransferStart))
    (.flatMap fun _ => .flatMap fun _ => .onlyIf fun h => h.execSliceTimeout)

theorem dueFabric {s : State} : AllKeep s.dueFabric :=
  .append (.append (.append (.flatMap fun _ => .onlyIf fun h => h.execGovernorWindow)
    (.flatMap fun _ => .append (.onlyIf fun h => h.execMergeWindowExpiry) (.onlyIf fun h => h.execMergeSetExpiry)))
    (.flatMap fun _ => .onlyIf fun h => h.execOrphanTimeout))
    (.flatMap fun _ => .onlyIf fun h => h.execPermitAudit)

theorem dueLinks {s : State} : AllKeep s.dueLinks := by
  refine .append (.append (.flatMap fun k => .append (.append (.append (.append (.append
    (.onlyIf fun h => h.execLinkFlitSend) (.onlyIf fun h => h.execLinkFlitReceive))
      (.onlyIf fun h => h.execLinkNakReceive))
    (.onlyIf fun h => h.execLinkIdleTimer)) (.onlyIf fun h => h.execNakRepeatTimer))
      (.onlyIf fun h => h.execLinkAckTimeout))
    (.flatMap fun p => ?_)) (.flatMap fun p => .onlyIf fun h => h.execCxlPortLost)
  dsimp only
  split
  · exact .nil
  · exact .append (.singleton fun h => h.execLinkRetrainDone) (.onlyIf fun h => h.execRetrainTimeout)

theorem dueHost {s : State} : AllKeep s.dueHost :=
  .append (.append (.flatMap fun _ => .onlyIf fun h => h.execTlbSyncAnswer)
    (.flatMap fun _ => .onlyIf fun h => h.execPageRequestWrite))
    (.flatMap fun _ => .onlyIf fun h => h.execDescriptorPush)

theorem dueManage {s : State} : AllKeep s.dueManage := by
  refine .append (.append (.append (.flatMap fun g => .append (.append (.append (.append (.append (.append (.append (.append
    (.onlyIf fun h => h.execBulkheadRailGood) (.onlyIf fun h => h.execBulkheadRailTimeout))
      (.onlyIf fun h => h.execPllLock))
    (.onlyIf fun h => h.execPllLockTimeout)) (.onlyIf fun h => h.execBulkheadInitDone))
      (.onlyIf fun h => h.execGateDrainTimeout))
    (.onlyIf fun h => h.execBulkheadDrainDone)) (.onlyIf fun h => h.execTrimDone))
      (.onlyIf fun h => h.execTeardownDone)) ?_)
    (.map fun h => h.execWindowDrainDone)) (.flatMap fun d => .onlyIf fun h => h.execReencodeDone)
  cases s.dumps with
  | nil => exact .nil
  | cons d ds => exact .singleton fun h => h.execStateDumpDone

theorem due {s : State} : AllKeep s.due :=
  .filter (.append (.append (.append (.append (.append (.append (.append (.append
    .dueGroups .dueLaunches) .dueWork) .dueCores) .dueEngines) .dueFabric) .dueLinks) .dueHost) .dueManage)

theorem flitMoves {s : State} : AllKeep s.flitMoves :=
  .flatMap fun _ => .map fun h => .next h.moveFlit

/-- What has its turn is one of the things that can happen. -/
theorem turn {s : State} {msgs due flits : List (State →
    Out)} (hm : AllKeep msgs) (hd : AllKeep due) (hl : AllKeep flits)
    {f : State → Out} (e : s.turn msgs due flits = some f) {t : State} (h : t.MemInv) : Out.MemInv (f t) := by
  unfold State.turn at e
  split at e
  · obtain ⟨g, -, rfl⟩ := Option.map_eq_some_iff.mp e
    exact h.issue
  · exact hm f (List.mem_of_head? e) t h
  · exact hd.getElem? e h
  · exact hl.getElem? e h
  · exact nomatch e

end AllKeep

theorem State.MemInv.goOn (h : s.MemInv) : Out.MemInv s.goOn := by
  have hm : AllKeep ((s.ripeOf [] s.pending).map fun e => Machine.eventStep e.run) :=
    .map fun h => h.eventStep fun h => h.evRun
  have hd : AllKeep (s.due.map Machine.eventStep) := AllKeep.due.eventStep
  have hl : AllKeep (s.flitMoves.map Machine.eventStep) := AllKeep.flitMoves.eventStep
  unfold State.goOn
  extract_lets msgs due flits
  have hall : AllKeep (s.issuable.map (fun g s => State.issue s g) ++ msgs ++ due ++ flits ++
      (if msgs.isEmpty && due.isEmpty && flits.isEmpty then [] else [fun s => .next s.tick])) := by
    refine .append (.append (.append (.append (.map fun h => h.issue) hm) hd) hl) ?_
    split
    · exact .nil
    · exact .singleton fun h => .next h.tick
  split
  · exact .next h.tick
  · next e => exact hall _ (by rw [e]; exact List.mem_singleton_self _) s h
  · split
    · next e => exact AllKeep.turn hm hd hl e h
    · dsimp only
      split
      · next e => exact hall.getElem? e h.draw
      · exact .next h.draw

theorem State.MemInv.afterDeadlines {k} (h : s.MemInv) (hk : ∀ {s}, s.MemInv → Out.MemInv (k s)) :
    Out.MemInv (State.afterDeadlines k s) := by
  unfold State.afterDeadlines
  split
  · exact h.eventStep fun h => h.execFrameDeadline
  · exact hk h

theorem State.MemInv.fromOutside {p} (h : s.MemInv) : Out.MemInv (State.fromOutside p s) :=
  .ite (.next h.upd) (h.upd.eventStep fun h => h.exec)

theorem State.MemInv.advance (h : s.MemInv) : Out.MemInv s.advance := by
  unfold State.advance
  extract_lets
  split
  · exact h.settle.upd.afterDeadlines fun h => h.goOn
  · exact h.settle.upd.afterDeadlines fun h => h.fromOutside

end

/-- Settles O47, by the lemma of each function that a step can call. -/
theorem stepsKeepMemoryCanonical : Obligations.StepsKeepMemoryCanonical := by
  unfold Obligations.StepsKeepMemoryCanonical
  intro s t h e
  exact State.MemInv.advance h t e

end Sys2Proof.Machine
end

section
/-! SUPPORT. Fields of registers of the manager window and folds over a state, and the statement of an event from the function that
performs it. -/

set_option Elab.async false

namespace Sys2Proof.Machine

/-! ## Events -/

/-- An event's statement from the function that performs it, where that is an event with a condition. -/
theorem happens_cond {i : Instr} (h : State → Out) {cond : State → Bool} {f : State → State → State} {ok : State → Prop}
    {eff : State → State → Prop} (hi : exec i = h) (hh : ∀ s, h s = event (cond s) s (f s)) (hc : ∀ s, ok s → cond s = true)
    (he : ∀ s, ok s → eff s (f s s)) : Happens i ok eff :=
  happens_event (fun s _ => (congrFun hi s).trans (hh s)) hc he

/-- An event whose step may reach memory, from its condition and the state that its function makes. -/
theorem performs_memEvent {i : Instr} {cond : State → Bool} {f g : State → State} {ok : State → Prop}
    (hi : ∀ s, ok s → exec i s = memEvent (cond s) s f) (hc : ∀ s, ok s → cond s = true)
    (he : ∀ s, ok s → f s = g s) : Performs i ok g := by
  intro s h
  rw [hi s h, memEvent, hc s h, if_pos rfl, State.unlessStalled, he s h]
  congr 2
  simp

/-! ## Fields of a word -/

/-- A field apart from the one written stands. -/
@[simp] theorem bits_setBits_apart {m : Nat} (w : BitVec m) (lo n v lo' n' : Nat) (h : lo + n ≤ m)
    (h' : lo + n ≤ lo' ∨ lo' + n' ≤ lo) :
    bits (setBits w lo n v) lo' n' = bits w lo' n' := by
  rcases h' with h' | h'
  · exact bits_setBits_above w lo n v lo' n' h h'
  · exact bits_setBits_below w lo n v lo' n' h h'

/-- A part of a field, read from the word that holds the whole. -/
theorem bits_part {m : Nat} (w : BitVec m) (lo n d k : Nat) (h : d + k ≤ n) : bits w (lo + d) k = bits w lo n / 2 ^ d % 2 ^ k := by
  obtain ⟨e, rfl⟩ := Nat.exists_eq_add_of_le h
  rw [bits_eq, bits_eq, pow_add, ← Nat.div_div_eq_div_mul, Nat.add_assoc, pow_add 2 d, Nat.mod_mul_right_div_self,
    Nat.mod_mod_of_dvd _ (Nat.pow_dvd_pow 2 (Nat.le_add_right k e))]

/-- A part of the field written. -/
theorem bits_setBits_part {m : Nat} (w : BitVec m) (lo n v d k : Nat) (h : lo + n ≤ m) (h' : d + k ≤ n) :
    bits (setBits w lo n v) (lo + d) k = v % 2 ^ n / 2 ^ d % 2 ^ k := by
  rw [bits_part _ lo n d k h', bits_setBits w lo n v h]

/-- A bit after one bit is written. -/
theorem bit_setBits_one (w : DWord) (i j : Nat) (b : Bool) (h : i < 64) :
    bit (setBits w i 1 (b2n b)) j = if j = i then b else bit w j := by
  rw [Bool.eq_iff_iff]
  by_cases e : j = i
  · subst e
    rw [bit_bits, bits_setBits w j 1 _ (by omega), if_pos rfl]
    cases b <;> decide
  · rw [if_neg e, bit_bits, bit_bits, bits_setBits_apart w i 1 _ j 1 (by omega) (by omega)]

/-! ## Fields of a register -/

/-- A field of a register, apart from the one written, or of another register, stands. -/
@[simp] theorem State.winBits_setWinBits_apart (s : State) (o lo n v o' lo' n' : Nat) (h : lo + n ≤ 64)
    (h' : lo + n ≤ lo' ∨ lo' + n' ≤ lo) :
    (s.setWinBits o lo n v).winBits o' lo' n' = s.winBits o' lo' n' := by
  by_cases e : o' = o
  · subst e
    simp [State.winBits, State.win'_setWinBits, bits_setBits_apart _ _ _ _ _ _ h h']
  · exact State.winBits_setWinBits_other s o lo n v o' lo' n' e

/-- A part of the field written. -/
theorem State.winBits_setWinBits_part (s : State) (o : Nat) {lo n v lo' k x : Nat} (h : lo + n ≤ 64) (h1 : lo ≤ lo')
    (h2 : lo' + k ≤ lo + n) (hx : v % 2 ^ n / 2 ^ (lo' - lo) % 2 ^ k = x) : (s.setWinBits o lo n v).winBits o lo' k = x := by
  obtain ⟨d, rfl⟩ := Nat.exists_eq_add_of_le h1
  rw [Nat.add_sub_cancel_left] at hx
  rw [← hx, State.winBits, State.win'_setWinBits, if_pos rfl, bits_setBits_part _ _ _ _ _ _ h (by omega)]

/-- A change of other fields of the state leaves every register. -/
theorem State.winBits_of_win {s t : State} (h : t.win = s.win) (o lo n : Nat) : t.winBits o lo n = s.winBits o lo n := by
  simp only [State.winBits, State.win', h]

/-! ## Folds -/

/-- What a projection of the state keeps under each step of a fold, it keeps under the fold. -/
theorem foldl_keeps {α β : Type} (p : State → α) (f : State → β → State) (hf : ∀ s x, p (f s x) = p s) :
    ∀ (l : List β) (s : State), p (l.foldl f s) = p s
  | [], _ => rfl
  | x :: r, s => (foldl_keeps p f hf r (f s x)).trans (hf s x)

theorem State.core_modCore (s : State) (c d : Nat) (f : Core → Core) :
    (s.modCore c f).core d = if d = c then f (s.core c) else s.core d := by
  simp [State.core, State.modCore, Tab.getD_setD]

/-- Cores changed one after the other: each core listed is changed, however often it is listed. -/
theorem State.core_foldl_modCore {f : State → Core → Core} (hs : ∀ s c k, f (s.modCore c k) = f s)
    (hf : ∀ s k, f s (f s k) = f s k) (d : Nat) : ∀ (l : List Nat) (s : State),
    (l.foldl (fun s c => s.modCore c (f s)) s).core d = if d ∈ l then f s (s.core d) else s.core d
  | [], s => rfl
  | c :: r, s => by
    rw [List.foldl_cons, State.core_foldl_modCore hs hf d r, State.core_modCore, hs]
    by_cases e : d = c
    · subst e
      simp [hf]
    · simp [e]

/-- Such a fold changes the cores alone. -/
theorem State.foldl_modCore_rest (f : State → Core → Core) : ∀ (l : List Nat) (s : State),
    l.foldl (fun s c => s.modCore c (f s)) s = { s with cores := (l.foldl (fun s c => s.modCore c (f s)) s).cores }
  | [], _ => rfl
  | c :: r, s => by
    rw [List.foldl_cons]
    exact State.foldl_modCore_rest f r (s.modCore c (f s))

/-- After a change of registers, it changes registers and cores alone. -/
theorem State.foldl_modCore_frame (f : State → Core → Core) (l : List Nat) {s t : State} (h : t = { s with win := t.win }) :
    l.foldl (fun s c => s.modCore c (f s)) t =
      { s with win := (l.foldl (fun s c => s.modCore c (f s)) t).win, cores := (l.foldl (fun s c => s.modCore c (f s)) t).cores } := by
  have hr := State.foldl_modCore_rest f l t
  generalize l.foldl (fun s c => s.modCore c (f s)) t = u at hr ⊢
  have hw := congrArg State.win hr
  calc u = { t with cores := u.cores } := hr
    _ = { { s with win := t.win } with cores := u.cores } := by rw [← h]
    _ = { s with win := u.win, cores := u.cores } := by rw [hw]

end Sys2Proof.Machine
end

section
/-! SUPPORT. The reset values of the manager window (R13, R14, R24, R171, R427). -/

set_option Elab.async false

namespace Sys2Proof.Machine

theorem State.reset_winBits (o lo n : Nat) : State.reset.winBits o lo n = bits (winReset o) lo n := rfl

theorem winReset_oBHC {g : Nat} (h : g < 12) : winReset (oBHC g) = 0xF000C#64 := by
  have h1 : ¬ oBHC g < 0x60 := by unfold oBHC; omega
  have h2 : 0x100 ≤ oBHC g ∧ oBHC g < 0x160 := by unfold oBHC; omega
  rw [winReset, if_neg h1, if_pos h2]

theorem winReset_oPART {n : Nat} (h : n < 12) : winReset (oPART n) = 0x140000#64 := by
  have h1 : oPART n < 0x60 := by unfold oPART; omega
  rw [winReset, if_pos h1]

theorem winReset_oVFM {f : Nat} (h : f < 1024) : winReset (oVFM f) = 0xF#64 := by
  have h1 : ¬ oVFM f < 0x60 := by unfold oVFM; omega
  have h2 : ¬ (0x100 ≤ oVFM f ∧ oVFM f < 0x160) := by unfold oVFM; omega
  have h3 : 0x1000 ≤ oVFM f ∧ oVFM f < 0x2000 := by unfold oVFM; omega
  rw [winReset, if_neg h1, if_neg h2, if_pos h3]

theorem winReset_oMXB {g : Nat} (h : g < 12) : winReset (oMXB g) = 256#64 := by
  have h1 : ¬ oMXB g < 0x60 := by unfold oMXB; omega
  have h2 : ¬ (0x100 ≤ oMXB g ∧ oMXB g < 0x160) := by unfold oMXB; omega
  have h3 : ¬ (0x1000 ≤ oMXB g ∧ oMXB g < 0x2000) := by unfold oMXB; omega
  have h4 : oMXB g ≠ 0x20028 := by unfold oMXB; omega
  have h5 : 0x50000 ≤ oMXB g ∧ oMXB g < 0x50060 := by unfold oMXB; omega
  rw [winReset, if_neg h1, if_neg h2, if_neg h3, if_neg h4, if_pos h5]

/-- Settles O48, by the reset value of each register. -/
theorem resetValues : Obligations.ResetValues := by
  unfold Obligations.ResetValues
  refine ⟨fun g h => ?_, fun n h => ?_, fun f h => ?_, fun g h => ?_, by decide, fun _ => rfl, rfl, rfl, rfl, rfl, rfl, rfl⟩
  · simp only [State.bhSt, State.reset_winBits, winReset_oBHC h]
    decide
  · simp only [State.partEn, State.partMask, State.reset_winBits, winReset_oPART h, h]
    decide
  · simp only [State.vfEn, State.vfPart, State.reset_winBits, winReset_oVFM h]
    decide
  · rw [State.reset_winBits, winReset_oMXB h]
    decide

end Sys2Proof.Machine
end

section
/-! SUPPORT. The registers of a bulkhead: what a change of its state, a write of its fields, and the two together (R13, R469) leave in
`BHC`, and what the events of a bulkhead do (O59). -/

set_option Elab.async false

namespace Sys2Proof.Machine

/-! ## `BHC` -/

theorem State.bhBit_eq (s : State) (g i : Nat) : s.bhBit g i = bit (s.win' (oBHC g)) i := by
  rw [Bool.eq_iff_iff, bit_bits, State.bhBit, beq_iff_eq, State.winBits]

theorem State.bhSt_setSt (s : State) (g st : Nat) : (s.setSt g st).bhSt g = st % 8 := State.winBits_setWinBits s _ 4 3 st (by decide)

theorem State.bhBit_setSt (s : State) (g st i : Nat) (h : i < 4 ∨ 7 ≤ i) : (s.setSt g st).bhBit g i = s.bhBit g i := by
  have e : (s.setSt g st).winBits (oBHC g) i 1 = s.winBits (oBHC g) i 1 :=
    State.winBits_setWinBits_apart s _ 4 3 st _ i 1 (by decide) (by omega)
  rw [State.bhBit, e, ← State.bhBit]

theorem State.bhSince_setSt (s : State) (g st : Nat) : (s.setSt g st).bhSince = s.bhSince.put g s.now := rfl

theorem State.core_setSt (s : State) (g st c : Nat) : (s.setSt g st).core c = s.core c := rfl

theorem State.bhSt_setBhFields (s : State) (g : Nat) (v : DWord) : (s.setBhFields g v).bhSt g = s.bhSt g :=
  State.winBits_setWinBits_apart s _ 0 4 _ _ 4 3 (by decide) (by decide)

/-- The four fields that software writes read as written. -/
theorem State.bhBit_setBhFields (s : State) (g i : Nat) (v : DWord) (h : i < 4) : (s.setBhFields g v).bhBit g i = bit v i := by
  have e : (s.setBhFields g v).winBits (oBHC g) i 1 = bits v 0 4 / 2 ^ i % 2 ^ 1 :=
    State.winBits_setWinBits_part s (oBHC g) (by decide) (Nat.zero_le i) (by omega) (by rw [Nat.mod_eq_of_lt (bits_lt v 0 4)]; rfl)
  have k := bits_part v 0 4 i 1 (by omega)
  rw [Nat.zero_add] at k
  rw [Bool.eq_iff_iff, bit_bits, State.bhBit, beq_iff_eq, e, k]

theorem State.bhBit_setBhFields_lock (s : State) (g : Nat) (v : DWord) : (s.setBhFields g v).bhBit g 7 = s.bhBit g 7 := by
  have e : (s.setBhFields g v).winBits (oBHC g) 7 1 = s.winBits (oBHC g) 7 1 :=
    State.winBits_setWinBits_apart s _ 0 4 _ _ 7 1 (by decide) (by decide)
  rw [State.bhBit, e, ← State.bhBit]

/-- The first half of a write of `BHC_g`: its fields, and the PLL that a clock write starts or stops. -/
def State.bhClock (s : State) (g : Nat) (v : DWord) : State :=
  if bit v 0 && bit v 1 && !(s.bhBit g 0 && s.bhBit g 1) then
    { s.setBhFields g v with bhSince := (s.setBhFields g v).bhSince.put (12 + g) (s.setBhFields g v).now }
  else if !(bit v 0 && bit v 1) then
    { (s.setBhFields g v).setWinBits (oBHC g) 7 1 0 with bhSince := (s.setBhFields g v).bhSince.del (12 + g) }
  else s.setBhFields g v

/-- The other half: the state that the write leads to. -/
theorem State.applyBhc_eq (s : State) (g : Nat) (v : DWord) : s.applyBhc g v =
    match s.bhSt g with
    | 0 => if bit v 0 then (s.bhClock g v).setSt g 1 else s.bhClock g v
    | 1 => if bit v 0 then s.bhClock g v else (s.bhClock g v).setSt g 0
    | 2 => if !bit v 0 then (s.bhClock g v).setSt g 0
           else if s.bhBit g 2 && !bit v 2 then (s.bhClock g v).setSt g 2 else s.bhClock g v
    | 3 => if !bit v 0 || bit v 2 || (bit v 3 && !s.bhBit g 3) then (s.bhClock g v).setSt g 4 else s.bhClock g v
    | 5 => if !bit v 0 then (s.bhClock g v).enterReset g 0 else if bit v 2 then (s.bhClock g v).enterReset g 2
           else if !bit v 3 && (s.bhClock g v).bhBit g 7 then (s.bhClock g v).setSt g 3 else s.bhClock g v
    | _ => s.bhClock g v := by
  unfold State.applyBhc
  extract_lets o st s1 pwr clk src s2
  have e : s2 = s.bhClock g v := rfl
  exact e ▸ rfl

theorem State.bhClock_now (s : State) (g : Nat) (v : DWord) : (s.bhClock g v).now = s.now := by
  unfold State.bhClock
  split
  · rfl
  · split <;> rfl

/-- A read of `BHC` that the lock bit has no part in sees the fields alone. -/
theorem State.bhClock_winBits (s : State) (g : Nat) (v : DWord) (lo n : Nat) (h : lo + n ≤ 7) :
    (s.bhClock g v).winBits (oBHC g) lo n = (s.setBhFields g v).winBits (oBHC g) lo n := by
  unfold State.bhClock
  split
  · rfl
  · split
    · exact (State.winBits_of_win (s := (s.setBhFields g v).setWinBits (oBHC g) 7 1 0) rfl _ lo n).trans
        (State.winBits_setWinBits_apart _ _ 7 1 0 _ lo n (by decide) (by omega))
    · rfl

theorem State.bhSt_bhClock (s : State) (g : Nat) (v : DWord) : (s.bhClock g v).bhSt g = s.bhSt g :=
  (State.bhClock_winBits s g v 4 3 (by decide)).trans (State.bhSt_setBhFields s g v)

theorem State.bhBit_bhClock (s : State) (g i : Nat) (v : DWord) (h : i < 4) : (s.bhClock g v).bhBit g i = bit v i := by
  rw [State.bhBit, State.bhClock_winBits s g v i 1 (by omega), ← State.bhBit, State.bhBit_setBhFields s g i v h]

/-- A write that enables the clock of a powered bulkhead notes when. -/
theorem State.bhClock_started {s : State} {g : Nat} {v : DWord} (h : (bit v 0 && bit v 1) = true) (h1 : s.bhBit g 1 = false) :
    (s.bhClock g v).bhSince = s.bhSince.put (12 + g) s.now := by
  rw [State.bhClock, h, h1, Bool.and_false]
  rfl

/-- A write that keeps power and clock leaves the PLL as it is. -/
theorem State.bhClock_kept {s : State} {g : Nat} {v : DWord} (h : (bit v 0 && bit v 1) = true) (h0 : s.bhBit g 0 = true)
    (h1 : s.bhBit g 1 = true) : s.bhClock g v = s.setBhFields g v := by
  rw [State.bhClock, h, h0, h1]
  rfl

/-! ## A write of one field -/

/-- The word that a write of one field writes. -/
def State.bhWord (s : State) (g i : Nat) (b : Bool) : DWord := setBits (s.win' (oBHC g)) i 1 (b2n b)

theorem State.bit_bhWord (s : State) (g i j : Nat) (b : Bool) (h : i < 4) :
    bit (s.bhWord g i b) j = if j = i then b else s.bhBit g j := by
  rw [State.bhWord, bit_setBits_one _ i j b (by omega), State.bhBit_eq]

/-- Nothing holds a write of `BHC_g` back. -/
def State.bhFree (s : State) (g : Nat) : Prop := g < 12 ∧ s.hostUp = true ∧ s.dumps.contains g = false ∧ s.bhWait.find g = none

theorem State.writeBhBit_of_free {s : State} {g : Nat} (i : Nat) (b : Bool) (h : s.bhFree g) (h4 : s.bhSt g ≠ 4) :
    s.writeBhBit g i b = s.applyBhc g (s.bhWord g i b) := by
  obtain ⟨-, -, hd, hw⟩ := h
  have hl : s.bhLast g = s.win' (oBHC g) := by rw [State.bhLast, hw]; rfl
  rw [State.writeBhBit, State.writeBhc, hd, Bool.or_false, decide_eq_false h4, if_neg Bool.false_ne_true, hl, State.bhWord]

/-- An event that writes one field of `BHC_g`, from what the write does where nothing holds it back. -/
theorem happens_writeBhBit {x : Instr} {g i : Nat} {b : Bool} {ok : State → Prop} {eff : State → State → Prop}
    (hx : ∀ s, exec x s = event (s.bhReach g) s fun s => s.writeBhBit g i b) (hf : ∀ s, ok s → s.bhFree g ∧ s.bhSt g ≠ 4)
    (he : ∀ s, ok s → eff s (s.applyBhc g (s.bhWord g i b))) : Happens x ok eff := by
  refine happens_event (cond := fun s => s.bhReach g) (f := fun _ s => s.writeBhBit g i b) (fun s _ => hx s) ?_ ?_
  · intro s ho
    obtain ⟨⟨hg, hu, -, -⟩, -⟩ := hf s ho
    simp [State.bhReach, hg, hu]
  · intro s ho
    rw [State.writeBhBit_of_free i b (hf s ho).1 (hf s ho).2]
    exact he s ho

theorem happens_bulkheadPowerOn (g : Nat) : Happens (.bulkheadPowerOn g) (fun s => s.bhFree g ∧ s.bhSt g = 0)
    fun s t => t.bhSt g = 1 ∧ t.bhBit g 0 = true ∧ t.bhSince.find g = some s.now := by
  refine happens_writeBhBit (fun _ => rfl) (fun s h => ⟨h.1, by rw [h.2]; decide⟩) fun s ⟨_, hs⟩ => ?_
  have h0 : bit (s.bhWord g 0 true) 0 = true := by rw [State.bit_bhWord _ _ _ _ _ (by decide)]; rfl
  have e : s.applyBhc g (s.bhWord g 0 true) = (s.bhClock g (s.bhWord g 0 true)).setSt g 1 := by
    rw [State.applyBhc_eq, hs]; exact if_pos h0
  rw [e, State.bhSt_setSt, State.bhBit_setSt _ _ _ _ (by decide), State.bhBit_bhClock _ _ _ _ (by decide), State.bhSince_setSt,
    Tab.find_put_self, State.bhClock_now]
  exact ⟨rfl, h0, rfl⟩

theorem happens_bulkheadClockEnable (g : Nat) : Happens (.bulkheadClockEnable g)
    (fun s => s.bhFree g ∧ s.bhSt g = 2 ∧ s.bhBit g 0 = true ∧ s.bhBit g 1 = false ∧ s.bhBit g 2 = true)
    fun s t => t.bhBit g 1 = true ∧ t.bhSt g = 2 ∧ t.bhSince.find (12 + g) = some s.now := by
  refine happens_writeBhBit (fun _ => rfl) (fun s h => ⟨h.1, by rw [h.2.1]; decide⟩) fun s ⟨_, hs, h0, h1, h2⟩ => ?_
  have b : ∀ j, bit (s.bhWord g 1 true) j = if j = 1 then true else s.bhBit g j := fun j => State.bit_bhWord _ _ _ _ _ (by decide)
  have e : s.applyBhc g (s.bhWord g 1 true) = s.bhClock g (s.bhWord g 1 true) := by
    rw [State.applyBhc_eq, hs]; simp [b, h0, h2]
  rw [e, State.bhBit_bhClock _ _ _ _ (by decide), State.bhSt_bhClock, State.bhClock_started (by simp [b, h0]) h1, Tab.find_put_self]
  exact ⟨b 1, hs, rfl⟩

theorem happens_bulkheadResetRelease (g : Nat) : Happens (.bulkheadResetRelease g)
    (fun s => s.bhFree g ∧ s.bhSt g = 2 ∧ s.bhBit g 0 = true ∧ s.bhBit g 2 = true)
    fun s t => t.bhBit g 2 = false ∧ t.bhSt g = 2 ∧ t.bhSince.find g = some s.now := by
  refine happens_writeBhBit (fun _ => rfl) (fun s h => ⟨h.1, by rw [h.2.1]; decide⟩) fun s ⟨_, hs, h0, h2⟩ => ?_
  have b : ∀ j, bit (s.bhWord g 2 false) j = if j = 2 then false else s.bhBit g j := fun j => State.bit_bhWord _ _ _ _ _ (by decide)
  have e : s.applyBhc g (s.bhWord g 2 false) = (s.bhClock g (s.bhWord g 2 false)).setSt g 2 := by
    rw [State.applyBhc_eq, hs]; simp [b, h0, h2]
  rw [e, State.bhBit_setSt _ _ _ _ (by decide), State.bhBit_bhClock _ _ _ _ (by decide), State.bhSt_setSt, State.bhSince_setSt,
    Tab.find_put_self, State.bhClock_now]
  exact ⟨b 2, rfl, rfl⟩

/-- A write that takes power, asserts reset or closes the gate begins the drain of a running bulkhead, its fields as written. -/
theorem State.applyBhc_running {s : State} {g : Nat} {v : DWord} (hs : s.bhSt g = 3)
    (h : (!bit v 0 || bit v 2 || (bit v 3 && !s.bhBit g 3)) = true) :
    (s.applyBhc g v).bhSt g = 4 ∧ ∀ i, i < 4 → (s.applyBhc g v).bhBit g i = bit v i := by
  have e : s.applyBhc g v = (s.bhClock g v).setSt g 4 := by
    rw [State.applyBhc_eq, hs]; exact if_pos h
  rw [e]
  exact ⟨State.bhSt_setSt .., fun i hi => by rw [State.bhBit_setSt _ _ _ _ (.inl hi), State.bhBit_bhClock _ _ _ _ hi]⟩

/-- A write of one of the four fields that drains a running bulkhead. -/
theorem happens_drains {x : Instr} {g i : Nat} {b : Bool} {ok : State → Prop}
    (hx : ∀ s, exec x s = event (s.bhReach g) s fun s => s.writeBhBit g i b) (hi : i < 4)
    (hf : ∀ s, ok s → s.bhFree g ∧ s.bhSt g = 3)
    (ht : ∀ s, ok s → (!bit (s.bhWord g i b) 0 || bit (s.bhWord g i b) 2 || (bit (s.bhWord g i b) 3 && !s.bhBit g 3)) = true) :
    Happens x ok fun _ t => t.bhSt g = 4 ∧ t.bhBit g i = b := by
  refine happens_writeBhBit hx (fun s ho => ⟨(hf s ho).1, by rw [(hf s ho).2]; decide⟩) fun s ho => ?_
  obtain ⟨h4, hb⟩ := State.applyBhc_running (hf s ho).2 (ht s ho)
  exact ⟨h4, by rw [hb i hi, State.bit_bhWord _ _ _ _ _ hi, if_pos rfl]⟩

theorem happens_bulkheadGateOpen (g : Nat) : Happens (.bulkheadGateOpen g)
    (fun s => s.bhFree g ∧ s.bhSt g = 5 ∧ s.bhBit g 0 = true ∧ s.bhBit g 1 = true ∧ s.bhBit g 2 = false ∧ s.bhBit g 7 = true)
    fun _ t => t.bhSt g = 3 ∧ t.bhBit g 3 = false := by
  refine happens_writeBhBit (fun _ => rfl) (fun s h => ⟨h.1, by rw [h.2.1]; decide⟩) fun s ⟨_, hs, h0, h1, h2, h7⟩ => ?_
  have b : ∀ j, bit (s.bhWord g 3 false) j = if j = 3 then false else s.bhBit g j := fun j => State.bit_bhWord _ _ _ _ _ (by decide)
  have k : s.bhClock g (s.bhWord g 3 false) = s.setBhFields g (s.bhWord g 3 false) := State.bhClock_kept (by simp [b, h0, h1]) h0 h1
  have e : s.applyBhc g (s.bhWord g 3 false) = (s.setBhFields g (s.bhWord g 3 false)).setSt g 3 := by
    rw [State.applyBhc_eq, hs, k]; simp [b, h0, h2, h7, State.bhBit_setBhFields_lock]
  rw [e, State.bhSt_setSt, State.bhBit_setSt _ _ _ _ (by decide), State.bhBit_setBhFields _ _ _ _ (by decide)]
  exact ⟨rfl, b 3⟩

/-! ## What the hardware answers -/

theorem happens_pllLock (g : Nat) : Happens (.pllLock g)
    (fun s => s.pllOn g = true ∧ s.now ≤ (s.bhSince.find (12 + g)).getD 0 + 100000) fun _ t => t.bhBit g 7 = true := by
  refine happens_cond (execPllLock g) rfl (fun _ => rfl) (by rintro s ⟨h, k⟩; simp [h, k]) fun s _ => ?_
  have h7 : (({ s with bhSince := s.bhSince.del (12 + g) } : State).setWinBits (oBHC g) 7 1 1).bhBit g 7 = true := by
    rw [State.bhBit, State.winBits_setWinBits _ _ _ _ _ (by decide)]; rfl
  dsimp only
  split
  · rw [State.bhBit_setSt _ _ _ _ (by decide)]; exact h7
  · exact h7

theorem happens_bulkheadInitDone (g : Nat) : Happens (.bulkheadInitDone g) (fun s => s.canInit g = true)
    fun s t => t.bhSt g = 3 ∧ ∀ c ∈ bhCores g, t.core c = { ticks := s.now / 256 } := by
  refine happens_cond (execBulkheadInitDone g) rfl (fun _ => rfl) (fun _ h => h) fun s _ => ?_
  rw [State.bhSt_setSt]
  refine ⟨rfl, fun c hc => ?_⟩
  rw [State.core_setSt, State.core_foldl_modCore (f := fun s _ => { ticks := s.now / 256 }) (fun _ _ _ => rfl) (fun _ _ => rfl), if_pos hc]

theorem State.releaseBhc_of_none {s : State} {g : Nat} (h : s.bhWait.find g = none) : s.releaseBhc g = s := by
  rw [State.releaseBhc, h]

theorem happens_bulkheadDrainDone (g : Nat) : Happens (.bulkheadDrainDone g)
    (fun s => g < 12 ∧ s.canDrain g = true ∧ s.bhBit g 0 = true ∧ s.bhBit g 2 = false ∧
      ((s.setSt g 5).bhRec g).bhWait.find g = none)
    fun s t => t = (s.setSt g 5).bhRec g := by
  refine happens_cond (execBulkheadDrainDone g) rfl (fun _ => rfl) ?_ ?_
  · rintro s ⟨hg, hd, -⟩
    simp [hg, hd]
  · rintro s ⟨-, -, h0, h2, hw⟩
    have e : s.drained g = ((s.setSt g 5).bhRec g).releaseBhc g := by
      simp only [State.drained, h0, h2, Bool.not_true, Bool.false_eq_true, if_false]
    rw [e, State.releaseBhc_of_none hw]

theorem happens_gateDrainTimeout (g : Nat) (e : Ev) : Happens (.gateDrainTimeout g)
    (fun s => s.canGateTimeout g = true ∧ s.messages.filter (s.crossLate g) = [e]) fun s t => t = s.failCrossing e := by
  refine happens_cond (execGateDrainTimeout g) rfl (fun _ => rfl) (fun _ h => h.1) ?_
  rintro s ⟨-, he⟩
  rw [he]
  rfl

/-! ## Fatal errors, dumps, trims -/

/-- A bulkhead that stands and is not being dumped. -/
def State.canFail (s : State) (g : Nat) : Prop := g < 12 ∧ s.dumps.contains g = false ∧ (s.bhSt g = 3 ∨ s.bhSt g = 4 ∨ s.bhSt g = 5)

/-- A fatal error of such a bulkhead is not the first branch of `fatal`. -/
theorem State.fatal_of_canFail {s : State} {g : Nat} (h : s.canFail g) : s.fatal g =
    if s.winBits oDMB 27 21 = 0 then ((((s.setSt g 5).bhRec g).setWinBits (oBHC g) 2 1 1).enterReset g 2).releaseBhc g
    else { (s.setSt g 5).bhRec g with dumps := s.dumps ++ [g] } := by
  obtain ⟨-, hd, hs⟩ := h
  have hs' : (!(decide (s.bhSt g = 3) || decide (s.bhSt g = 4) || decide (s.bhSt g = 5))) = false := by
    rcases hs with e | e | e <;> rw [e] <;> rfl
  rw [State.fatal, hd, Bool.false_or, hs', if_neg Bool.false_ne_true]

theorem happens_bulkheadFatalError {g : Nat} {ok : State → Prop} {eff : State → State → Prop}
    (he : ∀ s, s.canFail g → ok s → eff s (s.fatal g)) : Happens (.bulkheadFatalError g) (fun s => s.canFail g ∧ ok s) eff :=
  happens_cond (execBulkheadFatalError g) rfl (fun _ => rfl) (fun _ h => decide_eq_true h.1.1) fun s h => he s h.1 h.2

theorem performs_stateDumpDone (g : Nat) (r : List Nat) : Performs (.stateDumpDone g)
    (fun s => s.dumps = g :: r ∧ s.winBits oDMB 27 21 = 0)
    fun s => ((({ s with dumps := r } : State).setWinBits (oBHC g) 2 1 1).enterReset g 2).releaseBhc g := by
  refine performs_memEvent (cond := fun s => s.dumps.head? == some g) (fun _ _ => rfl) ?_ ?_
  · rintro s ⟨hd, -⟩
    simp [hd]
  · rintro s ⟨hd, hb⟩
    dsimp only
    rw [if_pos (by simp [hb]), hd]
    rfl

theorem happens_trimStart (g : Nat) : Happens (.trimStart g) (fun s => g < 12 ∧ s.slateUp = true)
    fun s t => t.winBits (oTRM g) 1 1 = 1 ∧ t = { s with win := t.win } := by
  refine happens_cond (execTrimStart g) rfl (fun _ => rfl) (fun _ h => h.2) fun s h => ?_
  have e : s.writeTrm g true = s.setWinBits (oTRM g) 1 1 1 := if_pos (by simp [h.1])
  rw [e]
  exact ⟨State.winBits_setWinBits _ _ _ _ _ (by decide), rfl⟩

theorem happens_trimDone (g : Nat) : Happens (.trimDone g) (fun s => s.canTrim g = true) fun s t => t.winBits (oTRM g) 1 1 = 0 ∧
    (∀ c ∈ bhCores g, (t.core c).mon = { (s.core c).mon with lockout := false }) ∧ t = { s with win := t.win, cores := t.cores } := by
  refine happens_cond (execTrimDone g) rfl (fun _ => rfl) (fun _ h => h) fun s _ => ?_
  refine ⟨?_, fun c hc => ?_, State.foldl_modCore_frame _ _ rfl⟩
  · refine (State.winBits_of_win (foldl_keeps State.win _ ?_ _ _) _ _ _).trans (State.winBits_setWinBits s _ _ _ _ (by decide))
    exact fun _ _ => rfl
  · rw [State.core_foldl_modCore (f := fun _ k => { k with mon := { k.mon with lockout := false } }) (fun _ _ _ => rfl) (fun _ _ => rfl),
      if_pos hc]
    rfl

/-- Settles O59: a write of one field of `BHC_g` by its two halves, the other events by what each does to the fields. -/
theorem bulkheadEvents : Obligations.BulkheadEvents := by
  unfold Obligations.BulkheadEvents
  intro g
  refine ⟨happens_bulkheadPowerOn g, ?railGood, ?railTimeout, happens_bulkheadClockEnable g, happens_pllLock g,
    ?pllTimeout, happens_bulkheadResetRelease g, happens_bulkheadInitDone g, ?resetAssert, ?gateClose, ?powerOff,
    happens_bulkheadGateOpen g, happens_bulkheadDrainDone g, happens_gateDrainTimeout g, ⟨?fatalDump, ?fatalReset⟩,
    performs_stateDumpDone g, happens_trimStart g, happens_trimDone g⟩
  case railGood =>
    exact happens_cond (execBulkheadRailGood g) rfl (fun _ => rfl) (by rintro s ⟨h, k⟩; simp [h, k]) fun s _ => State.bhSt_setSt s g 2
  case railTimeout =>
    exact happens_cond (execBulkheadRailTimeout g) rfl (fun _ => rfl) (by rintro s ⟨h, k⟩; simp [h, k]) fun _ _ => rfl
  case pllTimeout =>
    exact happens_cond (execPllLockTimeout g) rfl (fun _ => rfl) (by rintro s ⟨h, k⟩; simp [h, k]) fun _ _ => rfl
  case resetAssert =>
    refine happens_drains (fun _ => rfl) (by decide) (fun s h => ⟨h.1, h.2.1⟩) fun s _ => ?_
    rw [State.bit_bhWord _ _ _ 2 _ (by decide), if_pos rfl]
    simp
  case gateClose =>
    refine happens_drains (fun _ => rfl) (by decide) (fun s h => ⟨h.1, h.2.1⟩) fun s ⟨_, _, _, h3⟩ => ?_
    rw [State.bit_bhWord _ _ _ 3 _ (by decide), if_pos rfl, h3]
    simp
  case powerOff =>
    refine happens_drains (fun _ => rfl) (by decide) (fun _ h => h) fun s _ => ?_
    rw [State.bit_bhWord _ _ _ 0 _ (by decide), if_pos rfl]
    rfl
  case fatalDump =>
    exact happens_bulkheadFatalError fun s hf hb => by rw [State.fatal_of_canFail hf, if_neg hb]
  case fatalReset =>
    exact happens_bulkheadFatalError fun s hf hb => by rw [State.fatal_of_canFail hf, if_pos hb]

end Sys2Proof.Machine
end

section
/-! SUPPORT. What the events of the manager and of the Slate controller do: partitions (R14, R17), windows (R20, R22), home maps (R19),
functions (R24), keys (R468), breakpoints (R382), codes, retirement and soft errors (R421, R426, R428), O60. -/

set_option Elab.async false

namespace Sys2Proof.Machine

/-! ## Registers -/

/-- A bit of a register as a field of one bit. -/
theorem State.bit_win' (s : State) (o i : Nat) : bit (s.win' o) i = (s.winBits o i 1 == 1) := by
  rw [Bool.eq_iff_iff, bit_bits, beq_iff_eq, State.winBits]

/-- The partition's en is a field of its register. -/
theorem State.partEn_iff {s : State} {n : Nat} (h : n < 12) : s.partEn n = true ↔ s.winBits (oPART n) 12 1 = 1 := by
  simp [State.partEn, h]

theorem State.partEn_of_winBits {s t : State} {n : Nat} (h : t.winBits (oPART n) 12 1 = s.winBits (oPART n) 12 1) :
    t.partEn n = s.partEn n := by
  rw [State.partEn, State.partEn, h]

/-- A field written alike in the registers of a list. -/
theorem State.winBits_foldl_setWinBits (o : Nat → Nat) (lo k v : Nat) (h : lo + k ≤ 64) (x : Nat) : ∀ (l : List Nat) (s : State),
    (x ∈ l ∨ s.winBits (o x) lo k = v % 2 ^ k) → (l.foldl (fun s g => s.setWinBits (o g) lo k v) s).winBits (o x) lo k = v % 2 ^ k
  | [], s, hx => hx.resolve_left (by simp)
  | y :: r, s, hx => by
    refine State.winBits_foldl_setWinBits o lo k v h x r _ ?_
    by_cases e : o x = o y
    · exact .inr (by rw [e, State.winBits_setWinBits _ _ _ _ _ h])
    · rw [State.winBits_setWinBits_other _ _ _ _ _ _ _ _ e]
      exact hx.imp_left fun m => (List.mem_cons.mp m).resolve_left fun exy => e (congrArg o exy)

/-! ## What stands beside the registers -/

/-- A further write of a register changes registers alone. -/
theorem State.setWin_frame {s u : State} (h : u = { s with win := u.win }) (o : Nat) (x : DWord) :
    u.setWin o x = { s with win := (u.setWin o x).win } := by
  generalize u.win = y at h
  subst h
  rfl

theorem State.setWinBits_frame {s u : State} (h : u = { s with win := u.win }) (o lo n v : Nat) :
    u.setWinBits o lo n v = { s with win := (u.setWinBits o lo n v).win } := State.setWin_frame h o _

/-- A change of another field after one of registers. -/
theorem State.winDrain_frame {s u t : State} (h : u = { s with win := u.win }) (k : t = { u with winDrain := t.winDrain }) :
    t = { s with win := t.win, winDrain := t.winDrain } := by
  generalize t.winDrain = d at k ⊢
  subst k
  generalize u.win = y at h
  subst h
  rfl

theorem State.lgs_frame {s u t : State} (h : u = { s with win := u.win }) (k : t = { u with lgs := t.lgs }) :
    t = { s with win := t.win, lgs := t.lgs } := by
  generalize t.lgs = d at k ⊢
  subst k
  generalize u.win = y at h
  subst h
  rfl

theorem State.dir_frame {s u t : State} (h : u = { s with dir := u.dir }) (k : t = { u with win := t.win }) :
    t = { s with win := t.win, dir := t.dir } := by
  generalize t.win = d at k ⊢
  subst k
  generalize u.dir = y at h
  subst h
  rfl

theorem State.part_setWin (s : State) (o : Nat) (x : DWord) (n : Nat) : (s.setWin o x).part n = s.part n := rfl
theorem State.part_setWinBits (s : State) (o lo k v n : Nat) : (s.setWinBits o lo k v).part n = s.part n := rfl

/-! ## Partitions -/

/-- `PART_n` with the mask and the group timeout of a write. -/
def State.partFields (s : State) (n : Nat) (v : DWord) : State :=
  (s.setWinBits (oPART n) 0 12 (bits v 0 12)).setWinBits (oPART n) 16 8 (bits v 16 8)

theorem State.partFields_en (s : State) (n : Nat) (v : DWord) : (s.partFields n v).winBits (oPART n) 12 1 = s.winBits (oPART n) 12 1 := by
  simp [State.partFields]

/-- A write that sets en of a partition that is not enabled. -/
theorem State.writePart_off {s : State} {n : Nat} {v : DWord} (hn : n < 12) (he : s.partEn n = false) (hv : bit v 12 = true) :
    s.writePart n v =
      if s.partOk n v then
        (bhsOf (bits v 0 12)).foldl (fun s g => s.setWinBits (oBHC g) 16 4 n)
          (((s.partFields n v).setWinBits (oPART n) 12 2 1).modPart n fun _ => {})
      else (s.partFields n v).setWinBits (oPART n) 13 1 1 := by
  rw [State.writePart, if_neg (by omega), he, if_neg Bool.false_ne_true, hv]
  cases s.partOk n v <;> rfl

/-- A write to an enabled partition that no teardown has begun. -/
theorem State.writePart_on {s : State} {n : Nat} {v : DWord} (hn : n < 12) (he : s.partEn n = true) (ht : (s.part n).teardown = none) :
    s.writePart n v =
      if bit v 12 then s.setWinBits (oPART n) 16 8 (bits v 16 8) else (s.setWinBits (oPART n) 16 8 (bits v 16 8)).beginTeardown n := by
  rw [State.writePart, if_neg (by omega), he, if_pos rfl]
  cases h : bit v 12 <;> simp [ht, State.part_setWinBits]

theorem happens_partitionEnable (n : Nat) (v : BitVec 64) : Happens (.partitionEnable n v)
    (fun s => s.hostUp = true ∧ v.getLsbD 12 = true ∧ n < 12 ∧ s.partEn n = false ∧ s.partOk n v = true)
    (fun _ t => t.partEn n = true ∧ ∀ g ∈ bhsOf (bits v 0 12), t.winBits (oBHC g) 16 4 = n) := by
  refine happens_cond (execPartitionEnable n v) rfl (fun _ => rfl) (fun s h => by simp [bit, h]) fun s ⟨_, hv, hn, he, ho⟩ => ?_
  rw [State.writePart_off hn he hv, if_pos ho, State.partEn_iff hn]
  constructor
  · refine (foldl_keeps (fun s => s.winBits (oPART n) 12 1) _ (fun s g => ?_) _ _).trans ?_
    · exact State.winBits_setWinBits_apart s _ 16 4 n _ 12 1 (by decide) (by decide)
    · exact (State.winBits_of_win (State.modPart_win ..) _ _ _).trans
        (State.winBits_setWinBits_part _ (oPART n) (by decide) (by decide) (by decide) (by decide))
  · intro g hg
    rw [State.winBits_foldl_setWinBits oBHC 16 4 n (by decide) g _ _ (.inl hg), Nat.mod_eq_of_lt (by omega)]

theorem happens_partitionEnable_refused (n : Nat) (v : BitVec 64) : Happens (.partitionEnable n v)
    (fun s => s.hostUp = true ∧ v.getLsbD 12 = true ∧ n < 12 ∧ s.partEn n = false ∧ s.partOk n v = false)
    (fun _ t => t.partEn n = false ∧ t.winBits (oPART n) 13 1 = 1) := by
  refine happens_cond (execPartitionEnable n v) rfl (fun _ => rfl) (fun s h => by simp [bit, h]) fun s ⟨_, hv, hn, he, ho⟩ => ?_
  rw [State.writePart_off hn he hv, ho, if_neg Bool.false_ne_true, State.winBits_setWinBits _ _ _ _ _ (by decide)]
  refine ⟨(State.partEn_of_winBits ?_).trans he, rfl⟩
  rw [State.winBits_setWinBits_apart _ _ _ _ _ _ _ _ (by decide) (by decide), State.partFields_en]

theorem happens_partitionTeardown (n : Nat) : Happens (.partitionTeardown n)
    (fun s => s.hostUp = true ∧ n < 12 ∧ s.partEn n = true ∧ (s.part n).teardown = none)
    (fun s t => t = (s.setWinBits (oPART n) 16 8 (bits (setBits (s.win' (oPART n)) 12 1 0) 16 8)).beginTeardown n) := by
  refine happens_cond (execPartitionTeardown n) rfl (fun _ => rfl) (fun s h => h.1) fun s ⟨_, hn, he, ht⟩ => ?_
  have hv : bit (setBits (s.win' (oPART n)) 12 1 0) 12 = false := bit_setBits_one _ 12 12 false (by decide)
  rw [State.writePart_on hn he ht, hv, if_neg Bool.false_ne_true]

theorem happens_partitionEnable_kept (n : Nat) (v : BitVec 64) : Happens (.partitionEnable n v)
    (fun s => s.hostUp = true ∧ v.getLsbD 12 = true ∧ n < 12 ∧ s.partEn n = true ∧ (s.part n).teardown = none)
    (fun s t => t = s.setWinBits (oPART n) 16 8 (bits v 16 8)) := by
  refine happens_cond (execPartitionEnable n v) rfl (fun _ => rfl) (fun s h => by simp [bit, h]) fun s ⟨_, hv, hn, he, ht⟩ => ?_
  rw [State.writePart_on hn he ht]
  exact if_pos hv

theorem happens_teardownDone (n : Nat) : Happens (.teardownDone n) (fun s => n < 12 ∧ s.canTeardown n = true)
    (fun s t => t = s.endTeardown n ∧ t.partEn n = false) := by
  refine happens_cond (execTeardownDone n) rfl (fun _ => rfl) (fun s h => by simp [h]) fun s ⟨hn, _⟩ => ⟨rfl, ?_⟩
  have h0 : (s.endTeardown n).winBits (oPART n) 12 1 = 0 := State.winBits_setWinBits _ _ 12 1 0 (by decide)
  rw [State.partEn, h0, Bool.and_eq_false_iff]
  exact .inr rfl

/-! ## Windows -/

/-- The two words of a window as a write gives them, not enabled. -/
def State.winWords (s : State) (w : Nat) (a b : DWord) : State := (s.setWin (oWIN w) (a &&& 0xFFF)).setWin (oWIN w + 8) b

/-- A write that sets en of a window that is not enabled. -/
theorem State.writeWin_off {s : State} {w : Nat} {a b : DWord} (hw : w < 32) (he : s.winBits (oWIN w) 12 1 = 0) (ha : bit a 12 = true) :
    s.writeWin w a b =
      if s.windowOk a b then
        if (s.part (bits a 0 4)).teardown.isSome || (s.part (bits a 4 4)).teardown.isSome then
          ((s.winWords w a b).setWinBits (oWIN w) 12 2 1).disableWin w
        else (s.winWords w a b).setWinBits (oWIN w) 12 2 1
      else (s.winWords w a b).setWinBits (oWIN w) 12 2 2 := by
  rw [State.writeWin, if_neg (by omega), he, if_neg (by decide), ha]
  cases h : s.windowOk a b <;> simp [State.winWords, State.part_setWin, State.part_setWinBits]

theorem State.winWords_frame (s : State) (w v : Nat) (a b : DWord) : (s.winWords w a b).setWinBits (oWIN w) 12 2 v =
    { s with win := ((s.winWords w a b).setWinBits (oWIN w) 12 2 v).win } :=
  State.setWinBits_frame (State.setWin_frame (State.setWin_frame rfl ..) ..) ..

/-- What that write leaves in en and err. -/
theorem State.winWords_en (s : State) (w : Nat) (a b : DWord) :
    ((s.winWords w a b).setWinBits (oWIN w) 12 2 1).winBits (oWIN w) 12 1 = 1 ∧
    ((s.winWords w a b).setWinBits (oWIN w) 12 2 1).winBits (oWIN w) 13 1 = 0 :=
  ⟨State.winBits_setWinBits_part _ _ (by decide) (by decide) (by decide) (by decide),
   State.winBits_setWinBits_part _ _ (by decide) (by decide) (by decide) (by decide)⟩

theorem State.winWords_err (s : State) (w : Nat) (a b : DWord) :
    ((s.winWords w a b).setWinBits (oWIN w) 12 2 2).winBits (oWIN w) 12 1 = 0 ∧
    ((s.winWords w a b).setWinBits (oWIN w) 12 2 2).winBits (oWIN w) 13 1 = 1 :=
  ⟨State.winBits_setWinBits_part _ _ (by decide) (by decide) (by decide) (by decide),
   State.winBits_setWinBits_part _ _ (by decide) (by decide) (by decide) (by decide)⟩

/-- A window that is disabled begins its drain; its registers stand. -/
theorem State.disableWin_drains (s : State) (w : Nat) :
    ((s.disableWin w).winDrain.find w).isSome = true ∧ (s.disableWin w).win = s.win ∧
      s.disableWin w = { s with winDrain := (s.disableWin w).winDrain } := by
  unfold State.disableWin
  split
  · next h => exact ⟨h, rfl, rfl⟩
  · exact ⟨by rw [Tab.find_put_self]; rfl, rfl, rfl⟩

theorem happens_windowEnable (w : Nat) (a b : BitVec 64) : Happens (.windowEnable w a b)
    (fun s => s.hostUp = true ∧ a.getLsbD 12 = true ∧ w < 32 ∧ s.winBits (oWIN w) 12 1 = 0 ∧ s.windowOk a b = true ∧
      (s.part (bits a 0 4)).teardown = none ∧ (s.part (bits a 4 4)).teardown = none)
    (fun s t => t.winBits (oWIN w) 12 1 = 1 ∧ t.winBits (oWIN w) 13 1 = 0 ∧ t.win' (oWIN w + 8) = b ∧
      t = { s with win := t.win }) := by
  refine happens_cond (execWindowEnable w a b) rfl (fun _ => rfl) (fun s h => by simp [bit, h]) fun s ⟨_, ha, hw, he, ho, h1, h2⟩ => ?_
  rw [State.writeWin_off hw he ha, if_pos ho, h1, h2, if_neg (by decide)]
  obtain ⟨hen, herr⟩ := s.winWords_en w a b
  refine ⟨hen, herr, ?_, s.winWords_frame w 1 a b⟩
  rw [State.win'_setWinBits, if_neg (by omega), State.winWords, State.win'_setWin, if_pos rfl]

theorem happens_windowEnable_draining (w : Nat) (a b : BitVec 64) : Happens (.windowEnable w a b)
    (fun s => s.hostUp = true ∧ a.getLsbD 12 = true ∧ w < 32 ∧ s.winBits (oWIN w) 12 1 = 0 ∧ s.windowOk a b = true ∧
      ((s.part (bits a 0 4)).teardown.isSome = true ∨ (s.part (bits a 4 4)).teardown.isSome = true))
    (fun s t => t.winBits (oWIN w) 12 1 = 1 ∧ (t.winDrain.find w).isSome = true ∧
      t = { s with win := t.win, winDrain := t.winDrain }) := by
  refine happens_cond (execWindowEnable w a b) rfl (fun _ => rfl) (fun s h => by simp [bit, h]) fun s ⟨_, ha, hw, he, ho, ht⟩ => ?_
  rw [State.writeWin_off hw he ha, if_pos ho, if_pos (Bool.or_eq_true_iff.mpr ht)]
  obtain ⟨hd, hwin, hr⟩ := ((s.winWords w a b).setWinBits (oWIN w) 12 2 1).disableWin_drains w
  exact ⟨(State.winBits_of_win hwin _ _ _).trans (s.winWords_en w a b).1, hd, State.winDrain_frame (s.winWords_frame w 1 a b) hr⟩

theorem happens_windowEnable_refused (w : Nat) (a b : BitVec 64) : Happens (.windowEnable w a b)
    (fun s => s.hostUp = true ∧ a.getLsbD 12 = true ∧ w < 32 ∧ s.winBits (oWIN w) 12 1 = 0 ∧ s.windowOk a b = false)
    (fun s t => t.winBits (oWIN w) 12 1 = 0 ∧ t.winBits (oWIN w) 13 1 = 1 ∧ t = { s with win := t.win }) := by
  refine happens_cond (execWindowEnable w a b) rfl (fun _ => rfl) (fun s h => by simp [bit, h]) fun s ⟨_, ha, hw, he, ho⟩ => ?_
  rw [State.writeWin_off hw he ha, ho, if_neg Bool.false_ne_true]
  obtain ⟨hen, herr⟩ := s.winWords_err w a b
  exact ⟨hen, herr, s.winWords_frame w 2 a b⟩

theorem happens_windowDisable (w : Nat) : Happens (.windowDisable w)
    (fun s => s.hostUp = true ∧ w < 32 ∧ s.winBits (oWIN w) 12 1 = 1 ∧ s.winDrain.find w = none)
    (fun s t => t.winDrain.find w = some s.now ∧ t = { s with winDrain := t.winDrain }) := by
  refine happens_cond (execWindowDisable w) rfl (fun _ => rfl) (fun s h => by simp [h]) fun s ⟨_, hw, he, hd⟩ => ?_
  have hv : bit (setBits (s.win' (oWIN w)) 12 1 0) 12 = false := bit_setBits_one _ 12 12 false (by decide)
  have e : s.disableWin w = { s with winDrain := s.winDrain.put w s.now } := if_neg (by rw [hd]; decide)
  rw [State.writeWin, if_neg (by omega), if_pos he, hv, if_neg Bool.false_ne_true, e]
  exact ⟨Tab.find_put_self .., rfl⟩

theorem happens_windowDrainDone (w : Nat) : Happens (.windowDrainDone w) (fun s => s.canCloseWin w = true)
    (fun s t => t.winBits (oWIN w) 12 1 = 0 ∧
      (s.underWindow w = false → t = { s with win := t.win, winDrain := s.winDrain.del w })) := by
  refine happens_cond (execWindowDrainDone w) rfl (fun _ => rfl) (fun s h => h) fun s _ => ⟨?_, fun hu => ?_⟩
  · refine (State.winBits_of_win (s := (if s.underWindow w then s.failUnder w else s).setWinBits (oWIN w) 12 1 0) ?_ _ _ _).trans
      (State.winBits_setWinBits _ _ 12 1 0 (by decide))
    rfl
  · dsimp only
    rw [hu, if_neg Bool.false_ne_true]
    exact State.winDrain_frame (State.setWinBits_frame rfl (oWIN w) 12 1 0) rfl

/-! ## Home maps -/

/-- Entries of the home map written one after the other. -/
theorem State.hmap_foldl_setD (r : Nat) (x : Nat → BitVec 4) (s : State) : ∀ (k i : Nat), i < k →
    Tab.getD ((List.range k).foldl (fun (s : State) i => { s with hmap := s.hmap.setD 0xF (r + i) (x i) }) s).hmap 0xF (r + i) = x i
  | k + 1, i, h => by
    rw [List.range_succ, List.foldl_append, List.foldl_cons, List.foldl_nil, Tab.getD_setD]
    by_cases e : i = k
    · rw [e, if_pos rfl]
    · rw [if_neg (by omega)]
      exact State.hmap_foldl_setD r x s k i (by omega)

theorem State.stepMap_hmap (s : State) : s.stepMap.hmap = s.hmap := by
  unfold State.stepMap
  split <;> rfl

theorem happens_homeMapWrite (v : BitVec 64) (r : Nat) : Happens (.homeMapWrite v) (fun s => s.hostUp = true ∧ s.mapWord = some r)
    (fun _ t => ∀ i, i < 16 → Tab.getD t.hmap 0xF (r + i) = BitVec.ofNat 4 (bits v (4 * i) 4)) := by
  refine happens_cond (execHomeMapWrite v) rfl (fun _ => rfl) (fun s h => h.1) fun s ⟨_, hm⟩ i hi => ?_
  rw [State.writeMap, hm, State.stepMap_hmap]
  exact State.hmap_foldl_setD r (fun i => BitVec.ofNat 4 (bits v (4 * i) 4)) s 16 i hi

theorem happens_homeMapReadInc : Happens .homeMapReadInc (fun s => s.hostUp = true ∧ s.winBits oHMX 3 1 = 1)
    (fun s t => t.winBits oHMX 4 20 = (s.winBits oHMX 4 20 + 1) % 2 ^ 20 ∧ t = { s with win := t.win, hostGot := some s.readMap }) := by
  refine happens_cond execHomeMapReadInc rfl (fun _ => rfl) (fun s h => h.1) fun s ⟨_, hi⟩ => ?_
  rw [State.stepMap, if_pos hi]
  refine ⟨(State.winBits_of_win (s := s.setWinBits oHMX 4 20 (s.winBits oHMX 4 20 + 1)) rfl _ _ _).trans ?_, rfl⟩
  exact State.winBits_setWinBits _ _ _ _ _ (by decide)

/-! ## Functions and keys -/

/-- Fields of a register that a masked write reaches. -/
theorem bits_and_mask (v : DWord) (n : Nat) (m : DWord) (h : m.toNat % 2 ^ n = 2 ^ n - 1) : bits (v &&& m) 0 n = bits v 0 n := by
  rw [bits_eq, bits_eq, BitVec.toNat_and, pow_zero, Nat.div_one, Nat.div_one, Nat.and_mod_two_pow, h, Nat.and_two_pow_sub_one_eq_mod,
    Nat.mod_mod]

theorem happens_vfEnable (f : Nat) (v : BitVec 32) : Happens (.vfEnable f v)
    (fun s => s.hostUp = true ∧ v.getLsbD 4 = true ∧ f < 1024 ∧ s.partEn (bits v 0 4) = true)
    (fun s t => t.vfEn f = true ∧ t.vfPart f = bits v 0 4 ∧ t = { s with win := t.win }) := by
  refine happens_cond (execVfEnable f v) rfl (fun _ => rfl) (fun s h => by simp [bit, h]) fun s ⟨_, hv, hf, hp⟩ => ?_
  have hb : bit (v.setWidth 64) 4 = true := by simp [bit, hv]
  have hw : bits (v.setWidth 64) 0 4 = bits v 0 4 := by simp [bits]
  have hp' : (s.setWin (oVFM f) (v.setWidth 64 &&& 0x6F)).partEn (bits v 0 4) = true := by
    have hn : bits v 0 4 < 12 := by
      by_contra hn
      simp [State.partEn, hn] at hp
    refine (State.partEn_of_winBits ?_).trans hp
    rw [State.winBits, State.win'_setWin, if_neg (by unfold oPART oVFM; omega), State.winBits]
  have e : s.writeVfm f (v.setWidth 64) = (s.setWin (oVFM f) (v.setWidth 64 &&& 0x6F)).setWinBits (oVFM f) 4 1 1 := by
    rw [State.writeVfm, if_neg (by omega), hb, hw]
    exact if_pos (by rw [hp']; rfl)
  rw [e, State.vfEn, State.vfPart, State.winBits_setWinBits _ _ _ _ _ (by decide),
    State.winBits_setWinBits_apart _ _ _ _ _ _ _ _ (by decide) (by decide)]
  refine ⟨rfl, ?_, State.setWinBits_frame (State.setWin_frame rfl ..) ..⟩
  rw [State.winBits, State.win'_setWin, if_pos rfl, bits_and_mask _ _ _ (by decide), hw]

theorem happens_keyTableWrite (k : Nat) (v : BitVec 64) : Happens (.keyTableWrite k v)
    (fun s => s.hostUp = true ∧ 0 < k ∧ k < 8192 ∧ s.winBits (oKEY k) 11 1 = 0)
    (fun s t => t.win' (oKEY k) = BitVec.ofNat 64 (bits v 0 11) ∧ t = { s with win := t.win }) := by
  refine happens_cond (execKeyTableWrite k v) rfl (fun _ => rfl) (fun s h => h.1) fun s ⟨_, h0, hk, hl⟩ => ?_
  have hb : bit (s.win' (oKEY k)) 11 = false := by rw [State.bit_win', hl]; rfl
  have e : s.writeKey k v = s.setWin (oKEY k) (BitVec.ofNat 64 (bits v 0 11)) := by
    have hg : (decide (k = 0) || decide (8192 ≤ k)) = false := by simp; omega
    simp only [State.writeKey, hg, hb, Bool.false_and, Bool.and_false, Bool.false_eq_true, if_false, b2n, Nat.zero_mul, Nat.add_zero]
  rw [e, State.win'_setWin, if_pos rfl]
  exact ⟨rfl, rfl⟩

theorem happens_keyLoad (k : Nat) : Happens (.keyLoad k)
    (fun s => s.slateUp = true ∧ 0 < k ∧ k < 8192 ∧ s.winBits (oKEY k) 10 1 = 1 ∧ s.winBits (oKEY k) 11 1 = 0)
    (fun s t => t.winBits (oKEY k) 11 1 = 1 ∧ t.winBits (oKEY k) 0 11 = s.winBits (oKEY k) 0 11 ∧ t = { s with win := t.win }) := by
  refine happens_cond (execKeyLoad k) rfl (fun _ => rfl) (fun s h => by simp [h]) fun s ⟨_, _, _, _, hl⟩ => ?_
  rw [hl, if_neg (by decide), State.winBits_setWinBits _ _ _ _ _ (by decide),
    State.winBits_setWinBits_apart _ _ _ _ _ _ _ _ (by decide) (by decide)]
  exact ⟨rfl, rfl, State.setWinBits_frame rfl ..⟩

/-! ## Breakpoints -/

/-- The lane groups do not see a write of a register. -/
theorem State.bkptAt_setWin (s : State) (o : Nat) (x v : DWord) : (s.setWin o x).bkptAt v = s.bkptAt v := rfl

/-- A lane group of a workgroup that is on its core becomes ready, and nothing else changes. -/
theorem State.makeReady_present {s : State} {g : Nat} {l : Lg} (h : s.lgs.find g = some l) (ha : s.absent l.wg = false) :
    s.makeReady g = { s with lgs := s.lgs.put g { l with status := .ready, parkAt := s.now, aged := false } } := by
  have hm : s.modLg g (fun l => { l with status := .ready, parkAt := s.now, aged := false }) =
      { s with lgs := s.lgs.put g { l with status := .ready, parkAt := s.now, aged := false } } := by
    rw [State.modLg, Tab.modify_of_find _ h]
  have ha' : (s.modLg g fun l => { l with status := .ready, parkAt := s.now, aged := false }).absent l.wg = false := ha
  rw [State.makeReady, h]
  dsimp only
  rw [ha', if_neg Bool.false_ne_true, hm]

/-- A write of `DBR` with go: the lane group that it names goes on. -/
theorem State.writeDbr_go {s : State} {v : DWord} {g : Nat} {l : Lg} (hv : bit v 17 = true) (hg : s.bkptAt v = some g)
    (hl : s.lgs.find g = some l) (ha : s.absent l.wg = false) : s.writeDbr v =
      { s.setWin oDBR (v &&& 0x1FFFF) with
        lgs := (s.lgs.put g { l with pc := l.resume, run := none }).put g
          { l with pc := l.resume, run := none, status := .ready, parkAt := s.now, aged := false } } := by
  have hm : (s.setWin oDBR (v &&& 0x1FFFF)).modLg g (fun l => { l with pc := l.resume, run := none }) =
      { s.setWin oDBR (v &&& 0x1FFFF) with lgs := s.lgs.put g { l with pc := l.resume, run := none } } := by
    rw [State.modLg, State.setWin_lgs, Tab.modify_of_find _ hl]
  rw [State.writeDbr, hv, State.bkptAt_setWin, hg]
  refine (if_neg (by decide)).trans ?_
  dsimp only
  rw [hm]
  exact State.makeReady_present (l := { l with pc := l.resume, run := none }) (Tab.find_put_self ..) ha

theorem happens_debugResume (v : BitVec 64) (g : Nat) (l : Lg) : Happens (.debugResume v)
    (fun s => s.slateUp = true ∧ v.getLsbD 17 = true ∧ s.bkptAt v = some g ∧ s.lgs.find g = some l ∧ s.absent l.wg = false)
    (fun s t => t.lgs.find g = some { l with pc := l.resume, run := none, status := .ready, parkAt := s.now, aged := false } ∧
      t = { s with win := t.win, lgs := t.lgs }) := by
  refine happens_cond (execDebugResume v) rfl (fun _ => rfl) (fun s h => by simp [bit, h]) fun s ⟨_, hv, hg, hl, ha⟩ => ?_
  rw [State.writeDbr_go hv hg hl ha]
  exact ⟨Tab.find_put_self .., State.lgs_frame (State.setWin_frame rfl ..) rfl⟩

/-! ## Codes and retirement -/

theorem mem_insertBy {β : Type} (le : β → β → Bool) (x y : β) : ∀ l : List β, y ∈ insertBy le x l ↔ y = x ∨ y ∈ l
  | [] => by simp [insertBy]
  | z :: r => by
    unfold insertBy
    split
    · simp
    · rw [List.mem_cons, mem_insertBy le x y r, List.mem_cons]
      exact or_left_comm

/-- Sorting keeps the entries. -/
@[simp] theorem mem_sortNat (x : Nat) (l : List Nat) : x ∈ l.sortNat ↔ x ∈ l := by
  unfold List.sortNat List.sortBy
  induction l with
  | nil => rfl
  | cons y r ih => rw [List.foldr_cons, mem_insertBy, ih, List.mem_cons]

theorem happens_l2CodeChange (d : Nat) (b : Bool) : Happens (.l2CodeChange d b)
    (fun s => s.slateUp = true ∧ d < 4 ∧ s.winBits (oECS d) 1 1 = 0 ∧ s.winBits (oECS d) 0 1 ≠ b2n b)
    (fun s t => t.winBits (oECS d) 0 1 = b2n b ∧ t.winBits (oECS d) 1 1 = 1 ∧ t = { s with win := t.win }) := by
  refine happens_cond (execL2CodeChange d b) rfl (fun _ => rfl) (fun s h => h.1) fun s ⟨_, hd, h1, h0⟩ => ?_
  have e : s.writeStr d b = s.setWinBits (oECS d) 0 2 (b2n b + 2) := if_neg (by simp [h1, h0]; omega)
  rw [e]
  refine ⟨State.winBits_setWinBits_part s _ (by decide) (by decide) (by decide) ?_,
    State.winBits_setWinBits_part s _ (by decide) (by decide) (by decide) ?_, State.setWinBits_frame rfl ..⟩ <;> cases b <;> rfl

/-- Lines whose directory entries change one after the other: the directory alone changes. -/
theorem State.foldl_setDir_frame (x : State → Nat × Dir → Dir) : ∀ (l : Tab Dir) (s : State),
    l.foldl (fun s p => s.setDir p.1 (x s p)) s = { s with dir := (l.foldl (fun s p => s.setDir p.1 (x s p)) s).dir }
  | [], _ => rfl
  | p :: r, s => by
    rw [List.foldl_cons]
    exact State.foldl_setDir_frame x r (s.setDir p.1 (x s p))

theorem happens_reencodeDone (d : Nat) : Happens (.reencodeDone d) (fun s => d < 4 ∧ s.winBits (oECS d) 1 1 = 1)
    (fun s t => t.winBits (oECS d) 1 1 = 0 ∧ t = { s with win := t.win, dir := t.dir }) := by
  refine happens_cond (execReencodeDone d) rfl (fun _ => rfl) (fun s h => by simp [h]) fun s _ =>
    ⟨State.winBits_setWinBits _ _ _ _ _ (by decide), ?_⟩
  exact State.dir_frame (State.foldl_setDir_frame ..) rfl

theorem happens_retireFrame (f : Nat) : Happens (.retireFrame f)
    (fun s => s.slateUp = true ∧ f < 2 ^ 32 ∧ f ∉ s.retired ∧
      (s.retired.filter fun x => s.homeDie (65536 * x) == s.homeDie (65536 * f)).length < 1024)
    (fun s t => f ∈ t.retired ∧ t.winBits oRTA 0 1 = 0 ∧
      t = { s with win := t.win, retired := t.retired, suspect := t.suspect }) := by
  refine happens_cond (execRetireFrame f) rfl (fun _ => rfl) (fun s h => by simpa [h.1] using h.2.1) fun s ⟨_, _, hr, hn⟩ => ?_
  have e : s.retire f = { s.setWinBits oRTA 0 1 0 with retired := (f :: s.retired).sortNat, suspect := s.suspect.erase f } := by
    rw [State.retire, if_neg (by simpa using hr), if_neg (Nat.not_le.mpr hn)]
  rw [e]
  refine ⟨(mem_sortNat f _).mpr (List.mem_cons_self ..), ?_, rfl⟩
  exact (State.winBits_of_win (s := s.setWinBits oRTA 0 1 0) rfl _ _ _).trans (State.winBits_setWinBits _ _ _ _ _ (by decide))

/-! ## Soft errors -/

theorem happens_softError_register (g r j : Nat) (l : Lg) : Happens (.softError (.register g r j))
    (fun s => s.lgs.find g = some l ∧ r < 256 ∧ j < 32)
    (fun s t => (∃ l', t.lgs.find g = some l' ∧ 32 * r + j ∈ l'.bad ∧ l' = { l with bad := l'.bad }) ∧
      t = { s with lgs := t.lgs }) := by
  refine happens_cond (fun s => event (decide (r < 256 ∧ j < 32)) s fun s => s.modLg g fun l =>
    { l with bad := if l.bad.contains (32 * r + j) then l.bad else (32 * r + j) :: l.bad }) rfl (fun _ => rfl)
    (fun s h => decide_eq_true h.2) fun s ⟨hl, _⟩ => ⟨?_, rfl⟩
  refine ⟨{ l with bad := if l.bad.contains (32 * r + j) then l.bad else (32 * r + j) :: l.bad }, ?_, ?_, rfl⟩
  · rw [State.modLg, Tab.find_modify, if_pos rfl, hl]
    rfl
  · dsimp only
    split
    · next h => simpa using h
    · exact List.mem_cons_self ..

/-- A clean line of the memory-side cache alone is dropped; a dirty one is poisoned. -/
theorem happens_softError_msc (pa : Nat) : Happens (.softError (.msc pa))
    (fun s => (s.dirOf (pa / 128)).inMsc = true ∧ (s.dirOf (pa / 128)).inL2 = false ∧ (s.dirOf (pa / 128)).mscDirty = false)
    (fun s t => t = s.setDir (pa / 128) { s.dirOf (pa / 128) with inMsc := false }) := by
  intro s ⟨hm, hl, hd⟩
  have e : exec (.softError (.msc pa)) s = execSoftError (.msc pa) s := rfl
  refine ⟨_, ?_, rfl⟩
  simp only [e, execSoftError, event, hm, hl, hd, Bool.not_false, Bool.and_self, if_true, Bool.false_eq_true, if_false]

/-- Settles O60: each event by what it writes. -/
theorem managerEvents : Obligations.ManagerEvents := by
  unfold Obligations.ManagerEvents
  refine ⟨fun n v => ?partitions, fun w a b => ?windows, fun v r => ⟨happens_homeMapWrite v r, happens_homeMapReadInc⟩,
    happens_vfEnable, fun k v => ⟨happens_keyTableWrite k v, happens_keyLoad k⟩, happens_debugResume,
    fun d => ⟨happens_l2CodeChange d, happens_reencodeDone d⟩, happens_retireFrame, fun g r j pa l w => ?errors⟩
  case partitions =>
    exact ⟨happens_partitionEnable n v, happens_partitionEnable_refused n v, happens_partitionTeardown n,
      happens_partitionEnable_kept n v, happens_teardownDone n⟩
  case windows =>
    exact ⟨happens_windowEnable w a b, happens_windowEnable_draining w a b, happens_windowEnable_refused w a b, happens_windowDisable w,
      happens_windowDrainDone w⟩
  case errors =>
    refine ⟨happens_softError_register g r j l, ?_, happens_softError_msc pa, ?_, ?_, ?_⟩
    · exact happens_cond (fun s => event (s.dirOf (pa / 128)).inL2 s fun s => s.sliceError (pa / 4))
        rfl (fun _ => rfl) (fun _ h => h) fun _ _ => rfl
    · exact happens_cond (fun s => event (decide (r < 8)) s fun s => s.setPermit g r
        { s.permit g r with held := (s.permit g r).held - 1 })
        rfl (fun _ => rfl) (fun _ h => decide_eq_true h) fun _ _ => rfl
    · exact happens_cond (fun s => event (decide (r < 12)) s fun s => s.fatal r)
        rfl (fun _ => rfl) (fun _ h => decide_eq_true h) fun _ _ => rfl
    · exact happens_cond (fun s => event (decide (g < 192 ∧ r < 32 ∧ j < 8712)) s fun s => s.slotError g r j w)
        rfl (fun _ => rfl) (fun _ h => decide_eq_true h) fun _ _ => rfl

end Sys2Proof.Machine
end

section
/-! SUPPORT. What the events at the host's side do: stream queues (R242 to R244), data coding (R249), register writes (R4, R12, R240,
R467), the package reset, the boot and quotes (R465, R466), O58. -/

set_option Elab.async false

namespace Sys2Proof.Machine

/-! ## Stream queues -/

/-- A write of `SQC` that enables a queue whose slots, frame size and pipe allow it, and does not end its stream. -/
theorem State.writeSqc_enables {s : State} {vf q n : Nat} {v : DWord} {p : Pipe} (h56 : bit v 56 = true) (h57 : bit v 57 = false)
    {u : State} (hu : s.setVr vf (oSQC q) (v &&& 0x00FFFFFFFFFFFFFF#64) = u) (h1 : 1 ≤ u.vrBits vf (oSQB q) 0 4)
    (h10 : u.vrBits vf (oSQB q) 0 4 ≤ 10) (h0 : u.sqUnits vf q ≠ 0) (hp : u.sqPipe vf q = some (n, p)) (hs : p.size = 32) :
    s.writeSqc vf q v = u.setVrBits vf (oSQC q) 56 1 1 := by
  simp [State.writeSqc, hu, h56, h57, h1, h10, h0, hp, hs]

theorem happens_streamEnable (vf q : Nat) (v : BitVec 64) (n : Nat) (p : Pipe) : Happens (.streamEnable vf q v)
    (fun s => (s.hostUp = true ∧ vf < 1024 ∧ q < 8) ∧ v.getLsbD 56 = true ∧ v.getLsbD 57 = false ∧
      let u := s.setVr vf (oSQC q) (v &&& 0x00FFFFFFFFFFFFFF#64)
      1 ≤ u.vrBits vf (oSQB q) 0 4 ∧ u.vrBits vf (oSQB q) 0 4 ≤ 10 ∧ u.sqUnits vf q ≠ 0 ∧
        u.sqPipe vf q = some (n, p) ∧ p.size = 32)
    (fun s t => t = (s.setVr vf (oSQC q) (v &&& 0x00FFFFFFFFFFFFFF#64)).setVrBits vf (oSQC q) 56 1 1) := by
  refine happens_cond (execStreamEnable vf q v) rfl (fun _ => rfl) ?_ ?_
  · rintro s ⟨⟨hu, hv, hq⟩, h56, -⟩
    simp [bit, hu, hv, hq, h56]
  · rintro s ⟨-, h56, h57, h1, h10, h0, hp, hs⟩
    exact State.writeSqc_enables h56 h57 rfl h1 h10 h0 hp hs

/-! ### What becomes of a segment -/

section
variable {s : State} {vf q frame off : Nat}

/-- A queue that is off drops a segment. -/
theorem State.segmentFate_off {len : Nat} (h : s.sqOn vf q = false) : s.segmentFate vf q frame off len = 0 := by
  simp [State.segmentFate, h]

/-- A segment inside the frame of a queue that is on. -/
theorem State.segmentFate_on {len : Nat} (h : s.sqOn vf q = true) (hl : off + len ≤ 64 * s.sqUnits vf q) :
    s.segmentFate vf q frame off len =
    if (s.stream vf q).closed.contains frame || (((s.stream vf q).frames.find frame).map (s.expired vf q)).getD false then 1
    else if ((s.stream vf q).frames.find frame).isNone && !s.canOpen vf q frame then 0 else 2 := by
  have hc : (!s.sqOn vf q || decide (64 * s.sqUnits vf q < off + len)) = false := by simp [h, hl]
  exact if_neg (by rw [hc]; decide)

/-- An open frame stays as it is when a segment of it arrives. -/
theorem State.openFrame_of_find {f : Frame} (h : (s.stream vf q).frames.find frame = some f) : s.openFrame vf q frame = s := by
  simp [State.openFrame, h]

variable {data : List (BitVec 8)}

theorem exec_streamSegment : exec (.streamSegment vf q frame off data) s = execStreamSegment vf q frame off data s := rfl

/-- An admitted segment whose translation meets a line that an engine owns opens its frame and waits. -/
theorem exec_streamSegment_waits (h : s.segmentWaits vf q frame off data.length = true) :
    exec (.streamSegment vf q frame off data) s = .next (s.openFrame vf q frame) := by
  have h' := h
  simp only [State.segmentWaits, Bool.and_eq_true, beq_iff_eq] at h'
  obtain ⟨⟨⟨ok, hf⟩, -⟩, -⟩ := h'
  simp only [exec_streamSegment, execStreamSegment, event, ok, hf, h, if_true]

section
variable (ok : s.canSegment vf q frame off data.length = true)
include ok

theorem exec_streamSegment_dropped (hf : s.segmentFate vf q frame off data.length = 0) :
    exec (.streamSegment vf q frame off data) s = .next (s.countSq vf (oSQL q) 32) := by
  simp only [exec_streamSegment, execStreamSegment, event, ok, hf, if_true]

theorem exec_streamSegment_late (hf : s.segmentFate vf q frame off data.length = 1) :
    exec (.streamSegment vf q frame off data) s = .next (s.countSq vf (oSQL q) 0) := by
  simp only [exec_streamSegment, execStreamSegment, event, ok, hf, if_true]

/-- A segment of one unit, new to a frame that is open and not complete with it. -/
theorem exec_streamSegment_unit {u : State} {f : Frame} {pa kid : Nat} (hf : s.segmentFate vf q frame off data.length = 2)
    (hw : s.segmentWaits vf q frame off data.length = false) (hl : data.length = 64) (hn : off / 64 ∉ f.units)
    (hu : s.unitAddrs vf q frame [off / 64] = (u, [(off / 64, some (pa, kid))])) (hfu : (u.stream vf q).frames.find frame = some f)
    {w : State × Nat} (hw' : u.putUnits vf q frame f.pts [⟨frame, pa, kid, data.take 64⟩] = w) {z : State}
    (hz : w.1.setStream vf q { w.1.stream vf q with
      frames := (w.1.stream vf q).frames.put frame { f with units := f.units ++ [off / 64], pts := w.2 } } = z)
    (hc : f.units.length + 1 ≠ z.sqUnits vf q) : exec (.streamSegment vf q frame off data) s = .next z := by
  have hus : (List.range (data.length / 64)).map (off / 64 + ·) = [off / 64] := by rw [hl]; rfl
  have hnew : [off / 64].filter (fun u => !(f.units.contains u)) = [off / 64] := by simp [hn]
  have hlen : (f.units ++ [off / 64]).length ≠ z.sqUnits vf q := by simpa using hc
  obtain ⟨w1, w2⟩ := w
  simp only [exec_streamSegment, execStreamSegment, event, ok, hf, hw, hus, hu, if_true, Bool.false_eq_true, if_false,
    List.any_cons, List.any_nil, Option.isNone_some, Bool.or_false, State.openFrame_of_find hfu, hfu, Option.getD_some,
    List.filterMap_cons, List.filterMap_nil, Option.map_some, Nat.sub_self, Nat.mul_zero, List.drop_zero, hw', hnew, hz, hlen]

end

end

/-- A frame closes with loss at its deadline, its missing units written with zero. -/
theorem exec_frameDeadline {s u : State} {vf q frame : Nat} {f : Frame} {as : List (Nat × Option (Nat × Nat))}
    (hc : s.canExpire vf q frame = true) (hf : (s.stream vf q).frames.find frame = some f)
    (hu : s.unitAddrs vf q frame ((List.range (s.sqUnits vf q)).filter fun u => !(f.units.contains u)) = (u, as))
    {w : State × Nat}
    (hw : u.putUnits vf q frame f.pts (as.filterMap fun a => a.2.map fun p => ⟨frame, p.1, p.2, List.replicate 64 0⟩) = w) :
    exec (.frameDeadline vf q frame) s = .next (w.1.closeFrame vf q frame true f.units.length w.2) := by
  have e : exec (.frameDeadline vf q frame) s = execFrameDeadline vf q frame s := rfl
  simp only [e, execFrameDeadline, hf, event, hc, if_true, hu, hw]

/-- The descriptor at the head of a queue's order is pushed, unless its step meets a line that an engine owns. -/
theorem exec_descriptorPush {s u : State} {vf q n va : Nat} {p : Pipe} {d : StreamDesc} {e : TlbEnt}
    (hd : s.descAt vf q = some (d, n, p, va)) (hc : s.canDescribe vf q = true)
    (hx : s.devXlate (s.vfPart vf) p.vf va 3 = (u, .ok e)) {w : State}
    (hw : u.pushAt (s.vfPart vf) n p (e.addr va, e.kid) d.image d.pts (some (8 * vf + q, d.frame)) = w) {z : State}
    (hz : (w.setStream vf q { w.stream vf q with ready := (w.stream vf q).ready.tail }).finishStream vf q = z) :
    exec (.descriptorPush vf q) s = .next (if z.pk.stall = true ∧ s.pk.stall = false then s else z) := by
  have e : exec (.descriptorPush vf q) s = execDescriptorPush vf q s := rfl
  simp only [e, execDescriptorPush, hd, memEvent, hc, if_true, State.unlessStalled, hx, hw, hz, Bool.and_eq_true, Bool.not_eq_true']

theorem happens_dbiWindow (chan a b : Nat) :
    Happens (.dbiWindow chan a b) (fun _ => chan < 256 ∧ b < a) (fun s t => chan ∈ t.dbi ∧ t = { s with dbi := t.dbi }) ∧
    Happens (.dbiWindow chan a b) (fun _ => chan < 256 ∧ a < b) (fun s t => chan ∉ t.dbi ∧ t = { s with dbi := t.dbi }) ∧
    Happens (.dbiWindow chan a b) (fun _ => chan < 256 ∧ a = b) (fun s t => t = s) := by
  refine ⟨happens_cond (execDbiWindow chan a b) rfl (fun _ => rfl) (fun _ h => decide_eq_true h.1) fun s ⟨_, h⟩ => ?_,
    happens_cond (execDbiWindow chan a b) rfl (fun _ => rfl) (fun _ h => decide_eq_true h.1) fun s ⟨_, h⟩ => ?_,
    happens_cond (execDbiWindow chan a b) rfl (fun _ => rfl) (fun _ h => decide_eq_true h.1) fun s ⟨_, h⟩ => ?_⟩
  · rw [if_pos h]
    exact ⟨(mem_sortNat chan _).mpr (List.mem_append_right _ (List.mem_singleton_self chan)), rfl⟩
  · rw [if_neg (by omega), if_pos h]
    exact ⟨by simp, rfl⟩
  · rw [if_neg (by omega), if_neg (by omega)]

/-! ## Register writes -/

theorem State.writePage_base {s : State} {f : Nat} (v : DWord) (m : Bool) (h : f < 1024) :
    s.writePage m f 0 v = s.setVr f 0 ((s.vr f 0 &&& ~~~0xFFFFFFFFFFFFF001#64) ||| (v &&& 0xFFFFFFFFFFFFF001#64)) := by
  rw [State.writePage, if_neg (by omega), if_pos rfl]

/-- Only the manager writes the register at 0x30 of a function's page. -/
theorem State.writePage_manager {s : State} {f : Nat} (v : DWord) (h : f < 1024) :
    s.writePage true f 0x30 v = s.setVr f 0x30 ((s.vr f 0x30 &&& ~~~0xFF#64) ||| (v &&& 0xFF#64)) := by
  rw [State.writePage, if_neg (by omega)]
  rfl

theorem State.writeWindow_oCET (s : State) (b : Bool) (v : DWord) : s.writeWindow b oCET v = s.maskWin oCET 0xFFFF v := rfl

/-- The firmware registers are the Slate controller's alone. -/
theorem State.writeWindow_firm (s : State) (slate : Bool) {o : Nat} (v : DWord) (h : 0x50000 ≤ o) (h8 : o % 8 = 0) :
    s.writeWindow slate o v = if slate then s.writeFirm o v else s := by
  simp (disch := omega) only [State.writeWindow, oHMX, oMRB, oFAQB, oFAQH, oCET, if_neg, h, decide_true, Bool.true_and]

theorem State.writeFirm_oMXB {s : State} {g : Nat} (v : DWord) (h : g < 12) :
    s.writeFirm (oMXB g) v = ({ s with govs := s.govs.setD {} g (s.gov g) } : State).maskWin (oMXB g) 0x1FF v := by
  have hg : (oMXB g - 0x50000) / 8 = g := by unfold oMXB; omega
  rw [State.writeFirm, if_pos (by unfold oMXB; omega), hg]

/-- The bits under the mask of a register take the value written. -/
theorem State.win'_maskWin (s : State) (o : Nat) (m v : DWord) : (s.maskWin o m v).win' o = (s.win' o &&& ~~~m) ||| (v &&& m) := by
  rw [State.maskWin, State.win'_setWin, if_pos rfl]

theorem State.maskWin_frame (s : State) (o : Nat) (m v : DWord) : s.maskWin o m v = { s with win := (s.maskWin o m v).win } := rfl

theorem happens_registerWrite (f g : Nat) (v : BitVec 64) :
    Happens (.registerWrite (.page f) 0 v) (fun s => s.hostUp = true ∧ f < 1024) (fun s t =>
      t.vr f 0 = (s.vr f 0 &&& ~~~0xFFFFFFFFFFFFF001#64) ||| (v &&& 0xFFFFFFFFFFFFF001#64) ∧ t = { s with vfr := t.vfr }) ∧
    Happens (.registerWrite (.pageManager f) 0x30 v) (fun s => s.hostUp = true ∧ f < 1024) (fun s t =>
      t.vr f 0x30 = (s.vr f 0x30 &&& ~~~0xFF#64) ||| (v &&& 0xFF#64) ∧ t = { s with vfr := t.vfr }) ∧
    Happens (.registerWrite .window oCET v) (fun s => s.hostUp = true) (fun s t =>
      t.win' oCET = (s.win' oCET &&& ~~~0xFFFF#64) ||| (v &&& 0xFFFF#64) ∧ t = { s with win := t.win }) ∧
    Happens (.registerWrite .window (oMXB g) v) (fun s => s.hostUp = true ∧ g < 12) (fun s t => t = s) ∧
    Happens (.registerWrite .slate (oMXB g) v) (fun s => s.slateUp = true ∧ g < 12) (fun s t =>
      t.win' (oMXB g) = (s.win' (oMXB g) &&& ~~~0x1FF#64) ||| (v &&& 0x1FF#64) ∧
      t = { s with win := t.win, govs := s.govs.setD {} g (s.gov g) }) := by
  have hf : 0x50000 ≤ oMXB g ∧ oMXB g % 8 = 0 := by unfold oMXB; omega
  refine ⟨?page, ?pageManager, ?window, ?firm, ?slate⟩
  case page =>
    refine happens_cond (fun s => event s.hostUp s fun s => s.writePage false f 0 v) rfl (fun _ => rfl) (fun _ h => h.1) fun s h => ?_
    rw [State.writePage_base v false h.2, State.vr_setVr, if_pos rfl]
    exact ⟨rfl, rfl⟩
  case pageManager =>
    refine happens_cond (fun s => event s.hostUp s fun s => s.writePage true f 0x30 v) rfl (fun _ => rfl) (fun _ h => h.1) fun s h => ?_
    rw [State.writePage_manager v h.2, State.vr_setVr, if_pos rfl]
    exact ⟨rfl, rfl⟩
  case window =>
    refine happens_cond (fun s => event s.hostUp s fun s => s.writeWindow false oCET v) rfl (fun _ => rfl) (fun _ h => h) fun s _ => ?_
    rw [State.writeWindow_oCET, State.win'_maskWin]
    exact ⟨rfl, State.maskWin_frame ..⟩
  case firm =>
    refine happens_cond (fun s => event s.hostUp s fun s => s.writeWindow false (oMXB g) v) rfl (fun _ => rfl) (fun _ h => h.1)
      fun s _ => ?_
    exact State.writeWindow_firm s false v hf.1 hf.2
  case slate =>
    refine happens_cond (fun s => event s.slateUp s fun s => s.writeWindow true (oMXB g) v) rfl (fun _ => rfl) (fun _ h => h.1)
      fun s h => ?_
    rw [State.writeWindow_firm s true v hf.1 hf.2, if_pos rfl, State.writeFirm_oMXB v h.2, State.win'_maskWin]
    exact ⟨rfl, State.maskWin_frame ..⟩

/-! ## The boot and quotes -/

theorem State.boot_trainLinks (s : State) : s.trainLinks.boot = s.boot := by
  unfold State.trainLinks
  refine foldl_keeps State.boot _ (fun s k => ?_) _ _
  rfl

/-- The boot as a stage leaves it, whether or not the links begin to train. -/
theorem State.boot_afterStage (s : State) (b : Boot) :
    (if s.boot.stage = 1 then ({ s with boot := b } : State).trainLinks else { s with boot := b }).boot = b := by
  split
  · rw [State.boot_trainLinks]
  · rfl

/-- The first stage extends the first measurement. -/
theorem Boot.extend_stage_zero {b : Boot} (h : b.stage = 0) (hash : List Byte) :
    b.extend hash = { b with m0 := (sha384 (b.m0 ++ (hash ++ List.replicate 32 0).take 32)).take 48 } := by
  simp only [Boot.extend, h]

theorem happens_bootStage (h : List (BitVec 8)) :
    Happens (.bootStage true h) (fun s => s.boot.stage < 3 ∧ s.boot.halted = false) (fun s t => t.boot.stage = s.boot.stage + 1 ∧
      t = (if s.boot.stage = 1 then ({ s with boot := t.boot } : State).trainLinks else { s with boot := t.boot }) ∧
      (s.boot.stage = 0 → t.boot.m0 = (sha384 (s.boot.m0 ++ (h ++ List.replicate 32 0).take 32)).take 48 ∧ t.boot.m1 = s.boot.m1)) := by
  refine happens_cond (execBootStage true h) rfl (fun _ => rfl) (fun s h => by simp [h]) fun s _ => ?_
  have hb := s.boot_afterStage { s.boot.extend h with stage := s.boot.stage + 1 }
  simp only [if_true, hb]
  refine ⟨trivial, trivial, fun h0 => ?_⟩
  rw [Boot.extend_stage_zero h0]
  exact ⟨rfl, rfl⟩

theorem happens_attestQuote (nonce : BitVec 256) :
    Happens (.attestQuote nonce) (fun s => s.slateUp = true ∧ s.boot.quotes < 2 ^ 20) (fun s t => t.boot.quotes = s.boot.quotes + 1 ∧
      t.boot.lastQuote = some (s.boot.message nonce ++ Config.sign s.boot.quotes (s.boot.message nonce)) ∧
      t = { s with boot := t.boot }) ∧
    Happens (.attestQuote nonce) (fun s => s.slateUp = true ∧ 2 ^ 20 ≤ s.boot.quotes)
      (fun s t => t.boot.quotes = s.boot.quotes ∧ t.boot.refused = true ∧ t = { s with boot := t.boot }) := by
  refine ⟨happens_cond (execAttestQuote nonce) rfl (fun _ => rfl) (fun _ h => h.1) fun s ⟨_, h⟩ => ?_,
    happens_cond (execAttestQuote nonce) rfl (fun _ => rfl) (fun _ h => h.1) fun s ⟨_, h⟩ => ?_⟩
  · dsimp only
    rw [if_neg (Nat.not_le.mpr h)]
    exact ⟨rfl, rfl, rfl⟩
  · dsimp only
    rw [if_pos h]
    exact ⟨rfl, rfl, rfl⟩

/-- Settles O58: each event by what it does to its queue, its register or the boot. -/
theorem hostEvents : Obligations.HostEvents := by
  unfold Obligations.HostEvents
  refine ⟨fun vf q v n p => ⟨happens_streamEnable vf q v n p, ?eos, fun frame off data => ?segment, ?push⟩, happens_dbiWindow,
    fun f g v => happens_registerWrite f g v, ?reset, fun h => ⟨happens_bootStage h, ?bad⟩, ?replace, happens_attestQuote⟩
  case eos =>
    exact happens_cond (execStreamEos vf q) rfl (fun _ => rfl) (fun s h => by simp [h]) fun _ _ => rfl
  case segment =>
    refine ⟨?dropped, ?closed, ?expired, ?waits, ?unit, ?deadline⟩
    case dropped =>
      rintro s ⟨ok, hoff⟩
      exact ⟨_, exec_streamSegment_dropped ok (State.segmentFate_off hoff), rfl⟩
    case closed =>
      rintro s ⟨ok, hon, hl, hc⟩
      exact ⟨_, exec_streamSegment_late ok ((State.segmentFate_on hon hl).trans (if_pos (by simp [hc]))), rfl⟩
    case expired =>
      rintro f s ⟨ok, hon, hl, -, hf, hd⟩
      exact ⟨_, exec_streamSegment_late ok ((State.segmentFate_on hon hl).trans (if_pos (by simp [hf, State.expired, hd]))), rfl⟩
    case waits =>
      exact fun s h => ⟨_, exec_streamSegment_waits h, rfl⟩
    case unit =>
      intro s u f pa kid ok hon hl hc hf hx hw hlen hn hu hfu w f' z hne
      have h2 : s.segmentFate vf q frame off data.length = 2 := by
        rw [State.segmentFate_on hon hl]
        simp [hc, hf, hx]
      exact exec_streamSegment_unit ok h2 hw hlen hn hu hfu rfl rfl hne
    case deadline =>
      exact fun s u f as hc hf hu => exec_frameDeadline hc hf hu rfl
  case push =>
    exact fun s u d va e hd hc hx => exec_descriptorPush hd hc hx rfl rfl
  case reset =>
    exact fun s _ => ⟨_, rfl, rfl, rfl, rfl, rfl, rfl, rfl, rfl, rfl, rfl⟩
  case bad =>
    exact happens_cond (execBootStage false h) rfl (fun _ => rfl) (fun s h => by simp [h]) fun _ _ => rfl
  case replace =>
    exact happens_cond execBootImageReplace rfl (fun _ => rfl) (fun _ h => h) fun _ _ => rfl

end Sys2Proof.Machine
end

section
/-! PROOF. Pipes: what the note of a reader does to the machine behind a blocked pop (R453). -/

set_option Elab.async false

namespace Sys2Proof.Machine

/-- The program of one packet, its lane group with lane 0 active, in a partition whose pipe 3 is empty and has a producer left; `k4` holds
the pipe's name. -/
def onEmptyPipe : State :=
  { State.reset.placeWord 0 with
    lgs := [(2, { placeLg 0 with em := 1, landing := false })]
    wgs := [(1, { placeWg 0 with k := [(4, 3)] })]
    parts := [(0, { pipes := [(0, { name := 3, ring := 0x100000, desc := 0x1000200000003, vf := 0, left := 1 })] })] }

/-- The launches that have read the pipe at place 0, where the machine goes on. -/
def poppersOf : Out → Option (List Nat)
  | .next t => ((t.part 0).pipes.find 0).map Pipe.poppers
  | _ => none

/-- Refutes O32: a `pipe.pop` that finds the pipe empty notes its launch among the pipe's readers before it blocks (R453), and the
statement gives the machine without that note. -/
theorem not_pipeWords : ¬ Obligations.PipeWords := by
  unfold Obligations.PipeWords
  rintro ⟨-, -, -, hpop, -⟩
  obtain ⟨-, hblocked, -⟩ := hpop 4 31 7
  obtain ⟨t, ht, rfl⟩ := hblocked onEmptyPipe _ rfl rfl ⟨rfl, rfl, 0, _, rfl, .inr ⟨rfl, by decide⟩⟩
  exact absurd (congrArg poppersOf ht) (by decide)

end Sys2Proof.Machine
end

section
/-! SUPPORT. How a changed table, partition, lane group, workgroup or launch reads, and what an event that may reach memory answers: its
effect, unless it meets a line that an engine owns. -/

set_option Elab.async false

namespace Sys2Proof.Machine

/-! ## Tables -/

/-- Reading a table whose entries have been changed under their keys. -/
theorem Tab.find_map {α β : Type} (f : α → β) {g : Nat × α → Nat × β} (hg : ∀ p, g p = (p.1, f p.2)) (k : Nat) :
    ∀ t : Tab α, Tab.find (t.map g) k = (t.find k).map f
  | [] => rfl
  | (j, x) :: r => by
    have ih := Tab.find_map f hg k r
    by_cases h : j = k <;> simp [Tab.find, hg, h, ih]

theorem Tab.mem_of_find {α : Type} {k : Nat} {x : α} : ∀ {t : Tab α}, t.find k = some x → (k, x) ∈ t
  | (j, y) :: r, h => by
    by_cases e : j = k
    · simp_all [Tab.find]
    · exact List.mem_cons_of_mem _ (Tab.mem_of_find (by simpa [Tab.find, e] using h))

/-! ## The parts of the machine -/

theorem State.part_modPart (s : State) (n m : Nat) (f : Part → Part) :
    (s.modPart n f).part m = if m = n then f (s.part n) else s.part m := Tab.getD_setD ..

theorem State.find_modLg (s : State) (g h : Nat) (f : Lg → Lg) :
    (s.modLg g f).lgs.find h = if h = g then (s.lgs.find g).map f else s.lgs.find h := Tab.find_modify ..

theorem State.find_modWg (s : State) (w v : Nat) (f : Wg → Wg) :
    (s.modWg w f).wgs.find v = if v = w then (s.wgs.find w).map f else s.wgs.find v := Tab.find_modify ..

theorem State.find_modLaunch (s : State) (l m : Nat) (f : Launch → Launch) :
    (s.modLaunch l f).launches.find m = if m = l then (s.launches.find l).map f else s.launches.find m := Tab.find_modify ..

theorem State.find_modLg_self {s : State} {g : Nat} {l : Lg} (f : Lg → Lg) (h : s.lgs.find g = some l) :
    (s.modLg g f).lgs.find g = some (f l) := by rw [State.find_modLg, if_pos rfl, h, Option.map_some]

theorem State.find_modWg_self {s : State} {w : Nat} {g : Wg} (f : Wg → Wg) (h : s.wgs.find w = some g) :
    (s.modWg w f).wgs.find w = some (f g) := by rw [State.find_modWg, if_pos rfl, h, Option.map_some]

theorem State.find_modLaunch_self {s : State} {l : Nat} {la : Launch} (f : Launch → Launch) (h : s.launches.find l = some la) :
    (s.modLaunch l f).launches.find l = some (f la) := by rw [State.find_modLaunch, if_pos rfl, h, Option.map_some]

/-! ## Events that reach memory -/

theorem memEvent_of {cond : Bool} {s : State} {f : State → State} (h : cond = true) : memEvent cond s f = .next (s.unlessStalled f) := by
  rw [memEvent, if_pos h]

theorem State.unlessStalled_eq (s : State) (f : State → State) :
    s.unlessStalled f = if (f s).pk.stall = true ∧ s.pk.stall = false then s else f s := by
  simp [State.unlessStalled]

theorem State.unlessStalled_of {s : State} {f : State → State} (h : Unowned s (f s)) : s.unlessStalled f = f s := by
  rw [State.unlessStalled_eq, if_neg]
  rintro ⟨h1, h2⟩
  rw [h, h2] at h1
  exact Bool.false_ne_true h1

theorem State.unlessStalled_congr {s : State} {f g : State → State} (h : f s = g s) : s.unlessStalled f = s.unlessStalled g := by
  rw [State.unlessStalled, State.unlessStalled, h]

theorem memEvent_next {cond : Bool} {s t : State} {f : State → State} (h : cond = true) (hf : f s = t) (hu : Unowned s t) :
    memEvent cond s f = .next t := by
  subst hf
  rw [memEvent_of h, State.unlessStalled_of hu]

theorem memFire_of {e : Ev} {s : State} {f : State → State} (h : e ∈ s.pending) :
    memFire e s f = .next (s.unlessStalled fun s => f (s.took e)) :=
  congrArg _ (State.unlessStalled_congr (g := fun s => f (s.took e)) (if_pos (List.contains_iff_mem.mpr h)))

theorem memFire_next {e : Ev} {s t : State} {f : State → State} (h : e ∈ s.pending) (hf : f (s.took e) = t) (hu : Unowned s t) :
    memFire e s f = .next t := by
  subst hf
  rw [memFire_of h, State.unlessStalled_of (f := fun s => f (s.took e)) hu]

end Sys2Proof.Machine
end

section
/-! SUPPORT. What the events of the queues and the distributor do: doorbells and queue reads (R32, R241), placement and starts (R36, R41),
ends and timeouts (R33, R153, R154, R406, R412), tasks (R43). -/

set_option Elab.async false

namespace Sys2Proof.Machine

/-! ## Queues -/

theorem happens_launchDoorbell (vf q tail : Nat) : Happens (.launchDoorbell vf q tail)
    (fun s => s.hostUp = true ∧ s.queueOn vf q = true ∧
      (tail % 2 ^ 32 + 2 ^ 32 - s.vrBits vf (oLQB q + 16) 0 32) % 2 ^ 32 ≤ qSize (s.vrBits vf (oLQB q) 0 4))
    (fun s t => t.vr vf (oLQB q + 8) = setBits (s.vr vf (oLQB q + 8)) 0 32 tail ∧
      t = { s with vfr := t.vfr, nseq := s.nseq + 1, lqt := t.lqt }) := by
  refine happens_cond (execLaunchDoorbell vf q tail) rfl (fun _ => rfl) (fun s h => by simp [h]) fun s h => ?_
  rw [State.writeLqt, if_neg (Nat.not_lt.mpr h.2.2)]
  exact ⟨(State.vr_setVr ..).trans (if_pos rfl), rfl⟩

theorem exec_launchQueueRead {vf q pa kid : Nat} {s s1 s2 : State} {bs : List Byte} (hc : s.canReadQueue vf q = true)
    (ha : s.ipaAddr (s.vfPart vf) vf
      (s.vrBits vf (oLQB q) 12 36 * 4096 + 64 * (s.vrBits vf (oLQB q + 16) 0 32 % qSize (s.vrBits vf (oLQB q) 0 4))) 1 = (s1, some (pa, kid)))
    (hr : (s1.keyRange pa 64 kid).devRead pa 64 = (s2, bs, false)) :
    let head := s.vrBits vf (oLQB q + 16) 0 32
    let u := (s2.pastHead vf q).takeLaunch ((List.range 8).map fun i => BitVec.ofNat 64 (leNat ((bs.drop (8 * i)).take 8)))
      vf q head (s2.arrivalOf vf q head) (max ((s2.pastHead vf q).dirOf (pa / 128)).wts (s2.tailPts vf q head))
    exec (.launchQueueRead vf q) s = .next (if u.pk.stall = true ∧ s.pk.stall = false then s else u) := by
  show execLaunchQueueRead vf q s = _
  rw [execLaunchQueueRead, memEvent_of hc, State.unlessStalled_eq]
  simp only [ha, hr]
  rfl

/-! ## Placement and starts -/

theorem exec_workgroupPlace_next {l : Nat} {s t : State} {la : Launch} (hl : s.launches.find l = some la)
    (hw : s.work la.part = some (.place l)) (hu : Unowned s t) (hst : la.st ≠ .waiting) (ht : s.tryNext l = some t) :
    exec (.workgroupPlace l) s = .next t := by
  show execWorkgroupPlace l s = _
  rw [execWorkgroupPlace, hl]
  exact memEvent_next (by simp [hw]) ((if_neg hst).trans (by rw [ht]; rfl)) hu

/-- A launch that starts: beside what starting it makes, only its partition's queues and launch buffer change. -/
theorem exec_workgroupPlace_start {l : Nat} {s t0 : State} {la : Launch} (hl : s.launches.find l = some la)
    (hw : s.work la.part = some (.place l)) (hu : Unowned s t0) (hst : la.st = .waiting) (ht : s.tryStart l = some t0) :
    ∃ t, exec (.workgroupPlace l) s = .next t ∧ t.launches = t0.launches ∧ t.wgs = t0.wgs ∧ t.lgs = t0.lgs ∧ t.pending = t0.pending ∧
      t.mem = t0.mem := by
  show ∃ t, execWorkgroupPlace l s = _ ∧ _
  rw [execWorkgroupPlace, hl]
  refine ⟨_, memEvent_next (by simp [hw]) rfl ?_, ?_⟩ <;> rw [if_pos hst, ht] <;> dsimp only <;> split
  · exact hu
  · exact hu
  · exact ⟨rfl, rfl, rfl, rfl, rfl⟩
  · exact ⟨rfl, rfl, rfl, rfl, rfl⟩

/-- Every `k` register of an empty image is zero. -/
theorem foldl_setD_empty_image : ∀ l : List Nat, l.foldl (fun (t : Tab DWord) i =>
    t.setD 0 i (BitVec.ofNat 64 (leNat ((([] : List Byte).drop (8 * i)).take 8)))) [] = []
  | [] => rfl
  | i :: r => by
    rw [List.foldl_cons, List.drop_nil]
    exact foldl_setD_empty_image r

theorem State.goLive_wg {s : State} {w : Nat} {g : Wg} (h : s.wgs.find w = some g) (entry pts : Nat) :
    (s.goLive w entry [] pts).wgs.find w = some { g with k := [], entry := entry, st := .resident } := by
  refine (State.find_modWg_self _ h).trans ?_
  rw [foldl_setD_empty_image]

theorem State.goLive_lg {s : State} {w k : Nat} {l : Lg} (h : s.lgs.find k = some l) (hw : l.wg = w) (entry : Nat) (img : List Byte)
    (pts : Nat) : (s.goLive w entry img pts).lgs.find k = some { l with pc := linePacket entry, fpc := 0 } := by
  refine (Tab.find_map (fun l : Lg => if l.wg = w then { l with pc := linePacket entry, fpc := 0 } else l) (fun _ => rfl) k s.lgs).trans ?_
  rw [h, Option.map_some, if_pos hw]

theorem exec_workgroupStart {s : State} {w : Nat} {g : Wg} {la : Launch} (hp : Ev.workgroupStart w ∈ s.pending)
    (hg : s.wgs.find w = some g) (hla : s.launches.find g.launch = some la) (hst : g.st = .starting) (hk : g.kind = .grid)
    (hi : la.kinit = 0) :
    exec (.workgroupStart w) s = .next ((s.took (.workgroupStart w)).goLive w g.entry [] la.pts) := by
  show execWorkgroupStart w s = _
  refine memFire_next hp ?_ rfl
  simp [State.took, hg, hla, hst, hk, hi]

theorem arrives_workgroupStart (w : Nat) (g : Wg) (la : Launch) : Arrives (.workgroupStart w) (.workgroupStart w)
    (fun s => s.wgs.find w = some g ∧ s.launches.find g.launch = some la ∧ g.st = .starting ∧ g.kind = .grid ∧ la.kinit = 0)
    (fun s t => (∃ g', t.wgs.find w = some g' ∧ g'.st = .resident ∧ ∀ n, g'.kAt n = 0) ∧
      (∀ k l, s.lgs.find k = some l → l.wg = w → t.lgs.find k = some { l with pc := linePacket g.entry, fpc := 0 }) ∧ t.mem = s.mem) :=
  fun _ hp ⟨hg, hla, hst, hk, hi⟩ => ⟨_, exec_workgroupStart hp hg hla hst hk hi, ⟨_, State.goLive_wg hg g.entry la.pts, rfl, fun _ => rfl⟩,
    fun _ _ hl hlw => State.goLive_lg hl hlw .., rfl⟩

/-- A workgroup that is added has the issue number, and its first lane group the next. -/
theorem State.addWg_wg (s : State) (w : Wg) (alloc entry : Nat) : ∃ g, (s.addWg w alloc entry).wgs.find s.nseq = some g ∧
    g.launch = w.launch ∧ g.kind = w.kind ∧ g.core = w.core ∧ g.nlg = w.nlg :=
  ⟨_, Tab.find_put_self .., rfl, rfl, rfl, rfl⟩

theorem State.addWg_lg (s : State) {w : Wg} (h : w.nlg = 1) (alloc entry : Nat) : ∃ x,
    (s.addWg w alloc entry).lgs.find (s.nseq + 1) = some x ∧ x.wg = s.nseq ∧ x.hnd = w.isHandler ∧ x.alloc = alloc := by
  simp only [State.addWg, h]
  exact ⟨_, Tab.find_put_self .., rfl, rfl, rfl⟩

theorem State.addWg_pending (s : State) (w : Wg) (alloc entry : Nat) : Ev.workgroupStart s.nseq ∈ (s.addWg w alloc entry).pending :=
  List.mem_append_right _ (List.mem_singleton_self _)

/-! ## Ends and timeouts -/

theorem State.find_closeLaunch {s : State} {id : Nat} {la : Launch} (h : s.launches.find id = some la) :
    (s.closeLaunch id).launches.find id = some { la with st := .ended, reserved := false } := by
  rw [State.closeLaunch, h]
  exact State.find_modLaunch_self _ h

theorem State.closeLaunch_frame (s : State) (id : Nat) :
    s.closeLaunch id = { s with launches := (s.closeLaunch id).launches, parts := (s.closeLaunch id).parts } := by
  unfold State.closeLaunch
  split <;> rfl

/-- A launch without a completion counter has none to update (R33). -/
theorem State.updateCtr_of_ctr_zero {s : State} {id : Nat} {la : Launch} {p : Bool × Nat} (h : s.launches.find id = some la)
    (hp : la.counterPending = some p) (hc : la.ctr = 0) :
    s.updateCtr id = s.modLaunch id fun x => { x with counterPending := none } := by
  have ht : s.tryCtr id = s.modLaunch id fun x => { x with counterPending := none } := by
    simp [State.tryCtr, h, hp, hc]
  simp [State.updateCtr, ht]

theorem happens_launchComplete (l : Nat) (la : Launch) :
    Happens (.launchComplete l) (fun s => s.launches.find l = some la ∧ s.launchOver l = true ∧ la.ctr = 0)
      (fun s t => (∃ lb, t.launches.find l = some lb ∧ lb.st = .ended ∧ lb.reserved = false ∧ lb.counterPending = none) ∧ t.mem = s.mem) := by
  rintro s ⟨hl, ho, hc⟩
  have hu := State.find_modLaunch_self (fun x => { x with counterPending := some (false, 1) }) (State.find_closeLaunch hl)
  have hstall : (s.closeLaunch l).pk.stall = s.pk.stall := by rw [State.closeLaunch_frame]
  have hmem : (s.closeLaunch l).mem = s.mem := by rw [State.closeLaunch_frame]
  exact ⟨_, memEvent_next ho (State.updateCtr_of_ctr_zero hu rfl hc) hstall,
    ⟨_, State.find_modLaunch_self _ hu, rfl, rfl, rfl⟩, hmem⟩

theorem happens_groupWaitTimeout (l : Nat) (la : Launch) :
    Happens (.groupWaitTimeout l) (fun s => s.launches.find l = some la ∧ (la.st = .waiting ∨ la.st = .gang) ∧ la.cor = true ∧
        la.late = false ∧ la.since + s.gto la.part < s.now)
      (fun s t => t.launches.find l = some { la with late := true } ∧ t = { s with launches := t.launches }) := by
  refine happens_event (f := fun _ s => s.modLaunch l fun x => { x with late := true })
    (cond := fun s => (la.st == .waiting || la.st == .gang) && la.cor && !la.late && decide (la.since + s.gto la.part < s.now))
    (fun s h => ?_) (fun s ⟨_, hst, hcor, hlate, hs⟩ => ?_) fun s h => ⟨?_, rfl⟩
  · show execGroupWaitTimeout l s = _
    rw [execGroupWaitTimeout, h.1]
  · rcases hst with hst | hst <;> simp [hst, hcor, hlate, hs]
  · exact State.find_modLaunch_self _ h.1

theorem happens_resizeRequest (l : Nat) (la : Launch) (vf : Nat) (v : BitVec 64) : Happens (.resizeRequest vf v)
    (fun s => vf < 1024 ∧ s.hostUp = true ∧ (bits v 35 3 = 1 ∨ bits v 35 3 = 2 ∨ bits v 35 3 = 4) ∧ la.dmin ≤ bits v 35 3 ∧
      bits v 35 3 ≤ la.dmax ∧ s.launches.find l = some la ∧ s.launches.find? (fun p => p.2.vf == vf && p.2.st == .running && p.2.elas &&
        p.2.queue == bits v 32 3 && p.2.lnum % 2 ^ 32 == bits v 0 32) = some (l, la))
    (fun s t => t.launches.find l = some { la with resize := some (bits v 35 3) } ∧ t = { s with launches := t.launches }) := by
  refine happens_cond (execResizeRequest vf v) rfl (fun _ => rfl) (fun s h => by simp [h.1, h.2.1])
    fun s ⟨_, _, hn, hmin, hmax, hl, hf⟩ => ?_
  have hw : s.writeRsz vf v = s.modLaunch l fun x => { x with resize := some (bits v 35 3) } := by
    unfold State.writeRsz
    simp only [hf]
    exact if_pos (by simp [hn, hmin, hmax, or_assoc])
  rw [hw]
  exact ⟨State.find_modLaunch_self _ hl, rfl⟩

theorem performs_faultedLaunchEnd (l : Nat) (la : Launch) :
    Performs (.faultedLaunchEnd l) (fun s => s.launches.find l = some la ∧ la.ending = true ∧ s.allStopped l = true)
      (fun s => s.endFaulted l la.faultCause) := by
  refine performs_memEvent (cond := fun s => la.ending && s.allStopped l) (fun s h => ?_) (fun s h => by simp [h]) fun _ _ => rfl
  show execFaultedLaunchEnd l s = _
  rw [execFaultedLaunchEnd, h.1]

theorem performs_faultedLaunchTimeout (l : Nat) (la : Launch) :
    Performs (.faultedLaunchTimeout l) (fun s => s.launches.find l = some la ∧ la.ending = true ∧ la.lastIssue + s.gto la.part < s.now)
      (fun s => s.endFaulted l la.faultCause) := by
  refine performs_memEvent (cond := fun s => la.ending && decide (la.lastIssue + s.gto la.part < s.now)) (fun s h => ?_)
    (fun s h => by simp [h]) fun _ _ => rfl
  show execFaultedLaunchTimeout l s = _
  rw [execFaultedLaunchTimeout, h.1]

theorem delivers_nodeDiscard (l : Nat) (la : Launch) (k : Cause) : Delivers (.nodeDiscard l) (.nodeDiscard l)
    (fun s => s.launches.find l = some la ∧ s.inRun l = false ∧ la.discard = some k) (fun s => s.requeue l k) := by
  rintro s hp ⟨hl, hr, hd⟩
  show execNodeDiscard l s = _
  rw [execNodeDiscard, hl]
  simp only [hr, hd, Bool.false_eq_true, if_false]
  rw [memFire_of hp, State.unlessStalled_eq]

/-! ## Tasks -/

theorem happens_taskClaim (l part core c r : Nat) (la : Launch) (tk : Task) : Happens (.taskClaim part core)
    (fun s => s.work part = some (.claim core) ∧ s.claimNext part = some (c, r) ∧ (s.part part).tasks.find r = some tk ∧
      tk.holder = none ∧ tk.launch = l ∧ s.launches.find l = some la)
    (fun s t => (∃ w, t.wgs.find s.nseq = some w ∧ w.launch = l ∧ w.kind = .task r ∧ w.core = c ∧ w.nlg = 1) ∧
      (∃ x, t.lgs.find (s.nseq + 1) = some x ∧ x.wg = s.nseq ∧ x.task = some r ∧ x.alloc = la.alloc) ∧
      (t.part part).tasks.find r = some { tk with holder := some (s.nseq + 1) } ∧ Ev.workgroupStart s.nseq ∈ t.pending) := by
  refine happens_cond (execTaskClaim part core) rfl (fun _ => rfl) (fun s h => by simp [h.1]) fun s ⟨_, hc, hr, hh, hl, hla⟩ => ?_
  subst hl
  simp only [hc, hr, hla, hh, Option.isNone_none, if_true]
  set u := s.modPart part fun p => Part.water { p with tasks := p.tasks.put r { tk with holder := some (s.nseq + 1) } } with hu
  have hp : u.part part = Part.water { (s.part part) with tasks := (s.part part).tasks.put r { tk with holder := some (s.nseq + 1) } } :=
    (State.part_modPart ..).trans (if_pos rfl)
  generalize hw : ({ launch := tk.launch, kind := .task r, core := c, home := c, nlg := 1, bank := (u.core c).target } : Wg) = w
  obtain ⟨x, hx, hxw, -, hxa⟩ := u.addWg_lg (w := w) (by rw [← hw]) la.alloc tk.entry
  refine ⟨?_, ⟨{ x with task := some r }, ?_, hxw, rfl, hxa⟩, ?_, u.addWg_pending ..⟩
  · subst hw
    exact u.addWg_wg _ la.alloc tk.entry
  · exact State.find_modLg_self _ hx
  · exact (congrArg (fun p : Part => p.tasks.find r) hp).trans (Tab.find_put_self ..)

/-- Settles O49: each event by what it does to its queue, its launch or the pool. -/
theorem launchEvents : Obligations.LaunchEvents := by
  unfold Obligations.LaunchEvents
  refine ⟨happens_launchDoorbell, fun vf q pa kid s s1 s2 bs hc => exec_launchQueueRead hc, fun l s t0 la hl hw hu =>
    ⟨exec_workgroupPlace_next hl hw hu, exec_workgroupPlace_start hl hw hu⟩, arrives_workgroupStart, fun l la =>
    ⟨happens_launchComplete l la, happens_groupWaitTimeout l la, happens_resizeRequest l la, performs_faultedLaunchEnd l la,
      performs_faultedLaunchTimeout l la, delivers_nodeDiscard l la, fun part core c r tk => happens_taskClaim l part core c r la tk⟩⟩

end Sys2Proof.Machine
end

section
/-! SUPPORT. What the events of barriers (R37 to R39), of the scheduler (R50, R53, R157, R159), of parking (R148, R162) and of handlers
(R382) do. -/

set_option Elab.async false

namespace Sys2Proof.Machine

/-! ## Departures from a barrier -/

theorem State.depart_cons (s : State) (g : Nat) (r : List Nat) (pts : Nat) : s.depart (g :: r) pts = (s.depart [g] pts).depart r pts := rfl

theorem State.raiseWg_frame (s : State) (w t : Nat) :
    s.raiseWg w t = { s with wgs := (s.raiseWg w t).wgs, cores := (s.raiseWg w t).cores } := by
  unfold State.raiseWg
  split
  · rfl
  · split <;> rfl

theorem State.raiseWg_lgs (s : State) (w t : Nat) : (s.raiseWg w t).lgs = s.lgs := by rw [State.raiseWg_frame]

/-- A workgroup's clock is all that is raised in it. -/
theorem State.raiseWg_bars (s : State) (w t v : Nat) : ((s.raiseWg w t).wgs.find v).map Wg.bars = (s.wgs.find v).map Wg.bars := by
  unfold State.raiseWg
  split
  · rfl
  · split
    · rw [State.find_modWg]
      split
      · next h => subst h; cases s.wgs.find v <;> rfl
      · rfl
    · rfl

/-- A lane group that departs: blocked, its condition holds. -/
def Lg.departed (x : Lg) : Lg :=
  { x with status := match x.status with
      | .blocked b _ => .blocked b true
      | t => t }

theorem Lg.departed_blocked {x : Lg} {b : Block} {d : Bool} (h : x.status = .blocked b d) :
    x.departed = { x with status := .blocked b true } := by
  rw [Lg.departed, h]

theorem State.depart_one {s : State} {g : Nat} {l : Lg} (h : s.lgs.find g = some l) (pts : Nat) :
    s.depart [g] pts = (s.raiseWg l.wg pts).modLg g Lg.departed := by
  rw [State.depart, List.foldl_cons, List.foldl_nil, h]
  rfl

theorem State.depart_none {s : State} {g : Nat} (h : s.lgs.find g = none) (pts : Nat) : s.depart [g] pts = s := by
  rw [State.depart, List.foldl_cons, List.foldl_nil, h]

/-- A departure changes lane groups and the clocks of their workgroups and cores. -/
theorem State.depart_frame (pts : Nat) : ∀ (gs : List Nat) (s : State),
    s.depart gs pts = { s with lgs := (s.depart gs pts).lgs, wgs := (s.depart gs pts).wgs, cores := (s.depart gs pts).cores }
  | [], _ => rfl
  | g :: r, s => by
    rw [State.depart_cons, State.depart_frame pts r (s.depart [g] pts)]
    cases h : s.lgs.find g with
    | none => rw [State.depart_none h]
    | some l => rw [State.depart_one h, State.raiseWg_frame]; rfl

theorem State.depart_mem (s : State) (gs : List Nat) (pts : Nat) : (s.depart gs pts).mem = s.mem := by rw [State.depart_frame]

theorem State.depart_launches (s : State) (gs : List Nat) (pts : Nat) : (s.depart gs pts).launches = s.launches := by
  rw [State.depart_frame]

theorem State.depart_pk (s : State) (gs : List Nat) (pts : Nat) : (s.depart gs pts).pk = s.pk := by rw [State.depart_frame]

theorem State.depart_bars (s : State) (gs : List Nat) (pts w : Nat) :
    ((s.depart gs pts).wgs.find w).map Wg.bars = (s.wgs.find w).map Wg.bars := by
  refine foldl_keeps (fun s => (s.wgs.find w).map Wg.bars) _ (fun s g => ?_) gs s
  cases h : s.lgs.find g with
  | none => rfl
  | some l => exact State.raiseWg_bars ..

/-- What holds of a workgroup's barriers holds of them after a departure. -/
theorem State.depart_wg {s : State} {w : Nat} (p : Tab Bar → Prop) (h : ∃ g, s.wgs.find w = some g ∧ p g.bars) (gs : List Nat) (pts : Nat) :
    ∃ g', (s.depart gs pts).wgs.find w = some g' ∧ p g'.bars := by
  obtain ⟨g, hg, hp⟩ := h
  obtain ⟨g', hg', hb⟩ := Option.map_eq_some_iff.mp ((State.depart_bars s gs pts w).trans (congrArg (Option.map Wg.bars) hg))
  exact ⟨g', hg', by rwa [hb]⟩

/-- A blocked lane group that departs may go on; one that does not stands as it stood. -/
theorem State.depart_lg (k : Nat) (b : Block) (pts : Nat) : ∀ (gs : List Nat) (s : State) (x : Lg) (d : Bool), s.lgs.find k = some x →
    x.status = .blocked b d → (s.depart gs pts).lgs.find k = some (if k ∈ gs then { x with status := .blocked b true } else x)
  | [], _, _, _, hx, _ => hx
  | g :: r, s, x, d, hx, hs => by
    rw [State.depart_cons]
    by_cases hg : g = k
    · subst hg
      have h1 : (s.depart [g] pts).lgs.find g = some { x with status := .blocked b true } := by
        rw [State.depart_one hx]
        rw [State.find_modLg_self _ ((congrArg (Tab.find · g) (State.raiseWg_lgs ..)).trans hx), Lg.departed_blocked hs]
      rw [State.depart_lg g b pts r _ _ true h1 rfl, if_pos (List.mem_cons_self ..)]
      split <;> rfl
    · have h1 : (s.depart [g] pts).lgs.find k = some x := by
        cases h : s.lgs.find g with
        | none => rwa [State.depart_none h]
        | some l =>
          rw [State.depart_one h, State.find_modLg, if_neg (Ne.symm hg), State.raiseWg_lgs]
          exact hx
      rw [State.depart_lg k b pts r _ x d h1 hs]
      simp [Ne.symm hg]

theorem State.depart_lg_mem {s : State} {k : Nat} {x : Lg} {b : Block} {d : Bool} {gs : List Nat} (hx : s.lgs.find k = some x)
    (hs : x.status = .blocked b d) (hk : k ∈ gs) (pts : Nat) : (s.depart gs pts).lgs.find k = some { x with status := .blocked b true } :=
  (State.depart_lg k b pts gs s x d hx hs).trans (by rw [if_pos hk])

/-! ## Barriers -/

theorem happens_wgBarrierComplete (w b : Nat) (g : Wg) :
    Happens (.wgBarrierComplete w b) (fun s => s.wgs.find w = some g ∧ s.barFull w b = true)
      (fun s t => (∃ g', t.wgs.find w = some g' ∧ Tab.getD g'.bars {} b = { gen := (Tab.getD g.bars {} b).gen + 1 }) ∧
        (∀ k l, s.lgs.find k = some l → l.wg = w → l.status = .blocked (.barWg b) false →
          t.lgs.find k = some { l with kv := [], status := .blocked (.barWg b) true }) ∧ t.mem = s.mem) := by
  rintro s ⟨hg, hf⟩
  rw [show exec (.wgBarrierComplete w b) s = execWgBarrierComplete w b s from rfl, execWgBarrierComplete, hg]
  refine ⟨_, event_of hf, ?bars, fun k l hl hw hs => ?lgs, State.depart_mem ..⟩
  case bars =>
    refine State.depart_wg (fun t => Tab.getD t {} b = { gen := (Tab.getD g.bars {} b).gen + 1 }) ?_ _ _
    exact ⟨_, State.find_modWg_self _ hg, (Tab.getD_put ..).trans (if_pos rfl)⟩
  case lgs =>
    refine State.depart_lg_mem (x := { l with kv := [] }) ?_ hs ?_ _
    · refine (Tab.find_map (fun l : Lg => if l.wg = w then { l with kv := [] } else l) (fun _ => rfl) k s.lgs).trans ?_
      rw [hl, Option.map_some, if_pos hw]
    · have hmem : (k, l) ∈ s.lgsOf w := List.mem_filter.mpr ⟨Tab.mem_of_find hl, beq_iff_eq.mpr hw⟩
      exact List.mem_map.mpr ⟨(k, l), List.mem_filter.mpr ⟨hmem, beq_iff_eq.mpr hs⟩, rfl⟩

theorem happens_spanBarrierComplete (l ox oy lw lh : Nat) (la : Launch) : Happens (.spanBarrierComplete l ox oy lw lh)
    (fun s => s.launches.find l = some la ∧ s.spanFull l ox oy lw lh = true)
    (fun s t => t.launches.find l = some { la with spans := la.spans.del (spanKey ox oy lw lh) } ∧
      (∀ k x b d, k ∈ (Tab.getD la.spans {} (spanKey ox oy lw lh)).arrived → s.lgs.find k = some x → x.status = .blocked b d →
        t.lgs.find k = some { x with status := .blocked b true }) ∧ t.mem = s.mem) := by
  rintro s ⟨hl, hf⟩
  rw [show exec (.spanBarrierComplete l ox oy lw lh) s = execSpanBarrierComplete l ox oy lw lh s from rfl, execSpanBarrierComplete, hl]
  refine ⟨_, event_of hf, ?_, fun k x b d hk hx hs => State.depart_lg_mem (by exact hx) hs hk _, State.depart_mem ..⟩
  rw [State.depart_launches]
  exact State.find_modLaunch_self _ hl

theorem exec_stepBarrierComplete {s : State} {l : Nat} {la : Launch} (hl : s.launches.find l = some la) (hf : s.stepFull l = true) :
    exec (.stepBarrierComplete l) s = .next (s.unlessStalled fun s =>
      let u := s.modLaunch l fun x => { x with step := {} }
      let u := match la.resize with
        | some n => if la.step.flag && la.elas && n != la.dies then u.resize l n else u
        | none => u
      u.depart la.step.arrived (max la.step.pts (((u.launches.find l).map (·.stepPts)).getD la.stepPts))) := by
  show execStepBarrierComplete l s = _
  rw [execStepBarrierComplete, hl]
  exact memEvent_of hf

theorem happens_stepBarrierComplete (l : Nat) (la : Launch) : Happens (.stepBarrierComplete l)
    (fun s => s.launches.find l = some la ∧ s.stepFull l = true ∧ la.resize = none)
    (fun s t => t.launches.find l = some { la with step := {} } ∧
      (∀ k x b d, k ∈ la.step.arrived → s.lgs.find k = some x → x.status = .blocked b d →
        t.lgs.find k = some { x with status := .blocked b true }) ∧ t.mem = s.mem) := by
  rintro s ⟨hl, hf, hr⟩
  have he := exec_stepBarrierComplete hl hf
  rw [hr, State.unlessStalled_of (by exact congrArg PacketCtx.stall (State.depart_pk ..))] at he
  refine ⟨_, he, ?_, fun k x b d hk hx hs => State.depart_lg_mem (by exact hx) hs hk _, State.depart_mem ..⟩
  rw [State.depart_launches]
  exact State.find_modLaunch_self _ hl

theorem performs_stepBarrierComplete (l n : Nat) (la : Launch) : Performs (.stepBarrierComplete l)
    (fun s => s.launches.find l = some la ∧ s.stepFull l = true ∧ la.resize = some n ∧ la.step.flag = true ∧ la.elas = true ∧ n ≠ la.dies)
    (fun s =>
      let u := (s.modLaunch l fun x => { x with step := {} }).resize l n
      u.depart la.step.arrived (max la.step.pts (((u.launches.find l).map (·.stepPts)).getD la.stepPts))) := by
  rintro s ⟨hl, hf, hr, hflag, he, hn⟩
  have hc : (la.step.flag && la.elas && n != la.dies) = true := by simp [hflag, he, hn]
  have hx := exec_stepBarrierComplete hl hf
  rw [hr] at hx
  simpa only [hc, if_true, State.unlessStalled_eq] using hx

/-! ## The scheduler -/

/-- A lane group that becomes ready changes alone (R157). -/
theorem State.makeReady_eff {s : State} {g : Nat} {l : Lg} (h : s.lgs.find g = some l) (ha : s.absent l.wg = false) :
    (s.makeReady g).lgs.find g = some { l with status := .ready, parkAt := s.now, aged := false } ∧
      s.makeReady g = { s with lgs := (s.makeReady g).lgs } := by
  rw [State.makeReady_present h ha]
  exact ⟨Tab.find_put_self .., rfl⟩

theorem State.wakes_blocked {s : State} {g : Nat} {l : Lg} {b : Block} (h : s.lgs.find g = some l) (hs : l.status = .blocked b true)
    (hb : b ≠ .barStep) (ha : s.absent l.wg = false) : s.wakes g = some (s.makeReady g) := by
  have hw : s.wake g = some (s.makeReady g) := by
    rw [State.wake, h]
    simp only [hs]
  have hstall : (s.makeReady g).pk.stall = s.pk.stall := by rw [State.makeReady_present h ha]
  rw [State.wakes, hw, Option.filter_some, hstall, Bool.not_or_self, if_pos rfl]

theorem happens_laneGroupWake (g : Nat) (l : Lg) (b : Block) :
    Happens (.laneGroupWake g) (fun s => s.lgs.find g = some l ∧ l.status = .blocked b true ∧ b ≠ .barStep ∧ s.absent l.wg = false)
      (fun s t => t.lgs.find g = some { l with status := .ready, parkAt := s.now, aged := false } ∧ t = { s with lgs := t.lgs }) :=
  fun s ⟨hl, hs, hb, ha⟩ => ⟨_, congrArg (fun o : Option State => (.next (o.getD s) : Out)) (State.wakes_blocked hl hs hb ha), State.makeReady_eff hl ha⟩

theorem happens_laneGroupAged (g : Nat) (l : Lg) :
    Happens (.laneGroupAged g) (fun s => s.lgs.find g = some l ∧ l.status = .ready ∧ l.aged = false ∧ s.inPlay l.wg = true ∧
        l.parkAt + 32 ≤ s.now)
      (fun s t => if ((List.range 32).all fun i => Config.ready (s.now - i) g) = true then
        t.lgs.find g = some { l with aged := true } ∧ t = { s with lgs := t.lgs } else t = s) := by
  rintro s ⟨hl, hs, ha, hp, ht⟩
  have hc : s.canAge g = (List.range 32).all fun i => Config.ready (s.now - i) g := by
    simp [State.canAge, hl, hs, ha, hp, ht]
  rw [show exec (.laneGroupAged g) s = execLaneGroupAged g s from rfl, execLaneGroupAged, event, hc]
  refine ⟨_, rfl, ?_⟩
  split
  · exact ⟨State.find_modLg_self _ hl, rfl⟩
  · rfl

theorem happens_yieldExpiry (g : Nat) (l : Lg) (os : List Nat) :
    Happens (.yieldExpiry g) (fun s => s.lgs.find g = some l ∧ l.status = .yielding os ∧ s.absent l.wg = false ∧
        (l.parkAt + 32 ≤ s.now ∨ os = []))
      (fun s t => t.lgs.find g = some { l with status := .ready, parkAt := s.now, aged := false } ∧ t = { s with lgs := t.lgs }) :=
  happens_cond (execYieldExpiry g) rfl (fun _ => rfl) (fun s ⟨hl, hs, _, ht⟩ => by simp [State.canUnyield, hl, hs, ht])
    fun _ ⟨hl, _, ha, _⟩ => State.makeReady_eff hl ha

theorem happens_registerGrowGrant (g : Nat) (l : Lg) (core sc n : Nat) (r : List (Nat × Lg × Nat)) : Happens (.registerGrowGrant core sc)
    (fun s => s.growers core sc = (g, l, n) :: r ∧ s.lgs.find g = some l ∧ n - l.regs ≤ s.freeRegs core (s.core core).act sc)
    (fun s t => t.lgs.find g = some { l with grown := some n, status := .blocked (.rgrow n 0 0) true } ∧ t = { s with lgs := t.lgs }) := by
  refine happens_cond (execRegisterGrowGrant core sc) rfl (fun _ => rfl) (fun s ⟨hg, _, hn⟩ => by simp [State.canGrow, hg, hn])
    fun s ⟨hg, hl, _⟩ => ?_
  simp only [hg]
  exact ⟨State.find_modLg_self _ hl, rfl⟩

theorem happens_parkTimeout (g : Nat) (l : Lg) (w : Wg) :
    Happens (.parkTimeout g) (fun s => s.lgs.find g = some l ∧ s.canTimeout g = true ∧ s.wgs.find l.wg = some w)
      (fun s t => t.wgs.find l.wg = some { w with st := .leaving, spill := s.freeSpill (s.wgVf l.wg) } ∧ t = { s with wgs := t.wgs }) := by
  refine happens_cond (execParkTimeout g) rfl (fun _ => rfl) (fun s h => h.2.1) fun s ⟨hl, _, hw⟩ => ?_
  have hwg : s.wgOf g = l.wg := by rw [State.wgOf, hl]; rfl
  rw [hwg]
  exact ⟨State.find_modWg_self _ hw, rfl⟩

theorem exec_fetchLineArrive {g : Nat} {s s1 : State} {c : Ctx} {ln : FetchLine}
    (hctx : ({ s with cur := g, pk := { s.pk with before := none } } : State).ctx? = some c) (hs : c.lg.status = .ready)
    (hw : c.wg.st = .resident) (hf : (c.lg.fetched.map (·.1)) ≠ some (lineVa c.lg.pc))
    (hl : s.fetchLine c (lineVa c.lg.pc) = (s1, .line ln)) :
    exec (.fetchLineArrive g) s = .next (if s1.pk.stall = true ∧ s.pk.stall = false then s else s1) := by
  show execFetchLineArrive g s = _
  rw [execFetchLineArrive, hctx]
  dsimp only
  rw [memEvent_of (by simpa [hs, hw] using hf), State.unlessStalled_eq, hl]

theorem exec_pipeDeadlock {g : Nat} {l : Lg} {launch n slot : Nat} {first : DWord} {la : Launch} {s : State} {c : Ctx}
    (hd : s.deadlocked launch = true) (hla : s.launches.find launch = some la)
    (hgs : (s.gangLgs launch).filter (fun p => p.2.pipeName.isSome) = [(g, l)]) (hn : l.pipeName = some (n, first, slot)) :
    let r := s.tenantRec la.vf [recHead .pipe 13 la.part la.vf 0 0 0 0, la.recWhere, if la.gang then la.gid else n, s.time]
    let u : State := { r.makeReady g with cur := g, pk := { idx := l.pc, first := first, slot := slot } }
    u.ctx? = some c → exec (.pipeDeadlock launch) s = .next (u.raiseR c .pipe c.exMask (BitVec.ofNat 64 n)) := by
  intro r u hc
  show execPipeDeadlock launch s = _
  rw [execPipeDeadlock, event_of hd]
  refine congrArg Host.Outcome.next ?_
  simp only [hla, hgs, List.head?_cons, Option.bind_some, hn, Option.map_some, Option.getD_some, List.foldl_cons, List.foldl_nil]
  exact congrArg (fun o : Option Ctx => match o with
    | none => u
    | some c => u.raiseR c .pipe c.exMask (BitVec.ofNat 64 n)) hc

theorem happens_growthDeadlock (core sc w : Nat) (g : Wg) : Happens (.growthDeadlock core sc)
    (fun s => s.growStuck core sc = true ∧ s.growVictim core sc = some w ∧ s.canSwapOut w = true ∧ s.wgs.find w = some g)
    (fun s t => t.wgs.find w = some { g with st := .leaving, spill := s.freeSpill (s.wgVf w) } ∧ t = { s with wgs := t.wgs }) := by
  refine happens_cond (execGrowthDeadlock core sc) rfl (fun _ => rfl) (fun s ⟨hs, hv, hw, _⟩ => by simp [State.canUnstick, hs, hv, hw])
    fun s ⟨_, hv, _, hw⟩ => ?_
  simp only [hv]
  exact ⟨State.find_modWg_self _ hw, rfl⟩

/-! ## Messages, handlers and clocks -/

theorem arrives_amArrive (id : Nat) (m : Msg) :
    Arrives (.amArrive id) (.amArrive id) (fun s => s.msgs.find id = some m ∧ s.canArrive id m = true)
      (fun s t => t = (s.modCore m.dst fun k => { k with inq := k.inq ++ [id] }).endCmd m.cmd) := by
  refine arrives_fire (f := fun _ s => (s.modCore m.dst fun k => { k with inq := k.inq ++ [id] }).endCmd m.cmd) (fun s ⟨hm, hc⟩ => ?_)
    fun _ _ => rfl
  show execAmArrive id s = _
  rw [execAmArrive, hm]
  simp [hc]

theorem State.addWg_core (s : State) (w : Wg) (alloc entry c : Nat) : (s.addWg w alloc entry).core c = s.core c := rfl

theorem happens_handlerStart (id : Nat) (m : Msg) (core : Nat) :
    Happens (.handlerStart core) (fun s => s.nextMsg core = some id ∧ s.msgs.find id = some m)
      (fun s t => (∃ w, t.wgs.find s.nseq = some w ∧ w.launch = m.owner ∧ w.kind = .handler id ∧ w.core = core ∧ w.nlg = 1) ∧
        (∃ x, t.lgs.find (s.nseq + 1) = some x ∧ x.wg = s.nseq ∧ x.hnd = true ∧ x.alloc = 64) ∧
        (t.core core).inq = (s.core core).inq.erase id ∧ Ev.workgroupStart s.nseq ∈ t.pending) := by
  rintro s ⟨hn, hm⟩
  set u := s.modCore core fun k => { k with inq := k.inq.erase id } with hu
  have hm' : u.msgs.find id = some m := hm
  refine ⟨_, ?_, u.addWg_wg { launch := m.owner, kind := .handler id, core := core, home := core, nlg := 1, bank := (u.core core).target } 64 0,
    u.addWg_lg rfl 64 0, ?_, u.addWg_pending ..⟩
  · show execHandlerStart core s = _
    simp only [execHandlerStart, hn, ← hu, hm']
  · rw [State.addWg_core, hu, State.core_modCore, if_pos rfl]

theorem happens_ptsTick (core : Nat) : Happens (.ptsTick core) (fun s => core < 192 ∧ (s.core core).ticks < s.now / 256)
    (fun s t => t.core core = { s.core core with ticks := (s.core core).ticks + 1, pts := (s.core core).pts + 1 } ∧
      (∀ c, c ≠ core → t.core c = s.core c) ∧ t = { s with cores := t.cores }) :=
  happens_cond (execPtsTick core) rfl (fun _ => rfl) (fun _ ⟨hc, ht⟩ => by simp [hc, ht]) fun _ _ =>
    ⟨(State.core_modCore ..).trans (if_pos rfl), fun _ h => (State.core_modCore ..).trans (if_neg h), rfl⟩

/-- Settles O50: each event by what it does to its barrier, its lane group or its core. -/
theorem schedulingEvents : Obligations.SchedulingEvents := by
  unfold Obligations.SchedulingEvents
  refine ⟨happens_wgBarrierComplete, happens_spanBarrierComplete, fun l la => ⟨happens_stepBarrierComplete l la,
    fun n => performs_stepBarrierComplete l n la⟩, fun g l b => ⟨happens_laneGroupWake g l b, happens_laneGroupAged g l,
      happens_yieldExpiry g l, happens_registerGrowGrant g l, happens_parkTimeout g l,
      fun s s1 c ln => exec_fetchLineArrive, fun launch n slot first la s c => exec_pipeDeadlock⟩, happens_growthDeadlock,
    fun id m => ⟨arrives_amArrive id m, happens_handlerStart id m⟩, happens_ptsTick⟩

end Sys2Proof.Machine
end

section
/-! SUPPORT. What the operations that words of majors 12 and 13 share do: a word's check that fails or does not, a commit that comes first,
the translation and the reading of a command's pieces, records, and uniform registers. -/

set_option Elab.async false

namespace Sys2Proof.Machine

/-! ## The outcome of a word -/

/-- A word that may reach memory and meets no line of an engine. -/
theorem memWord_next {i : Instr} {s : State} {c : Ctx} (f : Ctx → State → State) (h : s.ctx? = some c) (hw : wellFormed i = true)
    (hu : (f c s).pk.stall = true → s.pk.stall = true) : memWord i s f = .next (f c s) := by
  refine (word_next _ h hw).trans (congrArg Host.Outcome.next ?_)
  cases ht : (f c s).pk.stall with
  | false => simp [ht]
  | true => simp [hu ht]

theorem Ctx.exIll_of {c : Ctx} {b : Bool} (h : b = true) : c.exIll b = [⟨6, .illegal, c.exMask⟩] := if_pos h

theorem Ctx.exIll_nil {c : Ctx} {b : Bool} (h : b = false) : c.exIll b = [] := if_neg (by simp [h])

theorem Ctx.exF_of {c : Ctx} {b : Bool} (k : Cause) (h : b = true) : c.exF b k = [⟨k.rank, k, c.exMask⟩] := if_pos h

theorem Ctx.exF_nil {c : Ctx} {b : Bool} (k : Cause) (h : b = false) : c.exF b k = [] := if_neg (by simp [h])

theorem State.checked_ok {s : State} {c : Ctx} {b : Bool} (h : b = false) (k : State → State) : s.checked c (c.exIll b) k = k s := by
  rw [Ctx.exIll_nil h, State.checked_nil]

theorem State.checked_illegal {s : State} {c : Ctx} {b : Bool} (h : b = true) (k : State → State) :
    Raises .illegal 6 Ctx.exMask c s (s.checked c (c.exIll b) k) := by
  rw [Ctx.exIll_of h]
  rfl

theorem State.afterAcquire_of {s : State} {c : Ctx} (h : s.acquiring c.g = false) (k : State → State) : s.afterAcquire c k = k s :=
  if_neg (by simp [h])

theorem State.afterAcquire_held {s : State} {c : Ctx} (h : s.acquiring c.g = true) (k : State → State) : s.afterAcquire c k = s.holdBack c :=
  if_pos h

theorem State.afterCommit_of {s : State} {c : Ctx} (h : CommitOk c s) (k : State → State) : s.afterCommit c k = k (Committed c s) := by
  unfold State.afterCommit Committed
  cases hs : c.la.staged with
  | false => rfl
  | true => simp [h hs]

theorem State.afterCommit_held {s : State} {c : Ctx} (h : ¬ CommitOk c s) (k : State → State) : s.afterCommit c k = s.holdBack c := by
  simp only [CommitOk, Classical.not_imp, Bool.not_eq_false] at h
  obtain ⟨hs, hw⟩ := h
  simp [State.afterCommit, hs, hw]

/-! ## Commits -/

theorem State.commitLine_under (s : State) (g : Wg) (ts ln : Nat) : Under s (s.commitLine g ts ln) := by
  unfold State.commitLine
  extract_lets cells s1 s2 s3 s4
  have h1 : Under s s1 := by
    unfold s1
    split
    · exact State.asKey_under ..
    · exact Under.refl s
  have h2 : Under s1 s2 := by
    unfold s2
    split
    · exact Under.refl s1
    · exact Under.foldl _ (fun _ _ => State.writeBytes_under ..) _ _
  have h3 : Under s2 s3 := Under.foldl _ (fun s i => by
    split
    · exact State.setPois_under ..
    · exact Under.refl s) _ _
  have h4 : Under s3 s4 := Under.foldl _ (fun _ _ => State.setPois_under ..) _ _
  exact h1.trans (h2.trans (h3.trans (h4.trans ((State.setDir_under ..).trans (State.keepL2_under ..)))))

theorem State.commitStaged_lgs (s : State) (w : Nat) : (s.commitStaged w).lgs = s.lgs := by
  unfold State.commitStaged
  split
  · rfl
  · split
    · rfl
    · extract_lets bad s1 lines s2 ts s3 s4
      have h1 : Under s s1 := Under.foldl _ (fun _ _ => State.gateRec_under ..) _ _
      have h2 : Under s1 s2 := Under.foldl _ State.publishLine_under _ _
      have h3 : Under s2 s3 := Under.foldl _ (fun _ _ => State.commitLine_under ..) _ _
      have h4 : s4.lgs = s3.lgs := by
        unfold s4
        split <;> rfl
      exact h4.trans (h1.trans (h2.trans h3)).1.lgs

theorem State.tenantRec_lgs (s : State) (vf : Nat) (ws : List Nat) : (s.tenantRec vf ws).lgs = s.lgs := (State.tenantRec_under s vf ws).1.lgs

theorem State.forcedCommit_lgs (s : State) (w : Nat) : (s.forcedCommit w).lgs = s.lgs := by
  unfold State.forcedCommit
  split
  · rfl
  · split
    · rfl
    · split
      · rfl
      · split
        · exact State.commitStaged_lgs s w
        · exact (State.tenantRec_lgs ..).trans (State.commitStaged_lgs s w)

theorem Committed_lgs (c : Ctx) (s : State) : (Committed c s).lgs = s.lgs := by
  unfold Committed
  split
  · exact State.forcedCommit_lgs ..
  · rfl

/-! ## Translation and reading of a command's pieces -/

theorem State.laneXlate_under (s : State) (c : Ctx) (align need lane va : Nat) : Under s (s.laneXlate c align need lane va).1 := by
  unfold State.laneXlate
  split
  · exact Under.refl s
  · exact State.xlate_under ..

theorem State.xlateGrans_under (c : Ctx) (need : Nat) : ∀ (l : Tab Nat) (s : State), Under s (s.xlateGrans c need l).1
  | [], s => Under.refl s
  | (g, va) :: r, s => by
    have h := (State.laneXlate_under s c 1 need c.exLane va).trans (State.xlateGrans_under c need r _)
    rw [State.xlateGrans]
    dsimp only
    split <;> exact h

theorem Walked_lgs (c : Ctx) (s : State) (need : Nat) (ps : List (Nat × Nat)) : (Walked c s need ps).1.lgs = s.lgs :=
  (State.xlateGrans_under c need _ s).1.lgs

/-- Addresses that all translate give no trap. -/
theorem State.replayTrap_none (s : State) {as : List LaneAddr} (h : ∀ a ∈ as, a.cause = .none) (acc : Option Nat) :
    s.replayTrap as acc = none := by
  have hbad : (as.filter fun a => a.cause != .none) = [] := by
    rw [List.filter_eq_nil_iff]
    simpa using h
  rw [State.replayTrap, hbad]
  rfl

theorem State.withGrans_of {s : State} {c : Ctx} {need : Nat} {ps : List (Nat × Nat)} (h : GransOk c s need ps) (kind : Nat)
    (k : Tab (Nat × Nat) → State → State) : s.withGrans c need kind ps k = k (Walked c s need ps).2 (Walked c s need ps).1 := by
  rw [State.withGrans]
  dsimp only
  rw [State.replayTrap_none _ h.1]
  rfl

/-- A misaligned address raises `align` on the executing lane. -/
theorem State.alignTrap_faults (s : State) (c : Ctx) (va : Ctx → Nat) : Faults .align va c s (s.alignTrap c (va c)) :=
  ⟨{ cause := .align, rank := Cause.rank .align, slot := s.pk.slot, run := s.pk.first ≠ s.pk.idx, fm := maskOf [c.exLane]
     tva := BitVec.ofNat 64 (va c), fpc := s.pk.idx, resume := s.pk.idx, replaying := true },
    rfl, by simp [maskOf], rfl, rfl, rfl, rfl⟩

theorem State.roomL1_under (s : State) (a ln : Nat) : Under s (s.roomL1 a ln) := by
  unfold State.roomL1
  extract_lets held
  split
  · exact Under.refl s
  · have hd : Under s s.draw.2 := Under.of_eq rfl rfl rfl rfl
    dsimp only
    split
    · exact hd.trans (State.dropCopy_under ..)
    · exact hd

theorem State.obtain_under (s : State) (agent ln va kid : Nat) (offs : List Nat) : Under s (s.obtain agent ln va kid offs) := by
  unfold State.obtain
  extract_lets k pts s1 s2 s3 d
  split
  · exact Under.refl s
  · split
    · exact State.stalled_under s
    · have h1 : Under s s1 := State.landPublishes_under ..
      have h2 : Under s1 s2 := Under.foldl _ (fun _ _ => State.publishFrom_under ..) _ _
      have h3 : Under s2 s3 := State.asKey_under ..
      have hg : Under ((s3.setDir ln { d with rts := max d.rts (max (d.wts + 16) (pts + 16)) }).keepL2 ln false)
          (((s3.setDir ln { d with rts := max d.rts (max (d.wts + 16) (pts + 16)) }).keepL2 ln false).grant agent ln va) :=
        (State.roomL1_under ..).trans (State.setCopies_under ..)
      exact h1.trans (h2.trans (h3.trans ((State.setDir_under ..).trans ((State.keepL2_under ..).trans hg))))

/-- The lane groups of `s` still stand in `t`. -/
def LgsStay (s t : State) : Prop := ∀ g, (s.lgs.find g).isSome = true → (t.lgs.find g).isSome = true

theorem LgsStay.of_lgs {s t : State} (h : t.lgs = s.lgs) : LgsStay s t := fun g hg => by rwa [h]

theorem LgsStay.trans {s t u : State} (h : LgsStay s t) (k : LgsStay t u) : LgsStay s u := fun g hg => k g (h g hg)

theorem LgsStay.modLg (s : State) (g : Nat) (f : Lg → Lg) : LgsStay s (s.modLg g f) := fun h hh => by
  rw [State.find_modLg]
  split
  · next e => subst e; simpa using hh
  · exact hh

theorem State.lateGate_stay (s : State) (part vf core wg lg seq fpc info : Nat) : LgsStay s (s.lateGate part vf core wg lg seq fpc info) := by
  unfold State.lateGate
  extract_lets r s1
  have h1 : LgsStay s s1 := .of_lgs (State.mgrRec_under s r).1.lgs
  split
  · exact h1.trans (.modLg _ _ _)
  · exact h1.trans (.of_lgs (State.tenantRec_lgs ..))

theorem State.readPiece_stay (c : Cmd) (a : State × Got) (off va n : Nat) : LgsStay a.1 (State.readPiece c a off va n).1 := by
  unfold State.readPiece
  split
  split
  · exact .of_lgs rfl
  · dsimp only
    split
    · dsimp only
      split
      · exact State.lateGate_stay _ _ _ _ _ _ _ _ _
      · exact .of_lgs rfl
    · exact (LgsStay.of_lgs (State.obtain_under ..).1.lgs).trans (.modLg _ _ _)

theorem State.readPieces_stay (c : Cmd) : ∀ (ps : List (Nat × Nat)) (off : Nat) (a : State × Got), LgsStay a.1 (State.readPieces c off ps a).1
  | [], _, _ => .of_lgs rfl
  | (va, n) :: r, off, a => (State.readPiece_stay c a off va n).trans (State.readPieces_stay c r (off + n) _)

/-! ## Records and traps -/

/-- What a record does about a line that an engine owns, it keeps to itself (R408). -/
theorem State.orLate_stall {s : State} {ring : Nat} {ws : List Nat} {put : State → State} (h : (s.orLate ring ws put).pk.stall = true) :
    s.pk.stall = true := by
  unfold State.orLate at h
  extract_lets late t at h
  split at h
  · exact h
  · split at h
    · exact h
    · next hn =>
      by_contra hs
      exact hn (by simp [t, h, hs])

theorem State.tenantRec_stall {s : State} {vf : Nat} {ws : List Nat} (h : (s.tenantRec vf ws).pk.stall = true) : s.pk.stall = true :=
  State.orLate_stall h

theorem State.mgrRec_stall {s : State} {ws : List Nat} (h : (s.mgrRec ws).pk.stall = true) : s.pk.stall = true := by
  unfold State.mgrRec at h
  split at h
  · exact h
  · exact State.orLate_stall h

theorem State.stopLg_stall {s : State} {g : Nat} {k : Cause} (h : (s.stopLg g k).pk.stall = true) : s.pk.stall = true := by
  unfold State.stopLg at h
  split at h
  · exact h
  · split at h
    · exact h
    · split at h
      · exact h
      · dsimp only at h
        exact (State.tenantRec_stall h :)

theorem State.discardNode_pk (s : State) (l : Nat) (k : Cause) : (s.discardNode l k).pk = s.pk := by
  unfold State.discardNode State.postOnce
  split <;> rfl

/-- Taking an exception meets no line of an engine. -/
theorem State.takeTrap_stall {s : State} {c : Ctx} {x : Trap} {kind : Nat} (h : (s.takeTrap c x kind).pk.stall = true) :
    s.pk.stall = true := by
  unfold State.takeTrap at h
  extract_lets pk s1 own at h
  split at h
  · exact State.mgrRec_stall (s := s1) h
  · split at h
    · rw [State.discardNode_pk] at h
      exact h
    · split at h
      · split at h
        · exact h
        · exact State.stopLg_stall (s := s1.modLg c.g fun l => { l.record x with pc := x.fpc }) h
      · exact h

/-! ## Uniform registers -/

theorem State.find_wrK (s : State) (w n b : Nat) (x : DWord) (v : Nat) : (s.wrK w n b x).wgs.find v =
    if v = w then (s.wgs.find w).map (fun g => { g with k := g.k.setD 0 n x }) else s.wgs.find v := by
  unfold State.wrK
  split
  · next h =>
    split
    · next e => rw [e, h]; rfl
    · rfl
  · exact State.find_modWg ..

theorem State.wrK_frame (s : State) (w n b : Nat) (x : DWord) :
    s.wrK w n b x = { s with wgs := (s.wrK w n b x).wgs, lgs := (s.wrK w n b x).lgs } := by
  unfold State.wrK
  split <;> rfl

/-- A write of a uniform register changes in the lane groups only what they still read of it (R64). -/
theorem State.wrK_lgs (s : State) (w n b : Nat) (x : DWord) (h : Nat) :
    ((s.wrK w n b x).lgs.find h).map (fun l => { l with kv := [] }) = (s.lgs.find h).map (fun l => { l with kv := [] }) := by
  unfold State.wrK
  split
  · rfl
  · next g hg =>
    refine (congrArg _ (Tab.find_map (fun l : Lg => if l.wg = w ∧ l.lgn ≠ b ∧ Tab.getD g.k 0 n ≠ x then
      { l with kv := l.kv.put n (((l.kv.find n).getD []) ++ [Tab.getD g.k 0 n]) } else l) (fun _ => rfl) h s.lgs)).trans ?_
    rw [Option.map_map]
    congr 1
    funext l
    dsimp only [Function.comp]
    split <;> rfl

theorem State.wrK_kEff {s : State} {c : Ctx} (h : s.wgs.find c.lg.wg = some c.wg) (n b : Nat) (x : DWord) :
    KEff n (fun _ => x) c s (s.wrK c.lg.wg n b x) := by
  refine ⟨⟨{ c.wg with k := c.wg.k.setD 0 n x }, ?_, fun m => Tab.getD_setD .., rfl⟩, fun u hu => ?_, State.wrK_lgs s _ n b x,
    State.wrK_frame ..⟩
  · rw [State.find_wrK, if_pos rfl, h]
    rfl
  · rw [State.find_wrK, if_neg hu]

end Sys2Proof.Machine
end

section
/-! SUPPORT. What the words of tasks, program launches and node commits do (R377 to R380). -/

set_option Elab.async false

namespace Sys2Proof.Machine

variable {s : State} {c : Ctx}

/-! ## `task.spawn` (R377) -/

/-- What `task.spawn` does in the machine that its commit leaves. -/
def TaskSpawned (c : Ctx) (r g : BitVec 5) (p : BitVec 3) (s : State) : State :=
  let lo := (c.kr r.toNat).toNat
  let hi := (c.kr (r.toNat + 1)).toNat
  let ok := decide (hi ≤ lo) || decide ((s.part c.part).tasks.length < 1024)
  let s := if lo < hi && ok then s.modPart c.part fun q =>
      Part.water { q with tasks := q.tasks.put (s.nseq) ⟨c.wg.launch, lo, hi, bits (c.kr g.toNat) 0 32, (c.kr (g.toNat + 1)).toNat,
        (s.core c.core).pts, none⟩ }
    else s
  ({ s with nseq := s.nseq + 1 }).up c fun l => l.setQ p.toNat (allQ ok)

/-- Whether the operands of `task.spawn` are refused: a zero grain, a reserved bit, an unaligned entry. -/
def badSpawn (c : Ctx) (g : BitVec 5) : Bool :=
  bits (c.kr g.toNat) 0 32 == 0 || bits (c.kr g.toNat) 32 32 != 0 || (c.kr (g.toNat + 1)).toNat % 128 != 0

theorem badSpawn_eq_false {g : BitVec 5} : badSpawn c g = false ↔
    bits (c.kr g.toNat) 0 32 ≠ 0 ∧ bits (c.kr g.toNat) 32 32 = 0 ∧ (c.kr (g.toNat + 1)).toNat % 128 = 0 := by
  simp [badSpawn, and_assoc]

theorem exec_taskSpawn {r g : BitVec 5} {p : BitVec 3} (h : s.ctx? = some c) (hw : wellFormed (.taskSpawn r g p) = true) :
    exec (.taskSpawn r g p) s = .next (s.checked c (c.exIll (badSpawn c g)) fun s =>
      if !s.quiet c.g || s.acquiring c.g then s.holdBack c else s.afterCommit c (TaskSpawned c r g p)) := by
  show execTaskSpawn r g p s = _
  rw [execTaskSpawn, word_next _ h hw]
  rfl

/-- `task.spawn` issues: its operands are good, nothing earlier is under way, and no engine holds the commit back. -/
theorem exec_taskSpawn_of {r g : BitVec 5} {p : BitVec 3} (h : s.ctx? = some c) (hw : wellFormed (.taskSpawn r g p) = true)
    (hg : badSpawn c g = false) (hq : s.quiet c.g = true) (ha : s.acquiring c.g = false) (hc : CommitOk c s) :
    exec (.taskSpawn r g p) s = .next (TaskSpawned c r g p (Committed c s)) := by
  rw [exec_taskSpawn h hw, State.checked_ok hg, if_neg (by simp [hq, ha]), State.afterCommit_of hc]

theorem exec_taskSpawn_held {r g : BitVec 5} {p : BitVec 3} (h : s.ctx? = some c) (hw : wellFormed (.taskSpawn r g p) = true)
    (hg : badSpawn c g = false) (hh : s.quiet c.g = false ∨ s.acquiring c.g = true ∨ ¬ CommitOk c s) :
    exec (.taskSpawn r g p) s = .next (s.holdBack c) := by
  rw [exec_taskSpawn h hw, State.checked_ok hg]
  split
  · rfl
  · next hn =>
    have hc : ¬ CommitOk c s := by
      obtain hq | ha | hc := hh
      · simp [hq] at hn
      · simp [ha] at hn
      · exact hc
    rw [State.afterCommit_held hc]

/-- The answer of a word in the machine `u`: a predicate of its lane group, beside what it does to partitions and issue numbers. -/
def Answers (p : BitVec 3) (w : Word) (c : Ctx) (u t : State) : Prop :=
  (∃ l0 l', u.lgs.find c.g = some l0 ∧ t.lgs.find c.g = some l' ∧ PredWrite 0xFFFFFFFF p.toNat w l0 l') ∧
    (∀ h, h ≠ c.g → t.lgs.find h = u.lgs.find h) ∧ t = { u with lgs := t.lgs, parts := t.parts, nseq := t.nseq }

theorem answers_up {u v : State} {c : Ctx} {l : Lg} (h : u.lgs.find c.g = some l) (hv : v = { u with parts := v.parts, nseq := v.nseq })
    (p : BitVec 3) (w : Word) : Answers p w c u (v.up c fun l => l.setQ p.toNat w) := by
  have hl : v.lgs = u.lgs := by rw [hv]
  refine ⟨⟨l, _, h, State.find_modLg_self _ (hl ▸ h), Lg.setQ_predWrite ..⟩, fun k hk => ?_, ?_⟩
  · exact (State.find_modLg ..).trans ((if_neg hk).trans (congrArg (Tab.find · k) hl))
  · rw [hv]
    rfl

theorem Committed_find (h : s.ctx? = some c) : (Committed c s).lgs.find c.g = some c.lg := by
  obtain ⟨hg, hl, -, -⟩ := State.ctx?_spec h
  rw [Committed_lgs, hg, hl]

theorem TaskSpawned_adds {r g : BitVec 5} {p : BitVec 3} {u : State} {l : Lg} (h : u.lgs.find c.g = some l)
    (hlt : (c.kr r.toNat).toNat < (c.kr (r.toNat + 1)).toNat) (hroom : (u.part c.part).tasks.length < 1024) :
    let t := TaskSpawned c r g p u
    Answers p 0xFFFFFFFF c u t ∧ ∃ id x, Tab.find (t.part c.part).tasks id = some x ∧ x.launch = c.wg.launch ∧
      x.cur = (c.kr r.toNat).toNat ∧ x.hi = (c.kr (r.toNat + 1)).toNat ∧ x.g = bits (c.kr g.toNat) 0 32 ∧
      x.entry = (c.kr (g.toNat + 1)).toNat ∧ x.holder = none ∧
      ∀ n, n ≠ id → Tab.find (t.part c.part).tasks n = Tab.find (u.part c.part).tasks n := by
  intro t
  set x : Task := ⟨c.wg.launch, (c.kr r.toNat).toNat, (c.kr (r.toNat + 1)).toNat, bits (c.kr g.toNat) 0 32,
    (c.kr (g.toNat + 1)).toNat, (u.core c.core).pts, none⟩ with hx
  set v := u.modPart c.part fun q => Part.water { q with tasks := q.tasks.put u.nseq x } with hv
  have ht : t = ({ v with nseq := v.nseq + 1 }).up c fun l => l.setQ p.toNat 0xFFFFFFFF := by
    simp only [t, TaskSpawned, hroom, hlt, decide_true, Bool.or_true, Bool.and_true, if_true]
    rfl
  have hp : (t.part c.part).tasks = (u.part c.part).tasks.put u.nseq x := by
    rw [ht]
    show (v.part c.part).tasks = _
    rw [hv, State.part_modPart, if_pos rfl]
    rfl
  refine ⟨ht ▸ answers_up h rfl p _, u.nseq, x, ?_, rfl, rfl, rfl, rfl, rfl, rfl, fun n hn => ?_⟩
  · rw [hp, Tab.find_put_self]
  · rw [hp, Tab.find_put_other _ _ hn]

/-- A range that is empty, or a pool that is full: only the answer is given. -/
theorem TaskSpawned_none {r g : BitVec 5} {p : BitVec 3} {u : State} {l : Lg} {ok : Bool} (h : u.lgs.find c.g = some l)
    (hok : (decide ((c.kr (r.toNat + 1)).toNat ≤ (c.kr r.toNat).toNat) || decide ((u.part c.part).tasks.length < 1024)) = ok)
    (hn : ¬ ((c.kr r.toNat).toNat < (c.kr (r.toNat + 1)).toNat ∧ ok = true)) :
    let t := TaskSpawned c r g p u
    Answers p (allQ ok) c u t ∧ t.parts = u.parts := by
  intro t
  have ht : t = ({ u with nseq := u.nseq + 1 }).up c fun l => l.setQ p.toNat (allQ ok) := by
    simp only [t, TaskSpawned, hok]
    rw [if_neg (by simpa using hn)]
  rw [ht]
  exact ⟨answers_up h rfl p _, rfl⟩

/-! ## `task.spawn.l` (R378) -/

/-- The machine in which a program launch's packet has been read, and what the read got. -/
def PacketRead (c : Ctx) (s : State) (va : Nat) : State × Got :=
  let x := Walked c s 1 (pieces va 64)
  State.readPieces { c.cmd (Committed c x.1) none .commit with gran := x.2 } 0 (pieces va 64) (Committed c x.1, {})

/-- The launch that a packet which has been read makes, and the answer to it. -/
def LaunchTaken (c : Ctx) (q : Nat) (p : BitVec 3) (u : State) (got : Got) : State :=
  let words := (List.range 8).map fun i => BitVec.ofNat 64 (leNat ((List.range 8).map fun j => Tab.getD got.bytes 0 (8 * i + j)))
  let s := u.takeLaunch words c.vf q (u.vrBits c.vf (0x110 + 32 * q) 0 32) u.nseq (u.core c.core).pts
  let s := if (s.launches.find u.nseq).isSome then s.modPart c.part fun x => { x with plb := x.plb ++ [u.nseq] } else s
  s.up c fun l => l.setQ p.toNat 0xFFFFFFFF

/-- What `task.spawn.l` does once its packet is read. -/
def LaunchSpawned (c : Ctx) (q : Nat) (p : BitVec 3) (u : State) (got : Got) : State :=
  match worst got.errs with
  | (.none, _) => if 64 ≤ (u.part c.part).plb.length then u.up c fun l => l.setQ p.toNat 0 else LaunchTaken c q p u got
  | (k, _) => u.raiseR c (if k = .deferred && !got.pois.isEmpty then .poison else k) c.exMask

/-- Whether the queue that `task.spawn.l` names is not there. -/
def noQueue (c : Ctx) (q : Nat) (s : State) : Bool := decide (8 ≤ q) || decide (2 ^ s.winBits (oVFM c.vf) 5 2 ≤ q)

theorem noQueue_eq_false {q : Nat} : noQueue c q s = false ↔ q < 8 ∧ q < 2 ^ s.winBits (oVFM c.vf) 5 2 := by
  simp [noQueue]

/-- What `task.spawn.l` does, but for a line that an engine owns. -/
def SpawnLaunch (c : Ctx) (va q : Nat) (p : BitVec 3) (s : State) : State :=
  s.checked c (c.exIll (noQueue c q s)) fun s =>
    if va % 64 ≠ 0 then s.alignTrap c va
    else if !s.quiet c.g || s.acquiring c.g then s.holdBack c
    else s.withGrans c 1 0 (pieces va 64) fun g s => s.afterCommit c fun s =>
      let r := State.readPieces { c.cmd s none .commit with gran := g } 0 (pieces va 64) (s, {})
      LaunchSpawned c q p r.1 r.2

theorem exec_taskSpawnL {r u : BitVec 5} {p : BitVec 3} (h : s.ctx? = some c) (hw : wellFormed (.taskSpawnL r u p) = true)
    (hu : (SpawnLaunch c (c.kr r.toNat).toNat (c.kr u.toNat).toNat p s).pk.stall = true → s.pk.stall = true) :
    exec (.taskSpawnL r u p) s = .next (SpawnLaunch c (c.kr r.toNat).toNat (c.kr u.toNat).toNat p s) :=
  memWord_next (fun c s => SpawnLaunch c (c.kr r.toNat).toNat (c.kr u.toNat).toNat p s) h hw hu

theorem SpawnLaunch_illegal {va q : Nat} {p : BitVec 3} (hq : noQueue c q s = true) :
    Raises .illegal 6 Ctx.exMask c s (SpawnLaunch c va q p s) := State.checked_illegal hq _

theorem SpawnLaunch_align {va q : Nat} {p : BitVec 3} (hq : noQueue c q s = false) (hv : va % 64 ≠ 0) :
    SpawnLaunch c va q p s = s.alignTrap c va := by
  rw [SpawnLaunch, State.checked_ok hq, if_pos hv]

theorem SpawnLaunch_held {va q : Nat} {p : BitVec 3} (hq : noQueue c q s = false) (hv : va % 64 = 0)
    (hf : ¬ (s.quiet c.g = true ∧ s.acquiring c.g = false)) : SpawnLaunch c va q p s = s.holdBack c := by
  have hn : (!s.quiet c.g || s.acquiring c.g) = true := by
    cases h1 : s.quiet c.g <;> cases h2 : s.acquiring c.g <;> simp_all
  rw [SpawnLaunch, State.checked_ok hq, if_neg (by simp [hv]), if_pos hn]

theorem SpawnLaunch_read {va q : Nat} {p : BitVec 3} (hq : noQueue c q s = false) (hv : va % 64 = 0) (hi : s.quiet c.g = true)
    (ha : s.acquiring c.g = false) (hg : GransOk c s 1 (pieces va 64)) (hc : CommitOk c (Walked c s 1 (pieces va 64)).1) :
    SpawnLaunch c va q p s = LaunchSpawned c q p (PacketRead c s va).1 (PacketRead c s va).2 := by
  rw [SpawnLaunch, State.checked_ok hq, if_neg (by simp [hv]), if_neg (by simp [hi, ha]), State.withGrans_of hg, State.afterCommit_of hc]
  rfl

/-- The packet's reader still stands where it is read. -/
theorem PacketRead_find (h : s.ctx? = some c) (va : Nat) : ∃ l, (PacketRead c s va).1.lgs.find c.g = some l := by
  obtain ⟨hg, hl, -, -⟩ := State.ctx?_spec h
  refine Option.isSome_iff_exists.mp (State.readPieces_stay _ _ _ _ c.g ?_)
  rw [Committed_lgs, Walked_lgs, hg, hl]
  rfl

/-! ### What the distributor does with the launch -/

theorem Below.launches {s t : State} (h : Below s t) : t.launches = s.launches := by
  have k := congrArg State.launches h.rest; exact k

/-- `t` meets no line of an engine that `s` does not meet, and has its lane groups. -/
def Tame (s t : State) : Prop := (t.pk.stall = true → s.pk.stall = true) ∧ t.lgs = s.lgs

theorem Tame.refl (s : State) : Tame s s := ⟨id, rfl⟩

theorem Tame.trans {s t u : State} (h : Tame s t) (k : Tame t u) : Tame s u := ⟨fun e => h.1 (k.1 e), k.2.trans h.2⟩

theorem Tame.foldl {β : Type} (f : State → β → State) (hf : ∀ s x, Tame s (f s x)) : ∀ (l : List β) (s : State), Tame s (l.foldl f s)
  | [], s => Tame.refl s
  | x :: r, s => (hf s x).trans (Tame.foldl f hf r (f s x))

theorem State.rejectRec_tame (s : State) (l : Launch) (k : Cause) : Tame s (s.rejectRec l k) :=
  ⟨State.tenantRec_stall, State.tenantRec_lgs ..⟩

/-- A gang that forms or is refused (R45). -/
theorem State.joinGang_tame (s : State) (id : Nat) : Tame s (s.joinGang id) := by
  unfold State.joinGang
  split
  · exact Tame.refl s
  · extract_lets ms clash ids refuse n
    have hr : Tame s (refuse s) :=
      (Tame.foldl _ (fun s (p : Nat × Launch) => State.rejectRec_tame s p.2 .pipe) ms s).trans
        ⟨fun h => h, rfl⟩
    have hi : Tame s (ids.foldl (fun s i => s.modLaunch i fun x => { x with st := .waiting, gangN := n }) { s with nseq := n + 1 }) :=
      Tame.trans (t := { s with nseq := n + 1 }) ⟨fun h => h, rfl⟩ 
        (Tame.foldl (fun s i => s.modLaunch i fun x => { x with st := .waiting, gangN := n }) (fun _ _ => ⟨fun h => h, rfl⟩) _ _)
    split
    · exact hr
    · split
      · exact Tame.refl s
      · split
        · exact hr
        · exact hi

theorem State.takeLaunch_tame (s : State) (words : List DWord) (vf queue lnum arrival pts : Nat) :
    Tame s (s.takeLaunch words vf queue lnum arrival pts) := by
  unfold State.takeLaunch
  extract_lets id l l1 s1
  have h1 : Tame s s1 := ⟨fun h => h, rfl⟩
  split
  · exact h1.trans (State.rejectRec_tame ..)
  · split
    · exact h1.trans (Tame.trans (t := { s1 with launches := s1.launches.put id { l1 with st := .gang } }) ⟨fun h => h, rfl⟩
        (State.joinGang_tame ..))
    · exact ⟨fun h => h, rfl⟩

theorem LaunchSpawned_taken {q : Nat} {p : BitVec 3} {u : State} {got : Got} (he : got.errs = [])
    (hr : (u.part c.part).plb.length < 64) : LaunchSpawned c q p u got = LaunchTaken c q p u got := by
  rw [LaunchSpawned, he]
  exact if_neg (not_le.mpr hr)

theorem LaunchSpawned_full {q : Nat} {p : BitVec 3} {u : State} {got : Got} (he : got.errs = [])
    (hr : 64 ≤ (u.part c.part).plb.length) : LaunchSpawned c q p u got = u.up c fun l => l.setQ p.toNat 0 := by
  rw [LaunchSpawned, he]
  exact if_pos hr

theorem LaunchSpawned_err {q : Nat} {p : BitVec 3} {u : State} {got : Got} (he : (worst got.errs).1 ≠ .none) :
    LaunchSpawned c q p u got =
      u.raiseR c (if (worst got.errs).1 = .deferred ∧ got.pois ≠ [] then .poison else (worst got.errs).1) c.exMask := by
  unfold LaunchSpawned
  split
  · next hk => exact absurd (by rw [hk]) he
  · next hk =>
    rw [hk]
    congr 2
    simp

/-- The distributor's answer to the launch that `task.spawn.l` makes (R31, R45, R378). -/
theorem LaunchTaken_eq (c : Ctx) (q : Nat) (p : BitVec 3) (u : State) (got : Got) :
    let l := Spawned c q got.bytes u
    let more : State := { u with nseq := u.nseq + 1 }
    let s := if more.badLaunch u.nseq l then more.rejectRec l .illegal
      else if l.gang then ({ more with launches := more.launches.put u.nseq { l with st := .gang } }).joinGang u.nseq
      else { more with launches := more.launches.put u.nseq l }
    LaunchTaken c q p u got = (if (s.launches.find u.nseq).isSome then s.modPart c.part fun x => { x with plb := x.plb ++ [u.nseq] }
      else s).up c fun l => l.setQ p.toNat 0xFFFFFFFF := rfl

theorem LaunchTaken_bad {q : Nat} {p : BitVec 3} {u : State} {got : Got}
    (hb : ({ u with nseq := u.nseq + 1 } : State).badLaunch u.nseq (Spawned c q got.bytes u) = true)
    (hn : u.launches.find u.nseq = none) :
    LaunchTaken c q p u got =
      (({ u with nseq := u.nseq + 1 } : State).rejectRec (Spawned c q got.bytes u) .illegal).modLg c.g fun x => x.setQ p.toNat 0xFFFFFFFF := by
  have hl : (({ u with nseq := u.nseq + 1 } : State).rejectRec (Spawned c q got.bytes u) .illegal).launches = u.launches :=
    (State.tenantRec_under ..).1.launches
  rw [LaunchTaken_eq]
  simp only [hb, if_true, hl, hn, Option.isSome_none, Bool.false_eq_true, if_false]
  rfl

theorem LaunchTaken_put {q : Nat} {p : BitVec 3} {u : State} {got : Got}
    (hb : ({ u with nseq := u.nseq + 1 } : State).badLaunch u.nseq (Spawned c q got.bytes u) = false)
    (hg : (Spawned c q got.bytes u).gang = false) :
    LaunchTaken c q p u got =
      (({ u with nseq := u.nseq + 1, launches := u.launches.put u.nseq (Spawned c q got.bytes u) } : State).modPart c.part
        fun x => { x with plb := x.plb ++ [u.nseq] }).up c fun l => l.setQ p.toNat 0xFFFFFFFF := by
  rw [LaunchTaken_eq]
  simp only [hb, hg, Bool.false_eq_true, if_false, Tab.find_put_self, Option.isSome_some, if_true]

/-- Whatever the launch comes to, its spawner has the answer. -/
theorem LaunchTaken_up (c : Ctx) (q : Nat) (p : BitVec 3) (u : State) (got : Got) :
    ∃ v, Tame u v ∧ LaunchTaken c q p u got = v.up c fun l => l.setQ p.toNat 0xFFFFFFFF := by
  refine ⟨_, ?_, rfl⟩
  have h := State.takeLaunch_tame u
    ((List.range 8).map fun i => BitVec.ofNat 64 (leNat ((List.range 8).map fun j => Tab.getD got.bytes 0 (8 * i + j)))) c.vf q
    (u.vrBits c.vf (0x110 + 32 * q) 0 32) u.nseq (u.core c.core).pts
  split
  · exact h.trans ⟨fun h => h, rfl⟩
  · exact h

theorem LaunchSpawned_stall {q : Nat} {p : BitVec 3} {u : State} {got : Got} (h : (LaunchSpawned c q p u got).pk.stall = true) :
    u.pk.stall = true := by
  unfold LaunchSpawned at h
  split at h
  · split at h
    · exact h
    · obtain ⟨v, hv, he⟩ := LaunchTaken_up c q p u got
      rw [he] at h
      exact hv.1 h
  · exact State.takeTrap_stall h

theorem State.part_up (s : State) (c : Ctx) (f : Lg → Lg) (n : Nat) : (s.up c f).part n = s.part n := rfl

theorem Lg.setQ_qAt (l : Lg) (n : Nat) (w : Word) : (l.setQ n w).qAt n = w := by simp [Lg.setQ, Lg.qAt, Tab.getD_setD]

/-- A launch that is not refused and of no gang stands behind those of the launch buffer. -/
theorem LaunchSpawned_put {q : Nat} {p : BitVec 3} {u : State} {got : Got} {l : Lg} (hl : u.lgs.find c.g = some l) (he : got.errs = [])
    (hr : (u.part c.part).plb.length < 64)
    (hb : ({ u with nseq := u.nseq + 1 } : State).badLaunch u.nseq (Spawned c q got.bytes u) = false)
    (hg : (Spawned c q got.bytes u).gang = false) :
    let t := LaunchSpawned c q p u got
    (∃ l0 l', u.lgs.find c.g = some l0 ∧ t.lgs.find c.g = some l' ∧ PredWrite 0xFFFFFFFF p.toNat 0xFFFFFFFF l0 l' ∧
        ∀ h, h ≠ c.g → t.lgs.find h = u.lgs.find h) ∧
      t.launches.find u.nseq = some (Spawned c q got.bytes u) ∧ (t.part c.part).plb = (u.part c.part).plb ++ [u.nseq] ∧
      (∀ n, n ≠ u.nseq → t.launches.find n = u.launches.find n) ∧
      t = { u with nseq := u.nseq + 1, lgs := t.lgs, launches := t.launches, parts := t.parts } := by
  intro t
  have ht : t = _ := (LaunchSpawned_taken he hr).trans (LaunchTaken_put hb hg)
  rw [ht]
  refine ⟨⟨l, _, hl, State.find_modLg_self _ hl, Lg.setQ_predWrite .., fun h hh => (State.find_modLg ..).trans (if_neg hh)⟩,
    Tab.find_put_self .., ?_, fun n hn => Tab.find_put_other _ _ hn, rfl⟩
  rw [State.part_up, State.part_modPart, if_pos rfl]
  rfl

/-- A spawner whose launch is taken, refused or in a gang has the answer. -/
theorem LaunchSpawned_answer {q : Nat} {p : BitVec 3} {u : State} {got : Got} {l : Lg} (hl : u.lgs.find c.g = some l) (he : got.errs = [])
    (hr : (u.part c.part).plb.length < 64) :
    ∃ l', (LaunchSpawned c q p u got).lgs.find c.g = some l' ∧ l'.qAt p.toNat = 0xFFFFFFFF := by
  obtain ⟨v, hv, ht⟩ := LaunchTaken_up c q p u got
  rw [LaunchSpawned_taken he hr, ht]
  exact ⟨l.setQ p.toNat 0xFFFFFFFF, State.find_modLg_self _ (hv.2 ▸ hl), Lg.setQ_qAt ..⟩

/-- With the launch buffer full, the answer is all that is given. -/
theorem LaunchSpawned_noRoom {q : Nat} {p : BitVec 3} {u : State} {got : Got} {l : Lg} (hl : u.lgs.find c.g = some l) (he : got.errs = [])
    (hr : 64 ≤ (u.part c.part).plb.length) :
    ∃ l0 l', u.lgs.find c.g = some l0 ∧ LaunchSpawned c q p u got = u.setLg c.g l' ∧ PredWrite 0xFFFFFFFF p.toNat 0 l0 l' := by
  refine ⟨l, l.setQ p.toNat 0, hl, (LaunchSpawned_full he hr).trans ?_, Lg.setQ_predWrite ..⟩
  rw [State.up, State.modLg, Tab.modify_of_find _ hl]
  rfl

/-- `task.spawn.l` issues and reads its packet. -/
theorem exec_taskSpawnL_of {r u : BitVec 5} {p : BitVec 3} (h : s.ctx? = some c) (hw : wellFormed (.taskSpawnL r u p) = true)
    (hq : (c.kr u.toNat).toNat < 8 ∧ (c.kr u.toNat).toNat < 2 ^ s.winBits (oVFM c.vf) 5 2) (hv : (c.kr r.toNat).toNat % 64 = 0)
    (hi : s.quiet c.g = true) (ha : s.acquiring c.g = false) (hg : GransOk c s 1 (pieces (c.kr r.toNat).toNat 64))
    (hc : CommitOk c (Walked c s 1 (pieces (c.kr r.toNat).toNat 64)).1) (hu : Unowned s (PacketRead c s (c.kr r.toNat).toNat).1) :
    exec (.taskSpawnL r u p) s = .next (LaunchSpawned c (c.kr u.toNat).toNat p (PacketRead c s (c.kr r.toNat).toNat).1
      (PacketRead c s (c.kr r.toNat).toNat).2) := by
  have he := SpawnLaunch_read (p := p) (noQueue_eq_false.mpr hq) hv hi ha hg hc
  rw [exec_taskSpawnL h hw fun hs => ?_, he]
  rw [he] at hs
  exact hu ▸ LaunchSpawned_stall hs

/-! ## `task.next` and `task.done` (R379) -/

/-- What `task.next` does of its claimed record. -/
def BlockTaken (c : Ctx) (d : Nat) (s : State) : State :=
  match c.lg.task with
  | none => s
  | some t =>
    match (s.part c.part).tasks.find t with
    | none => s
    | some r =>
      let b := min (r.cur + r.g) r.hi
      let s := s.modPart c.part fun q => { q with tasks := q.tasks.put t { r with cur := b } }
      (s.wrK c.lg.wg d c.lg.lgn (BitVec.ofNat 64 r.cur)).wrK c.lg.wg (d + 1) c.lg.lgn (BitVec.ofNat 64 b)

theorem exec_taskNext {d : BitVec 5} (h : s.ctx? = some c) (hw : wellFormed (.taskNext d) = true) :
    exec (.taskNext d) s = .next (s.checked c (c.exIll c.lg.task.isNone ++ c.exF (!c.owns d.toNat || !c.owns (d.toNat + 1)) .kown) fun s =>
      s.afterAcquire c (BlockTaken c d.toNat)) := by
  show execTaskNext d s = _
  rw [execTaskNext, word_next _ h hw]
  rfl

theorem exec_taskNext_of {d : BitVec 5} (h : s.ctx? = some c) (hw : wellFormed (.taskNext d) = true) (ht : c.lg.task.isSome = true)
    (ho : c.owns d.toNat = true ∧ c.owns (d.toNat + 1) = true) :
    exec (.taskNext d) s = .next (s.afterAcquire c (BlockTaken c d.toNat)) := by
  rw [exec_taskNext h hw, Ctx.exIll_nil (by simpa [Option.isSome_iff_ne_none] using ht), Ctx.exF_nil _ (by simp [ho])]
  rfl

/-- Two uniform registers of a workgroup, one after the other. -/
theorem State.wrK_pair (h : s.wgs.find c.lg.wg = some c.wg) (n b : Nat) (x y : DWord) :
    let v := s.wrK c.lg.wg n b x
    let t := v.wrK c.lg.wg (n + 1) b y
    KEff n (fun _ => x) c s v ∧
      (∃ w', t.wgs.find c.lg.wg = some w' ∧ w'.kAt n = x ∧ w'.kAt (n + 1) = y ∧ w' = { c.wg with k := w'.k } ∧
        ∀ m, m ≠ n → m ≠ n + 1 → w'.kAt m = c.wg.kAt m) ∧
      (∀ w, w ≠ c.lg.wg → t.wgs.find w = s.wgs.find w) ∧
      (∀ g, (t.lgs.find g).map (fun l => { l with kv := [] }) = (s.lgs.find g).map (fun l => { l with kv := [] })) ∧
      t = { s with wgs := t.wgs, lgs := t.lgs } := by
  intro v t
  have hv : v.wgs.find c.lg.wg = some { c.wg with k := c.wg.k.setD 0 n x } := by
    rw [State.find_wrK, if_pos rfl, h]
    rfl
  have ht : t.wgs.find c.lg.wg = some { c.wg with k := (c.wg.k.setD 0 n x).setD 0 (n + 1) y } := by
    rw [State.find_wrK, if_pos rfl, hv]
    rfl
  refine ⟨State.wrK_kEff h n b x, ⟨_, ht, ?_, ?_, rfl, fun m h0 h1 => ?_⟩, fun w hw => ?_, fun g => ?_, ?_⟩
  · simp [Wg.kAt, Tab.getD_setD]
  · simp [Wg.kAt, Tab.getD_setD]
  · simp [Wg.kAt, Tab.getD_setD, h0, h1]
  · rw [State.find_wrK, if_neg hw, State.find_wrK, if_neg hw]
  · rw [State.wrK_lgs, State.wrK_lgs]
  · rw [show t = { v with wgs := t.wgs, lgs := t.lgs } from State.wrK_frame .., show v = { s with wgs := v.wgs, lgs := v.lgs } from
      State.wrK_frame ..]

theorem BlockTaken_of {d k : Nat} {x : Task} (ht : c.lg.task = some k) (hx : (s.part c.part).tasks.find k = some x) :
    BlockTaken c d s = ((s.modPart c.part fun q => { q with tasks := q.tasks.put k { x with cur := min (x.cur + x.g) x.hi } }).wrK c.lg.wg d
      c.lg.lgn (BitVec.ofNat 64 x.cur)).wrK c.lg.wg (d + 1) c.lg.lgn (BitVec.ofNat 64 (min (x.cur + x.g) x.hi)) := by
  simp only [BlockTaken, ht, hx]

theorem exec_taskDone (h : s.ctx? = some c) :
    exec .taskDone s = .next (s.checked c (c.exIll c.lg.task.isNone) fun s => s.afterAcquire c fun s => s.taskDone c.part c.g) := by
  show execTaskDone s = _
  rw [execTaskDone, word_next _ h rfl]

theorem State.taskDone_eq {g k part : Nat} {l : Lg} {x : Task} (hl : s.lgs.find g = some l) (ht : l.task = some k)
    (hx : (s.part part).tasks.find k = some x) :
    let t := s.taskDone part g
    (∃ l', t.lgs.find g = some l' ∧ l' = { l with task := none }) ∧ (∀ h, h ≠ g → t.lgs.find h = s.lgs.find h) ∧
      Tab.find (t.part part).tasks k = (if x.cur < x.hi then some { x with holder := none } else none) ∧
      (∀ n, n ≠ k → Tab.find (t.part part).tasks n = Tab.find (s.part part).tasks n) ∧ t = { s with lgs := t.lgs, parts := t.parts } := by
  intro t
  set u := s.modLg g fun l => { l with task := none } with hu
  have hux : (u.part part).tasks.find k = some x := hx
  have he : t = u.modPart part fun p => match p.tasks.find k with
      | none => p
      | some r => Part.water { p with tasks := if r.cur < r.hi then p.tasks.put k { r with holder := none } else p.tasks.del k } := by
    simp only [t, State.taskDone, hl, Option.bind_some, ht]
    rfl
  have hp : (t.part part).tasks = if x.cur < x.hi then (s.part part).tasks.put k { x with holder := none } else (s.part part).tasks.del k := by
    rw [he, State.part_modPart, if_pos rfl, hux]
    rfl
  refine ⟨⟨_, ?_, rfl⟩, fun h hh => ?_, ?_, fun n hn => ?_, ?_⟩
  · rw [he]
    exact State.find_modLg_self _ hl
  · rw [he]
    exact (State.find_modLg ..).trans (if_neg hh)
  · rw [hp]
    split
    · exact Tab.find_put_self ..
    · exact (Tab.find_del ..).trans (if_pos rfl)
  · rw [hp]
    split
    · exact Tab.find_put_other _ _ hn
    · exact (Tab.find_del ..).trans (if_neg hn)
  · rw [he]
    rfl

/-! ## `node.commit` (R380) -/

theorem exec_nodeCommit {n : BitVec 4} (h : s.ctx? = some c) (hw : wellFormed (.nodeCommit n) = true) :
    exec (.nodeCommit n) s = .next (if !s.quiet c.g || s.acquiring c.g then s.holdBack c
      else if c.la.staged && s.commitWaits c.lg.wg then s.holdBack c
      else (if c.la.staged then s.commitStaged c.lg.wg else s).addCtr c.g n.toNat 1) := by
  show execNodeCommit n s = _
  rw [execNodeCommit, word_next _ h hw]

theorem exec_nodeCommit_of {n : BitVec 4} (h : s.ctx? = some c) (hw : wellFormed (.nodeCommit n) = true) (hq : s.quiet c.g = true)
    (ha : s.acquiring c.g = false) (hc : CommitOk c s) :
    exec (.nodeCommit n) s = .next ((if c.la.staged = true then s.commitStaged c.lg.wg else s).addCtr c.g n.toNat 1) := by
  rw [exec_nodeCommit h hw, if_neg (by simp [hq, ha]), if_neg]
  simpa using hc

theorem exec_nodeCommit_held {n : BitVec 4} (h : s.ctx? = some c) (hw : wellFormed (.nodeCommit n) = true)
    (hh : s.quiet c.g = false ∨ s.acquiring c.g = true ∨ ¬ CommitOk c s) : exec (.nodeCommit n) s = .next (s.holdBack c) := by
  rw [exec_nodeCommit h hw]
  obtain hq | ha | hc := hh
  · rw [if_pos (by simp [hq])]
  · rw [if_pos (by simp [ha])]
  · rw [if_pos (c := (c.la.staged && s.commitWaits c.lg.wg) = true) (by simpa using hc), ite_self]

end Sys2Proof.Machine
end

section
/-! PROOF. The words of tasks, program launches and node commits (O33). -/

set_option Elab.async false

namespace Sys2Proof.Machine

/-- Settles O33: each word by its check, what it waits for, and what it does to the pool, the launch buffer, its registers or its counter. -/
theorem taskWords : Obligations.TaskWords := by
  unfold Obligations.TaskWords
  refine ⟨fun r g p => ⟨?adds, ?empty, ?full, ?held, ?badOperand⟩,
    fun r u p => ⟨?taken, ?refused, ?gang, ?noRoom, ?unread, ?lHeld, ?align, ?badQueue⟩,
    fun d => ⟨fun k x => ?next, ?nextHeld, ?nextNone, ?nextKown⟩, fun k x => ?done, ?doneHeld, ?doneNone, fun ctr => ⟨?commit, ?commitHeld⟩⟩
  case adds =>
    exact fun s c h hw ⟨⟨hg, hq, ha, hc⟩, hlt, hf⟩ => ⟨_, exec_taskSpawn_of h hw (badSpawn_eq_false.mpr hg) hq ha hc,
      TaskSpawned_adds (Committed_find h) hlt (not_le.mp hf)⟩
  case empty =>
    exact fun s c h hw ⟨⟨hg, hq, ha, hc⟩, hle⟩ => ⟨_, exec_taskSpawn_of h hw (badSpawn_eq_false.mpr hg) hq ha hc,
      TaskSpawned_none (ok := true) (Committed_find h) (by simp [show _ ≤ _ from hle]) fun hn => not_le.mpr hn.1 hle⟩
  case full =>
    exact fun s c h hw ⟨⟨hg, hq, ha, hc⟩, hlt, hf⟩ => ⟨_, exec_taskSpawn_of h hw (badSpawn_eq_false.mpr hg) hq ha hc,
      TaskSpawned_none (ok := false) (Committed_find h) (by simpa using ⟨hlt, hf⟩) fun hn => Bool.false_ne_true hn.2⟩
  case held =>
    exact fun s c h hw ⟨hg, hh⟩ => ⟨_, exec_taskSpawn_held h hw (badSpawn_eq_false.mpr hg) hh, rfl⟩
  case badOperand =>
    refine fun s c h hw hg => ⟨_, exec_taskSpawn h hw, State.checked_illegal ?_ _⟩
    rwa [← Bool.not_eq_false, badSpawn_eq_false]
  case taken =>
    intro s c h hw ⟨⟨⟨hq, hv, ⟨hi, ha⟩, hg, hc, hu⟩, he, hr⟩, hb, hgang⟩
    obtain ⟨l, hl⟩ := PacketRead_find h (c.kr r.toNat).toNat
    exact ⟨_, exec_taskSpawnL_of h hw hq hv hi ha hg hc hu, LaunchSpawned_put hl he hr hb hgang⟩
  case refused =>
    intro s c h hw ⟨⟨⟨hq, hv, ⟨hi, ha⟩, hg, hc, hu⟩, he, hr⟩, hb, hn⟩
    exact ⟨_, exec_taskSpawnL_of h hw hq hv hi ha hg hc hu, (LaunchSpawned_taken he hr).trans (LaunchTaken_bad hb hn)⟩
  case gang =>
    intro s c h hw ⟨⟨⟨hq, hv, ⟨hi, ha⟩, hg, hc, hu⟩, he, hr⟩, _⟩
    obtain ⟨l, hl⟩ := PacketRead_find h (c.kr r.toNat).toNat
    exact ⟨_, exec_taskSpawnL_of h hw hq hv hi ha hg hc hu, LaunchSpawned_answer hl he hr⟩
  case noRoom =>
    intro s c h hw ⟨⟨hq, hv, ⟨hi, ha⟩, hg, hc, hu⟩, he, hr⟩
    obtain ⟨l, hl⟩ := PacketRead_find h (c.kr r.toNat).toNat
    exact ⟨_, exec_taskSpawnL_of h hw hq hv hi ha hg hc hu, LaunchSpawned_noRoom hl he hr⟩
  case unread =>
    intro s c h hw ⟨⟨hq, hv, ⟨hi, ha⟩, hg, hc, hu⟩, he⟩
    exact ⟨_, exec_taskSpawnL_of h hw hq hv hi ha hg hc hu, LaunchSpawned_err he⟩
  case lHeld =>
    intro s c h hw ⟨hq, hv, hf⟩
    have he := SpawnLaunch_held (p := p) (noQueue_eq_false.mpr hq) hv hf
    exact ⟨_, exec_taskSpawnL h hw fun hs => by rwa [he] at hs, he⟩
  case align =>
    intro s c h hw ⟨hq, hv⟩
    have he := SpawnLaunch_align (p := p) (noQueue_eq_false.mpr hq) hv
    exact ⟨_, exec_taskSpawnL h hw fun hs => by rw [he] at hs; exact State.takeTrap_stall hs,
      he ▸ State.alignTrap_faults s c fun c => (c.kr r.toNat).toNat⟩
  case badQueue =>
    intro s c h hw hq
    have he := SpawnLaunch_illegal (va := (c.kr r.toNat).toNat) (p := p) (s := s) (c := c) (q := (c.kr u.toNat).toNat)
      (by rwa [← Bool.not_eq_false, noQueue_eq_false])
    exact ⟨_, exec_taskSpawnL h hw fun hs => State.takeTrap_stall (he ▸ hs), he⟩
  case next =>
    intro s c h hw ⟨hm, ha, ht, hx⟩
    refine ⟨_, (exec_taskNext_of h hw (by rw [ht]; rfl) hm).trans (congrArg _ (State.afterAcquire_of ha _)), ?_⟩
    obtain ⟨-, -, hwg, -⟩ := State.ctx?_spec h
    rw [BlockTaken_of ht hx]
    set u := s.modPart c.part fun q => { q with tasks := q.tasks.put k { x with cur := min (x.cur + x.g) x.hi } }
    exact ⟨u, _, rfl, State.wrK_pair (s := u) hwg d.toNat c.lg.lgn _ _⟩
  case nextHeld =>
    exact fun s c h hw ⟨hm, ha, ht⟩ => ⟨_, exec_taskNext_of h hw ht hm, State.afterAcquire_held ha _⟩
  case nextNone =>
    intro s c h hw ht
    refine ⟨_, exec_taskNext h hw, ?_⟩
    rw [Ctx.exIll_of (by rw [ht]; rfl)]
    cases hb : (!c.owns d.toNat || !c.owns (d.toNat + 1)) with
    | false => rw [Ctx.exF_nil _ rfl]; rfl
    | true => rw [Ctx.exF_of _ rfl]; rfl
  case nextKown =>
    intro s c h hw ⟨hm, ht⟩
    refine ⟨_, exec_taskNext h hw, ?_⟩
    have hb : (!c.owns d.toNat || !c.owns (d.toNat + 1)) = true := by
      rw [Bool.or_eq_true, Bool.not_eq_true', Bool.not_eq_true', ← Bool.not_eq_true, ← Bool.not_eq_true]
      exact not_and_or.mp hm
    rw [Ctx.exIll_nil (by simpa [Option.isSome_iff_ne_none] using ht), Ctx.exF_of _ hb]
    rfl
  case done =>
    intro s c h hw ⟨ht, ha, hx⟩
    obtain ⟨hg, hl, -, -⟩ := State.ctx?_spec h
    refine ⟨_, (exec_taskDone h).trans (congrArg _ ((State.checked_ok (by rw [ht]; rfl) _).trans (State.afterAcquire_of ha _))), ?_⟩
    exact State.taskDone_eq (hg ▸ hl) ht hx
  case doneHeld =>
    intro s c h hw ⟨ht, ha⟩
    have hn : c.lg.task.isNone = false := by simpa [Option.isSome_iff_ne_none] using ht
    exact ⟨_, exec_taskDone h, (State.checked_ok hn _).trans (State.afterAcquire_held ha _)⟩
  case doneNone =>
    exact fun s c h hw ht => ⟨_, exec_taskDone h, State.checked_illegal (by rw [ht]; rfl) _⟩
  case commit =>
    exact fun s c h hw ⟨hq, ha, hc⟩ => ⟨_, exec_nodeCommit_of h hw hq ha hc, rfl⟩
  case commitHeld =>
    exact fun s c h hw hh => ⟨_, exec_nodeCommit_held h hw hh, rfl⟩

end Sys2Proof.Machine
end

section
/-! SUPPORT. The machine after reset: nothing that holds an event's condition there, and what an event's step leaves under way. -/

set_option Elab.async false

namespace Sys2Proof.Machine

/-- The messages under way where the machine goes on. -/
def pendingOf : Out → List Ev
  | .next t => t.pending
  | _ => []

theorem pendingOf_event {b : Bool} {s : State} {f : State → State} (h : b = true → (f s).pending = s.pending) :
    pendingOf (event b s f) = s.pending := by
  cases b with
  | false => rfl
  | true => exact h rfl

theorem pendingOf_event_off {b : Bool} {s : State} {f : State → State} (h : b = false) : pendingOf (event b s f) = s.pending := by
  rw [event_off h]
  rfl

theorem pendingOf_memEvent {b : Bool} {s : State} {f : State → State} (h : b = true → (f s).pending = s.pending) :
    pendingOf (memEvent b s f) = s.pending := by
  cases b with
  | false => rfl
  | true =>
    rw [memEvent_of rfl]
    show (s.unlessStalled f).pending = s.pending
    rw [State.unlessStalled_eq]
    split
    · rfl
    · exact h rfl

/-! ## Conditions that do not hold after reset -/

theorem State.reset_moduleUp (e m : Nat) : State.reset.moduleUp e m = false := by
  simp [State.moduleUp, show (State.reset.link e m).st = 0 from rfl]

theorem State.reset_bhSt {g : Nat} (h : g < 12) : State.reset.bhSt g = 0 := by
  rw [State.bhSt, State.reset_winBits, winReset_oBHC h]
  decide

theorem State.reset_railUp (g : Nat) : State.reset.railUp g = false := by
  rw [State.railUp, show (State.reset.bhSince.find g).isSome = false from rfl, Bool.and_false]

theorem State.reset_pllOn (g : Nat) : State.reset.pllOn g = false := by
  rw [State.pllOn, show (State.reset.bhSince.find (12 + g)).isSome = false from rfl, Bool.and_false]

theorem State.reset_bhReach (g : Nat) : State.reset.bhReach g = false := Bool.and_false _

theorem State.reset_canInit (g : Nat) : State.reset.canInit g = false := by
  by_cases h : g < 12
  · simp [State.canInit, State.reset_bhSt h]
  · simp [State.canInit, h]

theorem State.reset_canTrim (g : Nat) : State.reset.canTrim g = false := by
  by_cases h : g < 12
  · simp [State.canTrim, State.reset_bhSt h]
  · simp [State.canTrim, h]

theorem State.reset_canReadQueue (vf q : Nat) : State.reset.canReadQueue vf q = false := by
  simp [State.canReadQueue, State.vrBits, show ∀ o, State.reset.vr vf o = 0 from fun _ => rfl]

/-- A bulkhead that does not run is lost without a trace. -/
theorem State.reset_fatal {g : Nat} (h : g < 12) : State.reset.fatal g = State.reset := by
  rw [State.fatal, if_pos]
  simp [State.reset_bhSt h]

/-! ## Events in the machine after reset -/

/-- An event that leaves no message under way in the machine after reset. -/
def Calm (i : Instr) : Prop := pendingOf (exec i State.reset) = []

/-- An event that cannot happen after reset. -/
theorem calm_off {i : Instr} (h : State → Out) {cond : State → Bool} {f : State → State → State} (hi : exec i = h)
    (hh : ∀ s, h s = event (cond s) s (f s)) (hc : cond State.reset = false) : Calm i := by
  rw [Calm, hi, hh, pendingOf_event_off hc]
  rfl

/-- An event that may happen after reset, and posts nothing. -/
theorem calm_on {i : Instr} (h : State → Out) {cond : State → Bool} {f : State → State → State} (hi : exec i = h)
    (hh : ∀ s, h s = event (cond s) s (f s)) (hf : cond State.reset = true → (f State.reset State.reset).pending = []) : Calm i := by
  rw [Calm, hi, hh, pendingOf_event hf]
  rfl

theorem calm_linkFlitSend (e d m : Nat) : Calm (.linkFlitSend e d m) :=
  calm_off (execLinkFlitSend e d m) rfl (fun _ => rfl) (by simp [State.canFlit, State.reset_moduleUp])

theorem calm_linkFlitReceive (e d m : Nat) (good : Bool) : Calm (.linkFlitReceive e d m good) :=
  calm_off (execLinkFlitReceive e d m good) rfl (fun _ => rfl) (by simp [State.reset_moduleUp])

theorem calm_linkNakReceive (e d m : Nat) : Calm (.linkNakReceive e d m) :=
  calm_off (execLinkNakReceive e d m) rfl (fun _ => rfl) (by simp [State.reset_moduleUp])

theorem calm_linkIdleTimer (e d m : Nat) : Calm (.linkIdleTimer e d m) :=
  calm_off (execLinkIdleTimer e d m) rfl (fun _ => rfl) (by simp [State.canIdle, State.reset_moduleUp])

theorem calm_nakRepeatTimer (e d m : Nat) : Calm (.nakRepeatTimer e d m) :=
  calm_off (execNakRepeatTimer e d m) rfl (fun _ => rfl) (by simp [State.canRepeatNak, State.reset_moduleUp])

theorem calm_linkLockLoss (e m : Nat) : Calm (.linkLockLoss e m) :=
  calm_off (execLinkLockLoss e m) rfl (fun _ => rfl) (State.reset_moduleUp e m)

theorem calm_linkAckTimeout (e m : Nat) : Calm (.linkAckTimeout e m) :=
  calm_off (execLinkAckTimeout e m) rfl (fun _ => rfl) (by simp [State.reset_moduleUp])

theorem calm_linkRetrainDone (e m : Nat) (l : BitVec 2) : Calm (.linkRetrainDone e m l) := by
  show pendingOf (execLinkRetrainDone e m l State.reset) = []
  dsimp only [execLinkRetrainDone]
  exact pendingOf_event_off (by simp [show (State.reset.link e m).st = 0 from rfl])

theorem calm_retrainTimeout (e m : Nat) (b : Bool) : Calm (.retrainTimeout e m b) :=
  calm_off (execRetrainTimeout e m b) rfl (fun _ => rfl) (by simp [show (State.reset.link e m).st = 0 from rfl])

theorem calm_portLost (p : Nat) : Calm (.portLost p) :=
  calm_on (execPortLost p) rfl (fun _ => rfl) fun _ => by exact (State.mgrRec_under ..).1.pending

theorem calm_cxlPortLost (p : Nat) : Calm (.cxlPortLost p) :=
  calm_on (execCxlPortLost p) rfl (fun _ => rfl) fun _ => by exact (State.mgrRec_under ..).1.pending

theorem calm_permitAudit (l ch : Nat) : Calm (.permitAudit l ch) := by
  show pendingOf (execPermitAudit l ch State.reset) = []
  dsimp only [execPermitAudit]
  exact pendingOf_event fun _ => (State.mgrRec_under ..).1.pending

theorem calm_gateDrainTimeout (g : Nat) : Calm (.gateDrainTimeout g) :=
  calm_on (execGateDrainTimeout g) rfl (fun _ => rfl) fun _ => rfl

theorem calm_cxlLinkStateChange (p : Nat) (a : Bool) : Calm (.cxlLinkStateChange p a) :=
  calm_on (execCxlLinkStateChange p a) rfl (fun _ => rfl) fun _ => rfl

theorem calm_launchDoorbell (vf q tail : Nat) : Calm (.launchDoorbell vf q tail) :=
  calm_off (execLaunchDoorbell vf q tail) rfl (fun _ => rfl) (Bool.and_false _)

theorem calm_resizeRequest (vf : Nat) (v : BitVec 64) : Calm (.resizeRequest vf v) :=
  calm_off (execResizeRequest vf v) rfl (fun _ => rfl) (Bool.and_false _)

theorem calm_launchQueueRead (vf q : Nat) : Calm (.launchQueueRead vf q) := by
  show pendingOf (execLaunchQueueRead vf q State.reset) = []
  rw [execLaunchQueueRead, State.reset_canReadQueue]
  rfl

theorem calm_ptsTick (c : Nat) : Calm (.ptsTick c) := calm_on (execPtsTick c) rfl (fun _ => rfl) fun _ => rfl

theorem calm_l1Eviction (c ln : Nat) : Calm (.l1Eviction c ln) := by
  show pendingOf (execL1Eviction c ln State.reset) = []
  dsimp only [execL1Eviction]
  exact pendingOf_event fun _ => (State.dropCopy_under ..).1.pending

theorem calm_tlbWalkDone (c vf va : Nat) : Calm (.tlbWalkDone c vf va) :=
  pendingOf_memEvent fun _ => by exact (State.xlate_under ..).1.pending

theorem calm_governorWindow (g : Nat) : Calm (.governorWindow g) := calm_on (execGovernorWindow g) rfl (fun _ => rfl) fun _ => rfl

theorem calm_dbiWindow (ch i l : Nat) : Calm (.dbiWindow ch i l) := by
  refine calm_on (execDbiWindow ch i l) rfl (fun _ => rfl) fun _ => ?_
  split
  · rfl
  · split <;> rfl

theorem calm_sweeperRead (u ln : Nat) (o : BitVec 2) : Calm (.sweeperRead u ln o) := by
  show pendingOf (execSweeperRead u ln o State.reset) = []
  dsimp only [execSweeperRead]
  refine pendingOf_event_off ?_
  split <;> rfl

theorem calm_reencodeDone (d : Nat) : Calm (.reencodeDone d) := calm_on (execReencodeDone d) rfl (fun _ => rfl) fun _ => rfl

theorem calm_bulkheadFatalError (g : Nat) : Calm (.bulkheadFatalError g) :=
  calm_on (execBulkheadFatalError g) rfl (fun _ => rfl) fun h => congrArg State.pending (State.reset_fatal (of_decide_eq_true h))

theorem calm_bulkheadRailGood (g : Nat) : Calm (.bulkheadRailGood g) :=
  calm_off (execBulkheadRailGood g) rfl (fun _ => rfl) (by rw [State.reset_railUp, Bool.false_and])

theorem calm_bulkheadRailTimeout (g : Nat) : Calm (.bulkheadRailTimeout g) :=
  calm_off (execBulkheadRailTimeout g) rfl (fun _ => rfl) (by rw [State.reset_railUp, Bool.false_and])

theorem calm_pllLock (g : Nat) : Calm (.pllLock g) :=
  calm_off (execPllLock g) rfl (fun _ => rfl) (by rw [State.reset_pllOn, Bool.false_and])

theorem calm_pllLockTimeout (g : Nat) : Calm (.pllLockTimeout g) :=
  calm_off (execPllLockTimeout g) rfl (fun _ => rfl) (by rw [State.reset_pllOn, Bool.false_and])

theorem calm_bulkheadInitDone (g : Nat) : Calm (.bulkheadInitDone g) :=
  calm_off (execBulkheadInitDone g) rfl (fun _ => rfl) (State.reset_canInit g)

theorem calm_bulkheadDrainDone (g : Nat) : Calm (.bulkheadDrainDone g) := by
  refine calm_off (execBulkheadDrainDone g) rfl (fun _ => rfl) ?_
  by_cases h : g < 12
  · simp [State.canDrain, State.reset_bhSt h]
  · simp [h]

theorem calm_teardownDone (n : Nat) : Calm (.teardownDone n) := calm_off (execTeardownDone n) rfl (fun _ => rfl) (Bool.and_false _)

theorem calm_cxlRangeEnable (p : Nat) (v : BitVec 64) : Calm (.cxlRangeEnable p v) :=
  calm_off (execCxlRangeEnable p v) rfl (fun _ => rfl) (Bool.and_false _)

theorem calm_trimDone (g : Nat) : Calm (.trimDone g) := calm_off (execTrimDone g) rfl (fun _ => rfl) (State.reset_canTrim g)

theorem calm_bootStage (good : Bool) (h : List (BitVec 8)) : Calm (.bootStage good h) := by
  cases good <;> rfl

theorem calm_registerWrite (sp : RegSpace) (o : Nat) (v : BitVec 64) : Calm (.registerWrite sp o v) := by
  cases sp <;> rfl

/-- What a bulkhead's control bits do, they do where the manager reaches them. -/
theorem calm_bhBit {i : Instr} {g n : Nat} {b : Bool} (hi : exec i = fun s => event (s.bhReach g) s fun s => s.writeBhBit g n b) : Calm i :=
  calm_off _ hi (fun _ => rfl) (State.reset_bhReach g)

theorem calm_softError (site : ErrSite) : Calm (.softError site) := by
  show pendingOf (execSoftError site State.reset) = []
  cases site with
  | commons die =>
    rw [execSoftError]
    refine pendingOf_event fun h => ?_
    have hd : die < 4 := of_decide_eq_true h
    rw [List.foldl_cons, State.reset_fatal (by omega), List.foldl_cons, State.reset_fatal (by omega), List.foldl_cons,
      State.reset_fatal (by omega)]
    rfl
  | control g =>
    rw [execSoftError]
    exact pendingOf_event fun h => congrArg State.pending (State.reset_fatal (of_decide_eq_true h))
  | corrected level die =>
    rw [execSoftError]
    refine pendingOf_event fun _ => ?_
    split <;> rfl
  | l2 | msc => rfl
  | register | l1 | operand | cell | sum | matching | fence | permit | surplus =>
    rw [execSoftError]
    exact pendingOf_event fun _ => rfl

/-- No event of the dispatch posts a message in the machine after reset. -/
theorem calm_of_encode_none {i : Instr} (h : encode i = none) : Calm i := by
  cases i with
  | launchDoorbell => exact calm_launchDoorbell ..
  | launchQueueRead => exact calm_launchQueueRead ..
  | resizeRequest => exact calm_resizeRequest ..
  | ptsTick => exact calm_ptsTick ..
  | l1Eviction => exact calm_l1Eviction ..
  | tlbWalkDone => exact calm_tlbWalkDone ..
  | governorWindow => exact calm_governorWindow ..
  | permitAudit => exact calm_permitAudit ..
  | linkFlitSend => exact calm_linkFlitSend ..
  | linkFlitReceive => exact calm_linkFlitReceive ..
  | linkNakReceive => exact calm_linkNakReceive ..
  | linkIdleTimer => exact calm_linkIdleTimer ..
  | nakRepeatTimer => exact calm_nakRepeatTimer ..
  | linkLockLoss => exact calm_linkLockLoss ..
  | linkRetrainDone => exact calm_linkRetrainDone ..
  | retrainTimeout => exact calm_retrainTimeout ..
  | portLost => exact calm_portLost ..
  | cxlPortLost => exact calm_cxlPortLost ..
  | dbiWindow => exact calm_dbiWindow ..
  | gateDrainTimeout => exact calm_gateDrainTimeout ..
  | sweeperRead => exact calm_sweeperRead ..
  | reencodeDone => exact calm_reencodeDone ..
  | bulkheadFatalError => exact calm_bulkheadFatalError ..
  | bulkheadPowerOn | bulkheadClockEnable | bulkheadResetRelease | bulkheadResetAssert | bulkheadGateClose | bulkheadGateOpen
    | bulkheadPowerOff => exact calm_bhBit rfl
  | bulkheadRailGood => exact calm_bulkheadRailGood ..
  | bulkheadRailTimeout => exact calm_bulkheadRailTimeout ..
  | pllLock => exact calm_pllLock ..
  | pllLockTimeout => exact calm_pllLockTimeout ..
  | bulkheadInitDone => exact calm_bulkheadInitDone ..
  | bulkheadDrainDone => exact calm_bulkheadDrainDone ..
  | teardownDone => exact calm_teardownDone ..
  | cxlRangeEnable => exact calm_cxlRangeEnable ..
  | trimDone => exact calm_trimDone ..
  | bootStage => exact calm_bootStage ..
  | registerWrite => exact calm_registerWrite ..
  | softError => exact calm_softError ..
  | linkAckTimeout => exact calm_linkAckTimeout ..
  | cxlLinkStateChange => exact calm_cxlLinkStateChange ..
  | fetchLineArrive | workgroupPlace | workgroupStart | launchComplete | groupWaitTimeout | wgBarrierComplete | spanBarrierComplete
    | stepBarrierComplete | laneGroupWake | laneGroupAged | yieldExpiry | registerGrowGrant | growthDeadlock | taskClaim | amArrive
    | handlerStart | loadRequest | writeRegistration | forcedPublishRequest | publishArrive | nearAtomic | farAtomic | accessReply
    | memoryReadComplete | engineTakeOwnership | engineFinish | tlbiVaRange | tlbiAsid | tlbiIpaRange | tlbiVmid | tlbiAll
    | hostTlbSync | bootImageReplace | tlbSyncAnswer | pageRequestWrite | pageRequestDone | parkTimeout | swapOutDone | readmit
    | s2rResume | s2rAbort | preemptSwapDone | swapBack | shadowWriteoutDone | slotEvictionDone | arrayEvictionDone
    | contextRestoreDone | mxCommandStart | mxLdDone | busTransferStart | busTransferDone | mxMmaDone | mxPmmaDone | mxDrainDone
    | mxChkDone | mxRelEffect | saCommandStart | saLoadDone | saReadDone | sweepBegin | sweepEnd | ghostSubscribe | ghostUnsubscribe
    | ghostAnswer | ghostUpdateArrive | monitorWindowClose | chainTimeout | stopNotice | mcastRequest | mergeWindowExpiry
    | mergeSetExpiry | mcastReplyArrive | fragmentArrive | overflowFragmentArrive | fragmentCombineDone | orphanTimeout
    | sliceTimeout | hostAccess | hostSnoop | remoteAccess | streamSegment | frameDeadline | descriptorPush | streamEnable
    | streamEos | faultedLaunchEnd | faultedLaunchTimeout | nodeDiscard | pipeDeadlock | l2CodeChange | retireFrame | stateDumpDone
    | partitionEnable | partitionTeardown | windowEnable | windowDisable | windowDrainDone | homeMapWrite | homeMapReadInc | vfEnable
    | keyTableWrite | keyLoad | trimStart | debugResume | packageReset | attestQuote | hostPortReturn => rfl
  | _ => cases h

end Sys2Proof.Machine
end

section
/-! PROOF. A message under way that no event of the dispatch performs (O44). -/

set_option Elab.async false

namespace Sys2Proof.Machine

/-- An update of a shared value, on its way to core 0. -/
def ghostOnWay : Ev := .ghostUpdate 0 { slot := 0, src := 0, node := 0, stamp := 0, val := false, owner := 0 }

/-- In the machine after reset its message posts the arrival at the core. -/
theorem ghostOnWay_run : pendingOf (ghostOnWay.run State.reset) = [.ghostUpdateArrive 0] := rfl

/-- Refutes O44: a ghost update under way runs in the machine after reset and posts its arrival, which no event of the dispatch does; the
statement leaves out of its last clause a multicast fan only. -/
theorem not_stepTakesTheEvent : ¬ Obligations.StepTakesTheEvent := by
  unfold Obligations.StepTakesTheEvent
  rintro ⟨-, hrun⟩
  obtain ⟨i, hi, he⟩ | ⟨cs, ln, he⟩ := hrun ghostOnWay State.reset
  · have hp : pendingOf (exec i State.reset) = [.ghostUpdateArrive 0] := he ▸ ghostOnWay_run
    rw [calm_of_encode_none hi] at hp
    cases hp
  · cases he

end Sys2Proof.Machine
end

section
/-! SUPPORT. Every step leaves no packet in execution (O45). -/

set_option Elab.async false

namespace Sys2Proof.Machine

/-- Where the machine goes on, no packet is in execution. -/
def NoPacketAfter (o : Out) : Prop := ∀ t : State, o = .next t → t.PacketInv

theorem NoPacketAfter.next {t : State} (h : t.PacketInv) : NoPacketAfter (.next t) := fun _ e => by cases e; exact h

theorem NoPacketAfter.andThen {o : Out} {f : State → Out} (hf : ∀ u, NoPacketAfter (f u)) : NoPacketAfter (andThen o f) := by
  cases o with
  | next u => exact hf u
  | fault r => intro t e; cases e
  | refused r => intro t e; cases e

/-! ## A packet closes -/

theorem State.issued_pk (s : State) (g : Nat) : (s.issued g).pk = s.pk := by
  unfold State.issued
  extract_lets s1 s2 s3 s4
  have h2 : s2.pk = s1.pk := by
    unfold s2
    split <;> rfl
  exact h2

theorem State.closePacket_packetInv (s : State) (g : Nat) : (s.closePacket g).PacketInv := by
  unfold State.closePacket
  extract_lets t
  split
  · split <;> rfl
  · exact State.issued_pk t g

theorem State.issue_noPacketAfter (s : State) (g : Nat) : NoPacketAfter (s.issue g) := by
  unfold State.issue
  extract_lets s1
  split
  · intro t e; cases e
  · extract_lets s2
    split
    · intro t e; cases e
    · split
      split
      · exact .next (State.closePacket_packetInv ..)
      · exact .andThen fun u => .next (State.closePacket_packetInv u g)

theorem eventStep_noPacketAfter (f : State → Out) (s : State) : NoPacketAfter (eventStep f s) := .andThen fun _ => .next rfl

/-! ## What can happen next -/

/-- Every function of a list leaves no packet in execution where none was. -/
def AllLeaveNoPacket (fs : List (State → Out)) : Prop := ∀ f ∈ fs, ∀ s : State, s.PacketInv → NoPacketAfter (f s)

theorem AllLeaveNoPacket.append {fs gs : List (State → Out)} (hf : AllLeaveNoPacket fs) (hg : AllLeaveNoPacket gs) :
    AllLeaveNoPacket (fs ++ gs) := fun f h => (List.mem_append.mp h).elim (hf f) (hg f)

theorem AllLeaveNoPacket.map {α : Type} {l : List α} {f : α → State → Out} (hf : ∀ x s, NoPacketAfter (f x s)) :
    AllLeaveNoPacket (l.map f) := fun g hg s _ => by
  obtain ⟨x, -, rfl⟩ := List.mem_map.mp hg
  exact hf x s

theorem AllLeaveNoPacket.eventStep (fs : List (State → Out)) : AllLeaveNoPacket (fs.map Machine.eventStep) := .map eventStep_noPacketAfter

theorem AllLeaveNoPacket.turn {s : State} {msgs due flits : List (State → Out)} (hm : AllLeaveNoPacket msgs) (hd : AllLeaveNoPacket due)
    (hl : AllLeaveNoPacket flits) {f : State → Out} (e : s.turn msgs due flits = some f) {t : State} (h : t.PacketInv) :
    NoPacketAfter (f t) := by
  unfold State.turn at e
  split at e
  · obtain ⟨g, -, rfl⟩ := Option.map_eq_some_iff.mp e
    exact State.issue_noPacketAfter t g
  · exact hm f (List.mem_of_head? e) t h
  · exact hd f (List.mem_of_getElem? e) t h
  · exact hl f (List.mem_of_getElem? e) t h
  · cases e

theorem State.goOn_noPacketAfter {s : State} (h : s.PacketInv) : NoPacketAfter s.goOn := by
  unfold State.goOn
  extract_lets msgs due flits
  have hm : AllLeaveNoPacket msgs := .map fun e => eventStep_noPacketAfter e.run
  have hd : AllLeaveNoPacket due := .eventStep _
  have hl : AllLeaveNoPacket flits := .eventStep _
  have hall : AllLeaveNoPacket (s.issuable.map (fun g s => State.issue s g) ++ msgs ++ due ++ flits ++
      (if msgs.isEmpty && due.isEmpty && flits.isEmpty then [] else [fun s => .next s.tick])) := by
    refine .append (.append (.append (.append (.map fun g s => State.issue_noPacketAfter s g) hm) hd) hl) fun f hf t ht => ?_
    split at hf
    · cases hf
    · cases List.mem_singleton.mp hf
      exact .next ht
  split
  · exact .next h
  · next f e => exact hall f (e ▸ List.mem_singleton_self f) s h
  · split
    · next e => exact AllLeaveNoPacket.turn hm hd hl e h
    · dsimp only
      split
      · next f e => exact hall f (List.mem_of_getElem? e) s.draw.2 h
      · exact .next h

theorem State.fromOutside_noPacketAfter {s : State} (h : s.PacketInv) (p : Nat × Instr) : NoPacketAfter (State.fromOutside p s) := by
  unfold State.fromOutside
  extract_lets s1
  split
  · exact .next h
  · exact eventStep_noPacketAfter _ _

theorem State.afterDeadlines_noPacketAfter {s : State} {k : State → Out} (hk : NoPacketAfter (k s)) :
    NoPacketAfter (State.afterDeadlines k s) := by
  unfold State.afterDeadlines
  split
  · exact eventStep_noPacketAfter _ _
  · exact hk

/-- Settles O45: an issue ends by closing its packet and an event by clearing the packet; a cycle that passes, and an instruction word
in the agenda, begin none. -/
theorem noPacketInExecution : Obligations.NoPacketInExecution := by
  unfold Obligations.NoPacketInExecution
  intro s
  show NoPacketAfter s.advance
  unfold State.advance
  extract_lets settled r
  have hr : r.PacketInv := rfl
  split
  · exact State.afterDeadlines_noPacketAfter (State.goOn_noPacketAfter hr)
  · exact State.afterDeadlines_noPacketAfter (State.fromOutside_noPacketAfter hr _)

end Sys2Proof.Machine
end

section
/-! PROOF. What a word of two sources raises that cannot read one of them (O14). -/

set_option Elab.async false

namespace Sys2Proof.Machine

variable {i : Instr} {s : State} {c : Ctx} {a b : BitVec 8}

/-! ## What the checks of a source find -/

theorem lanesFail_of {m : Word} (r : Nat) (k : Cause) (h : m ≠ 0) : lanesFail r k m = [⟨r, k, m⟩] := if_neg h

/-- A latch that no packet of the run has written (R62). -/
theorem Ctx.srcF_latch (hbad : c.sn.bad = []) (hs : a.toNat / 64 = 1) (hn : a.toNat % 64 < 4)
    (hl : c.sn.lOk.getLsbD (a.toNat % 64) = false) : c.srcF a = [⟨Cause.rank .latch, .latch, c.em⟩] := by
  have h4 : ¬ 4 ≤ a.toNat % 64 := by omega
  simp [Ctx.srcF, Ctx.srcAt, hs, hn, h4, hbad, hl, -BitVec.getLsbD_eq_getElem]

/-- An index out of bounds in some active lane (R55). -/
theorem Ctx.srcF_bound (hbad : c.sn.bad = []) (hs : a.toNat / 64 = 1) (h4 : 4 ≤ a.toNat % 64) (h8 : a.toNat % 64 < 8)
    (ho : maskOf (c.lanes.filter fun j => !c.idxOk (a.toNat % 64 - 4) j) ≠ 0) :
    c.srcF a = [⟨Cause.rank .bound, .bound, maskOf (c.lanes.filter fun j => !c.idxOk (a.toNat % 64 - 4) j)⟩] := by
  have hn : ¬ a.toNat % 64 < 4 := by omega
  have hf := lanesFail_of (Cause.rank .bound) .bound ho
  rw [Ctx.lanes] at hf
  simp [Ctx.srcF, Ctx.srcAt, Ctx.lanes, hs, hn, h4, h8, hbad, hf]

/-- A register of which some active lane's word fails its code (R421). -/
theorem Ctx.srcF_poison (hs : a.toNat / 64 = 0) (hb : maskOf (c.lanes.filter fun j => c.badWord (a.toNat, j)) ≠ 0) :
    c.srcF a = [⟨5, .poison, maskOf (c.lanes.filter fun j => c.badWord (a.toNat, j))⟩] := by
  have hbad : c.sn.bad ≠ [] := fun e => hb (by simp [Ctx.badWord, e, maskOf])
  have hn : a.toNat % 64 = a.toNat := by omega
  have hf := lanesFail_of 5 .poison hb
  rw [Ctx.lanes] at hf
  simp [Ctx.srcF, Ctx.srcAt, Ctx.lanes, Ctx.reads, hs, hn, hbad, hf]

/-! ## The words -/

/-- A word in place of whose result stands what the checks of `a` find, met once, or twice where both its sources are `a`. -/
def ChecksSource (i : Instr) (a : BitVec 8) (ok : Ctx → Prop) : Prop :=
  ∀ (s : State) (c : Ctx), s.ctx? = some c → wellFormed i = true → ok c →
    ∃ k, exec i s = .next (s.checked c (c.srcF a) k) ∨ exec i s = .next (s.checked c (c.srcF a ++ c.srcF a) k)

/-- A single finding is raised, also where it is met twice. -/
theorem ChecksSource.raises {ok : Ctx → Prop} (h : ChecksSource i a ok) (hc : s.ctx? = some c) (hw : wellFormed i = true) (ho : ok c)
    {f : Finding} (hf : c.srcF a = [f]) : exec i s = .next (s.takeTrap c (s.restartTrap f.cause f.rank f.fm)) := by
  obtain ⟨k, e | e⟩ := h s c hc hw ho
  · rw [e, hf]; rfl
  · rw [e, hf]; simp [State.checked, bestFinding]

theorem ChecksSource.srcTrapLaw {ok : Ctx → Prop} (h : ChecksSource i a ok) : SrcTrapLaw i a ok := by
  refine ⟨?latch, ?bound, ?poison⟩
  case latch =>
    exact fun s c hc hw ⟨ho, hbad, hs, hn, hl⟩ => ⟨_, h.raises hc hw ho (Ctx.srcF_latch hbad hs hn hl), rfl⟩
  case bound =>
    exact fun s c hc hw ⟨ho, hbad, hs, h4, h8, hout⟩ => ⟨_, h.raises hc hw ho (Ctx.srcF_bound hbad hs h4 h8 hout), rfl⟩
  case poison =>
    exact fun s c hc hw ⟨ho, hs, hb⟩ => ⟨_, h.raises hc hw ho (Ctx.srcF_poison hs hb), rfl⟩

/-- A word that checks one source and then the other before it computes. -/
def ChecksBoth (i : Instr) (a b : BitVec 8) : Prop :=
  ∀ (s : State) (c : Ctx), s.ctx? = some c → wellFormed i = true → ∃ k, exec i s = .next (s.checked c (c.srcF a ++ c.srcF b) k)

theorem ChecksBoth.first (h : ChecksBoth i a b) : ChecksSource i a (fun c => c.SrcOk b ∨ a = b) := by
  intro s c hc hw ho
  obtain ⟨k, e⟩ := h s c hc hw
  obtain hb | rfl := ho
  · exact ⟨k, .inl (by rw [e, Ctx.srcF_nil hb, List.append_nil])⟩
  · exact ⟨k, .inr e⟩

theorem ChecksBoth.second (h : ChecksBoth i a b) : ChecksSource i b (fun c => c.SrcOk a ∨ a = b) := by
  intro s c hc hw ho
  obtain ⟨k, e⟩ := h s c hc hw
  obtain ha | rfl := ho
  · exact ⟨k, .inl (by rw [e, Ctx.srcF_nil ha, List.nil_append])⟩
  · exact ⟨k, .inr e⟩

theorem ChecksBoth.twoSrcTraps (h : ChecksBoth i a b) : TwoSrcTraps i a b := ⟨h.first.srcTrapLaw, h.second.srcTrapLaw⟩

theorem ChecksBoth.of_laneWord {n : BitVec 1} {d : Nat} {f : Ctx → Nat → Word}
    (e : ∀ s, exec i s = laneWord i s n d (fun c => c.srcF a ++ c.srcF b) f) : ChecksBoth i a b := fun s c hc hw =>
  ⟨_, by rw [e, laneWord, word_next _ hc hw]⟩

theorem ChecksBoth.of_fpWord {n : BitVec 1} {d : Nat} {f : Ctx → Nat → Word × FFlags}
    (e : ∀ s, exec i s = fpWord i s n d (fun c => c.srcF a ++ c.srcF b) f) : ChecksBoth i a b := fun s c hc hw =>
  ⟨_, by rw [e, fpWord, word_next _ hc hw]⟩

/-- Settles O14: each word checks one source and then the other before it computes, and a source that cannot be read gives one finding. -/
theorem sourceTraps : Obligations.SourceTraps := by
  unfold Obligations.SourceTraps
  intro d n a b
  refine ⟨?_, ?_, ?_, ?_, ?_, ?_, ?_, ?_, ?_, ?_, ?_, ?_, ?_, ?_, ?_, ?_, ?_⟩
  iterate 16 exact (ChecksBoth.of_laneWord fun _ => rfl).twoSrcTraps
  refine ⟨?_, ?_, ?_, ?_, ?_, ?_, ?_, ?_, ?_, ?_, ?_, ?_, ?_, ?_, ?_⟩
  iterate 15 exact (ChecksBoth.of_fpWord fun _ => rfl).twoSrcTraps

end Sys2Proof.Machine
end

section
/-! PROOF. What `cr.rd` and `cr.wr` do (R72 to R75, R383; O38): the pair of the executing lane, the checks of a write, the registers written. -/

set_option Elab.async false

namespace Sys2Proof.Machine

variable {s : State} {c : Ctx} {a : BitVec 6} {i : BitVec 8}

/-! ## Pairs -/

theorem Lg.wrPair_pairWrite (l : Lg) (em : Word) (d : Nat) (f : Nat → DWord) : PairWrite em d f l (l.wrPair em d f) := by
  refine ⟨fun r lane hl => ?_, rfl⟩
  rw [Lg.wrPair, Lg.wrV_vAt _ _ _ _ _ _ hl, Lg.wrV_vAt _ _ _ _ _ _ hl]
  by_cases hd : r = d <;> simp [hd]

/-- Two words side by side: the number that they make. -/
theorem pairWord_eq (lo hi : Word) :
    lo.setWidth 64 ||| (hi.setWidth 64 <<< 32) = BitVec.ofNat 64 (lo.toNat + hi.toNat * 2 ^ 32) := by
  have hl : lo.toNat < 2 ^ 32 := lo.isLt
  have hh : hi.toNat < 2 ^ 32 := hi.isLt
  apply BitVec.eq_of_toNat_eq
  have ha : (hi.toNat * 2 ^ 32 + lo.toNat) = hi.toNat * 2 ^ 32 ||| lo.toNat := by
    rw [← Nat.shiftLeft_eq, Nat.shiftLeft_add_eq_or_of_lt hl]
  simp only [BitVec.toNat_or, BitVec.toNat_setWidth, BitVec.toNat_shiftLeft, BitVec.toNat_ofNat, Nat.shiftLeft_eq]
  rw [Nat.mod_eq_of_lt (show lo.toNat < 2 ^ 64 by omega), Nat.mod_eq_of_lt (show hi.toNat < 2 ^ 64 by omega),
    Nat.mod_eq_of_lt (show hi.toNat * 2 ^ 32 < 2 ^ 64 by omega), Nat.mod_eq_of_lt (show lo.toNat + hi.toNat * 2 ^ 32 < 2 ^ 64 by omega),
    Nat.add_comm, ha, Nat.or_comm]

/-- The value that `cr.wr` writes: the pair of the executing lane (R383). -/
def Ctx.exPair (c : Ctx) (a : BitVec 6) : DWord :=
  BitVec.ofNat 64 ((c.v a.toNat c.exLane).toNat + (c.v (a.toNat + 1) c.exLane).toNat * 2 ^ 32)

/-- A lane runs a write of a uniform control register, and its pair passes its codes. -/
def Ctx.ExPairOk (c : Ctx) (a : BitVec 6) : Prop := c.em ≠ 0 ∧ c.ExOk a.toNat ∧ c.ExOk (a.toNat + 1)

theorem Ctx.regF_exLane {r : Nat} (h : c.ExOk r) : c.regF (1#32 <<< c.exLane) r = [] := by
  unfold Ctx.regF
  split
  · rfl
  · refine lanesFail_nil 5 .poison fun j hj => ?_
    have hj : j = c.exLane := by
      have hb := (mem_lanesOf.mp hj).2
      simp at hb
      omega
    exact hj ▸ h

theorem Ctx.illegalIf_of {b : Bool} (h : b = true) : c.illegalIf b = [⟨6, .illegal, c.em⟩] := if_pos h

theorem Ctx.illegalIf_nil {b : Bool} (h : b = false) : c.illegalIf b = [] := if_neg (by simp [h])

/-! ## `cr.rd` -/

/-- A register other than the index offsets. -/
theorem exec_crRd_uniform {d : BitVec 6} (h : s.ctx? = some c) (hw : wellFormed (.crRd d i) = true) (hi : i.toNat < 5 ∨ 8 < i.toNat) :
    exec (.crRd d i) s = .next (s.up c fun l => l.wrPair c.em d.toNat fun _ => c.crUniform s i.toNat) := by
  show execCrRd d i s = _
  rw [execCrRd, word_next _ h hw, if_neg (by omega)]

/-- The index offsets (R55). -/
theorem exec_crRd_offsets {d : BitVec 6} (h : s.ctx? = some c) (hw : wellFormed (.crRd d i) = true) (h5 : 5 ≤ i.toNat) (h8 : i.toNat ≤ 8) :
    exec (.crRd d i) s = .next (s.up c fun l => l.wrV c.em d.toNat fun j => BitVec.ofNat 32 (c.idxOff (i.toNat - 5) j)) := by
  show execCrRd d i s = _
  rw [execCrRd, word_next _ h hw, if_pos ⟨h5, h8⟩]

/-! ## `cr.wr` -/

theorem Lg.wrOff_xoAt (l : Lg) (em : Word) (x : Nat) (f : Nat → BitVec 8) (y lane : Nat) (h : lane < 32) :
    (l.wrOff em x f).xoAt y lane = if y = x ∧ em.getLsbD lane = true then f lane else l.xoAt y lane := by
  unfold Lg.xoAt Lg.wrOff
  by_cases hy : y = x
  · subst hy
    refine (getD_foldl_setD 0 (fun j => 32 * y + j) f (fun _ _ e => Nat.add_left_cancel e) (lanesOf em) l.xo _ lane rfl).trans ?_
    simp [mem_lanesOf, h]
  · refine (getD_foldl_setD_other 0 (fun j => 32 * x + j) f (lanesOf em) l.xo _ fun j hj e => hy ?_).trans ?_
    · have := (mem_lanesOf.mp hj).1
      omega
    · simp [hy]

/-- The index offsets. -/
theorem exec_crWr_offsets (h : s.ctx? = some c) (hw : wellFormed (.crWr a i) = true) (h5 : 5 ≤ i.toNat) (h8 : i.toNat ≤ 8)
    (ha : c.RegOk a.toNat) :
    exec (.crWr a i) s = .next (s.up c fun l => l.wrOff c.em (i.toNat - 5) fun j => (c.v a.toNat j).truncate 8) := by
  show execCrWr a i s = _
  rw [execCrWr, word_next _ h hw]
  dsimp only
  rw [if_pos ⟨h5, h8⟩, Ctx.regF_nil ha, State.checked_nil]
  rfl

/-- A uniform register of the handler, outside it. -/
theorem exec_crWr_outside (h : s.ctx? = some c) (hw : wellFormed (.crWr a i) = true) (hi : i.toNat < 5 ∨ 8 < i.toNat)
    (hs : (crSup i.toNat && !c.sn.sup) = true) : exec (.crWr a i) s = .next (s.takeTrap c (s.restartTrap .illegal 6 c.em)) := by
  show execCrWr a i s = _
  rw [execCrWr, word_next _ h hw]
  dsimp only
  rw [if_neg (by omega), Ctx.illegalIf_of hs]
  rfl

/-- With no active lane. -/
theorem exec_crWr_idle (h : s.ctx? = some c) (hw : wellFormed (.crWr a i) = true) (hi : i.toNat < 5 ∨ 8 < i.toNat)
    (hs : (crSup i.toNat && !c.sn.sup) = false) (he : c.em = 0) : exec (.crWr a i) s = .next s := by
  show execCrWr a i s = _
  rw [execCrWr, word_next _ h hw]
  dsimp only
  rw [if_neg (by omega), Ctx.illegalIf_nil hs, State.checked_nil, if_pos he]

/-- With an active lane: the value is checked, and written. -/
theorem exec_crWr_uniform (h : s.ctx? = some c) (hw : wellFormed (.crWr a i) = true) (hi : i.toNat < 5 ∨ 8 < i.toNat)
    (hs : (crSup i.toNat && !c.sn.sup) = false) (hx : c.ExPairOk a) :
    exec (.crWr a i) s = .next (s.checked c (c.illegalIf (crBad i.toNat (c.exPair a))) fun s => s.crPut c i.toNat (c.exPair a)) := by
  obtain ⟨he, hlo, hhi⟩ := hx
  show execCrWr a i s = _
  rw [execCrWr, word_next _ h hw]
  dsimp only
  rw [if_neg (by omega), Ctx.illegalIf_nil hs, State.checked_nil, if_neg he, Ctx.regF_exLane hlo, Ctx.regF_exLane hhi, pairWord_eq]
  rfl

theorem exec_crWr_put (h : s.ctx? = some c) (hw : wellFormed (.crWr a i) = true) (hi : i.toNat < 5 ∨ 8 < i.toNat)
    (hs : (crSup i.toNat && !c.sn.sup) = false) (hx : c.ExPairOk a) (hb : crBad i.toNat (c.exPair a) = false) :
    exec (.crWr a i) s = .next (s.crPut c i.toNat (c.exPair a)) := by
  rw [exec_crWr_uniform h hw hi hs hx, Ctx.illegalIf_nil hb, State.checked_nil]

theorem exec_crWr_bad (h : s.ctx? = some c) (hw : wellFormed (.crWr a i) = true) (hi : i.toNat < 5 ∨ 8 < i.toNat)
    (hs : (crSup i.toNat && !c.sn.sup) = false) (hx : c.ExPairOk a) (hb : crBad i.toNat (c.exPair a) = true) :
    exec (.crWr a i) s = .next (s.takeTrap c (s.restartTrap .illegal 6 c.em)) := by
  rw [exec_crWr_uniform h hw hi hs hx, Ctx.illegalIf_of hb]
  rfl

/-! ## Refusals, the registers written -/

/-- A limit above 256 is refused (R74). -/
theorem crBad_index {n : Nat} (x : DWord) (h1 : 1 ≤ n) (h4 : n ≤ 4) : crBad n x = decide (256 < bits x 8 9) := by
  have h0 : n ≠ 0 := by omega
  simp [crBad, h0, h1, h4]

/-- Edge mode 3 is refused (R73). -/
theorem crBad_lgs (x : DWord) : crBad 0 x = (bits x 3 2 == 3) := by simp [crBad]

/-- The registers that only the handler writes (R72). -/
theorem crSup_iff : crSup i.toNat = true ↔ i = 0x0A ∨ i = 0x13 ∨ i = 0x18 := by
  simp [crSup, ← BitVec.toNat_inj, or_assoc]

theorem crSup_index {n : Nat} (b : Bool) (h4 : n ≤ 4) : (crSup n && b) = false := by
  have h : crSup n = false := by simp [crSup]; omega
  rw [h, Bool.false_and]

/-- The index registers: base and limit (R74). -/
theorem State.crPut_index (s : State) (c : Ctx) {n : Nat} (x : DWord) (h1 : 1 ≤ n) (h4 : n ≤ 4) :
    s.crPut c n x = s.up c fun l =>
      { l with x := l.x.setD {} (n - 1) ⟨BitVec.ofNat 8 (bits x 0 8), BitVec.ofNat 9 (bits x 8 9)⟩ } := by
  have hn : n = 1 ∨ n = 2 ∨ n = 3 ∨ n = 4 := by omega
  obtain rfl | rfl | rfl | rfl := hn <;> rfl

/-- Settles O38: a read by its register's value, a write by the checks that come first (the handler's registers, the executing lane, the
value) and then by what it puts into its register. -/
theorem controlRegisters : Obligations.ControlRegisters := by
  unfold Obligations.ControlRegisters
  refine ⟨fun d i => ⟨?rdUniform, ?rdOffsets⟩, fun a i => ?wr⟩
  case rdUniform =>
    intro s c h hw hi
    refine ⟨_, exec_crRd_uniform h hw hi, _, Lg.wrPair_pairWrite .., (State.up_eq h _).trans ?_⟩
    refine congrArg (fun f => s.setLg c.g (c.lg.wrPair c.em d.toNat f)) (funext fun _ => ?_)
    unfold Ctx.crUniform
    dsimp only
    cases s.pk.crs <;> rfl
  case rdOffsets =>
    intro s c h hw ⟨h5, h8⟩
    refine ⟨_, exec_crRd_offsets h hw h5 h8, _, Lg.wrRes_laneWrite c.lg c.em 0 d.toNat _ (by simp), (State.up_eq h _).trans ?_⟩
    exact congrArg (fun f => s.setLg c.g (c.lg.wrV c.em d.toNat f)) (funext fun j => BitVec.ofNat_toNat ..)
  case wr =>
    intro x ok
    refine ⟨?edge, ?index, ?offsets, ?fm, ?fflags, ?resume, ?parkth, ?mxchk, ?outside, ?badEdge, ?badLimit, ?idle⟩
    case edge =>
      rintro s c h hw ⟨rfl, hx, hb⟩
      exact ⟨_, exec_crWr_put h hw (.inl (by decide)) rfl hx ((crBad_lgs _).trans (beq_false_of_ne hb)), State.up_eq h _⟩
    case index =>
      intro s c h hw ⟨h1, h4, hx, hb⟩
      refine ⟨_, exec_crWr_put h hw (.inl (by omega)) (crSup_index _ h4) hx ?_, ?_⟩
      · exact (crBad_index _ h1 h4).trans (decide_eq_false (not_lt.mpr hb))
      · exact (State.crPut_index s c _ h1 h4).trans (State.up_eq h _)
    case offsets =>
      intro s c h hw ⟨h5, h8, ha⟩
      exact ⟨_, exec_crWr_offsets h hw h5 h8 ha, _, Lg.wrOff_xoAt c.lg c.em _ _, rfl, State.up_eq h _⟩
    case fm =>
      rintro s c h hw ⟨rfl, hx, hs⟩
      exact ⟨_, exec_crWr_put h hw (.inr (by decide)) (by simp [hs]) hx rfl, State.up_eq h _⟩
    case fflags =>
      rintro s c h hw ⟨rfl, hx⟩
      exact ⟨_, exec_crWr_put h hw (.inr (by decide)) rfl hx rfl, State.up_eq h _⟩
    case resume =>
      rintro s c h hw ⟨rfl, hx, hs⟩
      exact ⟨_, exec_crWr_put h hw (.inr (by decide)) (by simp [hs]) hx rfl, State.up_eq h _⟩
    case parkth =>
      rintro s c h hw ⟨rfl, hx, hs⟩
      refine ⟨_, exec_crWr_put h hw (.inr (by decide)) (by simp [hs]) hx rfl, _, ?_, rfl, rfl⟩
      obtain ⟨-, -, -, hl⟩ := State.ctx?_spec h
      exact (State.find_modLaunch ..).trans (by rw [if_pos rfl, hl]; rfl)
    case mxchk =>
      rintro s c h hw ⟨rfl, hx⟩
      refine ⟨_, exec_crWr_put h hw (.inr (by decide)) rfl hx rfl, ?_, ?_, rfl⟩
      · refine (congrArg (fun k : Core => bits k.mxchk 0 24) ((State.core_modCore ..).trans (if_pos rfl))).trans ?_
        exact (bits_setBits _ 0 24 _ (by omega)).trans (Nat.mod_eq_of_lt (bits_lt ..))
      · refine (congrArg (fun k : Core => bits k.mxchk 24 40) ((State.core_modCore ..).trans (if_pos rfl))).trans ?_
        exact bits_setBits_above _ 0 24 _ 24 40 (by omega) (by omega)
    case outside =>
      intro s c h hw ⟨hi, hs⟩
      refine ⟨_, exec_crWr_outside h hw ?_ ?_, rfl⟩
      · obtain rfl | rfl | rfl := hi <;> exact .inr (by decide)
      · rw [crSup_iff.mpr hi, hs]
        rfl
    case badEdge =>
      rintro s c h hw ⟨rfl, hx, hb⟩
      exact ⟨_, exec_crWr_bad h hw (.inl (by decide)) rfl hx ((crBad_lgs _).trans (beq_iff_eq.mpr hb)), rfl⟩
    case badLimit =>
      intro s c h hw ⟨h1, h4, hx, hb⟩
      exact ⟨_, exec_crWr_bad h hw (.inl (by omega)) (crSup_index _ h4) hx ((crBad_index _ h1 h4).trans (decide_eq_true hb)), rfl⟩
    case idle =>
      intro s c h hw ⟨hi, he, hs⟩
      refine ⟨_, exec_crWr_idle h hw hi ?_ he, rfl⟩
      cases hn : crSup i.toNat with
      | false => rfl
      | true => rw [hs (crSup_iff.mp hn)]; rfl

end Sys2Proof.Machine
end

section
/-! PROOF. The step of a packet of one word (O43): what a fetch leaves of the packet in execution, then the issue, layer by layer. -/

set_option Elab.async false

namespace Sys2Proof.Machine

/-! ## What a fetch leaves of the packet -/

/-- What goes on below the lane groups leaves the packet in execution, but for its stall. -/
theorem Below.pk {s t : State} (h : Below s t) : ({ t.pk with stall := false } : PacketCtx) = { s.pk with stall := false } :=
  congrArg State.pk h.rest

/-- The packet stands at the same index, in the same run. -/
def SamePlace (s t : State) : Prop := t.pk.idx = s.pk.idx ∧ t.pk.first = s.pk.first

theorem SamePlace.of_below {s t : State} (h : Below s t) : SamePlace s t :=
  ⟨congrArg (·.idx) h.pk, congrArg (·.first) h.pk⟩

theorem State.fetchLine_go_samePlace (s : State) (c : Ctx) (va : Nat) : SamePlace s (State.fetchLine.go c va s).1 := by
  unfold State.fetchLine.go
  extract_lets tva
  split
  · exact ⟨rfl, rfl⟩
  · have hx := State.xlate_under s c.core c.part c.vf va 4
    split
    · next e => exact .of_below (hx.of_fst e).1
    · next e => exact .of_below (hx.of_fst e).1
    · next e => exact .of_below (hx.of_fst e).1
    · next s1 _ e =>
      replace hx := hx.of_fst e
      extract_lets pa k
      split
      · exact .of_below hx.1
      · split
        next s2 _ _ e2 =>
        have hd : Under s1 s2 := (State.devRead_under s1 pa 128).of_fst e2
        extract_lets s3 bs
        have h3 : Below s s3 := (hx.trans (hd.trans (State.asKey_under ..))).1
        split
        · exact SamePlace.of_below (t := s3) h3
        · exact .of_below h3

theorem State.fetchLine_samePlace (s : State) (c : Ctx) (va : Nat) : SamePlace s (s.fetchLine c va).1 := by
  unfold State.fetchLine
  split
  · split
    · exact ⟨rfl, rfl⟩
    · exact State.fetchLine_go_samePlace ..
  · exact State.fetchLine_go_samePlace ..

/-! ## The packet -/

section
variable {p : Packet} {i : Instr}

/-- A packet whose one word is well-formed. -/
theorem packetIllegal_one (hb : p.badFill = none) (hp : packetSlots p = [(0, some i)]) (hi : wellFormed i = true) :
    packetIllegal p = none := by
  simp [packetIllegal, hb, hp, hi, minSlot]

theorem packetWords_one (hp : packetSlots p = [(0, some i)]) : packetWords p = [(0, i)] := by
  simp [packetWords, hp]

end

/-- The lane group as the words of its packet read it (R70), in the machine `s` in which its line has been fetched. -/
def Ctx.opened (c : Ctx) (s : State) : Lg :=
  { c.lg with landing := false, resuming := false, fetched := (s.lgs.find c.g).bind fun l => l.fetched }

/-- The machine as the words of a packet with no hold run in it. -/
def State.opened (s : State) (c : Ctx) (ln : FetchLine) : State :=
  (s.openPacket c (c.opened s) (succIn ln s.pk.idx)).setLg c.g { c.opened s with pc := succIn ln s.pk.idx }

/-- What becomes of the lane group of a packet with no hold once its words have run. -/
def State.wordsDone (t : State) (g : Nat) (first : DWord) (slow : List Nat) : State :=
  match t.pk.fate with
  | .runs => t.modLg g fun l => if l.replay.isSome then { l with run := none } else l.afterPacket false first slow
  | _ => t

/-- A packet with no hold that no rule of R472 refuses runs its words. -/
theorem State.runWhole_noHold {s : State} {c : Ctx} {ln : FetchLine} {p : Packet} (hs : s.pk.stall = false) (hh : p.hold = false)
    (hc : c.chainSlot (packetWords p) false false = none) :
    s.runWhole c ln p = andThen ((s.opened c ln).runPacket c.em (packetWords p)) fun t =>
      .next (t.wordsDone c.g s.pk.first ((packetWords p).filterMap fun q => slowWrite q.2)) := by
  simp only [State.runWhole, hh, Bool.false_eq_true, if_false, hs, hc]
  refine congrArg (andThen _) (funext fun t => ?_)
  unfold State.wordsDone
  cases t.pk.fate <;> simp

/-- A line that passes the checks of its packet, which replays nothing. -/
theorem State.runLine_of {s : State} {c : Ctx} {ln : FetchLine} {p : Packet} (hp : ln.packet (s.pk.idx.toNat % 10) = p)
    (hr : c.lg.replay = none) (hl : c.lg.landing = true → mayLand ln s.pk.idx = true) (hv : ln.isValid (s.pk.idx.toNat % 10) = true)
    (hi : packetIllegal p = none) (hw : s.spawnWaits c p = false) :
    s.runLine c ln = andThen (s.runWhole c ln p) fun t => .next (t.spawned c p) := by
  have hm : ¬ (c.lg.landing && c.lg.replay.isNone && !mayLand ln s.pk.idx) = true := by
    cases h : c.lg.landing with
    | false => simp
    | true => simp [hl h]
  subst hp
  unfold State.runLine
  dsimp only
  rw [if_neg hm, if_neg (by simp [hv]), hi]
  dsimp only
  rw [if_neg (by simp [hw]), hr]

/-! ## The issue -/

theorem State.seeK_of_kv_nil {s : State} {g : Nat} {l : Lg} (hl : s.lgs.find g = some l) (hk : l.kv = []) : s.seeK g = s := by
  simp [State.seeK, hl, hk]

/-- The machine at the issue of a lane group that stands as `l` before it. -/
def State.atIssue (s : State) (g : Nat) (l : Lg) : State :=
  { s.modLg g (fun l => { l with status := .ready, counting := false }) with
    cur := g, pk := { idx := l.pc, succ := l.pc, first := (l.run.map (·.first)).getD l.pc, since := some s.nseq } }

theorem State.atIssue_ctx? {s : State} {g : Nat} {l : Lg} {c : Ctx} (hl : s.lgs.find g = some l) (hc : (s.atIssue g l).ctx? = some c) :
    c.g = g ∧ c.lg = { l with status := .ready, counting := false } := by
  obtain ⟨hg, hlg, -, -⟩ := State.ctx?_spec hc
  refine ⟨hg, Option.some.inj (hlg.symm.trans ?_)⟩
  show (s.modLg g fun l => { l with status := .ready, counting := false }).lgs.find g = _
  rw [State.find_modLg, if_pos rfl, hl]
  rfl

/-- An issue whose line is fetched. -/
theorem State.issue_of_line {s s1 : State} {g : Nat} {l : Lg} {c : Ctx} {ln : FetchLine} (hl : s.lgs.find g = some l) (hk : l.kv = [])
    (hc : (s.atIssue g l).ctx? = some c) (hf : (s.atIssue g l).fetchLine c (lineVa l.pc) = (s1, .line ln)) (hs : s1.pk.stall = false) :
    s.issue g = andThen (s1.runLine c ln) fun t => .next (t.closePacket g) := by
  unfold State.issue
  extract_lets u
  have hu : u = s.modLg g fun l => { l with status := .ready, counting := false } := by
    unfold u
    rw [State.seeK_of_kv_nil hl hk]
  have hg : u.lgs.find g = some { l with status := .ready, counting := false } := by
    rw [hu, State.find_modLg, if_pos rfl, hl]
    rfl
  split
  · next e => rw [hg] at e; cases e
  · next l' e =>
    obtain rfl : _ = l' := Option.some.inj (hg.symm.trans e)
    extract_lets v
    have hv : v = s.atIssue g l := by
      unfold v
      rw [hu]
      rfl
    rw [hv]
    split
    · next e => rw [hc] at e; cases e
    · next c' e =>
      obtain rfl : c = c' := Option.some.inj (hc.symm.trans e)
      dsimp only
      rw [hf]
      exact if_neg (by simp [hs])

/-! ## The step -/

/-- Where nothing can happen but a packet of one lane group, it issues. -/
theorem State.goOn_issue {s : State} {g : Nat} (hm : s.ripeOf [] s.pending = []) (hd : s.due = []) (hf : s.flitMoves = [])
    (hi : s.issuable = [g]) : s.goOn = s.issue g := by
  unfold State.goOn
  rw [hm, hd, hf, hi]
  rfl

/-- With no event of the outside world and no frame beyond its deadline the package goes on. -/
theorem State.advance_goOn {s : State} (ha : s.agenda = []) (ho : ({ s.settle with pk := {} } : State).overdue = none) :
    s.advance = State.goOn { s.settle with pk := {} } := by
  unfold State.advance State.afterDeadlines
  rw [ha]
  dsimp only [State.firstOutside]
  rw [ho]
  rfl

/-- Settles O43: the step is the issue of the one lane group; the fetch leaves its packet where it stands; the packet's checks pass; its
one word runs alone. -/
theorem stepRunsTheWord : Obligations.StepRunsTheWord := by
  unfold Obligations.StepRunsTheWord
  intro s s1 g c l ln i s0 hag hov hmsg hdue hfl hiss hl hkv hrep s2 hc hfetch hst hland hval p hhold hfill hslots hwf hspawn hchain sn u t hx
  obtain ⟨rfl, hlg⟩ := State.atIssue_ctx? hl hc
  have hidx : s1.pk.idx = l.pc := by
    have h := (State.fetchLine_samePlace s2 c (lineVa l.pc)).1
    rw [hfetch] at h
    exact h
  have hissue : step s = s0.issue c.g := (State.advance_goOn hag hov).trans (State.goOn_issue hmsg hdue hfl hiss)
  have hline : s1.runLine c ln = andThen (s1.runWhole c ln p) fun t => .next (t.spawned c p) :=
    State.runLine_of (by rw [hidx]) (by rw [hlg]; exact hrep) (by rw [hlg, hidx]; exact hland) (by rw [hidx]; exact hval)
      (packetIllegal_one hfill hslots hwf) hspawn
  have hone : (s1.opened c ln).runPacket c.em (packetWords p) = .next t := by
    rw [packetWords_one hslots]
    exact hx
  have hwhole : s1.runWhole c ln p =
      .next (t.wordsDone c.g s1.pk.first ((packetWords p).filterMap fun q => slowWrite q.2)) :=
    (State.runWhole_noHold hst hhold hchain).trans (congrArg (andThen · _) hone)
  calc step s
    _ = s0.issue c.g := hissue
    _ = andThen (s1.runLine c ln) fun t => .next (t.closePacket c.g) := State.issue_of_line hl hkv hc hfetch hst
    _ = _ := congrArg (andThen · _) (hline.trans (congrArg (andThen · _) hwhole))

end Sys2Proof.Machine
end

section
/-! PROOF. What a full cache gives up where its directory lists one line twice (O51): the second entry of the line takes the place of its
first, and an ownership that a publish has ended stands again. -/

set_option Elab.async false

namespace Sys2Proof.Machine

/-! ## Tables -/

section
variable {α : Type} {p : Nat × α → Bool} {k : Nat} (hp : ∀ y, p (k, y) = false)
include hp

/-- A write of an entry leaves a selection that no entry of its key meets. -/
theorem Tab.filter_put_apart (x : α) : ∀ t : Tab α, (t.put k x).filter p = t.filter p
  | [] => by simp [Tab.put, hp]
  | (j, y) :: r => by
    unfold Tab.put
    split
    · simp [hp]
    · split
      · next h => subst h; simp [hp]
      · simp [List.filter_cons, Tab.filter_put_apart x r]

theorem Tab.filter_del_apart : ∀ t : Tab α, (t.del k).filter p = t.filter p
  | [] => rfl
  | (j, y) :: r => by
    have ih := Tab.filter_del_apart r
    unfold Tab.del
    split
    · next h => simp [h, hp, ih]
    · simp [List.filter_cons, ih]

theorem Tab.filter_setD_apart [DecidableEq α] (t : Tab α) (d x : α) : (t.setD d k x).filter p = t.filter p := by
  unfold Tab.setD
  split
  · exact Tab.filter_del_apart hp t
  · exact Tab.filter_put_apart hp x t

end

/-- A write of the first entry of a table. -/
theorem Tab.setD_cons_self {α : Type} [DecidableEq α] {d x : α} (h : x ≠ d) (k : Nat) (y : α) (r : Tab α) :
    Tab.setD ((k, y) :: r) d k x = (k, x) :: r := by
  simp [Tab.setD, Tab.put, h]

/-! ## The directory -/

theorem State.dirOf_setDir (s : State) (ln j : Nat) (d : Dir) : (s.setDir ln d).dirOf j = if j = ln then d else s.dirOf j :=
  Tab.getD_setD ..

theorem State.homeWrite_dir (s : State) (a : Nat) (bs : List Byte) : (s.homeWrite a bs).dir = s.dir := by
  unfold State.homeWrite
  split
  · rfl
  · exact foldl_keeps State.dir _ (fun s w => by split <;> rfl) _ _

theorem State.homeWriteP_dir (s : State) (a : Nat) (bs : List Byte) (pois : List Nat) : (s.homeWriteP a bs pois).dir = s.dir := by
  unfold State.homeWriteP
  split
  · rfl
  · exact (foldl_keeps State.dir (fun s w => s.setPois w true) (fun _ _ => rfl) _ _).trans (State.homeWrite_dir ..)

theorem State.fill_dir (s : State) (ln : Nat) : (s.fill ln).dir = s.dir := by
  unfold State.fill
  split
  · exact foldl_keeps State.dir (fun s i => s.setPois (32 * ln + i) true) (fun _ _ => rfl) _ _
  · rfl

/-- The entries of other lines that the memory-side cache of a line's die holds. -/
def State.mscOthers (s : State) (ln : Nat) : Tab Dir :=
  s.dir.filter fun p => p.2.inMsc && p.1 != ln && s.homeDie (128 * p.1) == s.homeDie (128 * ln)

/-- The entries of other lines that the line's L2 slice holds. -/
def State.l2Others (s : State) (ln : Nat) : Tab Dir :=
  s.dir.filter fun p => p.2.inL2 && p.1 != ln && s.homeDie (128 * p.1) == s.homeDie (128 * ln) &&
    homeSlice (128 * p.1) == homeSlice (128 * ln)

theorem State.mscOthers_setDir (s : State) (ln : Nat) (d : Dir) : (s.setDir ln d).mscOthers ln = s.mscOthers ln :=
  Tab.filter_setD_apart (by simp) ..

theorem State.l2Others_setDir (s : State) (ln : Nat) (d : Dir) : (s.setDir ln d).l2Others ln = s.l2Others ln :=
  Tab.filter_setD_apart (by simp) ..

/-- The home die of an address is read off the address and the registers. -/
theorem State.homeDie_of_win {s t : State} (h : t.win = s.win) (pa : Nat) : t.homeDie pa = s.homeDie pa := by
  cases s
  cases t
  cases h
  rfl

theorem State.l2Others_of_dir_win {s t : State} (hd : t.dir = s.dir) (hw : t.win = s.win) (ln : Nat) : t.l2Others ln = s.l2Others ln := by
  simp only [State.l2Others, State.homeDie_of_win hw, hd]

theorem State.mscOthers_of_dir_win {s t : State} (hd : t.dir = s.dir) (hw : t.win = s.win) (ln : Nat) :
    t.mscOthers ln = s.mscOthers ln := by
  simp only [State.mscOthers, State.homeDie_of_win hw, hd]

/-- Of equal entries every choice takes the same. -/
theorem State.victim_replicate (s : State) {n : Nat} (h : 0 < n) (p : Nat × Dir) :
    s.victim (List.replicate n p) = (s.draw.2, some p) := by
  simp [State.victim, State.draw, Nat.mod_lt _ h]

/-- A full memory-side cache whose other entries are all the same gives that one up: it is written over what its line has. -/
theorem State.keepMsc_gives_up {s : State} {ln v n : Nat} {x : Dir} (ho : s.ownMemory ln = true)
    (hh : s.mscOthers ln = List.replicate n (v, x)) (hn : mscLines ≤ n) :
    (s.keepMsc ln true).dirOf v = { x with inMsc := false, mscDirty := false } := by
  have hn0 : 0 < n := Nat.lt_of_lt_of_le (by decide) hn
  unfold State.keepMsc
  rw [if_neg (by simp [ho])]
  extract_lets s0 d s1 held
  have hheld : held = List.replicate n (v, x) := (State.mscOthers_setDir s0 ln _).trans hh
  rw [hheld, List.length_replicate, if_neg (by omega), State.victim_replicate _ hn0]
  dsimp only
  rw [State.dirOf_setDir, if_pos rfl]

/-- A full L2 slice whose other entries are all the same dirty one gives it to the memory-side cache. -/
theorem State.keepL2_gives_up {s : State} {ln v n : Nat} {y : Dir} (ho : s.ownMemory ln = true)
    (hh : s.l2Others ln = List.replicate n (v, y)) (hn : l2Lines ≤ n) (hy : y.dirty = true) :
    ∃ (u : State) (d : Dir), s.keepL2 ln true = u.keepMsc v true ∧ d.inL2 = true ∧ d.inMsc = (s.dirOf ln).inMsc ∧
      u.mscOthers v = (s.setDir ln d).mscOthers v := by
  have hn0 : 0 < n := Nat.lt_of_lt_of_le (by decide) hn
  unfold State.keepL2
  rw [if_neg (by simp [ho])]
  extract_lets s0 d s1 held
  have hdir : s0.dir = s.dir := State.fill_dir s ln
  have hwin : s0.win = s.win := (State.fill_under s ln).1.win
  have hheld : held = List.replicate n (v, y) :=
    (State.l2Others_setDir s0 ln _).trans ((State.l2Others_of_dir_win hdir hwin ln).trans hh)
  obtain ⟨e, hs1, hL2, hMsc⟩ : ∃ e, s1 = s0.setDir ln e ∧ e.inL2 = true ∧ e.inMsc = (s0.dirOf ln).inMsc := ⟨_, rfl, rfl, rfl⟩
  rw [hheld, List.length_replicate, if_neg (by omega), State.victim_replicate _ hn0]
  dsimp only
  rw [if_pos hy, hs1]
  refine ⟨_, e, rfl, hL2, ?_, ?_⟩
  · rw [hMsc, State.dirOf, State.dirOf, hdir]
  · rw [State.mscOthers_setDir]
    exact State.mscOthers_of_dir_win (s := s.setDir ln e) (t := (s0.setDir ln e).draw.2) (congrArg (Tab.setD · ({} : Dir) ln e) hdir) hwin v

/-! ## A line listed twice -/

/-- The first entry of line 0, which is what a read of the directory finds: agent 0 owns its word 0. -/
def lineOnce : Dir := { inL2 := true, own := [(0, 0)] }

/-- A further entry of line 0, which stands as one that the memory-side cache holds. -/
def lineAgain : Dir := { inMsc := true, own := [(0, 0)] }

/-- A dirty line of the same slice of L2. -/
def dirtyLine : Dir := { inL2 := true, dirty := true }

/-- Entries that fill the memory-side cache of die 0, all of line 0, and its L2 slice 0, all of line 17. -/
def cachesFull : Tab Dir := List.replicate mscLines (0, lineAgain) ++ List.replicate l2Lines (17, dirtyLine)

/-- The machine after reset, but for a directory that lists line 0 again and again and a publish of its word 0 under way. -/
def twiceListed : State :=
  { State.reset with dir := (0, lineOnce) :: cachesFull, pending := [.publishArrive 0 0 [] 1 0] }

section
variable {s : State} {d : Dir} (hs : s.dir = (0, d) :: cachesFull)
include hs

theorem State.dirOf_cachesFull : s.dirOf 0 = d := by
  rw [State.dirOf, hs]
  rfl

theorem State.setDir_cachesFull {e : Dir} (he : e ≠ {}) : (s.setDir 0 e).dir = (0, e) :: cachesFull := by
  rw [State.setDir_dir, hs, Tab.setD_cons_self he]

theorem State.mscOthers_cachesFull (hd : d.inMsc = false) : s.mscOthers 17 = List.replicate mscLines (0, lineAgain) := by
  have hdie : s.homeDie 2176 = s.homeDie 0 := rfl
  simp [State.mscOthers, hs, hd, cachesFull, lineAgain, dirtyLine, hdie]

theorem State.l2Others_cachesFull : s.l2Others 0 = List.replicate l2Lines (17, dirtyLine) := by
  have hdie : s.homeDie 2176 = s.homeDie 0 := rfl
  have hslice : homeSlice 2176 = homeSlice 0 := by decide
  simp [State.l2Others, hs, cachesFull, lineAgain, dirtyLine, hdie, hslice]

/-- Line 0 comes into L2, which pushes line 17 into the memory-side cache, which gives up the second entry of line 0: the first is gone. -/
theorem State.dirOf_keepL2_cachesFull (hd : d.inMsc = false) : (s.keepL2 0 true).dirOf 0 = { lineAgain with inMsc := false } := by
  obtain ⟨u, e, hu, hL2, hMsc, hoth⟩ := State.keepL2_gives_up (s := s) rfl (State.l2Others_cachesFull hs) (Nat.le_refl _) rfl
  have he : e ≠ {} := fun h => by rw [h] at hL2; cases hL2
  have hset : (s.setDir 0 e).dir = (0, e) :: cachesFull := State.setDir_cachesFull hs he
  rw [State.mscOthers_cachesFull hset (by rw [hMsc, State.dirOf_cachesFull hs, hd])] at hoth
  rw [hu, State.keepMsc_gives_up rfl hoth (Nat.le_refl _)]
  rfl

/-- So agent 0 owns word 0 after any publish of the line. -/
theorem State.ownerOf_takePublish_cachesFull (hL2 : d.inL2 = true) (hd : d.inMsc = false) (cells : List (Nat × Byte)) (own pois : Word) :
    (s.takePublish 0 0 cells own pois).ownerOf 0 = some 0 := by
  unfold State.takePublish
  extract_lets ws s1 e s2
  have h1 : s1.dir = s.dir := foldl_keeps State.dir _ (fun _ _ => State.homeWriteP_dir ..) ws s
  have he : e = d := State.dirOf_cachesFull (h1.trans hs)
  have h2 : s2.dir = (0, { e with own := e.own.filter fun p => !(ws.contains p.1) }) :: cachesFull :=
    State.setDir_cachesFull (h1.trans hs) fun h => by
      have h3 : e.inL2 = false := congrArg Dir.inL2 h
      rw [he, hL2] at h3
      cases h3
  rw [if_neg (show ¬ s2.fenced (128 * 0) = true from Bool.false_ne_true), State.ownerOf,
    State.dirOf_keepL2_cachesFull h2 (by rw [he]; exact hd)]
  rfl

end

/-- Refutes O51: the statement speaks of every state, also of one whose directory lists a line twice, which no run makes. There a publish
ends agent 0's ownership of word 0 of line 0, but the line that L2 then takes in makes the full memory-side cache give up a line; what it
gives up is the second entry of line 0, written over the first, and agent 0 owns the word as before (R113). -/
theorem not_memoryEvents : ¬ Obligations.MemoryEvents := by
  unfold Obligations.MemoryEvents
  rintro ⟨-, -, -, hlines, -⟩
  obtain ⟨-, hpublish, -⟩ := hlines 0 0 [] 1 0
  have hpend : .publishArrive 0 0 [] 1 0 ∈ twiceListed.pending := List.mem_singleton_self _
  have hown : (twiceListed.took (.publishArrive 0 0 [] 1 0)).ownerOf 0 = some 0 := rfl
  obtain ⟨t, -, ht, hends⟩ := hpublish twiceListed hpend trivial
  have hgone := hends 0 (by decide) (by decide) hown
  rw [ht] at hgone
  have howns : ((twiceListed.took (.publishArrive 0 0 [] 1 0)).takePublish 0 0 [] 1 0).ownerOf 0 = some 0 :=
    State.ownerOf_takePublish_cachesFull (d := lineOnce) rfl rfl rfl [] 1 0
  exact Option.some_ne_none 0 (howns.symm.trans hgone)

end Sys2Proof.Machine
end

section
/-! SUPPORT. What the events of engines (R131 to R133), merged reads (R217 to R219), meetings (R222 to R227) and permits (R452) do. -/

set_option Elab.async false

namespace Sys2Proof.Machine

/-! ## Engines -/

section
variable {s t u : State} {id : Nat} {c : Cmd}

/-- An engine command that may take ownership, once translated: its packets cross first, where it asks lines of other dies (R234); then
its message is taken. -/
theorem exec_engineTakeOwnership_translated (hp : .engineTakeOwnership id ∈ s.pending) (hc : s.cmds.find id = some c)
    (hq : c.st = .queued) (ho : s.canOwn id c = true) (ht : c.translated = true) :
    exec (.engineTakeOwnership id) s = .next
      ((s.roundTrip id c c.asksFor 0 false).getD ((s.took (.engineTakeOwnership id)).engineGo id c)) := by
  show execEngineTakeOwnership id s = _
  rw [execEngineTakeOwnership, hc]
  dsimp only
  rw [if_neg (by simp [hq, ho, hp]), if_pos ht]
  split
  · next h => rw [h]; rfl
  · next h => rw [h]; exact fire_of hp

/-- The granules of an engine command are translated. -/
theorem exec_engineTakeOwnership_translates {g : Tab (Nat × Nat)} (hp : .engineTakeOwnership id ∈ s.pending)
    (hc : s.cmds.find id = some c) (hq : c.st = .queued) (ho : s.canOwn id c = true) (ht : c.translated = false)
    (hx : s.xlateCmd c = (u, g, [])) :
    let v := u.modCmd id fun x => { x with gran := g }
    exec (.engineTakeOwnership id) s = .next (if v.pk.stall = true ∧ s.pk.stall = false then s else v) := by
  intro v
  show execEngineTakeOwnership id s = _
  rw [execEngineTakeOwnership, hc]
  dsimp only
  rw [if_neg (by simp [hq, ho, hp]), if_neg (by simp [ht]), memEvent_of rfl, State.unlessStalled_eq]
  simp only [hx, List.find?_nil]
  rfl

/-- The counter of an engine command and its completion, once its bytes are written (R133, R227). -/
def State.engineCounted (s : State) (id : Nat) (c : Cmd) : State :=
  if s.counterLocked c = true then s
  else (s.took (.engineFinish id)).finishCmd id c
    (if c.gotPois.isEmpty && !((c.linesOf c.body.dsts).any (s.dstLost c)) then .none else .deferred)

/-- An engine command that has still to write: its packets cross first (R234); then it writes, releases and counts. -/
theorem exec_engineFinish (hp : .engineFinish id ∈ s.pending) (hc : s.cmds.find id = some c) (hl : c.left ≠ 2) :
    exec (.engineFinish id) s = .next ((s.roundTrip id c (c.linesOf c.body.dsts) 3 true).getD
      (((s.engineEnd id c).modCmd id fun x => { x with left := 2 }).engineCounted id c)) := by
  show execEngineFinish id s = _
  rw [execEngineFinish, hc]
  dsimp only
  rw [event_of (List.contains_iff_mem.mpr hp), if_neg hl, if_neg hl]
  split
  · next h => rw [h]; rfl
  · next h => rw [h]; rfl

theorem State.engineEnd_tcSt {sh : List DWord} {org : DWord} {buf : Nat} (h : c.body = .tcSt sh org buf) : s.engineEnd id c =
    ((CmdBody.tcSt sh org buf).copies.foldl (fun (s' : State) (p : Nat × Nat × Nat) =>
      State.engineWrite c c.got c.gotPois (max c.pts (s.core c.core).pts) s' p.1 p.2.1 p.2.2) s).unlock id := by
  rw [State.engineEnd, h]

end

theorem arrives_engineFinish_gone (id : Nat) : Arrives (.engineFinish id) (.engineFinish id) (fun s => s.cmds.find id = none)
    (fun s t => t = s.unlock id) := by
  refine arrives_fire (f := fun _ s => s.unlock id) (fun s h => ?_) fun _ _ => rfl
  show execEngineFinish id s = _
  rw [execEngineFinish, h]

/-! ## Merged reads -/

/-- A request that finds no entry opens the slice's first, which stays open while another member is to join. -/
theorem arrives_mcastRequest (id line : Nat) (c : Cmd) (mem : DWord) (x : List DWord) (y : DWord) (z : Nat) :
    Arrives (.mcastRequest id (line / 128)) (.mcastRequest id line)
      (fun s => s.cmds.find id = some c ∧ s.canMcast id (line / 128) = true ∧ c.body = .tcMcast x y z mem ∧ s.merges = [] ∧
        ∃ m ∈ members mem, m ≠ c.core)
      (fun s t => t = { s with merges := t.merges } ∧ t.merges.find (mergeKey (s.homeDie line) (homeSlice line) 0) =
        some { part := c.part, line := line / 128, mem := mem, joined := [(c.core, id)], opened := s.now }) := by
  rintro s hp ⟨hc, hm, hb, hn, m, hmem, hne⟩
  have hopen : ¬ (members mem).all [c.core].contains = true := by
    rw [List.all_eq_true]
    intro h
    exact hne (by simpa using h m hmem)
  set m : Merge := { part := c.part, line := line / 128, mem := mem, joined := [(c.core, id)], opened := s.now }
  refine ⟨({ s.took (.mcastRequest id (line / 128)) with merges := Tab.put [] (mergeKey (s.homeDie line) (homeSlice line) 0) m } : State),
    ?_, rfl, Tab.find_put_self ..⟩
  show execMcastRequest id line s = _
  rw [execMcastRequest]
  dsimp only
  rw [if_neg (by simp [hm]), fire_of hp]
  simp only [State.took, hc, hb, hn, List.filter_nil, List.find?_nil, List.any_nil, List.length_nil, if_neg hopen]
  rfl

/-- The last line of a command lets it finish. -/
theorem arrives_mcastReplyArrive (id line : Nat) (c : Cmd) :
    Arrives (.mcastReplyArrive id (line / 128)) (.mcastReplyArrive id line) (fun s => s.cmds.find id = some c)
      (fun s t => t.cmds.find id = some { c with left := c.left - 1 } ∧ (c.left = 1 → Ev.engineFinish id ∈ t.pending) ∧
        t = { s with cmds := t.cmds, pending := t.pending }) := by
  rintro s hp hc
  have hf : ((s.took (.mcastReplyArrive id (line / 128))).modCmd id fun x => { x with left := x.left - 1 }).cmds.find id =
      some { c with left := c.left - 1 } := by
    refine (Tab.find_modify ..).trans ?_
    rw [if_pos rfl]
    exact congrArg (Option.map _) hc
  refine ⟨_, show execMcastReplyArrive id line s = _ from fire_of hp, ?_⟩
  dsimp only
  split
  · exact ⟨hf, fun _ => List.mem_append_right _ (List.mem_singleton_self _), rfl⟩
  · next h => exact ⟨hf, fun hl => absurd (by rw [hf]; simp [hl]) h, rfl⟩

theorem happens_mergeWindowExpiry (die slice n : Nat) (m : Merge) : Happens (.mergeWindowExpiry die slice n)
    (fun s => (s.merges.find (mergeKey die slice n) = some m ∧ die < 4 ∧ slice < 16) ∧ m.closed = false ∧ m.opened + 64 ≤ s.now ∧
      s.canClose m = true)
    (fun s t => t = s.closeMerge (mergeKey die slice n)) := by
  rintro s ⟨⟨hm, hd, hs⟩, hc, ho, hcan⟩
  refine ⟨_, ?_, rfl⟩
  show execMergeWindowExpiry die slice n s = _
  rw [execMergeWindowExpiry, hm]
  exact event_of (by simp [hd, hs, hc, ho, hcan])

theorem happens_mergeSetExpiry (die slice n : Nat) (m : Merge) : Happens (.mergeSetExpiry die slice n)
    (fun s => (s.merges.find (mergeKey die slice n) = some m ∧ die < 4 ∧ slice < 16) ∧ m.closed = true ∧ m.opened + 1024 ≤ s.now)
    (fun s t => t = { s with merges := s.merges.del (mergeKey die slice n) }) := by
  rintro s ⟨⟨hm, hd, hs⟩, hc, ho⟩
  refine ⟨_, ?_, rfl⟩
  show execMergeSetExpiry die slice n s = _
  rw [execMergeSetExpiry, hm]
  exact event_of (by simp [hd, hs, hc, ho])

/-! ## Meetings -/

/-- Whether a fragment stands in its router's store. -/
def FragPlace.inStore : FragPlace → Bool
  | .store _ => true
  | _ => false

/-- The stored fragment of the key of `x`, which `x` meets. -/
def State.partner (s : State) (x : Frag) : Option (Nat × Frag) :=
  s.frags.find? fun p => p.2.owner == x.owner && p.2.tag == x.tag && p.2.f == x.f && p.2.place.inStore

/-- What a router does with fragment `x` of command `id`, its key not retired: `x` meets its partner or takes an entry, and is accepted;
else it is deflected (R222, R223, R225). -/
def State.routeFrag (s : State) (id k : Nat) (x : Frag) : State :=
  match s.partner x with
  | some (j, y) => (s.meet j y k x).accept id
  | none =>
    match (if Tab.getD s.presence 0 x.countKey = 0 then s.takeStore x else none) with
    | some b => (s.setFrag k { x with place := .store b, since := s.now }).accept id
    | none =>
      { s with presence := s.presence.setD 0 x.countKey (Tab.getD s.presence 0 x.countKey + 1) }.deflect k { x with deflected := true }

section
variable {s : State} {x : Frag}

theorem State.routeFrag_meets {j : Nat} {y : Frag} (id k : Nat) (h : s.partner x = some (j, y)) :
    s.routeFrag id k x = (s.meet j y k x).accept id := by
  rw [State.routeFrag, h]

theorem State.routeFrag_waits {b : Bool} (id k : Nat) (h : s.partner x = none) (h0 : Tab.getD s.presence 0 x.countKey = 0)
    (hb : s.takeStore x = some b) :
    s.routeFrag id k x = (s.setFrag k { x with place := .store b, since := s.now }).accept id := by
  rw [State.routeFrag, h]
  dsimp only
  rw [if_pos h0, hb]

/-- A fragment reaches a router that takes fragments, its key not retired. -/
theorem exec_fragmentArrive {id f k : Nat} (hp : .fragmentArrive id f ∈ s.pending)
    (hx : s.sentFrag id f = some (k, x)) (hs : s.meetShut x.die x.router = false)
    (hr : (s.part x.owner).retired.contains (x.tag, x.f) = false) :
    exec (.fragmentArrive id f) s = .next
      (({ s.took (.fragmentArrive id f) with nseq := s.nseq + 1 } : State).routeFrag id k { x with ord := s.nseq }) := by
  show execFragmentArrive id f s = _
  have hx' : (s.took (.fragmentArrive id f)).sentFrag id f = some (k, x) := hx
  rw [execFragmentArrive, if_neg (by simp [hx, hs]), fire_of hp]
  refine congrArg Host.Outcome.next ?_
  dsimp only
  rw [hx']
  exact if_neg (Bool.eq_false_iff.mp hr)

end

theorem arrives_fragmentArrive_meets (id f k j : Nat) (x y : Frag) : Arrives (.fragmentArrive id f) (.fragmentArrive id f)
    (fun s => (s.sentFrag id f = some (k, x) ∧ s.meetShut x.die x.router = false ∧
      (s.part x.owner).retired.contains (x.tag, x.f) = false) ∧ s.partner x = some (j, y))
    (fun s t => t = (({ s with nseq := s.nseq + 1 } : State).meet j y k { x with ord := s.nseq }).accept id) :=
  fun _ hp ⟨⟨hx, hs, hr⟩, hy⟩ => ⟨_, exec_fragmentArrive hp hx hs hr, State.routeFrag_meets id k (by exact hy)⟩

theorem arrives_fragmentArrive_waits (id f k : Nat) (x : Frag) (b : Bool) : Arrives (.fragmentArrive id f) (.fragmentArrive id f)
    (fun s => (s.sentFrag id f = some (k, x) ∧ s.meetShut x.die x.router = false ∧
      (s.part x.owner).retired.contains (x.tag, x.f) = false) ∧ s.partner x = none ∧ Tab.getD s.presence 0 x.countKey = 0 ∧
      s.takeStore x = some b)
    (fun s t => t = (({ s with nseq := s.nseq + 1 } : State).setFrag k { x with ord := s.nseq, place := .store b, since := s.now }).accept
      id) :=
  fun _ hp ⟨⟨hx, hs, hr⟩, hy, h0, hb⟩ =>
    ⟨_, exec_fragmentArrive hp hx hs hr, State.routeFrag_waits id k (by exact hy) (by exact h0) (by exact hb)⟩

theorem arrives_overflowFragmentArrive (k : Nat) (x : Frag) : Arrives (.overflowFragmentArrive k) (.overflowFragmentArrive k)
    (fun s => s.frags.find k = some x ∧ (s.part x.owner).retired.contains (x.tag, x.f) = false ∧ ∀ p ∈ s.frags, p.2.place ≠ .overflow)
    (fun s t => t = (({ s with nseq := s.nseq + 1 } : State).setFrag k { x with place := .overflow, since := s.now, ord := s.nseq }).accept
      x.cmd) := by
  rintro s hp ⟨hx, hr, ho⟩
  have hnone : (s.frags.filter fun p => p.2.owner == x.owner && p.2.tag == x.tag && p.2.f == x.f && p.2.place == .overflow) = [] :=
    List.filter_eq_nil_iff.mpr fun p h => by simp [ho p h]
  refine ⟨_, ?_, rfl⟩
  show execOverflowFragmentArrive k s = _
  rw [execOverflowFragmentArrive, fire_of hp]
  refine congrArg Host.Outcome.next ?_
  dsimp only [State.took]
  rw [hx]
  refine (if_neg (Bool.eq_false_iff.mp hr)).trans ?_
  rw [hnone]
  rfl

/-- A combined fragment that is not its meeting's last is written without a refusal: its tally goes on. -/
theorem exec_fragmentCombineDone {s u : State} {k ts : Nat} {x : Frag} {tl : Tally} (hp : .fragmentCombineDone k ∈ s.pending)
    (hx : s.frags.find k = some x) (hc : s.canDeliver x = true) (hpl : x.place = .combined)
    (hw : (s.took (.fragmentCombineDone k)).writeFrag x = (u, false, ts)) (ht : (u.part x.owner).tags.find x.tag = none) :
    let v : State := { u with frags := u.frags.del k }
    v.tallies.find (v.tallyRoot x.cmd) = some tl → tl.need ≠ x.cnt → x.cnt ≤ tl.need →
    let tn : Tally := { tl with need := tl.need - x.cnt, pts := max tl.pts ts }
    exec (.fragmentCombineDone k) s = .next { v with tallies := v.tallies.put (v.tallyRoot x.cmd) tn } := by
  intro v hroot hne hle tn
  have htag : ((Tab.find (v.part x.owner).tags x.tag).map (·.freed)).getD false = false := by
    rw [show Tab.find (v.part x.owner).tags x.tag = none from ht]
    rfl
  have hcause : (if tl.cause = .none then .none else tl.cause) = tl.cause := by
    split
    · next h => exact h.symm
    · rfl
  show execFragmentCombineDone k s = _
  rw [execFragmentCombineDone, hx]
  dsimp only
  rw [if_neg (by simp [hc]), fire_of hp, hw]
  dsimp only
  rw [show ({ u with frags := u.frags.del k } : State) = v from rfl, htag]
  simp only [Bool.false_and, Bool.false_eq_true, if_false, hroot, hpl, reduceCtorEq, decide_false, Bool.or_false, decide_eq_true_eq, hcause]
  exact congrArg Host.Outcome.next (if_neg (by omega))

theorem happens_orphanTimeout (k : Nat) (x : Frag) : Happens (.orphanTimeout k)
    (fun s => s.frags.find k = some x ∧ (x.place = .overflow ∨ ∃ b, x.place = .store b) ∧ x.since + x.oto ≤ s.now)
    (fun s t => t = (s.makeOrphan k x .orphan).releaseHeld) := by
  rintro s ⟨hx, hpl, hn⟩
  refine ⟨_, ?_, rfl⟩
  show execOrphanTimeout k s = _
  rw [execOrphanTimeout, hx]
  refine event_of ?_
  obtain hpl | ⟨b, hpl⟩ := hpl <;> simp [hpl, hn]

/-! ## Permits -/

theorem happens_permitAudit (link chan : Nat) : Happens (.permitAudit link chan)
    (fun s => chan < 8 ∧ (s.permit link chan).held + (s.permit link chan).buf.length ≠ permitTotal chan)
    (fun s t => t = (s.setPermit link chan { s.permit link chan with held := permitTotal chan - (s.permit link chan).buf.length }).mgrRec
      [recHead .permit 10 15 0 0 0 0 0, 0, linkName link, s.time]) := by
  rintro s ⟨hc, hn⟩
  refine ⟨_, ?_, rfl⟩
  show execPermitAudit link chan s = _
  rw [execPermitAudit]
  exact event_of (by simp [hc, hn])

/-- Settles O56: each event by its message or its condition and what it then does. -/
theorem fabricEvents : Obligations.FabricEvents := by
  unfold Obligations.FabricEvents
  refine ⟨fun id c => ⟨?_, ?_, ?_, ?_, ?_, arrives_engineFinish_gone id,
      fun line mem x y z => ⟨arrives_mcastRequest id line c mem x y z, arrives_mcastReplyArrive id line c⟩⟩,
    fun die slice n m => ⟨happens_mergeWindowExpiry die slice n m, happens_mergeSetExpiry die slice n m⟩,
    fun id f k x => ⟨fun j y => arrives_fragmentArrive_meets id f k j x y, fun b => arrives_fragmentArrive_waits id f k x b,
      arrives_overflowFragmentArrive k x, fun tl ts s u => exec_fragmentCombineDone, happens_orphanTimeout k x⟩,
    happens_permitAudit⟩
  · exact fun s hp ⟨hc, hq, ho, ht, hr⟩ => ⟨_, by rw [exec_engineTakeOwnership_translated hp hc hq ho ht, hr]; rfl, rfl⟩
  · intro s t hp hc hq ho ht hr
    rw [exec_engineTakeOwnership_translated hp hc hq ho ht, hr]
    rfl
  · exact fun s u g => exec_engineTakeOwnership_translates
  · intro s t hp hc hl hr
    rw [exec_engineFinish hp hc hl, hr]
    rfl
  · intro s hp hc hl hr u
    have hex : exec (.engineFinish id) s = .next (u.engineCounted id c) := by
      rw [exec_engineFinish hp hc hl, hr]
      rfl
    exact ⟨fun h => hex.trans (congrArg _ (if_pos h)), fun h => hex.trans (congrArg _ (if_neg (by simp [h]))),
      fun sh org buf => State.engineEnd_tcSt⟩

end Sys2Proof.Machine
end

section
/-! SUPPORT. What first touches, page pools, probes and invalidations do (R141 to R147, R385 to R388, R415, R430). -/

set_option Elab.async false

namespace Sys2Proof.Machine

variable {s : State} {c : Ctx}

/-! ## Parks (R147, R415, R430) -/

/-- A page request is listed under the identifier that its posting answers. -/
theorem State.find_pageReq (s : State) (vf part va kind pool lvl : Nat) (w : Waiter) :
    (s.pageReq vf part va kind pool lvl w).2.preqs.find (s.pageReq vf part va kind pool lvl w).1 =
      some ⟨vf, part, va, kind, pool, lvl, s.time, w, false⟩ := Tab.find_put_self ..

/-- The lane group of the context, changed in a machine in which it stands as before. -/
theorem State.find_up (h : s.ctx? = some c) {u : State} (hu : u.lgs = s.lgs) (f : Lg → Lg) : (u.up c f).lgs.find c.g = some (f c.lg) := by
  obtain ⟨hg, hl, -, -⟩ := State.ctx?_spec h
  exact State.find_modLg_self f (by rw [hu, hg, hl])

/-- A first touch that no handler takes: the page request and the park (R143, R415). -/
theorem State.takeTrap_firstTouch {x : Trap} (kind : Nat) (hx : x.cause = .xlatFt) (hh : c.la.svh = 0 ∨ c.lg.sup = true) :
    s.takeTrap c x kind =
      ({ s with pk := { s.pk with fate := .trapped x.rank x.slot (x.replaying || x.commits) } } : State).parkFirstTouch c x kind := by
  rw [State.takeTrap, if_neg (by simp [hx]), if_neg (by simp [hx]), if_pos (by simpa using hh), if_pos hx]

/-- A second-stage fault: the park (R430). -/
theorem State.takeTrap_secondStage {x : Trap} (kind : Nat) (hx : x.cause = .xlatS2) :
    s.takeTrap c x kind =
      ({ s with pk := { s.pk with fate := .trapped x.rank x.slot (x.replaying || x.commits) } } : State).parkSecondStage c x := by
  rw [State.takeTrap, if_pos hx]

/-- The page request of a first touch, and the lane group parked on it. -/
theorem State.parkFirstTouch_eff (h : s.ctx? = some c) {u : State} (hu : u.lgs = s.lgs) (x : Trap) (kind : Nat) :
    ∃ l' rq y, (u.parkFirstTouch c x kind).lgs.find c.g = some l' ∧ l'.status = .parkedPage rq ∧ l'.pc = x.fpc ∧
      (u.parkFirstTouch c x kind).preqs.find rq = some y ∧ y.vf = c.vf ∧ y.part = c.part ∧ y.kind = kind ∧ y.by_ = .lg c.g ∧
      (∀ p, x.pend = some p → y.pool = p.pool ∧ y.lvl = p.lvl ∧ y.va = p.va) := by
  unfold State.parkFirstTouch
  extract_lets p
  have hreq := State.find_pageReq u c.vf c.part p.va kind p.pool p.lvl (.lg c.g)
  have hlgs : (u.pageReq c.vf c.part p.va kind p.pool p.lvl (.lg c.g)).2.lgs = s.lgs := hu
  generalize u.pageReq c.vf c.part p.va kind p.pool p.lvl (.lg c.g) = r at hreq hlgs ⊢
  obtain ⟨rq, v⟩ := r
  refine ⟨_, rq, _, State.find_up h hlgs _, rfl, rfl, hreq, rfl, rfl, rfl, rfl, fun q hq => ?_⟩
  have hp : p = q := by simp only [p, hq, Option.getD_some]
  exact ⟨congrArg Pending.pool hp, congrArg Pending.lvl hp, congrArg Pending.va hp⟩

/-- The lane group parked on a second-stage fault, its trap registers as they were, and listed among the waiters. -/
theorem State.parkSecondStage_eff (h : s.ctx? = some c) {u : State} (hu : u.lgs = s.lgs) (x : Trap) :
    ∃ l', (u.parkSecondStage c x).lgs.find c.g = some l' ∧ l'.status = .parkedS2 x.ipa ∧ l'.pc = x.fpc ∧ l'.tcause = c.lg.tcause ∧
      l'.fpc = c.lg.fpc ∧ l'.tva = c.lg.tva ∧ l'.resume = c.lg.resume ∧
      (c.part, x.ipa / 65536, Waiter.lg c.g) ∈ (u.parkSecondStage c x).s2w := by
  unfold State.parkSecondStage
  extract_lets v w
  have hlgs : w.lgs = s.lgs := ((State.s2Rec_under ..).1.lgs).trans hu
  have hmem : (c.part, x.ipa / 65536, Waiter.lg c.g) ∈ w.s2w := List.mem_append_right _ (List.mem_singleton_self _)
  exact ⟨_, State.find_up h hlgs _, rfl, rfl, rfl, rfl, rfl, rfl, hmem⟩

/-- Settles O37: a first touch by the page request that it posts, a second-stage fault by the waiter that it leaves; its record changes no
lane group. -/
theorem pageFaultParks : Obligations.PageFaultParks := by
  unfold Obligations.PageFaultParks
  intro s c x kind h
  refine ⟨fun hx hh => ?firstTouch, fun hx => ?secondStage⟩
  case firstTouch =>
    rw [State.takeTrap_firstTouch kind hx hh]
    refine State.parkFirstTouch_eff h ?_ x kind
    rfl
  case secondStage =>
    rw [State.takeTrap_secondStage kind hx]
    refine State.parkSecondStage_eff h ?_ x
    rfl

/-! ## Words of the handler (R385) -/

/-- A word that may reach memory, from the machine that it makes. -/
theorem memWord_of {i : Instr} {t : State} {f : Ctx → State → State} (h : s.ctx? = some c) (hw : wellFormed i = true) (hf : f c s = t)
    (hu : Unowned s t) : memWord i s f = .next t := by
  subst hf
  exact memWord_next f h hw fun ht => hu ▸ ht

/-- A word whose check of a condition fails raises `illegal` in its active lanes. -/
theorem State.checked_illegalIf {b : Bool} (h : b = true) (k : State → State) :
    Raises .illegal 6 Ctx.em c s (s.checked c (c.illegalIf b) k) := by
  rw [Ctx.illegalIf_of h]
  rfl

theorem State.checked_legal {b : Bool} (h : b = false) (k : State → State) : s.checked c (c.illegalIf b) k = k s := by
  rw [Ctx.illegalIf_nil h, State.checked_nil]

/-- A word whose check of a condition comes first is illegal where the condition holds. -/
theorem runs_illegal {i : Instr} {ok : Ctx → State → Prop} {bad : Ctx → State → Bool} {k : Ctx → State → State}
    (hi : ∀ s, exec i s = word i s fun c s => s.checked c (c.illegalIf (bad c s)) (k c)) (hb : ∀ c s, ok c s → bad c s = true) :
    Runs i ok (Raises .illegal 6 Ctx.em) := by
  intro s c h hw ho
  rw [hi, word_next _ h hw]
  exact ⟨_, rfl, State.checked_illegalIf (hb c s ho) _⟩

theorem runs_park : Runs .park (fun c _ => c.lg.sup = true ∧ c.lg.pend.isSome = true ∧ c.lg.hnd = false)
    (fun c s t => ∃ rq l' y, t.lgs.find c.g = some l' ∧ l' = { c.lg with status := .parkedPage rq, parkAt := s.now } ∧
      t.preqs.find rq = some y ∧ y.va = c.lg.tva.toNat ∧ y.by_ = .lg c.g ∧ t = { s with lgs := t.lgs, preqs := t.preqs }) := by
  rintro s c h hw ⟨hs, hp, hh⟩
  obtain ⟨p, hp⟩ := Option.isSome_iff_exists.mp hp
  have hlegal : (!c.lg.sup || c.lg.pend.isNone || c.handler) = false := by simp [hs, hp, hh, Ctx.handler]
  set r := s.pageReq c.vf c.part c.lg.tva.toNat c.lg.pendKind p.pool p.lvl (.lg c.g)
  refine ⟨r.2.up c fun l => { l with status := .parkedPage r.1, parkAt := s.now }, ?_, r.1, _, _, State.find_up h rfl _, rfl,
    State.find_pageReq .., rfl, rfl, rfl⟩
  show execPark s = _
  rw [execPark, word_next _ h hw, State.checked_legal hlegal, hp]
  rfl

theorem runs_park_illegal :
    Runs .park (fun c _ => c.lg.sup = false ∨ c.lg.pend = none ∨ c.lg.hnd = true) (Raises .illegal 6 Ctx.em) := by
  refine runs_illegal (bad := fun c _ => !c.lg.sup || c.lg.pend.isNone || c.handler) (fun _ => rfl) fun c s ho => ?_
  obtain hs | hp | hh := ho
  · simp [hs]
  · simp [hp]
  · simp [hh, Ctx.handler]

/-! ## Page pools (R144, R385, R386) -/

theorem runs_poolPop_illegal (d : BitVec 6) :
    Runs (.poolPop d) (fun c _ => c.lg.sup = false ∨ c.lg.pend = none) (Raises .illegal 6 Ctx.em) := by
  intro s c h hw ho
  have hbad : (!c.lg.sup || c.lg.pend.isNone) = true := by
    obtain hs | hp := ho
    · simp [hs]
    · simp [hp]
  show ∃ t, execPoolPop d s = _ ∧ _
  rw [execPoolPop]
  refine ⟨_, memWord_next _ h hw ?_, State.checked_illegalIf hbad _⟩
  dsimp only
  rw [State.checked_illegalIf hbad]
  exact State.takeTrap_stall

/-- `pool.pop` changes no lane group but by its answer. -/
theorem State.popFrame_lgs (s : State) (c : Ctx) (p : Pending) : (s.popFrame c p).1.lgs = s.lgs := by
  have hr : (s.devRead p.entry 8).1.lgs = s.lgs := (State.devRead_under s p.entry 8).1.lgs
  unfold State.popFrame
  dsimp only
  split
  · exact hr
  · split
    · exact hr
    · split
      · exact hr
      · split
        · exact hr
        · split
          · exact hr
          · exact ((State.devWrite_under ..).1.lgs).trans hr

theorem runs_poolPop (d : BitVec 6) (p : Pending) :
    Runs (.poolPop d) (fun c s => c.lg.sup = true ∧ c.lg.pend = some p ∧ Unowned s (s.popFrame c p).1)
      (fun c s t => ∃ l', t.lgs.find c.g = some l' ∧
        LaneWrite c.em 0 d.toNat (fun _ => BitVec.ofNat 32 (s.popFrame c p).2) c.lg l' ∧ t = { (s.popFrame c p).1 with lgs := t.lgs }) := by
  rintro s c h hw ⟨hs, hp, hu⟩
  have hlegal : (!c.lg.sup || c.lg.pend.isNone) = false := by simp [hs, hp]
  refine ⟨(s.popFrame c p).1.up c fun l => l.wrRes c.em 0 d.toNat fun _ => BitVec.ofNat 32 (s.popFrame c p).2, ?_, _,
    State.find_up h (State.popFrame_lgs s c p) _, Lg.wrRes_laneWrite c.lg c.em 0 d.toNat _ (by simp), rfl⟩
  show execPoolPop d s = _
  rw [execPoolPop]
  refine memWord_of h hw ?_ hu
  rw [State.checked_legal hlegal, hp]
  rfl

/-- Whether `pool.give` refuses its word: a size, a reserved field, an address or a pool's size that does not fit (R386). -/
def giveBad (w : DWord) (old : Option Pool) : Bool :=
  bits w 4 2 == 3 || bits w 48 16 != 0 || bits w 16 32 * 65536 % 2 ^ frameBits (bits w 4 2) != 0 ||
    (!bit w 6 && (old.map fun q => q.size != bits w 4 2).getD false)

/-- What `pool.give` accepts, in the terms of R386. -/
def GiveOk (w : DWord) (old : Option Pool) : Prop :=
  bits w 4 2 ≠ 3 ∧ bits w 48 16 = 0 ∧ bits w 16 32 * 65536 % 2 ^ frameBits (bits w 4 2) = 0 ∧
    (w.getLsbD 6 = true ∨ ∀ q, old = some q → q.size = bits w 4 2)

theorem giveBad_eq_false {w : DWord} {old : Option Pool} : giveBad w old = false ↔ GiveOk w old := by
  cases hb : w.getLsbD 6 <;> cases old <;> simp only [giveBad, GiveOk, bit, hb] <;> simp [and_assoc]

/-- The frames that a pool holds before `pool.give`: none where the word resets it. -/
def heldFrames (w : DWord) (old : Option Pool) : List Nat := if bit w 6 then [] else (old.map (·.frames)).getD []

/-- The number of frames that `pool.give` adds: a pool holds 4096. -/
def framesAdded (w : DWord) (old : Option Pool) : Nat := min (bits w 7 9 + 1) (4096 - (heldFrames w old).length)

/-- The pool after `pool.give`. -/
def givenPool (w : DWord) (old : Option Pool) : Pool :=
  ⟨bits w 4 2, (List.range (framesAdded w old)).foldl (fun fs i => (bits w 16 32 * 65536 + i * 2 ^ frameBits (bits w 4 2)) :: fs)
    (heldFrames w old)⟩

theorem mem_givenPool (w : DWord) (old : Option Pool) (f : Nat) : f ∈ (givenPool w old).frames ↔
    f ∈ heldFrames w old ∨ ∃ i, i < framesAdded w old ∧ f = bits w 16 32 * 65536 + i * 2 ^ frameBits (bits w 4 2) := by
  rw [givenPool, List.foldl_flip_cons_eq_append]
  simp [or_comm, eq_comm]

theorem length_givenPool (w : DWord) (old : Option Pool) :
    (givenPool w old).frames.length = framesAdded w old + (heldFrames w old).length := by
  rw [givenPool, List.foldl_flip_cons_eq_append]
  simp

/-- `pool.give` by its check, the pool that it leaves and its answer. -/
theorem exec_poolGive (d : BitVec 6) (n : BitVec 5) (s : State) : exec (.poolGive d n) s = word (.poolGive d n) s fun c s =>
    s.checked c (c.illegalIf (giveBad (c.kr n.toNat) (Tab.find (s.part c.part).pools (bits (c.kr n.toNat) 0 4)))) fun s =>
      let old := Tab.find (s.part c.part).pools (bits (c.kr n.toNat) 0 4)
      (s.modPart c.part fun t => { t with pools := t.pools.put (bits (c.kr n.toNat) 0 4) (givenPool (c.kr n.toNat) old) }).up c fun l =>
        l.wrV c.em d.toNat fun _ => BitVec.ofNat 32 (framesAdded (c.kr n.toNat) old) := by
  show execPoolGive d n s = _
  refine congrArg (word _ s) (funext fun c => funext fun s => ?_)
  rfl

theorem runs_poolGive (d : BitVec 6) (n : BitVec 5) :
    Runs (.poolGive d n) (fun c s => GiveOk (c.kr n.toNat) (Tab.find (s.part c.part).pools (bits (c.kr n.toNat) 0 4)))
      (fun c s t =>
        let old := Tab.find (s.part c.part).pools (bits (c.kr n.toNat) 0 4)
        ∃ l', Tab.find (t.part c.part).pools (bits (c.kr n.toNat) 0 4) = some (givenPool (c.kr n.toNat) old) ∧
          t.lgs.find c.g = some l' ∧ LaneWrite c.em 0 d.toNat (fun _ => BitVec.ofNat 32 (framesAdded (c.kr n.toNat) old)) c.lg l' ∧
          t = { s with lgs := t.lgs, parts := t.parts }) := by
  intro s c h hw hok
  rw [exec_poolGive, word_next _ h hw, State.checked_legal (giveBad_eq_false.mpr hok)]
  refine ⟨_, rfl, _, ?_, State.find_up h rfl _, Lg.wrRes_laneWrite c.lg c.em 0 d.toNat _ (by simp), rfl⟩
  dsimp only
  rw [State.part_up, State.part_modPart, if_pos rfl]
  exact Tab.find_put_self ..

theorem runs_poolGive_illegal (d : BitVec 6) (n : BitVec 5) :
    Runs (.poolGive d n) (fun c s => ¬ GiveOk (c.kr n.toNat) (Tab.find (s.part c.part).pools (bits (c.kr n.toNat) 0 4)))
      (Raises .illegal 6 Ctx.em) := by
  refine runs_illegal (exec_poolGive d n) fun c s ho => ?_
  rwa [← giveBad_eq_false, Bool.not_eq_false] at ho

/-! ## Probes (R387) -/

theorem runs_xlatProbe (d : BitVec 6) (a : BitVec 8) (n : BitVec 5) : Runs (.xlatProbe d a n)
    (fun c s => c.SrcOk a ∧ Unowned s (s.probeLanes c (c.kr n.toNat) a c.lanes).1) (fun c s t => ∃ l',
      let r := s.probeLanes c (c.kr n.toNat) a c.lanes
      PairWrite c.em d.toNat (fun j => Tab.getD r.2 0 j) ((r.1.lgs.find c.g).getD c.lg) l' ∧ t = r.1.modLg c.g fun _ => l') := by
  rintro s c h hw ⟨ha, hu⟩
  refine ⟨(s.probeLanes c (c.kr n.toNat) a c.lanes).1.up c fun l => l.wrPair c.em d.toNat fun j =>
    Tab.getD (s.probeLanes c (c.kr n.toNat) a c.lanes).2 0 j, ?_, _, Lg.wrPair_pairWrite .., ?_⟩
  · show execXlatProbe d a n s = _
    rw [execXlatProbe]
    refine memWord_of h hw ?_ hu
    rw [Ctx.srcF_nil ha, State.checked_nil]
  · generalize s.probeLanes c (c.kr n.toNat) a c.lanes = r
    cases hl : r.1.lgs.find c.g with
    | none => simp only [State.up, State.modLg, Tab.modify_of_none _ hl]
    | some l => simp only [State.up, State.modLg, Tab.modify_of_find _ hl, Option.getD_some]

/-! ## Invalidations (R141, R142, R388) -/

/-- Every entry of a core's L1 TLB has passed the invalidation. -/
theorem State.dropTlb_core (s : State) (f : TlbEnt → Bool) (k : Nat) : ∀ e ∈ ((s.dropTlb f).1.core k).tlb, f e = false := by
  intro e he
  unfold State.core State.dropTlb at he
  dsimp only at he
  rcases hk : Tab.find ((s.cores.map fun p => (p.1, { p.2 with tlb := p.2.tlb.filter fun e => !f e })).filter fun p => p.2 ≠ {}) k with
    _ | x
  · rw [Tab.getD, hk] at he
    cases he
  · rw [Tab.getD_of_find hk] at he
    obtain ⟨p, -, hp⟩ := List.mem_map.mp (List.mem_filter.mp (Tab.mem_of_find hk)).1
    obtain ⟨-, rfl⟩ := Prod.mk.inj hp
    simpa using (List.mem_filter.mp he).2

/-- Every entry of a die TLB has passed the invalidation. -/
theorem State.dropTlb_dtlb (s : State) (f : TlbEnt → Bool) : ∀ p ∈ (s.dropTlb f).1.dtlb, ∀ e ∈ p.2, f e = false := by
  intro p hp e he
  obtain ⟨q, -, rfl⟩ := List.mem_map.mp (List.mem_filter.mp hp).1
  simpa using (List.mem_filter.mp he).2

/-- Whether `tlb.inv` refuses its range (R388). -/
def granulesBad (k : Nat) (i : BitVec 8) : Bool := i ≠ 0 && (k % 65536 != 0 || decide (2 ^ 57 ≤ k))

theorem granulesBad_eq_false {k : Nat} {i : BitVec 8} (h : i ≠ 0 → k % 65536 = 0 ∧ k < 2 ^ 57) : granulesBad k i = false := by
  by_cases hi : i = 0
  · simp [granulesBad, hi]
  · obtain ⟨ha, hl⟩ := h hi
    rw [granulesBad, ha, decide_eq_false (not_le.mpr hl), bne_self_eq_false, Bool.or_self, Bool.and_false]

/-- `tlb.inv` that has removed its translations already: whether what was translated under them is performed. -/
theorem exec_tlbInv_begun {n : BitVec 5} {i : BitVec 8} {v : Inv} (h : s.ctx? = some c) (hw : wellFormed (.tlbInv n i) = true)
    (hk : granulesBad (c.kr n.toNat).toNat i = false) (hv : s.invs.find c.g = some v) :
    exec (.tlbInv n i) s = .next (if s.invDone v then { s with invs := s.invs.del c.g } else s.holdBack c) := by
  show execTlbInv n i s = _
  rw [execTlbInv, word_next _ h hw]
  refine (congrArg Host.Outcome.next (State.checked_legal hk _)).trans ?_
  rw [hv]

/-- `tlb.inv` that removes its translations now. -/
theorem exec_tlbInv_first {n : BitVec 5} {i : BitVec 8} (h : s.ctx? = some c) (hw : wellFormed (.tlbInv n i) = true)
    (hk : granulesBad (c.kr n.toNat).toNat i = false) (hn : s.invs.find c.g = none) :
    let k := (c.kr n.toNat).toNat
    let r := s.dropTlb fun e => e.part == c.part && e.vf == c.vf && (i == 0 || decide (e.va < k + i.toNat * 65536 ∧ k < e.va + 2 ^ e.bits))
    let at_ := fun (p f va : Nat) => p == c.part && f == c.vf && (i == 0 || decide (k ≤ va ∧ va < k + i.toNat * 65536))
    let v := r.1.under r.2 at_
    let u := r.1.rewatch r.2 at_
    exec (.tlbInv n i) s = .next (if u.invDone v then u else ({ u with invs := u.invs.put c.g v } : State).holdBack c) := by
  show execTlbInv n i s = _
  rw [execTlbInv, word_next _ h hw]
  refine (congrArg Host.Outcome.next (State.checked_legal hk _)).trans ?_
  rw [hn]

theorem runs_tlbInv_illegal (n : BitVec 5) (i : BitVec 8) :
    Runs (.tlbInv n i) (fun c _ => i ≠ 0 ∧ ((c.kr n.toNat).toNat % 65536 ≠ 0 ∨ 2 ^ 57 ≤ (c.kr n.toNat).toNat))
      (Raises .illegal 6 Ctx.em) := by
  refine runs_illegal (bad := fun c _ => granulesBad (c.kr n.toNat).toNat i) (fun _ => rfl) fun c s ho => ?_
  simpa [granulesBad] using ho

/-- Settles O39: each word by its check and by what it then does; an invalidation by whether it has begun and whether what it awaits is
performed. -/
theorem pageWords : Obligations.PageWords := by
  unfold Obligations.PageWords
  refine ⟨runs_park, runs_park_illegal, runs_poolPop_illegal, runs_poolPop, fun d n => ⟨?give, runs_poolGive_illegal d n⟩, runs_xlatProbe,
    ?inv, runs_tlbInv_illegal, fun s f => ⟨State.dropTlb_core s f, ?die⟩⟩
  case give =>
    intro s c h hw hok
    obtain ⟨t, ht, l', hpool, hl, hans, hframe⟩ := runs_poolGive d n s c h hw hok
    exact ⟨t, ht, _, l', _, hpool, rfl, ⟨rfl, length_givenPool .., mem_givenPool _ _⟩, hl, hans, hframe⟩
  case inv =>
    intro n i s c h hw hk
    have hk := granulesBad_eq_false hk
    refine ⟨fun hn hd => ?_, fun hn hd => ?_, fun v hv => exec_tlbInv_begun h hw hk hv⟩
    · exact (exec_tlbInv_first h hw hk hn).trans (congrArg _ (if_pos hd))
    · exact (exec_tlbInv_first h hw hk hn).trans (congrArg _ (if_neg (by rw [hd]; exact Bool.false_ne_true)))
  case die =>
    intro d e he
    cases hf : Tab.find (s.dropTlb f).1.dtlb d with
    | none => rw [Tab.getD, hf] at he; cases he
    | some es =>
      rw [Tab.getD_of_find hf] at he
      exact State.dropTlb_dtlb s f _ (Tab.mem_of_find hf) e he

end Sys2Proof.Machine
end

section
/-! SUPPORT. What the events of translation do: walks, invalidations and their synchronisations (R140 to R142), page requests (R147),
second-stage answers (R431). -/

set_option Elab.async false

namespace Sys2Proof.Machine

/-! ## Invalidations -/

/-- A lane group after an invalidation: a `waitm` that waits under a removed translation translates its address again (R142). -/
def Lg.rewatched (s : State) (es : List TlbEnt) (f : Nat → Nat → Nat → Bool) (l : Lg) : Lg :=
  match l.status with
  | .blocked (.waitm va (some _) t i j k) false =>
    (match (s.wgs.find l.wg).bind fun w => s.launches.find w.launch with
     | some la => if covered es f la.part la.vf va then { l with status := .blocked (.waitm va none t i j k) false } else l
     | none => l)
  | _ => l

theorem State.find_rewatch (s : State) (es : List TlbEnt) (f : Nat → Nat → Nat → Bool) (g : Nat) :
    (s.rewatch es f).lgs.find g = (s.lgs.find g).map (Lg.rewatched s es f)  :=
  Tab.find_map (Lg.rewatched s es f) (g := fun p => (p.1, Lg.rewatched s es f p.2)) (fun _ => rfl) g s.lgs

/-- Only the status changes. -/
theorem Lg.rewatched_rest (s : State) (es : List TlbEnt) (f : Nat → Nat → Nat → Bool) (l : Lg) :
    l.rewatched s es f = { l with status := (l.rewatched s es f).status } := by
  unfold Lg.rewatched
  split
  · split
    · split <;> rfl
    · rfl
  · rfl

/-- A lane group that waits on no translated address stands. -/
theorem Lg.rewatched_of (s : State) (es : List TlbEnt) (f : Nat → Nat → Nat → Bool) {l : Lg}
    (h : ∀ va pa x i j k, l.status ≠ .blocked (.waitm va (some pa) x i j k) false) : l.rewatched s es f = l := by
  unfold Lg.rewatched
  split
  · next hs => exact absurd hs (h _ _ _ _ _ _)
  · rfl

/-- What an invalidation of the results that meet `f` does (R141, R142). -/
def Invalidated (f : TlbEnt → Bool) (s t : State) : Prop :=
  (∀ c, ∀ e ∈ (t.core c).tlb, f e = false) ∧ (∀ p ∈ t.dtlb, ∀ e ∈ p.2, f e = false) ∧ t.mem = s.mem ∧ t.nseq = s.nseq + 1 ∧
    (∀ g l, s.lgs.find g = some l → ∃ l', t.lgs.find g = some l' ∧ l' = { l with status := l'.status } ∧
      ((∀ va pa x i j k, l.status ≠ .blocked (.waitm va (some pa) x i j k) false) → l' = l))

theorem State.invalidate_invalidated (s : State) (f : TlbEnt → Bool) (at_ : Nat → Nat → Nat → Bool) :
    Invalidated f s (s.invalidate f at_) := by
  refine ⟨State.dropTlb_core s f, State.dropTlb_dtlb s f, rfl, rfl, fun g l hl => ⟨l.rewatched (s.dropTlb f).1 (s.dropTlb f).2 at_, ?_,
    Lg.rewatched_rest .., Lg.rewatched_of _ _ _⟩⟩
  exact (State.find_rewatch ..).trans (congrArg (Option.map _) hl)

theorem happens_invalidate {i : Instr} (h : State → Out) {f : State → TlbEnt → Bool} {at_ : State → Nat → Nat → Nat → Bool}
    (hi : exec i = h) (hh : ∀ s, h s = event s.hostUp s fun s => s.invalidate (f s) (at_ s)) :
    Happens i (fun s => s.hostUp = true) fun s t => Invalidated (f s) s t :=
  happens_cond h (f := fun _ s => s.invalidate (f s) (at_ s)) hi hh (fun _ hu => hu) fun s _ => State.invalidate_invalidated s ..

/-! ## Walks and synchronisations -/

theorem performs_tlbWalkDone (core vf va : Nat) :
    Performs (.tlbWalkDone core vf va) (fun s => core < 192 ∧ va < 2 ^ 57 ∧ s.servesOn core vf = true)
      (fun s => (s.xlate core (s.vfPart vf) vf va 0).1) :=
  performs_memEvent (cond := fun s => decide (core < 192 ∧ va < 2 ^ 57) && s.servesOn core vf) (fun _ _ => rfl)
    (fun _ ⟨hc, hv, hs⟩ => by rw [decide_eq_true ⟨hc, hv⟩, hs, Bool.and_self]) fun _ _ => rfl

theorem happens_hostTlbSync (id : Nat) : Happens (.hostTlbSync id) (fun s => s.hostUp = true ∧ s.syncs.find id = none)
    (fun s t => t = { s with syncs := t.syncs } ∧ t.syncs.find id = some s.hostInvs) :=
  happens_cond (execHostTlbSync id) rfl (fun _ => rfl) (fun _ ⟨hu, hs⟩ => by simp [hu, hs]) fun _ _ => ⟨rfl, Tab.find_put_self ..⟩

/-- A synchronisation is answered once what it waits for is done. -/
theorem State.canAnswer_of {s : State} {id : Nat} {is : List Nat} (hs : s.syncs.find id = some is)
    (hd : ∀ i ∈ is, ∀ v, s.invs.find i = some v → s.invDone v = true) : s.canAnswer id = true := by
  rw [State.canAnswer, hs]
  refine List.all_eq_true.mpr fun i hi => ?_
  cases hv : s.invs.find i with
  | none => rfl
  | some v => exact hd i hi v hv

theorem happens_tlbSyncAnswer (id : Nat) (is : List Nat) : Happens (.tlbSyncAnswer id)
    (fun s => s.syncs.find id = some is ∧ ∀ i ∈ is, ∀ v, s.invs.find i = some v → s.invDone v = true)
    (fun s t => t = { s with syncs := t.syncs, invs := t.invs } ∧ t.syncs.find id = none ∧ ∀ p ∈ t.invs, p.1 ∉ is) := by
  refine happens_cond (execTlbSyncAnswer id) rfl (fun _ => rfl) (fun _ ⟨hs, hd⟩ => State.canAnswer_of hs hd) fun s ⟨hs, _⟩ => ?_
  refine ⟨rfl, (Tab.find_del ..).trans (if_pos rfl), fun p hp => ?_⟩
  simpa [hs] using (List.mem_filter.mp hp).2

/-! ## Page requests -/

theorem exec_pageRequestWrite {s s1 : State} {rq pa kid : Nat} {p : PageReq} (hc : s.canRequest rq = true)
    (hp : s.preqs.find rq = some p) (hx : s.ipaAddr p.part p.vf
      (s.vrBits p.vf 0x10 12 36 * 4096 + 32 * (s.vrBits p.vf 0x18 0 32 % qSize (s.vrBits p.vf 0x10 0 4))) 2 = (s1, some (pa, kid))) :
    let u := ((s1.keyRange pa 32 kid).devWrite pa (recBytes (p.words rq))).2.setVrBits p.vf 0x18 0 32 (s.vrBits p.vf 0x18 0 32 + 1)
    let v : State := { u with preqs := u.preqs.modify rq fun q => { q with written := true } }
    exec (.pageRequestWrite rq) s = .next (if v.pk.stall = true ∧ s.pk.stall = false then s else v) := by
  intro u v
  show execPageRequestWrite rq s = _
  rw [execPageRequestWrite, memEvent_of hc, State.unlessStalled_eq]
  simp only [hp, hx]
  rfl

theorem happens_pageRequestDone (rq : Nat) (p : PageReq) (g : Nat) (l : Lg) (vf : Nat) (n : BitVec 32) : Happens (.pageRequestDone vf n)
    (fun s => s.hostUp = true ∧ s.preqs.find? (fun p => p.2.vf == vf && p.1 % 2 ^ 32 == n.toNat && p.2.written) = some (rq, p) ∧
      p.by_ = .lg g ∧ s.lgs.find g = some l ∧ l.status = .parkedPage rq ∧ s.absent l.wg = false)
    (fun s t => t.lgs.find g = some { l with status := .ready, parkAt := s.now, aged := false } ∧ t.preqs = s.preqs.del rq ∧
      t = { s with lgs := t.lgs, preqs := t.preqs }) := by
  refine happens_cond (execPageRequestDone vf n) rfl (fun _ => rfl) (fun _ h => h.1) fun s ⟨_, hp, hb, hl, hs, ha⟩ => ?_
  have hw : s.writePrd vf n = ({ s with preqs := s.preqs.del rq } : State).makeReady g := by
    rw [State.writePrd, hp]
    simp only [hb, State.resume, hl, hs, if_true]
  obtain ⟨hfind, hframe⟩ := State.makeReady_eff (s := { s with preqs := s.preqs.del rq }) hl ha
  rw [hw]
  exact ⟨hfind, congrArg State.preqs hframe, by rw [hframe]⟩

/-! ## Second-stage answers -/

/-- The one waiter on a granule is taken. -/
theorem State.takeS2_one {s : State} {part ipa : Nat} {w : Waiter} (h : s.s2w = [(part, ipa / 65536, w)]) :
    s.takeS2 part ipa = ([w], { s with s2w := [] }) := by
  simp [State.takeS2, h]

theorem happens_s2rResume (g : Nat) (l : Lg) (part ipa at_ : Nat) : Happens (.s2rResume part ipa)
    (fun s => (s.hostUp = true ∧ s.s2w = [(part, ipa / 65536, .lg g)] ∧ s.lgs.find g = some l ∧ l.status = .parkedS2 at_) ∧
      s.absent l.wg = false)
    (fun s t => t.lgs.find g = some { l with status := .ready, parkAt := s.now, aged := false } ∧ t.s2w = [] ∧
      t = { s with lgs := t.lgs, s2w := t.s2w }) := by
  refine happens_cond (execS2rResume part ipa) rfl (fun _ => rfl) (fun _ h => h.1.1) fun s ⟨⟨_, hw, hl, hs⟩, ha⟩ => ?_
  have hr : s.writeS2r part ipa false = ({ s with s2w := [] } : State).makeReady g := by
    rw [State.writeS2r, State.takeS2_one hw]
    simp [State.resume, hl, hs]
  obtain ⟨hfind, hframe⟩ := State.makeReady_eff (s := { s with s2w := [] }) hl ha
  rw [hr]
  exact ⟨hfind, congrArg State.s2w hframe, by rw [hframe]⟩

theorem happens_s2rAbort (g : Nat) (l : Lg) (part ipa at_ : Nat) : Happens (.s2rAbort part ipa)
    (fun s => s.hostUp = true ∧ s.s2w = [(part, ipa / 65536, .lg g)] ∧ s.lgs.find g = some l ∧ l.status = .parkedS2 at_)
    (fun s t => t = ({ s with s2w := [] } : State).stopLg g .xlatS2) := by
  refine happens_cond (execS2rAbort part ipa) rfl (fun _ => rfl) (fun _ h => h.1) fun s ⟨_, hw, hl, hs⟩ => ?_
  rw [State.writeS2r, State.takeS2_one hw]
  simp [State.abortRequest, State.abort, hl, hs]

/-- Settles O52: each invalidation by the entries that it drops and the waits that it renews, the other events by what each does to its
tables. -/
theorem translationEvents : Obligations.TranslationEvents := by
  unfold Obligations.TranslationEvents
  refine ⟨fun vmid asid va pages => ⟨?_, ?_, ?_, ?_, ?_⟩, performs_tlbWalkDone,
    fun id => ⟨happens_hostTlbSync id, happens_tlbSyncAnswer id⟩,
    fun rq p g l => ⟨fun s s1 pa kid => exec_pageRequestWrite, happens_pageRequestDone rq p g l,
      fun part ipa at_ => ⟨happens_s2rResume g l part ipa at_, happens_s2rAbort g l part ipa at_⟩⟩⟩
  · exact happens_invalidate (execTlbiVaRange vmid asid va pages) rfl fun _ => rfl
  · exact happens_invalidate (execTlbiAsid vmid asid) rfl fun _ => rfl
  · exact happens_invalidate (execTlbiIpaRange vmid va pages) rfl fun _ => rfl
  · exact happens_invalidate (execTlbiVmid vmid) rfl fun _ => rfl
  · exact happens_invalidate execTlbiAll rfl fun _ => rfl

end Sys2Proof.Machine
end

section
/-! SUPPORT. What the events of pre-emption do: swap-outs and re-admissions (R149, R151), restores (R152), bank swaps and evictions (R165 to
R168). -/

set_option Elab.async false

namespace Sys2Proof.Machine

/-! ## Swap-outs and re-admissions -/

theorem performs_swapOutDone (w : Nat) : Performs (.swapOutDone w) (fun s => s.canLeave w = true) (fun s =>
    let u := (s.writeSpill w).spillWg w
    if ((u.lgsOf w).any fun p => p.2.wouldRun) = true then
      ({ u with nseq := u.nseq + 1 } : State).modWg w fun x => { x with eligible := true, eligAt := u.nseq } else u) := by
  intro s h
  show execSwapOutDone w s = _
  rw [execSwapOutDone, memEvent_of h, State.unlessStalled_eq]

/-- The commands of a workgroup move without it (R151). -/
theorem State.moveCmds_wgs (s : State) (w core bank : Nat) : (s.moveCmds w core bank).wgs = s.wgs := by
  refine foldl_keeps State.wgs _ ?_ _ s
  exact fun _ _ => rfl

theorem happens_readmit (w : Nat) (g : Wg) (c : Nat) (la : Launch) : Happens (.readmit w)
    (fun s => s.wgs.find w = some g ∧ s.launches.find g.launch = some la ∧ s.work la.part = some (.readmit w) ∧ s.readmitCore w = some c)
    (fun s t => t.wgs.find w = some { g with
      core := c, bank := (s.core c).act, slot := s.freeSlot c (s.core c).act, st := .restoring,
      eligible := false, ousted := false, placedAt := s.nseq }) := by
  rintro s ⟨hw, hl, hk, hc⟩
  show ∃ t, execReadmit w s = _ ∧ _
  rw [execReadmit, event_of (by simp [hw, hl, hk]), hc, hw]
  refine ⟨_, rfl, ?_⟩
  dsimp only
  refine (State.find_modWg_self (g := g) _ ?_).trans ?_
  · refine (congrArg (Tab.find · w) (State.moveCmds_wgs ..)).trans ?_
    split <;> exact hw
  · split <;> rfl

/-! ## Restores -/

/-- What ended workgroups hold is released without memory (R174, R194). -/
theorem State.reap_mem (s : State) (core : Nat) : (s.reap core).mem = s.mem := by
  unfold State.reap
  extract_lets ended gone left s1 s2
  have h1 : s1.mem = s.mem := by
    unfold s1
    split
    · split <;> rfl
    · rfl
  refine (foldl_keeps State.mem _ ?_ _ s1).trans h1
  exact fun _ _ => rfl

theorem happens_contextRestoreDone (w : Nat) (g : Wg) (core : Nat) : Happens (.contextRestoreDone core w)
    (fun s => s.wgs.find w = some g ∧ s.canRestore core w = true)
    (fun s t => (g.st ≠ .ended → t.wgs.find w = some { g with st := .resident, spill := none }) ∧ t.mem = s.mem) := by
  refine happens_cond (execContextRestoreDone core w) rfl (fun _ => rfl) (fun _ h => h.2) fun s ⟨hw, _⟩ => ?_
  simp only [hw]
  split
  · next he => exact ⟨fun hn => absurd he hn, State.reap_mem ..⟩
  · exact ⟨fun _ => State.find_modWg_self _ hw, rfl⟩

/-! ## The shadow bank -/

theorem happens_preemptSwapDone (core : Nat) : Happens (.preemptSwapDone core) (fun s => s.canFlip core = true) (fun s t =>
    t.core core = { s.core core with act := 1 - (s.core core).act, swapping := false, shadowClean := false } ∧ t.mem = s.mem) := by
  refine happens_cond (execPreemptSwapDone core) rfl (fun _ => rfl) (fun _ h => h) fun s _ => ?_
  extract_lets bank here fresh s1 s2
  have hcores : s2.cores = s.cores := by
    refine foldl_keeps State.cores _ ?_ _ s1
    exact fun _ _ => rfl
  have hmem : s2.mem = s.mem := by
    refine foldl_keeps State.mem _ ?_ _ s1
    exact fun _ _ => rfl
  have hcore : s2.core core = s.core core := congrArg (fun t : Tab Core => t.getD {} core) hcores
  exact ⟨((State.core_modCore ..).trans (if_pos rfl)).trans (by rw [hcore]), hmem⟩

theorem happens_swapBack (core : Nat) : Happens (.swapBack core)
    (fun s => s.canSwapBack core = true ∧ s.preempted core = true ∧ s.oustedOf core = [])
    (fun s t => t.core core = { s.core core with swapping := true } ∧ t = { s with cores := t.cores }) := by
  refine happens_cond (execSwapBack core) rfl (fun _ => rfl) (fun _ h => h.1) fun s ⟨_, hp, ho⟩ => ?_
  simp only [ho, List.foldl_nil, hp, if_true]
  exact ⟨(State.core_modCore ..).trans (if_pos rfl), rfl⟩

theorem performs_shadowWriteoutDone (core : Nat) : Performs (.shadowWriteoutDone core) (fun s => s.canWriteOut core = true) (fun s =>
    ((s.slotted core).2.foldl (fun s w => s.writeSpill w) (s.slotted core).1).modCore core fun k => { k with shadowClean := true }) :=
  performs_memEvent (cond := fun s => s.canWriteOut core) (fun _ _ => rfl) (fun _ h => h) fun _ _ => rfl

/-! ## Evictions -/

theorem delivers_slotEvictionDone (core n w : Nat) : Delivers (.slotEvictionDone core n) (.slotEvictionDone core n)
    (fun s => s.foreign core (s.slot core n).claim = some w ∧ s.canEvictSlot core n = true)
    (fun s => ((s.takeSpill w).writeSpill w).modCore core fun k =>
      let x := Tab.getD k.slots {} n
      { k with slots := k.slots.put n { x with claim := none, pair := false }, evSlots := k.evSlots.put (32 * w + n) x }) := by
  rintro s hp ⟨hf, hc⟩
  have hf' : (s.took (.slotEvictionDone core n)).foreign core ((s.took (.slotEvictionDone core n)).slot core n).claim = some w := hf
  show execSlotEvictionDone core n s = _
  rw [execSlotEvictionDone, hc, Bool.not_true, if_neg Bool.false_ne_true, memFire_of hp, State.unlessStalled_eq]
  simp only [hf']

theorem delivers_arrayEvictionDone (core w : Nat) : Delivers (.arrayEvictionDone core) (.arrayEvictionDone core)
    (fun s => s.foreign core (s.core core).arr.holder = some w ∧ s.canEvictArr core = true)
    (fun s => ((s.takeSpill w).writeSpill w).modCore core fun k => { k with evArr := k.evArr.put w k.arr, arr := {} }) := by
  rintro s hp ⟨hf, hc⟩
  have hf' : (s.took (.arrayEvictionDone core)).foreign core ((s.took (.arrayEvictionDone core)).core core).arr.holder = some w := hf
  show execArrayEvictionDone core s = _
  rw [execArrayEvictionDone, hc, Bool.not_true, if_neg Bool.false_ne_true, memFire_of hp, State.unlessStalled_eq]
  simp only [hf']

/-- Settles O53: each event by its condition or its message and what it then does. -/
theorem preemptionEvents : Obligations.PreemptionEvents := by
  unfold Obligations.PreemptionEvents
  exact ⟨fun w g => ⟨performs_swapOutDone w, happens_readmit w g, happens_contextRestoreDone w g⟩,
    fun core => ⟨happens_preemptSwapDone core, happens_swapBack core, performs_shadowWriteoutDone core, delivers_slotEvictionDone core,
      delivers_arrayEvictionDone core⟩⟩

end Sys2Proof.Machine
end

section
/-! SUPPORT. What the events of the matrix engines (R174, R179, R186 to R188, R338, R343, R441), of the broadcast buses (R184) and of the
governor (R171) do. -/

set_option Elab.async false

namespace Sys2Proof.Machine

theorem State.find_modCmd_self {s : State} {id : Nat} {c : Cmd} (f : Cmd → Cmd) (h : s.cmds.find id = some c) :
    (s.modCmd id f).cmds.find id = some (f c) := by
  refine (Tab.find_modify ..).trans ?_
  rw [if_pos rfl, h, Option.map_some]

theorem State.mem_post (s : State) (e : Ev) : e ∈ (s.post e).pending := List.mem_append_right _ (List.mem_singleton_self e)

theorem State.core_post (s : State) (e : Ev) (k : Nat) : (s.post e).core k = s.core k := rfl

theorem State.core_modCmd (s : State) (id : Nat) (f : Cmd → Cmd) (k : Nat) : (s.modCmd id f).core k = s.core k := rfl

theorem State.took_cmds (s : State) (e : Ev) : (s.took e).cmds = s.cmds := rfl

theorem State.slot_took (s : State) (e : Ev) (core n : Nat) : (s.took e).slot core n = s.slot core n := rfl

/-! ## Starts -/

/-- A queued command that can start and is found at fault ends. -/
theorem happens_mxCommandStart_fails (id : Nat) (c : Cmd) : Happens (.mxCommandStart id)
    (fun s => s.cmds.find id = some c ∧ s.canMx id c = true ∧ s.startCause c ≠ .none)
    (fun s t => t = s.endCmd id (s.startCause c)) := by
  rintro s ⟨hc, hm, he⟩
  refine ⟨_, ?_, rfl⟩
  show execMxCommandStart id s = _
  rw [execMxCommandStart, hc]
  exact (event_of hm).trans (congrArg _ (if_pos he))

section
variable {s : State} {id : Nat} {c : Cmd}

/-- A queued command that can start and is found good runs, and does what its body says. -/
theorem exec_mxCommandStart (hc : s.cmds.find id = some c) (hm : s.canMx id c = true) (he : s.startCause c = .none) :
    let u := s.modCmd id fun x => { x with st := .running }
    (∀ n b x y, c.body = .mxLd n b x y → exec (.mxCommandStart id) s = .next (u.post (.mxLdDone id))) ∧
    (∀ n, c.body = .mxZero n → exec (.mxCommandStart id) s =
      .next ((u.setTile c.core c.bank n { claim := some c.wg, pair := (u.tile c.core c.bank n).pair }).endCmd id)) ∧
    (∀ n a b, c.body = .mxPmma n a b → exec (.mxCommandStart id) s =
      .next (((u.modCore (c.core + 1) fun k => { k with slaved := some id }).modCmd id fun x =>
        { x with owned := [(s.pairBank (c.core + 1) c.launch n).getD 0] }).post (.mxPmmaDone id))) ∧
    (∀ n w, c.body = .mxRec n w → exec (.mxCommandStart id) s = .next ((u.setSlot c.core n { u.slot c.core n with
      record := w, pois := (u.slot c.core n).pois.filter fun p => decide (p < 2176)
      errs := (u.slot c.core n).errs.del 1088 }).endCmd id)) := by
  have h : exec (.mxCommandStart id) s = execMxCommandStart id s := rfl
  rw [execMxCommandStart, hc] at h
  dsimp only at h
  rw [event_of hm, if_neg (not_not_intro he)] at h
  refine ⟨fun n b x y hb => ?_, fun n hb => ?_, fun n a b hb => ?_, fun n w hb => ?_⟩ <;> rw [h, hb] <;> rfl

/-! ## Loads of slots -/

/-- A load whose lines stand on other dies lets its packets cross first (R234). -/
theorem exec_mxLdDone_crosses {t : State} (hc : s.cmds.find id = some c) (hk : s.cmdBlocked id c = false)
    (hf : s.farFirst id c (.mxLdDone id) false = some t) : exec (.mxLdDone id) s = .next t := by
  show execMxLdDone id s = _
  simp only [execMxLdDone, hc, hk, hf, Bool.false_eq_true, if_false]

theorem exec_mxLdDone {n b x va : Nat} {side : Bool} {e : Cause} {g : Got} {u : State} (hp : .mxLdDone id ∈ s.pending)
    (hc : s.cmds.find id = some c) (hk : s.cmdBlocked id c = false) (hf : s.farFirst id c (.mxLdDone id) false = none)
    (hb : c.body = .mxLd n b x side) (hr : (s.took (.mxLdDone id)).cmdRead c = (u, g)) (hw : worst g.errs = (e, va)) :
    exec (.mxLdDone id) s =
      .next ((u.setSlot c.core n ((u.slot c.core n).load side c.body.segs g)).endCmd id e (BitVec.ofNat 64 va)) := by
  show execMxLdDone id s = _
  simp only [execMxLdDone, hc, hk, hf, fire_of hp, hr, hw, hb, Bool.false_eq_true, if_false]

/-! ## Drains, checks and releases -/

/-- A drain whose lines stand on other dies lets its packets cross first (R234). -/
theorem exec_mxDrainDone_crosses {t : State} (hc : s.cmds.find id = some c) (hk : s.cmdBlocked id c = false)
    (hcw : s.cmdCommitWaits c = false) (hf : s.farFirst id c (.mxDrainDone id) true = some t) :
    exec (.mxDrainDone id) s = .next t := by
  show execMxDrainDone id s = _
  simp only [execMxDrainDone, hc, hk, hcw, hf, Bool.or_self, Bool.false_eq_true, if_false]

theorem exec_mxDrainDone {n b x va : Nat} {w : DWord} {e : Cause} {r : Storage} {es : List (Cause × Nat)} {u v : State}
    (hp : .mxDrainDone id ∈ s.pending) (hc : s.cmds.find id = some c) (hk : s.cmdBlocked id c = false)
    (hcw : s.cmdCommitWaits c = false) (hf : s.farFirst id c (.mxDrainDone id) true = none) (hb : c.body = .mxDrain n b x w)
    (ht : (s.took (.mxDrainDone id)).checkTile c n = (u, r)) (hv : u.cmdWrite c (r.tile.drain w) r.tile.pois = (v, es))
    (hclr : bit w 37 = false) (hw : worst (if r.tile.pois then (.slot, 0) :: es else es) = (e, va)) :
    exec (.mxDrainDone id) s = .next (v.endCmd id e (BitVec.ofNat 64 va)) := by
  show execMxDrainDone id s = _
  simp only [execMxDrainDone, hc, hk, hcw, hf, fire_of hp, hb, ht, hv, hclr, hw, Bool.or_self, Bool.false_eq_true, if_false]

theorem exec_mxChkDone {d n : Nat} {r : Storage} {u : State} (hp : .mxChkDone id ∈ s.pending) (hc : s.cmds.find id = some c)
    (hb : c.body = .mxChk d n) (ht : (s.took (.mxChkDone id)).checkTile c n = (u, r)) :
    exec (.mxChkDone id) s = .next ((u.modLg c.lg fun l => l.wrV c.em d fun _ =>
      BitVec.ofNat 32 (r.out + r.tile.mode * 4 + b2n r.tile.pois * 16 + r.row * 32 + r.col * 2048)).endCmd id
        (if r.out = 3 then .slot else .none)) := by
  show execMxChkDone id s = _
  simp only [execMxChkDone, fire_of hp, State.took_cmds, hc, hb, ht]

end

theorem arrives_mxRelEffect (id : Nat) (c : Cmd) (tile : Bool) (n : Nat) : Arrives (.mxRelEffect id) (.mxRelEffect id)
    (fun s => s.cmds.find id = some c ∧ c.body = .mxRel tile n)
    (fun s t => t = (s.setClaim c.core c.bank tile n none false).endCmd id) := by
  rintro s hp ⟨hc, hb⟩
  refine ⟨_, (fire_of hp : execMxRelEffect id s = _), ?_⟩
  simp only [State.took_cmds, hc, hb]

/-! ## Products -/

/-- Reading a slot changes slots and counts alone, so it does not matter whether a message has been taken before. -/
theorem State.readSlot_took (e : Ev) (core n : Nat) (s : State) : (s.took e).readSlot core n = (s.readSlot core n).took e := by
  unfold State.readSlot
  refine List.foldl_hom (fun s : State => s.took e) fun s p => ?_
  dsimp only
  split <;> rfl

/-- A half whose groups are all fine changes nothing (R187). -/
theorem State.judgeHalf_fine {s : State} {c : Cmd} {core bank t flag : Nat} {h : Half} (hf : ∀ k ∈ h.checks, k = .fine) :
    s.judgeHalf c core bank t flag h = (s, false) := by
  rw [State.judgeHalf]
  exact List.foldlRecOn (motive := fun a => a = (s, false)) _ _ rfl fun a ha k hk => by rw [hf k hk]; exact ha

/-- The slots of a product are read (R441). -/
def State.readPair (s : State) (c : Cmd) (a b : Nat) : State := (s.readSlot c.core a).readSlot c.core b

/-- The slots of a paired product are read, the follower's too. -/
def State.readPaired (s : State) (c : Cmd) (a b : Nat) : State := (s.readPair c a b).readSlot (c.core + 1) b

theorem State.readPair_took (s : State) (e : Ev) (c : Cmd) (a b : Nat) : (s.took e).readPair c a b = (s.readPair c a b).took e := by
  simp only [State.readPair, State.readSlot_took]

theorem State.readPaired_took (s : State) (e : Ev) (c : Cmd) (a b : Nat) :
    (s.took e).readPaired c a b = (s.readPaired c a b).took e := by
  simp only [State.readPaired, State.readPair_took, State.readSlot_took]

/-- The half of a product on its own core, without wrong sums. -/
def State.nearHalf (s : State) (c : Cmd) (t a b : Nat) : Half :=
  halfProduct (s.slot c.core a) (s.slot c.core b) (s.tile c.core c.bank t) []

/-- The half of a paired product on the follower (R182). -/
def State.farHalf (s : State) (c : Cmd) (t a b : Nat) : Half :=
  halfProduct (s.slot c.core a) (s.slot (c.core + 1) b) (s.tile (c.core + 1) (c.owned.headD 0) t) []

theorem State.nearHalf_took (s : State) (e : Ev) (c : Cmd) (t a b : Nat) : (s.took e).nearHalf c t a b = s.nearHalf c t a b := rfl

theorem State.farHalf_took (s : State) (e : Ev) (c : Cmd) (t a b : Nat) : (s.took e).farHalf c t a b = s.farHalf c t a b := rfl

theorem arrives_mxMmaDone (id : Nat) (c : Cmd) (t a b : Nat) : Arrives (.mxMmaDone id) (.mxMmaDone id [])
    (fun s => (s.cmds.find id = some c ∧ c.body = .mxMma t a b) ∧ ((s.readPair c a b).slot c.core a).poisoned = false ∧
      ((s.readPair c a b).slot c.core b).poisoned = false ∧ ∀ k ∈ ((s.readPair c a b).nearHalf c t a b).checks, k = .fine)
    (fun s u => u = ((s.readPair c a b).setTile c.core c.bank t ((s.readPair c a b).nearHalf c t a b).tile).endCmd id) := by
  rintro s hp ⟨⟨hc, hb⟩, hx, hy, hf⟩
  refine ⟨_, (fire_of hp : execMxMmaDone id [] s = _), ?_⟩
  rw [← State.slot_took _ (.mxMmaDone id), ← State.readPair_took] at hx hy
  rw [← State.nearHalf_took _ (.mxMmaDone id), ← State.readPair_took] at hf
  simp only [State.readPair, State.nearHalf] at hx hy hf ⊢
  simp only [State.took_cmds, hc, hb, hx, hy, List.filter_nil, State.judgeHalf_fine hf, Bool.or_self, Bool.false_eq_true, if_false]

theorem arrives_mxMmaDone_poisoned (id : Nat) (c : Cmd) (t a b : Nat) : Arrives (.mxMmaDone id) (.mxMmaDone id [])
    (fun s => (s.cmds.find id = some c ∧ c.body = .mxMma t a b) ∧ (((s.readPair c a b).slot c.core a).poisoned = true ∨
      ((s.readPair c a b).slot c.core b).poisoned = true))
    (fun s u => u = ((s.readPair c a b).poisonHalf c.core c.bank t).endCmd id .slot) := by
  rintro s hp ⟨⟨hc, hb⟩, hxy⟩
  refine ⟨_, (fire_of hp : execMxMmaDone id [] s = _), ?_⟩
  rw [← State.slot_took _ (.mxMmaDone id), ← State.slot_took _ (.mxMmaDone id) _ b, ← State.readPair_took,
    ← Bool.or_eq_true_iff] at hxy
  simp only [State.readPair] at hxy ⊢
  simp only [State.took_cmds, hc, hb, hxy, if_true]

theorem arrives_mxPmmaDone (id : Nat) (c : Cmd) (t a b : Nat) : Arrives (.mxPmmaDone id) (.mxPmmaDone id [])
    (fun s => s.cmds.find id = some c ∧ c.body = .mxPmma t a b ∧ ((s.readPaired c a b).slot c.core a).poisoned = false ∧
      ((s.readPaired c a b).slot c.core b).poisoned = false ∧ ((s.readPaired c a b).slot (c.core + 1) b).poisoned = false ∧
      (∀ k ∈ ((s.readPaired c a b).nearHalf c t a b).checks, k = .fine) ∧
      ∀ k ∈ ((s.readPaired c a b).farHalf c t a b).checks, k = .fine)
    (fun s u => u = (((s.readPaired c a b).setTile c.core c.bank t ((s.readPaired c a b).nearHalf c t a b).tile).setTile (c.core + 1)
      (c.owned.headD 0) t ((s.readPaired c a b).farHalf c t a b).tile).endCmd id) := by
  rintro s hp ⟨hc, hb, hx, hy, hz, hf, hg⟩
  refine ⟨_, (fire_of hp : execMxPmmaDone id [] s = _), ?_⟩
  rw [← State.slot_took _ (.mxPmmaDone id), ← State.readPaired_took] at hx hy hz
  rw [← State.nearHalf_took _ (.mxPmmaDone id), ← State.readPaired_took] at hf
  rw [← State.farHalf_took _ (.mxPmmaDone id), ← State.readPaired_took] at hg
  simp only [State.readPaired, State.readPair, State.nearHalf, State.farHalf] at hx hy hz hf hg ⊢
  simp only [State.took_cmds, hc, hb, hx, hy, hz, List.filter_nil, State.judgeHalf_fine hf, State.judgeHalf_fine hg, Bool.or_self,
    Bool.false_eq_true, if_false]

/-! ## Broadcast buses -/

theorem happens_busTransferStart_gate (id : Nat) (c : Cmd) {col : Bool} {x mask chan : Nat} {y : DWord}
    (hb : c.body = .bus col x y mask chan) : Happens (.busTransferStart id)
      (fun s => s.cmds.find id = some c ∧ s.canBus id c = true ∧ ∃ r ∈ busCores c.core col mask, s.busOpen c.part c.core r = false)
      (fun s t => t = (s.cmdGate c mask).endCmd id .gate) := by
  rintro s ⟨hc, hm, hr⟩
  refine ⟨_, ?_, rfl⟩
  show execBusTransferStart id s = _
  rw [execBusTransferStart, hc]
  refine (event_of hm).trans ?_
  rw [hb]
  exact congrArg _ (if_pos (by simpa using hr))

theorem happens_busTransferStart (id : Nat) (c : Cmd) {col : Bool} {x mask chan : Nat} {y : DWord}
    (hb : c.body = .bus col x y mask chan) : Happens (.busTransferStart id)
      (fun s => s.cmds.find id = some c ∧ s.canBus id c = true ∧ ∀ r ∈ busCores c.core col mask, s.busOpen c.part c.core r = true)
      (fun s t => t.cmds.find id = some { c with st := .running } ∧ Ev.busTransferDone id ∈ t.pending ∧
        t = { s with cmds := t.cmds, pending := t.pending }) := by
  rintro s ⟨hc, hm, hr⟩
  refine ⟨(s.modCmd id fun x => { x with st := .running }).post (.busTransferDone id), ?_, State.find_modCmd_self _ hc,
    State.mem_post .., rfl⟩
  show execBusTransferStart id s = _
  rw [execBusTransferStart, hc]
  refine (event_of hm).trans ?_
  rw [hb]
  exact congrArg _ (if_neg (by simpa using hr))

theorem arrives_busTransferDone (id : Nat) (c : Cmd) {col : Bool} {x mask chan : Nat} {y : DWord}
    (hb : c.body = .bus col x y mask chan) : Arrives (.busTransferDone id) (.busTransferDone id)
      (fun s => s.cmds.find id = some c ∧ s.counterLocked c = false)
      (fun s t => t = (s.fillSlots id c y).finishCmd id c (if c.gotPois.isEmpty then .none else .deferred)) := by
  rintro s hp ⟨hc, hl⟩
  refine ⟨_, ?_, rfl⟩
  show execBusTransferDone id s = _
  rw [execBusTransferDone, if_neg (by simp [hc, hl]), fire_of hp]
  simp only [State.took_cmds, hc, hb]

/-! ## The governor -/

/-- With no issue stalled, a new window admits none and charges nothing. -/
theorem happens_governorWindow (bh : Nat) : Happens (.governorWindow bh)
    (fun s => bh < 12 ∧ (Tab.getD s.govs {} bh).window < s.now / 256 ∧ (Tab.getD s.govs {} bh).waiting = [])
    (fun s t => Tab.getD t.govs {} bh = { Tab.getD s.govs {} bh with
        used := 0, window := s.now / 256, admitted := (Tab.getD s.govs {} bh).admitted.filter s.stalledStill
        budget := if s.winBits (oMXB bh) 0 9 = 0 then 1 else min (s.winBits (oMXB bh) 0 9) 256 } ∧ t = { s with govs := t.govs }) := by
  refine happens_cond (execGovernorWindow bh) rfl (fun _ => rfl) 
    (fun _ h => Bool.and_eq_true_iff.mpr ⟨decide_eq_true h.1, decide_eq_true h.2.1⟩) fun s ⟨_, hlt, hw⟩ => ⟨?_, rfl⟩
  refine (Tab.getD_setD ..).trans ((if_pos rfl).trans ?_)
  simp only [State.gov, if_neg (Nat.not_le.mpr hlt), hw, List.filter_nil, List.length_nil, Gov.letThrough]

/-- Settles O54: a start by its command's cause and body, the other events by their messages or conditions and what each then does. -/
theorem matrixEvents : Obligations.MatrixEvents := by
  unfold Obligations.MatrixEvents
  refine ⟨fun id c => ⟨happens_mxCommandStart_fails id c, ?_, ?_, ?_, ?_,
    fun n b x side va e g s u hp hc hk hf hb hr hw => exec_mxLdDone hp hc hk hf hb hr hw,
    fun s t hc hk => ⟨fun hf => exec_mxLdDone_crosses hc hk hf, fun hcw hf => exec_mxDrainDone_crosses hc hk hcw hf⟩,
    fun t a b => ⟨arrives_mxMmaDone id c t a b, arrives_mxMmaDone_poisoned id c t a b, arrives_mxPmmaDone id c t a b⟩,
    fun n b x va w e r es s u v hp hc hk hcw hf hb ht hv hclr hw => exec_mxDrainDone hp hc hk hcw hf hb ht hv hclr hw,
    fun d n r s u hp hc hb ht => exec_mxChkDone hp hc hb ht, arrives_mxRelEffect id c,
    fun col chan mask word => ⟨fun x y hb => happens_busTransferStart_gate id c hb, fun x y hb => happens_busTransferStart id c hb,
      fun x y z hb => arrives_busTransferDone id c hb⟩⟩, happens_governorWindow⟩
  · rintro s ⟨hc, hm, he, n, b, x, y, hb⟩
    obtain ⟨hld, -⟩ := exec_mxCommandStart hc hm he
    exact ⟨_, hld n b x y hb, State.find_modCmd_self _ hc, State.mem_post .., rfl⟩
  · rintro n s ⟨hc, hm, he, hb⟩
    obtain ⟨-, hzero, -⟩ := exec_mxCommandStart hc hm he
    exact ⟨_, hzero n hb, rfl⟩
  · rintro n a b s ⟨hc, hm, he, hb⟩
    obtain ⟨-, -, hpmma, -⟩ := exec_mxCommandStart hc hm he
    refine ⟨_, hpmma n a b hb, State.find_modCmd_self _ (State.find_modCmd_self _ hc), ?_, State.mem_post ..⟩
    rw [State.core_post, State.core_modCmd, State.core_modCore, if_pos rfl]
  · rintro n w s ⟨hc, hm, he, hb⟩
    obtain ⟨-, -, -, hrec⟩ := exec_mxCommandStart hc hm he
    exact ⟨_, hrec n w hb, rfl⟩

end Sys2Proof.Machine
end

section
/-! SUPPORT. What a command that joins the matrix queue changes (R178, R179), and that neither its joining nor the end of another command
meets a line that an engine owns. -/

set_option Elab.async false

namespace Sys2Proof.Machine

/-! ## Joining the matrix queue -/

/-- The head of a queue reserves at most the follower of a paired product (R182): it alone takes its place, and the follower its mark. -/
theorem State.mxHead_cases (s : State) (core : Nat) : s.mxHead core = s ∨ ∃ id, s.mxHead core =
    (s.modCmd id fun x => { x with left := s.nseq }).modCore (core + 1) fun k => { k with slaved := some id } := by
  unfold State.mxHead
  split
  · exact .inl rfl
  · next id _ _ =>
    split
    · exact .inl rfl
    · split
      · split
        · exact .inr ⟨id, rfl⟩
        · exact .inl rfl
      · exact .inl rfl

theorem State.mxHead_frame (s : State) (core : Nat) :
    s.mxHead core = { s with cmds := (s.mxHead core).cmds, cores := (s.mxHead core).cores } := by
  obtain e | ⟨id, e⟩ := s.mxHead_cases core
  · rw [e]
  · rw [e]
    rfl

theorem State.mxHead_core (s : State) (core k : Nat) :
    { (s.mxHead core).core k with slaved := none } = { s.core k with slaved := none } := by
  obtain e | ⟨id, e⟩ := s.mxHead_cases core
  · rw [e]
  · rw [e, State.core_modCore]
    split
    · next h => rw [h]; rfl
    · rfl

theorem State.mxHead_cmds (s : State) (core id : Nat) :
    ((s.mxHead core).cmds.find id).map (fun x => { x with left := 0 }) = (s.cmds.find id).map (fun x => { x with left := 0 }) := by
  obtain e | ⟨j, e⟩ := s.mxHead_cases core
  · rw [e]
  · rw [e]
    refine (congrArg _ (Tab.find_modify s.cmds j id _)).trans ?_
    split
    · next h => rw [h, Option.map_map]; rfl
    · rfl

/-- A command that is put into the matrix queue joins it. -/
theorem State.mxQueue_added (c : Ctx) (ctr : Option (BitVec 4)) (body : CmdBody) (gran : Tab (Nat × Nat)) (u : State) :
    MxAdded (ctr.map (·.toNat)) body gran c u (u.mxQueue c ctr body gran) := by
  set x : Cmd := { c.cmd u (ctr.map (·.toNat)) body with gran := gran } with hx
  set v : State := (u.putCmd x).modCore c.core fun k => { k with mxq := k.mxq ++ [u.nseq] } with hv
  have ht : u.mxQueue c ctr body gran = v.mxHead c.core := rfl
  have hcmds : v.cmds = u.cmds.put u.nseq x := rfl
  have hcore : ∀ k, v.core k = if k = c.core then { u.core c.core with mxq := (u.core c.core).mxq ++ [u.nseq] } else u.core k :=
    fun k => State.core_modCore ..
  have hhead := State.mxHead_core v c.core
  obtain ⟨y, hy, hyx⟩ : ∃ y, (v.mxHead c.core).cmds.find u.nseq = some y ∧ { y with left := 0 } = { x with left := 0 } := by
    have h := State.mxHead_cmds v c.core u.nseq
    rw [hcmds, Tab.find_put_self] at h
    exact Option.map_eq_some_iff.mp h
  have field {α : Type} (f : Cmd → α) (hf : ∀ z : Cmd, f { z with left := 0 } = f z) : f y = f x := by rw [← hf, hyx, hf]
  rw [ht]
  refine { cmd := ⟨y, hy, ?_⟩, gran := ?_, queue := fun k => ?_, others := fun id hid => ?_, core := fun k => ?_, rest := ?_ }
  · exact ⟨field (·.lg) fun _ => rfl, field (·.wg) fun _ => rfl, field (·.core) fun _ => rfl, field (·.ctr) fun _ => rfl,
      field (·.body) fun _ => rfl, field (·.live) fun _ => rfl⟩
  · rw [hy, Option.map_some, field (·.gran) fun _ => rfl]
  · refine (congrArg Core.mxq (hhead k) :).trans ?_
    dsimp only
    rw [hcore]
    split
    · next h => rw [h]
    · rfl
  · rw [State.mxHead_cmds, hcmds, Tab.find_put_other _ _ hid]
  · refine (congrArg (fun k : Core => { k with mxq := [] }) (hhead k) :).trans ?_
    dsimp only
    rw [hcore]
    split
    · next h => rw [h]
    · rfl
  · have hframe := State.mxHead_frame v c.core
    have hseq : (v.mxHead c.core).nseq = v.nseq := (congrArg State.nseq hframe :)
    rw [hseq]
    exact hframe

theorem MxAdded.lgs {ctr : Option Nat} {body : CmdBody} {gran : Tab (Nat × Nat)} {c : Ctx} {u t : State} (h : MxAdded ctr body gran c u t) :
    t.lgs = u.lgs := by have e := congrArg State.lgs h.rest; exact e

theorem MxAdded.pk {ctr : Option Nat} {body : CmdBody} {gran : Tab (Nat × Nat)} {c : Ctx} {u t : State} (h : MxAdded ctr body gran c u t) :
    t.pk = u.pk := by have e := congrArg State.pk h.rest; exact e

/-! ## Ends of commands -/

/-- `t` meets no line of an engine that `s` does not meet. -/
def Flows (s t : State) : Prop := t.pk.stall = true → s.pk.stall = true

theorem Flows.of_pk {s t : State} (h : t.pk = s.pk) : Flows s t := fun e => h ▸ e

theorem Flows.trans {s t u : State} (h : Flows s t) (k : Flows t u) : Flows s u := fun e => h (k e)

theorem Flows.foldl {β : Type} {f : State → β → State} (hf : ∀ s x, Flows s (f s x)) : ∀ (l : List β) (s : State), Flows s (l.foldl f s)
  | [], _ => id
  | x :: r, s => (hf s x).trans (Flows.foldl hf r (f s x))

theorem State.closeFence_pk (s : State) (g : Nat) : (s.closeFence g).pk = s.pk := by
  unfold State.closeFence
  split
  · rfl
  · split
    · rfl
    · split
      · rfl
      · dsimp only
        split <;> rfl

theorem State.reap_pk (s : State) (core : Nat) : (s.reap core).pk = s.pk := by
  unfold State.reap
  extract_lets ended gone left s1 s2
  have h1 : s1.pk = s.pk := by
    unfold s1
    split
    · split <;> rfl
    · rfl
  refine (foldl_keeps State.pk _ ?_ _ s1).trans h1
  exact fun _ _ => rfl

theorem State.tenantRec_flows (s : State) (vf : Nat) (ws : List Nat) : Flows s (s.tenantRec vf ws) := State.tenantRec_stall

theorem State.flushRefusals_flows (s : State) (vf g : Nat) : Flows s (s.flushRefusals vf g) :=
  (Flows.foldl (fun s (r : Nat × List Nat) => State.tenantRec_flows s vf r.2) _ s).trans (.of_pk rfl)

theorem State.reportUnread_flows (s : State) (g : Nat) : Flows s (s.reportUnread g) := by
  unfold State.reportUnread
  split
  · exact id
  · split
    · exact id
    · next wg _ =>
      split
      · exact id
      · extract_lets s1
        have h1 : Flows s s1 := by
          unfold s1
          refine Flows.foldl (fun s f => ?_) _ _
          have hf : (s.faultLaunch wg.launch f.cause).pk = s.pk := rfl
          exact (Flows.of_pk hf).trans (State.tenantRec_flows _ _ _)
        exact h1.trans (Flows.trans (State.flushRefusals_flows _ _ _) (.of_pk rfl))

/-- The end of a command reaches no line of memory but through records (R338, R406). -/
theorem State.endCmd_flows (s : State) (id : Nat) (cause : Cause) (va : DWord) : Flows s (s.endCmd id cause va) := by
  unfold State.endCmd
  split
  · exact fun h => h
  · split
    · exact fun h => h
    · extract_lets s1 s2 s3 s4 s5 s6 s7 ended
      have h3 : s3.pk = s.pk := by
        unfold s3
        split <;> rfl
      have h4 : s4.pk = s3.pk := (congrArg State.pk (State.mxHead_frame ..) :)
      have h5 : s5.pk = s4.pk := by
        unfold s5
        split <;> rfl
      have h6 : s6.pk = s5.pk := by
        unfold s6
        split <;> rfl
      have h7 : Flows s s7 := .of_pk (h6.trans (h5.trans (h4.trans h3)))
      refine h7.trans (Flows.trans ?_ (.of_pk ((State.closeFence_pk ..).trans (State.reap_pk ..))))
      split
      · exact State.reportUnread_flows _ _
      · exact fun h => h

theorem State.withdrawLdb_flows (s : State) (core wg n : Nat) : Flows s (s.withdrawLdb core wg n) := by
  refine Flows.foldl (fun s p => ?_) _ _
  split
  · split
    · exact State.endCmd_flows _ _ _ _
    · exact fun h => h
  · exact fun h => h

theorem State.govern_pk (s : State) (c : Ctx) (cost : Nat) : (s.govern c cost).1.pk = s.pk := by
  unfold State.govern
  extract_lets bh g set
  split
  · rfl
  · split
    · rfl
    · split <;> rfl

end Sys2Proof.Machine
end

section
/-! PROOF. What the words of major 12 do at issue (R174, R178, R179, R336, R341 to R349; O28): each meets the queue and the active lanes, then its
findings, then joins the queue, is held, or answers. -/

set_option Elab.async false

namespace Sys2Proof.Machine

variable {s : State} {c : Ctx}

/-! ## Findings of the executing lane -/

/-- Nothing is found in registers that pass their codes. -/
theorem Ctx.exReg_nil {rs : List Nat} (h : ∀ r ∈ rs, c.ExOk r) : c.exReg rs = [] :=
  List.flatMap_eq_nil_iff.mpr fun r hr => Ctx.regF_exLane (h r hr)

theorem Ctx.exReg_one {m : Nat} (h : c.ExOk m) : c.exReg [m] = [] := Ctx.exReg_nil (by simpa using h)

theorem Ctx.exReg_two {m n : Nat} (h : c.ExOk m) (k : c.ExOk n) : c.exReg [m, n] = [] := Ctx.exReg_nil (by simpa using ⟨h, k⟩)

/-- The order of the findings of a word: an illegal operand, then what it does not hold, then a format (R7). -/
theorem Ctx.best_illegal (slot fmt : Bool) :
    bestFinding (c.exIll true ++ c.exF slot .slot ++ c.exF fmt .fmt) = some ⟨6, .illegal, c.exMask⟩ := by
  cases slot <;> cases fmt <;> rfl

theorem Ctx.best_slot (fmt : Bool) :
    bestFinding (c.exF true .slot ++ c.exF fmt .fmt) = some ⟨Cause.rank .slot, .slot, c.exMask⟩ := by
  cases fmt <;> rfl

/-- What `bestCause` picks of causes is among them. -/
theorem bestCause_mem {k : Cause} {ks : List Cause} (h : ∀ x ∈ k :: ks, x ≠ .none) : bestCause (k :: ks) ∈ k :: ks := by
  have hk : Cause.better .none k = k := by
    have hne : k ≠ .none := h k List.mem_cons_self
    cases k <;> trivial
  rw [bestCause, List.foldl_cons, hk]
  refine List.foldlRecOn (motive := fun x => x ∈ k :: ks) ks _ List.mem_cons_self fun x hx y hy => ?_
  unfold Cause.better
  split
  · exact List.mem_cons_of_mem k hy
  · exact hx

/-- Addresses of which one fails give a replaying trap. -/
theorem State.replayTrap_some (s : State) {as : List LaneAddr} (h : ∃ a ∈ as, a.cause ≠ .none) (acc : Option Nat) :
    ∃ x, s.replayTrap as acc = some x ∧ x.cause ≠ .none ∧ x.replaying = true := by
  set bad := as.filter fun a => a.cause != .none with hbad
  have hne : ∀ k ∈ bad.map LaneAddr.cause, k ≠ .none := fun k hk => by
    obtain ⟨a, ha, rfl⟩ := List.mem_map.mp hk
    simpa using (List.mem_filter.mp ha).2
  obtain ⟨a, ha, hk⟩ := h
  have hmem : a.cause ∈ bad.map LaneAddr.cause := List.mem_map_of_mem (List.mem_filter.mpr ⟨ha, by simpa using hk⟩)
  have hbest : bestCause (bad.map LaneAddr.cause) ∈ bad.map LaneAddr.cause := by
    cases hks : bad.map LaneAddr.cause with
    | nil => simp [hks] at hmem
    | cons k ks => exact bestCause_mem (hks ▸ hne)
  obtain ⟨b, hb, hbc⟩ := List.mem_map.mp hbest
  obtain ⟨d, hd⟩ : ∃ d, (bad.find? fun a => a.cause == bestCause (bad.map LaneAddr.cause)) = some d :=
    Option.isSome_iff_exists.mp (List.find?_isSome.mpr ⟨b, hb, by simpa using hbc⟩)
  rw [State.replayTrap]
  dsimp only
  rw [← hbad, hd]
  exact ⟨_, rfl, hne _ hbest, rfl⟩

/-- Where some piece does not translate, the word traps and replays. -/
theorem State.withGrans_fails {need : Nat} {ps : List (Nat × Nat)} (h : GransFail c s need ps) (kind : Nat)
    (k : Tab (Nat × Nat) → State → State) :
    ∃ x : Trap, x.cause ≠ .none ∧ x.replaying = true ∧ s.withGrans c need kind ps k = (Walked c s need ps).1.takeTrap c x kind := by
  obtain ⟨x, hx, hc, hr⟩ := State.replayTrap_some (Walked c s need ps).1 h.1 none
  refine ⟨x, hc, hr, ?_⟩
  rw [State.withGrans]
  dsimp only
  rw [show (s.xlateGrans c need (granules ps)).1 = (Walked c s need ps).1 from rfl, hx]

/-! ## The outcome of a matrix word -/

/-- A word that may reach memory and meets no line of an engine. -/
theorem memWord_flows {i : Instr} {t : State} {f : Ctx → State → State} (h : s.ctx? = some c) (hw : wellFormed i = true) (hf : f c s = t)
    (hu : Flows s t) : memWord i s f = .next t := by
  subst hf
  exact memWord_next f h hw hu

section
variable {i : Instr} {ctr : Option (BitVec 4)} {chk : Ctx → State → List Finding} {k : Ctx → State → State}
  {ok : Ctx → State → Prop}

/-- A full queue holds the word (R179). -/
theorem runs_mxWord_full (hi : ∀ s, exec i s = mxWord i s ctr chk k) :
    Runs i (fun c s => 8 ≤ (s.core c.core).mxq.length) Held := fun s c h hw hq =>
  ⟨s.holdBack c, (hi s).trans (memWord_of h hw (if_pos hq) rfl), rfl⟩

/-- With no active lane it only counts, if it has a counter (R178). -/
theorem runs_mxWord_idle (hi : ∀ s, exec i s = mxWord i s ctr chk k) :
    Runs i (fun c s => (s.core c.core).mxq.length < 8 ∧ c.em = 0)
      (fun c s t => t = ctr.elim s fun n => s.addCtr c.g n.toNat 1) := by
  rintro s c h hw ⟨hq, he⟩
  refine ⟨_, (hi s).trans (memWord_of h hw ((if_neg hq.not_ge).trans (if_pos he)) ?_), ?_⟩
  · cases ctr <;> rfl
  · cases ctr <;> rfl

/-- With room in the queue and some lane active, its checks say whether it goes on. -/
theorem exec_mxWord (hi : ∀ s, exec i s = mxWord i s ctr chk k) (h : s.ctx? = some c) (hw : wellFormed i = true) (hr : MxReady c s)
    {t : State} (ht : s.checked c (chk c s) (k c) = t) (hu : Flows s t) : exec i s = .next t :=
  (hi s).trans (memWord_flows h hw ((if_neg hr.1.not_ge).trans ((if_neg hr.2).trans ht)) hu)

/-- With nothing found, the word goes on. -/
theorem runs_mxWord {eff : Ctx → State → State → Prop} (hi : ∀ s, exec i s = mxWord i s ctr chk k) (hc : ∀ c s, ok c s → chk c s = [])
    (hk : ∀ s c, s.ctx? = some c → ok c s → Flows s (k c s) ∧ eff c s (k c s)) : Runs i (fun c s => MxReady c s ∧ ok c s) eff := by
  rintro s c h hw ⟨hr, ho⟩
  obtain ⟨hf, he⟩ := hk s c h ho
  exact ⟨_, exec_mxWord hi h hw hr (by rw [hc c s ho, State.checked_nil]) hf, he⟩

/-- With something found, the first in rank is raised in the executing lane (R7, R338). -/
theorem runs_mxWord_raises {rank : Nat} {x : Cause} (hi : ∀ s, exec i s = mxWord i s ctr chk k)
    (hc : ∀ c s, ok c s → bestFinding (chk c s) = some ⟨rank, x, c.exMask⟩) :
    Runs i (fun c s => MxReady c s ∧ ok c s) (Raises x rank Ctx.exMask) := by
  rintro s c h hw ⟨hr, ho⟩
  exact ⟨_, exec_mxWord hi h hw hr (by rw [State.checked, hc c s ho]) State.takeTrap_stall, rfl⟩

/-- A word that, its checks passed, joins the queue of the state that `walk` gives. -/
theorem mxLaw_of {walk : Ctx → State → State × Tab (Nat × Nat)} {body : Ctx → CmdBody} (hi : ∀ s, exec i s = mxWord i s ctr chk k)
    (hc : ∀ c s, ok c s → chk c s = []) (hw : ∀ c s, ok c s → Flows s (walk c s).1)
    (hk : ∀ c s, ok c s → k c s = (walk c s).1.mxQueue c ctr (body c) (walk c s).2) : MxLaw i ctr ok walk body := by
  refine ⟨runs_mxWord hi hc fun s c _ ho => ?_, runs_mxWord_full hi, ?_⟩
  · have ha := State.mxQueue_added c ctr (body c) (walk c s).2 (walk c s).1
    rw [hk c s ho]
    exact ⟨(hw c s ho).trans (.of_pk ha.pk), ha⟩
  · cases ctr <;> exact runs_mxWord_idle hi

/-- The address of a command that reaches memory (R337). -/
theorem Ctx.base_eq (c : Ctx) (m : BitVec 6) (g : BitVec 3) :
    c.base m g = (c.kr g.toNat + (c.v m.toNat c.exLane).signExtend 64).toNat := by
  simp [Ctx.base, Ctx.addr]

end

section
variable {i : Instr} {ctr : BitVec 4} {chk : Ctx → State → List Finding} {ok : Ctx → State → Prop} {need : Nat}
  {base stride : Ctx → Nat} {body : Ctx → CmdBody}

/-- A word that, its checks passed, reaches memory (R339, R350). -/
theorem mxMemLaw_of
    (hi : ∀ s, exec i s = mxWord i s (some ctr) chk fun c s => s.mxMemory c ctr need (need - 1) (base c) (stride c) (body c))
    (hc : ∀ c s, ok c s → chk c s = []) : MxMemLaw i ctr ok need base stride body := by
  refine ⟨mxLaw_of hi ?_ ?_ ?_, ?_, ?_, ?_⟩
  · exact fun c s ho => hc c s ho.1
  · exact fun c s ⟨_, _, _, hg⟩ e => hg.2 ▸ e
  · rintro c s ⟨-, ha, hal, hg⟩
    rw [State.mxMemory, if_neg (by simp [ha]), if_neg (by simp [hal]), State.withGrans_of hg]
  · refine runs_mxWord hi (fun c s ho => hc c s ho.1) fun s c _ ⟨_, ha⟩ => ?_
    rw [State.mxMemory, if_pos ha]
    exact ⟨fun h => h, rfl⟩
  · refine runs_mxWord hi (fun c s ho => hc c s ho.1) fun s c _ ⟨_, ha, hal⟩ => ?_
    rw [State.mxMemory, if_neg (by simp [ha]), if_pos (by simp; omega)]
    exact ⟨State.takeTrap_stall, State.alignTrap_faults s c base⟩
  · refine runs_mxWord hi (fun c s ho => hc c s ho.1) fun s c _ ⟨_, ha, hal, hg⟩ => ?_
    rw [State.mxMemory, if_neg (by simp [ha]), if_neg (by simp [hal])]
    obtain ⟨x, hx, hr, e⟩ := State.withGrans_fails hg (need - 1) fun t s => s.mxQueue c (some ctr) (body c) t
    exact ⟨e ▸ fun h => hg.2 ▸ State.takeTrap_stall h, x, hx, hr, e⟩

end

end Sys2Proof.Machine
end

section
/-! PROOF. The words of major 12, one by one (R341 to R349; O28). -/

set_option Elab.async false

namespace Sys2Proof.Machine

variable {s : State} {c : Ctx}

/-! ## Claims (R174, R341) -/

/-- The answer of a word in a machine in which its lane group stands as before. -/
theorem State.up_setQ_predEff (h : s.ctx? = some c) {u : State} (hu : u.lgs = s.lgs) (p : Nat) (b : Bool) :
    PredEff (fun _ => 0xFFFFFFFF) p (fun _ => allQ b) c u (u.up c fun l => l.setQ p (allQ b)) := by
  obtain ⟨hg, hl, -, -⟩ := State.ctx?_spec h
  refine ⟨_, Lg.setQ_predWrite .., ?_⟩
  show ({ u with lgs := u.lgs.modify c.g _ } : State) = { u with lgs := u.lgs.put c.g _ }
  rw [Tab.modify_of_find _ (show u.lgs.find c.g = some c.lg by rw [hu, hg, hl])]

theorem State.claimOf_setClaim (s : State) (core bank : Nat) (tile : Bool) (n : Nat) (o : Option Nat) (pair : Bool) :
    (s.setClaim core bank tile n o pair).claimOf core bank tile n = o := by
  cases tile with
  | false => simp [State.claimOf, State.setClaim, State.slot, State.setSlot, State.core_modCore, Tab.getD_setD]
  | true => simp [State.claimOf, State.setClaim, State.tile, State.setTile, State.core_modCore, Tab.getD_setD]

theorem State.setClaim_frame (s : State) (core bank : Nat) (tile : Bool) (n : Nat) (o : Option Nat) (pair : Bool) :
    s.setClaim core bank tile n o pair = { s with cores := (s.setClaim core bank tile n o pair).cores } := by
  cases tile <;> rfl

/-- What a claim does with a resource: it takes a free one, marks its own as paired or not, has another bank's slot evicted, and answers 0
of another's. -/
def State.mxClaimed (s : State) (c : Ctx) (p : BitVec 3) (tile : Bool) (pair : Bool) (n : Nat) : State :=
  let set := fun (s : State) (b : Bool) => s.up c fun l => l.setQ p.toNat (allQ b)
  match s.claimOf c.core c.bank tile n with
  | none => set (s.setClaim c.core c.bank tile n (some c.lg.wg) pair) true
  | some o =>
    if o = c.lg.wg then
      let s := match s.relOf c.core o tile n with
        | some r => s.endCmd r
        | none => s
      set (s.mxQueue c none (.mxPair tile n pair)) true
    else if !tile && (((s.wgs.find o).map fun g => g.bank != c.bank).getD false) then
      (s.postOnce (.slotEvictionDone c.core n)).holdBack c
    else set s false

theorem exec_mxClaim (p : BitVec 3) (y w : BitVec 1) (n : BitVec 5) (s : State) : exec (.mxClaim p y w n) s =
    mxWord (.mxClaim p y w n) s none (fun _ _ => []) fun c s => s.mxClaimed c p (y = 1) (w = 1) n.toNat := rfl

section
variable {p : BitVec 3} {tile pair : Bool} {n : Nat}

theorem State.mxClaimed_free (h : s.claimOf c.core c.bank tile n = none) : s.mxClaimed c p tile pair n =
    (s.setClaim c.core c.bank tile n (some c.lg.wg) pair).up c fun l => l.setQ p.toNat (allQ true) := by
  rw [State.mxClaimed, h]

theorem State.mxClaimed_own (h : s.claimOf c.core c.bank tile n = some c.lg.wg) (hr : s.relOf c.core c.lg.wg tile n = none) :
    s.mxClaimed c p tile pair n = (s.mxQueue c none (.mxPair tile n pair)).up c fun l => l.setQ p.toNat (allQ true) := by
  rw [State.mxClaimed, h]
  dsimp only
  rw [if_pos rfl, hr]

theorem State.mxClaimed_other {o : Nat} (h : s.claimOf c.core c.bank tile n = some o) (ho : o ≠ c.lg.wg)
    (hb : tile = true ∨ ((s.wgs.find o).map (·.bank)).getD c.bank = c.bank) :
    s.mxClaimed c p tile pair n = s.up c fun l => l.setQ p.toNat (allQ false) := by
  have hf : (!tile && (((s.wgs.find o).map fun g => g.bank != c.bank).getD false)) = false := by
    obtain ht | hb := hb
    · simp [ht]
    · cases hw : s.wgs.find o with
      | none => simp
      | some g => simp_all
  rw [State.mxClaimed, h]
  dsimp only
  rw [if_neg ho, hf, if_neg Bool.false_ne_true]

theorem State.mxClaimed_evicts {o : Nat} {v : Wg} (h : s.claimOf c.core c.bank false n = some o) (ho : o ≠ c.lg.wg)
    (hv : s.wgs.find o = some v) (hb : v.bank ≠ c.bank) :
    s.mxClaimed c p false pair n = (s.postOnce (.slotEvictionDone c.core n)).holdBack c := by
  rw [State.mxClaimed, h]
  dsimp only
  rw [if_neg ho, hv, if_pos (by simpa using hb)]

end

theorem State.postOnce_holdBack_flows (s : State) (e : Ev) (c : Ctx) : Flows s ((s.postOnce e).holdBack c) := by
  unfold State.postOnce
  split <;> exact fun h => h

theorem runs_mxClaim_free (p : BitVec 3) (y w : BitVec 1) (n : BitVec 5) :
    Runs (.mxClaim p y w n) (fun c s => MxReady c s ∧ s.claimOf c.core c.bank (y = 1) n.toNat = none)
      (fun c s t => t.claimOf c.core c.bank (y = 1) n.toNat = some c.lg.wg ∧ PredEff (fun _ => 0xFFFFFFFF) p.toNat (fun _ => 0xFFFFFFFF) c
        (s.setClaim c.core c.bank (y = 1) n.toNat (some c.lg.wg) (w = 1)) t) := by
  refine runs_mxWord (exec_mxClaim p y w n) (fun _ _ _ => rfl) fun s c h hn => ?_
  have hframe := State.setClaim_frame s c.core c.bank (y = 1) n.toNat (some c.lg.wg) (w = 1)
  rw [State.mxClaimed_free hn]
  exact ⟨.of_pk (congrArg State.pk hframe :), State.claimOf_setClaim .., State.up_setQ_predEff h (congrArg State.lgs hframe :) p.toNat true⟩

theorem runs_mxClaim_own (p : BitVec 3) (y w : BitVec 1) (n : BitVec 5) :
    Runs (.mxClaim p y w n) (fun c s => MxReady c s ∧ s.claimOf c.core c.bank (y = 1) n.toNat = some c.lg.wg ∧
        s.relOf c.core c.lg.wg (y = 1) n.toNat = none)
      (fun c s t => ∃ u, MxAdded none (.mxPair (y = 1) n.toNat (w = 1)) [] c s u ∧
        PredEff (fun _ => 0xFFFFFFFF) p.toNat (fun _ => 0xFFFFFFFF) c u t) := by
  refine runs_mxWord (exec_mxClaim p y w n) (fun _ _ _ => rfl) fun s c h ⟨ho, hr⟩ => ?_
  have ha := State.mxQueue_added c none (.mxPair (y = 1) n.toNat (w = 1)) [] s
  rw [State.mxClaimed_own ho hr]
  exact ⟨.of_pk ha.pk, _, ha, State.up_setQ_predEff h ha.lgs p.toNat true⟩

theorem runs_mxClaim_other (p : BitVec 3) (y w : BitVec 1) (n : BitVec 5) :
    Runs (.mxClaim p y w n) (fun c s => MxReady c s ∧ ∃ o, s.claimOf c.core c.bank (y = 1) n.toNat = some o ∧ o ≠ c.lg.wg ∧
        (y = 1 ∨ ((s.wgs.find o).map (·.bank)).getD c.bank = c.bank))
      (PredEff (fun _ => 0xFFFFFFFF) p.toNat fun _ => 0) := by
  refine runs_mxWord (exec_mxClaim p y w n) (fun _ _ _ => rfl) fun s c h ⟨o, ho, hne, hb⟩ => ?_
  rw [State.mxClaimed_other ho hne (by simpa using hb)]
  exact ⟨fun h => h, State.up_setQ_predEff h rfl p.toNat false⟩

theorem runs_mxClaim_evicts (p : BitVec 3) (y w : BitVec 1) (n : BitVec 5) :
    Runs (.mxClaim p y w n) (fun c s => MxReady c s ∧ y = 0 ∧ ∃ o v, s.claimOf c.core c.bank (y = 1) n.toNat = some o ∧ o ≠ c.lg.wg ∧
        s.wgs.find o = some v ∧ v.bank ≠ c.bank)
      (fun c s t => t = (s.postOnce (.slotEvictionDone c.core n.toNat)).holdBack c) := by
  refine runs_mxWord (exec_mxClaim p y w n) (fun _ _ _ => rfl) fun s c _ ⟨hy, o, v, ho, hne, hv, hb⟩ => ?_
  subst hy
  rw [show decide ((0 : BitVec 1) = 1) = false from rfl] at ho ⊢
  rw [State.mxClaimed_evicts ho hne hv hb]
  exact ⟨State.postOnce_holdBack_flows _ _ _, rfl⟩

/-! ## Words without addresses -/

/-- A word whose one check is that it holds a resource. -/
theorem holds_word {i : Instr} {ctr : Option (BitVec 4)} {tile : Bool} {n : Nat} {walk : Ctx → State → State} {body : Ctx → CmdBody}
    (hi : ∀ s, exec i s = mxWord i s ctr (fun c s => c.exF (!c.holds s tile n) .slot) fun c s => (walk c s).mxQueue c ctr (body c))
    (hw : ∀ c s, Flows s (walk c s)) :
    MxLaw i ctr (fun c s => c.holds s tile n = true) (fun c s => (walk c s, [])) body ∧
      Runs i (fun c s => MxReady c s ∧ c.holds s tile n = false) (Raises .slot (Cause.rank .slot) Ctx.exMask) :=
  ⟨mxLaw_of hi (fun _ _ h => Ctx.exF_nil _ (by rw [h]; rfl)) (fun c s _ => hw c s) fun _ _ _ => rfl,
    runs_mxWord_raises hi fun c s h => by rw [Ctx.exF_of _ (by rw [h]; rfl)]; rfl⟩

theorem mxRec_law (n r : BitVec 5) :
    MxLaw (.mxRec n r) none (fun c s => c.holds s false n.toNat = true ∧ recCause (c.kr r.toNat) = .none) (fun _ s => (s, []))
      (fun c => .mxRec n.toNat (c.kr r.toNat)) ∧
    Runs (.mxRec n r) (fun c s => MxReady c s ∧ recCause (c.kr r.toNat) = .illegal) (Raises .illegal 6 Ctx.exMask) ∧
    Runs (.mxRec n r) (fun c s => MxReady c s ∧ recCause (c.kr r.toNat) ≠ .illegal ∧ c.holds s false n.toNat = false)
      (Raises .slot (Cause.rank .slot) Ctx.exMask) ∧
    Runs (.mxRec n r) (fun c s => MxReady c s ∧ recCause (c.kr r.toNat) = .fmt ∧ c.holds s false n.toNat = true)
      (Raises .fmt (Cause.rank .fmt) Ctx.exMask) := by
  have hi : ∀ s, exec (.mxRec n r) s = mxWord (.mxRec n r) s none (fun c s => c.exIll (recCause (c.kr r.toNat) == .illegal) ++
      c.exF (!c.holds s false n.toNat) .slot ++ c.exF (recCause (c.kr r.toNat) == .fmt) .fmt)
      fun c s => s.mxQueue c none (.mxRec n.toNat (c.kr r.toNat)) := fun _ => rfl
  refine ⟨mxLaw_of hi (fun c s ⟨hh, hk⟩ => ?_) (fun _ _ _ h => h) fun _ _ _ => rfl, runs_mxWord_raises hi fun c s hk => ?_,
    runs_mxWord_raises hi fun c s ⟨hk, hh⟩ => ?_, runs_mxWord_raises hi fun c s ⟨hk, hh⟩ => ?_⟩
  · rw [hh, hk]; rfl
  · rw [hk]; exact Ctx.best_illegal ..
  · rw [hh, Ctx.exIll_nil (by simpa using hk)]; exact Ctx.best_slot _
  · rw [hh, hk]; rfl

theorem mxLdb_law (w : BitVec 1) (x n : BitVec 5) (ctr h : BitVec 4) :
    MxLaw (.mxLdb w x n ctr h) (some ctr) (fun c s => ldbBad c.core (w = 1) x.toNat = false ∧ c.holds s false n.toNat = true)
      (fun _ s => (s, [])) (fun _ => .mxLdb n.toNat (w = 1) x.toNat h.toNat none) ∧
    Runs (.mxLdb w x n ctr h) (fun c s => MxReady c s ∧ ldbBad c.core (w = 1) x.toNat = true) (Raises .illegal 6 Ctx.exMask) ∧
    Runs (.mxLdb w x n ctr h) (fun c s => MxReady c s ∧ ldbBad c.core (w = 1) x.toNat = false ∧ c.holds s false n.toNat = false)
      (Raises .slot (Cause.rank .slot) Ctx.exMask) := by
  have hi : ∀ s, exec (.mxLdb w x n ctr h) s = mxWord (.mxLdb w x n ctr h) s (some ctr)
      (fun c s => c.exIll (ldbBad c.core (w = 1) x.toNat) ++ c.exF (!c.holds s false n.toNat) .slot)
      fun c s => s.mxQueue c (some ctr) (.mxLdb n.toNat (w = 1) x.toNat h.toNat none) := fun _ => rfl
  refine ⟨mxLaw_of hi (fun c s ⟨hb, hh⟩ => ?_) (fun _ _ _ h => h) fun _ _ _ => rfl, runs_mxWord_raises hi fun c s hb => ?_,
    runs_mxWord_raises hi fun c s ⟨hb, hh⟩ => ?_⟩
  · rw [hb, hh]; rfl
  · rw [hb]; exact (congrArg bestFinding (List.append_nil _).symm).trans (Ctx.best_illegal _ false)
  · rw [hb, hh]; rfl

/-! ## Products (R171, R345, R346) -/

/-- What a product needs: both slots and the tile. -/
def Ctx.holdsAll (c : Ctx) (s : State) (a b t : Nat) : Prop := c.holds s false a = true ∧ c.holds s false b = true ∧ c.holds s true t = true

/-- What a product does not hold comes before records that do not go together. -/
theorem Ctx.productF_slot {a b t : Nat} (h : ¬ c.holdsAll s a b t) :
    bestFinding (c.productF s a b t) = some ⟨Cause.rank .slot, .slot, c.exMask⟩ := by
  have hb : (!(c.holds s false a && c.holds s false b && c.holds s true t)) = true := by
    rw [Bool.not_eq_true']
    exact Bool.eq_false_iff.mpr fun e => h (by simpa [Ctx.holdsAll, and_assoc] using e)
  rw [Ctx.productF, hb]
  exact Ctx.best_slot _

theorem Ctx.productF_fmt {a b t : Nat} (h : c.holdsAll s a b t) (hf : c.productF s a b t ≠ []) :
    bestFinding (c.productF s a b t) = some ⟨Cause.rank .fmt, .fmt, c.exMask⟩ := by
  obtain ⟨ha, hb, ht⟩ := h
  rw [Ctx.productF] at hf ⊢
  rw [ha, hb, ht] at hf ⊢
  generalize fmtBad _ _ _ = bad at hf ⊢
  cases bad with
  | false => exact absurd rfl hf
  | true => rfl

/-- A product that the governor admits joins the queue; one that it does not is held; one that its operands refuse raises why. -/
theorem product_law {i : Instr} {ctr : BitVec 4} {cost a b t : Nat} {body : CmdBody} {bad : Ctx → Bool} {ok : Ctx → Prop}
    (hi : ∀ s, exec i s = mxWord i s (some ctr) (fun c s => c.exIll (bad c) ++ c.productF s a b t) fun c s => s.product c ctr cost body)
    (hok : ∀ c, ok c → bad c = false) :
    MxLaw i (some ctr) (fun c s => ok c ∧ c.productF s a b t = [] ∧ (s.govern c cost).2 = true) (fun c s => ((s.govern c cost).1, []))
      (fun _ => body) ∧
    Runs i (fun c s => MxReady c s ∧ ok c ∧ c.productF s a b t = [] ∧ (s.govern c cost).2 = false)
      (fun c s t => t = (s.govern c cost).1.holdBack c) ∧
    Runs i (fun c s => MxReady c s ∧ ok c ∧ ¬ c.holdsAll s a b t) (Raises .slot (Cause.rank .slot) Ctx.exMask) ∧
    Runs i (fun c s => MxReady c s ∧ ok c ∧ c.holdsAll s a b t ∧ ¬ c.productF s a b t = []) (Raises .fmt (Cause.rank .fmt) Ctx.exMask) := by
  have hlegal : ∀ c s, ok c → c.exIll (bad c) ++ c.productF s a b t = c.productF s a b t := fun c s ho => by
    rw [Ctx.exIll_nil (hok c ho), List.nil_append]
  refine ⟨mxLaw_of hi ?_ ?_ ?_, runs_mxWord hi ?_ ?_, runs_mxWord_raises hi ?_, runs_mxWord_raises hi ?_⟩
  · exact fun c s ⟨ho, hg, _⟩ => (hlegal c s ho).trans hg
  · exact fun c s _ => .of_pk (State.govern_pk ..)
  · intro c s ⟨_, _, ha⟩
    rw [State.product, show s.govern c cost = ((s.govern c cost).1, true) from Prod.ext rfl ha]
  · exact fun c s ⟨ho, hg, _⟩ => (hlegal c s ho).trans hg
  · intro s c _ ⟨_, _, ha⟩
    rw [State.product, show s.govern c cost = ((s.govern c cost).1, false) from Prod.ext rfl ha]
    exact ⟨fun h => Flows.of_pk (State.govern_pk s c cost) h, rfl⟩
  · exact fun c s ⟨ho, hn⟩ => (hlegal c s ho).symm ▸ Ctx.productF_slot hn
  · exact fun c s ⟨ho, ha, hf⟩ => (hlegal c s ho).symm ▸ Ctx.productF_fmt ha hf

theorem exec_mxPmma (u v : BitVec 5) (ctr t : BitVec 4) (s : State) : exec (.mxPmma u v ctr t) s = mxWord (.mxPmma u v ctr t) s (some ctr)
    (fun c s => c.exIll (coreX c.core % 4 == 3) ++ c.productF s v.toNat u.toNat t.toNat)
    fun c s => s.product c ctr 2 (.mxPmma t.toNat v.toNat u.toNat) := rfl

theorem mxPmma_illegal (u v : BitVec 5) (ctr t : BitVec 4) :
    Runs (.mxPmma u v ctr t) (fun c s => MxReady c s ∧ coreX c.core % 4 = 3) (Raises .illegal 6 Ctx.exMask) := by
  refine runs_mxWord_raises (exec_mxPmma u v ctr t) fun c s hx => ?_
  rw [Ctx.productF, show (coreX c.core % 4 == 3) = true by simp [hx], ← List.append_assoc]
  exact Ctx.best_illegal ..

/-! ## Loads and drains (R343, R348) -/

theorem mxLd_law (m : BitVec 6) (n : BitVec 5) (g : BitVec 3) (ctr : BitVec 4) :
    MxMemLaw (.mxLd m n g ctr) ctr (fun c s => c.ExOk m.toNat ∧ c.ExOk (m.toNat + 1) ∧ c.holds s false n.toNat = true) 1
      (fun c => c.base m g) (fun c => (c.v (m.toNat + 1) c.exLane).toNat)
      (fun c => .mxLd n.toNat (c.base m g) (c.v (m.toNat + 1) c.exLane).toNat false) ∧
    Runs (.mxLd m n g ctr) (fun c s => MxReady c s ∧ c.ExOk m.toNat ∧ c.ExOk (m.toNat + 1) ∧ c.holds s false n.toNat = false)
      (Raises .slot (Cause.rank .slot) Ctx.exMask) := by
  have hi : ∀ s, exec (.mxLd m n g ctr) s = mxWord (.mxLd m n g ctr) s (some ctr)
      (fun c s => c.exReg [m.toNat, m.toNat + 1] ++ c.exF (!c.holds s false n.toNat) .slot) fun c s =>
        s.mxMemory c ctr 1 0 (c.base m g) (c.v (m.toNat + 1) c.exLane).toNat
          (.mxLd n.toNat (c.base m g) (c.v (m.toNat + 1) c.exLane).toNat false) := fun _ => rfl
  refine ⟨mxMemLaw_of hi fun c s ⟨h0, h1, hh⟩ => ?_, runs_mxWord_raises hi fun c s ⟨h0, h1, hh⟩ => ?_⟩
  · rw [Ctx.exReg_two h0 h1, hh]; rfl
  · rw [Ctx.exReg_two h0 h1, hh]; rfl

theorem mxLdS_law (m : BitVec 6) (n : BitVec 5) (g : BitVec 3) (ctr : BitVec 4) :
    MxMemLaw (.mxLdS m n g ctr) ctr (fun c s => c.ExOk m.toNat ∧ c.holds s false n.toNat = true) 1 (fun c => c.base m g) (fun _ => 0)
      (fun c => .mxLd n.toNat (c.base m g) 0 true) ∧
    Runs (.mxLdS m n g ctr) (fun c s => MxReady c s ∧ c.ExOk m.toNat ∧ c.holds s false n.toNat = false)
      (Raises .slot (Cause.rank .slot) Ctx.exMask) := by
  have hi : ∀ s, exec (.mxLdS m n g ctr) s = mxWord (.mxLdS m n g ctr) s (some ctr)
      (fun c s => c.exReg [m.toNat] ++ c.exF (!c.holds s false n.toNat) .slot) fun c s =>
        s.mxMemory c ctr 1 0 (c.base m g) 0 (.mxLd n.toNat (c.base m g) 0 true) := fun _ => rfl
  refine ⟨mxMemLaw_of hi fun c s ⟨h0, hh⟩ => ?_, runs_mxWord_raises hi fun c s ⟨h0, hh⟩ => ?_⟩
  · rw [Ctx.exReg_one h0, hh]; rfl
  · rw [Ctx.exReg_one h0, hh]; rfl

theorem mxDrain_law (m : BitVec 6) (w : BitVec 5) (g : BitVec 3) (ctr t : BitVec 4) :
    let regs := fun (c : Ctx) => c.ExOk m.toNat ∧ c.ExOk (m.toNat + 1)
    let form := fun (c : Ctx) => bits (c.kr w.toNat) 32 3 ≤ 5 ∧ bits (c.kr w.toNat) 35 2 ≠ 3
    let stride := fun (c : Ctx) => (c.v (m.toNat + 1) c.exLane).toNat
    MxMemLaw (.mxDrain m w g ctr t) ctr (fun c s => regs c ∧ c.holds s true t.toNat = true ∧ bits (c.kr w.toNat) 38 26 = 0 ∧ form c) 2
      (fun c => c.base m g) stride (fun c => .mxDrain t.toNat (c.base m g) (stride c) (c.kr w.toNat)) ∧
    Runs (.mxDrain m w g ctr t) (fun c s => MxReady c s ∧ regs c ∧ bits (c.kr w.toNat) 38 26 ≠ 0) (Raises .illegal 6 Ctx.exMask) ∧
    Runs (.mxDrain m w g ctr t) (fun c s => MxReady c s ∧ regs c ∧ bits (c.kr w.toNat) 38 26 = 0 ∧ c.holds s true t.toNat = false)
      (Raises .slot (Cause.rank .slot) Ctx.exMask) ∧
    Runs (.mxDrain m w g ctr t) (fun c s => MxReady c s ∧ regs c ∧ bits (c.kr w.toNat) 38 26 = 0 ∧ c.holds s true t.toNat = true ∧ ¬ form c)
      (Raises .fmt (Cause.rank .fmt) Ctx.exMask) := by
  intro regs form stride
  have hform : ∀ c, (decide (5 < bits (c.kr w.toNat) 32 3) || bits (c.kr w.toNat) 35 2 == 3) = true ↔ ¬ form c := fun c => by
    simp [form, imp_iff_not_or]
  have hi : ∀ s, exec (.mxDrain m w g ctr t) s = mxWord (.mxDrain m w g ctr t) s (some ctr)
      (fun c s => c.exReg [m.toNat, m.toNat + 1] ++ c.exIll (bits (c.kr w.toNat) 38 26 != 0) ++ c.exF (!c.holds s true t.toNat) .slot ++
        c.exF (decide (5 < bits (c.kr w.toNat) 32 3) || bits (c.kr w.toNat) 35 2 == 3) .fmt)
      fun c s => s.mxMemory c ctr 2 1 (c.base m g) (stride c) (.mxDrain t.toNat (c.base m g) (stride c) (c.kr w.toNat)) := fun _ => rfl
  refine ⟨mxMemLaw_of hi fun c s ⟨hr, hh, hz, hf⟩ => ?_, runs_mxWord_raises hi fun c s ⟨hr, hz⟩ => ?_,
    runs_mxWord_raises hi fun c s ⟨hr, hz, hh⟩ => ?_, runs_mxWord_raises hi fun c s ⟨hr, hz, hh, hf⟩ => ?_⟩
  · rw [Ctx.exReg_two hr.1 hr.2, hz, hh, Bool.eq_false_iff.mpr fun e => (hform c).mp e hf]; rfl
  · rw [Ctx.exReg_two hr.1 hr.2, show (bits (c.kr w.toNat) 38 26 != 0) = true by simpa using hz]
    exact Ctx.best_illegal ..
  · rw [Ctx.exReg_two hr.1 hr.2, hz, hh]
    exact Ctx.best_slot _
  · rw [Ctx.exReg_two hr.1 hr.2, hz, hh, (hform c).mpr hf]; rfl

/-- Settles O28, word by word: each by what its checks find, and by what it does once they find nothing. -/
theorem matrixWords : Obligations.MatrixWords := by
  unfold Obligations.MatrixWords
  refine ⟨fun p y w n => ⟨runs_mxClaim_free p y w n, runs_mxClaim_own p y w n, runs_mxClaim_other p y w n, runs_mxClaim_evicts p y w n,
      runs_mxWord_full (exec_mxClaim p y w n), runs_mxWord_idle (exec_mxClaim p y w n)⟩, fun y n => ?_, mxRec_law,
    fun m n g ctr => ?_, mxLdb_law, fun u v ctr t => ?_, fun ctr t => ?_, fun m w g ctr t => ?_, fun d ctr t => ?_⟩
  · refine holds_word (i := .mxRel y n) (walk := fun c s => if y = 1 then s else s.withdrawLdb c.core c.lg.wg n.toNat) (fun _ => rfl)
      fun c s => ?_
    split
    · exact fun h => h
    · exact State.withdrawLdb_flows _ _ _ _
  · simp only [← Ctx.base_eq]
    obtain ⟨hld, hlds⟩ := mxLd_law m n g ctr
    exact ⟨hld, hlds, mxLdS_law m n g ctr⟩
  · refine ⟨product_law (bad := fun _ => false) (fun _ => rfl) fun _ _ => rfl,
      product_law (exec_mxPmma u v ctr t) fun c hx => by simpa using hx, mxPmma_illegal u v ctr t⟩
  · exact holds_word (i := .mxZero ctr t) (walk := fun _ s => s) (fun _ => rfl) fun _ _ h => h
  · simp only [← Ctx.base_eq]
    exact mxDrain_law m w g ctr t
  · exact holds_word (i := .mxChk d ctr t) (walk := fun _ s => s) (fun _ => rfl) fun _ _ h => h

end Sys2Proof.Machine
end

section
/-! PROOF. What the words of major 13 do at issue (R194, R205, R207, R351 to R360; O29): each meets the queue, the active lanes and the array's
context, then its findings, then joins the array's queue, is held, or answers. -/

set_option Elab.async false

namespace Sys2Proof.Machine

variable {s : State} {c : Ctx}

/-! ## Joining the array's queue -/

theorem State.saQueue_added (c : Ctx) (ctr : BitVec 4) (body : CmdBody) (gran : Tab (Nat × Nat)) (q : Option Nat) (u : State) :
    SaAdded ctr.toNat body gran q c u (u.saQueue c ctr body gran q) := by
  have hcore : ∀ k, (u.saQueue c ctr body gran q).core k =
      if k = c.core then { u.core c.core with saq := (u.core c.core).saq ++ [u.nseq] } else u.core k := fun k => State.core_modCore ..
  have hself : (u.saQueue c ctr body gran q).cmds.find u.nseq = some { c.cmd u (some ctr.toNat) body with gran := gran, q := q } :=
    Tab.find_put_self ..
  refine { cmd := ⟨_, hself, rfl, rfl, rfl, rfl, rfl, rfl⟩, gran := by rw [hself, Option.map_some], queue := fun k => ?_,
           others := fun id hid => Tab.find_put_other _ _ hid, core := fun k => ?_, rest := rfl }
  · rw [hcore]
    split
    · next h => rw [h]
    · rfl
  · rw [hcore]
    split
    · next h => rw [h]
    · rfl

theorem SaAdded.lgs {ctr : Nat} {body : CmdBody} {gran : Tab (Nat × Nat)} {q : Option Nat} {u t : State}
    (h : SaAdded ctr body gran q c u t) : t.lgs = u.lgs := (congrArg State.lgs h.rest :)

theorem SaAdded.pk {ctr : Nat} {body : CmdBody} {gran : Tab (Nat × Nat)} {q : Option Nat} {u t : State}
    (h : SaAdded ctr body gran q c u t) : t.pk = u.pk := (congrArg State.pk h.rest :)

/-- The translations of an image and of its completion counter all stand: its command goes on under their addresses (R339). -/
theorem State.withImage_of {need : Nat} {ps : List (Nat × Nat)} {q : Option Nat} (h : ImageOk c s need ps q)
    (k : Tab (Nat × Nat) → State → State) :
    s.withImage c need ps q k = k (ImageWalked c s need ps q).2 (ImageWalked c s need ps q).1 := by
  obtain ⟨h1, h2, -, -⟩ := h
  have hall := fun a ha => (List.mem_append.mp ha).elim (h1 a) (h2 a)
  unfold State.withImage
  dsimp only
  rw [State.replayTrap_none]
  · cases q <;> rfl
  · cases q <;> exact hall

/-! ## Records and events -/

theorem State.gateRec_flows (s : State) (part vf core wgs lgn fpc info : Nat) (tenant : Bool) :
    Flows s (s.gateRec part vf core wgs lgn fpc info tenant) := by
  unfold State.gateRec
  extract_lets r s1
  have h1 : Flows s s1 := State.mgrRec_stall
  split
  · exact h1.trans (State.tenantRec_flows _ _ _)
  · exact h1

/-- An event that is queued once changes what is pending alone. -/
theorem State.postOnce_frame (s : State) (e : Ev) : s.postOnce e = { s with pending := (s.postOnce e).pending } := by
  unfold State.postOnce
  split <;> rfl

/-! ## The outcome of a sampling word -/

/-- Illegal operands of one word are one finding (R7). -/
theorem Ctx.best_illegals (b : Bool) : bestFinding (c.exIll true ++ c.exIll b) = some ⟨6, .illegal, c.exMask⟩ := by
  cases b with
  | false => rfl
  | true => simp [Ctx.exIll, bestFinding]

/-- A refused configuration comes before a locked array (R7, R446). -/
theorem Ctx.best_illegal_bias (b : Bool) : bestFinding (c.exIll true ++ c.exF b .bias) = some ⟨6, .illegal, c.exMask⟩ := by
  cases b <;> rfl

section
variable {i : Instr} {ctr : BitVec 4} {queued needs : Bool} {chk : Ctx → State → List Finding} {k : Ctx → State → State}

/-- A full queue holds the word (R205). -/
theorem exec_saWord_full (hi : ∀ s, exec i s = saWord i s ctr queued needs chk k) (h : s.ctx? = some c) (hw : wellFormed i = true)
    (hr : (queued && s.saFull c.core c.bank) = true) : exec i s = .next (s.holdBack c) :=
  (hi s).trans (memWord_of h hw (if_pos hr) rfl)

/-- With no active lane it only counts (R205). -/
theorem exec_saWord_idle (hi : ∀ s, exec i s = saWord i s ctr queued needs chk k) (h : s.ctx? = some c) (hw : wellFormed i = true)
    (hr : (queued && s.saFull c.core c.bank) = false) (he : c.em = 0) : exec i s = .next (s.addCtr c.g ctr.toNat 1) :=
  (hi s).trans (memWord_of h hw ((if_neg (Bool.eq_false_iff.mp hr)).trans (if_pos he)) rfl)

/-- Another context's array is evicted first (R168). -/
theorem exec_saWord_evicts (hi : ∀ s, exec i s = saWord i s ctr queued needs chk k) (h : s.ctx? = some c) (hw : wellFormed i = true)
    (hr : (queued && s.saFull c.core c.bank) = false) (he : c.em ≠ 0) (hf : (needs && s.arrForeign c.core c.bank) = true) :
    exec i s = .next ((s.postOnce (.arrayEvictionDone c.core)).holdBack c) :=
  (hi s).trans (memWord_flows h hw ((if_neg (Bool.eq_false_iff.mp hr)).trans ((if_neg he).trans (if_pos hf)))
    (State.postOnce_holdBack_flows _ _ _))

/-- Else its checks say whether it goes on. -/
theorem exec_saWord (hi : ∀ s, exec i s = saWord i s ctr queued needs chk k) (h : s.ctx? = some c) (hw : wellFormed i = true)
    (hr : (queued && s.saFull c.core c.bank) = false) (he : c.em ≠ 0) (hf : (needs && s.arrForeign c.core c.bank) = false) {t : State}
    (ht : s.checked c (c.exIll (needs && !s.holdsArr c.core c.lg.wg) ++ chk c s) (k c) = t) (hu : Flows s t) : exec i s = .next t :=
  (hi s).trans (memWord_flows h hw
    ((if_neg (Bool.eq_false_iff.mp hr)).trans ((if_neg he).trans ((if_neg (Bool.eq_false_iff.mp hf)).trans ht))) hu)

end

/-- The array is the workgroup's, some lane is active, and the queue has room for a word that joins it. -/
def SaOpen (queued : Bool) (c : Ctx) (s : State) : Prop :=
  (queued && s.saFull c.core c.bank) = false ∧ c.em ≠ 0 ∧ s.arrForeign c.core c.bank = false ∧ s.holdsArr c.core c.lg.wg = true

theorem SaReady.saOpen (h : SaReady c s) : SaOpen true c s := ⟨by simpa using h.1, h.2⟩

/-- A word of the array reads registers in its executing lane and may find its operands illegal, nothing else. -/
def IsSaWord (i : Instr) (ctr : BitVec 4) (queued : Bool) (regs : List Nat) (bad : Ctx → Bool) (k : Ctx → State → State) : Prop :=
  ∀ s, exec i s = saWord i s ctr queued true (fun c _ => c.exReg regs ++ c.exIll (bad c)) k

section
variable {i : Instr} {ctr : BitVec 4} {queued : Bool} {regs : List Nat} {bad : Ctx → Bool} {k : Ctx → State → State}
  {ok : Ctx → State → Prop} {eff : Ctx → State → State → Prop}

theorem IsSaWord.gate (hi : IsSaWord i ctr queued regs bad k) : SaGate i ctr queued regs := by
  have room : ∀ {c : Ctx} {s : State}, (queued = true → s.saFull c.core c.bank = false) →
      (queued && s.saFull c.core c.bank) = false := fun h => by simpa using h
  refine ⟨fun s c h hw hr => ?full, fun s c h hw ⟨hr, he⟩ => ?idle, fun s c h hw ⟨hr, he, hf⟩ => ?evicts,
    fun s c h hw ⟨hr, he, hf, hh, hx⟩ => ?without⟩
  case full => exact ⟨_, exec_saWord_full hi h hw (by simpa using hr), rfl⟩
  case idle => exact ⟨_, exec_saWord_idle hi h hw (room hr) he, rfl⟩
  case evicts => exact ⟨_, exec_saWord_evicts hi h hw (room hr) he hf, rfl⟩
  case without =>
    refine ⟨_, exec_saWord hi h hw (room hr) he hf ?_ State.takeTrap_stall, rfl⟩
    rw [Ctx.exReg_nil hx, hh, List.nil_append, Bool.not_false, Bool.and_self, State.checked, Ctx.best_illegals]

/-- What its checks find, once the array is the workgroup's and its registers pass their codes. -/
theorem IsSaWord.exec_next (hi : IsSaWord i ctr queued regs bad k) (h : s.ctx? = some c) (hw : wellFormed i = true) (hr : SaOpen queued c s)
    (hx : ∀ r ∈ regs, c.ExOk r) {t : State} (ht : s.checked c (c.exIll (bad c)) (k c) = t) (hu : Flows s t) :
    exec i s = .next t := by
  obtain ⟨hroom, he, hf, hh⟩ := hr
  refine exec_saWord hi h hw hroom he hf ?_ hu
  rw [Ctx.exReg_nil hx, hh, List.nil_append]
  exact ht

/-- With nothing found, the word goes on. -/
theorem IsSaWord.runs (hi : IsSaWord i ctr queued regs bad k)
    (ho : ∀ c s, ok c s → SaOpen queued c s ∧ (∀ r ∈ regs, c.ExOk r) ∧ bad c = false)
    (hk : ∀ s c, s.ctx? = some c → ok c s → Flows s (k c s) ∧ eff c s (k c s)) : Runs i ok eff := by
  intro s c h hw hs
  obtain ⟨hr, hx, hb⟩ := ho c s hs
  obtain ⟨hf, he⟩ := hk s c h hs
  exact ⟨_, hi.exec_next h hw hr hx (State.checked_ok hb _) hf, he⟩

/-- An operand that its rule refuses is illegal. -/
theorem IsSaWord.illegal (hi : IsSaWord i ctr queued regs bad k)
    (ho : ∀ c s, ok c s → SaOpen queued c s ∧ (∀ r ∈ regs, c.ExOk r) ∧ bad c = true) : Runs i ok (Raises .illegal 6 Ctx.exMask) := by
  intro s c h hw hs
  obtain ⟨hr, hx, hb⟩ := ho c s hs
  exact ⟨_, hi.exec_next h hw hr hx (State.checked_illegal hb (k c)) State.takeTrap_stall, rfl⟩

/-- A word that, its checks passed, joins the queue of the state that `walk` gives. -/
theorem IsSaWord.law {walk : Ctx → State → State × Tab (Nat × Nat)} {q : Ctx → Option Nat} {body : Ctx → CmdBody}
    (hi : IsSaWord i ctr true regs bad k) (hb : ∀ c s, ok c s → bad c = false) (hw : ∀ c s, ok c s → Flows s (walk c s).1)
    (hk : ∀ c s, ok c s → k c s = (walk c s).1.saQueue c ctr (body c) (walk c s).2 (q c)) : SaLaw i ctr regs ok walk q body := by
  refine ⟨hi.runs (fun c s ⟨hr, hx, ho⟩ => ⟨hr.saOpen, hx, hb c s ho⟩) fun s c _ ⟨_, _, ho⟩ => ?_, hi.gate⟩
  have ha := State.saQueue_added c ctr (body c) (walk c s).2 (q c) (walk c s).1
  rw [hk c s ho]
  exact ⟨(hw c s ho).trans (.of_pk ha.pk), ha⟩

/-- The same where it joins the queue of the state as it is. -/
theorem IsSaWord.law_here {body : Ctx → CmdBody} (hi : IsSaWord i ctr true regs bad k) (hb : ∀ c s, ok c s → bad c = false)
    (hk : ∀ c s, ok c s → k c s = s.saQueue c ctr (body c)) : SaLaw i ctr regs ok (fun _ s => (s, [])) (fun _ => none) body :=
  hi.law hb (fun _ _ _ h => h) hk

end

/-! ## Configurations (R194, R353, R446) -/

/-- The eviction of another context's array is asked for, where the array holds one (R168). -/
def State.saFrom (s : State) (c : Ctx) : State := if s.arrForeign c.core c.bank then s.postOnce (.arrayEvictionDone c.core) else s

theorem State.saFrom_frame (s : State) (c : Ctx) : s.saFrom c = { s with pending := (s.saFrom c).pending } := by
  unfold State.saFrom
  split
  · exact State.postOnce_frame ..
  · rfl

/-- What `sa.cfg` does once its checks find nothing. -/
def State.configured (s : State) (c : Ctx) (o r : BitVec 5) (p : BitVec 3) (ctr : BitVec 4) : State :=
  if s.arrTaken c.core c.lg.wg c.bank then (s.up c fun l => l.setQ p.toNat (allQ false)).addCtr c.g ctr.toNat 1
  else ((s.saFrom c).saQueue c ctr (.saCfg (c.kr r.toNat) (c.kr o.toNat) (!(s.saFrom c).holdsArr c.core c.lg.wg))).up c fun l =>
    l.setQ p.toNat (allQ true)

section
variable {o r : BitVec 5} {p : BitVec 3} {ctr : BitVec 4}

theorem exec_saCfg (o r : BitVec 5) (p : BitVec 3) (ctr : BitVec 4) (s : State) : exec (.saCfg o r p ctr) s =
    saWord (.saCfg o r p ctr) s ctr true false
      (fun c s => c.exIll (cfgBad (c.kr r.toNat) (c.kr o.toNat)) ++
        c.exF (!s.arrTaken c.core c.lg.wg c.bank && !cfgGrey (c.kr r.toNat) && (s.core c.core).mon.lockout) .bias)
      fun c s => s.configured c o r p ctr := rfl

/-- `sa.cfg` meets the queue and the active lanes, and its findings say whether it goes on. -/
theorem exec_saCfg_checked (h : s.ctx? = some c) (hw : wellFormed (.saCfg o r p ctr) = true) (hq : s.saFull c.core c.bank = false)
    (he : c.em ≠ 0) {t : State} (ht : s.checked c (c.exIll (cfgBad (c.kr r.toNat) (c.kr o.toNat)) ++
      c.exF (!s.arrTaken c.core c.lg.wg c.bank && !cfgGrey (c.kr r.toNat) && (s.core c.core).mon.lockout) .bias)
      (fun s => s.configured c o r p ctr) = t) (hu : Flows s t) : exec (.saCfg o r p ctr) s = .next t :=
  exec_saWord (exec_saCfg o r p ctr) h hw (by rw [hq]; rfl) he rfl ht hu

theorem State.configured_free (h : s.arrTaken c.core c.lg.wg c.bank = false) : s.configured c o r p ctr =
    ((s.saFrom c).saQueue c ctr (.saCfg (c.kr r.toNat) (c.kr o.toNat) (!(s.saFrom c).holdsArr c.core c.lg.wg))).up c fun l =>
      l.setQ p.toNat (allQ true) := if_neg (by simp [h])

theorem State.configured_taken (h : s.arrTaken c.core c.lg.wg c.bank = true) :
    s.configured c o r p ctr = (s.up c fun l => l.setQ p.toNat (allQ false)).addCtr c.g ctr.toNat 1 := if_pos h

theorem runs_saCfg_joins (o r : BitVec 5) (p : BitVec 3) (ctr : BitVec 4) :
    Runs (.saCfg o r p ctr) (fun c s => (s.saFull c.core c.bank = false ∧ c.em ≠ 0) ∧ cfgBad (c.kr r.toNat) (c.kr o.toNat) = false ∧
        s.arrTaken c.core c.lg.wg c.bank = false ∧ ¬ (cfgGrey (c.kr r.toNat) = false ∧ (s.core c.core).mon.lockout = true))
      (fun c s t => ∃ u, SaAdded ctr.toNat (.saCfg (c.kr r.toNat) (c.kr o.toNat) (!s.holdsArr c.core c.lg.wg)) [] none c (s.saFrom c) u ∧
        PredEff (fun _ => 0xFFFFFFFF) p.toNat (fun _ => 0xFFFFFFFF) c u t) := by
  rintro s c h hw ⟨⟨hq, he⟩, hb, ht, hn⟩
  have hfree : (!s.arrTaken c.core c.lg.wg c.bank && !cfgGrey (c.kr r.toNat) && (s.core c.core).mon.lockout) = false := by
    simpa [ht] using hn
  have hframe := State.saFrom_frame s c
  have hholds : (s.saFrom c).holdsArr c.core c.lg.wg = s.holdsArr c.core c.lg.wg := by rw [hframe]; rfl
  have ha := State.saQueue_added c ctr (.saCfg (c.kr r.toNat) (c.kr o.toNat) (!s.holdsArr c.core c.lg.wg)) [] none (s.saFrom c)
  have hlgs := ha.lgs.trans (congrArg State.lgs hframe :)
  refine ⟨_, exec_saCfg_checked h hw hq he ?_ ?_, _, ha, State.up_setQ_predEff h hlgs p.toNat true⟩
  · rw [hb, hfree]
    exact (State.configured_free ht).trans (by rw [hholds])
  · exact .of_pk (ha.pk.trans (congrArg State.pk hframe :))

theorem runs_saCfg_taken (o r : BitVec 5) (p : BitVec 3) (ctr : BitVec 4) :
    Runs (.saCfg o r p ctr) (fun c s => (s.saFull c.core c.bank = false ∧ c.em ≠ 0) ∧ cfgBad (c.kr r.toNat) (c.kr o.toNat) = false ∧
        ¬ s.arrTaken c.core c.lg.wg c.bank = false)
      (fun c s t => ∃ u, PredEff (fun _ => 0xFFFFFFFF) p.toNat (fun _ => 0) c s u ∧ t = u.addCtr c.g ctr.toNat 1) := by
  rintro s c h hw ⟨⟨hq, he⟩, hb, ht⟩
  rw [Bool.not_eq_false] at ht
  refine ⟨_, exec_saCfg_checked h hw hq he ?_ (.of_pk ?_), _, State.up_setQ_predEff h rfl p.toNat false, rfl⟩
  · rw [hb, ht]
    exact State.configured_taken ht
  · rfl

theorem runs_saCfg_illegal (o r : BitVec 5) (p : BitVec 3) (ctr : BitVec 4) :
    Runs (.saCfg o r p ctr) (fun c s => (s.saFull c.core c.bank = false ∧ c.em ≠ 0) ∧ cfgBad (c.kr r.toNat) (c.kr o.toNat) = true)
      (Raises .illegal 6 Ctx.exMask) := by
  rintro s c h hw ⟨⟨hq, he⟩, hb⟩
  refine ⟨_, exec_saCfg_checked h hw hq he ?_ State.takeTrap_stall, rfl⟩
  rw [hb, State.checked, Ctx.best_illegal_bias]

theorem runs_saCfg_biased (o r : BitVec 5) (p : BitVec 3) (ctr : BitVec 4) :
    Runs (.saCfg o r p ctr) (fun c s => (s.saFull c.core c.bank = false ∧ c.em ≠ 0) ∧ cfgBad (c.kr r.toNat) (c.kr o.toNat) = false ∧
        s.arrTaken c.core c.lg.wg c.bank = false ∧ cfgGrey (c.kr r.toNat) = false ∧ (s.core c.core).mon.lockout = true)
      (Raises .bias (Cause.rank .bias) Ctx.exMask) := by
  rintro s c h hw ⟨⟨hq, he⟩, hb, ht, hg, hl⟩
  refine ⟨_, exec_saCfg_checked h hw hq he ?_ State.takeTrap_stall, rfl⟩
  rw [hb, ht, hg, hl]
  rfl

/-! ## Images (R352, R355, R356, R359) -/

/-- What a command on an image does once its range is good: it waits behind an acquire, has its base and its completion counter aligned,
its pieces translated, and joins the queue. -/
def State.saMemory (s : State) (c : Ctx) (ctr : BitVec 4) (need align base : Nat) (qa : Option Nat) (b : CmdBody) : State :=
  if s.acquiring c.g then s.holdBack c
  else if base % align ≠ 0 then s.alignTrap c base
  else if qa.getD 0 % 8 ≠ 0 then s.alignTrap c (qa.getD 0)
  else s.withImage c need b.segs qa fun t s => s.saQueue c ctr b t qa

/-- A completion counter whose address is aligned, or none. -/
theorem counter_aligned {q : Option Nat} (h : ∀ a, q = some a → a % 8 = 0) : q.getD 0 % 8 = 0 := by
  cases q with
  | none => rfl
  | some a => exact h a rfl

/-- The law of a command on an image: in the queue, an illegal range, behind an acquire, its base or its completion counter misaligned. -/
theorem saImage_law {i : Instr} {m : BitVec 6} {ctr : BitVec 4} {need align : Nat} {by32 : Bool} {base : Ctx → Nat}
    {qa : Ctx → Option Nat} {body : Nat → Nat → Nat → CmdBody}
    (hi : IsSaWord i ctr true [m.toNat, m.toNat + 1] (fun c => rangeBad (c.v (m.toNat + 1) c.exLane) by32) fun c s =>
      s.saMemory c ctr need align (base c) (qa c)
        (body (base c) (rangeFirst (c.v (m.toNat + 1) c.exLane)) (rangeCnt (c.v (m.toNat + 1) c.exLane)))) :
    let rng := fun (c : Ctx) => c.v (m.toNat + 1) c.exLane
    let b := fun (c : Ctx) => body (base c) (rangeFirst (rng c)) (rangeCnt (rng c))
    let ready := fun (c : Ctx) (s : State) => SaReady c s ∧ c.ExOk m.toNat ∧ c.ExOk (m.toNat + 1)
    SaLaw i ctr [m.toNat, m.toNat + 1] (fun c s => rangeBad (rng c) by32 = false ∧ s.acquiring c.g = false ∧ base c % align = 0 ∧
        ImageOk c s need (b c).segs (qa c)) (fun c s => ImageWalked c s need (b c).segs (qa c)) qa b ∧
    Runs i (fun c s => ready c s ∧ rangeBad (rng c) by32 = true) (Raises .illegal 6 Ctx.exMask) ∧
    Runs i (fun c s => ready c s ∧ rangeBad (rng c) by32 = false ∧ s.acquiring c.g = true) Held ∧
    Runs i (fun c s => ready c s ∧ rangeBad (rng c) by32 = false ∧ s.acquiring c.g = false ∧ base c % align ≠ 0) (Faults .align base) ∧
    Runs i (fun c s => ready c s ∧ rangeBad (rng c) by32 = false ∧ s.acquiring c.g = false ∧ base c % align = 0 ∧
      (qa c).getD 0 % 8 ≠ 0) (Faults .align fun c => (qa c).getD 0) := by
  intro rng b ready
  have hready : ∀ {c s} {p : Prop}, ready c s → p → SaOpen true c s ∧ (∀ r ∈ [m.toNat, m.toNat + 1], c.ExOk r) ∧ p :=
    fun ⟨hr, h0, h1⟩ h => ⟨hr.saOpen, by simpa using ⟨h0, h1⟩, h⟩
  refine ⟨hi.law (fun _ _ ho => ho.1) (fun c s ⟨_, _, _, hg⟩ e => ?walked) (fun c s ⟨_, ha, hal, hg⟩ => ?joins),
    hi.illegal fun c s ⟨hr, hb⟩ => hready hr hb, hi.runs (fun c s ⟨hr, hb, _⟩ => hready hr hb) fun s c _ ⟨_, _, ha⟩ => ?held,
    hi.runs (fun c s ⟨hr, hb, _⟩ => hready hr hb) fun s c _ ⟨_, _, ha, hal⟩ => ?base,
    hi.runs (fun c s ⟨hr, hb, _⟩ => hready hr hb) fun s c _ ⟨_, _, ha, hal, hq⟩ => ?counter⟩
  case walked =>
    obtain ⟨-, -, -, hu⟩ := hg
    exact hu ▸ e
  case joins =>
    have ⟨_, _, hq, _⟩ := hg
    rw [State.saMemory, if_neg (by simp [ha]), if_neg (not_not_intro hal), if_neg (not_not_intro (counter_aligned hq)),
      State.withImage_of hg]
  case held =>
    rw [State.saMemory, if_pos ha]
    exact ⟨fun h => h, rfl⟩
  case base =>
    rw [State.saMemory, if_neg (by simp [ha]), if_pos hal]
    exact ⟨State.takeTrap_stall, State.alignTrap_faults s c base⟩
  case counter =>
    rw [State.saMemory, if_neg (by simp [ha]), if_neg (not_not_intro hal), if_pos hq]
    exact ⟨State.takeTrap_stall, State.alignTrap_faults s c fun c => (qa c).getD 0⟩

end

end Sys2Proof.Machine
end

section
/-! PROOF. The words of major 13, one by one (R353 to R360; O29). -/

set_option Elab.async false

namespace Sys2Proof.Machine

variable {s : State} {c : Ctx}

/-- The images of `sa.ldc`, `sa.ldh`, `sa.clmp`, `sa.rdc` and `sa.rds`, from the word that the model makes of them. -/
theorem isSaWord_image {i : Instr} {m : BitVec 6} {g : BitVec 3} {ctr : BitVec 4} {q : Option (BitVec 5)} {need align : Nat} {by32 : Bool}
    {body : Nat → Nat → Nat → CmdBody} {qa : Ctx → Option Nat} (hi : ∀ s, exec i s = saImage i s m g ctr q need align by32 body)
    (hq : ∀ c, q.map (fun r => (c.kr r.toNat).toNat) = qa c) :
    IsSaWord i ctr true [m.toNat, m.toNat + 1] (fun c => rangeBad (c.v (m.toNat + 1) c.exLane) by32) fun c s =>
      s.saMemory c ctr need align (c.base m g) (qa c)
        (body (c.base m g) (rangeFirst (c.v (m.toNat + 1) c.exLane)) (rangeCnt (c.v (m.toNat + 1) c.exLane))) := by
  intro s
  obtain rfl : qa = fun c => q.map fun r => (c.kr r.toNat).toNat := funext fun c => (hq c).symm
  exact hi s

/-- The completion counter that a word names with `w` = 1 (R359). -/
theorem counter_map (w : BitVec 1) (q : BitVec 5) (c : Ctx) : (if w = 1 then some q else none).map (fun r => (c.kr r.toNat).toNat) =
    if w = 1 then some (c.kr q.toNat).toNat else none := by
  split <;> rfl

/-! ## Sweeps (R358) -/

/-- What `sa.swp` does once its count is good: its completion counter aligned and translated, it joins the queue. -/
def State.sweepQueued (s : State) (c : Ctx) (ctr : BitVec 4) (qa : Option Nat) (b : CmdBody) : State :=
  if qa.getD 0 % 8 ≠ 0 then s.alignTrap c (qa.getD 0) else s.withImage c 2 [] qa fun t s => s.saQueue c ctr b t qa

theorem saSwp_law (m : BitVec 6) (q : BitVec 5) (ctr : BitVec 4) (w : BitVec 1) :
    let x := fun (c : Ctx) => c.v m.toNat c.exLane
    let bad := fun (c : Ctx) => bits (x c) 0 16 = 0 ∨ bits (x c) 17 15 ≠ 0
    let qa := fun (c : Ctx) => if w = 1 then some (c.kr q.toNat).toNat else none
    SaLaw (.saSwp m q ctr w) ctr [m.toNat] (fun c s => ¬ bad c ∧ ImageOk c s 2 [] (qa c)) (fun c s => ImageWalked c s 2 [] (qa c)) qa
      (fun c => .saSwp (bits (x c) 0 16) ((x c).getLsbD 16)) ∧
    Runs (.saSwp m q ctr w) (fun c s => SaReady c s ∧ c.ExOk m.toNat ∧ bad c) (Raises .illegal 6 Ctx.exMask) ∧
    Runs (.saSwp m q ctr w) (fun c s => SaReady c s ∧ c.ExOk m.toNat ∧ ¬ bad c ∧ (qa c).getD 0 % 8 ≠ 0)
      (Faults .align fun c => (qa c).getD 0) := by
  intro x bad qa
  have hi : IsSaWord (.saSwp m q ctr w) ctr true [m.toNat] (fun c => bits (x c) 0 16 == 0 || bits (x c) 17 15 != 0) fun c s =>
      s.sweepQueued c ctr (qa c) (.saSwp (bits (x c) 0 16) ((x c).getLsbD 16)) := fun _ => rfl
  have hbad : ∀ c, (bits (x c) 0 16 == 0 || bits (x c) 17 15 != 0) = true ↔ bad c := fun c => by simp [bad]
  have hgood : ∀ c, ¬ bad c → (bits (x c) 0 16 == 0 || bits (x c) 17 15 != 0) = false := fun c h =>
    Bool.eq_false_iff.mpr fun e => h ((hbad c).mp e)
  refine ⟨hi.law (fun c s ho => hgood c ho.1) (fun c s ⟨_, hg⟩ e => ?_) (fun c s ⟨_, hg⟩ => ?_),
    hi.illegal fun c s ⟨hr, hx, hb⟩ => ⟨hr.saOpen, by simpa using hx, (hbad c).mpr hb⟩,
    hi.runs (fun c s ⟨hr, hx, hb, _⟩ => ⟨hr.saOpen, by simpa using hx, hgood c hb⟩) fun s c _ ⟨_, _, _, hq⟩ => ?_⟩
  · obtain ⟨-, -, -, hu⟩ := hg
    exact hu ▸ e
  · have ⟨_, _, hq, _⟩ := hg
    rw [State.sweepQueued, if_neg (not_not_intro (counter_aligned hq)), State.withImage_of hg]
  · rw [State.sweepQueued, if_pos hq]
    exact ⟨State.takeTrap_stall, State.alignTrap_faults s c fun c => (qa c).getD 0⟩

/-! ## Ghosts (R357, R410) -/

/-- Whether a subscription's source lies outside the partition or behind a closed gate. -/
def State.ghostGated (s : State) (c : Ctx) (w : Word) : Bool :=
  !ghostUnb w && (s.partOf (ghostCore w) != c.part || !s.passes c.part c.core (ghostCore w))

theorem State.ghostGated_iff {w : Word} : s.ghostGated c w = true ↔
    ghostUnb w = false ∧ (s.partOf (ghostCore w) ≠ c.part ∨ s.passes c.part c.core (ghostCore w) = false) := by
  simp [State.ghostGated]

/-- The record of a gate that refuses the word. -/
def State.ghostGateRec (s : State) (c : Ctx) (w : Word) : State :=
  s.gateRec c.part c.vf c.core c.wg.slot c.lg.lgn s.pk.idx.toNat w.toNat true

/-- What `sa.ghost` does once its word is good: a gate refuses it, or it joins the queue. -/
def State.ghostQueued (s : State) (c : Ctx) (ctr : BitVec 4) (w : Word) (p : Nat) : State :=
  (if s.ghostGated c w then s.ghostGateRec c w else s).checked c (c.exF (s.ghostGated c w) .gate) fun s => s.saQueue c ctr (.saGhost w p)

theorem State.ghostQueued_free {ctr : BitVec 4} {w : Word} {p : Nat} (h : s.ghostGated c w = false) :
    s.ghostQueued c ctr w p = s.saQueue c ctr (.saGhost w p) := by
  rw [State.ghostQueued, h]
  rfl

theorem State.ghostQueued_gated {ctr : BitVec 4} {w : Word} {p : Nat} (h : s.ghostGated c w = true) : s.ghostQueued c ctr w p =
    (s.ghostGateRec c w).takeTrap c ((s.ghostGateRec c w).restartTrap .gate (Cause.rank .gate) c.exMask) := by
  rw [State.ghostQueued, h]
  rfl

theorem saGhost_law (m : BitVec 6) (p : BitVec 3) (ctr : BitVec 4) :
    let x := fun (c : Ctx) => c.v m.toNat c.exLane
    let gated := fun (c : Ctx) (s : State) => ghostUnb (x c) = false ∧
      (s.partOf (ghostCore (x c)) ≠ c.part ∨ s.passes c.part c.core (ghostCore (x c)) = false)
    SaLaw (.saGhost m p ctr) ctr [m.toNat] (fun c s => ghostBad (x c) = false ∧ ¬ gated c s) (fun _ s => (s, [])) (fun _ => none)
      (fun c => .saGhost (x c) p.toNat) ∧
    Runs (.saGhost m p ctr) (fun c s => SaReady c s ∧ c.ExOk m.toNat ∧ ghostBad (x c) = true) (Raises .illegal 6 Ctx.exMask) ∧
    Runs (.saGhost m p ctr) (fun c s => SaReady c s ∧ c.ExOk m.toNat ∧ ghostBad (x c) = false ∧ gated c s) (fun c s t =>
      Raises .gate (Cause.rank .gate) Ctx.exMask c (s.ghostGateRec c (x c)) t) := by
  intro x gated
  have hi : IsSaWord (.saGhost m p ctr) ctr true [m.toNat] (fun c => ghostBad (x c)) fun c s =>
      s.ghostQueued c ctr (x c) p.toNat := fun _ => rfl
  refine ⟨hi.law_here (fun _ _ ho => ho.1) fun c s ⟨_, hn⟩ => ?_,
    hi.illegal fun c s ⟨hr, hx, hb⟩ => ⟨hr.saOpen, by simpa using hx, hb⟩,
    hi.runs (fun c s ⟨hr, hx, hb, _⟩ => ⟨hr.saOpen, by simpa using hx, hb⟩) fun s c _ ⟨_, _, _, hg⟩ => ?_⟩
  · exact State.ghostQueued_free (Bool.eq_false_iff.mpr fun e => hn (State.ghostGated_iff.mp e))
  · rw [State.ghostQueued_gated (State.ghostGated_iff.mpr hg)]
    exact ⟨fun e => State.gateRec_flows _ _ _ _ _ _ _ _ _ (State.takeTrap_stall e), rfl⟩

/-! ## Words on a range and thresholds (R356, R360) -/

/-- A word of one register, whose value its rule may refuse, that joins the queue. -/
theorem operand_law {i : Instr} {m : Nat} {ctr : BitVec 4} {bad : Ctx → Bool} {body : Ctx → CmdBody}
    (hi : IsSaWord i ctr true [m] bad fun c s => s.saQueue c ctr (body c)) :
    SaLaw i ctr [m] (fun c _ => bad c = false) (fun _ s => (s, [])) (fun _ => none) body ∧
    Runs i (fun c s => SaReady c s ∧ c.ExOk m ∧ bad c = true) (Raises .illegal 6 Ctx.exMask) :=
  ⟨hi.law_here (fun _ _ h => h) fun _ _ _ => rfl, hi.illegal fun _ _ ⟨hr, hx, hb⟩ => ⟨hr.saOpen, by simpa using hx, hb⟩⟩

/-! ## Reads (R207, R360) -/

/-- A word that passes the queue writes its pair at once and counts. -/
theorem saRead_law {i : Instr} {d : BitVec 6} {ctr : BitVec 4} {f : Core → DWord} (hi : ∀ s, exec i s = saRead i s d ctr f) :
    Runs i (fun c s => c.em ≠ 0 ∧ s.arrForeign c.core c.bank = false ∧ s.holdsArr c.core c.lg.wg = true)
      (fun c s t => ∃ u, PairEff d.toNat (fun c s _ => f (s.core c.core)) c s u ∧ t = u.addCtr c.g ctr.toNat 1) ∧
    SaGate i ctr false [] := by
  have hi : IsSaWord i ctr false [] (fun _ => false) fun c s =>
    (s.up c fun l => l.wrPair c.em d.toNat fun _ => f (s.core c.core)).addCtr c.g ctr.toNat 1 := hi
  refine ⟨hi.runs (fun c s hr => ⟨⟨rfl, hr⟩, by simp, rfl⟩) fun s c h _ => ?_, hi.gate⟩
  exact ⟨fun h => h, _, ⟨_, Lg.wrPair_pairWrite .., State.up_eq h _⟩, rfl⟩

/-- Settles O29, word by word: each meets the queue, the active lanes and the array's context, then its operands. -/
theorem samplingWords : Obligations.SamplingWords := by
  unfold Obligations.SamplingWords
  refine ⟨fun o r p ctr => ⟨runs_saCfg_joins o r p ctr, runs_saCfg_taken o r p ctr, runs_saCfg_illegal o r p ctr,
      runs_saCfg_biased o r p ctr, fun s c h hw hq => ?full, fun s c h hw ⟨hq, he⟩ => ?idle⟩, fun r ctr => ?key,
    fun m g ctr q w => ?images, fun m p ctr => ?ghosts, fun ctr => ?clr, fun d th ctr => ?monitor⟩
  case full => exact ⟨_, exec_saWord_full (exec_saCfg o r p ctr) h hw hq, rfl⟩
  case idle => exact ⟨_, exec_saWord_idle (exec_saCfg o r p ctr) h hw hq he, rfl⟩
  case key =>
    have hi : IsSaWord (.saKey r ctr) ctr true [] (fun _ => false) fun c s => s.saQueue c ctr (.saKey (c.kr r.toNat)) := fun _ => rfl
    exact hi.law_here (fun _ _ _ => rfl) fun _ _ _ => rfl
  case images =>
    simp only [← Ctx.base_eq]
    exact ⟨saImage_law (isSaWord_image (fun _ => rfl) fun _ => rfl), saImage_law (isSaWord_image (fun _ => rfl) fun _ => rfl),
      saImage_law (isSaWord_image (fun _ => rfl) fun _ => rfl), saImage_law (isSaWord_image (fun _ => rfl) (counter_map w q)),
      saImage_law (isSaWord_image (fun _ => rfl) (counter_map w q)), saSwp_law m q ctr w⟩
  case ghosts =>
    have hi : IsSaWord (.saUncl m ctr) ctr true [m.toNat] (fun c => rangeBad (c.v m.toNat c.exLane) true) fun c s =>
      s.saQueue c ctr (.saUncl (rangeFirst (c.v m.toNat c.exLane)) (rangeCnt (c.v m.toNat c.exLane))) := fun _ => rfl
    obtain ⟨huncl, huncl_illegal⟩ := operand_law hi
    exact ⟨huncl, huncl_illegal, saGhost_law m p ctr⟩
  case clr =>
    have hi : IsSaWord (.saClr ctr) ctr true [] (fun _ => false) fun c s => s.saQueue c ctr .saClr := fun _ => rfl
    exact hi.law_here (fun _ _ _ => rfl) fun _ _ _ => rfl
  case monitor =>
    obtain ⟨hmon, hmon_gate⟩ := saRead_law (i := .saMon d ctr) (d := d) (f := fun k => k.mon.word) fun _ => rfl
    obtain ⟨hstat, hstat_gate⟩ := saRead_law (i := .saStat d ctr) (d := d) (f := Core.saStatus) fun _ => rfl
    have hi : IsSaWord (.saMonW d th ctr) ctr true [th.toNat] (fun c => bits (c.v th.toNat c.exLane) 16 16 != 0) fun c s =>
      s.saQueue c ctr (.saMonW (bits (c.v th.toNat c.exLane) 0 16) d.toNat) := fun _ => rfl
    have hset := operand_law hi
    simp only [bne_eq_false_iff_eq, bne_iff_ne] at hset
    exact ⟨hmon, hstat, hmon_gate, hstat_gate, hset⟩

end Sys2Proof.Machine
end

section
/-! SUPPORT. What changes the sampling arrays of a core and leaves the rest of them (R198, R200, R444): classes of a sweep, sources without
exports, subscriptions, a taken message. -/

set_option Elab.async false

namespace Sys2Proof.Machine

/-! ## Arrays -/

theorem State.arr_modArr (s : State) (core : Nat) (f : Arr → Arr) : (s.modArr core f).arr core = f (s.arr core) := by
  rw [State.arr, State.modArr, State.core_modCore, if_pos rfl]
  rfl

theorem State.modCore_congr {s : State} {core : Nat} {f g : Core → Core} (h : f (s.core core) = g (s.core core)) :
    s.modCore core f = s.modCore core g := by
  rw [State.modCore, h]
  rfl

/-- The context of an array is changed alike whether or not a message has been taken before. -/
theorem State.modArrOf_took (s : State) (e : Ev) (wg : Nat) (f : Arr → Arr) : (s.took e).modArrOf wg f = (s.modArrOf wg f).took e := by
  have harr : (s.took e).arrOf wg = s.arrOf wg := rfl
  unfold State.modArrOf
  rw [harr]
  split <;> rfl

/-- What a change makes of the array of a context is all that counts of it. -/
theorem State.modArrOf_congr {s : State} {wg : Nat} {f g : Arr → Arr} (h : f (s.arrOfWg wg) = g (s.arrOfWg wg)) :
    s.modArrOf wg f = s.modArrOf wg g := by
  unfold State.arrOfWg at h
  unfold State.modArrOf
  split
  · next core e =>
    rw [e] at h
    exact State.modCore_congr (congrArg (fun a => { s.core core with arr := a }) h)
  · next core e =>
    rw [e] at h
    have hmod : (s.core core).evArr.modify wg f = (s.core core).evArr.modify wg g := by
      cases hx : (s.core core).evArr.find wg with
      | none => rw [Tab.modify_of_none f hx, Tab.modify_of_none g hx]
      | some x =>
        dsimp only at h
        rw [hx] at h
        rw [Tab.modify_of_find f hx, Tab.modify_of_find g hx]
        exact congrArg _ h
    exact State.modCore_congr (congrArg (fun t => { s.core core with evArr := t }) hmod)
  · rfl

/-! ## Sources without exports (R198, R200) -/

/-- No array on a core exports a node. -/
def State.noExports (s : State) : Bool := s.cores.all fun p => p.2.arr.exports.isEmpty

theorem State.noExports_of {s : State} (h : ∀ k ∈ s.cores, k.2.arr.exports = []) : s.noExports = true :=
  List.all_eq_true.mpr fun k hk => List.isEmpty_iff.mpr (h k hk)

theorem Tab.all_setD {α : Type} [DecidableEq α] (p : Nat × α → Bool) (d x : α) (k : Nat) {t : Tab α} (hx : p (k, x) = true)
    (ht : t.all p = true) : (t.setD d k x).all p = true := by
  unfold Tab.setD
  split
  · exact Tab.all_del p k ht
  · exact Tab.all_put p x k hx ht

theorem State.noExports_modArr {s : State} {core : Nat} {f : Arr → Arr} (h : s.noExports = true) (hf : (f (s.arr core)).exports = []) :
    (s.modArr core f).noExports = true := Tab.all_setD _ _ _ _ (List.isEmpty_iff.mpr hf) h

/-- Nothing is to be sent from arrays without exports. -/
theorem State.flushGhosts_of_noExports {s : State} (h : s.noExports = true) : s.flushGhosts = s := by
  have hnone : (s.cores.filter fun p => p.2.arr.exports.any fun e => !e.queue.isEmpty || e.notice.isSome) = [] := by
    refine List.filter_eq_nil_iff.mpr fun p hp => ?_
    rw [List.isEmpty_iff.mp (List.all_eq_true.mp h p hp)]
    exact Bool.false_ne_true
  rw [State.flushGhosts, hnone]
  rfl

/-! ## Classes of a sweep (R198) -/

/-- What holds of a machine, and still does after each class of a core's array, holds after classes. -/
theorem State.classesTo_induction {P : State → Prop} {core : Nat}
    (h : ∀ (s : State) (n p m : Nat), P s → P ({ s with nfree := n }.modArr core fun _ => ((s.arr core).class_ p m).1)) :
    ∀ (fuel k : Nat) (s : State), P s → P (s.classesTo core fuel k)
  | 0, _, _, hs => hs
  | fuel + 1, k, s, hs => by
    rw [State.classesTo]
    dsimp only
    split
    · exact hs
    · exact State.classesTo_induction h fuel k _ (h s _ _ _ hs)

/-- What the end of a sweep looks at: no array exports a node, and the core's own has nothing to stop for. -/
structure State.Settled (s : State) (core : Nat) : Prop where
  quiet : s.noExports = true
  own : (s.arr core).exports = []
  unbiased : (s.arr core).biasDue = false
  unnoticed : (s.arr core).noticed = false

theorem State.Settled.modArr {s : State} {core : Nat} {f : Arr → Arr} (h : s.Settled core) (he : (f (s.arr core)).exports = [])
    (hb : (f (s.arr core)).biasDue = (s.arr core).biasDue) (hn : (f (s.arr core)).noticed = (s.arr core).noticed) :
    (s.modArr core f).Settled core where
  quiet := State.noExports_modArr h.quiet he
  own := by rw [State.arr_modArr, he]
  unbiased := by rw [State.arr_modArr, hb, h.unbiased]
  unnoticed := by rw [State.arr_modArr, hn, h.unnoticed]

theorem State.Settled.classesTo {s : State} {core : Nat} (h : s.Settled core) (fuel k : Nat) : (s.classesTo core fuel k).Settled core := by
  refine State.classesTo_induction (P := fun s => s.Settled core) (fun s n p m hs => ?_) fuel k s h
  have hn : ({ s with nfree := n } : State).Settled core := ⟨hs.quiet, hs.own, hs.unbiased, hs.unnoticed⟩
  exact hn.modArr hs.own rfl rfl

/-- A sweep that has updated all its classes: it is counted where its command says so, and its exports take the states (R198, R204). -/
def State.swept (s : State) (core : Nat) (cnt : Bool) : State :=
  (s.classesTo core 8 (orderOf (s.arr core).ord).length).modArr core fun a =>
    let a := { a with sw := (a.sw + 1) % 2 ^ 32, st := 1 }
    let a := if cnt then a.count else a
    a.exportAll a.sw

theorem State.Settled.swept {s : State} {core : Nat} (h : s.Settled core) (cnt : Bool) : (s.swept core cnt).Settled core := by
  have hc := h.classesTo 8 (orderOf (s.arr core).ord).length
  refine hc.modArr ?_ ?_ ?_
  · cases cnt <;> exact List.map_eq_nil_iff.mpr hc.own
  · cases cnt <;> rfl
  · cases cnt <;> rfl

/-! ## Messages -/

/-- The first of what a list gives, where all that it gives is the same. -/
theorem head?_filterMap_of_unique {α β : Type} {f : α → Option β} {l : List α} {x : α} {y : β} (hx : x ∈ l) (hf : f x = some y)
    (hu : ∀ a ∈ l, ∀ b, f a = some b → b = y) : (l.filterMap f).head? = some y := by
  have hy : y ∈ l.filterMap f := List.mem_filterMap.mpr ⟨x, hx, hf⟩
  cases hl : l.filterMap f with
  | nil => simp [hl] at hy
  | cons b r =>
    obtain ⟨a, ha, hb⟩ := List.mem_filterMap.mp (hl ▸ List.mem_cons_self : b ∈ l.filterMap f)
    rw [List.head?_cons, hu a ha b hb]

end Sys2Proof.Machine
end

section
/-! PROOF. What the events of the sampling arrays do (R198 to R206, R354 to R359, R444 to R447; O55): commands that start, images, ghosts,
sweeps, windows, stalls and notices. -/

set_option Elab.async false

namespace Sys2Proof.Machine

section
variable {s : State} {id : Nat} {c : Cmd}

/-! ## Commands (R205, R354, R356, R358) -/

/-- A queued command that can start does what its body says. -/
theorem exec_saCommandStart (hc : s.cmds.find id = some c) (hs : s.canSa id c = true) :
    (∀ k, c.body = .saKey k → exec (.saCommandStart id) s = .next ((s.modArr c.core fun a => { a with key := k }).endCmd id)) ∧
    (c.body = .saClr → exec (.saCommandStart id) s = .next ((s.modArr c.core fun a => { a with cnt := [], csat := false }).endCmd id)) ∧
    (∀ n b, c.body = .saSwp n b → (s.arr c.core).st ≠ 4 → (s.arr c.core).st ≠ 5 → exec (.saCommandStart id) s =
      .next (((s.modCmd id fun x => { x with st := .running }).modArr c.core fun a => { a with swp := some id }).judgeStall c.core)) := by
  have h : exec (.saCommandStart id) s = execSaCommandStart id s := rfl
  rw [execSaCommandStart, hc] at h
  dsimp only at h
  rw [event_of (by rw [hs, Bool.true_or]), if_neg (by simp [hs])] at h
  refine ⟨fun k hb => ?_, fun hb => ?_, fun n b hb h4 h5 => ?_⟩
  · rw [h, hb]
  · rw [h, hb]
  · rw [h, hb]
    exact congrArg _ (if_neg (by simp [h4, h5]))

/-! ## Images (R355, R356, R359) -/

/-- An image that arrives whole and well-formed is written. -/
theorem exec_saLoadDone {u : State} {g : Got} (hp : .saLoadDone id ∈ s.pending) (hc : s.cmds.find id = some c)
    (hk : s.cmdBlocked id c = false) (hf : s.farFirst id c (.saLoadDone id) false = none)
    (hr : (s.took (.saLoadDone id)).cmdRead c = (u, g)) (he : g.errs = []) (hg : g.pois = [])
    (hb : imageBad c.body (wordsIn g.bytes (131072 / 2)) = false) :
    exec (.saLoadDone id) s = .next ((u.modArrOf c.wg fun a => a.image c.body (wordsIn g.bytes (131072 / 2))).endCmd id) := by
  have hkeep : ∀ ws : Tab Word, (ws.filter fun p => !(execSaLoadDone.poisonWs g.pois).contains p.1) = ws := fun ws => by
    rw [hg]
    exact List.filter_eq_self.mpr fun _ _ => rfl
  show execSaLoadDone id s = _
  simp only [execSaLoadDone, hc, hk, hf, fire_of hp, hr, hkeep, hb, he, Bool.false_eq_true, if_false]
  rfl

/-- An image that is written whole completes, in staged mode behind a forced commit. -/
theorem exec_saReadDone {u : State} (hp : .saReadDone id ∈ s.pending) (hc : s.cmds.find id = some c)
    (hk : s.cmdBlocked id c = false) (hw : s.cmdCommitWaits c = false)
    (hq : (c.q.isSome && s.stagedCmd c && s.commitWaits c.wg) = false) (hf : s.farFirst id c (.saReadDone id) true = none)
    (hr : (s.took (.saReadDone id)).cmdWrite c ((s.arrOfWg c.wg).bytes c.body) false = (u, [])) :
    exec (.saReadDone id) s = .next ((if c.q.isSome = true then u.forcedCommit c.wg else u).finishCmd id c .none) := by
  have harr : (s.took (.saReadDone id)).arrOfWg c.wg = s.arrOfWg c.wg := rfl
  have hworst : worst [] = (.none, 0) := rfl
  show execSaReadDone id s = _
  simp only [execSaReadDone, hc, hk, hw, hq, hf, fire_of hp, harr, hr, hworst, Bool.or_self, Bool.false_eq_true, if_false, Bool.and_true,
    decide_true]

end

/-! ## Ghosts (R200, R357) -/

section
variable (id : Nat) (c : Cmd) (w : Word) (p : Nat)

theorem arrives_ghostSubscribe_refused : Arrives (.ghostSubscribe id) (.ghostSubscribe id)
    (fun s => (s.cmds.find id = some c ∧ c.body = .saGhost w p) ∧ s.sourceOn (ghostCore w) (cfgChain (s.arrOfWg c.wg).cfg) = none)
    (fun s t => t = s.ghostSend id (.ghostAnswer id false) (ghostCore w) (((s.arrOf c.wg).map (·.1)).getD c.core)) := by
  rintro s hp ⟨⟨hc, hb⟩, hn⟩
  have hw : c.body.ghostWord = w := by rw [hb]; rfl
  have hn : (s.took (.ghostSubscribe id)).sourceOn (ghostCore w) (cfgChain ((s.took (.ghostSubscribe id)).arrOfWg c.wg).cfg) = none := hn
  refine ⟨_, (fire_of hp : execGhostSubscribe id s = _), ?_⟩
  simp only [State.took_cmds, hc, hw, hn]

theorem arrives_ghostSubscribe (h : Nat) : Arrives (.ghostSubscribe id) (.ghostSubscribe id)
    (fun s => (s.cmds.find id = some c ∧ c.body = .saGhost w p) ∧
      s.sourceOn (ghostCore w) (cfgChain (s.arrOfWg c.wg).cfg) = some h ∧
      let u := s.modArrOf h fun a => a.dropExport c.wg (bits w 24 8)
      u.partOf (ghostCore w) = c.part ∧ (u.arrOfWg h).exports.length < 256)
    (fun s t =>
      let u := s.modArrOf h fun a => a.dropExport c.wg (bits w 24 8)
      let a := u.arrOfWg h
      let dst := ((s.arrOf c.wg).map (·.1)).getD c.core
      let x : Export := { core := dst, slot := bits w 24 8, node := bits w 0 11, owner := c.wg, queue := [(a.sw, a.m.contains (bits w 0 11))] }
      t = (((u.modArrOf h fun a => { a with exports := a.exports ++ [x] }).modCmd id fun y => { y with owned := [h] }).ghostSend id
        (.ghostAnswer id true) (ghostCore w) dst)) := by
  rintro s hp ⟨⟨hc, hb⟩, hs, hpart, hlen⟩
  have hw : c.body.ghostWord = w := by rw [hb]; rfl
  have hs : (s.took (.ghostSubscribe id)).sourceOn (ghostCore w) (cfgChain ((s.took (.ghostSubscribe id)).arrOfWg c.wg).cfg) = some h := hs
  refine ⟨_, (fire_of hp : execGhostSubscribe id s = _), ?_⟩
  simp only [State.took_cmds, hc, hw, hs]
  refine (if_pos ?_).trans ?_
  · rw [State.modArrOf_took]
    exact Bool.and_eq_true_iff.mpr ⟨beq_iff_eq.mpr hpart, decide_eq_true hlen⟩
  · exact congrArg (fun v : State => (v.modCmd id _).ghostSend id _ _ _) (State.modArrOf_congr rfl)

theorem arrives_ghostUnsubscribe : Arrives (.ghostUnsubscribe id) (.ghostUnsubscribe id)
    (fun s => s.cmds.find id = some c ∧ c.body = .saGhost w p)
    (fun s t =>
      let u := s.modArrOf (c.owned.headD 0) fun a => a.dropExport c.wg (bits w 24 8)
      let dst := ((u.arrOf c.wg).map (·.1)).getD c.core
      t = if ghostUnb w = true then u.ghostSend id (.ghostAnswer id true) (((u.arrOf (c.owned.headD 0)).map (·.1)).getD dst) dst
        else u.ghostSend id (.ghostSubscribe id) dst (ghostCore w)) := by
  rintro s hp ⟨hc, hb⟩
  have hw : c.body.ghostWord = w := by rw [hb]; rfl
  refine ⟨_, (fire_of hp : execGhostUnsubscribe id s = _), ?_⟩
  simp only [State.took_cmds, hc, hw]

theorem arrives_ghostAnswer : Arrives (.ghostAnswer id true) (.ghostAnswer id true)
    (fun s => (s.cmds.find id = some c ∧ c.body = .saGhost w p) ∧ ghostUnb w = false)
    (fun s t =>
      let x : Ghost := { src := some (ghostCore w, bits w 0 11), owner := c.owned.headD 0 }
      t = ((s.modArrOf c.wg fun a => { a with ghosts := a.ghosts.put (bits w 24 8) x }).modLg c.lg fun l => l.setQ p 0xFFFFFFFF).endCmd id) := by
  rintro s hp ⟨⟨hc, hb⟩, hu⟩
  have hw : c.body.ghostWord = w := by rw [hb]; rfl
  have hq : c.body.ghostPred = p := by rw [hb]; rfl
  refine ⟨_, (fire_of hp : execGhostAnswer id true s = _), ?_⟩
  simp only [State.took_cmds, hc, hw, hq, hu]
  rfl

end

/-! ## Sweeps (R198, R201, R206, R444) -/

theorem arrives_sweepEnd (id : Nat) (c : Cmd) (core n : Nat) (b : Bool) : Arrives (.sweepEnd core) (.sweepEnd core)
    (fun s => s.cmds.find id = some c ∧ Ev.monitorWindowClose core ∉ s.pending ∧ (s.arr core).swp = some id ∧ c.body = .saSwp n b ∧ n ≤ 1 ∧
      (s.arr core).biasDue = false ∧ (s.arr core).noticed = false ∧ (s.arr core).exports = [] ∧ ∀ k ∈ s.cores, k.2.arr.exports = [])
    (fun s t => (s.swept core b).flushGhosts = s.swept core b ∧
      t = ((s.swept core b).modArr core fun a => { a with swp := none }).finishCmd id c .none) := by
  rintro s hp ⟨hc, hwin, hswp, hb, hn, hbias, hnot, hexp, hall⟩
  have hs : (s.took (.sweepEnd core)).Settled core := ⟨State.noExports_of hall, hexp, hbias, hnot⟩
  have hu := hs.swept b
  have hflush := State.flushGhosts_of_noExports hu.quiet
  have hub := hu.unbiased
  have hun := hu.unnoticed
  have hswp : ((s.took (.sweepEnd core)).arr core).swp = some id := hswp
  refine ⟨_, ?_, hflush, rfl⟩
  show execSweepEnd core s = _
  rw [execSweepEnd, if_neg (by simpa using hwin), fire_of hp]
  simp only [State.swept] at hflush hub hun ⊢
  simp only [hswp, State.took_cmds, hc, hb, hflush, hub, hun, hn, Option.bind_some, Bool.false_eq_true, if_false, if_true]

/-- A sweep begins (R201): its window closes too where it has had its probes (R206). -/
theorem happens_sweepBegin (core : Nat) : Happens (.sweepBegin core) (fun s => s.canSweep core = true) (fun s t =>
    (t.core core).arr = { s.arr core with st := 2, pos := 0 } ∧ (t.core core).mon.probes = (s.core core).mon.probes + 1 ∧
    Ev.sweepEnd core ∈ t.pending ∧ t = { s with cores := t.cores, pending := t.pending, nfree := s.nfree + 256 }) := by
  refine happens_cond (execSweepBegin core) rfl (fun _ => rfl) (fun _ h => h) fun s _ => ?_
  dsimp only
  set u : State := { s with nfree := s.nfree + 256 }.modCore core fun k =>
    { k with arr := { k.arr with st := 2, pos := 0 }, mon := k.mon.probe s.nfree } with hu
  set v : State := if 65536 ≤ (u.core core).mon.probes then u.postOnce (.monitorWindowClose core) else u with hv
  have hcore : u.core core = { s.core core with
      arr := { (s.core core).arr with st := 2, pos := 0 }, mon := (s.core core).mon.probe s.nfree } := by
    rw [hu, State.core_modCore, if_pos rfl]
    rfl
  have hframe : v = { u with pending := v.pending } := by
    rw [hv]
    split
    · exact State.postOnce_frame ..
    · rfl
  have hvcore : v.core core = u.core core := by rw [hframe]; rfl
  refine ⟨?_, ?_, State.mem_post .., ?_⟩
  · rw [State.core_post, hvcore, hcore]
    rfl
  · rw [State.core_post, hvcore, hcore]
    rfl
  · rw [hframe]
    rfl

theorem arrives_monitorWindowClose (core : Nat) : Arrives (.monitorWindowClose core) (.monitorWindowClose core) (fun _ => True) (fun s t =>
    let m := (s.core core).mon
    let n := (t.core core).mon
    n.wins = m.wins + 1 ∧ n.probes = 0 ∧ n.counts = [] ∧ n.wcnt = Tab.getD m.counts 0 n.wlane ∧
    (n.biased = true ↔ m.thr.toNat < (((Tab.getD m.counts 0 n.wlane : Nat) : Int) - 32768).natAbs) ∧ t = { s with cores := t.cores }) := by
  intro s hp _
  refine ⟨_, (fire_of hp : execMonitorWindowClose core s = _), ?_⟩
  dsimp only
  rw [State.core_modCore, if_pos rfl]
  dsimp only
  exact ⟨rfl, rfl, rfl, rfl, decide_eq_true_iff, rfl⟩

/-! ## Updates (R201 to R203) -/

section
variable {s : State} {core : Nat} {u : GhostUpd}

/-- The update is out of the inbox of its core. -/
def State.updTaken (s : State) (core : Nat) (u : GhostUpd) : State := s.modCore core fun k => { k with ghin := k.ghin.erase u }

/-- The core of the array that an update is for. -/
def State.updCore (s : State) (core : Nat) (u : GhostUpd) : Nat := (((s.updTaken core u).arrOf u.owner).map (·.1)).getD core

/-- What becomes of an update that is taken: it follows an array that has moved, or is written into its slot. -/
def State.updWritten (s : State) (core : Nat) (u : GhostUpd) : State :=
  let v := s.updTaken core u
  if s.updCore core u ≠ core then
    if v.passes (v.partOf core) core (s.updCore core u) then
      v.sendNow (.ghostUpdate (s.updCore core u) u) (.core core) (.core (s.updCore core u)) .ghost 32
    else v.ghostRefused core (some u.holder) u.node
  else
    let n := (orderOf (v.arr core).ord).length
    let v := if (v.arr core).st = 2 && (v.arr core).pos < n then
        v.draw.2.classesTo core 8 ((v.arr core).pos + Config.pick v.draw.1 % (n - (v.arr core).pos + 1))
      else v
    (v.modArr core fun a => a.takeUpd u).judgeStall core

theorem State.updWritten_here (h : s.updCore core u = core) (hs : (s.core core).arr.st ≠ 2) :
    s.updWritten core u = ((s.updTaken core u).modArr core fun a => a.takeUpd u).judgeStall core := by
  have hcore := State.core_modCore s core core fun k => { k with ghin := k.ghin.erase u }
  rw [if_pos rfl] at hcore
  have hst : ((s.updTaken core u).arr core).st = (s.core core).arr.st := (congrArg (fun k : Core => k.arr.st) hcore :)
  rw [State.updWritten]
  dsimp only
  rw [if_neg (not_not_intro h), if_neg (by simp [hst, hs])]

theorem State.updWritten_away (h : s.updCore core u ≠ core) : s.updWritten core u =
    if (s.updTaken core u).passes ((s.updTaken core u).partOf core) core (s.updCore core u) = true then
      (s.updTaken core u).sendNow (.ghostUpdate (s.updCore core u) u) (.core core) (.core (s.updCore core u)) .ghost 32
    else (s.updTaken core u).ghostRefused core (some u.holder) u.node := if_pos h

/-- Where one update may be written next, it is the one that is taken. -/
theorem exec_ghostUpdateArrive (hp : .ghostUpdateArrive core ∈ s.pending) (hu : s.ghostNext core = [u]) :
    exec (.ghostUpdateArrive core) s = .next ((s.took (.ghostUpdateArrive core)).updWritten core u) := by
  have h : exec (.ghostUpdateArrive core) s = execGhostUpdateArrive core s := rfl
  rw [execGhostUpdateArrive, hu] at h
  dsimp only at h
  rw [if_neg (by simp), fire_of hp] at h
  exact h

end

theorem arrives_ghostUpdateArrive_here (core : Nat) (u : GhostUpd) : Arrives (.ghostUpdateArrive core) (.ghostUpdateArrive core)
    (fun s => s.ghostNext core = [u] ∧ s.updCore core u = core ∧ (s.core core).arr.st ≠ 2)
    (fun s t => t = ((s.updTaken core u).modArr core fun a => a.takeUpd u).judgeStall core) :=
  fun _ hp ⟨hu, hc, hs⟩ => ⟨_, exec_ghostUpdateArrive hp hu, State.updWritten_here (s := State.took _ _) hc hs⟩

theorem arrives_ghostUpdateArrive_away (core : Nat) (u : GhostUpd) : Arrives (.ghostUpdateArrive core) (.ghostUpdateArrive core)
    (fun s => s.ghostNext core = [u] ∧ s.updCore core u ≠ core)
    (fun s t => t = if (s.updTaken core u).passes ((s.updTaken core u).partOf core) core (s.updCore core u) = true then
        (s.updTaken core u).sendNow (.ghostUpdate (s.updCore core u) u) (.core core) (.core (s.updCore core u)) .ghost 32
      else (s.updTaken core u).ghostRefused core (some u.holder) u.node) :=
  fun _ hp ⟨hu, hc⟩ => ⟨_, exec_ghostUpdateArrive hp hu, State.updWritten_away (s := State.took _ _) hc⟩

/-! ## Stalls and notices (R201, R444, R445, R447) -/

theorem happens_chainTimeout (core : Nat) : Happens (.chainTimeout core)
    (fun s => (s.arr core).st = 3 ∧ (s.arr core).swp.isSome = true ∧ (s.arr core).stalls.isSome = true ∧
      s.suspended (s.arr core) = false ∧ cfgTimeout (s.arr core).cfg ≤ s.stallTime (s.arr core))
    (fun s t => t = ((s.arrayRec core .stale).modArr core fun a => { a with stale := true, st := 1 }).endSwp core .stale) := by
  refine happens_cond (execChainTimeout core) rfl (fun _ => rfl) (fun s ⟨hst, hswp, hstall, hsus, htime⟩ => ?_) fun _ _ => rfl
  simp [State.stallOver, hst, hswp, hstall, hsus, htime]

section
variable {s : State} {core src : Nat} {chain : BitVec 16}

/-- The sender of a message that is a notice of the chain to the core and need not wait for its sender's updates. -/
def State.noticeFrom (s : State) (core : Nat) (chain : BitVec 16) : Ev → Option Nat
  | .stopNotice c ch src => if c = core ∧ ch = chain ∧ !((s.ghostNext core).any fun u => u.src == src) then some src else none
  | _ => none

theorem execStopNotice_eq (core : Nat) (chain : BitVec 16) (s : State) : execStopNotice core chain s =
    match (s.pending.filterMap (s.noticeFrom core chain)).head? with
    | some src => s.stopNotice core chain src
    | none => .next s := rfl

theorem State.noticeFrom_eq_some {e : Ev} {x : Nat} (h : s.noticeFrom core chain e = some x) : e = .stopNotice core chain x := by
  unfold State.noticeFrom at h
  split at h
  · split at h
    · next hc =>
      obtain ⟨rfl, rfl, -⟩ := hc
      cases h
      rfl
    · cases h
  · cases h

/-- The notice of the only sender whose notice is on its way is taken. -/
theorem exec_stopNotice (hp : .stopNotice core chain src ∈ s.pending)
    (hall : ∀ e ∈ s.pending, ∀ other, e = .stopNotice core chain other → other = src)
    (hupd : ((s.ghostNext core).any fun u => u.src == src) = false) :
    exec (.stopNotice core chain) s = s.stopNotice core chain src := by
  have hfrom : s.noticeFrom core chain (.stopNotice core chain src) = some src := if_pos ⟨rfl, rfl, by rw [hupd]; rfl⟩
  have hhead := head?_filterMap_of_unique hp hfrom fun e he x hx => hall e he x (State.noticeFrom_eq_some hx)
  show execStopNotice core chain s = _
  rw [execStopNotice_eq, hhead]

end

theorem arrives_stopNotice (core : Nat) (chain : BitVec 16) (src : Nat) : Arrives (.stopNotice core chain src) (.stopNotice core chain)
    (fun s => (∀ e ∈ s.pending, ∀ other, e = .stopNotice core chain other → other = src) ∧
      ((s.ghostNext core).any fun u => u.src == src) = false ∧ (s.core core).evArr = [] ∧
      ((s.core core).arr.holder.isSome && cfgChain (s.core core).arr.cfg == chain) = true ∧
      (s.core core).arr.noticed = false ∧ (s.core core).arr.st = 1)
    (fun s t => let u := s.modCore core fun k => { k with evArr := [] }
      t = ((u.modArr core fun a => { a with noticed := true, st := 4 }).notify core (s.core core).arr).endSwp core .bias) := by
  rintro s hp ⟨hall, hupd, hev, hchain, hnot, hst⟩
  refine ⟨_, (exec_stopNotice hp hall hupd).trans ((if_neg (by simp [hupd])).trans (fire_of hp)), ?_⟩
  have hev : ((s.took (.stopNotice core chain src)).core core).evArr = [] := hev
  dsimp only
  rw [State.modCore_congr (g := fun k => { k with evArr := [] }) (by rw [hev, List.map_nil]), hev, List.filter_nil, List.foldl_nil]
  set u := (s.took (.stopNotice core chain src)).modCore core fun k => { k with evArr := [] } with hu
  have harr : u.arr core = (s.core core).arr := by
    rw [State.arr, hu, State.core_modCore, if_pos rfl]
    rfl
  rw [harr, if_neg (by simp [hchain, hnot, hst]), if_neg (by simp [hst])]
  rfl

/-- Settles O55: a start by its command's body, the other events by their messages or conditions and what each then does. -/
theorem samplingEvents : Obligations.SamplingEvents := by
  unfold Obligations.SamplingEvents
  refine ⟨fun id c => ⟨?key, ?clr, ?swp, fun s u g => exec_saLoadDone, fun s u => exec_saReadDone,
      fun w p => ⟨arrives_ghostSubscribe_refused id c w p, arrives_ghostSubscribe id c w p, arrives_ghostUnsubscribe id c w p,
        arrives_ghostAnswer id c w p⟩, arrives_sweepEnd id c⟩,
    fun core => ⟨happens_sweepBegin core, fun u => ⟨arrives_ghostUpdateArrive_here core u, arrives_ghostUpdateArrive_away core u⟩,
      arrives_monitorWindowClose core, happens_chainTimeout core, arrives_stopNotice core⟩⟩
  case key =>
    rintro k s ⟨hc, hs, hb⟩
    obtain ⟨hkey, -⟩ := exec_saCommandStart hc hs
    exact ⟨_, hkey k hb, rfl⟩
  case clr =>
    rintro s ⟨hc, hs, hb⟩
    obtain ⟨-, hclr, -⟩ := exec_saCommandStart hc hs
    exact ⟨_, hclr hb, rfl⟩
  case swp =>
    rintro n b s ⟨hc, hs, hb, h4, h5⟩
    obtain ⟨-, -, hswp⟩ := exec_saCommandStart hc hs
    exact ⟨_, hswp n b hb h4 h5, rfl⟩

end Sys2Proof.Machine
end

section
/-! PROOF. A message sent in a machine that holds a packet under a number not yet given out (O31). -/

set_option Elab.async false

namespace Sys2Proof.Machine

/-- A packet whose last flit has still to leave its source, which is no core of the package: 192 stands beyond the fourth die, so that no die
edge leads on, and the ghost update that goes on behind the packet is at core 0 at once. -/
def strayPacket : NetPacket :=
  { ch := .am, src := .core 192, dst := .core 0, flits := 1, hops := []
    onward := some ⟨ghostOnWay, 32, 32, .ghost, .core 192, .core 0, 0⟩ }

/-- The program of one packet with two handlers, its lane group with lane 0 active, and the stray packet under the number that follows that
of the next command. `k4`, which is 0, describes a message without payload to the launch's handler 0 on core 0, where the lane group runs. -/
def besideStray : State :=
  { State.reset.placeWord 0 with
    lgs := [(2, { placeLg 0 with em := 1, landing := false })]
    launches := [(0, { placeLaunch 0 with words := (placeLaunch 0).words.set 1 (2#64 <<< 48) })]
    packs := [(4, strayPacket)] }

/-- The ghost updates in the inbox of core 0, where the machine goes on. -/
def inboxOf : Out → List GhostUpd
  | .next t => (t.core 0).ghin
  | _ => []

/-- The message takes no link, so it makes no packet; `sendNow` finds the stray one under the number it looks at and moves its flit. -/
theorem inboxOf_amSend_besideStray : inboxOf (exec (.amSend 4 31 7 15) besideStray) ≠ [] := by decide

/-- Refutes O31: the statement speaks of every state, also of one that holds a packet under a number not yet given out, which no run makes.
There an `am.send` to its own core moves that packet too, whose ghost update enters the inbox of core 0; the statement has a sent message
leave the cores as they are. -/
theorem not_tagAndMessageWords : ¬ Obligations.TagAndMessageWords := by
  unfold Obligations.TagAndMessageWords
  rintro ⟨-, -, -, hsend, -⟩
  obtain ⟨hsent, -⟩ := hsend 4 31 7 15
  obtain ⟨t, ht, _, -, -, -, -, -, hframe⟩ := hsent besideStray _ rfl rfl (by decide)
  have hinbox : (t.core 0).ghin = [] := by
    rw [hframe]
    rfl
  exact inboxOf_amSend_besideStray ((congrArg inboxOf ht).trans hinbox)

end Sys2Proof.Machine
end

section
/-! PROOF. What the events of the die links, the peer and host ports and the expanders' ports do (R235 to R237, R405, R432 to R438; O57): flits
that leave and arrive, naks and timers, retrains, ports lost and returned. -/

set_option Elab.async false

namespace Sys2Proof.Machine

section
variable {s : State} {e d m : Nat}

/-! ## Modules and their directions -/

theorem State.ldir_setLdir (s : State) (e d m d' : Nat) (x : LinkDir) :
    (s.setLdir e d m x).ldir e d' m = if d' = d then x else s.ldir e d' m := by
  have hkey : dirKey e d' m = dirKey e d m ↔ d' = d := by
    unfold dirKey
    omega
  rw [State.ldir, State.setLdir, Tab.getD_setD]
  exact if_congr hkey rfl rfl

@[simp] theorem State.ldir_setLdir_self (s : State) (x : LinkDir) : (s.setLdir e d m x).ldir e d m = x := by
  rw [State.ldir_setLdir, if_pos rfl]

theorem State.ldir_setLdir_other (s : State) (x : LinkDir) {d' : Nat} (h : d' ≠ d) : (s.setLdir e d m x).ldir e d' m = s.ldir e d' m := by
  rw [State.ldir_setLdir, if_neg h]

@[simp] theorem State.ldir_back_setLdir (s : State) (x : LinkDir) : (s.setLdir e d m x).ldir e (1 - d) m = s.ldir e (1 - d) m :=
  State.ldir_setLdir_other s x (by omega)

@[simp] theorem State.ldir_setLdir_back (s : State) (x : LinkDir) : (s.setLdir e (1 - d) m x).ldir e d m = s.ldir e d m :=
  State.ldir_setLdir_other s x (by omega)

@[simp] theorem State.now_setLdir (s : State) (x : LinkDir) : (s.setLdir e d m x).now = s.now := rfl

/-- A write of a direction leaves the rest of the machine. -/
theorem State.setLdir_frame {s t : State} (x : LinkDir) (h : t = { s with ldirs := t.ldirs }) :
    t.setLdir e d m x = { s with ldirs := (t.setLdir e d m x).ldirs } := by
  rw [h]
  rfl

theorem State.modDirs_frame (s : State) (f : LinkDir → LinkDir) : s.modDirs e m f = { s with ldirs := (s.modDirs e m f).ldirs } :=
  State.setLdir_frame _ (State.setLdir_frame _ rfl)

theorem State.setLink_frame {s t : State} (x : Link) (h : t = { s with ldirs := t.ldirs }) :
    t.setLink e m x = { s with links := (t.setLink e m x).links, ldirs := (t.setLink e m x).ldirs } := by
  rw [h]
  rfl

theorem State.link_setLink (s : State) (e m n : Nat) (x : Link) : (s.setLink e m x).link e n = if n = m then x else s.link e n := by
  rw [State.link, State.setLink, Tab.getD_setD]
  exact if_congr (by omega) rfl rfl

@[simp] theorem LinkDir.lastGot_acked (x : LinkDir) (n : Nat) : (x.acked n).lastGot = x.lastGot := rfl

/-! ## Flits (R235, R236, R436) -/

/-- `t` is `s` once the receiver of direction `d` has sent a nak, and so waits for a resend; `y` is what the direction was else. -/
def NakSent (e d m : Nat) (s t : State) (y : LinkDir) : Prop :=
  t.ldir e d m = { y with waiting := true, nakAt := s.now } ∧
  t.ldir e (1 - d) m = { s.ldir e (1 - d) m with
    flight := (s.ldir e (1 - d) m).flight ++
      [{ seq := (s.ldir e d m).expect, ack := (s.ldir e d m).lastGot, bytes := 0, whole := [], kind := 2, at_ := s.now }]
    sentAt := s.now } ∧
  t = { s with ldirs := t.ldirs }

theorem nakSent_sendNak (s : State) (e d m : Nat) : NakSent e d m s (s.sendNak e d m) (s.ldir e d m) :=
  ⟨by simp [State.sendNak], by simp [State.sendNak], State.setLdir_frame _ (State.setLdir_frame _ rfl)⟩

/-- The number that a nak names is that of the receiver, which a write of `y` leaves. -/
theorem nakSent_setLdir_sendNak (s : State) {y : LinkDir} (hy : y.expect = (s.ldir e d m).expect) :
    NakSent e d m s ((s.setLdir e d m y).sendNak e d m) y :=
  ⟨by simp [State.sendNak], by simp [State.sendNak, LinkDir.lastGot, hy],
    State.setLdir_frame _ (State.setLdir_frame _ (State.setLdir_frame _ rfl))⟩

/-- The direction `y` once what it keeps has been sent anew with the latest ack of the other direction (R236). -/
def State.sentAnew (s : State) (e d m : Nat) (y : LinkDir) : LinkDir :=
  let fs := y.replay.map fun h => { h with ack := (s.ldir e (1 - d) m).lastGot, at_ := s.now }
  { y with replay := fs, flight := y.flight ++ fs, sentAt := if fs.isEmpty then y.sentAt else s.now }

theorem State.resend_eq (s : State) (e d m : Nat) : s.resend e d m = s.setLdir e d m (s.sentAnew e d m (s.ldir e d m)) := rfl

theorem State.takeFlit_bad {f : Flit} {r : List Flit} (h : (s.ldir e d m).flight = f :: r) :
    s.takeFlit e d m false =
      (s.setLdir e d m { s.ldir e d m with flight := r, crc := (s.ldir e d m).crc + 1 }).sendNak e d m := by
  simp [State.takeFlit, h]

theorem State.takeFlit_next {f : Flit} {r : List Flit} (h : (s.ldir e d m).flight = f :: r) (hk : f.kind = 0)
    (hq : f.seq = (s.ldir e d m).expect) (hw : f.whole = []) :
    s.takeFlit e d m true =
      ((s.setLdir e d m { s.ldir e d m with flight := r }).setLdir e (1 - d) m ((s.ldir e (1 - d) m).acked ((f.ack + 1) % 4096))).setLdir e d m
        { s.ldir e d m with flight := r, expect := ((s.ldir e d m).expect + 1) % 4096, waiting := false } := by
  simp [State.takeFlit, h, hk, hq, hw]

/-- The sender of a direction takes a nak for a number that the last nak did not name: no retrain follows. -/
theorem State.takeNak_first {n : Nat} (h : (s.ldir e d m).nakFor ≠ some n) :
    s.takeNak e d m n = (s.setLdir e d m (({ s.ldir e d m with nak := (s.ldir e d m).nak + 1, nakFor := some n, nakCount := 1 } : LinkDir).acked
      n)).resend e d m := by
  simp [State.takeNak, h]

theorem State.takeFlit_nak {f : Flit} {r : List Flit} (h : (s.ldir e d m).flight = f :: r) (hk : f.kind = 2) :
    s.takeFlit e d m true =
      ((s.setLdir e d m { s.ldir e d m with flight := r }).setLdir e (1 - d) m ((s.ldir e (1 - d) m).acked ((f.ack + 1) % 4096))).takeNak
        e (1 - d) m f.seq := by
  simp [State.takeFlit, h, hk]

/-- A nak for a number that the last nak did not name arrives: what it acknowledges is let go, then the rest is resent from that number. -/
theorem State.takeFlit_firstNak {f : Flit} {r : List Flit} (hd : d < 2) (hf : (s.ldir e (1 - d) m).flight = f :: r) (hk : f.kind = 2)
    (hn : (s.ldir e d m).nakFor ≠ some f.seq) :
    let y := (s.ldir e d m).acked ((f.ack + 1) % 4096)
    s.takeFlit e (1 - d) m true =
      (((s.setLdir e (1 - d) m { s.ldir e (1 - d) m with flight := r }).setLdir e d m y).setLdir e d m
        (({ y with nak := y.nak + 1, nakFor := some f.seq, nakCount := 1 } : LinkDir).acked f.seq)).resend e d m := by
  have hback : 1 - (1 - d) = d := by omega
  rw [State.takeFlit_nak hf hk, hback, State.takeNak_first (by simpa [LinkDir.acked] using hn), State.ldir_setLdir_self]

theorem happens_linkFlitSend (e d m : Nat) (ws ls : List LPacket) (n : Nat) : Happens (.linkFlitSend e d m)
    (fun s => s.canFlit e d m = true ∧ pack flitRoom (s.ldir e d m).stored = (ws, ls, n))
    (fun s t =>
      let x := s.ldir e d m
      let f : Flit := { seq := x.next, ack := (s.ldir e (1 - d) m).lastGot, bytes := n, whole := ws, pst := firstStart x.stored, at_ := s.now }
      t.ldir e d m = { x with
        stored := ls, next := (x.next + 1) % 4096, replay := x.replay ++ [f], flight := x.flight ++ [f], sentAt := s.now } ∧
      t = { s with ldirs := t.ldirs }) :=
  happens_cond (execLinkFlitSend e d m) rfl (fun _ => rfl) (fun _ h => h.1) fun s ⟨_, hp⟩ =>
    ⟨by simp [hp], rfl⟩

theorem happens_linkFlitReceive (e d m : Nat) (f : Flit) (r : List Flit) :
    Happens (.linkFlitReceive e d m false) (fun s => (d < 2 ∧ s.moduleUp e m = true) ∧ (s.ldir e d m).flight = f :: r)
      (fun s t => NakSent e d m s t { s.ldir e d m with flight := r, crc := (s.ldir e d m).crc + 1 }) ∧
    Happens (.linkFlitReceive e d m true) (fun s => (d < 2 ∧ s.moduleUp e m = true) ∧ (s.ldir e d m).flight = f :: r ∧ f.kind = 0 ∧
        f.seq = (s.ldir e d m).expect ∧ f.whole = [])
      (fun s t => t.ldir e d m = { s.ldir e d m with flight := r, expect := ((s.ldir e d m).expect + 1) % 4096, waiting := false } ∧
        t.ldir e (1 - d) m = (s.ldir e (1 - d) m).acked ((f.ack + 1) % 4096) ∧ t = { s with ldirs := t.ldirs }) := by
  constructor
  · refine happens_cond (execLinkFlitReceive e d m false) rfl (fun _ => rfl) (fun _ ⟨⟨hd, hu⟩, _⟩ => by simp [hd, hu]) ?_
    rintro s ⟨-, hf⟩
    rw [State.takeFlit_bad hf]
    exact nakSent_setLdir_sendNak s rfl
  · refine happens_cond (execLinkFlitReceive e d m true) rfl (fun _ => rfl) (fun _ ⟨⟨hd, hu⟩, _⟩ => by simp [hd, hu]) ?_
    rintro s ⟨-, hf, hk, hq, hw⟩
    rw [State.takeFlit_next hf hk hq hw]
    exact ⟨by simp, by simp, State.setLdir_frame _ (State.setLdir_frame _ (State.setLdir_frame _ rfl))⟩

theorem happens_linkNakReceive (e d m : Nat) (f : Flit) (r : List Flit) : Happens (.linkNakReceive e d m)
    (fun s => (d < 2 ∧ s.moduleUp e m = true) ∧ (s.ldir e (1 - d) m).flight = f :: r ∧ f.kind = 2 ∧ (s.ldir e d m).nakFor ≠ some f.seq)
    (fun s t =>
      let y := (s.ldir e d m).acked ((f.ack + 1) % 4096)
      t.ldir e d m = s.sentAnew e d m (({ y with nak := y.nak + 1, nakFor := some f.seq, nakCount := 1 } : LinkDir).acked f.seq) ∧
        t.ldir e (1 - d) m = { s.ldir e (1 - d) m with flight := r } ∧ t = { s with ldirs := t.ldirs }) := by
  refine happens_cond (execLinkNakReceive e d m) rfl (fun _ => rfl)
    (fun _ ⟨⟨hd, hu⟩, hf, hk, _⟩ => by simp [hd, hu, State.nakDue, hf, hk]) ?_
  rintro s ⟨⟨hd, -⟩, hf, hk, hn⟩
  rw [State.takeFlit_firstNak hd hf hk hn, State.resend_eq]
  exact ⟨by simp [State.sentAnew, LinkDir.lastGot], by simp,
    State.setLdir_frame _ (State.setLdir_frame _ (State.setLdir_frame _ (State.setLdir_frame _ rfl)))⟩

theorem happens_linkIdleTimer (e d m : Nat) : Happens (.linkIdleTimer e d m) (fun s => s.canIdle e d m = true)
    (fun s t =>
      let y := s.ldir e (1 - d) m
      let f : Flit := { seq := 0, ack := (s.ldir e d m).lastGot, bytes := 0, whole := [], kind := 1, at_ := s.now }
      t.ldir e (1 - d) m = { y with flight := y.flight ++ [f], sentAt := s.now } ∧ t = { s with ldirs := t.ldirs }) :=
  happens_cond (execLinkIdleTimer e d m) rfl (fun _ => rfl) (fun _ h => h) fun _ _ => ⟨State.ldir_setLdir_self _ _, rfl⟩

theorem happens_nakRepeatTimer (e d m : Nat) : Happens (.nakRepeatTimer e d m)
    (fun s => (d < 2 ∧ s.moduleUp e m = true) ∧ (s.ldir e d m).waiting = true ∧ (s.ldir e d m).nakAt + 64 ≤ s.now)
    (fun s t => NakSent e d m s t (s.ldir e d m)) :=
  happens_cond (execNakRepeatTimer e d m) rfl (fun _ => rfl)
    (fun _ ⟨⟨hd, hu⟩, hw, hn⟩ => by simp [State.canRepeatNak, hd, hu, hw, hn]) fun s _ => nakSent_sendNak s e d m

/-! ## Retrains (R237, R405, R436 to R438) -/

/-- `t` is `s` with the module training: one more retrain counted, nothing but the edges' modules and directions touched. -/
def Trains (e m : Nat) (s t : State) : Prop :=
  (t.link e m).st = 1 ∧ (t.link e m).rtr = (s.link e m).rtr + 1 ∧ (t.link e m).trainAt = s.now ∧
    t = { s with links := t.links, ldirs := t.ldirs }

/-- With fewer than eight retrains within 1 ms before it, a retrain takes no module down. -/
theorem trains_retrain (h : ((s.link e m).recent.filter fun t => decide (s.now < t + 2000000)).length < 8) : Trains e m s (s.retrain e m) := by
  have hfew : ¬ 8 < (s.now :: (s.link e m).recent.filter fun t => decide (s.now < t + 2000000)).length := by
    rw [List.length_cons]
    omega
  rw [State.retrain, if_neg hfew]
  exact ⟨by simp [State.link_setLink], by simp [State.link_setLink], by simp [State.link_setLink], State.setLink_frame _ (s.modDirs_frame _)⟩

theorem happens_linkLockLoss (e m : Nat) : Happens (.linkLockLoss e m)
    (fun s => s.moduleUp e m = true ∧ ((s.link e m).recent.filter fun t => decide (s.now < t + 2000000)).length < 8) (Trains e m) :=
  happens_cond (execLinkLockLoss e m) rfl (fun _ => rfl) (fun _ h => h.1) fun _ h => trains_retrain h.2

theorem State.ackLate_of_mem {f : Flit} (hf : f ∈ (s.ldir e d m).replay) (h : f.at_ + 4000 ≤ s.now) : s.ackLate e d m = true :=
  List.any_eq_true.mpr ⟨f, hf, decide_eq_true h⟩

theorem happens_linkAckTimeout (e m : Nat) : Happens (.linkAckTimeout e m)
    (fun s => s.moduleUp e m = true ∧ (∃ d, d < 2 ∧ ∃ f ∈ (s.ldir e d m).replay, f.at_ + 4000 ≤ s.now) ∧
      ((s.link e m).recent.filter fun t => decide (s.now < t + 2000000)).length < 8) (Trains e m) := by
  refine happens_cond (execLinkAckTimeout e m) rfl (fun _ => rfl) ?_ fun _ ⟨_, _, h⟩ => trains_retrain h
  rintro s ⟨hu, ⟨d, hd, f, hf, hlate⟩, -⟩
  have hany : ([0, 1].any fun d => s.ackLate e d m) = true :=
    List.any_eq_true.mpr ⟨d, by simp; omega, State.ackLate_of_mem hf hlate⟩
  rw [hu, hany]
  rfl

/-- One direction of a module after a retrain: it replays from its receiver's expected number. -/
def State.replays (s : State) (e d m : Nat) : State :=
  (s.setLdir e d m { (s.ldir e d m).quiet with replay := (s.ldir e d m).unaccepted }).resend e d m

theorem State.ldir_replays (s : State) (e d m : Nat) : (s.replays e d m).ldir e d m =
    s.sentAnew e d m { (s.ldir e d m).quiet with replay := (s.ldir e d m).unaccepted } := by
  simp [State.replays, State.resend_eq, State.sentAnew]

theorem State.ldir_replays_other (s : State) {d d' : Nat} (h : d' ≠ d) : (s.replays e d m).ldir e d' m = s.ldir e d' m := by
  rw [State.replays, State.resend_eq, State.ldir_setLdir_other _ _ h, State.ldir_setLdir_other _ _ h]

theorem State.replays_frame {t : State} (h : t = { s with links := t.links, ldirs := t.ldirs }) :
    t.replays e d m = { s with links := (t.replays e d m).links, ldirs := (t.replays e d m).ldirs } := by
  rw [h]
  rfl

@[simp] theorem State.link_replays (s : State) (n : Nat) : (s.replays e d m).link e n = s.link e n := rfl

/-- Both directions replay, each with the ack of the other as it was. -/
theorem State.ldir_replays_both (s : State) (e m : Nat) {d : Nat} (hd : d < 2) : ((s.replays e 0 m).replays e 1 m).ldir e d m =
    s.sentAnew e d m { (s.ldir e d m).quiet with replay := (s.ldir e d m).unaccepted } := by
  obtain rfl | rfl : d = 0 ∨ d = 1 := by omega
  · rw [State.ldir_replays_other _ (by decide), State.ldir_replays]
  · have hack : ((s.replays e 0 m).ldir e (1 - 1) m).lastGot = (s.ldir e (1 - 1) m).lastGot := by
      rw [State.ldir_replays]
      rfl
    rw [State.ldir_replays, State.ldir_replays_other _ (by decide), State.sentAnew, hack]
    rfl

/-- A module that trained takes no other's traffic where none of the edge is down (R437). -/
theorem State.foldl_nextModules_of_up (h : ∀ n ∈ nextModules m, (s.link e n).st ≠ 0) :
    (nextModules m).foldl (fun s n =>
      if (s.link e n).st = 0 ∧ ((s.link e n).subst.map fun k => s.moduleUp e k || (s.link e k).st == 1).getD false = false then
        s.moveTo e n m else s) s = s := by
  simp only [nextModules, List.forall_mem_cons] at h
  obtain ⟨h1, h2, h3, -⟩ := h
  simp [nextModules, h1, h2, h3]

/-- Module `m` of edge `e` up on all its lanes, both directions replaying. -/
def State.retrained (s : State) (e m : Nat) : State := ((s.setLink e m { s.link e m with st := 2, half := 0 }).replays e 0 m).replays e 1 m

theorem State.link_retrained (s : State) (e m n : Nat) :
    (s.retrained e m).link e n = if n = m then { s.link e m with st := 2, half := 0 } else s.link e n := by
  rw [State.retrained, State.link_replays, State.link_replays, State.link_setLink]

theorem State.ldir_retrained (s : State) (e m : Nat) {d : Nat} (hd : d < 2) : (s.retrained e m).ldir e d m =
    s.sentAnew e d m { (s.ldir e d m).quiet with replay := (s.ldir e d m).unaccepted } := by
  rw [State.retrained, State.ldir_replays_both _ _ _ hd]
  rfl

theorem State.retrained_frame (s : State) (e m : Nat) :
    s.retrained e m = { s with links := (s.retrained e m).links, ldirs := (s.retrained e m).ldirs } := by
  rw [State.retrained]
  exact State.replays_frame (State.replays_frame rfl)

theorem exec_linkRetrainDone_all (he : e < 4) (hm : m < 4) (hdown : e ∉ s.edgesDown) (hst : (s.link e m).st = 1) (hhalf : (s.link e m).half = 0)
    (hnext : ∀ n ∈ nextModules m, (s.link e n).st ≠ 0) : exec (.linkRetrainDone e m 0) s = .next (s.retrained e m) := by
  have hup : ∀ n ∈ nextModules m, ((s.retrained e m).link e n).st ≠ 0 := by
    intro n hn
    rw [State.link_retrained]
    split
    · simp
    · exact hnext n hn
  show execLinkRetrainDone e m 0 s = _
  rw [execLinkRetrainDone]
  dsimp only
  rw [event_of (by simp [he, hm, hdown, hst, hhalf])]
  have hall : ¬ (((0 : BitVec 2) != 0 && (s.link e m).half == 0) = true) := by simp
  rw [if_neg (show (0 : BitVec 2) ≠ 3 by decide), if_neg hall]
  exact congrArg Host.Outcome.next (State.foldl_nextModules_of_up hup)

theorem happens_linkRetrainDone (e m : Nat) : Happens (.linkRetrainDone e m 0)
    (fun s => e < 4 ∧ m < 4 ∧ e ∉ s.edgesDown ∧ (s.link e m).st = 1 ∧ (s.link e m).half = 0 ∧
      ∀ n ∈ nextModules m, (s.link e n).st ≠ 0)
    (fun s t => t.link e m = { s.link e m with st := 2 } ∧
      (∀ d, d < 2 → t.ldir e d m = s.sentAnew e d m { (s.ldir e d m).quiet with replay := (s.ldir e d m).unaccepted }) ∧
      t = { s with links := t.links, ldirs := t.ldirs }) := by
  rintro s ⟨he, hm, hdown, hst, hhalf, hnext⟩
  refine ⟨_, exec_linkRetrainDone_all he hm hdown hst hhalf hnext, ?_, fun d hd => s.ldir_retrained e m hd, s.retrained_frame e m⟩
  rw [State.link_retrained, if_pos rfl, ← hhalf]

theorem happens_retrainTimeout (e m : Nat) (b : Bool) : Happens (.retrainTimeout e m b)
    (fun s => e < 4 ∧ m < 4 ∧ (s.link e m).st = 1 ∧ (s.link e m).trainAt + 1600 ≤ s.now) (fun s t => t = s.moduleFails e m b) :=
  happens_cond (execRetrainTimeout e m b) rfl (fun _ => rfl) (fun _ ⟨he, hm, hst, hn⟩ => by simp [he, hm, hst, hn]) fun _ _ => rfl

/-! ## Ports (R250, R432 to R435) -/

theorem happens_portLost (p : Nat) : Happens (.portLost p) (fun s => p ≤ 8 ∧ Tab.getD s.ports false p = false)
    (fun s t => t = ({ s with ports := s.ports.put p true } : State).linkRec .link (if p = 8 then 24 else 32 + p)) :=
  happens_cond (execPortLost p) rfl (fun _ => rfl) (fun _ ⟨hp, hport⟩ => by simp [hp, hport]) fun _ _ => rfl

theorem happens_cxlLinkStateChange (p : Nat) (b : Bool) : Happens (.cxlLinkStateChange p b) (fun _ => p < 4) (fun s t =>
    t.win' (oCXS p) = setBits (s.win' (oCXS p)) 0 2 (if b then 2 else 1) ∧ (b = true → t.cxlDownAt.find p = none) ∧
    (b = false → (t.cxlDownAt.find p).isSome = true) ∧ t = { s with win := t.win, cxlDownAt := t.cxlDownAt }) := by
  refine happens_cond (execCxlLinkStateChange p b) rfl (fun _ => rfl) (fun _ hp => by simp [hp]) fun s _ => ⟨?_, ?_, ?_, rfl⟩
  · have hwin := State.win'_setWinBits s (oCXS p) 0 2 (if b then 2 else 1) (oCXS p)
    rw [if_pos rfl] at hwin
    exact hwin
  · rintro rfl
    simp [Tab.find_del]
  · rintro rfl
    cases hdown : s.cxlDownAt.find p <;> simp [hdown, Tab.find_put_self]

/-- Where the directory lists no line and no message is under way, losing an expander's port fences its range, counts the loss and writes
the record. -/
theorem State.cxlLost_of_idle (s : State) (p : Nat) (hdir : s.dir = []) (hpending : s.pending = []) :
    let s1 := s.setWinBits (oCXS p) 2 1 1
    let u := s1.setWinBits (oCXS p) 16 16 (s1.winBits (oCXS p) 16 16 + 1)
    s.cxlLost p = ({ u with cxlDownAt := u.cxlDownAt.del p } : State).linkRec .link (48 + p) := by
  have hcount : (s.setWinBits (oCXS p) 2 1 1).winBits (oCXS p) 16 16 = s.winBits (oCXS p) 16 16 :=
    State.winBits_setWinBits_above s _ 2 1 1 16 16 (by decide) (by decide)
  dsimp only
  rw [hcount]
  simp [State.cxlLost, hdir, hpending]

theorem happens_cxlPortLost (p : Nat) : Happens (.cxlPortLost p) (fun s => p < 4 ∧ s.winBits (oCXS p) 2 1 = 0)
    (fun s t => t = (s.cxlLost p).setWinBits (oCXS p) 0 2 0 ∧
      (s.dir = [] → s.pending = [] →
        let s1 := s.setWinBits (oCXS p) 2 1 1
        let u := s1.setWinBits (oCXS p) 16 16 (s1.winBits (oCXS p) 16 16 + 1)
        s.cxlLost p = ({ u with cxlDownAt := u.cxlDownAt.del p } : State).linkRec .link (48 + p))) :=
  happens_cond (execCxlPortLost p) rfl (fun _ => rfl) (fun _ ⟨hp, hfence⟩ => by simp [hp, hfence]) fun s _ => ⟨rfl, s.cxlLost_of_idle p⟩

/-- The range register takes the bits that it holds; what the write may clear is in another register, the port's status. -/
theorem State.win'_writeCxm (s : State) (p : Nat) (v : DWord) : (s.writeCxm p v).win' (oCXM p) = v &&& 0x7FFF7 := by
  have hother : oCXM p ≠ oCXS p := by
    unfold oCXM oCXS
    omega
  unfold State.writeCxm
  dsimp only
  split
  · rw [State.win'_setWinBits, if_neg hother, State.win'_setWin, if_pos rfl]
  · rw [State.win'_setWin, if_pos rfl]

theorem happens_cxlRangeEnable (p : Nat) (v : BitVec 64) : Happens (.cxlRangeEnable p v) (fun s => p < 4 ∧ s.hostUp = true)
    (fun _ t => t.win' (oCXM p) = v &&& 0x7FFF7) :=
  happens_cond (execCxlRangeEnable p v) rfl (fun _ => rfl) (fun _ ⟨hp, hup⟩ => by simp [hp, hup]) fun s _ => s.win'_writeCxm p v

theorem happens_hostPortReturn : Happens .hostPortReturn (fun s => Tab.getD s.ports false 8 = true)
    (fun s t => t = s.heldRecs.foldl (fun s r => s.mgrRec (r.map (·.toNat))) { s with ports := s.ports.del 8, heldRecs := [] }) :=
  happens_cond execHostPortReturn rfl (fun _ => rfl) (fun _ h => h) fun _ _ => rfl

end

/-- Settles O57: each event by its condition and what it then does to the module's directions, the edge's modules or the port. -/
theorem linkEvents : Obligations.LinkEvents := by
  unfold Obligations.LinkEvents
  exact ⟨fun e d m => ⟨happens_linkFlitSend e d m, happens_linkFlitReceive e d m, happens_linkNakReceive e d m, happens_linkIdleTimer e d m,
      happens_nakRepeatTimer e d m⟩,
    fun e m => ⟨happens_linkLockLoss e m, happens_linkAckTimeout e m, happens_linkRetrainDone e m, happens_retrainTimeout e m⟩,
    fun p => ⟨happens_portLost p, happens_cxlLinkStateChange p, happens_cxlPortLost p, happens_cxlRangeEnable p⟩,
    happens_hostPortReturn⟩

end Sys2Proof.Machine
end

section
/-! PROOF. Encoding and decoding are inverse (R252, R265, R269, R277; O1 to O3). -/

set_option Elab.async false

namespace Sys2Proof.Laws

/-- The word of an instruction decodes to it: each constructor by its own law, an event having no word. -/
theorem decode_encode (i : Instr) : Coding.Statement i := by
  cases i with
  | add x0 x1 x2 x3 => exact Coding.add x0 x1 x2 x3
  | sub x0 x1 x2 x3 => exact Coding.sub x0 x1 x2 x3
  | addc x0 x1 x2 x3 => exact Coding.addc x0 x1 x2 x3
  | subb x0 x1 x2 x3 => exact Coding.subb x0 x1 x2 x3
  | mullo x0 x1 x2 x3 => exact Coding.mullo x0 x1 x2 x3
  | mulhi x0 x1 x2 x3 => exact Coding.mulhi x0 x1 x2 x3
  | and x0 x1 x2 x3 => exact Coding.and x0 x1 x2 x3
  | or x0 x1 x2 x3 => exact Coding.or x0 x1 x2 x3
  | xor x0 x1 x2 x3 => exact Coding.xor x0 x1 x2 x3
  | andn x0 x1 x2 x3 => exact Coding.andn x0 x1 x2 x3
  | shl x0 x1 x2 x3 => exact Coding.shl x0 x1 x2 x3
  | shr x0 x1 x2 x3 => exact Coding.shr x0 x1 x2 x3
  | sar x0 x1 x2 x3 => exact Coding.sar x0 x1 x2 x3
  | rotl x0 x1 x2 x3 => exact Coding.rotl x0 x1 x2 x3
  | min x0 x1 x2 x3 => exact Coding.min x0 x1 x2 x3
  | max x0 x1 x2 x3 => exact Coding.max x0 x1 x2 x3
  | addi x0 x1 x2 x3 => exact Coding.addi x0 x1 x2 x3
  | andi x0 x1 x2 x3 => exact Coding.andi x0 x1 x2 x3
  | ori x0 x1 x2 x3 => exact Coding.ori x0 x1 x2 x3
  | xori x0 x1 x2 x3 => exact Coding.xori x0 x1 x2 x3
  | shli x0 x1 x2 x3 => exact Coding.shli x0 x1 x2 x3
  | shri x0 x1 x2 x3 => exact Coding.shri x0 x1 x2 x3
  | sari x0 x1 x2 x3 => exact Coding.sari x0 x1 x2 x3
  | muli x0 x1 x2 x3 => exact Coding.muli x0 x1 x2 x3
  | clz x0 x1 x2 => exact Coding.clz x0 x1 x2
  | ctz x0 x1 x2 => exact Coding.ctz x0 x1 x2
  | popc x0 x1 x2 => exact Coding.popc x0 x1 x2
  | brev x0 x1 x2 => exact Coding.brev x0 x1 x2
  | bfe x0 x1 x2 x3 x4 => exact Coding.bfe x0 x1 x2 x3 x4
  | bfi x0 x1 x2 x3 x4 => exact Coding.bfi x0 x1 x2 x3 x4
  | faddF32 x0 x1 x2 x3 => exact Coding.faddF32 x0 x1 x2 x3
  | fsubF32 x0 x1 x2 x3 => exact Coding.fsubF32 x0 x1 x2 x3
  | fmulF32 x0 x1 x2 x3 => exact Coding.fmulF32 x0 x1 x2 x3
  | fminF32 x0 x1 x2 x3 => exact Coding.fminF32 x0 x1 x2 x3
  | fmaxF32 x0 x1 x2 x3 => exact Coding.fmaxF32 x0 x1 x2 x3
  | faddBf16x2 x0 x1 x2 x3 => exact Coding.faddBf16x2 x0 x1 x2 x3
  | fsubBf16x2 x0 x1 x2 x3 => exact Coding.fsubBf16x2 x0 x1 x2 x3
  | fmulBf16x2 x0 x1 x2 x3 => exact Coding.fmulBf16x2 x0 x1 x2 x3
  | fminBf16x2 x0 x1 x2 x3 => exact Coding.fminBf16x2 x0 x1 x2 x3
  | fmaxBf16x2 x0 x1 x2 x3 => exact Coding.fmaxBf16x2 x0 x1 x2 x3
  | faddF16x2 x0 x1 x2 x3 => exact Coding.faddF16x2 x0 x1 x2 x3
  | fsubF16x2 x0 x1 x2 x3 => exact Coding.fsubF16x2 x0 x1 x2 x3
  | fmulF16x2 x0 x1 x2 x3 => exact Coding.fmulF16x2 x0 x1 x2 x3
  | fminF16x2 x0 x1 x2 x3 => exact Coding.fminF16x2 x0 x1 x2 x3
  | fmaxF16x2 x0 x1 x2 x3 => exact Coding.fmaxF16x2 x0 x1 x2 x3
  | frcp x0 x1 x2 x3 => exact Coding.frcp x0 x1 x2 x3
  | frsqrt x0 x1 x2 x3 => exact Coding.frsqrt x0 x1 x2 x3
  | fsqrt x0 x1 x2 x3 => exact Coding.fsqrt x0 x1 x2 x3
  | fexp2 x0 x1 x2 x3 => exact Coding.fexp2 x0 x1 x2 x3
  | flog2 x0 x1 x2 x3 => exact Coding.flog2 x0 x1 x2 x3
  | fsin x0 x1 x2 x3 => exact Coding.fsin x0 x1 x2 x3
  | fcos x0 x1 x2 x3 => exact Coding.fcos x0 x1 x2 x3
  | fclass x0 x1 x2 x3 => exact Coding.fclass x0 x1 x2 x3
  | ffmaF32 x0 x1 x2 x3 x4 => exact Coding.ffmaF32 x0 x1 x2 x3 x4
  | ffmaBf16x2 x0 x1 x2 x3 x4 => exact Coding.ffmaBf16x2 x0 x1 x2 x3 x4
  | ffmaF16x2 x0 x1 x2 x3 x4 => exact Coding.ffmaF16x2 x0 x1 x2 x3 x4
  | imadLo x0 x1 x2 x3 x4 => exact Coding.imadLo x0 x1 x2 x3 x4
  | imadHi x0 x1 x2 x3 x4 => exact Coding.imadHi x0 x1 x2 x3 x4
  | icmp x0 x1 x2 x3 => exact Coding.icmp x0 x1 x2 x3
  | fcmp x0 x1 x2 x3 => exact Coding.fcmp x0 x1 x2 x3
  | sel x0 x1 x2 x3 x4 => exact Coding.sel x0 x1 x2 x3 x4
  | pand x0 x1 x2 => exact Coding.pand x0 x1 x2
  | por x0 x1 x2 => exact Coding.por x0 x1 x2
  | pxor x0 x1 x2 => exact Coding.pxor x0 x1 x2
  | pnot x0 x1 => exact Coding.pnot x0 x1
  | ptest x0 x1 x2 => exact Coding.ptest x0 x1 x2
  | mov x0 x1 x2 => exact Coding.mov x0 x1 x2
  | li x0 x1 x2 => exact Coding.li x0 x1 x2
  | cvt x0 x1 x2 x3 => exact Coding.cvt x0 x1 x2 x3
  | shfl x0 x1 x2 x3 x4 x5 => exact Coding.shfl x0 x1 x2 x3 x4 x5
  | voteAny x0 x1 => exact Coding.voteAny x0 x1
  | voteAll x0 x1 => exact Coding.voteAll x0 x1
  | voteBallot x0 x1 x2 => exact Coding.voteBallot x0 x1 x2
  | edge x0 => exact Coding.edge x0
  | idxSet x0 x1 => exact Coding.idxSet x0 x1
  | idxAdd x0 x1 => exact Coding.idxAdd x0 x1
  | rgnPf x0 => exact Coding.rgnPf x0
  | rgrow x0 => exact Coding.rgrow x0
  | rshrink x0 => exact Coding.rshrink x0
  | rdsp x0 x1 x2 => exact Coding.rdsp x0 x1 x2
  | ldX x0 x1 x2 => exact Coding.ldX x0 x1 x2
  | stX x0 x1 => exact Coding.stX x0 x1
  | lih x0 x1 => exact Coding.lih x0 x1
  | ldB8Z x0 x1 x2 x3 x4 => exact Coding.ldB8Z x0 x1 x2 x3 x4
  | ldB8S x0 x1 x2 x3 x4 => exact Coding.ldB8S x0 x1 x2 x3 x4
  | ldB16Z x0 x1 x2 x3 x4 => exact Coding.ldB16Z x0 x1 x2 x3 x4
  | ldB16S x0 x1 x2 x3 x4 => exact Coding.ldB16S x0 x1 x2 x3 x4
  | ldB32 x0 x1 x2 x3 x4 => exact Coding.ldB32 x0 x1 x2 x3 x4
  | ldB64 x0 x1 x2 x3 x4 => exact Coding.ldB64 x0 x1 x2 x3 x4
  | ldB128 x0 x1 x2 x3 x4 => exact Coding.ldB128 x0 x1 x2 x3 x4
  | ldAcq x0 x1 x2 x3 x4 => exact Coding.ldAcq x0 x1 x2 x3 x4
  | kld x0 x1 x2 x3 => exact Coding.kld x0 x1 x2 x3
  | stB8 x0 x1 x2 x3 x4 => exact Coding.stB8 x0 x1 x2 x3 x4
  | stB16 x0 x1 x2 x3 x4 => exact Coding.stB16 x0 x1 x2 x3 x4
  | stB32 x0 x1 x2 x3 x4 => exact Coding.stB32 x0 x1 x2 x3 x4
  | stB64 x0 x1 x2 x3 x4 => exact Coding.stB64 x0 x1 x2 x3 x4
  | stB128 x0 x1 x2 x3 x4 => exact Coding.stB128 x0 x1 x2 x3 x4
  | stRel x0 x1 x2 x3 x4 => exact Coding.stRel x0 x1 x2 x3 x4
  | kst x0 x1 x2 x3 => exact Coding.kst x0 x1 x2 x3
  | stashMap x0 x1 x2 x3 x4 => exact Coding.stashMap x0 x1 x2 x3 x4
  | stashWb x0 x1 x2 => exact Coding.stashWb x0 x1 x2
  | stashWbE x0 x1 => exact Coding.stashWbE x0 x1
  | stashInv x0 x1 x2 => exact Coding.stashInv x0 x1 x2
  | stashInvE x0 x1 => exact Coding.stashInvE x0 x1
  | stashStg x0 x1 => exact Coding.stashStg x0 x1
  | atomAdd x0 x1 x2 x3 x4 x5 x6 => exact Coding.atomAdd x0 x1 x2 x3 x4 x5 x6
  | atomFaddF32 x0 x1 x2 x3 x4 x5 => exact Coding.atomFaddF32 x0 x1 x2 x3 x4 x5
  | atomAnd x0 x1 x2 x3 x4 x5 x6 => exact Coding.atomAnd x0 x1 x2 x3 x4 x5 x6
  | atomOr x0 x1 x2 x3 x4 x5 x6 => exact Coding.atomOr x0 x1 x2 x3 x4 x5 x6
  | atomXor x0 x1 x2 x3 x4 x5 x6 => exact Coding.atomXor x0 x1 x2 x3 x4 x5 x6
  | atomMin x0 x1 x2 x3 x4 x5 x6 x7 => exact Coding.atomMin x0 x1 x2 x3 x4 x5 x6 x7
  | atomMax x0 x1 x2 x3 x4 x5 x6 x7 => exact Coding.atomMax x0 x1 x2 x3 x4 x5 x6 x7
  | atomExch x0 x1 x2 x3 x4 x5 x6 => exact Coding.atomExch x0 x1 x2 x3 x4 x5 x6
  | atomCas x0 x1 x2 x3 x4 x5 x6 => exact Coding.atomCas x0 x1 x2 x3 x4 x5 x6
  | bra x0 => exact Coding.bra x0
  | braK x0 x1 => exact Coding.braK x0 x1
  | brd x0 x1 x2 => exact Coding.brd x0 x1 x2
  | call x0 => exact Coding.call x0
  | jinit x0 x1 => exact Coding.jinit x0 x1
  | jwait x0 => exact Coding.jwait x0
  | jarr x0 => exact Coding.jarr x0
  | ret => exact Coding.ret
  | exit => exact Coding.exit
  | emRd x0 => exact Coding.emRd x0
  | emWr x0 => exact Coding.emWr x0
  | barWg x0 => exact Coding.barWg x0
  | barSpan x0 x1 => exact Coding.barSpan x0 x1
  | barStep x0 => exact Coding.barStep x0
  | fenceAcq => exact Coding.fenceAcq
  | fenceRel => exact Coding.fenceRel
  | fenceAr => exact Coding.fenceAr
  | waitc x0 x1 x2 => exact Coding.waitc x0 x1 x2
  | waitm x0 x1 x2 => exact Coding.waitm x0 x1 x2
  | cset x0 x1 x2 => exact Coding.cset x0 x1 x2
  | cadd x0 x1 x2 => exact Coding.cadd x0 x1 x2
  | elect x0 => exact Coding.elect x0
  | kmov x0 x1 => exact Coding.kmov x0 x1
  | kmovFromLk x0 => exact Coding.kmovFromLk x0
  | kmovToLk x0 => exact Coding.kmovToLk x0
  | kadd x0 x1 x2 => exact Coding.kadd x0 x1 x2
  | ksub x0 x1 x2 => exact Coding.ksub x0 x1 x2
  | kand x0 x1 x2 => exact Coding.kand x0 x1 x2
  | kor x0 x1 x2 => exact Coding.kor x0 x1 x2
  | kxor x0 x1 x2 => exact Coding.kxor x0 x1 x2
  | kshl x0 x1 x2 => exact Coding.kshl x0 x1 x2
  | kshr x0 x1 x2 => exact Coding.kshr x0 x1 x2
  | kcmpEq x0 x1 x2 => exact Coding.kcmpEq x0 x1 x2
  | kcmpLtS x0 x1 x2 => exact Coding.kcmpLtS x0 x1 x2
  | kcmpLtZ x0 x1 x2 => exact Coding.kcmpLtZ x0 x1 x2
  | kbr x0 => exact Coding.kbr x0
  | kclaim x0 x1 => exact Coding.kclaim x0 x1
  | krel x0 => exact Coding.krel x0
  | kfromv x0 x1 x2 => exact Coding.kfromv x0 x1 x2
  | mxClaim x0 x1 x2 x3 => exact Coding.mxClaim x0 x1 x2 x3
  | mxRel x0 x1 => exact Coding.mxRel x0 x1
  | mxRec x0 x1 => exact Coding.mxRec x0 x1
  | mxLd x0 x1 x2 x3 => exact Coding.mxLd x0 x1 x2 x3
  | mxLdS x0 x1 x2 x3 => exact Coding.mxLdS x0 x1 x2 x3
  | mxLdb x0 x1 x2 x3 x4 => exact Coding.mxLdb x0 x1 x2 x3 x4
  | mxMma x0 x1 x2 x3 => exact Coding.mxMma x0 x1 x2 x3
  | mxPmma x0 x1 x2 x3 => exact Coding.mxPmma x0 x1 x2 x3
  | mxZero x0 x1 => exact Coding.mxZero x0 x1
  | mxDrain x0 x1 x2 x3 x4 => exact Coding.mxDrain x0 x1 x2 x3 x4
  | mxChk x0 x1 x2 => exact Coding.mxChk x0 x1 x2
  | saCfg x0 x1 x2 x3 => exact Coding.saCfg x0 x1 x2 x3
  | saKey x0 x1 => exact Coding.saKey x0 x1
  | saLdc x0 x1 x2 => exact Coding.saLdc x0 x1 x2
  | saLdh x0 x1 x2 => exact Coding.saLdh x0 x1 x2
  | saClmp x0 x1 x2 => exact Coding.saClmp x0 x1 x2
  | saUncl x0 x1 => exact Coding.saUncl x0 x1
  | saGhost x0 x1 x2 => exact Coding.saGhost x0 x1 x2
  | saSwp x0 x1 x2 x3 => exact Coding.saSwp x0 x1 x2 x3
  | saRdc x0 x1 x2 x3 x4 => exact Coding.saRdc x0 x1 x2 x3 x4
  | saRds x0 x1 x2 x3 x4 => exact Coding.saRds x0 x1 x2 x3 x4
  | saClr x0 => exact Coding.saClr x0
  | saMon x0 x1 => exact Coding.saMon x0 x1
  | saMonW x0 x1 x2 => exact Coding.saMonW x0 x1 x2
  | saStat x0 x1 => exact Coding.saStat x0 x1
  | tcLd x0 x1 x2 x3 x4 => exact Coding.tcLd x0 x1 x2 x3 x4
  | tcSt x0 x1 x2 x3 x4 => exact Coding.tcSt x0 x1 x2 x3 x4
  | tcMcast x0 x1 x2 x3 x4 => exact Coding.tcMcast x0 x1 x2 x3 x4
  | busA x0 x1 x2 x3 x4 => exact Coding.busA x0 x1 x2 x3 x4
  | busB x0 x1 x2 x3 x4 => exact Coding.busB x0 x1 x2 x3 x4
  | rvSend x0 x1 x2 x3 => exact Coding.rvSend x0 x1 x2 x3
  | rvTalloc x0 x1 => exact Coding.rvTalloc x0 x1
  | rvTfree x0 => exact Coding.rvTfree x0
  | rvStat x0 x1 => exact Coding.rvStat x0 x1
  | amSend x0 x1 x2 x3 => exact Coding.amSend x0 x1 x2 x3
  | amReg x0 x1 => exact Coding.amReg x0 x1
  | pipeBind x0 => exact Coding.pipeBind x0
  | pipePush x0 x1 => exact Coding.pipePush x0 x1
  | pipePop x0 x1 x2 => exact Coding.pipePop x0 x1 x2
  | pipeEos x0 => exact Coding.pipeEos x0
  | taskSpawn x0 x1 x2 => exact Coding.taskSpawn x0 x1 x2
  | taskSpawnL x0 x1 x2 => exact Coding.taskSpawnL x0 x1 x2
  | taskNext x0 => exact Coding.taskNext x0
  | taskDone => exact Coding.taskDone
  | nodeCommit x0 => exact Coding.nodeCommit x0
  | nop => exact Coding.nop
  | trap x0 => exact Coding.trap x0
  | sysret => exact Coding.sysret
  | crRd x0 x1 => exact Coding.crRd x0 x1
  | crWr x0 x1 => exact Coding.crWr x0 x1
  | park => exact Coding.park
  | poolPop x0 => exact Coding.poolPop x0
  | poolGive x0 x1 => exact Coding.poolGive x0 x1
  | xlatProbe x0 x1 x2 => exact Coding.xlatProbe x0 x1 x2
  | tlbInv x0 x1 => exact Coding.tlbInv x0 x1
  | bkpt x0 => exact Coding.bkpt x0
  | yield => exact Coding.yield
  | time x0 => exact Coding.time x0
  | _ => exact fun _ _ hnone => nomatch hnone

/-- Settles O1, by the law of each instruction. -/
theorem encodeThenDecode : Obligations.EncodeThenDecode := by
  unfold Obligations.EncodeThenDecode
  exact decode_encode

/-! ## From the word to the instruction -/

/-- A field put back where it was read is the word under the field's mask. -/
theorem put_fld (w : BitVec 32) (lo n : Nat) : put (fld w lo n) lo =
    w &&& (BitVec.allOnes n).setWidth 32 <<< lo := by
  apply BitVec.eq_of_getLsbD_eq
  intro i hi
  by_cases hlo : i < lo
  · simp [hlo]
  · have hin : lo + (i - lo) = i := by omega
    simp [hlo, hi, hin, Bool.and_comm]

/-- What a row of the tables reads from `w`, if anything, has `w` without its chain bit as its word. -/
def Reencodes (w : BitVec 32) (o : Option Instr) : Prop := ∀ i, o = some i → encode i = some (w &&& 0x7FFFFFFF#32)

theorem Reencodes.unassigned (w : BitVec 32) : Reencodes w none := fun _ h => nomatch h

/-- One row before others: where it matches, the word of what it reads is the word read. -/
theorem Reencodes.row {w mask pat x : BitVec 32} {j : Instr} {rest : Option Instr} (hword : encode j = some x)
    (heq : w &&& mask = pat → x = w &&& 0x7FFFFFFF#32) (hrest : Reencodes w rest) :
    Reencodes w (if matches' w mask pat then some j else rest) := by
  intro i h
  split at h
  · next hm =>
    obtain rfl := Option.some.inj h
    rw [hword, heq (beq_iff_eq.mp hm)]
  · exact hrest i h

/-- The operation in a word of `sel` is the number of its predicate plus 2 (R269). -/
theorem sel_op (w : BitVec 32) (h2 : 2 ≤ (fld w 23 4).toNat) (h9 : (fld w 23 4).toNat ≤ 9) :
    (fld w 23 3 - 2).setWidth 4 + 2 = fld w 23 4 := by
  have hlow : (fld w 23 3).toNat = (fld w 23 4).toNat % 8 := by
    simp only [BitVec.extractLsb'_toNat]
    omega
  bv_omega

/-- The last row of major 4, whose operation takes eight values. -/
theorem Reencodes.sel (w : BitVec 32) : Reencodes w
    (if matches' w 0x78000000#32 0x20000000#32 && 2 ≤ (fld w 23 4).toNat && (fld w 23 4).toNat ≤ 9 then
      some (.sel (fld w 23 3 - 2) (fld w 17 6) (fld w 16 1) (fld w 8 8) (fld w 0 8)) else none) := by
  intro i h
  split at h
  · next hm =>
    simp only [Bool.and_eq_true, beq_iff_eq, decide_eq_true_eq] at hm
    obtain ⟨⟨hpat, h2⟩, h9⟩ := hm
    obtain rfl := Option.some.inj h
    simp (disch := decide) only [encode, sel_op w h2 h9, ← hpat, put_fld, ← BitVec.and_or_distrib_left, BitVec.reduceAllOnes,
      BitVec.reduceSetWidth, BitVec.reduceHShiftLeft, BitVec.reduceOr]
  · cases h

/-- The rows of every major: the bits under a row's mask and those of its fields are all bits but the chain bit. -/
theorem decodeWord_reencodes (w : BitVec 32) : Reencodes w (decodeWord w) := by
  unfold decodeWord
  split
  all_goals
    simp only [decodeMajor0, decodeMajor1, decodeMajor2, decodeMajor3, decodeMajor4, decodeMajor5, decodeMajor6, decodeMajor7,
      decodeMajor8, decodeMajor9, decodeMajor10, decodeMajor11, decodeMajor12, decodeMajor13, decodeMajor14, decodeMajor15]
    repeat
      refine .row rfl (fun h => ?_) ?_
      · simp (disch := decide) only [← h, put_fld, ← BitVec.and_or_distrib_left, BitVec.reduceAllOnes, BitVec.reduceSetWidth,
          BitVec.reduceHShiftLeft, BitVec.reduceOr]
  case h_5 => exact .sel w
  all_goals exact .unassigned w

/-- Settles O2: every row of the tables gives back the word that it matched. -/
theorem decodeThenEncode : Obligations.DecodeThenEncode := by
  unfold Obligations.DecodeThenEncode
  exact fun i w => decodeWord_reencodes w i

/-- Settles O3: each of the seven words decoded. -/
theorem decodedWords : Obligations.DecodedWords := by
  unfold Obligations.DecodedWords
  decide

end Sys2Proof.Laws
end

section
/-! PROOF. What every instruction word answers before its effect (R277, R413; O15). -/

set_option Elab.async false

namespace Sys2Proof.Machine

/-- An outcome that `word` gives for an instruction in a state, whatever its effect. -/
inductive IsWord (i : Instr) (s : State) : Out → Prop
  | word (f : Ctx → State → State) : IsWord i s (word i s f)

namespace IsWord

/-! The shapes of words, each on the one it is made of. -/

variable {i : Instr} {s : State}

theorem memWord {f} : IsWord i s (memWord i s f) := .word _
theorem endWord {f} : IsWord i s (endWord i s f) := .word _
theorem maskWord {d f} : IsWord i s (maskWord i s d f) := .word _
theorem laneWord {n d chk f} : IsWord i s (laneWord i s n d chk f) := .word _
theorem binWord {n d a b f} : IsWord i s (binWord i s n d a b f) := laneWord
theorem unWord {n d a f} : IsWord i s (unWord i s n d a f) := laneWord
theorem fpWord {n d chk f} : IsWord i s (fpWord i s n d chk f) := .word _
theorem fp32Word {n d a b f} : IsWord i s (fp32Word i s n d a b f) := fpWord
theorem fpPkWord {pk n d a b f} : IsWord i s (fpPkWord i s pk n d a b f) := fpWord
theorem fpUnWord {t n d a f} : IsWord i s (fpUnWord i s t n d a f) := fpWord
theorem fusedWord {pk n d a b f} : IsWord i s (fusedWord i s pk n d a b f) := fpWord
theorem loadWordI {acq c d g a scaled size sext} : IsWord i s (loadWordI i s acq c d g a scaled size sext) := memWord
theorem storeWord {rel c d g a scaled size} : IsWord i s (storeWord i s rel c d g a scaled size) := memWord
theorem atomWord {op c d g a w f o} : IsWord i s (atomWord i s op c d g a w f o) := memWord
theorem stashWord {c chk f} : IsWord i s (stashWord i s c chk f) := memWord
theorem kWord {d f} : IsWord i s (kWord i s d f) := .word _
theorem kBin {d a b f} : IsWord i s (kBin i s d a b f) := kWord
theorem mxWord {ctr chk k} : IsWord i s (mxWord i s ctr chk k) := memWord
theorem saWord {ctr queued needs chk k} : IsWord i s (saWord i s ctr queued needs chk k) := memWord
theorem saImage {m g ctr q need align by32 body} : IsWord i s (saImage i s m g ctr q need align by32 body) := saWord
theorem saRead {d ctr f} : IsWord i s (saRead i s d ctr f) := saWord

end IsWord

/-- Every instruction that has a word runs as `word` says. -/
theorem exec_isWord (i : Instr) (s : State) (h : (encode i).isSome = true) : IsWord i s (exec i s) := by
  unfold exec
  cases i with
  | add | sub | addc | subb | mullo | mulhi | and | or | xor | andn | shl | shr | sar | rotl | min | max => exact .binWord
  | addi | andi | ori | xori | shli | shri | sari | muli | clz | ctz | popc | brev | bfe | mov => exact .unWord
  | bfi | sel | li | shfl | voteBallot | rdsp | ldX | lih => exact .laneWord
  | faddF32 | fsubF32 | fmulF32 | fminF32 | fmaxF32 => exact .fp32Word
  | faddBf16x2 | fsubBf16x2 | fmulBf16x2 | fminBf16x2 | fmaxBf16x2 | faddF16x2 | fsubF16x2 | fmulF16x2 | fminF16x2 | fmaxF16x2 =>
      exact .fpPkWord
  | frcp | frsqrt | fsqrt | fexp2 | flog2 | fsin | fcos | fclass => exact .fpUnWord
  | ffmaF32 | ffmaBf16x2 | ffmaF16x2 | imadLo | imadHi => exact .fusedWord
  | cvt => exact .fpWord
  | pand | por | pxor | pnot | ptest | emRd => exact .maskWord
  | icmp | fcmp | voteAny | voteAll | edge | idxSet | idxAdd | rgnPf | rgrow | rshrink | stX => exact .word _
  | ldB8Z | ldB8S | ldB16Z | ldB16S | ldB32 | ldB64 | ldB128 | ldAcq => exact .loadWordI
  | stB8 | stB16 | stB32 | stB64 | stB128 | stRel => exact .storeWord
  | kld | kst | bra | braK | brd | call | kbr | fenceRel | fenceAr | waitm => exact .memWord
  | stashMap | stashWb | stashWbE | stashInv | stashInvE | stashStg => exact .stashWord
  | atomAdd | atomFaddF32 | atomAnd | atomOr | atomXor | atomMin | atomMax | atomExch | atomCas => exact .atomWord
  | jwait | ret | exit => exact .endWord
  | jinit | jarr | emWr | barWg | barSpan | barStep | fenceAcq | waitc | cset | cadd | elect => exact .word _
  | kmov | kmovFromLk => exact .kWord
  | kadd | ksub | kand | kor | kxor | kshl | kshr | kcmpEq | kcmpLtS | kcmpLtZ => exact .kBin
  | kmovToLk | kclaim | krel | kfromv => exact .word _
  | mxClaim | mxRel | mxRec | mxLd | mxLdS | mxLdb | mxMma | mxPmma | mxZero | mxDrain | mxChk => exact .mxWord
  | saCfg | saKey | saUncl | saGhost | saSwp | saClr | saMonW => exact .saWord
  | saLdc | saLdh | saClmp | saRdc | saRds => exact .saImage
  | saMon | saStat => exact .saRead
  | tcLd | tcSt | tcMcast | busA | busB | rvSend | rvTalloc | rvTfree | rvStat | amSend | amReg | pipeEos => exact .word _
  | taskSpawn | taskNext | taskDone | nodeCommit => exact .word _
  | pipeBind | pipePush | pipePop | taskSpawnL => exact .memWord
  | nop | trap | sysret | crRd | crWr | park | poolGive | tlbInv | bkpt | yield | time => exact .word _
  | poolPop | xlatProbe => exact .memWord
  | _ => nomatch h

/-- The lanes that `fm` names, by the major (R413). -/
theorem Ctx.illegalLanes_eq (c : Ctx) (w : Word) : c.illegalLanes w =
    if bits w 27 4 = 14 then c.exMask else if bits w 27 4 = 12 ∨ bits w 27 4 = 13 then c.exMask &&& c.em else c.em := by
  unfold Ctx.illegalLanes
  split <;> simp_all

/-- Settles O15: a word runs as `word` says, which refuses it before its effect. -/
theorem illegalWords : Obligations.IllegalWords := by
  unfold Obligations.IllegalWords
  intro i s hi
  have hword := exec_isWord i s hi
  generalize exec i s = o at hword ⊢
  cases hword with
  | word f =>
    refine ⟨fun c w hc hw hwf => ?illegal, fun hc => ?nobody⟩
    case illegal => simp [word, hc, hwf, hw, Ctx.illegalLanes_eq, Ctx.exMask]
    case nobody => simp [word, hc]

end Sys2Proof.Machine
end

section
/-! PROOF. Integer, floating-point, fused and compare words (R285 to R292; O4, O5, O7 to O10), and what the bit counts count (R287; O6). -/

set_option Elab.async false

namespace Sys2Proof.Machine

variable {i : Instr} {n : BitVec 1} {d : BitVec 6} {a b : BitVec 8}

/-! ## The shapes of words -/

/-- A latch is one of four (R61). -/
theorem lt_four_of_latchOk (h : latchOk n d = true) (hn : n = 1) : d.toNat < 4 := by
  subst hn
  simpa [latchOk] using h

theorem BinLaw.of_binWord {f : Word → Word → Word} (he : ∀ s, exec i s = binWord i s n d a b f)
    (hl : wellFormed i = true → latchOk n d = true) : BinLaw i n d a b f := by
  intro s c hc hw ⟨ha, hb⟩
  rw [he]
  exact binWord_next f hc hw ha hb (lt_four_of_latchOk (hl hw))

theorem BinLaw.congr {f g : Word → Word → Word} (h : ∀ x y, f x y = g x y) (hf : BinLaw i n d a b f) : BinLaw i n d a b g :=
  (funext fun x => funext (h x) : f = g) ▸ hf

theorem UnLaw.of_unWord {f : Word → Word} (he : ∀ s, exec i s = unWord i s n d a f)
    (hl : wellFormed i = true → latchOk n d = true) : UnLaw i n d a f := by
  intro s c hc hw ha
  rw [he]
  exact unWord_next f hc hw ha (lt_four_of_latchOk (hl hw))

/-- A word that computes a lane result, from when its checks find nothing. -/
theorem Runs.of_laneWord {ok : Ctx → State → Prop} {chk : Ctx → List Finding} {f : Ctx → Nat → Word}
    (he : ∀ s, exec i s = laneWord i s n d.toNat chk f) (hl : wellFormed i = true → latchOk n d = true)
    (hok : ∀ c s, ok c s → chk c = []) : Runs i ok (LaneEff n d.toNat f) := by
  intro s c hc hw ho
  rw [he]
  exact laneWord_next f hc hw (hok c s ho) (lt_four_of_latchOk (hl hw))

theorem Runs.of_fpWord {ok : Ctx → State → Prop} {chk : Ctx → List Finding} {f : Ctx → Nat → Word × FFlags}
    (he : ∀ s, exec i s = fpWord i s n d.toNat chk f) (hl : wellFormed i = true → latchOk n d = true)
    (hok : ∀ c s, ok c s → chk c = []) : Runs i ok (FlagEff n d.toNat f) := by
  intro s c hc hw ho
  rw [he]
  exact fpWord_next f hc hw (hok c s ho) (lt_four_of_latchOk (hl hw))

theorem Ctx.srcF_append_nil {c : Ctx} (h : c.SrcOk a ∧ c.SrcOk b) : c.srcF a ++ c.srcF b = [] := by
  rw [Ctx.srcF_nil h.1, Ctx.srcF_nil h.2, List.append_nil]

/-! ## Majors 0 and 1 -/

/-- A shift by 32 or more leaves nothing. -/
theorem shl32_eq (x y : Word) : shl32 x y = x <<< y.toNat := by
  unfold shl32
  split
  · rfl
  · next h => exact (BitVec.shiftLeft_eq_zero (by omega)).symm

theorem shr32_eq (x y : Word) : shr32 x y = x >>> y.toNat := by
  unfold shr32
  split
  · rfl
  · next h => exact (BitVec.ushiftRight_eq_zero (by omega)).symm

theorem ite_toInt_le (x y : Word) : (if x.toInt ≤ y.toInt then x else y) = if y.toInt < x.toInt then y else x := by
  split <;> split <;> first | rfl | omega

theorem ite_toInt_lt (x y : Word) : (if x.toInt ≤ y.toInt then y else x) = if x.toInt < y.toInt then y else x := by
  split <;> split
  · rfl
  · exact BitVec.eq_of_toInt_eq (by omega)
  · omega
  · rfl

/-- The low half of a product is the product modulo 2^32 (R285). -/
theorem mul_eq_ofNat (x y : Word) : x * y = BitVec.ofNat 32 (x.toNat * y.toNat) :=
  BitVec.eq_of_toNat_eq (by rw [BitVec.toNat_mul, BitVec.toNat_ofNat])

/-- Settles O4: each word by the function that its lanes compute. -/
theorem integerWords : Obligations.IntegerWords := by
  unfold Obligations.IntegerWords
  intro d n a b
  refine ⟨?add, ?sub, ?addc, ?subb, ?mullo, ?mulhi, ?and, ?or, ?xor, ?andn, ?shl, ?shr, ?sar, ?rotl, ?min, ?max⟩
  case mullo => exact .congr mul_eq_ofNat (.of_binWord (fun _ => rfl) id)
  case shl => exact .congr shl32_eq (.of_binWord (fun _ => rfl) id)
  case shr => exact .congr shr32_eq (.of_binWord (fun _ => rfl) id)
  case min => exact .congr ite_toInt_le (.of_binWord (fun _ => rfl) id)
  case max => exact .congr ite_toInt_lt (.of_binWord (fun _ => rfl) id)
  all_goals exact .of_binWord (fun _ => rfl) id

/-- A field of `w + 1` bits at `p` (R287). -/
theorem shiftRight_and_fieldMask (x : Word) (w : BitVec 3) (p : BitVec 5) :
    (x >>> p.toNat) &&& fieldMask w 0 = BitVec.ofNat 32 (x.toNat / 2 ^ p.toNat % 2 ^ (w.toNat + 1)) := by
  have hw : 2 ^ (w.toNat + 1) ≤ 2 ^ 8 := Nat.pow_le_pow_right (by omega) (by omega)
  have hx : x.toNat / 2 ^ p.toNat % 2 ^ (w.toNat + 1) < 2 ^ (w.toNat + 1) := Nat.mod_lt _ (by positivity)
  apply BitVec.eq_of_toNat_eq
  have hmask : (fieldMask w 0).toNat = 2 ^ (w.toNat + 1) - 1 := by
    simp only [fieldMask, BitVec.toNat_ofNat, Nat.zero_mod, pow_zero, Nat.mul_one, BitVec.ofNat_eq_ofNat]
    omega
  rw [BitVec.toNat_and, BitVec.toNat_ushiftRight, hmask, Nat.and_two_pow_sub_one_eq_mod, Nat.shiftRight_eq_div_pow, BitVec.toNat_ofNat]
  exact (Nat.mod_eq_of_lt (by omega)).symm

/-- Settles O5: each word by the function that its lanes compute. -/
theorem immediateWords : Obligations.ImmediateWords := by
  unfold Obligations.ImmediateWords
  refine ⟨fun d n a i => ⟨?addi, ?andi, ?ori, ?xori, ?muli⟩, fun d n a i => ⟨?shli, ?shri, ?sari⟩,
    fun d n a => ⟨?clz, ?ctz, ?popc, ?brev⟩, fun d n a w p => ⟨?bfe, ?bfi⟩⟩
  case bfe =>
    rw [← funext fun x => shiftRight_and_fieldMask x w p]
    exact .of_unWord (fun _ => rfl) id
  case bfi =>
    exact .of_laneWord (fun _ => rfl) id fun c _ ⟨hd, ha⟩ => by rw [Ctx.dstF_nil hd, Ctx.srcF_nil ha, List.append_nil]
  all_goals exact .of_unWord (fun _ => rfl) id

/-! ## Majors 2 and 3 -/

theorem Fp32Law.of_fp32Word {f : Nat → Nat → Nat × FFlags} (he : ∀ s, exec i s = fp32Word i s n d a b f)
    (hl : wellFormed i = true → latchOk n d = true) : Fp32Law i n d a b f :=
  .of_fpWord he hl fun _ _ => Ctx.srcF_append_nil

theorem FpPkLaw.of_fpPkWord {pk : Nat} {f : Nat → Nat → Nat × FFlags} (he : ∀ s, exec i s = fpPkWord i s pk n d a b f)
    (hl : wellFormed i = true → latchOk n d = true) : FpPkLaw i pk n d a b f :=
  .of_fpWord he hl fun _ _ => Ctx.srcF_append_nil

theorem FpUnLaw.of_fpUnWord {t : BitVec 2} {f : Fmt → Nat → Nat × FFlags} (he : ∀ s, exec i s = fpUnWord i s t n d a f)
    (hl : wellFormed i = true → latchOk n d = true) : FpUnLaw i t n d a f :=
  .of_fpWord he hl fun _ _ => Ctx.srcF_nil

theorem FusedLaw.of_fusedWord {pk : Nat} {f : Word → Word → Word → Word × FFlags} (he : ∀ s, exec i s = fusedWord i s pk n d a b f)
    (hl : wellFormed i = true → latchOk n d = true) : FusedLaw i pk n d a b f :=
  .of_fpWord he hl fun _ _ ⟨ha, hb, hd⟩ => by rw [Ctx.dstF_nil hd, List.nil_append, Ctx.srcF_append_nil ⟨ha, hb⟩]

theorem FusedLaw.congr {pk : Nat} {f g : Word → Word → Word → Word × FFlags} (h : ∀ x y z, f x y z = g x y z)
    (hf : FusedLaw i pk n d a b f) : FusedLaw i pk n d a b g :=
  (funext fun x => funext fun y => funext (h x y) : f = g) ▸ hf

/-- Settles O7: each word by its operation on one or two values a lane. -/
theorem fpBinaryWords : Obligations.FpBinaryWords := by
  unfold Obligations.FpBinaryWords
  intro d n a b
  refine ⟨?_, ?_, ?_, ?_, ?_, ?packed⟩
  iterate 5 exact .of_fp32Word (fun _ => rfl) id
  refine ⟨?_, ?_, ?_, ?_, ?_, ?_, ?_, ?_, ?_, ?_⟩
  iterate 10 exact .of_fpPkWord (fun _ => rfl) id

/-- Settles O8: each word by its operation in the format that its type names. -/
theorem fpUnaryWords : Obligations.FpUnaryWords := by
  unfold Obligations.FpUnaryWords
  intro d n a t
  have hlatch : (latchOk n d && typeOk t) = true → latchOk n d = true := fun h => (Bool.and_eq_true_iff.mp h).1
  refine ⟨?_, ?_, ?_, ?_, ?_, ?_, ?_, ?_⟩
  iterate 8 exact .of_fpUnWord (fun _ => rfl) hlatch

/-- The high half of a signed 64-bit value. -/
theorem ofInt_high (z : Int) : ((BitVec.ofInt 64 z) >>> 32).truncate 32 = BitVec.ofInt 32 (z / 2 ^ 32) := by
  apply BitVec.eq_of_toNat_eq
  simp only [BitVec.truncate_eq_setWidth, BitVec.toNat_setWidth, BitVec.toNat_ushiftRight, BitVec.toNat_ofInt, Nat.shiftRight_eq_div_pow]
  omega

/-- The low word of a fused product, subtracted from `z` or added to it (R290). -/
theorem imadLo_eq (g : BitVec 1) (x y z : Word) : ((if g = 1 then z - x * y else x * y + z, 0) : Word × FFlags) =
    (if g = 1 then z - x * y else BitVec.ofNat 32 (x.toNat * y.toNat + z.toNat), 0) := by
  rw [BitVec.ofNat_add, BitVec.ofNat_toNat, BitVec.setWidth_eq, mul_eq_ofNat]

/-- Settles O9: each word by its operation on its sources and its old destination. -/
theorem fusedWords : Obligations.FusedWords := by
  unfold Obligations.FusedWords
  intro d n a b g
  refine ⟨?f32, ?bf16, ?f16, ?lo, ?hi⟩
  case lo => exact .congr (imadLo_eq g) (.of_fusedWord (fun _ => rfl) id)
  case hi =>
    simp only [← ofInt_high]
    exact .of_fusedWord (fun _ => rfl) id
  all_goals exact .of_fusedWord (fun _ => rfl) id

/-! ## Bit counts (R287) -/

/-- The highest set bit of a word is where its logarithm says. -/
theorem log2_eq_iff_highest {a : Word} (h : a ≠ 0) (m : Nat) :
    Nat.log2 a.toNat = m ↔ a.getLsbD m = true ∧ ∀ j, m < j → a.getLsbD j = false := by
  have ha : a.toNat ≠ 0 := fun e => h (BitVec.eq_of_toNat_eq e)
  have htop : a.getLsbD (Nat.log2 a.toNat) = true := Nat.testBit_log2 ha
  have habove : ∀ j, Nat.log2 a.toNat < j → a.getLsbD j = false := fun j hj =>
    Nat.testBit_lt_two_pow ((Nat.log2_lt ha).mp hj)
  constructor
  · rintro rfl
    exact ⟨htop, habove⟩
  · rintro ⟨hm, hgt⟩
    rcases Nat.lt_trichotomy (Nat.log2 a.toNat) m with hlt | heq | hlt
    · exact absurd hm (by simp [habove m hlt])
    · exact heq
    · exact absurd htop (by simp [hgt _ hlt])

theorem clz32_eq_iff (a : Word) (k : Nat) (hk : k < 32) :
    (clz32 a).toNat = k ↔ a.getLsbD (31 - k) = true ∧ ∀ i, i < k → a.getLsbD (31 - i) = false := by
  by_cases h : a = 0
  · subst h
    simp [clz32]
    omega
  · have hlt : Nat.log2 a.toNat < 32 := (Nat.log2_lt fun e => h (BitVec.eq_of_toNat_eq e)).mpr a.isLt
    have hval : (clz32 a).toNat = 31 - Nat.log2 a.toNat := by
      rw [clz32, if_neg h, BitVec.toNat_ofNat]
      omega
    rw [hval, show 31 - Nat.log2 a.toNat = k ↔ Nat.log2 a.toNat = 31 - k by omega, log2_eq_iff_highest h]
    refine and_congr_right fun _ => ⟨fun hj i hi => hj _ (by omega), fun hi j hj => ?_⟩
    by_cases hj32 : j < 32
    · have := hi (31 - j) (by omega)
      rwa [show 31 - (31 - j) = j by omega] at this
    · exact BitVec.getLsbD_of_ge a j (by omega)

/-- The sum of `brev` after its first `n` bits is the reverse of those bits, above bit `31 - n`. -/
theorem brev_sum (a : Word) : ∀ n, n ≤ 32 → ∃ t : Nat,
    (List.range n).foldl (fun r i => r + (if bit a i then 2 ^ (31 - i) else 0)) 0 = t * 2 ^ (32 - n) ∧
    ∀ j, j < n → t.testBit j = bit a (n - 1 - j)
  | 0, _ => ⟨0, by simp, by simp⟩
  | n + 1, h => by
    obtain ⟨t, hsum, hbits⟩ := brev_sum a n (by omega)
    refine ⟨2 * t + (bit a n).toNat, ?_, fun j hj => ?_⟩
    · rw [List.range_succ, List.foldl_append, hsum, show 32 - n = 31 - n + 1 by omega, show 32 - (n + 1) = 31 - n by omega, pow_succ]
      cases hb : bit a n
      · simp only [List.foldl_cons, List.foldl_nil, hb, Bool.false_eq_true, if_false, Bool.toNat_false]
        ring
      · simp [hb]
        ring
    · cases j with
      | zero => cases hb : bit a n <;> simp [hb]
      | succ j =>
        rw [Nat.testBit_succ, show (2 * t + (bit a n).toNat) / 2 = t by have := (bit a n).toNat_le; omega, hbits j (by omega)]
        congr 1
        omega

theorem brev32_getLsbD (a : Word) (k : Nat) (hk : k < 32) : (brev32 a).getLsbD k = a.getLsbD (31 - k) := by
  obtain ⟨t, hsum, hbits⟩ := brev_sum a 32 le_rfl
  rw [brev32, hsum, BitVec.getLsbD_ofNat, Nat.sub_self, pow_zero, Nat.mul_one, hbits k hk]
  simp [hk, bit]

theorem ctz32_eq_iff (a : Word) (k : Nat) (hk : k < 32) :
    (ctz32 a).toNat = k ↔ a.getLsbD k = true ∧ ∀ i, i < k → a.getLsbD i = false := by
  have hrev : ∀ i, i < 32 → (brev32 a).getLsbD (31 - i) = a.getLsbD i := fun i hi => by
    rw [brev32_getLsbD a _ (by omega), show 31 - (31 - i) = i by omega]
  rw [ctz32, clz32_eq_iff _ k hk, hrev k hk]
  exact and_congr_right fun _ => forall₂_congr fun i hi => by rw [hrev i (by omega)]

theorem popc32_toNat (a : Word) : (popc32 a).toNat = (lanesOf a).length := by
  have : (lanesOf a).length ≤ 32 := (List.length_filter_le _ _).trans (by simp)
  rw [popc32, BitVec.toNat_ofNat]
  omega

/-- Settles O6: the highest set bit by the logarithm, the reversal by its sum. -/
theorem bitCounts : Obligations.BitCounts := by
  unfold Obligations.BitCounts
  refine ⟨fun a k hk => ⟨clz32_eq_iff a k hk, ctz32_eq_iff a k hk, brev32_getLsbD a k hk⟩, ?clz0, ?ctz0, popc32_toNat⟩
  case clz0 => decide
  case ctz0 => decide

/-! ## Major 4 -/

/-- The conditions of `icmp` as comparisons of numbers (R271). -/
theorem icmpHolds_eq (m : BitVec 3) (x y : Word) : icmpHolds m x y = (match m.toNat with
    | 0 => x == y
    | 1 => x != y
    | 2 => decide (x.toInt < y.toInt)
    | 3 => decide (x.toInt ≤ y.toInt)
    | 4 => decide (y.toInt < x.toInt)
    | 5 => decide (y.toInt ≤ x.toInt)
    | 6 => decide (x.toNat < y.toNat)
    | _ => decide (y.toNat ≤ x.toNat)) := rfl

/-- Whether a mask has a set bit among the active lanes. -/
theorem and_eq_zero_iff_lanes (x em : Word) : x &&& em = 0#32 ↔ ∀ j ∈ lanesOf em, x.getLsbD j = false := by
  simp only [mem_lanesOf]
  constructor
  · intro h j ⟨_, hj⟩
    simpa [hj] using congrArg (fun z : Word => z.getLsbD j) h
  · intro h
    refine BitVec.eq_of_getLsbD_eq fun j hj => ?_
    cases hem : em.getLsbD j
    · simp [hem]
    · simp [h j ⟨hj, hem⟩]

theorem and_eq_self_iff_lanes (x em : Word) : x &&& em = em ↔ ∀ j ∈ lanesOf em, x.getLsbD j = true := by
  simp only [mem_lanesOf]
  constructor
  · intro h j ⟨_, hj⟩
    simpa [hj] using congrArg (fun z : Word => z.getLsbD j) h
  · intro h
    refine BitVec.eq_of_getLsbD_eq fun j hj => ?_
    cases hem : em.getLsbD j
    · simp [hem]
    · simp [hem, h j ⟨hj, hem⟩]

theorem PredLaw.of_maskWord {i : Instr} {d : BitVec 3} {f : Ctx → Word} (he : ∀ s, exec i s = maskWord i s d f) : PredLaw i d f := by
  intro s c hc hw _
  rw [he]
  exact maskWord_next f hc hw

/-- What `ptest` writes (R292). -/
theorem ptest_eq (m : BitVec 3) (x em : Word) :
    allQ (if m = 0 then x &&& em != 0 else if m = 1 then x &&& em == em else x &&& em == 0) =
      (if (if m = 0 then decide (∃ j ∈ lanesOf em, x.getLsbD j = true) else if m = 1 then decide (∀ j ∈ lanesOf em, x.getLsbD j = true)
        else !decide (∃ j ∈ lanesOf em, x.getLsbD j = true)) then 0xFFFFFFFF else 0) := by
  have hany : (x &&& em != 0) = decide (∃ j ∈ lanesOf em, x.getLsbD j = true) := by
    rw [bne, Bool.eq_iff_iff]
    simp [and_eq_zero_iff_lanes]
  have hall : (x &&& em == em) = decide (∀ j ∈ lanesOf em, x.getLsbD j = true) := by
    rw [Bool.eq_iff_iff]
    simp [and_eq_self_iff_lanes]
  rw [← hany, ← hall, bne, Bool.not_not, allQ]

/-- A word whose checks find nothing changes its lane group. -/
theorem Runs.of_upWord {i : Instr} {ok : Ctx → State → Prop} {eff : Ctx → State → State → Prop} {chk : Ctx → List Finding} {f : Ctx → Lg → Lg}
    (he : ∀ s, exec i s = word i s fun c s => s.checked c (chk c) fun s => s.up c (f c)) (hok : ∀ c s, ok c s → chk c = [])
    (heff : ∀ c s, eff c s (s.setLg c.g (f c c.lg))) : Runs i ok eff := by
  intro s c hc hw ho
  refine ⟨_, ?_, heff c s⟩
  rw [he, word_next _ hc hw, hok c s ho, State.checked_nil, State.up_eq hc]

/-- Settles O10: a compare by its checks and its predicate, the others by the shapes of their words. -/
theorem compareWords : Obligations.CompareWords := by
  unfold Obligations.CompareWords
  refine ⟨fun m q a b => ⟨?icmp, ?fcmp⟩, fun q d n a b => ?sel, fun d a b => ⟨?pand, ?por, ?pxor, ?pnot⟩, fun m d a => ?ptest⟩
  case icmp => exact .of_upWord (fun _ => rfl) (fun _ _ => Ctx.srcF_append_nil) fun c s => ⟨_, Lg.wrQ_predWrite c.lg c.em q.toNat _, rfl⟩
  case fcmp =>
    exact .of_upWord (fun _ => rfl) (fun _ _ => Ctx.srcF_append_nil) fun c s => ⟨_, _, Lg.wrQ_predWrite c.lg c.em q.toNat _, rfl, rfl⟩
  case sel => exact .of_laneWord (fun _ => rfl) id fun _ _ => Ctx.srcF_append_nil
  case ptest =>
    have h : PredLaw (.ptest m d a) d fun c => allQ (if m = 0 then c.q a.toNat &&& c.em != 0 else
      if m = 1 then c.q a.toNat &&& c.em == c.em else c.q a.toNat &&& c.em == 0) := .of_maskWord fun _ => rfl
    simp only [ptest_eq] at h
    exact h
  all_goals exact .of_maskWord fun _ => rfl

end Sys2Proof.Machine
end

section
/-! PROOF. The invariants at reset (R465, R70; O46). -/

set_option Elab.async false

namespace Sys2Proof.Machine

/-- Settles O46: memory by its own law, and no packet has begun. -/
theorem resetInvariants : Obligations.ResetInvariants := by
  unfold Obligations.ResetInvariants
  exact ⟨State.reset_memory_wf, rfl⟩

end Sys2Proof.Machine
end

section
/-! PROOF. What a source reads (R267, R268; O13), and the words of major 5 and the counter words: moves, exchange, votes, lane control,
`rdsp`, `cset` and `cadd` (R293 to R300, R323; O11, O12, O41, O42). -/

set_option Elab.async false

namespace Sys2Proof.Machine

variable {i : Instr} {n : BitVec 1}

/-! ## Sources -/

/-- The number of a source of mode `k`. -/
theorem toNat_ofNat_mode {k n : Nat} (hk : k < 4) (hn : n < 64) : (BitVec.ofNat 8 (64 * k + n)).toNat = 64 * k + n := by
  rw [BitVec.toNat_ofNat]
  omega

theorem Ctx.src_own (c : Ctx) (pk : Nat) {n : Nat} (j : Nat) (hn : n < 64) : c.src pk (BitVec.ofNat 8 (64 * 0 + n)) j = c.v n j := by
  rw [Ctx.src, toNat_ofNat_mode (by omega) hn, show (64 * 0 + n) / 64 = 0 by omega, show (64 * 0 + n) % 64 = n by omega]
  rfl

theorem Ctx.src_special (c : Ctx) (pk : Nat) {n : Nat} (j : Nat) (hn : n < 64) :
    c.src pk (BitVec.ofNat 8 (64 * 1 + n)) j = c.special pk n j := by
  rw [Ctx.src, toNat_ofNat_mode (by omega) hn, show (64 * 1 + n) / 64 = 1 by omega, show (64 * 1 + n) % 64 = n by omega]
  rfl

theorem Ctx.src_left (c : Ctx) (pk : Nat) {n : Nat} (j : Nat) (hn : n < 64) :
    c.src pk (BitVec.ofNat 8 (64 * 2 + n)) j = match leftLane c.sn.edge j with | none => 0 | some i => c.v n i := by
  rw [Ctx.src, toNat_ofNat_mode (by omega) hn, show (64 * 2 + n) / 64 = 2 by omega, show (64 * 2 + n) % 64 = n by omega]
  rfl

theorem Ctx.src_right (c : Ctx) (pk : Nat) {n : Nat} (j : Nat) (hn : n < 64) :
    c.src pk (BitVec.ofNat 8 (64 * 3 + n)) j = match rightLane c.sn.edge j with | none => 0 | some i => c.v n i := by
  rw [Ctx.src, toNat_ofNat_mode (by omega) hn, show (64 * 3 + n) / 64 = 3 by omega, show (64 * 3 + n) % 64 = n by omega]
  rfl

/-- Settles O13: each mode by its own reading, each special by its place in the table of R267. -/
theorem sourceForms : Obligations.SourceForms := by
  unfold Obligations.SourceForms
  intro c pk n j hj
  have hn : n.toNat < 64 := n.isLt
  dsimp only
  simp only [Ctx.src_own _ _ _ hn, Ctx.src_special _ _ _ hn, Ctx.src_left _ _ _ hn, Ctx.src_right _ _ _ hn]
  refine ⟨rfl, ?left, ?right, fun h => ?latch, fun h4 h8 => ?indexed, fun h => ?zero, fun h => ?one, fun h => ?two, fun h => ?ones,
    fun h => ?fpOne, fun h => ?lane, fun h => ?lgn, fun h => ?uniform⟩
  case left => unfold leftLane; split_ifs <;> rfl
  case right => unfold rightLane; split_ifs <;> rfl
  case latch => simp [Ctx.special, h]
  case indexed => simp [Ctx.special, h8, show ¬ n.toNat < 4 by omega, Ctx.v, Ctx.idxReg, Ctx.idx, Ctx.idxOff]
  case uniform =>
    simp [Ctx.special, show ¬ n.toNat < 4 by omega, show ¬ n.toNat < 8 by omega, show ¬ n.toNat < 12 by omega,
      show ¬ n.toNat < 16 by omega, show ¬ n.toNat < 32 by omega]
  all_goals rw [h]
  case zero | one | two | ones | lane | lgn => rfl
  case fpOne => exact ⟨rfl, rfl, rfl⟩

/-! ## Moves, conversions, exchange and votes -/

/-- The upper 21 bits replaced (R293). -/
theorem lih_eq (i : BitVec 21) (v : Word) :
    (i.setWidth 32 <<< 11) ||| (v &&& 0x7FF) = BitVec.ofNat 32 (i.toNat * 2 ^ 11 + v.toNat % 2 ^ 11) := by
  have hi : i.toNat < 2 ^ 21 := i.isLt
  have hlow : v.toNat % 2 ^ 11 < 2 ^ 11 := Nat.mod_lt _ (by omega)
  have hmask : v.toNat &&& 2047 = v.toNat % 2 ^ 11 := Nat.and_two_pow_sub_one_eq_mod _ 11
  apply BitVec.eq_of_toNat_eq
  have hshift : i.toNat <<< 11 % 2 ^ 32 = i.toNat <<< 11 := Nat.mod_eq_of_lt (by rw [Nat.shiftLeft_eq]; omega)
  simp only [BitVec.toNat_or, BitVec.toNat_shiftLeft, BitVec.toNat_setWidth, BitVec.toNat_and, BitVec.toNat_ofNat, BitVec.ofNat_eq_ofNat]
  rw [Nat.mod_eq_of_lt (show i.toNat < 2 ^ 32 by omega), hshift, Nat.mod_eq_of_lt (show 2047 < 2 ^ 32 by omega), hmask,
    ← Nat.shiftLeft_add_eq_or_of_lt hlow, Nat.shiftLeft_eq]
  omega

theorem Ctx.finding_nil {c : Ctx} {b : Bool} (k : Cause) (h : b = false) : c.finding b k = [] := if_neg (by simp [h])

theorem allQ_bne_zero (x : Word) : allQ (x != 0) = if x = 0 then 0 else 0xFFFFFFFF := by
  unfold allQ
  by_cases h : x = 0 <;> simp [h]

theorem allQ_beq (x y : Word) : allQ (x == y) = if x = y then 0xFFFFFFFF else 0 := by
  unfold allQ
  by_cases h : x = y <;> simp [h]

/-- Settles O11: each word by its shape. -/
theorem moveWords : Obligations.MoveWords := by
  unfold Obligations.MoveWords
  refine ⟨fun d n a => ?mov, fun d n i => ?li, fun d i => ?lih, fun d n a x => ?cvt, fun d n a r m l => ?shfl,
    fun d q => ⟨?any, ?all⟩, fun d n q => ?ballot⟩
  case mov => exact .of_unWord (fun _ => rfl) id
  case li => exact .of_laneWord (fun _ => rfl) id fun _ _ _ => rfl
  case ballot => exact .of_laneWord (fun _ => rfl) id fun _ _ _ => rfl
  case lih =>
    intro s c hc hw hr
    simp only [← lih_eq]
    exact laneWord_next (fun c j => (i.setWidth 32 <<< 11) ||| (c.v d.toNat j &&& 0x7FF)) hc hw (chk := fun c => c.regF c.em d.toNat)
      (Ctx.regF_nil hr) fun h => absurd h (by decide)
  case cvt =>
    refine .of_fpWord (fun _ => rfl) (fun h => (Bool.and_eq_true_iff.mp h).1) fun c _ ⟨ha, hd, hdesc⟩ => ?_
    have hold : (if cvtReadsD x then c.dstF n d.toNat else []) = [] := by
      split
      · next h => exact Ctx.dstF_nil (hd h)
      · rfl
    have hfmt : (cvtDesc x && !(Desc.of ((c.kr (bits x 4 4)).toNat % 2 ^ 32)).valid) = false := by
      cases h : cvtDesc x
      · rfl
      · rw [hdesc h]; rfl
    rw [hold, Ctx.srcF_nil ha, Ctx.finding_nil _ hfmt]
    rfl
  case shfl =>
    refine .of_laneWord (fun _ => rfl) id fun c _ ⟨hl, ha⟩ => ?_
    have hreg : (if r = 1 then c.regF c.em l.toNat else []) = [] := by
      split
      · next h => exact Ctx.regF_nil (hl h)
      · rfl
    rw [hreg, List.nil_append]
    exact Ctx.srcAt_nil ha
  case any =>
    simp only [← allQ_bne_zero]
    exact .of_upWord (chk := fun _ => []) (fun _ => rfl) (fun _ _ _ => rfl) fun c s => ⟨_, Lg.wrQ_predWrite c.lg c.em d.toNat _, rfl⟩
  case all =>
    simp only [← allQ_beq]
    exact .of_upWord (chk := fun _ => []) (fun _ => rfl) (fun _ _ _ => rfl) fun c s => ⟨_, Lg.wrQ_predWrite c.lg c.em d.toNat _, rfl⟩

/-! ## Counters and `rdsp` -/

/-- An arrival counter written. -/
theorem CtrEff.of_setD (c : Ctx) (s : State) (n : Nat) (f : Ctx → Word) :
    CtrEff n f c s (s.setLg c.g { c.lg with c := c.lg.c.setD 0 n (f c) }) :=
  ⟨{ c.lg with c := c.lg.c.setD 0 n (f c) }, fun m => Tab.getD_setD c.lg.c 0 n m (f c), rfl, rfl⟩

/-- The threshold as the words of major 10 name it (R316). -/
theorem Ctx.threshold_eq (c : Ctx) {a i : BitVec 8} (h : a = 0 ∨ (96 ≤ a.toNat ∧ a.toNat < 128 ∧ i = 0)) :
    c.threshold a i = if a = 0 then i.zeroExtend 32 else (c.kr (a.toNat - 96)).truncate 32 := by
  unfold Ctx.threshold
  split
  · rfl
  · next ha =>
    obtain ⟨h1, h2, _⟩ := h.resolve_left ha
    rw [show a.toNat % 32 = a.toNat - 96 by omega]

theorem thrOk_iff (a i : BitVec 8) : thrOk a i = true ↔ a = 0 ∨ (96 ≤ a.toNat ∧ a.toNat < 128 ∧ i = 0) := by
  simp [thrOk, Nat.lt_succ_iff, and_assoc]

/-- A word that is not well-formed raises `illegal` in the active lanes, but for majors 12 to 14 (R413). -/
theorem exec_illegal {i : Instr} {w : BitVec 32} {s : State} {c : Ctx} (he : encode i = some w) (hm : bits w 27 4 < 12) (hc : s.ctx? = some c)
    (hw : wellFormed i = false) : exec i s = .next (s.raise c .illegal) := by
  have hlanes : c.illegalLanes w = c.em := by
    rw [Ctx.illegalLanes_eq, if_neg (by omega), if_neg (by omega)]
  have hword := exec_isWord i s (by rw [he]; rfl)
  generalize exec i s = o at hword ⊢
  cases hword with
  | word f => simp [word, hc, hw, he, hlanes, State.raise]

/-- The major of a word is that of the fields and constants it is made of. -/
theorem bits_eq_fld (w : BitVec 32) (lo n : Nat) : bits w lo n = (fld w lo n).toNat := by
  rw [bits_eq, BitVec.extractLsb'_toNat, Nat.shiftRight_eq_div_pow]

theorem runs_cset (n : BitVec 4) (a i : BitVec 8) : Runs (.cset n a i) (fun _ _ => True) (CtrEff n.toNat fun c => c.threshold a i) :=
  .of_upWord (chk := fun _ => []) (fun _ => rfl) (fun _ _ _ => rfl) fun c s => .of_setD c s n.toNat fun c => c.threshold a i

theorem runs_cadd (n : BitVec 4) (a i : BitVec 8) :
    Runs (.cadd n a i) (fun _ _ => True) (CtrEff n.toNat fun c => c.lg.cAt n.toNat + c.threshold a i) :=
  .of_upWord (chk := fun _ => []) (fun _ => rfl) (fun _ _ _ => rfl) fun c s => .of_setD c s n.toNat fun c => c.lg.cAt n.toNat + c.threshold a i

/-- Settles O41: the counter takes the threshold, which the word's fields name. -/
theorem counterWords : Obligations.CounterWords := by
  unfold Obligations.CounterWords
  refine fun n a i => ⟨thrOk_iff a i, thrOk_iff a i, fun s c hc => ⟨fun hw => ?cset, fun hw => ?cadd, fun hw => ?csetBad, fun hw => ?caddBad⟩⟩
  case cset =>
    dsimp only
    rw [← c.threshold_eq ((thrOk_iff a i).mp hw)]
    exact runs_cset n a i s c hc hw trivial
  case cadd =>
    dsimp only
    rw [← c.threshold_eq ((thrOk_iff a i).mp hw)]
    exact runs_cadd n a i s c hc hw trivial
  case csetBad =>
    refine exec_illegal rfl ?_ hc hw
    simp (disch := decide) only [bits_eq_fld, fld_or, fld_put_other]
    decide
  case caddBad =>
    refine exec_illegal rfl ?_ hc hw
    simp (disch := decide) only [bits_eq_fld, fld_or, fld_put_other]
    decide

/-- Settles O42: the selector chooses the value; another is not well-formed. -/
theorem rdspValues : Obligations.RdspValues := by
  unfold Obligations.RdspValues
  intro d n x s c hc
  have hval : ∀ w, rdspValue c s x.toNat = w → wellFormed (.rdsp d n x) = true →
      ∃ t, exec (.rdsp d n x) s = .next t ∧ LaneEff n d.toNat (fun _ _ => w) c s t := by
    rintro _ rfl hw
    exact laneWord_next (fun c _ => rdspValue c s x.toNat) hc hw (chk := fun _ => []) rfl
      (lt_four_of_latchOk (Bool.and_eq_true_iff.mp hw).1)
  refine ⟨?_, ?_, ?_, ?_, ?_, fun m hm hx => ?pred, fun h5 h8 => ?bad⟩
  iterate 5
    rintro rfl
    exact hval _ rfl
  case pred =>
    refine hval _ ?_
    rw [hx, show rdspValue c s (8 + m) = c.q (8 + m - 8) by rw [Nat.add_comm]; rfl, Nat.add_sub_cancel_left]
    rfl
  case bad =>
    refine exec_illegal rfl ?_ hc ?_
    · simp (disch := decide) only [bits_eq_fld, fld_or, fld_put_other]
      decide
    · show (latchOk n d && (decide (x.toNat ≤ 4) || (decide (8 ≤ x.toNat) && decide (x.toNat ≤ 15)))) = false
      simp
      omega

/-! ## Lane control -/

theorem LgEff.of_up (f : Ctx → State → Lg → Lg) {s : State} {c : Ctx} (hc : s.ctx? = some c) : LgEff f c s (s.up c (f c s)) :=
  State.up_eq hc _

theorem OffEff.of_wrOff (c : Ctx) (s : State) (x : Nat) (f : Ctx → Nat → BitVec 8) :
    OffEff x f c s (s.setLg c.g (c.lg.wrOff c.em x (f c))) :=
  ⟨c.lg.wrOff c.em x (f c), fun y lane h => Lg.wrOff_xoAt c.lg c.em x (f c) y lane h, rfl, rfl⟩

/-- Registers below a bound, of a lane group that has lost the others. -/
theorem Tab.getD_filter_lt (n : Nat) (k : Nat) (d : Word) : ∀ t : Tab Word,
    Tab.getD (t.filter fun p => decide (p.1 < 32 * n)) d k = if k < 32 * n then Tab.getD t d k else d
  | [] => by simp [Tab.getD, Tab.find]
  | (j, x) :: r => by
    have ih := Tab.getD_filter_lt n k d r
    by_cases hj : j < 32 * n
    · by_cases hk : j = k
      · subst hk
        simp [Tab.getD, Tab.find, hj]
      · simpa [Tab.getD, Tab.find, hj, hk] using ih
    · by_cases hk : j = k
      · subst hk
        simpa [Tab.getD, hj] using ih
      · simpa [Tab.getD, Tab.find, hj, hk] using ih

theorem Lg.vAt_filter_lt {l l' : Lg} {n : Nat} (h : l'.v = l.v.filter fun p => decide (p.1 < 32 * n)) (r lane : Nat) (hl : lane < 32) :
    l'.vAt r lane = if r < n then l.vAt r lane else 0 := by
  rw [Lg.vAt, h, Tab.getD_filter_lt]
  simp only [show 32 * r + lane < 32 * n ↔ r < n by omega]
  rfl

/-- A visible block of a word that has not executed: the lane group stands before its packet. -/
theorem State.find_blockBack {s : State} {c : Ctx} (hc : s.ctx? = some c) (b : Block) :
    (s.blockBack c b).lgs.find c.g = some { c.sn with status := .blocked b false, pc := s.pk.idx, waited := s.nseq, parkAt := s.now } := by
  obtain ⟨hg, hl, -, -⟩ := State.ctx?_spec hc
  rw [State.blockBack, State.find_modLg, if_pos rfl, hg]
  show (s.lgs.find s.cur).map _ = _
  rw [hl]
  rfl

/-- A word whose check of a condition finds nothing. -/
theorem exec_legal {i : Instr} {s : State} {c : Ctx} {b : Ctx → State → Bool} {k : Ctx → State → State}
    (he : ∀ s, exec i s = word i s fun c s => s.checked c (c.illegalIf (b c s)) (k c)) (hc : s.ctx? = some c) (hw : wellFormed i = true)
    (hb : b c s = false) : exec i s = .next (k c s) := by
  rw [he, word_next _ hc hw, State.checked_legal hb]

/-- What `rgrow` does once its check has passed (R53). -/
theorem exec_rgrow {x : BitVec 3} {s : State} {c : Ctx} (hc : s.ctx? = some c) (hw : wellFormed (.rgrow x) = true) (hh : c.lg.hnd = false) :
    exec (.rgrow x) s = .next (if 64 + 32 * x.toNat ≤ c.lg.alloc then s
      else if c.lg.grown = some (64 + 32 * x.toNat) then s.up c fun l => l.grow (64 + 32 * x.toNat)
      else s.blockBack c (.rgrow (64 + 32 * x.toNat) s.pk.first s.pk.slot)) :=
  exec_legal (b := fun c _ => c.handler) (fun _ => rfl) hc hw hh

theorem getLsbD_foldl_mask (j : Nat) : ∀ (ls : List Nat) (m : Word),
    (ls.foldl (fun m i => m ||| (1#32 <<< i)) m).getLsbD j = (m.getLsbD j || decide (j < 32 ∧ j ∈ ls))
  | [], m => by simp
  | x :: r, m => by
    rw [List.foldl_cons, getLsbD_foldl_mask j r, BitVec.getLsbD_or, Bool.or_assoc]
    congr 1
    rw [Bool.eq_iff_iff]
    by_cases hx : j = x
    · subst hx
      by_cases hj : j < 32 <;> simp [hj]
    · by_cases hj : j < 32 <;> by_cases hlt : j < x <;> simp [hj, hx, hlt]
      omega

/-- The bits of the mask of some lanes. -/
theorem getLsbD_maskOf (ls : List Nat) (j : Nat) : (maskOf ls).getLsbD j = decide (j < 32 ∧ j ∈ ls) := by
  simp [maskOf, getLsbD_foldl_mask]

/-- The lanes of either list. -/
theorem maskOf_filter_or (ls : List Nat) (p q : Nat → Bool) :
    maskOf (ls.filter p) ||| maskOf (ls.filter q) = maskOf (ls.filter fun j => p j || q j) := by
  apply BitVec.eq_of_getLsbD_eq
  intro j hj
  rw [BitVec.getLsbD_or, getLsbD_maskOf, getLsbD_maskOf, getLsbD_maskOf, Bool.eq_iff_iff]
  simp only [Bool.or_eq_true, decide_eq_true_eq, List.mem_filter]
  tauto

/-- The check of a register in the active lanes. -/
theorem Ctx.regF_eq (c : Ctx) (r : Nat) : c.regF c.em r = lanesFail 5 .poison (maskOf (c.lanes.filter fun j => c.badWord (r, j))) := by
  unfold Ctx.regF
  split
  · next h => exact (lanesFail_nil 5 .poison fun j _ => by simp [Ctx.badWord, List.isEmpty_iff.mp h]).symm
  · rfl

/-- What the checks of several registers find: the lanes in which the word of one of them fails its code. -/
theorem Ctx.best_regF (c : Ctx) : ∀ rs : List Nat, bestFinding (rs.flatMap (c.regF c.em)) =
    (let m := maskOf (c.lanes.filter fun j => rs.any fun r => c.badWord (r, j))
     if m = 0#32 then none else some ⟨5, .poison, m⟩)
  | [] => by simp [bestFinding, maskOf]
  | r :: rs => by
    have ih := Ctx.best_regF c rs
    simp only [List.flatMap_cons, List.any_cons, ← maskOf_filter_or, Ctx.regF_eq c r]
    generalize maskOf (c.lanes.filter fun j => c.badWord (r, j)) = m at *
    generalize maskOf (c.lanes.filter fun j => rs.any fun r => c.badWord (r, j)) = m' at *
    by_cases hm : m = 0#32
    · simp [hm, lanesFail, ih]
    · rw [lanesFail_of 5 .poison hm, List.singleton_append, bestFinding, ih]
      by_cases hm' : m' = 0#32 <;> simp [hm, hm']

theorem State.checked_of_best {s : State} {c : Ctx} {fs : List Finding} {f : Finding} (h : bestFinding fs = some f) (k : State → State) :
    s.checked c fs k = s.takeTrap c (s.restartTrap f.cause f.rank f.fm) := by
  rw [State.checked, h]

/-- Words written at a register of each lane's own. -/
theorem getD_foldl_indexed (em : Word) (at_ : Nat → Nat) (f : Nat → Word) (t : Tab Word) (r lane : Nat) (hl : lane < 32) :
    Tab.getD ((lanesOf em).foldl (fun (t : Tab Word) j => t.setD 0 (32 * at_ j + j) (f j)) t) 0 (32 * r + lane) =
      if em.getLsbD lane = true ∧ r = at_ lane then f lane else Tab.getD t 0 (32 * r + lane) := by
  have hls : ∀ j ∈ lanesOf em, j < 32 := fun j hj => (mem_lanesOf.mp hj).1
  simp only [show em.getLsbD lane = true ↔ lane ∈ lanesOf em by simp [mem_lanesOf, hl]]
  generalize lanesOf em = ls at hls
  induction ls generalizing t with
  | nil => simp
  | cons x ls ih =>
    have hx : x < 32 := hls x List.mem_cons_self
    rw [List.foldl_cons, ih _ fun j hj => hls j (List.mem_cons_of_mem x hj), Tab.getD_setD]
    by_cases hlane : lane = x
    · subst hlane
      simp only [show 32 * r + lane = 32 * at_ lane + lane ↔ r = at_ lane by omega, List.mem_cons, true_or, true_and]
      split_ifs <;> tauto
    · rw [if_neg (show ¬ 32 * r + lane = 32 * at_ x + x by omega)]
      simp [hlane]

/-- A lane group but for the registers that it has staged. -/
def Lg.unstaged (l : Lg) : Lg := { l with staged := [], stagedAt := 0 }

/-- The machine once a staging slot is free for the lane group (R58). -/
def State.slotFreed (s : State) (c : Ctx) : State :=
  if c.lg.stagedAt ≠ 0 || (s.stagers c.core c.wg.bank c.lg.sc).length < 4 then s
  else match s.stagers c.core c.wg.bank c.lg.sc with
    | [] => s
    | (g, _) :: _ => s.modLg g Lg.unstaged

theorem State.stage_eq (s : State) (c : Ctx) (m : DWord) : s.stage c m =
    ({ s.slotFreed c with nseq := (s.slotFreed c).nseq + 1 } : State).up c fun l =>
      { l with staged := (List.range 64).filter (bit m), stagedAt := (s.slotFreed c).nseq + 1 } := rfl

/-- At most one lane group loses its slot. -/
theorem State.slotFreed_eff (s : State) (c : Ctx) :
    (∀ g, ((s.slotFreed c).lgs.find g).map Lg.unstaged = (s.lgs.find g).map Lg.unstaged) ∧
      s.slotFreed c = { s with lgs := (s.slotFreed c).lgs } := by
  unfold State.slotFreed
  split
  · exact ⟨fun _ => rfl, rfl⟩
  · split
    · exact ⟨fun _ => rfl, rfl⟩
    · next g' _ _ _ =>
      refine ⟨fun g => ?_, rfl⟩
      rw [State.find_modLg]
      split
      · next h =>
        subst h
        cases s.lgs.find g <;> rfl
      · rfl

theorem State.stage_eff {s : State} {c : Ctx} (hc : s.ctx? = some c) (m : DWord) :
    ∃ l', (s.stage c m).lgs.find c.g = some l' ∧ l'.staged = (List.range 64).filter (bit m) ∧
      l' = { c.lg with staged := l'.staged, stagedAt := l'.stagedAt } ∧
      (∀ g, g ≠ c.g → ((s.stage c m).lgs.find g).map Lg.unstaged = (s.lgs.find g).map Lg.unstaged) ∧
      s.stage c m = { s with lgs := (s.stage c m).lgs, nseq := (s.stage c m).nseq } := by
  obtain ⟨hg, hl, -, -⟩ := State.ctx?_spec hc
  obtain ⟨hothers, hu⟩ := s.slotFreed_eff c
  rw [State.stage_eq]
  generalize s.slotFreed c = u at hothers hu ⊢
  obtain ⟨l, hfind, hlg⟩ : ∃ l, u.lgs.find c.g = some l ∧ l.unstaged = c.lg.unstaged := by
    have h := hothers c.g
    rw [hg, hl] at h
    rw [hg]
    exact Option.map_eq_some_iff.mp h
  have hrest : l = { c.lg with staged := l.staged, stagedAt := l.stagedAt } := by
    have h := congrArg (fun x : Lg => { x with staged := l.staged, stagedAt := l.stagedAt }) hlg
    exact h
  refine ⟨{ l with staged := (List.range 64).filter (bit m), stagedAt := u.nseq + 1 }, ?_, rfl, ?_, fun g hne => ?_, ?_⟩
  · exact (State.find_modLg ..).trans (by simp [hfind])
  · rw [hrest]
  · exact (congrArg _ ((State.find_modLg ..).trans (if_neg hne))).trans (hothers g)
  · rw [hu]
    rfl

/-- The findings of `rgn.pf` (R57): more than 32 registers, and the words of those allocated that fail their codes. -/
def Ctx.stageF (c : Ctx) (m : DWord) : List Finding :=
  c.illegalIf (32 < ((List.range 64).filter (bit m)).length) ++
    (((List.range 64).filter (bit m)).filter (· < c.lg.alloc)).flatMap (c.regF c.em)

theorem exec_rgnPf {m : BitVec 5} {s : State} {c : Ctx} (hc : s.ctx? = some c) (hw : wellFormed (.rgnPf m) = true) :
    exec (.rgnPf m) s = .next (s.checked c (c.stageF (c.kr m.toNat)) fun s => s.stage c (c.kr m.toNat)) := by
  show execRgnPf m s = _
  rw [execRgnPf, word_next _ hc hw]
  rfl

/-- The registers named that pass their codes are no finding. -/
theorem Ctx.stageF_of_regOk {c : Ctx} {m : DWord} (h : ∀ r, r < 64 → m.getLsbD r = true → r < c.lg.alloc → c.RegOk r) :
    c.stageF m = c.illegalIf (32 < ((List.range 64).filter m.getLsbD).length) := by
  have hnil : (((List.range 64).filter (bit m)).filter (· < c.lg.alloc)).flatMap (c.regF c.em) = [] := by
    refine List.flatMap_eq_nil_iff.mpr fun r hr => Ctx.regF_nil ?_
    simp only [List.mem_filter, List.mem_range, decide_eq_true_eq, bit] at hr
    exact h r hr.1.1 hr.1.2 hr.2
  rw [Ctx.stageF, hnil, List.append_nil]
  rfl

/-- The lanes in which a register named fails its code. -/
def Ctx.stageBad (c : Ctx) (m : DWord) : Word := maskOf (c.lanes.filter fun j => (List.range 64).any fun r =>
  m.getLsbD r && decide (r < c.lg.alloc) && c.badWord (r, j))

theorem Ctx.best_stageF {c : Ctx} {m : DWord} (h : c.stageBad m ≠ 0) : bestFinding (c.stageF m) = some ⟨5, .poison, c.stageBad m⟩ := by
  have hbest := c.best_regF (((List.range 64).filter (bit m)).filter (· < c.lg.alloc))
  have hmask : maskOf (c.lanes.filter fun j =>
      (((List.range 64).filter (bit m)).filter (· < c.lg.alloc)).any fun r => c.badWord (r, j)) = c.stageBad m := by
    simp [Ctx.stageBad, List.any_filter, bit, Bool.and_left_comm, Bool.and_assoc]
  simp only [hmask, if_neg (show ¬ c.stageBad m = 0#32 from h)] at hbest
  unfold Ctx.stageF Ctx.illegalIf
  split
  · rw [List.singleton_append, bestFinding, hbest]
    rfl
  · exact hbest

/-- Settles O12: each word by its shape, `rgn.pf` by its findings and by what staging leaves. -/
theorem laneControlWords : Obligations.LaneControlWords := by
  unfold Obligations.LaneControlWords
  refine ⟨fun m => ?edge, fun x a => ⟨?idxSet, ?idxAdd⟩, fun m => ?rgnPf, fun m => ?rgnIllegal, fun m => ?rgnPoison,
    fun x => ⟨?growNone, ?growHandler, ?growBlock, ?grow, ?shrink⟩, fun d n x => ?rdsp, fun d n x a => ⟨?ldX, ?stX⟩⟩
  case edge => exact .of_upWord (chk := fun _ => []) (fun _ => rfl) (fun _ _ _ => rfl) fun c s => rfl
  case idxSet => exact .of_upWord (fun _ => rfl) (fun _ _ => Ctx.srcF_nil) fun c s => .of_wrOff c s x.toNat fun c j => (c.src 0 a j).truncate 8
  case idxAdd =>
    refine .of_upWord (fun _ => rfl) (fun _ _ => Ctx.srcF_nil) fun c s => ?_
    simpa [Ctx.idxOff] using OffEff.of_wrOff c s x.toNat fun c j => BitVec.ofNat 8 (c.idxOff x.toNat j) + (c.src 0 a j).truncate 8
  case growNone =>
    rintro s c hc hw ⟨hh, hn⟩
    exact ⟨s, by rw [exec_rgrow hc hw hh, if_pos hn], rfl⟩
  case growHandler => exact runs_illegal (bad := fun c _ => c.handler) (fun _ => rfl) fun c s h => h
  case growBlock =>
    rintro s c hc hw ⟨hh, hn, hg⟩
    exact ⟨_, by rw [exec_rgrow hc hw hh, if_neg (by omega), if_neg hg], s.pk.first, s.pk.slot, State.find_blockBack hc _⟩
  case grow =>
    rintro s c hc hw ⟨hh, hn, hg⟩
    refine ⟨_, by rw [exec_rgrow hc hw hh, if_neg (by omega), if_pos hg, State.up_eq hc], c.lg.grow (64 + 32 * x.toNat), rfl, rfl, rfl,
      fun r lane hl => Lg.vAt_filter_lt rfl r lane hl, rfl⟩
  case shrink =>
    refine .of_upWord (chk := fun _ => []) (fun _ => rfl) (fun _ _ _ => rfl) fun c s => ⟨_, rfl, ?_⟩
    split
    · next h => exact ⟨(Nat.min_eq_left h).symm, fun r lane _ => by simp [h], rfl⟩
    · next h =>
      refine ⟨(Nat.min_eq_right (Nat.le_of_not_le h)).symm, fun r lane hl => ?_, rfl⟩
      simp only [h, or_false]
      exact Lg.vAt_filter_lt rfl r lane hl
  case rdsp =>
    intro s c hc hw _
    obtain ⟨t, he, l', hl, ht⟩ := laneWord_next (i := .rdsp d n x) (fun c _ => rdspValue c s x.toNat) hc hw (chk := fun _ => []) rfl
      (lt_four_of_latchOk (Bool.and_eq_true_iff.mp hw).1)
    refine ⟨t, he, l', ?_, ht⟩
    convert hl using 2
    unfold rdspValue
    split <;> rfl
  case ldX =>
    refine .of_laneWord (fun _ => rfl) id fun c _ h => ?_
    have hidx : c.idxF x.toNat = [] := lanesFail_nil _ _ fun j hj => by simp [(h j hj).1]
    rw [hidx, List.nil_append]
    exact lanesFail_nil _ _ fun j hj => by simp [(h j hj).2]
  case stX =>
    refine .of_upWord (fun _ => rfl) (fun c _ ⟨hx, ha⟩ => ?_) fun c s => ⟨_, rfl, fun r lane hl => ?_, rfl⟩
    · have hidx : c.idxF x.toNat = [] := lanesFail_nil _ _ fun j hj => by simp [hx j hj]
      rw [hidx, Ctx.srcF_nil ha, List.append_nil]
    · exact getD_foldl_indexed _ _ _ _ _ _ hl
  case rgnPf =>
    rintro s c hc hw ⟨hlen, hreg⟩
    obtain ⟨l', hl', hst, hrest, hothers, ht⟩ := s.stage_eff hc (c.kr m.toNat)
    refine ⟨_, ?_, l', hl', fun r => ?_, hrest, hothers, ht⟩
    · rw [exec_rgnPf hc hw, Ctx.stageF_of_regOk hreg, State.checked_legal (by simpa using hlen)]
    · simp [hst, bit]
  case rgnIllegal =>
    rintro s c hc hw ⟨hlen, hreg⟩
    exact ⟨_, exec_rgnPf hc hw, by rw [Ctx.stageF_of_regOk hreg]; exact State.checked_illegalIf (by simpa using hlen) _⟩
  case rgnPoison =>
    intro bad s c hc hw hbad
    exact ⟨_, exec_rgnPf hc hw, State.checked_of_best (Ctx.best_stageF hbad) _⟩

end Sys2Proof.Machine
end

section
/-! PROOF. Uniform words and the ownership of uniform registers (R330 to R334, R63, R64; O26, O27). -/

set_option Elab.async false

namespace Sys2Proof.Machine

variable {i : Instr} {d : BitVec 5} {a b : BitVec 8}

/-! ## Writes of an owned register -/

theorem Ctx.ownF_nil {c : Ctx} {n : Nat} (h : c.owns n = true) : c.ownF n = [] := if_neg (by simp [h])

theorem Ctx.ownF_of {c : Ctx} {n : Nat} (h : c.owns n = false) : c.ownF n = [⟨Cause.rank .kown, .kown, c.em⟩] := if_pos (by simp [h])

theorem KEff.of_wrK {s : State} {c : Ctx} (h : s.wgs.find c.lg.wg = some c.wg) (n b : Nat) (f : Ctx → DWord) :
    KEff n f c s (s.wrK c.lg.wg n b (f c)) := State.wrK_kEff h n b (f c)

theorem KLaw.of_kWord {f : Ctx → DWord} (he : ∀ s, exec i s = kWord i s d f) : KLaw i d f := by
  intro s c hc hw ho
  obtain ⟨-, -, hwg, -⟩ := State.ctx?_spec hc
  refine ⟨_, ?_, KEff.of_wrK hwg d.toNat c.lg.lgn f⟩
  rw [he, kWord, word_next _ hc hw, Ctx.ownF_nil ho, State.checked_nil]

theorem KBinLaw.of_kBin {f : DWord → DWord → DWord} (he : ∀ s, exec i s = kBin i s d a b f) : KBinLaw i d a b f := .of_kWord he

/-- A word that does not own the register it writes raises `kown` (R63). -/
theorem refused_of_kWord {f : Ctx → DWord} (he : ∀ s, exec i s = kWord i s d f) :
    Runs i (fun c _ => c.owns d.toNat = false) (Raises .kown (Cause.rank .kown) Ctx.em) := by
  intro s c hc hw ho
  refine ⟨_, ?_, rfl⟩
  rw [he, kWord, word_next _ hc hw, Ctx.ownF_of ho]
  rfl

theorem kshl_eq (x y : DWord) : (if 64 ≤ y.toNat then 0 else x <<< y.toNat) = x <<< y.toNat := by
  split
  · next h => exact (BitVec.shiftLeft_eq_zero h).symm
  · rfl

theorem kshr_eq (x y : DWord) : (if 64 ≤ y.toNat then 0 else x >>> y.toNat) = x >>> y.toNat := by
  split
  · next h => exact (BitVec.ushiftRight_eq_zero h).symm
  · rfl

/-- The pair that `kfromv` writes (R334). -/
def Ctx.kfromvPair (a b : BitVec 8) (c : Ctx) : DWord :=
  BitVec.ofNat 64 ((c.src 0 a c.exLane).toNat + (c.src 0 b c.exLane).toNat * 2 ^ 32)

/-- `kfromv` once its sources have been read (R334). -/
theorem exec_kfromv {s : State} {c : Ctx} (hc : s.ctx? = some c) (hw : wellFormed (.kfromv d a b) = true) (hem : c.em ≠ 0)
    (ha : c.srcAt (1#32 <<< c.exLane) id a = []) (hb : c.srcAt (1#32 <<< c.exLane) id b = []) :
    exec (.kfromv d a b) s = .next (s.checked c (c.ownF d.toNat) fun s => s.wrK c.lg.wg d.toNat c.lg.lgn (c.kfromvPair a b)) := by
  show execKfromv d a b s = _
  rw [execKfromv, word_next _ hc hw]
  simp only [if_neg hem, ha, hb, List.nil_append, pairWord_eq, Ctx.kfromvPair]

/-- Settles O26: each word writes its register by `wrK`, but for `kmov` to the link register. -/
theorem uniformWords : Obligations.UniformWords := by
  unfold Obligations.UniformWords
  refine ⟨fun d a b => ⟨?kmov, ?fromLk, ?kadd, ?ksub, ?kand, ?kor, ?kxor, ?kshl, ?kshr, ?eq, ?ltS, ?ltZ⟩, fun a => ?toLk,
    fun d a b => ⟨?fromv, ?fromvNone⟩⟩
  case kmov | fromLk => exact .of_kWord fun _ => rfl
  case kshl =>
    have h : KBinLaw (.kshl d a b) d a b fun x y => if 64 ≤ y.toNat then 0 else x <<< y.toNat := .of_kBin fun _ => rfl
    simpa only [kshl_eq] using h
  case kshr =>
    have h : KBinLaw (.kshr d a b) d a b fun x y => if 64 ≤ y.toNat then 0 else x >>> y.toNat := .of_kBin fun _ => rfl
    simpa only [kshr_eq] using h
  case eq =>
    have h : KBinLaw (.kcmpEq d a b) d a b fun x y => kBool (x == y) := .of_kBin fun _ => rfl
    simpa [kBool] using h
  case ltS =>
    have h : KBinLaw (.kcmpLtS d a b) d a b fun x y => kBool (x.slt y) := .of_kBin fun _ => rfl
    simpa [kBool, BitVec.slt] using h
  case ltZ =>
    have h : KBinLaw (.kcmpLtZ d a b) d a b fun x y => kBool (x.ult y) := .of_kBin fun _ => rfl
    simpa [kBool, BitVec.ult] using h
  case kadd | ksub | kand | kor | kxor => exact .of_kBin fun _ => rfl
  case toLk =>
    intro s c hc hw _
    exact ⟨_, word_next (fun c s => s.up c fun l => { l with lk := c.uni a }) hc hw, State.up_eq hc _⟩
  case fromv =>
    intro s c hc hw ⟨hem, ho, ha, hb⟩
    obtain ⟨-, -, hwg, -⟩ := State.ctx?_spec hc
    exact ⟨_, by rw [exec_kfromv hc hw hem ha hb, Ctx.ownF_nil ho, State.checked_nil],
      KEff.of_wrK hwg d.toNat c.lg.lgn (Ctx.kfromvPair a b)⟩
  case fromvNone =>
    intro s c hc hw hem
    refine ⟨s, ?_, rfl⟩
    show execKfromv d a b s = _
    rw [execKfromv, word_next _ hc hw, if_pos hem]

/-! ## Ownership -/

theorem Wg.ownerAt_setD (w : Wg) (n o m : Nat) :
    ({ w with kown := w.kown.setD 0 n o } : Wg).ownerAt m = if m = n then o else w.ownerAt m := Tab.getD_setD ..

/-- `kclaim` of a register that is free or the claimant's own (R333). -/
theorem exec_kclaim {p : BitVec 3} {s : State} {c : Ctx} (hc : s.ctx? = some c) (hw : wellFormed (.kclaim d p) = true) :
    exec (.kclaim d p) s = .next (
      if c.owner d.toNat = 32 ∨ c.owner d.toNat = c.lg.lgn then
        (s.setOwner c.lg.wg d.toNat c.lg.lgn).up c fun l => { l with kv := l.kv.del d.toNat }.setQ p.toNat 0xFFFFFFFF
      else s.up c fun l => { l with kv := l.kv }.setQ p.toNat 0) := by
  show execKclaim d p s = _
  rw [execKclaim, word_next _ hc hw]
  by_cases h : c.owner d.toNat = 32 ∨ c.owner d.toNat = c.lg.lgn
  · have hb : (c.owner d.toNat == 32 || c.owner d.toNat == c.lg.lgn) = true := by simpa using h
    simp only [hb, if_pos h, if_true, allQ]
  · have hb : (c.owner d.toNat == 32 || c.owner d.toNat == c.lg.lgn) = false := by simpa using h
    simp only [hb, if_neg h, Bool.false_eq_true, if_false, allQ]

/-- A predicate written whole leaves the others. -/
theorem Lg.setQ_qAt_other (l : Lg) {n m : Nat} (w : Word) (h : m ≠ n) : (l.setQ n w).qAt m = l.qAt m := by
  simp [Lg.setQ, Lg.qAt, Tab.getD_setD, h]

/-- What the lane groups still read of a register is gone once its writes are visible (R64). -/
theorem State.showK_lgs (s : State) (w n h : Nat) :
    ((s.showK w n).lgs.find h).map (fun l => { l with kv := [] }) = (s.lgs.find h).map (fun l => { l with kv := [] }) := by
  refine (congrArg _ (Tab.find_map (fun l : Lg => if l.wg = w then { l with kv := l.kv.del n } else l) (fun _ => rfl) h s.lgs)).trans ?_
  rw [Option.map_map]
  congr 1
  funext l
  dsimp only [Function.comp]
  split <;> rfl

/-- Settles O27: a claim by whether the register is free, a release by the two tables that it changes, a refusal by its finding. -/
theorem uniformOwnership : Obligations.UniformOwnership := by
  unfold Obligations.UniformOwnership
  dsimp only
  refine ⟨fun d p => ?kclaim, fun d => ?krel, fun d a b =>
    ⟨?_, ?_, ?_, ?_, ?_, ?_, ?_, ?_, ?_, ?_, ?_, ?_, ?krelRefused, ?fromv⟩⟩
  case kclaim =>
    intro s c hc hw _
    obtain ⟨hg, hl, hwg, -⟩ := State.ctx?_spec hc
    have hne : ∀ m : BitVec 3, m ≠ p → m.toNat ≠ p.toNat := fun m hm h => hm (BitVec.eq_of_toNat_eq h)
    refine ⟨_, exec_kclaim hc hw, ?_⟩
    split
    · next h =>
      refine ⟨{ c.lg with kv := c.lg.kv.del d.toNat }.setQ p.toNat 0xFFFFFFFF, { c.wg with kown := c.wg.kown.setD 0 d.toNat c.lg.lgn },
        ?_, ?_, fun _ => ⟨?_, ?_⟩, fun hn => absurd h hn, fun m hm => ?_, rfl, rfl, fun m hm => ?_, rfl⟩
      · exact State.find_up hc rfl _
      · exact State.find_modWg_self _ hwg
      · exact Lg.setQ_qAt ..
      · rw [Wg.ownerAt_setD, if_pos rfl]
      · rw [Wg.ownerAt_setD, if_neg hm]
      · exact Lg.setQ_qAt_other _ _ (hne m hm)
    · next h =>
      refine ⟨c.lg.setQ p.toNat 0, c.wg, State.find_up hc rfl _, hwg, fun hn => absurd hn h, fun _ => ⟨?_, rfl⟩, fun _ _ => rfl, rfl, rfl,
        fun m hm => ?_, rfl⟩
      · exact Lg.setQ_qAt ..
      · exact Lg.setQ_qAt_other _ _ (hne m hm)
  case krel =>
    intro s c hc hw ho
    obtain ⟨-, -, hwg, -⟩ := State.ctx?_spec hc
    refine ⟨(s.showK c.lg.wg d.toNat).setOwner c.lg.wg d.toNat 32, ?_, { c.wg with kown := c.wg.kown.setD 0 d.toNat 32 },
      State.find_modWg_self _ hwg, ?_, fun m hm => ?_, rfl, fun g => State.showK_lgs .., rfl⟩
    · show execKrel d s = _
      rw [execKrel, word_next _ hc hw, Ctx.ownF_nil ho, State.checked_nil]
    · rw [Wg.ownerAt_setD, if_pos rfl]
    · rw [Wg.ownerAt_setD, if_neg hm]
  case krelRefused =>
    intro s c hc hw ho
    refine ⟨_, ?_, rfl⟩
    show execKrel d s = _
    rw [execKrel, word_next _ hc hw, Ctx.ownF_of ho]
    rfl
  case fromv =>
    intro s c hc hw ⟨hem, ho, ha, hb⟩
    exact ⟨_, by rw [exec_kfromv hc hw hem ha hb, Ctx.ownF_of ho]; rfl, rfl⟩
  all_goals exact refused_of_kWord fun _ => rfl

end Sys2Proof.Machine
end

section
/-! PROOF. Exceptions and the system words of major 15 that touch no page (R381 to R384, R404, R413, R416, R417; O34, O35, O36, O40). -/

set_option Elab.async false

namespace Sys2Proof.Machine

variable {s : State} {c : Ctx}

/-! ## Taking an exception -/

theorem tcauseOf_eq (k : Cause) (slot : Nat) (run : Bool) :
    tcauseOf k slot run = BitVec.ofNat 11 (k.code + slot % 4 * 256 + (if run then 1024 else 0)) := by
  cases run <;> rfl

/-- The machine once the fate of the packet in execution is a trap. -/
def State.trapped (s : State) (x : Trap) : State := { s with pk := { s.pk with fate := .trapped x.rank x.slot (x.replaying || x.commits) } }

/-- No second-stage fault, and no poison that a node discards (R424, R430). -/
def Trap.plain (x : Trap) (la : Launch) : Prop := x.cause ≠ .xlatS2 ∧ ¬ (la.node = true ∧ (x.cause = .poison ∨ x.cause = .deferred))

/-- A fault entry, where the launch has a handler that is not running (R416). -/
theorem State.takeTrap_enters {x : Trap} (kind : Nat) (hx : x.plain c.la) (hsvh : c.la.svh ≠ 0) (hsup : c.lg.sup = false) :
    s.takeTrap c x kind = (s.trapped x).modLg c.g fun l =>
      { (l.record x).enterHandler c.la.svh (if x.fpc = s.pk.idx ∧ s.pk.before.isSome then some l.pc else none) x.acc
        (if x.fpc = s.pk.idx ∧ s.pk.before.isSome then s.pk.later else []) s.nseq with pendKind := kind } := by
  obtain ⟨hs2, hnode⟩ := hx
  have hn : (c.la.node && (decide (x.cause = .poison) || decide (x.cause = .deferred))) = false := by
    rw [← Bool.not_eq_true]
    simpa using hnode
  unfold State.takeTrap
  simp [hs2, hn, hsvh, hsup, State.trapped]

/-- A stop, where no handler takes the cause (R404, R415). -/
theorem State.takeTrap_stops {x : Trap} (kind : Nat) (hx : x.plain c.la) (hft : x.cause ≠ .xlatFt) (hh : c.la.svh = 0 ∨ c.lg.sup = true) :
    s.takeTrap c x kind = ((s.trapped x).modLg c.g fun l => { l.record x with pc := x.fpc }).stopLg c.g x.cause := by
  obtain ⟨hs2, hnode⟩ := hx
  have hn : (c.la.node && (decide (x.cause = .poison) || decide (x.cause = .deferred))) = false := by
    rw [← Bool.not_eq_true]
    simpa using hnode
  have hh' : (decide (c.la.svh = 0) || c.lg.sup) = true := by simpa using hh
  unfold State.takeTrap
  simp only [hs2, hn, hh', hft, if_true, if_false, Bool.false_eq_true]
  rfl

/-- Settles O35: the record of the trap, and the entry of the handler. -/
theorem takingAnException : Obligations.TakingAnException := by
  unfold Obligations.TakingAnException
  intro s c x kind hc hs2 hnode hsvh hsup
  obtain ⟨hg, hl, -, -⟩ := State.ctx?_spec hc
  rw [State.takeTrap_enters kind ⟨hs2, hnode⟩ hsvh hsup]
  have hput := Tab.modify_of_find (k := c.g) (fun l : Lg =>
    { (l.record x).enterHandler c.la.svh (if x.fpc = s.pk.idx ∧ s.pk.before.isSome then some l.pc else none) x.acc
        (if x.fpc = s.pk.idx ∧ s.pk.before.isSome then s.pk.later else []) s.nseq with pendKind := kind }) (hg ▸ hl)
  refine ⟨_, hput, tcauseOf_eq .., rfl, rfl, rfl, rfl, rfl, rfl, rfl, rfl, rfl, rfl, rfl, rfl, rfl, rfl, rfl, ?_⟩
  show ({ s.trapped x with lgs := s.lgs.modify c.g _ } : State) = _
  rw [hput]
  rfl

/-- What a stop leaves of the lane group and of its launch (R404, R406). -/
theorem State.stopLg_eff {g : Nat} {l : Lg} {w : Wg} {la : Launch} (k : Cause) (hl : s.lgs.find g = some l) (hw : s.wgs.find l.wg = some w)
    (hla : s.launches.find w.launch = some la) :
    (s.stopLg g k).lgs.find g = some { l with status := .stopped k } ∧
      (s.stopLg g k).launches.find w.launch = some { la with faulted := true, faultCause := if la.faulted then la.faultCause else k } := by
  have heq : s.stopLg g k = ((s.modLg g fun l => { l with status := .stopped k }).faultLaunch w.launch k).tenantRec la.vf
      [recHead k 0 la.part la.vf w.core w.slot l.lgn (bhOf w.core), l.fpc.toNat, l.tva.toNat, s.time] := by
    unfold State.stopLg
    simp only [hl, hw, hla]
    rfl
  have hrest := (State.tenantRec_under ((s.modLg g fun l => { l with status := .stopped k }).faultLaunch w.launch k) la.vf
    [recHead k 0 la.part la.vf w.core w.slot l.lgn (bhOf w.core), l.fpc.toNat, l.tva.toNat, s.time]).1
  rw [heq]
  refine ⟨?_, ?_⟩
  · rw [hrest.lgs]
    exact State.find_modLg_self _ hl
  · rw [hrest.launches]
    exact State.find_modLaunch_self _ hla

/-- Settles O36: the record of the trap, and the stop. -/
theorem noHandlerStops : Obligations.NoHandlerStops := by
  unfold Obligations.NoHandlerStops
  intro s c x kind hc hs2 hft hnode hh
  obtain ⟨hg, hl, hwg, hla⟩ := State.ctx?_spec hc
  rw [State.takeTrap_stops kind ⟨hs2, hnode⟩ hft hh]
  obtain ⟨hlg, hlaunch⟩ := State.stopLg_eff (s := (s.trapped x).modLg c.g fun l => { l.record x with pc := x.fpc }) x.cause
    (State.find_modLg_self _ (hg ▸ hl)) hwg hla
  exact ⟨_, _, hlg, rfl, tcauseOf_eq .., rfl, rfl, rfl, rfl, rfl, hlaunch, rfl, rfl⟩

/-! ## Traps, breakpoints and the return (R382, R384, R417) -/

/-- A lane group but for what its accesses report to it. -/
def Lg.uncounted (l : Lg) : Lg := { l with c := [], fails := [] }

theorem State.find_modLg_uncounted (s : State) (g : Nat) {f : Lg → Lg} (hf : ∀ l, (f l).uncounted = l.uncounted) (h : Nat) :
    ((s.modLg g f).lgs.find h).map Lg.uncounted = (s.lgs.find h).map Lg.uncounted := by
  rw [State.find_modLg]
  split
  · next e =>
    subst e
    rw [Option.map_map]
    exact congrArg (fun f => (s.lgs.find h).map f) (funext hf)
  · rfl

theorem State.addCtr_lgs (s : State) (g n : Nat) (x : Word) (h : Nat) :
    ((s.addCtr g n x).lgs.find h).map Lg.uncounted = (s.lgs.find h).map Lg.uncounted :=
  s.find_modLg_uncounted g (f := fun l => { l with c := l.c.setD 0 n (Tab.getD l.c 0 n + x) }) (fun _ => rfl) h

theorem State.noteFail_lgs (s : State) (g : Nat) (f : Fail) (h : Nat) :
    ((s.noteFail g f).lgs.find h).map Lg.uncounted = (s.lgs.find h).map Lg.uncounted :=
  s.find_modLg_uncounted g (f := fun l => { l with fails := l.fails ++ [f] }) (fun _ => rfl) h

/-- An access that ends changes in the lane groups only counters and failures (R302, R321). -/
theorem State.finishAccess_lgs (s : State) (id h : Nat) :
    ((s.finishAccess id).lgs.find h).map Lg.uncounted = (s.lgs.find h).map Lg.uncounted := by
  unfold State.finishAccess
  cases s.accs.find id with
  | none => rfl
  | some x =>
    dsimp only
    split_ifs
    · rfl
    · exact State.addCtr_lgs ..
    · rfl
    · exact (State.noteFail_lgs ..).trans (State.addCtr_lgs ..)
    · exact State.noteFail_lgs ..

theorem State.abandon_lgs (s : State) (a : Option Nat) (h : Nat) :
    ((s.abandon a).lgs.find h).map Lg.uncounted = (s.lgs.find h).map Lg.uncounted := by
  cases a with
  | none => rfl
  | some id => exact State.finishAccess_lgs (s.modAcc id fun x => { x with ctr := 16, opn := false }) id h

theorem State.find_of_uncounted {s t : State} {g : Nat} {l : Lg} (h : (t.lgs.find g).map Lg.uncounted = (s.lgs.find g).map Lg.uncounted)
    (hl : s.lgs.find g = some l) : ∃ l', t.lgs.find g = some l' ∧ l'.uncounted = l.uncounted := by
  rw [hl] at h
  exact Option.map_eq_some_iff.mp h

/-- The slot and the run that a software trap notes (R384). -/
theorem tcauseOf_none (s : State) :
    tcauseOf .none s.pk.slot (s.pk.first ≠ s.pk.idx) = BitVec.ofNat 11 (s.pk.slot % 4 * 256 + (if s.pk.first = s.pk.idx then 0 else 1024)) := by
  rw [tcauseOf_eq, Cause.code, Nat.zero_add]
  by_cases h : s.pk.first = s.pk.idx <;> simp [h]

/-- `sysret` inside the handler, nothing of it outstanding (R417). -/
theorem exec_sysret (hc : s.ctx? = some c) (hw : wellFormed .sysret = true) (hsup : c.lg.sup = true) :
    exec .sysret s = .next (if s.handlerBusy c then s.holdBack c
      else if c.lg.fm ≠ 0 && c.lg.resume = c.lg.fpc then
        s.up c fun l => { l with
          sup := false, em := l.savedEm, fm := 0, pc := l.resume, run := none, resuming := true
          replay := some ⟨bits l.tcause 8 2, l.fm, l.replayNext, l.replayAcc, l.replayLater⟩
          replayAcc := none, replayLater := [] }
      else
        (s.abandon c.lg.replayAcc).up c fun l => { l with
          sup := false, em := l.savedEm, fm := 0, pc := l.resume, run := none, resuming := true
          replay := none, replayAcc := none, replayLater := [] }) := by
  show execSysret s = _
  rw [execSysret, word_next _ hc hw, State.checked_legal (by simp [hsup])]

/-- Settles O34: `trap` and `bkpt` by their record, `sysret` by its two rules. -/
theorem trapAndReturn : Obligations.TrapAndReturn := by
  unfold Obligations.TrapAndReturn
  refine ⟨fun i => ⟨?trap, ?trapStops, ?bkpt, ?bkptPasses⟩, ?replays, ?resumes, ?busy, ?outside⟩
  case trap =>
    intro s c hc hw ⟨hsvh, hsup⟩
    refine ⟨s.up c fun l => { l.codeRecord s i with
      savedEm := c.em, fm := 0, resume := s.pk.succ, sup := true, pend := none, enteredAt := s.nseq,
      pc := linePacket c.la.svh, landing := true, replay := none, replayAcc := none, replayLater := [] }, ?_, ?_⟩
    · show execTrap i s = _
      rw [execTrap, word_next _ hc hw, if_neg (by simp [hsvh, hsup])]
    · exact ⟨_, State.up_eq hc _, rfl, tcauseOf_none s, rfl, rfl, rfl, rfl, rfl, rfl, rfl, rfl, rfl, rfl, rfl, rfl⟩
  case trapStops =>
    intro s c hc hw hstop
    obtain ⟨hg, hl, hwg, hla⟩ := State.ctx?_spec hc
    obtain ⟨hlg, hlaunch⟩ := State.stopLg_eff (s := s.up c fun l => l.codeRecord s i) .none (State.find_up hc rfl _) hwg hla
    refine ⟨(s.up c fun l => l.codeRecord s i).stopLg c.g .none, ?_, _, hlg, rfl, rfl, rfl, _, hlaunch, rfl⟩
    show execTrap i s = _
    rw [execTrap, word_next _ hc hw, if_pos (by simpa using hstop)]
  case bkpt =>
    intro s c hc hw hb
    refine ⟨s.up c fun l => { l.codeRecord s i with resume := s.pk.succ, status := .bkpt }, ?_, _, State.up_eq hc _, rfl, rfl, rfl, rfl, rfl, rfl⟩
    show execBkpt i s = _
    rw [execBkpt, word_next _ hc hw]
    exact congrArg _ (if_pos hb)
  case bkptPasses =>
    intro s c hc hw hb
    refine ⟨s, ?_, rfl⟩
    show execBkpt i s = _
    rw [execBkpt, word_next _ hc hw, if_neg (by simp [bit, hb])]
  case replays =>
    intro s c hc hw ⟨hsup, hbusy, hfm, hres⟩
    refine ⟨_, exec_sysret hc hw hsup, ?_⟩
    rw [if_neg (by simp [hbusy]), if_pos (Bool.and_eq_true_iff.mpr ⟨decide_eq_true hfm, decide_eq_true hres⟩), State.up_eq hc]
    exact ⟨_, rfl, rfl, rfl, rfl, rfl, rfl, rfl, _, rfl, rfl, rfl, rfl⟩
  case resumes =>
    intro s c hc hw ⟨hsup, hbusy, hfm⟩
    obtain ⟨hg, hl, -, -⟩ := State.ctx?_spec hc
    obtain ⟨l', hl', hcore⟩ := State.find_of_uncounted (s.abandon_lgs c.lg.replayAcc c.g) (hg ▸ hl)
    refine ⟨_, exec_sysret hc hw hsup, ?_⟩
    rw [if_neg (by simp [hbusy]), if_neg (by simpa [Classical.or_iff_not_imp_left] using hfm)]
    exact ⟨_, State.find_modLg_self _ hl', rfl, (congrArg Lg.savedEm hcore :), rfl, (congrArg Lg.resume hcore :), rfl⟩
  case busy =>
    intro s c hc hw ⟨hsup, hbusy⟩
    exact ⟨_, exec_sysret hc hw hsup, if_pos hbusy⟩
  case outside => exact runs_illegal (bad := fun c _ => !c.lg.sup) (fun _ => rfl) fun c s h => by simp [h]

/-! ## nop, yield and time (R381, R382, R242) -/

/-- Settles O40: `yield` by whether another lane group is ready, `time` by its pair. -/
theorem plainSystemWords : Obligations.PlainSystemWords := by
  unfold Obligations.PlainSystemWords
  refine ⟨?nop, ?yieldAlone, ?yield, fun d => ?time⟩
  case nop => exact fun s c hc hw _ => ⟨s, word_next (fun _ s => s) hc hw, rfl⟩
  case yieldAlone =>
    intro s c hc hw hnone
    refine ⟨s, ?_, rfl⟩
    show execYield s = _
    rw [execYield, word_next _ hc hw, hnone]
  case yield =>
    intro s c hc hw hsome
    refine ⟨s.up c fun l => { l with status := .yielding (s.readyOn c.core c.lg.sc c.g), parkAt := s.now }, ?_, State.up_eq hc _⟩
    show execYield s = _
    rw [execYield, word_next _ hc hw]
    split
    · next h => exact absurd h hsome
    · rfl
  case time =>
    intro s c hc hw _
    exact ⟨_, word_next (fun c s => s.up c fun l => l.wrPair c.em d.toNat fun _ => BitVec.ofNat 64 s.time) hc hw,
      _, Lg.wrPair_pairWrite c.lg c.em d.toNat fun _ => BitVec.ofNat 64 s.time, State.up_eq hc _⟩

end Sys2Proof.Machine
end

section
/-! SUPPORT. What has met a line that an engine owns still waits for the engine after whatever else the word does below the lane groups:
publishes, walks, records, fetches, traps (R132). -/

set_option Elab.async false

namespace Sys2Proof.Machine

/-! ## The packet stands -/

theorem State.homeWrite_pk (s : State) (a : Nat) (bs : List Byte) : (s.homeWrite a bs).pk = s.pk := by
  unfold State.homeWrite
  split
  · rfl
  · refine (foldl_keeps State.pk _ (fun s w => ?_) _ _).trans rfl
    split <;> rfl

theorem State.homeWriteP_pk (s : State) (a : Nat) (bs : List Byte) (pois : List Nat) : (s.homeWriteP a bs pois).pk = s.pk := by
  unfold State.homeWriteP
  split
  · rfl
  · exact (foldl_keeps State.pk _ (fun s w => by rfl) _ _).trans (State.homeWrite_pk ..)

theorem State.fill_pk (s : State) (ln : Nat) : (s.fill ln).pk = s.pk := by
  unfold State.fill
  split
  · exact foldl_keeps State.pk _ (fun s i => by rfl) _ _
  · rfl

theorem State.keepMsc_pk (s : State) (ln : Nat) (dirty : Bool) : (s.keepMsc ln dirty).pk = s.pk := by
  unfold State.keepMsc
  split
  · rfl
  · extract_lets s0 d s1 held
    have h : s1.pk = s.pk := by
      show s0.pk = s.pk
      unfold s0
      split
      · rfl
      · exact s.fill_pk ln
    split
    · exact h
    · have hv : (s1.victim held).1.pk = s1.pk := rfl
      split
      · next e =>
        rw [e] at hv
        refine Eq.trans ?_ (hv.trans h)
        dsimp only
        split <;> rfl
      · next e => rw [e] at hv; exact hv.trans h

theorem State.keepL2_pk (s : State) (ln : Nat) (dirty : Bool) : (s.keepL2 ln dirty).pk = s.pk := by
  unfold State.keepL2
  split
  · rfl
  · extract_lets s0 d s1 held
    have h : s1.pk = s.pk := s.fill_pk ln
    split
    · exact h
    · have hv : (s1.victim held).1.pk = s1.pk := rfl
      split
      · next e =>
        rw [e] at hv
        refine Eq.trans ?_ (hv.trans h)
        dsimp only
        split
        · exact State.keepMsc_pk ..
        · rfl
      · next e => rw [e] at hv; exact hv.trans h

theorem State.setCopies_pk (s : State) (a : Nat) (t : Tab CLine) : (s.setCopies a t).pk = s.pk := by
  unfold State.setCopies
  split <;> rfl

theorem State.takePublish_pk (s : State) (a ln : Nat) (cells : List (Nat × Byte)) (own pois : Word) :
    (s.takePublish a ln cells own pois).pk = s.pk := by
  unfold State.takePublish
  extract_lets ws s1 d s2
  have h : s2.pk = s.pk := by
    show s1.pk = s.pk
    unfold s1
    split
    · rfl
    · exact foldl_keeps State.pk _ (fun s i => State.homeWriteP_pk ..) _ _
  split
  · exact h
  · exact (State.keepL2_pk ..).trans h

theorem State.publishFrom_pk (s : State) (ln a : Nat) : (s.publishFrom ln a).pk = s.pk :=
  (State.takePublish_pk ..).trans (State.setCopies_pk ..)

theorem State.landPublishes_pk (s : State) (ln : Nat) : (s.landPublishes ln).pk = s.pk := by
  refine foldl_keeps State.pk _ (fun s e => ?_) _ _
  split
  · split
    · exact State.takePublish_pk ..
    · rfl
  · rfl

theorem State.loseWords_pk (s : State) (ln a : Nat) : (s.loseWords ln a).pk = s.pk :=
  (State.setCopies_pk ..).trans (foldl_keeps State.pk _ (fun s p => by rfl) _ _)

theorem State.publishAll_pk (s : State) (ln : Nat) : (s.publishAll ln).pk = s.pk := by
  refine (foldl_keeps State.pk _ (fun s a => ?_) _ _).trans (s.landPublishes_pk ln)
  split
  · exact State.loseWords_pk ..
  · exact State.publishFrom_pk ..

theorem State.asKey_pk (s : State) (ln kid : Nat) : (s.asKey ln kid).pk = s.pk := by
  unfold State.asKey
  extract_lets d
  split
  · rfl
  · split <;> rfl

theorem State.stamps_pk (pts : Nat) : ∀ (l : List Nat) (p : Nat × State),
    (l.foldl (fun (p : Nat × State) ln => let (t, s) := p.2.stamp ln pts; (max p.1 t, s.keepL2 ln true)) p).2.pk = p.2.pk
  | [], _ => rfl
  | ln :: r, p => (State.stamps_pk pts r (max p.1 (p.2.stamp ln pts).1, (p.2.stamp ln pts).2.keepL2 ln true)).trans (State.keepL2_pk ..)

/-! ## The wait stays -/

/-- `t` still waits for an engine's line that `s` has met. -/
structure Rises (s t : State) : Prop where
  stays : s.pk.stall = true → t.pk.stall = true

theorem Rises.refl (s : State) : Rises s s := ⟨id⟩

theorem Rises.trans {s t u : State} (h : Rises s t) (k : Rises t u) : Rises s u := ⟨fun e => k.stays (h.stays e)⟩

theorem Rises.of_stall {s t : State} (h : t.pk.stall = s.pk.stall) : Rises s t := ⟨fun e => h.trans e⟩

theorem Rises.of_pk {s t : State} (h : t.pk = s.pk) : Rises s t := .of_stall (congrArg (·.stall) h)

theorem Rises.foldl {β : Type} {f : State → β → State} (hf : ∀ s x, Rises s (f s x)) : ∀ (l : List β) (s : State), Rises s (l.foldl f s)
  | [], s => .refl s
  | x :: r, s => (hf s x).trans (Rises.foldl hf r (f s x))

/-- What a function that answers a state and a value does, read off its equation. -/
theorem Rises.of_fst {α : Type} {s t : State} {r : State × α} {x : α} (h : Rises s r.1) (e : r = (t, x)) : Rises s t := by
  rw [e] at h; exact h

theorem State.publishLine_rises (s : State) (ln : Nat) : Rises s (s.publishLine ln) := by
  unfold State.publishLine
  split
  · exact ⟨fun _ => rfl⟩
  · exact .of_pk (s.publishAll_pk ln)

theorem State.devRead_rises (s : State) (a n : Nat) : Rises s (s.devRead a n).1 := Rises.foldl State.publishLine_rises (linesOf a n) s

theorem State.devWrite_rises (s : State) (a : Nat) (bs : List Byte) (pts : Nat) : Rises s (s.devWrite a bs pts).2 :=
  (Rises.foldl State.publishLine_rises (linesOf a bs.length) s).trans
    (.of_pk ((State.stamps_pk pts (linesOf a bs.length) (pts, _)).trans (State.homeWrite_pk ..)))

theorem State.keyRange_rises (s : State) (a n kid : Nat) : Rises s (s.keyRange a n kid) :=
  Rises.foldl (fun s ln => (s.publishLine_rises ln).trans (.of_pk (State.asKey_pk ..))) _ _

/-! ## Walks -/

theorem State.tableWord_rises (s : State) (pa : Nat) (kid : Nat := 0) : Rises s (s.tableWord pa kid).1 := by
  unfold State.tableWord
  extract_lets pa
  split
  · exact .refl s
  · exact (s.keyRange_rises pa 8 kid).trans (State.devRead_rises _ pa 8)

theorem onWord_rises {α : Type} {s : State} (r : State × Option DWord) (bad : State → State × α) (k : State → DWord → State × α)
    (h : Rises s r.1) (hb : ∀ t, Rises s t → Rises s (bad t).1) (hk : ∀ t e, Rises s t → Rises s (k t e).1) : Rises s (onWord r bad k).1 := by
  obtain ⟨t, _ | e⟩ := r
  · exact hb t h
  · exact hk t e h

theorem walkS2_rises (ipa : Nat) : ∀ (l : List Level) (table : Nat) (s : State), Rises s (walkS2 ipa l table s).1
  | [], _, s => .refl s
  | l :: r, table, s => by
    unfold walkS2
    refine onWord_rises _ _ _ (State.tableWord_rises ..) (fun t h => h) fun t e h => ?_
    split_ifs
    · exact h
    · exact h.trans (walkS2_rises ipa r _ _)
    · exact h

theorem State.stage2_rises (s : State) (part ipa : Nat) : Rises s (s.stage2 part ipa).1 := by
  unfold State.stage2
  extract_lets c
  split
  · exact walkS2_rises _ _ _ _
  · exact .refl s

theorem State.ipaCause_rises (s : State) (part vf ipa need : Nat) : Rises s (s.ipaCause part vf ipa need).1 := by
  unfold State.ipaCause
  have k := s.stage2_rises part ipa
  split <;> (next e => exact k.of_fst e)

theorem State.ipaAddr_rises (s : State) (part vf ipa need : Nat) : Rises s (s.ipaAddr part vf ipa need).1 := by
  unfold State.ipaAddr
  have k := s.ipaCause_rises part vf ipa need
  split <;> (next e => exact k.of_fst e)

theorem walkS1_rises (part vf va need : Nat) : ∀ (l : List Level) (table : Nat) (s : State), Rises s (walkS1 part vf va need l table s).1
  | [], _, s => .refl s
  | l :: r, table, s => by
    unfold walkS1
    extract_lets ipa q
    have k : Rises s q.1 := s.ipaCause_rises part vf ipa 1
    split
    · exact k
    · split
      · exact k
      · refine onWord_rises _ _ _ (k.trans (q.1.tableWord_rises q.2.1.1 q.2.1.2)) (fun t h => h) fun t e h => ?_
        split
        · split
          · exact h
          · split <;> exact h
        · split
          · exact h
          · split
            · exact h.trans (walkS1_rises part vf va need r _ _)
            · split
              · exact h
              · extract_lets ipa
                have k3 := t.stage2_rises part ipa
                split <;> (next e => exact h.trans (k3.of_fst e))

theorem State.walk_rises (s : State) (part vf va need : Nat) : Rises s (s.walk part vf va need).1 := by
  unfold State.walk
  extract_lets c
  split
  · exact .refl s
  · exact walkS1_rises _ _ _ _ _ _ _

theorem State.fillTlb_pk (s : State) (core : Nat) (e : TlbEnt) : (s.fillTlb core e).pk = s.pk := by
  unfold State.fillTlb
  rfl

theorem State.xlate_rises (s : State) (core part vf va need : Nat) : Rises s (s.xlate core part vf va need).1 := by
  unfold State.xlate
  split
  · exact .refl s
  · split
    · exact .of_pk (State.fillTlb_pk ..)
    · have k := s.walk_rises part vf va need
      split
      · next e => exact (k.of_fst e).trans (.of_pk (State.fillTlb_pk ..))
      · exact k

/-! ## Records -/

theorem State.ringPut_rises (s : State) (tr : State → Nat → State × Option (Nat × Nat)) (base size : Nat) (bs : List Byte)
    (htr : ∀ s a, Rises s (tr s a).1) : Rises s (s.ringPut tr base size bs).1 := by
  unfold State.ringPut
  have k := htr s base
  split
  · next e => exact k.of_fst e
  · next q hd hk e =>
    have k2 := (k.of_fst e).trans ((q.keyRange_rises hd 24 hk).trans (State.devRead_rises _ hd 24))
    rcases hr : (q.keyRange hd 24 hk).devRead hd 24 with ⟨s1, bs1, p⟩
    rw [hr] at k2
    dsimp only at k2 ⊢
    split
    · exact k2.trans (State.devWrite_rises ..)
    · have k3 := htr s1 (base + 32 + 32 * (leNat (bs1.take 8) % size))
      split
      · next e => exact (k2.trans (k3.of_fst e)).trans (State.devWrite_rises ..)
      · next e =>
        exact (((k2.trans (k3.of_fst e)).trans (State.keyRange_rises ..)).trans (State.devWrite_rises ..)).trans (State.devWrite_rises ..)

theorem State.orLate_rises (s : State) (ring : Nat) (ws : List Nat) (put : State → State) (h : Rises s (put s)) :
    Rises s (s.orLate ring ws put) := by
  unfold State.orLate
  extract_lets late t
  split
  · exact .of_pk rfl
  · split
    · exact .of_pk rfl
    · exact h

theorem State.mgrRec_rises (s : State) (ws : List Nat) : Rises s (s.mgrRec ws) := by
  unfold State.mgrRec
  split
  · exact .of_pk rfl
  · refine State.orLate_rises _ _ _ _ ?_
    unfold State.mgrPut
    extract_lets r
    split
    · exact .refl s
    · exact State.ringPut_rises _ _ _ _ _ fun s _ => .refl s

theorem State.tenantRec_rises (s : State) (vf : Nat) (ws : List Nat) : Rises s (s.tenantRec vf ws) := by
  refine State.orLate_rises _ _ _ _ ?_
  unfold State.tenantPut
  extract_lets r part
  split
  · exact .refl s
  · have k := s.ringPut_rises (fun s a => s.ipaAddr part vf a 3) (bits r 12 36 * 4096) (qSize (bits r 0 4)) (recBytes ws)
      fun s a => s.ipaAddr_rises part vf a 3
    split
    · next e => exact k.of_fst e
    · next e => exact (k.of_fst e).trans (State.mgrRec_rises ..)

/-! ## Fetches, traps and parks -/

theorem State.fetchLine_go_rises (s : State) (c : Ctx) (va : Nat) : Rises s (State.fetchLine.go c va s).1 := by
  unfold State.fetchLine.go
  extract_lets tva
  split
  · exact .refl s
  · have hx := s.xlate_rises c.core c.part c.vf va 4
    split
    · next e => exact hx.of_fst e
    · next e => exact hx.of_fst e
    · next e => exact hx.of_fst e
    · next s1 _ e =>
      replace hx := hx.of_fst e
      extract_lets pa k
      split
      · exact hx
      · split
        next s2 _ _ e2 =>
        have hd : Rises s1 s2 := (s1.devRead_rises pa 128).of_fst e2
        extract_lets s3 bs
        have h3 : Rises s s3 := (hx.trans hd).trans (.of_pk (State.asKey_pk ..))
        split
        · exact h3.trans (.of_pk rfl)
        · exact h3

theorem State.fetchLine_rises (s : State) (c : Ctx) (va : Nat) : Rises s (s.fetchLine c va).1 := by
  unfold State.fetchLine
  split
  · split
    · exact .refl s
    · exact State.fetchLine_go_rises ..
  · exact State.fetchLine_go_rises ..

theorem State.stopLg_rises (s : State) (g : Nat) (k : Cause) : Rises s (s.stopLg g k) := by
  unfold State.stopLg
  split
  · exact .refl s
  · split
    · exact .refl s
    · next wg _ =>
      split
      · exact .refl s
      · extract_lets s1 s2
        exact (Rises.of_pk (s := s) (t := s2) rfl).trans (State.tenantRec_rises ..)

theorem State.s2Rec_rises (s : State) (part vf core wgs lgn ipa va : Nat) (table engine : Bool) :
    Rises s (s.s2Rec part vf core wgs lgn ipa va table engine) := State.mgrRec_rises ..

theorem State.parkFirstTouch_rises (s : State) (c : Ctx) (x : Trap) (kind : Nat) : Rises s (s.parkFirstTouch c x kind) := .of_pk rfl

theorem State.parkSecondStage_rises (s : State) (c : Ctx) (x : Trap) : Rises s (s.parkSecondStage c x) := by
  unfold State.parkSecondStage
  extract_lets s1 s2
  exact (State.s2Rec_rises ..).trans (.of_pk (s := s1) rfl)

/-- The machine with the record of a trap, the lane group at the faulting packet. -/
def State.recorded (s : State) (c : Ctx) (x : Trap) : State := (s.trapped x).modLg c.g fun l => { l.record x with pc := x.fpc }

theorem State.takeTrap_rises (s : State) (c : Ctx) (x : Trap) (kind : Nat) : Rises s (s.takeTrap c x kind) := by
  have h0 : Rises s (s.trapped x) := .of_stall rfl
  unfold State.takeTrap
  split
  · exact h0.trans (State.parkSecondStage_rises ..)
  · split
    · exact h0.trans (.of_pk ((State.discardNode_pk ..).trans rfl))
    · split
      · split
        · exact h0.trans (State.parkFirstTouch_rises ..)
        · exact (Rises.of_stall (s := s) (t := s.recorded c x) rfl).trans (State.stopLg_rises ..)
      · exact h0.trans (.of_pk rfl)

theorem State.parkFetch_rises (s : State) (c : Ctx) (va : Nat) (r : FetchRes) (at_ : Lg → Lg) : Rises s (s.parkFetch c va r at_) := by
  unfold State.parkFetch
  split
  · exact .of_pk rfl
  · extract_lets stay s1
    exact (State.s2Rec_rises ..).trans (.of_pk (s := s1) rfl)
  · exact .refl s

/-- The machine with the lane group as it stood before its packet, which is held back. -/
def State.takenBack (s : State) (c : Ctx) : State := ({ s with pk := { s.pk with fate := .heldBack } } : State).modLg c.g fun _ => c.sn

theorem State.parkAtPacket_rises (s : State) (c : Ctx) (va : Nat) (r : FetchRes) : Rises s (s.parkAtPacket c va r) :=
  (Rises.of_stall (s := s) (t := s.takenBack c) rfl).trans (State.parkFetch_rises ..)

end Sys2Proof.Machine
end

section
/-! PROOF. Branches (R325, R326, R332, R264): one rule for where a landing goes, one for how it misses. -/

set_option Elab.async false

namespace Sys2Proof.Machine

/-! ## What a fetch leaves of the packet -/

/-- The packet in execution stands, but for its stall. -/
def SamePacket (s t : State) : Prop := ({ t.pk with stall := false } : PacketCtx) = { s.pk with stall := false }

theorem SamePacket.of_below {s t : State} (h : Below s t) : SamePacket s t := h.pk

theorem SamePacket.trans {s t u : State} (h : SamePacket s t) (k : SamePacket t u) : SamePacket s u := Eq.trans k h

theorem SamePacket.idx {s t : State} (h : SamePacket s t) : t.pk.idx = s.pk.idx :=
  congrArg (·.idx) (show ({ t.pk with stall := false } : PacketCtx) = { s.pk with stall := false } from h)

theorem SamePacket.succ {s t : State} (h : SamePacket s t) : t.pk.succ = s.pk.succ :=
  congrArg (·.succ) (show ({ t.pk with stall := false } : PacketCtx) = { s.pk with stall := false } from h)

theorem SamePacket.offset {s t : State} (h : SamePacket s t) (o : BitVec 20) : t.offset o = s.offset o :=
  congrArg (· + o.signExtend 64) h.idx

theorem State.fetchLine_go_samePacket (s : State) (c : Ctx) (va : Nat) : SamePacket s (State.fetchLine.go c va s).1 := by
  unfold State.fetchLine.go
  extract_lets tva
  split
  · exact rfl
  · have hx := State.xlate_under s c.core c.part c.vf va 4
    split
    · next e => exact .of_below (hx.of_fst e).1
    · next e => exact .of_below (hx.of_fst e).1
    · next e => exact .of_below (hx.of_fst e).1
    · next s1 _ e =>
      replace hx := hx.of_fst e
      extract_lets pa k
      split
      · exact .of_below hx.1
      · split
        next s2 _ _ e2 =>
        have hd : Under s1 s2 := (State.devRead_under s1 pa 128).of_fst e2
        extract_lets s3 bs
        have h3 : Below s s3 := (hx.trans (hd.trans (State.asKey_under ..))).1
        split
        · exact SamePacket.of_below (t := s3) h3
        · exact .of_below h3

theorem State.fetchLine_samePacket (s : State) (c : Ctx) (va : Nat) : SamePacket s (s.fetchLine c va).1 := by
  unfold State.fetchLine
  split
  · split
    · exact rfl
    · exact State.fetchLine_go_samePacket ..
  · exact State.fetchLine_go_samePacket ..

theorem fetched_samePacket (c : Ctx) (i : DWord) (s : State) : SamePacket s (Fetched c i s).1 := State.fetchLine_samePacket ..

/-! ## Landings -/

section
variable {s : State} {c : Ctx} {i : DWord} {r : List DWord} {k : State → State}

/-- What becomes of a landing whose line is fetched as `f` says. -/
def Landed (c : Ctx) (i : DWord) (r : List DWord) (k : State → State) : State × FetchRes → State
  | (s, .line l) => if mayLand l i then s.landing c r k else s.raise c .target
  | (s, .raise x tva) => s.raiseR c x c.em tva
  | (s, .bad _) => s.raise c .illegal
  | (s, f) => s.parkAtPacket c (lineVa i) f

theorem State.landing_cons : s.landing c (i :: r) k = Landed c i r k (Fetched c i s) := by
  unfold State.landing Fetched
  obtain ⟨t, _ | _ | _ | _ | _⟩ := s.fetchLine c (lineVa i) <;> rfl

/-- A landing that may be made goes on to the next. -/
theorem State.landing_lands (h : Lands c i s) : s.landing c (i :: r) k = (Fetched c i s).1.landing c r k := by
  obtain ⟨-, l, hl, hm⟩ := h
  rw [State.landing_cons]
  rcases hf : Fetched c i s with ⟨t, f⟩
  rw [hf] at hl
  subst hl
  exact if_pos hm

section
variable {f : State × FetchRes}

theorem Landed_line {l : FetchLine} (h : f.2 = .line l) :
    Landed c i r k f = if mayLand l i then f.1.landing c r k else f.1.raise c .target := by
  obtain ⟨t, x⟩ := f
  cases (h : x = _)
  rfl

theorem Landed_raise {x : Cause} {v : DWord} (h : f.2 = .raise x v) : Landed c i r k f = f.1.raiseR c x c.em v := by
  obtain ⟨t, x⟩ := f
  cases (h : x = _)
  rfl

theorem Landed_bad {l : FetchLine} (h : f.2 = .bad l) : Landed c i r k f = f.1.raise c .illegal := by
  obtain ⟨t, x⟩ := f
  cases (h : x = _)
  rfl

theorem Landed_park (h : (∃ p, f.2 = .park p) ∨ ∃ a b, f.2 = .s2 a b) : Landed c i r k f = f.1.parkAtPacket c (lineVa i) f.2 := by
  obtain ⟨t, x⟩ := f
  obtain ⟨p, h⟩ | ⟨a, b, h⟩ := h <;> cases (h : x = _) <;> rfl

theorem Landed_rises (hk : ∀ t, Rises t (t.landing c r k)) (f : State × FetchRes) : Rises f.1 (Landed c i r k f) := by
  have trap : ∀ x v, Rises f.1 (f.1.raiseR c x c.em v) := fun x v => State.takeTrap_rises _ _ _ _
  cases h : f.2 with
  | line l =>
    rw [Landed_line h]
    split
    · exact hk f.1
    · exact trap .target 0
  | raise x v => rw [Landed_raise h]; exact trap x v
  | bad l => rw [Landed_bad h]; exact trap .illegal 0
  | park p => rw [Landed_park (.inl ⟨p, h⟩)]; exact State.parkAtPacket_rises ..
  | s2 a b => rw [Landed_park (.inr ⟨a, b, h⟩)]; exact State.parkAtPacket_rises ..

end

theorem State.landing_rises (hk : ∀ t, Rises t (k t)) : ∀ (l : List DWord) (s : State), Rises s (s.landing c l k)
  | [], s => hk s
  | i :: r, s => by
    rw [State.landing_cons]
    exact (s.fetchLine_rises c (lineVa i)).trans (Landed_rises (State.landing_rises hk r) (Fetched c i s))

/-- A park of a landing meets no line of an engine. -/
theorem State.parkAtPacket_stall {va : Nat} {f : FetchRes} (h : (s.parkAtPacket c va f).pk.stall = true) : s.pk.stall = true := by
  unfold State.parkAtPacket State.parkFetch at h
  split at h
  · exact h
  · exact State.mgrRec_stall (s := s.takenBack c) h
  · exact h

end

/-! ## Branch words -/

section
variable {w : Instr} {s : State} {c : Ctx} {f : Ctx → State → State}

/-- A word that meets a line of an engine is held back to its packet. -/
theorem memWord_held (h : s.ctx? = some c) (hw : wellFormed w = true) (hs : s.pk.stall = false) (ht : (f c s).pk.stall = true) :
    memWord w s f = .next (s.holdBack c) := by
  refine (word_next _ h hw).trans (congrArg Host.Outcome.next ?_)
  simp [hs, ht]

/-- A word that goes on to a landing misses it as its rule says. -/
theorem Misses.of_landing {ok : Ctx → State → Prop} {u : Ctx → State → State} {i : Ctx → State → DWord} {r : Ctx → State → List DWord}
    {k : Ctx → State → State → State} (hx : ∀ s, exec w s = memWord w s f)
    (hf : ∀ s c, ok c s → f c s = (u c s).landing c (i c s :: r c s) (k c s)) (hk : ∀ c s t, Rises t (k c s t)) : Misses w ok u i := by
  have run : ∀ {s c t}, s.ctx? = some c → wellFormed w = true → ok c s →
      Landed c (i c s) (r c s) (k c s) (Fetched c (i c s) (u c s)) = t → (t.pk.stall = true → s.pk.stall = true) →
      exec w s = .next t := by
    intro s c t h hw ho ht hs
    have e : f c s = t := (hf s c ho).trans (State.landing_cons.trans ht)
    exact (hx s).trans ((memWord_next f h hw (e ▸ hs)).trans (congrArg _ e))
  refine ⟨?_, fun x v => ?_, fun l => ?_, ?_, ?_⟩
  · rintro s c h hw ⟨⟨ho, hu⟩, l, hl, hm⟩
    exact ⟨_, run h hw ho ((Landed_line hl).trans (if_neg (by simp [hm]))) fun ht => hu ▸ State.takeTrap_stall ht, rfl⟩
  · rintro s c h hw ⟨⟨ho, hu⟩, hr⟩
    exact ⟨_, run h hw ho (Landed_raise hr) fun ht => hu ▸ State.takeTrap_stall ht, rfl⟩
  · rintro s c h hw ⟨⟨ho, hu⟩, hr⟩
    exact ⟨_, run h hw ho (Landed_bad hr) fun ht => hu ▸ State.takeTrap_stall ht, rfl⟩
  · rintro s c h hw ⟨⟨ho, hu⟩, hr⟩
    exact ⟨_, run h hw ho (Landed_park hr) fun ht => hu ▸ State.parkAtPacket_stall ht, rfl⟩
  · rintro s c h hw ⟨ho, hs, hu⟩
    refine ⟨_, (hx s).trans (memWord_held h hw hs ?_), rfl⟩
    rw [hf s c ho, State.landing_cons]
    exact (Landed_rises (State.landing_rises (hk c s) _) _).stays hu

/-- A word that lands once moves its lane group in the machine that has fetched the line. -/
theorem runs_lands {ok : Ctx → State → Prop} {i : Ctx → State → DWord} {k : Ctx → State → State → State} {g : Ctx → State → Lg → Lg}
    (hx : ∀ s, exec w s = memWord w s f) (hf : ∀ s c, ok c s → f c s = s.landing c [i c s] (k c s))
    (hk : ∀ c s t, SamePacket s t → k c s t = t.modLg c.g (g c s)) :
    Runs w (fun c s => ok c s ∧ Lands c (i c s) s) (fun c s t => t = (Fetched c (i c s) s).1.modLg c.g (g c s)) := by
  rintro s c h hw ⟨ho, hl⟩
  refine ⟨_, (hx s).trans (memWord_of (t := (Fetched c (i c s) s).1.modLg c.g (g c s)) h hw ?_ hl.1), rfl⟩
  rw [hf s c ho, State.landing_lands hl]
  exact hk c s _ (fetched_samePacket c (i c s) s)

end

/-- What a branch on divergence does once both its packets may be landed on. -/
def State.diverge (s : State) (c : Ctx) (t : Word) (i : DWord) : State :=
  if t = 0 then s
  else if c.em &&& ~~~t = 0 then s.jump c i
  else s.checked c (c.illegalIf (8 ≤ c.lg.path.length)) fun s => s.up c fun l => { l with path := l.path ++ [(t, i)], em := c.em &&& ~~~t }

theorem State.checked_rises (s : State) {c : Ctx} (fs : List Finding) {k : State → State} (hk : ∀ s, Rises s (k s)) :
    Rises s (s.checked c fs k) := by
  unfold State.checked
  split
  · exact hk s
  · exact State.takeTrap_rises ..

theorem State.diverge_rises (s : State) (c : Ctx) (t : Word) (i : DWord) : Rises s (s.diverge c t i) := by
  unfold State.diverge
  split_ifs
  · exact .refl s
  · exact .of_pk rfl
  · exact State.checked_rises _ _ fun s => .of_pk rfl

/-! ## Each branch -/

theorem exec_bra (o : BitVec 20) (s : State) : exec (.bra o) s =
    memWord (.bra o) s fun c s => s.landing c [s.offset o] fun t => t.jump c (t.offset o) := rfl

theorem exec_call (o : BitVec 20) (s : State) : exec (.call o) s =
    memWord (.call o) s fun c s => s.landing c [s.offset o] fun t => t.modLg c.g fun l => { l with lk := t.pk.succ, pc := t.offset o } := rfl

theorem exec_braK (n : BitVec 4) (o : BitVec 20) (s : State) : exec (.braK n o) s = memWord (.braK n o) s fun c s =>
    if c.kr n.toNat = 0 then s else s.landing c [s.offset o] fun t => t.jump c (t.offset o) := rfl

theorem exec_kbr (a : BitVec 8) (s : State) : exec (.kbr a) s =
    memWord (.kbr a) s fun c s => s.landing c [c.uni a] fun t => t.jump c (c.uni a) := rfl

/-- The lanes of a branch on divergence that take it. -/
def Ctx.takers (c : Ctx) (v : BitVec 1) (q : BitVec 3) : Word := (if v = 0 then c.q q.toNat else ~~~(c.q q.toNat)) &&& c.em

theorem exec_brd (v : BitVec 1) (q : BitVec 3) (o : BitVec 20) (s : State) : exec (.brd v q o) s =
    memWord (.brd v q o) s fun c s => s.landing c [s.offset o, s.pk.succ] fun t => t.diverge c (c.takers v q) (t.offset o) := rfl

theorem State.jump_offset {o : BitVec 20} {s t : State} (c : Ctx) (h : SamePacket s t) :
    t.jump c (t.offset o) = t.modLg c.g fun l => { l with pc := s.offset o } := by
  rw [h.offset]
  rfl

theorem State.jump_rises (c : Ctx) (t : State) (i : DWord) : Rises t (t.jump c i) := .of_pk rfl

/-- Settles O21. -/
theorem branchWords : Obligations.BranchWords := by
  unfold Obligations.BranchWords
  intro at_ jump any self
  refine ⟨fun o => ⟨?bra, ?braMiss, ?call, ?callMiss⟩, fun n o => ⟨?stay, ?braK, ?braKMiss⟩, fun a => ⟨?kbr, ?kbrMiss⟩, fun v q o => ?brd⟩
  case bra =>
    exact fun s c h hw hl => runs_lands (ok := any) (exec_bra o) (fun _ _ _ => rfl) (fun c _ _ e => State.jump_offset c e)
      s c h hw ⟨trivial, hl⟩
  case braMiss => exact .of_landing (exec_bra o) (fun _ _ _ => rfl) fun c _ t => t.jump_rises c _
  case call =>
    refine fun s c h hw hl => runs_lands (ok := any) (g := fun _ s l => { l with pc := s.offset o, lk := s.pk.succ })
      (exec_call o) (fun _ _ _ => rfl) (fun c s t e => ?_) s c h hw ⟨trivial, hl⟩
    rw [e.succ, e.offset]
  case callMiss => exact .of_landing (exec_call o) (fun _ _ _ => rfl) fun c _ t => .of_pk (t := t.modLg c.g _) rfl
  case stay =>
    intro s c h hw hk
    exact ⟨s, (exec_braK n o s).trans (memWord_of h hw (if_pos hk) rfl), rfl⟩
  case braK => exact runs_lands (exec_braK n o) (fun s c hk => if_neg hk) (fun c _ _ e => State.jump_offset c e)
  case braKMiss => exact .of_landing (exec_braK n o) (fun s c hk => if_neg hk) fun c _ t => t.jump_rises c _
  case kbr =>
    exact fun s c h hw hl => runs_lands (ok := any) (exec_kbr a) (fun _ _ _ => rfl) (fun _ _ _ _ => rfl) s c h hw ⟨trivial, hl⟩
  case kbrMiss => exact .of_landing (exec_kbr a) (fun _ _ _ => rfl) fun c _ t => t.jump_rises c _
  case brd =>
    intro first both u t rest
    have two : ∀ {s c}, both c s → s.landing c [s.offset o, s.pk.succ] (fun x => x.diverge c (t c) (x.offset o)) =
        (u c s).diverge c (t c) (s.offset o) := by
      intro s c ⟨h1, h2⟩
      refine (State.landing_lands h1).trans ((State.landing_lands h2).trans ?_)
      exact congrArg ((u c s).diverge c (t c)) (((fetched_samePacket ..).trans (fetched_samePacket ..)).offset o)
    have goes : ∀ {s c x}, s.ctx? = some c → wellFormed (.brd v q o) = true → both c s → (u c s).diverge c (t c) (s.offset o) = x →
        (x.pk.stall = true → (u c s).pk.stall = true) → exec (.brd v q o) s = .next x := by
      intro s c x h hw hb he hx
      have e := (two hb).trans he
      refine (exec_brd v q o s).trans ((memWord_next _ h hw fun ht => ?_).trans (congrArg _ e))
      exact (hb.2.1.trans hb.1.1) ▸ hx (e ▸ ht)
    refine ⟨?none, ?all, ?some, ?ninth, ?miss, ?missSucc⟩
    case none => exact fun s c h hw ⟨hb, ht⟩ => ⟨_, goes h hw hb (if_pos ht) id, rfl⟩
    case all =>
      exact fun s c h hw ⟨hb, ht, hr⟩ => ⟨_, goes h hw hb ((if_neg ht).trans (if_pos hr)) id, rfl⟩
    case some =>
      intro s c h hw ⟨hb, ht, hr, hn⟩
      refine ⟨_, goes h hw hb ((if_neg ht).trans ((if_neg hr).trans (State.checked_legal (by simpa using hn) _))) id, rfl⟩
    case ninth =>
      intro s c h hw ⟨hb, ht, hr, hn⟩
      have hi := State.checked_illegalIf (s := u c s) (c := c) (b := decide (8 ≤ c.lg.path.length)) (by simpa using hn)
      exact ⟨_, goes h hw hb ((if_neg ht).trans ((if_neg hr).trans (hi _))) State.takeTrap_stall, rfl⟩
    case miss =>
      exact .of_landing (r := fun _ s => [s.pk.succ]) (exec_brd v q o) (fun _ _ _ => rfl) fun c s x => State.diverge_rises ..
    case missSucc =>
      exact .of_landing (exec_brd v q o) (fun s c hl => State.landing_lands hl) fun c s x => State.diverge_rises ..

end Sys2Proof.Machine
end

section
/-! PROOF. Rejoin registers, path ends and the active mask (R326 to R329): the end of a lane group ends it, whatever the end of its
workgroup releases. -/

set_option Elab.async false

namespace Sys2Proof.Machine

/-! ## Lane groups stand while commands end and a workgroup releases what it holds -/

/-- The workgroup, status and active mask of a lane group. -/
def Lg.standing (l : Lg) : Nat × Status × Word := (l.wg, l.status, l.em)

/-- Every lane group stands: it goes on in its workgroup, status and active mask. -/
def Stands (s t : State) : Prop := ∀ h, (t.lgs.find h).map Lg.standing = (s.lgs.find h).map Lg.standing

theorem Stands.refl (s : State) : Stands s s := fun _ => rfl

theorem Stands.trans {s t u : State} (h : Stands s t) (k : Stands t u) : Stands s u := fun g => (k g).trans (h g)

theorem Stands.of_lgs {s t : State} (h : t.lgs = s.lgs) : Stands s t := fun g => congrArg (fun x => (Tab.find x g).map Lg.standing) h

theorem Stands.foldl {β : Type} {f : State → β → State} (hf : ∀ s x, Stands s (f s x)) : ∀ (l : List β) (s : State), Stands s (l.foldl f s)
  | [], s => .refl s
  | x :: r, s => (hf s x).trans (Stands.foldl hf r (f s x))

theorem State.modLg_stands (s : State) (g : Nat) {f : Lg → Lg} (hf : ∀ l, (f l).standing = l.standing) : Stands s (s.modLg g f) := by
  intro h
  rw [State.find_modLg]
  split
  · next e =>
    subst e
    rw [Option.map_map]
    exact congrArg (fun f => (s.lgs.find h).map f) (funext hf)
  · rfl

theorem State.taskDone_stands (s : State) (part g : Nat) : Stands s (s.taskDone part g) := by
  unfold State.taskDone
  split
  · exact .refl s
  · exact (s.modLg_stands g (f := fun l => { l with task := none }) fun _ => rfl).trans (.of_lgs rfl)

theorem State.flushRefusals_stands (s : State) (vf g : Nat) : Stands s (s.flushRefusals vf g) :=
  (Stands.foldl (fun s (r : Nat × List Nat) => .of_lgs (State.tenantRec_lgs s vf r.2)) _ s).trans
    (State.modLg_stands _ g (f := fun l => { l with refusals := [] }) fun _ => rfl)

theorem State.reportUnread_stands (s : State) (g : Nat) : Stands s (s.reportUnread g) := by
  unfold State.reportUnread
  split
  · exact .refl s
  · split
    · exact .refl s
    · next wg _ =>
      split
      · exact .refl s
      · refine Stands.trans (Stands.foldl (fun s f => .of_lgs ?_) _ _) ((State.flushRefusals_stands _ _ _).trans
          (State.modLg_stands _ g (f := fun l => { l with fails := [] }) fun _ => rfl))
        exact (State.tenantRec_lgs ..).trans (State.faultLaunch_lgs s wg.launch f.cause)

theorem State.closeFence_stands (s : State) (g : Nat) : Stands s (s.closeFence g) := by
  have hf : Stands s (s.modLg g fun l => { l with fence := none }) := s.modLg_stands g fun _ => rfl
  unfold State.closeFence
  split
  · exact .refl s
  · split
    · exact .refl s
    · split
      · exact .refl s
      · dsimp only
        split
        · exact hf
        · exact hf.trans (.of_lgs rfl)

theorem State.withdrawSubs_lgs (s : State) (w : Nat) : (s.withdrawSubs w).lgs = s.lgs := rfl

theorem State.reap_lgs (s : State) (core : Nat) : (s.reap core).lgs = s.lgs := by
  unfold State.reap
  extract_lets ended gone left s1 s2
  have h1 : s1.lgs = s.lgs := by
    unfold s1
    split
    · split <;> rfl
    · rfl
  exact (foldl_keeps State.lgs _ (fun s (p : Nat × Arr) => s.withdrawSubs_lgs p.1) _ s1).trans h1

theorem State.endCmd_stands (s : State) (id : Nat) (cause : Cause) (va : DWord) : Stands s (s.endCmd id cause va) := by
  unfold State.endCmd
  split
  · exact .refl s
  · split
    · exact .refl s
    · next x _ _ =>
      extract_lets s1 s2 s3 s4 s5 s6 s7 ended
      have h3 : s3.lgs = s.lgs := by
        unfold s3
        split <;> rfl
      have h4 : s4.lgs = s3.lgs := (congrArg State.lgs (State.mxHead_frame ..) :)
      have h5 : Stands s4 s5 := by
        unfold s5
        split
        · exact .refl s4
        · exact s4.modLg_stands x.lg fun _ => rfl
      have h6 : Stands s5 s6 := by
        unfold s6
        split
        · exact .refl s5
        · exact s5.modLg_stands x.lg fun _ => rfl
      have h7 : Stands s s7 := (Stands.of_lgs (h4.trans h3)).trans (h5.trans (h6.trans (.of_lgs rfl)))
      refine h7.trans (Stands.trans ?_ ((Stands.of_lgs (State.reap_lgs _ _)).trans (State.closeFence_stands _ _)))
      split
      · exact State.reportUnread_stands _ _
      · exact .refl s7

theorem State.withdraw_stands (s : State) (w : Nat) : Stands s (s.withdraw w) := by
  refine Stands.foldl (fun s p => ?_) _ _
  split
  · exact .refl s
  · split
    · exact State.endCmd_stands _ _ _ _
    · split
      · exact .refl s
      · exact State.endCmd_stands _ _ _ _
    · exact .refl s

theorem State.dropCopies_lgs (a : Nat) (lines : List Nat) (s : State) : (lines.foldl (fun s ln => s.dropCopy a ln) s).lgs = s.lgs :=
  foldl_keeps State.lgs _ (fun s ln => (State.dropCopy_under s a ln).1.lgs) lines s

theorem State.unmap_lgs (s : State) (w e : Nat) : (s.unmap w e).lgs = s.lgs := by
  unfold State.unmap
  split
  · rfl
  · exact State.dropCopies_lgs (192 + w) _ s

theorem State.leaveStash_lgs (s : State) (w : Nat) : (s.leaveStash w).lgs = s.lgs := by
  unfold State.leaveStash
  split
  · rfl
  · exact (State.dropCopies_lgs (192 + w) _ _).trans (foldl_keeps State.lgs _ (fun s e => s.unmap_lgs w e) _ s)

theorem State.endWg_stands (s : State) (w : Nat) : Stands s (s.endWg w) := by
  unfold State.endWg
  split
  · exact .refl s
  · extract_lets staged s1 s2 s3
    have h1 : s1.lgs = s.lgs := by
      unfold s1
      split
      · exact s.commitStaged_lgs w
      · rfl
    have h3 : s3.lgs = s.lgs := (s1.leaveStash_lgs w).trans h1
    exact (Stands.of_lgs h3).trans ((s3.withdraw_stands w).trans (.of_lgs (State.reap_lgs ..)))

theorem State.raiseSteps_lgs (s : State) (w : Wg) (t : Nat) : (s.raiseSteps w t).lgs = s.lgs := by
  unfold State.raiseSteps
  dsimp only
  split
  · next m _ =>
    show (((s.msgs.find m).map fun x => (s.raiseStep w.launch t).raiseStep x.launch t).getD (s.raiseStep w.launch t)).lgs = s.lgs
    cases s.msgs.find m <;> rfl
  · rfl

/-! ## The end of a lane group -/

/-- A lane group that is ended, its last records written. -/
def State.ending (s : State) (g : Nat) (l : Lg) : State :=
  ((s.taskDone ((((s.wgs.find l.wg).bind fun w => s.launches.find w.launch).map (·.part)).getD 15) g).reportUnread g).modLg g fun l =>
    { l with status := .ended, em := 0, staged := [], stagedAt := 0, run := none, replay := none }

theorem State.find_ending {s : State} {g : Nat} {l : Lg} (hl : s.lgs.find g = some l) :
    ((s.ending g l).lgs.find g).map Lg.standing = some (l.wg, .ended, 0) := by
  have h := ((s.taskDone_stands ((((s.wgs.find l.wg).bind fun w => s.launches.find w.launch).map (·.part)).getD 15) g).trans
    (State.reportUnread_stands _ g)) g
  rw [hl] at h
  obtain ⟨l', hl', e⟩ := Option.map_eq_some_iff.mp h
  refine (congrArg (Option.map Lg.standing) (State.find_modLg_self _ hl')).trans ?_
  exact congrArg (fun x : Nat × Status × Word => some (x.1, Status.ended, (0 : Word))) e

/-- A lane group that has ended stays so whatever its workgroup's end releases (R29, R328). -/
theorem State.find_endLg {s : State} {g : Nat} {l : Lg} (hl : s.lgs.find g = some l) :
    ∃ l', (s.endLg g).lgs.find g = some l' ∧ l'.status = .ended ∧ l'.em = 0 := by
  have key : ((s.endLg g).lgs.find g).map Lg.standing = some (l.wg, .ended, 0) := by
    have he : s.endLg g = (fun t : State => match t.wgs.find l.wg with
        | some w => t.raiseSteps w (t.core w.core).pts
        | none => t) (if (s.ending g l).wgOver l.wg then (s.ending g l).endWg l.wg else s.ending g l) := by
      unfold State.endLg
      rw [hl]
      rfl
    rw [he]
    have hw : Stands (s.ending g l) (if (s.ending g l).wgOver l.wg then (s.ending g l).endWg l.wg else s.ending g l) := by
      split
      · exact State.endWg_stands _ _
      · exact .refl _
    dsimp only
    split
    · rw [State.raiseSteps_lgs]
      exact (hw g).trans (State.find_ending hl)
    · exact (hw g).trans (State.find_ending hl)
  obtain ⟨l', hl', e⟩ := Option.map_eq_some_iff.mp key
  exact ⟨l', hl', congrArg (fun x => x.2.1) e, congrArg (fun x => x.2.2) e⟩

/-! ## Words that may end their lane group -/

/-- Whether a lane group has ended. -/
def State.hasEnded (s : State) (g : Nat) : Bool := ((s.lgs.find g).map fun l => l.status == .ended).getD false

theorem State.hasEnded_of {s : State} {g : Nat} {l : Lg} (hl : s.lgs.find g = some l) : s.hasEnded g = (l.status == .ended) := by
  unfold State.hasEnded
  rw [hl]
  rfl

theorem State.hasEnded_modLg {s : State} {g : Nat} {l : Lg} {f : Lg → Lg} (hl : s.lgs.find g = some l) (hf : ∀ l, (f l).status = l.status) :
    (s.modLg g f).hasEnded g = (l.status == .ended) := by
  rw [State.hasEnded_of (State.find_modLg_self f hl), hf]

section
variable {i : Instr} {s : State} {c : Ctx} {f : Ctx → State → State}

/-- Where the end would have to wait for an engine, the lane group has not ended. -/
abbrev EndStays (c : Ctx) (s : State) : Prop := s.endWaits c = true → c.lg.status ≠ .ended

theorem endWord_next (h : s.ctx? = some c) (hw : wellFormed i = true) (hs : s.endWaits c = true → (f c s).hasEnded c.g = false) :
    endWord i s f = .next (f c s) := by
  refine (word_next _ h hw).trans (congrArg Host.Outcome.next ?_)
  show (if (s.endWaits c && (f c s).hasEnded c.g) = true then s.holdBack c else f c s) = f c s
  cases he : s.endWaits c with
  | false => rfl
  | true => rw [hs he]; rfl

/-- The lane group goes on as it stands but with the status it had. -/
theorem endWord_goes {l : Lg} (h : s.ctx? = some c) (hw : wellFormed i = true) (hs : EndStays c s) (hl : (f c s).lgs.find c.g = some l)
    (he : l.status = .ended → c.lg.status = .ended) : endWord i s f = .next (f c s) := by
  refine endWord_next h hw fun hwait => (State.hasEnded_of hl).trans ?_
  exact beq_eq_false_iff_ne.mpr fun e => hs hwait (he e)

theorem endWord_held (h : s.ctx? = some c) (hw : wellFormed i = true) (hs : s.endWaits c = true) (he : (f c s).hasEnded c.g = true) :
    endWord i s f = .next (s.holdBack c) := by
  refine (word_next _ h hw).trans (congrArg Host.Outcome.next (if_pos ?_))
  show (s.endWaits c && (f c s).hasEnded c.g) = true
  rw [hs, he]
  rfl

end

/-! ## Path ends -/

theorem Lg.nextPath_status {l l' : Lg} (h : l.nextPath = some l') : l'.status = l.status := by
  unfold Lg.nextPath at h
  split at h
  · cases h; rfl
  · split at h
    · cases h; rfl
    · split at h
      · cases h; rfl
      · cases h

section
variable {i : Instr} {s t : State} {c : Ctx} {l l2 : Lg}

theorem State.endPath_next (hl : s.lgs.find c.g = some l) (hn : l.nextPath = some l2) : s.endPath c = s.setLg c.g l2 := by
  unfold State.endPath
  simp only [hl, hn]

theorem State.endPath_ends (hl : s.lgs.find c.g = some l) (hn : l.nextPath = none) : s.endPath c = s.endLg c.g := by
  unfold State.endPath
  simp only [hl, hn]

/-- A word that changes its lane group, of the same status. -/
theorem endWord_up {f : Ctx → State → State} {f' : Lg → Lg} (h : s.ctx? = some c) (hw : wellFormed i = true)
    (hx : exec i s = endWord i s f) (hs : EndStays c s) (hf : f c s = s.up c f') (hst : (f' c.lg).status = c.lg.status) :
    exec i s = .next (s.setLg c.g (f' c.lg)) := by
  have hl : (f c s).lgs.find c.g = some (f' c.lg) := by rw [hf]; exact State.find_up h rfl f'
  exact hx.trans ((endWord_goes h hw hs hl fun e => hst.symm.trans e).trans (congrArg _ (hf.trans (State.up_eq h f'))))

/-- A word that ends the path of its lane group as it stands in the machine `u`: the next path, the end, or the wait for an engine. -/
theorem endWord_endPath {f : Ctx → State → State} {u : State} (h : s.ctx? = some c) (hw : wellFormed i = true)
    (hx : exec i s = endWord i s f) (hf : f c s = u.endPath c) (hl : u.lgs.find c.g = some l) (hst : l.status = c.lg.status) :
    (∀ l2, l.nextPath = some l2 → EndStays c s → exec i s = .next (u.setLg c.g l2)) ∧
    (l.nextPath = none → s.endWaits c = false → exec i s = .next (u.endLg c.g)) ∧
    (l.nextPath = none → s.endWaits c = true → exec i s = .next (s.holdBack c)) := by
  rw [hx]
  refine ⟨fun l2 hn hs => ?_, fun hn hs => ?_, fun hn hs => ?_⟩
  · have e : f c s = u.setLg c.g l2 := hf.trans (State.endPath_next hl hn)
    have hl2 : (u.setLg c.g l2).lgs.find c.g = some l2 := Tab.find_put_self ..
    refine (endWord_goes h hw hs (e ▸ hl2) fun he => ?_).trans (congrArg _ e)
    rwa [Lg.nextPath_status hn, hst] at he
  · have e : f c s = u.endLg c.g := hf.trans (State.endPath_ends hl hn)
    exact (endWord_next h hw fun hs' => by simp [hs] at hs').trans (congrArg _ e)
  · have e : f c s = u.endLg c.g := hf.trans (State.endPath_ends hl hn)
    obtain ⟨l', hl', he, -⟩ := State.find_endLg hl
    exact endWord_held h hw hs (e ▸ (State.hasEnded_of hl').trans (by rw [he]; rfl))

/-- A word that changes its lane group, then ends its path. -/
theorem endWord_upEndPath {f : Ctx → State → State} (f' : Lg → Lg) (h : s.ctx? = some c) (hw : wellFormed i = true)
    (hx : exec i s = endWord i s f) (hf : f c s = (s.up c f').endPath c) (hst : (f' c.lg).status = c.lg.status) :
    (∀ l2, (f' c.lg).nextPath = some l2 → EndStays c s →
      ∃ t, exec i s = .next t ∧ t.lgs.find c.g = some l2 ∧ t = { s with lgs := t.lgs }) ∧
    ((f' c.lg).nextPath = none → s.endWaits c = false → exec i s = .next ((s.setLg c.g (f' c.lg)).endLg c.g)) ∧
    ((f' c.lg).nextPath = none → s.endWaits c = true → exec i s = .next (s.holdBack c)) := by
  obtain ⟨hnext, hends, hwaits⟩ := endWord_endPath h hw hx hf (State.find_up h rfl f') hst
  rw [State.up_eq h] at hnext hends
  exact ⟨fun l2 hn hs => ⟨_, hnext l2 hn hs, Tab.find_put_self .., rfl⟩, hends, hwaits⟩

end

/-! ## The words -/

/-- Raising a cause that parks nothing ends no lane group. -/
theorem State.takeTrap_hasEnded {s : State} {c : Ctx} {x : Trap} (h : s.ctx? = some c) (hx : x.plain c.la) (hft : x.cause ≠ .xlatFt)
    (he : (s.takeTrap c x).hasEnded c.g = true) : c.lg.status = .ended := by
  obtain ⟨hg, hl, hwg, hla⟩ := State.ctx?_spec h
  rw [← hg] at hl
  have hr : (s.recorded c x).lgs.find c.g = some { c.lg.record x with pc := x.fpc } := State.find_modLg_self (s := s.trapped x) _ hl
  by_cases hh : c.la.svh = 0 ∨ c.lg.sup = true
  · have hstop := (State.stopLg_eff (s := s.recorded c x) x.cause hr hwg hla).1
    rw [State.takeTrap_stops 0 hx hft hh] at he
    exact Bool.noConfusion ((State.hasEnded_of hstop).symm.trans he)
  · obtain ⟨hsvh, hsup⟩ := not_or.mp hh
    rw [State.takeTrap_enters 0 hx hsvh (by simpa using hsup), State.hasEnded_modLg (s := s.trapped x) hl] at he
    · exact eq_of_beq he
    · exact fun _ => rfl

theorem Raises.hasEnded {s t : State} {c : Ctx} {rank : Nat} {fm : Ctx → Word} (h : s.ctx? = some c) (ht : Raises .illegal rank fm c s t)
    (he : t.hasEnded c.g = true) : c.lg.status = .ended := by
  rw [ht] at he
  exact State.takeTrap_hasEnded h ⟨Cause.noConfusion, fun e => e.2.elim Cause.noConfusion Cause.noConfusion⟩ Cause.noConfusion he

/-- The rejoin register that `jinit` sets (R327). -/
def Ctx.fresh (c : Ctx) (m : BitVec 4) : Rejoin := { expected := if m.toNat < 8 then c.q m.toNat else c.em, arrived := 0, resume := 0 }

theorem exec_jinit (j : BitVec 2) (m : BitVec 4) (s : State) : exec (.jinit j m) s = word (.jinit j m) s fun c s =>
    s.checked c (c.illegalIf ((c.lg.rj j.toNat).arrived ≠ 0)) fun s => s.up c fun l => l.setRj j.toNat (c.fresh m) := rfl

/-- What `jwait` does (R327). -/
def State.rejoin (s : State) (c : Ctx) (j : Nat) : State :=
  if (c.lg.rj j).expected = 0 then s
  else s.checked c (c.illegalIf (c.em &&& ~~~(c.lg.rj j).expected ≠ 0)) fun s =>
    if (c.lg.rj j).arrived ||| c.em = (c.lg.rj j).expected then s.up c fun l => { l with em := (c.lg.rj j).expected }.setRj j {}
    else (s.up c fun l => l.setRj j { c.lg.rj j with arrived := (c.lg.rj j).arrived ||| c.em, resume := s.pk.succ }).endPath c

theorem exec_jwait (j : BitVec 2) (s : State) : exec (.jwait j) s = endWord (.jwait j) s fun c s => s.rejoin c j.toNat := rfl

section
variable {s : State} {c : Ctx} {j : Nat}

theorem State.rejoin_checked (he : (c.lg.rj j).expected ≠ 0) (hin : c.em &&& ~~~(c.lg.rj j).expected = 0) : s.rejoin c j =
    if (c.lg.rj j).arrived ||| c.em = (c.lg.rj j).expected then s.up c fun l => { l with em := (c.lg.rj j).expected }.setRj j {}
    else (s.up c fun l => l.setRj j { c.lg.rj j with arrived := (c.lg.rj j).arrived ||| c.em, resume := s.pk.succ }).endPath c :=
  (if_neg he).trans (State.checked_legal (decide_eq_false (not_not.mpr hin)) _)

end

theorem exec_ret (s : State) : exec .ret s = endWord .ret s fun c s => if c.em ≠ 0 then s.jump c c.lg.lk else s.endPath c := rfl

/-- The lane group whose active lanes end (R328). -/
def Lg.lanesEnd (l : Lg) (em : Word) : Lg :=
  let l := (List.range 4).foldl (fun l n => l.leaveRj em n) l
  { l with ended := l.ended ||| em, em := 0 }

theorem exec_exit (s : State) : exec .exit s = endWord .exit s fun c s => (s.up c fun l => l.lanesEnd c.em).endPath c := rfl

theorem Lg.leaveRjs_status (em : Word) : ∀ (ns : List Nat) (l : Lg), (ns.foldl (fun l n => l.leaveRj em n) l).status = l.status
  | [], _ => rfl
  | n :: ns, l => (Lg.leaveRjs_status em ns (l.leaveRj em n)).trans rfl

theorem Lg.lanesEnd_status (l : Lg) (em : Word) : (l.lanesEnd em).status = l.status := Lg.leaveRjs_status em (List.range 4) l

theorem exec_jarr (j : BitVec 2) (s : State) : exec (.jarr j) s = word (.jarr j) s fun c s => s.up c fun l => l.leaveRj c.em j.toNat := rfl

theorem exec_emWr (q : BitVec 3) (s : State) :
    exec (.emWr q) s = word (.emWr q) s fun c s => s.up c fun l => { l with em := c.q q.toNat &&& ~~~l.ended } := rfl

theorem and_not_of_or_eq {a e x : Word} (h : a ||| e = x) : e &&& ~~~x = 0 := by
  subst h
  ext i hi
  simp
  grind

/-- Settles O22. -/
theorem pathWords : Obligations.PathWords := by
  unfold Obligations.PathWords
  intro stays
  refine ⟨fun j m => ⟨?taken, ?jinit⟩, fun j => ⟨?nothing, ?outside, ?all, ?records, ?jarr⟩, ?ret, ?retEnds, ?exits, fun q => ⟨?emRd, ?emWr⟩,
    fun s g l hl _ => State.find_endLg hl⟩
  case taken => exact runs_illegal (exec_jinit j m) fun c s hj => decide_eq_true hj
  case jinit =>
    intro s c hc hw hj
    refine ⟨_, (exec_jinit j m s).trans ((word_next _ hc hw).trans (congrArg _ (State.checked_legal (by simpa using hj) _))), ?_⟩
    exact State.up_eq hc _
  case nothing =>
    intro s c hc hw ⟨hs, he⟩
    obtain ⟨hg, hl, -, -⟩ := State.ctx?_spec hc
    have hf : s.rejoin c j.toNat = s := if_pos he
    exact ⟨_, (exec_jwait j s).trans ((endWord_goes hc hw hs (by rw [hf, hg, hl]) id).trans (congrArg _ hf)), rfl⟩
  case outside =>
    intro s c hc hw ⟨hs, he, hout⟩
    have hr : Raises .illegal 6 Ctx.em c s (s.rejoin c j.toNat) := (if_neg he).trans (State.checked_illegalIf (decide_eq_true hout) _)
    exact ⟨_, (exec_jwait j s).trans (endWord_next hc hw fun hwait => Bool.eq_false_iff.mpr fun e => hs hwait (hr.hasEnded hc e)), hr⟩
  case all =>
    intro s c hc hw ⟨hs, he, ha⟩
    have hf := (State.rejoin_checked (s := s) he (and_not_of_or_eq ha)).trans (if_pos ha)
    exact ⟨_, endWord_up hc hw (exec_jwait j s) hs hf rfl, rfl⟩
  case records =>
    intro s c hc he hin ha l1
    exact endWord_upEndPath (fun l => l.setRj j.toNat _) hc rfl (exec_jwait j s) ((State.rejoin_checked he hin).trans (if_neg ha)) rfl
  case jarr => exact fun s c hc hw _ => ⟨_, (exec_jarr j s).trans (word_next _ hc hw), State.up_eq hc _⟩
  case ret =>
    intro s c hc hw ⟨hs, he⟩
    have hf : (if c.em ≠ 0 then s.jump c c.lg.lk else s.endPath c) = s.jump c c.lg.lk := if_pos he
    exact ⟨_, endWord_up hc hw (exec_ret s) hs hf rfl, rfl⟩
  case retEnds =>
    intro s c hc he
    obtain ⟨hg, hl, -, -⟩ := State.ctx?_spec hc
    exact endWord_endPath hc rfl (exec_ret s) (if_neg (not_not.mpr he)) (hg ▸ hl) rfl
  case exits =>
    intro s c hc l0 l1
    exact endWord_upEndPath (fun l => l.lanesEnd c.em) hc rfl (exec_exit s) rfl (c.lg.lanesEnd_status c.em)
  case emRd => exact .of_maskWord fun _ => rfl
  case emWr => exact fun s c hc hw _ => ⟨_, (exec_emWr q s).trans (word_next _ hc hw), State.up_eq hc _⟩

end Sys2Proof.Machine
end

section
/-! PROOF. Barrier arrivals and fences (R37, R38, R123, R129, R130, R315 to R320). -/

set_option Elab.async false

namespace Sys2Proof.Machine

/-! ## Barriers -/

/-- Nothing of the lane group is outstanding, and no acquire holds it (R123). -/
abbrev ArriveOk (c : Ctx) (s : State) : Prop := s.quiet c.g = true ∧ s.acquiring c.g = false

section
variable {s : State} {c : Ctx}

theorem State.arrive_of (h : ArriveOk c s) (k : State → State) : s.arrive c k = k s := if_pos (by rw [h.1, h.2]; rfl)

theorem State.arrive_held (h : ¬ ArriveOk c s) (k : State → State) : s.arrive c k = s.holdBack c := by
  refine if_neg fun e => h ?_
  simpa using e

end

/-- A barrier word: `bad` says where it is illegal, `k` what an arrival does. -/
theorem runs_arrive {i : Instr} {ok : Ctx → State → Prop} {eff : Ctx → State → State → Prop} {bad : Ctx → Bool} {k : Ctx → State → State}
    (hx : ∀ s, exec i s = word i s fun c s => s.checked c (c.illegalIf (bad c)) fun s => s.arrive c (k c))
    (hok : ∀ c s, ok c s → bad c = false ∧ ArriveOk c s) (hk : ∀ s c, s.ctx? = some c → eff c s (k c s)) : Runs i ok eff := by
  intro s c hc hw ho
  obtain ⟨hb, ha⟩ := hok c s ho
  exact ⟨_, (hx s).trans ((word_next _ hc hw).trans (congrArg _ ((State.checked_legal hb _).trans (State.arrive_of ha _)))), hk s c hc⟩

theorem runs_arrive_held {i : Instr} {ok : Ctx → State → Prop} {bad : Ctx → Bool} {k : Ctx → State → State}
    (hx : ∀ s, exec i s = word i s fun c s => s.checked c (c.illegalIf (bad c)) fun s => s.arrive c (k c))
    (hok : ∀ c s, ok c s → bad c = false ∧ ¬ ArriveOk c s) : Runs i ok Held := by
  intro s c hc hw ho
  obtain ⟨hb, ha⟩ := hok c s ho
  exact ⟨_, (hx s).trans ((word_next _ hc hw).trans (congrArg _ ((State.checked_legal hb _).trans (State.arrive_held ha _)))), rfl⟩

/-- The workgroup's barrier once the lane group has arrived (R315). -/
def Ctx.barAfter (c : Ctx) (s : State) (b : Nat) : Bar :=
  { Tab.getD c.wg.bars {} b with
    arrived := c.lg.lgn :: (Tab.getD c.wg.bars {} b).arrived, pts := max (Tab.getD c.wg.bars {} b).pts (s.core c.core).pts }

/-- An arrival at a workgroup barrier (R315). -/
def State.atWgBarrier (s : State) (c : Ctx) (b : Nat) : State :=
  (s.modWg c.lg.wg fun w => { w with bars := w.bars.put b (c.barAfter s b) }).up c fun l => { l with status := .blocked (.barWg b) false }

theorem exec_barWg (b : BitVec 2) (s : State) : exec (.barWg b) s = word (.barWg b) s fun c s =>
    s.checked c (c.illegalIf c.lg.pathsOpen) fun s => s.arrive c fun s => s.atWgBarrier c b.toNat := rfl

/-- An arrival at a span barrier (R317). -/
def State.atSpanBarrier (s : State) (c : Ctx) (o : Nat × Nat) (w h : Nat) : State :=
  (s.modLaunch c.wg.launch fun l => { l with
    spans := l.spans.put (spanKey o.1 o.2 w h) ((Tab.getD l.spans {} (spanKey o.1 o.2 w h)).arrive c.g (s.core c.core).pts false) }).up c
      fun l => { l with status := .blocked (.barSpan o.1 o.2 w h) false }

theorem exec_barSpan (h w : BitVec 3) (s : State) : exec (.barSpan h w) s = word (.barSpan h w) s fun c s =>
    s.checked c (c.illegalIf (c.lg.pathsOpen || !c.la.cor || c.handler ||
        decide (c.la.w < (spanAt c.la c.wg.home w.toNat h.toNat).1 + 2 ^ w.toNat) ||
        decide (c.la.h < (spanAt c.la c.wg.home w.toNat h.toNat).2 + 2 ^ h.toNat)))
      fun s => s.arrive c fun s => s.atSpanBarrier c (spanAt c.la c.wg.home w.toNat h.toNat) w.toNat h.toNat := rfl

/-- An arrival at the step barrier (R318). -/
def State.atStepBarrier (s : State) (c : Ctx) (r : BitVec 1) : State :=
  (s.modLaunch c.wg.launch fun l => { l with step := l.step.arrive c.g (s.core c.core).pts (r = 1) }).up c
    fun l => { l with status := .blocked .barStep false }

theorem exec_barStep (r : BitVec 1) (s : State) : exec (.barStep r) s = word (.barStep r) s fun c s =>
    s.checked c (c.illegalIf (c.lg.pathsOpen || !c.la.cor || c.handler)) fun s => s.arrive c fun s => s.atStepBarrier c r := rfl

section
variable {b : LBar} {g pts : Nat} {flag : Bool}

theorem LBar.mem_arrive : g ∈ (b.arrive g pts flag).arrived := List.mem_cons_self

theorem LBar.le_arrive : pts ≤ (b.arrive g pts flag).pts := Nat.le_max_right ..

end

/-- Settles O23. -/
theorem barrierWords : Obligations.BarrierWords := by
  unfold Obligations.BarrierWords
  intro quiet
  refine ⟨fun b => ⟨?wg, ?wgOpen, ?wgHeld⟩, fun h w => ⟨?span, ?spanOut, ?spanHeld⟩, fun r => ⟨?step, ?stepOut, ?stepHeld⟩⟩
  case wg =>
    refine runs_arrive (exec_barWg b) (fun c s ho => ho) fun s c hc => ?_
    obtain ⟨-, -, hwg, -⟩ := State.ctx?_spec hc
    exact ⟨_, State.find_modWg_self _ hwg, Tab.find_put_self .., rfl, State.find_up hc rfl _, rfl⟩
  case wgOpen => exact runs_illegal (exec_barWg b) fun c s ho => ho
  case wgHeld => exact runs_arrive_held (exec_barWg b) fun c s ho => ho
  case span =>
    refine runs_arrive (exec_barSpan h w) (fun c s ⟨hp, hq, hcor, hh, hw', hh'⟩ => ⟨?_, hq⟩) fun s c hc => ?_
    · simp [hp, hcor, Ctx.handler, hh, hw', hh']
    · obtain ⟨-, -, -, hla⟩ := State.ctx?_spec hc
      exact ⟨_, _, State.find_modLaunch_self _ hla, Tab.find_put_self .., LBar.mem_arrive, LBar.le_arrive, State.find_up hc rfl _, rfl⟩
  case spanOut =>
    refine runs_illegal (exec_barSpan h w) fun c s ho => ?_
    obtain ho | ho | ho | ho | ho := ho <;> simp [ho, Ctx.handler]
  case spanHeld =>
    refine runs_arrive_held (exec_barSpan h w) fun c s ⟨hp, hcor, hh, hw', hh', hq⟩ => ⟨?_, hq⟩
    simp [hp, hcor, Ctx.handler, hh, hw', hh']
  case step =>
    refine runs_arrive (exec_barStep r) (fun c s ⟨hp, hq, hcor, hh⟩ => ⟨?_, hq⟩) fun s c hc => ?_
    · simp [hp, hcor, Ctx.handler, hh]
    · obtain ⟨-, -, -, hla⟩ := State.ctx?_spec hc
      exact ⟨_, State.find_modLaunch_self _ hla, LBar.mem_arrive, rfl, LBar.le_arrive, State.find_up hc rfl _, rfl⟩
  case stepOut =>
    refine runs_illegal (exec_barStep r) fun c s ho => ?_
    obtain ho | ho | ho := ho <;> simp [ho, Ctx.handler]
  case stepHeld =>
    refine runs_arrive_held (exec_barStep r) fun c s ⟨hp, hcor, hh, hq⟩ => ⟨?_, hq⟩
    simp [hp, hcor, Ctx.handler, hh]

/-! ## Fences -/

theorem SamePacket.of_pk {s t : State} (h : t.pk = s.pk) : SamePacket s t := by
  unfold SamePacket
  rw [h]

/-- A commit leaves the packet in execution (R116). -/
theorem State.commitStaged_samePacket (s : State) (w : Nat) : SamePacket s (s.commitStaged w) := by
  unfold State.commitStaged
  split
  · exact rfl
  · split
    · exact rfl
    · extract_lets bad s1 lines s2 ts s3 s4
      have h1 : Under s s1 := Under.foldl _ (fun _ _ => State.gateRec_under ..) _ _
      have h2 : Under s1 s2 := Under.foldl _ State.publishLine_under _ _
      have h3 : Under s2 s3 := Under.foldl _ (fun _ _ => State.commitLine_under ..) _ _
      have h4 : s4.pk = s3.pk := by
        unfold s4
        split <;> rfl
      exact (SamePacket.of_below (h1.trans (h2.trans h3)).1).trans (.of_pk h4)

theorem State.forcedCommit_samePacket (s : State) (w : Nat) : SamePacket s (s.forcedCommit w) := by
  unfold State.forcedCommit
  split
  · exact rfl
  · next g _ =>
    split
    · exact rfl
    · next la _ =>
      split
      · exact rfl
      · have h := s.commitStaged_samePacket w
        split
        · exact h
        · have hr := State.tenantRec_under ((s.commitStaged w).modLaunch g.launch fun l => { l with rst := false }) la.vf
            [la.recHead .none 5, la.recWhere, 0, (s.commitStaged w).time]
          have k : SamePacket ((s.commitStaged w).modLaunch g.launch fun l => { l with rst := false }) _ := .of_below hr.1
          exact h.trans k

theorem committed_samePacket (c : Ctx) (s : State) : SamePacket s (Committed c s) := by
  unfold Committed
  split
  · exact State.forcedCommit_samePacket ..
  · exact rfl

theorem exec_fenceAcq (s : State) : exec .fenceAcq s = word .fenceAcq s fun c s =>
    if s.loadsOut c.g (s.pk.since.getD s.nseq) then s.up c fun l => { l with fence := some (s.pk.since.getD s.nseq) }
    else s.raisePts c.core c.lg.boundWts := rfl

theorem exec_fenceRel (s : State) : exec .fenceRel s =
    memWord .fenceRel s fun c s => if s.quiet c.g then s.afterCommit c fun s => s else s.holdBack c := rfl

/-- The atomic of `fence.ar` on its partition's fence word (R129, R320). -/
def State.fenceWord (s : State) (c : Ctx) : State :=
  if s.cutOff (dieOf c.core) (((s.partDies c.part).head?).getD 0) then s.raiseReport c .deferred c.em 0 s.pk.idx s.pk.idx
  else if (s.part c.part).fencePois then s.raiseReport c .poison c.em 0 s.pk.idx s.pk.idx
  else (s.modPart c.part fun p => { p with fenceN := max (s.part c.part).fenceN (max (s.core c.core).pts c.lg.boundWts) + 1 }).raisePts c.core
    (max (s.part c.part).fenceN (max (s.core c.core).pts c.lg.boundWts) + 1)

theorem exec_fenceAr (s : State) : exec .fenceAr s = memWord .fenceAr s fun c s =>
    if !s.quiet c.g || s.acquiring c.g then s.holdBack c else s.afterCommit c fun s => s.fenceWord c := rfl

theorem State.part_raisePts (s : State) (c t n : Nat) : (s.raisePts c t).part n = s.part n := rfl

theorem State.core_raisePts (s : State) (c t : Nat) : ((s.raisePts c t).core c).pts = max (s.core c).pts t := by
  rw [State.raisePts, State.core_modCore, if_pos rfl]

section
variable {s : State} {c : Ctx}

/-- Where nothing holds it back, `fence.ar` performs its atomic after the commit. -/
theorem exec_fenceAr_of {x : State} (hc : s.ctx? = some c) (hw : wellFormed .fenceAr = true) (hq : s.quiet c.g = true)
    (ha : s.acquiring c.g = false) (hm : CommitOk c s) (hu : Unowned s (Committed c s)) (hx : (Committed c s).fenceWord c = x)
    (hs : x.pk.stall = true → (Committed c s).pk.stall = true) : exec .fenceAr s = .next x := by
  have hf : (if !s.quiet c.g || s.acquiring c.g then s.holdBack c else s.afterCommit c fun s => s.fenceWord c) = x := by
    rw [hq, ha]
    exact (State.afterCommit_of hm fun s => s.fenceWord c).trans hx
  exact (exec_fenceAr s).trans ((memWord_next _ hc hw fun h => hu ▸ hs (hf ▸ h)).trans (congrArg _ hf))

theorem exec_fenceAr_held (hc : s.ctx? = some c) (hw : wellFormed .fenceAr = true)
    (h : s.quiet c.g = false ∨ s.acquiring c.g = true ∨ ¬ CommitOk c s) : exec .fenceAr s = .next (s.holdBack c) := by
  refine (exec_fenceAr s).trans (memWord_of hc hw ?_ rfl)
  by_cases hb : (!s.quiet c.g || s.acquiring c.g) = true
  · exact if_pos hb
  · refine (if_neg hb).trans (State.afterCommit_held ?_ _)
    simp only [Bool.or_eq_true, Bool.not_eq_true', not_or, Bool.not_eq_true, Bool.not_eq_false] at hb
    simpa [hb] using h

end

/-- Settles O24. -/
theorem fenceWords : Obligations.FenceWords := by
  unfold Obligations.FenceWords
  refine ⟨?acq, ?acqMarks, ?rel, ?relHeld, ?ar⟩
  case acq =>
    intro s c hc hw hl
    have hf : (if s.loadsOut c.g (s.pk.since.getD s.nseq) = true then s.up c fun l => { l with fence := some (s.pk.since.getD s.nseq) }
        else s.raisePts c.core c.lg.boundWts) = s.raisePts c.core c.lg.boundWts := if_neg (by simp [hl])
    exact ⟨_, (exec_fenceAcq s).trans ((word_next _ hc hw).trans (congrArg _ hf)), State.core_raisePts .., rfl⟩
  case acqMarks =>
    intro s c hc hw hl
    exact ⟨_, (exec_fenceAcq s).trans ((word_next _ hc hw).trans (congrArg _ (if_pos hl))), State.up_eq hc _⟩
  case rel =>
    intro s c hc hw ⟨hq, hm, hu⟩
    exact ⟨_, (exec_fenceRel s).trans (memWord_of hc hw ((if_pos hq).trans (State.afterCommit_of hm _)) hu), rfl⟩
  case relHeld =>
    intro s c hc hw h
    refine ⟨_, (exec_fenceRel s).trans (memWord_of (t := s.holdBack c) hc hw ?_ rfl), rfl⟩
    by_cases hq : s.quiet c.g = true
    · exact (if_pos hq).trans (State.afterCommit_held (h.resolve_left (by simp [hq])) _)
    · exact if_neg hq
  case ar =>
    intro ok cut
    refine ⟨?_, ?_, ?_, fun s c hc hw h => ⟨_, exec_fenceAr_held hc hw h, rfl⟩⟩
    · intro s c hc hw ⟨⟨hq, ha, hm, hu⟩, hcut, hp⟩
      have hx : (Committed c s).fenceWord c = _ := (if_neg (by simpa [cut] using hcut)).trans (if_neg (by simp [hp]))
      refine ⟨_, exec_fenceAr_of hc hw hq ha hm hu hx fun h => h, ?_, ?_, rfl⟩
      · rw [State.part_raisePts, State.part_modPart, if_pos rfl]
      · refine (State.core_raisePts ..).trans (Nat.max_eq_right ?_)
        exact Nat.le_succ_of_le ((Nat.le_max_left ..).trans (Nat.le_max_right ..))
    · intro s c hc hw ⟨⟨hq, ha, hm, hu⟩, hcut⟩
      refine ⟨_, exec_fenceAr_of hc hw hq ha hm hu (if_pos hcut) State.takeTrap_stall, ?_⟩
      rw [(committed_samePacket c s).idx]
    · intro s c hc hw ⟨⟨hq, ha, hm, hu⟩, hcut, hp⟩
      have hx : (Committed c s).fenceWord c = _ := (if_neg (by simpa [cut] using hcut)).trans (if_pos hp)
      refine ⟨_, exec_fenceAr_of hc hw hq ha hm hu hx State.takeTrap_stall, ?_⟩
      rw [(committed_samePacket c s).idx]

end Sys2Proof.Machine
end

section
/-! PROOF. Counter waits, memory waits and elections (R321 to R324, R68). -/

set_option Elab.async false

namespace Sys2Proof.Machine

/-! ## Counter waits -/

/-- What `waitc` does on counter `n` (R321, R338). -/
def State.awaits (s : State) (c : Ctx) (n : Nat) (t : Word) : State :=
  match c.lg.oldestFail n with
  | some f =>
    if (s.onCounter c.g n).any fun q => decide (q < f.seq) then s.waitCount c
    else (s.up c fun l => l.reported f).raiseReport { c with lg := c.lg.reported f } f.cause f.fm f.va f.fpc s.pk.idx f.slot f.inRun
  | none => if reached (c.cnt n) t then s else s.checked c (c.illegalIf (s.onCounter c.g n).isEmpty) fun s => s.waitCount c

theorem exec_waitc (n : BitVec 4) (a i : BitVec 8) (s : State) :
    exec (.waitc n a i) s = word (.waitc n a i) s fun c s => s.awaits c n.toNat (c.threshold a i) := rfl

section
variable {s : State} {c : Ctx} {n : Nat} {t : Word}

theorem State.awaits_none (h : c.lg.oldestFail n = none) : s.awaits c n t =
    if reached (c.cnt n) t then s else s.checked c (c.illegalIf (s.onCounter c.g n).isEmpty) fun s => s.waitCount c := by
  unfold State.awaits
  rw [h]

theorem State.awaits_some {f : Fail} (h : c.lg.oldestFail n = some f) : s.awaits c n t =
    if (s.onCounter c.g n).any fun q => decide (q < f.seq) then s.waitCount c
    else (s.up c fun l => l.reported f).raiseReport { c with lg := c.lg.reported f } f.cause f.fm f.va f.fpc s.pk.idx f.slot f.inRun := by
  unfold State.awaits
  rw [h]

end

/-! ## Memory waits -/

theorem SamePacket.first {s t : State} (h : SamePacket s t) : t.pk.first = s.pk.first :=
  congrArg (·.first) (show ({ t.pk with stall := false } : PacketCtx) = { s.pk with stall := false } from h)

theorem SamePacket.slot {s t : State} (h : SamePacket s t) : t.pk.slot = s.pk.slot :=
  congrArg (·.slot) (show ({ t.pk with stall := false } : PacketCtx) = { s.pk with stall := false } from h)


/-- A lone address that fails gives its trap (R413, R414). -/
theorem State.replayTrap_one (s : State) {x : LaneAddr} (h : x.cause ≠ .none) : ∃ t, s.replayTrap [x] none = some t ∧ t.cause = x.cause ∧
    t.fm = 1#32 <<< x.lane ∧ t.tva = BitVec.ofNat 64 x.va ∧ t.replaying = true := by
  have hb : bestCause [x.cause] = x.cause := List.mem_singleton.mp (bestCause_mem fun k hk => List.mem_singleton.mp hk ▸ h)
  have hn : (x.cause != .none) = true := by simpa using h
  unfold State.replayTrap
  simp only [List.filter_cons, hn, if_true, List.filter_nil, List.map_cons, List.map_nil, hb, List.find?_cons, beq_self_eq_true]
  exact ⟨_, rfl, rfl, by simp [maskOf], rfl, rfl⟩

theorem State.laneXlate_place (s : State) (c : Ctx) (align need lane va : Nat) :
    (s.laneXlate c align need lane va).2.lane = lane ∧ (s.laneXlate c align need lane va).2.va = va := by
  unfold State.laneXlate
  split <;> exact ⟨rfl, rfl⟩

theorem State.laneXlate_samePacket (s : State) (c : Ctx) (align need lane va : Nat) : SamePacket s (s.laneXlate c align need lane va).1 :=
  .of_below (State.laneXlate_under ..).1

/-- A word of a line that no engine owns is read without a wait. -/
theorem State.watch_pk {s : State} {w part pa kid : Nat} (h : s.locked (pa / 128) = false) : (s.watch w part pa kid).1.pk = s.pk := by
  have hp : ((s.publishLine (pa / 128)).asKey (pa / 128) kid).pk = s.pk := by
    refine (State.asKey_pk ..).trans ?_
    unfold State.publishLine
    rw [if_neg (by simp [h])]
    exact s.publishAll_pk _
  unfold State.watch
  extract_lets e s1 g pois bs
  split_ifs
  · rfl
  · exact hp
  · exact hp

/-- A lane group blocked in a memory wait (R322). -/
def State.blockedOn (s : State) (c : Ctx) (va : Nat) (at_ : Nat × Nat) (t : Word) (p : PacketCtx) : State :=
  s.modLg c.g fun l => { l with status := .blocked (.waitm va (some at_) t p.idx p.first p.slot) false }

/-- What `waitm` does once its word is translated (R322). -/
def State.waitsAt (s : State) (c : Ctx) (va : Nat) (t : Word) (pa kid : Nat) : State :=
  if s.storeOut c.core pa then s.holdBack c
  else if s.locked (pa / 128) then s.blockedOn c va (pa, kid) t s.pk
  else
    let r := s.watch c.lg.wg c.part pa kid
    if r.2.1 ≠ .none then r.1.waitmFails c r.2.1 pa va
    else if reached r.2.2.1 t then (r.1.raisePts c.core r.2.2.2).up c fun l => { l with boundWts := max l.boundWts r.2.2.2 }
    else r.1.blockedOn c va (pa, kid) t r.1.pk

/-- What `waitm` does with the translation of its address. -/
def State.waitsFor (c : Ctx) (va : Nat) (t : Word) (r : State × LaneAddr) : State :=
  match r.2.res with
  | .fail _ _ _ _ => match r.1.replayTrap [r.2] none with | none => r.1 | some t => r.1.takeTrap c t
  | .ok pa kid => r.1.waitsAt c va t pa kid

theorem exec_waitm (d : BitVec 5) (a i : BitVec 8) (s : State) : exec (.waitm d a i) s = memWord (.waitm d a i) s fun c s =>
    if s.acquiring c.g then s.holdBack c
    else State.waitsFor c (c.kr d.toNat).toNat (c.threshold a i) (s.laneXlate c 8 1 c.exLane (c.kr d.toNat).toNat) := rfl

theorem State.waitmFails_stall {s : State} {c : Ctx} {e : Cause} {pa va : Nat} (h : (s.waitmFails c e pa va).pk.stall = true) :
    s.pk.stall = true := by
  unfold State.waitmFails at h
  extract_lets s1 at h
  have h1 : s1.pk.stall = true := State.takeTrap_stall h
  unfold s1 at h1
  split at h1
  · exact State.gateRec_flows _ _ _ _ _ _ _ _ _ h1
  · exact h1

section
variable {d : BitVec 5} {a i : BitVec 8} {s s1 t : State} {c : Ctx} {x : LaneAddr}

/-- Behind no acquire, a `waitm` goes on as its translation says. -/
theorem exec_waitm_of (hc : s.ctx? = some c) (hw : wellFormed (.waitm d a i) = true) (ha : s.acquiring c.g = false)
    (hx : s.laneXlate c 8 1 c.exLane (c.kr d.toNat).toNat = (s1, x)) (hu : Unowned s s1)
    (ht : State.waitsFor c (c.kr d.toNat).toNat (c.threshold a i) (s1, x) = t) (hs : t.pk.stall = true → s1.pk.stall = true) :
    exec (.waitm d a i) s = .next t := by
  have hf : (if s.acquiring c.g then s.holdBack c
      else State.waitsFor c (c.kr d.toNat).toNat (c.threshold a i) (s.laneXlate c 8 1 c.exLane (c.kr d.toNat).toNat)) = t := by
    rw [ha, hx]
    exact ht
  exact (exec_waitm d a i s).trans ((memWord_next _ hc hw fun h => hu ▸ hs (hf ▸ h)).trans (congrArg _ hf))

theorem exec_waitm_ok {pa kid : Nat} (hc : s.ctx? = some c) (hw : wellFormed (.waitm d a i) = true) (ha : s.acquiring c.g = false)
    (hx : s.laneXlate c 8 1 c.exLane (c.kr d.toNat).toNat = (s1, x)) (hu : Unowned s s1) (hr : x.res = .ok pa kid)
    (ht : s1.waitsAt c (c.kr d.toNat).toNat (c.threshold a i) pa kid = t) (hs : t.pk.stall = true → s1.pk.stall = true) :
    exec (.waitm d a i) s = .next t := by
  refine exec_waitm_of hc hw ha hx hu ?_ hs
  unfold State.waitsFor
  rw [hr]
  exact ht

end

/-- The word that `waitm` has read (R322). -/
theorem State.waitsAt_read {s s2 : State} {c : Ctx} {va pa kid wts : Nat} {t w : Word} {e : Cause} (ho : s.storeOut c.core pa = false)
    (hl : s.locked (pa / 128) = false) (hr : s.watch c.lg.wg c.part pa kid = (s2, e, w, wts)) : s.waitsAt c va t pa kid =
    if e ≠ .none then s2.waitmFails c e pa va
    else if reached w t then (s2.raisePts c.core wts).up c fun l => { l with boundWts := max l.boundWts wts }
    else s2.blockedOn c va (pa, kid) t s2.pk := by
  unfold State.waitsAt
  simp only [ho, hl, hr, Bool.false_eq_true, if_false]

theorem exec_elect (q : BitVec 3) (s : State) : exec (.elect q) s = word (.elect q) s fun c s =>
    (if c.wg.elect && c.em != 0 then s.modWg c.lg.wg fun w => { w with elect := false } else s).up c fun l =>
      l.setQ q.toNat (if c.wg.elect && c.em != 0 then 1#32 <<< c.exLane else 0) := rfl

/-- Settles O25. -/
theorem waitWords : Obligations.WaitWords := by
  unfold Obligations.WaitWords
  intro waits
  refine ⟨fun n a i => ⟨?passes, ?short, ?behind, ?never, ?reports, runs_cset n a i, runs_cadd n a i⟩, fun d a i s s1 c x hc hw hx => ?waitm,
    fun q => ?elect⟩
  case passes =>
    intro s c hc hw ⟨hf, hr⟩
    exact ⟨_, (exec_waitc n a i s).trans ((word_next _ hc hw).trans
      (congrArg _ ((State.awaits_none hf).trans (if_pos (decide_eq_true hr))))), rfl⟩
  case short =>
    intro s c hc hw ⟨hf, hr, ho⟩
    have hr : ¬ reached (c.cnt n.toNat) (c.threshold a i) = true := fun e => absurd (of_decide_eq_true e) (Nat.not_lt.mpr hr)
    have ho : (s.onCounter c.g n.toNat).isEmpty = false := by simpa using ho
    exact ⟨_, (exec_waitc n a i s).trans ((word_next _ hc hw).trans
      (congrArg _ ((State.awaits_none hf).trans ((if_neg hr).trans (State.checked_legal ho _))))), rfl⟩
  case behind =>
    intro s c hc hw ⟨f, hf, q, hq, hlt⟩
    have ho : ((s.onCounter c.g n.toNat).any fun q => decide (q < f.seq)) = true := List.any_eq_true.mpr ⟨q, hq, decide_eq_true hlt⟩
    exact ⟨_, (exec_waitc n a i s).trans ((word_next _ hc hw).trans (congrArg _ ((State.awaits_some hf).trans (if_pos ho)))), rfl⟩
  case never =>
    intro s c hc hw hf hr ho
    have hr : ¬ reached (c.cnt n.toNat) (c.threshold a i) = true := fun e => absurd (of_decide_eq_true e) (Nat.not_lt.mpr hr)
    have hi : Raises .illegal 6 Ctx.em c s (s.awaits c n.toNat (c.threshold a i)) :=
      ((State.awaits_none hf).trans (if_neg hr)).trans (State.checked_illegalIf (by rw [ho]; rfl) _)
    exact (exec_waitc n a i s).trans ((word_next _ hc hw).trans (congrArg _ hi))
  case reports =>
    intro s c f hc hw hf hall
    have ho : ¬ ((s.onCounter c.g n.toNat).any fun q => decide (q < f.seq)) = true := by simpa using hall
    refine ⟨rfl, (exec_waitc n a i s).trans ((word_next _ hc hw).trans (congrArg _ ?_))⟩
    rw [State.awaits_some hf, if_neg ho, State.up_eq hc]
  case waitm =>
    intro va
    obtain ⟨hlane, hva⟩ := State.laneXlate_place s c 8 1 c.exLane va
    have hsame : SamePacket s s1 := by have h := State.laneXlate_samePacket s c 8 1 c.exLane va; rwa [hx] at h
    rw [hx] at hlane hva
    refine ⟨fun ha => (exec_waitm d a i s).trans (memWord_of hc hw (if_pos ha) rfl), fun ha hu => ⟨fun hn => ?fails, fun pa kid hr => ?ok⟩⟩
    case fails =>
      obtain ⟨tr, htr, hcause, hfm, htva, hrep⟩ := s1.replayTrap_one hn
      refine ⟨tr, hcause, hlane ▸ hfm, hva ▸ htva, hrep, exec_waitm_of hc hw ha hx hu ?_ State.takeTrap_stall⟩
      cases hr : x.res with
      | ok pa kid => exact absurd (by unfold LaneAddr.cause; rw [hr]) hn
      | fail k p ipa t => simp only [State.waitsFor, hr, htr]
    case ok =>
      intro block
      have hblock : ∀ u, SamePacket s u → u.blockedOn c va (pa, kid) (c.threshold a i) u.pk = block u := by
        intro u h
        unfold State.blockedOn
        rw [h.idx, h.first, h.slot]
      refine ⟨fun ho => ?_, fun ho hl => ?_, fun ho hl s2 e w wts hread => ⟨fun he => ?_, fun he hw' => ?_, fun he hw' => ?_⟩⟩
      · exact exec_waitm_ok hc hw ha hx hu hr (if_pos ho) id
      · exact exec_waitm_ok hc hw ha hx hu hr ((if_neg (by simp [ho])).trans ((if_pos hl).trans (hblock s1 hsame))) id
      all_goals have hpk : s2.pk = s1.pk := by have h := State.watch_pk (w := c.lg.wg) (part := c.part) (kid := kid) hl; rwa [hread] at h
      · exact exec_waitm_ok hc hw ha hx hu hr ((State.waitsAt_read ho hl hread).trans (if_pos he)) fun h => hpk ▸ State.waitmFails_stall h
      · refine exec_waitm_ok hc hw ha hx hu hr ((State.waitsAt_read ho hl hread).trans ((if_neg (not_not.mpr he)).trans
          (if_pos (decide_eq_true hw')))) fun h => hpk ▸ h
      · have hn : ¬ reached w (c.threshold a i) = true := fun e => absurd (of_decide_eq_true e) (Nat.not_lt.mpr hw')
        have h2 : SamePacket s s2 := hsame.trans (.of_pk hpk)
        exact exec_waitm_ok hc hw ha hx hu hr ((State.waitsAt_read ho hl hread).trans ((if_neg (not_not.mpr he)).trans
          ((if_neg hn).trans (hblock s2 h2)))) fun h => hpk ▸ h
  case elect =>
    intro s c hc hw _
    obtain ⟨-, -, hwg, -⟩ := State.ctx?_spec hc
    have hx := (exec_elect q s).trans (word_next _ hc hw)
    by_cases hwin : (c.wg.elect && c.em != 0) = true
    · rw [if_pos hwin, if_pos hwin] at hx
      have hwin' : c.wg.elect = true ∧ c.em ≠ 0 := by simpa using hwin
      exact ⟨_, hx, _, _, State.find_up hc rfl _, State.find_modWg_self _ hwg, fun _ => ⟨Lg.setQ_qAt .., rfl⟩, fun h => absurd hwin' h,
        rfl, rfl, rfl⟩
    · rw [if_neg hwin, if_neg hwin] at hx
      have hwin' : ¬ (c.wg.elect = true ∧ c.em ≠ 0) := by simpa using hwin
      exact ⟨_, hx, _, _, State.find_up hc rfl _, hwg, fun h => absurd h hwin', fun _ => ⟨Lg.setQ_qAt .., rfl⟩, rfl, rfl, rfl⟩

end Sys2Proof.Machine
end

section
/-! PROOF. Engine commands (R365 to R372): one rule for their checks, one for what joins the engines. -/

set_option Elab.async false

namespace Sys2Proof.Machine

/-! ## The best finding -/

theorem bestFinding_rank : ∀ {fs : List Finding} {g : Finding}, bestFinding fs = some g → ∃ f ∈ fs, f.rank = g.rank
  | f :: r, g, h => by
    unfold bestFinding at h
    cases hr : bestFinding r with
    | none =>
      rw [hr] at h
      cases h
      exact ⟨f, List.mem_cons_self, rfl⟩
    | some x =>
      rw [hr] at h
      dsimp only at h
      split_ifs at h <;> cases h
      · obtain ⟨y, hy, e⟩ := bestFinding_rank hr
        exact ⟨y, List.mem_cons_of_mem _ hy, e⟩
      · exact ⟨f, List.mem_cons_self, rfl⟩
      · exact ⟨f, List.mem_cons_self, rfl⟩

/-- A finding that is listed, and all others equal to it or of a lower rank, is the best (R7). -/
theorem bestFinding_least {x : Finding} : ∀ {fs : List Finding}, x ∈ fs → (∀ f ∈ fs, f = x ∨ x.rank < f.rank) → bestFinding fs = some x
  | f :: r, hx, hall => by
    have hrest : ∀ f ∈ r, f = x ∨ x.rank < f.rank := fun f hf => hall f (List.mem_cons_of_mem _ hf)
    unfold bestFinding
    obtain rfl | hf := hall f List.mem_cons_self
    · by_cases hx' : f ∈ r
      · rw [bestFinding_least hx' hrest]
        simp
      · cases hr : bestFinding r with
        | none => rfl
        | some g =>
          obtain ⟨y, hy, e⟩ := bestFinding_rank hr
          have hlt : f.rank < g.rank := e ▸ (hrest y hy).resolve_left fun h => hx' (h ▸ hy)
          simp [Nat.not_lt.mpr hlt.le, hlt.ne]
    · have hx' : x ∈ r := (List.mem_cons.mp hx).resolve_left fun h => absurd hf (h ▸ Nat.lt_irrefl _)
      rw [bestFinding_least hx' hrest]
      simp [hf]

theorem Ctx.mem_exIll {c : Ctx} {b : Bool} {f : Finding} : f ∈ c.exIll b ↔ b = true ∧ f = ⟨6, .illegal, c.exMask⟩ := by
  cases b <;> simp [Ctx.exIll]

theorem Ctx.mem_exF {c : Ctx} {b : Bool} {k : Cause} {f : Finding} : f ∈ c.exF b k ↔ b = true ∧ f = ⟨k.rank, k, c.exMask⟩ := by
  cases b <;> simp [Ctx.exF]

/-! ## Handing a command to its engine -/

section
variable {s : State} {c : Ctx}

/-- A command joins those whose engine is to take ownership of its lines (R365, R366). -/
def State.handEngine (s : State) (c : Ctx) (ctr : Nat) (q : Option Nat) (body : CmdBody) (tc : Bool) : State :=
  let s1 := s.putCmd { c.cmd s (some ctr) body with q := q }
  (if tc then s1.modCore c.core fun k => { k with tcq := k.tcq ++ [s.nseq] } else s1).post (.engineTakeOwnership s.nseq)

theorem State.engine_eq (s : State) (c : Ctx) (fs : List Finding) (ctr : Nat) (q : Option Nat) (body : CmdBody) (tc : Bool) :
    s.engine c fs ctr q body tc = s.checked c (fs ++ c.exF ((q.map fun a => a % 8 != 0).getD false) .align) fun s =>
      if !s.quiet c.g || s.acquiring c.g || (tc && decide (16 ≤ (s.core c.core).tcq.length)) then s.holdBack c
      else s.afterCommit c fun s => s.handEngine c ctr q body tc := rfl

theorem State.handEngine_added (u : State) (c : Ctx) (ctr : Nat) (q : Option Nat) (body : CmdBody) (tc : Bool) :
    EngineAdded ctr body q tc c u (u.handEngine c ctr q body tc) := by
  have hcore : ∀ k, (u.handEngine c ctr q body tc).core k =
      if k = c.core ∧ tc = true then { u.core c.core with tcq := (u.core c.core).tcq ++ [u.nseq] } else u.core k := by
    intro k
    cases tc with
    | false => simp; rfl
    | true =>
      simp only [and_true]
      exact State.core_modCore (u.putCmd { c.cmd u (some ctr) body with q := q }) c.core k fun k => { k with tcq := k.tcq ++ [u.nseq] }
  have hcmds : (u.handEngine c ctr q body tc).cmds = u.cmds.put u.nseq { c.cmd u (some ctr) body with q := q } := by
    cases tc <;> rfl
  have hself : (u.handEngine c ctr q body tc).cmds.find u.nseq = some { c.cmd u (some ctr) body with q := q } := by
    rw [hcmds, Tab.find_put_self]
  refine { cmd := ⟨_, hself, rfl, rfl, rfl, rfl, rfl, rfl⟩, counter := by rw [hself, Option.map_some], next := ?_, queue := fun k => ?_,
           others := fun id hid => by rw [hcmds, Tab.find_put_other _ _ hid], core := fun k => ?_, rest := ?_ }
  · cases tc <;> rfl
  · rw [hcore]
    split
    · next h => rw [h.1]
    · rfl
  · rw [hcore]
    split
    · next h => rw [h.1]
    · rfl
  · cases tc <;> rfl

theorem counterBad_iff {q : Option Nat} : (q.map fun a => a % 8 != 0).getD false = true ↔ ∃ a, q = some a ∧ a % 8 ≠ 0 := by
  cases q <;> simp

end

section
variable {i : Instr} {ctr : BitVec 4} {q : Ctx → Option Nat} {tc : Bool} {body : Ctx → CmdBody} {fs : Ctx → State → List Finding}
  (hx : ∀ s, exec i s = word i s fun c s => s.engine c (fs c s) ctr.toNat (q c) (body c) tc)
include hx

/-- An engine word whose checks pass. -/
theorem EngineLaw.of_engine {ok : Ctx → State → Prop} (hok : ∀ c s, ok c s → fs c s = []) : EngineLaw i ctr ok q tc body := by
  have hgo : ∀ {s c}, s.ctx? = some c → wellFormed i = true → ok c s → (∀ a, q c = some a → a % 8 = 0) → exec i s = .next
      (if !s.quiet c.g || s.acquiring c.g || (tc && decide (16 ≤ (s.core c.core).tcq.length)) then s.holdBack c
        else s.afterCommit c fun s => s.handEngine c ctr.toNat (q c) (body c) tc) := by
    intro s c hc hw ho hq
    refine (hx s).trans ((word_next _ hc hw).trans (congrArg _ ?_))
    have hb : ((q c).map fun a => a % 8 != 0).getD false = false := by
      rw [← Bool.not_eq_true, counterBad_iff]
      exact fun ⟨a, ha, h⟩ => h (hq a ha)
    rw [State.engine_eq, hok c s ho, Ctx.exF_nil _ hb, List.append_nil, State.checked_nil]
  refine ⟨?_, ?_, ?_⟩
  · intro s c hc hw ⟨ho, hq, hquiet, hacq, hroom, hm⟩
    have hfree : ¬ (!s.quiet c.g || s.acquiring c.g || (tc && decide (16 ≤ (s.core c.core).tcq.length))) = true := by
      simpa [hquiet, hacq] using hroom
    exact ⟨_, (hgo hc hw ho hq).trans (congrArg _ ((if_neg hfree).trans (State.afterCommit_of hm _))), State.handEngine_added ..⟩
  · intro s c hc hw ⟨ho, a, ha, hne⟩
    refine ⟨_, (hx s).trans ((word_next _ hc hw).trans (congrArg _ ?_)), rfl⟩
    rw [State.engine_eq, hok c s ho, Ctx.exF_of _ (counterBad_iff.mpr ⟨a, ha, hne⟩), List.nil_append]
    rfl
  · intro s c hc hw ⟨ho, hq, h⟩
    refine ⟨_, (hgo hc hw ho hq).trans (congrArg _ ?_), rfl⟩
    by_cases hb : (!s.quiet c.g || s.acquiring c.g || (tc && decide (16 ≤ (s.core c.core).tcq.length))) = true
    · exact if_pos hb
    · refine (if_neg hb).trans (State.afterCommit_held ?_ _)
      simp only [Bool.or_eq_true, Bool.not_eq_true', Bool.and_eq_true, decide_eq_true_eq, not_or] at hb
      obtain ⟨⟨hquiet, hacq⟩, hroom⟩ := hb
      exact ((h.resolve_left hquiet).resolve_left hacq).resolve_left hroom

/-- An engine word whose best finding is `k`. -/
theorem Runs.of_engineFinds {ok : Ctx → State → Prop} {k : Cause} {r : Nat}
    (hk : ∀ c s, ok c s → ⟨r, k, c.exMask⟩ ∈ fs c s ∧ ∀ f ∈ fs c s, f = ⟨r, k, c.exMask⟩ ∨ r < f.rank)
    (hr : k = .align ∧ r = Cause.rank .align ∨ r < Cause.rank .align) : Runs i ok (Raises k r Ctx.exMask) := by
  intro s c hc hw ho
  refine ⟨_, (hx s).trans (word_next _ hc hw), ?_⟩
  obtain ⟨hmem, hall⟩ := hk c s ho
  rw [State.engine_eq]
  refine State.checked_of_best (f := ⟨r, k, c.exMask⟩) (bestFinding_least (List.mem_append_left _ hmem) fun f hf => ?_) _
  obtain hf | hf := List.mem_append.mp hf
  · exact hall f hf
  · obtain ⟨-, rfl⟩ := Ctx.mem_exF.mp hf
    obtain ⟨rfl, rfl⟩ | hlt := hr
    · exact .inl rfl
    · exact .inr hlt

/-! ## Words refused for their form, their reservation record or an address -/

variable {ill fmt off : Ctx → State → Prop}
  (hm : ∀ c s f, f ∈ fs c s ↔ (ill c s ∧ f = ⟨6, .illegal, c.exMask⟩) ∨ (fmt c s ∧ f = ⟨Cause.rank .fmt, .fmt, c.exMask⟩) ∨
    (off c s ∧ f = ⟨Cause.rank .align, .align, c.exMask⟩))
include hm

theorem EngineLaw.of_findings {ok : Ctx → State → Prop} (hok : ∀ c s, ok c s → ¬ ill c s ∧ ¬ fmt c s ∧ ¬ off c s) :
    EngineLaw i ctr ok q tc body := by
  refine .of_engine hx fun c s ho => List.eq_nil_iff_forall_not_mem.mpr fun f hf => ?_
  obtain ⟨h1, h2, h3⟩ := hok c s ho
  obtain h | h | h := (hm c s f).mp hf
  · exact h1 h.1
  · exact h2 h.1
  · exact h3 h.1

theorem Runs.of_illegal {ok : Ctx → State → Prop} (hok : ∀ c s, ok c s → ill c s) : Runs i ok (Raises .illegal 6 Ctx.exMask) := by
  refine .of_engineFinds hx (fun c s ho => ⟨(hm c s _).mpr (.inl ⟨hok c s ho, rfl⟩), fun f hf => ?_⟩) (.inr (by decide))
  obtain ⟨-, rfl⟩ | ⟨-, rfl⟩ | ⟨-, rfl⟩ := (hm c s f).mp hf
  · exact .inl rfl
  · exact .inr (show 6 < Cause.rank .fmt by decide)
  · exact .inr (show 6 < Cause.rank .align by decide)

theorem Runs.of_fmt {ok : Ctx → State → Prop} (hok : ∀ c s, ok c s → ¬ ill c s ∧ fmt c s) :
    Runs i ok (Raises .fmt (Cause.rank .fmt) Ctx.exMask) := by
  refine .of_engineFinds hx (fun c s ho => ⟨(hm c s _).mpr (.inr (.inl ⟨(hok c s ho).2, rfl⟩)), fun f hf => ?_⟩) (.inr (by decide))
  obtain ⟨h, rfl⟩ | ⟨-, rfl⟩ | ⟨-, rfl⟩ := (hm c s f).mp hf
  · exact absurd h (hok c s ho).1
  · exact .inl rfl
  · exact .inr (show Cause.rank .fmt < Cause.rank .align by decide)

theorem Runs.of_align {ok : Ctx → State → Prop} (hok : ∀ c s, ok c s → ¬ ill c s ∧ ¬ fmt c s ∧ off c s) :
    Runs i ok (Raises .align (Cause.rank .align) Ctx.exMask) := by
  refine .of_engineFinds hx (fun c s ho => ⟨(hm c s _).mpr (.inr (.inr ⟨(hok c s ho).2.2, rfl⟩)), fun f hf => ?_⟩) (.inl ⟨rfl, rfl⟩)
  obtain ⟨h1, h2, -⟩ := hok c s ho
  obtain ⟨h, rfl⟩ | ⟨h, rfl⟩ | ⟨-, rfl⟩ := (hm c s f).mp hf
  · exact absurd h h1
  · exact absurd h h2
  · exact .inl rfl

end

/-! ## The words -/

theorem exec_tcLd (r o t : BitVec 5) (x : BitVec 4) (q : BitVec 1) (s : State) : exec (.tcLd r o t x q) s = word (.tcLd r o t x q) s fun c s =>
    s.engine c (c.tcF false (c.shapeRun r) (c.kr o.toNat) (c.kr (o.toNat + 1)).toNat) x.toNat (c.quad t q)
      (.tcLd (c.shapeRun r) (c.kr o.toNat) (c.kr (o.toNat + 1)).toNat) true := rfl

theorem exec_tcSt (r o t : BitVec 5) (x : BitVec 4) (q : BitVec 1) (s : State) : exec (.tcSt r o t x q) s = word (.tcSt r o t x q) s fun c s =>
    s.engine c (c.tcF true (c.shapeRun r) (c.kr o.toNat) (c.kr (o.toNat + 1)).toNat) x.toNat (c.quad t q)
      (.tcSt (c.shapeRun r) (c.kr o.toNat) (c.kr (o.toNat + 1)).toNat) true := rfl

theorem exec_tcMcast (r o t : BitVec 5) (x : BitVec 4) (q : BitVec 1) (s : State) :
    exec (.tcMcast r o t x q) s = word (.tcMcast r o t x q) s fun c s =>
      s.engine c (c.tcF false (c.shapeRun r) (c.kr o.toNat) (c.kr (o.toNat + 1)).toNat ++ c.exIll (s.badMembers c (c.kr (o.toNat + 2))))
        x.toNat (c.quad t q) (.tcMcast (c.shapeRun r) (c.kr o.toNat) (c.kr (o.toNat + 1)).toNat (c.kr (o.toNat + 2))) true := rfl

/-- Whether the switch word of a bus send is refused (R183, R370). -/
def Ctx.badBus (c : Ctx) (col : Bool) (w : DWord) : Bool :=
  bits w 16 48 != 0 || bits w 0 12 == 0 || (col && bits w 4 8 != 0) ||
    (busCores c.core col (bits w 0 12)).any fun d => d == c.core || !c.la.inRect d

theorem State.busSend_eq (s : State) (c : Ctx) (col : Bool) (r o t : BitVec 5) (x : BitVec 4) (q : BitVec 1) : s.busSend c col r o t x q =
    s.engine c (c.exIll (c.badBus col (c.kr (o.toNat + 1))) ++ c.recordF (c.kr o.toNat) ++ c.exF ((c.kr r.toNat).toNat % 128 != 0) .align)
      x.toNat (c.quad t q) (.bus col (c.kr r.toNat).toNat (c.kr o.toNat) (bits (c.kr (o.toNat + 1)) 0 12) (bits (c.kr (o.toNat + 1)) 12 4))
      true := rfl

theorem exec_rvSend (r o t : BitVec 5) (x : BitVec 4) (s : State) : exec (.rvSend r o t x) s = word (.rvSend r o t x) s fun c s =>
    s.engine c (c.exIll (bits (c.kr r.toNat) 32 32 != 0 || bits (c.kr r.toNat) 28 2 == 3 || bits (c.kr r.toNat) 30 2 == 3) ++
        c.exF ((c.kr o.toNat).toNat % 128 != 0 || (c.kr (o.toNat + 1)).toNat % 128 != 0) .align)
      x.toNat (some (c.kr t.toNat).toNat) (.rvSend (c.kr r.toNat) (c.kr o.toNat).toNat (c.kr (o.toNat + 1)).toNat) false := rfl

theorem Ctx.mem_recordF {c : Ctx} {w : DWord} {f : Finding} : f ∈ c.recordF w ↔
    (recCause w = .illegal ∧ f = ⟨6, .illegal, c.exMask⟩) ∨ (recCause w = .fmt ∧ f = ⟨Cause.rank .fmt, .fmt, c.exMask⟩) := by
  have h : recCause w = .illegal ∨ recCause w = .fmt ∨ recCause w = .none := by
    unfold recCause
    split_ifs <;> simp
  unfold Ctx.recordF
  obtain h | h | h := h <;> rw [h] <;> simp [Ctx.mem_exIll, Ctx.mem_exF]

/-- What a tensor copy's checks find, `more` being the check of its members (R368). -/
theorem Ctx.mem_tcF {c : Ctx} {store more : Bool} {sh : List DWord} {org : DWord} {buf : Nat} {f : Finding} :
    f ∈ c.tcF store sh org buf ++ c.exIll more ↔
      (¬ (badShape sh = false ∧ tcOverlap store sh org buf = false ∧ more = false) ∧ f = ⟨6, .illegal, c.exMask⟩) ∨
      (False ∧ f = ⟨Cause.rank .fmt, .fmt, c.exMask⟩) ∨
      (¬ (shBase sh % shE sh = 0 ∧ buf % shE sh = 0) ∧ f = ⟨Cause.rank .align, .align, c.exMask⟩) := by
  simp only [Ctx.tcF, List.mem_append, Ctx.mem_exIll, Ctx.mem_exF, Bool.or_eq_true, bne_iff_ne]
  cases badShape sh <;> cases tcOverlap store sh org buf <;> cases more <;> simp <;> tauto

/-- A switch word that is not: its reserved bits clear, receivers named, all others' and in the launch rectangle (R183, R370). -/
def Ctx.goodBus (c : Ctx) (col : Bool) (w : DWord) : Prop :=
  bits w 16 48 = 0 ∧ bits w 0 12 ≠ 0 ∧ (col = true → bits w 4 8 = 0) ∧
    ∀ d ∈ busCores c.core col (bits w 0 12), d ≠ c.core ∧ c.la.inRect d = true

theorem Ctx.badBus_iff {c : Ctx} {col : Bool} {w : DWord} : c.badBus col w = true ↔ ¬ c.goodBus col w := by
  unfold Ctx.badBus Ctx.goodBus
  rw [← not_iff_not]
  simp [and_assoc]

/-- Settles O30. -/
theorem engineWords : Obligations.EngineWords := by
  unfold Obligations.EngineWords
  intro illegal align
  refine ⟨fun r o tt ctr q => ?_, fun r o tt ctr => ?_⟩
  · intro sh org buf qa copy
    have copies : ∀ {i : Instr} {store : Bool} {more : Ctx → State → Bool} {body : Ctx → CmdBody}
        (_ : ∀ s, exec i s = word i s fun c s => s.engine c (c.tcF store (sh c) (org c) (buf c) ++ c.exIll (more c s)) ctr.toNat (qa c)
          (body c) true), copy i store more body := by
      intro i store more body hx
      refine ⟨.of_findings hx (fun c s f => Ctx.mem_tcF) fun c s ⟨hg, ha⟩ => ⟨not_not.mpr hg, id, not_not.mpr ha⟩,
        .of_illegal hx (fun c s f => Ctx.mem_tcF) fun c s hg => hg,
        .of_align hx (fun c s f => Ctx.mem_tcF) fun c s ⟨hg, ha⟩ => ⟨not_not.mpr hg, id, ha⟩⟩
    have hnil : ∀ (c : Ctx) (store : Bool), c.tcF store (sh c) (org c) (buf c) = c.tcF store (sh c) (org c) (buf c) ++ c.exIll false :=
      fun c store => (List.append_nil _).symm
    refine ⟨copies fun s => ?_, copies fun s => ?_, copies (exec_tcMcast r o tt ctr q), ?_⟩
    · simp only [← hnil]
      exact exec_tcLd r o tt ctr q s
    · simp only [← hnil]
      exact exec_tcSt r o tt ctr q s
    · intro bus
      have sends : ∀ {i : Instr} {col : Bool} (_ : ∀ s, exec i s = word i s fun c s => s.busSend c col r o tt ctr q), bus i col := by
        intro i col hx
        have hx : ∀ s, exec i s = word i s fun c s => s.engine c (c.exIll (c.badBus col (c.kr (o.toNat + 1))) ++ c.recordF (c.kr o.toNat) ++
            c.exF ((c.kr r.toNat).toNat % 128 != 0) .align) ctr.toNat (qa c) (.bus col (c.kr r.toNat).toNat (c.kr o.toNat)
              (bits (c.kr (o.toNat + 1)) 0 12) (bits (c.kr (o.toNat + 1)) 12 4)) true := hx
        have hm : ∀ (c : Ctx) (s : State) (f : Finding), f ∈ c.exIll (c.badBus col (c.kr (o.toNat + 1))) ++ c.recordF (c.kr o.toNat) ++
              c.exF ((c.kr r.toNat).toNat % 128 != 0) .align ↔
            ((¬ c.goodBus col (c.kr (o.toNat + 1)) ∨ recCause (c.kr o.toNat) = .illegal) ∧ f = ⟨6, .illegal, c.exMask⟩) ∨
            (recCause (c.kr o.toNat) = .fmt ∧ f = ⟨Cause.rank .fmt, .fmt, c.exMask⟩) ∨
            ((c.kr r.toNat).toNat % 128 ≠ 0 ∧ f = ⟨Cause.rank .align, .align, c.exMask⟩) := by
          intro c s f
          rw [List.mem_append, List.mem_append, Ctx.mem_exIll, Ctx.mem_exF, Ctx.mem_recordF, Ctx.badBus_iff, bne_iff_ne]
          tauto
        have hgood : ∀ {c : Ctx} {k : Cause}, k ≠ .illegal → c.goodBus col (c.kr (o.toNat + 1)) → recCause (c.kr o.toNat) = k →
            ¬ (¬ c.goodBus col (c.kr (o.toNat + 1)) ∨ recCause (c.kr o.toNat) = .illegal) :=
          fun hk hg hr h => h.elim (fun h => h hg) fun h => hk (hr.symm.trans h)
        refine ⟨.of_findings hx hm ?_, .of_illegal hx hm fun _ _ h => h, .of_fmt hx hm ?_, .of_align hx hm ?_⟩
        · exact fun c s ⟨hg, hr, ha⟩ => ⟨hgood Cause.noConfusion hg hr, fun h => Cause.noConfusion (hr.symm.trans h), not_not.mpr ha⟩
        · exact fun c s ⟨hg, hr⟩ => ⟨hgood Cause.noConfusion hg hr, hr⟩
        · exact fun c s ⟨hg, hr, ha⟩ => ⟨hgood Cause.noConfusion hg hr, fun h => Cause.noConfusion (hr.symm.trans h), ha⟩
      exact ⟨sends fun _ => rfl, sends fun _ => rfl⟩
  · intro w good al
    have hm : ∀ (c : Ctx) (s : State) (f : Finding), f ∈ c.exIll (bits (c.kr r.toNat) 32 32 != 0 || bits (c.kr r.toNat) 28 2 == 3 ||
            bits (c.kr r.toNat) 30 2 == 3) ++ c.exF ((c.kr o.toNat).toNat % 128 != 0 || (c.kr (o.toNat + 1)).toNat % 128 != 0) .align ↔
        (¬ good c ∧ f = ⟨6, .illegal, c.exMask⟩) ∨ (False ∧ f = ⟨Cause.rank .fmt, .fmt, c.exMask⟩) ∨
        (¬ al c ∧ f = ⟨Cause.rank .align, .align, c.exMask⟩) := by
      intro c s f
      simp only [List.mem_append, Ctx.mem_exIll, Ctx.mem_exF, Bool.or_eq_true, bne_iff_ne, beq_iff_eq, good, al, w]
      tauto
    have hx := exec_rvSend r o tt ctr
    exact ⟨.of_findings hx hm fun c s ⟨hg, ha⟩ => ⟨not_not.mpr hg, id, not_not.mpr ha⟩, .of_illegal hx hm fun _ _ h => h,
      .of_align hx hm fun c s ⟨hg, ha⟩ => ⟨not_not.mpr hg, id, ha⟩⟩

end Sys2Proof.Machine
end

section
/-! PROOF. Stash instructions (R114, R310 to R312). -/

set_option Elab.async false

namespace Sys2Proof.Machine

/-! ## What stash lines leave -/

theorem State.dropCopy_pk (s : State) (a ln : Nat) : (s.dropCopy a ln).pk = s.pk := (State.setCopies_pk ..).trans (State.publishFrom_pk ..)

theorem State.publishFrom_lgs (s : State) (ln a : Nat) : (s.publishFrom ln a).lgs = s.lgs := (State.publishFrom_under s ln a).1.lgs

theorem State.dropCopies_pk (a : Nat) (lines : List Nat) (s : State) : (lines.foldl (fun s ln => s.dropCopy a ln) s).pk = s.pk :=
  foldl_keeps State.pk _ (fun s ln => s.dropCopy_pk a ln) lines s

theorem State.unmap_pk (s : State) (w e : Nat) : (s.unmap w e).pk = s.pk := by
  unfold State.unmap
  split
  · rfl
  · exact State.dropCopies_pk (192 + w) _ s

theorem State.invLine_pk (s : State) (w ln : Nat) : (s.invLine w ln).pk = s.pk := by
  unfold State.invLine
  split
  · rfl
  · dsimp only
    split
    · exact (State.setCopies_pk ..).trans (State.dropCopy_pk ..)
    · exact State.dropCopy_pk ..

theorem State.invLine_lgs (s : State) (w ln : Nat) : (s.invLine w ln).lgs = s.lgs := by
  unfold State.invLine
  split
  · rfl
  · dsimp only
    split
    · exact ((State.dropCopy_under ..).trans (State.setCopy_under ..)).1.lgs
    · exact (State.dropCopy_under ..).1.lgs

/-- An entry that is unmapped is no longer in its workgroup's table (R114). -/
theorem State.find_unmap {s : State} {w : Nat} {g : Wg} (h : s.wgs.find w = some g) (e : Nat) :
    ∃ g', (s.unmap w e).wgs.find w = some g' ∧ g'.maps.find e = none := by
  unfold State.unmap
  rw [h]
  dsimp only
  set u := (g.entryLines e).foldl (fun s ln => s.dropCopy (192 + w) ln) s
  have hu : Under s u := Under.foldl _ (fun s ln => State.dropCopy_under s (192 + w) ln) _ _
  have hw := hu.1.wg w
  rw [h] at hw
  obtain ⟨g', hg', -⟩ := Option.map_eq_some_iff.mp hw
  exact ⟨_, State.find_modWg_self _ hg', by rw [Tab.find_del, if_pos rfl]⟩

/-! ## The shape of stash words -/

/-- A memory word whose effect is `t`. -/
theorem memWord_next_eq {i : Instr} {s t : State} {c : Ctx} {f : Ctx → State → State} (h : s.ctx? = some c) (hw : wellFormed i = true)
    (hf : f c s = t) (hu : t.pk.stall = true → s.pk.stall = true) : memWord i s f = .next t := by
  subst hf
  exact memWord_next f h hw hu

section
variable {i : Instr} {s : State} {c : Ctx} {ctr : BitVec 4} {chk : Ctx → List Finding} {f : Ctx → State → State}

/-- Nothing of the lane group is outstanding, and no acquire holds it. -/
abbrev StashFree (c : Ctx) (s : State) : Prop := s.acquiring c.g = false ∧ s.quiet c.g = true

theorem stashWord_ready (h : s.ctx? = some c) (hw : wellFormed i = true) (hchk : chk c = []) (hf : StashFree c s) (he : c.em ≠ 0)
    (hpk : (f c s).pk.stall = true → s.pk.stall = true) : stashWord i s ctr chk f = .next (f c s) := by
  refine memWord_next_eq h hw ?_ hpk
  rw [if_neg he, hchk, State.checked_nil, if_neg (by simp [hf]), if_neg he]

theorem stashWord_held (h : s.ctx? = some c) (hw : wellFormed i = true) (hchk : c.em ≠ 0 → chk c = []) (hf : ¬ StashFree c s) :
    stashWord i s ctr chk f = .next (s.holdBack c) := by
  refine memWord_next_eq h hw ?_ id
  have hc : (if c.em = 0 then [] else chk c) = [] := by
    split
    · rfl
    · next e => exact hchk e
  rw [hc, State.checked_nil, if_pos]
  by_contra hn
  exact hf (by simpa using hn)

theorem stashWord_idle (h : s.ctx? = some c) (hw : wellFormed i = true) (hf : StashFree c s) (he : c.em = 0) :
    stashWord i s ctr chk f = .next (s.addCtr c.g ctr.toNat 1) := by
  refine memWord_next_eq h hw ?_ id
  rw [if_pos he, State.checked_nil, if_neg (by simp [hf]), if_pos he]

theorem stashWord_finds {x : Finding} (h : s.ctx? = some c) (hw : wellFormed i = true) (he : c.em ≠ 0) (hchk : bestFinding (chk c) = some x) :
    stashWord i s ctr chk f = .next (s.takeTrap c (s.restartTrap x.cause x.rank x.fm)) := by
  refine memWord_next_eq h hw ?_ State.takeTrap_stall
  rw [if_neg he, State.checked_of_best hchk]

end

/-! ## Addresses past bit 56 -/

/-- Lanes whose addresses pass bit 56 (R105). -/
def farLanes (ps : List (Nat × Nat)) : List LaneAddr := ps.map fun p => ⟨p.1, p.2, .fail .xlatPerm none 0 false⟩

/-- Lanes whose addresses pass bit 56 replay (R105, R146). -/
theorem State.replayTrap_far (s : State) {ps : List (Nat × Nat)} (h : ps ≠ []) : ∃ t, s.replayTrap (farLanes ps) none = some t ∧
    t.cause = .xlatPerm ∧ t.replaying = true ∧ t.fm = maskOf (ps.map (·.1)) := by
  have hall : ∀ x ∈ farLanes ps, x.cause = .xlatPerm := by
    intro x hx
    obtain ⟨p, -, rfl⟩ := List.mem_map.mp hx
    rfl
  have hbad : ((farLanes ps).filter fun x => x.cause != .none) = farLanes ps :=
    List.filter_eq_self.mpr fun x hx => by rw [hall x hx]; rfl
  obtain ⟨p, r, rfl⟩ := List.exists_cons_of_ne_nil h
  have hbest : bestCause ((farLanes (p :: r)).map LaneAddr.cause) = .xlatPerm := by
    have hm : ∀ k ∈ (farLanes (p :: r)).map LaneAddr.cause, k = .xlatPerm := by
      intro k hk
      obtain ⟨x, hx, rfl⟩ := List.mem_map.mp hk
      exact hall x hx
    exact hm _ (bestCause_mem (k := .xlatPerm) (ks := (farLanes r).map LaneAddr.cause) fun x hx => by rw [hm x hx]; decide)
  unfold State.replayTrap
  extract_lets bad k
  have hk : k = .xlatPerm := (congrArg (fun l => bestCause (l.map LaneAddr.cause)) hbad).trans hbest
  have hb : bad = farLanes (p :: r) := hbad
  rw [hk, hb]
  refine ⟨_, rfl, rfl, rfl, ?_⟩
  show maskOf ((farLanes (p :: r)).map (·.lane)) = _
  rw [farLanes, List.map_map]
  rfl

/-! ## Maps -/

/-- What the check of a map's word finds (R310). -/
def Ctx.mapF (c : Ctx) (a va : Nat) : List Finding :=
  c.regF (maskOf c.once) a ++ (if 256 < va % 512 || va / 512 % 8 ≠ 0 then [⟨6, .illegal, maskOf c.once⟩] else [])

/-- What a map does to its workgroup's table (R114, R310). -/
def State.remapped (s : State) (c : Ctx) (e va : Nat) : State :=
  if va % 512 = 0 then s.unmap c.lg.wg e
  else if s.mapFits c.wg e (va / 4096 * 4096) (va % 512) then
    (s.unmap c.lg.wg e).modWg c.lg.wg fun y => { y with maps := y.maps.put e ⟨va / 4096 * 4096, va % 512⟩ }
  else s

/-- Whether a map takes effect. -/
def State.mapTakes (s : State) (c : Ctx) (e va : Nat) : Bool := va % 512 = 0 || s.mapFits c.wg e (va / 4096 * 4096) (va % 512)

/-- A map of the entry `e` at an address (R310). -/
def State.mapEntry (s : State) (c : Ctx) (ctr p e va : Nat) : State :=
  if 2 ^ 57 ≤ va then
    match s.replayTrap (farLanes [(c.exLane, va)]) none with
    | none => s
    | some t => s.takeTrap c t
  else if s.mapTakes c e va && s.entryBusy c.lg.wg c.wg e then s.holdBack c
  else ((s.remapped c e va).up c fun l => l.setQ p (allQ (s.mapTakes c e va))).addCtr c.g ctr 1

theorem exec_stashMap (ctr : BitVec 4) (p : BitVec 3) (e : BitVec 2) (g : BitVec 3) (a : BitVec 6) (s : State) :
    exec (.stashMap ctr p e g a) s = stashWord (.stashMap ctr p e g a) s ctr
      (fun c => c.mapF a.toNat (c.addr g.toNat a.toNat 0 c.exLane)) fun c s =>
        s.mapEntry c ctr.toNat p.toNat e.toNat (c.addr g.toNat a.toNat 0 c.exLane) := rfl

section
variable {s : State} {c : Ctx}

theorem lanesOf_eq_nil {m : Word} : lanesOf m = [] ↔ m = 0 := by
  refine ⟨fun h => BitVec.eq_of_getLsbD_eq fun j hj => ?_, fun h => h ▸ rfl⟩
  have hn : j ∉ lanesOf m := h ▸ List.not_mem_nil
  simpa [mem_lanesOf, hj] using hn

theorem Ctx.maskOf_once (h : c.em ≠ 0) : maskOf c.once = 1#32 <<< c.exLane := by
  unfold Ctx.once Ctx.exLane
  cases hl : c.lanes with
  | nil => exact absurd (lanesOf_eq_nil.mp hl) h
  | cons j r => simp [maskOf]

theorem Ctx.addr_zero (c : Ctx) (kb a lane : Nat) : c.addr kb a 0 lane = (c.kr kb + (c.v a lane).signExtend 64).toNat := by
  simp [Ctx.addr]

theorem State.remapped_pk (e va : Nat) : (s.remapped c e va).pk = s.pk := by
  unfold State.remapped
  split_ifs
  · exact s.unmap_pk ..
  · exact s.unmap_pk ..
  · rfl

theorem State.remapped_lgs (e va : Nat) : (s.remapped c e va).lgs = s.lgs := by
  unfold State.remapped
  split_ifs
  · exact s.unmap_lgs ..
  · exact s.unmap_lgs ..
  · rfl

/-- A map that finds no fault in its address and nothing in use answers its outcome. -/
theorem State.mapEntry_takes {ctr p e va : Nat} (hva : va < 2 ^ 57) (hb : s.mapTakes c e va = true → s.entryBusy c.lg.wg c.wg e = false) :
    s.mapEntry c ctr p e va = ((s.remapped c e va).up c fun l => l.setQ p (allQ (s.mapTakes c e va))).addCtr c.g ctr 1 := by
  refine (if_neg (Nat.not_le.mpr hva)).trans (if_neg fun h => ?_)
  obtain ⟨h1, h2⟩ := (Bool.and_eq_true _ _).mp h
  rw [hb h1] at h2
  cases h2

theorem State.mapEntry_busy {ctr p e va : Nat} (hva : va < 2 ^ 57) (ht : s.mapTakes c e va = true)
    (hb : s.entryBusy c.lg.wg c.wg e = true) : s.mapEntry c ctr p e va = s.holdBack c :=
  (if_neg (Nat.not_le.mpr hva)).trans (if_pos ((Bool.and_eq_true _ _).mpr ⟨ht, hb⟩))

theorem State.mapEntry_far {ctr p e va : Nat} (hva : 2 ^ 57 ≤ va) : ∃ tr : Trap, tr.cause = .xlatPerm ∧ tr.fm = 1#32 <<< c.exLane ∧
    tr.replaying = true ∧ s.mapEntry c ctr p e va = s.takeTrap c tr := by
  obtain ⟨tr, htr, hcause, hrep, hfm⟩ := s.replayTrap_far (ps := [(c.exLane, va)]) (List.cons_ne_nil _ _)
  refine ⟨tr, hcause, hfm.trans (by simp [maskOf]), hrep, (if_pos hva).trans ?_⟩
  rw [htr]

theorem State.remapped_not {e va : Nat} (h : s.mapTakes c e va = false) : s.remapped c e va = s := by
  obtain ⟨h1, h2⟩ := Bool.or_eq_false_iff.mp h
  unfold State.remapped
  rw [if_neg (of_decide_eq_false h1), if_neg (by simp [h2])]

theorem State.find_remapped {e va : Nat} (hwg : s.wgs.find c.lg.wg = some c.wg) (h : s.mapTakes c e va = true) :
    (∃ w', (s.remapped c e va).wgs.find c.lg.wg = some w' ∧
      w'.maps.find e = if va % 512 = 0 then none else some ⟨va / 4096 * 4096, va % 512⟩) ∧
    (s.remapped c e va).mem = (s.unmap c.lg.wg e).mem := by
  obtain ⟨w', hw', hm⟩ := State.find_unmap hwg e
  unfold State.remapped
  split
  · exact ⟨⟨w', hw', hm⟩, rfl⟩
  · next hn =>
    have hf : s.mapFits c.wg e (va / 4096 * 4096) (va % 512) = true := by
      have h' := h
      unfold State.mapTakes at h'
      simpa [hn] using h'
    rw [if_pos hf]
    exact ⟨⟨_, State.find_modWg_self _ hw', Tab.find_put_self ..⟩, rfl⟩

/-- The lane group of a map that has answered (R310). -/
theorem State.find_mapped {u : State} {ctr p : Nat} {v : Word} (h : s.ctx? = some c) (hu : u.lgs = s.lgs) :
    let t := (u.up c fun l => l.setQ p v).addCtr c.g ctr 1
    (∃ l', t.lgs.find c.g = some l' ∧ l'.qAt p = v ∧ l'.cAt ctr = c.lg.cAt ctr + 1 ∧ l' = { c.lg with q := l'.q, c := l'.c }) ∧
      (∀ k, k ≠ c.g → t.lgs.find k = s.lgs.find k) ∧ t.wgs = u.wgs ∧ t.mem = u.mem := by
  have hl : (u.up c fun l => l.setQ p v).lgs.find c.g = some (c.lg.setQ p v) := State.find_up h hu _
  refine ⟨⟨_, State.find_modLg_self _ hl, ?_, ?_, rfl⟩, fun k hk => ?_, rfl, rfl⟩
  · exact Lg.setQ_qAt ..
  · exact (Tab.getD_setD ..).trans (if_pos rfl)
  · refine (State.find_modLg ..).trans ((if_neg hk).trans ?_)
    exact (State.find_modLg ..).trans ((if_neg hk).trans (by rw [hu]))

end

/-! ## Lines that addresses or entries select -/

section
variable {s : State} {c : Ctx} {g : BitVec 3} {a : BitVec 6} {f : State → Nat → State}

/-- The address of a lane of a stash word (R311). -/
def Ctx.stashVa (c : Ctx) (g : BitVec 3) (a : BitVec 6) (j : Nat) : Nat := (c.kr g.toNat + (c.v a.toNat j).signExtend 64).toNat

/-- The lanes of a stash word whose addresses pass bit 56, with those addresses (R105). -/
def Ctx.farOf (c : Ctx) (g : BitVec 3) (a : BitVec 6) : List (Nat × Nat) :=
  (c.lanes.map fun i => (i, c.stashVa g a i)).filter fun p => decide (2 ^ 57 ≤ p.2)

theorem Ctx.farOf_lanes (c : Ctx) (g : BitVec 3) (a : BitVec 6) : (c.farOf g a).map (·.1) =
    c.lanes.filter fun j => decide (2 ^ 57 ≤ c.stashVa g a j) := by
  unfold Ctx.farOf
  rw [List.filter_map, List.map_map]
  exact List.map_id _

theorem State.onStashLines_eq (ctr : Nat) : s.onStashLines c g a ctr f =
    match ((c.stashLines g a).foldl f s).replayTrap (farLanes (c.farOf g a)) none with
    | none => ((c.stashLines g a).foldl f s).addCtr c.g ctr 1
    | some t => ((c.stashLines g a).foldl f s).takeTrap c t := by
  have h : (fun i => (i, c.addr g.toNat a.toNat 0 i)) = fun i => (i, c.stashVa g a i) := funext fun i => by rw [c.addr_zero]; rfl
  unfold State.onStashLines
  rw [h]
  rfl

theorem State.onStashLines_low (ctr : Nat) (h : c.farOf g a = []) :
    s.onStashLines c g a ctr f = ((c.stashLines g a).foldl f s).addCtr c.g ctr 1 := by
  rw [State.onStashLines_eq, h]
  rfl

theorem State.onStashLines_far (ctr : Nat) (h : c.farOf g a ≠ []) : ∃ tr : Trap, tr.cause = .xlatPerm ∧ tr.replaying = true ∧
    tr.fm = maskOf (c.lanes.filter fun j => decide (2 ^ 57 ≤ c.stashVa g a j)) ∧
    s.onStashLines c g a ctr f = ((c.stashLines g a).foldl f s).takeTrap c tr := by
  obtain ⟨tr, htr, hcause, hrep, hfm⟩ := ((c.stashLines g a).foldl f s).replayTrap_far h
  refine ⟨tr, hcause, hrep, hfm.trans (congrArg maskOf (c.farOf_lanes g a)), ?_⟩
  rw [State.onStashLines_eq, htr]

theorem Ctx.farOf_eq_nil : c.farOf g a = [] ↔ ∀ j ∈ c.lanes, c.stashVa g a j < 2 ^ 57 := by
  rw [← List.map_eq_nil_iff (f := (·.1)), c.farOf_lanes, List.filter_eq_nil_iff]
  exact forall₂_congr fun j _ => by rw [decide_eq_true_iff, Nat.not_le]

end

/-- What leaves the packet and the lane groups leaves them line by line. -/
theorem foldl_lines {f : State → Nat → State} (hpk : ∀ s ln, (f s ln).pk = s.pk) (hlg : ∀ s ln, (f s ln).lgs = s.lgs) (lines : List Nat)
    (s : State) : (lines.foldl f s).pk = s.pk ∧ (lines.foldl f s).lgs = s.lgs :=
  ⟨foldl_keeps State.pk f hpk lines s, foldl_keeps State.lgs f hlg lines s⟩

section
variable {i : Instr} {ctr : BitVec 4} {g : BitVec 3} {a : BitVec 6} {f : Ctx → State → Nat → State}
  (hx : ∀ s, exec i s = stashWord i s ctr (fun c => c.regF c.em a.toNat) fun c s => s.onStashLines c g a ctr.toNat (f c))
  (hpk : ∀ c s ln, (f c s ln).pk = s.pk)
include hx hpk

/-- A word on the lines that its lanes select (R311). -/
theorem runs_onStashLines (hlg : ∀ c s ln, (f c s ln).lgs = s.lgs) :
    Runs i (fun c s => (StashFree c s ∧ c.em ≠ 0) ∧ c.RegOk a.toNat ∧ ∀ j ∈ c.lanes, c.stashVa g a j < 2 ^ 57) fun c s t =>
      t = ((c.stashLines g a).foldl (f c) s).addCtr c.g ctr.toNat 1 ∧ ((c.stashLines g a).foldl (f c) s).lgs = s.lgs := by
  intro s c hc hw ⟨⟨hf, he⟩, hr, hlow⟩
  obtain ⟨hp, hl⟩ := foldl_lines (hpk c) (hlg c) (c.stashLines g a) s
  have ht : s.onStashLines c g a ctr.toNat (f c) = _ := State.onStashLines_low ctr.toNat (Ctx.farOf_eq_nil.mpr hlow)
  refine ⟨_, ((hx s).trans (stashWord_ready hc hw (Ctx.regF_nil hr) hf he ?_)).trans (congrArg _ ht), rfl, hl⟩
  rw [ht]
  exact fun h => hp ▸ h

/-- The same with lanes whose addresses pass bit 56: those replay (R105, R146). -/
theorem runs_onStashLines_far : Runs i (fun c s => (StashFree c s ∧ c.em ≠ 0) ∧ c.RegOk a.toNat ∧ ¬ ∀ j ∈ c.lanes, c.stashVa g a j < 2 ^ 57)
    fun c s t => ∃ tr : Trap, tr.cause = .xlatPerm ∧ tr.replaying = true ∧
      tr.fm = maskOf (c.lanes.filter fun j => decide (2 ^ 57 ≤ c.stashVa g a j)) ∧ t = ((c.stashLines g a).foldl (f c) s).takeTrap c tr := by
  intro s c hc hw ⟨⟨hf, he⟩, hr, hfar⟩
  have hp := foldl_keeps State.pk (f c) (hpk c) (c.stashLines g a) s
  obtain ⟨tr, hcause, hrep, hfm, ht⟩ := State.onStashLines_far (s := s) (f := f c) ctr.toNat fun h => hfar (Ctx.farOf_eq_nil.mp h)
  refine ⟨_, ((hx s).trans (stashWord_ready hc hw (Ctx.regF_nil hr) hf he ?_)).trans (congrArg _ ht), tr, hcause, hrep, hfm, rfl⟩
  rw [ht]
  exact fun h => hp ▸ State.takeTrap_stall h

end

/-- A word on the lines of an entry (R311). -/
theorem runs_entryLines {i : Instr} {ctr : BitVec 4} {e : BitVec 2} {f : Ctx → State → Nat → State}
    (hx : ∀ s, exec i s = stashWord i s ctr (fun _ => []) fun c s => ((c.wg.entryLines e.toNat).foldl (f c) s).addCtr c.g ctr.toNat 1)
    (hpk : ∀ c s ln, (f c s ln).pk = s.pk) (hlg : ∀ c s ln, (f c s ln).lgs = s.lgs) :
    Runs i (fun c s => StashFree c s ∧ c.em ≠ 0) fun c s t => t = ((c.wg.entryLines e.toNat).foldl (f c) s).addCtr c.g ctr.toNat 1 ∧
      ((c.wg.entryLines e.toNat).foldl (f c) s).lgs = s.lgs := by
  intro s c hc hw ⟨hf, he⟩
  obtain ⟨hp, hl⟩ := foldl_lines (hpk c) (hlg c) (c.wg.entryLines e.toNat) s
  exact ⟨_, (hx s).trans (stashWord_ready hc hw rfl hf he fun h => hp ▸ h), rfl, hl⟩

/-- When a stash word waits, and when it only counts. -/
theorem stashWord_waits {i : Instr} {ctr : BitVec 4} {chk : Ctx → List Finding} {f : Ctx → State → State} {ok : Ctx → Prop}
    (hx : ∀ s, exec i s = stashWord i s ctr chk f) (hok : ∀ c, ok c → chk c = []) :
    Runs i (fun c s => (c.em ≠ 0 → ok c) ∧ ¬ StashFree c s) Held ∧
      Runs i (fun c s => c.em = 0 ∧ StashFree c s) fun c s t => Counts ctr.toNat c s t :=
  ⟨fun s _ hc hw ⟨hk, hf⟩ => ⟨_, (hx s).trans (stashWord_held hc hw (fun he => hok _ (hk he)) hf), rfl⟩,
    fun s _ hc hw ⟨he, hf⟩ => ⟨_, (hx s).trans (stashWord_idle hc hw hf he), rfl⟩⟩

theorem exec_stashWb (ctr : BitVec 4) (g : BitVec 3) (a : BitVec 6) (s : State) : exec (.stashWb ctr g a) s =
    stashWord (.stashWb ctr g a) s ctr (fun c => c.regF c.em a.toNat) fun c s =>
      s.onStashLines c g a ctr.toNat fun s ln => s.publishFrom ln (192 + c.lg.wg) := rfl

theorem exec_stashInv (ctr : BitVec 4) (g : BitVec 3) (a : BitVec 6) (s : State) : exec (.stashInv ctr g a) s =
    stashWord (.stashInv ctr g a) s ctr (fun c => c.regF c.em a.toNat) fun c s =>
      s.onStashLines c g a ctr.toNat fun s ln => s.invLine c.lg.wg ln := rfl

theorem exec_stashWbE (ctr : BitVec 4) (e : BitVec 2) (s : State) : exec (.stashWbE ctr e) s =
    stashWord (.stashWbE ctr e) s ctr (fun _ => []) fun c s =>
      ((c.wg.entryLines e.toNat).foldl (fun s ln => s.publishFrom ln (192 + c.lg.wg)) s).addCtr c.g ctr.toNat 1 := rfl

theorem exec_stashInvE (ctr : BitVec 4) (e : BitVec 2) (s : State) : exec (.stashInvE ctr e) s =
    stashWord (.stashInvE ctr e) s ctr (fun _ => []) fun c s =>
      ((c.wg.entryLines e.toNat).foldl (fun s ln => s.invLine c.lg.wg ln) s).addCtr c.g ctr.toNat 1 := rfl

theorem exec_stashStg (ctr : BitVec 4) (d : BitVec 6) (s : State) : exec (.stashStg ctr d) s =
    stashWord (.stashStg ctr d) s ctr (fun _ => []) fun c s =>
      (s.up c fun l => l.wrV c.em d.toNat fun _ => c.stgWord s).addCtr c.g ctr.toNat 1 := rfl

/-- Settles O20. -/
theorem stashWords : Obligations.StashWords := by
  unfold Obligations.StashWords
  intro free ready waits
  refine ⟨fun ctr p e g a => ?map, fun ctr e g a d => ?lines⟩
  case map =>
    intro va ok fits
    have hx := exec_stashMap ctr p e g a
    have hva : ∀ c : Ctx, c.addr g.toNat a.toNat 0 c.exLane = va c := fun c => c.addr_zero ..
    simp only [hva] at hx
    have hnil : ∀ c, c.em ≠ 0 → ok c → c.mapF a.toNat (va c) = [] := by
      intro c he ⟨hex, h1, h2⟩
      unfold Ctx.mapF
      rw [Ctx.maskOf_once he, Ctx.regF_exLane hex, if_neg (by simp [Nat.not_lt.mpr h1, h2])]
      rfl
    have goes : ∀ {s c t}, s.ctx? = some c → wellFormed (.stashMap ctr p e g a) = true → ready c s → ok c →
        s.mapEntry c ctr.toNat p.toNat e.toNat (va c) = t → (t.pk.stall = true → s.pk.stall = true) → exec (.stashMap ctr p e g a) s = .next t := by
      intro s c t hc hw ⟨hf, he⟩ hk ht hs
      subst ht
      exact (hx s).trans (stashWord_ready hc hw (hnil c he hk) hf he hs)
    refine ⟨?takes, ?busy, ?far, ?illegal, ?held, ?idle⟩
    case takes =>
      intro s c hc hw ⟨hr, hk, hlt, hb⟩
      obtain ⟨-, -, hwg, -⟩ := State.ctx?_spec hc
      have hrun := goes hc hw hr hk (State.mapEntry_takes hlt hb) fun h => (State.remapped_pk (s := s) (c := c) e.toNat (va c)) ▸ h
      obtain ⟨⟨l', hl', hq, hctr, hrest⟩, hothers, hwgs, hmem'⟩ := State.find_mapped (ctr := ctr.toNat) (p := p.toNat) (v := allQ (fits c s)) hc
        (State.remapped_lgs (s := s) (c := c) e.toNat (va c))
      cases hfit : fits c s with
      | false =>
        have hsame : s.remapped c e.toNat (va c) = s := State.remapped_not hfit
        refine ⟨_, hrun, l', c.wg, hl', ?_, hq.trans (by rw [hfit]; rfl), hctr, hrest, hothers, fun _ => ⟨rfl, ?_⟩,
          fun h => Bool.noConfusion (hfit.symm.trans h)⟩
        · rw [hsame]
          exact hwg
        · rw [hsame]
          rfl
      | true =>
        obtain ⟨⟨w', hw', hm⟩, hmem⟩ := State.find_remapped hwg hfit
        refine ⟨_, hrun, l', w', hl', (congrArg (fun t => Tab.find t c.lg.wg) hwgs).trans hw', hq.trans ?_, hctr, hrest, hothers, ?_, ?_⟩
        · rw [hfit]
          rfl
        · exact fun h => Bool.noConfusion (hfit.symm.trans h)
        · exact fun _ => ⟨hm, hmem'.trans hmem⟩
    case busy =>
      intro s c hc hw ⟨hr, hk, hlt, hfit, hb⟩
      refine ⟨_, goes (t := s.holdBack c) hc hw hr hk (State.mapEntry_busy hlt hfit hb) id, rfl⟩
    case far =>
      intro s c hc hw ⟨hr, hk, hge⟩
      obtain ⟨tr, hcause, hfm, hrep, ht⟩ := State.mapEntry_far (s := s) (c := c) (ctr := ctr.toNat) (p := p.toNat) (e := e.toNat) hge
      exact ⟨_, goes hc hw hr hk ht State.takeTrap_stall, tr, hcause, hfm, hrep, rfl⟩
    case illegal =>
      intro s c hc hw ⟨he, hex, hbad⟩
      have hbest : bestFinding (c.mapF a.toNat (va c)) = some ⟨6, .illegal, 1#32 <<< c.exLane⟩ := by
        unfold Ctx.mapF
        rw [Ctx.maskOf_once he, Ctx.regF_exLane hex, if_pos (by simpa using hbad)]
        rfl
      exact ⟨_, (hx s).trans (stashWord_finds hc hw he hbest), rfl⟩
    case held =>
      exact fun s c hc hw ⟨hk, hf⟩ => ⟨_, (hx s).trans (stashWord_held hc hw (fun he => hnil c he (hk he)) hf), rfl⟩
    case idle => exact fun s c hc hw ⟨he, hf⟩ => ⟨_, (hx s).trans (stashWord_idle hc hw hf he), rfl⟩
  case lines =>
    intro counts va low high
    have hreg : ∀ c : Ctx, c.RegOk a.toNat → c.regF c.em a.toNat = [] := fun c => Ctx.regF_nil
    have hnone : ∀ c : Ctx, True → ([] : List Finding) = [] := fun _ _ => rfl
    refine ⟨?wbFar, ?invFar, ?wb, ?wbE, ?inv, ?invE, ?stg, stashWord_waits (exec_stashWb ctr g a) hreg,
      stashWord_waits (exec_stashWbE ctr e) hnone, stashWord_waits (exec_stashInv ctr g a) hreg,
      stashWord_waits (exec_stashInvE ctr e) hnone, stashWord_waits (exec_stashStg ctr d) hnone⟩
    case wbFar => exact runs_onStashLines_far (exec_stashWb ctr g a) fun _ _ _ => State.publishFrom_pk ..
    case invFar => exact runs_onStashLines_far (exec_stashInv ctr g a) fun _ _ _ => State.invLine_pk ..
    case wb => exact runs_onStashLines (exec_stashWb ctr g a) (fun _ _ _ => State.publishFrom_pk ..) fun _ _ _ => State.publishFrom_lgs ..
    case wbE => exact runs_entryLines (exec_stashWbE ctr e) (fun _ _ _ => State.publishFrom_pk ..) fun _ _ _ => State.publishFrom_lgs ..
    case inv => exact runs_onStashLines (exec_stashInv ctr g a) (fun _ _ _ => State.invLine_pk ..) fun _ _ _ => State.invLine_lgs ..
    case invE => exact runs_entryLines (exec_stashInvE ctr e) (fun _ _ _ => State.invLine_pk ..) fun _ _ _ => State.invLine_lgs ..
    case stg =>
      intro s c hc hw ⟨hf, he⟩
      refine ⟨_, (exec_stashStg ctr d s).trans (stashWord_ready hc hw rfl hf he id), _, ⟨_, ?_, State.up_eq hc _⟩, rfl⟩
      exact Lg.wrRes_laneWrite c.lg c.em 0 d.toNat (fun _ => c.stgWord s) fun h => absurd h (by decide)

end Sys2Proof.Machine
end

section
/-! SUPPORT. The issue of an access (R105, R106, R122, R146, R302): what its translations give, the parts that join it, the messages it
sends; and the two outcomes, an access on its way and a trap with the lanes that passed on their way. -/

set_option Elab.async false

namespace Sys2Proof.Machine

/-! ## What a translation gives -/

/-- A translation that fails names a cause. -/
structure XRes.Named (x : XRes) : Prop where
  names : ∀ k, x = .bad k → k ≠ .none

theorem XRes.Named.of_ne {x : XRes} (h : ∀ k, x ≠ .bad k) : x.Named := ⟨fun k e => absurd e (h k)⟩

theorem XRes.named_perm : (XRes.bad .xlatPerm).Named := ⟨fun _ e => by cases e; decide⟩

theorem XRes.named_nr : (XRes.bad .xlatNr).Named := ⟨fun _ e => by cases e; decide⟩

theorem State.judge_named (s : State) (e : TlbEnt) (va need : Nat) : (s.judge e va need).Named := by
  unfold State.judge
  extract_lets off
  split_ifs
  · exact XRes.named_nr
  · exact XRes.named_perm
  all_goals exact .of_ne fun _ => XRes.noConfusion

theorem onWord_named (r : State × Option DWord) (bad : State → State × XRes) (k : State → DWord → State × XRes)
    (hb : ∀ t, (bad t).2.Named) (hk : ∀ t e, (k t e).2.Named) : (onWord r bad k).2.Named := by
  obtain ⟨t, _ | e⟩ := r
  · exact hb t
  · exact hk t e

theorem walkS1_named (part vf va need : Nat) : ∀ (l : List Level) (table : Nat) (s : State), (walkS1 part vf va need l table s).2.Named
  | [], _, s => XRes.named_perm
  | l :: r, table, s => by
    unfold walkS1
    extract_lets ipa q
    split
    · exact XRes.named_nr
    · split
      · exact .of_ne fun _ => XRes.noConfusion
      · refine onWord_named _ _ _ (fun t => XRes.named_perm) fun t e => ?_
        split
        · split
          · exact XRes.named_nr
          · split
            · exact XRes.named_perm
            · exact .of_ne fun _ => XRes.noConfusion
        · split
          · exact XRes.named_perm
          · split
            · exact walkS1_named part vf va need r _ _
            · split
              · exact XRes.named_perm
              · extract_lets ipa
                split <;> exact .of_ne fun _ => XRes.noConfusion

theorem State.xlate_named (s : State) (core part vf va need : Nat) : (s.xlate core part vf va need).2.Named := by
  unfold State.xlate
  split
  · exact State.judge_named ..
  · split
    · exact State.judge_named ..
    · split
      · exact State.judge_named ..
      · unfold State.walk
        extract_lets c
        split
        · exact XRes.named_perm
        · exact walkS1_named ..

theorem State.sameGranule_named (s : State) (v0 va need : Nat) {x : XRes} (h : x.Named) : (s.sameGranule v0 va need x).Named := by
  unfold State.sameGranule
  split
  · exact State.judge_named ..
  · exact .of_ne fun _ => XRes.noConfusion
  · exact .of_ne fun _ => XRes.noConfusion
  · exact h

theorem Tab.mem_put {α : Type} {k : Nat} {x : α} {p : Nat × α} : ∀ {t : Tab α}, p ∈ t.put k x → p = (k, x) ∨ p ∈ t
  | [], h => .inl (List.mem_singleton.mp h)
  | (j, y) :: r, h => by
    unfold Tab.put at h
    split at h
    · exact List.mem_cons.mp h
    · split at h
      · exact (List.mem_cons.mp h).imp_right (List.mem_cons_of_mem _)
      · obtain h | h := List.mem_cons.mp h
        · exact .inr (h ▸ List.mem_cons_self)
        · exact (Tab.mem_put h).imp_right (List.mem_cons_of_mem _)

theorem LaneAddr.cause_fail (lane va : Nat) (k : Cause) (p : Option Pending) (ipa : Nat) (t : Bool) :
    (LaneAddr.mk lane va (.fail k p ipa t)).cause = k := rfl

/-- An address without a cause has been translated. -/
def LaneAddr.Told (a : LaneAddr) : Prop := a.cause = .none → ∃ pa kid, a.res = .ok pa kid

theorem LaneAddr.told_of_named {lane va : Nat} {x : XRes} (h : x.Named) : (LaneAddr.mk lane va (x.lane va)).Told := by
  intro e
  cases x with
  | ok t => exact ⟨_, _, rfl⟩
  | ft p => exact Cause.noConfusion e
  | bad k => exact absurd e (h.names k rfl)
  | s2 ipa t => exact Cause.noConfusion e

theorem LaneAddr.told_of_check {lane va align : Nat} (h : addrCause align va ≠ .none) :
    (LaneAddr.mk lane va (.fail (addrCause align va) none 0 false)).Told := fun e => absurd e h

section
variable (c : Ctx) (align need : Nat)

/-- The lanes' addresses stand in what translating them gives. -/
theorem State.xlateLanes_places : ∀ (l : List (Nat × Nat)) (seen : Tab (Nat × XRes)) (s : State),
    (s.xlateLanes c align need seen l).2.map (fun a => (a.lane, a.va)) = l
  | [], _, _ => rfl
  | (lane, va) :: r, seen, s => by
    unfold State.xlateLanes
    split
    · exact congrArg (_ :: ·) (State.xlateLanes_places r seen s)
    · split
      · exact congrArg (_ :: ·) (State.xlateLanes_places r seen s)
      · exact congrArg (_ :: ·) (State.xlateLanes_places r _ _)

theorem State.xlateLanes_told : ∀ (l : List (Nat × Nat)) (seen : Tab (Nat × XRes)) (s : State),
    (∀ p ∈ seen, p.2.2.Named) → ∀ a ∈ (s.xlateLanes c align need seen l).2, a.Told
  | [], _, _, _ => by simp [State.xlateLanes]
  | (lane, va) :: r, seen, s, hs => by
    unfold State.xlateLanes
    split
    · next h => exact List.forall_mem_cons.mpr ⟨LaneAddr.told_of_check h, State.xlateLanes_told r seen s hs⟩
    · split
      · next v0 x hx =>
        have hn : x.Named := hs _ (Tab.mem_of_find hx)
        exact List.forall_mem_cons.mpr ⟨LaneAddr.told_of_named (s.sameGranule_named v0 va need hn), State.xlateLanes_told r seen s hs⟩
      · have hn := s.xlate_named c.core c.part c.vf va need
        refine List.forall_mem_cons.mpr ⟨LaneAddr.told_of_named hn, State.xlateLanes_told r _ _ fun p hp => ?_⟩
        obtain rfl | hp := Tab.mem_put hp
        · exact hn
        · exact hs p hp

/-- An address that its check refuses has the check's cause. -/
theorem State.xlateLanes_checked {k : Cause} (h : k ≠ .none) (l : List (Nat × Nat)) (seen : Tab (Nat × XRes)) (s : State) :
    ∀ a ∈ (s.xlateLanes c align need seen l).2, addrCause align a.va = k → a.cause = k := by
  induction l generalizing seen s with
  | nil => exact fun a ha => absurd ha List.not_mem_nil
  | cons p r ih =>
    obtain ⟨lane, va⟩ := p
    unfold State.xlateLanes
    split
    · exact List.forall_mem_cons.mpr ⟨fun e => (LaneAddr.cause_fail ..).trans e, ih seen s⟩
    · next hn =>
      have hv : addrCause align va ≠ k := fun e => hn (e ▸ h)
      split
      · exact List.forall_mem_cons.mpr ⟨fun e => absurd e hv, ih _ _⟩
      · exact List.forall_mem_cons.mpr ⟨fun e => absurd e hv, ih _ _⟩

end

/-! ## Messages -/

/-- The machine but for messages. -/
def State.unsent (s : State) : State := { s with pending := [], packs := [], ldirs := [], nseq := 0 }

/-- From `s` to `t` only messages have been sent. -/
structure Mails (s t : State) : Prop where
  unsent : t.unsent = s.unsent

theorem Mails.refl (s : State) : Mails s s := ⟨rfl⟩

theorem Mails.trans {s t u : State} (h : Mails s t) (k : Mails t u) : Mails s u := ⟨k.unsent.trans h.unsent⟩

theorem Mails.foldl {β : Type} {f : State → β → State} (hf : ∀ s x, Mails s (f s x)) : ∀ (l : List β) (s : State), Mails s (l.foldl f s)
  | [], s => .refl s
  | x :: r, s => (hf s x).trans (Mails.foldl hf r (f s x))

theorem Mails.foldl_mem {β : Type} {f : State → β → State} : ∀ (l : List β) (s : State), (∀ s, ∀ x ∈ l, Mails s (f s x)) → Mails s (l.foldl f s)
  | [], s, _ => .refl s
  | x :: r, s, hf => (hf s x List.mem_cons_self).trans (Mails.foldl_mem r (f s x) fun s y hy => hf s y (List.mem_cons_of_mem _ hy))

/-- A message whose arrival is only an event under way. -/
structure Ev.Plain (e : Ev) : Prop where
  post : ∀ s : State, s.deliver e = s.post e
  fan : ∀ cs ln, e ≠ .mcastFan cs ln

theorem State.post_mails (s : State) (e : Ev) : Mails s (s.post e) := ⟨rfl⟩

theorem State.postOnce_mails (s : State) (e : Ev) : Mails s (s.postOnce e) := by
  unfold State.postOnce
  split
  · exact .refl s
  · exact s.post_mails e

theorem State.inject_mails {e : Ev} (he : e.Plain) (s : State) (ch : Chan) (src dst : Port) (bytes : Nat) (w : List Nat) (onward : Option LPacket) :
    Mails s (s.inject ch src dst bytes [(w, e)] onward) := by
  unfold State.inject
  extract_lets s1 hs
  have h1 : Mails s s1 := by
    refine Mails.foldl_mem _ _ fun s x hx => ?_
    have hx : x = (w, e) := List.mem_singleton.mp (List.mem_of_mem_filter hx)
    rw [hx, he.post]
    exact s.post_mails e
  split
  · exact h1
  · exact h1.trans ⟨rfl⟩

theorem State.hop_mails (s : State) (die : Nat) (p : LPacket) (hp : p.ev.Plain) : Mails s (s.hop die p) := by
  unfold State.hop
  extract_lets nd
  split
  · rw [hp.post]
    exact s.post_mails _
  · exact ⟨rfl⟩

theorem State.send_mails {e : Ev} (he : e.Plain) (s : State) (a b : Port) (ch : Chan) (bytes : Nat) : Mails s (s.send e a b ch bytes) := by
  unfold State.send
  split
  · split
    · exact absurd rfl (he.fan _ _)
    · exact State.inject_mails he ..
  · extract_lets p
    split
    · exact s.hop_mails _ p he
    · exact ⟨rfl⟩

theorem Ev.plain_loadRequest (id ln : Nat) : (Ev.loadRequest id ln).Plain := ⟨fun _ => rfl, fun _ _ => Ev.noConfusion⟩

theorem Ev.plain_writeRegistration (id ln : Nat) : (Ev.writeRegistration id ln).Plain := ⟨fun _ => rfl, fun _ _ => Ev.noConfusion⟩

theorem Ev.plain_nearAtomic (id lane : Nat) : (Ev.nearAtomic id lane).Plain := ⟨fun _ => rfl, fun _ _ => Ev.noConfusion⟩

theorem Ev.plain_farAtomic (id lane : Nat) : (Ev.farAtomic id lane).Plain := ⟨fun _ => rfl, fun _ _ => Ev.noConfusion⟩

theorem State.request_mails (s : State) (id core ln : Nat) (reg : Bool) : Mails s (s.request id core ln reg) := by
  unfold State.request
  split
  · exact State.send_mails (Ev.plain_writeRegistration ..) ..
  · exact State.send_mails (Ev.plain_loadRequest ..) ..

/-- The requests and replies of an access' parts are messages. -/
theorem State.sendParts_mails (s : State) (id : Nat) (x : Access) (ps : List LanePart) : Mails s (s.sendParts id x ps) := by
  unfold State.sendParts
  extract_lets lines s1 any
  have h1 : Mails s s1 := by
    refine Mails.foldl (fun s ln => ?_) _ _
    split
    · exact State.postOnce_mails ..
    · exact .refl s
  refine h1.trans ?_
  split
  · refine Mails.foldl (fun s p => ?_) _ _
    split
    · exact State.send_mails (Ev.plain_farAtomic ..) ..
    · exact State.send_mails (Ev.plain_nearAtomic ..) ..
  · refine Mails.foldl (fun s ln => ?_) _ _
    extract_lets s2
    have h2 : Mails s s2 := by
      unfold s2
      split
      · exact State.request_mails ..
      · exact .refl s
    split
    · exact h2.trans (State.request_mails ..)
    · exact h2

end Sys2Proof.Machine
end

section
/-! SUPPORT. The parts of an access (R106, R302): what joining them leaves of the machine, and what the access then holds. -/

set_option Elab.async false

namespace Sys2Proof.Machine

/-! ## The frame -/

/-- The issue of an access `id` of kind `k` from `s` to `t`: lane groups and packet stand, of the cores and workgroups all but what
translation and stores reach; and memory, unless a stash gives a line up to an atomic. -/
structure Issuing (id : Nat) (k : AKind) (s t : State) : Prop where
  idle : t.idle = s.idle
  pk : t.pk = s.pk
  core : ∀ j, (t.core j).rest = (s.core j).rest
  wg : ∀ w, (t.wgs.find w).map Wg.unstaged = (s.wgs.find w).map Wg.unstaged
  others : ∀ j, j ≠ id → t.accs.find j = s.accs.find j
  mem : (∀ op far, k ≠ .atomic op far) → t.mem = s.mem

section
variable {id : Nat} {k : AKind} {s t u : State}

theorem Issuing.refl (s : State) : Issuing id k s s := ⟨rfl, rfl, fun _ => rfl, fun _ => rfl, fun _ _ => rfl, fun _ => rfl⟩

theorem Issuing.trans (h : Issuing id k s t) (g : Issuing id k t u) : Issuing id k s u where
  idle := g.idle.trans h.idle
  pk := g.pk.trans h.pk
  core j := (g.core j).trans (h.core j)
  wg w := (g.wg w).trans (h.wg w)
  others j hj := (g.others j hj).trans (h.others j hj)
  mem hk := (g.mem hk).trans (h.mem hk)

theorem Issuing.foldl {β : Type} {f : State → β → State} (hf : ∀ s x, Issuing id k s (f s x)) : ∀ (l : List β) (s : State),
    Issuing id k s (l.foldl f s)
  | [], s => .refl s
  | x :: r, s => (hf s x).trans (Issuing.foldl hf r (f s x))

theorem Mails.issuing (h : Mails s t) : Issuing id k s t where
  idle := (congrArg State.idle h.unsent :)
  pk := (congrArg State.pk h.unsent :)
  core j := (congrArg (fun u : State => (u.core j).rest) h.unsent :)
  wg w := (congrArg (fun u : State => (u.wgs.find w).map Wg.unstaged) h.unsent :)
  others j _ := (congrArg (fun u : State => u.accs.find j) h.unsent :)
  mem _ := (congrArg State.mem h.unsent :)

theorem Mails.accs (h : Mails s t) : t.accs = s.accs := (congrArg State.accs h.unsent :)

theorem Wg.unstaged_of_bare {a b : Option Wg} (h : a.map Wg.bare = b.map Wg.bare) : a.map Wg.unstaged = b.map Wg.unstaged := by
  have e : Wg.unstaged = Wg.unstaged ∘ Wg.bare := rfl
  rw [e, ← Option.map_map, h, Option.map_map]

theorem Below.idle (h : Below s t) : t.idle = s.idle :=
  congrArg (fun r : State => { r with accs := [], pending := [], packs := [], ldirs := [], nseq := 0 }) h.rest

/-- What goes on below the lane groups and meets no line of an engine, on the way of an atomic. -/
theorem Below.issuing {op : AtomOp} {far : Bool} (h : Below s t) (hp : t.pk = s.pk) : Issuing id (.atomic op far) s t where
  idle := h.idle
  pk := hp
  core := h.core
  wg w := Wg.unstaged_of_bare (h.wg w)
  others _ _ := by rw [h.accs]
  mem hk := absurd rfl (hk op far)

theorem State.modAcc_issuing (s : State) (id : Nat) (f : Access → Access) : Issuing id k s (s.modAcc id f) where
  idle := rfl
  pk := rfl
  core _ := rfl
  wg _ := rfl
  others _ hj := (Tab.find_modify ..).trans (if_neg hj)
  mem _ := rfl

theorem State.stageStore_issuing (s : State) (w : Nat) (p : LanePart) : Issuing id k s (s.stageStore w p) where
  idle := rfl
  pk := rfl
  core _ := rfl
  wg v := by
    unfold State.stageStore
    extract_lets bad
    rw [State.find_modWg]
    split
    · next e =>
      subst e
      rw [Option.map_map]
      rfl
    · rfl
  others _ _ := rfl
  mem _ := rfl

end

/-! ## One part -/

/-- A part as it joins its access: in its place, performed or bound at once or still to be performed with its bytes. -/
structure LanePart.Joined (p q : LanePart) : Prop where
  lane : q.lane = p.lane
  off : q.off = p.off
  va : q.va = p.va
  busy : q.st < 2
  data : q.st = 0 → q.data = p.data ∧ q.cmp = p.cmp

theorem State.bindLocal_joined {s : State} {x : Access} {p : LanePart} (hp : p.st = 0) : p.Joined ((s.bindLocal x p).getD p) := by
  have h1 : ∀ {d : List Byte} {e : Cause} {w : Nat}, p.Joined { p with data := d, st := 1, err := e, wts := w } :=
    ⟨rfl, rfl, rfl, Nat.one_lt_two, fun h => absurd h Nat.one_ne_zero⟩
  have h0 : p.Joined p := ⟨rfl, rfl, rfl, by rw [hp]; decide, fun _ => ⟨rfl, rfl⟩⟩
  unfold State.bindLocal
  extract_lets staged c covered ok po
  split
  · exact h1
  · split
    · exact h1
    · exact h0

/-- The parts of an access with one more, in the place of one of the same lane and half. -/
def Access.joined (x : Access) (q : LanePart) : Access := { x with lanes := (x.lanes.filter fun r => !r.same q) ++ [q] }

/-- A part joins its access. -/
theorem State.addPart_joins {s : State} {id : Nat} {x : Access} {p : LanePart} (staged last : Bool) (hx : s.accs.find id = some x)
    (hp : p.st = 0) : ∃ q, p.Joined q ∧ (s.addPart id staged last p).accs.find id = some (x.joined q) ∧
      Issuing id x.kind s (s.addPart id staged last p) := by
  have h0 : p.Joined p := ⟨rfl, rfl, rfl, by rw [hp]; decide, fun _ => ⟨rfl, rfl⟩⟩
  have keep : ∀ {u : State} (q : LanePart), p.Joined q → u.accs.find id = some x → Issuing id x.kind s u →
      ∃ q', p.Joined q' ∧ (u.modAcc id fun y => y.joined q).accs.find id = some (x.joined q') ∧
        Issuing id x.kind s (u.modAcc id fun y => y.joined q) := by
    intro u q hq hu hi
    refine ⟨q, hq, ?_, hi.trans (State.modAcc_issuing ..)⟩
    exact (Tab.find_modify ..).trans (by rw [if_pos rfl, hu]; rfl)
  have bound : p.Joined (if s.mustFollow x [p] then p else (s.bindLocal x p).getD p) := by
    split
    · exact h0
    · exact State.bindLocal_joined hp
  have done : ∀ {d : List Byte} {e : Cause}, p.Joined { p with data := d, st := 1, err := e } :=
    ⟨rfl, rfl, rfl, Nat.one_lt_two, fun h => absurd h Nat.one_ne_zero⟩
  unfold State.addPart
  rw [hx]
  dsimp only
  split
  · exact keep _ bound hx (.refl s)
  · exact keep _ bound hx (.refl s)
  · exact keep _ h0 hx (.refl s)
  · next op far hk =>
    split
    · have hd := (State.dropCopy_under s p.agent (p.pa / 128)).1
      exact keep _ h0 (by rw [hd.accs]; exact hx) (hk ▸ hd.issuing (State.dropCopy_pk ..))
    · exact keep _ h0 hx (.refl s)
  · split
    · exact keep _ done hx (.refl s)
    · split
      · exact keep _ done hx (State.stageStore_issuing ..)
      · exact keep _ ⟨rfl, rfl, rfl, by rw [hp]; decide, fun _ => ⟨rfl, rfl⟩⟩ hx (.refl s)

/-! ## All parts -/

theorem Access.mem_joined {x : Access} {q r : LanePart} (h : r ∈ (x.joined q).lanes) : r ∈ x.lanes ∨ r = q := by
  obtain h | h := List.mem_append.mp h
  · exact .inl (List.mem_of_mem_filter h)
  · exact .inr (List.mem_singleton.mp h)

/-- A part that the access had has a part in its place. -/
theorem Access.place_joined {x : Access} {q r : LanePart} (h : r ∈ x.lanes) : ∃ p ∈ (x.joined q).lanes, p.lane = r.lane ∧ p.off = r.off := by
  by_cases hs : r.same q = true
  · obtain ⟨hl, ho⟩ := (Bool.and_eq_true _ _).mp hs
    exact ⟨q, List.mem_append_right _ (List.mem_singleton_self q), (eq_of_beq hl).symm, (eq_of_beq ho).symm⟩
  · exact ⟨r, List.mem_append_left _ (List.mem_filter.mpr ⟨h, by simpa using hs⟩), rfl, rfl⟩

/-- Parts join their access: each part that it then holds is one of them, or was there; and each has its place. -/
theorem State.addParts_join {id : Nat} (staged : Bool) (last : LanePart → Bool) : ∀ (ps : List LanePart) {s : State} {x : Access},
    s.accs.find id = some x → (∀ p ∈ ps, p.st = 0) →
    ∃ L, (ps.foldl (fun s p => s.addPart id staged (last p) p) s).accs.find id = some { x with lanes := L } ∧
      Issuing id x.kind s (ps.foldl (fun s p => s.addPart id staged (last p) p) s) ∧
      (∀ q ∈ L, q ∈ x.lanes ∨ ∃ p ∈ ps, p.Joined q) ∧ (∀ p, p ∈ x.lanes ∨ p ∈ ps → ∃ q ∈ L, q.lane = p.lane ∧ q.off = p.off)
  | [], s, x, hx, _ => ⟨x.lanes, hx, .refl s, fun q hq => .inl hq, fun p hp => ⟨p, hp.resolve_right List.not_mem_nil, rfl, rfl⟩⟩
  | p :: r, s, x, hx, hst => by
    obtain ⟨q, hq, hx1, hi⟩ := State.addPart_joins staged (last p) hx (hst p List.mem_cons_self)
    obtain ⟨L, hL, hi', hfrom, hplace⟩ := State.addParts_join staged last r hx1 fun y hy => hst y (List.mem_cons_of_mem _ hy)
    refine ⟨L, hL, hi.trans hi', fun y hy => ?_, fun y hy => ?_⟩
    · obtain h | ⟨z, hz, h⟩ := hfrom y hy
      · exact (Access.mem_joined h).imp_right fun (e : y = q) => ⟨p, List.mem_cons_self, e ▸ hq⟩
      · exact .inr ⟨z, List.mem_cons_of_mem _ hz, h⟩
    · have go : ∀ z, z ∈ (x.joined q).lanes → z.lane = y.lane → z.off = y.off → ∃ q ∈ L, q.lane = y.lane ∧ q.off = y.off := by
        intro z hz hl ho
        obtain ⟨w, hw, hwl, hwo⟩ := hplace z (.inl hz)
        exact ⟨w, hw, hwl.trans hl, hwo.trans ho⟩
      obtain hy | hy := hy
      · obtain ⟨z, hz, hl, ho⟩ := Access.place_joined (q := q) hy
        exact go z hz hl ho
      · obtain rfl | hy := List.mem_cons.mp hy
        · exact go q (List.mem_append_right _ (List.mem_singleton_self q)) hq.lane hq.off
        · exact hplace y (.inr hy)

/-! ## The parts that translated lanes give -/

/-- The part of a lane that has been translated. -/
def Req.piece (r : Req) (c : Ctx) (u : State) (ord : Nat) (a : LaneAddr) (pa kid : Nat) : LanePart :=
  { lane := a.lane, va := a.va, pa := pa, kid := kid, agent := c.wg.agent c.lg.wg a.va, data := r.data a.lane, cmp := r.cmp a.lane
    sentAt := u.now, ord := ord, pts := (u.core c.core).pts
    hv := if (u.copy (c.wg.agent c.lg.wg a.va) (pa / 128)).leased then some (u.copy (c.wg.agent c.lg.wg a.va) (pa / 128)).wts else none }

/-- The parts of the lanes that have been translated. -/
def Req.pieces (r : Req) (c : Ctx) (u : State) (ord : Nat) (as : List LaneAddr) : List LanePart :=
  as.flatMap fun a => match a.res with
    | .ok pa kid => r.parts (r.piece c u ord a pa kid)
    | _ => []

section
variable {r : Req} {c : Ctx} {u : State} {ord : Nat} {as : List LaneAddr} {p : LanePart}

/-- A part comes of a lane that has been translated. -/
theorem Req.mem_pieces : p ∈ r.pieces c u ord as ↔ ∃ a ∈ as, ∃ pa kid, a.res = .ok pa kid ∧ p ∈ r.parts (r.piece c u ord a pa kid) := by
  unfold Req.pieces
  rw [List.mem_flatMap]
  refine exists_congr fun a => and_congr_right fun _ => ?_
  cases h : a.res <;> simp

/-- What a part of a lane carries: all of the lane's bytes, or for 16 bytes its half of them (R106). -/
theorem Req.mem_parts {q : LanePart} (h : p ∈ r.parts q) (ho : q.off = 0) : p.lane = q.lane ∧ p.st = q.st ∧ p.cmp = q.cmp ∧
    ((p.off = 0 ∧ p.va = q.va ∧ p.data = if r.size = 16 then q.data.take 8 else q.data) ∨
      (p.off = 2 ∧ r.size = 16 ∧ p.va = q.va + 8 ∧ p.data = q.data.drop 8)) := by
  unfold Req.parts at h
  split at h
  · next hs =>
    obtain rfl | h := List.mem_cons.mp h
    · exact ⟨rfl, rfl, rfl, .inl ⟨ho, rfl, (if_pos hs).symm⟩⟩
    · rw [List.mem_singleton.mp h]
      exact ⟨rfl, rfl, rfl, .inr ⟨rfl, hs, rfl, rfl⟩⟩
  · next hs =>
    rw [List.mem_singleton.mp h]
    exact ⟨rfl, rfl, rfl, .inl ⟨ho, rfl, (if_neg hs).symm⟩⟩

theorem Req.exists_part (q : LanePart) (ho : q.off = 0) : ∃ p ∈ r.parts q, p.lane = q.lane ∧ p.off = 0 := by
  unfold Req.parts
  split
  · exact ⟨_, List.mem_cons_self, rfl, ho⟩
  · exact ⟨_, List.mem_cons_self, rfl, ho⟩

theorem Req.exists_half (q : LanePart) (hs : r.size = 16) : ∃ p ∈ r.parts q, p.lane = q.lane ∧ p.off = 2 := by
  unfold Req.parts
  rw [if_pos hs]
  exact ⟨_, List.mem_cons_of_mem _ List.mem_cons_self, rfl, rfl⟩

end

end Sys2Proof.Machine
end

section
/-! SUPPORT. What an access does once its lanes are translated (R302): it is on its way; or, a lane having failed, the others are on their
way and the trap is taken (R146, R413, R414). -/

set_option Elab.async false

namespace Sys2Proof.Machine

/-! ## The issue in steps -/

/-- The access that a word issues, before its parts join it. -/
def Req.access (r : Req) (c : Ctx) (u : State) (bad : Bool) : Access :=
  { lg := c.g, wg := c.lg.wg, core := c.core, bank := c.bank, vf := c.vf, part := c.part, kind := r.kind, ctr := r.ctr,
    d := r.d, size := min r.size 8, sext := r.sext, acqr := r.acqr, relr := r.relr, fpc := u.pk.idx, slot := u.pk.slot, inRun := u.midRun
    seq := u.nseq, lanes := [], opn := bad }

/-- Whether a lane fails. -/
def anyBad (as : List LaneAddr) : Bool := as.any fun a => a.cause != .none

/-- The machine with the access, which has no parts yet. -/
def State.begun (u : State) (c : Ctx) (r : Req) (as : List LaneAddr) : State :=
  { u with nseq := u.nseq + 1, accs := u.accs.put u.nseq (r.access c u (anyBad as)) }

/-- The machine with the parts `ps` of access `id`, those before it known (R106, R419). -/
def State.issueParts (s : State) (c : Ctx) (id : Nat) (ps : List LanePart) : State :=
  let before := ((s.accs.find id).map (·.lanes)).getD []
  ps.foldl (fun s p => s.addPart id c.la.staged (!((before ++ ps).any fun q => decide (p.lane < q.lane) && q.pa == p.pa)) p) s

/-- The machine once the requests and replies of those parts are sent. -/
def State.issueSends (s : State) (id : Nat) (ps : List LanePart) : State :=
  match s.accs.find id with
  | none => s
  | some x => s.sendParts id x (x.lanes.filter fun p => ps.any p.same)

/-- The machine with the access of a word under way, its lanes translated to `as` in the machine `u`. -/
def State.sentOut (u : State) (c : Ctx) (r : Req) (as : List LaneAddr) : State :=
  ((u.begun c r as).issueParts c u.nseq (r.pieces c (u.begun c r as) u.nseq as)).issueSends u.nseq
    (r.pieces c (u.begun c r as) u.nseq as)

/-- What an access ends in: it goes on, or its trap is taken. -/
def State.issueEnds (w : State) (c : Ctx) (r : Req) (id : Nat) (as : List LaneAddr) : State :=
  match w.replayTrap as (some id) with
  | none => w.finishAccess id
  | some t => w.takeTrap c t (if r.need &&& 2 = 0 then 0 else 1)

section
variable {s : State} {c : Ctx} {r : Req}

theorem xlated_under (r : Req) (c : Ctx) (s : State) : Under s (r.xlated c s).1 := State.xlateLanes_under ..

theorem State.issueReq_held (h : ¬ OrderOk r c s) : s.issueReq c r = s.holdBack c := by
  refine if_pos ?_
  by_contra hn
  refine h ⟨?_, fun hr => ?_⟩
  · simp_all
  · simp_all

theorem State.issueReq_idle (h : OrderOk r c s) (hl : r.lanes = []) : s.issueReq c r = s.addCtr c.g r.ctr 1 := by
  obtain ⟨ha, hq⟩ := h
  refine (if_neg ?_).trans (if_pos (by rw [hl]; rfl))
  cases hr : r.relr <;> simp_all

/-- An access that is no replay is begun anew. -/
theorem State.issueReq_new (h : OrderOk r c s) (hl : r.lanes ≠ []) (hr : s.replaying c = none) :
    s.issueReq c r = ((r.xlated c s).1.sentOut c r (r.xlated c s).2).issueEnds c r (r.xlated c s).1.nseq (r.xlated c s).2 := by
  obtain ⟨ha, hq⟩ := h
  have hslot : (r.xlated c s).1.replaying c = none := by
    have e : (r.xlated c s).1.pk.slot = s.pk.slot := (SamePacket.of_below (xlated_under r c s).1).slot
    unfold State.replaying at hr ⊢
    rw [e]
    exact hr
  have h1 : ¬ (s.acquiring c.g || (r.relr && !s.quiet c.g)) = true := by
    cases hr : r.relr <;> simp_all
  have h2 : ¬ r.lanes.isEmpty = true := by simpa using hl
  unfold State.issueReq
  rw [if_neg h1, if_neg h2]
  dsimp only
  change (r.xlated c s).1.replaying c = none at hslot
  unfold Req.xlated at hslot ⊢
  rw [hslot]
  rfl

end

/-! ## What the access then holds -/

/-- What a part `q` of an access carries for the lane of `a`: its address and its bytes, or those of its upper half (R106). -/
structure Req.Carries (r : Req) (a : LaneAddr) (q : LanePart) : Prop where
  lane : q.lane = a.lane
  busy : q.st < 2
  low : q.off = 0 → q.va = a.va ∧ (q.st = 0 → q.data = (if r.size = 16 then (r.data a.lane).take 8 else r.data a.lane) ∧ q.cmp = r.cmp a.lane)
  high : q.off = 2 → q.va = a.va + 8 ∧ (q.st = 0 → q.data = (r.data a.lane).drop 8)

/-- The parts `L` that an access holds for the lanes `as`: each stands for a lane that passed, and each lane that passed has its part, and
for 16 bytes its upper half. -/
structure Req.Holds (r : Req) (as : List LaneAddr) (L : List LanePart) : Prop where
  from_ : ∀ q ∈ L, ∃ a ∈ as, a.cause = .none ∧ r.Carries a q
  low : ∀ a ∈ as, a.cause = .none → ∃ q ∈ L, q.lane = a.lane ∧ q.off = 0
  high : r.size = 16 → ∀ a ∈ as, a.cause = .none → ∃ q ∈ L, q.lane = a.lane ∧ q.off = 2

section
variable {u : State} {c : Ctx} {r : Req} {as : List LaneAddr}

theorem Req.carries_of_joined {v : State} {ord pa kid : Nat} {a : LaneAddr} {p q : LanePart} (hp : p ∈ r.parts (r.piece c v ord a pa kid))
    (h : p.Joined q) : r.Carries a q := by
  obtain ⟨hlane, -, hcmp, hoff⟩ := Req.mem_parts hp rfl
  refine ⟨h.lane.trans hlane, h.busy, fun e => ?_, fun e => ?_⟩
  · obtain ⟨-, hva, hdata⟩ | ⟨ho, -⟩ := hoff
    · exact ⟨h.va.trans hva, fun hs => ⟨(h.data hs).1.trans hdata, (h.data hs).2.trans hcmp⟩⟩
    · exact absurd ((h.off.symm.trans e).symm.trans ho) (by decide)
  · obtain ⟨ho, -⟩ | ⟨-, -, hva, hdata⟩ := hoff
    · exact absurd ((h.off.symm.trans e).symm.trans ho) (by decide)
    · exact ⟨h.va.trans hva, fun hs => (h.data hs).1.trans hdata⟩

theorem Req.pieces_st {v : State} {ord : Nat} : ∀ p ∈ r.pieces c v ord as, p.st = 0 := by
  intro p hp
  obtain ⟨a, -, pa, kid, -, hp⟩ := Req.mem_pieces.mp hp
  obtain ⟨-, hst, -⟩ := Req.mem_parts hp rfl
  exact hst

theorem State.begun_issuing (u : State) (c : Ctx) (r : Req) (as : List LaneAddr) : Issuing u.nseq r.kind u (u.begun c r as) where
  idle := rfl
  pk := rfl
  core _ := rfl
  wg _ := rfl
  others _ hj := Tab.find_put_other _ _ hj
  mem _ := rfl

/-- The access of a word stands with the parts of the lanes that passed. -/
theorem State.sentOut_holds (ht : ∀ a ∈ as, a.Told) : ∃ L, (u.sentOut c r as).accs.find u.nseq = some { r.access c u (anyBad as) with lanes := L } ∧
    Issuing u.nseq r.kind u (u.sentOut c r as) ∧ r.Holds as L := by
  have h0 : (u.begun c r as).accs.find u.nseq = some (r.access c u (anyBad as)) := Tab.find_put_self ..
  set v := u.begun c r as with hv
  set ps := r.pieces c v u.nseq as with hps
  obtain ⟨L, hL, hi, hfrom, hplace⟩ := State.addParts_join c.la.staged
    (fun p => !((((v.accs.find u.nseq).map (·.lanes)).getD [] ++ ps).any fun q => decide (p.lane < q.lane) && q.pa == p.pa)) ps h0
    Req.pieces_st
  have hsend : Mails (v.issueParts c u.nseq ps) (u.sentOut c r as) := by
    show Mails _ ((v.issueParts c u.nseq ps).issueSends u.nseq ps)
    unfold State.issueSends
    split
    · exact .refl _
    · exact State.sendParts_mails ..
  have haccs := hsend.accs
  refine ⟨L, ?_, (State.begun_issuing u c r as).trans (Issuing.trans hi hsend.issuing), fun q hq => ?_, fun a ha hn => ?_, fun hs a ha hn => ?_⟩
  · rw [haccs]
    exact hL
  · obtain h | ⟨p, hp, hj⟩ := hfrom q hq
    · exact absurd h List.not_mem_nil
    · obtain ⟨a, ha, pa, kid, hres, hp⟩ := Req.mem_pieces.mp hp
      exact ⟨a, ha, by unfold LaneAddr.cause; rw [hres], Req.carries_of_joined hp hj⟩
  · obtain ⟨pa, kid, hres⟩ := ht a ha hn
    obtain ⟨p, hp, hl, ho⟩ := Req.exists_part (r := r) (r.piece c v u.nseq a pa kid) rfl
    obtain ⟨q, hq, hql, hqo⟩ := hplace p (.inr (Req.mem_pieces.mpr ⟨a, ha, pa, kid, hres, hp⟩))
    exact ⟨q, hq, hql.trans hl, hqo.trans ho⟩
  · obtain ⟨pa, kid, hres⟩ := ht a ha hn
    obtain ⟨p, hp, hl, ho⟩ := Req.exists_half (r := r) (r.piece c v u.nseq a pa kid) hs
    obtain ⟨q, hq, hql, hqo⟩ := hplace p (.inr (Req.mem_pieces.mpr ⟨a, ha, pa, kid, hres, hp⟩))
    exact ⟨q, hq, hql.trans hl, hqo.trans ho⟩

end

/-! ## The two outcomes -/

/-- A lane that failed gives the trap of the highest-ranked cause (R413, R414). -/
theorem State.replayTrap_of (s : State) {as : List LaneAddr} (h : ∃ a ∈ as, a.cause ≠ .none) (acc : Option Nat) :
    let bad := as.filter fun a => a.cause != .none
    let k := bestCause (bad.map LaneAddr.cause)
    ∃ t a, s.replayTrap as acc = some t ∧ bad.find? (fun a => a.cause == k) = some a ∧ t.cause = k ∧ t.fm = maskOf (bad.map (·.lane)) ∧
      t.tva = BitVec.ofNat 64 a.va ∧ t.replaying = true ∧ t.acc = acc ∧ t.fpc = s.pk.idx ∧ t.resume = s.pk.idx := by
  intro bad k
  obtain ⟨a0, ha0, hne⟩ := h
  have hmem : a0 ∈ bad := List.mem_filter.mpr ⟨ha0, by simpa using hne⟩
  have hall : ∀ x ∈ bad.map LaneAddr.cause, x ≠ .none := by
    intro x hx
    obtain ⟨a, ha, rfl⟩ := List.mem_map.mp hx
    simpa using (List.mem_filter.mp ha).2
  have hk : k ∈ bad.map LaneAddr.cause := by
    have hne : bad.map LaneAddr.cause ≠ [] := List.ne_nil_of_mem (List.mem_map_of_mem hmem)
    obtain ⟨x, xs, e⟩ := List.exists_cons_of_ne_nil hne
    show bestCause (bad.map LaneAddr.cause) ∈ _
    rw [e] at hall ⊢
    exact bestCause_mem hall
  obtain ⟨a1, ha1, hk1⟩ := List.mem_map.mp hk
  obtain ⟨a, ha⟩ := Option.isSome_iff_exists.mp (List.find?_isSome.mpr ⟨a1, ha1, by simpa using hk1⟩ : (bad.find? fun a => a.cause == k).isSome)
  unfold State.replayTrap
  show ∃ t b, (match bad.find? fun a => a.cause == k with | none => none | some a => _) = some t ∧ _
  rw [ha]
  exact ⟨_, a, rfl, rfl, rfl, rfl, rfl, rfl, rfl, rfl, rfl⟩

section
variable {s : State} {c : Ctx} {r : Req}

theorem xlated_told (r : Req) (c : Ctx) (s : State) : ∀ a ∈ (r.xlated c s).2, a.Told :=
  State.xlateLanes_told c r.size r.need _ [] s fun _ h => absurd h List.not_mem_nil

theorem xlated_nseq (r : Req) (c : Ctx) (s : State) : (r.xlated c s).1.nseq = s.nseq := (congrArg State.nseq (xlated_under r c s).1.rest :)

theorem xlated_places (r : Req) (c : Ctx) (s : State) : (r.xlated c s).2.map (fun a => (a.lane, a.va)) = r.lanes.map fun i => (i, r.addr i) :=
  State.xlateLanes_places ..

theorem xlated_va {a : LaneAddr} (h : a ∈ (r.xlated c s).2) : a.va = r.addr a.lane := by
  have hm : (a.lane, a.va) ∈ r.lanes.map fun i => (i, r.addr i) := xlated_places r c s ▸ List.mem_map_of_mem (f := fun a => (a.lane, a.va)) h
  obtain ⟨i, -, e⟩ := List.mem_map.mp hm
  obtain ⟨hi, hva⟩ := Prod.mk.inj e
  rw [← hva, ← hi]

theorem xlated_lane {j : Nat} (h : j ∈ r.lanes) : ∃ a ∈ (r.xlated c s).2, a.lane = j := by
  have hm : (j, r.addr j) ∈ (r.xlated c s).2.map fun a => (a.lane, a.va) := by
    rw [xlated_places]
    exact List.mem_map_of_mem h
  obtain ⟨a, ha, e⟩ := List.mem_map.mp hm
  exact ⟨a, ha, congrArg Prod.fst e⟩

/-- An access with a part to be performed stands, whatever it ends. -/
theorem State.finishAccess_busy {id : Nat} {x : Access} (hx : s.accs.find id = some x) (hb : x.busy = true) : s.finishAccess id = s := by
  unfold State.finishAccess
  rw [hx]
  exact if_pos (by simp [hb])

/-- Translation and issue, together, as they leave the machine. -/
theorem Issuing.frame {k : AKind} {t : State} (h : Issuing (r.xlated c s).1.nseq k (r.xlated c s).1 t) : t.lgs = s.lgs ∧ t.idle = s.idle ∧
    (∀ j, (t.core j).rest = (s.core j).rest) ∧ (∀ w, (t.wgs.find w).map Wg.unstaged = (s.wgs.find w).map Wg.unstaged) ∧
    ∀ j, j ≠ s.nseq → t.accs.find j = s.accs.find j := by
  have hb := (xlated_under r c s).1
  have hidle : t.idle = s.idle := h.idle.trans hb.idle
  refine ⟨(congrArg State.lgs hidle :), hidle, fun j => (h.core j).trans (hb.core j), fun w => (h.wg w).trans (Wg.unstaged_of_bare (hb.wg w)),
    fun j hj => (h.others j fun e => hj (e.trans (xlated_nseq r c s))).trans (by rw [hb.accs])⟩

/-- An access that issues. -/
theorem State.issueReq_issues (h : IssueOk r c s) : Issued r c s (s.issueReq c r) ∧ (s.issueReq c r).pk = (r.xlated c s).1.pk := by
  obtain ⟨hl, ho, hr, -, hn⟩ := h
  obtain ⟨L, hL, hi, hh⟩ := State.sentOut_holds (u := (r.xlated c s).1) (c := c) (r := r) (xlated_told r c s)
  have hpart : ∀ j ∈ r.lanes, ∃ a ∈ (r.xlated c s).2, a.lane = j ∧ a.cause = .none := fun j hj => by
    obtain ⟨a, ha, e⟩ := xlated_lane (c := c) (s := s) hj
    exact ⟨a, ha, e, hn a ha⟩
  have hbusy : Access.busy { r.access c (r.xlated c s).1 (anyBad (r.xlated c s).2) with lanes := L } = true := by
    obtain ⟨j, hj⟩ := List.exists_mem_of_ne_nil _ hl
    obtain ⟨a, ha, -, hc⟩ := hpart j hj
    obtain ⟨q, hq, -⟩ := hh.low a ha hc
    obtain ⟨b, -, -, hcar⟩ := hh.from_ q hq
    exact List.any_eq_true.mpr ⟨q, hq, decide_eq_true hcar.busy⟩
  have ht : s.issueReq c r = (r.xlated c s).1.sentOut c r (r.xlated c s).2 := by
    rw [State.issueReq_new ho hl hr, State.issueEnds, State.replayTrap_none _ hn]
    exact State.finishAccess_busy hL hbusy
  obtain ⟨hlgs, hidle, hcore, hwg, hothers⟩ := hi.frame
  rw [ht]
  refine ⟨⟨⟨_, xlated_nseq r c s ▸ hL, rfl, rfl, rfl, rfl, rfl, rfl, rfl, rfl, hbusy, fun j hj => ?_, fun hs j hj => ?_⟩, by rw [hlgs], hothers,
    hidle, hcore, hwg, fun hk => hi.mem hk⟩, hi.pk⟩
  · obtain ⟨a, ha, rfl, hc⟩ := hpart j hj
    obtain ⟨q, hq, hql, hqo⟩ := hh.low a ha hc
    obtain ⟨b, hb, -, hcar⟩ := hh.from_ q hq
    have hlane : b.lane = a.lane := hcar.lane.symm.trans hql
    obtain ⟨hva, hdata⟩ := hcar.low hqo
    rw [xlated_va hb, hlane] at hva
    rw [hlane] at hdata
    exact ⟨q, hq, hql, hqo, hva, hdata⟩
  · obtain ⟨a, ha, rfl, hc⟩ := hpart j hj
    obtain ⟨q, hq, hql, hqo⟩ := hh.high hs a ha hc
    obtain ⟨b, hb, -, hcar⟩ := hh.from_ q hq
    have hlane : b.lane = a.lane := hcar.lane.symm.trans hql
    obtain ⟨hva, hdata⟩ := hcar.high hqo
    rw [xlated_va hb, hlane] at hva
    rw [hlane] at hdata
    exact ⟨q, hq, hql, hqo, hva, hdata⟩

/-- An access of which a lane fails. -/
theorem State.issueReq_faults (h : FaultOk r c s) : Faulted r c s (s.issueReq c r) ∧
    ((s.issueReq c r).pk.stall = true → (r.xlated c s).1.pk.stall = true) := by
  obtain ⟨hl, ho, hr, -, hbad⟩ := h
  obtain ⟨L, hL, hi, hh⟩ := State.sentOut_holds (u := (r.xlated c s).1) (c := c) (r := r) (xlated_told r c s)
  obtain ⟨t, a, htrap, hfind, hcause, hfm, htva, hrep, hacc, hfpc, hres⟩ :=
    ((r.xlated c s).1.sentOut c r (r.xlated c s).2).replayTrap_of hbad (some (r.xlated c s).1.nseq)
  have ht : s.issueReq c r = ((r.xlated c s).1.sentOut c r (r.xlated c s).2).takeTrap c t (if r.need &&& 2 = 0 then 0 else 1) := by
    rw [State.issueReq_new ho hl hr, State.issueEnds, htrap]
  have hidx : ((r.xlated c s).1.sentOut c r (r.xlated c s).2).pk.idx = s.pk.idx := by
    rw [hi.pk]
    exact (SamePacket.of_below (xlated_under r c s).1).idx
  have hopn : anyBad (r.xlated c s).2 = true := by
    obtain ⟨b, hb, hne⟩ := hbad
    exact List.any_eq_true.mpr ⟨b, hb, by simpa using hne⟩
  obtain ⟨hlgs, -⟩ := hi.frame
  rw [ht]
  refine ⟨⟨_, t, _, rfl, hcause, hfm, ⟨a, hfind, htva⟩, hrep, by rw [hacc, xlated_nseq], hfpc.trans hidx, hres.trans hidx, by rw [hlgs],
    _, xlated_nseq r c s ▸ hL, hopn, rfl, rfl, rfl, fun p hp => ?_, fun b hb hn => ?_⟩, fun h => hi.pk ▸ State.takeTrap_stall h⟩
  · obtain ⟨b, hb, hn, hcar⟩ := hh.from_ p hp
    exact ⟨b, hb, hcar.lane.symm, hn⟩
  · obtain ⟨q, hq, hql, -⟩ := hh.low b hb hn
    exact ⟨q, hq, hql⟩

end

end Sys2Proof.Machine
end

section
/-! PROOF. Loads, stores and atomics (R302 to R309, R313, R314): their checks, what keeps them from issuing, and the request they issue. -/

set_option Elab.async false

namespace Sys2Proof.Machine

/-! ## The shape of the words that issue an access -/

/-- Addresses are checked before they are translated (R105). -/
theorem alignLaw (r : Ctx → Req) : AlignLaw r := by
  intro c s j hj
  obtain ⟨a, ha, rfl⟩ := xlated_lane (c := c) (s := s) hj
  have hva := xlated_va ha
  refine ⟨fun h => ⟨a, ha, rfl, ?_⟩, fun h0 h => ⟨a, ha, rfl, ?_⟩⟩
  · exact State.xlateLanes_checked c _ _ Cause.noConfusion _ [] s a ha ((congrArg _ hva).trans (if_pos h))
  · exact State.xlateLanes_checked c _ _ Cause.noConfusion _ [] s a ha
      ((congrArg _ hva).trans ((if_neg (not_not.mpr h0)).trans (if_pos h)))

/-- The word `i` has the checks `chk`, and where they find nothing it does `f`. -/
def Checks (i : Instr) (chk : Ctx → List Finding) (f : Ctx → State → State) : Prop :=
  ∀ s, exec i s = memWord i s fun c s => s.checked c (chk c) (f c)

section
variable {i : Instr} {chk : Ctx → List Finding} {f : Ctx → State → State} {s u : State} {c : Ctx} {r : Ctx → Req}

theorem Checks.next {t : State} (hx : Checks i chk f) (h : s.ctx? = some c) (hw : wellFormed i = true) (hchk : chk c = [])
    (ht : f c s = t) (hu : t.pk.stall = true → s.pk.stall = true) : exec i s = .next t := by
  refine (hx s).trans (memWord_next_eq h hw ?_ hu)
  rw [hchk, State.checked_nil, ht]

/-- A word whose access issues in the machine `u`. -/
theorem Checks.issues (hx : Checks i chk f) (h : s.ctx? = some c) (hw : wellFormed i = true) (hchk : chk c = []) (hu : Unowned s u)
    (hf : f c s = u.issueReq c (r c)) (hi : IssueOk (r c) c u) : ∃ t, exec i s = .next t ∧ Issued (r c) c u t := by
  obtain ⟨hd, hpk⟩ := State.issueReq_issues hi
  obtain ⟨-, -, -, hstall, -⟩ := hi
  exact ⟨_, hx.next h hw hchk hf fun ht => hu ▸ hstall ▸ hpk ▸ ht, hd⟩

/-- A word of whose access a lane fails in the machine `u`. -/
theorem Checks.faults (hx : Checks i chk f) (h : s.ctx? = some c) (hw : wellFormed i = true) (hchk : chk c = []) (hu : Unowned s u)
    (hf : f c s = u.issueReq c (r c)) (hi : FaultOk (r c) c u) : ∃ t, exec i s = .next t ∧ Faulted (r c) c u t := by
  obtain ⟨hd, hpk⟩ := State.issueReq_faults hi
  obtain ⟨-, -, -, hstall, -⟩ := hi
  exact ⟨_, hx.next h hw hchk hf fun ht => hu ▸ hstall ▸ hpk ht, hd⟩

theorem Checks.held (hx : Checks i chk f) (h : s.ctx? = some c) (hw : wellFormed i = true) (hchk : chk c = [])
    (hf : f c s = s.holdBack c) : ∃ t, exec i s = .next t ∧ Held c s t :=
  ⟨_, hx.next h hw hchk hf id, rfl⟩

end

theorem Ctx.lanes_nil {c : Ctx} (h : c.em = 0) : c.lanes = [] := lanesOf_eq_nil.mpr h

/-- The checks of a word's address register and of `n` registers from `d`. -/
def Ctx.regsF (c : Ctx) (a d n : Nat) : List Finding := c.regF c.em a ++ (List.range n).flatMap fun r => c.regF c.em (d + r)

theorem Ctx.regsF_nil {c : Ctx} {a d n : Nat} (ha : c.RegOk a) (hd : ∀ r, r < n → c.RegOk (d + r)) : c.regsF a d n = [] :=
  List.append_eq_nil_iff.mpr ⟨Ctx.regF_nil ha, List.flatMap_eq_nil_iff.mpr fun r hr => Ctx.regF_nil (hd r (List.mem_range.mp hr))⟩

theorem Ctx.regOk_idle {c : Ctx} (h : c.em = 0) (r : Nat) : c.RegOk r := fun _ hj => absurd (Ctx.lanes_nil h ▸ hj) List.not_mem_nil

theorem Ctx.regF_once {c : Ctx} {a : Nat} (h : c.em ≠ 0 → c.ExOk a) : c.regF (maskOf c.once) a = [] := by
  by_cases he : c.em = 0
  · have : maskOf c.once = c.em := by
      rw [he, Ctx.once, Ctx.lanes_nil he]
      rfl
    rw [this]
    exact Ctx.regF_nil (Ctx.regOk_idle he a)
  · rw [Ctx.maskOf_once he]
    exact Ctx.regF_exLane (h he)

theorem Ctx.addr_eq_zero (c : Ctx) (kb a : Nat) : c.addr kb a 0 = fun j => (c.kr kb + (c.v a j).signExtend 64).toNat :=
  funext (Ctx.addr_zero c kb a)

/-! ## Loads -/

theorem loadLaw {i : Instr} {chk : Ctx → List Finding} {ok : Ctx → Prop} {r : Ctx → Req} (hx : Checks i chk fun c s => s.issueReq c (r c))
    (hok : ∀ c, ok c → chk c = []) (hidle : ∀ c, c.em = 0 → chk c = [] ∧ (r c).lanes = []) (hrel : ∀ c, (r c).relr = false) :
    LoadLaw i ok r := by
  refine ⟨fun s c h hw ⟨hk, hi⟩ => hx.issues h hw (hok c hk) rfl rfl hi, fun s c h hw ⟨hk, ha⟩ => hx.held h hw (hok c hk) ?_,
    fun s c h hw ⟨he, ha⟩ => ?_, fun s c h hw ⟨hk, hi⟩ => hx.faults h hw (hok c hk) rfl rfl hi, alignLaw r⟩
  · exact State.issueReq_held fun ho => Bool.noConfusion (ha.symm.trans ho.1)
  · obtain ⟨hchk, hl⟩ := hidle c he
    exact ⟨_, hx.next h hw hchk (State.issueReq_idle ⟨ha, fun e => Bool.noConfusion ((hrel c).symm.trans e)⟩ hl) id, rfl⟩

/-- The loads of lanes: the request may be written in another form. -/
theorem loadLaw_of {i : Instr} {acq : Bool} {ctr : BitVec 4} {d : BitVec 6} {g : BitVec 3} {a : BitVec 6} {scaled size : Nat} {sx : Bool}
    {r : Ctx → Req} (hx : ∀ s, exec i s = loadWordI i s acq ctr d g a scaled size sx)
    (hr : ∀ c, loadReq c acq ctr d g a scaled size sx = r c) : LoadLaw i (fun c => c.RegOk a.toNat) r := by
  obtain rfl := funext hr
  exact loadLaw (chk := fun c => c.regF c.em a.toNat) hx (fun _ => Ctx.regF_nil)
    (fun c he => ⟨Ctx.regF_nil (Ctx.regOk_idle he _), Ctx.lanes_nil he⟩) fun _ => rfl

/-- The checks of `kld`. -/
def Ctx.kldF (c : Ctx) (d a : Nat) : List Finding :=
  c.regF (maskOf c.once) a ++ (if c.em ≠ 0 && !c.owns d then [⟨Cause.rank .kown, .kown, maskOf c.once⟩] else [])

theorem Ctx.kldF_nil {c : Ctx} {d a : Nat} (h : c.em ≠ 0 → c.ExOk a ∧ c.owns d = true) : c.kldF d a = [] := by
  refine List.append_eq_nil_iff.mpr ⟨Ctx.regF_once fun he => (h he).1, if_neg ?_⟩
  by_cases he : c.em = 0
  · simp [he]
  · simp [(h he).2]

theorem checks_kld (ctr : BitVec 4) (d : BitVec 5) (g : BitVec 3) (a : BitVec 6) :
    Checks (.kld ctr d g a) (fun c => c.kldF d.toNat a.toNat) fun c s => s.issueReq c
      { kind := .kload, ctr := ctr.toNat, d := d.toNat, size := 8, need := 1, lanes := c.once, addr := c.addr g.toNat a.toNat 0 } :=
  fun _ => rfl

/-- A `kld` into a register that its lane group does not own. -/
theorem runs_kld_kown (ctr : BitVec 4) (d : BitVec 5) (g : BitVec 3) (a : BitVec 6) :
    Runs (.kld ctr d g a) (fun c _ => c.em ≠ 0 ∧ c.ExOk a.toNat ∧ c.owns d.toNat = false)
      (Raises .kown (Cause.rank .kown) fun c => 1#32 <<< c.exLane) := by
  intro s c h hw ⟨he, hex, hown⟩
  have hf : c.kldF d.toNat a.toNat = [⟨Cause.rank .kown, .kown, 1#32 <<< c.exLane⟩] := by
    rw [Ctx.kldF, Ctx.regF_once fun _ => hex, Ctx.maskOf_once he, if_pos (by simpa [hown] using he), List.nil_append]
  refine ⟨_, (checks_kld ctr d g a s).trans (memWord_next_eq h hw ?_ State.takeTrap_stall), rfl⟩
  exact State.checked_of_best (congrArg bestFinding hf) _

/-- Settles O16. -/
theorem loadWords : Obligations.LoadWords := by
  unfold Obligations.LoadWords
  refine ⟨fun ctr d g a i => ?_, fun ctr d g a z => ?_, fun ctr d g a => ⟨?_, runs_kld_kown ctr d g a⟩⟩
  · intro req law
    have hbyte : ∀ sx c, loadReq c false ctr d g a i.toNat 1 sx = req 1 sx c := fun sx c => by
      simp only [req, one_mul]
      rfl
    exact ⟨loadLaw_of (fun _ => rfl) (hbyte false), loadLaw_of (fun _ => rfl) (hbyte true),
      loadLaw_of (scaled := 2 * i.toNat) (fun _ => rfl) fun _ => rfl, loadLaw_of (scaled := 2 * i.toNat) (fun _ => rfl) fun _ => rfl,
      loadLaw_of (scaled := 4 * i.toNat) (fun _ => rfl) fun _ => rfl, loadLaw_of (scaled := 8 * i.toNat) (fun _ => rfl) fun _ => rfl,
      loadLaw_of (scaled := 16 * i.toNat) (fun _ => rfl) fun _ => rfl⟩
  · refine loadLaw_of (acq := true) (ctr := ctr) (d := d) (g := g) (scaled := 0) (size := if z = 0 then 4 else 8) (sx := false)
      (fun _ => rfl) fun c => ?_
    rw [loadReq, Ctx.addr_eq_zero]
    rfl
  · have hx := checks_kld ctr d g a
    simp only [Ctx.addr_eq_zero] at hx
    exact loadLaw hx (fun c hk => Ctx.kldF_nil fun _ => hk)
      (fun c he => ⟨Ctx.kldF_nil fun hn => absurd he hn, congrArg (List.take 1) (Ctx.lanes_nil he)⟩) fun _ => rfl

end Sys2Proof.Machine
end

section
/-! PROOF. Stores and atomics (R308, R309, R313, R314): the machine in which they issue, and what holds them back before that (R116, R117,
R123). -/

set_option Elab.async false

namespace Sys2Proof.Machine

/-! ## Stores -/

section
variable {s : State} {c : Ctx} {r : Req}

theorem State.issueStore_direct (h : c.la.staged = false ∨ r.lanes = [] ∨ s.acquiring c.g = true) : s.issueStore c r = s.issueReq c r := by
  refine if_pos ?_
  obtain h | h | h := h <;> simp [h]

/-- A store of a staged workgroup that some lane executes and no acquire holds. -/
theorem State.issueStore_staged (hs : c.la.staged = true) (hl : r.lanes ≠ []) (ha : s.acquiring c.g = false) : s.issueStore c r =
    if r.relr = true then (if s.quiet c.g = true then s.afterCommit c fun s => s.issueReq c r else s.holdBack c)
    else if (r.xlated c s).1.loadsInWay c r.size (r.places c s) = true then (r.xlated c s).1.holdBack c
    else if c.stageFits (r.xlated c s).1 (r.places c s) = true then (r.xlated c s).1.issueReq c r
    else (r.xlated c s).1.afterCommit c fun s => s.issueReq c r :=
  if_neg (by simp [hs, hl, ha])

theorem State.issueStore_held (h : ¬ OrderOk r c s) : s.issueStore c r = s.holdBack c := by
  by_cases hd : c.la.staged = false ∨ r.lanes = [] ∨ s.acquiring c.g = true
  · exact (State.issueStore_direct hd).trans (State.issueReq_held h)
  · simp only [not_or, Bool.not_eq_false, Bool.not_eq_true] at hd
    obtain ⟨hs, hl, ha⟩ := hd
    obtain ⟨hr, hq⟩ : r.relr = true ∧ s.quiet c.g ≠ true := Classical.not_imp.mp fun hq => h ⟨ha, hq⟩
    rw [State.issueStore_staged hs hl ha, if_pos hr, if_neg hq]

/-- A store issues, when nothing holds it, in the machine that its commit and its translation leave. -/
theorem State.issueStore_at (hl : r.lanes ≠ []) (ho : OrderOk r c s) (hs : StageOk r c s) :
    s.issueStore c r = (StoreAt r c s).issueReq c r := by
  obtain ⟨ha, hq⟩ := ho
  unfold StoreAt
  cases hst : c.la.staged with
  | false => exact State.issueStore_direct (.inl hst)
  | true =>
    have hs := hs hst
    rw [State.issueStore_staged hst hl ha, if_neg (by decide : ¬ true = false)]
    by_cases hr : r.relr = true
    · rw [if_pos hr] at hs
      rw [if_pos hr, if_pos (hq hr), State.afterCommit_of hs, if_pos hr]
    · rw [if_neg hr] at hs
      obtain ⟨hway, hfit⟩ := hs
      rw [if_neg hr, if_neg (Bool.not_eq_true _ ▸ hway), if_neg hr]
      by_cases hf : c.stageFits (r.xlated c s).1 (r.places c s) = true
      · rw [if_pos hf, if_pos hf]
      · rw [if_neg hf, if_neg hf, State.afterCommit_of (hfit (Bool.not_eq_true _ ▸ hf))]

theorem State.issueStore_commitWaits (hl : r.lanes ≠ []) (ho : OrderOk r c s) (hr : r.relr = true) (hs : c.la.staged = true)
    (hw : s.commitWaits c.lg.wg = true) : s.issueStore c r = s.holdBack c := by
  obtain ⟨ha, hq⟩ := ho
  rw [State.issueStore_staged hs hl ha, if_pos hr, if_pos (hq hr), State.afterCommit_held fun h => Bool.noConfusion (hw.symm.trans (h hs))]

theorem State.issueStore_behindLoad (hl : r.lanes ≠ []) (ho : OrderOk r c s) (hr : r.relr = false) (hs : c.la.staged = true)
    (hw : (r.xlated c s).1.loadsInWay c r.size (r.places c s) = true) : s.issueStore c r = (r.xlated c s).1.holdBack c := by
  rw [State.issueStore_staged hs hl ho.1, if_neg (by simp [hr]), if_pos hw]

end

theorem storeLaw {i : Instr} {chk : Ctx → List Finding} {ok : Ctx → Prop} {r : Ctx → Req} (hx : Checks i chk fun c s => s.issueStore c (r c))
    (hok : ∀ c, ok c → chk c = []) (hidle : ∀ c, c.em = 0 → chk c = [] ∧ (r c).lanes = []) : StoreLaw i ok r := by
  refine ⟨fun s c h hw ⟨hk, hl, ho, hi, hu, hs⟩ => hx.issues h hw (hok c hk) hu (State.issueStore_at hl ho hs) hi,
    fun s c h hw ⟨hk, ho⟩ => hx.held h hw (hok c hk) (State.issueStore_held ho), fun s c h hw ⟨he, ho⟩ => ?idle,
    fun s c h hw ⟨hk, hl, ho, hr, hs, hc⟩ => hx.held h hw (hok c hk) (State.issueStore_commitWaits hl ho hr hs hc),
    fun s c h hw ⟨hk, hl, ho, hr, hs, hu, hc⟩ =>
      ⟨_, hx.next h hw (hok c hk) (State.issueStore_behindLoad hl ho hr hs hc) fun ht => hu ▸ ht, rfl⟩,
    fun s c h hw ⟨hk, ho, hi, hu, hs⟩ => hx.faults h hw (hok c hk) hu (State.issueStore_at hi.1 ho hs) hi, alignLaw r⟩
  obtain ⟨hchk, hl⟩ := hidle c he
  exact ⟨_, hx.next h hw hchk ((State.issueStore_direct (.inr (.inl hl))).trans (State.issueReq_idle ho hl)) id, rfl⟩

/-- The request of a store of lanes. -/
def storeReq (x : Ctx) (rel : Bool) (c : BitVec 4) (d : BitVec 6) (g : BitVec 3) (a : BitVec 6) (scaled size : Nat) : Req :=
  { kind := if rel then .rel else .store, ctr := c.toNat, d := d.toNat, size := size, relr := rel, need := 2,
    lanes := x.lanes, addr := x.addr g.toNat a.toNat scaled, data := fun j => (x.regBytes d.toNat (ceilDiv size 4) j).take size }

/-- The stores of lanes: the request may be written in another form. -/
theorem storeLaw_of {i : Instr} {rel : Bool} {ctr : BitVec 4} {d : BitVec 6} {g : BitVec 3} {a : BitVec 6} {scaled size : Nat}
    {r : Ctx → Req} (hx : ∀ s, exec i s = storeWord i s rel ctr d g a scaled size)
    (hr : ∀ c, storeReq c rel ctr d g a scaled size = r c) :
    StoreLaw i (fun c => c.RegOk a.toNat ∧ ∀ r, r < ceilDiv size 4 → c.RegOk (d.toNat + r)) r := by
  obtain rfl := funext hr
  exact storeLaw (chk := fun c => c.regsF a.toNat d.toNat (ceilDiv size 4)) hx (fun _ hk => Ctx.regsF_nil hk.1 hk.2)
    fun c he => ⟨Ctx.regsF_nil (Ctx.regOk_idle he _) fun _ _ => Ctx.regOk_idle he _, Ctx.lanes_nil he⟩

theorem checks_kst (ctr : BitVec 4) (d : BitVec 5) (g : BitVec 3) (a : BitVec 6) :
    Checks (.kst ctr d g a) (fun c => c.regF (maskOf c.once) a.toNat) fun c s => s.issueStore c
      { kind := .kstore, ctr := ctr.toNat, d := d.toNat, size := 8, need := 2, lanes := c.once, addr := c.addr g.toNat a.toNat 0,
        data := fun _ => natLe 8 (c.kr d.toNat).toNat } :=
  fun _ => rfl

/-- Settles O17. -/
theorem storeWords : Obligations.StoreWords := by
  unfold Obligations.StoreWords
  refine ⟨fun ctr d g a i => ?_, fun ctr d g a z => ?_, fun ctr d g a => ?_⟩
  · intro req law
    refine ⟨storeLaw_of (scaled := i.toNat) (fun _ => rfl) fun c => ?_,
      storeLaw_of (scaled := 2 * i.toNat) (fun _ => rfl) fun _ => rfl, storeLaw_of (scaled := 4 * i.toNat) (fun _ => rfl) fun _ => rfl,
      storeLaw_of (scaled := 8 * i.toNat) (fun _ => rfl) fun _ => rfl, storeLaw_of (scaled := 16 * i.toNat) (fun _ => rfl) fun _ => rfl⟩
    simp only [req, one_mul]
    rfl
  · intro size req
    refine storeLaw_of (rel := true) (scaled := 0) (fun _ => rfl) fun c => ?_
    rw [storeReq, Ctx.addr_eq_zero]
    rfl
  · have hx := checks_kst ctr d g a
    simp only [Ctx.addr_eq_zero] at hx
    exact storeLaw hx (fun c hk => Ctx.regF_once fun _ => hk)
      fun c he => ⟨Ctx.regF_once fun hn => absurd he hn, congrArg (List.take 1) (Ctx.lanes_nil he)⟩

/-! ## Atomics -/

/-- What an atomic does once its registers are read: in staged mode it reaches a forced commit point (R117). -/
def State.issueAtomic (s : State) (c : Ctx) (r : Req) : State :=
  if r.lanes.isEmpty then s.issueReq c r
  else if s.acquiring c.g || (r.relr && !s.quiet c.g) then s.holdBack c
  else s.afterCommit c fun s => s.issueReq c r

section
variable {s : State} {c : Ctx} {r : Req}

theorem State.issueAtomic_idle (ho : OrderOk r c s) (hl : r.lanes = []) : s.issueAtomic c r = s.addCtr c.g r.ctr 1 :=
  (if_pos (by simp [hl])).trans (State.issueReq_idle ho hl)

/-- Some lane executes the atomic, and nothing before it holds it. -/
theorem State.issueAtomic_free (hl : r.lanes ≠ []) (ho : OrderOk r c s) :
    s.issueAtomic c r = s.afterCommit c fun s => s.issueReq c r := by
  obtain ⟨ha, hq⟩ := ho
  refine (if_neg (by simp [hl])).trans (if_neg ?_)
  cases hr : r.relr <;> simp_all

theorem State.issueAtomic_held (h : ¬ OrderOk r c s) : s.issueAtomic c r = s.holdBack c := by
  by_cases hl : r.lanes = []
  · exact (if_pos (by simp [hl])).trans (State.issueReq_held h)
  · refine (if_neg (by simp [hl])).trans (if_pos ?_)
    by_contra hn
    refine h ⟨?_, fun hr => ?_⟩
    · simp_all
    · simp_all

end

theorem atomLaw {i : Instr} {chk : Ctx → List Finding} {ok : Ctx → Prop} {r : Ctx → Req} (hx : Checks i chk fun c s => s.issueAtomic c (r c))
    (hok : ∀ c, ok c → chk c = []) (hidle : ∀ c, c.em = 0 → chk c = [] ∧ (r c).lanes = []) : AtomLaw i ok r := by
  refine ⟨fun s c h hw ⟨hk, hl, ho, hc, hu, hi⟩ =>
      hx.issues h hw (hok c hk) hu ((State.issueAtomic_free hl ho).trans (State.afterCommit_of hc _)) hi,
    fun s c h hw ⟨hk, ho⟩ => hx.held h hw (hok c hk) (State.issueAtomic_held ho), fun s c h hw ⟨he, ho⟩ => ?idle,
    fun s c h hw ⟨hk, hl, ho, hc⟩ => hx.held h hw (hok c hk) ((State.issueAtomic_free hl ho).trans (State.afterCommit_held hc _)),
    fun s c h hw ⟨hk, ho, hc, hu, hi⟩ =>
      hx.faults h hw (hok c hk) hu ((State.issueAtomic_free hi.1 ho).trans (State.afterCommit_of hc _)) hi, alignLaw r⟩
  obtain ⟨hchk, hl⟩ := hidle c he
  exact ⟨_, hx.next h hw hchk (State.issueAtomic_idle ho hl) id, rfl⟩

/-- How many registers an atomic reads from its data register on: `cas` reads the compared value before the new one. -/
def AtomOp.regs (op : AtomOp) (w : BitVec 1) : Nat := let n := if w = 0 then 1 else 2; if op = .cas then 2 * n else n

/-- The request of an atomic. -/
def atomReq (x : Ctx) (op : AtomOp) (c : BitVec 4) (d : BitVec 6) (g : BitVec 3) (a : BitVec 6) (w f : BitVec 1) (o : BitVec 2) : Req :=
  let n := if w = 0 then 1 else 2
  { kind := .atomic op (f = 1), ctr := c.toNat, d := d.toNat, size := 4 * n, acqr := bit o 0, relr := bit o 1, need := 3,
    lanes := x.lanes, addr := x.addr g.toNat a.toNat 0,
    data := fun j => x.regBytes (if op = .cas then d.toNat + n else d.toNat) n j,
    cmp := fun j => if op = .cas then x.regBytes d.toNat n j else [] }

/-- The atomics: the request and the number of registers may be written in another form. -/
theorem atomLaw_of {i : Instr} {op : AtomOp} {ctr : BitVec 4} {d : BitVec 6} {g : BitVec 3} {a : BitVec 6} {w f : BitVec 1} {o : BitVec 2}
    {m : Nat} {r : Ctx → Req} (hx : ∀ s, exec i s = atomWord i s op ctr d g a w f o) (hm : op.regs w = m)
    (hr : ∀ c, atomReq c op ctr d g a w f o = r c) : AtomLaw i (fun c => c.RegOk a.toNat ∧ ∀ r, r < m → c.RegOk (d.toNat + r)) r := by
  obtain rfl := funext hr
  subst hm
  exact atomLaw (chk := fun c => c.regsF a.toNat d.toNat (op.regs w)) hx (fun _ hk => Ctx.regsF_nil hk.1 hk.2)
    fun c he => ⟨Ctx.regsF_nil (Ctx.regOk_idle he _) fun _ _ => Ctx.regOk_idle he _, Ctx.lanes_nil he⟩

/-- Settles O19. -/
theorem atomicWords : Obligations.AtomicWords := by
  unfold Obligations.AtomicWords
  intro ctr d g a z w f o req law n
  have hreq : ∀ op w c, atomReq c op ctr d g a w f o = req op (if w = 0 then 1 else 2) c := fun op w c => by
    rw [atomReq, Ctx.addr_eq_zero]
    rfl
  exact ⟨atomLaw_of (fun _ => rfl) rfl (hreq _ w), atomLaw_of (fun _ => rfl) rfl (hreq _ 0), atomLaw_of (fun _ => rfl) rfl (hreq _ w),
    atomLaw_of (fun _ => rfl) rfl (hreq _ w), atomLaw_of (fun _ => rfl) rfl (hreq _ w), atomLaw_of (fun _ => rfl) rfl (hreq _ w),
    atomLaw_of (fun _ => rfl) rfl (hreq _ w), atomLaw_of (fun _ => rfl) rfl (hreq _ w), atomLaw_of (fun _ => rfl) rfl (hreq _ w)⟩

end Sys2Proof.Machine
end
